-- ==== Sys2Proof/Word.lean ====
section
/-! DEFINITION. The word types of EIS 1.3 and the two keyed collections the state is made of. -/

namespace Sys2Proof

/-- A 32-bit register word (R116). -/
abbrev Word := BitVec 32

/-- A byte of memory (R5). -/
abbrev Byte := BitVec 8

/-- A 64-bit value (R39, R118). -/
abbrev DWord := BitVec 64

/-- A set of lanes: bit i is lane i (R82). -/
abbrev Mask := BitVec 128

/-- Sparse data by key: entries in strictly rising key order. -/
abbrev Tab (α : Type) := List (Nat × α)

/-- A keyed collection of values of which all but finitely many are zero: strictly rising keys, and no listed zero. -/
abbrev Store (w : Nat) := List (Nat × BitVec w)

end Sys2Proof
end

