-- ==== Sys2Proof/Fields.lean ====
section
/-! DEFINITION. The operand codes and the field layouts of instruction words: what a decoded instruction carries. -/

namespace Sys2Proof

/-- An operand, as the 10-bit long code names it (R33); a short code names a subset (R30). -/
inductive Operand where
  | v (n : BitVec 8)
  | o (n : BitVec 3)
  | latch
  | latchX
  | s (n : BitVec 6)
  | g (n : BitVec 5)
  | x (n : BitVec 2)
  | p (n : BitVec 3)
  | lit
  | zero
  | lane
  | troupe
  | idx (x : BitVec 2) (k : BitVec 5)
deriving DecidableEq, Repr

/-- The rounding modes of R35. -/
inductive RMode where
  | rne | rtz | rdn | rup | rna | rsr
deriving DecidableEq, Repr

/-- The six scopes of the memory model (R36). -/
inductive Scope where
  | troupe | ensemble | core | die | module | system
deriving DecidableEq, Repr

/-- The fields every first word carries (R28). -/
structure Head where
  yield : Bool
  stall : BitVec 3
deriving DecidableEq, Repr

/-- A base word of layout B3, with its trailing literal if it has one (R25, R29). -/
structure B3 where
  head : Head
  dst : Operand
  sa : Operand
  sb : Operand
  lit : Option DWord
deriving DecidableEq, Repr

/-- A base word of layout BI (R29). -/
structure BI where
  head : Head
  dst : Operand
  imm : BitVec 12
deriving DecidableEq, Repr

/-- A base word of layout BT (R29). -/
structure BT where
  head : Head
  tgt : BitVec 14
deriving DecidableEq, Repr

/-- The fields of word 0 of an extended form (R31). -/
structure W0 where
  head : Head
  pneg : Bool
  pred : BitVec 3
  scope : Scope
  sat : Bool
  rnd : RMode
  fmt : BitVec 6
deriving DecidableEq, Repr

/-- An extended form of layout X (R31, R32). -/
structure X where
  w0 : W0
  dst : Operand
  sa : Operand
  sb : Operand
  sc : Operand
  mod : BitVec 8
  disp : BitVec 14
  lit : Option DWord
deriving DecidableEq, Repr

/-- An extended form of layout XT (R31, R32). -/
structure XT where
  w0 : W0
  tgt : BitVec 14
  aux : BitVec 14
  si : Operand
  mod : BitVec 8
  lit : Option DWord
deriving DecidableEq, Repr

/-- The layouts an instruction word can have, with their fields. -/
inductive Form where
  | b3 (f : B3)
  | bi (f : BI)
  | bt (f : BT)
  | x (f : X)
  | xt (f : XT)
deriving DecidableEq, Repr

end Sys2Proof
end

