-- ==== Sys2Proof/Syntax.lean ====
section
/-! DEFINITION. The instructions and events of the machine: one constructor per row of spec/opcode_table.json. -/

namespace Sys2Proof

/-- One row of the opcode table: the extended form and the base form of every opcode (R49), then the machine's events
(spec/95_what_each_step_holds.md). An instruction carries the fields of its words, an event what it acts on. -/
inductive Instr where
  /-- NOP (R98): Extended-form nop that does nothing beyond delaying its successor by its stall count. -/
  | nop (f : X)
  /-- NOP_BASE (R98): Base-form nop that does nothing beyond delaying its successor by its stall count. -/
  | nopBase (f : B3)
  /-- BRA (R99): Extended branch that sets the split's program counter to a word of the current overlay; it is a drain point. -/
  | bra (f : XT)
  /-- BRA_BASE (R99): Base branch of layout BT to word TGT of the current overlay; it is a drain point. -/
  | braBase (f : BT)
  /-- BRC (R100): Conditional branch that takes, falls through or forks the split by a per-lane predicate condition, with a reconvergence address. -/
  | brc (f : XT)
  /-- BRX (R101): Indexed branch that sends each lane to a table entry chosen by its clamped index, forking on several targets. -/
  | brx (f : XT)
  /-- CALL (R102): Extended call that writes the return program counter into o7 of each lane and branches to the target. -/
  | call (f : XT)
  /-- CALL_BASE (R102): Base call of layout BT that writes the return program counter into o7 and branches. -/
  | callBase (f : BT)
  /-- CALLX (R103): Indexed call that writes o7, chooses a target per lane and forks with the return address as reconvergence point. -/
  | callx (f : XT)
  /-- OCALL (R76): Overlay call that saves the return program counter and jumps into a resident overlay, or traps with cause 0x0C if it is absent. -/
  | ocall (f : XT)
  /-- RET (R104): Extended return that sends each lane to the program counter in its o7, forking on distinct targets. -/
  | ret (f : X)
  /-- RET_BASE (R104): Base return that sends each lane to the program counter in its o7. -/
  | retBase (f : B3)
  /-- EXIT (R105): Extended exit that removes the active lanes from the split, freeing its entry when the mask empties. -/
  | exit (f : X)
  /-- EXIT_BASE (R105): Base exit that removes the split's lanes for good. -/
  | exitBase (f : B3)
  /-- YIELD (R106): Extended yield that makes its split the most recently issued and passes the quarter's next selection. -/
  | yield (f : X)
  /-- YIELD_BASE (R106): Base yield that makes its split the most recently issued. -/
  | yieldBase (f : B3)
  /-- REJOIN (R107): Extended rejoin that brings the split to a meeting point under the rejoin rule. -/
  | rejoin (f : X)
  /-- REJOIN_BASE (R107): Base rejoin that brings the split to a meeting point under the rejoin rule. -/
  | rejoinBase (f : B3)
  /-- FULL (R94): Extended full that waits for the troupe's other splits to drain, then widens the mask to every live lane and opens the bracket. -/
  | full (f : X)
  /-- FULL_BASE (R94): Base full that opens the full/endfull bracket. -/
  | fullBase (f : B3)
  /-- ENDFULL (R94): Extended endfull that restores the saved mask and closes the bracket. -/
  | endfull (f : X)
  /-- ENDFULL_BASE (R94): Base endfull that closes the full/endfull bracket. -/
  | endfullBase (f : B3)
  /-- VOTE (R111): Cross-lane vote computing any, all, uni or a ballot over the active lanes. -/
  | vote (f : X)
  /-- SHFL (R112): Cross-lane shuffle that reads a source from another lane by idx, up, down or xor within a segment. -/
  | shfl (f : X)
  /-- TRED (R113): Exact integer reduction over the active lanes, with optional saturating add. -/
  | tred (f : X)
  /-- TREDF (R114): Floating-point reduction over the active lanes by a fixed tree. -/
  | tredf (f : X)
  /-- SCAN (R115): Inclusive or exclusive integer running scan over the active lanes. -/
  | scan (f : X)
  /-- SPLQ (R109): Extended split query that writes a fact about the executing split selected by MOD. -/
  | splq (f : X)
  /-- SPLQ_BASE (R109): Base split query that writes the lane count of the executing split. -/
  | splqBase (f : B3)
  /-- MOV (R136): Extended move of a source value to a destination. -/
  | mov (f : X)
  /-- MOV_BASE (R136): Base move of a source value to a destination. -/
  | movBase (f : B3)
  /-- MOVI (R136): Extended move-immediate that takes its value from the literal or the zero code. -/
  | movi (f : X)
  /-- MOVI_BASE (R136): Base move of a sign-extended 12-bit immediate, layout BI. -/
  | moviBase (f : BI)
  /-- IADD (R137): Extended element-wise integer add under an integer format entry, optionally saturating. -/
  | iadd (f : X)
  /-- IADD_BASE (R137): Base element-wise integer add in ft3. -/
  | iaddBase (f : B3)
  /-- ISUB (R137): Extended element-wise integer subtract, optionally saturating. -/
  | isub (f : X)
  /-- ISUB_BASE (R137): Base element-wise integer subtract in ft3. -/
  | isubBase (f : B3)
  /-- IADDC (R139): 32-bit add with carry in from SC and carry out to a predicate. -/
  | iaddc (f : X)
  /-- ISUBB (R139): 32-bit subtract with borrow in from SC and borrow out to a predicate. -/
  | isubb (f : X)
  /-- IMUL (R137): Extended element-wise integer multiply, optionally saturating. -/
  | imul (f : X)
  /-- IMUL_BASE (R137): Base element-wise integer multiply in ft3. -/
  | imulBase (f : B3)
  /-- IMULH (R137): Extended element-wise high half of an integer product. -/
  | imulh (f : X)
  /-- IMULH_BASE (R137): Base high half of an integer product in ft3. -/
  | imulhBase (f : B3)
  /-- IMULW (R140): Extended widening multiply writing the exact 64-bit product into a pair. -/
  | imulw (f : X)
  /-- IMULW_BASE (R140): Base widening multiply writing a 64-bit product into a pair. -/
  | imulwBase (f : B3)
  /-- IMAD (R138): Element-wise integer multiply-add with one Fit. -/
  | imad (f : X)
  /-- ISAD (R138): Sum of absolute element differences added to a 32-bit accumulator. -/
  | isad (f : X)
  /-- IMIN (R137): Extended element-wise integer minimum. -/
  | imin (f : X)
  /-- IMIN_BASE (R137): Base element-wise integer minimum in ft3. -/
  | iminBase (f : B3)
  /-- IMAX (R137): Extended element-wise integer maximum. -/
  | imax (f : X)
  /-- IMAX_BASE (R137): Base element-wise integer maximum in ft3. -/
  | imaxBase (f : B3)
  /-- IABS (R137): Extended element-wise integer absolute value. -/
  | iabs (f : X)
  /-- IABS_BASE (R137): Base element-wise integer absolute value in ft3. -/
  | iabsBase (f : B3)
  /-- INEG (R137): Extended element-wise integer negation. -/
  | ineg (f : X)
  /-- INEG_BASE (R137): Base element-wise integer negation in ft3. -/
  | inegBase (f : B3)
  /-- ICMP (R141): Element-wise integer compare writing all-ones or zero per element. -/
  | icmp (f : X)
  /-- SEL (R142): Selects a or b by whether c is non-zero. -/
  | sel (f : X)
  /-- AND (R142): Extended bitwise AND. -/
  | and (f : X)
  /-- AND_BASE (R142): Base bitwise AND. -/
  | andBase (f : B3)
  /-- OR (R142): Extended bitwise OR. -/
  | or (f : X)
  /-- OR_BASE (R142): Base bitwise OR. -/
  | orBase (f : B3)
  /-- XOR (R142): Extended bitwise XOR. -/
  | xor (f : X)
  /-- XOR_BASE (R142): Base bitwise XOR. -/
  | xorBase (f : B3)
  /-- NOT (R142): Extended bitwise NOT. -/
  | not (f : X)
  /-- NOT_BASE (R142): Base bitwise NOT. -/
  | notBase (f : B3)
  /-- ANDN (R142): Extended a AND NOT b. -/
  | andn (f : X)
  /-- ANDN_BASE (R142): Base a AND NOT b. -/
  | andnBase (f : B3)
  /-- BSEL (R142): Bitwise select of a or b under a mask. -/
  | bsel (f : X)
  /-- LOGIC3 (R142): Three-input bitwise function given by an 8-bit truth table in MOD. -/
  | logic3 (f : X)
  /-- SHL (R143): Extended logical shift left. -/
  | shl (f : X)
  /-- SHL_BASE (R143): Base logical shift left. -/
  | shlBase (f : B3)
  /-- SHR (R143): Extended logical shift right. -/
  | shr (f : X)
  /-- SHR_BASE (R143): Base logical shift right. -/
  | shrBase (f : B3)
  /-- SAR (R143): Extended arithmetic shift right. -/
  | sar (f : X)
  /-- SAR_BASE (R143): Base arithmetic shift right. -/
  | sarBase (f : B3)
  /-- ROT (R143): Extended rotate left. -/
  | rot (f : X)
  /-- ROT_BASE (R143): Base rotate left. -/
  | rotBase (f : B3)
  /-- POPC (R144): Extended population count. -/
  | popc (f : X)
  /-- POPC_BASE (R144): Base population count. -/
  | popcBase (f : B3)
  /-- CLZ (R144): Extended count of leading zeros. -/
  | clz (f : X)
  /-- CLZ_BASE (R144): Base count of leading zeros. -/
  | clzBase (f : B3)
  /-- CTZ (R144): Extended count of trailing zeros. -/
  | ctz (f : X)
  /-- CTZ_BASE (R144): Base count of trailing zeros. -/
  | ctzBase (f : B3)
  /-- BREV (R144): Extended bit reversal. -/
  | brev (f : X)
  /-- BREV_BASE (R144): Base bit reversal. -/
  | brevBase (f : B3)
  /-- BFX (R145): Bit-field extract, signed or unsigned. -/
  | bfx (f : X)
  /-- BFI (R145): Bit-field insert. -/
  | bfi (f : X)
  /-- PERM (R146): Extended byte permute by selector nibbles. -/
  | perm (f : X)
  /-- PERM_BASE (R146): Base byte permute by selector nibbles. -/
  | permBase (f : B3)
  /-- SEXT (R147): Sign extension from a width of 1 to 32 bits. -/
  | sext (f : X)
  /-- ZEXT (R147): Zero extension from a width of 1 to 32 bits. -/
  | zext (f : X)
  /-- LEA (R148): Forms a 64-bit address from base, shifted index and displacement. -/
  | lea (f : X)
  /-- XSET (R149): Writes a bounds-checked index register, trapping if out of bounds. -/
  | xset (f : X)
  /-- XBND (R150): Sets an index bounds pair and returns its previous value. -/
  | xbnd (f : X)
  /-- SMOV (R151): Extended move of a uniform value into a scalar register of the split. -/
  | smov (f : X)
  /-- SMOV_BASE (R151): Base move of a uniform value into a scalar register. -/
  | smovBase (f : B3)
  /-- GMOV (R154): Writes an ensemble g register under ownership rules, or reads one. -/
  | gmov (f : X)
  /-- VTOS (R153): Cross-lane move of one lane's value into a scalar register. -/
  | vtos (f : X)
  /-- STOV (R152): Extended write of a uniform value into one lane's register. -/
  | stov (f : X)
  /-- STOV_BASE (R152): Base write of a uniform value into one lane's register. -/
  | stovBase (f : B3)
  /-- PLOG (R155): Predicate logic by a 4-bit truth table. -/
  | plog (f : X)
  /-- PMOV (R156): Gets all predicates into a register or sets predicates from a register under a mask. -/
  | pmov (f : X)
  /-- FSET (R182): Writes a programmable format-table entry from the lowest active lane's 64-bit value. -/
  | fset (f : X)
  /-- FGET (R182): Reads a format-table entry as bits into a pair. -/
  | fget (f : X)
  /-- FSAVE (R183): Stores the whole format table to 512 bytes of memory. -/
  | fsave (f : X)
  /-- FLOAD (R183): Loads entries ft16 to ft63 from memory as 48 fsets. -/
  | fload (f : X)
  /-- CVT (R184): Converts one element per lane between format entries. -/
  | cvt (f : X)
  /-- CVTSR (R184): Converts with stochastic rounding using an explicit random operand. -/
  | cvtsr (f : X)
  /-- PACK (R186): Packs a group of elements into plain, TX or block-scaled dense form. -/
  | pack (f : X)
  /-- UNPACK (R187): Expands a packed group into one element per register. -/
  | unpack (f : X)
  /-- FADD (R196): Extended floating-point add. -/
  | fadd (f : X)
  /-- FADD_BASE (R196): Base FP32 add. -/
  | faddBase (f : B3)
  /-- FSUB (R196): Extended floating-point subtract. -/
  | fsub (f : X)
  /-- FSUB_BASE (R196): Base FP32 subtract. -/
  | fsubBase (f : B3)
  /-- FMUL (R196): Extended floating-point multiply. -/
  | fmul (f : X)
  /-- FMUL_BASE (R196): Base FP32 multiply. -/
  | fmulBase (f : B3)
  /-- FFMA (R196): Fused multiply-add with one rounding. -/
  | ffma (f : X)
  /-- FMIN (R200): Extended floating-point minimum. -/
  | fmin (f : X)
  /-- FMIN_BASE (R200): Base FP32 minimum. -/
  | fminBase (f : B3)
  /-- FMAX (R200): Extended floating-point maximum. -/
  | fmax (f : X)
  /-- FMAX_BASE (R200): Base FP32 maximum. -/
  | fmaxBase (f : B3)
  /-- FABS (R204): Extended clear of each element's sign bit. -/
  | fabs (f : X)
  /-- FABS_BASE (R204): Base clear of the sign bit in FP32. -/
  | fabsBase (f : B3)
  /-- FCLAMP (R201): Clamps each element between low and high bounds. -/
  | fclamp (f : X)
  /-- FCMP (R202): Element-wise floating-point compare by condition. -/
  | fcmp (f : X)
  /-- FCLASS (R203): Writes a class code for each element. -/
  | fclass (f : X)
  /-- FRND (R199): Rounds each element to an integral value in a chosen mode. -/
  | frnd (f : X)
  /-- FSCALE (R198): Extended multiply of each element by a power of two. -/
  | fscale (f : X)
  /-- FSCALE_BASE (R198): Base FP32 multiply by a power of two. -/
  | fscaleBase (f : B3)
  /-- FDOT2 (R197): Two-term dot product plus an FP32 addend, rounded once to FP32. -/
  | fdot2 (f : X)
  /-- FCPSGN (R204): Extended copy of the sign bit of b onto a. -/
  | fcpsgn (f : X)
  /-- FCPSGN_BASE (R204): Base sign copy in FP32. -/
  | fcpsgnBase (f : B3)
  /-- FGETEXP (R205): Extended extraction of the unbiased exponent as a float. -/
  | fgetexp (f : X)
  /-- FGETEXP_BASE (R205): Base exponent extraction in FP32. -/
  | fgetexpBase (f : B3)
  /-- FGETMAN (R205): Extended extraction of the significand scaled to [1, 2). -/
  | fgetman (f : X)
  /-- FGETMAN_BASE (R205): Base significand extraction in FP32. -/
  | fgetmanBase (f : B3)
  /-- FRCP (R206): Extended special-function reciprocal. -/
  | frcp (f : X)
  /-- FRCP_BASE (R206): Base FP32 reciprocal in the special-function pipe. -/
  | frcpBase (f : B3)
  /-- FRSQ (R206): Extended reciprocal square root. -/
  | frsq (f : X)
  /-- FRSQ_BASE (R206): Base FP32 reciprocal square root. -/
  | frsqBase (f : B3)
  /-- FSQRT (R206): Extended correctly rounded square root. -/
  | fsqrt (f : X)
  /-- FSQRT_BASE (R206): Base FP32 square root. -/
  | fsqrtBase (f : B3)
  /-- FEXP2 (R206): Extended base-2 exponential. -/
  | fexp2 (f : X)
  /-- FEXP2_BASE (R206): Base FP32 base-2 exponential. -/
  | fexp2Base (f : B3)
  /-- FLOG2 (R206): Extended base-2 logarithm. -/
  | flog2 (f : X)
  /-- FLOG2_BASE (R206): Base FP32 base-2 logarithm. -/
  | flog2Base (f : B3)
  /-- FSINPI (R206): Extended sin(pi x). -/
  | fsinpi (f : X)
  /-- FSINPI_BASE (R206): Base FP32 sin(pi x). -/
  | fsinpiBase (f : B3)
  /-- FCOSPI (R206): Extended cos(pi x). -/
  | fcospi (f : X)
  /-- FCOSPI_BASE (R206): Base FP32 cos(pi x). -/
  | fcospiBase (f : B3)
  /-- ACLAIM (R233): Claims an A-store slot name and writes a status. -/
  | aclaim (f : X)
  /-- AREL (R233): Releases an A-store slot name, losing its contents. -/
  | arel (f : X)
  /-- BCLAIM (R233): Claims a B-store slot name and writes a status. -/
  | bclaim (f : X)
  /-- BREL (R233): Releases a B-store slot name. -/
  | brel (f : X)
  /-- OPLD (R234): Copies stage bytes into an operand slot under a range lock, posting to a barrier at completion. -/
  | opld (f : X)
  /-- MMA (R235): Matrix multiply-accumulate of A and B slots into an accumulator tile. -/
  | mma (f : X)
  /-- MMASP (R235): Matrix multiply-accumulate with a 2:4 structured-sparse A and a metadata tile. -/
  | mmasp (f : X)
  /-- MMACO (R236): Matrix multiply-accumulate that occupies the array at issue and starts at a cue point plus offset. -/
  | mmaco (f : X)
  /-- ACCZERO (R237): Claims a tile if needed and zeroes the rows of the active lanes. -/
  | acczero (f : X)
  /-- ACCRD (R237): Reads and converts accumulator columns into registers. -/
  | accrd (f : X)
  /-- ACCWR (R237): Writes accumulator columns from registers, claiming the tile if needed. -/
  | accwr (f : X)
  /-- ACCFREE (R237): Releases an accumulator tile. -/
  | accfree (f : X)
  /-- SLD (R265): Per-lane stage load, starting absent fill windows and trapping on them. -/
  | sld (f : X)
  /-- SST (R265): Per-lane stage store, with barrier phase checks on barrier bytes. -/
  | sst (f : X)
  /-- SGATH (R266): Gathers one memory row per active lane into consecutive stage rows. -/
  | sgath (f : X)
  /-- SFILL (R267): Fills a stage range with a 32-bit pattern through the stagehand. -/
  | sfill (f : X)
  /-- WBIND (R268): Binds a window from a 64-byte stage record after checking it. -/
  | wbind (f : X)
  /-- WSET (R269): Changes one field of a bound window. -/
  | wset (f : X)
  /-- TOUCH (R271): Starts the copy of a window, optionally guarded or with a channel offset. -/
  | touch (f : X)
  /-- WREL (R270): Unbinds a window after any copy completes. -/
  | wrel (f : X)
  /-- WSTAT (R272): Reads a window's status word, optionally clearing ERR. -/
  | wstat (f : X)
  /-- BCOMMIT (R273): Closes the troupe's open batch and writes its number. -/
  | bcommit (f : X)
  /-- BWAIT (R273): Waits until every batch up to a number has completed. -/
  | bwait (f : X)
  /-- TBINIT (R274): Initialises a transaction barrier, optionally as the epoch barrier. -/
  | tbinit (f : X)
  /-- TBARR (R275): Arrives at a barrier, optionally adding expected bytes, and returns the phase. -/
  | tbarr (f : X)
  /-- TBEXP (R275): Adds expected sectors to a barrier without arriving. -/
  | tbexp (f : X)
  /-- TBWAIT (R276): Waits for a barrier phase to differ from the given phase, then acquires. -/
  | tbwait (f : X)
  /-- LD (R298): Per-lane load from base plus lane offset. -/
  | ld (f : X)
  /-- ST (R298): Per-lane store to base plus lane offset. -/
  | st (f : X)
  /-- LDG (R298): Per-lane load from a 64-bit address pair. -/
  | ldg (f : X)
  /-- STG (R298): Per-lane store to a 64-bit address pair. -/
  | stg (f : X)
  /-- LDC (R299): One uniform load written to every active lane or a scalar. -/
  | ldc (f : X)
  /-- ATOM (R300): Per-lane atomic read-modify-write at the home, returning the old value. -/
  | atom (f : X)
  /-- ARED (R300): Per-lane atomic reduction without a return value. -/
  | ared (f : X)
  /-- ATOMX (R301): 16-byte atomic exchange or compare-and-swap. -/
  | atomx (f : X)
  /-- PREF (R302): Prefetches sectors into L2 and optionally L1, never trapping. -/
  | pref (f : X)
  /-- INVAL (R303): Invalidates the issuing core's L1 sectors of a range. -/
  | inval (f : X)
  /-- SBIND (R309): Writes a binding-table entry tying a region to a sync object. -/
  | sbind (f : X)
  /-- SUNBIND (R310): Frees one binding entry or all of them. -/
  | sunbind (f : X)
  /-- ACQ (R311): Reads, conditionally waits on and modifies a sync word, then acquires its regions. -/
  | acq (f : X)
  /-- REL (R313): Holds for earlier accesses, performs release actions and writes a sync word. -/
  | rel (f : X)
  /-- FENCE (R314): Release, acquire or full fence over the universal region at a scope. -/
  | fence (f : X)
  /-- SPAWN (R357): Reads a spawn descriptor and enqueues a child production, writing a status. -/
  | spawn (f : X)
  /-- JOIN (R358): Waits until the named join-group counters reach zero, then acquires. -/
  | join (f : X)
  /-- TRIG (R360): Releases the launch's write ranges and triggers the producer ensemble. -/
  | trig (f : X)
  /-- PARK (R358): Waits on join groups and gives up the core at once when blocked. -/
  | park (f : X)
  /-- QSIG (R361): Releases a sync word as rel does and re-evaluates queues waiting on it. -/
  | qsig (f : X)
  /-- OVLD (R73): Loads an overlay from the directory into an overlay slot and writes a status. -/
  | ovld (f : X)
  /-- CUEARM (R368): Sends an arm or clear of a cue to the home desk. -/
  | cuearm (f : X)
  /-- CUE (R375): Issues a cue action to touch a window, arrive at a barrier or resolve a guard at a cue point. -/
  | cue (f : X)
  /-- CUEWAIT (R376): Waits until a cue point plus offset. -/
  | cuewait (f : X)
  /-- GDSET (R377): Resolves a guard slot true or false and returns its prior state. -/
  | gdset (f : X)
  /-- GDCLR (R377): Returns a guard slot to unresolved and returns its prior state. -/
  | gdclr (f : X)
  /-- TRAP (R411): Raises a software trap with cause 0x13 and the MOD code. -/
  | trap (f : X)
  /-- SYSC (R411): Raises a system-call trap carrying a 64-bit value. -/
  | sysc (f : X)
  /-- TRET (R391): Extended return from a trap handler restoring the recorded split state. -/
  | tret (f : X)
  /-- TRET_BASE (R391): Base return from a trap handler. -/
  | tretBase (f : B3)
  /-- RDSR (R412): Reads a system register by number. -/
  | rdsr (f : X)
  /-- WRSR (R412): Writes a system register by number from the lowest active lane. -/
  | wrsr (f : X)
  /-- BKPT (R411): Extended breakpoint raising cause 0x12 with the MOD code. -/
  | bkpt (f : X)
  /-- BKPT_BASE (R411): Base breakpoint with code 0. -/
  | bkptBase (f : B3)
  /-- HALT (R413): Extended halt of the troupe or termination of the context. -/
  | halt (f : X)
  /-- HALT_BASE (R413): Base halt.troupe that makes every lane of the troupe exit. -/
  | haltBase (f : B3)
  /-- RDCYC (R414): Extended read of the die cycle counter into a pair. -/
  | rdcyc (f : X)
  /-- RDCYC_BASE (R414): Base read of the die cycle counter. -/
  | rdcycBase (f : B3)
  /-- RDNRG (R414): Extended read of the context or partition energy account. -/
  | rdnrg (f : X)
  /-- RDNRG_BASE (R414): Base read of the context energy account. -/
  | rdnrgBase (f : B3)
  /-- RDID (R414): Reads the troupe's location or the device identification. -/
  | rdid (f : X)
  /-- TLBINV (R415): Starts a module-wide shootdown of translations and holds until all cores acknowledge. -/
  | tlbinv (f : X)
  /-- UNDEFINED_INSTRUCTION (R53): A word with an unassigned opcode, including 0x00 and 0xFF, raises Trap(0x01) at decode. -/
  | undefinedInstruction (w : Word)
  /-- FETCH_BEYOND_OVERLAY (R27): Fall-through or a target past the overlay's end raises Trap(0x01) at fetch. -/
  | fetchBeyondOverlay (fell : Bool)
  /-- FETCH_OVERLAY_ABSENT (R70): Fetch from an overlay no slot holds raises Trap(0x0C) before any effect. -/
  | fetchOverlayAbsent
  /-- FIXED_LATENCY_WRITE (R42): A pipe result lands in the latch or files its fixed latency after issue. -/
  | fixedLatencyWrite (t n : Nat)
  /-- SCOREBOARD_RESULT_WRITE (R47): A variable-latency result (status, cross-lane, special function, accrd, rdsr) is written and its scoreboard hold released. -/
  | scoreboardResultWrite (t n : Nat)
  /-- LOAD_SECTOR_RETURN (R291): A load's sector returns from L1, L2 or a port, writing the result when the last sector arrives. -/
  | loadSectorReturn (t n : Nat)
  /-- STORE_ACKNOWLEDGE (R378): A store or atomic is acknowledged at its home slice or port. -/
  | storeAcknowledge (t n : Nat)
  /-- RECONVERGENCE_FUSION (R86): Splits waiting at their reconvergence address with equal frame stacks fuse and pop a frame. -/
  | reconvergenceFusion (t : Nat)
  /-- REJOIN_RELEASE (R86): When every split stands in STATE 3, splits at the same rejoin fuse with DEPTH 0. -/
  | rejoinRelease (t : Nat)
  /-- SPLIT_SWAP_BACK (R90): The split longest on the split stack moves into a freed resident entry. -/
  | splitSwapBack (t : Nat)
  /-- SPLIT_EXCHANGE (R90): Every 4,096 on-stage cycles a spilled split is exchanged with a blocked resident split. -/
  | splitExchange (t : Nat)
  /-- TROUPE_END (R79): A troupe whose lanes have all exited and whose commands completed frees its slot and granules. -/
  | troupeEnd (t : Nat)
  /-- IMAGE_LOAD (R68): The stage manager checks an object image and accepts or refuses it with a status. -/
  | imageLoad (n : Nat) (img : List Byte) (launched : Bool)
  /-- OVLD_COPY_COMPLETE (R73): An overlay copy lands, the slot is tagged and status 1 is written. -/
  | ovldCopyComplete (n : Nat)
  /-- SHOOTDOWN_ACKNOWLEDGE (R77): A core acknowledges a shootdown, discarding TLB entries, overlay slots and loop buffers. -/
  | shootdownAcknowledge (core n : Nat)
  /-- FORMAT_WRITE_AT_HOME (R159): A format-table write reaches the table home, is applied and broadcast. -/
  | formatWriteAtHome (c core e : Nat) (v : DWord) (n : Nat)
  /-- FORMAT_BROADCAST_APPLY (R159): A core's copy of the format table applies a home broadcast, or ends its echo wait. -/
  | formatBroadcastApply (c core e : Nat) (v : DWord) (n : Nat)
  /-- MATRIX_TILE_READY (R227): A matrix instruction's tile becomes ready, merging flags and releasing its ranges. -/
  | matrixTileReady (core n : Nat)
  /-- OPLD_COMPLETE (R234): The last byte of an opld lands, releasing its lock and posting its barrier. -/
  | opldComplete (n : Nat)
  /-- MMACO_START (R236): An mmaco waiting in the array fires at its cue point plus offset and starts its steps. -/
  | mmacoStart (core n : Nat)
  /-- COPY_START (R248): The stagehand starts a queued copy, registering its range locks. -/
  | copyStart (t : Nat)
  /-- SECTOR_LANDING (R248): A copy sector lands, decrementing its barrier and, at the last, completing the window and releasing locks. -/
  | sectorLanding (n j : Nat)
  /-- TBWAIT_WAKE (R276): A split waiting in tbwait becomes ready 8 cycles after the phase completes. -/
  | tbwaitWake (t uid : Nat)
  /-- SFILL_COMPLETE (R267): An sfill finishes writing its range and releases its lock. -/
  | sfillComplete (n : Nat)
  /-- REDUCE_CONTRIBUTION (R262): A reduction contribution arrives at its home slice and is applied, buffered, discarded or refused. -/
  | reduceContribution (n sec : Nat)
  /-- REDUCE_RETRY (R262): After a staging or episode place frees, the stagehand resends a refused contribution. -/
  | reduceRetry (n sec : Nat)
  /-- FAULT_RECORD_WRITE (R287): The fault unit writes a record of a new group into the fault queue and advances TAIL. -/
  | faultRecordWrite (d : Nat)
  /-- FRPLY_REPLAY (R289): A FRPLY write with ACT 0 closes a fault group so its waiters replay. -/
  | frplyReplay (d : Nat) (token : Word)
  /-- FRPLY_RAISE (R289): A FRPLY write with ACT 1 closes a group and raises its fault as a precise trap in each waiter. -/
  | frplyRaise (d : Nat) (token : Word)
  /-- PARKED_REPLAY (R289): 16 cycles after the reply, a parked instruction reissues for its unfinished lanes or a copy resumes. -/
  | parkedReplay (n : Nat)
  /-- FQHEAD_WRITE (R287): The service advances FQHEAD, freeing ring places and dropping the interrupt when the ring empties. -/
  | fqheadWrite (d : Nat) (v : Word)
  /-- ACQ_WAIT_SUCCESS (R312): A waiting acq's condition holds on re-evaluation, so it modifies the word and acquires. -/
  | acqWaitSuccess (n : Nat)
  /-- ACQ_POLL (R312): Every 256 cycles the core rereads the word of a system-scope or off-device waiting acq. -/
  | acqPoll (n : Nat)
  /-- DOORBELL (R441): A write to a doorbell page rings its queue. -/
  | doorbell (q : Nat)
  /-- QUEUE_MAP (R333): The front end maps an enabled queue with unstarted packets to a free hardware slot. -/
  | queueMap (q : Nat)
  /-- LAUNCH_PACKET (R337): A launch packet is read whole and enters hazard matching and energy admission. -/
  | launchPacket (q : Nat)
  /-- WAIT_PACKET (R338): A wait packet reads its sync word and completes or parks the queue. -/
  | waitPacket (q : Nat)
  /-- SIGNAL_PACKET (R339): A signal packet releases over the universal region and applies its op to a sync word. -/
  | signalPacket (q : Nat)
  /-- NOP_PACKET (R337): A nop packet starts and completes at the head of its queue. -/
  | nopPacket (q : Nat)
  /-- FORMAT_PRELOAD_PACKET (R337): A format-preload packet writes programmable format entries through the table home. -/
  | formatPreloadPacket (q : Nat)
  /-- WAIT_PACKET_REEVALUATE (R338): Every 65,536 cycles, or on a write or doorbell, the signal unit re-evaluates a waiting queue. -/
  | waitPacketReevaluate (q : Nat)
  /-- LAUNCH_START (R342): A launch whose dependences are resolved and which is admitted starts its seed as a placement request. -/
  | launchStart (n : Nat)
  /-- PRODUCTION_RETIRE (R344): A production whose ensembles have ended and children retired releases and decrements its counters. -/
  | productionRetire (n : Nat)
  /-- ENERGY_INTERVAL_START (R348): At each 2^21-cycle interval the partition budget is reset and waiting launches may be admitted. -/
  | energyIntervalStart (p : Nat)
  /-- PRIORITY_AGING (R349): A queue starved for 4,194,304 cycles rises one priority level. -/
  | priorityAging (q : Nat)
  /-- ENSEMBLE_PLACEMENT (R350): The scheduler places a request on the lowest die and core with room for its allotment. -/
  | ensemblePlacement (p : Nat)
  /-- GREEN_ROOM_TRANSFER (R354): The spawn buffer takes an entry from a context's green room when it has room. -/
  | greenRoomTransfer (c : Nat)
  /-- CUEARM_AT_DESK (R368): An arm reaches the home desk and becomes a pending broadcast. -/
  | cuearmAtDesk (core c cue off : Nat) (clear : Bool)
  /-- CUE_BROADCAST (R368): At cycle P the desk writes the cue point or clear and broadcasts it. -/
  | cueBroadcast (c cue n : Nat)
  /-- CUE_COPY_WRITE (R368): A core's cue copy is written at P plus its latency, giving waiting actions their point. -/
  | cueCopyWrite (core c cue p : Nat) (set : Bool)
  /-- CUE_TOUCH_FIRE (R375): A cue.touch action fires and touches its window. -/
  | cueTouchFire (core n : Nat)
  /-- CUE_ARR_FIRE (R375): A cue.arr action fires and arrives at its barrier with count 1. -/
  | cueArrFire (core n : Nat)
  /-- CUE_GUARD_FIRE (R375): A cue.gtrue or cue.gfalse action fires and resolves a guard slot. -/
  | cueGuardFire (core n : Nat)
  /-- CUEWAIT_FIRE (R376): A cuewait action fires and its split becomes ready. -/
  | cuewaitFire (core n : Nat)
  /-- CONTEXT_SWITCH (R396): On a stage-manager request the core moves its on-stage context to the wings and another onto the stage. -/
  | contextSwitch (core c : Nat)
  /-- AUTO_SWITCH (R396): After 64 idle cycles of the on-stage context the core switches to an eligible context in the wings. -/
  | autoSwitch (core : Nat)
  /-- STOP (R397): A core latches a stop, drains issued work and freezes the split state to a restart point. -/
  | stop (es : List Nat) (park : Bool)
  /-- CAPTURE_COMPLETE (R400): Capture of a stopped set ends and the understudy engine saves it. -/
  | captureComplete (e : Nat)
  /-- CHECKPOINT_CUT (R402): At the end of each checkpoint interval the context is stopped and its dirty units form a cut. -/
  | checkpointCut (c : Nat)
  /-- UNIT_STREAMED (R402): The engine streams a protected unit, releasing writes held on it. -/
  | unitStreamed (c : Nat)
  /-- CUT_COMMIT (R403): Once every record of a cut is acknowledged, the image header is updated to commit it. -/
  | cutCommit (c : Nat)
  /-- RESUMPTION (R408): A context is restored from its committed cut and resumes on any cores. -/
  | resumption (c : Nat)
  /-- CORE_FENCE (R409): An uncorrectable error in a core fences it and recovers or terminates its contexts. -/
  | coreFence (core : Nat)
  /-- SAVECOST_UPDATE (R407): Every 65,536 cycles SAVECOST is recomputed. -/
  | savecostUpdate (c : Nat)
  /-- MAPCMD_COMMIT (R420): A MAPCMD write with GO starts a mapping commit, holding accesses and discarding the region. -/
  | mapcmdCommit (v : Word)
  /-- MAP_CHECK_COMPLETE (R420): After 2,112 cycles the matrix check ends and the new mapping is applied or rejected. -/
  | mapCheckComplete
  /-- ECC_UNCORRECTABLE (R423): An uncorrectable error fences its 4 KiB page and reports the fence. -/
  | eccUncorrectable (pa ctxid : Nat)
  /-- FCLR_WRITE (R440): A write of a physical address to FCLR clears its fence entry. -/
  | fclrWrite (k pa : Nat)
  /-- REFRESH_HEARTBEAT (R424): Every 512 ns the management core sends a heartbeat certifying refresh. -/
  | refreshHeartbeat (k : Nat)
  /-- REFRESH_TAKEOVER (R424): At the fourth missed heartbeat mark the memory interface takes over refresh. -/
  | refreshTakeover (k : Nat)
  /-- BASE_DIE_RESET (R424): System software resets a base die, which restarts and takes refresh back. -/
  | baseDieReset (k : Nat)
  /-- SCRUB (R425): The management core scrubs each codeword once per scrub period. -/
  | scrub (k : Nat)
  /-- FLIT_NAK (R426): A NAK makes the sender replay flits, retraining or taking the link down after 8 failures. -/
  | flitNak (e seq : Nat)
  /-- LINK_RETRAIN_COMPLETE (R426): Retraining ends, returning the link to service or leaving it down. -/
  | linkRetrainComplete (e : Nat) (ok : Bool)
  /-- LNKCTL_RETRAIN (R426): A write of 1 to RETRAIN starts retraining of a down link. -/
  | lnkctlRetrain (e : Nat)
  /-- HELYEL_READ (R428): A remote read request is checked and reads sectors of the stack. -/
  | helyelRead (e node : Nat) (key : Word) (sla n : Nat)
  /-- HELYEL_WRITE (R428): A remote write request is checked and writes sectors of the stack. -/
  | helyelWrite (e node : Nat) (key : Word) (sla : Nat) (mask : Word) (data : List Byte)
  /-- HELYEL_ATOMIC_ADD (R428): A remote atomic add is performed indivisibly at the base die. -/
  | helyelAtomicAdd (e node : Nat) (key : Word) (sla : Nat) (wide : Bool) (v : DWord)
  /-- HELYEL_COMPARE_AND_SWAP (R428): A remote compare-and-swap is performed indivisibly at the base die. -/
  | helyelCompareAndSwap (e node : Nat) (key : Word) (sla : Nat) (wide : Bool) (v cmp : DWord)
  /-- HELYEL_FENCED_WRITE (R428): A remote fenced write is performed after every earlier request from its node. -/
  | helyelFencedWrite (e node : Nat) (key : Word) (sla : Nat) (mask : Word) (data : List Byte)
  /-- HELYEL_RESPONSE (R430): A response returns to the requesting module, completing the lane or trapping on a failure status. -/
  | helyelResponse (n lane status : Nat)
  /-- COUNTER_CLEAR (R431): A write of 1 to any bit of a counter field clears that field. -/
  | counterClear (off : Nat) (v : DWord)
  /-- ENERGY_FOLD (R432): Every 2^16 cycles each core folds its weighted event counts into the accounts. -/
  | energyFold
  /-- CAP_APPLICATION (R436): Every 2^16 cycles die 0's stage manager recomputes each partition's setting from the caps. -/
  | capApplication
  /-- THERMAL_EVENT (R436): A thermal event steps a die's partition down, over every other cap. -/
  | thermalEvent (d : Nat)
  /-- CURRENT_LIMIT_EVENT (R436): A current-limit event steps a die's partition down, over every other cap. -/
  | currentLimitEvent (d : Nat)
  /-- SET_HALL_CAP (R437): A SetHallCap message sets or lifts the hall cap and is answered with MET and modelled power. -/
  | setHallCap (limit rank expiry : Nat)
  /-- HALL_CAP_EXPIRY (R437): A hall cap whose EXPIRY elapses is lifted. -/
  | hallCapExpiry (n : Nat)
  /-- EVENT_WRITE (R442): The stage manager of die 0 writes a waiting event into the ring and advances EVTAIL. -/
  | eventWrite (d : Nat)
  /-- EVHEAD_WRITE (R442): The driver advances EVHEAD, freeing ring places and dropping MSI-X vector 0 when empty. -/
  | evheadWrite (v : Word)
  /-- HOST_CXL_MEM_READ (R329): A host CXL.mem read of device memory is served at its home slice. -/
  | hostCxlMemRead (pa n : Nat)
  /-- HOST_CXL_MEM_WRITE (R329): A host CXL.mem write enters home order at its home slice. -/
  | hostCxlMemWrite (pa : Nat) (data : List Byte)
  /-- BACK_INVALIDATE_SNOOP (R444): A memory-tier back-invalidate snoop is answered at once. -/
  | backInvalidateSnoop (pa : Nat)
  /-- MODULE_RESET (R446): Reset starts bring-up: image verification, base dies, mapping load, die release and BOOTSTAT. -/
  | moduleReset
  /-- REGISTER_WRITE (R7): A write to a register with no row of its own stores its writable fields. -/
  | registerWrite (off : Nat) (v : DWord)
  /-- CONTEXT_CREATION (R157): A context is created: its format table, registers, region tables and other context state take their reset values and the image's preloads are applied. -/
  | contextCreation (c part img : Nat) (regs : List (Nat × DWord))
  /-- REFRESH (R424): A refresh of the stack falls due and is issued by the base die's management core, or by the memory interface after takeover. -/
  | refresh (k : Nat)
  /-- FLIT_CRC_FAILURE (R426): A received Helyel flit that forward error correction cannot correct fails its CRC, so the receiver sends a NAK with that flit's SEQ. -/
  | flitCrcFailure (e seq : Nat)
  /-- CACHE_ACTION_COMPLETE (R380): The write-back, discard or L1 invalidation of a release or acquire finishes after its variable time, so the held rel, acq, fence or front-end release goes on. -/
  | cacheActionComplete (n : Nat)
  /-- SWAP_BACK_READ_COMPLETE (R398): The read of a split-stack record in flight completes, so the returning split becomes resident and may issue. -/
  | swapBackReadComplete (t k : Nat)
  /-- SPDM_MEASUREMENT_REQUEST (R445): A host SPDM request over DOE asks for the verifying key's hash and the image's measurement, and the module responds. -/
  | spdmMeasurementRequest
  /-- SERVICE_CORE_MEMORY_ACCESS (R461): A load or store of the service core, such as a page-table or frame store, is performed at its home slice and acknowledged. -/
  | serviceCoreMemoryAccess (d pa n : Nat) (data : Option (List Byte))
deriving DecidableEq, Repr

end Sys2Proof
end

