-- ==== Sys2Proof/Machine/Table.lean ====
section
/-! DEFINITION. Keyed collections in canonical form (strictly rising keys), bit fields and byte order: the helpers every
other file of the machine uses. -/

namespace Sys2Proof

/-- The entry at a key, if one is listed. -/
def Tab.find? {α : Type} : Tab α → Nat → Option α
  | [], _ => none
  | (k, v) :: t, a => if k = a then some v else Tab.find? t a

/-- Insert or replace the entry at a key, keeping keys strictly rising. -/
def Tab.put {α : Type} : Tab α → Nat → α → Tab α
  | [], a, x => [(a, x)]
  | (k, v) :: t, a, x =>
    if a < k then (a, x) :: (k, v) :: t else if a = k then (a, x) :: t else (k, v) :: Tab.put t a x

/-- Remove the entry at a key. -/
def Tab.del {α : Type} : Tab α → Nat → Tab α
  | [], _ => []
  | (k, v) :: t, a => if k = a then Tab.del t a else (k, v) :: Tab.del t a

/-- Change the entry at a key, if one is listed. -/
def Tab.modify {α : Type} (t : Tab α) (a : Nat) (f : α → α) : Tab α :=
  match Tab.find? t a with
  | none => t
  | some x => Tab.put t a (f x)

/-- The least key not listed, from a key on; the table's length bounds the search. -/
def Tab.freshFrom {α : Type} (t : Tab α) : Nat → Nat → Nat
  | 0, a => a
  | fuel + 1, a => if (Tab.find? t a).isSome then Tab.freshFrom t fuel (a + 1) else a

/-- The least key not listed. -/
def Tab.fresh {α : Type} (t : Tab α) : Nat := Tab.freshFrom t t.length 0

/-- The value at a key; an unlisted key holds 0. -/
def Store.get {w : Nat} (t : Store w) (a : Nat) : BitVec w := (Tab.find? t a).getD 0

/-- Set the value at a key, keeping the canonical form: a zero is not listed. -/
def Store.set {w : Nat} (t : Store w) (a : Nat) (x : BitVec w) : Store w :=
  if x = 0 then Tab.del t a else Tab.put t a x

/-- Keys strictly rise and no listed value is zero. -/
def Store.wf {w : Nat} : Store w → Bool
  | [] => true
  | [(_, v)] => v ≠ 0
  | (k, v) :: (k', v') :: t => v ≠ 0 && k < k' && Store.wf ((k', v') :: t)

/-- The entries below a key. -/
def Store.below {w : Nat} (t : Store w) (a : Nat) : Store w := t.filter fun e => e.1 < a

/-- The entries from a key on. -/
def Store.above {w : Nat} (t : Store w) (a : Nat) : Store w := t.filter fun e => a ≤ e.1

/-- The entries that values at rising keys leave listed: those that are not zero. -/
def Store.cells {w : Nat} : Nat → List (BitVec w) → Store w
  | _, [] => []
  | a, x :: t => if x = 0 then Store.cells (a + 1) t else (a, x) :: Store.cells (a + 1) t

/-- Set a list of values at rising keys from a key on. -/
def Store.setMany {w : Nat} (t : Store w) (a : Nat) (xs : List (BitVec w)) : Store w :=
  Store.below t a ++ (Store.cells a xs ++ Store.above t (a + xs.length))

/-- The `n` values from a key on. -/
def Store.getMany {w : Nat} (t : Store w) (a n : Nat) : List (BitVec w) :=
  (List.range n).map fun i => Store.get t (a + i)

/-- Set one value at every key of a list. -/
def Store.setAll {w : Nat} (t : Store w) (ks : List Nat) (x : BitVec w) : Store w :=
  ks.foldl (fun t k => Store.set t k x) t

/-- Field `hi:lo` of a number (R6). -/
def field (x hi lo : Nat) : Nat := (x >>> lo) % 2 ^ (hi + 1 - lo)

/-- Bit `i` of a number. -/
def bitOf (x i : Nat) : Bool := x.testBit i

/-- Field `hi:lo` of a bit vector, as a number (R6). -/
def bvField {w : Nat} (x : BitVec w) (hi lo : Nat) : Nat := field x.toNat hi lo

/-- A `w`-bit number read as two's complement. -/
def signed (x w : Nat) : Int := if 2 ^ w ≤ 2 * (x % 2 ^ w) then ((x % 2 ^ w : Nat) : Int) - (2 : Int) ^ w else ((x % 2 ^ w : Nat) : Int)

/-- An integer's `w`-bit two's-complement encoding. -/
def encodeInt (t : Int) (w : Nat) : Nat := (t % ((2 : Int) ^ w)).toNat

/-- Bytes in memory order read as one number (R5). -/
def leNat : List Byte → Nat
  | [] => 0
  | b :: bs => b.toNat + 256 * leNat bs

/-- The `n` bytes of a number in memory order (R5). -/
def natLE : Nat → Nat → List Byte
  | 0, _ => []
  | n + 1, x => BitVec.ofNat 8 x :: natLE n (x / 256)

/-- The lanes of a mask in ascending order. -/
def lanesOf (m : Mask) : List Nat := (List.range 128).filter fun i => m.getLsbD i

/-- The mask of a list of lanes. -/
def maskOf (ls : List Nat) : Mask := ls.foldl (fun m i => m ||| (1#128 <<< i)) 0

/-- The mask of the lanes of `m` for which a condition holds. -/
def maskFilter (m : Mask) (c : Nat → Bool) : Mask := maskOf ((lanesOf m).filter c)

/-- The lowest lane of a mask; 0 for the empty mask. -/
def lowLane (m : Mask) : Nat := (lanesOf m).headD 0

/-- The highest lane of a mask; 0 for the empty mask. -/
def highLane (m : Mask) : Nat := (lanesOf m).getLastD 0

/-- The floor of the base-2 logarithm; 0 for 0. -/
def log2 (n : Nat) : Nat := Nat.log2 n

/-- Sign extension of a displacement or another field to 64 bits. -/
def sext64 {w : Nat} (x : BitVec w) : DWord := x.signExtend 64

/-- A bound rounded up to whole units. -/
def ceilDiv (a b : Nat) : Nat := (a + b - 1) / b

/-- The distinct numbers of a list, in order of first appearance. -/
def distinct : List Nat → List Nat
  | [] => []
  | a :: t => a :: (distinct t).filter (· ≠ a)

/-- The members of an ascending list, each once. -/
def once : List Nat → List Nat
  | [] => []
  | a :: t =>
    match t with
    | [] => [a]
    | b :: _ => if a = b then once t else a :: once t

end Sys2Proof
end

