-- ==== Sys2Proof/Machine/Rows.lean ====
section
/-! DEFINITION. The encoding tables of the owning chapters (R72, R75, R97, R110, R134, R179, R195, R232, R263, R297, R308,
R356, R373, R410) as one row for each opcode, and the conditions of R55 read from them. -/

namespace Sys2Proof

/-- The kinds of operand that a column of an encoding table names (R33). An indexed register counts as v (R122). -/
inductive Kind where
  | v | o | l | lx | s | g | x | p | lit | zero | lane | troupe
deriving DecidableEq, Repr

/-- The kind of an operand. -/
def Operand.kind : Operand → Kind
  | .v _ => .v
  | .o _ => .o
  | .latch => .l
  | .latchX => .lx
  | .s _ => .s
  | .g _ => .g
  | .x _ => .x
  | .p _ => .p
  | .lit => .lit
  | .zero => .zero
  | .lane => .lane
  | .troupe => .troupe
  | .idx _ _ => .v

/-- A column: the kinds it admits, or no kind for a field that the instruction does not use (R29, R32). -/
abbrev Col := List Kind

/-- The rounding modes an instruction admits (R35). -/
inductive RndSet where
  | zero | all | noSr | onlySr
deriving DecidableEq, Repr

/-- One row of an encoding table, for one value of MOD. `n…` is the group length of an operand named by a v or s
register (R118); a source of group length 2 reads the literal as 64 bits (R39). Rows whose groups follow from their
formats have `byFormat`. -/
structure Row where
  base : Bool := false
  fmt : Bool := false
  rnd : RndSet := .zero
  sat : Bool := false
  scope : Bool := false
  pred7 : Bool := false
  dst : Col := []
  sa : Col := []
  sb : Col := []
  sc : Col := []
  disp : Bool := false
  modOk : Bool := false
  nd : Nat := 1
  na : Nat := 1
  nb : Nat := 1
  nc : Nat := 1
  byFormat : Bool := false
deriving DecidableEq, Repr

/-- Any source (S of R134). -/
def Col.any : Col := [.v, .o, .l, .lx, .s, .g, .x, .p, .lit, .zero, .lane, .troupe]
/-- A destination of the integer chapter (D of R134). -/
def Col.dInt : Col := [.v, .o, .l, .zero, .s, .x, .p]
/-- A destination of the float chapter (D of R195). -/
def Col.dFlt : Col := [.v, .o, .l, .zero, .s]
/-- A status destination: v, o, s or zero. -/
def Col.st : Col := [.v, .o, .s, .zero]
/-- A uniform source of R134. -/
def Col.uni : Col := [.s, .g, .lit, .zero, .troupe]
/-- A uniform source of R232 and R263. -/
def Col.uni4 : Col := [.s, .g, .lit, .zero]
/-- A stage address (A of R263). -/
def Col.stage : Col := [.v, .o, .s, .lit, .zero]
/-- A 64-bit address: v pair, s pair or the literal (A64). -/
def Col.a64 : Col := [.v, .s, .lit]
/-- A64 and zero (P64). -/
def Col.p64 : Col := [.v, .s, .lit, .zero]
/-- An s pair, the literal or zero (U64). -/
def Col.u64 : Col := [.s, .lit, .zero]
/-- v, o or indexed v. -/
def Col.vo : Col := [.v, .o]
/-- A v or s group. -/
def Col.vs : Col := [.v, .s]

/-- The width of the system register numbered `n`: 64 or 32 bits, or none where R383 lists no register. -/
def sysRegWidth (n : Nat) : Option Nat :=
  if n ≤ 2 then some 32
  else if n = 3 then some 64
  else if n ≤ 0x0A then some 32
  else if n = 0x40 ∨ n = 0x42 ∨ n = 0x43 ∨ n = 0x46 ∨ n = 0x48 ∨ n = 0x49 ∨ n = 0x4B ∨ n = 0x4D ∨ n = 0x4E then some 64
  else if 0x40 ≤ n ∧ n ≤ 0x4F then some 32
  else none

/-- Whether the system register numbered `n` is read only (R383). -/
def sysRegRO (n : Nat) : Bool := (2 ≤ n && n ≤ 0x0A) || n == 0x49

/-- Whether the system register numbered `n` is reserved to supervisor level (R383). -/
def sysRegSup (n : Nat) : Bool := 0x40 ≤ n && n ≤ 0x4F

/-- The destination column and group length of a load of size code `k` (R263, R297). -/
def loadDst (k : Nat) : Col × Nat :=
  if k = 5 then (Col.vs, 2) else if k = 6 then ([.v], 4) else (Col.st, 1)

/-- The data column and group length of a store of size code `k` (R263, R297). -/
def storeData (k : Nat) : Col × Nat :=
  if k = 5 then (Col.a64, 2) else if k = 6 then ([.v], 4) else (Col.any, 1)

/-- A size code of a load. -/
def loadSize (k : Nat) : Bool := k ≤ 6
/-- A size code of a store. -/
def storeSize (k : Nat) : Bool := k = 0 || k = 2 || (4 ≤ k && k ≤ 6)

/-- Rows of opcodes 0x01 to 0x15 that use layout X (R97, R109, R110). -/
def rowControl (op m : Nat) : Option Row :=
  match op with
  | 0x01 => some { base := true, modOk := m = 0 }
  | 0x08 => some { base := true, modOk := m = 0, pred7 := true }
  | 0x09 => some { base := true, modOk := m = 0 }
  | 0x0A => some { base := true, modOk := m = 0, pred7 := true }
  | 0x0B => some { base := true, modOk := m = 0, pred7 := true }
  | 0x0C => some { base := true, modOk := m = 0, pred7 := true }
  | 0x0D => some { base := true, modOk := m = 0, pred7 := true }
  | 0x10 => some { dst := if m = 3 then Col.vs else [.p, .v, .o, .s, .zero], nd := if m = 3 then 4 else 1,
                   sa := [.p, .v, .o], modOk := m ≤ 3 }
  | 0x11 => some { dst := Col.vo, sa := Col.vo, sb := Col.any, modOk := m < 32 }
  | 0x12 => some { dst := Col.st, sa := Col.vo, sat := m = 0, modOk := m < 8 }
  | 0x13 => some { dst := Col.st, sa := Col.vo, fmt := true, rnd := if m = 0 then .noSr else .zero, modOk := m < 3 }
  | 0x14 => some { dst := Col.vo, sa := Col.vo, sat := m % 8 = 0, modOk := m < 16 }
  | 0x15 => some { base := true, dst := Col.st, modOk := m ≤ 8 }
  | _ => none

/-- Rows of opcodes 0x20 to 0x2F (R134). -/
def rowInteger (op m : Nat) : Option Row :=
  match op with
  | 0x20 => some { base := true, dst := Col.dInt, sa := Col.any, modOk := m = 0 }
  | 0x21 => some { base := true, dst := Col.dInt, sa := [.lit, .zero], modOk := m = 0 }
  | 0x22 => some { base := true, fmt := true, sat := true, dst := Col.dInt, sa := Col.any, sb := Col.any, modOk := m = 0 }
  | 0x23 => some { base := true, fmt := true, sat := true, dst := Col.dInt, sa := Col.any, sb := Col.any, modOk := m = 0 }
  | 0x24 => some { fmt := true, dst := Col.dInt, sa := Col.any, sb := Col.any, sc := Col.any, modOk := m < 8 }
  | 0x25 => some { fmt := true, dst := Col.dInt, sa := Col.any, sb := Col.any, sc := Col.any, modOk := m < 8 }
  | 0x26 => some { base := true, fmt := true, sat := true, dst := Col.dInt, sa := Col.any, sb := Col.any, modOk := m = 0 }
  | 0x27 => some { base := true, fmt := true, dst := Col.dInt, sa := Col.any, sb := Col.any, modOk := m = 0 }
  | 0x28 => some { base := true, fmt := true, dst := Col.vs, nd := 2, sa := Col.any, sb := Col.any, modOk := m = 0 }
  | 0x29 => some { fmt := true, sat := true, dst := Col.dInt, sa := Col.any, sb := Col.any, sc := Col.any, modOk := m = 0 }
  | 0x2A => some { fmt := true, sat := true, dst := Col.dInt, sa := Col.any, sb := Col.any, sc := Col.any, modOk := m = 0 }
  | 0x2B => some { base := true, fmt := true, dst := Col.dInt, sa := Col.any, sb := Col.any, modOk := m = 0 }
  | 0x2C => some { base := true, fmt := true, dst := Col.dInt, sa := Col.any, sb := Col.any, modOk := m = 0 }
  | 0x2D => some { base := true, fmt := true, sat := true, dst := Col.dInt, sa := Col.any, modOk := m = 0 }
  | 0x2E => some { base := true, fmt := true, sat := true, dst := Col.dInt, sa := Col.any, modOk := m = 0 }
  | 0x2F => some { fmt := true, dst := Col.dInt, sa := Col.any, sb := Col.any, modOk := m < 6 }
  | _ => none

/-- Rows of opcodes 0x30 to 0x3F (R134). -/
def rowLogic (op m : Nat) : Option Row :=
  match op with
  | 0x30 => some { dst := Col.dInt, sa := Col.any, sb := Col.any, sc := Col.any, modOk := m = 0 }
  | 0x31 => some { base := true, dst := Col.dInt, sa := Col.any, sb := Col.any, modOk := m = 0 }
  | 0x32 => some { base := true, dst := Col.dInt, sa := Col.any, sb := Col.any, modOk := m = 0 }
  | 0x33 => some { base := true, dst := Col.dInt, sa := Col.any, sb := Col.any, modOk := m = 0 }
  | 0x34 => some { base := true, dst := Col.dInt, sa := Col.any, modOk := m = 0 }
  | 0x35 => some { base := true, dst := Col.dInt, sa := Col.any, sb := Col.any, modOk := m = 0 }
  | 0x36 => some { dst := Col.dInt, sa := Col.any, sb := Col.any, sc := Col.any, modOk := m = 0 }
  | 0x37 => some { dst := Col.dInt, sa := Col.any, sb := Col.any, sc := Col.any, modOk := true }
  | 0x38 => some { base := true, dst := Col.dInt, sa := Col.any, sb := Col.any, modOk := m = 0 }
  | 0x39 => some { base := true, dst := Col.dInt, sa := Col.any, sb := Col.any, modOk := m = 0 }
  | 0x3A => some { base := true, dst := Col.dInt, sa := Col.any, sb := Col.any, modOk := m = 0 }
  | 0x3B => some { base := true, dst := Col.dInt, sa := Col.any, sb := Col.any, modOk := m = 0 }
  | 0x3C => some { base := true, dst := Col.dInt, sa := Col.any, modOk := m = 0 }
  | 0x3D => some { base := true, dst := Col.dInt, sa := Col.any, modOk := m = 0 }
  | 0x3E => some { base := true, dst := Col.dInt, sa := Col.any, modOk := m = 0 }
  | 0x3F => some { base := true, dst := Col.dInt, sa := Col.any, modOk := m = 0 }
  | _ => none

/-- Rows of opcodes 0x40 to 0x4D (R134). -/
def rowField (op m : Nat) : Option Row :=
  match op with
  | 0x40 => some { dst := Col.dInt, sa := Col.any, sb := Col.any, modOk := m < 2 }
  | 0x41 => some { dst := Col.dInt, sa := Col.any, sb := Col.any, sc := Col.any, modOk := m = 0 }
  | 0x42 => some { base := true, dst := Col.dInt, sa := Col.any, sb := Col.any, modOk := m = 0 }
  | 0x43 => some { dst := Col.dInt, sa := Col.any, modOk := m < 32 }
  | 0x44 => some { dst := Col.dInt, sa := Col.any, modOk := m < 32 }
  | 0x45 => some { dst := Col.vs, nd := 2, sa := Col.p64, na := 2, sb := Col.any, disp := true, modOk := m < 16 }
  | 0x46 => some { dst := [.x], sa := Col.any, sb := Col.any, modOk := m < 4 }
  | 0x47 => some { dst := Col.st, sa := Col.any, modOk := m < 4 }
  | 0x48 => some { base := true, dst := [.s], sa := Col.uni, pred7 := true, modOk := m = 0 }
  | 0x49 => some { dst := if m = 0 then [.g] else [.v, .o, .s], sa := if m = 0 then Col.any else [.g], modOk := m < 2 }
  | 0x4A => some { dst := [.s], sa := Col.vo, sb := if m = 0 then Col.uni else [.zero], modOk := m < 3 }
  | 0x4B => some { base := true, dst := Col.vo, sa := Col.uni, sb := Col.uni, modOk := m = 0 }
  | 0x4C => some { dst := [.p], sa := [.p], sb := [.p], modOk := m < 16 }
  | 0x4D => some { dst := if m % 2 = 0 then [.v, .o, .s] else [], sa := if m % 2 = 0 then [] else Col.any,
                   modOk := m = 0 || m % 2 = 1 }
  | _ => none

/-- Rows of opcodes 0x50 to 0x57 (R179). -/
def rowFormat (op m : Nat) : Option Row :=
  match op with
  | 0x50 => some { fmt := true, sa := Col.p64, na := 2, modOk := m = 0 }
  | 0x51 => some { fmt := true, dst := Col.vs, nd := 2, modOk := m = 0 }
  | 0x52 => some { sa := Col.p64, na := 2, disp := true, modOk := m = 0 }
  | 0x53 => some { sa := Col.p64, na := 2, disp := true, modOk := m = 0 }
  | 0x54 => some { fmt := true, rnd := .all, sat := true, dst := Col.dFlt, sa := Col.any, sb := Col.any, modOk := m < 64,
                   byFormat := true }
  | 0x55 => some { fmt := true, rnd := .onlySr, sat := true, dst := Col.dFlt, sa := Col.any, sb := Col.any,
                   sc := Col.any, modOk := m < 64, byFormat := true }
  | 0x56 => some { fmt := true, rnd := .all, sat := true, dst := [.v], sa := [.v], modOk := m < 64, byFormat := true }
  | 0x57 => some { fmt := true, rnd := .all, sat := true, dst := [.v], sa := [.v], modOk := m < 64, byFormat := true }
  | _ => none

/-- Rows of opcodes 0x60 to 0x76 (R195). -/
def rowFloat (op m : Nat) : Option Row :=
  match op with
  | 0x60 => some { base := true, fmt := true, rnd := .all, sat := true, dst := Col.dFlt, sa := Col.any, sb := Col.any, modOk := m = 0 }
  | 0x61 => some { base := true, fmt := true, rnd := .all, sat := true, dst := Col.dFlt, sa := Col.any, sb := Col.any, modOk := m = 0 }
  | 0x62 => some { base := true, fmt := true, rnd := .all, sat := true, dst := Col.dFlt, sa := Col.any, sb := Col.any, modOk := m = 0 }
  | 0x63 => some { fmt := true, rnd := .all, sat := true, dst := Col.dFlt, sa := Col.any, sb := Col.any, sc := Col.any, modOk := m = 0 }
  | 0x64 => some { base := true, fmt := true, dst := Col.dFlt, sa := Col.any, sb := Col.any, modOk := m = 0 }
  | 0x65 => some { base := true, fmt := true, dst := Col.dFlt, sa := Col.any, sb := Col.any, modOk := m = 0 }
  | 0x66 => some { base := true, fmt := true, dst := Col.dFlt, sa := Col.any, modOk := m = 0 }
  | 0x67 => some { fmt := true, dst := Col.dFlt, sa := Col.any, sb := Col.any, sc := Col.any, modOk := m = 0 }
  | 0x68 => some { fmt := true, dst := .p :: Col.dFlt, sa := Col.any, sb := Col.any, modOk := m < 8 }
  | 0x69 => some { fmt := true, dst := Col.dFlt, sa := Col.any, modOk := m = 0 }
  | 0x6A => some { fmt := true, rnd := .all, sat := true, dst := Col.dFlt, sa := Col.any, modOk := m = 0 }
  | 0x6B => some { base := true, fmt := true, rnd := .all, sat := true, dst := Col.dFlt, sa := Col.any, sb := Col.any, modOk := m = 0 }
  | 0x6C => some { fmt := true, rnd := .all, sat := true, dst := Col.dFlt, sa := Col.any, sb := Col.any, sc := Col.any, modOk := m = 0 }
  | 0x6D => some { base := true, fmt := true, dst := Col.dFlt, sa := Col.any, sb := Col.any, modOk := m = 0 }
  | 0x6E => some { base := true, fmt := true, dst := Col.dFlt, sa := Col.any, modOk := m = 0 }
  | 0x6F => some { base := true, fmt := true, dst := Col.dFlt, sa := Col.any, modOk := m = 0 }
  | 0x70 => some { base := true, fmt := true, sat := true, dst := Col.st, sa := Col.any, modOk := m = 0 }
  | 0x71 => some { base := true, fmt := true, sat := true, dst := Col.st, sa := Col.any, modOk := m = 0 }
  | 0x72 => some { base := true, fmt := true, rnd := .noSr, sat := true, dst := Col.st, sa := Col.any, modOk := m = 0 }
  | 0x73 => some { base := true, fmt := true, sat := true, dst := Col.st, sa := Col.any, modOk := m = 0 }
  | 0x74 => some { base := true, fmt := true, sat := true, dst := Col.st, sa := Col.any, modOk := m = 0 }
  | 0x75 => some { base := true, fmt := true, sat := true, dst := Col.st, sa := Col.any, modOk := m = 0 }
  | 0x76 => some { base := true, fmt := true, sat := true, dst := Col.st, sa := Col.any, modOk := m = 0 }
  | _ => none

/-- Rows of opcodes 0x80 to 0x8B (R232). -/
def rowMatrix (op m : Nat) : Option Row :=
  match op with
  | 0x80 => some { dst := Col.st, modOk := m < 8 }
  | 0x81 => some { dst := Col.st, modOk := m < 8 }
  | 0x82 => some { dst := Col.st, modOk := m < 8 }
  | 0x83 => some { dst := Col.st, modOk := m < 8 }
  | 0x84 => some { sa := Col.stage, sb := Col.any, sc := Col.any, disp := true, modOk := m < 16 }
  | 0x85 => some { sat := true, sa := Col.a64, na := 2, sb := Col.any, modOk := true }
  | 0x86 => some { sat := true, sa := Col.a64, na := 2, sb := Col.any, sc := Col.any, modOk := true }
  | 0x87 => some { sat := true, sa := Col.a64, na := 2, sb := Col.any, sc := Col.any, modOk := true }
  | 0x88 => some { modOk := m < 4 }
  | 0x89 => some { fmt := true, rnd := .all, sat := true, dst := [.v], nd := 2 ^ (m / 4 % 4), sa := Col.uni4, modOk := m < 16 }
  | 0x8A => some { fmt := true, sa := Col.uni4, sb := [.v], nb := 2 ^ (m / 4 % 4), modOk := m < 16 }
  | 0x8B => some { modOk := m < 4 }
  | _ => none

/-- Rows of opcodes 0x90 to 0x9E (R263). -/
def rowStage (op m : Nat) : Option Row :=
  match op with
  | 0x90 => some { dst := (loadDst m).1, nd := (loadDst m).2, sa := Col.stage, disp := true, modOk := loadSize m }
  | 0x91 => some { sa := Col.stage, sb := (storeData m).1, nb := (storeData m).2, disp := true, modOk := storeSize m }
  | 0x92 => some { sa := [.v], na := 2, sb := Col.uni4, sc := if 8 ≤ m then Col.uni4 else [], disp := true,
                   modOk := m < 16 }
  | 0x93 => some { sa := Col.stage, sb := Col.uni4, sc := Col.uni4, disp := true, modOk := m = 0 }
  | 0x94 => some { sa := Col.stage, disp := true, modOk := m < 32 }
  | 0x95 => some { sa := if m / 32 = 5 then Col.a64 else Col.any, na := if m / 32 = 5 then 2 else 1, modOk := true }
  | 0x96 => some { sa := if m / 32 % 2 = 1 then Col.any else [], sb := if 64 ≤ m then Col.uni4 else [], modOk := m < 128 }
  | 0x97 => some { modOk := m < 32 }
  | 0x98 => some { dst := Col.st, modOk := m < 64 }
  | 0x99 => some { dst := Col.st, modOk := m = 0 }
  | 0x9A => some { sa := Col.any, modOk := m = 0 }
  | 0x9B => some { scope := true, sa := Col.stage, sb := Col.any, sc := Col.any, disp := true, modOk := m < 2 }
  | 0x9C => some { dst := Col.st, sa := Col.stage, sb := Col.any, sc := if m = 1 then Col.any else [], disp := true,
                   modOk := m < 2 }
  | 0x9D => some { sa := Col.stage, sb := Col.any, disp := true, modOk := m = 0 }
  | 0x9E => some { sa := Col.stage, sb := Col.any, disp := true, modOk := m = 0 }
  | _ => none

/-- Rows of opcodes 0xA0 to 0xA9 (R297). The atomic ops that R300 forbids are no values of MOD. -/
def rowMemory (op m : Nat) : Option Row :=
  match op with
  | 0xA0 => some { dst := (loadDst (m % 8)).1, nd := (loadDst (m % 8)).2, sa := Col.u64, na := 2, sb := Col.any,
                   disp := true, modOk := m < 16 && loadSize (m % 8) }
  | 0xA1 => some { sa := Col.u64, na := 2, sb := Col.any, sc := (storeData m).1, nc := (storeData m).2, disp := true,
                   modOk := storeSize m }
  | 0xA2 => some { dst := (loadDst (m % 8)).1, nd := (loadDst (m % 8)).2, sa := [.v], na := 2, disp := true,
                   modOk := m < 16 && loadSize (m % 8) }
  | 0xA3 => some { sa := [.v], na := 2, sc := (storeData m).1, nc := (storeData m).2, disp := true, modOk := storeSize m }
  | 0xA4 => some { dst := if m = 5 then Col.vs else [.v, .o, .s], nd := if m = 5 then 2 else 1, sa := Col.u64, na := 2,
                   disp := true, modOk := m = 4 || m = 5 }
  | 0xA5 => some { dst := if 16 ≤ m then Col.vs else Col.st, nd := if 16 ≤ m then 2 else 1, sa := Col.a64, na := 2,
                   sb := if 16 ≤ m then Col.vs else Col.any, nb := if 16 ≤ m then 2 else 1,
                   sc := if m % 16 = 10 then (if 16 ≤ m then Col.vs else Col.any) else [],
                   nc := if 16 ≤ m then 2 else 1, disp := true, modOk := m < 32 && m % 16 ≤ 10 && m != 17 }
  | 0xA6 => some { sa := Col.a64, na := 2, sb := if 16 ≤ m then Col.vs else Col.any, nb := if 16 ≤ m then 2 else 1,
                   disp := true, modOk := m < 32 && m % 16 ≤ 8 && m != 17 }
  | 0xA7 => some { dst := [.v, .zero], nd := 4, sa := Col.a64, na := 2, sb := [.v], nb := 4,
                   sc := if m = 1 then [.v] else [], nc := 4, disp := true, modOk := m < 2 }
  | 0xA8 => some { sa := Col.a64, na := 2, disp := true, modOk := m < 2 }
  | 0xA9 => some { sa := Col.u64, na := 2, sb := Col.any, disp := true, modOk := m = 0 }
  | _ => none

/-- Rows of opcodes 0xAA to 0xAE (R308). The scope of an sbind.bar is checked in the order of R309. -/
def rowVisibility (op m : Nat) : Option Row :=
  match op with
  | 0xAA => some { scope := true, sa := if m < 32 then Col.a64 else Col.stage, na := if m < 32 then 2 else 1,
                   sb := Col.p64, nb := 2, sc := Col.any, disp := true, modOk := m < 64 }
  | 0xAB => some { modOk := m ≤ 32 }
  | 0xAC => some { scope := true, dst := [.v, .s, .zero], nd := 2, sa := Col.a64, na := 2,
                   sb := if m % 8 = 0 then [.zero] else Col.p64, nb := 2,
                   sc := if m / 8 = 0 && m % 8 != 3 then [.zero] else Col.p64, nc := 2, disp := true,
                   modOk := m < 64 && m % 8 ≤ 4 && m / 8 ≤ 6 }
  | 0xAD => some { scope := true, sa := Col.a64, na := 2, sb := Col.p64, nb := 2, disp := true, modOk := m < 4 }
  | 0xAE => some { scope := true, modOk := m < 3 }
  | _ => none

/-- Rows of opcodes 0xB0 to 0xBC (R72, R356, R373). The unused SB of cue is the zero code. -/
def rowLaunch (op m : Nat) : Option Row :=
  match op with
  | 0xB0 => some { scope := true, dst := Col.st, sa := Col.a64, na := 2, disp := true, modOk := m < 8 }
  | 0xB1 => some { scope := true, modOk := true }
  | 0xB2 => some { modOk := m = 0 }
  | 0xB3 => some { scope := true, modOk := true }
  | 0xB4 => some { scope := true, sa := Col.a64, na := 2, sb := Col.p64, nb := 2, disp := true, modOk := m < 4 }
  | 0xB5 => some { dst := [.v, .o, .s], sa := [.v, .o, .l, .lx, .s, .g, .x, .p, .lit, .zero], modOk := m = 0 }
  | 0xB8 => some { sa := Col.any, modOk := m < 2 }
  | 0xB9 => some { sa := Col.any, sb := if m % 4 = 1 then Col.stage else [.zero], disp := m % 4 = 1,
                   modOk := if m % 4 = 0 then m < 128 else if m % 4 = 1 then m = 1 else m < 64 }
  | 0xBA => some { sa := Col.any, modOk := m = 0 }
  | 0xBB => some { dst := Col.st, sa := Col.any, modOk := m < 16 }
  | 0xBC => some { dst := Col.st, modOk := m < 16 }
  | _ => none

/-- Rows of opcodes 0xC0 to 0xCA (R410). -/
def rowSystem (op m : Nat) : Option Row :=
  match op with
  | 0xC0 => some { modOk := true }
  | 0xC1 => some { sa := Col.any, na := 2, modOk := m = 0 }
  | 0xC2 => some { base := true, pred7 := true, modOk := m = 0 }
  | 0xC3 => some { dst := if sysRegWidth m = some 64 then Col.vs else [.v, .o, .s],
                   nd := if sysRegWidth m = some 64 then 2 else 1, modOk := (sysRegWidth m).isSome }
  | 0xC4 => some { sa := if sysRegWidth m = some 64 then Col.p64 else Col.any,
                   na := if sysRegWidth m = some 64 then 2 else 1, modOk := (sysRegWidth m).isSome && !sysRegRO m }
  | 0xC5 => some { base := true, modOk := true }
  | 0xC6 => some { base := true, modOk := m < 2 }
  | 0xC7 => some { base := true, dst := Col.vs, nd := 2, modOk := m = 0 }
  | 0xC8 => some { base := true, dst := Col.vs, nd := 2, modOk := m < 2 }
  | 0xC9 => some { dst := Col.vs, nd := 2, modOk := m < 2 }
  | 0xCA => some { sa := Col.p64, na := 2, sb := Col.any, modOk := m < 3 }
  | _ => none

/-- The row of an opcode of layout X, for a value of MOD; none for an opcode that has no layout X. -/
def rowOf (op m : Nat) : Option Row :=
  match op / 16 with
  | 0 => rowControl op m
  | 1 => rowControl op m
  | 2 => rowInteger op m
  | 3 => rowLogic op m
  | 4 => rowField op m
  | 5 => rowFormat op m
  | 6 => rowFloat op m
  | 7 => rowFloat op m
  | 8 => rowMatrix op m
  | 9 => rowStage op m
  | 10 => if op < 0xAA then rowMemory op m else rowVisibility op m
  | 11 => rowLaunch op m
  | 12 => rowSystem op m
  | _ => none

/-- An operand stands in its column; a column without kinds wants field value 0 (R29, R32, R55). -/
def Col.admits (c : Col) (o : Operand) : Bool :=
  match c with
  | [] => o = .v 0
  | _ => c.contains o.kind

/-- RND stands in its column (R35, R55). -/
def RndSet.admits (r : RndSet) (m : RMode) : Bool :=
  match r with
  | .zero => m = .rne
  | .all => true
  | .noSr => m ≠ .rsr
  | .onlySr => m = .rsr

/-- The condition of R39 on the literal for an operand of 32 bits or fewer. -/
def litNarrowOk (l : DWord) : Bool :=
  l.toNat >>> 32 = 0 || (l.toNat >>> 32 = 0xFFFFFFFF && l.toNat.testBit 31)

/-- The literal word is there exactly when an operand names it, and fits each operand that names it (R39). -/
def litOk (lit : Option DWord) (ops : List (Operand × Nat)) : Bool :=
  match lit with
  | none => ops.all fun o => o.1 ≠ .lit
  | some l => (ops.any fun o => o.1 = .lit) && ops.all fun o => o.1 ≠ .lit || o.2 = 2 || litNarrowOk l

/-- A scalar group of four of vote.ballot starts at s60 at the latest (R110). -/
def ballotOk (op : Nat) (f : X) : Bool :=
  match f.dst with
  | .s n => !(op = 0x10 && f.mod = 3 && 60 < n.toNat)
  | _ => true

/-- The conditions of R55 for a word of layout X. -/
def xOk (op : Nat) (f : X) : Bool :=
  match rowOf op f.mod.toNat with
  | none => false
  | some r =>
    r.modOk && (r.fmt || f.w0.fmt = 0) && r.rnd.admits f.w0.rnd && (r.sat || !f.w0.sat)
    && (r.scope || f.w0.scope = .troupe) && (!r.pred7 || (f.w0.pred = 7 && !f.w0.pneg))
    && (r.disp || f.disp = 0)
    && r.dst.admits f.dst && r.sa.admits f.sa && r.sb.admits f.sb && r.sc.admits f.sc
    && ballotOk op f
    && litOk f.lit [(f.sa, r.na), (f.sb, r.nb), (f.sc, r.nc), (f.dst, 0)]

/-- The sources brx and callx may name (R97). -/
def Col.si : Col := [.v, .o, .s, .g, .x, .lane, .troupe, .lit]

/-- The conditions of R55 for a word of layout XT (R75, R97). -/
def xtOk (op : Nat) (f : XT) : Bool :=
  let indexed := op = 0x04 || op = 0x06
  (f.w0.fmt = 0 && f.w0.rnd = .rne && !f.w0.sat && f.w0.scope = .troupe)
  && (op = 0x03 || (f.w0.pred = 7 && !f.w0.pneg))
  && (op = 0x03 || op = 0x04 || (if op = 0x07 then f.aux.toNat < 4096 else f.aux = 0))
  && (if indexed then Col.si.admits f.si else f.si = .v 0)
  && (indexed || f.mod = 0)
  && litOk f.lit [(f.si, 1)]

/-- The operand that a base word's destination field may name (R30). -/
def Operand.short : Operand → Bool
  | .v n => n.toNat < 48
  | .o _ => true
  | .latch => true
  | .latchX => true
  | .lit => true
  | .zero => true
  | .s n => n.toNat < 4
  | .g _ => false
  | .x _ => false
  | .p _ => false
  | .lane => false
  | .troupe => false
  | .idx _ _ => false

/-- The base default format of an opcode's group (R51). -/
def baseFmt (op : Nat) : BitVec 6 := if 0x22 ≤ op ∧ op ≤ 0x2F then 3 else 0

/-- Word 0 of the extended form that R38 gives a base word. -/
def Head.toW0 (h : Head) (fmt : BitVec 6) : W0 :=
  { head := h, pneg := false, pred := 7, scope := .troupe, sat := false, rnd := .rne, fmt := fmt }

/-- The extended form that a base word of layout B3 stands for (R38). -/
def B3.toX (op : Nat) (f : B3) : X :=
  { w0 := f.head.toW0 (baseFmt op), dst := f.dst, sa := f.sa, sb := f.sb, sc := .v 0, mod := 0, disp := 0, lit := f.lit }

/-- The extended form that a base movi stands for (R38, R136): the immediate as the literal, or as the zero code. -/
def BI.toX (f : BI) : X :=
  { w0 := f.head.toW0 0, dst := f.dst, sa := if f.imm = 0 then .zero else .lit, sb := .v 0, sc := .v 0, mod := 0, disp := 0,
    lit := if f.imm = 0 then none else some (f.imm.signExtend 64) }

/-- The XT form that a base word of layout BT stands for (R38). -/
def BT.toXT (f : BT) : XT :=
  { w0 := f.head.toW0 0, tgt := f.tgt, aux := 0, si := .v 0, mod := 0, lit := none }

/-- A base word's three operands have short codes (R30). -/
def b3Ok (op : Nat) (f : B3) : Bool :=
  (match rowOf op 0 with
   | some r => r.base
   | none => false)
  && f.dst.short && f.sa.short && f.sb.short && xOk op (f.toX op)

/-- A base movi: its destination has a short code and stands in its column; a literal word belongs to no operand of it. -/
def biOk (f : BI) : Bool := f.dst.short && xOk 0x21 f.toX

/-- The conditions of R55 for the words of an instruction with opcode `op`. -/
def formOk (op : Nat) : Form → Bool
  | .b3 f => op ≠ 0x21 && b3Ok op f
  | .bi f => op = 0x21 && biOk f
  | .bt f => (op = 0x02 || op = 0x05) && xtOk op f.toXT
  | .x f => xOk op f
  | .xt f => (2 ≤ op && op ≤ 7) && xtOk op f

end Sys2Proof
end

