-- ==== Sys2Proof/WellFormed.lean ====
section
/-! DEFINITION. Which instructions are well formed: the conditions of R55 on every field. -/

namespace Sys2Proof

/-- The fields of an instruction satisfy R55 for its opcode; an event is well formed. -/
def Instr.wellFormed : Instr → Bool
  | .nop f => formOk 0x01 (.x f)
  | .nopBase f => formOk 0x01 (.b3 f)
  | .bra f => formOk 0x02 (.xt f)
  | .braBase f => formOk 0x02 (.bt f)
  | .brc f => formOk 0x03 (.xt f)
  | .brx f => formOk 0x04 (.xt f)
  | .call f => formOk 0x05 (.xt f)
  | .callBase f => formOk 0x05 (.bt f)
  | .callx f => formOk 0x06 (.xt f)
  | .ocall f => formOk 0x07 (.xt f)
  | .ret f => formOk 0x08 (.x f)
  | .retBase f => formOk 0x08 (.b3 f)
  | .exit f => formOk 0x09 (.x f)
  | .exitBase f => formOk 0x09 (.b3 f)
  | .yield f => formOk 0x0a (.x f)
  | .yieldBase f => formOk 0x0a (.b3 f)
  | .rejoin f => formOk 0x0b (.x f)
  | .rejoinBase f => formOk 0x0b (.b3 f)
  | .full f => formOk 0x0c (.x f)
  | .fullBase f => formOk 0x0c (.b3 f)
  | .endfull f => formOk 0x0d (.x f)
  | .endfullBase f => formOk 0x0d (.b3 f)
  | .vote f => formOk 0x10 (.x f)
  | .shfl f => formOk 0x11 (.x f)
  | .tred f => formOk 0x12 (.x f)
  | .tredf f => formOk 0x13 (.x f)
  | .scan f => formOk 0x14 (.x f)
  | .splq f => formOk 0x15 (.x f)
  | .splqBase f => formOk 0x15 (.b3 f)
  | .mov f => formOk 0x20 (.x f)
  | .movBase f => formOk 0x20 (.b3 f)
  | .movi f => formOk 0x21 (.x f)
  | .moviBase f => formOk 0x21 (.bi f)
  | .iadd f => formOk 0x22 (.x f)
  | .iaddBase f => formOk 0x22 (.b3 f)
  | .isub f => formOk 0x23 (.x f)
  | .isubBase f => formOk 0x23 (.b3 f)
  | .iaddc f => formOk 0x24 (.x f)
  | .isubb f => formOk 0x25 (.x f)
  | .imul f => formOk 0x26 (.x f)
  | .imulBase f => formOk 0x26 (.b3 f)
  | .imulh f => formOk 0x27 (.x f)
  | .imulhBase f => formOk 0x27 (.b3 f)
  | .imulw f => formOk 0x28 (.x f)
  | .imulwBase f => formOk 0x28 (.b3 f)
  | .imad f => formOk 0x29 (.x f)
  | .isad f => formOk 0x2a (.x f)
  | .imin f => formOk 0x2b (.x f)
  | .iminBase f => formOk 0x2b (.b3 f)
  | .imax f => formOk 0x2c (.x f)
  | .imaxBase f => formOk 0x2c (.b3 f)
  | .iabs f => formOk 0x2d (.x f)
  | .iabsBase f => formOk 0x2d (.b3 f)
  | .ineg f => formOk 0x2e (.x f)
  | .inegBase f => formOk 0x2e (.b3 f)
  | .icmp f => formOk 0x2f (.x f)
  | .sel f => formOk 0x30 (.x f)
  | .and f => formOk 0x31 (.x f)
  | .andBase f => formOk 0x31 (.b3 f)
  | .or f => formOk 0x32 (.x f)
  | .orBase f => formOk 0x32 (.b3 f)
  | .xor f => formOk 0x33 (.x f)
  | .xorBase f => formOk 0x33 (.b3 f)
  | .not f => formOk 0x34 (.x f)
  | .notBase f => formOk 0x34 (.b3 f)
  | .andn f => formOk 0x35 (.x f)
  | .andnBase f => formOk 0x35 (.b3 f)
  | .bsel f => formOk 0x36 (.x f)
  | .logic3 f => formOk 0x37 (.x f)
  | .shl f => formOk 0x38 (.x f)
  | .shlBase f => formOk 0x38 (.b3 f)
  | .shr f => formOk 0x39 (.x f)
  | .shrBase f => formOk 0x39 (.b3 f)
  | .sar f => formOk 0x3a (.x f)
  | .sarBase f => formOk 0x3a (.b3 f)
  | .rot f => formOk 0x3b (.x f)
  | .rotBase f => formOk 0x3b (.b3 f)
  | .popc f => formOk 0x3c (.x f)
  | .popcBase f => formOk 0x3c (.b3 f)
  | .clz f => formOk 0x3d (.x f)
  | .clzBase f => formOk 0x3d (.b3 f)
  | .ctz f => formOk 0x3e (.x f)
  | .ctzBase f => formOk 0x3e (.b3 f)
  | .brev f => formOk 0x3f (.x f)
  | .brevBase f => formOk 0x3f (.b3 f)
  | .bfx f => formOk 0x40 (.x f)
  | .bfi f => formOk 0x41 (.x f)
  | .perm f => formOk 0x42 (.x f)
  | .permBase f => formOk 0x42 (.b3 f)
  | .sext f => formOk 0x43 (.x f)
  | .zext f => formOk 0x44 (.x f)
  | .lea f => formOk 0x45 (.x f)
  | .xset f => formOk 0x46 (.x f)
  | .xbnd f => formOk 0x47 (.x f)
  | .smov f => formOk 0x48 (.x f)
  | .smovBase f => formOk 0x48 (.b3 f)
  | .gmov f => formOk 0x49 (.x f)
  | .vtos f => formOk 0x4a (.x f)
  | .stov f => formOk 0x4b (.x f)
  | .stovBase f => formOk 0x4b (.b3 f)
  | .plog f => formOk 0x4c (.x f)
  | .pmov f => formOk 0x4d (.x f)
  | .fset f => formOk 0x50 (.x f)
  | .fget f => formOk 0x51 (.x f)
  | .fsave f => formOk 0x52 (.x f)
  | .fload f => formOk 0x53 (.x f)
  | .cvt f => formOk 0x54 (.x f)
  | .cvtsr f => formOk 0x55 (.x f)
  | .pack f => formOk 0x56 (.x f)
  | .unpack f => formOk 0x57 (.x f)
  | .fadd f => formOk 0x60 (.x f)
  | .faddBase f => formOk 0x60 (.b3 f)
  | .fsub f => formOk 0x61 (.x f)
  | .fsubBase f => formOk 0x61 (.b3 f)
  | .fmul f => formOk 0x62 (.x f)
  | .fmulBase f => formOk 0x62 (.b3 f)
  | .ffma f => formOk 0x63 (.x f)
  | .fmin f => formOk 0x64 (.x f)
  | .fminBase f => formOk 0x64 (.b3 f)
  | .fmax f => formOk 0x65 (.x f)
  | .fmaxBase f => formOk 0x65 (.b3 f)
  | .fabs f => formOk 0x66 (.x f)
  | .fabsBase f => formOk 0x66 (.b3 f)
  | .fclamp f => formOk 0x67 (.x f)
  | .fcmp f => formOk 0x68 (.x f)
  | .fclass f => formOk 0x69 (.x f)
  | .frnd f => formOk 0x6a (.x f)
  | .fscale f => formOk 0x6b (.x f)
  | .fscaleBase f => formOk 0x6b (.b3 f)
  | .fdot2 f => formOk 0x6c (.x f)
  | .fcpsgn f => formOk 0x6d (.x f)
  | .fcpsgnBase f => formOk 0x6d (.b3 f)
  | .fgetexp f => formOk 0x6e (.x f)
  | .fgetexpBase f => formOk 0x6e (.b3 f)
  | .fgetman f => formOk 0x6f (.x f)
  | .fgetmanBase f => formOk 0x6f (.b3 f)
  | .frcp f => formOk 0x70 (.x f)
  | .frcpBase f => formOk 0x70 (.b3 f)
  | .frsq f => formOk 0x71 (.x f)
  | .frsqBase f => formOk 0x71 (.b3 f)
  | .fsqrt f => formOk 0x72 (.x f)
  | .fsqrtBase f => formOk 0x72 (.b3 f)
  | .fexp2 f => formOk 0x73 (.x f)
  | .fexp2Base f => formOk 0x73 (.b3 f)
  | .flog2 f => formOk 0x74 (.x f)
  | .flog2Base f => formOk 0x74 (.b3 f)
  | .fsinpi f => formOk 0x75 (.x f)
  | .fsinpiBase f => formOk 0x75 (.b3 f)
  | .fcospi f => formOk 0x76 (.x f)
  | .fcospiBase f => formOk 0x76 (.b3 f)
  | .aclaim f => formOk 0x80 (.x f)
  | .arel f => formOk 0x81 (.x f)
  | .bclaim f => formOk 0x82 (.x f)
  | .brel f => formOk 0x83 (.x f)
  | .opld f => formOk 0x84 (.x f)
  | .mma f => formOk 0x85 (.x f)
  | .mmasp f => formOk 0x86 (.x f)
  | .mmaco f => formOk 0x87 (.x f)
  | .acczero f => formOk 0x88 (.x f)
  | .accrd f => formOk 0x89 (.x f)
  | .accwr f => formOk 0x8a (.x f)
  | .accfree f => formOk 0x8b (.x f)
  | .sld f => formOk 0x90 (.x f)
  | .sst f => formOk 0x91 (.x f)
  | .sgath f => formOk 0x92 (.x f)
  | .sfill f => formOk 0x93 (.x f)
  | .wbind f => formOk 0x94 (.x f)
  | .wset f => formOk 0x95 (.x f)
  | .touch f => formOk 0x96 (.x f)
  | .wrel f => formOk 0x97 (.x f)
  | .wstat f => formOk 0x98 (.x f)
  | .bcommit f => formOk 0x99 (.x f)
  | .bwait f => formOk 0x9a (.x f)
  | .tbinit f => formOk 0x9b (.x f)
  | .tbarr f => formOk 0x9c (.x f)
  | .tbexp f => formOk 0x9d (.x f)
  | .tbwait f => formOk 0x9e (.x f)
  | .ld f => formOk 0xa0 (.x f)
  | .st f => formOk 0xa1 (.x f)
  | .ldg f => formOk 0xa2 (.x f)
  | .stg f => formOk 0xa3 (.x f)
  | .ldc f => formOk 0xa4 (.x f)
  | .atom f => formOk 0xa5 (.x f)
  | .ared f => formOk 0xa6 (.x f)
  | .atomx f => formOk 0xa7 (.x f)
  | .pref f => formOk 0xa8 (.x f)
  | .inval f => formOk 0xa9 (.x f)
  | .sbind f => formOk 0xaa (.x f)
  | .sunbind f => formOk 0xab (.x f)
  | .acq f => formOk 0xac (.x f)
  | .rel f => formOk 0xad (.x f)
  | .fence f => formOk 0xae (.x f)
  | .spawn f => formOk 0xb0 (.x f)
  | .join f => formOk 0xb1 (.x f)
  | .trig f => formOk 0xb2 (.x f)
  | .park f => formOk 0xb3 (.x f)
  | .qsig f => formOk 0xb4 (.x f)
  | .ovld f => formOk 0xb5 (.x f)
  | .cuearm f => formOk 0xb8 (.x f)
  | .cue f => formOk 0xb9 (.x f)
  | .cuewait f => formOk 0xba (.x f)
  | .gdset f => formOk 0xbb (.x f)
  | .gdclr f => formOk 0xbc (.x f)
  | .trap f => formOk 0xc0 (.x f)
  | .sysc f => formOk 0xc1 (.x f)
  | .tret f => formOk 0xc2 (.x f)
  | .tretBase f => formOk 0xc2 (.b3 f)
  | .rdsr f => formOk 0xc3 (.x f)
  | .wrsr f => formOk 0xc4 (.x f)
  | .bkpt f => formOk 0xc5 (.x f)
  | .bkptBase f => formOk 0xc5 (.b3 f)
  | .halt f => formOk 0xc6 (.x f)
  | .haltBase f => formOk 0xc6 (.b3 f)
  | .rdcyc f => formOk 0xc7 (.x f)
  | .rdcycBase f => formOk 0xc7 (.b3 f)
  | .rdnrg f => formOk 0xc8 (.x f)
  | .rdnrgBase f => formOk 0xc8 (.b3 f)
  | .rdid f => formOk 0xc9 (.x f)
  | .tlbinv f => formOk 0xca (.x f)
  | .undefinedInstruction _ => true
  | .fetchBeyondOverlay _ => true
  | .fetchOverlayAbsent => true
  | .fixedLatencyWrite _ _ => true
  | .scoreboardResultWrite _ _ => true
  | .loadSectorReturn _ _ => true
  | .storeAcknowledge _ _ => true
  | .reconvergenceFusion _ => true
  | .rejoinRelease _ => true
  | .splitSwapBack _ => true
  | .splitExchange _ => true
  | .troupeEnd _ => true
  | .imageLoad _ _ _ => true
  | .ovldCopyComplete _ => true
  | .shootdownAcknowledge _ _ => true
  | .formatWriteAtHome _ _ _ _ _ => true
  | .formatBroadcastApply _ _ _ _ _ => true
  | .matrixTileReady _ _ => true
  | .opldComplete _ => true
  | .mmacoStart _ _ => true
  | .copyStart _ => true
  | .sectorLanding _ _ => true
  | .tbwaitWake _ _ => true
  | .sfillComplete _ => true
  | .reduceContribution _ _ => true
  | .reduceRetry _ _ => true
  | .faultRecordWrite _ => true
  | .frplyReplay _ _ => true
  | .frplyRaise _ _ => true
  | .parkedReplay _ => true
  | .fqheadWrite _ _ => true
  | .acqWaitSuccess _ => true
  | .acqPoll _ => true
  | .doorbell _ => true
  | .queueMap _ => true
  | .launchPacket _ => true
  | .waitPacket _ => true
  | .signalPacket _ => true
  | .nopPacket _ => true
  | .formatPreloadPacket _ => true
  | .waitPacketReevaluate _ => true
  | .launchStart _ => true
  | .productionRetire _ => true
  | .energyIntervalStart _ => true
  | .priorityAging _ => true
  | .ensemblePlacement _ => true
  | .greenRoomTransfer _ => true
  | .cuearmAtDesk _ _ _ _ _ => true
  | .cueBroadcast _ _ _ => true
  | .cueCopyWrite _ _ _ _ _ => true
  | .cueTouchFire _ _ => true
  | .cueArrFire _ _ => true
  | .cueGuardFire _ _ => true
  | .cuewaitFire _ _ => true
  | .contextSwitch _ _ => true
  | .autoSwitch _ => true
  | .stop _ _ => true
  | .captureComplete _ => true
  | .checkpointCut _ => true
  | .unitStreamed _ => true
  | .cutCommit _ => true
  | .resumption _ => true
  | .coreFence _ => true
  | .savecostUpdate _ => true
  | .mapcmdCommit _ => true
  | .mapCheckComplete => true
  | .eccUncorrectable _ _ => true
  | .fclrWrite _ _ => true
  | .refreshHeartbeat _ => true
  | .refreshTakeover _ => true
  | .baseDieReset _ => true
  | .scrub _ => true
  | .flitNak _ _ => true
  | .linkRetrainComplete _ _ => true
  | .lnkctlRetrain _ => true
  | .helyelRead _ _ _ _ _ => true
  | .helyelWrite _ _ _ _ _ _ => true
  | .helyelAtomicAdd _ _ _ _ _ _ => true
  | .helyelCompareAndSwap _ _ _ _ _ _ _ => true
  | .helyelFencedWrite _ _ _ _ _ _ => true
  | .helyelResponse _ _ _ => true
  | .counterClear _ _ => true
  | .energyFold => true
  | .capApplication => true
  | .thermalEvent _ => true
  | .currentLimitEvent _ => true
  | .setHallCap _ _ _ => true
  | .hallCapExpiry _ => true
  | .eventWrite _ => true
  | .evheadWrite _ => true
  | .hostCxlMemRead _ _ => true
  | .hostCxlMemWrite _ _ => true
  | .backInvalidateSnoop _ => true
  | .moduleReset => true
  | .registerWrite _ _ => true
  | .contextCreation _ _ _ _ => true
  | .refresh _ => true
  | .flitCrcFailure _ _ => true
  | .cacheActionComplete _ => true
  | .swapBackReadComplete _ _ => true
  | .spdmMeasurementRequest => true
  | .serviceCoreMemoryAccess _ _ _ _ => true

end Sys2Proof
end

