-- ==== Sys2Proof/Decode.lean ====
section
/-! DEFINITION. Decoding of instruction words (R25 to R39, R49 to R56) and the encoder written from the same tables. -/

namespace Sys2Proof

/-- Why bytes decode to no instruction. -/
inductive Reject where
  /-- an unassigned opcode, or a base form of an extended-only opcode: Trap(0x01) (R38, R53) -/
  | undefined
  /-- a reserved or ill-formed field value: Trap(0x02) (R55) -/
  | reserved
  /-- fewer bytes than the instruction has (R27) -/
  | short
deriving DecidableEq, Repr

/-- The opcode and the fields of an instruction; none for an event, which has no words. -/
def Instr.view : Instr → Option (Nat × Form)
  | .nop f => some (0x01, .x f)
  | .nopBase f => some (0x01, .b3 f)
  | .bra f => some (0x02, .xt f)
  | .braBase f => some (0x02, .bt f)
  | .brc f => some (0x03, .xt f)
  | .brx f => some (0x04, .xt f)
  | .call f => some (0x05, .xt f)
  | .callBase f => some (0x05, .bt f)
  | .callx f => some (0x06, .xt f)
  | .ocall f => some (0x07, .xt f)
  | .ret f => some (0x08, .x f)
  | .retBase f => some (0x08, .b3 f)
  | .exit f => some (0x09, .x f)
  | .exitBase f => some (0x09, .b3 f)
  | .yield f => some (0x0a, .x f)
  | .yieldBase f => some (0x0a, .b3 f)
  | .rejoin f => some (0x0b, .x f)
  | .rejoinBase f => some (0x0b, .b3 f)
  | .full f => some (0x0c, .x f)
  | .fullBase f => some (0x0c, .b3 f)
  | .endfull f => some (0x0d, .x f)
  | .endfullBase f => some (0x0d, .b3 f)
  | .vote f => some (0x10, .x f)
  | .shfl f => some (0x11, .x f)
  | .tred f => some (0x12, .x f)
  | .tredf f => some (0x13, .x f)
  | .scan f => some (0x14, .x f)
  | .splq f => some (0x15, .x f)
  | .splqBase f => some (0x15, .b3 f)
  | .mov f => some (0x20, .x f)
  | .movBase f => some (0x20, .b3 f)
  | .movi f => some (0x21, .x f)
  | .moviBase f => some (0x21, .bi f)
  | .iadd f => some (0x22, .x f)
  | .iaddBase f => some (0x22, .b3 f)
  | .isub f => some (0x23, .x f)
  | .isubBase f => some (0x23, .b3 f)
  | .iaddc f => some (0x24, .x f)
  | .isubb f => some (0x25, .x f)
  | .imul f => some (0x26, .x f)
  | .imulBase f => some (0x26, .b3 f)
  | .imulh f => some (0x27, .x f)
  | .imulhBase f => some (0x27, .b3 f)
  | .imulw f => some (0x28, .x f)
  | .imulwBase f => some (0x28, .b3 f)
  | .imad f => some (0x29, .x f)
  | .isad f => some (0x2a, .x f)
  | .imin f => some (0x2b, .x f)
  | .iminBase f => some (0x2b, .b3 f)
  | .imax f => some (0x2c, .x f)
  | .imaxBase f => some (0x2c, .b3 f)
  | .iabs f => some (0x2d, .x f)
  | .iabsBase f => some (0x2d, .b3 f)
  | .ineg f => some (0x2e, .x f)
  | .inegBase f => some (0x2e, .b3 f)
  | .icmp f => some (0x2f, .x f)
  | .sel f => some (0x30, .x f)
  | .and f => some (0x31, .x f)
  | .andBase f => some (0x31, .b3 f)
  | .or f => some (0x32, .x f)
  | .orBase f => some (0x32, .b3 f)
  | .xor f => some (0x33, .x f)
  | .xorBase f => some (0x33, .b3 f)
  | .not f => some (0x34, .x f)
  | .notBase f => some (0x34, .b3 f)
  | .andn f => some (0x35, .x f)
  | .andnBase f => some (0x35, .b3 f)
  | .bsel f => some (0x36, .x f)
  | .logic3 f => some (0x37, .x f)
  | .shl f => some (0x38, .x f)
  | .shlBase f => some (0x38, .b3 f)
  | .shr f => some (0x39, .x f)
  | .shrBase f => some (0x39, .b3 f)
  | .sar f => some (0x3a, .x f)
  | .sarBase f => some (0x3a, .b3 f)
  | .rot f => some (0x3b, .x f)
  | .rotBase f => some (0x3b, .b3 f)
  | .popc f => some (0x3c, .x f)
  | .popcBase f => some (0x3c, .b3 f)
  | .clz f => some (0x3d, .x f)
  | .clzBase f => some (0x3d, .b3 f)
  | .ctz f => some (0x3e, .x f)
  | .ctzBase f => some (0x3e, .b3 f)
  | .brev f => some (0x3f, .x f)
  | .brevBase f => some (0x3f, .b3 f)
  | .bfx f => some (0x40, .x f)
  | .bfi f => some (0x41, .x f)
  | .perm f => some (0x42, .x f)
  | .permBase f => some (0x42, .b3 f)
  | .sext f => some (0x43, .x f)
  | .zext f => some (0x44, .x f)
  | .lea f => some (0x45, .x f)
  | .xset f => some (0x46, .x f)
  | .xbnd f => some (0x47, .x f)
  | .smov f => some (0x48, .x f)
  | .smovBase f => some (0x48, .b3 f)
  | .gmov f => some (0x49, .x f)
  | .vtos f => some (0x4a, .x f)
  | .stov f => some (0x4b, .x f)
  | .stovBase f => some (0x4b, .b3 f)
  | .plog f => some (0x4c, .x f)
  | .pmov f => some (0x4d, .x f)
  | .fset f => some (0x50, .x f)
  | .fget f => some (0x51, .x f)
  | .fsave f => some (0x52, .x f)
  | .fload f => some (0x53, .x f)
  | .cvt f => some (0x54, .x f)
  | .cvtsr f => some (0x55, .x f)
  | .pack f => some (0x56, .x f)
  | .unpack f => some (0x57, .x f)
  | .fadd f => some (0x60, .x f)
  | .faddBase f => some (0x60, .b3 f)
  | .fsub f => some (0x61, .x f)
  | .fsubBase f => some (0x61, .b3 f)
  | .fmul f => some (0x62, .x f)
  | .fmulBase f => some (0x62, .b3 f)
  | .ffma f => some (0x63, .x f)
  | .fmin f => some (0x64, .x f)
  | .fminBase f => some (0x64, .b3 f)
  | .fmax f => some (0x65, .x f)
  | .fmaxBase f => some (0x65, .b3 f)
  | .fabs f => some (0x66, .x f)
  | .fabsBase f => some (0x66, .b3 f)
  | .fclamp f => some (0x67, .x f)
  | .fcmp f => some (0x68, .x f)
  | .fclass f => some (0x69, .x f)
  | .frnd f => some (0x6a, .x f)
  | .fscale f => some (0x6b, .x f)
  | .fscaleBase f => some (0x6b, .b3 f)
  | .fdot2 f => some (0x6c, .x f)
  | .fcpsgn f => some (0x6d, .x f)
  | .fcpsgnBase f => some (0x6d, .b3 f)
  | .fgetexp f => some (0x6e, .x f)
  | .fgetexpBase f => some (0x6e, .b3 f)
  | .fgetman f => some (0x6f, .x f)
  | .fgetmanBase f => some (0x6f, .b3 f)
  | .frcp f => some (0x70, .x f)
  | .frcpBase f => some (0x70, .b3 f)
  | .frsq f => some (0x71, .x f)
  | .frsqBase f => some (0x71, .b3 f)
  | .fsqrt f => some (0x72, .x f)
  | .fsqrtBase f => some (0x72, .b3 f)
  | .fexp2 f => some (0x73, .x f)
  | .fexp2Base f => some (0x73, .b3 f)
  | .flog2 f => some (0x74, .x f)
  | .flog2Base f => some (0x74, .b3 f)
  | .fsinpi f => some (0x75, .x f)
  | .fsinpiBase f => some (0x75, .b3 f)
  | .fcospi f => some (0x76, .x f)
  | .fcospiBase f => some (0x76, .b3 f)
  | .aclaim f => some (0x80, .x f)
  | .arel f => some (0x81, .x f)
  | .bclaim f => some (0x82, .x f)
  | .brel f => some (0x83, .x f)
  | .opld f => some (0x84, .x f)
  | .mma f => some (0x85, .x f)
  | .mmasp f => some (0x86, .x f)
  | .mmaco f => some (0x87, .x f)
  | .acczero f => some (0x88, .x f)
  | .accrd f => some (0x89, .x f)
  | .accwr f => some (0x8a, .x f)
  | .accfree f => some (0x8b, .x f)
  | .sld f => some (0x90, .x f)
  | .sst f => some (0x91, .x f)
  | .sgath f => some (0x92, .x f)
  | .sfill f => some (0x93, .x f)
  | .wbind f => some (0x94, .x f)
  | .wset f => some (0x95, .x f)
  | .touch f => some (0x96, .x f)
  | .wrel f => some (0x97, .x f)
  | .wstat f => some (0x98, .x f)
  | .bcommit f => some (0x99, .x f)
  | .bwait f => some (0x9a, .x f)
  | .tbinit f => some (0x9b, .x f)
  | .tbarr f => some (0x9c, .x f)
  | .tbexp f => some (0x9d, .x f)
  | .tbwait f => some (0x9e, .x f)
  | .ld f => some (0xa0, .x f)
  | .st f => some (0xa1, .x f)
  | .ldg f => some (0xa2, .x f)
  | .stg f => some (0xa3, .x f)
  | .ldc f => some (0xa4, .x f)
  | .atom f => some (0xa5, .x f)
  | .ared f => some (0xa6, .x f)
  | .atomx f => some (0xa7, .x f)
  | .pref f => some (0xa8, .x f)
  | .inval f => some (0xa9, .x f)
  | .sbind f => some (0xaa, .x f)
  | .sunbind f => some (0xab, .x f)
  | .acq f => some (0xac, .x f)
  | .rel f => some (0xad, .x f)
  | .fence f => some (0xae, .x f)
  | .spawn f => some (0xb0, .x f)
  | .join f => some (0xb1, .x f)
  | .trig f => some (0xb2, .x f)
  | .park f => some (0xb3, .x f)
  | .qsig f => some (0xb4, .x f)
  | .ovld f => some (0xb5, .x f)
  | .cuearm f => some (0xb8, .x f)
  | .cue f => some (0xb9, .x f)
  | .cuewait f => some (0xba, .x f)
  | .gdset f => some (0xbb, .x f)
  | .gdclr f => some (0xbc, .x f)
  | .trap f => some (0xc0, .x f)
  | .sysc f => some (0xc1, .x f)
  | .tret f => some (0xc2, .x f)
  | .tretBase f => some (0xc2, .b3 f)
  | .rdsr f => some (0xc3, .x f)
  | .wrsr f => some (0xc4, .x f)
  | .bkpt f => some (0xc5, .x f)
  | .bkptBase f => some (0xc5, .b3 f)
  | .halt f => some (0xc6, .x f)
  | .haltBase f => some (0xc6, .b3 f)
  | .rdcyc f => some (0xc7, .x f)
  | .rdcycBase f => some (0xc7, .b3 f)
  | .rdnrg f => some (0xc8, .x f)
  | .rdnrgBase f => some (0xc8, .b3 f)
  | .rdid f => some (0xc9, .x f)
  | .tlbinv f => some (0xca, .x f)
  | .undefinedInstruction _ => none
  | .fetchBeyondOverlay _ => none
  | .fetchOverlayAbsent => none
  | .fixedLatencyWrite _ _ => none
  | .scoreboardResultWrite _ _ => none
  | .loadSectorReturn _ _ => none
  | .storeAcknowledge _ _ => none
  | .reconvergenceFusion _ => none
  | .rejoinRelease _ => none
  | .splitSwapBack _ => none
  | .splitExchange _ => none
  | .troupeEnd _ => none
  | .imageLoad _ _ _ => none
  | .ovldCopyComplete _ => none
  | .shootdownAcknowledge _ _ => none
  | .formatWriteAtHome _ _ _ _ _ => none
  | .formatBroadcastApply _ _ _ _ _ => none
  | .matrixTileReady _ _ => none
  | .opldComplete _ => none
  | .mmacoStart _ _ => none
  | .copyStart _ => none
  | .sectorLanding _ _ => none
  | .tbwaitWake _ _ => none
  | .sfillComplete _ => none
  | .reduceContribution _ _ => none
  | .reduceRetry _ _ => none
  | .faultRecordWrite _ => none
  | .frplyReplay _ _ => none
  | .frplyRaise _ _ => none
  | .parkedReplay _ => none
  | .fqheadWrite _ _ => none
  | .acqWaitSuccess _ => none
  | .acqPoll _ => none
  | .doorbell _ => none
  | .queueMap _ => none
  | .launchPacket _ => none
  | .waitPacket _ => none
  | .signalPacket _ => none
  | .nopPacket _ => none
  | .formatPreloadPacket _ => none
  | .waitPacketReevaluate _ => none
  | .launchStart _ => none
  | .productionRetire _ => none
  | .energyIntervalStart _ => none
  | .priorityAging _ => none
  | .ensemblePlacement _ => none
  | .greenRoomTransfer _ => none
  | .cuearmAtDesk _ _ _ _ _ => none
  | .cueBroadcast _ _ _ => none
  | .cueCopyWrite _ _ _ _ _ => none
  | .cueTouchFire _ _ => none
  | .cueArrFire _ _ => none
  | .cueGuardFire _ _ => none
  | .cuewaitFire _ _ => none
  | .contextSwitch _ _ => none
  | .autoSwitch _ => none
  | .stop _ _ => none
  | .captureComplete _ => none
  | .checkpointCut _ => none
  | .unitStreamed _ => none
  | .cutCommit _ => none
  | .resumption _ => none
  | .coreFence _ => none
  | .savecostUpdate _ => none
  | .mapcmdCommit _ => none
  | .mapCheckComplete => none
  | .eccUncorrectable _ _ => none
  | .fclrWrite _ _ => none
  | .refreshHeartbeat _ => none
  | .refreshTakeover _ => none
  | .baseDieReset _ => none
  | .scrub _ => none
  | .flitNak _ _ => none
  | .linkRetrainComplete _ _ => none
  | .lnkctlRetrain _ => none
  | .helyelRead _ _ _ _ _ => none
  | .helyelWrite _ _ _ _ _ _ => none
  | .helyelAtomicAdd _ _ _ _ _ _ => none
  | .helyelCompareAndSwap _ _ _ _ _ _ _ => none
  | .helyelFencedWrite _ _ _ _ _ _ => none
  | .helyelResponse _ _ _ => none
  | .counterClear _ _ => none
  | .energyFold => none
  | .capApplication => none
  | .thermalEvent _ => none
  | .currentLimitEvent _ => none
  | .setHallCap _ _ _ => none
  | .hallCapExpiry _ => none
  | .eventWrite _ => none
  | .evheadWrite _ => none
  | .hostCxlMemRead _ _ => none
  | .hostCxlMemWrite _ _ => none
  | .backInvalidateSnoop _ => none
  | .moduleReset => none
  | .registerWrite _ _ => none
  | .contextCreation _ _ _ _ => none
  | .refresh _ => none
  | .flitCrcFailure _ _ => none
  | .cacheActionComplete _ => none
  | .swapBackReadComplete _ _ => none
  | .spdmMeasurementRequest => none
  | .serviceCoreMemoryAccess _ _ _ _ => none

/-- The instruction of an opcode with fields of layout X. -/
def ofX (op : Nat) (f : X) : Option Instr :=
  match op with
  | 0x01 => some (.nop f)
  | 0x08 => some (.ret f)
  | 0x09 => some (.exit f)
  | 0x0a => some (.yield f)
  | 0x0b => some (.rejoin f)
  | 0x0c => some (.full f)
  | 0x0d => some (.endfull f)
  | 0x10 => some (.vote f)
  | 0x11 => some (.shfl f)
  | 0x12 => some (.tred f)
  | 0x13 => some (.tredf f)
  | 0x14 => some (.scan f)
  | 0x15 => some (.splq f)
  | 0x20 => some (.mov f)
  | 0x21 => some (.movi f)
  | 0x22 => some (.iadd f)
  | 0x23 => some (.isub f)
  | 0x24 => some (.iaddc f)
  | 0x25 => some (.isubb f)
  | 0x26 => some (.imul f)
  | 0x27 => some (.imulh f)
  | 0x28 => some (.imulw f)
  | 0x29 => some (.imad f)
  | 0x2a => some (.isad f)
  | 0x2b => some (.imin f)
  | 0x2c => some (.imax f)
  | 0x2d => some (.iabs f)
  | 0x2e => some (.ineg f)
  | 0x2f => some (.icmp f)
  | 0x30 => some (.sel f)
  | 0x31 => some (.and f)
  | 0x32 => some (.or f)
  | 0x33 => some (.xor f)
  | 0x34 => some (.not f)
  | 0x35 => some (.andn f)
  | 0x36 => some (.bsel f)
  | 0x37 => some (.logic3 f)
  | 0x38 => some (.shl f)
  | 0x39 => some (.shr f)
  | 0x3a => some (.sar f)
  | 0x3b => some (.rot f)
  | 0x3c => some (.popc f)
  | 0x3d => some (.clz f)
  | 0x3e => some (.ctz f)
  | 0x3f => some (.brev f)
  | 0x40 => some (.bfx f)
  | 0x41 => some (.bfi f)
  | 0x42 => some (.perm f)
  | 0x43 => some (.sext f)
  | 0x44 => some (.zext f)
  | 0x45 => some (.lea f)
  | 0x46 => some (.xset f)
  | 0x47 => some (.xbnd f)
  | 0x48 => some (.smov f)
  | 0x49 => some (.gmov f)
  | 0x4a => some (.vtos f)
  | 0x4b => some (.stov f)
  | 0x4c => some (.plog f)
  | 0x4d => some (.pmov f)
  | 0x50 => some (.fset f)
  | 0x51 => some (.fget f)
  | 0x52 => some (.fsave f)
  | 0x53 => some (.fload f)
  | 0x54 => some (.cvt f)
  | 0x55 => some (.cvtsr f)
  | 0x56 => some (.pack f)
  | 0x57 => some (.unpack f)
  | 0x60 => some (.fadd f)
  | 0x61 => some (.fsub f)
  | 0x62 => some (.fmul f)
  | 0x63 => some (.ffma f)
  | 0x64 => some (.fmin f)
  | 0x65 => some (.fmax f)
  | 0x66 => some (.fabs f)
  | 0x67 => some (.fclamp f)
  | 0x68 => some (.fcmp f)
  | 0x69 => some (.fclass f)
  | 0x6a => some (.frnd f)
  | 0x6b => some (.fscale f)
  | 0x6c => some (.fdot2 f)
  | 0x6d => some (.fcpsgn f)
  | 0x6e => some (.fgetexp f)
  | 0x6f => some (.fgetman f)
  | 0x70 => some (.frcp f)
  | 0x71 => some (.frsq f)
  | 0x72 => some (.fsqrt f)
  | 0x73 => some (.fexp2 f)
  | 0x74 => some (.flog2 f)
  | 0x75 => some (.fsinpi f)
  | 0x76 => some (.fcospi f)
  | 0x80 => some (.aclaim f)
  | 0x81 => some (.arel f)
  | 0x82 => some (.bclaim f)
  | 0x83 => some (.brel f)
  | 0x84 => some (.opld f)
  | 0x85 => some (.mma f)
  | 0x86 => some (.mmasp f)
  | 0x87 => some (.mmaco f)
  | 0x88 => some (.acczero f)
  | 0x89 => some (.accrd f)
  | 0x8a => some (.accwr f)
  | 0x8b => some (.accfree f)
  | 0x90 => some (.sld f)
  | 0x91 => some (.sst f)
  | 0x92 => some (.sgath f)
  | 0x93 => some (.sfill f)
  | 0x94 => some (.wbind f)
  | 0x95 => some (.wset f)
  | 0x96 => some (.touch f)
  | 0x97 => some (.wrel f)
  | 0x98 => some (.wstat f)
  | 0x99 => some (.bcommit f)
  | 0x9a => some (.bwait f)
  | 0x9b => some (.tbinit f)
  | 0x9c => some (.tbarr f)
  | 0x9d => some (.tbexp f)
  | 0x9e => some (.tbwait f)
  | 0xa0 => some (.ld f)
  | 0xa1 => some (.st f)
  | 0xa2 => some (.ldg f)
  | 0xa3 => some (.stg f)
  | 0xa4 => some (.ldc f)
  | 0xa5 => some (.atom f)
  | 0xa6 => some (.ared f)
  | 0xa7 => some (.atomx f)
  | 0xa8 => some (.pref f)
  | 0xa9 => some (.inval f)
  | 0xaa => some (.sbind f)
  | 0xab => some (.sunbind f)
  | 0xac => some (.acq f)
  | 0xad => some (.rel f)
  | 0xae => some (.fence f)
  | 0xb0 => some (.spawn f)
  | 0xb1 => some (.join f)
  | 0xb2 => some (.trig f)
  | 0xb3 => some (.park f)
  | 0xb4 => some (.qsig f)
  | 0xb5 => some (.ovld f)
  | 0xb8 => some (.cuearm f)
  | 0xb9 => some (.cue f)
  | 0xba => some (.cuewait f)
  | 0xbb => some (.gdset f)
  | 0xbc => some (.gdclr f)
  | 0xc0 => some (.trap f)
  | 0xc1 => some (.sysc f)
  | 0xc2 => some (.tret f)
  | 0xc3 => some (.rdsr f)
  | 0xc4 => some (.wrsr f)
  | 0xc5 => some (.bkpt f)
  | 0xc6 => some (.halt f)
  | 0xc7 => some (.rdcyc f)
  | 0xc8 => some (.rdnrg f)
  | 0xc9 => some (.rdid f)
  | 0xca => some (.tlbinv f)
  | _ => none

/-- The instruction of an opcode with fields of layout XT. -/
def ofXT (op : Nat) (f : XT) : Option Instr :=
  match op with
  | 0x02 => some (.bra f)
  | 0x03 => some (.brc f)
  | 0x04 => some (.brx f)
  | 0x05 => some (.call f)
  | 0x06 => some (.callx f)
  | 0x07 => some (.ocall f)
  | _ => none

/-- The instruction of an opcode with a base word of layout B3. -/
def ofB3 (op : Nat) (f : B3) : Option Instr :=
  match op with
  | 0x01 => some (.nopBase f)
  | 0x08 => some (.retBase f)
  | 0x09 => some (.exitBase f)
  | 0x0a => some (.yieldBase f)
  | 0x0b => some (.rejoinBase f)
  | 0x0c => some (.fullBase f)
  | 0x0d => some (.endfullBase f)
  | 0x15 => some (.splqBase f)
  | 0x20 => some (.movBase f)
  | 0x22 => some (.iaddBase f)
  | 0x23 => some (.isubBase f)
  | 0x26 => some (.imulBase f)
  | 0x27 => some (.imulhBase f)
  | 0x28 => some (.imulwBase f)
  | 0x2b => some (.iminBase f)
  | 0x2c => some (.imaxBase f)
  | 0x2d => some (.iabsBase f)
  | 0x2e => some (.inegBase f)
  | 0x31 => some (.andBase f)
  | 0x32 => some (.orBase f)
  | 0x33 => some (.xorBase f)
  | 0x34 => some (.notBase f)
  | 0x35 => some (.andnBase f)
  | 0x38 => some (.shlBase f)
  | 0x39 => some (.shrBase f)
  | 0x3a => some (.sarBase f)
  | 0x3b => some (.rotBase f)
  | 0x3c => some (.popcBase f)
  | 0x3d => some (.clzBase f)
  | 0x3e => some (.ctzBase f)
  | 0x3f => some (.brevBase f)
  | 0x42 => some (.permBase f)
  | 0x48 => some (.smovBase f)
  | 0x4b => some (.stovBase f)
  | 0x60 => some (.faddBase f)
  | 0x61 => some (.fsubBase f)
  | 0x62 => some (.fmulBase f)
  | 0x64 => some (.fminBase f)
  | 0x65 => some (.fmaxBase f)
  | 0x66 => some (.fabsBase f)
  | 0x6b => some (.fscaleBase f)
  | 0x6d => some (.fcpsgnBase f)
  | 0x6e => some (.fgetexpBase f)
  | 0x6f => some (.fgetmanBase f)
  | 0x70 => some (.frcpBase f)
  | 0x71 => some (.frsqBase f)
  | 0x72 => some (.fsqrtBase f)
  | 0x73 => some (.fexp2Base f)
  | 0x74 => some (.flog2Base f)
  | 0x75 => some (.fsinpiBase f)
  | 0x76 => some (.fcospiBase f)
  | 0xc2 => some (.tretBase f)
  | 0xc5 => some (.bkptBase f)
  | 0xc6 => some (.haltBase f)
  | 0xc7 => some (.rdcycBase f)
  | 0xc8 => some (.rdnrgBase f)
  | _ => none

/-- The instruction of an opcode with a base word of layout BT (R29). -/
def ofBT (op : Nat) (f : BT) : Option Instr :=
  match op with
  | 0x02 => some (.braBase f)
  | 0x05 => some (.callBase f)
  | _ => none

/-- The instruction of an opcode and a form; none where the opcode map gives none. -/
def ofForm (op : Nat) : Form → Option Instr
  | .x f => ofX op f
  | .xt f => ofXT op f
  | .b3 f => ofB3 op f
  | .bi f => if op = 0x21 then some (.moviBase f) else none
  | .bt f => ofBT op f

/-- The bytes of an instruction by bits 1:0 of its first word (R25). -/
def lenBytes (len : Nat) : Nat := if len = 0 then 4 else if len = 3 then 20 else 12

/-- The words of an instruction by bits 1:0 of its first word (R25). -/
def lenWords (len : Nat) : Nat := if len = 0 then 1 else if len = 3 then 5 else 3

/-- The opcode map assigns the opcode (R49). -/
def assigned (op : Nat) : Bool := (2 ≤ op && op ≤ 7) || (rowOf op 0).isSome

/-- The opcode has a base form (R50). -/
def hasBase (op : Nat) : Bool :=
  op = 0x02 || op = 0x05 || (match rowOf op 0 with
    | some r => r.base
    | none => false)

/-- The operand of a 10-bit long code; none for a reserved index (R33). -/
def longOperand (c : Nat) : Option Operand :=
  let i := c % 256
  let lvl := c / 256
  if lvl = 0 then some (.v (BitVec.ofNat 8 i))
  else if lvl = 1 then (if i < 8 then some (.o (BitVec.ofNat 3 i)) else none)
  else if lvl = 2 then (if i = 0 then some .latch else if i = 1 then some .latchX else none)
  else if i < 64 then some (.s (BitVec.ofNat 6 i))
  else if i < 96 then some (.g (BitVec.ofNat 5 (i - 64)))
  else if i < 100 then some (.x (BitVec.ofNat 2 (i - 96)))
  else if i < 108 then some (.p (BitVec.ofNat 3 (i - 100)))
  else if i = 108 then some .lit
  else if i = 109 then some .zero
  else if i = 110 then some .lane
  else if i = 111 then some .troupe
  else if i < 128 then none
  else some (.idx (BitVec.ofNat 2 ((i - 128) / 32)) (BitVec.ofNat 5 (i % 32)))

/-- The long code of an operand (R33). -/
def Operand.longCode : Operand → Nat
  | .v n => n.toNat
  | .o n => 256 + n.toNat
  | .latch => 512
  | .latchX => 513
  | .s n => 768 + n.toNat
  | .g n => 832 + n.toNat
  | .x n => 864 + n.toNat
  | .p n => 868 + n.toNat
  | .lit => 876
  | .zero => 877
  | .lane => 878
  | .troupe => 879
  | .idx n k => 896 + 32 * n.toNat + k.toNat

/-- The operand of a 6-bit short code (R30). -/
def shortOperand (c : Nat) : Operand :=
  if c < 48 then .v (BitVec.ofNat 8 c)
  else if c < 56 then .o (BitVec.ofNat 3 (c - 48))
  else if c = 56 then .latch
  else if c = 57 then .latchX
  else if c = 58 then .lit
  else if c = 59 then .zero
  else .s (BitVec.ofNat 6 (c - 60))

/-- The short code of an operand that has one (R30); 0 for the others, which no base word carries. -/
def Operand.shortCode : Operand → Nat
  | .v n => n.toNat
  | .o n => 48 + n.toNat
  | .latch => 56
  | .latchX => 57
  | .lit => 58
  | .zero => 59
  | .s n => 60 + n.toNat
  | .g _ => 0
  | .x _ => 0
  | .p _ => 0
  | .lane => 0
  | .troupe => 0
  | .idx _ _ => 0

/-- RND (R35). -/
def rndOf (c : Nat) : Option RMode :=
  match c with
  | 0 => some .rne
  | 1 => some .rtz
  | 2 => some .rdn
  | 3 => some .rup
  | 4 => some .rna
  | 5 => some .rsr
  | _ => none

/-- The code of a rounding mode (R35). -/
def RMode.code : RMode → Nat
  | .rne => 0
  | .rtz => 1
  | .rdn => 2
  | .rup => 3
  | .rna => 4
  | .rsr => 5

/-- SCOPE (R36). -/
def scopeOf (c : Nat) : Option Scope :=
  match c with
  | 0 => some .troupe
  | 1 => some .ensemble
  | 2 => some .core
  | 3 => some .die
  | 4 => some .module
  | 5 => some .system
  | _ => none

/-- The code of a scope (R36). -/
def Scope.code : Scope → Nat
  | .troupe => 0
  | .ensemble => 1
  | .core => 2
  | .die => 3
  | .module => 4
  | .system => 5

/-- Bits 13:10 of a first word (R28). -/
def headOf (w : Nat) : Head := { yield := w / 8192 % 2 = 1, stall := BitVec.ofNat 3 (w / 1024) }

/-- Word 0 of an extended form (R31); none for a reserved bit, RND or SCOPE. -/
def w0Of (w : Nat) : Option W0 :=
  if w / 16384 % 2 = 1 then none
  else
    match rndOf (w / 2097152 % 8), scopeOf (w / 33554432 % 8) with
    | some r, some s =>
      some { head := headOf w, pneg := w / 2147483648 % 2 = 1, pred := BitVec.ofNat 3 (w / 268435456), scope := s,
             sat := w / 16777216 % 2 = 1, rnd := r, fmt := BitVec.ofNat 6 (w / 32768) }
    | _, _ => none

/-- The two literal words (R25, R39). -/
def litOf (lo hi : Nat) : DWord := BitVec.ofNat 64 (lo + 4294967296 * hi)

/-- The fields of layout X (R32). -/
def xOf (w w1 w2 : Nat) (lit : Option DWord) : Option X :=
  if w1 % 4 ≠ 0 then none
  else
    match w0Of w, longOperand (w1 / 4194304), longOperand (w1 / 4096 % 1024), longOperand (w1 / 4 % 1024),
      longOperand (w2 / 4194304) with
    | some h, some d, some a, some b, some c =>
      some { w0 := h, dst := d, sa := a, sb := b, sc := c, mod := BitVec.ofNat 8 (w2 / 16384),
             disp := BitVec.ofNat 14 w2, lit := lit }
    | _, _, _, _, _ => none

/-- The fields of layout XT (R32). -/
def xtOf (w w1 w2 : Nat) (lit : Option DWord) : Option XT :=
  if w1 % 16 ≠ 0 ∨ w2 % 16384 ≠ 0 then none
  else
    match w0Of w, longOperand (w2 / 4194304) with
    | some h, some i =>
      some { w0 := h, tgt := BitVec.ofNat 14 (w1 / 262144), aux := BitVec.ofNat 14 (w1 / 16), si := i,
             mod := BitVec.ofNat 8 (w2 / 16384), lit := lit }
    | _, _ => none

/-- The fields of a base word (R29). -/
def baseOf (op w : Nat) (lit : Option DWord) : Option Form :=
  if op = 0x02 ∨ op = 0x05 then
    if w / 268435456 ≠ 0 ∨ lit.isSome then none
    else some (.bt { head := headOf w, tgt := BitVec.ofNat 14 (w / 16384) })
  else if op = 0x21 then
    if lit.isSome then none
    else some (.bi { head := headOf w, dst := shortOperand (w / 67108864), imm := BitVec.ofNat 12 (w / 16384) })
  else
    some (.b3 { head := headOf w, dst := shortOperand (w / 67108864), sa := shortOperand (w / 1048576 % 64),
                sb := shortOperand (w / 16384 % 64), lit := lit })

/-- The fields of an extended form. -/
def extOf (op w w1 w2 : Nat) (lit : Option DWord) : Option Form :=
  if 2 ≤ op ∧ op ≤ 7 then (xtOf w w1 w2 lit).map Form.xt else (xOf w w1 w2 lit).map Form.x

/-- The form that the words of an instruction hold (R25); none for a reserved field or for too few words. -/
def formOf (op : Nat) (ws : List Nat) : Option Form :=
  match ws with
  | [w] => baseOf op w none
  | [w, w1, w2] => if w % 4 = 1 then extOf op w w1 w2 none else baseOf op w (some (litOf w1 w2))
  | [w, w1, w2, l, h] => extOf op w w1 w2 (some (litOf l h))
  | _ => none

/-- Decoding of a list of words that begins with an instruction: the checks of R56 with codes 0x01 and 0x02 in order. -/
def decodeWords (ws : List Nat) : Except Reject Instr :=
  match ws with
  | [] => .error .short
  | w :: _ =>
    let op := w / 4 % 256
    let n := lenWords (w % 4)
    if !assigned op || ((w % 4 = 0 || w % 4 = 2) && !hasBase op) then .error .undefined
    else if ws.length < n then .error .short
    else
      match formOf op (ws.take n) with
      | none => .error .reserved
      | some f =>
        if formOk op f then
          match ofForm op f with
          | some i => .ok i
          | none => .error .undefined
        else .error .reserved

/-- Bytes in memory order read as words (R5). -/
def wordsOf : List Byte → List Nat
  | a :: b :: c :: d :: t => leNat [a, b, c, d] :: wordsOf t
  | _ => []

/-- Decoding of any bytes: the instruction they begin with, or why there is none. -/
def decode (bs : List Byte) : Except Reject Instr := decodeWords (wordsOf bs)

/-- Bits 31:14 of a first word above its header (R28), with the form's LEN. -/
def firstWord (len op : Nat) (h : Head) (body : Nat) : Nat :=
  len + 4 * op + 1024 * h.stall.toNat + 8192 * h.yield.toNat + 16384 * body

/-- Bits 31:14 of word 0 of an extended form (R31). -/
def W0.body (w : W0) : Nat :=
  2 * w.fmt.toNat + 128 * w.rnd.code + 1024 * w.sat.toNat + 2048 * w.scope.code + 16384 * w.pred.toNat + 131072 * w.pneg.toNat

/-- The literal words (R25). -/
def litWords : Option DWord → List Nat
  | none => []
  | some l => [l.toNat % 4294967296, l.toNat / 4294967296]

/-- The words of a form of an opcode, as R25 to R39 lay them out. -/
def encodeForm (op : Nat) : Form → List Nat
  | .b3 f =>
    firstWord (if f.lit.isSome then 2 else 0) op f.head (f.sb.shortCode + 64 * f.sa.shortCode + 4096 * f.dst.shortCode)
      :: litWords f.lit
  | .bi f => [firstWord 0 op f.head (f.imm.toNat + 4096 * f.dst.shortCode)]
  | .bt f => [firstWord 0 op f.head f.tgt.toNat]
  | .x f =>
    [firstWord (if f.lit.isSome then 3 else 1) op f.w0.head f.w0.body,
     4 * f.sb.longCode + 4096 * f.sa.longCode + 4194304 * f.dst.longCode,
     f.disp.toNat + 16384 * f.mod.toNat + 4194304 * f.sc.longCode] ++ litWords f.lit
  | .xt f =>
    [firstWord (if f.lit.isSome then 3 else 1) op f.w0.head f.w0.body,
     16 * f.aux.toNat + 262144 * f.tgt.toNat,
     16384 * f.mod.toNat + 4194304 * f.si.longCode] ++ litWords f.lit

/-- The words of an instruction; an event has none. -/
def encode (i : Instr) : List Nat :=
  match i.view with
  | none => []
  | some (op, f) => encodeForm op f

/-- Words in memory order, each with its lowest byte first (R5). -/
def bytesOf (ws : List Nat) : List Byte := ws.flatMap fun w => natLE 4 w

/-- The bytes an instruction occupies in its overlay (R25, R26). -/
def Instr.bytes (i : Instr) : Nat := 4 * (encode i).length

/-- The word list that spec/opcode_table.json numbers as `w`, with zero words up to the longest instruction. -/
def tableWords (w : Nat) : List Nat := (List.range 5).map fun k => w / 2 ^ (32 * k) % 2 ^ 32

/-- The instruction the decoder reads from an instruction whose bits are `w`, as spec/opcode_table.json numbers them. -/
def decodeTableWord (nbits w : Nat) : Option Instr :=
  match decode (bytesOf (tableWords (w % 2 ^ nbits))) with
  | .ok i => some i
  | .error _ => none

end Sys2Proof
end

