-- ==== Sys2Proof/Machine/Flags.lean ====
section
/-! DEFINITION. The sticky flags of TSTAT (R173, R384) and the computations that raise them on integers (R133, R137 to R141). -/

namespace Sys2Proof.Machine

open Sys2Proof

/-- FINX, inexact (R384). -/
def flagInx : Word := 1#32
/-- FUNF, underflow. -/
def flagUnf : Word := 2#32
/-- FOVF, overflow. -/
def flagOvf : Word := 4#32
/-- FINV, invalid. -/
def flagInv : Word := 8#32
/-- ISAT, an integer result saturated. -/
def flagSat : Word := 16#32
/-- SMERGE, a scalar merge chose between differing values. -/
def flagMerge : Word := 32#32
/-- CUELATE, a cue action fired late. -/
def flagLate : Word := 64#32
/-- STALLCHK, the checking scoreboard is armed. -/
def flagStallchk : Word := 256#32
/-- LEVEL, supervisor. -/
def flagLevel : Word := 65536#32

/-- One flag when a condition holds. -/
def flagIf (c : Bool) (f : Word) : Word := if c then f else 0#32

/-- The union of the flags of a list of results. -/
def orFlags (fs : List Word) : Word := fs.foldl (· ||| ·) 0#32

/-- The least integer of a width and sign (R133). -/
def intLo (w : Nat) (sgn : Bool) : Int := if sgn then -(2 : Int) ^ (w - 1) else 0

/-- The greatest integer of a width and sign (R133). -/
def intHi (w : Nat) (sgn : Bool) : Int := if sgn then (2 : Int) ^ (w - 1) - 1 else (2 : Int) ^ w - 1

/-- Fit of R133: the w-bit encoding of an exact result, and ISAT when it saturated. -/
def fit (t : Int) (w : Nat) (sgn sat : Bool) : Nat × Word :=
  if sat = true ∧ t < intLo w sgn then (encodeInt (intLo w sgn) w, flagSat)
  else if sat = true ∧ intHi w sgn < t then (encodeInt (intHi w sgn) w, flagSat)
  else (encodeInt t w, 0#32)

/-- A w-bit element read as the entry's sign field states (R133). -/
def readInt (x w : Nat) (sgn : Bool) : Int := if sgn then signed x w else ((x % 2 ^ w : Nat) : Int)

/-- Carry out of a 32-bit sum with carry in (R139). -/
def carryOut (a b c : Nat) : Bool := 2 ^ 32 ≤ a + b + c

/-- Borrow out of a 32-bit difference with borrow in (R139). -/
def borrowOut (a b c : Nat) : Bool := a < b + c

/-- The conditions of icmp (R141). -/
def intCond (c : Nat) (a b : Int) : Bool :=
  match c with
  | 0 => a = b
  | 1 => a ≠ b
  | 2 => a < b
  | 3 => a ≤ b
  | 4 => b < a
  | _ => b ≤ a

end Sys2Proof.Machine
end

