-- ==== Sys2Proof/Machine/Numbers.lean ====
section
/-! DEFINITION. Format descriptors, the numbers their codes stand for, rounding and conversion (R163 to R178, R184). -/

namespace Sys2Proof.Machine

open Sys2Proof

/-- The fields of a descriptor (R163). -/
structure Fmt where
  kind : Nat
  sign : Bool
  ew : Nat
  fw : Nat
  bias : Nat
  spec : Nat
  bkind : Nat
  blen : Nat
  scale : Nat
  tier : Nat
  width : Nat
  res : Nat
deriving DecidableEq, Repr

/-- A descriptor's fields (R163). -/
def fmtOf (d : DWord) : Fmt :=
  { kind := bvField d 2 0, sign := bitOf d.toNat 3, ew := bvField d 7 4, fw := bvField d 12 8, bias := bvField d 20 13,
    spec := bvField d 23 21, bkind := bvField d 25 24, blen := bvField d 27 26, scale := bvField d 33 28,
    tier := bvField d 35 34, width := bvField d 41 36, res := bvField d 63 42 }

/-- The built-in entries (R166). -/
def builtin (n : Nat) : DWord :=
  match n with
  | 0 => 0x00000200000FF789#64
  | 1 => 0x000001000001EA59#64
  | 2 => 0x00000100000FE789#64
  | 3 => 0x000002000080000A#64
  | 4 => 0x000001000080000A#64
  | 5 => 0x000000800080000A#64
  | 6 => 0x0000008000800002#64
  | 7 => 0x000000800020E349#64
  | 8 => 0x000000800001E259#64
  | 9 => 0x0000006000406239#64
  | 10 => 0x0000006000402329#64
  | 11 => 0x0000004000402129#64
  | 12 => 0x00000080002FE084#64
  | 13 => 0x000000840A2FE70D#64
  | 14 => 0x000000540A2FE40D#64
  | 15 => 0x000000340A2FE20D#64
  | _ => 0#64

/-- The row of a descriptor's KIND in R164. -/
def Fmt.kindOk (f : Fmt) : Bool :=
  match f.kind with
  | 1 => 2 ≤ f.ew && f.ew ≤ 8 && f.fw ≤ 23 && (f.spec != 0 || 1 ≤ f.fw) && f.width = f.sign.toNat + f.ew + f.fw
           && f.width ≤ 32 && f.spec ≤ 2 && (f.bkind = 0 || (f.bkind = 1 && f.width ≤ 8))
  | 2 => f.ew = 0 && f.fw = 0 && f.bias = 0 && 2 ≤ f.width && f.width ≤ 32 && (f.spec = 3 || f.spec = 4)
           && (f.bkind = 0 || (f.bkind = 1 && f.width ≤ 8))
  | 3 => f.ew = 0 && f.fw + f.sign.toNat ≤ f.width && f.bias = 0 && 2 ≤ f.width && f.width ≤ 32
           && (f.spec = 3 || f.spec = 4) && f.bkind = 0
  | 4 => f.ew = 8 && f.fw = 0 && f.bias = 127 && f.width = 8 && !f.sign && f.spec = 1 && f.bkind = 0
  | 5 => f.ew = 0 && (f.fw = 2 || f.fw = 4 || f.fw = 7) && f.width = 1 + f.fw && f.sign && f.spec = 1 && f.bkind = 2
           && f.blen = 2 && f.tier = 1 && f.scale = 0
  | _ => false

/-- A descriptor is valid, its scale entry apart (R164). -/
def Fmt.selfOk (f : Fmt) : Bool :=
  f.res = 0 && f.kindOk && f.width ≤ 32
  && (f.bkind != 0 || (f.blen = 0 && f.scale = 0 && f.tier = 0))
  && (f.bkind != 1 || ((f.blen = 1 || f.blen = 2) && f.tier = 0))
  && f.bkind ≤ 2

/-- A descriptor is valid in a table (R164): a block-scaled one needs a valid scale entry of KIND 4. -/
def fmtValid (look : Nat → DWord) (n : Nat) : Bool :=
  let f := fmtOf (look n)
  f.selfOk && (f.bkind != 1 || (let g := fmtOf (look f.scale); g.selfOk && g.kind = 4))

/-- A plain descriptor (R164). -/
def Fmt.plain (f : Fmt) : Bool := f.bkind = 0
/-- A block-scaled descriptor (R164). -/
def Fmt.scaled (f : Fmt) : Bool := f.bkind = 1
/-- A TX descriptor (R170). -/
def Fmt.tx (f : Fmt) : Bool := f.kind = 5
/-- An integer or fixed-point descriptor. -/
def Fmt.integral (f : Fmt) : Bool := f.kind = 2 || f.kind = 3
/-- Elements of a block (R163). -/
def Fmt.blockLen (f : Fmt) : Nat := if f.blen = 1 then 16 else 32
/-- The integer policy saturates (R133, R168). -/
def Fmt.satPolicy (f : Fmt) : Bool := f.spec = 3

/-- A number: NaN, an infinity, or (−1)^neg × m × 2^e. A zero keeps its sign. -/
inductive Num where
  | nan (signalling : Bool)
  | inf (neg : Bool)
  | fin (neg : Bool) (m : Nat) (e : Int)
deriving DecidableEq, Repr

/-- The number of an integer times 2^e. -/
def Num.ofInt (t : Int) (e : Int) : Num := .fin (t < 0) t.natAbs e

/-- The number is zero. -/
def Num.isZero : Num → Bool
  | .fin _ m _ => m = 0
  | .nan _ => false
  | .inf _ => false

/-- The number is NaN. -/
def Num.isNan : Num → Bool
  | .nan _ => true
  | .inf _ => false
  | .fin _ _ _ => false

/-- The number is a signalling NaN. -/
def Num.isSnan : Num → Bool
  | .nan s => s
  | .inf _ => false
  | .fin _ _ _ => false

/-- The sign of a number that has one. -/
def Num.neg : Num → Bool
  | .nan _ => false
  | .inf n => n
  | .fin n _ _ => n

/-- A number times 2^k. -/
def Num.scale (x : Num) (k : Int) : Num :=
  match x with
  | .fin n m e => .fin n m (e + k)
  | .nan s => .nan s
  | .inf n => .inf n

/-- ⌊log2⌋ of a non-zero finite number. -/
def numLog (m : Nat) (e : Int) : Int := (log2 m : Int) + e

/-- The number a float code stands for (R167). -/
def decodeFloat (f : Fmt) (bits : Nat) : Num :=
  let neg := f.sign && bitOf bits (f.ew + f.fw)
  let ef := bits >>> f.fw % 2 ^ f.ew
  let mf := bits % 2 ^ f.fw
  if f.spec = 0 ∧ ef = 2 ^ f.ew - 1 then
    if mf = 0 then .inf neg else .nan (!bitOf mf (f.fw - 1))
  else if f.spec = 1 ∧ ef = 2 ^ f.ew - 1 ∧ mf = 2 ^ f.fw - 1 then .nan false
  else if ef = 0 then .fin neg mf (1 - f.bias - f.fw)
  else .fin neg (2 ^ f.fw + mf) (ef - f.bias - f.fw)

/-- The number that an element code of a plain entry stands for (R167 to R169). -/
def decodeElem (f : Fmt) (bits : Nat) : Num :=
  let b := bits % 2 ^ f.width
  match f.kind with
  | 1 => decodeFloat f b
  | 4 => if b = 255 then .nan false else .fin false 1 ((b : Int) - 127)
  | 2 => .ofInt (readInt b f.width f.sign) 0
  | _ => .ofInt (readInt b f.width f.sign) (-(f.fw : Int))

/-- The number of a TX element with header E and tier τ (R170). -/
def decodeTx (f : Fmt) (bits e tau : Nat) : Num :=
  if e = 255 then .nan false
  else .fin (bitOf bits f.fw) (bits % 2 ^ f.fw) ((e : Int) - f.bias - tau - ((f.fw : Int) - 1))

/-- The number of an element with a block header (R170, R171, R184). -/
def decodeHdr (f : Fmt) (bits hdr : Nat) : Num :=
  if f.tx then decodeTx f (bits % 2 ^ f.width) (hdr % 256) (hdr / 256 % 4)
  else if f.scaled then
    if hdr % 256 = 255 then .nan false else (decodeElem f bits).scale ((hdr % 256 : Nat) - 127)
  else decodeElem f bits

/-- A magnitude m × 2^e as a multiple of 2^q: the multiple toward zero, the discarded part compared with one half
(0 none, 1 below, 2 equal, 3 above), and the discarded part to 32 bits (R172, R174). A shift beyond all bits of m gives
multiple 0. -/
def quotient (m : Nat) (e q : Int) : Nat × Nat × Nat :=
  if m = 0 then (0, 0, 0)
  else if q ≤ e then (m * 2 ^ (e - q).toNat, 0, 0)
  else
    let s := (q - e).toNat
    if log2 m + 64 < s then (0, 1, 0)
    else
      let r := m % 2 ^ s
      (m / 2 ^ s, if r = 0 then 0 else if 2 * r < 2 ^ s then 1 else if 2 * r = 2 ^ s then 2 else 3, r * 2 ^ 32 / 2 ^ s)

/-- Whether a rounding steps away from zero: mode, sign, odd multiple, discarded part (R172, R174). -/
def stepAway (mode : RMode) (neg odd : Bool) (half d r : Nat) : Bool :=
  match mode with
  | .rne => half = 3 || (half = 2 && odd)
  | .rtz => false
  | .rdn => neg && half != 0
  | .rup => !neg && half != 0
  | .rna => 2 ≤ half
  | .rsr => half != 0 && 2 ^ 32 ≤ d + r

/-- m × 2^e rounded to a multiple of 2^q: the multiple, and whether it is inexact. -/
def roundTo (mode : RMode) (neg : Bool) (m : Nat) (e q : Int) (r : Nat) : Nat × Bool :=
  let p := quotient m e q
  (p.1 + (stepAway mode neg (p.1 % 2 = 1) p.2.1 p.2.2 r).toNat, p.2.1 != 0)

/-- Exponent of MaxFinite's last place: MaxFinite is `maxMant × 2^maxExp` (R167). -/
def Fmt.maxMant (f : Fmt) : Nat :=
  if f.spec = 1 then (if f.fw = 0 then 1 else 2 ^ (f.fw + 1) - 2) else 2 ^ (f.fw + 1) - 1

/-- See `Fmt.maxMant`. -/
def Fmt.maxExp (f : Fmt) : Int :=
  if f.spec = 0 ∨ (f.spec = 1 ∧ f.fw = 0) then (2 ^ f.ew : Nat) - 2 - f.bias - f.fw else (2 ^ f.ew : Nat) - 1 - f.bias - f.fw

/-- The code of MaxFinite without its sign (R167). -/
def Fmt.maxCode (f : Fmt) : Nat :=
  if f.spec = 0 then (2 ^ f.ew - 1) * 2 ^ f.fw - 1
  else if f.spec = 1 then 2 ^ (f.ew + f.fw) - 2
  else 2 ^ (f.ew + f.fw) - 1

/-- The sign bit of a code. -/
def Fmt.signBit (f : Fmt) (neg : Bool) : Nat := if f.sign && neg then 2 ^ (f.ew + f.fw) else 0

/-- The NaN that a float entry's results use (R177); 0 for an entry without NaN. -/
def Fmt.nanCode (f : Fmt) : Nat :=
  if f.spec = 0 then (2 ^ f.ew - 1) * 2 ^ f.fw + 2 ^ (f.fw - 1) else if f.spec = 1 then 2 ^ (f.ew + f.fw) - 1 else 0

/-- a × 2^x ≤ b × 2^y. -/
def lePow (a : Nat) (x : Int) (b : Nat) (y : Int) : Bool :=
  if x ≤ y then a ≤ b * 2 ^ (y - x).toNat else a * 2 ^ (x - y).toNat ≤ b

/-- The result of a rounding beyond MaxFinite (the table of R172). -/
def overflowCode (f : Fmt) (mode : RMode) (sat neg : Bool) : Nat :=
  let toward := mode = .rtz ∨ (mode = .rup ∧ neg = true) ∨ (mode = .rdn ∧ neg = false)
  if sat ∨ toward ∨ f.spec = 2 then f.signBit neg + f.maxCode
  else if f.spec = 0 then f.signBit neg + (2 ^ f.ew - 1) * 2 ^ f.fw
  else f.nanCode

/-- Round of R172 to a float entry: the code, and the flags of R173. -/
def roundFloat (f : Fmt) (mode : RMode) (sat neg : Bool) (m : Nat) (e : Int) (r : Nat) : Nat × Word :=
  if m = 0 then (f.signBit neg, 0#32)
  else if !f.sign ∧ neg then (0, flagInv ||| flagInx ||| flagIf (numLog m e < 1 - f.bias) flagUnf)
  else
    let l := numLog m e
    let lo : Int := 1 - f.bias
    let q := max l lo - f.fw
    if f.maxExp + f.fw + 1 < l then (overflowCode f mode sat neg, flagOvf ||| flagInx)
    else
      let k := roundTo mode neg m e q r
      if lePow k.1 q f.maxMant f.maxExp then
        let code := if q = lo - f.fw then k.1 else (q + f.bias + f.fw).toNat * 2 ^ f.fw + (k.1 - 2 ^ f.fw)
        (f.signBit neg + code, flagIf k.2 flagInx ||| flagIf (k.2 && l < lo) flagUnf)
      else (overflowCode f mode sat neg, flagOvf ||| flagInx)

/-- Round of R172 to E8M0: the code, and the flags. -/
def roundScale (mode : RMode) (sat neg : Bool) (m : Nat) (e : Int) (r : Nat) : Nat × Word :=
  if m = 0 then (0, flagInx)
  else if neg then (255, flagInv ||| flagInx ||| flagIf (numLog m e < -127) flagUnf)
  else
    let k := numLog m e
    if k < -127 then (0, flagUnf ||| flagInx)
    else if 128 < k then ((if sat ∨ mode = .rtz ∨ mode = .rdn then 254 else 255), flagOvf ||| flagInx)
    else
      -- the code of 2^k is k + 127; the step away from u = 2^k is decided on a grid of 2^k
      let p := quotient m e k
      let away := stepAway mode false ((k + 127).toNat % 2 = 1) p.2.1 p.2.2 r
      let c := (k + 127).toNat + away.toNat
      if 254 < c then ((if sat ∨ mode = .rtz ∨ mode = .rdn then 254 else 255), flagOvf ||| flagInx)
      else (c, flagIf (p.2.1 != 0) flagInx)

/-- A value rounded to the grid of an integer or fixed-point entry (q = −FW), as an integer multiple of the grid; values far
beyond the range are cut to `2^40` so that no huge number is formed. -/
def roundGrid (f : Fmt) (mode : RMode) (neg : Bool) (m : Nat) (e : Int) (r : Nat) : Int × Bool :=
  let q : Int := -(f.fw : Int)
  if m ≠ 0 ∧ 40 < numLog m e - q then ((if neg then -(2 : Int) ^ 40 else (2 : Int) ^ 40), false)
  else
    let k := roundTo mode neg m e q r
    ((if neg then -(k.1 : Int) else (k.1 : Int)), k.2)

/-- A finite value of a float, scale, TX or block-scaled source to an integer or fixed-point entry: clamped (R176). -/
def clampInt (f : Fmt) (mode : RMode) (neg : Bool) (m : Nat) (e : Int) (r : Nat) : Nat × Word :=
  let k := roundGrid f mode neg m e r
  let lo := intLo f.width f.sign
  let hi := intHi f.width f.sign
  if k.1 < lo then (encodeInt lo f.width, flagInv ||| flagOvf ||| flagInx)
  else if hi < k.1 then (encodeInt hi f.width, flagInv ||| flagOvf ||| flagInx)
  else (encodeInt k.1 f.width, flagIf k.2 flagInx)

/-- A finite value of an integer or fixed-point source to an integer or fixed-point entry: Fit (R176). -/
def fitInt (f : Fmt) (mode : RMode) (sat neg : Bool) (m : Nat) (e : Int) (r : Nat) : Nat × Word :=
  let k := roundTo mode neg m e (-(f.fw : Int)) r
  let t := fit (if neg then -(k.1 : Int) else (k.1 : Int)) f.width f.sign (sat || f.satPolicy)
  (t.1, t.2 ||| flagIf k.2 flagInx)

/-- NaN to an entry's element fields (R177). -/
def nanTo (f : Fmt) : Nat × Word :=
  if f.integral then (0, flagInv)
  else if f.kind = 4 then (255, 0#32)
  else if f.spec = 2 then (0, flagInv)
  else (f.nanCode, 0#32)

/-- An infinity to an entry's element fields (R177); one that goes to a format without infinities sets FINV too (R173; log entry 95). -/
def infTo (f : Fmt) (sat neg : Bool) : Nat × Word :=
  if f.integral then (encodeInt (if neg then intLo f.width f.sign else intHi f.width f.sign) f.width, flagInv)
  else if f.kind = 4 then (255, flagInv)
  else if !f.sign ∧ neg then (0, flagInv)
  else if f.spec = 0 then
    if sat then (f.signBit neg + f.maxCode, flagOvf) else (f.signBit neg + (2 ^ f.ew - 1) * 2 ^ f.fw, 0#32)
  else if f.spec = 1 ∧ sat = false then (f.nanCode, flagOvf ||| flagInv)
  else (f.signBit neg + f.maxCode, flagOvf ||| flagInv)

/-- An infinity to a block-scaled element (R177): the magnitude is clamped; a negative one to an unsigned float gives +0, and a format
without infinities, or without that sign, sets FINV too (R173; log entry 95). -/
def infToScaled (f : Fmt) (neg : Bool) : Nat × Word :=
  ((if f.integral then encodeInt (if neg then intLo f.width f.sign else intHi f.width f.sign) f.width
    else if neg ∧ f.sign = false then 0 else f.signBit neg + f.maxCode),
   flagOvf ||| flagIf (f.integral || f.spec ≠ 0 || (neg && !f.sign)) flagInv)

/-- The conversion of R176 of a number to the element fields of a plain or block-scaled entry. `fromInt`: the source is an
integer or fixed-point entry that is not block-scaled; a NaN or an infinity to a block-scaled element is mapped to magnitude
0 or clamped (R177). -/
def convertNum (x : Num) (fromInt : Bool) (g : Fmt) (mode : RMode) (sat : Bool) (r : Nat) : Nat × Word :=
  match x with
  | .nan s =>
    let t := if g.scaled then (0, flagInv) else nanTo g
    (t.1, t.2 ||| flagIf s flagInv)
  | .inf n =>
    if g.scaled then infToScaled g n else infTo g sat n
  | .fin n m e =>
    if g.integral then (if fromInt then fitInt g mode sat n m e r else clampInt g mode n m e r)
    else if g.kind = 4 then roundScale mode sat n m e r
    else roundFloat g mode sat n m e r

/-- The magnitude and sign of a TX element with header (E, τ) (R184): the code and the flags. -/
def convertTx (x : Num) (g : Fmt) (mode : RMode) (e tau r : Nat) : Nat × Word :=
  let top := 2 ^ g.fw - 1
  match x with
  | .nan s => (0, flagInv ||| flagIf s flagInv)
  | .inf n => (top + (if n then 2 ^ g.fw else 0), flagOvf ||| flagInv)
  | .fin n m ex =>
    let q : Int := (e : Int) - g.bias - tau - ((g.fw : Int) - 1)
    if m ≠ 0 ∧ (g.fw : Int) + 2 < numLog m ex - q then (top + (if n then 2 ^ g.fw else 0), flagOvf ||| flagInx)
    else
      let k := roundTo mode n m ex q r
      if top < k.1 then (top + (if n then 2 ^ g.fw else 0), flagOvf ||| flagInx)
      else (k.1 + (if n then 2 ^ g.fw else 0), flagIf k.2 flagInx)

/-- A result element in a 32-bit register: sign-extended for a signed integer entry, zero-extended otherwise (R184). -/
def placeElem (g : Fmt) (code : Nat) : Word :=
  if g.kind = 2 ∧ g.sign then BitVec.ofInt 32 (signed code g.width) else BitVec.ofNat 32 code

/-- Step of R175. -/
def lfsrStep (z : Word) : Word := if z.getLsbD 0 then (z >>> 1) ^^^ 0x80200003#32 else z >>> 1

/-- The state a lane takes from a seed (R175). -/
def seedOf (seed : Word) (i : Nat) : Word :=
  let z := seed ^^^ (BitVec.ofNat 32 (i * 0x9E3779B9))
  if z = 0 then 1#32 else z

end Sys2Proof.Machine
end

