-- ==== Sys2Proof/Config.lean ====
section
/-! DEFINITION. What the spec leaves open: free values, constants with no body, so that no proof can learn them.
Each is applied to the data it depends on, or to the state's counter `tick` for a fresh value each time. -/

namespace Sys2Proof.Config

/-- Cycles that pass before the next issue beyond what R41 demands: a free value (log entry 1). -/
opaque issueGap : Nat → Nat

/-- The variable part of a path time (R379) and every time the spec bounds but does not fix: a free value (log entry 1). -/
opaque pathCycles : Nat → Nat

/-- The variable terms of an access to a stack (R379: queue wait, row miss, refresh, read-modify-write), by draw and address; read
within the bounds that R379 states: a free value (log entry 1). -/
opaque stackWait : Nat → Nat → Nat

/-- The variable terms of an access through the host port, the memory tier or a link (R379), in nanoseconds, by draw and address: a free
value (log entry 1). -/
opaque portWait : Nat → Nat → Nat

/-- The set of a 256-byte line in its L2 slice (R293 gives 512 sets and no index function): a free value (log entry 6). -/
opaque l2Set : Nat → Nat

/-- How far the cycle counter of a partition's dies stands from the model's count (R364: counters of different partitions are
unrelated): a free value (log entry 36). -/
opaque cycleBase : Nat → Nat

/-- The L1 set of a 64-byte line (R292 gives 256 sets and no index function): a free value (log entry 6). -/
opaque l1Set : Nat → Nat

/-- The token that the fault unit proposes for a new group (R286: chosen freely): a free value (log entry 7). -/
opaque faultToken : Nat → Word

/-- Which of the results within the bound of R206 the die returns: operation, operand bits, fields (R207); a free value
(log entry 8). -/
opaque specialPick : Nat → Nat → Nat → Nat

/-- Whether a cached sector had been written back or dropped before a remote access reached the stack (R330 allows
either): a free value (log entry 9). -/
opaque evicted : Nat → Nat → Bool

/-- A byte of a mapping region after a commit (R420: undefined): a free value (log entry 10). -/
opaque remapped : Nat → Nat → Byte

/-- The events of a class (R432) that an account is charged with at a fold: the count of fold, the account, the class; a free value
(log entry 11). -/
opaque events : Nat → Nat → Nat → Nat

/-- A calibration weight in units of 2^-8 pJ (R432): the set that the configuration image holds, and the class, 9 for a die's idle cycle;
a free value (log entry 11). -/
opaque weight : Nat → Nat → Nat

/-- The order in which agents whose events fall in one cycle are taken, where no rule gives one: a free value
(log entry 3). -/
opaque choice : Nat → Nat

/-- The signature, key hash and measurement of a configuration image (R445): a free value (log entry 12). -/
opaque measurement : Nat → Nat

/-- The status that a peer module answers a request with (R428): a free value (log entry 21). -/
opaque peerStatus : Nat → Nat

/-- A value that the spec states no rule for, where the machine goes on: a free value (log entry 13). -/
opaque unstated : Nat → Nat

end Sys2Proof.Config
end

