-- ==== Sys2Proof/Events.lean ====
section
/-! DEFINITION. The machine's events as the agenda holds them: one constructor per event row of spec/opcode_table.json. -/

namespace Sys2Proof

/-- An event that is due: the event rows of `Instr`, with the same arguments (log entry 3). -/
inductive Ev where
  /-- UNDEFINED_INSTRUCTION (R53) -/
  | undefinedInstruction (w : Word)
  /-- FETCH_BEYOND_OVERLAY (R27) -/
  | fetchBeyondOverlay (fell : Bool)
  /-- FETCH_OVERLAY_ABSENT (R70) -/
  | fetchOverlayAbsent
  /-- FIXED_LATENCY_WRITE (R42) -/
  | fixedLatencyWrite (t n : Nat)
  /-- SCOREBOARD_RESULT_WRITE (R47) -/
  | scoreboardResultWrite (t n : Nat)
  /-- LOAD_SECTOR_RETURN (R291) -/
  | loadSectorReturn (t n : Nat)
  /-- STORE_ACKNOWLEDGE (R378) -/
  | storeAcknowledge (t n : Nat)
  /-- RECONVERGENCE_FUSION (R86) -/
  | reconvergenceFusion (t : Nat)
  /-- REJOIN_RELEASE (R86) -/
  | rejoinRelease (t : Nat)
  /-- SPLIT_SWAP_BACK (R90) -/
  | splitSwapBack (t : Nat)
  /-- SPLIT_EXCHANGE (R90) -/
  | splitExchange (t : Nat)
  /-- TROUPE_END (R79) -/
  | troupeEnd (t : Nat)
  /-- IMAGE_LOAD (R68) -/
  | imageLoad (n : Nat) (img : List Byte) (launched : Bool)
  /-- OVLD_COPY_COMPLETE (R73) -/
  | ovldCopyComplete (n : Nat)
  /-- SHOOTDOWN_ACKNOWLEDGE (R77) -/
  | shootdownAcknowledge (core n : Nat)
  /-- FORMAT_WRITE_AT_HOME (R159) -/
  | formatWriteAtHome (c core e : Nat) (v : DWord) (n : Nat)
  /-- FORMAT_BROADCAST_APPLY (R159) -/
  | formatBroadcastApply (c core e : Nat) (v : DWord) (n : Nat)
  /-- MATRIX_TILE_READY (R227) -/
  | matrixTileReady (core n : Nat)
  /-- OPLD_COMPLETE (R234) -/
  | opldComplete (n : Nat)
  /-- MMACO_START (R236) -/
  | mmacoStart (core n : Nat)
  /-- COPY_START (R248) -/
  | copyStart (t : Nat)
  /-- SECTOR_LANDING (R248) -/
  | sectorLanding (n j : Nat)
  /-- TBWAIT_WAKE (R276) -/
  | tbwaitWake (t uid : Nat)
  /-- SFILL_COMPLETE (R267) -/
  | sfillComplete (n : Nat)
  /-- REDUCE_CONTRIBUTION (R262) -/
  | reduceContribution (n sec : Nat)
  /-- REDUCE_RETRY (R262) -/
  | reduceRetry (n sec : Nat)
  /-- FAULT_RECORD_WRITE (R287) -/
  | faultRecordWrite (d : Nat)
  /-- FRPLY_REPLAY (R289) -/
  | frplyReplay (d : Nat) (token : Word)
  /-- FRPLY_RAISE (R289) -/
  | frplyRaise (d : Nat) (token : Word)
  /-- PARKED_REPLAY (R289) -/
  | parkedReplay (n : Nat)
  /-- FQHEAD_WRITE (R287) -/
  | fqheadWrite (d : Nat) (v : Word)
  /-- ACQ_WAIT_SUCCESS (R312) -/
  | acqWaitSuccess (n : Nat)
  /-- ACQ_POLL (R312) -/
  | acqPoll (n : Nat)
  /-- DOORBELL (R441) -/
  | doorbell (q : Nat)
  /-- QUEUE_MAP (R333) -/
  | queueMap (q : Nat)
  /-- LAUNCH_PACKET (R337) -/
  | launchPacket (q : Nat)
  /-- WAIT_PACKET (R338) -/
  | waitPacket (q : Nat)
  /-- SIGNAL_PACKET (R339) -/
  | signalPacket (q : Nat)
  /-- NOP_PACKET (R337) -/
  | nopPacket (q : Nat)
  /-- FORMAT_PRELOAD_PACKET (R337) -/
  | formatPreloadPacket (q : Nat)
  /-- WAIT_PACKET_REEVALUATE (R338) -/
  | waitPacketReevaluate (q : Nat)
  /-- LAUNCH_START (R342) -/
  | launchStart (n : Nat)
  /-- PRODUCTION_RETIRE (R344) -/
  | productionRetire (n : Nat)
  /-- ENERGY_INTERVAL_START (R348) -/
  | energyIntervalStart (p : Nat)
  /-- PRIORITY_AGING (R349) -/
  | priorityAging (q : Nat)
  /-- ENSEMBLE_PLACEMENT (R350) -/
  | ensemblePlacement (p : Nat)
  /-- GREEN_ROOM_TRANSFER (R354) -/
  | greenRoomTransfer (c : Nat)
  /-- CUEARM_AT_DESK (R368) -/
  | cuearmAtDesk (core c cue off : Nat) (clear : Bool)
  /-- CUE_BROADCAST (R368) -/
  | cueBroadcast (c cue n : Nat)
  /-- CUE_COPY_WRITE (R368) -/
  | cueCopyWrite (core c cue p : Nat) (set : Bool)
  /-- CUE_TOUCH_FIRE (R375) -/
  | cueTouchFire (core n : Nat)
  /-- CUE_ARR_FIRE (R375) -/
  | cueArrFire (core n : Nat)
  /-- CUE_GUARD_FIRE (R375) -/
  | cueGuardFire (core n : Nat)
  /-- CUEWAIT_FIRE (R376) -/
  | cuewaitFire (core n : Nat)
  /-- CONTEXT_SWITCH (R396) -/
  | contextSwitch (core c : Nat)
  /-- AUTO_SWITCH (R396) -/
  | autoSwitch (core : Nat)
  /-- STOP (R397) -/
  | stop (es : List Nat) (park : Bool)
  /-- CAPTURE_COMPLETE (R400) -/
  | captureComplete (e : Nat)
  /-- CHECKPOINT_CUT (R402) -/
  | checkpointCut (c : Nat)
  /-- UNIT_STREAMED (R402) -/
  | unitStreamed (c : Nat)
  /-- CUT_COMMIT (R403) -/
  | cutCommit (c : Nat)
  /-- RESUMPTION (R408) -/
  | resumption (c : Nat)
  /-- CORE_FENCE (R409) -/
  | coreFence (core : Nat)
  /-- SAVECOST_UPDATE (R407) -/
  | savecostUpdate (c : Nat)
  /-- MAPCMD_COMMIT (R420) -/
  | mapcmdCommit (v : Word)
  /-- MAP_CHECK_COMPLETE (R420) -/
  | mapCheckComplete
  /-- ECC_UNCORRECTABLE (R423) -/
  | eccUncorrectable (pa ctxid : Nat)
  /-- FCLR_WRITE (R440) -/
  | fclrWrite (k pa : Nat)
  /-- REFRESH_HEARTBEAT (R424) -/
  | refreshHeartbeat (k : Nat)
  /-- REFRESH_TAKEOVER (R424) -/
  | refreshTakeover (k : Nat)
  /-- BASE_DIE_RESET (R424) -/
  | baseDieReset (k : Nat)
  /-- SCRUB (R425) -/
  | scrub (k : Nat)
  /-- FLIT_NAK (R426) -/
  | flitNak (e seq : Nat)
  /-- LINK_RETRAIN_COMPLETE (R426) -/
  | linkRetrainComplete (e : Nat) (ok : Bool)
  /-- LNKCTL_RETRAIN (R426) -/
  | lnkctlRetrain (e : Nat)
  /-- HELYEL_READ (R428) -/
  | helyelRead (e node : Nat) (key : Word) (sla n : Nat)
  /-- HELYEL_WRITE (R428) -/
  | helyelWrite (e node : Nat) (key : Word) (sla : Nat) (mask : Word) (data : List Byte)
  /-- HELYEL_ATOMIC_ADD (R428) -/
  | helyelAtomicAdd (e node : Nat) (key : Word) (sla : Nat) (wide : Bool) (v : DWord)
  /-- HELYEL_COMPARE_AND_SWAP (R428) -/
  | helyelCompareAndSwap (e node : Nat) (key : Word) (sla : Nat) (wide : Bool) (v cmp : DWord)
  /-- HELYEL_FENCED_WRITE (R428) -/
  | helyelFencedWrite (e node : Nat) (key : Word) (sla : Nat) (mask : Word) (data : List Byte)
  /-- HELYEL_RESPONSE (R430) -/
  | helyelResponse (n lane status : Nat)
  /-- COUNTER_CLEAR (R431) -/
  | counterClear (off : Nat) (v : DWord)
  /-- ENERGY_FOLD (R432) -/
  | energyFold
  /-- CAP_APPLICATION (R436) -/
  | capApplication
  /-- THERMAL_EVENT (R436) -/
  | thermalEvent (d : Nat)
  /-- CURRENT_LIMIT_EVENT (R436) -/
  | currentLimitEvent (d : Nat)
  /-- SET_HALL_CAP (R437) -/
  | setHallCap (limit rank expiry : Nat)
  /-- HALL_CAP_EXPIRY (R437) -/
  | hallCapExpiry (n : Nat)
  /-- EVENT_WRITE (R442) -/
  | eventWrite (d : Nat)
  /-- EVHEAD_WRITE (R442) -/
  | evheadWrite (v : Word)
  /-- HOST_CXL_MEM_READ (R329) -/
  | hostCxlMemRead (pa n : Nat)
  /-- HOST_CXL_MEM_WRITE (R329) -/
  | hostCxlMemWrite (pa : Nat) (data : List Byte)
  /-- BACK_INVALIDATE_SNOOP (R444) -/
  | backInvalidateSnoop (pa : Nat)
  /-- MODULE_RESET (R446) -/
  | moduleReset
  /-- REGISTER_WRITE (R7) -/
  | registerWrite (off : Nat) (v : DWord)
  /-- CONTEXT_CREATION (R157) -/
  | contextCreation (c part img : Nat) (regs : List (Nat × DWord))
  /-- REFRESH (R424) -/
  | refresh (k : Nat)
  /-- FLIT_CRC_FAILURE (R426) -/
  | flitCrcFailure (e seq : Nat)
  /-- CACHE_ACTION_COMPLETE (R380) -/
  | cacheActionComplete (n : Nat)
  /-- SWAP_BACK_READ_COMPLETE (R398) -/
  | swapBackReadComplete (t k : Nat)
  /-- SPDM_MEASUREMENT_REQUEST (R445) -/
  | spdmMeasurementRequest
  /-- SERVICE_CORE_MEMORY_ACCESS (R461) -/
  | serviceCoreMemoryAccess (d pa n : Nat) (data : Option (List Byte))
deriving DecidableEq, Repr

end Sys2Proof
end

