-- ==== Sys2Proof/Machine/State.lean ====
section
/-! DEFINITION. The state of the module as plain data, the reasons a step can stop, and the state after reset. -/

namespace Sys2Proof.Machine

open Sys2Proof

/-- The 128 lane values of one vector register; a lane beyond the list holds 0. -/
abbrev Vec := List Word

/-- The physical memory of the module as the home slices hold it (R278): bytes that differ from 0, at rising addresses. -/
abbrev Memory := List Host.Cell

/-- A register by the storage it names (R116, R382): the vector ones per lane, `s` per split, `ss` per troupe, `g` per
ensemble. `so` is the supervisor bank of o registers; `gen` the generator state of each lane (R175). -/
inductive Reg where
  | v (n : Nat) | o (n : Nat) | so (n : Nat) | latI | latV | x (n : Nat) | p (n : Nat) | gen
  | s (n : Nat) | ss (n : Nat) | g (n : Nat)
deriving DecidableEq, Repr

/-- A frame of a split (R83). -/
structure Frame where
  rcv : Word
  forkId : BitVec 16
  wr : BitVec 64
deriving DecidableEq, Repr

/-- A register that an instruction of the run wrote, in which lanes, and what it held before (R46): one value for a register
that is not per lane. -/
structure Prior where
  reg : Reg
  lanes : Mask
  old : Vec
deriving DecidableEq, Repr

/-- An entry of the shadow list (R46, R388): an instruction of the run whose write some reader may not see yet. `stamp` is
the split's distance count when it issued, `vector` its pipe, `latch` whether it wrote that pipe's latch in `lanes`, `code`
its destination's long code and `glen` the registers that code names. `later` lists the registers that a scoreboard result of a
later instruction has written since (R44, R45). -/
structure Shadow where
  stamp : Nat
  vector : Bool
  latch : Bool
  lanes : Mask
  latOld : Vec
  dsts : List Prior
  code : Nat
  glen : Nat
  later : List Reg
deriving DecidableEq, Repr

/-- A fixed-latency result that has not landed (R42): its name and the cycle it lands. -/
structure Landing where
  id : Nat
  due : Nat
deriving DecidableEq, Repr

/-- What a split in STATE 2 waits for (R84). The waiting instruction is the one at PC. -/
inductive Wait where
  | none
  /-- trap entry with a cause, until the handler's overlay is loaded (R390) -/
  | entry (cause : Nat)
  /-- acq: the condition on the sync word (R312) -/
  | acq (id : Nat)
  /-- the cache action of an acq, rel, fence or tbwait, or inval, by its number (R303, R320, R380) -/
  | cache (id : Nat)
  /-- fload: the read of the table, and the entries it will write (R183) -/
  | fload (id : Nat) (entries : List DWord)
  /-- wbind: the binding takes effect in this cycle with this record (R268) -/
  | bind (due : Nat) (record : BitVec 512)
  /-- bwait: the batch (R273) -/
  | batch (n : Nat)
  /-- tbwait: the barrier's stage address, the phase, and the scope and the regions of its acquire (R276, R307, R320); 16 once the
  phase has completed -/
  | phase (addr p scope : Nat) (regions : List (Nat × Nat))
  /-- cuewait: the cue action (R376) -/
  | cue (id : Nat)
  /-- join, or park: the groups waited for, and the scope of the acquire (R358) -/
  | join (mask scope : Nat) (park : Bool)
  /-- tlbinv: the shootdown (R415) -/
  | shoot (id : Nat)
deriving DecidableEq, Repr

/-- A split: an entry of the split table or of the split stack (R82), with what the issue unit keeps for it. `uid` names
the split within its troupe, `dist` counts encoded distance (R41), `run` names the run it is in and `lastRun` the last it has begun
(R43), `born` and `lastIss` order splits by creation and issue (R90, R91), `hand` marks the splits of a trap handler (R390). -/
structure Split where
  uid : Nat
  mask : Mask
  pc : Word
  /-- the word at PC lies past word 16,383 of its overlay, counted on from it (R27, R65) -/
  past : Bool
  state : BitVec 3
  infull : Bool
  frames : List Frame
  fsave : Mask
  scal : Store 32
  shadow : List Shadow
  dist : Nat
  run : Nat
  lastRun : Nat
  earliest : Nat
  lastIss : Nat
  born : Nat
  swapIn : Bool
  hand : Bool
  /-- the length of the rejoin a split of STATE 3 stands at; 0 at a reconvergence address -/
  atRejoin : Nat
  /-- the length of the instruction that fell through to `pc`, if one did (R27) -/
  fell : Option Nat
  landings : List Landing
  wait : Wait
  /-- the length of the instruction that a split of STATE 2 waits in -/
  waitLen : Nat
  /-- ACTIVE and DONE of the instruction at `pc`, when a tret or a replay re-issues it (R285, R391) -/
  redo : Option (Mask × Mask)
deriving DecidableEq, Repr

/-- A result that the register scoreboard holds (R47): the registers and lanes it will write, their values, and the flags
it will merge (R209); for a load, how many sectors have not returned (R291). `kept` marks a result that was in flight when the
troupe's handler was entered (R390). -/
structure Pend where
  id : Nat
  owner : Nat
  outs : List Prior
  flags : Word
  load : Bool
  sectors : Nat
  kept : Bool
deriving DecidableEq, Repr

/-- A parked memory instruction of a split (R285): its words, which its replay does not fetch again (R78), ACTIVE and DONE, and whether
its replay has come (R289). -/
structure Parked where
  uid : Nat
  pc : Word
  insn : List Byte
  active : Mask
  done : Mask
  go : Bool
deriving DecidableEq, Repr

/-- What a trap entry keeps of the trapping split beside its record (R46, R390): its distance and run, the distance that its
instruction adds once it is passed (R41), the shadow list that the record was written from, and that list as results that have
landed since leave it (R44). -/
structure TrapSave where
  uid : Nat
  dist : Nat
  run : Nat
  adds : Nat
  written : List Shadow
  shadow : List Shadow
deriving DecidableEq, Repr

/-- A report that waits for its split's next instruction (R393): CAUSE, INFO, ADDR and WIN of its record. -/
structure Due where
  cause : Nat
  info : Nat
  addr : Nat
  win : Nat
deriving DecidableEq, Repr

/-- A troupe (R79, R116, R382). `file` holds the vector registers by `Reg.key`. -/
structure Troupe where
  ens : Nat
  num : Nat
  quarter : Nat
  slot : Nat
  nregs : Nat
  nscal : Nat
  file : Tab Vec
  xb : List Word
  tstat : Word
  srseed : Word
  qstat : Word
  ss : Store 32
  forkCtr : BitVec 16
  splits : Tab Split
  stack : List Split
  /-- the record that holds the split longest on the split stack (R88) -/
  stackHead : Nat
  /-- splits whose record is being read back, by the entry they will take (R90) -/
  coming : Tab Split
  nextUid : Nat
  pend : List Pend
  /-- stores, atomics and releases that are not acknowledged (R313) -/
  unacked : List Nat
  /-- format-table writes that some copy may not have applied yet (R161) -/
  fsets : List Nat
  /-- copies that wait in the stagehand queue, the head first (R258) -/
  queue : List Nat
  /-- the number of the last closed batch (R257) -/
  batch : Word
  parked : List Parked
  lastSel : Nat
  /-- its quarter has no issue opportunity for it before this cycle, but for `pair`, the split that co-issues (R80, R92) -/
  selFree : Nat
  pair : Option Nat
  /-- the cycle in which the first memory instruction of a pair was performed, and its lanes (R92, R288) -/
  paired : Nat × Mask
  /-- the block of the save area (R387) -/
  block : Nat
  /-- the program counter of the trapped instruction, while a handler runs (R391) -/
  trapPc : Option Word
  /-- what tret needs beside the record, while a handler runs (R46) -/
  saved : Option TrapSave
  /-- the on-stage cycles outside brackets at which the exchange interval began (R90), those spent in brackets, and where an open
  bracket began (R94) -/
  exchAt : Nat
  fullFor : Nat
  fullFrom : Option Nat
  /-- reports that arrived while a handler ran, for the split of lowest entry after tret (R390, R393) -/
  due : List Due
deriving DecidableEq, Repr

/-- A gmov write that another split may not read yet (R130). -/
structure GWrite where
  id : Nat
  reg : Nat
  tid : Nat
  uid : Nat
  run : Nat
  stamp : Nat
  cycle : Nat
  landed : Bool
  prior : Word
deriving DecidableEq, Repr

/-- An entry of a region table (R241, R242, R244, R245). `tail` bit k stands for sector `landed` + k. -/
structure Window where
  record : BitVec 512
  tail : BitVec 64
  landed : BitVec 15
  held : Bool
  err : Bool
  state : BitVec 3
  /-- the tile's bytes, as the binding's checks found them (R243) -/
  bytes : Nat
deriving DecidableEq, Repr

/-- An entry of a binding table (R306). -/
structure Bind where
  bar : Bool
  obj : Nat
  base : Nat
  len : Nat
  scope : Nat
deriving DecidableEq, Repr

/-- A claimed operand slot: its physical number and its bytes (R212, R215). -/
structure Slot where
  phys : Nat
  data : Store 8
deriving DecidableEq, Repr

/-- A claimed accumulator tile: its physical number, element (r, j) at 256 r + j, and the cycle in which the last acczero or
accwr of it completes (R212, R227, R237). -/
structure Tile where
  phys : Nat
  data : Store 32
  busy : Nat
deriving DecidableEq, Repr

/-- Where an ensemble stands (R394, R397, R400): resident; stopped and captured; or saved. A saved one that `waits` stays until a
resumption asks for it, any other is a placement request once its waits allow (R358). -/
inductive EnsPos where
  | resident
  | stopped (park : Bool)
  | saved (park : Bool)
deriving DecidableEq, Repr

/-- An ensemble (R22 to R24 of the hierarchy, R116, R128, R238). `member` is its number in its co-operative group, `group` the
members in order (R231). -/
structure Ensemble where
  ctx : Nat
  core : Nat
  g : Store 32
  gown : Tab Nat
  glog : List GWrite
  size : Nat
  stage : Store 8
  wins : Tab Window
  /-- the stage addresses that have been used as transaction barriers (R254, R255) -/
  bars : List Nat
  binds : Tab Bind
  /-- the stage address of the epoch barrier (R256) -/
  epoch : Option Nat
  aSlots : Tab Slot
  bSlots : Tab Slot
  tiles : Tab Tile
  member : Nat
  group : List Nat
  /-- the production and the linear number (R345) -/
  prod : Nat
  lin : Nat
  /-- the eight join-group counters (R356) -/
  groups : Store 16
  triggered : Bool
  pos : EnsPos
  /-- when it was placed: the later, the younger (R347) -/
  placed : Nat
  /-- stopped to make room for a producer (R347) -/
  yielded : Bool
  /-- it started while its launch's producers had unplaced ensembles (R347) -/
  early : Bool
deriving DecidableEq, Repr

/-- An overlay slot of a core (R70): its tag (context, overlay), the copied bytes, and when it was last fetched from; and where
the code came from (R77): the CTXID, the virtual address of its first byte, and the physical addresses of its pages. -/
structure OvlSlot where
  tag : Option (Nat × Nat)
  code : List Byte
  lastFetch : Nat
  filling : Bool
  ctxid : Nat
  base : Nat
  pages : List Nat
deriving DecidableEq, Repr

/-- An untagged slot. -/
def OvlSlot.empty : OvlSlot := { tag := none, code := [], lastFetch := 0, filling := false, ctxid := 0, base := 0, pages := [] }

/-- A translation held by a TLB (R283): the leaf of a walk. -/
structure TlbEnt where
  ctxid : Nat
  level : Nat
  vpn : Nat
  pa : Nat
  mt : Nat
  user : Bool
  exec : Bool
  write : Bool
deriving DecidableEq, Repr

/-- A non-leaf entry held by the walk cache (R283): the table that serves `level` for the addresses of `vpn`. -/
structure WalkEnt where
  ctxid : Nat
  level : Nat
  vpn : Nat
  table : Nat
deriving DecidableEq, Repr

/-- A valid sector of an L1 (R292): its number (physical address over 32) and its bytes. -/
structure L1Sector where
  sector : Nat
  data : List Byte
deriving DecidableEq, Repr

/-- What the caches above the stack hold of a 32-byte sector: L2, with its dirty bit (R293), and the memory-side cache, whose lines of
256 bytes are held whole, each sector with the dirty bit of its line (R294). -/
structure SectorCopy where
  l2 : Bool
  dirty : Bool
  side : Bool
  sideDirty : Bool
deriving DecidableEq, Repr

/-- A sector request of a quarter (R291): the sector, its path time, and the result or the acknowledgement that it is for. -/
structure Sent where
  sector : Nat
  path : Nat
  id : Nat
  ack : Bool
deriving DecidableEq, Repr

/-- The last request set of a quarter (R291, R92): its cycle of issue, the cycle in which its first request leaves, its troupe, and its
requests. -/
structure ReqSet where
  issued : Nat
  start : Nat
  tid : Nat
  reqs : List Sent
deriving DecidableEq, Repr

/-- An entry of a range-lock table (R251, R327): bytes `lo` to `hi`, of an ensemble's stage memory or of a context's virtual
space. `writes` marks a stage range that its engine writes; `owner` names the copy or matrix instruction. -/
structure RangeLock where
  stage : Bool
  ctx : Nat
  ens : Nat
  lo : Nat
  hi : Nat
  writes : Bool
  owner : Nat
deriving DecidableEq, Repr

/-- A matrix instruction that has issued and whose tile is not ready (R227, R228). `start` is none while an mmaco waits for its
cue; `readers` are the accrd results that wait for that start, with their column counts. -/
structure Mat where
  id : Nat
  ens : Nat
  tid : Nat
  uid : Nat
  tile : Nat
  aslot : Nat
  bslot : Nat
  occ : Nat
  start : Option Nat
  flags : Word
  readers : List (Nat × Nat × Nat)
deriving DecidableEq, Repr

/-- What a cue action does when it fires (R370, R375, R376). -/
inductive ActKind where
  | touch (w pc : Nat)
  | arr (addr : Nat) (waits : List Nat) (scope : Nat) (regions : List (Nat × Nat))
  | guard (q : Nat) (v : Bool)
  | wait (uid : Nat)
  | start (mat : Nat)
deriving DecidableEq, Repr

/-- A cue action that has issued and not fired (R369, R370): its cue and offset, and once it has its point, the cycle in which it
fires and whether it is late. -/
structure Act where
  id : Nat
  ctx : Nat
  tid : Nat
  cue : Nat
  off : Nat
  fires : Option Nat
  late : Bool
  kind : ActKind
deriving DecidableEq, Repr

/-- A change of an entry in a core's copy of a format table that instructions of other troupes issued in the same cycle do not see
(R160): the context, the entry, the troupe whose instruction made it, the cycle, and what the entry held. -/
structure FmtFresh where
  ctx : Nat
  entry : Nat
  tid : Nat
  cycle : Nat
  old : DWord
deriving DecidableEq, Repr

/-- A quarter's loop buffer (R71): the slot that it was filled from, the byte of the slot's code that it begins at, and its bytes. -/
structure LoopBuf where
  slot : Nat
  base : Nat
  code : List Byte
deriving DecidableEq, Repr

/-- A core. `l1` holds the valid sectors, most recently used line first; `fts` holds its copies of the programmable format entries by context, and
`echo` the writes of its own (context, entry, number) whose broadcast has not returned (R159, R160). -/
structure Core where
  fenced : Bool
  onStage : Option Nat
  wings : List Nat
  slots : List OvlSlot
  /-- the loop buffers by quarter (R71) -/
  loops : Tab LoopBuf
  l1 : List L1Sector
  tlb : List TlbEnt
  utlb : Tab (List TlbEnt)
  walkc : List WalkEnt
  fts : Tab (Store 64)
  echo : List (Nat × Nat × Nat)
  /-- entries changed in this cycle (R160) -/
  fresh : List FmtFresh
  locks : Tab RangeLock
  mats : List Mat
  /-- the core's copies of the cues, by context: SET in bit 63, POINT below (R365) -/
  cues : Tab (Store 64)
  acts : List Act
  /-- automatic switching is enabled (R396) -/
  auto : Bool
  /-- no troupe of the on-stage context issues before this cycle, after a switch (R396) -/
  from_ : Nat
  /-- the cycle in which the context on stage took it, and the cycles that contexts have spent on stage before (R90) -/
  since : Nat
  stints : Tab Nat
  /-- the first cycle in which a quarter may select again after a troupe of it has ended (R80) -/
  selFree : Tab Nat
  /-- the last request set of each quarter (R291) -/
  sent : Tab ReqSet
deriving DecidableEq, Repr

/-- A cue broadcast that a desk holds (R368): its cycle, whether it clears, and its number. -/
structure Arm where
  due : Nat
  clear : Bool
  id : Nat
deriving DecidableEq, Repr

/-- A unit that checkpointing tracks (R401). -/
inductive CkUnit where
  | granule (tid u : Nat)
  | stage (ens a : Nat)
  | slot (ens : Nat) (b : Bool) (k : Nat)
  | tile (ens k : Nat)
  | piece (tid off : Nat)
  | page (va : Nat)
deriving DecidableEq, Repr

/-- A context: its registers (R383), its partition, and what else it owns: `fmt` is the home copy of its format table (R159),
`cues` the home desk's master copies (R365), `arms` the broadcasts the desk holds by cue. -/
structure Context where
  part : Nat
  fmt : Store 64
  cues : Store 64
  arms : Tab Arm
  ptbr : DWord
  ctxid : Word
  odir : DWord
  tvec : Word
  savebase : DWord
  saven : Word
  saveva : DWord
  grbase : DWord
  grquota : Word
  ckctl : Word
  ckbase : DWord
  cklen : Word
  ckreg : DWord
  pkbase : DWord
  pklen : Word
  savecost : DWord
  /-- the energy account in units of 2^-8 pJ (R432, R433) -/
  energy : Nat
  /-- the troupe blocks in use (R387) -/
  blocks : List Nat
  /-- window preloads of the image: window and record (R68) -/
  preload : List (Nat × BitVec 512)
  /-- writes of registers held per context that have not reached every core: core, number, value and the cycle from which that core
  sees it (R383) -/
  late : List (Nat × Nat × DWord × Nat)
  /-- the minor version of the image (R405) -/
  minor : Nat
  /-- launches started so far (R406) -/
  launched : Nat
  /-- bytes that parked ensembles take in the image behind the committed cut (R358; log entry 69) -/
  saves : Nat
  /-- the units written since the last cut (R401) -/
  touched : List CkUnit
  /-- cycles left of the checkpoint interval when the context was last resident; 0 for a whole one (R402) -/
  ckLeft : Nat
  /-- stopped as a whole (R397, R402) -/
  stopped : Bool
  terminated : Bool
deriving DecidableEq, Repr

/-- An event that a stage manager has to report (R442). -/
structure Report where
  code : Nat
  ctxid : Nat
  num : Nat
  addr : Nat
  info : Nat
deriving DecidableEq, Repr

/-- What waits in the fault unit (R286). -/
inductive Waiter where
  | instr (t uid : Nat)
  | copy (n : Nat)
  | ovld (n : Nat)
deriving DecidableEq, Repr

/-- A faulting instruction or copy: the page it waits on, what its record says (R288), and how far it has come: waiting for a
fault-buffer entry, waiting for a group, in the group of a token (R286), or replied to (R289). -/
structure FaultWait where
  id : Nat
  core : Nat
  waiter : Waiter
  ctxid : Nat
  va : Nat
  cause : Nat
  reason : Nat
  level : Nat
  acc : Nat
  slot : Nat
  win : Nat
  pc : Word
  lanes : Mask
  done : Mask
  buffered : Bool
  token : Option Word
  closing : Bool
deriving DecidableEq, Repr

/-- An open fault group (R286). -/
structure Group where
  token : Word
  ctxid : Nat
  page : Nat
deriving DecidableEq, Repr

/-- A compute die: events waiting in its stage manager and how many were dropped (R442); its fault unit with the registers of
R287, the open groups, and the records that wait for a ring place. -/
structure Die where
  reports : List Report
  dropped : Nat
  fqcfg : DWord
  fqhead : Word
  fqtail : Word
  frstat : Word
  fseq : Word
  groups : List Group
  records : List (List Byte)
  /-- cycles held by checkpointing (R402, R440) -/
  ckhold : DWord
  /-- the context whose green room gave the last entry (R354) -/
  lastGreen : Nat
deriving DecidableEq, Repr

/-- What a stack, its base die and its endpoint hold (R423 to R431, R440). -/
structure Stack where
  /-- FENCE0 to FENCE255 (R440) -/
  fence : Store 64
  /-- every page of the stack is fenced (R423) -/
  allFenced : Bool
  /-- CHQ of the channels (R431) -/
  chq : Store 64
  /-- the slot 15 lines in the inline-ECC cache, newest first (R421) -/
  ecc : List Nat
  lnk : DWord
  /-- STATE of LNKCTL (R426) -/
  link : Nat
  hnode : Word
  /-- the access-control table (R429) -/
  acl : Store 128
  /-- the outbound keys by node (R427) -/
  keys : Store 32
  /-- the memory interface has taken refresh over (R424) -/
  takeover : Bool
  /-- the cycle of the last heartbeat -/
  beat : Nat
  /-- refreshes issued (R424) and codewords scrubbed (R425), counted -/
  refreshes : Nat
  scrubbed : Nat
  /-- the flit that the other side last asked for again, and how often it has (R426) -/
  nakSeq : Nat
  naks : Nat
  /-- the last failures: status, node and SLA (R430) -/
  log : List (Nat × Nat × Nat)
deriving DecidableEq, Repr

/-- A partition (R434 to R438): `setting` is its place on the ladder, 0 to 4 for the clock steps and 5 to 11 for G = 1 to 7 at
0.9 GHz. -/
structure Part where
  rank : Nat
  pcap : Nat
  budget : DWord
  left : Nat
  charged : Bool
  setting : Nat
  cause : DWord
  energy : Nat
  /-- steps down asked for by thermal and by current-limit events since the last application -/
  thermal : Nat
  current : Nat
  /-- the queue served last at each level (R350) -/
  turn : Tab Nat
deriving DecidableEq, Repr

/-- A hall cap (R437). -/
structure Hall where
  limit : Nat
  rank : Nat
  id : Nat
deriving DecidableEq, Repr

/-- The configuration image in flash (R445), as bring-up reads it: `good` when its signature verifies. -/
structure Flash where
  good : Bool
  partOf : List Nat
  ranks : List Nat
  pcaps : List Nat
  moduleCap : Nat
  mapRegs : List DWord
  matrices : List (BitVec 44)
  /-- a die's watts at each clock step, then its watts at 0.9 GHz that gating does not save (R436) -/
  ladder : List Nat
  /-- which set of calibration weights it holds (R432) -/
  cal : Nat
  /-- the scrub period in hours (R425) -/
  scrub : Nat
deriving DecidableEq, Repr

/-- A software queue as the front end knows it (R333, R337, R338, R349). -/
structure Queue where
  slot : Option (Nat × Nat)
  /-- parked on its wait packet, with the sync word's physical address, and the packet's condition, value and ACQ (R338) -/
  waiting : Option Nat
  cond : Nat
  value : DWord
  wacq : Nat
  /-- an event for the packet at its head is due -/
  busy : Bool
  /-- the launch packet at its head that the matcher or admission holds -/
  head : Option Nat
  /-- the format preload at its head, and the writes that it made (R337) -/
  preload : Bool
  writes : List Nat
  level : Nat
  /-- since when a request waits with none served -/
  since : Option Nat
  served : Nat
  /-- the widest ACQ of the wait packets so far (R345) -/
  acq : Nat
  /-- started packets that have not completed -/
  inFlight : List Nat
  num : Nat
deriving DecidableEq, Repr

/-- A launch packet that has been read (R335, R337), from its first start attempt to its completion. -/
structure Launch where
  /-- its number among the context's launches, and the spawns in it so far (R406) -/
  seq : Nat
  spawns : Nat
  ctx : Nat
  queue : Nat
  index : Nat
  die : Nat
  counter : Nat
  regs : Nat
  scalars : Nat
  stage : Nat
  seedProd : Bool
  entry : Word
  energy : Nat
  args : DWord
  sig : DWord
  acq : Nat
  rel : Nat
  wide : Nat
  ranges : List DWord
  /-- the launches it depends on (R342), each with whether the dependence lasts until that launch completes -/
  deps : List (Nat × Bool)
  admitted : Bool
  started : Bool
  hasProducer : Bool
  triggered : Bool
deriving DecidableEq, Repr

/-- Where a production waits for its first placement (R348, R354). -/
inductive ProdPlace where
  | admission (die : Nat)
  | buffer (die : Nat)
  | green
  | placed
deriving DecidableEq, Repr

/-- A production (R343 to R346, R353, R357). `from_` names the ensemble and the group that spawned it. -/
structure Prod where
  launch : Nat
  /-- its number among the launch's productions (R406) -/
  index : Nat
  depth : Nat
  from_ : Option (Nat × Nat)
  parent : Option Nat
  troupes : Nat
  regs : Nat
  scalars : Nat
  stage : Nat
  acq : Nat
  rel : Nat
  coop : Bool
  producer : Bool
  entry : Word
  args : DWord
  gx : Nat
  gy : Nat
  gz : Nat
  energy : Nat
  place : ProdPlace
  /-- its estimate has been charged (R348) -/
  admitted : Bool
  /-- ensembles placed so far, ended, and triggered -/
  next : Nat
  ended : Nat
  trigs : Nat
  /-- children not retired -/
  children : Nat
  /-- the die from whose front end its placement is counted (R351) -/
  origin : Nat
  /-- its release and retirement are under way (R344) -/
  retiring : Bool
deriving DecidableEq, Repr

/-- A shootdown (R415): what it covers and the cores that have not acknowledged it. -/
structure Shoot where
  id : Nat
  tid : Nat
  uid : Nat
  kind : Nat
  ctxid : Nat
  addr : Nat
  count : Nat
  left : List Nat
  /-- the physical pages that its virtual pages stand for in any core, slot or page table at its issue (R77) -/
  frames : List Nat
deriving DecidableEq, Repr

/-- An object image that a driver has handed to the stage manager (R68). -/
structure Image where
  status : Nat
  bytes : List Byte
deriving DecidableEq, Repr

/-- Requests of a memory instruction to the peer aperture (R427, R430): the lanes with their physical addresses, and the statuses of
the responses so far. -/
structure PeerReq where
  id : Nat
  tid : Nat
  uid : Nat
  pc : Word
  lanes : List (Nat × Nat)
  answers : Tab Nat
deriving DecidableEq, Repr

/-- What the module last sent at one of its ports: data to the host, a Helyel response, the answer to a hall message, an SPDM
measurement, the answer to a snoop, or a NAK with a SEQ. -/
inductive Msg where
  | host (data : List Byte)
  | helyel (status old : Nat) (data : List Byte)
  | hall (met : Bool) (power : Nat)
  | spdm (v : Nat)
  | snoop
  | nak (seq : Nat)
  | flits (seq : Nat)
  | busData (data : List Byte)
deriving DecidableEq, Repr

/-- A mapping commit under way (R420). -/
structure Mapping where
  region : Nat
  next : DWord
  rows : List (BitVec 44)
deriving DecidableEq, Repr

/-- What a copy moves (R246, R266, R267, R234): a window's tile; rows from their addresses to a stage address; a pattern; stage
bytes to an operand slot. -/
inductive CopyKind where
  | window (w : Nat)
  | sgath (rows : List Nat) (dst row : Nat)
  | sfill (dst len : Nat) (pattern : Word)
  | opld (store : Bool) (slot off src len : Nat)
deriving DecidableEq, Repr

/-- A copy from the issue of its starting instruction to its last landing (R246 to R259). `units` are the sectors, or the rows of
an sgath; `landed` and `tail` say which have landed; `members` are the ensembles that receive a multicast, the leader
first; `bar` is the barrier it posts to; `back` the window state that a false guard restores. -/
structure Copy where
  ens : Nat
  tid : Nat
  batch : Word
  kind : CopyKind
  fmt : DWord
  record : BitVec 512
  goff : Int
  guard : Option Nat
  members : List Nat
  pc : Word
  units : Nat
  bar : Option Nat
  started : Option Nat
  landed : Nat
  tail : BitVec 64
  back : BitVec 3
  parked : Bool
  /-- an ordered reduction's destination sectors, by virtual address over 32: not sent yet, and applied or discarded (R262) -/
  todo : List Nat
  doneSecs : List Nat
  /-- the cycle in which its starting instruction issued, and the writes of its troupe that came before it (R248, R326) -/
  issued : Nat
  waits : List Nat
  /-- units asked for so far, and the cycles by which those to come have moved back (R244, R248) -/
  sent : Nat
  shift : Nat
deriving DecidableEq, Repr

/-- A contribution of an ordered reduction that a home slice buffers (R262): its index, its copy, the sector as the copy names it,
and the elements' bit offsets in the sector with their codes. -/
structure Contribution where
  idx : Nat
  copy : Nat
  sec : Nat
  elems : List (Nat × Nat)
deriving DecidableEq, Repr

/-- An ordered episode of a destination sector (R262). -/
structure Episode where
  ncon : Nat
  next : Nat
  waiting : List Contribution
deriving DecidableEq, Repr

/-- A waiting acq (R312): the sync word, the operation and its operands, and what it does on success. -/
structure AcqWait where
  id : Nat
  tid : Nat
  uid : Nat
  pa : Nat
  op : Nat
  cond : Nat
  b : DWord
  c : DWord
  pend : Nat
  scope : Nat
  regions : List (Nat × Nat)
  /-- the word's virtual address, and the lanes that the instruction has active -/
  va : Nat
  active : Mask
deriving DecidableEq, Repr

/-- What follows a cache action (R311, R313, R275): a rel writes its word; a tbarr arrives and fills its result; -/
inductive CacheThen where
  | nothing
  | word (pa op : Nat) (b : DWord)
  | arrive (addr count : Nat) (add : Option Nat) (pend : Nat)
  /-- a qsig writes its word and notifies the signal unit (R361) -/
  | signal (pa op : Nat) (b : DWord)
  /-- a spawn reads its descriptor and enqueues its child (R357) -/
  | spawn (pa group pend : Nat)
  /-- barriers that an sst has written to check their phase (R255) -/
  | phases (bars : List Nat)
deriving DecidableEq, Repr

/-- A cache action under way (R320, R378, R380): whose it is, whether it releases and acquires, the virtual intervals it covers
(none for every address), and what follows it. -/
structure CacheAct where
  id : Nat
  tid : Nat
  uid : Nat
  scope : Nat
  release : Bool
  acquire : Bool
  regions : Option (List (Nat × Nat))
  after : CacheThen
deriving DecidableEq, Repr

/-- An overlay load in progress (R73, R390): `dst` names the scoreboard result that receives its status, none for a trap
entry. -/
structure OvlLoad where
  id : Nat
  core : Nat
  ctx : Nat
  tid : Nat
  uid : Nat
  ovl : Nat
  sup : Bool
  dst : Option Nat
  /-- the slot being filled and the physical addresses of the code's pages, once the copy runs -/
  slot : Option Nat
  pages : List Nat
  base : Nat
  size : Nat
  pc : Word
deriving DecidableEq, Repr

/-- A cut of a context (R402 to R406): what its records hold, unit by unit too, and the units not streamed yet. `end_` is the offset
in the half just past its last record. -/
structure Cut where
  seq : Nat
  half : Nat
  end_ : Nat
  /-- the image is the park image (R404) -/
  parkImage : Bool
  moving : Bool
  ctx : Context
  ens : Tab Ensemble
  troupes : Tab Troupe
  copies : Tab Copy
  prods : Tab Prod
  launches : Tab Launch
  loads : List OvlLoad
  data : List (CkUnit × List Byte)
  rdidx : List (Nat × Nat)
  todo : List CkUnit
  /-- the units that it was formed of: clean from then on, unless it fails (R402, R403) -/
  took : List CkUnit
  /-- it holds ensembles that a park took off their cores, and is no cut of its context (R358) -/
  part : Bool
deriving DecidableEq, Repr

/-- An event of the agenda and the cycle from which it may happen. -/
structure Timed where
  due : Nat
  ev : Ev
deriving DecidableEq, Repr

/-- The state of the module. `tick` numbers the draws of free values and names what is created; it is the model's own. -/
structure State where
  now : Nat
  tick : Nat
  agenda : List Timed
  cur : Option (Nat × Nat)
  mem : Memory
  /-- sectors of device memory that L2 or a memory-side cache holds, with the dirty bit (R293, R294) -/
  cached : Tab SectorCopy
  /-- bytes of device memory whose stack copy differs from the home slices' view, with the stack's byte (R295) -/
  stackDiff : Tab Byte
  mapRegs : List DWord
  /-- the 44 rows of each region's matrix, region r from 44 r on (R419) -/
  matrices : List (BitVec 44)
  /-- the partition of each die (R23) -/
  partOf : List Nat
  stackTab : Tab Stack
  parts : Tab Part
  hall : Option Hall
  moduleCap : Nat
  flash : Flash
  /-- the calibration weights and the scrub period that bring-up loaded (R425, R432, R446) -/
  cal : Nat
  scrub : Nat
  bootstat : Nat
  qtbase : DWord
  evbase : DWord
  evhead : Word
  evtail : Word
  evcfg : Word
  ckshare : Word
  lhost : DWord
  tq : DWord
  mapRows : Store 64
  mapNext : DWord
  mapStat : Nat
  mapping : Option Mapping
  queues : Tab Queue
  launches : Tab Launch
  prods : Tab Prod
  shoots : List Shoot
  /-- the cut being written, and the committed one, of each context -/
  cutting : Tab Cut
  cuts : Tab Cut
  images : Tab Image
  requests : List PeerReq
  sent : Option Msg
  dies : Tab Die
  faultWaits : List FaultWait
  ovlLoads : List OvlLoad
  copies : Tab Copy
  /-- ordered episodes by destination sector (R262) -/
  episodes : Tab Episode
  /-- refused contributions in the order of their refusals: copy and sector (R262) -/
  refused : List (Nat × Nat)
  acqWaits : List AcqWait
  cacheActs : List CacheAct
  cores : Tab Core
  contexts : Tab Context
  ensembles : Tab Ensemble
  troupes : Tab Troupe
deriving DecidableEq, Repr

/-- Why the machine stops: the address is one the spec says does not exist, or an effect the spec does not give. -/
inductive Fault where
  /-- An engine, a trap entry or a stop accesses a physical address that no unit backs (R278, R280); safe: the model stops. -/
  | unbacked
deriving DecidableEq, Repr

/-- Why an instruction has no outcome in the model. -/
inductive Refusal where
  /-- The instruction has no meaning in the model yet; safe: the model stops. -/
  | notModelled (mnemonic : String)
  /-- An instruction was given to exec while no split is chosen to issue it; safe: step never does this. -/
  | noIssuer
deriving DecidableEq, Repr

/-- The default matrix of a region that spans 2^s stacks: the identity with the two changes of R419. -/
def defaultMatrix (s : Nat) : List (BitVec 44) :=
  (List.range 44).map fun n =>
    if n < 5 then (1#44 <<< n) ||| (1#44 <<< (n + s + 10))
    else if 6 ≤ n ∧ n ≤ 9 then (1#44 <<< n) ||| (1#44 <<< (n + s + 9))
    else 1#44 <<< n

/-- A MAPREG value (R418). -/
def mapReg (logS stack0 base : Nat) : DWord := BitVec.ofNat 64 (2 ^ 63 + logS * 2 ^ 59 + stack0 * 2 ^ 54 + base)

/-- The configuration image of a module as delivered (log entry 20): one partition, and the defaults of R418, R435 and R436. -/
def Flash.default : Flash :=
  { good := true, partOf := List.replicate 12 0, ranks := [0], pcaps := [0], moduleCap := 5200,
    mapRegs := [mapReg 3 0 0, mapReg 3 8 0x78, mapReg 3 16 0xF0] ++ List.replicate 13 0,
    matrices := (List.replicate 16 (defaultMatrix 3)).flatten, ladder := [380, 315, 260, 190, 130, 60],
    cal := 0, scrub := 24 }

/-- The machine right after module reset, at the start of bring-up (R446). -/
def State.reset : State :=
  { now := 0, tick := 0, agenda := [⟨0, .moduleReset⟩], cur := none, mem := [], cached := [], stackDiff := [],
    mapRegs := List.replicate 16 0, matrices := [], partOf := List.replicate 12 0, stackTab := [], parts := [], hall := none,
    moduleCap := 0, flash := Flash.default, cal := 0, scrub := 24, bootstat := 0, qtbase := 0, evbase := 0, evhead := 0, evtail := 0, evcfg := 8,
    ckshare := 8, lhost := 0, tq := 0, mapRows := [], mapNext := 0, mapStat := 0, mapping := none, queues := [],
    launches := [], prods := [], shoots := [], cutting := [], cuts := [], images := [], requests := [], sent := none,
    dies := [], faultWaits := [], ovlLoads := [], copies := [], episodes := [], refused := [], acqWaits := [], cacheActs := [],
    cores := [], contexts := [], ensembles := [], troupes := [] }

end Sys2Proof.Machine
end

