-- ==== Sys2Proof/Machine/Memory.lean ====
section
/-! DEFINITION. Physical memory: its canonical form, reads and writes at the home slices, the mapping regions, and the
write-back and discard of the caches above the stacks. -/

namespace Sys2Proof.Machine

open Sys2Proof

/-- Addresses strictly rise from `a` on and no byte is 0, the value an unlisted address reads as (log entry 5). -/
def Memory.wfFrom : Nat → Memory → Bool
  | _, [] => true
  | a, (k, b) :: t => a ≤ k && b != 0 && Memory.wfFrom (k + 1) t

/-- The canonical form of a memory. -/
def Memory.wf (m : Memory) : Bool := Memory.wfFrom 0 m

/-- One byte; an unlisted address reads 0 (log entry 5). -/
def Memory.read : Memory → Nat → Byte
  | [], _ => 0
  | (k, b) :: t, a => if k = a then b else Memory.read t a

/-- The `n` bytes from an address on. -/
def Memory.readN (m : Memory) (a n : Nat) : List Byte := (List.range n).map fun i => m.read (a + i)

/-- The cells that bytes from an address on leave listed. -/
def cellsOf : Nat → List Byte → Memory
  | _, [] => []
  | a, b :: t => if b = 0 then cellsOf (a + 1) t else (a, b) :: cellsOf (a + 1) t

/-- The cells below an address. -/
def Memory.below : Memory → Nat → Memory
  | [], _ => []
  | (k, b) :: t, a => if k < a then (k, b) :: Memory.below t a else []

/-- The cells from an address on. -/
def Memory.above : Memory → Nat → Memory
  | [], _ => []
  | (k, b) :: t, a => if k < a then Memory.above t a else (k, b) :: t

/-- Write bytes from an address on, keeping the canonical form. -/
def Memory.write (m : Memory) (a : Nat) (bs : List Byte) : Memory :=
  m.below a ++ (cellsOf a bs ++ m.above (a + bs.length))

/-- The first address beyond device memory (R278). -/
def deviceEnd : Nat := 0x4000000000000

/-- Targets of a physical address (R278). -/
inductive Target where
  | device | peer | host | tier
deriving DecidableEq, Repr

/-- Bits 51:50 of a physical address select its target (R278). -/
def targetOf (pa : Nat) : Target :=
  match field pa 51 50 with
  | 0 => .device
  | 1 => .peer
  | 2 => .host
  | _ => .tier

/-- The first byte and the length of mapping region `r`, if it is valid (R418). -/
def regionSpan (m : DWord) : Option (Nat × Nat) :=
  if bitOf m.toNat 63 then some (bvField m 19 0 * 2 ^ 32, 15 * 2 ^ (bvField m 61 59 + 32)) else none

/-- The mapping region that covers a device address (R418, R419). -/
def State.regionOf (s : State) (pa : Nat) : Option Nat :=
  (List.range 16).find? fun r =>
    match regionSpan (s.mapRegs.getD r 0) with
    | some (b, n) => b ≤ pa && pa < b + n
    | none => false

/-- A unit backs the physical address: a region covers it (R419), or its endpoint exists (R427), or it is host or tier
memory. -/
def State.backed (s : State) (pa : Nat) : Bool :=
  match targetOf pa with
  | .device => (s.regionOf pa).isSome
  | .peer => field pa 40 36 ≤ 23
  | .host => true
  | .tier => true

/-! ### The agenda -/

/-- Insert an event in order of its cycle, after those of the same cycle. -/
def insertTimed (rank : Ev → Nat) (e : Timed) : List Timed → List Timed
  | [] => [e]
  | x :: t =>
    if e.due < x.due ∨ (e.due = x.due ∧ rank e.ev < rank x.ev) then e :: x :: t else x :: insertTimed rank e t

/-- The window that a copy moves, counted so that other copies come after every window. -/
def CopyKind.order : CopyKind → Nat
  | .window w => w
  | .sgath _ _ _ => 4096
  | .sfill _ _ _ => 4096
  | .opld _ _ _ _ _ => 4096

/-- The order of a cycle's events (R159, R240, R368): ordinary ones, ahead of the instructions of the cycle; and behind the
instructions the arms and format writes that reach their hub, which a core at latency 0 may send in that cycle, the broadcasts, and the
stagehand's landings in ascending window number. -/
def State.rank (s : State) (e : Ev) : Nat :=
  let land (n : Nat) : Nat := 3 + ((s.copies.find? n).map (·.kind.order)).getD 0
  match e with
  | .cuearmAtDesk _ _ _ _ _ => 1
  | .formatWriteAtHome _ _ _ _ _ => 1
  | .cueBroadcast _ _ _ => 2
  | .sectorLanding n _ => land n
  | .sfillComplete n => land n
  | .opldComplete n => land n
  | _ => 0

/-- Put an event into the agenda, to happen no earlier than a cycle. -/
def State.at_ (s : State) (due : Nat) (ev : Ev) : State := { s with agenda := insertTimed s.rank ⟨due, ev⟩ s.agenda }

/-- Insert an event in order of its cycle and rank, before those of the same cycle and rank that a rule puts after it. -/
def insertOrdered (rank : Ev → Nat) (e : Timed) (after : Ev → Bool) : List Timed → List Timed
  | [] => [e]
  | x :: t =>
    if e.due < x.due ∨ (e.due = x.due ∧ (rank e.ev < rank x.ev ∨ (rank e.ev = rank x.ev ∧ after x.ev))) then e :: x :: t
    else x :: insertOrdered rank e after t

/-- Put an event into the agenda, before those of the same cycle and rank that a rule puts after it. -/
def State.atBefore (s : State) (due : Nat) (ev : Ev) (after : Ev → Bool) : State :=
  { s with agenda := insertOrdered s.rank ⟨due, ev⟩ after s.agenda }

/-- Put events into the agenda. -/
def State.atAll (s : State) (due : Nat) (evs : List Ev) : State := evs.foldl (fun s e => s.at_ due e) s

/-- Advance the counter that names things and numbers the draws of free values. -/
def State.bump (s : State) : State := { s with tick := s.tick + 1 }

/-- A write of a format table is on its way to the home or to a copy (R159, R161, R162, R337). -/
def State.fmtFlying (s : State) (f : Nat → Nat → Bool) : Bool :=
  s.agenda.any fun t => match t.ev with
    | .formatWriteAtHome c _ _ _ n => f c n
    | .formatBroadcastApply c _ _ _ n => f c n
    | _ => false

/-! ### Places -/

/-- The parity of the bits that two numbers share. -/
def parity (a b : Nat) : Bool := ((List.range 44).filter fun k => bitOf a k && bitOf b k).length % 2 = 1

/-- The line of a device address in its region, multiplied by the region's matrix: Y of R419. -/
def State.mapLine (s : State) (r m : Nat) : Nat :=
  ((List.range 44).map fun k => (parity (s.matrices.getD (44 * r + k) 0).toNat m).toNat * 2 ^ k).sum

/-- The stack and the stack-local address of a device address (R419). -/
def State.stackOf (s : State) (pa : Nat) : Option (Nat × Nat) :=
  match s.regionOf pa with
  | none => none
  | some r =>
    let reg := s.mapRegs.getD r 0
    let sz := bvField reg 61 59
    let n := (pa - bvField reg 19 0 * 2 ^ 32) / 256
    let y := s.mapLine r (n % 2 ^ (sz + 24))
    let cell := field y (sz + 23) (sz + 10) * 2 ^ 10 + field y 9 8 * 2 ^ 8 + field y 7 6 * 2 ^ 6 + field y 5 5 * 2 ^ 5 + field y 4 0
    some (bvField reg 58 54 + y / 2 ^ 10 % 2 ^ sz, (n / 2 ^ (sz + 24) * 2 ^ 24 + cell) * 256 + pa % 256)

/-- The index of a device address's slice in its die (R293). -/
def sliceIndex (pa : Nat) : Nat := (field pa 23 8 ^^^ field pa 39 24 ^^^ field pa 51 40) % 160

/-- The home slice of a device address: its die and its index (R17, R293). -/
def State.sliceOf (s : State) (pa : Nat) : Nat × Nat :=
  (match s.stackOf pa with
   | some (k, _) => k / 2
   | none => 0,
   sliceIndex pa)

/-- The distance of two numbers. -/
def gap (a b : Nat) : Nat := (a - b) + (b - a)

/-- Die links between two dies (R16). -/
def dieHops (a b : Nat) : Nat := gap (a / 6) (b / 6) + gap (a % 6) (b % 6)

/-- Mesh hops from a core to its hub (R363). -/
def hubHops (core : Nat) : Nat := gap (core % 96 / 12) 4 + gap (core % 12) 6

/-- Mesh hops from a slice to its hub (R363). -/
def sliceHops (k : Nat) : Nat := gap (k / 20) 4 + gap (3 * (k % 20) / 5) 6

/-- 2h + 48x of the path from a core to a slice of a die (R363, R378). -/
def sliceTerm (core die k : Nat) : Nat :=
  if die = core / 96 then 2 * (gap (core % 96 / 12) (k / 20) + gap (core % 12) (3 * (k % 20) / 5))
  else 2 * (hubHops core + sliceHops k) + 48 * dieHops (core / 96) die

/-- 2h + 48x of the path from a core to the unit that serves an address (R378, R379). -/
def State.pathTerm (s : State) (core pa : Nat) : Nat :=
  match targetOf pa with
  | .device => sliceTerm core (s.sliceOf pa).1 (s.sliceOf pa).2
  | .peer => 2 * hubHops core + 48 * dieHops (core / 96) (field pa 40 36 / 2)
  | .host => 2 * hubHops core + 48 * dieHops (core / 96) 0
  | .tier => 2 * hubHops core + 48 * dieHops (core / 96) 0

/-- Verification has failed: only configuration space and BOOTSTAT respond (R446). -/
def State.dead (s : State) : Bool := s.bootstat = 2

/-- The lowest-numbered die of a partition (R159, R365). -/
def State.homeDie (s : State) (part : Nat) : Nat := ((List.range 12).find? fun d => s.partOf.getD d 0 = part).getD 0

/-- The cycle counter of a partition's dies (R364). -/
def State.cycles (s : State) (part : Nat) : Nat := s.now + Config.cycleBase part

/-- The next cycle in which the counter of a partition's dies is a multiple of a number (R434, R436). -/
def State.nextPoint (s : State) (part n : Nat) : Nat := s.now + (n - s.cycles part % n)

/-- The cue latency between a partition's home desk and a core (R366). -/
def State.cueLatency (s : State) (part core : Nat) : Nat := 3 * hubHops core + 52 * dieHops (s.homeDie part) (core / 96)

/-- The sectors that `n` bytes from an address on touch (R291). -/
def sectorsOf (pa n : Nat) : List Nat :=
  if n = 0 then [] else (List.range ((pa + n - 1) / 32 - pa / 32 + 1)).map (pa / 32 + ·)

/-- Keep the stack's bytes where a home write makes them differ (R295). -/
def keepStack (m : Memory) (d : Tab Byte) : Nat → List Byte → Tab Byte
  | _, [] => d
  | a, b :: t =>
    keepStack m (if (d.find? a).isSome || m.read a = b then d else d.put a (m.read a)) (a + 1) t

/-- Bytes as the home slices give them. -/
def State.peek (s : State) (pa n : Nat) : List Byte := s.mem.readN pa n

/-- Read a 64-bit value at its home. -/
def State.peek64 (s : State) (pa : Nat) : Nat := leNat (s.peek pa 8)

/-- A stack and its endpoint; one that nothing has used yet is as reset leaves it. -/
def State.stack (s : State) (k : Nat) : Stack :=
  (s.stackTab.find? k).getD
    { fence := [], allFenced := false, chq := [], ecc := [], lnk := 0, link := 0, hnode := 0, acl := [], keys := [], takeover := false,
      beat := 0, refreshes := 0, scrubbed := 0, nakSeq := 0, naks := 0, log := [] }

/-- Change a stack. -/
def State.modStack (s : State) (k : Nat) (f : Stack → Stack) : State := { s with stackTab := s.stackTab.put k (f (s.stack k)) }

/-- A physical page is fenced (R423): by an entry of some interface, or with its whole stack. -/
def State.isFenced (s : State) (pa : Nat) : Bool :=
  s.stackTab.any fun k =>
    (k.2.fence.any fun e => bitOf e.2.toNat 63 && bvField e.2 51 12 = pa / 4096)
    || (k.2.allFenced && (s.stackOf pa).map (·.1) = some k.1)

/-! ### The caches above the stacks (R293 to R295) -/

/-- A sector of which no cache holds a copy. -/
def SectorCopy.none : SectorCopy := ⟨false, false, false, false⟩

/-- What a table says of a sector. -/
def copyIn (t : Tab SectorCopy) (k : Nat) : SectorCopy := (t.find? k).getD SectorCopy.none

/-- Change what a table says of a sector. -/
def putCopy (t : Tab SectorCopy) (k : Nat) (c : SectorCopy) : Tab SectorCopy := if c.l2 || c.side then t.put k c else t.del k

/-- The sectors of a 256-byte line. -/
def lineSecs (l : Nat) : List Nat := (List.range 8).map (8 * l + ·)

/-- Change what a table says of a line's sectors. -/
def putLine (t : Tab SectorCopy) (l : Nat) (f : SectorCopy → SectorCopy) : Tab SectorCopy :=
  (lineSecs l).foldl (fun t k => putCopy t k (f (copyIn t k))) t

/-- What the caches hold of a sector. -/
def State.copyAt (s : State) (k : Nat) : SectorCopy := copyIn s.cached k

/-- Change what the caches hold of a sector. -/
def State.setCopy (s : State) (k : Nat) (c : SectorCopy) : State := { s with cached := putCopy s.cached k c }

/-- Change what the caches hold of a line's sectors. -/
def State.setLine (s : State) (l : Nat) (f : SectorCopy → SectorCopy) : State := { s with cached := putLine s.cached l f }

/-- The memory-side cache holds a line. -/
def State.sideHolds (s : State) (l : Nat) : Bool := (lineSecs l).any fun k => (s.copyAt k).side

/-- The region of an address is under BCH ECC (R418). -/
def State.bch (s : State) (pa : Nat) : Bool :=
  match s.regionOf pa with
  | some r => bitOf (s.mapRegs.getD r 0).toNat 62
  | none => false

/-- The stack takes the home's bytes of a sector; a write to a fenced page is dropped (R423). -/
def State.stackTakes (s : State) (k : Nat) : State :=
  if s.isFenced (32 * k) then s
  else { s with stackDiff := (List.range 32).foldl (fun d i => Tab.del d (32 * k + i)) s.stackDiff }

/-- The memory-side cache writes a line back whole, but for the newer bytes that L2 holds (R295, R331). -/
def State.sideBack (s : State) (l : Nat) : State :=
  (((lineSecs l).filter fun k => (s.copyAt k).side && !(s.copyAt k).dirty).foldl State.stackTakes s).setLine l fun c => { c with sideDirty := false }

/-- An L2 line is replaced: its dirty sectors go to the memory-side cache, which holds the line or, under BCH, takes it in; else to the
stack (R293, R294). -/
def State.dropL2 (s : State) (l : Nat) : State :=
  let lost := (lineSecs l).filter fun k => (s.copyAt k).dirty
  let s1 :=
    if lost = [] then s
    else if s.sideHolds l || s.bch (256 * l) then s.setLine l fun c => { c with side := true, sideDirty := true }
    else lost.foldl State.stackTakes s
  s1.setLine l fun c => { c with l2 := false, dirty := false }

/-- A line of a memory-side cache is replaced (R294). -/
def State.dropSide (s : State) (l : Nat) : State :=
  (if (lineSecs l).any fun k => (s.copyAt k).sideDirty then s.sideBack l else s).setLine l fun c =>
    { c with side := false, sideDirty := false }

/-- The lines that L2 holds, ascending. -/
def State.l2Lines (s : State) : List Nat := once ((s.cached.filter fun e => e.2.l2).map (·.1 / 8))

/-- The other lines of a line's set: a slice has 512 sets (R293), and which of them is a line's the spec does not say (log entry 92). -/
def State.l2Rivals (s : State) (l : Nat) : List Nat :=
  let place (x : Nat) : (Nat × Nat) × Nat := (s.sliceOf (256 * x), Config.l2Set x % 512)
  s.l2Lines.filter fun x => x ≠ l && sliceIndex (256 * x) = sliceIndex (256 * l) && place x = place l

/-- A set has 12 ways (R293): a line that finds it full replaces another one, which the spec does not choose (log entry 92). -/
def State.roomL2 (s : State) (l : Nat) : State :=
  let rivals := s.l2Rivals l
  if rivals.length < 12 then s else s.dropL2 (rivals.getD (Config.choice s.tick % rivals.length) l)

/-- The lines that the memory-side caches hold, ascending. -/
def State.sideLines (s : State) : List Nat := once ((s.cached.filter fun e => e.2.side).map (·.1 / 8))

/-- A memory-side cache has 8 MiB, 32,768 lines, and a line of zeros takes no data (R294): what it replaces the spec does not choose
(log entry 92). -/
def State.roomSide (s : State) (l : Nat) : State :=
  let stack (x : Nat) : Option Nat := (s.stackOf (256 * x)).map (·.1)
  let rivals := s.sideLines.filter fun x => x ≠ l && stack x = stack l && (s.mem.readN (256 * x) 256).any (· ≠ 0)
  if rivals.length < 32768 then s else s.dropSide (rivals.getD (Config.choice s.tick % rivals.length) l)

/-- Lines that have been taken in find their places. -/
def State.makePlace (s : State) (ls : List Nat) : State :=
  let s1 := if s.l2Lines.length ≤ 12 then s else (ls.filter fun l => 12 ≤ (s.l2Rivals l).length).foldl State.roomL2 s
  if s.sideLines.length ≤ 32768 then s1 else ls.foldl State.roomSide s1

/-- A sector is read or written at its home slice, which holds it from then on. What L2 does not hold comes from its line in the
memory-side cache, which is filled whole; a write of a whole sector needs no read (R293, R294). -/
def markSector (t : Tab SectorCopy) (k : Nat) (write whole : Bool) : Tab SectorCopy :=
  let c := copyIn t k
  let t1 := if c.l2 || c.side || (write && whole) then t else putLine t (k / 8) fun c => { c with side := true }
  putCopy t1 k { copyIn t1 k with l2 := true, dirty := c.dirty || write }

/-- Sectors, in ascending order, are read or written at their home slices. -/
def State.noteSectors (s : State) (ks : List Nat) (write : Bool) (whole : Nat → Bool) : State :=
  ({ s with cached := ks.foldr (fun k t => markSector t k write (whole k)) s.cached } : State).makePlace (once (ks.map (· / 8)))

/-- Sectors are read at their home slices (R293). -/
def State.noteReads (s : State) (ks : List Nat) : State := s.noteSectors ks false fun _ => false

/-- Bytes are written at their home slices (R293). -/
def State.noteWrites (s : State) (pa n : Nat) : State :=
  s.noteSectors (sectorsOf pa n) true fun k => pa ≤ 32 * k && 32 * k + 32 ≤ pa + n

/-- Note that a device access passed the caches above the stack (R293). -/
def State.noteRead (s : State) (pa : Nat) : State := if targetOf pa = .device then s.noteReads [pa / 32] else s

/-- The write-back of R295 for one sector: the stack takes its bytes, and with them the whole line that the memory-side cache holds
(R331). -/
def State.writeBackSector (s : State) (k : Nat) : State :=
  let s1 := (s.stackTakes k).setCopy k { s.copyAt k with dirty := false }
  if s1.sideHolds (k / 8) then s1.sideBack (k / 8) else s1

/-- The discard of R295 for one sector: a dirty copy is written back, a clean one gives way to the stack's bytes. -/
def State.discardSector (s : State) (k : Nat) : State :=
  let c := s.copyAt k
  let s1 : State :=
    if (c.dirty || c.sideDirty) && !s.isFenced (32 * k) then s.writeBackSector k
    else
      { s with
        mem := (List.range 32).foldl (fun m i =>
          match s.stackDiff.find? (32 * k + i) with
          | some b => Memory.write m (32 * k + i) [b]
          | none => m) s.mem
        stackDiff := (List.range 32).foldl (fun d i => Tab.del d (32 * k + i)) s.stackDiff }
  { s1 with cached := s1.cached.del k }

/-- The sectors that the caches hold within a physical range. -/
def State.cachedIn (s : State) (lo hi : Nat) : List Nat :=
  (s.cached.map (·.1)).filter fun k => lo / 32 ≤ k && 32 * k < hi

/-- The sectors within a physical range that a write-back writes (R295). -/
def State.dirtyIn (s : State) (lo hi : Nat) : List Nat :=
  (s.cachedIn lo hi).filter fun k => (s.copyAt k).dirty || (s.copyAt k).sideDirty

/-- Write-back of a physical range (R295). -/
def State.writeBack (s : State) (lo hi : Nat) : State := (s.dirtyIn lo hi).foldl State.writeBackSector s

/-- Discard of a physical range at L2 and the memory-side caches (R295). -/
def State.discard (s : State) (lo hi : Nat) : State := (s.cachedIn lo hi).foldl State.discardSector s

/-- Let the home slice evaluate the conditions of the acqs that wait for a word just written, before anything else happens
(R312). -/
def State.wakeAcq (s : State) (pa n : Nat) : State :=
  { s with agenda := ((s.acqWaits.filter fun a => a.pa < pa + n && pa < a.pa + 8).map fun a => ⟨s.now, .acqWaitSuccess a.id⟩) ++ s.agenda }

/-- Write bytes at their home slices (R293); outside device memory, at the port (R295). -/
def State.homeWrite (s : State) (pa : Nat) (bs : List Byte) : State :=
  let s1 : State :=
    if targetOf pa = .device then
      ({ s with mem := s.mem.write pa bs, stackDiff := keepStack s.mem s.stackDiff pa bs } : State).noteWrites pa bs.length
    else { s with mem := s.mem.write pa bs }
  s1.wakeAcq pa bs.length

/-! ### Path times (R378, R379) -/

/-- The clock of a setting of R436, in tenths of a GHz. -/
def clockTenths (setting : Nat) : Nat := [19, 17, 15, 12].getD setting 9

/-- Cycles of some tenths of a nanosecond at the clock of a die's partition, rounded up (R379). -/
def State.nsTenths (s : State) (die n : Nat) : Nat :=
  ceilDiv (n * clockTenths (((s.parts.find? (s.partOf.getD die 0)).map (·.setting)).getD 0)) 100

/-- A counter that saturates. -/
def satAdd (bits a b : Nat) : Nat := min (2 ^ bits - 1) (a + b)

/-- An access to a stack: its nanoseconds, in tenths (R379), with the variable terms counted (R431) and the slot 15 line that inline ECC
reads kept by the base die (R421). -/
def State.stackAccess (s : State) (pa : Nat) (write : Bool) : State × Nat :=
  match s.stackOf pa with
  | none => (s, 0)
  | some (k, sla) =>
    let v := Config.stackWait s.tick pa
    let queue := v % 129
    let row := if write then 0 else v / 129 % 2
    let refresh := v / 258 % 421
    let merge := if write ∧ s.bch pa = true then v / 108618 % 2 else 0
    let line := sla / 256 % 2 ^ 24
    let miss := if s.bch pa ∨ (s.stack k).ecc.contains line then 0 else 1
    let q := (s.stack k).chq.get (line % 32)
    let q1 := BitVec.ofNat 64 (2 ^ 32 * satAdd 32 (bvField q 63 32) (queue / 16) + 2 ^ 16 * satAdd 16 (bvField q 31 16) row
      + satAdd 16 (bvField q 15 0) miss)
    (s.modStack k fun x =>
      { x with chq := x.chq.set (line % 32) q1, ecc := if s.bch pa then x.ecc else (line :: x.ecc.filter (· ≠ line)).take 2048 },
     (if write then 960 else 1368) + 10 * (queue + 28 * row + 12 * miss + refresh + 164 * merge))

/-- An access through a port or a link: its nanoseconds, in tenths (R379), with the variable term counted (R431, R440). -/
def State.portAccess (s : State) (pa : Nat) : State × Nat :=
  let v := Config.portWait s.tick pa
  match targetOf pa with
  | .device => (s, 0)
  | .host => ({ s with lhost := s.lhost + BitVec.ofNat 64 (v / 16) }, 3100 + 10 * v)
  | .tier => ({ s with tq := s.tq + BitVec.ofNat 64 (v / 16) }, 1800 + 10 * v)
  | .peer =>
    (s.modStack (field pa 40 36) fun k =>
      { k with lnk := BitVec.ofNat 64 (2 ^ 32 * satAdd 32 (bvField k.lnk 63 32) (v % 401 / 16) + bvField k.lnk 31 0) },
     960 + 10 * (v % 401) + 640 * (v / 401))

/-- The time of a read from a core's position (R378, R379): its target's exact part and the variable terms. -/
def State.readTime (s : State) (core pa : Nat) : State × Nat :=
  let p := s.pathTerm core pa
  match targetOf pa with
  | .device =>
    let c := s.copyAt (pa / 32)
    if c.l2 then (s, 110 + p)
    else if c.side then (s, 260 + p)
    else
      let r := s.stackAccess pa false
      (r.1, 260 + p + s.nsTenths (core / 96) r.2)
  | .host => let r := s.portAccess pa; (r.1, 60 + p + s.nsTenths (core / 96) r.2)
  | .tier => let r := s.portAccess pa; (r.1, 60 + p + s.nsTenths (core / 96) r.2)
  | .peer => let r := s.portAccess pa; (r.1, 60 + p + s.nsTenths (core / 96) r.2)

/-- The time of a write, or of an atomic, until its home or its port acknowledges it (R378, R379). -/
def State.writeTime (s : State) (core pa : Nat) : State × Nat :=
  if targetOf pa = .device then (s, 110 + s.pathTerm core pa) else s.readTime core pa

/-- Reads one after another (R283): their times together; the home slices hold the sectors from then on. -/
def State.readAll (core : Nat) : List Nat → State → State × Nat
  | [], s => (s, 0)
  | a :: t, s =>
    let r := s.readTime core a
    let q := readAll core t (r.1.noteRead a)
    (q.1, r.2 + q.2)

/-- Reads in one go (R73, R248): the longest of their times; the home slices hold the sectors from then on. -/
def readMax (core : Nat) : List Nat → State → State × Nat
  | [], s => (s, 0)
  | a :: t, s =>
    let r := s.readTime core a
    let q := readMax core t (r.1.noteRead a)
    (q.1, max r.2 q.2)

/-- The term of the farthest home slice that a write-back visits: over physical intervals, or over the whole module (R380). -/
def State.farTerm (s : State) (core : Nat) (ivs : Option (List (Nat × Nat))) : Nat :=
  match ivs with
  | none => ((List.range 12).map fun d => ((List.range 160).map (sliceTerm core d)).foldl max 0).foldl max 0
  | some l =>
    let lines := l.flatMap fun (iv : Nat × Nat) => (List.range (ceilDiv iv.2 256 - iv.1 / 256)).map fun i => 256 * (iv.1 / 256 + i)
    ((lines.filter fun a => targetOf a = .device).map (s.pathTerm core)).foldl max 0

/-- The cycles of a write-back over physical intervals, or over the whole module (R380): 40, the farthest slice's term, 2 for each dirty
sector of the busiest slice, and the write time of the last sector at its stack. -/
def State.backCycles (s : State) (core : Nat) (ivs : Option (List (Nat × Nat))) : State × Nat :=
  let lost := match ivs with
    | none => s.dirtyIn 0 deviceEnd
    | some l => distinct (l.flatMap fun (iv : Nat × Nat) => s.dirtyIn iv.1 iv.2)
  let homes := (lost.filter fun k => (s.copyAt k).dirty).map fun k => s.sliceOf (32 * k)
  let busy := (homes.map fun x => (homes.filter (· = x)).length).foldl max 0
  let last := match lost.getLast? with
    | none => (s, 0)
    | some k => s.stackAccess (32 * k) true
  (last.1, 40 + s.farTerm core ivs + 2 * busy + s.nsTenths (core / 96) last.2)

/-- The core whose position is a die's hub (R363). -/
def hubOf (die : Nat) : Nat := 96 * die + 54

/-- The access waits at its home while a commit checks its region (R420). -/
def State.mapWaits (s : State) (pa : Nat) : Bool :=
  match s.mapping with
  | none => false
  | some m =>
    targetOf pa = .device && ([s.mapRegs.getD m.region 0, m.next].any fun r => match regionSpan r with
      | some (b, n) => b ≤ pa && pa < b + n
      | none => false)

/-- The endpoint of a peer address (R427). -/
def endpointOf (pa : Nat) : Nat := field pa 40 36

/-- The status with which a request to the peer aperture ends, drawn with a number: LINKDOWN as 5 while the link is down (R426), UNBACKED
beyond the stack (R428), else what the peer answers (log entry 21). -/
def State.peerAnswer (s : State) (pa n : Nat) : Nat :=
  if (s.stack (endpointOf pa)).link = 2 then 5
  else if 0xF00000000 ≤ field pa 35 0 then 4
  else Config.peerStatus n % 5

/-- An endpoint logs a failed request: the last 16, with status, node and SLA (R430). -/
def State.logPeer (s : State) (status pa : Nat) : State :=
  if status = 0 then s
  else s.modStack (endpointOf pa) fun k =>
    let l := k.log ++ [(status, field pa 49 41, field pa 35 0)]
    { k with log := l.drop (l.length - 16) }

/-- The core with a key (die × 96 + core); a core nothing has used yet is empty. -/
def State.core (s : State) (k : Nat) : Core :=
  (s.cores.find? k).getD
    { fenced := false, onStage := none, wings := [], slots := List.replicate 4 OvlSlot.empty, l1 := [], tlb := [],
      loops := [], utlb := [], walkc := [], fts := [], echo := [], fresh := [],
      locks := [], mats := [], cues := [], acts := [], auto := false, from_ := 0, since := 0, stints := [], selFree := [], sent := [] }

/-- The cycles that a context has spent on a core's stage (R90, R394). -/
def Core.stageCycles (x : Core) (c now : Nat) : Nat :=
  (x.stints.find? c).getD 0 + (if x.onStage = some c then now - x.since else 0)

/-- Another context, or none, takes a core's stage (R394). -/
def Core.stage (x : Core) (now : Nat) (c : Option Nat) : Core :=
  { x with
    onStage := c
    since := now
    stints := match x.onStage with
      | some d => x.stints.put d (x.stageCycles d now)
      | none => x.stints }

/-- Change a core. -/
def State.modCore (s : State) (k : Nat) (f : Core → Core) : State := { s with cores := s.cores.put k (f (s.core k)) }

/-- The bytes of a valid L1 sector (R292). -/
def Core.l1Find (c : Core) (sector : Nat) : Option (List Byte) := (c.l1.find? fun e => e.sector = sector).map (·.data)

/-- Drop L1 sectors for which a condition holds. -/
def Core.l1Drop (c : Core) (p : Nat → Bool) : Core := { c with l1 := c.l1.filter fun e => !p e.sector }

/-- The lines of an L1 list, most recently used first, each once. -/
def linesOf : List L1Sector → List Nat
  | [] => []
  | e :: t => (e.sector / 2) :: (linesOf t).filter (· ≠ e.sector / 2)

/-- Bring a line to the front: it is the most recently used (R292). -/
def Core.l1Touch (c : Core) (sector : Nat) : Core :=
  { c with l1 := (c.l1.filter fun e => e.sector / 2 = sector / 2) ++ (c.l1.filter fun e => e.sector / 2 ≠ sector / 2) }

/-- Fill a sector, replacing the least recently used line of a full set (R292: 16 ways by 256 sets). -/
def Core.l1Fill (c : Core) (sector : Nat) (data : List Byte) : Core :=
  let rest := (c.l1Drop (· = sector)).l1
  let c1 : Core := ({ c with l1 := ⟨sector, data⟩ :: rest }).l1Touch sector
  if c1.l1.length ≤ 16 then c1
  else
    let inSet := (linesOf c1.l1).filter fun l => Config.l1Set l % 256 = Config.l1Set (sector / 2) % 256
    match inSet.drop 16 with
    | [] => c1
    | l :: _ => c1.l1Drop (· / 2 = l)

/-- Replace bytes within a sector's bytes. -/
def patch (data : List Byte) (off : Nat) (bs : List Byte) : List Byte :=
  data.take off ++ bs ++ data.drop (off + bs.length)

/-- Update a valid L1 sector of the storing core in place (R292). -/
def Core.l1Update (c : Core) (pa : Nat) (bs : List Byte) : Core :=
  { c with l1 := c.l1.map fun e => if e.sector = pa / 32 then { e with data := patch e.data (pa % 32) bs } else e }

end Sys2Proof.Machine
end

