-- ==== Sys2Proof/Machine/Translate.lean ====
section
/-! DEFINITION. Translation of virtual addresses: page tables, the TLBs and the walk cache (R277 to R283). -/

namespace Sys2Proof.Machine

open Sys2Proof

/-- The kinds of access that R281 tells apart; `ovld` is the directory read of R73, `code` its code read. -/
inductive Access where
  | load | store | atomic | ovld | code | fill | drain | gath
deriving DecidableEq, Repr

/-- ACC of a fault record (R288). -/
def Access.acc : Access → Nat
  | .load => 0
  | .store => 1
  | .atomic => 2
  | .ovld => 3
  | .code => 3
  | .fill => 4
  | .drain => 5
  | .gath => 6

/-- The access writes its page (reason 2 of R281). -/
def Access.writes : Access → Bool
  | .store => true
  | .atomic => true
  | .drain => true
  | .load => false
  | .ovld => false
  | .code => false
  | .fill => false
  | .gath => false

/-- Why a translation fails (R281): reason, and the level at which the walk stopped. -/
structure Miss where
  reason : Nat
  level : Nat
deriving DecidableEq, Repr

/-- The cause of a reason (R281). -/
def Miss.cause (m : Miss) : Nat := if m.reason = 7 ∨ m.reason = 0 ∨ m.reason = 1 then 0x08 else 0x09

/-- The lowest address bit that a level indexes (R279). -/
def levelShift (l : Nat) : Nat := 12 + 9 * l

/-- The index of an address in a table of a level (R279). -/
def levelIndex (va l : Nat) : Nat := if l = 4 then va / 2 ^ 48 % 4096 else va / 2 ^ levelShift l % 512

/-- The leaf or next-table step of one entry at a level, or reason 1 or 0 (R280, R281). -/
def entryOf (s : State) (e l : Nat) : Except Nat (Bool × Nat) :=
  let leaf := bitOf e 1
  let pa := 4096 * field e 51 12
  if !bitOf e 0 then .error 0
  else if field e 63 52 ≠ 0 ∨ field e 11 9 ≠ 0 ∨ bitOf e 6 = true ∨ bitOf e 2 = true then .error 1
  else if leaf then
    if l = 4 ∨ (bitOf e 3 = true ∧ bitOf e 4 = true) ∨ 2 ≤ field e 8 7 ∨ pa % 2 ^ levelShift l ≠ 0 then .error 1
    else .ok (true, pa)
  else if l = 0 ∨ bitOf e 3 = true ∨ bitOf e 4 = true ∨ bitOf e 5 = true ∨ field e 8 7 ≠ 0 then .error 1
  else if targetOf pa ≠ .device ∨ !s.backed pa then .error 1
  else .ok (false, pa)

/-- The walk from a table of a level down: the leaf, and the tables it went through (R279). -/
def State.walkFrom (s : State) (ctxid va : Nat) : Nat → Nat → List WalkEnt → Except Miss (TlbEnt × List WalkEnt)
  | 0, table, seen =>
    let e := s.peek64 (table + 8 * levelIndex va 0)
    match entryOf s e 0 with
    | .error r => .error ⟨r, 0⟩
    | .ok (_, pa) => .ok (⟨ctxid, 0, va / 2 ^ 12, pa, field e 8 7, bitOf e 5, bitOf e 4, bitOf e 3⟩, seen)
  | l + 1, table, seen =>
    let e := s.peek64 (table + 8 * levelIndex va (l + 1))
    match entryOf s e (l + 1) with
    | .error r => .error ⟨r, l + 1⟩
    | .ok (true, pa) =>
      .ok (⟨ctxid, l + 1, va / 2 ^ levelShift (l + 1), pa, field e 8 7, bitOf e 5, bitOf e 4, bitOf e 3⟩, seen)
    | .ok (false, pa) => s.walkFrom ctxid va l pa (seen ++ [⟨ctxid, l, va / 2 ^ levelShift (l + 1), pa⟩])

/-- An entry maps an address of a context. -/
def TlbEnt.maps (t : TlbEnt) (ctxid va : Nat) : Bool := t.ctxid = ctxid && t.vpn = va / 2 ^ levelShift t.level

/-- The lowest table that the walk cache holds for an address (R283). -/
def walkStart (c : Core) (ctxid va : Nat) : Option WalkEnt :=
  (List.range 4).findSome? fun l =>
    c.walkc.find? fun w => w.ctxid = ctxid && w.level = l && w.vpn = va / 2 ^ levelShift (l + 1)

/-- The walk of R279, started at the table of PTBR or at one that the walk cache holds. -/
def State.walk (s : State) (core ptbr ctxid va : Nat) : Except Miss (TlbEnt × List WalkEnt) :=
  match walkStart (s.core core) ctxid va with
  | some w => s.walkFrom ctxid va w.level w.table []
  | none =>
    let top := 32768 * field ptbr 51 15
    if targetOf top ≠ .device ∨ !s.backed top then .error ⟨1, 4⟩ else s.walkFrom ctxid va 4 top []

/-- The page-table entries that a walk reads (R279, R283). -/
def State.walkTrail (s : State) (va : Nat) : Nat → Nat → List Nat
  | 0, table => [table + 8 * levelIndex va 0]
  | l + 1, table =>
    let a := table + 8 * levelIndex va (l + 1)
    match entryOf s (s.peek64 a) (l + 1) with
    | .ok (false, pa) => a :: s.walkTrail va l pa
    | .ok (true, _) => [a]
    | .error _ => [a]

/-- The page-table entries that the walk of a core reads, one for each level that its walk cache does not hold (R283). -/
def State.walkReads (s : State) (core ptbr ctxid va : Nat) : List Nat :=
  match walkStart (s.core core) ctxid va with
  | some w => s.walkTrail va w.level w.table
  | none =>
    let top := 32768 * field ptbr 51 15
    if targetOf top ≠ .device ∨ !s.backed top then [] else s.walkTrail va 4 top

/-- Keep the newest `n` entries, without a second copy of the first (replacement is first in, first out: log entry 14). -/
def keepNew {α : Type} [DecidableEq α] (n : Nat) (x : α) (l : List α) : List α := (x :: l.filter (· ≠ x)).take n

/-- The permission tests of R281 on a leaf, in the order of its table. -/
def leafTest (s : State) (t : TlbEnt) (sup : Bool) (a : Access) (pa : Nat) : Option Nat :=
  if !sup ∧ !t.user then some 4
  else if a.writes ∧ !t.write then some 2
  else if a = .code ∧ !t.exec then some 3
  else if !s.backed pa then some 5
  else none

/-- What a translation gives: the physical address, the memory type (R280), the cycles that it takes beyond a micro-TLB hit (R283), and
the level of the leaf (R279). -/
structure Mapped where
  pa : Nat
  mt : Nat
  late : Nat
  level : Nat
deriving DecidableEq, Repr

/-- Translate an address for an access of a context on a core: the state with the TLBs as the access leaves them, and the
outcome (R277 to R283). `quarter` names the micro-TLB used, if one is. A walk reads its entries through the home slices. -/
def State.translate (s : State) (core : Nat) (quarter : Option Nat) (ptbr ctxid : Nat) (sup : Bool) (a : Access) (va : Nat) :
    State × Except Miss Mapped :=
  if 2 ^ 60 ≤ va then (s, .error ⟨7, Config.unstated s.tick % 5⟩)
  else
    let c := s.core core
    let near := match quarter with
      | some q => ((c.utlb.find? q).getD []).find? fun t => t.maps ctxid va
      | none => none
    let held := match near with
      | some t => some t
      | none => c.tlb.find? fun t => t.maps ctxid va
    let found : Except Miss (TlbEnt × List WalkEnt) := match held with
      | some t => .ok (t, [])
      | none => s.walk core ptbr ctxid va
    let reads := readAll core (if held.isSome then [] else s.walkReads core ptbr ctxid va) s
    let s1 := reads.1
    match found with
    | .error m => (s1, .error m)
    | .ok (t, tables) =>
      let pa := t.pa + va % 2 ^ levelShift t.level
      match leafTest s t sup a pa with
      | some r =>
        (s1.modCore core fun c =>
          { c with tlb := c.tlb.filter fun t => !t.maps ctxid va,
                   utlb := c.utlb.map fun p => (p.1, p.2.filter fun t => !t.maps ctxid va) }, .error ⟨r, t.level⟩)
      | none =>
        (s1.modCore core fun c =>
          { c with tlb := if held.isSome then c.tlb else keepNew 2048 t c.tlb,
                   utlb := match quarter with
                     | some q => if near.isSome then c.utlb else c.utlb.put q (keepNew 32 t ((c.utlb.find? q).getD []))
                     | none => c.utlb,
                   walkc := tables.foldl (fun l w => keepNew 64 w l) c.walkc }, .ok ⟨pa, t.mt, if near.isSome then 0 else if held.isSome then 6 else reads.2, t.level⟩)

/-- Discard the translations of a core for which a condition holds (R415, R282). -/
def Core.dropTlb (c : Core) (p : TlbEnt → Bool) (w : WalkEnt → Bool) : Core :=
  { c with tlb := c.tlb.filter fun t => !p t, utlb := c.utlb.map fun q => (q.1, q.2.filter fun t => !p t),
           walkc := c.walkc.filter fun e => !w e }

/-- The first byte and the length that an entry maps. -/
def TlbEnt.span (t : TlbEnt) : Nat × Nat := (t.vpn * 2 ^ levelShift t.level, 2 ^ levelShift t.level)

end Sys2Proof.Machine
end

