-- ==== Sys2Proof/Machine/Operands.lean ====
section
/-! DEFINITION. The agenda, the registers and every operand form: the values that R44 selects, destinations (R126), results
(R42, R47), and the checks of R56. -/

namespace Sys2Proof.Machine

open Sys2Proof

/-- What a step answers. -/
abbrev Out := Host.Outcome State Fault Refusal

/-! ### Tables -/

/-- Change a troupe, if it exists. -/
def State.modTroupe (s : State) (t : Nat) (f : Troupe → Troupe) : State := { s with troupes := s.troupes.modify t f }

/-- Change an ensemble, if it exists. -/
def State.modEns (s : State) (e : Nat) (f : Ensemble → Ensemble) : State := { s with ensembles := s.ensembles.modify e f }

/-- A context; one that does not exist has nothing. -/
def State.ctx (s : State) (c : Nat) : Context :=
  (s.contexts.find? c).getD
    { part := 0, fmt := [], cues := [], arms := [], ptbr := 0, ctxid := 0, odir := 0, tvec := 0, savebase := 0, saven := 0,
      saveva := 0, grbase := 0, grquota := 0, ckctl := 0x01400000, ckbase := 0, cklen := 0, ckreg := 0, pkbase := 0, pklen := 0,
      savecost := 0, energy := 0, blocks := [], preload := [], late := [], minor := 0, launched := 0, saves := 0, touched := [], ckLeft := 0, stopped := false, terminated := false }

/-- Change a context, if it exists. -/
def State.modCtx (s : State) (c : Nat) (f : Context → Context) : State := { s with contexts := s.contexts.modify c f }

/-- The value of a system register that is held per context (R282, R355, R383, R385, R404). -/
def Context.reg (c : Context) (n : Nat) : DWord :=
  match n with
  | 0x03 => c.savecost
  | 0x40 => c.ptbr
  | 0x41 => c.ctxid.zeroExtend 64
  | 0x42 => c.odir
  | 0x43 => c.grbase
  | 0x44 => c.grquota.zeroExtend 64
  | 0x45 => c.tvec.zeroExtend 64
  | 0x46 => c.savebase
  | 0x47 => c.saven.zeroExtend 64
  | 0x48 => c.saveva
  | 0x4A => c.ckctl.zeroExtend 64
  | 0x4B => c.ckbase
  | 0x4C => c.cklen.zeroExtend 64
  | 0x4D => c.ckreg
  | 0x4E => c.pkbase
  | 0x4F => c.pklen.zeroExtend 64
  | _ => 0

/-- A 64-bit value with every bit outside `hi:lo` zero (R6: reserved bits). -/
def keepBits (v : DWord) (hi lo : Nat) : DWord := BitVec.ofNat 64 (bvField v hi lo * 2 ^ lo)

/-- Write a system register that is held per context: each field as its layout says (R282, R355, R385, R404). -/
def Context.setReg (c : Context) (n : Nat) (v : DWord) : Context :=
  let low := BitVec.ofNat 32 v.toNat
  match n with
  | 0x40 => { c with ptbr := keepBits v 51 15 }
  | 0x41 => { c with ctxid := low &&& 0xFFFFF#32 }
  | 0x42 => { c with odir := keepBits v 59 16 }
  | 0x43 => { c with grbase := keepBits v 51 6 }
  | 0x44 => { c with grquota := (c.grquota &&& 0xFFFF0000#32) ||| BitVec.ofNat 32 (min (bvField v 15 0) 62463) }
  | 0x45 => { c with tvec := low &&& 0x0FFFFFFC#32 }
  | 0x46 => { c with savebase := keepBits v 51 16 }
  | 0x47 => { c with saven := BitVec.ofNat 32 (min (bvField v 19 0) 524288) }
  | 0x48 => { c with saveva := keepBits v 59 16 }
  | 0x4A =>
    let i := bvField v 24 20
    { c with ckctl := BitVec.ofNat 32 (bvField v 31 31 * 2 ^ 31 + (if 20 ≤ i then i else 20) * 2 ^ 20) }
  | 0x4B => { c with ckbase := keepBits v 51 20 }
  | 0x4C => { c with cklen := low }
  | 0x4D => { c with ckreg := keepBits v 59 0 }
  | 0x4E => { c with pkbase := keepBits v 51 20 }
  | 0x4F => { c with pklen := low }
  | _ => c

/-- A context's registers as a core sees them (R383): writes made on other cores that have not reached it are undone, the newest
first. -/
def Context.seen (c : Context) (core now : Nat) : Context :=
  c.late.foldr (fun w c => if w.1 = core ∧ now < w.2.2.2 then c.setReg w.2.1 w.2.2.1 else c) c

/-- A context as a core sees it, if it exists. -/
def State.ctxSeen (s : State) (core c : Nat) : Option Context := (s.contexts.find? c).map fun x => x.seen core s.now

/-- A die; one that nothing has used yet is empty. -/
def State.die (s : State) (d : Nat) : Die := (s.dies.find? d).getD 
    { reports := [], dropped := 0, fqcfg := 6, fqhead := 0, fqtail := 0, frstat := 0, fseq := 0, groups := [], records := [], ckhold := 0,
      lastGreen := 0 }

/-- Change a die. -/
def State.modDie (s : State) (d : Nat) (f : Die → Die) : State := { s with dies := s.dies.put d (f (s.die d)) }

/-- A stage manager has an event to report: it waits, or it is dropped and counted when 256 wait (R442). -/
def State.report (s : State) (d : Nat) (r : Report) : State :=
  (s.at_ (s.now + Config.pathCycles s.tick) (.eventWrite d)).modDie d fun x => if x.reports.length < 256 then { x with reports := x.reports ++ [r] } else { x with dropped := x.dropped + 1 }

/-- The die of a core key (R288: dies of 96 cores). -/
def dieOf (core : Nat) : Nat := core / 96

/-! ### Registers -/

/-- The place of a register in a troupe's file, another for each. -/
def Reg.key : Reg → Nat
  | .v n => 11 * n
  | .o n => 11 * n + 1
  | .so n => 11 * n + 2
  | .latI => 3
  | .latV => 4
  | .x n => 11 * n + 5
  | .p n => 11 * n + 6
  | .gen => 7
  | .s n => 11 * n + 8
  | .ss n => 11 * n + 9
  | .g n => 11 * n + 10

/-- A register that is held per lane. -/
def Reg.perLane : Reg → Bool
  | .s _ => false
  | .ss _ => false
  | .g _ => false
  | .v _ => true
  | .o _ => true
  | .so _ => true
  | .latI => true
  | .latV => true
  | .x _ => true
  | .p _ => true
  | .gen => true

/-- The value of a lane; a lane beyond the list holds 0. -/
def Vec.at_ (v : Vec) (i : Nat) : Word := v.getD i 0

/-- Replace the values of some lanes. -/
def Vec.update (v : Vec) (lanes : Mask) (f : Nat → Word) : Vec :=
  (List.range 128).map fun i => if lanes.getLsbD i then f i else v.at_ i

/-- A vector register of a troupe. -/
def Troupe.vec (t : Troupe) (r : Reg) : Vec := (t.file.find? r.key).getD []

/-- The fields of an instruction, whichever layout its words have: a base word's are those of R38. `ok` says that its words
pass R55; `words` are the words themselves. -/
structure Ins where
  op : Nat
  ilen : Nat
  stall : Nat
  yields : Bool
  pneg : Bool
  pred : Nat
  scope : Scope
  sat : Bool
  rnd : RMode
  fmt : Nat
  dst : Operand
  sa : Operand
  sb : Operand
  sc : Operand
  mod : Nat
  disp : Int
  lit : Nat
  tgt : Nat
  aux : Nat
  si : Operand
  ok : Bool
  words : List Nat
deriving DecidableEq, Repr

/-- The fields of layout X. -/
def insOfX (op : Nat) (f : X) (ilen : Nat) (ok : Bool) (words : List Nat) : Ins :=
  { op := op, ilen := ilen, stall := f.w0.head.stall.toNat, yields := f.w0.head.yield, pneg := f.w0.pneg,
    pred := f.w0.pred.toNat, scope := f.w0.scope, sat := f.w0.sat, rnd := f.w0.rnd, fmt := f.w0.fmt.toNat, dst := f.dst,
    sa := f.sa, sb := f.sb, sc := f.sc, mod := f.mod.toNat, disp := f.disp.toInt, lit := (f.lit.getD 0).toNat, tgt := 0,
    aux := 0, si := .v 0, ok := ok, words := words }

/-- The fields of layout XT. -/
def insOfXT (op : Nat) (f : XT) (ilen : Nat) (ok : Bool) (words : List Nat) : Ins :=
  { op := op, ilen := ilen, stall := f.w0.head.stall.toNat, yields := f.w0.head.yield, pneg := f.w0.pneg,
    pred := f.w0.pred.toNat, scope := f.w0.scope, sat := f.w0.sat, rnd := f.w0.rnd, fmt := f.w0.fmt.toNat, dst := .v 0,
    sa := .v 0, sb := .v 0, sc := .v 0, mod := f.mod.toNat, disp := 0, lit := (f.lit.getD 0).toNat, tgt := f.tgt.toNat,
    aux := f.aux.toNat, si := f.si, ok := ok, words := words }

/-- An extended form of layout X. -/
def insX (op : Nat) (f : X) : Ins := insOfX op f (if f.lit.isSome then 20 else 12) (xOk op f) (encodeForm op (.x f))

/-- An extended form of layout XT. -/
def insXT (op : Nat) (f : XT) : Ins := insOfXT op f (if f.lit.isSome then 20 else 12) (xtOk op f) (encodeForm op (.xt f))

/-- A base word of layout B3, as R38 expands it. -/
def insB3 (op : Nat) (f : B3) : Ins :=
  insOfX op (f.toX op) (if f.lit.isSome then 12 else 4) (b3Ok op f) (encodeForm op (.b3 f))

/-- A base movi, as R38 expands it. -/
def insBI (f : BI) : Ins := insOfX 0x21 f.toX 4 (biOk f) (encodeForm 0x21 (.bi f))

/-- A base bra or call, as R38 expands it. -/
def insBT (op : Nat) (f : BT) : Ins := insOfXT op f.toXT 4 (xtOk op f.toXT) (encodeForm op (.bt f))

/-- The fields that an instruction of an opcode and a form has. -/
def insOf (op : Nat) : Form → Ins
  | .b3 f => insB3 op f
  | .bi f => insBI f
  | .bt f => insBT op f
  | .x f => insX op f
  | .xt f => insXT op f

/-- The row of the encoding table that an instruction of layout X follows. -/
def Ins.row (n : Ins) : Row := (rowOf n.op n.mod).getD {}

/-- The split that issues, with the copies of the tables' entries that its instruction reads and writes. -/
structure Work where
  s : State
  tid : Nat
  ent : Nat
  T : Troupe
  S : Split
  E : Ensemble
  /-- the active lanes (R9) -/
  act : Mask

/-- Put the entries back. -/
def Work.commit (w : Work) : State :=
  { w.s with troupes := w.s.troupes.put w.tid { w.T with splits := w.T.splits.put w.ent w.S },
             ensembles := w.s.ensembles.put w.T.ens w.E }

/-- The troupe runs at supervisor level (R382). -/
def Troupe.sup (t : Troupe) : Bool := t.tstat.getLsbD 16

/-- The register that an s operand names at the troupe's level (R382). -/
def Troupe.sReg (t : Troupe) (n : Nat) : Reg := if t.sup ∧ n < 8 then .ss n else .s n

/-- The register that an o operand names at the troupe's level (R382). -/
def Troupe.oReg (t : Troupe) (n : Nat) : Reg := if t.sup then .so n else .o n

/-- The value a register holds now, every write of the run included; p7 reads 1 (R131). -/
def Work.now (w : Work) (r : Reg) (i : Nat) : Word :=
  match r with
  | .s n => w.S.scal.get n
  | .ss n => w.T.ss.get n
  | .g n => w.E.g.get n
  | .p 7 => 1#32
  | r => (w.T.vec r).at_ i

/-- The fixed latency D of a result of a pipe, read through a register (R42): latches and predicates at the latch latency. -/
def latency (vector : Bool) (r : Reg) : Nat :=
  match r with
  | .latI => if vector then 6 else 4
  | .latV => if vector then 6 else 4
  | .p _ => if vector then 6 else 4
  | _ => if vector then 8 else 6

/-- The latch of a pipe. -/
def latchOf (vector : Bool) : Reg := if vector then .latV else .latI

/-- What a register held in a lane before an entry's instruction wrote it there; none if that instruction is no writer of it
(R44). -/
def Shadow.prior (e : Shadow) (r : Reg) (i : Nat) : Option Word :=
  match e.dsts.find? fun d => d.reg = r && (!r.perLane || d.lanes.getLsbD i) with
  | some d => some (d.old.at_ (if r.perLane then i else 0))
  | none => if e.latch && r = latchOf e.vector && e.lanes.getLsbD i then some (e.latOld.at_ i) else none

/-- The search of R44, newest writer first: pass over writers that the distance does not cover. -/
def search (dist : Nat) (r : Reg) (i : Nat) : Word → List Shadow → Word
  | v, [] => v
  | v, e :: t =>
    match e.prior r i with
    | none => search dist r i v t
    | some old => if dist - e.stamp < latency e.vector r then search dist r i old t else v

/-- The value of a g register for an ordinary read (R130): own writes by the search of R44, others' once they have landed. -/
def searchG (tid uid run dist : Nat) (n : Nat) : Word → List GWrite → Word
  | v, [] => v
  | v, e :: t =>
    if e.reg ≠ n then searchG tid uid run dist n v t
    else if (if e.tid = tid ∧ e.uid = uid then e.run ≠ run || 6 ≤ dist - e.stamp else e.landed) then v
    else searchG tid uid run dist n e.prior t

/-- The value that an instruction of the split reads from a register in a lane (R44, R130). -/
def Work.read (w : Work) (r : Reg) (i : Nat) : Word :=
  match r with
  | .g n => searchG w.tid w.S.uid w.S.run w.S.dist n (w.E.g.get n) w.E.glog
  | .p 7 => 1#32
  | r => search w.S.dist r i (w.now r i) w.S.shadow

/-- The register that an indexed operand names in a lane (R122). -/
def Work.idx (w : Work) (x : BitVec 2) (k : BitVec 5) (i : Nat) : Nat := (w.read (.x x.toNat) i).toNat + k.toNat

/-- The value of a 32-bit source in a lane (R125); `k` counts registers on from the first of a group. `vector` names the pipe
whose latch L is. -/
def Work.src (w : Work) (vector : Bool) (n : Ins) (o : Operand) (k i : Nat) : Word :=
  match o with
  | .v a => w.read (.v (a.toNat + k)) i
  | .o a => w.read (w.T.oReg a.toNat) i
  | .latch => w.read (latchOf vector) i
  | .latchX => w.read (latchOf !vector) i
  | .s a => w.read (w.T.sReg (a.toNat + k)) i
  | .g a => w.read (.g a.toNat) i
  | .x a => w.read (.x a.toNat) i
  | .p a => w.read (.p a.toNat) i
  | .lit => BitVec.ofNat 32 (if k = 0 then n.lit else n.lit / 4294967296)
  | .zero => 0#32
  | .lane => BitVec.ofNat 32 i
  | .troupe => BitVec.ofNat 32 w.T.num
  | .idx a b => w.read (.v (w.idx a b i + k)) i

/-- The value of a 64-bit source in a lane: a pair, or the literal, or zero (R118); another source is read as 32 bits. -/
def Work.src64 (w : Work) (vector : Bool) (n : Ins) (o : Operand) (i : Nat) : Nat :=
  (w.src vector n o 0 i).toNat
  + 4294967296 * (match o with
    | .v _ => (w.src vector n o 1 i).toNat
    | .s _ => (w.src vector n o 1 i).toNat
    | .idx _ _ => (w.src vector n o 1 i).toNat
    | .lit => n.lit / 4294967296
    | .o _ => 0
    | .latch => 0
    | .latchX => 0
    | .g _ => 0
    | .x _ => 0
    | .p _ => 0
    | .zero => 0
    | .lane => 0
    | .troupe => 0)

/-- The registers, each with its lanes, that the `k`-th register of a destination names (R126). Nothing is named by the zero
code, by L, whose latch is written with every result, and by p7, which discards. -/
def Work.dests (w : Work) (o : Operand) (k : Nat) (lanes : Mask) : List (Reg × Mask) :=
  match o with
  | .v a => [(.v (a.toNat + k), lanes)]
  | .o a => [(w.T.oReg a.toNat, lanes)]
  | .s a => if lanes = 0 then [] else [(w.T.sReg (a.toNat + k), lanes)]
  | .x a => [(.x a.toNat, lanes)]
  | .p a => if a = 7 then [] else [(.p a.toNat, lanes)]
  | .g a => if lanes = 0 then [] else [(.g a.toNat, lanes)]
  | .idx a b =>
    (distinct ((lanesOf lanes).map fun i => w.idx a b i)).map fun j =>
      (Reg.v (j + k), maskFilter lanes fun i => w.idx a b i = j)
  | .latch => []
  | .latchX => []
  | .lit => []
  | .zero => []
  | .lane => []
  | .troupe => []

/-- Set bit N of WR in the top frame: the split has written sN (R84). -/
def Split.wrote (sp : Split) (n : Nat) : Split :=
  match sp.frames.reverse with
  | [] => sp
  | f :: t => { sp with frames := (({ f with wr := f.wr ||| (1#64 <<< n) } :: t).reverse) }

/-- Write a register: its lanes, or once with the value of the lowest lane (R126). -/
def Work.set (w : Work) (r : Reg) (lanes : Mask) (f : Nat → Word) : Work :=
  match r with
  | .s n => { w with S := { w.S with scal := w.S.scal.set n (f (lowLane lanes)) }.wrote n }
  | .ss n => { w with T := { w.T with ss := w.T.ss.set n (f (lowLane lanes)) } }
  | .g n => { w with E := { w.E with g := w.E.g.set n (f (lowLane lanes)) } }
  | .x n => { w with T := { w.T with file := w.T.file.put (Reg.x n).key ((w.T.vec (.x n)).update lanes fun i => f i &&& 0xFFFF#32) } }
  | .p n =>
    if n = 7 then w
    else { w with T := { w.T with file := w.T.file.put (Reg.p n).key ((w.T.vec (.p n)).update lanes fun i => f i &&& 1#32) } }
  | r => { w with T := { w.T with file := w.T.file.put r.key ((w.T.vec r).update lanes f) } }

/-- What a register holds in some lanes now, to be kept as a prior (R46). -/
def Work.keep (w : Work) (r : Reg) (lanes : Mask) : Prior :=
  { reg := r, lanes := lanes, old := if r.perLane then (List.range 128).map fun i => w.now r i else [w.now r 0] }

/-- Raise flags of TSTAT (R173, R209). -/
def Work.raise (w : Work) (f : Word) : Work := { w with T := { w.T with tstat := w.T.tstat ||| f } }

/-- A fixed-latency result (R42): each `outs` register takes its values, the pipe's latch the value `lat` in the active lanes,
and the split keeps what they held (R46). The registers hold the new values at once: which value an instruction reads is
decided by encoded distance (R44), and the landing shows only where an instruction waits for it (log entry 15). -/
def Work.fixed (w : Work) (vector latch : Bool) (code glen : Nat) (outs : List (Reg × Mask × (Nat → Word)))
    (lat : Nat → Word) : Work :=
  let e : Shadow :=
    { stamp := w.S.dist, vector := vector, latch := latch, lanes := w.act,
      latOld := (List.range 128).map fun i => w.now (latchOf vector) i,
      dsts := outs.map fun o => w.keep o.1 o.2.1, code := code, glen := glen, later := [] }
  let w1 := outs.foldl (fun w o => w.set o.1 o.2.1 o.2.2) w
  let w2 := if latch then w1.set (latchOf vector) w.act lat else w1
  let id := w.s.tick
  let due := w.s.now + (if vector then 8 else 6)
  { w2 with S := { w2.S with shadow := e :: w2.S.shadow, landings := w2.S.landings ++ [⟨id, due⟩] },
            s := (w2.s.bump).at_ due (.fixedLatencyWrite w.tid id) }

/-- What a result of `len` registers writes: the destination operand's registers, lanes and values (R126). -/
def Work.outsOf (w : Work) (n : Ins) (len : Nat) (lanes : Mask) (f : Nat → Nat → Word) : List (Reg × Mask × (Nat → Word)) :=
  (List.range len).flatMap fun k => (w.dests n.dst k lanes).map fun d => (d.1, d.2, f k)

/-- A fixed-latency result of `len` registers written to the destination operand; the latch takes the first (R124). -/
def Work.result (w : Work) (vector latch : Bool) (n : Ins) (len : Nat) (f : Nat → Nat → Word) : Work :=
  w.fixed vector latch n.dst.longCode len (w.outsOf n len w.act f) (f 0)

/-- A result that the scoreboard will hold: its registers, lanes and values. -/
def Work.pendOf (w : Work) (load : Bool) (sectors : Nat) (flags : Word) (outs : List (Reg × Mask × (Nat → Word))) : Pend :=
  { id := w.s.tick, owner := w.S.uid, flags := flags, load := load, sectors := sectors, kept := false,
    outs := outs.map fun o =>
      { reg := o.1, lanes := o.2.1,
        old := if o.1.perLane then (List.range 128).map o.2.2 else [o.2.2 (lowLane o.2.1)] } }

/-- Put a result on the scoreboard (R47); its number is the state's counter before. -/
def Work.holdFor (w : Work) (p : Pend) : Work := { w with T := { w.T with pend := w.T.pend ++ [p] }, s := w.s.bump }

/-- A result that the scoreboard holds until an event writes it (R47). -/
def Work.pending (w : Work) (cycles : Nat) (flags : Word) (outs : List (Reg × Mask × (Nat → Word))) : Work :=
  let w1 := w.holdFor (w.pendOf false 0 flags outs)
  { w1 with s := w1.s.at_ (w.s.now + cycles) (.scoreboardResultWrite w.tid w.s.tick) }

/-- A scoreboard result of `len` registers for the destination operand. -/
def Work.later (w : Work) (cycles : Nat) (flags : Word) (n : Ins) (len : Nat) (f : Nat → Nat → Word) : Work :=
  w.pending cycles flags (w.outsOf n len w.act f)

/-- Change every split of a troupe, resident or on the split stack. -/
def Troupe.modAll (t : Troupe) (f : Split → Split) : Troupe :=
  { t with splits := t.splits.map fun e => (e.1, f e.2), stack := t.stack.map f, coming := t.coming.map fun e => (e.1, f e.2) }

/-- Change the split with a name, resident or on the split stack. -/
def Troupe.modSplit (t : Troupe) (uid : Nat) (f : Split → Split) : Troupe := t.modAll fun p => if p.uid = uid then f p else p

/-- The bits that a register keeps of a value: 16 of an index register, one of a predicate (R116, R126). -/
def Reg.narrow : Reg → Word → Word
  | .x _, a => a &&& 0xFFFF#32
  | .p _, a => a &&& 1#32
  | _, a => a

/-- A scoreboard result has landed in a register that an entry's instruction wrote before: the result's instruction is the later
writer (R44), so what a reader finds before the entry's write is the result, and the entry is no latest writer (R45). -/
def Shadow.landed (e : Shadow) (o : Prior) : Shadow :=
  { e with
    later := o.reg :: e.later
    dsts := e.dsts.map fun d =>
      if d.reg ≠ o.reg then d
      else if o.reg.perLane then { d with old := d.old.update o.lanes fun i => o.reg.narrow (o.old.at_ i) }
      else { d with old := o.old } }

/-- The splits whose registers a held result writes: those with a lane of it, or its owner for a scalar (R88). -/
def Split.receives (p : Split) (owner : Nat) (o : Prior) : Bool :=
  match o.reg with
  | .s _ => p.uid = owner
  | r => !r.perLane || p.mask &&& o.lanes != 0

/-- The shadow lists after a scoreboard result has landed (R44), the list that a trap entry keeps among them. -/
def Troupe.noteLanded (t : Troupe) (owner : Nat) (o : Prior) : Troupe :=
  { t.modAll fun p => if p.receives owner o then { p with shadow := p.shadow.map (·.landed o) } else p with
    saved := t.saved.map fun v => if o.reg.perLane || v.uid = owner then { v with shadow := v.shadow.map (·.landed o) } else v }

/-- Write one register of a held result: a vector register in its lanes, a scalar in the split that owns it, resident or
spilled (R88). -/
def Troupe.setOut (t : Troupe) (owner : Nat) (o : Prior) : Troupe :=
  match o.reg with
  | .s n => t.modSplit owner fun p => { p with scal := p.scal.set n (o.old.at_ 0) }.wrote n
  | .ss n => { t with ss := t.ss.set n (o.old.at_ 0) }
  | .g _ => t
  | .x n => { t with file := t.file.put (Reg.x n).key ((t.vec (.x n)).update o.lanes fun i => o.old.at_ i &&& 0xFFFF#32) }
  | .p n =>
    if n = 7 then t
    else { t with file := t.file.put (Reg.p n).key ((t.vec (.p n)).update o.lanes fun i => o.old.at_ i &&& 1#32) }
  | r => { t with file := t.file.put r.key ((t.vec r).update o.lanes fun i => o.old.at_ i) }

/-- Write a held result and release its hold (R47), merging its flags (R209). -/
def Troupe.writePend (t : Troupe) (id : Nat) : Troupe :=
  match t.pend.find? fun p => p.id = id with
  | none => t
  | some p =>
    let t1 := p.outs.foldl (fun t o => (t.setOut p.owner o).noteLanded p.owner o) t
    { t1 with tstat := t1.tstat ||| p.flags, pend := t1.pend.filter fun p => p.id ≠ id }

/-- Give a held result of a pair the value it will write, the same in every lane: the low word first (R118). -/
def Troupe.fillPair (t : Troupe) (id : Nat) (v : DWord) : Troupe :=
  { t with pend := t.pend.map fun p =>
      if p.id = id then
        { p with outs := p.outs.mapIdx fun k o =>
            { o with old := o.old.map fun _ => BitVec.ofNat 32 (v.toNat / 2 ^ (32 * k)) } }
      else p }

/-- Give a held result the value it will write, the same in every lane. -/
def Troupe.fillPend (t : Troupe) (id : Nat) (v : Word) : Troupe :=
  { t with pend := t.pend.map fun p =>
      if p.id = id then { p with outs := p.outs.map fun o => { o with old := o.old.map fun _ => v } } else p }

/-! ### The checks of R56 -/

/-- What a trap records (R386, R389). -/
structure TrapInfo where
  cause : Nat
  info : Nat := 0
  addr : Nat := 0
  done : Mask := 0
  action : Nat := 0
  sysc : Bool := false
deriving DecidableEq, Repr

/-- The format entry that a core's copy holds for a context (R158). -/
def State.fmtEntry (s : State) (core ctx n : Nat) : DWord :=
  if n < 16 then builtin n else ((((s.core core).fts.find? ctx).getD [])).get n

/-- The format entries that a troupe's instructions read (R158): of an entry that another troupe has changed in this cycle, what it
held before (R160). -/
def State.lookFor (s : State) (core ctx tid n : Nat) : DWord :=
  match (s.core core).fresh.find? fun f => f.ctx = ctx && f.entry = n && f.cycle = s.now && f.tid ≠ tid with
  | some f => f.old
  | none => s.fmtEntry core ctx n

/-- The format entries that the split's instructions read. -/
def Work.look (w : Work) (n : Nat) : DWord := w.s.lookFor w.E.core w.E.ctx w.tid n

/-- The descriptor of an entry. -/
def Work.fmt (w : Work) (n : Nat) : Fmt := fmtOf (w.look n)

/-- The lengths of the packed and unpacked groups of a packed entry (R185). For an entry that is not valid the spec gives none; the
checks that come before Trap(0x06) then use what its fields give here (log entry 93). -/
def packLens (f : Fmt) : Nat × Nat :=
  if f.tx then ((16 + 32 * f.width + 31) / 32, 32)
  else if f.scaled then ((f.blockLen * f.width + 31) / 32 + 1, f.blockLen)
  else
    let n := 32 / Nat.gcd f.width 32
    (n * f.width / 32, n)

/-- The group lengths of DST, SA, SB and SC (R40). -/
def Work.lens (w : Work) (n : Ins) : Nat × Nat × Nat × Nat :=
  let r := n.row
  if n.op = 0x56 then ((packLens (w.fmt n.fmt)).1, (packLens (w.fmt n.fmt)).2, 1, 1)
  else if n.op = 0x57 then ((packLens (w.fmt (n.mod % 64))).2, (packLens (w.fmt (n.mod % 64))).1, 1, 1)
  else (r.nd, r.na, r.nb, r.nc)

/-- A conversion between plain entries: SB is then no source (R179). -/
def Work.plainCvt (w : Work) (n : Ins) : Bool := (n.op = 0x54 || n.op = 0x55) && (w.fmt n.fmt).plain && (w.fmt (n.mod % 64)).plain

/-- The operands an instruction uses, with their group lengths: destinations first (R40). -/
def Work.operands (w : Work) (n : Ins) : List (Operand × Nat) × List (Operand × Nat) :=
  if 2 ≤ n.op ∧ n.op ≤ 7 then ([], if n.op = 4 ∨ n.op = 6 then [(n.si, 1)] else [])
  else
    let r := n.row
    let l := w.lens n
    (if r.dst = [] then [] else [(n.dst, l.1)],
     (if r.sa = [] then [] else [(n.sa, l.2.1)]) ++ (if r.sb = [] ∨ w.plainCvt n = true then [] else [(n.sb, l.2.2.1)])
       ++ (if r.sc = [] then [] else [(n.sc, l.2.2.2)]))

/-- The operands that an instruction uses with no operand field for them: the link register of the calls and of ret (R102 to R104), the
out predicate of iaddc and isubb (R139), and the predicates of pmov (R156); destinations first. -/
def Ins.implied (n : Ins) : List (Operand × Nat) × List (Operand × Nat) :=
  let preds (l : List Nat) : List (Operand × Nat) := l.map fun k => (.p (BitVec.ofNat 3 k), 1)
  match n.op with
  | 0x05 => ([(.o 7, 1)], [])
  | 0x06 => ([(.o 7, 1)], [])
  | 0x07 => ([(.o 7, 1)], [])
  | 0x08 => ([], [(.o 7, 1)])
  | 0x24 => (preds [n.mod % 8], [])
  | 0x25 => (preds [n.mod % 8], [])
  | 0x4D => if n.mod % 2 = 0 then ([], preds (List.range 7)) else (preds ((List.range 7).filter fun k => bitOf n.mod (k + 1)), [])
  | _ => ([], [])

/-- The pipe that executes an opcode is the vector pipe, or no vector pipe at all, for which L is the vector latch (R30). -/
def usesVector (op : Nat) : Bool := !((0x10 ≤ op && op ≤ 0x15) || (0x20 ≤ op && op ≤ 0x4D))

/-- The registers that an operand names in the split's lanes, from a group of `len`. -/
def Work.regsOf (w : Work) (n : Ins) (o : Operand) (len : Nat) : List Reg :=
  match o with
  | .v a => (List.range len).map fun k => Reg.v (a.toNat + k)
  | .o a => [w.T.oReg a.toNat]
  | .latch => [latchOf (usesVector n.op)]
  | .latchX => [latchOf !(usesVector n.op)]
  | .s a => (List.range len).map fun k => w.T.sReg (a.toNat + k)
  | .g a => [.g a.toNat]
  | .x a => [.x a.toNat]
  | .p a => if a = 7 then [] else [.p a.toNat]
  | .idx a b =>
    Reg.x a.toNat :: (distinct ((lanesOf w.S.mask).map fun i => w.idx a b i)).flatMap fun j =>
      (List.range len).map fun k => Reg.v (j + k)
  | .lit => []
  | .zero => []
  | .lane => []
  | .troupe => []

/-- A scoreboard result that is not yet written stands for a register of the split (R47). -/
def Work.busy (w : Work) (r : Reg) : Bool :=
  w.T.pend.any fun p => p.outs.any fun d =>
    d.reg = r && (match r with
      | .s _ => p.owner = w.S.uid
      | .ss _ => true
      | .g _ => true
      | _ => d.lanes &&& w.S.mask != 0)

/-- The predicate register that selects an instruction's lanes, if one is read (R34). -/
def Ins.predReg (n : Ins) : List Reg := if n.pred = 7 then [] else [.p n.pred]

/-- The scoreboard holds the instruction back: it reads or writes a register whose result is not yet written (R47). -/
def Work.held (w : Work) (n : Ins) : Bool :=
  let ops := w.operands n
  let more := n.implied
  (n.predReg ++ (ops.1 ++ ops.2 ++ (more.1 ++ more.2)).flatMap fun o => w.regsOf n o.1 o.2).any w.busy

/-- The lanes an instruction acts on (R9, R34): those of a re-issue where one is under way (R285, R391). brc reads its
predicate as a condition and acts on the whole split (R100). -/
def Work.active (w : Work) (n : Ins) : Mask :=
  match w.S.redo with
  | some m => m.1 &&& ~~~m.2 &&& w.S.mask
  | none =>
    if n.op = 0x03 ∨ (n.pred = 7 ∧ !n.pneg) then w.S.mask
    else maskFilter w.S.mask fun i => (w.read (.p n.pred) i = 1#32) != n.pneg

/-- Opcodes that a full bracket forbids (R94): the redirections, rejoin and full. -/
def bracketBans (op : Nat) : Bool := (2 ≤ op && op ≤ 9) || op = 0x0B || op = 0x0C

/-- The check of code 0x02 that needs no entry (R55, R94). -/
def Work.check02 (w : Work) (n : Ins) : Bool :=
  n.ok && !(w.S.infull && bracketBans n.op) && (w.S.infull || n.op != 0x0D)

/-- A group of a file that operands of different fields can share (R119): file, first register, length. -/
def groupOf (o : Operand) (len : Nat) : Option (Bool × Nat × Nat) :=
  match o with
  | .v a => some (true, a.toNat, len)
  | .s a => some (false, a.toNat, len)
  | .o _ => none
  | .latch => none
  | .latchX => none
  | .g _ => none
  | .x _ => none
  | .p _ => none
  | .lit => none
  | .zero => none
  | .lane => none
  | .troupe => none
  | .idx _ _ => none

/-- Two groups overlap as R119 forbids. Identical groups are allowed for a single destination and for lea, the one
instruction that its entry names element-wise; pack and unpack are not element-wise, whatever the length (R185). -/
def overlaps (op : Nat) (d s : Operand × Nat) : Bool :=
  match groupOf d.1 d.2, groupOf s.1 s.2 with
  | some (fd, ad, ld), some (fs, as', ls) =>
    fd = fs && ad < as' + ls && as' < ad + ld && !(ad = as' && ld = ls && (ld = 1 && op != 0x56 && op != 0x57 || op = 0x45))
  | _, _ => false

/-- The check of code 0x03 (R119). -/
def Work.check03 (w : Work) (n : Ins) : Option TrapInfo :=
  let ops := w.operands n
  match ops.1.head? with
  | none => none
  | some d =>
    match ops.2.find? (overlaps n.op d) with
    | some s => some { cause := 0x03, info := 1024 * d.1.longCode + s.1.longCode }
    | none => none

/-- The first register of an operand that lies outside the allocation or the bounds, and its lane or 0xFF (R40, R118, R122,
R127, R382). -/
def Work.outside (w : Work) (o : Operand) (len : Nat) : Option (Nat × Nat) :=
  match o with
  | .v a => if w.T.nregs < a.toNat + len then some (max a.toNat w.T.nregs, 0xFF) else none
  | .s a =>
    if w.T.sup then (if 64 < a.toNat + len then some (64, 0xFF) else none)
    else if w.T.nscal < a.toNat + len then some (max a.toNat w.T.nscal, 0xFF) else none
  | .idx a b =>
    let xb := (w.T.xb.getD a.toNat 0).toNat
    match (lanesOf w.act).find? fun i => w.idx a b i < xb % 65536 || xb / 65536 < w.idx a b i + len - 1 with
    | some i => some ((if w.idx a b i < xb % 65536 then w.idx a b i else max (w.idx a b i) (xb / 65536 + 1)) % 65536, i)
    | none => none
  | .o _ => none
  | .latch => none
  | .latchX => none
  | .g _ => none
  | .x _ => none
  | .p _ => none
  | .lit => none
  | .zero => none
  | .lane => none
  | .troupe => none

/-- The value that xset forms in a lane (R149). -/
def Work.xsetVal (w : Work) (n : Ins) (i : Nat) : Int :=
  (w.src false n n.sa 0 i).toInt * 2 ^ (n.mod % 4) + (w.src false n n.sb 0 i).toInt

/-- The bound checks of xset and xbnd, which raise the same code 0x04 (R149, R150). -/
def Work.boundCheck (w : Work) (n : Ins) : Option TrapInfo :=
  if n.op = 0x46 then
    match n.dst with
    | .x a =>
      let xb := (w.T.xb.getD a.toNat 0).toNat
      match (lanesOf w.act).find? fun i => w.xsetVal n i < (xb % 65536 : Nat) || ((xb / 65536 : Nat) : Int) < w.xsetVal n i with
      | some i => some { cause := 0x04, info := 65536 * (encodeInt (w.xsetVal n i) 16) + i }
      | none => none
    | _ => none
  else if n.op = 0x47 ∧ w.act ≠ 0 then
    let v := (w.src false n n.sa 0 (lowLane w.act)).toNat
    if v / 65536 < v % 65536 ∨ w.T.nregs ≤ v / 65536 then some { cause := 0x04, info := 65536 * (v / 65536) + lowLane w.act } else none
  else none

/-- The check of code 0x04 (R40, R122, R127, R149, R150). -/
def Work.check04 (w : Work) (n : Ins) : Option TrapInfo :=
  let ops := w.operands n
  match (ops.1 ++ ops.2).findSome? fun o => w.outside o.1 o.2 with
  | some (r, l) => some { cause := 0x04, info := 65536 * r + l }
  | none => w.boundCheck n

/-- The distance of the latest writer of a register in the run, when it is a fixed-latency one and the distance is below its D
(R45). -/
def Work.undersized (w : Work) (r : Reg) : Option Nat :=
  match w.S.shadow.find? fun e => (e.dsts.any fun d => d.reg = r) || (e.latch && r = latchOf e.vector) with
  | some e => if w.S.dist - e.stamp < latency e.vector r && !e.later.contains r then some (w.S.dist - e.stamp) else none
  | none => none

/-- The check of code 0x05 (R45). -/
def Work.check05 (w : Work) (n : Ins) : Option TrapInfo :=
  if !(w.T.tstat.getLsbD 8) then none
  else
    let srcs := (w.operands n).2 ++ n.implied.2 ++ (if n.pred = 7 then [] else [(Operand.p (BitVec.ofNat 3 n.pred), 1)])
    let dx := match n.dst with
      | .idx a b => if (w.operands n).1 = [] then [] else [(Operand.idx a b, 0)]
      | _ => []
    (srcs ++ dx).findSome? fun o => (w.regsOf n o.1 o.2).findSome? fun r =>
      (w.undersized r).map fun d => { cause := 0x05, info := 65536 * d + o.1.longCode }

/-- An entry is an integer entry of R132. -/
def intEntry (look : Nat → DWord) (n : Nat) : Bool :=
  fmtValid look n && (fmtOf (look n)).kind = 2 && (fmtOf (look n)).plain
  && ((fmtOf (look n)).width = 8 || (fmtOf (look n)).width = 16 || (fmtOf (look n)).width = 32)

/-- An entry is a vector float entry (R189). -/
def vfEntry (look : Nat → DWord) (n : Nat) : Bool :=
  let f := fmtOf (look n)
  fmtValid look n && f.kind = 1 && f.plain && (f.width = 4 || f.width = 8 || f.width = 16 || f.width = 32)

/-- The first entry an instruction names that is invalid or not allowed (R165). -/
def badEntry (look : Nat → DWord) (n : Ins) : Option Nat :=
  let need (c : Bool) (e : Nat) : Option Nat := if c then none else some e
  match n.op with
  | 0x13 => need (n.fmt ≤ 2) n.fmt
  | 0x24 => need (intEntry look n.fmt && (fmtOf (look n.fmt)).width = 32) n.fmt
  | 0x25 => need (intEntry look n.fmt && (fmtOf (look n.fmt)).width = 32) n.fmt
  | 0x28 => need (intEntry look n.fmt && (fmtOf (look n.fmt)).width = 32) n.fmt
  | 0x50 => need (16 ≤ n.fmt) n.fmt
  | 0x54 => if fmtValid look n.fmt then need (fmtValid look (n.mod % 64)) (n.mod % 64) else some n.fmt
  | 0x55 => if fmtValid look n.fmt then need (fmtValid look (n.mod % 64)) (n.mod % 64) else some n.fmt
  | 0x56 =>
    let g := fmtOf (look (n.mod % 64))
    if fmtValid look n.fmt then need (fmtValid look (n.mod % 64) && g.plain && 1 ≤ g.kind && g.kind ≤ 3) (n.mod % 64)
    else some n.fmt
  | 0x57 =>
    let g := fmtOf (look n.fmt)
    if fmtValid look n.fmt && g.plain && 1 ≤ g.kind && g.kind ≤ 3 then need (fmtValid look (n.mod % 64)) (n.mod % 64)
    else some n.fmt
  | 0x6C => need (vfEntry look n.fmt && (fmtOf (look n.fmt)).width ≤ 16) n.fmt
  | 0x89 => need (n.fmt ≤ 2) n.fmt
  | 0x8A => need (n.fmt ≤ 2) n.fmt
  | op =>
    if 0x22 ≤ op ∧ op ≤ 0x2F then need (intEntry look n.fmt) n.fmt
    else if 0x60 ≤ op ∧ op ≤ 0x6F then need (vfEntry look n.fmt) n.fmt
    else if 0x70 ≤ op ∧ op ≤ 0x76 then need (n.fmt ≤ 2) n.fmt
    else none

/-- The checks of codes 0x06 and, after it, of SB of cvt and cvtsr (R56, R179). -/
def Work.check06 (w : Work) (n : Ins) : Option TrapInfo :=
  match badEntry w.look n with
  | some e => some { cause := 0x06, info := e }
  | none =>
    if (n.op = 0x54 ∨ n.op = 0x55) ∧ (w.fmt n.fmt).plain ∧ (w.fmt (n.mod % 64)).plain ∧ n.sb ≠ .v 0 then
      some { cause := 0x02 }
    else none

/-- The check of code 0x14, after those of R56 (R59). -/
def Work.check14 (w : Work) (n : Ins) : Option TrapInfo :=
  if w.T.sup then none
  else if n.op = 0xC2 ∨ n.op = 0xC6 ∨ n.op = 0xC9 ∨ n.op = 0xCA then some { cause := 0x14 }
  else if (n.op = 0xC3 ∨ n.op = 0xC4) ∧ sysRegSup n.mod then some { cause := 0x14, info := n.mod }
  else none

/-- The decode checks in the order of their codes (R56), then privilege (R59). -/
def Work.checks (w : Work) (n : Ins) : Option TrapInfo :=
  match w.check03 n with
  | some t => some t
  | none =>
    match w.check04 n with
    | some t => some t
    | none =>
      match w.check05 n with
      | some t => some t
      | none =>
        match w.check06 n with
        | some t => some t
        | none => w.check14 n

end Sys2Proof.Machine
end

