-- ==== Sys2Proof/Machine/Queues.lean ====
section
/-! DEFINITION. Queue descriptors in memory (R332, R334), and the launches and productions that the front ends hold. -/

namespace Sys2Proof.Machine

open Sys2Proof

/-- The address of a queue's descriptor (R332). -/
def State.qDesc (s : State) (q : Nat) : Nat := s.qtbase.toNat + 64 * q

/-- A field of a queue's descriptor: `n` bytes at an offset. -/
def State.qGet (s : State) (q off n : Nat) : Nat := leNat (s.peek (s.qDesc q + off) n)

/-- Write a field of a queue's descriptor. -/
def State.qPut (s : State) (q off n v : Nat) : State := s.homeWrite (s.qDesc q + off) (natLE n v)

/-- A queue as the front end knows it; one that it does not know holds no slot. -/
def State.queue (s : State) (q : Nat) : Queue :=
  (s.queues.find? q).getD
    { slot := none, waiting := none, cond := 0, value := 0, wacq := 0, writes := [], busy := false, head := none, preload := false, level := 0, since := none, served := 0,
      acq := 0, inFlight := [], num := q }

/-- Change what the front end knows of a queue. -/
def State.modQueue (s : State) (q : Nat) (f : Queue → Queue) : State := { s with queues := s.queues.put q (f (s.queue q)) }

/-- Change a launch, if it is in flight. -/
def State.modLaunch (s : State) (n : Nat) (f : Launch → Launch) : State := { s with launches := s.launches.modify n f }

/-- Change a production, if it exists. -/
def State.modProd (s : State) (n : Nat) (f : Prod → Prod) : State := { s with prods := s.prods.modify n f }

/-- The production of an ensemble; one that does not exist reads as the reset values of R353. -/
def State.prod (s : State) (n : Nat) : Prod :=
  (s.prods.find? n).getD
    { launch := 0, index := 0, depth := 1, from_ := none, parent := none, troupes := 1, regs := 0, scalars := 0, stage := 0, acq := 0,
      rel := 0, coop := false, producer := false, entry := 0, args := 0, gx := 1, gy := 1, gz := 1, energy := 0,
      place := .placed, admitted := true, next := 0, ended := 0, trigs := 0, children := 0, origin := 0,
      retiring := false }

/-- The queue leaves its slot (R333). -/
def Queue.leave (q : Queue) : Queue := { q with slot := none, busy := false, head := none, preload := false }

/-- The writes of a format preload may have reached every copy (R337): the queues whose preload made a write look. -/
def State.notePreload (s : State) (f : Nat → Bool) : State :=
  (s.queues.filter fun q => q.2.preload && q.2.writes.any f).foldl (fun s q => s.at_ s.now (.formatPreloadPacket q.1)) s

/-- A fault in a queue stops it (R334): STATE 4, ERR, ERRADDR and the event. -/
def State.queueError (s : State) (q err addr : Nat) : State :=
  let d := ((s.queue q).slot.map (·.1)).getD 0
  let s1 := ((s.qPut q 0x20 1 4).qPut q 0x21 1 err).qPut q 0x28 8 addr
  (s1.modQueue q fun x => { x.leave with waiting := none }).report d ⟨1, s.qGet q 0x0C 4, q, addr, err⟩

/-- The context that a partition and a CTXID name, if it exists (R332). -/
def State.ctxNamed (s : State) (part ctxid : Nat) : Option Nat :=
  (List.find? (fun (e : Nat × Context) => e.2.part = part && e.2.ctxid.toNat = ctxid && !e.2.terminated) s.contexts).map (·.1)

/-- The queues of a context that the front ends know (R413). -/
def State.queuesOf (s : State) (c : Nat) : List Nat :=
  (s.queues.map (·.1)).filter fun q => s.ctxNamed (s.qGet q 0x0B 1) (s.qGet q 0x0C 4) = some c

/-- The signal unit looks again at every queue whose wait packet names a word (R338, R361). -/
def State.notify (s : State) (pa : Nat) : State :=
  (s.queues.filter fun q => q.2.waiting = some pa).foldl (fun s q => s.at_ s.now (.waitPacketReevaluate q.1)) s

end Sys2Proof.Machine
end

