-- ==== Sys2Proof/Machine/FaultUnit.lean ====
section
/-! DEFINITION. The fault buffer of a core and the fault unit of a die: groups, tokens and records (R285 to R288). -/

namespace Sys2Proof.Machine

open Sys2Proof

/-- The record of a new group (R288). -/
def faultRecord (f : FaultWait) (seq token : Word) : List Byte :=
  natLE 8 f.va ++ natLE 4 f.ctxid
  ++ [BitVec.ofNat 8 f.cause, BitVec.ofNat 8 f.reason, BitVec.ofNat 8 f.level, BitVec.ofNat 8 f.acc,
      BitVec.ofNat 8 (dieOf f.core), BitVec.ofNat 8 (f.core % 96), BitVec.ofNat 8 f.slot, BitVec.ofNat 8 f.win]
  ++ natLE 4 f.pc.toNat ++ natLE 4 seq.toNat ++ natLE 4 token.toNat ++ natLE 16 f.lanes.toNat ++ natLE 16 f.done.toNat

/-- The first value from a proposal on that no open group holds; 257 tries suffice for 256 groups (R286). -/
def freshToken (open_ : List Word) : Nat → Word → Word
  | 0, t => t
  | n + 1, t => if open_.contains t then freshToken open_ n (t + 1) else t

/-- Give one waiting fault a place: an entry of its core's fault buffer, then a group of its die (R286). -/
def State.admitFault (s : State) (id : Nat) : State :=
  match s.faultWaits.find? fun f => f.id = id with
  | none => s
  | some f =>
    let used := (s.faultWaits.filter fun g => g.core = f.core && g.buffered).length
    if !f.buffered ∧ 32 ≤ used then s
    else
      let put (s : State) (g : FaultWait) : State :=
        { s with faultWaits := s.faultWaits.map fun x => if x.id = id then g else x }
      let d := s.die (dieOf f.core)
      if f.token.isSome ∨ f.closing then s
      else
        match d.groups.find? fun g => g.ctxid = f.ctxid && g.page = f.va / 4096 with
        | some g => put s { f with buffered := true, token := some g.token }
        | none =>
          if 256 ≤ d.groups.length then put s { f with buffered := true }
          else
            let tok := freshToken (d.groups.map (·.token)) 257 (Config.faultToken s.tick)
            let s1 := put s.bump { f with buffered := true, token := some tok }
            (s1.modDie (dieOf f.core) fun d =>
              { d with groups := d.groups ++ [⟨tok, f.ctxid, f.va / 4096⟩], records := d.records ++ [faultRecord f d.fseq tok],
                       fseq := d.fseq + 1 }).at_ s1.now (.faultRecordWrite (dieOf f.core))

/-- Give waiting faults their places, in the order in which they came. -/
def State.admitFaults (s : State) : State := (s.faultWaits.map (·.id)).foldl State.admitFault s

/-- A fault is recorded (R10, R286). -/
def State.raiseFault (s : State) (f : FaultWait) : State :=
  let s1 := { s with faultWaits := s.faultWaits ++ [{ f with id := s.tick }] }.bump
  s1.admitFault s.tick

/-- Forget the faults of a waiter, and let others take their places. -/
def State.dropFaults (s : State) (w : Waiter) : State :=
  { s with faultWaits := s.faultWaits.filter fun f => f.waiter ≠ w }.admitFaults

end Sys2Proof.Machine
end

