-- ==== Sys2Proof/Machine/Overlay.lean ====
section
/-! DEFINITION. Overlay slots and overlay loads (R67, R70, R73, R74). -/

namespace Sys2Proof.Machine

open Sys2Proof

/-- The slot that holds an overlay for a context (R70). -/
def Core.slotOf (c : Core) (ctx ovl : Nat) : Option Nat :=
  (List.range 4).find? fun k => match c.slots[k]? with
    | some x => x.tag = some (ctx, ovl)
    | none => false

/-- The code of an overlay that a slot holds. -/
def Core.codeOf (c : Core) (ctx ovl : Nat) : Option (List Byte) := (c.slotOf ctx ovl).map fun k => ((c.slots.getD k OvlSlot.empty).code)

/-- The code bytes of a context from a program counter on, if a slot holds the overlay (R66, R70). -/
def State.codeAt (s : State) (core ctx : Nat) (pc : Word) : Option (List Byte) :=
  ((s.core core).codeOf ctx (bvField pc 27 16)).map fun b => b.drop (4 * bvField pc 15 2)

/-- The length of an instruction, from the two low bits of its first byte (R25). -/
def lengthOf (b : Byte) : Nat :=
  match b.toNat % 4 with
  | 0 => 4
  | 1 => 12
  | 2 => 12
  | _ => 20

/-- Change a slot: loop buffers filled from it are discarded (R71). -/
def Core.modSlot (c : Core) (k : Nat) (f : OvlSlot → OvlSlot) : Core :=
  { c with slots := c.slots.modify k f, loops := c.loops.filter fun b => b.2.slot ≠ k }

/-- A directory entry that ovld accepts (R67): the code's size and its address. -/
def dirEntry (e : Nat) : Option (Nat × Nat) :=
  let size := field e 112 96
  if bitOf e 127 = true ∧ field e 126 113 = 0 ∧ field e 95 60 = 0 ∧ field e 5 0 = 0 ∧ 4 ≤ size ∧ size ≤ 65536 ∧ size % 4 = 0 then
    some (size, field e 59 0)
  else none

/-- The slot that a load takes (R73): an untagged one, else the least recently fetched, and none that is being filled. -/
def Core.pickSlot (c : Core) : Option Nat :=
  let free := (List.range 4).filter fun k => !(c.slots.getD k OvlSlot.empty).filling
  match free.find? fun k => (c.slots.getD k OvlSlot.empty).tag = none with
  | some k => some k
  | none =>
    free.foldl (fun b k => match b with
      | none => some k
      | some j =>
        if (c.slots.getD k OvlSlot.empty).lastFetch < (c.slots.getD j OvlSlot.empty).lastFetch then some k
        else some j) none

/-- How far a load gets (R73). -/
inductive OvlStep where
  | status (v : Nat)
  | waits
deriving DecidableEq, Repr

/-- The fault of a load at an address (R74, R286). -/
def OvlLoad.fault (l : OvlLoad) (ctxid va slot : Nat) (m : Miss) : FaultWait :=
  { id := 0, core := l.core, waiter := .ovld l.id, ctxid := ctxid, va := va, cause := m.cause, reason := m.reason,
    level := m.level, acc := 3, slot := slot, win := 0xFF, pc := l.pc, lanes := 0, done := 0, buffered := false, token := none,
    closing := false }

/-- Translate the pages of the code in ascending order: their physical addresses, or the first that fails. -/
def State.codePages (s : State) (core ptbr ctxid : Nat) (sup : Bool) : List Nat → State × Except (Nat × Miss) (List Nat)
  | [] => (s, .ok [])
  | va :: t =>
    match s.translate core none ptbr ctxid sup .code va with
    | (s1, .error m) => (s1, .error (va, m))
    | (s1, .ok x) =>
      match s1.codePages core ptbr ctxid sup t with
      | (s2, .error e) => (s2, .error e)
      | (s2, .ok ps) => (s2, .ok (x.pa :: ps))

/-- The 4 KiB pages that a range of virtual addresses touches, the first from its own first byte. -/
def pagesOf (va n : Nat) : List Nat :=
  if n = 0 then []
  else (List.range ((va + n - 1) / 4096 - va / 4096 + 1)).map fun k => if k = 0 then va else (va / 4096 + k) * 4096

/-- The bytes of a range whose pages stand at physical addresses, the first at the range's own first byte. -/
def State.peekPages (s : State) (va : Nat) : Nat → List Nat → List Byte
  | _, [] => []
  | n, pa :: t =>
    let k := min n (4096 - va % 4096)
    s.peek pa k ++ s.peekPages (va + k) (n - k) t

/-- Keep a load, replacing an older form of it. -/
def State.putLoad (s : State) (l : OvlLoad) : State :=
  { s with ovlLoads := (s.ovlLoads.filter fun x => x.id ≠ l.id) ++ [l] }

/-- A copy of the load's overlay for its context is in flight. -/
def State.ovlInFlight (s : State) (l : OvlLoad) : Bool :=
  s.ovlLoads.any fun y => y.id ≠ l.id && y.core = l.core && y.ctx = l.ctx && y.ovl = l.ovl && y.slot.isSome

/-- The sectors of a range whose pages stand at physical addresses, the first at the range's own first byte. -/
def pageSectors : Nat → Nat → List Nat → List Nat
  | _, _, [] => []
  | va, n, pa :: t =>
    let k := min n (4096 - va % 4096)
    (sectorsOf pa k).map (32 * ·) ++ pageSectors (va + k) (n - k) t

/-- The copy of a load starts in a slot (R73): the slot's tag is discarded first; then its code is read, unless a page of it faults. -/
def State.startOvl (s : State) (l : OvlLoad) (c : Context) (slotNo k base size : Nat) : State × OvlStep :=
  let s1 := s.modCore l.core fun c => c.modSlot k fun x => { x with tag := none, code := [] }
  match s1.codePages l.core c.ptbr.toNat c.ctxid.toNat l.sup (pagesOf base size) with
  | (s2, .error (va, m)) => ((s2.putLoad { l with slot := none }).raiseFault (l.fault c.ctxid.toNat va slotNo m), .waits)
  | (s2, .ok pages) =>
    let r := readMax l.core (pageSectors base size pages) s2
    let s3 := r.1.modCore l.core fun c => c.modSlot k fun x => { x with filling := true }
    (((s3.putLoad { l with slot := some k, pages := pages, base := base, size := size }).bump).at_
      (s3.now + r.2 + size / 128) (.ovldCopyComplete l.id), .waits)

/-- Start or restart a load (R73, R74): its status at once, or the copy under way, or a fault that parks it. The directory is
read first; an entry that cannot be read matters only when no slot holds the overlay and no copy of it is in flight. -/
def State.tryOvl (s : State) (l : OvlLoad) (slotNo : Nat) : State × OvlStep :=
  match s.ctxSeen l.core l.ctx with
  | none => (s, .status 2)
  | some c =>
    let drop (s : State) : State := { s with ovlLoads := s.ovlLoads.filter fun x => x.id ≠ l.id }
    if 4096 ≤ l.ovl then (drop s, .status 2)
    else
      let va := 65536 * bvField c.odir 59 16 + 16 * l.ovl
      let held := ((s.core l.core).slotOf l.ctx l.ovl).isSome
      match s.translate l.core none c.ptbr.toNat c.ctxid.toNat l.sup .ovld va with
      | (s1, .error m) =>
        if held then (drop s1, .status 0)
        else if s1.ovlInFlight l then (s1.putLoad { l with slot := none }, .waits)
        else ((s1.putLoad { l with slot := none }).raiseFault (l.fault c.ctxid.toNat va slotNo m), .waits)
      | (s1, .ok x) =>
        match dirEntry (leNat (s1.peek x.pa 16)) with
        | none => (drop s1, .status 2)
        | some (size, base) =>
          if held then (drop s1, .status 0)
          else if s1.ovlInFlight l then (s1.putLoad { l with slot := none }, .waits)
          else
            match (s1.core l.core).pickSlot with
            | none => ((s1.putLoad { l with slot := none }).at_ (s1.now + 1) (.ovldCopyComplete l.id), .waits)
            | some k => (s1.noteRead x.pa).startOvl l c slotNo k base size

/-- A load's bytes have arrived: fill and tag the slot (R73). The bytes are those of memory in the cycle in which the copy completes, and
the completion counts as a fetch from the slot (log entry 98). A fenced page ends it with status 2 (R423). -/
def State.landOvl (s : State) (l : OvlLoad) (k : Nat) : State × Nat :=
  let s1 : State := { s with ovlLoads := s.ovlLoads.filter fun x => x.id ≠ l.id }
  if l.pages.any s.isFenced then
    (s1.modCore l.core fun c => c.modSlot k fun x => { x with tag := none, code := [], filling := false }, 2)
  else
    let first := l.pages.headD 0
    (s1.modCore l.core fun c => c.modSlot k fun x =>
      { x with tag := some (l.ctx, l.ovl), code := s.peekPages (first % 4096) l.size l.pages, filling := false,
               lastFetch := s.tick, ctxid := (s.ctx l.ctx).ctxid.toNat, base := l.base, pages := l.pages.map (· / 4096 * 4096) }, 1)

end Sys2Proof.Machine
end

