-- ==== Sys2Proof/Machine/Ops.lean ====
section
/-! DEFINITION. How an instruction issues, completes, waits or traps: the trap record, taking a trap and returning from one
(R387 to R392), and the frame that every meaning runs in. -/

namespace Sys2Proof.Machine

open Sys2Proof

/-! ### The trap record and the save area -/

/-- Zero bytes. -/
def zeros (n : Nat) : List Byte := List.replicate n 0

/-- The lanes' values of a register, as 4-byte words in lane order. -/
def vecBytes (v : Vec) : List Byte := (List.range 128).flatMap fun i => natLE 4 (v.at_ i).toNat

/-- A split-table entry in 1,024 bytes (R82). -/
def splitBytes (p : Split) : List Byte :=
  natLE 16 p.mask.toNat ++ natLE 4 p.pc.toNat
  ++ natLE 4 (p.state.toNat + 8 * p.infull.toNat + 16 * p.frames.length)
  ++ natLE 16 p.fsave.toNat ++ zeros 24
  ++ ((List.range 16).flatMap fun k =>
      match p.frames[k]? with
      | some f => natLE 4 f.rcv.toNat ++ natLE 2 f.forkId.toNat ++ zeros 2 ++ natLE 8 f.wr.toNat
      | none => zeros 16)
  ++ ((List.range 64).flatMap fun k => natLE 4 (p.scal.get k).toNat) ++ zeros 448

/-- The shadow entries that a record can name: one destination group each, oldest first, at most 7, the newest kept
(R388; log entry 16). A second destination register kind, as the carry of iaddc, takes a descriptor of its own; the predicates that
pmov.set writes stand in it in ascending order, as a run from the first. -/
def recordEntries (p : Split) : List (Shadow × List Prior) :=
  let es := (p.shadow.filter fun e => p.dist - e.stamp ≤ 7).flatMap fun e =>
    let m := e.dsts.filter fun d => match d.reg with
      | .p _ => false
      | _ => true
    let q := e.dsts.filter fun d => match d.reg with
      | .p _ => true
      | _ => false
    if q = [] then [(e, m)] else if m = [] then [(e, q)] else [({ e with latch := false, code := 868, glen := 1 }, q), (e, m)]
  (es.take 7).reverse

/-- The long code of a recorded entry's first register. -/
def recordCode (e : Shadow) (ds : List Prior) : Nat :=
  match ds.head? with
  | some d =>
    match d.reg with
    | .p n => 868 + n
    | _ => e.code
  | none => e.code

/-- The descriptor block of a split's shadow list (R388). -/
def shadowBlock (p : Split) : List Byte :=
  let es := recordEntries p
  natLE 8 es.length
  ++ (es.flatMap fun e =>
      natLE 8 (recordCode e.1 e.2 + 1024 * (max 1 (min 32 e.2.length) - 1) + 262144 * e.1.vector.toNat
        + 1048576 * (p.dist - e.1.stamp)))
  ++ zeros (56 - 8 * es.length)

/-- The 132 bytes of one recorded entry in one lane (R388): the latch's prior, then those of the registers. -/
def shadowLane (e : Shadow) (ds : List Prior) (i : Nat) : List Byte :=
  natLE 4 (e.latOld.at_ i).toNat
  ++ ((List.range 32).flatMap fun k =>
      match ds[k]? with
      | some d => natLE 4 (d.old.at_ (if d.reg.perLane then i else 0)).toNat
      | none => zeros 4)

/-- A lane's slot of a shadow area for a split (R388). -/
def shadowSlot (p : Split) (i : Nat) : List Byte := (recordEntries p).flatMap fun e => shadowLane e.1 e.2 i

/-- Predicates p0 to p6 of every lane, one byte a lane (R387). -/
def predBytes (t : Troupe) : List Byte :=
  (List.range 128).map fun i =>
    BitVec.ofNat 8 (((List.range 7).map fun k => ((t.vec (.p k)).at_ i).toNat % 2 * 2 ^ k).sum)

/-- A troupe's block of the save area (R387). -/
def blockBase (c : Context) (b : Nat) : Nat := 65536 * bvField c.savebase 51 16 + 0x10000 + 0x140000 * b

/-- The bits of some blocks in the allocation bitmap of a context's save area, as they stand now (R387, log entry 24). -/
def State.writeBitmap (s : State) (c : Nat) (bs : List Nat) : State :=
  let x := s.ctx c
  bs.foldl (fun s b => s.homeWrite (65536 * bvField x.savebase 51 16 + b / 8)
    [BitVec.ofNat 8 ((List.range 8).map fun k => (x.blocks.contains (b / 8 * 8 + k)).toNat * 2 ^ k).sum]) s

/-- Give blocks of the save area back (R387). -/
def State.freeBlocks (s : State) (c : Nat) (bs : List Nat) : State :=
  (s.modCtx c fun x => { x with blocks := x.blocks.filter fun b => !bs.contains b }).writeBitmap c bs

/-- Take blocks of the save area (R387). -/
def State.takeBlocks (s : State) (c : Nat) (bs : List Nat) : State :=
  (s.modCtx c fun x => { x with blocks := x.blocks ++ bs }).writeBitmap c bs

/-- The virtual address of a troupe's block, TREC (R385). -/
def trecOf (c : Context) (b : Nat) : Nat := 65536 * bvField c.saveva 59 16 + 0x10000 + 0x140000 * b

/-- What the instruction at which a trap is taken looks like to the record (R389). -/
structure TrapAt where
  pc : Word
  ilen : Nat
  insn : List Byte
  active : Mask
  /-- the encoded distance that the instruction adds once it is passed (R41) -/
  adds : Nat := 0
  flags : Nat := 0
  win : Nat := 0xFF
deriving DecidableEq, Repr

/-- The trap record (R389). -/
def trapRecord (t : Troupe) (ent : Nat) (p : Split) (x : TrapInfo) (a : TrapAt) : List Byte :=
  [BitVec.ofNat 8 x.cause, BitVec.ofNat 8 t.sup.toNat, BitVec.ofNat 8 ent, BitVec.ofNat 8 x.action,
   BitVec.ofNat 8 (a.flags + 2 * x.sysc.toNat), BitVec.ofNat 8 a.win, BitVec.ofNat 8 a.ilen, 0]
  ++ natLE 4 a.pc.toNat ++ zeros 4 ++ natLE 8 x.addr ++ natLE 8 x.info ++ natLE 16 a.active.toNat ++ natLE 16 x.done.toNat
  ++ shadowBlock p ++ splitBytes p
  ++ vecBytes (t.vec .latI) ++ vecBytes (t.vec .latV) ++ predBytes t
  ++ (a.insn ++ zeros 20).take 20 ++ zeros (4096 - 0x914)

/-- Write the trap record and the split's lane data to the troupe's block, through the home slices (R390). -/
def State.writeTrap (s : State) (base : Nat) (rec : List Byte) (p : Split) : State :=
  (lanesOf p.mask).foldl (fun s i => if shadowSlot p i = [] then s else s.homeWrite (base + 0x10000 + 1024 * i) (shadowSlot p i))
    (s.homeWrite base rec)


/-- An ensemble belongs to a context. -/
def State.ensIn (s : State) (c e : Nat) : Bool :=
  match s.ensembles.find? e with
  | some x => x.ctx = c
  | none => false

/-- A troupe belongs to a context. -/
def State.troupeIn (s : State) (c t : Nat) : Bool :=
  match s.troupes.find? t with
  | some x => s.ensIn c x.ens
  | none => false

/-- A copy belongs to a context. -/
def State.copyIn (s : State) (c n : Nat) : Bool :=
  match s.copies.find? n with
  | some x => s.ensIn c x.ens
  | none => false

/-- A waiting fault belongs to a context. -/
def State.faultIn (s : State) (c : Nat) (w : Waiter) : Bool :=
  match w with
  | .instr t _ => s.troupeIn c t
  | .copy n => s.copyIn c n
  | .ovld n => s.ovlLoads.any fun l => l.id = n && l.ctx = c

/-- A slot without the code of a context. -/
def OvlSlot.without (x : OvlSlot) (c : Nat) : OvlSlot :=
  match x.tag with
  | some (d, _) => if d = c then { OvlSlot.empty with filling := x.filling } else x
  | none => x

/-- Every overlay of a context is absent from a core (R70), and from its loop buffers (R71). -/
def Core.dropOverlays (x : Core) (c : Nat) : Core :=
  { x with
    slots := x.slots.map fun k => k.without c
    loops := x.loops.filter fun b => match (x.slots.getD b.2.slot OvlSlot.empty).tag with
      | some (d, _) => d ≠ c
      | none => true }

/-- A core without anything of a context: its positions, overlays, locks, matrix work and cue actions. A context in the wings takes the
stage that becomes free. -/
def Core.without (x : Core) (now c : Nat) (fills : List Nat) : Core :=
  let wings := x.wings.filter (· ≠ c)
  let free := x.onStage = some c
  let y := (if free then x.stage now wings.head? else x).dropOverlays c
  { y with
    stints := y.stints.del c
    wings := if free then wings.tail else wings
    locks := x.locks.filter fun e => e.2.ctx ≠ c
    mats := x.mats.filter fun m => (fills.contains m.ens) = false
    acts := x.acts.filter fun a => a.ctx ≠ c }

/-- The slots that a load was filling stand empty again. -/
def State.dropFills (s : State) (ls : List OvlLoad) : State :=
  ls.foldl (fun s l => match l.slot with
    | some k => s.modCore l.core fun x => x.modSlot k fun _ => OvlSlot.empty
    | none => s) s

/-- Nothing of a context runs or waits any more: no troupe, copy, wait, fault or launch of it is left, and its blocks are free. -/
def State.clear (s : State) (c : Nat) : State :=
  let es := (s.ensembles.filter fun p => p.2.ctx = c).map (·.1)
  let id := (s.ctx c).ctxid.toNat
  let s1 := (s.dropFills (s.ovlLoads.filter fun l => l.ctx = c)).freeBlocks c (s.ctx c).blocks
  { s1 with
    troupes := s.troupes.filter fun p => !s.ensIn c p.2.ens
    ensembles := s.ensembles.filter fun p => p.2.ctx ≠ c
    ovlLoads := s.ovlLoads.filter fun l => l.ctx ≠ c
    copies := s.copies.filter fun p => !s.ensIn c p.2.ens
    acqWaits := s.acqWaits.filter fun a => !s.troupeIn c a.tid
    cacheActs := s.cacheActs.filter fun a => !s.troupeIn c a.tid
    shoots := s.shoots.filter fun a => !s.troupeIn c a.tid
    requests := s.requests.filter fun a => !s.troupeIn c a.tid
    faultWaits := s.faultWaits.filter fun f => !s.faultIn c f.waiter
    dies := s.dies.map fun d => (d.1, { d.2 with groups := d.2.groups.filter fun g => g.ctxid ≠ id })
    cores := s1.cores.map fun k => (k.1, k.2.without s.now c es)
    launches := s.launches.filter fun l => l.2.ctx ≠ c
    prods := s.prods.filter fun p => match s.launches.find? p.2.launch with
      | some l => l.ctx ≠ c
      | none => true
    cutting := s.cutting.del c }

/-- Terminate a context on every core (R413): nothing of it issues again, its copies are abandoned, its fault groups close, its
allotments are free for the requests that wait (R350), its queues take STATE 4 with ERR 5, and its launches never complete. -/
def State.terminate (s : State) (c : Nat) : State :=
  let s1 := (s.clear c).modCtx c fun x => { x with terminated := true, arms := [] }
  ((s.queuesOf c).foldl (fun s q =>
    ((s.qPut q 0x20 1 4).qPut q 0x21 1 5).modQueue q fun x =>
      { x.leave with waiting := none, inFlight := [], level := 0, since := none }) s1).admitFaults.at_ s.now (.ensemblePlacement (s.ctx c).part)

/-- The double trap of R392, and a handler overlay that cannot be loaded (R390): report, then terminate the context. -/
def State.doubleTrap (s : State) (tid num extra : Nat) : State :=
  match s.troupes.find? tid with
  | none => s
  | some t =>
    match s.ensembles.find? t.ens with
    | none => s
    | some e =>
      match s.contexts.find? e.ctx with
      | none => s
      | some c =>
        let base := blockBase c t.block
        (s.report (dieOf e.core) ⟨2, c.ctxid.toNat, num, base, (s.mem.read base).toNat + extra⟩).terminate e.ctx

/-- The second half of trap entry (R390): the level, SS0 to SS2, and the trapping split at the handler. Its first instruction
issues 24 cycles after the record is acknowledged. -/
def State.enterHandler (s : State) (tid uid cause : Nat) : State :=
  match s.troupes.find? tid with
  | none => s
  | some t =>
    match s.ensembles.find? t.ens with
    | none => s
    | some e =>
      match s.ctxSeen e.core e.ctx with
      | none => s
      | some c =>
        let trec := trecOf c t.block
        let t1 := t.modSplit uid fun p =>
          { p with frames := [], infull := false, shadow := [], pc := c.tvec, past := false, state := 1, wait := .none, hand := true,
                   atRejoin := 0, fell := none, redo := none, run := p.lastRun + 1, lastRun := p.lastRun + 1,
                   earliest := s.now + Config.pathCycles s.tick + 24 }
        let ss1 := (t1.ss.set 0 (BitVec.ofNat 32 trec)).set 1 (BitVec.ofNat 32 (trec / 4294967296))
        let t2 : Troupe := { t1 with tstat := t1.tstat ||| flagLevel, ss := ss1.set 2 (BitVec.ofNat 32 cause) }
        ({ s with troupes := s.troupes.put tid t2 } : State).bump

/-- The overlay slot number that a fault record names for a troupe (R288). -/
def Troupe.slotNo (t : Troupe) : Nat := 24 * t.quarter + t.slot

/-- What follows when a load made for a trap entry reaches a status (R390). -/
def State.entryStatus (s : State) (tid uid cause ovl v : Nat) : State :=
  if v = 2 then s.doubleTrap tid 0x0C (2 ^ 32 * ovl + 2 ^ 63) else s.enterHandler tid uid cause

/-- Every split of a troupe, resident, spilled or on its way back (R82, R88). -/
def Troupe.allSplits (t : Troupe) : List Split := t.splits.map (·.2) ++ t.stack ++ t.coming.map (·.2)

/-- The split of lowest entry of a troupe. -/
def Troupe.lowest (t : Troupe) : Option (Nat × Split) :=
  ((List.range 8).find? fun k => (t.splits.find? k).isSome).bind fun k => (t.splits.find? k).map fun p => (k, p)

/-- The core on which a troupe is resident. -/
def State.coreOf (s : State) (tid : Nat) : Nat :=
  match s.troupes.find? tid with
  | some t => match s.ensembles.find? t.ens with
    | some e => e.core
    | none => 0
  | none => 0

/-- The cause of the trap entry that a split waits in (R390). -/
def State.entryCause (s : State) (tid uid : Nat) : Nat :=
  match s.troupes.find? tid with
  | none => 0
  | some t =>
    match t.allSplits.find? fun p => p.uid = uid with
    | none => 0
    | some p => match p.wait with
      | .entry c => c
      | _ => 0

/-- A load has its status: an ovld's result is written, or a trap entry goes on (R73, R390). -/
def State.ovlDeliver (s : State) (l : OvlLoad) (v : Nat) : State :=
  match l.dst with
  | some id =>
    (s.modTroupe l.tid fun t => t.fillPend id (BitVec.ofNat 32 v)).at_ s.now (.scoreboardResultWrite l.tid id)
  | none => s.entryStatus l.tid l.uid (s.entryCause l.tid l.uid) l.ovl v

/-- The slot number that a fault record names for a troupe (R288). -/
def State.slotNo (s : State) (tid : Nat) : Nat := ((s.troupes.find? tid).map Troupe.slotNo).getD 0

/-- Start or restart a load, and deliver its status if it has one at once. -/
def State.loadOvl (s : State) (l : OvlLoad) : State :=
  match s.tryOvl l (s.slotNo l.tid) with
  | (s1, .status v) => s1.ovlDeliver l v
  | (s1, .waits) => s1

/-- Taking a trap (R390): the record and the split's lane data go to the save area, then the level, SS0 to SS2 and the program
counter change; at supervisor level it is the double trap of R392. A handler overlay that no slot holds is loaded first. -/
def State.takeTrap (s : State) (tid ent : Nat) (x : TrapInfo) (a : TrapAt) : Out :=
  match s.troupes.find? tid with
  | none => .refused .noIssuer
  | some t =>
    match t.splits.find? ent, s.ensembles.find? t.ens with
    | some p, some e =>
      match s.ctxSeen e.core e.ctx with
      | none => .refused .noIssuer
      | some c =>
        if t.sup then .next (s.doubleTrap tid x.cause 0)
        else
          let base := blockBase c t.block
          if targetOf base ≠ .device ∨ !s.backed base ∨ !s.backed (base + 0x13FFFF) then .fault .unbacked
          else
            let s1 := s.writeTrap base (trapRecord t ent p x a) p
            let s2 := s1.modTroupe tid fun t => 
              { t with trapPc := some a.pc, parked := t.parked.filter fun q => q.uid ≠ p.uid,
                       saved := some { uid := p.uid, dist := p.dist, run := p.run, adds := a.adds, written := p.shadow, shadow := p.shadow },
                       pend := t.pend.map fun q => { q with kept := true } }
            let ovl := bvField c.tvec 27 16
            if ((s.core e.core).slotOf e.ctx ovl).isSome then .next (s2.enterHandler tid p.uid x.cause)
            else
              let s3 := s2.modTroupe tid fun t => t.modSplit p.uid fun p =>
                { p with state := 2, wait := .entry x.cause, redo := if x.done = 0 then p.redo else some (a.active, x.done) }
              let l : OvlLoad :=
                { id := s3.tick, core := e.core, ctx := e.ctx, tid := tid, uid := p.uid, ovl := ovl, sup := true, dst := none,
                  slot := none, pages := [], base := 0, size := 0, pc := a.pc }
              match s3.bump.tryOvl l t.slotNo with
              | (s4, .status v) => .next (s4.entryStatus tid p.uid x.cause ovl v)
              | (s4, .waits) => .next s4
    | _, _ => .refused .noIssuer

/-! ### The frame of every meaning -/

/-- How a meaning ends: the instruction completes at the next program counter; it leaves a state of its own; it traps before it
has any effect, or with what an earlier part of it left (a translation held by a TLB, a copy started); it is not issued in this cycle; or the model stops. -/
inductive Eff where
  | done (w : Work)
  | raw (s : State)
  | trap (t : TrapInfo)
  | trapAfter (w : Work) (t : TrapInfo)
  | hold
  | stop (f : Fault)

/-- The issuing split's data, if the tables hold it. -/
def State.work (s : State) (tid ent : Nat) : Option Work :=
  match s.troupes.find? tid with
  | none => none
  | some t =>
    match t.splits.find? ent, s.ensembles.find? t.ens with
    | some p, some e => some { s := s, tid := tid, ent := ent, T := t, S := p, E := e, act := p.mask }
    | _, _ => none

/-- The split's data again, after an operation on the whole state. -/
def Work.reload (w : Work) (s : State) : Work :=
  match s.work w.tid w.ent with
  | some x => { x with act := w.act }
  | none => { w with s := s }

/-- Apply an operation on the whole state. -/
def Work.via (w : Work) (f : State → State) : Work := w.reload (f w.commit)

/-- The instruction has issued (R41, R91): distance, the earliest cycle of the successor, and the issue order. What pipes, ports
and issue gating add to the successor's wait is a free value (R80, R81, R381; log entry 1). -/
def Work.issued (w : Work) (n : Ins) : Work :=
  let d := w.S.dist + 1 + n.stall
  { w with
    S := { w.S with dist := d, earliest := w.s.now + 1 + n.stall + Config.issueGap w.s.tick, lastIss := w.s.tick, swapIn := false, redo := none,
                    fell := none, shadow := w.S.shadow.filter fun e => d - e.stamp < 8 }
    T := { w.T with lastSel := w.s.tick, selFree := w.s.now + 1, parked := w.T.parked.filter fun p => p.uid ≠ w.S.uid }
    s := w.s.bump }

/-- The reconvergence address of a split, if it has one (R82). -/
def Split.rcv (p : Split) : Option Word := p.frames.getLast?.map (·.rcv)

/-- Where a split goes on: a program counter, whether the word lies past word 16,383 of its overlay (R27, R65), and the length of the
instruction that falls through to it, if one does. -/
structure Dest where
  pc : Word
  past : Bool := false
  fell : Option Nat := none
deriving DecidableEq, Repr

/-- The split stands at another place. -/
def Split.at_ (p : Split) (d : Dest) : Split := { p with pc := d.pc, past := d.past, fell := d.fell }

/-- A new run begins (R43): the shadow list is empty. -/
def Split.newRun (p : Split) : Split := { p with shadow := [], run := p.lastRun + 1, lastRun := p.lastRun + 1 }

/-- A split at its reconvergence address stands there in STATE 3 (R86). -/
def Split.meet (p : Split) : Split := if p.rcv = some p.pc ∧ p.past = false then { p with state := 3, atRejoin := 0 } else p

/-- Let the troupe settle its waiting splits (R86). -/
def State.settle (s : State) (tid due : Nat) : State := s.atAll due [.reconvergenceFusion tid, .rejoinRelease tid]

/-- Put the entries back; a split that has entered STATE 3 lets the troupe settle (R86). -/
def Work.close (w : Work) : State :=
  let w1 := { w with S := w.S.meet }
  if w1.S.state = 3 then w1.commit.settle w1.tid w1.s.now else w1.commit

/-- The program counter some bytes on in its overlay (R26, R65): its word index has 14 bits. -/
def pcStep (pc : Word) (n : Nat) : Word := BitVec.ofNat 32 (65536 * bvField pc 27 16 + (4 * bvField pc 15 2 + n) % 65536)

/-- Some bytes on from a program counter lie past word 16,383 of its overlay (R27, R65). -/
def pastEnd (pc : Word) (n : Nat) : Bool := 65536 ≤ 4 * bvField pc 15 2 + n

/-- The word after an instruction (R26). -/
def nextDest (pc : Word) (ilen : Nat) : Dest := { pc := pcStep pc ilen, past := pastEnd pc ilen, fell := some ilen }

/-- The program counter moves past an instruction (R26). -/
def Split.next (p : Split) (ilen : Nat) : Split := p.at_ (nextDest p.pc ilen)

/-- The instruction completes and its split goes on to the next word. -/
def Work.finish (w : Work) (n : Ins) : State :=
  let w1 := w.issued n
  ({ w1 with S := w1.S.next n.ilen } : Work).close

/-- The instruction completes and its split issues nothing further for some cycles after its issue. -/
def Work.finishAfter (w : Work) (n : Ins) (cycles : Nat) : State :=
  let w1 := w.issued n
  ({ w1 with S := { w1.S.next n.ilen with earliest := max w1.S.earliest (w.s.now + cycles) } } : Work).close

/-- A split waits in park. -/
def Split.parks (p : Split) : Bool :=
  match p.wait with
  | .join _ _ b => b
  | _ => false

/-- Some split of an ensemble waits in park (R358): the scheduler has to look whether the ensemble is blocked. -/
def State.notePark (s : State) (ens : Nat) : State :=
  if s.troupes.any fun t => t.2.ens = ens && t.2.allSplits.any Split.parks then
    match s.ensembles.find? ens with
    | some e => s.at_ s.now (.ensemblePlacement (s.ctx e.ctx).part)
    | none => s
  else s

/-- The instruction has issued and its split waits in it (R84). -/
def Work.suspend (w : Work) (n : Ins) (x : Wait) : State :=
  let w1 := w.issued n
  (({ w1 with S := { w1.S with state := 2, wait := x, waitLen := n.ilen } } : Work).commit).notePark w.T.ens

/-- A wait ends: the split goes on to the next instruction (R84). -/
def State.resume (s : State) (tid uid : Nat) : State :=
  let s1 := s.modTroupe tid fun t => t.modSplit uid fun p =>
    if p.state = 2 then
      let q := if p.waitLen = 0 then { p with fell := none } else p.next p.waitLen
      ({ q with state := 1, wait := .none, waitLen := 0, earliest := max p.earliest s.now } : Split).meet
    else p
  s1.settle tid s1.now

/-- The bytes of an instruction's words, for the record (R389). -/
def Ins.bytes (n : Ins) : List Byte := bytesOf n.words

/-- The trap of an instruction that has been decoded: ACTIVE is that of its first issue (R285, R389). -/
def Work.trap (w : Work) (n : Ins) (x : TrapInfo) : Out :=
  let act := match w.S.redo with
    | some m => m.1
    | none => w.act
  let dn := match w.S.redo with
    | some m => m.2
    | none => 0#128
  w.s.takeTrap w.tid w.ent { x with done := x.done ||| dn } { pc := w.S.pc, ilen := n.ilen, insn := n.bytes, active := act, adds := 1 + n.stall }

/-- The split is not issued in this cycle. -/
def Work.hold (w : Work) : State := ({ w with S := { w.S with earliest := w.s.now + 1 } } : Work).commit

/-- Every fixed-latency result of the split has been written (R43). -/
def Work.drained (w : Work) : Bool := w.S.landings = []

/-- No scoreboard result for a scalar register of the split is pending (R43). -/
def Work.scalarsIn (w : Work) : Bool :=
  !(w.T.pend.any fun p => p.owner = w.S.uid && p.outs.any fun o => match o.reg with
    | .s _ => true
    | _ => false)

/-- What an instruction finds before its own meaning: the checks and holds in their order. -/
inductive Gate where
  | noIssuer
  | trap (w : Work) (t : TrapInfo)
  | hold (w : Work)
  | go (w : Work)

/-- The checks of R56 and R59 and the holds of R47, in their order; the word's own form first (R55). -/
def gate (n : Ins) (s : State) : Gate :=
  match s.cur with
  | none => .noIssuer
  | some (tid, ent) =>
    match s.work tid ent with
    | none => .noIssuer
    | some w0 =>
      if !w0.check02 n then .trap w0 { cause := 0x02 }
      else if w0.held n then .hold w0
      else
        let w := { w0 with act := w0.active n }
        match w.checks n with
        | some t => .trap w t
        | none => .go w

/-- Run an instruction: the checks of R56, then its meaning. -/
def run (n : Ins) (body : Work → Eff) (s : State) : Out :=
  match gate n s with
  | .noIssuer => .refused .noIssuer
  | .trap w t => w.trap n t
  | .hold w => .next w.hold
  | .go w =>
    match body w with
    | .done w => .next (w.finish n)
    | .raw s => .next s
    | .trap t => w.trap n t
    | .trapAfter w t => ({ w with s := w.commit } : Work).trap n t
    | .hold => .next w.hold
    | .stop f => .fault f

/-- Run an extended form of layout X. -/
def runX (op : Nat) (f : X) (body : Ins → Work → Eff) (s : State) : Out := run (insX op f) (body (insX op f)) s

/-- Run an extended form of layout XT. -/
def runXT (op : Nat) (f : XT) (body : Ins → Work → Eff) (s : State) : Out := run (insXT op f) (body (insXT op f)) s

/-- Run a base word of layout B3. -/
def runB3 (op : Nat) (f : B3) (body : Ins → Work → Eff) (s : State) : Out := run (insB3 op f) (body (insB3 op f)) s

/-- Run a base word of layout BT. -/
def runBT (op : Nat) (f : BT) (body : Ins → Work → Eff) (s : State) : Out := run (insBT op f) (body (insBT op f)) s

/-- A meaning that does nothing with no active lane (R57). -/
def ifActive (body : Work → Eff) (w : Work) : Eff := if w.act = 0 then .done w else body w

/-! ### Return from a trap -/

/-- A split-table entry read from its 1,024 bytes (R82), over the split it replaces. -/
def splitOfBytes (p : Split) (b : List Byte) : Split :=
  let word (o n : Nat) : Nat := leNat ((b.drop o).take n)
  let st := word 20 4
  { p with
    mask := BitVec.ofNat 128 (word 0 16)
    pc := BitVec.ofNat 32 (word 16 4)
    state := BitVec.ofNat 3 st
    infull := bitOf st 3
    fsave := BitVec.ofNat 128 (word 24 16)
    frames := (List.range (min 16 (field st 8 4))).map fun k =>
      { rcv := BitVec.ofNat 32 (word (64 + 16 * k) 4), forkId := BitVec.ofNat 16 (word (68 + 16 * k) 2),
        wr := BitVec.ofNat 64 (word (72 + 16 * k) 8) }
    scal := (List.range 64).foldl (fun t k => Store.set t k (BitVec.ofNat 32 (word (320 + 4 * k) 4))) [] }

/-- A split runs the troupe's handler, or waits in the trap entry to it (R390). -/
def Split.handles (p : Split) : Bool :=
  p.hand || (match p.wait with
    | .entry _ => true
    | _ => false)

/-- A result of an instruction that issued before the trap completes while the handler runs: a scalar of the trapped split and a
predicate reach the trap record too, from which tret restores them (R390, R391; log entry 28). -/
def State.intoRecord (s : State) (t : Troupe) (base owner : Nat) (o : Prior) : State :=
  match o.reg with
  | .s n =>
    if t.allSplits.any fun p => p.uid = owner && p.handles then
      let depth := field (leNat (s.peek (base + 0x94) 4)) 8 4
      let s1 := s.homeWrite (base + 0x080 + 320 + 4 * n) (natLE 4 (o.old.at_ 0).toNat)
      if depth = 0 then s1
      else
        let a := base + 0x080 + 56 + 16 * depth
        s1.homeWrite a (natLE 8 (leNat (s1.peek a 8) ||| 2 ^ n))
    else s
  | .p n =>
    (lanesOf o.lanes).foldl (fun (s : State) i =>
      let a := base + 0x880 + i
      let b := (s.mem.read a).toNat
      s.homeWrite a [BitVec.ofNat 8 (b - b / 2 ^ n % 2 * 2 ^ n + (o.old.at_ i).toNat % 2 * 2 ^ n)]) s
  | _ => s

/-- The address of a record of the split stack (R387, R88). -/
def stackRecord (base k : Nat) : Nat := base + 0x50000 + 8192 * (k % 120)

/-- A scalar result of a split on the split stack is written into the SCAL field of its record, and its bit of WR in the top frame there
(R84, R88). -/
def State.intoSpill (s : State) (t : Troupe) (base owner : Nat) (o : Prior) : State :=
  match o.reg, t.stack.findIdx? fun p => p.uid = owner with
  | .s n, some j =>
    let a := stackRecord base (t.stackHead + j)
    let depth := ((t.stack[j]?).map fun p => p.frames.length).getD 0
    let s1 := s.homeWrite (a + 320 + 4 * n) (natLE 4 (o.old.at_ 0).toNat)
    if depth = 0 then s1
    else s1.homeWrite (a + 56 + 16 * depth) (natLE 8 (leNat (s1.peek (a + 56 + 16 * depth) 8) ||| 2 ^ n))
  | _, _ => s

/-- A held result is written (R47), and what is due to a split-stack record (R88) or to the trap record (R390) goes there. -/
def State.landPend (s : State) (tid id : Nat) : State :=
  match s.troupes.find? tid with
  | none => s
  | some t =>
    let s1 := s.modTroupe tid fun t => t.writePend id
    match t.pend.find? fun p => p.id = id, s.ensembles.find? t.ens with
    | some p, some e =>
      let base := blockBase (s.ctx e.ctx) t.block
      let s2 := p.outs.foldl (fun (s : State) o => s.intoSpill t base p.owner o) s1
      if p.kept && t.trapPc.isSome then p.outs.foldl (fun (s : State) o => s.intoRecord t base p.owner o) s2 else s2
    | _, _ => s1

/-- The registers that a recorded destination code and length name (R388). -/
def regsOfCode (t : Troupe) (code len i : Nat) : List Reg :=
  match longOperand code with
  | some (.v n) => (List.range len).map fun k => Reg.v (n.toNat + k)
  | some (.o n) => [.o n.toNat]
  | some (.s n) => (List.range len).map fun k => Reg.s (n.toNat + k)
  | some (.g n) => [.g n.toNat]
  | some (.x n) => [.x n.toNat]
  | some (.p n) => (List.range len).map fun k => Reg.p (n.toNat + k)
  | some (.idx n k) => (List.range len).map fun j => Reg.v (((t.vec (.x n.toNat)).at_ i).toNat + k.toNat + j)
  | _ => []

/-- The shadow list of a record (R388): its descriptors and the lanes' priors, from the block and the lane slots. -/
def shadowOfBytes (t : Troupe) (mask : Mask) (dist : Nat) (blk : List Byte) (slot : Nat → Nat → List Byte) : List Shadow :=
  let count := min 7 (leNat (blk.take 1))
  ((List.range count).map fun j =>
    let d := leNat ((blk.drop (8 + 8 * j)).take 8)
    let code := d % 1024
    let len := field d 17 10 % 32 + 1
    let word (k i : Nat) : Word := BitVec.ofNat 32 (leNat (slot i (132 * j + 4 * k)))
    let regs := regsOfCode t code len (lowLane mask)
    { stamp := dist - field d 22 20, vector := bitOf d 18, latch := true, lanes := mask,
      latOld := (List.range 128).map (word 0), code := code, glen := len, later := [],
      dsts := (List.range regs.length).map fun k =>
        let r := regs.getD k .latI
        { reg := r, lanes := mask, old := if r.perLane then (List.range 128).map (word (k + 1)) else [word (k + 1) (lowLane mask)] }
      : Shadow }).reverse

/-- Lanes' values from 4-byte words in lane order, for some lanes. -/
def Troupe.loadVec (t : Troupe) (r : Reg) (lanes : Mask) (b : List Byte) : Troupe :=
  { t with file := t.file.put r.key ((t.vec r).update lanes fun i => BitVec.ofNat 32 (leNat ((b.drop (4 * i)).take 4))) }

/-- The record's shadow list is as the trap entry wrote it: the descriptors, and the data of the lanes (R388). -/
def State.shadowKept (s : State) (base : Nat) (mask : Mask) (p : Split) : Bool :=
  s.peek (base + 0x40) 64 = shadowBlock p
  && (lanesOf mask).all fun i => s.peek (base + 0x10000 + 1024 * i) (shadowSlot p i).length = shadowSlot p i

/-- tret's restoration (R391): the executing split's entry, the latches, the predicates and the shadow list of the record; the
program counter and the lanes of a re-issue; the level. The split goes on in the run and at the distance of the trapped instruction,
passed if ACTION is 1 (R41, R43). Where the handler has left the record's shadow list as it was, the list is the one that it was written
from, whose every lane and writer it keeps (R46); else it is what the record's bytes say. -/
def Work.leave (w : Work) (base : Nat) : State :=
  let b := w.s.peek base 0x920
  let part (o n : Nat) : List Byte := (b.drop o).take n
  let num (o n : Nat) : Nat := leNat (part o n)
  let p0 := splitOfBytes w.S (part 0x080 1024)
  let pc := BitVec.ofNat 32 (num 0x008 4) &&& 0x0FFFFFFC#32
  let ilen := num 0x006 1
  let again := num 0x003 1 ≠ 1
  let same := again && w.T.trapPc = some pc && num 0 1 != 0x01 && num 0 1 != 0x0C
  let t0 := { w.T with tstat := if num 0x001 1 % 2 = 1 then w.T.tstat else w.T.tstat &&& ~~~flagLevel, trapPc := none, saved := none }
  let t1 := (t0.loadVec .latI (~~~0#128) (part 0x480 512)).loadVec .latV (~~~0#128) (part 0x680 512)
  let t2 := (List.range 7).foldl (fun t k =>
    let v : Vec := (List.range 128).map fun i => BitVec.ofNat 32 ((b.getD (0x880 + i) 0).toNat / 2 ^ k % 2)
    { t with file := t.file.put (Reg.p k).key v }) t1
  let v : TrapSave := w.T.saved.getD
    { uid := w.S.uid, dist := w.S.dist, run := w.S.lastRun + 1, adds := 0, written := [], shadow := [] }
  let p1 : Split :=
    { p0 with uid := v.uid, state := if p0.state = 2 then 1 else p0.state, pc := pc, past := false, hand := false, wait := .none,
              dist := if again then v.dist else v.dist + v.adds, run := v.run, lastRun := max v.run w.S.lastRun, fell := none,
              shadow := if w.s.shadowKept base p0.mask { w.S with shadow := v.written, dist := v.dist } then v.shadow
                else shadowOfBytes t2 p0.mask v.dist (part 0x040 64) (fun i off => w.s.peek (base + 0x10000 + 1024 * i + off) 4),
              redo := if same then some (BitVec.ofNat 128 (num 0x020 16), BitVec.ofNat 128 (num 0x030 16)) else none }
  let p2 := if again then p1 else p1.next ilen
  ({ w with T := t2, S := p2 } : Work).close

end Sys2Proof.Machine
end

