-- ==== Sys2Proof/Machine/Access.lean ====
section
/-! DEFINITION. Accesses to memory: translation, range locks, fences, parking (R281 to R286, R296 to R298, R327), and reads and
writes through L1 and the home slices (R291 to R295). -/

namespace Sys2Proof.Machine

open Sys2Proof

/-- The context of the issuing troupe. -/
def Work.ctx (w : Work) : Context := (w.s.ctxSeen w.E.core w.E.ctx).getD (w.s.ctx w.E.ctx)

/-- A value modulo 2^64 from an address and an offset (R298). -/
def addr64 (a : Nat) (d : Int) : Nat := (((a : Int) + d) % (2 : Int) ^ 64).toNat

/-- The atomics that a target supports (R300, R301, R428): `op` 0 for .add and 10 for .cas. -/
def atomicOk (size op pa : Nat) : Bool :=
  match targetOf pa with
  | .device => true
  | .peer => (size = 4 || size = 8) && (op = 0 || op = 10)
  | .host => false
  | .tier => false

/-- Translate an access of the issuing troupe; an address whose target does not support the access has reason 6 (R281). -/
def Work.xlate (w : Work) (acc : Access) (ok : Nat → Bool) (va : Nat) : Work × Except Miss Mapped :=
  let r := w.s.translate w.E.core (some w.T.quarter) w.ctx.ptbr.toNat w.ctx.ctxid.toNat w.T.sup acc va
  match r.2 with
  | .error m => ({ w with s := r.1 }, .error m)
  | .ok x =>
    if ok x.pa then ({ w with s := r.1 }, .ok x)
    else
      ({ w with s := r.1.modCore w.E.core fun c => c.dropTlb (fun t => t.maps w.ctx.ctxid.toNat va) fun _ => false },
       .error ⟨6, x.level⟩)

/-- Translate the accesses of some lanes, in ascending order. -/
def Work.xlateAll (w : Work) (acc : Access) (ok : Nat → Bool) (va : Nat → Nat) : List Nat → Work × List (Nat × Except Miss Mapped)
  | [] => (w, [])
  | i :: t =>
    let a := w.xlate acc ok (va i)
    let b := a.1.xlateAll acc ok va t
    (b.1, (i, a.2) :: b.2)

/-- The lowest-numbered range-lock entry of the core that forbids bytes of the context's virtual space (R327). -/
def Core.memLock (c : Core) (ctx va n : Nat) : Option Nat :=
  (List.find? (fun (e : Nat × RangeLock) => !e.2.stage && e.2.ctx = ctx && e.2.lo < va + n && va ≤ e.2.hi) c.locks).map (·.1)

/-- A page whose access memory refuses (R423). -/
def State.refuses (s : State) (pa : Nat) : Bool := s.isFenced pa

/-- ACTIVE of the instruction: that of its first issue (R285). -/
def Work.active1 (w : Work) : Mask :=
  match w.S.redo with
  | some m => m.1
  | none => w.act

/-- DONE of the instruction before this issue (R285). -/
def Work.done1 (w : Work) : Mask :=
  match w.S.redo with
  | some m => m.2
  | none => 0

/-- The lanes that the other memory instruction of a pair has performed in this cycle (R288, R304). -/
def Work.pairDone (w : Work) : Mask := if w.T.paired.1 = w.s.now then w.T.paired.2 else 0

/-- One record for each page on which lanes failed (R286, R298). -/
def Work.faultsOf (w : Work) (acc : Access) (done : Mask) (fs : List (Nat × Nat × Miss)) : List FaultWait :=
  (distinct (fs.map fun f => f.2.1 / 4096)).filterMap fun page =>
    let mine := fs.filter fun f => f.2.1 / 4096 = page
    mine.head?.map fun f =>
      { id := 0, core := w.E.core, waiter := .instr w.tid w.S.uid, ctxid := w.ctx.ctxid.toNat, va := f.2.1, cause := f.2.2.cause,
        reason := f.2.2.reason, level := f.2.2.level, acc := acc.acc, slot := w.T.slotNo, win := 0xFF, pc := w.S.pc,
        lanes := maskOf (mine.map (·.1)), done := done ||| w.pairDone, buffered := false, token := none, closing := false }

/-- The words of the instruction at the program counter, as it was fetched: a parked one keeps its own (R78). -/
def Work.insn (w : Work) : List Byte :=
  match w.T.parked.find? fun p => p.uid = w.S.uid with
  | some p => p.insn
  | none =>
    let bs := (w.s.codeAt w.E.core w.E.ctx w.S.pc).getD []
    bs.take (lengthOf (bs.headD 0))

/-- The instruction is parked, and its troupe with it (R285). -/
def Work.park (w : Work) (done : Mask) (fs : List FaultWait) : Eff :=
  let p : Parked := { uid := w.S.uid, pc := w.S.pc, insn := w.insn, active := w.active1, done := done, go := false }
  let w1 : Work := { w with T := { w.T with parked := (w.T.parked.filter fun q => q.uid ≠ w.S.uid) ++ [p] },
                            S := { w.S with redo := none } }
  .raw (fs.foldl State.raiseFault (w1.commit.dropFaults (.instr w.tid w.S.uid)))

/-- The lane for which the request of a lane's sector was sent: the lowest of those that touch it (R291). -/
def PeerReq.sender (r : PeerReq) (i : Nat) : Nat :=
  match r.lanes.find? fun l => l.1 = i with
  | none => i
  | some l => ((r.lanes.find? fun x => x.2 / 32 = l.2 / 32).map (·.1)).getD i

/-- Every request has been answered. -/
def PeerReq.complete (r : PeerReq) : Bool := r.lanes.all fun l => (r.answers.find? (r.sender l.1)).isSome

/-- Memory and stage instructions of the troupe are held while another of its splits is in an acquire (R311, R314, R315), or waits for
a peer's responses (R430). -/
def Work.memHeld (w : Work) : Bool :=
  (w.s.requests.any fun r => r.tid = w.tid && r.uid ≠ w.S.uid && !r.complete) || (w.T.splits.map (·.2) ++ w.T.stack ++ w.T.coming.map (·.2)).any fun p => p.uid ≠ w.S.uid && (match p.wait with
    | .acq _ => true
    | .cache id => w.s.cacheActs.any fun a => a.id = id && a.acquire
    | .none => false
    | .entry _ => false
    | .fload _ _ => false
    | .bind _ _ => false
    | .batch _ => false
    | .phase _ _ _ _ => false
    | .cue _ => false
    | .join _ _ _ => false
    | .shoot _ => false)

/-- What an access of a lane gave: a value (the one read, or the old one), and its sector. -/
structure Served where
  lane : Nat
  value : Nat
  sector : Nat
deriving DecidableEq, Repr

/-- A load of ordinary memory that L1 serves (R292). -/
def State.l1Hit (s : State) (core : Nat) (m : Mapped) : Bool :=
  targetOf m.pa = .device && m.mt = 0 && ((s.core core).l1Find (m.pa / 32)).isSome

/-- Read bytes of one sector for a load (R292): from L1 if it holds the sector, else from the home, filling L1. -/
def State.loadBytes (s : State) (core : Nat) (nc : Bool) (m : Mapped) (n : Nat) : State × Nat :=
  if targetOf m.pa ≠ .device ∨ m.mt ≠ 0 ∨ nc = true then (s.noteRead m.pa, leNat (s.peek m.pa n))
  else
    match (s.core core).l1Find (m.pa / 32) with
    | some d => (s.modCore core fun c => c.l1Touch (m.pa / 32), leNat ((d.drop (m.pa % 32)).take n))
    | none =>
      ((s.noteRead m.pa).modCore core fun c => c.l1Fill (m.pa / 32) (s.peek (m.pa / 32 * 32) 32), leNat (s.peek m.pa n))

/-- Write bytes of one sector for a store (R292): at the home, and in a valid sector of the core's L1. -/
def State.storeBytes (s : State) (core : Nat) (m : Mapped) (bs : List Byte) : State :=
  (s.homeWrite m.pa bs).modCore core fun c => if m.mt = 0 ∧ targetOf m.pa = .device then c.l1Update m.pa bs else c

/-- An indivisible read-modify-write of one sector at its home (R292, R300): the old value and the new state. -/
def State.rmw (s : State) (core : Nat) (m : Mapped) (n : Nat) (new : Nat → Nat) : State × Nat :=
  let old := leNat (s.peek m.pa n)
  ((s.homeWrite m.pa (natLE n (new old))).modCore core fun c =>
    if m.mt = 0 ∧ targetOf m.pa = .device then c.l1Drop (· = m.pa / 32) else c, old)

/-- Perform the loads of lanes in ascending order. -/
def performLoads (core : Nat) (nc : Bool) (n : Nat) : List (Nat × Mapped) → State → State × List Served
  | [], s => (s, [])
  | (i, m) :: t, s =>
    let r := s.loadBytes core nc m n
    let q := performLoads core nc n t r.1
    (q.1, ⟨i, r.2, m.pa / 32⟩ :: q.2)

/-- Perform the stores of lanes in ascending order, so that the highest-numbered lane's bytes stand (R291). -/
def performStores (core n : Nat) (v : Nat → Nat) : List (Nat × Mapped) → State → State × List Served
  | [], s => (s, [])
  | (i, m) :: t, s =>
    let q := performStores core n v t (s.storeBytes core m (natLE n (v i)))
    (q.1, ⟨i, 0, m.pa / 32⟩ :: q.2)

/-- Perform the atomics of lanes in ascending order (R291, R300). -/
def performAtomics (core n : Nat) (new : Nat → Nat → Nat) : List (Nat × Mapped) → State → State × List Served
  | [], s => (s, [])
  | (i, m) :: t, s =>
    let r := s.rmw core m n (new i)
    let q := performAtomics core n new t r.1
    (q.1, ⟨i, r.2, m.pa / 32⟩ :: q.2)

/-- The path times of sectors that are read, or written: through L1 where it holds one; `late` is what their translation took before
(R283, R291, R378, R379). -/
def requestPaths (core : Nat) (write : Bool) (hit : Nat → Bool) (late : Nat → Nat) : List Nat → State → State × List (Nat × Nat)
  | [], s => (s, [])
  | k :: t, s =>
    let r := if hit k then (s, 36) else if write then s.writeTime core (32 * k) else s.readTime core (32 * k)
    let q := requestPaths core write hit late t r.1
    (q.1, (k, late k + r.2) :: q.2)

/-- The path times of the sectors of some accesses. -/
def State.pathsOf (s : State) (core : Nat) (write l1 : Bool) (ms : List Mapped) : State × List (Nat × Nat) :=
  let of (k : Nat) : List Mapped := ms.filter fun m => m.pa / 32 = k
  requestPaths core write (fun k => l1 && (of k).all (s.l1Hit core)) (fun k => ((of k).map (·.late)).foldl max 0)
    (distinct (ms.map (·.pa / 32))) s

/-- The place of a sector among the requests of a set: they leave in ascending address order, one a cycle (R291). -/
def Sent.rank (all : List Sent) (r : Sent) : Nat := ((distinct (all.map (·.sector))).filter (· < r.sector)).length

/-- The requests of a set return, and a write is acknowledged with the last of them (R291, R378, R379). -/
def State.sendSet (s : State) (tid start : Nat) (all : List Sent) : State :=
  let due (r : Sent) : Nat := start + r.rank all + r.path
  let s1 := (all.filter fun r => !r.ack).foldl (fun s r => s.at_ (due r) (.loadSectorReturn tid r.id)) s
  let acks := all.filter (·.ack)
  (distinct (acks.map (·.id))).foldl (fun s id =>
    s.at_ (((acks.filter fun r => r.id = id).map due).foldl max 0) (.storeAcknowledge tid id)) s1

/-- Call off the returns of requests, which are sent again in a larger set. -/
def State.unsend (s : State) (tid : Nat) (l : List Sent) : State :=
  { s with agenda := s.agenda.filter fun t => match t.ev with
      | .loadSectorReturn k id => !(k = tid && l.any fun r => r.id = id)
      | .storeAcknowledge k id => !(k = tid && l.any fun r => r.id = id)
      | _ => true }

/-- A quarter sends requests after those of its earlier instructions; a co-issued pair's form one set (R92, R291). -/
def State.request (s : State) (core quarter tid : Nat) (new : List Sent) : State :=
  let go (s : State) (start : Nat) (all : List Sent) : State :=
    (s.modCore core fun c => { c with sent := c.sent.put quarter ⟨s.now, start, tid, all⟩ }).sendSet tid start all
  match (s.core core).sent.find? quarter with
  | none => go s s.now new
  | some o =>
    let old := o.reqs.filter fun r => !(new.any fun n => n.id = r.id)
    if o.issued = s.now ∧ o.tid = tid then go (s.unsend tid old) o.start (old ++ new)
    else go s (max s.now (o.start + (distinct (o.reqs.map (·.sector))).length)) new

/-- The issuing quarter sends requests. -/
def Work.request (w : Work) (new : List Sent) : Work := { w with s := w.s.request w.E.core w.T.quarter w.tid new }

/-- The requests of path times, for a result or an acknowledgement. -/
def sentFor (id : Nat) (ack : Bool) (paths : List (Nat × Nat)) : List Sent := paths.map fun p => ⟨p.1, p.2, id, ack⟩

/-- The troupe waits for the acknowledgement of a write: its number is the next one. -/
def Work.unacked (w : Work) : Work := { w with T := { w.T with unacked := w.T.unacked ++ [w.s.tick] }, s := w.s.bump }

/-- A write of one word, which its home acknowledges (R378, R379). -/
def Work.awaitAck (w : Work) (pa : Nat) : Work :=
  let r := w.s.writeTime w.E.core pa
  ({ w with s := r.1 } : Work).unacked.request (sentFor w.s.tick true [(pa / 32, r.2)])

/-- The requests that the split's instruction has sent to the peer aperture. -/
def Work.asked (w : Work) : Option PeerReq := w.s.requests.find? fun r => r.tid = w.tid && r.uid = w.S.uid && r.pc = w.S.pc

/-- The first of some lanes whose answer is not OK. -/
def PeerReq.bad (r : PeerReq) (lanes : List Nat) : Option Nat :=
  (lanes.filter fun i => r.lanes.any fun l => l.1 = i).find? fun i => (r.answers.find? (r.sender i)).getD 0 ≠ 0

/-- Send requests to the peer aperture, one for each sector; the split stays at its instruction until they are answered (R291, R427,
R430). `done`: the lanes that need none. -/
def Work.ask (w : Work) (lanes : List (Nat × Nat)) (done : Mask) : State :=
  let id := w.s.tick
  let r : PeerReq := { id := id, tid := w.tid, uid := w.S.uid, pc := w.S.pc, lanes := lanes, answers := [] }
  let x := requestPaths w.E.core false (fun _ => false) (fun _ => 0) (distinct (lanes.map (·.2 / 32))) w.s
  let all := sentFor id false x.2
  let due (q : Sent) : Nat := w.s.now + q.rank all + q.path
  let s1 : State := { x.1 with requests := w.s.requests ++ [r] }
  let w1 : Work :=
    { w with S := { w.S with redo := some (w.active1, done), earliest := (all.map due).foldl max w.s.now + 1 }, s := s1.bump }
  all.foldl (fun s q => match lanes.find? fun l => l.2 / 32 = q.sector with
    | some l => s.at_ (due q) (.helyelResponse id l.1 (s.peerAnswer l.2 (256 * id + l.1)))
    | none => s) w1.commit

/-- The answered requests are forgotten. -/
def Work.answered (w : Work) (r : PeerReq) : Work :=
  { w with s := { w.s with requests := w.s.requests.filter fun x => x.id ≠ r.id } }

/-- The registers that a partly performed instruction writes: a scalar only with the value of ACTIVE's lowest lane (R126). -/
def Work.loadOuts (w : Work) (n : Ins) (len : Nat) (lanes : Mask) (f : Nat → Nat → Word) : List (Reg × Mask × (Nat → Word)) :=
  (w.outsOf n len lanes f).filter fun o => o.1.perLane || lanes.getLsbD (lowLane w.active1)

/-- What a memory instruction is, for the shared effect of R298. -/
structure MemOp where
  acc : Access
  size : Nat
  ok : Nat → Bool
  va : Nat → Nat
  perform : List (Nat × Mapped) → State → State × List Served
  /-- word `k` of the value that a served lane's registers take; `len` registers, none for a store -/
  len : Nat
  word : Nat → Nat → Word
  /-- the access writes memory, so that its home acknowledges it -/
  acks : Bool
  /-- a load that L1 may serve (R292) -/
  l1 : Bool

/-- The translations of lanes that failed: the lane, its address and the miss. -/
def failuresOf (va : Nat → Nat) (l : List (Nat × Except Miss Mapped)) : List (Nat × Nat × Miss) :=
  l.filterMap fun r => match r.2 with
    | .error m => some (r.1, va r.1, m)
    | .ok _ => none

/-- The translations that succeeded. -/
def mappedOf (l : List (Nat × Except Miss Mapped)) : List (Nat × Mapped) :=
  l.filterMap fun r => match r.2 with
    | .ok m => some (r.1, m)
    | .error _ => none

/-- What the first of some served accesses gave a lane. -/
def valueOf (l : List Served) (i : Nat) : Nat := ((l.find? fun x => x.lane = i).map (·.value)).getD 0

/-- The accesses of some lanes at once, their results written (R285, R291, R298). -/
def Work.performNow (w : Work) (n : Ins) (op : MemOp) (rs : List (Nat × Mapped)) : Work :=
  let x := w.s.pathsOf w.E.core op.acks op.l1 (rs.map (·.2))
  let p := op.perform rs x.1
  let w1 : Work := { w with s := p.1 }
  let outs := w1.loadOuts n op.len (maskOf (rs.map (·.1))) fun k i => op.word k (valueOf p.2 i)
  let w2 := outs.foldl (fun w o => w.set o.1 o.2.1 o.2.2) w1
  if op.acks && rs != [] then w2.unacked.request (sentFor w2.s.tick true x.2) else w2

/-- The accesses of all active lanes, their results on the scoreboard (R47, R291, R298). -/
def Work.performLater (w : Work) (n : Ins) (op : MemOp) (rs : List (Nat × Mapped)) : Work :=
  let x := w.s.pathsOf w.E.core op.acks op.l1 (rs.map (·.2))
  let p := op.perform rs x.1
  let w1 : Work := { w with s := p.1 }
  let w2 := if op.acks then w1.unacked else w1
  let acks := if op.acks then sentFor w1.s.tick true x.2 else []
  if op.len = 0 then w2.request acks
  else
    let outs := w2.loadOuts n op.len w2.act fun k i => op.word k (valueOf p.2 i)
    (w2.holdFor (w2.pendOf true x.2.length 0#32 outs)).request (acks ++ sentFor w2.s.tick false x.2)

/-- What the requests of an instruction to the peer aperture have come to for an access: one that is no peer's, or whose answer is OK, is
performed; one may be still to ask. -/
def PeerReq.fine (asked : Option PeerReq) (r : Nat × Mapped) : Bool :=
  targetOf r.2.pa ≠ .peer || (match asked with
    | some q => (q.lanes.any fun l => l.1 = r.1) && (q.bad [r.1]).isNone
    | none => false)

/-- The accesses among some that are still to be asked for. -/
def PeerReq.unasked (asked : Option PeerReq) (rs : List (Nat × Mapped)) : List (Nat × Mapped) :=
  rs.filter fun r => targetOf r.2.pa = .peer && !(match asked with
    | some q => q.lanes.any fun l => l.1 = r.1
    | none => false)

/-- The shared effect of the memory instructions (R298). -/
def Work.memory (w0 : Work) (n : Ins) (op : MemOp) : Eff :=
  if w0.act = 0 then .done w0
  else if w0.memHeld then .hold
  else
    let lanes := lanesOf w0.act
    match lanes.find? fun i => op.va i % op.size ≠ 0 with
    | some i => .trap { cause := 0x07, info := i, addr := op.va i }
    | none =>
      let x := w0.xlateAll op.acc op.ok op.va lanes
      let w := x.1
      let failed := failuresOf op.va x.2
      let mapped := mappedOf x.2
      let lockOf (i : Nat) : Option Nat := (w.s.core w.E.core).memLock w.E.ctx (op.va i) op.size
      let free := mapped.filter fun r => (lockOf r.1).isNone && !w.s.refuses r.2.pa
      let asked := w.asked
      let fine := free.filter (PeerReq.fine asked)
      let wa := (asked.map w.answered).getD w
      let done := w0.done1 ||| maskOf (fine.map (·.1))
      let ask (l : List (Nat × Mapped)) : State :=
        (wa.performNow n op fine).ask (l.map fun r => (r.1, r.2.pa)) done
      if (mapped.any fun r => w.s.mapWaits r.2.pa) || !(asked.map PeerReq.complete).getD true then .hold
      else if failed ≠ [] then
        match PeerReq.unasked asked free with
        | r :: t => .raw (ask (r :: t))
        | [] =>
          let w3 := wa.performNow n op fine
          w3.park done (w3.faultsOf op.acc done failed)
      else
        match mapped.find? fun r => (lockOf r.1).isSome with
        | some r => .trapAfter wa { cause := 0x0A, info := (lockOf r.1).getD 0, addr := op.va r.1 }
        | none =>
          match mapped.find? fun r => w.s.refuses r.2.pa with
          | some r => .trapAfter wa { cause := 0x11, addr := op.va r.1 }
          | none =>
            match asked.bind fun r => r.bad (mapped.map (·.1)), PeerReq.unasked asked free with
            | some i, _ =>
              .trapAfter (wa.performNow n op fine)
                { cause := 0x11, addr := op.va i, done := maskOf (fine.map (·.1)) }
            | none, r :: t => .raw (ask (r :: t))
            | none, [] => .done (wa.performLater n op free)

/-- A single access, for the instructions that make one: a bulk operation's word, or its range within pages (R183, R311). -/
def Work.single (w0 : Work) (acc : Access) (ok : Nat → Bool) (len : Nat) (vas : List Nat) (body : Work → List Mapped → Eff) :
    Eff :=
  let lane := lowLane w0.act
  let x := w0.xlateAll acc ok (fun k => vas.getD k 0) (List.range vas.length)
  let w := x.1
  let failed := (failuresOf (fun k => vas.getD k 0) x.2).map fun f => (lane, f.2)
  let mapped := (mappedOf x.2).map (·.2)
  if failed ≠ [] then w.park 0 (w.faultsOf acc 0 failed)
  else
    match (w.s.core w.E.core).memLock w.E.ctx (vas.headD 0) len with
    | some e => .trapAfter w { cause := 0x0A, info := e, addr := vas.headD 0 }
    | none =>
      let peers := (List.range mapped.length).filterMap fun k => (mapped[k]?).bind fun m =>
        if targetOf m.pa = .peer then some (k, m.pa) else none
      if mapped.any fun m => w.s.refuses m.pa then .trapAfter w { cause := 0x11, addr := vas.headD 0 }
      else if mapped.any fun m => w.s.mapWaits m.pa then .hold
      else
        match w.asked, peers with
        | none, _ :: _ => .raw (w.ask peers w0.done1)
        | asked, _ =>
          let bad := asked.bind fun r => r.bad (peers.map (·.1))
          if (asked.map PeerReq.complete).getD true = false then .hold
          else if bad.isSome then .trapAfter ((asked.map w.answered).getD w) { cause := 0x11, addr := vas.getD (bad.getD 0) 0 }
          else body ((asked.map w.answered).getD w) mapped

/-- STORE_ACKNOWLEDGE (R378): the home or the port has acknowledged a write. -/
def execStoreAcknowledge (tid id : Nat) (s : State) : Out :=
  .next (s.modTroupe tid fun t => { t with unacked := t.unacked.filter (· ≠ id) })

end Sys2Proof.Machine
end

