-- ==== Sys2Proof/Machine/Control.lean ====
section
/-! DEFINITION. The split machine: forks, meeting points, fusion, spill and swap-back, the full bracket, and the control
instructions (R82 to R109). -/

namespace Sys2Proof.Machine

open Sys2Proof

/-- The program counter of a word of an overlay (R65), whose word index has 14 bits. -/
def pcAt (ovl word : Nat) : Word := BitVec.ofNat 32 (65536 * (ovl % 4096) + 4 * (word % 16384))

/-- The overlay of a program counter (R65). -/
def ovlOf (pc : Word) : Nat := bvField pc 27 16

/-- The byte offset of a program counter in its overlay (R65). -/
def offsetOf (pc : Word) : Nat := 4 * bvField pc 15 2

/-! ### Spill -/

/-- A word of an overlay as a target (R101): one past word 16,383 lies beyond the overlay (log entry 17). -/
def destAt (ovl word : Nat) : Dest := { pc := pcAt ovl word, past := 16384 ≤ word }

/-- Write a spilled split's record and its shadow data (R88, R388). -/
def State.writeSpill (s : State) (base k : Nat) (p : Split) : State :=
  (lanesOf p.mask).foldl (fun s i => if shadowSlot p i = [] then s else s.homeWrite (base + 0x30000 + 1024 * i) (shadowSlot p i))
    (s.homeWrite (stackRecord base k) (splitBytes p ++ shadowBlock p ++ zeros (8192 - 1088)))

/-- The lowest-numbered free resident entry (R82). -/
def Troupe.freeEntry (t : Troupe) : Option Nat :=
  (List.range 8).find? fun k => (t.splits.find? k).isNone && (t.coming.find? k).isNone

/-- The split of a list that a comparison puts first. -/
def bestSplit (better : Split → Split → Bool) : List (Nat × Split) → Option (Nat × Split)
  | [] => none
  | a :: t =>
    match bestSplit better t with
    | none => some a
    | some b => if better b.2 a.2 then some b else some a

/-- The victim of a spill (R89): the least recently issued resident split, passing over the forking split, a split in a
bracket, and a split swapped in that has not issued since. -/
def Troupe.victim (t : Troupe) (forking : Nat) : Option (Nat × Split) :=
  bestSplit (fun b a => b.lastIss < a.lastIss) (t.splits.filter fun e => e.2.uid ≠ forking && !e.2.infull && !e.2.swapIn)

/-- The cycles that count for a troupe's exchanges (R90, R94): those that its context has spent on its core's stage, without those
that the troupe has spent in brackets. -/
def State.exchCycles (s : State) (t : Troupe) : Nat :=
  match s.ensembles.find? t.ens with
  | none => 0
  | some e =>
    let n := (s.core e.core).stageCycles e.ctx s.now
    n - t.fullFor - (match t.fullFrom with
      | some f => n - f
      | none => 0)

/-- Put a split at the end of the split stack (R88); the exchange interval starts with the first (R90). -/
def State.spill (s : State) (tid base : Nat) (t : Troupe) (p : Split) : State × Troupe :=
  let s1 := s.writeSpill base (t.stackHead + t.stack.length) p
  if t.stack = [] then (s1.at_ (s1.now + 4096) (.splitExchange tid), { t with stack := [p], exchAt := s.exchCycles t })
  else (s1, { t with stack := t.stack ++ [p] })

/-- Place a new split (R85, R89): a free entry, else a victim's, else the split stack. -/
def State.place (s : State) (tid base forking : Nat) (t : Troupe) (p : Split) : State × Troupe :=
  match t.freeEntry with
  | some k => (s, { t with splits := t.splits.put k p })
  | none =>
    match t.victim forking with
    | some (k, v) =>
      let r := s.spill tid base t v
      (r.1, { r.2 with splits := r.2.splits.put k p })
    | none => s.spill tid base t p

/-- Place new splits in ascending order of target (R85). -/
def State.placeAll (s : State) (tid base forking : Nat) (t : Troupe) : List Split → State × Troupe
  | [] => (s, t)
  | p :: ps =>
    let r := s.place tid base forking t p
    r.1.placeAll tid base forking r.2 ps

/-! ### Fork -/

/-- The fork identifiers that frames of a troupe hold (R83). -/
def Troupe.forkIds (t : Troupe) : List (BitVec 16) := t.allSplits.flatMap fun p => p.frames.map (·.forkId)

/-- The fork counter's value, skipping values that frames hold (R83). -/
def freshFork (held : List (BitVec 16)) : Nat → BitVec 16 → BitVec 16
  | 0, k => k
  | n + 1, k => if held.contains k then freshFork held n (k + 1) else k

/-- The latest main-file write time of a split's pending fixed-latency results (R42). -/
def Split.landDue (p : Split) : Nat := p.landings.foldl (fun m l => max m l.due) 0

/-- The split goes on somewhere else, in STATE 1, from some cycle on, and not before its pending results are written (R96). -/
def Split.goOn (p : Split) (from_ : Nat) (d : Dest) : Split :=
  { p.at_ d with earliest := max from_ p.landDue, state := 1, atRejoin := 0 }

/-- The split starts a new run at a redirection (R43, R96). -/
def Split.redirect (p : Split) (from_ : Nat) (d : Dest) : Split := p.newRun.goOn from_ d

/-- The cycle from which the successor of a redirection may issue: 4 cycles after it (R96), and never sooner than its STALL allows (R41). -/
def Work.after (w : Work) (n : Ins) : Nat := w.s.now + max 4 (1 + n.stall)

/-- The instruction forks its split among groups of lanes in ascending order of target (R85). The fork waits for the split's scalar
results (R43). A new split keeps the place of the forking one in the order of issues (R91; log entry 93). -/
def Work.fork (w0 : Work) (n : Ins) (rcv : Word) (groups : List (Dest × Mask)) : Eff :=
  let w := w0.issued n
  let needs := w.S.rcv ≠ some rcv
  if w.scalarsIn = false then .hold
  else if needs ∧ 16 ≤ w.S.frames.length then .trap { cause := 0x0D }
  else
    let id := freshFork w.T.forkIds 65536 w.T.forkCtr
    let frames := if needs then w.S.frames ++ [⟨rcv, id, 0⟩] else w.S.frames
    let base := match w.s.contexts.find? w.E.ctx with
      | some c => blockBase c w.T.block
      | none => 0
    let child (k : Nat) (g : Dest × Mask) : Split :=
      ({ w.S.redirect (w0.after n) g.1 with
          mask := g.2, frames := frames, uid := if k = 0 then w.S.uid else w.T.nextUid + (k - 1),
          born := if k = 0 then w.S.born else w.s.tick } : Split).meet
    match groups with
    | [] => .hold
    | g :: gs =>
      let p0 := child 0 g
      let kids := (List.range gs.length).map fun k => child (k + 1) (gs.getD k ({ pc := 0 }, 0))
      let t0 := { w.T with nextUid := w.T.nextUid + gs.length, forkCtr := if needs then id + 1 else w.T.forkCtr,
                           splits := w.T.splits.put w.ent p0 }
      let r := w.s.bump.placeAll w.tid base w.S.uid t0 kids
      let s1 : State := { r.1 with troupes := r.1.troupes.put w.tid r.2, ensembles := r.1.ensembles.put w.T.ens w.E }
      .raw (if (p0 :: kids).any fun p => p.state = 3 then s1.settle w.tid s1.now else s1)

/-- The instruction sends its split to another place (R96). -/
def Work.goto (w0 : Work) (n : Ins) (d : Dest) : Eff :=
  let w := w0.issued n
  .raw ({ w with S := w.S.redirect (w0.after n) d } : Work).close

/-- Insert into a rising list, each number once. -/
def sortedInsert (a : Nat) : List Nat → List Nat
  | [] => [a]
  | b :: t => if a < b then a :: b :: t else if a = b then b :: t else b :: sortedInsert a t

/-- The groups of lanes with one key each, in ascending order of the key (R85). -/
def groupsBy (mask : Mask) (key : Nat → Nat) : List (Nat × Mask) :=
  (((lanesOf mask).map key).foldl (fun l a => sortedInsert a l) []).map fun a => (a, maskFilter mask fun i => key i = a)

/-- Send each lane to its own target, keys in the order of targets: one group is a taken branch, several fork (R101, R103, R104). -/
def Work.scatter (w : Work) (n : Ins) (rcv : Word) (key : Nat → Nat) (dest : Nat → Dest) : Eff :=
  match groupsBy w.S.mask key with
  | [g] => w.goto n (dest g.1)
  | gs => w.fork n rcv (gs.map fun g => (dest g.1, g.2))

/-- Write the link register of every lane of the split (R102): a new run follows, so the value stands at once. -/
def Work.link (w : Work) (n : Ins) : Work := w.set (w.T.oReg 7) w.S.mask fun _ => pcStep w.S.pc n.ilen

/-- A drain point that no redirection makes (R43): the split is held until its fixed-latency results have landed. -/
def atDrain (body : Work → Eff) (w : Work) : Eff := if w.drained then body w else .hold

/-- nop (R98). -/
def opNop (_ : Ins) (w : Work) : Eff := .done w

/-- bra (R99). -/
def opBra (n : Ins) (w : Work) : Eff := w.goto n (destAt (ovlOf w.S.pc) n.tgt)

/-- The lanes of a brc whose condition holds (R100). -/
def Work.branchLanes (w : Work) (n : Ins) : Mask :=
  maskFilter w.S.mask fun i => (w.read (.p n.pred) i = 1#32) != n.pneg

/-- brc (R100). -/
def opBrc (n : Ins) (w : Work) : Eff :=
  let t := w.branchLanes n
  let target := destAt (ovlOf w.S.pc) n.tgt
  let next := nextDest w.S.pc n.ilen
  if t = 0 then .done w
  else if t = w.S.mask then w.goto n target
  else
    let f := w.S.mask &&& ~~~t
    w.fork n (pcAt (ovlOf w.S.pc) n.aux)
      (if n.tgt < bvField w.S.pc 15 2 + n.ilen / 4 then [(target, t), (next, f)] else [(next, f), (target, t)])

/-- The word to which brx and callx send a lane (R101). -/
def Work.tableWord (w : Work) (n : Ins) (i : Nat) : Nat := n.tgt + min (w.src true n n.si 0 i).toNat n.mod

/-- brx (R101). -/
def opBrx (n : Ins) (w : Work) : Eff :=
  w.scatter n (pcAt (ovlOf w.S.pc) n.aux) (w.tableWord n) (destAt (ovlOf w.S.pc))

/-- call (R102). -/
def opCall (n : Ins) (w : Work) : Eff := (w.link n).goto n (destAt (ovlOf w.S.pc) n.tgt)

/-- callx (R103). -/
def opCallx (n : Ins) (w : Work) : Eff :=
  (w.link n).scatter n (pcStep w.S.pc n.ilen) (w.tableWord n) (destAt (ovlOf w.S.pc))

/-- ocall (R76). -/
def opOcall (n : Ins) (w : Work) : Eff :=
  if ((w.s.core w.E.core).slotOf w.E.ctx (n.aux % 4096)).isNone then .trap { cause := 0x0C, info := n.aux % 4096 }
  else (w.link n).goto n (destAt n.aux n.tgt)

/-- The program counter that ret takes from a link value (R104). -/
def retTarget (x : Word) : Word := x &&& 0x0FFFFFFC#32

/-- ret (R104). -/
def opRet (n : Ins) (w : Work) : Eff :=
  w.scatter n (w.S.rcv.getD 0xFFFFFFFF#32) (fun i => (retTarget (w.read (w.T.oReg 7) i)).toNat)
    fun a => { pc := BitVec.ofNat 32 a }

/-- The split leaves the troupe (R86, R105): its entry is free, a spilled split may take it, and the others settle. -/
def Work.leaveTroupe (w : Work) : State :=
  let t := { w.T with splits := w.T.splits.del w.ent }
  let s1 : State := { w.s with troupes := w.s.troupes.put w.tid t, ensembles := w.s.ensembles.put w.T.ens w.E }
  ((s1.settle w.tid s1.now).at_ s1.now (.splitSwapBack w.tid)).at_ s1.now (.troupeEnd w.tid)

/-- exit (R105). -/
def opExit (n : Ins) : Work → Eff :=
  atDrain fun w =>
    let rest := w.S.mask &&& ~~~w.act
    if rest = 0 ∧ w.act ≠ 0 then .raw (w.issued n).leaveTroupe
    else .done { w with S := { w.S.newRun with mask := rest } }

/-- yield (R106): every issue makes its split the most recently issued. -/
def opYield (_ : Ins) (w : Work) : Eff := .done w

/-- rejoin (R107): the split stands at its rejoin in STATE 3. -/
def opRejoin (n : Ins) (w : Work) : Eff :=
  let w1 := w.issued n
  let s1 := ({ w1 with S := { w1.S with state := 3, atRejoin := n.ilen } } : Work).commit
  .raw (s1.settle w.tid s1.now)

/-- full (R94, R108). -/
def opFull (n : Ins) (w : Work) : Eff :=
  let others := w.T.allSplits.filter fun p => p.uid ≠ w.S.uid
  if !w.drained ∨ (others.any fun p => p.landings ≠ []) ∨ (w.T.pend.any fun p => p.owner ≠ w.S.uid) then .hold
  else
    let w1 := w.issued n
    .done { w with
      S := { w.S.newRun with fsave := w.S.mask, mask := (w1.T.allSplits.map (·.mask)).foldl (· ||| ·) w.S.mask, infull := true }
      T := { w.T with fullFrom := some ((w.s.core w.E.core).stageCycles w.E.ctx w.s.now) } }

/-- endfull (R94, R108). -/
def opEndfull (_ : Ins) : Work → Eff :=
  atDrain fun w =>
    let n := (w.s.core w.E.core).stageCycles w.E.ctx w.s.now
    .done { w with
      S := { w.S.newRun with mask := w.S.fsave, infull := false }
      T := { w.T with fullFor := w.T.fullFor + (n - w.T.fullFrom.getD n), fullFrom := none } }

/-- The fact that splq writes (R109). -/
def Work.query (w : Work) (q : Nat) : Nat :=
  match q with
  | 0 => (lanesOf w.S.mask).length
  | 1 => lowLane w.S.mask
  | 2 => w.T.allSplits.length
  | 3 => w.S.frames.length
  | 8 => w.ent
  | k => w.S.mask.toNat / 2 ^ (32 * (k - 4)) % 2 ^ 32

/-- splq (R109): an integer-pipe producer (R81), so that its result goes to the integer latch of each active lane too (log entry 100). -/
def opSplq (n : Ins) : Work → Eff :=
  ifActive fun w => .done (w.result false true n 1 fun _ _ => BitVec.ofNat 32 (w.query n.mod))

/-! ### Fusion -/

/-- The last frame index that every split of a group shares, plus one; 0 for none (R87). -/
def sharedFrames (ps : List Split) : Nat :=
  let same (k : Nat) : Bool :=
    match ps with
    | [] => false
    | p :: _ => (p.frames[k]?).isSome && ps.all fun q => (q.frames[k]?).map (·.forkId) = (p.frames[k]?).map (·.forkId)
  ((List.range 16).filter same).foldl (fun b k => max b (k + 1)) 0

/-- A split wrote sN since the common fork (R87): `c` counts the shared frames. -/
def Split.wroteSince (p : Split) (c n : Nat) : Bool := (p.frames.drop (c - 1)).any fun f => f.wr.getLsbD n

/-- The split of a group that holds the lowest lane. -/
def lowestOf : List Split → Option Split
  | [] => none
  | p :: t =>
    match lowestOf t with
    | none => some p
    | some q => if lowLane q.mask < lowLane p.mask then some q else some p

/-- The merge of one scalar register over a fusing group (R87): its value, and whether SMERGE is set. -/
def mergeScalar (ps : List Split) (c n : Nat) : Word × Bool :=
  let ws := ps.filter fun p => p.wroteSince c n
  let from_ := if ws = [] then ps else ws
  match lowestOf from_ with
  | none => (0, false)
  | some p => (p.scal.get n, !(from_.all fun q => q.scal.get n = p.scal.get n))

/-- Fuse a group of splits into the one that keeps its entry (R87), which stands at some place and may issue from some cycle on; `frames`
are the fused split's. It keeps its place in the order of issues (R91; log entry 93). -/
def fuse (ps : List Split) (keep : Split) (frames : List Frame) (d : Dest) (from_ tick : Nat) : Split × Bool :=
  let c := sharedFrames ps
  let ms := (List.range 64).map fun n => mergeScalar ps c n
  ({ ({ keep with landings := ps.flatMap (·.landings) } : Split).redirect from_ d with
      mask := (ps.map (·.mask)).foldl (· ||| ·) 0, frames := frames, born := tick,
      scal := (List.range 64).foldl (fun t n => Store.set t n (ms.getD n (0, false)).1) [] },
   ms.any (·.2))

/-- What a release makes of the splits of a meeting point (R86): several fuse, and one alone only goes on, in its run (R43, R107). -/
def release (ps : List Split) (keep : Split) (frames : List Frame) (d : Dest) (now tick : Nat) : Split × Bool :=
  if ps.length ≤ 1 then ({ keep.goOn (now + 4) d with frames := frames }, false) else fuse ps keep frames d (now + 4) tick

/-- A value of WR added to that of the top frame. -/
def addWr (wr : BitVec 64) (fs : List Frame) : List Frame :=
  match fs.reverse with
  | [] => []
  | f :: r => ({ f with wr := f.wr ||| wr } :: r).reverse

/-- The frames of splits of one group that fuse before the rest of it is resident (log entry 18): those that they share, or where they
share none those of the deepest; the top frame has what they wrote since the common fork. -/
def partFrames (ps : List Split) : List Frame :=
  let c := sharedFrames ps
  let deep := ps.foldl (fun (b : List Frame) p => if b.length < p.frames.length then p.frames else b) []
  let wr := (ps.flatMap fun p => (p.frames.drop (c - 1)).map (·.wr)).foldl (· ||| ·) 0
  addWr wr (if c = 0 then deep else deep.take c)

/-- Fuse the resident splits of a group whose others are spilled (R86; log entry 18): they stand on at the meeting point. -/
def fusePart (ps : List Split) (keep : Split) (now tick : Nat) : Split × Bool :=
  let r := fuse ps keep (partFrames ps) { pc := keep.pc, past := keep.past } now tick
  ({ r.1 with state := 3, atRejoin := keep.atRejoin }, r.2)

/-- A split waits at its reconvergence address with a fork identifier on top (R86). -/
def Split.waitsAt (p : Split) (f : BitVec 16) : Bool :=
  p.state = 3 && p.atRejoin = 0 && (p.frames.getLast?.map (·.forkId)) = some f

/-- The group that the reconvergence rule releases (R86): splits at one address with the same frame stack, once no other split
holds their top fork identifier. -/
def Troupe.released (t : Troupe) : Option (List Split) :=
  let all := t.allSplits
  (all.filter fun p => p.state = 3 && p.atRejoin = 0).findSome? fun p =>
    match p.frames.getLast? with
    | none => none
    | some f =>
      if all.all fun q => (q.waitsAt f.forkId && q.pc = p.pc) || !(q.frames.any fun g => g.forkId = f.forkId) then
        some (all.filter fun q => q.waitsAt f.forkId && q.pc = p.pc && q.frames.map (·.forkId) = p.frames.map (·.forkId))
      else none

/-- The groups that the rejoin rule releases (R86): every split stands in STATE 3, and each rejoin's splits form a group. -/
def Troupe.rejoined (t : Troupe) : Option (List (List Split)) :=
  let all := t.allSplits
  if all = [] ∨ !(all.all fun p => p.state = 3) ∨ t.released.isSome then none
  else
    some ((distinct ((all.filter fun p => p.atRejoin ≠ 0).map fun p => p.pc.toNat)).map fun a =>
      all.filter fun p => p.atRejoin ≠ 0 && p.pc.toNat = a)

/-- The scalar results that a fusion waits for have been written (R43). -/
def Troupe.settled (t : Troupe) (ps : List Split) : Bool :=
  !(t.pend.any fun d => (ps.any fun p => p.uid = d.owner) && d.outs.any fun o => match o.reg with
    | .s _ => true
    | _ => false)

/-- Put a fused split where the lowest entry of its group stood. -/
def Troupe.putFused (t : Troupe) (ps : List Split) (k : Nat) (p : Split × Bool) : Troupe :=
  { t with
    splits := Tab.put (t.splits.filter fun e => !(ps.any fun x => x.uid = e.2.uid)) k p.1
    tstat := if p.2 then t.tstat ||| flagMerge else t.tstat }

/-- The lowest entry of the resident members of a group. -/
def Troupe.groupEntry (t : Troupe) (ps : List Split) : Option (Nat × Split) :=
  List.find? (fun e => ps.any fun x => x.uid = e.2.uid) t.splits

/-- The resident members of a group. -/
def Troupe.resident (t : Troupe) (ps : List Split) : List Split := ps.filter fun p => t.splits.any fun e => e.2.uid = p.uid

/-- Fuse the resident members of a group, if several of its members are (R86; log entry 18). -/
def Troupe.fuseHere (t : Troupe) (now tick : Nat) (ps : List Split) : Troupe :=
  let here := t.resident ps
  match t.groupEntry ps with
  | none => t
  | some (k, keep) => if here.length ≤ 1 then t else t.putFused here k (fusePart here keep now tick)

/-- Entries that fusions have freed take spilled splits (R90), and what waits is settled again (R86). -/
def State.freed (s : State) (tid : Nat) : State := (s.bump.settle tid s.now).at_ s.now (.splitSwapBack tid)

/-- RECONVERGENCE_FUSION (R86, R87): fuse a released group, pop its frame, and look again. Members on the split stack fuse once they are
resident; those that are resident fuse before them. -/
def execReconvergenceFusion (tid : Nat) (s : State) : Out :=
  match s.troupes.find? tid with
  | none => .next s
  | some t =>
    match t.released with
    | none => .next s
    | some ps =>
      if t.settled ps = false then .next (s.at_ (s.now + 1) (.reconvergenceFusion tid))
      else
        match t.groupEntry ps with
        | none => .next s
        | some (k, keep) =>
          let here := t.resident ps
          if here.length < ps.length then
            if here.length ≤ 1 then .next s
            else .next (({ s with troupes := s.troupes.put tid (t.fuseHere s.now s.tick ps) } : State).freed tid)
          else
            let wr := (ps.map fun p => (p.frames.getLast?.map (·.wr)).getD 0).foldl (· ||| ·) 0
            let p := release ps keep (addWr wr keep.frames.dropLast) { pc := keep.pc, past := keep.past } s.now s.tick
            .next (({ s with troupes := s.troupes.put tid (t.putFused ps k (p.1.meet, p.2)) } : State).freed tid)

/-- A split alone at its rejoin passes it with DEPTH 0 and no merge (R86, R107). -/
def Split.passRejoin (p : Split) (now : Nat) : Split := { p.goOn (now + 4) (nextDest p.pc p.atRejoin) with frames := [] }

/-- One group of the rejoin rule (R86, R87, R107). -/
def Troupe.passRejoin (t : Troupe) (now tick : Nat) (ps : List Split) : Troupe :=
  match ps with
  | [p] => t.modSplit p.uid fun p => p.passRejoin now
  | ps =>
    match t.groupEntry ps with
    | none => t
    | some (k, keep) => t.putFused ps k (fuse ps keep [] (nextDest keep.pc keep.atRejoin) (now + 4) tick)

/-- The records of the split stack hold the spilled splits of some names as they stand (R88). -/
def State.rewriteSpills (s : State) (tid : Nat) (uids : List Nat) : State :=
  match s.troupes.find? tid with
  | none => s
  | some t =>
    match s.ensembles.find? t.ens with
    | none => s
    | some e =>
      (List.range t.stack.length).foldl (fun (s : State) j => match t.stack[j]? with
        | some p => if uids.contains p.uid then s.writeSpill (blockBase (s.ctx e.ctx) t.block) (t.stackHead + j) p else s
        | none => s) s

/-- REJOIN_RELEASE (R86): once every split stands in STATE 3, the splits at each rejoin fuse and go on with DEPTH 0. A group of several
fuses once all of them are resident; those that are resident fuse before the others (log entry 18). -/
def execRejoinRelease (tid : Nat) (s : State) : Out :=
  match s.troupes.find? tid with
  | none => .next s
  | some t =>
    match t.rejoined with
    | none => .next s
    | some gs =>
      if t.settled gs.flatten = false then .next (s.at_ (s.now + 1) (.rejoinRelease tid))
      else
        let several := gs.filter fun g => 2 ≤ g.length
        if several.all fun g => (t.resident g).length = g.length then
          let t1 := gs.foldl (fun t g => t.passRejoin s.now s.tick g) t
          let s1 : State := { s with troupes := s.troupes.put tid t1 }
          .next ((s1.rewriteSpills tid (t.stack.map (·.uid))).bump.at_ s.now (.splitSwapBack tid))
        else
          let part := several.filter fun g => 2 ≤ (t.resident g).length ∧ (t.resident g).length < g.length
          if part = [] then .next s
          else
            let t1 := part.foldl (fun t g => t.fuseHere s.now s.tick g) t
            .next (({ s with troupes := s.troupes.put tid t1 } : State).freed tid)

/-! ### Swap-back and exchange -/

/-- Take the split longest on the split stack into an entry: its record is read first (R90). -/
def State.fetchBack (s : State) (tid : Nat) (t : Troupe) (k : Nat) : State :=
  match t.stack with
  | [] => { s with troupes := s.troupes.put tid t }
  | p :: rest =>
    let t1 := { t with stack := rest, stackHead := (t.stackHead + 1) % 120, coming := t.coming.put k p }
    let base := match (s.ensembles.find? t.ens).bind fun e => s.contexts.find? e.ctx with
      | some c => stackRecord (blockBase c t.block) t.stackHead
      | none => 0
    let r := readMax (s.coreOf tid) ((List.range 34).map fun i => base + 32 * i) { s with troupes := s.troupes.put tid t1 }
    r.1.bump.at_ (s.now + r.2) (.swapBackReadComplete tid k)

/-- SPLIT_SWAP_BACK (R90). -/
def execSplitSwapBack (tid : Nat) (s : State) : Out :=
  match s.troupes.find? tid with
  | none => .next s
  | some t =>
    match t.freeEntry with
    | none => .next s
    | some k => .next (s.fetchBack tid t k)

/-- SWAP_BACK_READ_COMPLETE (R90, R398): the returning split is resident. -/
def execSwapBackReadComplete (tid k : Nat) (s : State) : Out :=
  match s.troupes.find? tid with
  | none => .next s
  | some t =>
    match t.coming.find? k with
    | none => .next s
    | some p =>
      let t1 := { t with coming := t.coming.del k, splits := t.splits.put k { p with swapIn := true } }
      .next ((({ s with troupes := s.troupes.put tid t1 } : State).settle tid s.now).at_ s.now (.splitSwapBack tid))

/-- The resident split that an exchange puts on the split stack (R90): the youngest blocked one, the lowest entry among those of one
fork (log entry 93), else the least recently issued. -/
def Troupe.exchanged (t : Troupe) : Option (Nat × Split) :=
  match bestSplit (fun b a => a.born < b.born) (t.splits.filter fun e => e.2.state = 2 || e.2.state = 3) with
  | some x => some x
  | none => bestSplit (fun b a => b.lastIss < a.lastIss) t.splits

/-- Exchange the split longest on the split stack with a resident one (R90); the next interval begins. -/
def State.exchange (s : State) (tid base : Nat) (t : Troupe) : State :=
  match t.exchanged with
  | none => s
  | some (k, v) =>
    let r := s.spill tid base { t with splits := t.splits.del k, exchAt := s.exchCycles t } v
    r.1.fetchBack tid r.2 k

/-- SPLIT_EXCHANGE (R90): due when 4,096 on-stage cycles outside brackets have passed since the last. -/
def execSplitExchange (tid : Nat) (s : State) : Out :=
  match s.troupes.find? tid with
  | none => .next s
  | some t =>
    match s.ensembles.find? t.ens with
    | none => .next s
    | some e =>
      let gone := s.exchCycles t - t.exchAt
      if t.stack = [] ∨ (s.agenda.any fun x => x.ev = .splitExchange tid) then .next s
      else if gone < 4096 then .next (s.at_ (s.now + (4096 - gone)) (.splitExchange tid))
      else if (t.splits.any fun x => x.2.infull) ∨ (s.core e.core).onStage ≠ some e.ctx then
        .next (s.at_ (s.now + 1) (.splitExchange tid))
      else .next ((s.exchange tid (blockBase (s.ctx e.ctx) t.block) t).at_ (s.now + 4096) (.splitExchange tid))

/-- After a stop the order of issues is that of the entries, and the exchange interval starts again (R95). -/
def State.reorder (s : State) (tid : Nat) : State :=
  s.modTroupe tid fun t =>
    let n := match s.ensembles.find? t.ens with
      | some e => (s.core e.core).stageCycles e.ctx s.now
      | none => 0
    { t with
      splits := t.splits.map fun e => (e.1, { e.2 with lastIss := e.1 })
      exchAt := n, fullFor := 0, fullFrom := if t.splits.any fun e => e.2.infull then some n else none }

/-! ### Landing of results -/

/-- Mark a gmov write as landed, and forget the landed writes that no split reads around any more (R130). -/
def landG (id : Nat) (still : GWrite → Bool) (l : List GWrite) : List GWrite :=
  (l.map fun e => if e.id = id then { e with landed := true } else e).filter fun e => !e.landed || still e

/-- FIXED_LATENCY_WRITE (R42): the result has landed in the latch and the files. -/
def execFixedLatencyWrite (tid id : Nat) (s : State) : Out :=
  match s.troupes.find? tid with
  | none => .next s
  | some t =>
    let land (p : Split) : Split := { p with landings := p.landings.filter fun l => l.id ≠ id }
    let t1 := { t with splits := t.splits.map fun e => (e.1, land e.2), stack := t.stack.map land,
                       coming := t.coming.map fun e => (e.1, land e.2) }
    let s1 : State := { s with troupes := s.troupes.put tid t1 }
    .next (s1.modEns t.ens fun e =>
      if e.glog.any fun g => g.id = id then
        { e with glog := landG id (fun g => match s1.troupes.find? g.tid with
            | none => false
            | some x => (x.allSplits.any fun p => p.uid = g.uid && p.run = g.run && p.dist - g.stamp < 6)
              || (x.saved.any fun v => v.uid = g.uid && v.run = g.run && v.dist - g.stamp < 6)) e.glog }
      else e)

/-- SCOREBOARD_RESULT_WRITE (R47): the result is written and its hold released. -/
def execScoreboardResultWrite (tid id : Nat) (s : State) : Out := .next (s.landPend tid id)

/-- NOP (R98), extended form. -/
def execNop (f : X) (s : State) : Out := runX 0x01 f opNop s

/-- NOP_BASE (R98), base form. -/
def execNopBase (f : B3) (s : State) : Out := runB3 0x01 f opNop s

/-- BRA (R99), extended form. -/
def execBra (f : XT) (s : State) : Out := runXT 0x02 f opBra s

/-- BRA_BASE (R99), base form. -/
def execBraBase (f : BT) (s : State) : Out := runBT 0x02 f opBra s

/-- BRC (R100), extended form. -/
def execBrc (f : XT) (s : State) : Out := runXT 0x03 f opBrc s

/-- BRX (R101), extended form. -/
def execBrx (f : XT) (s : State) : Out := runXT 0x04 f opBrx s

/-- CALL (R102), extended form. -/
def execCall (f : XT) (s : State) : Out := runXT 0x05 f opCall s

/-- CALL_BASE (R102), base form. -/
def execCallBase (f : BT) (s : State) : Out := runBT 0x05 f opCall s

/-- CALLX (R103), extended form. -/
def execCallx (f : XT) (s : State) : Out := runXT 0x06 f opCallx s

/-- OCALL (R76), extended form. -/
def execOcall (f : XT) (s : State) : Out := runXT 0x07 f opOcall s

/-- RET (R104), extended form. -/
def execRet (f : X) (s : State) : Out := runX 0x08 f opRet s

/-- RET_BASE (R104), base form. -/
def execRetBase (f : B3) (s : State) : Out := runB3 0x08 f opRet s

/-- EXIT (R105), extended form. -/
def execExit (f : X) (s : State) : Out := runX 0x09 f opExit s

/-- EXIT_BASE (R105), base form. -/
def execExitBase (f : B3) (s : State) : Out := runB3 0x09 f opExit s

/-- YIELD (R106), extended form. -/
def execYield (f : X) (s : State) : Out := runX 0x0a f opYield s

/-- YIELD_BASE (R106), base form. -/
def execYieldBase (f : B3) (s : State) : Out := runB3 0x0a f opYield s

/-- REJOIN (R107), extended form. -/
def execRejoin (f : X) (s : State) : Out := runX 0x0b f opRejoin s

/-- REJOIN_BASE (R107), base form. -/
def execRejoinBase (f : B3) (s : State) : Out := runB3 0x0b f opRejoin s

/-- FULL (R94), extended form. -/
def execFull (f : X) (s : State) : Out := runX 0x0c f opFull s

/-- FULL_BASE (R94), base form. -/
def execFullBase (f : B3) (s : State) : Out := runB3 0x0c f opFull s

/-- ENDFULL (R94), extended form. -/
def execEndfull (f : X) (s : State) : Out := runX 0x0d f opEndfull s

/-- ENDFULL_BASE (R94), base form. -/
def execEndfullBase (f : B3) (s : State) : Out := runB3 0x0d f opEndfull s
/-- SPLQ (R109), extended form. -/
def execSplq (f : X) (s : State) : Out := runX 0x15 f opSplq s

/-- SPLQ_BASE (R109), base form. -/
def execSplqBase (f : B3) (s : State) : Out := runB3 0x15 f opSplq s

end Sys2Proof.Machine
end

