-- ==== Sys2Proof/Machine/FloatOps.lean ====
section
/-! DEFINITION. Floating-point arithmetic on elements: exact results, the rules of R191 to R193, and the special functions of
R206. -/

namespace Sys2Proof.Machine

open Sys2Proof

/-- The sum of two finite numbers, exact; an exact zero takes the sign of R193. -/
def addFin (mode : RMode) (n1 : Bool) (m1 : Nat) (e1 : Int) (n2 : Bool) (m2 : Nat) (e2 : Int) : Num :=
  if m1 = 0 ∧ m2 = 0 then .fin (if n1 = n2 then n1 else mode = .rdn) 0 0
  else
    let e := if m1 = 0 then e2 else if m2 = 0 then e1 else min e1 e2
    let a : Int := (if n1 then -1 else 1) * ((m1 * 2 ^ (e1 - e).toNat : Nat) : Int)
    let b : Int := (if n2 then -1 else 1) * ((m2 * 2 ^ (e2 - e).toNat : Nat) : Int)
    let t := (if m1 = 0 then 0 else a) + (if m2 = 0 then 0 else b)
    if t = 0 then .fin (mode = .rdn) 0 0 else .fin (t < 0) t.natAbs e

/-- The sum of two numbers that are not NaN; none when it is invalid (R192). -/
def addNum (mode : RMode) (a b : Num) : Option Num :=
  match a, b with
  | .inf x, .inf y => if x = y then some (.inf x) else none
  | .inf x, .fin _ _ _ => some (.inf x)
  | .fin _ _ _, .inf y => some (.inf y)
  | .fin n1 m1 e1, .fin n2 m2 e2 => some (addFin mode n1 m1 e1 n2 m2 e2)
  | .nan _, _ => none
  | _, .nan _ => none

/-- The product of two numbers that are not NaN; none when it is invalid (R192). -/
def mulNum (a b : Num) : Option Num :=
  match a, b with
  | .inf x, .inf y => some (.inf (x != y))
  | .inf x, .fin n m _ => if m = 0 then none else some (.inf (x != n))
  | .fin n m _, .inf y => if m = 0 then none else some (.inf (n != y))
  | .fin n1 m1 e1, .fin n2 m2 e2 => some (.fin (n1 != n2) (m1 * m2) (e1 + e2))
  | .nan _, _ => none
  | _, .nan _ => none

/-- The number with its sign inverted. -/
def negNum : Num → Num
  | .nan s => .nan s
  | .inf n => .inf (!n)
  | .fin n m e => .fin (!n) m e

/-- NaNres of R192. -/
def nanRes (f : Fmt) : Nat × Word := (f.nanCode, flagIf (f.spec = 2) flagInv)

/-- An infinity as a result (R191): code and flags. -/
def infRes (f : Fmt) (neg : Bool) : Nat × Word :=
  if !f.sign ∧ neg then (0, flagInv)
  else if f.spec = 0 then (f.signBit neg + (2 ^ f.ew - 1) * 2 ^ f.fw, 0#32)
  else if f.spec = 1 then (f.nanCode, 0#32)
  else (f.signBit neg + f.maxCode, 0#32)

/-- Pole of R192. -/
def poleRes (f : Fmt) (sat neg : Bool) : Nat × Word :=
  if !f.sign ∧ neg then (0, flagInv ||| flagOvf)
  else if sat then (f.signBit neg + f.maxCode, flagOvf)
  else ((infRes f neg).1, flagOvf)

/-- The rule of R191 for an operation without poles: `t` is none when it is invalid. -/
def arith (f : Fmt) (mode : RMode) (sat : Bool) (r : Nat) (ops : List Num) (t : Unit → Option Num) : Nat × Word :=
  let s := flagIf (ops.any Num.isSnan) flagInv
  if ops.any Num.isNan then ((nanRes f).1, (nanRes f).2 ||| s)
  else
    match t () with
    | none => ((nanRes f).1, (nanRes f).2 ||| flagInv)
    | some (.nan _) => ((nanRes f).1, (nanRes f).2 ||| flagInv)
    | some (.inf n) => infRes f n
    | some (.fin n m e) => roundFloat f mode sat n m e r

/-- fadd of two numbers (R196). -/
def faddNum (f : Fmt) (mode : RMode) (sat : Bool) (r : Nat) (a b : Num) : Nat × Word :=
  arith f mode sat r [a, b] fun _ => addNum mode a b

/-- a × b + c with one rounding (R196). -/
def ffmaNum (f : Fmt) (mode : RMode) (sat : Bool) (r : Nat) (a b c : Num) : Nat × Word :=
  arith f mode sat r [a, b, c] fun _ => (mulNum a b).bind fun p => addNum mode p c

/-- a < b, with −0 below +0 when `zeros` is set (R200, R202). -/
def ltNum (zeros : Bool) (a b : Num) : Bool :=
  match a, b with
  | .nan _, _ => false
  | _, .nan _ => false
  | .inf x, .inf y => x && !y
  | .inf x, .fin _ _ _ => x
  | .fin _ _ _, .inf y => !y
  | .fin n1 m1 e1, .fin n2 m2 e2 =>
    if m1 = 0 ∧ m2 = 0 then zeros && n1 && !n2
    else if m1 = 0 then !n2
    else if m2 = 0 then n1
    else if n1 ≠ n2 then n1
    else if n1 then !lePow m1 e1 m2 e2 else !lePow m2 e2 m1 e1

/-- fmin and fmax on codes (R200): the chosen operand's code, and the flags. -/
def minMax (f : Fmt) (isMax : Bool) (x y : Nat) : Nat × Word :=
  let a := decodeFloat f x
  let b := decodeFloat f y
  let s := flagIf (a.isSnan || b.isSnan) flagInv
  if a.isNan ∧ b.isNan then ((nanRes f).1, (nanRes f).2 ||| s)
  else if a.isNan then (y, s)
  else if b.isNan then (x, s)
  else (if (if isMax then ltNum true a b else ltNum true b a) then y else x, s)

/-- The conditions of fcmp (R202): the outcome and the flags. -/
def floatCond (c : Nat) (a b : Num) : Bool × Word :=
  let un := a.isNan || b.isNan
  let fl := flagIf (a.isSnan || b.isSnan || (un && 2 ≤ c && c ≤ 5)) flagInv
  let lt := ltNum false a b
  let gt := ltNum false b a
  (match c with
   | 0 => !un && !lt && !gt
   | 1 => un || lt || gt
   | 2 => !un && lt
   | 3 => !un && !gt
   | 4 => !un && gt
   | 5 => !un && !lt
   | 6 => un
   | _ => !un, fl)

/-- The class code of R203. -/
def classOf (f : Fmt) (x : Nat) : Nat :=
  match decodeFloat f x with
  | .nan s => if s then 8 else 9
  | .inf n => if n then 0 else 7
  | .fin n m e =>
    if m = 0 then (if n then 3 else 4)
    else if numLog m e < 1 - f.bias then (if n then 2 else 5)
    else (if n then 1 else 6)

/-- frnd on a number (R199). -/
def frndNum (f : Fmt) (mode : RMode) (sat : Bool) (r : Nat) (x : Nat) : Nat × Word :=
  match decodeFloat f x with
  | .nan s => ((nanRes f).1, (nanRes f).2 ||| flagIf s flagInv)
  | .inf _ => (x, 0#32)
  | .fin n m e =>
    if m = 0 ∨ 0 ≤ max (numLog m e) (1 - f.bias) - f.fw then (x, 0#32)
    else
      let k := roundTo mode n m e 0 r
      let t := roundFloat f mode sat n k.1 0 r
      (t.1, t.2 ||| flagIf k.2 flagInx ||| flagIf (k.2 && numLog m e < 1 - f.bias) flagUnf)

/-- fgetexp (R205). -/
def getExp (f : Fmt) (x : Nat) : Nat × Word :=
  match decodeFloat f x with
  | .nan s => ((nanRes f).1, (nanRes f).2 ||| flagIf s flagInv)
  | .inf _ => infRes f false
  | .fin _ m e =>
    if m = 0 then poleRes f false true
    else
      let k := numLog m e
      roundFloat f .rne false (k < 0) k.natAbs 0 0

/-- fgetman (R205). -/
def getMan (f : Fmt) (x : Nat) : Nat × Word :=
  match decodeFloat f x with
  | .nan s => ((nanRes f).1, (nanRes f).2 ||| flagIf s flagInv)
  | .inf _ => ((nanRes f).1, (nanRes f).2 ||| flagInv)
  | .fin n m e => if m = 0 then (x, 0#32) else roundFloat f .rne false n m (e - numLog m e) 0

/-! ### Special functions -/

/-- The integer square root: the greatest r below 2^b with r² ≤ n. -/
def isqrt (n : Nat) : Nat → Nat → Nat
  | 0, r => r
  | b + 1, r => isqrt n b (if (r + 2 ^ b) * (r + 2 ^ b) ≤ n then r + 2 ^ b else r)

/-- ⌊√n⌋. -/
def sqrtFloor (n : Nat) : Nat := isqrt n (log2 n / 2 + 1) 0

/-- Descriptor of FP32 (R166). -/
def ft0 : Fmt := fmtOf (builtin 0)

/-- Bits of the fixed-point approximations below. -/
def fixBits : Nat := 320

/-- Lower bounds of 2^(2^−i) for i = 1, 2, …, in fixed point, each the root of the one before. -/
def rootList : Nat → Nat → List Nat
  | 0, _ => []
  | n + 1, x => sqrtFloor (x * 2 ^ fixBits) :: rootList n (sqrtFloor (x * 2 ^ fixBits))

/-- A lower bound of 2^f in fixed point, for f = m / 2^s below 1; the true value is less than 2^20 units above it. -/
def exp2Low (m s : Nat) : Nat :=
  ((List.range s).zip (rootList s (2 ^ (fixBits + 1)))).foldl
    (fun p k => if bitOf m (s - 1 - k.1) then p * k.2 / 2 ^ fixBits else p) (2 ^ fixBits)

/-- Digits of log2 y, y in [1, 2), by squaring: with `up` every step rounds up, else down. -/
def logBits (up : Bool) : Nat → Nat → Nat → Nat
  | 0, _, acc => acc
  | n + 1, y, acc =>
    let z := (y * y + (if up then 2 ^ fixBits - 1 else 0)) / 2 ^ fixBits
    if 2 ^ (fixBits + 1) ≤ z then logBits up n ((z + up.toNat) / 2) (2 * acc + 1) else logBits up n z (2 * acc)

/-- Digits of the logarithm. -/
def logDigits : Nat := 200

/-- ⌊2^p / (k × d^j)⌋ series of the arc tangent of 1/d: alternating terms. -/
def atanInv (d : Nat) : Nat → Nat → Nat → Bool → Int
  | 0, _, _, _ => 0
  | n + 1, pw, k, neg => (if neg then -((pw / k : Nat) : Int) else ((pw / k : Nat) : Int)) + atanInv d n (pw / (d * d)) (k + 2) (!neg)

/-- π in fixed point, within 2^12 units (Machin's formula). -/
def piFix : Int :=
  16 * atanInv 5 90 (2 ^ fixBits / 5) 1 false - 4 * atanInv 239 30 (2 ^ fixBits / 239) 1 false

/-- The sine series of y (fixed point, 0 to 1): terms from `t` on. -/
def sinSeries (y2 : Int) : Nat → Int → Int → Int
  | 0, _, _ => 0
  | n + 1, t, k => t + sinSeries y2 n (-(t * y2 / 2 ^ fixBits / (k * (k + 1)))) (k + 2)

/-- sin y and cos y in fixed point, within 2^20 units. -/
def sinFix (y : Int) : Int := sinSeries (y * y / 2 ^ fixBits) 60 y 2
/-- See `sinFix`. -/
def cosFix (y : Int) : Int := sinSeries (y * y / 2 ^ fixBits) 60 (2 ^ fixBits) 1

/-- A function's exact real result as far as the model needs it: an exact dyadic number, or bounds: the magnitude lies strictly
between lo × 2^e and hi × 2^e, with hi ≥ lo + 1 small against the bound. -/
inductive RealRes where
  | exact (neg : Bool) (m : Nat) (e : Int)
  | near (neg : Bool) (lo hi : Nat) (e : Int)
  | huge
  | tiny (neg : Bool)
deriving DecidableEq, Repr

/-- 1/x (R206). -/
def rcpReal (neg : Bool) (m : Nat) (e : Int) : RealRes :=
  if 2 ^ log2 m = m then .exact neg 1 (-(e + log2 m))
  else .near neg (2 ^ 400 / m) (2 ^ 400 / m + 1) (-400 - e)

/-- 1/√x (R206). -/
def rsqReal (m : Nat) (e : Int) : RealRes :=
  let m' := if e % 2 = 0 then m else 2 * m
  let e' := if e % 2 = 0 then e else e - 1
  if 2 ^ log2 m' = m' ∧ log2 m' % 2 = 0 then .exact false 1 (-(e' / 2 + log2 m' / 2))
  else
    let r := sqrtFloor (2 ^ 800 / m')
    .near false r (r + 1) (-400 - e' / 2)

/-- 2^x (R206). -/
def exp2Real (neg : Bool) (m : Nat) (e : Int) : RealRes :=
  if m = 0 then .exact false 1 0
  else if 9 ≤ numLog m e then (if neg then .tiny false else .huge)
  else if 0 ≤ e then .exact false 1 ((if neg then -1 else 1) * (m * 2 ^ e.toNat : Nat))
  else
    let s := (-e).toNat
    let n := m / 2 ^ s
    let f := m % 2 ^ s
    if f = 0 then .exact false 1 ((if neg then -1 else 1) * (n : Int))
    else if 160 < s then .near false (2 ^ fixBits - (if neg then 2 ^ (fixBits - 150) else 0)) (2 ^ fixBits + 2 ^ (fixBits - 150)) (-(fixBits : Int))
    else
      let k : Int := if neg then -(n : Int) - 1 else n
      let p := exp2Low (if neg then 2 ^ s - f else f) s
      .near false p (p + 2 ^ 20) (k - fixBits)

/-- log2 x (R206). -/
def log2Real (m : Nat) (e : Int) : RealRes :=
  let k := numLog m e
  if 2 ^ log2 m = m then .exact (k < 0) k.natAbs 0
  else
    let y := m * 2 ^ (fixBits - log2 m)
    let lo := logBits false logDigits y 0
    let hi := logBits true logDigits y 0 + 1
    if 0 ≤ k then .near false (k.toNat * 2 ^ logDigits + lo) (k.toNat * 2 ^ logDigits + hi) (-(logDigits : Int))
    else .near true (k.natAbs * 2 ^ logDigits - hi) (k.natAbs * 2 ^ logDigits - lo) (-(logDigits : Int))

/-- A fixed-point value below 1 as a result, within 2^30 units. -/
def nearFix (neg : Bool) (v : Int) : RealRes :=
  .near neg (v.toNat - 2 ^ 30) (min (v.toNat + 2 ^ 30) (2 ^ fixBits)) (-(fixBits : Int))

/-- sin(πx) and cos(πx) (R206): the argument is reduced exactly to eighths of a turn. -/
def trigReal (cosine neg : Bool) (m : Nat) (e : Int) : RealRes :=
  if m = 0 ∨ 0 ≤ e ∨ 24 ≤ numLog m e then
    -- an integral argument; beyond 2^24 it is even
    let odd := m ≠ 0 && e = 0 && m % 2 = 1
    if cosine then .exact odd 1 0 else .exact neg 0 0
  else
    let s := (-e).toNat
    let u := m % 2 ^ (s + 1)                       -- x modulo 2, over 2^s
    let half := 2 * u % 2 ^ s = 0                  -- a multiple of one half
    let q := 2 * u / 2 ^ s                         -- quarter turns of π/2, 0 to 3
    if half then
      match cosine, q with
      | false, 0 => .exact neg 0 0
      | false, 1 => .exact neg 1 0
      | false, 2 => .exact neg 0 0
      | false, _ => .exact (!neg) 1 0
      | true, 0 => .exact false 1 0
      | true, 2 => .exact true 1 0
      | true, _ => .exact false 0 0
    else if 200 < s ∧ u < 2 ^ (s - 170) then
      if cosine then .near false (2 ^ fixBits - 2 ^ 30) (2 ^ fixBits) (-(fixBits : Int))
      else .near neg (m * piFix.toNat - 2 ^ 80) (m * piFix.toNat + 2 ^ 80) (e - fixBits)
    else
      let f := 2 * u % 2 ^ s                       -- fraction of a quarter turn, over 2^s
      let y := piFix * (f : Int) / 2 ^ (s + 1)     -- π/2 × fraction
      let sn := sinFix y
      let cs := cosFix y
      match cosine, q with
      | false, 0 => nearFix neg sn
      | false, 1 => nearFix neg cs
      | false, 2 => nearFix (!neg) sn
      | false, _ => nearFix (!neg) cs
      | true, 0 => nearFix false cs
      | true, 1 => nearFix true sn
      | true, 2 => nearFix true cs
      | true, _ => nearFix false sn

/-- m × 2^e has at most 24 significant bits and is a multiple of 2^−149: FP32 holds it, the range apart. -/
def fits32 (m : Nat) (e : Int) : Bool :=
  m = 0 || (let q := max (numLog m e) (-126) - 23
    if q ≤ e then true else m % 2 ^ (q - e).toNat = 0)

/-- The results within `n` ulp of a real result strictly between two bounds (R194, R206), as magnitudes over 2^(q − 1). -/
def candidates (n lo hi : Nat) (e : Int) : Int × List Nat :=
  let q := max (numLog lo e) (-126) - 23 - 1
  let fl (x : Nat) : Nat := if q ≤ e then x * 2 ^ (e - q).toNat else x / 2 ^ (q - e).toNat
  let a := fl lo + 1 - 2 * n
  let b := (if q ≤ e then hi * 2 ^ (e - q).toNat else ceilDiv hi (2 ^ (q - e).toNat)) - 1 + 2 * n
  (q, ((List.range (b + 1 - a)).map (a + ·)).filter fun j => fits32 j q)

/-- The die's choice within the bound (R206, R207): a fixed function of the operation, the operand bits and the fields. -/
def pickReal (op bits fields n : Nat) (sat : Bool) (r : RealRes) : Nat × Word :=
  match r with
  | .exact neg m e => roundFloat ft0 .rne sat neg m e 0
  | .huge => (overflowCode ft0 .rne sat false, flagOvf ||| flagInx)
  | .tiny neg =>
    let k := Config.specialPick op bits fields % 2
    (ft0.signBit neg + k, flagInx ||| flagUnf)
  | .near neg lo hi e =>
    let c := candidates n lo hi e
    let j := c.2.getD (Config.specialPick op bits fields % max 1 c.2.length) 0
    let t := roundFloat ft0 .rne sat neg j c.1 0
    (t.1, t.2 ||| flagInx ||| flagIf (numLog lo e < -126) flagUnf)

/-- √x of a finite positive number, correctly rounded (R206). -/
def sqrtNum (mode : RMode) (sat : Bool) (m : Nat) (e : Int) : Nat × Word :=
  let m' := if e % 2 = 0 then m else 2 * m
  let e' := if e % 2 = 0 then e else e - 1
  let a := m' * 2 ^ 80
  let r := sqrtFloor a
  let sticky := if r * r = a then 0 else 1
  roundFloat ft0 mode sat false (2 * r + sticky) (e' / 2 - 41) 0

/-- A special function on an FP32 code (R191, R192, R206): `op` is the opcode. -/
def special32 (op : Nat) (mode : RMode) (sat : Bool) (fields x : Nat) : Nat × Word :=
  match decodeFloat ft0 x with
  | .nan s => ((nanRes ft0).1, flagIf s flagInv)
  | .inf n =>
    match op with
    | 0x70 => (ft0.signBit n, 0#32)
    | 0x71 => if n then ((nanRes ft0).1, flagInv) else (0, 0#32)
    | 0x72 => if n then ((nanRes ft0).1, flagInv) else infRes ft0 false
    | 0x73 => if n then (0, 0#32) else infRes ft0 false
    | 0x74 => if n then ((nanRes ft0).1, flagInv) else infRes ft0 false
    | _ => ((nanRes ft0).1, flagInv)
  | .fin n m e =>
    if m = 0 then
      match op with
      | 0x70 => poleRes ft0 sat n
      | 0x71 => poleRes ft0 sat n
      | 0x72 => (x, 0#32)
      | 0x73 => pickReal op x fields 1 sat (.exact false 1 0)
      | 0x74 => poleRes ft0 sat true
      | 0x75 => (x, 0#32)
      | _ => pickReal op x fields 2 sat (.exact false 1 0)
    else
      match op with
      | 0x70 => pickReal op x fields 1 sat (rcpReal n m e)
      | 0x71 => if n then ((nanRes ft0).1, flagInv) else pickReal op x fields 1 sat (rsqReal m e)
      | 0x72 => if n then ((nanRes ft0).1, flagInv) else sqrtNum mode sat m e
      | 0x73 => pickReal op x fields 1 sat (exp2Real n m e)
      | 0x74 => if n then ((nanRes ft0).1, flagInv) else pickReal op x fields 2 sat (log2Real m e)
      | 0x75 => pickReal op x fields 2 sat (trigReal false n m e)
      | _ => pickReal op x fields 2 sat (trigReal true n m e)

/-- A special function on an element of ft0, ft1 or ft2 (R208): under the others the ft0 function is computed, as ft0's own instruction
computes it. -/
def specialElem (f : Fmt) (op : Nat) (mode : RMode) (sat : Bool) (fields x : Nat) : Nat × Word :=
  if f.width = 32 then special32 op mode sat fields x
  else
    let a := decodeFloat f x
    let s := flagIf a.isSnan flagInv
    let x32 := match a with
      | .nan _ => ft0.nanCode
      | .inf n => (infRes ft0 n).1
      | .fin n m e => (roundFloat ft0 .rne false n m e 0).1
    let r := special32 op mode sat (fields % 2) x32
    let t := match decodeFloat ft0 r.1 with
      | .nan _ => nanRes f
      | .inf n => infRes f n
      | .fin n m e => roundFloat f mode sat n m e 0
    (t.1, t.2 ||| r.2 ||| s)

end Sys2Proof.Machine
end

