-- ==== Sys2Proof/Machine/LoadStore.lean ====
section
/-! DEFINITION. The memory instructions: loads, stores, atomics, prefetch and L1 invalidation (R297 to R303). -/

namespace Sys2Proof.Machine

open Sys2Proof

/-- Bytes of a size code (R263, R297). -/
def sizeOf (code : Nat) : Nat :=
  match code with
  | 0 => 1
  | 1 => 1
  | 2 => 2
  | 3 => 2
  | 4 => 4
  | 5 => 8
  | _ => 16

/-- Registers of a size code (R118). -/
def wordsOf (code : Nat) : Nat := if code = 5 then 2 else if code = 6 then 4 else 1

/-- Word `k` of a loaded value: .u zero-extends, .s sign-extends (R265, R298). -/
def loadWord (code k v : Nat) : Word :=
  match code with
  | 1 => BitVec.ofInt 32 (signed v 8)
  | 3 => BitVec.ofInt 32 (signed v 16)
  | _ => BitVec.ofNat 32 (v / 2 ^ (32 * k))

/-- A lane's data of some bytes, from a register, a pair or a group of four (R118, R297). -/
def Work.dataOf (w : Work) (n : Ins) (o : Operand) (bytes i : Nat) : Nat :=
  if bytes = 16 then ((List.range 4).map fun k => (w.src true n o k i).toNat * 2 ^ (32 * k)).sum
  else if bytes = 8 then w.src64 true n o i
  else (w.src true n o 0 i).toNat % 2 ^ (8 * bytes)

/-- The address of ld and st (R298). -/
def Work.baseAddr (w : Work) (n : Ins) (i : Nat) : Nat :=
  addr64 (w.src64 true n n.sa i) ((w.src true n n.sb 0 i).toInt + n.disp)

/-- The address of the other memory instructions (R298). -/
def Work.pairAddr (w : Work) (n : Ins) (i : Nat) : Nat := addr64 (w.src64 true n n.sa i) n.disp

/-- A load of a size code from lane addresses (R298). -/
def Work.load (w : Work) (n : Ins) (code : Nat) (nc : Bool) (va : Nat → Nat) : Eff :=
  w.memory n
    { acc := .load, size := sizeOf code, ok := fun _ => true, va := va,
      perform := performLoads w.E.core nc (sizeOf code), len := wordsOf code, word := loadWord code, acks := false, l1 := !nc }

/-- A store of a size code to lane addresses (R298). -/
def Work.store (w : Work) (n : Ins) (code : Nat) (va : Nat → Nat) : Eff :=
  w.memory n
    { acc := .store, size := sizeOf code, ok := fun _ => true, va := va,
      perform := performStores w.E.core (sizeOf code) (w.dataOf n n.sc (sizeOf code)), len := 0, word := fun _ _ => 0#32,
      acks := true, l1 := false }

/-- ld (R298). -/
def opLd (n : Ins) (w : Work) : Eff := w.load n (n.mod % 8) (bitOf n.mod 3) (w.baseAddr n)

/-- st (R298). -/
def opSt (n : Ins) (w : Work) : Eff := w.store n (n.mod % 8) (w.baseAddr n)

/-- ldg (R298). -/
def opLdg (n : Ins) (w : Work) : Eff := w.load n (n.mod % 8) (bitOf n.mod 3) (w.pairAddr n)

/-- stg (R298). -/
def opStg (n : Ins) (w : Work) : Eff := w.store n (n.mod % 8) (w.pairAddr n)

/-- ldc: one access that stands for every active lane (R299). -/
def opLdc (n : Ins) (w : Work) : Eff :=
  w.load n n.mod false fun _ => w.pairAddr n (lowLane w.act)

/-- The new value of an atomic of `bits` bits: old value m, operand b, compare value c (R300). -/
def atomNew (bits op m b c : Nat) : Nat :=
  match op with
  | 0 => (m + b) % 2 ^ bits
  | 1 => (faddNum ft0 .rne false 0 (decodeFloat ft0 m) (decodeFloat ft0 b)).1
  | 2 => if signed m bits ≤ signed b bits then m else b
  | 3 => if signed m bits ≤ signed b bits then b else m
  | 4 => min m b
  | 5 => max m b
  | 6 => m &&& b
  | 7 => m ||| b
  | 8 => m ^^^ b
  | 9 => b
  | _ => if m = c then b else m

/-- An atomic of some bytes (R300, R301): `len` registers receive the old value. -/
def Work.atomic (w : Work) (n : Ins) (size op len : Nat) : Eff :=
  w.memory n
    { acc := .atomic, size := size, ok := atomicOk size op, va := w.pairAddr n,
      perform := performAtomics w.E.core size fun i m => atomNew (8 * size) op m (w.dataOf n n.sb size i) (w.dataOf n n.sc size i),
      len := len, word := fun k v => BitVec.ofNat 32 (v / 2 ^ (32 * k)), acks := true, l1 := false }

/-- Bytes of atom and ared: MOD[4] selects .b64 (R297). -/
def atomSize (n : Ins) : Nat := if bitOf n.mod 4 then 8 else 4

/-- atom (R300). -/
def opAtom (n : Ins) (w : Work) : Eff := w.atomic n (atomSize n) (n.mod % 16) (atomSize n / 4)

/-- ared (R300). -/
def opAred (n : Ins) (w : Work) : Eff := w.atomic n (atomSize n) (n.mod % 16) 0

/-- atomx (R301). -/
def opAtomx (n : Ins) (w : Work) : Eff := w.atomic n 16 (if n.mod = 0 then 9 else 10) 4

/-- Prefetch the sector of one lane's address (R302). -/
def Work.prefetch (w : Work) (n : Ins) (w1 : Work) (i : Nat) : Work :=
  let va := w.pairAddr n i
  let x := w1.xlate .load (fun _ => true) va
  match x.2 with
  | .error _ => x.1
  | .ok m =>
    let s := x.1.s
    if ((s.core w.E.core).memLock w.E.ctx va 1).isSome ∨ s.refuses m.pa ∨ targetOf m.pa ≠ .device then x.1
    else
      let s1 := s.noteRead m.pa
      if n.mod = 1 ∨ m.mt ≠ 0 ∨ ((s.core w.E.core).l1Find (m.pa / 32)).isSome then { x.1 with s := s1 }
      else { x.1 with s := s1.modCore w.E.core fun c => c.l1Fill (m.pa / 32) (s.peek (m.pa / 32 * 32) 32) }

/-- pref (R302). -/
def opPref (n : Ins) : Work → Eff :=
  ifActive fun w => if w.memHeld then .hold else .done ((lanesOf w.act).foldl (fun w1 i => w.prefetch n w1 i) w)

/-- The pages of a virtual range that translate, as physical intervals (R303, R320). -/
def Work.physical (w : Work) : List (Nat × Nat) → Work × List (Nat × Nat)
  | [] => (w, [])
  | (va, k) :: t =>
    let x := w.xlate .load (fun _ => true) va
    let r := x.1.physical t
    match x.2 with
    | .error _ => r
    | .ok m => (r.1, (m.pa, m.pa + k) :: r.2)

/-- A virtual range cut at 4 KiB pages: the first address in each, and its bytes there. -/
def pageParts (va n : Nat) : List (Nat × Nat) :=
  (pagesOf va n).map fun p => (p, min (va + n) (p / 4096 * 4096 + 4096) - p)

/-- Invalidate the L1 sectors that hold bytes of physical intervals (R303, R320). -/
def Core.l1DropIn (c : Core) (ivs : List (Nat × Nat)) : Core :=
  c.l1Drop fun k => ivs.any fun iv => 32 * k < iv.2 && iv.1 < 32 * k + 32

/-- inval (R303). -/
def opInval (n : Ins) : Work → Eff :=
  ifActive fun w =>
    if w.memHeld then .hold
    else
      let va := addr64 (w.src64 true n n.sa (lowLane w.act)) n.disp
      let len := (w.src true n n.sb 0 (lowLane w.act)).toNat
      let parts := pageParts va len
      let x := w.physical parts
      let w1 := { x.1 with s := x.1.s.modCore w.E.core fun c => c.l1DropIn x.2 }
      .raw (w1.finishAfter n (8 + parts.length))

/-- LD (R298), extended form. -/
def execLd (f : X) (s : State) : Out := runX 0xa0 f opLd s

/-- ST (R298), extended form. -/
def execSt (f : X) (s : State) : Out := runX 0xa1 f opSt s

/-- LDG (R298), extended form. -/
def execLdg (f : X) (s : State) : Out := runX 0xa2 f opLdg s

/-- STG (R298), extended form. -/
def execStg (f : X) (s : State) : Out := runX 0xa3 f opStg s

/-- LDC (R299), extended form. -/
def execLdc (f : X) (s : State) : Out := runX 0xa4 f opLdc s

/-- ATOM (R300), extended form. -/
def execAtom (f : X) (s : State) : Out := runX 0xa5 f opAtom s

/-- ARED (R300), extended form. -/
def execAred (f : X) (s : State) : Out := runX 0xa6 f opAred s

/-- ATOMX (R301), extended form. -/
def execAtomx (f : X) (s : State) : Out := runX 0xa7 f opAtomx s

/-- PREF (R302), extended form. -/
def execPref (f : X) (s : State) : Out := runX 0xa8 f opPref s

/-- INVAL (R303), extended form. -/
def execInval (f : X) (s : State) : Out := runX 0xa9 f opInval s

end Sys2Proof.Machine
end

