-- ==== Sys2Proof/Machine/Visibility.lean ====
section
/-! DEFINITION. Sync objects, bindings, acquire and release, fences, and the cache actions they make (R305 to R324, R378 to
R380). -/

namespace Sys2Proof.Machine

open Sys2Proof

/-- The number of a scope (R36). -/
def Scope.num : Scope → Nat
  | .troupe => 0
  | .ensemble => 1
  | .core => 2
  | .die => 3
  | .module => 4
  | .system => 5

/-! ### Cache actions -/

/-- Write back physical intervals, or everything (R295, R320). -/
def State.writeBackAll (s : State) (ivs : Option (List (Nat × Nat))) : State :=
  match ivs with
  | none => s.writeBack 0 deviceEnd
  | some l => l.foldl (fun s iv => s.writeBack iv.1 iv.2) s

/-- Discard physical intervals, or everything, below the cores (R295, R320). -/
def State.discardAll (s : State) (ivs : Option (List (Nat × Nat))) : State :=
  match ivs with
  | none => s.discard 0 deviceEnd
  | some l => l.foldl (fun s iv => s.discard iv.1 iv.2) s

/-- Invalidate a core's L1 over physical intervals, or wholly (R320). -/
def State.l1Invalidate (s : State) (core : Nat) (ivs : Option (List (Nat × Nat))) : State :=
  s.modCore core fun c => match ivs with
    | none => { c with l1 := [] }
    | some l => c.l1DropIn l

/-- The release actions of a scope (R320). -/
def State.releaseActs (s : State) (scope : Nat) (ivs : Option (List (Nat × Nat))) : State :=
  if scope = 5 then s.writeBackAll ivs else s

/-- The acquire actions of a scope (R320). -/
def State.acquireActs (s : State) (core scope : Nat) (ivs : Option (List (Nat × Nat))) : State :=
  if scope = 5 then (s.l1Invalidate core ivs).discardAll ivs
  else if 3 ≤ scope then s.l1Invalidate core ivs
  else s

/-- A scope whose release or acquire acts on caches (R320). -/
def actsOn (release acquire : Bool) (scope : Nat) : Bool := (acquire && 3 ≤ scope) || (release && scope = 5)

/-- Dirty copies stand within physical intervals, or anywhere. -/
def State.anyDirty (s : State) (ivs : Option (List (Nat × Nat))) : Bool :=
  match ivs with
  | none => s.dirtyIn 0 deviceEnd ≠ []
  | some l => l.any fun iv => s.dirtyIn iv.1 iv.2 ≠ []

/-- Cycles of the actions (R378, R380): the invalidation; at system scope the write-back of a release, and the discard, which writes
back what it finds dirty first. -/
def State.actCycles (s : State) (core : Nat) (release acquire : Bool) (scope : Nat) (ivs : Option (List (Nat × Nat))) : State × Nat :=
  let inv := match ivs with
    | none => 264
    | some l => 8 + l.length
  let r := if scope = 5 ∧ (release ∨ acquire ∧ s.anyDirty ivs = true) then s.backCycles core ivs else (s, 0)
  (r.1, r.2 + (if acquire ∧ 3 ≤ scope then inv else 0) + (if acquire ∧ scope = 5 then 24 else 0))

/-- Put a cache action under way; the split waits for it under the same number (R380). -/
def State.startAct (s : State) (a : CacheAct) : State :=
  let r := s.actCycles (s.coreOf a.tid) a.release a.acquire a.scope a.regions
  ({ r.1 with cacheActs := s.cacheActs ++ [a] } : State).bump.at_ (s.now + r.2) (.cacheActionComplete a.id)

/-- The action is that of a write of a sync word, which is unacknowledged from its issue on (R313, R314, R326). -/
def CacheThen.writes : CacheThen → Bool
  | .nothing => false
  | .word _ _ _ => true
  | .arrive _ _ _ _ => false
  | .signal _ _ _ => true
  | .spawn _ _ _ => false
  | .phases _ => false

/-- The instruction suspends its split in a cache action (R320, R380); a write that follows it is unacknowledged under its number. -/
def Work.actThen (w : Work) (n : Ins) (release acquire : Bool) (scope : Nat) (ivs : Option (List (Nat × Nat)))
    (after : CacheThen) : State :=
  let id := w.s.tick
  let t := if after.writes then { w.T with unacked := w.T.unacked ++ [id] } else w.T
  ({ w with T := t, s := w.s.bump } : Work).suspend n (.cache id) |>.startAct
    { id := id, tid := w.tid, uid := w.S.uid, scope := scope, release := release, acquire := acquire, regions := ivs,
      after := after }

/-! ### Bindings -/

/-- The regions that an ensemble binds to an object (R307), as virtual intervals: first address and length. -/
def Ensemble.regions (e : Ensemble) (bar : Bool) (obj : Nat) : List (Nat × Nat) :=
  (e.binds.filter fun b => b.2.bar = bar && b.2.obj = obj).map fun b => (b.2.base, b.2.len)

/-- The scope at which an acq or rel of a sync word acts (R307). -/
def Ensemble.scopeOf (e : Ensemble) (obj scope : Nat) : Nat :=
  ((e.binds.filter fun b => !b.2.bar && b.2.obj = obj).map fun b => b.2.scope).foldl max scope

/-- The pages of an object's regions that translate, as physical intervals (R320). -/
def Work.regionsOf_ (w : Work) (bar : Bool) (obj : Nat) : Work × List (Nat × Nat) :=
  w.physical ((w.E.regions bar obj).flatMap fun r => pageParts r.1 r.2)

/-- The stage address of a stage operand: SA + DISP modulo 2^32 (R263, R265). -/
def Work.stageAddr (w : Work) (n : Ins) (o : Operand) (i : Nat) : Nat :=
  (((w.src true n o 0 i).toNat + n.disp) % (2 : Int) ^ 32).toNat

/-- A stage range outside the allotment (R239). -/
def stageOut (addr : Nat) : TrapInfo := { cause := 0x09, info := 8, addr := addr }

/-- sbind (R309). -/
def opSbind (n : Ins) : Work → Eff :=
  ifActive fun w =>
    let i := lowLane w.act
    let bar := bitOf n.mod 5
    let obj := if bar then w.stageAddr n n.sa i else w.pairAddr n i
    let base := w.src64 true n n.sb i
    let len := (w.src true n n.sc 0 i).toNat
    if obj % (if bar then 16 else 8) ≠ 0 then .trap { cause := 0x07, info := i, addr := obj }
    else if base % 32 ≠ 0 then .trap { cause := 0x07, info := i, addr := base }
    else if len = 0 ∨ len % 32 ≠ 0 ∨ 2 ^ 60 < base + len then .trap { cause := 0x02 }
    else if bar ∧ Scope.num n.scope ≠ 0 then .trap { cause := 0x02 }
    else if bar ∧ w.E.size < obj + 16 then .trap (stageOut obj)
    else
      let e : Bind := { bar := bar, obj := obj, base := base, len := len, scope := if bar then 0 else Scope.num n.scope }
      .done { w with E := { w.E with binds := w.E.binds.put (n.mod % 32) e } }

/-- sunbind (R310). -/
def opSunbind (n : Ins) : Work → Eff :=
  ifActive fun w => .done { w with E := { w.E with binds := if bitOf n.mod 5 then [] else w.E.binds.del (n.mod % 32) } }

/-! ### acq -/

/-- The condition of an acq (R308, R311). -/
def acqHolds (cond m c : Nat) : Bool :=
  match cond with
  | 0 => true
  | 1 => m = c
  | 2 => m ≠ c
  | 3 => m < c
  | 4 => c ≤ m
  | 5 => signed m 64 < signed c 64
  | _ => signed c 64 ≤ signed m 64

/-- New(m) of an acq (R311). -/
def acqNew (op m b c : Nat) : Nat :=
  match op with
  | 1 => (m + b) % 2 ^ 64
  | 2 => b
  | 3 => if m = c then b else m
  | _ => m ||| b

/-- The targets that take an acq's op (R311, R428). -/
def acqOk (op pa : Nat) : Bool :=
  match targetOf pa with
  | .device => true
  | .peer => op = 0 || op = 1 || op = 3
  | .host => op = 0
  | .tier => op = 0

/-- Read a sync word at its home, at system scope from the stack: the discard takes the copies in the caches (R311, R295). -/
def State.syncRead (s : State) (scope pa : Nat) : State :=
  if scope = 5 ∧ targetOf pa = .device then s.discardSector (pa / 32) else s.noteRead pa

/-- Read a sync word for an acq of a core: at system scope the discard takes the core's L1 copy too (R295, R311). -/
def State.acqRead (s : State) (core scope pa : Nat) : State :=
  (s.syncRead scope pa).modCore core fun c => if scope = 5 ∧ targetOf pa = .device then c.l1Drop (· = pa / 32) else c

/-- The op of an acq writes its word: a .cas only where the comparison holds (R311). -/
def acqWrites (op m c : Nat) : Bool := op != 0 && !(op = 3 && m != c)

/-- Write a sync word at its home in the atomic step that read it (R311, R313). -/
def State.syncWrite (s : State) (core pa v : Nat) : State :=
  (s.homeWrite pa (natLE 8 v)).modCore core fun c => if targetOf pa = .device then c.l1Drop (· = pa / 32) else c

/-- An acq at the word that its address names (R311): its condition holds and it completes, or its split waits (R312). -/
def acqAt (n : Ins) (va : Nat) (w : Work) (pa : Nat) : Eff :=
  let i := lowLane w.act
  let op := n.mod % 8
  let scope := w.E.scopeOf va (Scope.num n.scope)
  let b := w.src64 true n n.sb i
  let c := w.src64 true n n.sc i
  let x := w.regionsOf_ false va
  let t := if op = 0 then x.1.s.readTime w.E.core pa else x.1.s.writeTime w.E.core pa
  let s1 := t.1.acqRead w.E.core scope pa
  let m := leNat (s1.peek pa 8)
  let outs (v : Nat) : List (Reg × Mask × (Nat → Word)) :=
    w.outsOf n 2 w.act fun k _ => BitVec.ofNat 32 (v / 2 ^ (32 * k))
  let w1 := { x.1 with s := s1 }
  let id := s1.tick
  if acqHolds (n.mod / 8) m c then
    let w2 := if acqWrites op m c then ({ w1 with s := s1.syncWrite w.E.core pa (acqNew op m b c) } : Work) else w1
    let w3 := w2.holdFor (w2.pendOf true 1 0#32 (outs m))
    let back := sentFor id false [(pa / 32, t.2)]
    let w5 := if acqWrites op m c then w3.unacked.request (back ++ sentFor w3.s.tick true [(pa / 32, t.2)]) else w3.request back
    if actsOn false true scope then .raw (w5.actThen n false true scope (some x.2) .nothing) else .done w5
  else
    let w2 := w1.holdFor (w1.pendOf true 1 0#32 (outs 0))
    let a : AcqWait :=
      { id := id, tid := w.tid, uid := w.S.uid, pa := pa, op := op, cond := n.mod / 8, b := BitVec.ofNat 64 b,
        c := BitVec.ofNat 64 c, pend := id, scope := scope, regions := x.2, va := va, active := w.active1 }
    let s2 := w2.suspend n (.acq id)
    let s3 : State := { s2 with acqWaits := s2.acqWaits ++ [a] }
    .raw (if scope = 5 ∨ targetOf pa ≠ .device then s3.at_ (s3.now + 256) (.acqPoll id) else s3)

/-- acq (R311). -/
def opAcq (n : Ins) : Work → Eff :=
  ifActive fun w =>
    let va := w.pairAddr n (lowLane w.act)
    let op := n.mod % 8
    if w.memHeld then .hold
    else if va % 8 ≠ 0 then .trap { cause := 0x07, info := lowLane w.act, addr := va }
    else w.single (if op = 0 then .load else .atomic) (acqOk op) 8 [va] fun w ms => acqAt n va w ((ms.map (·.pa)).headD 0)

/-- The home acknowledges a write that a troupe has had unacknowledged under a number since its issue (R313, R378). -/
def State.ackOf (s : State) (tid core pa id : Nat) : State :=
  let r := s.writeTime core pa
  r.1.at_ (s.now + r.2) (.storeAcknowledge tid id)

/-- A waiting acq reads its word: with its condition met it modifies the word, acquires and goes on (R311, R312). -/
def State.tryAcq (s : State) (a : AcqWait) : State × Bool :=
  let core := s.coreOf a.tid
  let s1 := s.acqRead core a.scope a.pa
  let m := leNat (s1.peek a.pa 8)
  if acqHolds a.cond m a.c.toNat then
    let s2 : State := { s1 with acqWaits := s1.acqWaits.filter fun x => x.id ≠ a.id }
    let r := s.writeTime core a.pa
    let s3 := if acqWrites a.op m a.c.toNat then
        (s2.syncWrite core a.pa (acqNew a.op m a.b.toNat a.c.toNat)).modTroupe a.tid (fun t => { t with unacked := t.unacked ++ [a.id] })
          |>.ackOf a.tid core a.pa a.id
      else s2
    let s4 := (s3.modTroupe a.tid fun t => t.fillPair a.pend (BitVec.ofNat 64 m)).at_ (s.now + r.2) (.loadSectorReturn a.tid a.pend)
    if actsOn false true a.scope then
      ((s4.modTroupe a.tid fun t => t.modSplit a.uid fun p => { p with wait := .cache a.id }).startAct
        { id := a.id, tid := a.tid, uid := a.uid, scope := a.scope, release := false, acquire := true, regions := some a.regions,
          after := .nothing }, true)
    else (s4.resume a.tid a.uid, true)
  else (s1, false)

/-- ACQ_WAIT_SUCCESS (R312): the home evaluates the condition again after a write to the word. -/
def execAcqWaitSuccess (id : Nat) (s : State) : Out :=
  match s.acqWaits.find? fun a => a.id = id with
  | none => .next s
  | some a => .next (s.tryAcq a).1

/-- Forget a write that is not made. -/
def Troupe.dropWrite (t : Troupe) (id : Nat) : Troupe := { t with unacked := t.unacked.filter (· ≠ id) }

/-- Forget a result that will not come. -/
def Troupe.dropPend (t : Troupe) (id : Nat) : Troupe := { t with pend := t.pend.filter fun p => p.id ≠ id }

/-- The wait of a split of STATE 2 ends without success, as a stop ends it (R398): the instruction issues again later. An
acquire that has its value, and only its cache action left, completes. -/
def State.endWait (s : State) (tid uid : Nat) : State :=
  match s.troupes.find? tid with
  | none => s
  | some t =>
    match (t.splits.map (·.2) ++ t.stack ++ t.coming.map (·.2)).find? fun p => p.uid = uid with
    | none => s
    | some p =>
      if p.state ≠ 2 then s
      else
        let back (s : State) : State := s.modTroupe tid fun t => t.modSplit uid fun p =>
          { p with state := 1, wait := .none, waitLen := 0 }
        match p.wait with
        | .acq id =>
          back ({ s with acqWaits := s.acqWaits.filter fun a => a.id ≠ id } |>.modTroupe tid fun t => t.dropPend id)
        | .cache id =>
          let s1 : State := { s with cacheActs := s.cacheActs.filter fun a => a.id ≠ id }
          match s.cacheActs.find? fun a => a.id = id with
          | none => back s1
          | some a =>
            match a.after with
            | .nothing =>
              if a.release then back s1 else (s1.acquireActs (s.coreOf tid) a.scope a.regions).resume tid uid
            | .word _ _ _ => back (s1.modTroupe tid fun t => t.dropWrite id)
            | .arrive _ _ _ pend => back (s1.modTroupe tid fun t => t.dropPend pend)
            | .signal _ _ _ => back (s1.modTroupe tid fun t => t.dropWrite id)
            | .spawn _ _ pend => back (s1.modTroupe tid fun t => t.dropPend pend)
            | .phases _ => back s1
        | .fload id _ => back (s.modTroupe tid fun t => t.dropPend id)
        | .cue id => back (s.modCore (s.coreOf tid) fun c => { c with acts := c.acts.filter fun a => a.id ≠ id })
        | .entry _ =>
          (back { s with ovlLoads := s.ovlLoads.filter fun l => !(l.tid = tid && l.uid = uid && l.dst.isNone) }).modTroupe tid fun t =>
            { t with trapPc := none, saved := none, pend := t.pend.map fun q => { q with kept := false } }
        | .shoot id => back { s with shoots := s.shoots.filter fun x => x.id ≠ id }
        | .join _ _ _ => back s
        | .none => back s
        | .bind _ _ => back s
        | .batch _ => back s
        | .phase _ _ _ _ => back s

/-- The answer to a waiting acq's read of a peer's word is not OK: the acq traps (R430). One whose split is spilled issues again, and asks
again. -/
def State.acqRefused (s : State) (a : AcqWait) (status : Nat) : Out :=
  let s1 := (s.logPeer status a.pa).endWait a.tid a.uid
  match (s1.troupes.find? a.tid).bind fun t => List.find? (fun (e : Nat × Split) => e.2.uid = a.uid) t.splits with
  | none => .next s1
  | some (k, p) =>
    let core := s1.coreOf a.tid
    let ctx := ((s1.troupes.find? a.tid).bind fun t => s1.ensembles.find? t.ens).map (·.ctx)
    let code := (s1.codeAt core (ctx.getD 0) p.pc).getD []
    let len := lengthOf (code.headD 0)
    s1.takeTrap a.tid k { cause := 0x11, addr := a.va } { pc := p.pc, ilen := len, insn := code.take len, active := a.active }

/-- ACQ_POLL (R312): the core reads the word again, every 256 cycles; a peer's word with a request to its endpoint (R427, R430). -/
def execAcqPoll (id : Nat) (s : State) : Out :=
  match s.acqWaits.find? fun a => a.id = id with
  | none => .next s
  | some a =>
    let st := if targetOf a.pa = .peer then s.peerAnswer a.pa (256 * s.tick) else 0
    if st ≠ 0 then s.bump.acqRefused a st
    else
      let r := s.bump.tryAcq a
      .next (if r.2 then r.1 else r.1.at_ (s.now + 256) (.acqPoll id))

/-! ### rel and fence -/

/-- Every earlier load has returned, and every earlier write is acknowledged (R313). -/
def Troupe.quiet (t : Troupe) : Bool := !(t.pend.any (·.load)) && t.unacked = []

/-- The hold of a release at a scope (R313), which at die scope and wider covers the troupe's format-table writes too: an instruction of
another core uses them once it has acquired (R161; log entry 96). -/
def Work.mayRelease (w : Work) (scope : Nat) : Bool :=
  scope = 0 || (w.T.quiet && (scope < 3 || w.T.fsets.all fun id => !w.s.fmtFlying fun _ k => k = id))

/-- New(m) of a rel (R313). -/
def relNew (op m b : Nat) : Nat :=
  match op with
  | 0 => b
  | 1 => (m + b) % 2 ^ 64
  | 2 => m ||| b
  | _ => m &&& b

/-- The targets that take the op of a rel or of a qsig, of which only .st leaves device memory (R313, R361, R428). -/
def relOk (sig : Bool) (op pa : Nat) : Bool :=
  match targetOf pa with
  | .device => true
  | .peer => op = 0 || (op = 1 && !sig)
  | .host => op = 0
  | .tier => op = 0

/-- A rel or qsig at the word that its address names (R313, R361). -/
def relAt (sig : Bool) (n : Ins) (va : Nat) (w : Work) (pa : Nat) : Eff :=
  let scope := w.E.scopeOf va (Scope.num n.scope)
  let b := w.src64 true n n.sb (lowLane w.act)
  if w.mayRelease scope = false then .hold
  else
    let x := w.regionsOf_ false va
    if actsOn true false scope then
      .raw (x.1.actThen n true false scope (some x.2)
        (if sig then .signal pa n.mod (BitVec.ofNat 64 b) else .word pa n.mod (BitVec.ofNat 64 b)))
    else
      let s1 := x.1.s.syncWrite w.E.core pa (relNew n.mod (leNat (x.1.s.peek pa 8)) b)
      .done (({ x.1 with s := if sig then s1.notify pa else s1 } : Work).awaitAck pa)

/-- rel, and qsig, which notifies the signal unit after its write (R313, R361). -/
def relBody (sig : Bool) (n : Ins) : Work → Eff :=
  ifActive fun w =>
    let va := w.pairAddr n (lowLane w.act)
    if w.memHeld then .hold
    else if va % 8 ≠ 0 then .trap { cause := 0x07, info := lowLane w.act, addr := va }
    else
      w.single (if n.mod = 0 then .store else .atomic) (relOk sig n.mod) 8 [va] fun w ms =>
        relAt sig n va w ((ms.map (·.pa)).headD 0)

/-- rel (R313). -/
def opRel : Ins → Work → Eff := relBody false

/-- qsig (R361). -/
def opQsig : Ins → Work → Eff := relBody true

/-- fence (R314): kind 0 full, 1 .acq, 2 .rel. -/
def opFence (n : Ins) : Work → Eff :=
  ifActive fun w =>
    let scope := Scope.num n.scope
    let rel := n.mod ≠ 1
    let acq := n.mod ≠ 2
    if w.memHeld ∨ (rel ∧ w.mayRelease scope = false) then .hold
    else if actsOn rel acq scope then .raw (w.actThen n rel acq scope none .nothing)
    else .done w

/-- SBIND (R309), extended form. -/
def execSbind (f : X) (s : State) : Out := runX 0xaa f opSbind s

/-- SUNBIND (R310), extended form. -/
def execSunbind (f : X) (s : State) : Out := runX 0xab f opSunbind s

/-- ACQ (R311), extended form. -/
def execAcq (f : X) (s : State) : Out := runX 0xac f opAcq s

/-- REL (R313), extended form. -/
def execRel (f : X) (s : State) : Out := runX 0xad f opRel s

/-- FENCE (R314), extended form. -/
def execFence (f : X) (s : State) : Out := runX 0xae f opFence s

end Sys2Proof.Machine
end

