-- ==== Sys2Proof/Machine/System.lean ====
section
/-! DEFINITION. The system instructions 0xC0 to 0xCA, the traps found at fetch and decode, and shootdowns (R27, R53, R70, R77,
R383, R410 to R415). -/

namespace Sys2Proof.Machine

open Sys2Proof

/-- trap (R411). -/
def opTrap (n : Ins) : Work → Eff := ifActive fun _ => .trap { cause := 0x13, info := n.mod, action := 1 }

/-- sysc (R411). -/
def opSysc (n : Ins) : Work → Eff :=
  ifActive fun w => .trap { cause := 0x13, info := w.src64 true n n.sa (lowLane w.act), action := 1, sysc := true }

/-- bkpt (R410, R411). -/
def opBkpt (n : Ins) : Work → Eff := ifActive fun _ => .trap { cause := 0x12, info := n.mod, action := 1 }

/-- Another handler split of the troupe exists (R391). -/
def Work.otherHandler (w : Work) : Bool := w.T.allSplits.any fun p => p.hand && p.uid != w.S.uid

/-- The address of the troupe's trap record. -/
def Work.recordBase (w : Work) : Nat := blockBase w.ctx w.T.block

/-- A report that waited for the handler's end ends the wait of the split that is to take it (R393). -/
def State.wakeDue (s : State) (tid : Nat) : State :=
  match s.troupes.find? tid with
  | none => s
  | some t =>
    if t.due = [] then s
    else match t.lowest with
      | none => s
      | some (_, p) => s.endWait tid p.uid

/-- tret (R391, R392): after the hold of R313 it restores the record, or makes a double trap. -/
def opTret (n : Ins) : Work → Eff :=
  ifActive fun w =>
    let base := w.recordBase
    if !w.T.quiet then .hold
    else if w.otherHandler ∨ (splitOfBytes w.S (w.s.peek (base + 0x080) 1024)).mask ≠ w.S.mask then
      .raw (w.commit.doubleTrap w.tid 0x80 0)
    else .raw (((w.issued n).leave base).wakeDue w.tid)

/-! ### System registers -/

/-- The ensemble's index (x, y, z) in its production (R345). -/
def ensIndex (p : Prod) (lin : Nat) : Nat × Nat × Nat := (lin % p.gx, lin / p.gx % p.gy, lin / (p.gx * p.gy))

/-- The value of a system register that is held per ensemble (R353). -/
def ensReg (p : Prod) (lin member n : Nat) : Nat :=
  let x := ensIndex p lin
  match n with
  | 0x04 => p.args.toNat % 2 ^ 32
  | 0x05 => p.args.toNat / 2 ^ 32
  | 0x06 => x.1
  | 0x07 => x.2.2 * 65536 + x.2.1
  | 0x08 => p.gx - 1
  | 0x09 => (p.gz - 1) * 65536 + (p.gy - 1)
  | _ => p.producer.toNat * 128 + p.coop.toNat * 64 + member % 4 * 16 + p.depth

/-- The value that rdsr reads (R383, R412). -/
def Work.sysVal (w : Work) (n : Nat) : Nat :=
  if n = 0 then w.T.tstat.toNat
  else if n = 1 then w.T.srseed.toNat
  else if n = 2 then w.T.qstat.toNat
  else if 4 ≤ n ∧ n ≤ 0x0A then ensReg (w.s.prod w.E.prod) w.E.lin w.E.member n
  else if n = 0x49 then trecOf w.ctx w.T.block
  else (w.ctx.reg n).toNat

/-- Flags of the troupe that have not been merged yet (R209): of scoreboard results, and of matrix instructions. -/
def Work.flagsOut (w : Work) : Bool :=
  (w.T.pend.any fun p => p.flags != 0) || ((w.s.core w.E.core).mats.any fun m => m.tid = w.tid)

/-- rdsr (R412). -/
def opRdsr (n : Ins) : Work → Eff :=
  ifActive fun w =>
    let v := w.sysVal n.mod
    if n.mod = 0 ∧ w.flagsOut then .hold
    else .done (w.later 12 0#32 n (n.row.nd) fun k _ => BitVec.ofNat 32 (v / 2 ^ (32 * k)))

/-- The bits of TSTAT that wrsr writes: STALLCHK and the RS fields (R384). -/
def tstatWritten : Word := 0x17F#32

/-- wrsr of TSTAT (R209, R412): the flags of instructions that issued before it are overwritten, merged or not. -/
def Work.writeTstat (w : Work) (v : Word) : Work :=
  { w with T := { w.T with tstat := (w.T.tstat &&& ~~~tstatWritten) ||| (v &&& tstatWritten),
                           pend := w.T.pend.map fun p => { p with flags := 0 } },
           s := w.s.modCore w.E.core fun c => { c with mats := c.mats.map fun m => if m.tid = w.tid then { m with flags := 0 } else m } }

/-- Generator states of every lane from a seed. -/
def Troupe.seed (t : Troupe) (z : Word) : Troupe :=
  { t with srseed := z, file := t.file.put Reg.gen.key ((List.range 128).map (seedOf z)) }

/-- The other cores on which a context is resident. -/
def State.otherCores (s : State) (c core : Nat) : List Nat :=
  (s.cores.filter fun k => k.1 ≠ core && (k.2.onStage = some c || k.2.wings.contains c)).map (·.1)

/-- A write of a register held per context (R383): at once on the writing core, on each other core when the home's broadcast
reaches it, within 4,096 cycles. A write of PTBR or CTXID discards the context's translations on the writing core (R282). -/
def State.writeCtxReg (s : State) (core c n : Nat) (v : DWord) : State :=
  let x := s.ctx c
  let due := s.now + min 4096 (s.cueLatency x.part core + Config.pathCycles s.tick)
  let old := x.reg n
  let keep := x.late.filter fun w => !(w.1 = core && w.2.1 = n) && s.now < w.2.2.2
  let s1 := s.modCtx c fun x => { x.setReg n v with late := keep ++ (s.otherCores c core).map fun k => (k, n, old, due) }
  let s2 := if n = 0x40 ∨ n = 0x41 then
      s1.modCore core fun k => k.dropTlb (fun t => t.ctxid = x.ctxid.toNat) fun t => t.ctxid = x.ctxid.toNat
    else s1
  s2.bump

/-- wrsr (R412). -/
def opWrsr (n : Ins) : Work → Eff :=
  ifActive fun w =>
    let i := lowLane w.act
    let v : DWord := BitVec.ofNat 64 (if n.row.na = 2 then w.src64 true n n.sa i else (w.src true n n.sa 0 i).toNat)
    let low : Word := BitVec.ofNat 32 v.toNat
    if n.mod = 0 then .done (w.writeTstat low)
    else if n.mod = 1 then .done { w with T := w.T.seed low }
    else .done { w with s := w.s.writeCtxReg w.E.core w.E.ctx n.mod v }

/-! ### halt, rdcyc, rdnrg, rdid -/

/-- Every lane of every split of a troupe exits (R413): the memory instructions that wait parked are dropped with them. -/
def State.endTroupe (s : State) (tid : Nat) : State :=
  let s1 := s.modTroupe tid fun t => { t with splits := [], stack := [], coming := [], parked := [], trapPc := none, saved := none }
  let s2 : State :=
    { s1 with
      faultWaits := s1.faultWaits.filter fun f => match f.waiter with
        | .instr t _ => t ≠ tid
        | .copy _ => true
        | .ovld _ => true
      acqWaits := s1.acqWaits.filter fun a => a.tid ≠ tid
      cacheActs := s1.cacheActs.filter fun a => a.tid ≠ tid }
  s2.admitFaults.at_ s.now (.troupeEnd tid)

/-- halt (R413). -/
def opHalt (n : Ins) : Work → Eff :=
  ifActive <| atDrain fun w =>
    if n.mod = 0 then .raw ((w.issued n).commit.endTroupe w.tid) else .raw ((w.issued n).commit.doubleTrap w.tid 0 0)

/-- rdcyc (R414): the die cycle counter (R364). -/
def opRdcyc (n : Ins) : Work → Eff :=
  ifActive fun w => .done (w.later 8 0#32 n 2 fun k _ => BitVec.ofNat 32 (w.s.cycles w.ctx.part / 2 ^ (32 * k)))

/-- A partition; one that is not configured has nothing. -/
def State.part (s : State) (p : Nat) : Part :=
  (s.parts.find? p).getD
    { rank := 0, pcap := 0, budget := 0, left := 0, charged := false, setting := 0, cause := 0, energy := 0, thermal := 0,
      current := 0, turn := [] }

/-- Change a partition. -/
def State.modPart (s : State) (p : Nat) (f : Part → Part) : State := { s with parts := s.parts.put p (f (s.part p)) }

/-- Units of 2^-8 pJ in a µJ (R432, R433). -/
def unitsPerMicrojoule : Nat := 256 * 1000000

/-- rdnrg (R414, R433): whole µJ. -/
def opRdnrg (n : Ins) : Work → Eff :=
  ifActive fun w =>
    let v := (if n.mod = 0 then (w.s.ctx w.E.ctx).energy else (w.s.part (w.s.ctx w.E.ctx).part).energy) / unitsPerMicrojoule
    .done (w.later 24 0#32 n 2 fun k _ => BitVec.ofNat 32 (v / 2 ^ (32 * k)))

/-- What rdid .dev writes (R414): EIS 1.3, the Treori timing model, and the device's number. -/
def deviceId : Nat := 0x0E121536 * 2 ^ 32 + 0x10103

/-- What rdid .loc writes (R414). -/
def Work.location (w : Work) : Nat :=
  dieOf w.E.core + w.E.core % 96 * 2 ^ 4 + w.T.quarter * 2 ^ 11 + w.T.slot * 2 ^ 13 + (w.s.ctx w.E.ctx).part * 2 ^ 18

/-- rdid (R414). -/
def opRdid (n : Ins) : Work → Eff :=
  ifActive fun w =>
    let v := if n.mod = 0 then w.location else deviceId
    .done (w.later 12 0#32 n 2 fun k _ => BitVec.ofNat 32 (v / 2 ^ (32 * k)))

/-! ### Shootdowns -/

/-- 3h + 52x of the path between two cores (R363, R366). -/
def coreTerm (a b : Nat) : Nat :=
  if a / 96 = b / 96 then 3 * (gap (a % 96 / 12) (b % 96 / 12) + gap (a % 12) (b % 12))
  else 3 * (hubHops a + hubHops b) + 52 * dieHops (a / 96) (b / 96)

/-- The cores that stand farthest from any place of their die: its corners. -/
def cornerCores : List Nat := (List.range 12).flatMap fun d => [0, 11, 84, 95].map (96 * d + ·)

/-- The core of the module farthest from a core. -/
def farthest (core : Nat) : Nat :=
  cornerCores.foldl (fun b k => if coreTerm core b < coreTerm core k then k else b) core

/-- A range of virtual addresses meets the pages of a shootdown. -/
def Shoot.hits (x : Shoot) (lo n : Nat) : Bool := lo < x.addr / 4096 * 4096 + 4096 * x.count && x.addr / 4096 * 4096 < lo + n

/-- A translation that a shootdown covers (R415). -/
def Shoot.covers (x : Shoot) (ctxid lo n : Nat) : Bool :=
  match x.kind with
  | 0 => ctxid = x.ctxid && x.hits lo n
  | 1 => ctxid = x.ctxid
  | _ => true

/-- The pages of some that stand at the virtual pages of a shootdown, where they begin at a base. -/
def Shoot.pagesAt (x : Shoot) (base : Nat) (pages : List Nat) : List Nat :=
  (List.range pages.length).filterMap fun j => if x.hits ((base / 4096 + j) * 4096) 4096 then pages[j]?.map (· / 4096 * 4096) else none

/-- The physical pages that an entry of any level gives the virtual pages of a shootdown. -/
def Shoot.mapped (x : Shoot) (t : TlbEnt) : List Nat :=
  (List.range x.count).filterMap fun j =>
    let va := x.addr / 4096 * 4096 + 4096 * j
    if t.maps x.ctxid va then some (t.pa + va % t.span.2) else none

/-- The physical pages behind the virtual pages of a shootdown: in the slots, the loads and the TLBs of any core, and in the page tables
(R77). -/
def State.shootFrames (s : State) (ptbr : Nat) (x : Shoot) : List Nat :=
  if x.kind ≠ 0 then []
  else
    let top := 32768 * field ptbr 51 15
    distinct ((s.cores.flatMap fun c =>
        (c.2.slots.flatMap fun k => if k.tag.isSome ∧ k.ctxid = x.ctxid then x.pagesAt k.base k.pages else []) ++ c.2.tlb.flatMap x.mapped)
      ++ (s.ovlLoads.flatMap fun l => if (s.ctx l.ctx).ctxid.toNat = x.ctxid then x.pagesAt l.base l.pages else [])
      ++ (List.range x.count).flatMap fun j => match s.walkFrom x.ctxid (x.addr / 4096 * 4096 + 4096 * j) 4 top [] with
        | .ok (t, _) => x.mapped t
        | .error _ => [])

/-- Code that stands at some pages, of a context, is code that a shootdown discards (R77, R415). -/
def Shoot.takes (x : Shoot) (ctxid base n : Nat) (pages : List Nat) : Bool :=
  x.covers ctxid base n || (x.kind = 0 && pages.any fun p => x.frames.contains (p / 4096 * 4096))

/-- What one core discards at its acknowledgement (R77, R415): translations, and the slots that hold code from the pages, for any context,
with the loop buffers filled from them. -/
def Core.acknowledge (c : Core) (x : Shoot) : Core :=
  let hit (k : OvlSlot) : Bool := k.tag.isSome && x.takes k.ctxid k.base k.code.length k.pages
  let c1 := c.dropTlb (fun t => x.covers t.ctxid t.span.1 t.span.2)
    fun e => x.covers e.ctxid (e.vpn * 2 ^ levelShift (e.level + 1)) (2 ^ levelShift (e.level + 1))
  { c1 with slots := c1.slots.map fun k => if hit k then { OvlSlot.empty with filling := k.filling } else k
            loops := c1.loops.filter fun b => !hit (c.slots.getD b.2.slot OvlSlot.empty) }

/-- A load whose copy an acknowledgement cuts off starts again: its slot stands empty, and it reads the pages anew (R78). -/
def State.restartOvl (s : State) (l : OvlLoad) : State :=
  let s1 : State :=
    { s with agenda := s.agenda.filter fun t => t.ev ≠ .ovldCopyComplete l.id, ovlLoads := s.ovlLoads.filter fun y => y.id ≠ l.id }
  (match l.slot with
   | some k => s1.modCore l.core fun c => c.modSlot k fun _ => OvlSlot.empty
   | none => s1).loadOvl { l with slot := none }

/-- SHOOTDOWN_ACKNOWLEDGE (R77, R78, R415): the core discards what the shootdown covers, and copies of its code under way start again; the
last acknowledgement lets the tlbinv go on. -/
def execShootdownAcknowledge (core id : Nat) (s : State) : Out :=
  match s.shoots.find? fun x => x.id = id with
  | none => .next s
  | some x =>
    let s0 := if (s.cores.find? core).isSome then s.modCore core fun c => c.acknowledge x else s
    let s1 := (s0.ovlLoads.filter fun l => l.core = core && l.slot.isSome
      && x.takes (s.ctx l.ctx).ctxid.toNat l.base l.size l.pages).foldl State.restartOvl s0
    let left := x.left.filter (· ≠ core)
    if left = [] then
      .next (({ s1 with shoots := s1.shoots.filter fun y => y.id ≠ id } : State).resume x.tid x.uid)
    else .next { s1 with shoots := s1.shoots.map fun y => if y.id = id then { y with left := left } else y }

/-- The instruction's shootdown starts (R415): each core that holds anything acknowledges, the farthest of the module last. -/
def Work.shootdown (w : Work) (n : Ins) (kind addr count : Nat) : State :=
  let id := w.s.tick
  let far := farthest w.E.core
  let near := (w.s.cores.map (·.1)).filter (· ≠ far)
  let due := w.s.now + 16 + 4 * count
  let x0 : Shoot :=
    { id := id, tid := w.tid, uid := w.S.uid, kind := kind, ctxid := w.ctx.ctxid.toNat, addr := addr, count := count,
      left := near ++ [far], frames := [] }
  let x : Shoot := { x0 with frames := w.s.shootFrames w.ctx.ptbr.toNat x0 }
  let s1 := ({ w with s := w.s.bump } : Work).suspend n (.shoot id)
  let s2 := near.foldl (fun (s : State) k => s.at_ (due + coreTerm w.E.core k) (.shootdownAcknowledge k id))
    ({ s1 with shoots := s1.shoots ++ [x] } : State)
  s2.at_ (due + 2 * coreTerm w.E.core far) (.shootdownAcknowledge far id)

/-- tlbinv (R415). -/
def opTlbinv (n : Ins) : Work → Eff :=
  ifActive fun w =>
    let i := lowLane w.act
    let count := (w.src true n n.sb 0 i).toNat
    if n.mod = 0 then
      if count = 0 ∨ 4096 < count then .trap { cause := 0x02 }
      else .raw (w.shootdown n 0 (w.src64 true n n.sa i) count)
    else .raw (w.shootdown n n.mod 0 1)

/-! ### Traps found before an instruction is decoded -/

/-- The code bytes from the split's program counter on, if a slot holds its overlay (R70). -/
def Work.code (w : Work) : List Byte := (w.s.codeAt w.E.core w.E.ctx w.S.pc).getD []

/-- ILEN of an instruction that could not be fetched: that of its first word, and where that word is absent one of the lengths of
R389 (the spec does not say which: a free value, log entry 13). -/
def Work.fetchLen (w : Work) : Nat :=
  match w.code with
  | b :: _ => lengthOf b
  | [] => [4, 12, 20].getD (Config.unstated w.s.tick % 3) 4

/-- A trap of the split that issues, where no instruction was decoded: ACTIVE is its mask. -/
def Work.fetchTrap (w : Work) (x : TrapInfo) : Out :=
  w.s.takeTrap w.tid w.ent x { pc := w.S.pc, ilen := w.fetchLen, insn := w.code.take w.fetchLen, active := w.S.mask }

/-- The split that issues. -/
def State.issuer (s : State) : Option Work := s.cur.bind fun c => s.work c.1 c.2

/-- UNDEFINED_INSTRUCTION (R53): the opcode is reserved, or the word has a form that its opcode lacks. -/
def execUndefinedInstruction (word : Word) (s : State) : Out :=
  match s.issuer with
  | none => .refused .noIssuer
  | some w =>
    let n := lengthOf (BitVec.ofNat 8 word.toNat)
    let insn := natLE 4 word.toNat ++ (w.code.drop 4).take (n - 4)
    s.takeTrap w.tid w.ent { cause := 0x01 } { pc := w.S.pc, ilen := n, insn := insn, active := w.S.mask }

/-- FETCH_BEYOND_OVERLAY (R27): the program counter or a word of the instruction lies beyond the overlay; after a fall-through
the trap is that of the instruction that fell through, completed. -/
def execFetchBeyondOverlay (fell : Bool) (s : State) : Out :=
  match s.issuer with
  | none => .refused .noIssuer
  | some w =>
    match fell, w.S.fell with
    | true, some n =>
      let pc : Word := BitVec.ofNat 32 (65536 * bvField w.S.pc 27 16 + (65536 + 4 * bvField w.S.pc 15 2 - n) % 65536)
      let insn := ((s.codeAt w.E.core w.E.ctx pc).getD []).take n
      s.takeTrap w.tid w.ent { cause := 0x01, info := 1, action := 1 } { pc := pc, ilen := n, insn := insn, active := w.S.mask }
    | _, _ => w.fetchTrap { cause := 0x01 }

/-- FETCH_OVERLAY_ABSENT (R70): no slot of the core holds the overlay of the program counter. -/
def execFetchOverlayAbsent (s : State) : Out :=
  match s.issuer with
  | none => .refused .noIssuer
  | some w => w.fetchTrap { cause := 0x0C, info := ovlOf w.S.pc }

/-- TRAP (R411), extended form. -/
def execTrap (f : X) (s : State) : Out := runX 0xc0 f opTrap s

/-- SYSC (R411), extended form. -/
def execSysc (f : X) (s : State) : Out := runX 0xc1 f opSysc s

/-- TRET (R391), extended form. -/
def execTret (f : X) (s : State) : Out := runX 0xc2 f opTret s

/-- TRET_BASE (R391), base form. -/
def execTretBase (f : B3) (s : State) : Out := runB3 0xc2 f opTret s

/-- RDSR (R412), extended form. -/
def execRdsr (f : X) (s : State) : Out := runX 0xc3 f opRdsr s

/-- WRSR (R412), extended form. -/
def execWrsr (f : X) (s : State) : Out := runX 0xc4 f opWrsr s

/-- BKPT (R411), extended form. -/
def execBkpt (f : X) (s : State) : Out := runX 0xc5 f opBkpt s

/-- BKPT_BASE (R411), base form. -/
def execBkptBase (f : B3) (s : State) : Out := runB3 0xc5 f opBkpt s

/-- HALT (R413), extended form. -/
def execHalt (f : X) (s : State) : Out := runX 0xc6 f opHalt s

/-- HALT_BASE (R413), base form. -/
def execHaltBase (f : B3) (s : State) : Out := runB3 0xc6 f opHalt s

/-- RDCYC (R414), extended form. -/
def execRdcyc (f : X) (s : State) : Out := runX 0xc7 f opRdcyc s

/-- RDCYC_BASE (R414), base form. -/
def execRdcycBase (f : B3) (s : State) : Out := runB3 0xc7 f opRdcyc s

/-- RDNRG (R414), extended form. -/
def execRdnrg (f : X) (s : State) : Out := runX 0xc8 f opRdnrg s

/-- RDNRG_BASE (R414), base form. -/
def execRdnrgBase (f : B3) (s : State) : Out := runB3 0xc8 f opRdnrg s

/-- RDID (R414), extended form. -/
def execRdid (f : X) (s : State) : Out := runX 0xc9 f opRdid s

/-- TLBINV (R415), extended form. -/
def execTlbinv (f : X) (s : State) : Out := runX 0xca f opTlbinv s

end Sys2Proof.Machine
end

