-- ==== Sys2Proof/Machine/Boot.lean ====
section
/-! DEFINITION. Bring-up (R446): what the stage manager of die 0 loads from the configuration image. -/

namespace Sys2Proof.Machine

open Sys2Proof

/-- The partitions of an image as bring-up leaves them (R434 to R436). -/
def Flash.parts (f : Flash) : Tab Part :=
  (List.range f.ranks.length).map fun p =>
    (p, { rank := f.ranks.getD p 0, pcap := f.pcaps.getD p 0, budget := 0, left := 0, charged := false, setting := 0, cause := 0,
          energy := 0, thermal := 0, current := 0, turn := [] })

/-- Bring-up (R446): with a verified image the mapping, the partitions and the caps are loaded and BOOTSTAT holds 1; else it
holds 2. -/
def State.bringUp (s : State) : State :=
  if s.flash.good then
    { s with mapRegs := s.flash.mapRegs, matrices := s.flash.matrices, partOf := s.flash.partOf, parts := s.flash.parts,
             moduleCap := s.flash.moduleCap, cal := s.flash.cal, scrub := s.flash.scrub, bootstat := 1 }
  else { s with bootstat := 2 }

/-- A split of all lanes at the first word of an overlay, as a troupe starts with it (R82, R343). -/
def Split.first (pc : Word) (earliest : Nat) : Split :=
  { uid := 0, mask := ~~~0#128, pc := pc, past := false, state := 1, infull := false, frames := [], fsave := 0, scal := [], shadow := [],
    dist := 0, run := 0, lastRun := 0, earliest := earliest, lastIss := 0, born := 0, swapIn := false, hand := false, atRejoin := 0,
    fell := none, landings := [], wait := .none, waitLen := 0, redo := none }

/-- A troupe as it starts (R64, R79, R116, R175, R384): its registers hold 0, and its generators are seeded with 0. -/
def Troupe.start (ens num quarter slot nregs nscal block : Nat) (pc : Word) (earliest : Nat) : Troupe :=
  ({ ens := ens, num := num, quarter := quarter, slot := slot, nregs := nregs, nscal := nscal, file := [],
     xb := List.replicate 4 (BitVec.ofNat 32 (65536 * (nregs - 1))), tstat := 0, srseed := 0, qstat := 0, ss := [], forkCtr := 0,
     splits := [(0, Split.first pc earliest)], stack := [], stackHead := 0, coming := [], nextUid := 1, pend := [],
     unacked := [], fsets := [], queue := [], batch := 0, parked := [], lastSel := 0, selFree := 0, pair := none, paired := (0, 0), block := block,
     trapPc := none, saved := none, exchAt := 0, fullFor := 0, fullFrom := none, due := [] } : Troupe).seed 0

/-- An ensemble as it starts. -/
def Ensemble.start (ctx core size prod lin placed : Nat) : Ensemble :=
  { ctx := ctx, core := core, g := [], gown := [], glog := [], size := size, stage := [], wins := [], bars := [], binds := [],
    epoch := none, aSlots := [], bSlots := [], tiles := [], member := 0, group := [], prod := prod, lin := lin, groups := [],
    triggered := false, pos := .resident, placed := placed, yielded := false, early := false }

/-- A module after bring-up on whose core 0 one troupe of one context is about to fetch the first word of overlay 0, whose slot
holds the given code (log entry 22). -/
def State.loaded (s : State) (code : List Byte) : State :=
  let c : Context := { s.ctx 0 with saven := 16, blocks := [0] }
  let slot : OvlSlot := { OvlSlot.empty with tag := some (0, 0), code := code }
  let core : Core := { s.core 0 with onStage := some 0, slots := [slot, OvlSlot.empty, OvlSlot.empty, OvlSlot.empty] }
  { s.bringUp with
    agenda := [], cur := none, contexts := [(0, c)], cores := [(0, core)],
    ensembles := [(0, Ensemble.start 0 0 (512 * 1024) 0 0 0)], troupes := [(0, Troupe.start 0 0 0 0 256 64 0 0 s.now)] }

end Sys2Proof.Machine
end

