-- ==== Sys2Proof/Machine/Integer.lean ====
section
/-! DEFINITION. The moves, integer arithmetic, logic, shifts, bit fields, index, scalar and predicate instructions (R136 to
R156). -/

namespace Sys2Proof.Machine

open Sys2Proof

/-- Element results of a width packed into a 32-bit value, with their flags (R133). -/
def packElems (wd : Nat) (f : Nat → Nat × Word) : Word × Word :=
  (BitVec.ofNat 32 (((List.range (32 / wd)).map fun e => (f e).1 % 2 ^ wd * 2 ^ (wd * e)).sum),
   orFlags ((List.range (32 / wd)).map fun e => (f e).2))

/-- Element `e` of a 32-bit operand under an integer entry (R133). -/
def elemOf (f : Fmt) (x : Word) (e : Nat) : Int := readInt (x.toNat / 2 ^ (f.width * e)) f.width f.sign

/-- A fixed-latency result in every active lane, with its flags (R124, R135). -/
def Work.alu (w : Work) (vector : Bool) (n : Ins) (f : Nat → Word × Word) : Work :=
  (w.result vector true n 1 fun _ i => (f i).1).raise (orFlags ((lanesOf w.act).map fun i => (f i).2))

/-- An integer-pipe meaning of three 32-bit sources, lane by lane. -/
def lanewise (f : Word → Word → Word → Word) (n : Ins) : Work → Eff :=
  ifActive fun w => .done (w.alu false n fun i =>
    (f (w.src false n n.sa 0 i) (w.src false n n.sb 0 i) (w.src false n n.sc 0 i), 0#32))

/-- An integer-pipe meaning, element by element under the entry FMT (R133, R137): the exact result, fitted. -/
def elementwise (t : Fmt → Int → Int → Int → Int) (n : Ins) : Work → Eff :=
  ifActive fun w =>
    let f := w.fmt n.fmt
    .done (w.alu false n fun i =>
      packElems f.width fun e =>
        fit (t f (elemOf f (w.src false n n.sa 0 i) e) (elemOf f (w.src false n n.sb 0 i) e) (elemOf f (w.src false n n.sc 0 i) e))
          f.width f.sign (n.sat || f.satPolicy))

/-- mov, movi: the value of SA (R136). -/
def opMov : Ins → Work → Eff := lanewise fun a _ _ => a

/-- iadd (R137). -/
def opIadd : Ins → Work → Eff := elementwise fun _ a b _ => a + b
/-- isub (R137). -/
def opIsub : Ins → Work → Eff := elementwise fun _ a b _ => a - b
/-- imul (R137). -/
def opImul : Ins → Work → Eff := elementwise fun _ a b _ => a * b
/-- imulh (R137). -/
def opImulh : Ins → Work → Eff := elementwise fun f a b _ => a * b / 2 ^ f.width
/-- imin (R137). -/
def opImin : Ins → Work → Eff := elementwise fun _ a b _ => min a b
/-- imax (R137). -/
def opImax : Ins → Work → Eff := elementwise fun _ a b _ => max a b
/-- iabs (R137). -/
def opIabs : Ins → Work → Eff := elementwise fun _ a _ _ => (a.natAbs : Int)
/-- ineg (R137). -/
def opIneg : Ins → Work → Eff := elementwise fun _ a _ _ => -a
/-- imad (R138). -/
def opImad : Ins → Work → Eff := elementwise fun _ a b c => a * b + c

/-- isad (R138): one 32-bit result. -/
def opIsad (n : Ins) : Work → Eff :=
  ifActive fun w =>
    let f := w.fmt n.fmt
    .done (w.alu false n fun i =>
      let sum := ((List.range (32 / f.width)).map fun e =>
        ((elemOf f (w.src false n n.sa 0 i) e - elemOf f (w.src false n n.sb 0 i) e).natAbs : Int)).sum
      let t := fit (readInt (w.src false n n.sc 0 i).toNat 32 f.sign + sum) 32 f.sign (n.sat || f.satPolicy)
      (BitVec.ofNat 32 t.1, t.2))

/-- icmp (R141): each element all ones or zero. -/
def opIcmp (n : Ins) : Work → Eff :=
  ifActive fun w =>
    let f := w.fmt n.fmt
    .done (w.alu false n fun i =>
      packElems f.width fun e =>
        (if intCond n.mod (elemOf f (w.src false n n.sa 0 i) e) (elemOf f (w.src false n n.sb 0 i) e) then 2 ^ f.width - 1 else 0,
         0#32))

/-- A result with a carry-out predicate, written after DST (R139). -/
def withCarry (f : Nat → Nat → Nat → Word × Bool) (n : Ins) : Work → Eff :=
  ifActive fun w =>
    let t (i : Nat) : Word × Bool :=
      f (w.src false n n.sa 0 i).toNat (w.src false n n.sb 0 i).toNat ((w.src false n n.sc 0 i).toNat % 2)
    .done (w.fixed false true n.dst.longCode 1
      (((w.dests n.dst 0 w.act).map fun d => (d.1, d.2, fun i => (t i).1))
        ++ ((w.dests (.p (BitVec.ofNat 3 n.mod)) 0 w.act).map fun d => (d.1, d.2, fun i => if (t i).2 then 1#32 else 0#32)))
      fun i => (t i).1)

/-- iaddc (R139). -/
def opIaddc : Ins → Work → Eff := withCarry fun a b c => (BitVec.ofNat 32 (a + b + c), carryOut a b c)
/-- isubb (R139). -/
def opIsubb : Ins → Work → Eff := withCarry fun a b c => (BitVec.ofInt 32 ((a : Int) - b - c), borrowOut a b c)

/-- A 64-bit result in a pair: the low word first, and in the latch (R118, R124). -/
def Work.pairResult (w : Work) (vector : Bool) (n : Ins) (f : Nat → Nat) : Work :=
  w.result vector true n 2 fun k i => BitVec.ofNat 32 (f i / 2 ^ (32 * k))

/-- imulw (R140). -/
def opImulw (n : Ins) : Work → Eff :=
  ifActive fun w =>
    let f := w.fmt n.fmt
    .done (w.pairResult false n fun i =>
      encodeInt (readInt (w.src false n n.sa 0 i).toNat 32 f.sign * readInt (w.src false n n.sb 0 i).toNat 32 f.sign) 64)

/-- and (R142). -/
def opAnd : Ins → Work → Eff := lanewise fun a b _ => a &&& b
/-- or (R142). -/
def opOr : Ins → Work → Eff := lanewise fun a b _ => a ||| b
/-- xor (R142). -/
def opXor : Ins → Work → Eff := lanewise fun a b _ => a ^^^ b
/-- andn (R142). -/
def opAndn : Ins → Work → Eff := lanewise fun a b _ => a &&& ~~~b
/-- not (R142). -/
def opNot : Ins → Work → Eff := lanewise fun a _ _ => ~~~a
/-- bsel: SA is the mask (R142). -/
def opBsel : Ins → Work → Eff := lanewise fun m a b => (m &&& a) ||| (~~~m &&& b)
/-- sel (R142). -/
def opSel : Ins → Work → Eff := lanewise fun a b c => if c ≠ 0 then a else b
/-- logic3 (R142). -/
def opLogic3 (n : Ins) : Work → Eff :=
  lanewise (fun a b c => BitVec.ofNat 32 (((List.range 32).map fun j =>
    (bitOf n.mod (4 * (a.getLsbD j).toNat + 2 * (b.getLsbD j).toNat + (c.getLsbD j).toNat)).toNat * 2 ^ j).sum)) n

/-- shl (R143). -/
def opShl : Ins → Work → Eff := lanewise fun a b _ => if 32 ≤ b.toNat then 0#32 else a <<< b.toNat
/-- shr (R143). -/
def opShr : Ins → Work → Eff := lanewise fun a b _ => if 32 ≤ b.toNat then 0#32 else a >>> b.toNat
/-- sar (R143). -/
def opSar : Ins → Work → Eff := lanewise fun a b _ => a.sshiftRight (min b.toNat 31)
/-- rot (R143). -/
def opRot : Ins → Work → Eff := lanewise fun a b _ => a.rotateLeft (b.toNat % 32)

/-- Count of 1 bits (R144). -/
def popcount (a : Word) : Nat := ((List.range 32).map fun j => (a.getLsbD j).toNat).sum
/-- Count of leading zeros; 32 for 0 (R144). -/
def leadZeros (a : Word) : Nat := if a = 0 then 32 else 31 - log2 a.toNat
/-- Count of trailing zeros; 32 for 0 (R144). -/
def trailZeros (a : Word) : Nat := ((List.range 32).find? fun j => a.getLsbD j).getD 32
/-- popc (R144). -/
def opPopc : Ins → Work → Eff := lanewise fun a _ _ => BitVec.ofNat 32 (popcount a)
/-- clz (R144). -/
def opClz : Ins → Work → Eff := lanewise fun a _ _ => BitVec.ofNat 32 (leadZeros a)
/-- ctz (R144). -/
def opCtz : Ins → Work → Eff := lanewise fun a _ _ => BitVec.ofNat 32 (trailZeros a)
/-- brev (R144). -/
def opBrev : Ins → Work → Eff := lanewise fun a _ _ => a.reverse

/-- bfx (R145). -/
def bfx (sgn : Bool) (a f : Word) : Word :=
  let pos := bvField f 7 0
  let len := bvField f 15 8
  if 32 ≤ pos ∨ len = 0 then 0#32
  else
    let m := min len (32 - pos)
    let x := a.toNat / 2 ^ pos % 2 ^ m
    if sgn then BitVec.ofInt 32 (signed x m) else BitVec.ofNat 32 x

/-- bfi (R145). -/
def bfi (a b f : Word) : Word :=
  let pos := bvField f 7 0
  let len := bvField f 15 8
  if 32 ≤ pos ∨ len = 0 then a
  else
    let m := min len (32 - pos)
    let hole := BitVec.ofNat 32 ((2 ^ m - 1) * 2 ^ pos)
    (a &&& ~~~hole) ||| (BitVec.ofNat 32 (b.toNat % 2 ^ m * 2 ^ pos))

/-- Byte k of perm (R146). -/
def permByte (a sel : Word) (k : Nat) : Nat :=
  let s := bvField sel (4 * k + 3) (4 * k)
  let b := a.toNat / 2 ^ (8 * (s % 4)) % 256
  if bitOf s 2 then 0 else if bitOf s 3 then (if bitOf b 7 then 255 else 0) else b

/-- bfx (R145). -/
def opBfx (n : Ins) : Work → Eff := lanewise (fun a f _ => bfx (n.mod % 2 = 1) a f) n
/-- bfi (R145). -/
def opBfi : Ins → Work → Eff := lanewise bfi
/-- perm (R146). -/
def opPerm : Ins → Work → Eff :=
  lanewise fun a sel _ => BitVec.ofNat 32 (((List.range 4).map fun k => permByte a sel k * 2 ^ (8 * k)).sum)
/-- sext (R147). -/
def opSext (n : Ins) : Work → Eff := lanewise (fun a _ _ => BitVec.ofInt 32 (signed a.toNat (n.mod % 32 + 1))) n
/-- zext (R147). -/
def opZext (n : Ins) : Work → Eff := lanewise (fun a _ _ => BitVec.ofNat 32 (a.toNat % 2 ^ (n.mod % 32 + 1))) n

/-- lea (R148). -/
def opLea (n : Ins) : Work → Eff :=
  ifActive fun w => .done (w.pairResult false n fun i =>
    let x := w.src false n n.sb 0 i
    let ix : Int := if n.mod / 8 % 2 = 1 then (x.toNat : Int) else x.toInt
    encodeInt ((w.src64 false n n.sa i : Nat) + ix * 2 ^ (n.mod % 8) + n.disp) 64)

/-- xset (R149): its bound check is made with the decode checks. -/
def opXset (n : Ins) : Work → Eff :=
  ifActive fun w => .done (w.alu false n fun i => (BitVec.ofInt 32 (w.xsetVal n i), 0#32))

/-- xbnd (R150): a bulk operation that writes no latch. -/
def opXbnd (n : Ins) : Work → Eff :=
  ifActive fun w =>
    let k := n.mod % 4
    let old := w.T.xb.getD k 0
    let v := w.src false n n.sa 0 (lowLane w.act)
    let w1 := w.result false false n 1 fun _ _ => old
    .done { w1 with T := { w1.T with xb := w1.T.xb.set k v } }

/-- smov (R151): no latch. -/
def opSmov (n : Ins) (w : Work) : Eff :=
  .done (w.result false false n 1 fun _ i => w.src false n n.sa 0 i)

/-- The write of gmov (R128 to R130): the owner of the register, the value in the g file, and the note that other splits
read it only once it has landed. -/
def Work.gwrite (w : Work) (n : Ins) (g : Nat) (v : Word) : Work :=
  let e : GWrite :=
    { id := w.s.tick, reg := g, tid := w.tid, uid := w.S.uid, run := w.S.run, stamp := w.S.dist, cycle := w.s.now,
      landed := false, prior := w.E.g.get g }
  let w1 := { w with E := { w.E with gown := w.E.gown.put g w.T.num, glog := e :: w.E.glog } }
  w1.result false false n 1 fun _ _ => v

/-- The value a gmov read returns: every write that issued in an earlier cycle (R130). -/
def gmovValue (now reg : Nat) : Word → List GWrite → Word
  | v, [] => v
  | v, e :: t => if e.reg = reg then (if e.cycle = now then gmovValue now reg e.prior t else v) else gmovValue now reg v t

/-- gmov (R154). -/
def opGmov (n : Ins) : Work → Eff :=
  ifActive fun w =>
    if n.mod = 0 then
      match n.dst with
      | .g a =>
        match w.E.gown.find? a.toNat with
        | some o =>
          if o = w.T.num then .done (w.gwrite n a.toNat (w.src false n n.sa 0 (lowLane w.act)))
          else .trap { cause := 0x0F, info := a.toNat + 256 * o }
        | none => .done (w.gwrite n a.toNat (w.src false n n.sa 0 (lowLane w.act)))
      | _ => .done w
    else
      match n.sa with
      | .g a => .done (w.later 20 0#32 n 1 fun _ _ => gmovValue w.s.now a.toNat (w.E.g.get a.toNat) w.E.glog)
      | _ => .done w

/-- vtos (R153): a scoreboard result 10 cycles after issue. -/
def opVtos (n : Ins) : Work → Eff :=
  ifActive fun w =>
    let k := (w.src false n n.sb 0 (lowLane w.act)).toNat
    let lane := if n.mod = 1 then lowLane w.act else if n.mod = 2 then highLane w.act
      else if k < 128 ∧ w.act.getLsbD k then k else lowLane w.act
    .done (w.later 10 0#32 n 1 fun _ _ => w.src false n n.sa 0 lane)

/-- stov (R152): one lane, and its latch. -/
def opStov (n : Ins) : Work → Eff :=
  ifActive fun w =>
    let k := (w.src false n n.sb 0 (lowLane w.act)).toNat
    if 128 ≤ k ∨ !(w.act.getLsbD k) then .done w
    else
      let w1 := { w with act := 1#128 <<< k }
      .done (w1.result false true n 1 fun _ i => w.src false n n.sa 0 i)

/-- plog (R155). -/
def opPlog (n : Ins) : Work → Eff :=
  lanewise (fun a b _ => if bitOf n.mod (2 * (a.toNat % 2) + b.toNat % 2) then 1#32 else 0#32) n

/-- pmov (R156): .get writes a lane result; .set writes predicates and no latch. -/
def opPmov (n : Ins) : Work → Eff :=
  ifActive fun w =>
    if n.mod % 2 = 0 then
      .done (w.alu false n fun i =>
        (BitVec.ofNat 32 (((List.range 8).map fun k => (w.read (.p k) i).toNat % 2 * 2 ^ k).sum), 0#32))
    else
      .done (w.fixed false false 868 7
        (((List.range 7).filter fun k => bitOf n.mod (k + 1)).map fun k =>
          (Reg.p k, w.act, fun i => (w.src false n n.sa 0 i) >>> k)) fun _ => 0#32)

/-- MOV (R136), extended form. -/
def execMov (f : X) (s : State) : Out := runX 0x20 f opMov s

/-- MOV_BASE (R136), base form. -/
def execMovBase (f : B3) (s : State) : Out := runB3 0x20 f opMov s

/-- MOVI (R136), extended form. -/
def execMovi (f : X) (s : State) : Out := runX 0x21 f opMov s

/-- MOVI_BASE (R136), base form. -/
def execMoviBase (f : BI) (s : State) : Out := run (insBI f) (opMov (insBI f)) s

/-- IADD (R137), extended form. -/
def execIadd (f : X) (s : State) : Out := runX 0x22 f opIadd s

/-- IADD_BASE (R137), base form. -/
def execIaddBase (f : B3) (s : State) : Out := runB3 0x22 f opIadd s

/-- ISUB (R137), extended form. -/
def execIsub (f : X) (s : State) : Out := runX 0x23 f opIsub s

/-- ISUB_BASE (R137), base form. -/
def execIsubBase (f : B3) (s : State) : Out := runB3 0x23 f opIsub s

/-- IADDC (R139), extended form. -/
def execIaddc (f : X) (s : State) : Out := runX 0x24 f opIaddc s

/-- ISUBB (R139), extended form. -/
def execIsubb (f : X) (s : State) : Out := runX 0x25 f opIsubb s

/-- IMUL (R137), extended form. -/
def execImul (f : X) (s : State) : Out := runX 0x26 f opImul s

/-- IMUL_BASE (R137), base form. -/
def execImulBase (f : B3) (s : State) : Out := runB3 0x26 f opImul s

/-- IMULH (R137), extended form. -/
def execImulh (f : X) (s : State) : Out := runX 0x27 f opImulh s

/-- IMULH_BASE (R137), base form. -/
def execImulhBase (f : B3) (s : State) : Out := runB3 0x27 f opImulh s

/-- IMULW (R140), extended form. -/
def execImulw (f : X) (s : State) : Out := runX 0x28 f opImulw s

/-- IMULW_BASE (R140), base form. -/
def execImulwBase (f : B3) (s : State) : Out := runB3 0x28 f opImulw s

/-- IMAD (R138), extended form. -/
def execImad (f : X) (s : State) : Out := runX 0x29 f opImad s

/-- ISAD (R138), extended form. -/
def execIsad (f : X) (s : State) : Out := runX 0x2a f opIsad s

/-- IMIN (R137), extended form. -/
def execImin (f : X) (s : State) : Out := runX 0x2b f opImin s

/-- IMIN_BASE (R137), base form. -/
def execIminBase (f : B3) (s : State) : Out := runB3 0x2b f opImin s

/-- IMAX (R137), extended form. -/
def execImax (f : X) (s : State) : Out := runX 0x2c f opImax s

/-- IMAX_BASE (R137), base form. -/
def execImaxBase (f : B3) (s : State) : Out := runB3 0x2c f opImax s

/-- IABS (R137), extended form. -/
def execIabs (f : X) (s : State) : Out := runX 0x2d f opIabs s

/-- IABS_BASE (R137), base form. -/
def execIabsBase (f : B3) (s : State) : Out := runB3 0x2d f opIabs s

/-- INEG (R137), extended form. -/
def execIneg (f : X) (s : State) : Out := runX 0x2e f opIneg s

/-- INEG_BASE (R137), base form. -/
def execInegBase (f : B3) (s : State) : Out := runB3 0x2e f opIneg s

/-- ICMP (R141), extended form. -/
def execIcmp (f : X) (s : State) : Out := runX 0x2f f opIcmp s

/-- SEL (R142), extended form. -/
def execSel (f : X) (s : State) : Out := runX 0x30 f opSel s

/-- AND (R142), extended form. -/
def execAnd (f : X) (s : State) : Out := runX 0x31 f opAnd s

/-- AND_BASE (R142), base form. -/
def execAndBase (f : B3) (s : State) : Out := runB3 0x31 f opAnd s

/-- OR (R142), extended form. -/
def execOr (f : X) (s : State) : Out := runX 0x32 f opOr s

/-- OR_BASE (R142), base form. -/
def execOrBase (f : B3) (s : State) : Out := runB3 0x32 f opOr s

/-- XOR (R142), extended form. -/
def execXor (f : X) (s : State) : Out := runX 0x33 f opXor s

/-- XOR_BASE (R142), base form. -/
def execXorBase (f : B3) (s : State) : Out := runB3 0x33 f opXor s

/-- NOT (R142), extended form. -/
def execNot (f : X) (s : State) : Out := runX 0x34 f opNot s

/-- NOT_BASE (R142), base form. -/
def execNotBase (f : B3) (s : State) : Out := runB3 0x34 f opNot s

/-- ANDN (R142), extended form. -/
def execAndn (f : X) (s : State) : Out := runX 0x35 f opAndn s

/-- ANDN_BASE (R142), base form. -/
def execAndnBase (f : B3) (s : State) : Out := runB3 0x35 f opAndn s

/-- BSEL (R142), extended form. -/
def execBsel (f : X) (s : State) : Out := runX 0x36 f opBsel s

/-- LOGIC3 (R142), extended form. -/
def execLogic3 (f : X) (s : State) : Out := runX 0x37 f opLogic3 s

/-- SHL (R143), extended form. -/
def execShl (f : X) (s : State) : Out := runX 0x38 f opShl s

/-- SHL_BASE (R143), base form. -/
def execShlBase (f : B3) (s : State) : Out := runB3 0x38 f opShl s

/-- SHR (R143), extended form. -/
def execShr (f : X) (s : State) : Out := runX 0x39 f opShr s

/-- SHR_BASE (R143), base form. -/
def execShrBase (f : B3) (s : State) : Out := runB3 0x39 f opShr s

/-- SAR (R143), extended form. -/
def execSar (f : X) (s : State) : Out := runX 0x3a f opSar s

/-- SAR_BASE (R143), base form. -/
def execSarBase (f : B3) (s : State) : Out := runB3 0x3a f opSar s

/-- ROT (R143), extended form. -/
def execRot (f : X) (s : State) : Out := runX 0x3b f opRot s

/-- ROT_BASE (R143), base form. -/
def execRotBase (f : B3) (s : State) : Out := runB3 0x3b f opRot s

/-- POPC (R144), extended form. -/
def execPopc (f : X) (s : State) : Out := runX 0x3c f opPopc s

/-- POPC_BASE (R144), base form. -/
def execPopcBase (f : B3) (s : State) : Out := runB3 0x3c f opPopc s

/-- CLZ (R144), extended form. -/
def execClz (f : X) (s : State) : Out := runX 0x3d f opClz s

/-- CLZ_BASE (R144), base form. -/
def execClzBase (f : B3) (s : State) : Out := runB3 0x3d f opClz s

/-- CTZ (R144), extended form. -/
def execCtz (f : X) (s : State) : Out := runX 0x3e f opCtz s

/-- CTZ_BASE (R144), base form. -/
def execCtzBase (f : B3) (s : State) : Out := runB3 0x3e f opCtz s

/-- BREV (R144), extended form. -/
def execBrev (f : X) (s : State) : Out := runX 0x3f f opBrev s

/-- BREV_BASE (R144), base form. -/
def execBrevBase (f : B3) (s : State) : Out := runB3 0x3f f opBrev s

/-- BFX (R145), extended form. -/
def execBfx (f : X) (s : State) : Out := runX 0x40 f opBfx s

/-- BFI (R145), extended form. -/
def execBfi (f : X) (s : State) : Out := runX 0x41 f opBfi s

/-- PERM (R146), extended form. -/
def execPerm (f : X) (s : State) : Out := runX 0x42 f opPerm s

/-- PERM_BASE (R146), base form. -/
def execPermBase (f : B3) (s : State) : Out := runB3 0x42 f opPerm s

/-- SEXT (R147), extended form. -/
def execSext (f : X) (s : State) : Out := runX 0x43 f opSext s

/-- ZEXT (R147), extended form. -/
def execZext (f : X) (s : State) : Out := runX 0x44 f opZext s

/-- LEA (R148), extended form. -/
def execLea (f : X) (s : State) : Out := runX 0x45 f opLea s

/-- XSET (R149), extended form. -/
def execXset (f : X) (s : State) : Out := runX 0x46 f opXset s

/-- XBND (R150), extended form. -/
def execXbnd (f : X) (s : State) : Out := runX 0x47 f opXbnd s

/-- SMOV (R151), extended form. -/
def execSmov (f : X) (s : State) : Out := runX 0x48 f opSmov s

/-- SMOV_BASE (R151), base form. -/
def execSmovBase (f : B3) (s : State) : Out := runB3 0x48 f opSmov s

/-- GMOV (R154), extended form. -/
def execGmov (f : X) (s : State) : Out := runX 0x49 f opGmov s

/-- VTOS (R153), extended form. -/
def execVtos (f : X) (s : State) : Out := runX 0x4a f opVtos s

/-- STOV (R152), extended form. -/
def execStov (f : X) (s : State) : Out := runX 0x4b f opStov s

/-- STOV_BASE (R152), base form. -/
def execStovBase (f : B3) (s : State) : Out := runB3 0x4b f opStov s

/-- PLOG (R155), extended form. -/
def execPlog (f : X) (s : State) : Out := runX 0x4c f opPlog s

/-- PMOV (R156), extended form. -/
def execPmov (f : X) (s : State) : Out := runX 0x4d f opPmov s

end Sys2Proof.Machine
end

