-- ==== Sys2Proof/Machine/Float.lean ====
section
/-! DEFINITION. The vector floating-point instructions and the special functions (R188 to R210). -/

namespace Sys2Proof.Machine

open Sys2Proof

/-- A generator's state after a number of steps (R175). -/
def lfsrSteps : Nat → Word → Word
  | 0, z => z
  | k + 1, z => lfsrSteps k (lfsrStep z)

/-- The generator's value for the `k`-th rounding of an instruction in a lane (R175): the state is stepped first. -/
def Work.random (w : Work) (k i : Nat) : Nat := (lfsrSteps (k + 1) (w.now .gen i)).toNat

/-- The lanes' generators after an instruction in mode rsr that rounds `k` times in each active lane (R175, R191). -/
def Work.stepped (w : Work) (n : Ins) (k : Nat) : Work :=
  if n.rnd = .rsr then w.set .gen w.act fun i => lfsrSteps k (w.now .gen i) else w

/-- Element `e` of a source under a float entry: its code (R189). -/
def Work.elem (w : Work) (n : Ins) (f : Fmt) (o : Operand) (e i : Nat) : Nat :=
  (w.src true n o 0 i).toNat / 2 ^ (f.width * e) % 2 ^ f.width

/-- A vector-pipe meaning, element by element under the entry FMT (R189, R191): `t` has the codes of the three sources and the
random value, and gives a code and flags. -/
def floatwise (t : Fmt → Ins → Nat → Nat → Nat → Nat → Nat × Word) (n : Ins) : Work → Eff :=
  ifActive fun w =>
    let f := w.fmt n.fmt
    .done ((w.alu true n fun i =>
      packElems f.width fun e =>
        t f n (w.elem n f n.sa e i) (w.elem n f n.sb e i) (w.elem n f n.sc e i) (w.random e i)).stepped n (32 / f.width))

/-- fadd (R196). -/
def opFadd : Ins → Work → Eff :=
  floatwise fun f n a b _ r => faddNum f n.rnd n.sat r (decodeFloat f a) (decodeFloat f b)

/-- fsub (R196). -/
def opFsub : Ins → Work → Eff :=
  floatwise fun f n a b _ r => faddNum f n.rnd n.sat r (decodeFloat f a) (negNum (decodeFloat f b))

/-- fmul (R196). -/
def opFmul : Ins → Work → Eff :=
  floatwise fun f n a b _ r =>
    arith f n.rnd n.sat r [decodeFloat f a, decodeFloat f b] fun _ => mulNum (decodeFloat f a) (decodeFloat f b)

/-- ffma (R196). -/
def opFfma : Ins → Work → Eff :=
  floatwise fun f n a b c r => ffmaNum f n.rnd n.sat r (decodeFloat f a) (decodeFloat f b) (decodeFloat f c)

/-- fmin (R200). -/
def opFmin : Ins → Work → Eff := floatwise fun f _ a b _ _ => minMax f false a b

/-- fmax (R200). -/
def opFmax : Ins → Work → Eff := floatwise fun f _ a b _ _ => minMax f true a b

/-- fabs (R204). -/
def opFabs : Ins → Work → Eff :=
  floatwise fun f _ a _ _ _ => (if f.sign then a % 2 ^ (f.width - 1) else a, 0#32)

/-- fclamp (R201). -/
def opFclamp : Ins → Work → Eff :=
  floatwise fun f _ a b c _ =>
    let lo := minMax f true a b
    let hi := minMax f false lo.1 c
    (hi.1, lo.2 ||| hi.2)

/-- fcmp (R202). -/
def opFcmp : Ins → Work → Eff :=
  floatwise fun f n a b _ _ =>
    let c := floatCond (n.mod % 8) (decodeFloat f a) (decodeFloat f b)
    (if c.1 then 2 ^ f.width - 1 else 0, c.2)

/-- fclass (R203). -/
def opFclass : Ins → Work → Eff := floatwise fun f _ a _ _ _ => (classOf f a, 0#32)

/-- frnd (R199). -/
def opFrnd : Ins → Work → Eff := floatwise fun f n a _ _ r => frndNum f n.rnd n.sat r a

/-- fscale (R198): one exponent for every element of the lane. -/
def opFscale (n : Ins) : Work → Eff :=
  ifActive fun w =>
    let f := w.fmt n.fmt
    .done ((w.alu true n fun i =>
      packElems f.width fun e =>
        let a := decodeFloat f (w.elem n f n.sa e i)
        arith f n.rnd n.sat (w.random e i) [a] fun _ => some (a.scale (w.src true n n.sb 0 i).toInt)).stepped n (32 / f.width))

/-- The exact sum of two products and an addend, if it is valid (R197). -/
def dot2 (mode : RMode) (a0 b0 a1 b1 c : Num) : Option Num :=
  (mulNum a0 b0).bind fun p => (mulNum a1 b1).bind fun q => (addNum mode p q).bind fun t => addNum mode t c

/-- fdot2 (R197): one FP32 result and one rounding for each lane. -/
def opFdot2 (n : Ins) : Work → Eff :=
  ifActive fun w =>
    let f := w.fmt n.fmt
    .done ((w.alu true n fun i =>
      let a (e : Nat) : Num := decodeFloat f (w.elem n f n.sa e i)
      let b (e : Nat) : Num := decodeFloat f (w.elem n f n.sb e i)
      let c := decodeFloat ft0 (w.src true n n.sc 0 i).toNat
      let t := arith ft0 n.rnd n.sat (w.random 0 i) [a 0, b 0, a 1, b 1, c] fun _ => dot2 n.rnd (a 0) (b 0) (a 1) (b 1) c
      (BitVec.ofNat 32 t.1, t.2)).stepped n 1)

/-- fcpsgn (R204). -/
def opFcpsgn : Ins → Work → Eff :=
  floatwise fun f _ a b _ _ =>
    (if f.sign then a % 2 ^ (f.width - 1) + b / 2 ^ (f.width - 1) * 2 ^ (f.width - 1) else a, 0#32)

/-- fgetexp (R205). -/
def opFgetexp : Ins → Work → Eff := floatwise fun f _ a _ _ _ => getExp f a

/-- fgetman (R205). -/
def opFgetman : Ins → Work → Eff := floatwise fun f _ a _ _ _ => getMan f a

/-- A special function (R206, R208): the scoreboard holds the result for 4 cycles and the beats of R188; no latch is written. -/
def special (n : Ins) : Work → Eff :=
  ifActive fun w =>
    let f := w.fmt n.fmt
    let t (i : Nat) : Word × Word :=
      packElems f.width fun e => specialElem f n.op n.rnd n.sat (2 * n.fmt + n.sat.toNat) (w.elem n f n.sa e i)
    .done (w.later (if f.width = 32 then 20 else 36) (orFlags ((lanesOf w.act).map fun i => (t i).2)) n 1 fun _ i => (t i).1)

/-- frcp (R206). -/
def opFrcp : Ins → Work → Eff := special
/-- frsq (R206). -/
def opFrsq : Ins → Work → Eff := special
/-- fsqrt (R206). -/
def opFsqrt : Ins → Work → Eff := special
/-- fexp2 (R206). -/
def opFexp2 : Ins → Work → Eff := special
/-- flog2 (R206). -/
def opFlog2 : Ins → Work → Eff := special
/-- fsinpi (R206). -/
def opFsinpi : Ins → Work → Eff := special
/-- fcospi (R206). -/
def opFcospi : Ins → Work → Eff := special

/-- FADD (R196), extended form. -/
def execFadd (f : X) (s : State) : Out := runX 0x60 f opFadd s

/-- FADD_BASE (R196), base form. -/
def execFaddBase (f : B3) (s : State) : Out := runB3 0x60 f opFadd s

/-- FSUB (R196), extended form. -/
def execFsub (f : X) (s : State) : Out := runX 0x61 f opFsub s

/-- FSUB_BASE (R196), base form. -/
def execFsubBase (f : B3) (s : State) : Out := runB3 0x61 f opFsub s

/-- FMUL (R196), extended form. -/
def execFmul (f : X) (s : State) : Out := runX 0x62 f opFmul s

/-- FMUL_BASE (R196), base form. -/
def execFmulBase (f : B3) (s : State) : Out := runB3 0x62 f opFmul s

/-- FFMA (R196), extended form. -/
def execFfma (f : X) (s : State) : Out := runX 0x63 f opFfma s

/-- FMIN (R200), extended form. -/
def execFmin (f : X) (s : State) : Out := runX 0x64 f opFmin s

/-- FMIN_BASE (R200), base form. -/
def execFminBase (f : B3) (s : State) : Out := runB3 0x64 f opFmin s

/-- FMAX (R200), extended form. -/
def execFmax (f : X) (s : State) : Out := runX 0x65 f opFmax s

/-- FMAX_BASE (R200), base form. -/
def execFmaxBase (f : B3) (s : State) : Out := runB3 0x65 f opFmax s

/-- FABS (R204), extended form. -/
def execFabs (f : X) (s : State) : Out := runX 0x66 f opFabs s

/-- FABS_BASE (R204), base form. -/
def execFabsBase (f : B3) (s : State) : Out := runB3 0x66 f opFabs s

/-- FCLAMP (R201), extended form. -/
def execFclamp (f : X) (s : State) : Out := runX 0x67 f opFclamp s

/-- FCMP (R202), extended form. -/
def execFcmp (f : X) (s : State) : Out := runX 0x68 f opFcmp s

/-- FCLASS (R203), extended form. -/
def execFclass (f : X) (s : State) : Out := runX 0x69 f opFclass s

/-- FRND (R199), extended form. -/
def execFrnd (f : X) (s : State) : Out := runX 0x6a f opFrnd s

/-- FSCALE (R198), extended form. -/
def execFscale (f : X) (s : State) : Out := runX 0x6b f opFscale s

/-- FSCALE_BASE (R198), base form. -/
def execFscaleBase (f : B3) (s : State) : Out := runB3 0x6b f opFscale s

/-- FDOT2 (R197), extended form. -/
def execFdot2 (f : X) (s : State) : Out := runX 0x6c f opFdot2 s

/-- FCPSGN (R204), extended form. -/
def execFcpsgn (f : X) (s : State) : Out := runX 0x6d f opFcpsgn s

/-- FCPSGN_BASE (R204), base form. -/
def execFcpsgnBase (f : B3) (s : State) : Out := runB3 0x6d f opFcpsgn s

/-- FGETEXP (R205), extended form. -/
def execFgetexp (f : X) (s : State) : Out := runX 0x6e f opFgetexp s

/-- FGETEXP_BASE (R205), base form. -/
def execFgetexpBase (f : B3) (s : State) : Out := runB3 0x6e f opFgetexp s

/-- FGETMAN (R205), extended form. -/
def execFgetman (f : X) (s : State) : Out := runX 0x6f f opFgetman s

/-- FGETMAN_BASE (R205), base form. -/
def execFgetmanBase (f : B3) (s : State) : Out := runB3 0x6f f opFgetman s

/-- FRCP (R206), extended form. -/
def execFrcp (f : X) (s : State) : Out := runX 0x70 f opFrcp s

/-- FRCP_BASE (R206), base form. -/
def execFrcpBase (f : B3) (s : State) : Out := runB3 0x70 f opFrcp s

/-- FRSQ (R206), extended form. -/
def execFrsq (f : X) (s : State) : Out := runX 0x71 f opFrsq s

/-- FRSQ_BASE (R206), base form. -/
def execFrsqBase (f : B3) (s : State) : Out := runB3 0x71 f opFrsq s

/-- FSQRT (R206), extended form. -/
def execFsqrt (f : X) (s : State) : Out := runX 0x72 f opFsqrt s

/-- FSQRT_BASE (R206), base form. -/
def execFsqrtBase (f : B3) (s : State) : Out := runB3 0x72 f opFsqrt s

/-- FEXP2 (R206), extended form. -/
def execFexp2 (f : X) (s : State) : Out := runX 0x73 f opFexp2 s

/-- FEXP2_BASE (R206), base form. -/
def execFexp2Base (f : B3) (s : State) : Out := runB3 0x73 f opFexp2 s

/-- FLOG2 (R206), extended form. -/
def execFlog2 (f : X) (s : State) : Out := runX 0x74 f opFlog2 s

/-- FLOG2_BASE (R206), base form. -/
def execFlog2Base (f : B3) (s : State) : Out := runB3 0x74 f opFlog2 s

/-- FSINPI (R206), extended form. -/
def execFsinpi (f : X) (s : State) : Out := runX 0x75 f opFsinpi s

/-- FSINPI_BASE (R206), base form. -/
def execFsinpiBase (f : B3) (s : State) : Out := runB3 0x75 f opFsinpi s

/-- FCOSPI (R206), extended form. -/
def execFcospi (f : X) (s : State) : Out := runX 0x76 f opFcospi s

/-- FCOSPI_BASE (R206), base form. -/
def execFcospiBase (f : B3) (s : State) : Out := runB3 0x76 f opFcospi s

end Sys2Proof.Machine
end

