-- ==== Sys2Proof/Machine/Format.lean ====
section
/-! DEFINITION. The format table of a context and its copies, and the format instructions (R157 to R162, R179 to R187). -/

namespace Sys2Proof.Machine

open Sys2Proof

/-! ### The table and its copies -/

/-- A write of the same cycle that the home takes later: one of a higher-numbered core (R159). -/
def fmtAfter (core : Nat) : Ev → Bool
  | .formatWriteAtHome _ k _ _ _ => core < k
  | _ => false

/-- An fset on a core (R160): its own copy changes at once, other troupes seeing it from the next cycle on, and the write goes to the
table home (R159). -/
def State.fset (s : State) (core ctx tid e : Nat) (v : DWord) : State :=
  let id := s.tick
  let due := s.now + s.cueLatency (s.ctx ctx).part core
  let s1 := s.bump.modCore core fun c =>
    let old := ((c.fts.find? ctx).getD []).get e
    { c with fts := c.fts.put ctx (((c.fts.find? ctx).getD []).set e v), echo := c.echo ++ [(ctx, e, id)],
             fresh := (c.fresh.filter fun f => f.cycle = s.now) ++ [⟨ctx, e, tid, s.now, old⟩] }
  s1.atBefore due (.formatWriteAtHome ctx core e v id) (fmtAfter core)

/-- The cores on which a context is resident (R14). -/
def State.coresOf (s : State) (ctx : Nat) : List Nat :=
  (s.cores.filter fun c => c.2.onStage = some ctx || c.2.wings.contains ctx).map (·.1)

/-- The cycle of the last broadcast on its way to a core's copy: the copies apply broadcasts in home order (R159). -/
def State.lastBroadcast (s : State) (ctx core : Nat) : Nat :=
  (s.agenda.filterMap fun t => match t.ev with
    | .formatBroadcastApply c k _ _ _ => if c = ctx ∧ k = core then some t.due else none
    | _ => none).foldl max 0

/-- The home writes its copy and broadcasts the write to every copy, which applies it within 4,096 cycles of its issue (R159): no write
takes 512 cycles to reach the home. -/
def State.fmtHome (s : State) (ctx e : Nat) (v : DWord) (id : Nat) : State :=
  let s1 := s.modCtx ctx fun c => { c with fmt := c.fmt.set e v }
  (s1.coresOf ctx).foldl (fun s k =>
    s.bump.at_ (max (s.lastBroadcast ctx k) (s.now + Config.pathCycles s.tick % 3584))
      (.formatBroadcastApply ctx k e v id)) s1

/-- FORMAT_WRITE_AT_HOME (R159). -/
def execFormatWriteAtHome (ctx _core e : Nat) (v : DWord) (id : Nat) (s : State) : Out :=
  .next ((s.fmtHome ctx e v id).notePreload (· = id))

/-- FORMAT_BROADCAST_APPLY (R159, R160): between an fset of its own and the echo of it, a copy ignores broadcasts to that
entry. -/
def execFormatBroadcastApply (ctx core e : Nat) (v : DWord) (id : Nat) (s : State) : Out :=
  .next ((s.modCore core fun c =>
    if c.echo.contains (ctx, e, id) then { c with echo := c.echo.filter (· ≠ (ctx, e, id)) }
    else if c.echo.any fun x => x.1 = ctx && x.2.1 = e then c
    else { c with fts := c.fts.put ctx (((c.fts.find? ctx).getD []).set e v) }).notePreload (· = id))

/-- A troupe keeps in mind a table write that it makes, until every copy has applied it (R161). -/
def Troupe.noteFset (t : Troupe) (s : State) (id : Nat) : Troupe := { t with fsets := (t.fsets.filter fun k => s.fmtFlying fun _ n => n = k) ++ [id] }

/-- fset (R182). -/
def opFset (n : Ins) : Work → Eff :=
  ifActive fun w =>
    .done { w with T := w.T.noteFset w.s w.s.tick
                   s := w.s.fset w.E.core w.E.ctx w.tid n.fmt (BitVec.ofNat 64 (w.src64 true n n.sa (lowLane w.act))) }

/-- fget (R182): the low word goes to the latch too. -/
def opFget (n : Ins) : Work → Eff := ifActive fun w => .done (w.pairResult true n fun _ => (w.look n.fmt).toNat)

/-- The parts of the 512 bytes of a table in memory (R183): each page's address and its bytes there. -/
def tableParts (va : Nat) (ms : List Mapped) : List (Mapped × Nat) :=
  ms.zip ((pageParts va 512).map (·.2))

/-- Sectors of a table in memory, in ascending order. -/
def tableSectors (va : Nat) (ms : List Mapped) : List Mapped :=
  (tableParts va ms).flatMap fun p => (List.range (p.2 / 32)).map fun k => { p.1 with pa := p.1.pa + 32 * k }

/-- Store bytes at sectors in order, 8 bytes at a time (R183). -/
def storeSectors (core : Nat) : List Mapped → List Byte → State → State
  | [], _, s => s
  | m :: t, bs, s =>
    storeSectors core t (bs.drop 32)
      ((List.range 4).foldl (fun s k => s.storeBytes core { m with pa := m.pa + 8 * k } ((bs.drop (8 * k)).take 8)) s)

/-- Load sectors in order. -/
def loadSectors (core : Nat) : List Mapped → State → State × List Byte
  | [], s => (s, [])
  | m :: t, s =>
    let r := s.loadBytes core false m 32
    let q := loadSectors core t r.1
    (q.1, natLE 32 r.2 ++ q.2)

/-- The core's copy of the table goes to the pages of a table in memory (R183). -/
def fsaveAt (va : Nat) (w : Work) (ms : List Mapped) : Eff :=
  let bs := (List.range 64).flatMap fun k => natLE 8 (w.look k).toNat
  let x := w.s.pathsOf w.E.core true false (tableSectors va ms)
  let w1 : Work := { w with s := storeSectors w.E.core (tableSectors va ms) bs x.1 }
  .done (w1.unacked.request (sentFor w1.s.tick true x.2))

/-- A table is read from its pages, and the split waits until the whole read is complete (R183). -/
def floadAt (n : Ins) (va : Nat) (w : Work) (ms : List Mapped) : Eff :=
  let x := w.s.pathsOf w.E.core false true (tableSectors va ms)
  let r := loadSectors w.E.core (tableSectors va ms) x.1
  let id := r.1.tick
  let w1 := ({ w with s := r.1 } : Work)
  let w2 := (w1.holdFor (w1.pendOf true x.2.length 0#32 [])).request (sentFor id false x.2)
  .raw (w2.suspend n (.fload id ((List.range 48).map fun k => BitVec.ofNat 64 (leNat ((r.2.drop (128 + 8 * k)).take 8)))))

/-- fsave and fload at the address that their source names (R183). -/
def tableBody (n : Ins) (acc : Access) (body : Nat → Work → List Mapped → Eff) : Work → Eff :=
  ifActive fun w =>
    let va := w.pairAddr n (lowLane w.act)
    if w.memHeld then .hold
    else if va % 64 ≠ 0 then .trap { cause := 0x07, info := lowLane w.act, addr := va }
    else w.single acc (fun _ => true) 512 (pagesOf va 512) (body va)

/-- fsave (R183): the core's copy, as it stands at issue. -/
def opFsave (n : Ins) : Work → Eff := tableBody n .store fsaveAt

/-- fload (R183). -/
def opFload (n : Ins) : Work → Eff := tableBody n .load (floadAt n)

/-- The entries that an fload of a troupe is to write once its read `id` is complete. -/
def Troupe.floading (t : Troupe) (id : Nat) : Option (Nat × List DWord) :=
  (t.splits.map (·.2) ++ t.stack ++ t.coming.map (·.2)).findSome? fun p => match p.wait with
    | .fload k es => if k = id then some (p.uid, es) else none
    | _ => none

/-- Write entries in ascending order from 16 on (R183). -/
def fsetAll (core ctx tid : Nat) : Nat → List DWord → State → State
  | _, [], s => s
  | e, v :: t, s => fsetAll core ctx tid (e + 1) t ((s.modTroupe tid fun x => x.noteFset s s.tick).fset core ctx tid e v)

/-- LOAD_SECTOR_RETURN (R291): the last sector's return writes the result; an fload then writes the table (R183). -/
def execLoadSectorReturn (tid id : Nat) (s : State) : Out :=
  match s.troupes.find? tid with
  | none => .next s
  | some t =>
    match t.pend.find? fun p => p.id = id with
    | none => .next s
    | some p =>
      if 1 < p.sectors then
        .next (s.modTroupe tid fun t =>
          { t with pend := t.pend.map fun q => if q.id = id then { q with sectors := q.sectors - 1 } else q })
      else
        let s1 := s.landPend tid id
        match t.floading id with
        | none => .next s1
        | some (uid, es) =>
          match s.ensembles.find? t.ens with
          | none => .next s1
          | some e => .next ((fsetAll e.core e.ctx tid 16 es s1).resume tid uid)

/-! ### cvt and cvtsr -/

/-- One converted element (R184): source value, header word, random value. -/
def cvtElem (f g : Fmt) (mode : RMode) (sat : Bool) (x hdr r : Nat) : Nat × Word :=
  let v := decodeHdr f x (hdr % 1024)
  let dh := hdr / 65536 % 1024
  if g.tx then convertTx v g mode (dh % 256) (dh / 256) r
  else
    let v1 := if g.scaled then (if dh % 256 = 255 then (match v with
      | .nan s => Num.nan s
      | .inf _ => Num.nan false
      | .fin _ _ _ => Num.nan false) else v.scale (127 - (dh % 256 : Nat))) else v
    convertNum v1 (f.integral && f.plain) g mode sat r

/-- cvt and cvtsr: `r` gives each lane's random value (R184). -/
def Work.convert (w : Work) (n : Ins) (r : Nat → Nat) : Work :=
  let f := w.fmt (n.mod % 64)
  let g := w.fmt n.fmt
  w.alu true n fun i =>
    let t := cvtElem f g n.rnd n.sat (w.src true n n.sa 0 i).toNat (w.src true n n.sb 0 i).toNat (r i)
    (placeElem g t.1, t.2)

/-- cvt (R184). -/
def opCvt (n : Ins) : Work → Eff := ifActive fun w => .done ((w.convert n fun i => w.random 0 i).stepped n 1)

/-- cvtsr (R184): the random value is the SC operand, and no generator steps. -/
def opCvtsr (n : Ins) : Work → Eff := ifActive fun w => .done (w.convert n fun i => (w.src true n n.sc 0 i).toNat)

/-! ### pack and unpack -/

/-- A number's magnitude is at most another's. -/
def leMag (a b : Num) : Bool :=
  match a, b with
  | .fin _ m x, .fin _ k y => m = 0 || (k != 0 && lePow m x k y)
  | _, _ => false

/-- The largest magnitude of a list of finite numbers. -/
def maxMag (l : List Num) : Num := l.foldl (fun a b => if leMag a b then b else a) (.fin false 0 0)

/-- A number's magnitude is below 2^k. -/
def belowPow (a : Num) (k : Int) : Bool :=
  match a with
  | .fin _ m e => m = 0 || numLog m e < k
  | .nan _ => false
  | .inf _ => false

/-- ⌊log2 MaxFinite⌋ of an element, as R186 takes it. -/
def Fmt.eMax (f : Fmt) : Int :=
  if f.integral then (f.width : Int) - (if f.sign then 2 else 1) else (log2 f.maxMant : Int) + f.maxExp

/-- An integer clamped to 0 to 254 (R186). -/
def clampScale (k : Int) : Nat := (max 0 (min k 254)).toNat

/-- The exponent field of the largest magnitude: ⌊log2 A⌋ + bias, clamped; `none_` for A = 0 (R186). -/
def scaleOf (a : Num) (bias : Int) (none_ : Nat) : Nat :=
  match a with
  | .fin _ m e => if m = 0 then none_ else clampScale (numLog m e + bias)
  | .nan _ => none_
  | .inf _ => none_

/-- Elements of a width in one bit string (R185). -/
def joinElems (wd : Nat) (l : List Nat) : Nat := ((List.range l.length).map fun k => l.getD k 0 % 2 ^ wd * 2 ^ (wd * k)).sum

/-- A number is NaN or infinite. -/
def Num.special : Num → Bool
  | .fin _ _ _ => false
  | .nan _ => true
  | .inf _ => true

/-- pack (R186): the bit string of the group and the flags. -/
def packGroup (f g : Fmt) (mode : RMode) (sat : Bool) (xs : List Nat) (r : Nat → Nat) : Nat × Word :=
  let vs := xs.map fun x => decodeElem f x
  let val (k : Nat) : Num := vs.getD k (.fin false 0 0)
  let codes (t : Nat → Nat × Word) : List Nat × Word :=
    ((List.range xs.length).map fun k => (t k).1, orFlags ((List.range xs.length).map fun k => (t k).2))
  if g.plain then
    let c := codes fun k => convertNum (val k) f.integral g mode sat (r k)
    (joinElems g.width c.1, c.2)
  else if vs.any Num.special then
    (if g.tx then 255 else 255 * 2 ^ (32 * ((g.blockLen * g.width + 31) / 32)), flagInv)
  else if g.tx then
    let e := scaleOf (maxMag vs) g.bias 0
    let tau (j : Nat) : Nat :=
      let a := maxMag ((vs.drop (8 * j)).take 8)
      ((List.range 4).filter fun (t : Nat) => belowPow a ((e : Int) - g.bias + 1 - (t : Int))).foldl max 0
    let c := codes fun k => convertTx (val k) g mode e (tau (k / 8)) (r k)
    (e + 256 * ((List.range 4).map fun j => tau j * 4 ^ j).sum + 65536 * joinElems g.width c.1, c.2)
  else
    let s := scaleOf (maxMag vs) (127 - g.eMax) 127
    let c := codes fun k => convertNum ((val k).scale (127 - (s : Int))) f.integral g mode true (r k)
    (joinElems g.width c.1 + s * 2 ^ (32 * ((g.blockLen * g.width + 31) / 32)), c.2)

/-- unpack (R187): element `k` of the packed group, its header found in the group. -/
def unpackElem (f : Fmt) (bits k : Nat) : Num :=
  if f.tx then
    let tau := bits / 2 ^ (8 + 2 * (k / 8)) % 4
    decodeTx f (bits / 2 ^ (16 + f.width * k) % 2 ^ f.width) (bits % 256) tau
  else if f.scaled then
    decodeHdr f (bits / 2 ^ (f.width * k) % 2 ^ f.width) (bits / 2 ^ (32 * ((f.blockLen * f.width + 31) / 32)) % 256)
  else decodeElem f (bits / 2 ^ (f.width * k))

/-- The group's registers as one bit string (R185). -/
def Work.groupBits (w : Work) (n : Ins) (o : Operand) (len i : Nat) : Nat :=
  ((List.range len).map fun k => (w.src true n o k i).toNat * 2 ^ (32 * k)).sum

/-- pack (R185, R186). -/
def opPack (n : Ins) : Work → Eff :=
  ifActive fun w =>
    let f := w.fmt (n.mod % 64)
    let g := w.fmt n.fmt
    let l := packLens g
    let t (i : Nat) : Nat × Word :=
      packGroup f g n.rnd n.sat ((List.range l.2).map fun k => (w.src true n n.sa k i).toNat % 2 ^ f.width) fun k => w.random k i
    .done (((w.result true true n l.1 fun k i => BitVec.ofNat 32 ((t i).1 / 2 ^ (32 * k))).raise
      (orFlags ((lanesOf w.act).map fun i => (t i).2))).stepped n l.2)

/-- unpack (R185, R187). -/
def opUnpack (n : Ins) : Work → Eff :=
  ifActive fun w =>
    let f := w.fmt (n.mod % 64)
    let g := w.fmt n.fmt
    let l := packLens f
    let t (k i : Nat) : Nat × Word :=
      convertNum (unpackElem f (w.groupBits n n.sa l.1 i) k) (f.integral && f.plain) g n.rnd n.sat (w.random k i)
    .done (((w.result true true n l.2 fun k i => placeElem g (t k i).1).raise
      (orFlags ((lanesOf w.act).flatMap fun i => (List.range l.2).map fun k => (t k i).2))).stepped n l.2)

/-- FSET (R182), extended form. -/
def execFset (f : X) (s : State) : Out := runX 0x50 f opFset s

/-- FGET (R182), extended form. -/
def execFget (f : X) (s : State) : Out := runX 0x51 f opFget s

/-- FSAVE (R183), extended form. -/
def execFsave (f : X) (s : State) : Out := runX 0x52 f opFsave s

/-- FLOAD (R183), extended form. -/
def execFload (f : X) (s : State) : Out := runX 0x53 f opFload s

/-- CVT (R184), extended form. -/
def execCvt (f : X) (s : State) : Out := runX 0x54 f opCvt s

/-- CVTSR (R184), extended form. -/
def execCvtsr (f : X) (s : State) : Out := runX 0x55 f opCvtsr s

/-- PACK (R186), extended form. -/
def execPack (f : X) (s : State) : Out := runX 0x56 f opPack s

/-- UNPACK (R187), extended form. -/
def execUnpack (f : X) (s : State) : Out := runX 0x57 f opUnpack s

end Sys2Proof.Machine
end

