-- ==== Sys2Proof/Machine/Windows.lean ====
section
/-! DEFINITION. Stage memory, binding records and tile geometry, range conflicts, and transaction barriers (R238 to R256). -/

namespace Sys2Proof.Machine

open Sys2Proof

/-! ### Stage memory -/

/-- Bytes of an ensemble's stage memory. -/
def Ensemble.stageRead (e : Ensemble) (a n : Nat) : List Byte := e.stage.getMany a n

/-- Write bytes of stage memory; none beyond the allotment exists (R239). -/
def Ensemble.stageWrite (e : Ensemble) (a : Nat) (bs : List Byte) : Ensemble :=
  { e with stage := e.stage.setMany a (bs.take (e.size - a)) }

/-! ### Binding records (R242) -/

/-- A field of a binding record. -/
def rf (r : BitVec 512) (hi lo : Nat) : Nat := bvField r hi lo

/-- An unbound window. -/
def Window.unbound : Window := { record := 0, tail := 0, landed := 0, held := false, err := false, state := 0, bytes := 0 }

/-- A window of an ensemble. -/
def Ensemble.win (e : Ensemble) (w : Nat) : Window := (e.wins.find? w).getD Window.unbound

/-- Change a window. -/
def Ensemble.modWin (e : Ensemble) (w : Nat) (f : Window → Window) : Ensemble := { e with wins := e.wins.put w (f (e.win w)) }

/-- DIR, 0 fill, 1 drain, 2 reduce. -/
def recDir (r : BitVec 512) : Nat := rf r 416 415
/-- WKIND is width-slide. -/
def recSlide (r : BitVec 512) : Bool := rf r 418 417 = 1
/-- The stage address of the tile. -/
def recDest (r : BitVec 512) : Nat := 32 * rf r 456 443
/-- The stage address of the barrier. -/
def recBar (r : BitVec 512) : Nat := 16 * rf r 442 428
/-- The tile goes to an operand slot. -/
def recSlotEn (r : BitVec 512) : Bool := bitOf r.toNat 427
/-- The slot's store, true for B, and its name. -/
def recSlot (r : BitVec 512) : Bool × Nat := (bitOf r.toNat 426, rf r 425 423)
/-- MCAST. -/
def recMcast (r : BitVec 512) : Nat := rf r 422 419
/-- FMT. -/
def recFmt (r : BitVec 512) : Nat := rf r 414 409
/-- Extent of the tile in a dimension, BOX + 1. -/
def recBox (r : BitVec 512) (d : Nat) : Nat := rf r (8 * d + 271) (8 * d + 264) + 1
/-- Origin in a dimension. -/
def recOrg (r : BitVec 512) (d : Nat) : Int := signed (rf r (21 * d + 324) (21 * d + 304)) 21
/-- Tensor extent in a dimension. -/
def recExt (r : BitVec 512) (d : Nat) : Nat := rf r (20 * d + 83) (20 * d + 64)
/-- Byte stride of a dimension from 1 on. -/
def recStr (r : BitVec 512) (d : Nat) : Nat := 16 * rf r (25 * (d - 1) + 188) (25 * (d - 1) + 164)

/-- Elements of a tile (R243). -/
def recElems (r : BitVec 512) : Nat :=
  if recSlide r then (rf r 283 272 + 1) * (rf r 287 284 + 1) * recBox r 0
  else recBox r 0 * recBox r 1 * recBox r 2 * recBox r 3 * recBox r 4

/-- The stage range of a bound window's tile, if it has one (R243, R245). -/
def Window.range (w : Window) : Option (Nat × Nat) :=
  if w.state = 0 ∨ recSlotEn w.record ∨ w.bytes = 0 then none else some (recDest w.record, recDest w.record + w.bytes - 1)

/-- The tensor index of the `k`-th element of a tile (R247, R249); `g` is the channel-group offset. -/
def recIndex (r : BitVec 512) (g : Int) (k : Nat) : List Int :=
  if recSlide r then
    let c := k % recBox r 0
    let t := k / recBox r 0 % (rf r 287 284 + 1)
    let p := k / recBox r 0 / (rf r 287 284 + 1)
    [recOrg r 0 + g + c, recOrg r 1 + (p : Int) * (rf r 291 288 + 1) + (t : Int) * (rf r 295 292 + 1), recOrg r 2, recOrg r 3,
     recOrg r 4]
  else
    let k1 := k / recBox r 0
    let k2 := k1 / recBox r 1
    let k3 := k2 / recBox r 2
    [recOrg r 0 + (k % recBox r 0 : Nat), recOrg r 1 + (k1 % recBox r 1 : Nat), recOrg r 2 + (k2 % recBox r 2 : Nat),
     recOrg r 3 + (k3 % recBox r 3 : Nat), recOrg r 4 + (k3 / recBox r 3 : Nat)]

/-- The virtual bit address of the `k`-th element of a tile, if it lies in the tensor (R247). -/
def recAddr (r : BitVec 512) (g : Int) (width k : Nat) : Option Nat :=
  let ix := recIndex r g k
  if (List.range 5).all fun d => 0 ≤ ix.getD d 0 && ix.getD d 0 < (recExt r d : Int) then
    some ((8 * (rf r 59 0 : Int) + ix.getD 0 0 * width
      + 8 * ((List.range 4).map fun d => ix.getD (d + 1) 0 * (recStr r (d + 1) : Int)).sum).toNat)
  else none

/-- The conditions of R243 on a record, for window `w` under an entry of a width. -/
def recordOk (e : Ensemble) (w width : Nat) (r : BitVec 512) : Bool :=
  let slide := recSlide r
  let elems := recElems r
  let bytes := elems * width / 8
  let red := rf r 459 457 ≠ 0 || bitOf r.toNat 460 || rf r 468 461 ≠ 0 || rf r 476 469 ≠ 0 || bitOf r.toNat 509
  let ordered := rf r 468 461 ≠ 0 || rf r 476 469 ≠ 0 || bitOf r.toNat 509
  let lo := recDest r
  rf r 511 510 = 0 && rf r 63 60 = 0 && rf r 3 0 = 0 && (!slide || rf r 303 296 = 0)
  && recDir r ≠ 3 && rf r 418 417 < 2 && rf r 459 457 < 4 && !(slide && recDir r ≠ 0)
  && ((List.range 5).all fun d => recExt r d ≠ 0)
  && elems * width % 256 = 0
  && !(width = 4 && (recOrg r 0 % 2 ≠ 0 || recBox r 0 % 2 ≠ 0))
  && !(recSlotEn r && (recDir r ≠ 0 || (if (recSlot r).1 then 65536 else 32768) < bytes || recDest r ≠ 0))
  && (recMcast r = 0 || (recDir r = 0 && e.group ≠ [] && bitOf (recMcast r) e.member))
  && !(recDir r ≠ 2 && red) && !(!bitOf r.toNat 460 && ordered) && rf r 476 469 ≤ rf r 468 461
  && (recSlotEn r || (List.range 32).all fun j => j = w || (match (e.win j).range with
    | some (a, b) => !(a < lo + bytes && lo ≤ b)
    | none => true))

/-- The checks of a binding (R243, R239). -/
def bindCheck (e : Ensemble) (w width : Nat) (r : BitVec 512) : Option TrapInfo :=
  if !recordOk e w width r then some { cause := 0x02 }
  else if !recSlotEn r ∧ e.size < recDest r + recElems r * width / 8 then
    some { cause := 0x09, info := 8, addr := recDest r }
  else if e.size < recBar r + 16 then some { cause := 0x09, info := 8, addr := recBar r }
  else none

/-! ### Conflicts of engine ranges (R251) -/

/-- Two ranges of bytes meet. -/
def meets (a b c d : Nat) : Bool := a ≤ d && c ≤ b

/-- The lowest-numbered registered stage range of an ensemble that meets a range. -/
def Core.stageLock (c : Core) (ens lo hi : Nat) (writes : Bool) : Option Nat :=
  (List.find? (fun (e : Nat × RangeLock) => e.2.stage && e.2.ens = ens && (!writes || e.2.writes) && meets e.2.lo e.2.hi lo hi)
    c.locks).map (·.1)

/-- The lowest window whose tile meets a range, among those in some states. -/
def Ensemble.winAt (e : Ensemble) (states : List (BitVec 3)) (lo hi : Nat) : Option Nat :=
  (List.range 32).find? fun w => states.contains (e.win w).state && (match (e.win w).range with
    | some (a, b) => meets a b lo hi
    | none => false)

/-- The conflict that an engine command takes at issue (R251): a writer against every registered range and every filling or
draining window, a reader against ranges that an engine writes. A window is no entry of the range-lock table, so that the
entry of INFO is then a free value (log entry 13). -/
def State.conflict (s : State) (ens : Nat) (e : Ensemble) (writer : Bool) (lo hi : Nat) : Option TrapInfo :=
  match (s.core e.core).stageLock ens lo hi (!writer) with
  | some k => some { cause := 0x0A, info := k, addr := lo }
  | none =>
    if (e.winAt (if writer then [2, 5] else [2]) lo hi).isSome then
      some { cause := 0x0A, info := Config.unstated s.tick % 64, addr := lo }
    else none

/-- See `State.conflict`. -/
def Work.conflict (w : Work) (writer : Bool) (lo hi : Nat) : Option TrapInfo := w.s.conflict w.T.ens w.E writer lo hi

/-- Register ranges in the lowest free entries of a core's table (R251). -/
def Core.lock (c : Core) (rs : List RangeLock) : Core :=
  { c with locks := rs.foldl (fun t r => t.put t.fresh r) c.locks }

/-- The table has room for some ranges. -/
def Core.lockRoom (c : Core) (k : Nat) : Bool := c.locks.length + k ≤ 64

/-- Release the ranges of a copy or a matrix instruction (R251, R227). -/
def Core.unlock (c : Core) (owner : Nat) : Core := { c with locks := c.locks.filter fun e => e.2.owner ≠ owner }

/-- Let the queues of a core's troupes look at their heads again (R258). -/
def State.kick (s : State) (core : Nat) : State :=
  (s.troupes.filter fun t => t.2.queue ≠ [] && s.coreOf t.1 = core).foldl (fun s t => s.at_ s.now (.copyStart t.1)) s

/-! ### Transaction barriers -/

/-- One atomic update of a barrier's 128 bits, then the phase check (R255): arrivals, sectors to add, and the result with whether
the phase completes. -/
def barStep (v arrive : Nat) (add : Int) : Nat × Bool :=
  let arr := field v 23 4
  let sect := (((field v 55 24 : Nat) + add) % (2 : Int) ^ 32).toNat
  let ovr := bitOf v 112 || arr < arrive
  let arr1 := arr - arrive
  let done := arr1 = 0 && sect = 0
  let ph := if done then (v % 16 + 1) % 16 else v % 16
  let a := if done then field v 75 56 else arr1
  let sc := if done then field v 111 80 else sect
  (ph + 16 * a + 2 ^ 24 * sc + 2 ^ 56 * field v 111 56 + 2 ^ 112 * (ovr.toNat + 2 * field v 127 113), done)

/-- The 128 bits of a barrier. -/
def Ensemble.bar (e : Ensemble) (addr : Nat) : Nat := leNat (e.stageRead addr 16)

/-- SCOPE of a barrier (R254). -/
def Ensemble.barScope (e : Ensemble) (addr : Nat) : Nat := field (e.bar addr) 78 76

/-- A phase of a barrier has completed (R255): its waiters wake 8 cycles later (R276), and the epoch barrier ends an ownership
epoch of the g registers (R128, R256). -/
def State.phaseDone (s : State) (ens addr ph : Nat) : State :=
  let s1 := s.modEns ens fun e => if e.epoch = some addr then { e with gown := [] } else e
  (s1.troupes.filter fun t => t.2.ens = ens).foldl (fun s t =>
    (t.2.splits.map (·.2) ++ t.2.stack ++ t.2.coming.map (·.2)).foldl (fun s p => match p.wait with
      | .phase a q k l =>
        if a = addr ∧ q < 16 ∧ q ≠ ph then
          (s.modTroupe t.1 fun t => t.modSplit p.uid fun p => { p with wait := .phase a 16 k l }).at_ (s.now + 8) (.tbwaitWake t.1 p.uid)
        else s
      | _ => s) s) s1

/-- An update of a barrier (R255). -/
def State.barApply (s : State) (ens addr arrive : Nat) (add : Int) : State :=
  match s.ensembles.find? ens with
  | none => s
  | some e =>
    let r := barStep (e.bar addr) arrive add
    let s1 := s.modEns ens fun e =>
      { e.stageWrite addr (natLE 16 r.1) with bars := if e.bars.contains addr then e.bars else e.bars ++ [addr] }
    if r.2 then s1.phaseDone ens addr (r.1 % 16) else s1

/-- The checks of a barrier operand (R274, R239). -/
def Work.barCheck (w : Work) (addr : Nat) : Option TrapInfo :=
  if addr % 16 ≠ 0 then some { cause := 0x07, info := lowLane w.act, addr := addr }
  else if w.E.size < addr + 16 then some (stageOut addr)
  else none

end Sys2Proof.Machine
end

