-- ==== Sys2Proof/Machine/Copies.lean ====
section
/-! DEFINITION. The stagehand: queues, copies from their start to their last landing, reductions and ordered episodes (R246 to
R262). -/

namespace Sys2Proof.Machine

open Sys2Proof

/-- The descriptor a copy read at its starting instruction's issue (R158, R246). -/
def Copy.f (c : Copy) : Fmt := fmtOf c.fmt

/-- The bytes of a window copy's tile. -/
def Copy.bytes (c : Copy) : Nat := recElems c.record * c.f.width / 8

/-- The core of a copy. -/
def State.copyCore (s : State) (c : Copy) : Nat := ((s.ensembles.find? c.ens).map (·.core)).getD 0

/-- The context of a copy. -/
def State.copyCtx (s : State) (c : Copy) : Nat := ((s.ensembles.find? c.ens).map (·.ctx)).getD 0

/-- The operand slot a copy writes: true for B, and its name. -/
def Copy.slot (c : Copy) : Option (Bool × Nat) :=
  match c.kind with
  | .window _ => if recSlotEn c.record then some (recSlot c.record) else none
  | .opld b k _ _ _ => some (b, k)
  | .sgath _ _ _ => none
  | .sfill _ _ _ => none

/-- A slot of an ensemble. -/
def Ensemble.slot (e : Ensemble) (b : Bool) (k : Nat) : Option Slot := if b then e.bSlots.find? k else e.aSlots.find? k

/-- Replace a claimed slot's data. -/
def Ensemble.setSlot (e : Ensemble) (b : Bool) (k : Nat) (x : Slot) : Ensemble :=
  if b then { e with bSlots := e.bSlots.put k x } else { e with aSlots := e.aSlots.put k x }

/-- An earlier write by a copy to a slot has not landed (R227, R228): one with a number below a bound. -/
def State.slotWriting (s : State) (ens : Nat) (b : Bool) (k bound : Nat) : Bool :=
  s.copies.any fun c => c.1 < bound && c.2.members.contains ens && c.2.slot = some (b, k)

/-- A matrix instruction that reads a slot has not passed its last occupancy cycle (R228). -/
def State.slotReading (s : State) (core ens : Nat) (b : Bool) (k : Nat) : Bool :=
  (s.core core).mats.any fun m => m.ens = ens && (if b then m.bslot else m.aslot) = k && (match m.start with
    | some t => s.now < t + m.occ
    | none => true)

/-! ### Elements and units -/

/-- Elements of unit `j` of a window copy: 32 bytes of the tile (R247). -/
def Copy.elems (c : Copy) (j : Nat) : List Nat :=
  let per := 256 / c.f.width
  ((List.range per).map (per * j + ·)).filter (· < recElems c.record)

/-- The virtual bit address of an element in the tensor. -/
def Copy.addr (c : Copy) (k : Nat) : Option Nat := recAddr c.record c.goff c.f.width k

/-- The virtual pages that a unit's elements touch. -/
def Copy.pages (c : Copy) (j : Nat) : List Nat :=
  match c.kind with
  | .window _ => distinct ((c.elems j).filterMap fun k => (c.addr k).map (· / 8 / 4096))
  | .sgath rows _ row => (rows[j]?.map fun a => (List.range ((a + row - 1) / 4096 - a / 4096 + 1)).map (a / 4096 + ·)).getD []
  | .sfill _ _ _ => []
  | .opld _ _ _ _ _ => []

/-- The lowest and highest virtual byte that a window copy reads or writes (R251). -/
def Copy.interval (c : Copy) : Option (Nat × Nat) :=
  (List.range (recElems c.record)).foldl (fun b k =>
    match c.addr k with
    | none => b
    | some a =>
      let lo := a / 8
      let hi := (a + c.f.width - 1) / 8
      match b with
      | none => some (lo, hi)
      | some (x, y) => some (min x lo, max y hi)) none

/-- The troupe that started a copy runs at supervisor level. -/
def State.copySup (s : State) (c : Copy) : Bool := ((s.troupes.find? c.tid).map Troupe.sup).getD false

/-- The access that a copy makes (R281, R288). -/
def Copy.access (c : Copy) : Access :=
  match c.kind with
  | .window _ => if recDir c.record = 0 then .fill else .drain
  | .sgath _ _ _ => .gath
  | .sfill _ _ _ => .fill
  | .opld _ _ _ _ _ => .fill

/-- Translate pages for a copy, in ascending order: their physical addresses by page, or the first that fails. -/
def State.copyPages (s : State) (c : Copy) : List Nat → State × Except (Nat × Miss) (Tab Nat)
  | [] => (s, .ok [])
  | p :: t =>
    let x := s.ctx (s.copyCtx c)
    match s.translate (s.copyCore c) none x.ptbr.toNat x.ctxid.toNat (s.copySup c) c.access (4096 * p) with
    | (s1, .error m) => (s1, .error (4096 * p, m))
    | (s1, .ok m) =>
      match s1.copyPages c t with
      | (s2, .error e) => (s2, .error e)
      | (s2, .ok l) => (s2, .ok (l.put p m.pa))

/-- The physical byte of a virtual byte whose page is known. -/
def physOf (pages : Tab Nat) (va : Nat) : Nat := (pages.find? (va / 4096)).getD 0 + va % 4096

/-- The code of an element in memory, at a virtual bit address (R247). -/
def State.loadElem (s : State) (pages : Tab Nat) (width a : Nat) : Nat :=
  if width < 8 then ((s.mem.read (physOf pages (a / 8))).toNat / 2 ^ (a % 8)) % 2 ^ width
  else leNat (s.peek (physOf pages (a / 8)) (width / 8))

/-- Write an element to memory, past L1 (R248), whose matching sectors on the issuing core are invalidated (R292). -/
def State.storeElem (s : State) (core : Nat) (pages : Tab Nat) (width a code : Nat) : State :=
  let pa := physOf pages (a / 8)
  let bs :=
    if width < 8 then
      let old := (s.mem.read pa).toNat
      let low := a % 8
      [BitVec.ofNat 8 (old - (old / 2 ^ low % 2 ^ width) * 2 ^ low + code % 2 ^ width * 2 ^ low)]
    else natLE (width / 8) code
  (s.homeWrite pa bs).modCore core fun c => c.l1Drop (· = pa / 32)

/-- The code of element `k` of a tile in stage memory (R247). -/
def Ensemble.tileElem (e : Ensemble) (dest width k : Nat) : Nat :=
  leNat (e.stageRead (dest + k * width / 8) (max 1 (width / 8))) / 2 ^ (if width < 8 then k * width % 8 else 0) % 2 ^ width

/-- The 32 bytes that a fill puts at unit `j` (R247). -/
def State.fillBytes (s : State) (c : Copy) (pages : Tab Nat) (j : Nat) : List Byte :=
  let wd := c.f.width
  let codes := (c.elems j).map fun k => match c.addr k with
    | some a => s.loadElem pages wd a
    | none => rf c.record 508 477 % 2 ^ wd
  natLE 32 (joinElems wd codes)

/-! ### Reductions -/

/-- The entries that a reduce window may use (R260). -/
def reduceOk (d : DWord) (rop : Nat) : Bool :=
  let fl := d = builtin 0 || d = builtin 2
  let f := fmtOf d
  let int := f.kind = 2 && (f.width = 8 || f.width = 16 || f.width = 32)
  match rop with
  | 0 => fl
  | 1 => fl || int
  | 2 => fl || int
  | 3 => int
  | _ => false

/-- New d of R260, as codes. -/
def reduceElem (f : Fmt) (rop d c : Nat) : Nat :=
  let int (g : Int → Int → Int) : Nat := encodeInt (g (readInt d f.width f.sign) (readInt c f.width f.sign)) f.width
  match rop with
  | 0 => (faddNum f .rne false 0 (decodeFloat f d) (decodeFloat f c)).1
  | 1 => if f.kind = 1 then (minMax f false d c).1 else int min
  | 2 => if f.kind = 1 then (minMax f true d c).1 else int max
  | _ => (fit (readInt d f.width f.sign + readInt c f.width f.sign) f.width f.sign f.satPolicy).1

/-- Apply a contribution's elements to memory at physical bit addresses (R260); `init`: store in place of combining (R262). -/
def State.reduceApply (s : State) (core : Nat) (c : Copy) (init : Bool) (sector : Nat) (elems : List (Nat × Nat)) : State :=
  let pages : Tab Nat := [(sector / 128, sector / 128 * 4096)]
  elems.foldl (fun s e =>
    let a := 256 * sector + e.1
    let d := s.loadElem pages c.f.width a
    s.storeElem core pages c.f.width a (if init then e.2 else reduceElem c.f (rf c.record 459 457) d e.2)) s

/-! ### Landing -/

/-- Count a unit as landed: LANDED moves over an unbroken run, TAIL holds the others (R244). -/
def landRun : Nat → Nat → BitVec 64 → Nat × BitVec 64
  | 0, l, t => (l, t)
  | n + 1, l, t => if t.getLsbD 0 then landRun n (l + 1) (t >>> 1) else (l, t)

/-- See `landRun`. -/
def landMark (landed : Nat) (tail : BitVec 64) (j : Nat) : Nat × BitVec 64 :=
  if j < landed then (landed, tail) else landRun 64 landed (tail ||| (1#64 <<< (j - landed)))

/-- A unit has landed. -/
def Copy.hasLanded (c : Copy) (j : Nat) : Bool := j < c.landed || (j - c.landed < 64 && c.tail.getLsbD (j - c.landed))

/-- Change a copy. -/
def State.modCopy (s : State) (id : Nat) (f : Copy → Copy) : State := { s with copies := s.copies.modify id f }

/-- Set ERR of a copy's window (R244). -/
def State.copyErr (s : State) (c : Copy) : State :=
  match c.kind with
  | .window w => s.modEns c.ens fun e => e.modWin w fun x => { x with err := true }
  | .sgath _ _ _ => s
  | .sfill _ _ _ => s
  | .opld _ _ _ _ _ => s

/-- The batches numbered `n` or lower are complete (R257, R273). -/
def State.batchDone (s : State) (tid : Nat) (t : Troupe) (n : Word) : Bool :=
  let m : Word := if (n - t.batch).toNat < 2 ^ 31 then t.batch else n
  !(s.copies.any fun c => c.2.tid = tid && (m - c.2.batch).toNat < 2 ^ 31)

/-- Wake the splits of a troupe whose batches are complete (R273). -/
def State.wakeBatch (s : State) (tid : Nat) : State :=
  match s.troupes.find? tid with
  | none => s
  | some t =>
    (t.splits.map (·.2) ++ t.stack ++ t.coming.map (·.2)).foldl (fun s p => match p.wait with
      | .batch n => if p.state = 2 ∧ s.batchDone tid t (BitVec.ofNat 32 n) then s.resume tid p.uid else s
      | _ => s) s

/-- A copy is over (R248, R251): its ranges are released, batches and queues go on, and an ended troupe may free its slot (R79). -/
def State.dropCopy (s : State) (id : Nat) : State :=
  match s.copies.find? id with
  | none => s
  | some c =>
    let core := s.copyCore c
    let s1 := ({ s with copies := s.copies.del id, refused := s.refused.filter fun r => r.1 ≠ id } : State).modCore core (·.unlock id)
    (((s1.wakeBatch c.tid).kick core).at_ s.now (.troupeEnd c.tid))

/-- The physical intervals of a virtual range, for a release over a copy's destination (R248, R320). -/
def State.physIn (s : State) (c : Copy) (lo hi : Nat) : List (Nat × Nat) :=
  (pageParts lo (hi + 1 - lo)).filterMap fun p => match (s.copyPages c [p.1 / 4096]).2 with
    | .ok l => some (physOf l p.1, physOf l p.1 + p.2)
    | .error _ => none

/-- The completion that a copy posts is a release at its barrier's scope over its destination ranges (R248, R320). -/
def State.copyRelease (s : State) (c : Copy) : State :=
  match c.bar, s.ensembles.find? c.ens with
  | some a, some e =>
    if e.barScope a = 5 ∧ recDir c.record ≠ 0 then
      match c.interval with
      | some (lo, hi) => s.writeBackAll (some (s.physIn c lo hi))
      | none => s
    else s
  | _, _ => s

/-- The last unit has landed: the windows become present or open (R248). -/
def State.finishCopy (s : State) (id : Nat) : State :=
  match s.copies.find? id with
  | none => s
  | some c =>
    let st : BitVec 3 := if recDir c.record = 0 then 3 else 4
    let s1 := match c.kind with
      | .window w => c.members.foldl (fun (s : State) m => s.modEns m fun e => e.modWin w fun x => { x with state := st }) (s.copyRelease c)
      | .sgath rows _ row => match c.bar with
        | some a => s.barApply c.ens a 0 (-((rows.length * row / 32 : Nat) : Int))
        | none => s
      | .sfill _ _ _ => s
      | .opld _ _ _ _ len => match c.bar with
        | some a => s.barApply c.ens a 0 (-((len / 32 : Nat) : Int))
        | none => s
    s1.dropCopy id

/-- A unit of a window copy lands (R248): it is counted and posted in every receiving ensemble. -/
def State.landUnit (s : State) (id j : Nat) : State :=
  match s.copies.find? id with
  | none => s
  | some c =>
    if c.hasLanded j then s
    else
      let r := landMark c.landed c.tail j
      let s1 := s.modCopy id fun c => { c with landed := r.1, tail := r.2 }
      let s2 := match c.kind with
        | .window w => c.members.foldl (fun s m =>
            let s' := s.modEns m fun e => e.modWin w fun x => { x with landed := BitVec.ofNat 15 r.1, tail := r.2 }
            match c.bar with
            | some a => s'.barApply m a 0 (-1)
            | none => s') s1
        | .sgath _ _ _ => s1
        | .sfill _ _ _ => s1
        | .opld _ _ _ _ _ => s1
      if c.units ≤ r.1 then s2.finishCopy id else s2

/-- Bytes per cycle of a copy (R248, R211). -/
def Copy.rate (c : Copy) : Nat :=
  match c.slot with
  | some (false, _) => 64
  | _ => 128

/-- The bytes of a unit. -/
def Copy.unitBytes (c : Copy) : Nat :=
  match c.kind with
  | .sgath _ _ row => row
  | _ => 32

/-- Some byte of a unit comes from memory or goes there. -/
def Copy.touches (c : Copy) (j : Nat) : Bool :=
  match c.kind with
  | .window _ => (c.elems j).any fun k => (c.addr k).isSome
  | .sgath _ _ _ => true
  | .sfill _ _ _ => false
  | .opld _ _ _ _ _ => false

/-- The destination sectors that a unit's elements fall in, by virtual address over 32 (R262). -/
def Copy.secsOf (c : Copy) (j : Nat) : List Nat := distinct ((c.elems j).filterMap fun k => (c.addr k).map (· / 256))

/-- The copy is an ordered reduction (R262). -/
def Copy.ordered (c : Copy) : Bool := recDir c.record = 2 && bitOf c.record.toNat 460

/-- The memory sectors of a unit, by virtual address over 32. -/
def Copy.sectors (c : Copy) (j : Nat) : List Nat :=
  match c.kind with
  | .window _ => c.secsOf j
  | .sgath rows _ row => (rows[j]?.map fun a => sectorsOf a row).getD []
  | .sfill _ _ _ => []
  | .opld _ _ _ _ _ => []

/-- The path time of one of a copy's memory sectors (R248, R378, R379): its read time, or its write time. A page that does not translate
parks the copy at the landing, whose time is then a free value. -/
def State.sectorTime (s : State) (c : Copy) (x : Nat) : State × Nat :=
  match s.copyPages c [x / 128] with
  | (s1, .error _) => (s1.bump, Config.pathCycles s1.tick)
  | (s1, .ok pages) =>
    let pa := physOf pages (32 * x)
    if c.access = .drain then s1.writeTime (s1.copyCore c) pa
    else
      let r := s1.readTime (s1.copyCore c) pa
      (r.1.noteRead pa, r.2)

/-- The path time of a unit: the longest of its sectors', or 0 where it touches no memory (R248). -/
def State.unitTime (s : State) (c : Copy) (j : Nat) : State × Nat :=
  (c.sectors j).foldl (fun r x =>
    let q := r.1.sectorTime c x
    (q.1, max r.2 q.2)) (s, 0)

/-- Ask for units in ascending order while no more than 64 beyond LANDED are in flight (R244): unit j lands ⌈32(j + 1)/W⌉ + 4 cycles after
the start and its path time later, which is 0 where it touches no memory; a unit asked for later than its turn moves its landing
and all later ones back (R248; log entry 88). An ordered reduction sends the contributions of the destination sectors that a unit falls
in, once each (R262). -/
def State.requestUnits (s : State) (id : Nat) : Nat → State
  | 0 => s
  | n + 1 =>
    match s.copies.find? id with
    | none => s
    | some c =>
      match c.started with
      | none => s
      | some t =>
        if c.parked ∨ c.units ≤ c.sent ∨ c.landed + 64 ≤ c.sent then s
        else
          let j := c.sent
          let late := s.now - (t + c.unitBytes * j / c.rate + c.shift)
          let due := max s.now (t + 4 + ceilDiv (c.unitBytes * (j + 1)) c.rate + c.shift + late)
          let secs := if c.ordered then (c.secsOf j).filter c.todo.contains else []
          let s1 := s.modCopy id fun x =>
            { x with sent := j + 1, shift := c.shift + late, todo := x.todo.filter fun a => !secs.contains a }
          let s2 :=
            if c.hasLanded j then s1
            else if c.touches j = false then s1.at_ due (.sectorLanding id j)
            else if c.ordered then
              secs.foldl (fun s x =>
                let r := s.sectorTime c x
                r.1.at_ (due + r.2) (.reduceContribution id x)) s1
            else
              let r := s1.unitTime c j
              r.1.at_ (due + r.2) (.sectorLanding id j)
          s2.requestUnits id n

/-- The landings of a copy that are on their way are called off: it stands parked. -/
def State.recallUnits (s : State) (id : Nat) : State :=
  { s with agenda := s.agenda.filter fun t => match t.ev with
      | .sectorLanding n _ => n ≠ id
      | .sfillComplete n => n ≠ id
      | .opldComplete n => n ≠ id
      | _ => true }

/-- A store, atomic or rel write that the troupe made before the copy's starting instruction is not acknowledged (R326). -/
def State.copyWaits (s : State) (c : Copy) : Bool :=
  match s.troupes.find? c.tid with
  | none => false
  | some t => t.unacked.any c.waits.contains

/-- A copy's fault (R252, R286): it parks with its locks. -/
def State.copyFault (s : State) (id va : Nat) (c : Copy) (m : Miss) : State :=
  let slot := ((s.troupes.find? c.tid).map Troupe.slotNo).getD 0
  let win := match c.kind with
    | .window w => w
    | _ => 0xFF
  ((s.modCopy id fun c => { c with parked := true }).recallUnits id).raiseFault
    { id := 0, core := s.copyCore c, waiter := .copy id, ctxid := (s.ctx (s.copyCtx c)).ctxid.toNat, va := va, cause := m.cause,
      reason := m.reason, level := m.level, acc := c.access.acc, slot := slot, win := win, pc := c.pc, lanes := 0, done := 0,
      buffered := false, token := none, closing := false }

/-- The lowest byte of a page that a unit touches. -/
def Copy.lowByte (c : Copy) (j page : Nat) : Nat :=
  let bytes := match c.kind with
    | .window _ => ((c.elems j).filterMap c.addr).map (· / 8)
    | .sgath rows _ row => (rows[j]?.map fun a => [a, (a + row - 1) / 4096 * 4096]).getD []
    | .sfill _ _ _ => []
    | .opld _ _ _ _ _ => []
  ((bytes.filter fun b => b / 4096 = page / 4096)).foldl min (page + 4095)

/-- Bytes of a row of an sgath, from pages that are known. -/
def State.rowBytes (s : State) (pages : Tab Nat) (a n : Nat) : List Byte :=
  (List.range (n / 32)).flatMap fun k => s.peek (physOf pages (a + 32 * k)) 32

/-- Move unit `j` (R247, R260, R266): fill data to stage memory or the slot, drained or reduced elements to memory, a row to its
place. -/
def State.moveUnit (s : State) (c : Copy) (pages : Tab Nat) (j : Nat) : State :=
  match c.kind with
  | .window _ =>
    if recDir c.record = 0 then
      let bs := s.fillBytes c pages j
      c.members.foldl (fun s m => s.modEns m fun e =>
        if recSlotEn c.record then
          match e.slot (recSlot c.record).1 (recSlot c.record).2 with
          | some x => e.setSlot (recSlot c.record).1 (recSlot c.record).2 { x with data := x.data.setMany (32 * j) bs }
          | none => e
        else e.stageWrite (recDest c.record + 32 * j) bs) s
    else
      match s.ensembles.find? c.ens with
      | none => s
      | some e =>
        (c.elems j).foldl (fun s k => match c.addr k with
          | none => s
          | some a =>
            let v := e.tileElem (recDest c.record) c.f.width k
            if recDir c.record = 1 then s.storeElem e.core pages c.f.width a v
            else s.storeElem e.core pages c.f.width a
              (reduceElem c.f (rf c.record 459 457) (s.loadElem pages c.f.width a) v)) s
  | .sgath rows dst row =>
    match rows[j]? with
    | some a => s.modEns c.ens fun e => e.stageWrite (dst + j * row) (s.rowBytes pages a row)
    | none => s
  | .sfill _ _ _ => s
  | .opld _ _ _ _ _ => s

/-! ### Reports of abandoned copies (R393) -/

/-- The troupe that hears of a copy or overlay load (R393): the one that started it, else the lowest of the ensemble. -/
def State.hearer (s : State) (tid ens : Nat) : Option Nat :=
  if ((s.troupes.find? tid).bind Troupe.lowest).isSome then some tid
  else
    (List.range 16).findSome? fun k =>
      (List.find? (fun (x : Nat × Troupe) => x.2.ens = ens && x.2.num = k && x.2.lowest.isSome) s.troupes).map (·.1)

/-- The instruction that a split would issue next, if the bytes at its program counter are one. -/
def Work.ahead (w : Work) : Option Ins :=
  match decode ((w.s.codeAt w.E.core w.E.ctx w.S.pc).getD []) with
  | .ok i => i.view.map fun v => insOf v.1 v.2
  | .error _ => none

/-- ACTIVE and DONE of the instruction that a split would issue next (R285, R389): a parked one and a re-issue keep theirs. -/
def Work.nextActive (w : Work) : Mask × Mask :=
  match w.T.parked.find? fun p => p.uid = w.S.uid with
  | some p => (p.active, p.done)
  | none =>
    match w.S.redo with
    | some m => m
    | none => ((w.ahead.map w.active).getD w.S.mask, 0)

/-- A split takes the trap of a report before its next instruction (R393). -/
def Work.takeReport (w : Work) (d : Due) : Out :=
  let a := w.nextActive
  w.s.takeTrap w.tid w.ent { cause := d.cause, info := d.info, addr := d.addr, done := a.2 }
    { pc := w.S.pc, ilen := max 4 w.insn.length, insn := w.insn, active := a.1, adds := (w.ahead.map fun n => 1 + n.stall).getD 0, flags := 1,
      win := d.win }

/-- With no troupe of its ensemble left to hear a report, a context is terminated and that is reported (R392, R393, R442). -/
def State.unheard (s : State) (ens ctx cause : Nat) : State :=
  let die := match s.ensembles.find? ens with
    | some e => dieOf e.core
    | none => s.homeDie (s.ctx ctx).part
  (s.report die ⟨2, (s.ctx ctx).ctxid.toNat, cause, 0, 0⟩).terminate ctx

/-- Deliver a report as a trap of the hearer's split of lowest entry, before its next instruction: at once, or, while a handler runs that
the split is no part of, after tret (R390, R393). With no troupe left the context is terminated. -/
def State.deliver (s : State) (tid ens ctx win startPc : Nat) (cause reason level acc va : Nat) : Out :=
  match s.hearer tid ens with
  | none => .next (s.unheard ens ctx cause)
  | some h =>
    match s.troupes.find? h with
    | none => .next s
    | some t =>
      match t.lowest with
      | none => .next s
      | some (k, p) =>
        let d : Due := { cause := cause, info := reason + 256 * level + 65536 * acc + 2 ^ 32 * startPc, addr := va, win := win }
        if t.trapPc.isSome && !p.handles then .next (s.modTroupe h fun t => { t with due := t.due ++ [d] })
        else
          match (s.endWait h p.uid).work h k with
          | none => .next s
          | some w => w.takeReport d

/-- A copy is abandoned and reported (R393): its window returns to absent or open with ERR set. -/
def State.reportCopy (s : State) (id : Nat) (c : Copy) (cause reason level va : Nat) : Out :=
  let st : BitVec 3 := if recDir c.record = 0 then 1 else 4
  let win := match c.kind with
    | .window w => w
    | .sgath _ _ _ => 0xFF
    | .sfill _ _ _ => 0xFF
    | .opld _ _ _ _ _ => 0xFF
  let s1 := match c.kind with
    | .window w => c.members.foldl (fun (s : State) m => s.modEns m fun e => e.modWin w fun x => { x with state := st, held := false, err := true }) s
    | .sgath _ _ _ => s
    | .sfill _ _ _ => s
    | .opld _ _ _ _ _ => s
  ((s1.dropFaults (.copy id)).dropCopy id).deliver c.tid c.ens (s.copyCtx c) win c.pc.toNat cause reason level c.access.acc va

/-- A copy's access to pages meets a peer that answers with a failure, or whose link is down (R430): the status. -/
def State.copyPeer (s : State) (pages : Tab Nat) : Option (Nat × Nat) :=
  (pages.filter fun p => targetOf p.2 = .peer).findSome? fun p =>
    let st := s.peerAnswer p.2 (256 * s.tick)
    if st = 0 then none else some (st, p.2)

/-- SECTOR_LANDING (R248). -/
def execSectorLanding (id j : Nat) (s : State) : Out :=
  match s.copies.find? id with
  | none => .next s
  | some c =>
    if c.parked ∨ c.hasLanded j then .next s
    else if c.touches j ∧ s.copyWaits c then .next (s.at_ (s.now + 1) (.sectorLanding id j))
    else
      match s.copyPages c (c.pages j) with
      | (s1, .error (va, m)) => .next (s1.copyFault id (c.lowByte j va) c m)
      | (s1, .ok pages) =>
        if pages.any fun p => s1.mapWaits p.2 then .next (s.at_ (s.now + 1) (.sectorLanding id j))
        else if (pages.any fun p => s1.refuses p.2) ∨ (s1.copyPeer pages).isSome = true then
          ((s1.copyPeer pages).map fun x => s1.logPeer x.1 x.2).getD s1 |>.reportCopy id c 0x11 0 0
            (c.lowByte j (4096 * ((pages.map (·.1)).headD 0)))
        else .next ((((s1.moveUnit c pages j).landUnit id j).bump).requestUnits id 65)

/-! ### Ordered reductions -/

/-- Land the units whose contributions have all been applied or discarded (R262). -/
def State.landReady (s : State) (id : Nat) : Nat → State
  | 0 => s
  | n + 1 =>
    match s.copies.find? id with
    | none => s
    | some c =>
      match (List.range (min 64 (c.units - c.landed))).find? fun k =>
        !c.tail.getLsbD k && (c.secsOf (c.landed + k)).all fun x => c.doneSecs.contains x with
      | none => s
      | some k => (s.landUnit id (c.landed + k)).landReady id n

/-- A contribution is applied or discarded (R262). -/
def State.contributed (s : State) (id sec : Nat) : State :=
  let s1 := s.modCopy id fun c => { c with doneSecs := sec :: c.doneSecs }
  (s1.landReady id (match s.copies.find? id with
    | some c => c.units
    | none => 0)).requestUnits id 65

/-- The elements of a copy's tile that fall in a destination sector: bit offsets and codes (R262). -/
def State.contribution (s : State) (c : Copy) (sec : Nat) : List (Nat × Nat) :=
  match s.ensembles.find? c.ens with
  | none => []
  | some e =>
    (List.range (recElems c.record)).filterMap fun k => match c.addr k with
      | some a => if a / 256 = sec then some (a % 256, e.tileElem (recDest c.record) c.f.width k) else none
      | none => none

/-- Apply the buffered contribution that holds the next index, while there is one (R262). -/
def State.drainEpisode (s : State) (pa32 : Nat) : Nat → State
  | 0 => s
  | n + 1 =>
    match s.episodes.find? pa32 with
    | none => s
    | some x =>
      match x.waiting.find? fun b => b.idx = x.next with
      | none => s
      | some b =>
        let y : Episode := { x with next := x.next + 1, waiting := x.waiting.filter fun z => z.idx ≠ b.idx }
        match s.copies.find? b.copy with
        | none => ({ s with episodes := if x.ncon < y.next then s.episodes.del pa32 else s.episodes.put pa32 y } : State).drainEpisode pa32 n
        | some c =>
          let s1 := (s.reduceApply (s.copyCore c) c (bitOf c.record.toNat 509 && x.next = 0) pa32 b.elems)
          let s2 : State := { s1 with episodes := if x.ncon < y.next then s1.episodes.del pa32 else s1.episodes.put pa32 y }
          (s2.contributed b.copy b.sec).drainEpisode pa32 n

/-- The home slice frees an episode entry or a staging place: it signals refused contributions, in the order of their refusals
(R262). -/
def State.signalRefused (s : State) : State :=
  let s1 : State := { s with refused := [] }
  s.refused.foldl (fun s r => s.bump.at_ (s.now + 1 + Config.pathCycles s.tick) (.reduceRetry r.1 r.2)) s1

/-- Ordered episodes that a home slice tracks, and contributions that it buffers (R262). -/
def State.staging (s : State) (slice : Nat × Nat) : Nat × Nat :=
  let mine := s.episodes.filter fun e => s.sliceOf (32 * e.1) = slice
  (mine.length, (mine.map fun e => e.2.waiting.length).sum)

/-- A contribution reaches its home slice (R262). -/
def State.contribute (s : State) (id sec pa32 : Nat) (c : Copy) : State :=
  let k := rf c.record 476 469
  let ncon := rf c.record 468 461
  let st := s.staging (s.sliceOf (32 * pa32))
  let elems := s.contribution c sec
  let refuse (s : State) : State := { s with refused := s.refused ++ [(id, sec)] }
  match s.episodes.find? pa32 with
  | none =>
    if 1024 ≤ st.1 then refuse s
    else if k = 0 then
      let s1 := s.reduceApply (s.copyCore c) c (bitOf c.record.toNat 509) pa32 elems
      let s2 : State := if ncon = 0 then s1 else { s1 with episodes := s1.episodes.put pa32 ⟨ncon, 1, []⟩ }
      (s2.contributed id sec).signalRefused
    else if 2048 ≤ st.2 then refuse s
    else { s with episodes := s.episodes.put pa32 ⟨ncon, 0, [⟨k, id, sec, elems⟩]⟩ }
  | some x =>
    if x.ncon ≠ ncon ∨ k < x.next then (s.copyErr c).contributed id sec
    else if k = x.next then
      let s1 := s.reduceApply (s.copyCore c) c (bitOf c.record.toNat 509 && k = 0) pa32 elems
      let y : Episode := { x with next := x.next + 1 }
      let s2 : State := { s1 with episodes := if ncon < y.next then s1.episodes.del pa32 else s1.episodes.put pa32 y }
      ((s2.contributed id sec).drainEpisode pa32 256).signalRefused
    else if 2048 ≤ st.2 then refuse s
    else { s with episodes := s.episodes.put pa32 { x with waiting := x.waiting ++ [⟨k, id, sec, elems⟩] } }

/-- REDUCE_CONTRIBUTION (R262): a contribution arrives, and the stagehand goes on with the others. -/
def execReduceContribution (id sec : Nat) (s : State) : Out :=
  match s.copies.find? id with
  | none => .next s
  | some c =>
    if c.parked then .next (s.modCopy id fun c => { c with todo := sec :: c.todo })
    else if s.copyWaits c then .next (s.at_ (s.now + 1) (.reduceContribution id sec))
    else
      match s.copyPages c [sec / 128] with
      | (s1, .error (_, m)) => .next ((s1.modCopy id fun c => { c with todo := sec :: c.todo }).copyFault id (32 * sec) c m)
      | (s1, .ok pages) =>
        if pages.any fun p => s1.mapWaits p.2 then .next (s.at_ (s.now + 1) (.reduceContribution id sec))
        else if s1.refuses (physOf pages (32 * sec)) = true ∨ (s1.copyPeer pages).isSome = true then
          s1.reportCopy id c 0x11 0 0 (32 * sec)
        else .next (s1.contribute id sec (physOf pages (32 * sec) / 32) c)

/-- REDUCE_RETRY (R262): a refused contribution is sent again in the cycle after the signal, and takes the path time. -/
def execReduceRetry (id sec : Nat) (s : State) : Out :=
  match s.copies.find? id with
  | none => .next s
  | some c =>
    let r := s.sectorTime c sec
    .next (r.1.at_ (s.now + 1 + r.2) (.reduceContribution id sec))

/-! ### Starting -/

/-- The ranges that a copy registers when it starts (R251, R234). -/
def State.copyLocks (s : State) (id : Nat) (c : Copy) : List RangeLock :=
  let stage (lo hi : Nat) (writes : Bool) : RangeLock :=
    { stage := true, ctx := s.copyCtx c, ens := c.ens, lo := lo, hi := hi, writes := writes, owner := id }
  match c.kind with
  | .window _ =>
    (match c.interval with
     | some (lo, hi) => [{ stage := false, ctx := s.copyCtx c, ens := c.ens, lo := lo, hi := hi, writes := recDir c.record ≠ 0, owner := id }]
     | none => [])
    ++ (if recDir c.record = 0 then [] else [stage (recDest c.record) (recDest c.record + c.bytes - 1) false])
  | .sgath rows dst row => [stage dst (dst + rows.length * row - 1) true]
  | .sfill dst len _ => [stage dst (dst + len - 1) true]
  | .opld _ _ _ src len => [stage src (src + len - 1) false]

/-- A guard slot's state (R372). -/
def guardOf (t : Troupe) (q : Nat) : Nat := bvField t.qstat (2 * q + 1) (2 * q)

/-- The members of a multicast that receive it (R250): those whose window of the number matches. -/
def State.multicast (s : State) (c : Copy) (w : Nat) : List Nat :=
  match s.ensembles.find? c.ens with
  | none => [c.ens]
  | some e =>
    if recMcast c.record = 0 then [c.ens]
    else
      c.ens :: ((List.range 4).filterMap fun m =>
        match e.group[m]? with
        | none => none
        | some k =>
          match s.ensembles.find? k with
          | none => none
          | some x =>
            let r := (x.win w).record
            if k ≠ c.ens ∧ bitOf (recMcast c.record) m ∧ (x.win w).state = 1 ∧ recDir r = recDir c.record
              ∧ recSlide r = recSlide c.record ∧ recMcast r = recMcast c.record ∧ recDest r = recDest c.record
              ∧ recBar r = recBar c.record ∧ recSlotEn r = recSlotEn c.record ∧ recSlot r = recSlot c.record then some k else none)

/-- A copy's ranges are registered, or there are none. -/
def State.copyLocked (s : State) (id : Nat) (c : Copy) : Bool :=
  s.copyLocks id c = [] || (s.core (s.copyCore c)).locks.any fun e => e.2.owner = id

/-- Register a copy's ranges if the table has room for them (R251). -/
def State.registerCopy (s : State) (id : Nat) (c : Copy) : State :=
  let core := s.copyCore c
  if s.copyLocked id c ∨ !(s.core core).lockRoom (s.copyLocks id c).length then s
  else s.modCore core fun x => x.lock (s.copyLocks id c)

/-- The copy's windows begin to fill or drain (R245, R250). -/
def State.markCopy (s : State) (id : Nat) (c : Copy) : State :=
  match c.kind with
  | .window w =>
    let ms := s.multicast c w
    ms.foldl (fun (s : State) m => s.modEns m fun e => e.modWin w fun x =>
      { x with held := false, state := if recDir c.record = 0 then 2 else 5, landed := 0, tail := 0,
               err := x.err || (recSlotEn c.record && (e.slot (recSlot c.record).1 (recSlot c.record).2).isNone) })
      (s.modCopy id fun c => { c with members := ms })
  | .sgath _ _ _ => s
  | .sfill _ _ _ => s
  | .opld _ _ _ _ _ => s

/-- HELD of a copy's window (R244): its command waits in the queue. -/
def State.holdCopy (s : State) (c : Copy) (b : Bool) : State :=
  match c.kind with
  | .window w => s.modEns c.ens fun e => e.modWin w fun x => { x with held := b }
  | .sgath _ _ _ => s
  | .sfill _ _ _ => s
  | .opld _ _ _ _ _ => s

/-- A copy enters its troupe's stagehand queue (R246, R258): its windows change state and its ranges are registered, or a guard
holds it (R259). The stagehand looks at the queue 4 cycles later (R248). -/
def State.enqueue (s : State) (c : Copy) : State :=
  let id := s.tick
  let s1 : State := { s with copies := s.copies.put id { c with issued := s.now } }
  let s2 := (s1.modTroupe c.tid fun t => { t with queue := t.queue ++ [id] }).bump
  let s3 := match c.guard with
    | none => ((s2.markCopy id c).holdCopy c true).registerCopy id c
    | some _ =>
      match c.kind with
      | .window w => s2.modEns c.ens fun e => e.modWin w fun x =>
          { x with held := true, state := if recDir c.record = 0 then 2 else 5 }
      | .sgath _ _ _ => s2
      | .sfill _ _ _ => s2
      | .opld _ _ _ _ _ => s2
  s3.at_ (s.now + 4) (.copyStart c.tid)

/-- The copy starts moving (R248, R251). -/
def State.beginCopy (s : State) (id : Nat) (c : Copy) : State :=
  let s0 := if c.guard.isSome then s.markCopy id c else s.holdCopy c false
  let s2 := (s0.modCopy id fun c => { c with started := some s.now }).registerCopy id c
  match c.kind with
  | .window _ => s2.requestUnits id 65
  | .sgath _ _ _ => s2.requestUnits id 65
  | .sfill _ len _ => s2.at_ (s.now + 4 + len / 128) (.sfillComplete id)
  | .opld _ _ _ _ len => s2.at_ (s.now + 4 + len / c.rate) (.opldComplete id)

/-- A guarded touch whose guard resolves false is discarded (R259). -/
def State.discardCopy (s : State) (id : Nat) (c : Copy) : State :=
  (match c.kind with
   | .window w => s.modEns c.ens fun e => e.modWin w fun x => { x with held := false, state := c.back }
   | _ => s).dropCopy id

/-- What the head of a queue may do now. -/
inductive HeadStep where
  | go
  | discard
  | wait
deriving DecidableEq, Repr

/-- A slot that a copy is to fill is still read by a matrix instruction or written by an earlier copy, in some ensemble that receives it
(R228, R250). -/
def State.slotBusy (s : State) (id : Nat) (c : Copy) : Bool :=
  let takers := match c.kind with
    | .window w => s.multicast c w
    | .sgath _ _ _ => [c.ens]
    | .sfill _ _ _ => [c.ens]
    | .opld _ _ _ _ _ => [c.ens]
  match c.slot with
  | none => false
  | some (b, k) => takers.any fun m => (match s.ensembles.find? m with
    | some e => s.slotReading e.core m b k
    | none => false) || s.slotWriting m b k id

/-- The head of a queue (R228, R248, R251, R259). -/
def State.headStep (s : State) (t : Troupe) (id : Nat) (c : Copy) : HeadStep :=
  let g := match c.guard with
    | some q => guardOf t q
    | none => 1
  if g = 2 then .discard
  else if g ≠ 1 then .wait
  else
    if s.slotBusy id c ∨ s.now < c.issued + 4 ∨ !(s.copyLocked id c || (s.core (s.copyCore c)).lockRoom (s.copyLocks id c).length) then
      .wait
    else .go

/-- A place of a troupe's queue is free: the cue touches that found it full look again at once (R375). -/
def State.freePlace (s : State) (tid : Nat) : State :=
  match (s.troupes.find? tid).bind fun t => s.ensembles.find? t.ens with
  | none => s
  | some e =>
    ((s.core e.core).acts.filter fun a => a.tid = tid && (a.fires.any fun f => f ≤ s.now) && (match a.kind with
      | .touch _ _ => true
      | _ => false)).foldl (fun s a => s.at_ s.now (.cueTouchFire e.core a.id)) s

/-- Start commands from the head of a queue while they may start (R258). -/
def State.runQueue (s : State) (tid : Nat) : Nat → State
  | 0 => s
  | n + 1 =>
    match s.troupes.find? tid with
    | none => s
    | some t =>
      match t.queue with
      | [] => s
      | id :: rest =>
        let s1 := (s.modTroupe tid fun t => { t with queue := rest }).freePlace tid
        match s.copies.find? id with
        | none => s1.runQueue tid n
        | some c =>
          match s.headStep t id c with
          | .wait =>
            if s.now < c.issued + 4 then s.at_ (c.issued + 4) (.copyStart tid)
            else if recMcast c.record ≠ 0 ∧ s.slotBusy id c then s.at_ (s.now + 1) (.copyStart tid)
            else s
          | .discard => (s1.discardCopy id c).runQueue tid n
          | .go => (s1.beginCopy id c).runQueue tid n

/-- COPY_START (R248, R258): the stagehand looks at the head of a troupe's queue. -/
def execCopyStart (tid : Nat) (s : State) : Out := .next (s.runQueue tid 8)

/-- SFILL_COMPLETE (R267): the pattern stands in every word of the range. -/
def execSfillComplete (id : Nat) (s : State) : Out :=
  match s.copies.find? id with
  | none => .next s
  | some c =>
    match c.parked, c.kind with
    | true, _ => .next s
    | false, .sfill dst len p =>
      .next ((s.modEns c.ens fun e => e.stageWrite dst ((List.replicate (len / 4) (natLE 4 p.toNat)).flatten)).finishCopy id)
    | false, .window _ => .next s
    | false, .sgath _ _ _ => .next s
    | false, .opld _ _ _ _ _ => .next s

/-- OPLD_COMPLETE (R234): every byte has landed in the slot. -/
def execOpldComplete (id : Nat) (s : State) : Out :=
  match s.copies.find? id with
  | none => .next s
  | some c =>
    match c.parked, c.kind with
    | true, _ => .next s
    | false, .opld b k off src len =>
      .next ((s.modEns c.ens fun e => match e.slot b k with
        | some x => e.setSlot b k { x with data := x.data.setMany off (e.stageRead src len) }
        | none => e).finishCopy id)
    | false, .window _ => .next s
    | false, .sgath _ _ _ => .next s
    | false, .sfill _ _ _ => .next s

end Sys2Proof.Machine
end

