-- ==== Sys2Proof/Machine/Spawn.lean ====
section
/-! DEFINITION. spawn, join, park and trig: productions and the spawn buffers (R343, R346, R348, R353 to R360). -/

namespace Sys2Proof.Machine

open Sys2Proof

/-- The context of a production, through its launch. -/
def State.prodCtx (s : State) (p : Prod) : Nat := ((s.launches.find? p.launch).map (·.ctx)).getD 0

/-- The number of ensembles of a production: E of R345. -/
def Prod.count (p : Prod) : Nat := p.gx * p.gy * p.gz

/-- Entries of a die's spawn buffer that are in use (R354). -/
def State.bufferUse (s : State) (d : Nat) : Nat :=
  (s.prods.filter fun p => p.2.place = .buffer d || p.2.place = .admission d).length

/-- The productions in a context's green room, oldest first (R354). -/
def State.greenOf (s : State) (c : Nat) : List (Nat × Prod) :=
  s.prods.filter fun p => p.2.place = .green && s.prodCtx p.2 = c

/-- The descriptor of a production, as R357 lays it out, with the spawning ensemble in its reserved bytes (R355). -/
def Prod.bytes (p : Prod) : List Byte :=
  natLE 4 p.entry.toNat
  ++ [BitVec.ofNat 8 p.troupes, BitVec.ofNat 8 (p.regs / 8), BitVec.ofNat 8 p.scalars,
      BitVec.ofNat 8 (p.acq + 8 * p.rel + 64 * p.coop.toNat + 128 * p.producer.toNat)]
  ++ natLE 2 (p.stage / 256) ++ zeros 2 ++ natLE 4 p.energy ++ natLE 4 (p.gx - 1) ++ natLE 2 (p.gy - 1) ++ natLE 2 (p.gz - 1)
  ++ natLE 8 p.args.toNat
  ++ (match p.from_ with
      | some (e, g) => natLE 8 e ++ natLE 8 g ++ zeros 16
      | none => zeros 32)

/-- Write a context's green room and its USED field (R355). -/
def State.writeGreen (s : State) (c : Nat) : State :=
  let ps := s.greenOf c
  let base := (s.ctx c).grbase.toNat
  let s1 := s.homeWrite base (ps.flatMap fun p => p.2.bytes)
  s1.modCtx c fun x =>
    { x with grquota := BitVec.ofNat 32 (bvField x.grquota 15 0 + 65536 * ps.length) }

/-- Energy admission (R348): whether an estimate is admitted now, and the partition's budget after it. -/
def State.admission (s : State) (part e : Nat) : Option State :=
  let x := s.part part
  if e = 0 ∨ x.budget = 0 then some s
  else if e ≤ x.left ∨ x.charged = false then some (s.modPart part fun x => { x with left := x.left - e, charged := true })
  else none

/-- A production enters its die's spawn buffer, admitted or waiting for admission (R348, R354); one that was admitted once, before a cut
that it comes back from, is charged no second time (R362). -/
def State.toBuffer (s : State) (n : Nat) (d part : Nat) : State :=
  match (if (s.prod n).admitted then some s else s.admission part (s.prod n).energy) with
  | some s1 => (s1.modProd n fun p => { p with place := .buffer d, admitted := true }).at_ s.now (.ensemblePlacement part)
  | none => s.modProd n fun p => { p with place := .admission d }

/-- A spawn descriptor's fields (R357), as a production of a launch. -/
def prodOfBytes (b : List Byte) (launch depth ens group parent die : Nat) : Prod :=
  let f (o n : Nat) : Nat := leNat ((b.drop o).take n)
  let fl := f 7 1
  { launch := launch, index := 0, depth := depth, from_ := some (ens, group), parent := some parent, troupes := f 4 1, regs := 8 * f 5 1,
    scalars := f 6 1, stage := 256 * f 8 2, acq := fl % 8, rel := fl / 8 % 8, coop := bitOf fl 6, producer := bitOf fl 7,
    entry := BitVec.ofNat 32 (f 0 4), args := BitVec.ofNat 64 (f 0x18 8), gx := f 0x10 4 + 1, gy := f 0x14 2 + 1,
    gz := f 0x16 2 + 1, energy := f 0x0C 4, place := .green, next := 0, ended := 0, trigs := 0, children := 0, origin := die,
    retiring := false, admitted := false }

/-- A descriptor that breaks no limit of R357. -/
def descOk (b : List Byte) (p : Prod) (hasProducer : Bool) : Bool :=
  let f (o n : Nat) : Nat := leNat ((b.drop o).take n)
  f 0x0A 2 = 0 && f 0x20 32 = 0 && field (f 0 4) 31 28 = 0 && field (f 0 4) 1 0 = 0
  && 1 ≤ p.troupes && p.troupes ≤ 16 && 8 ≤ p.regs && p.regs ≤ 256 && p.scalars ≤ 64 && p.acq ≤ 5 && p.rel ≤ 5
  && p.stage ≤ 524288 && p.args.toNat % 64 = 0 && p.count ≤ 2 ^ 32 && !(p.coop && p.count % 4 != 0)
  && !(p.producer && hasProducer) && p.troupes * (p.regs / 8) ≤ 512

/-- The status of a spawn, and what it enqueues (R357). -/
def State.spawnNow (s : State) (ens pa group : Nat) : State × Nat :=
  match s.ensembles.find? ens with
  | none => (s, 3)
  | some e =>
    let par := s.prod e.prod
    match s.launches.find? par.launch with
    | none => (s, 3)
    | some l =>
      let b := s.peek pa 64
      let die := dieOf e.core
      let p := prodOfBytes b par.launch (par.depth + 1) ens group e.prod die
      let c := s.ctx l.ctx
      let green := 256 ≤ s.bufferUse die || s.greenOf l.ctx ≠ []
      if descOk b p l.hasProducer = false then (s, 3)
      else if e.groups.get group = 65535 then (s, 2)
      else if green ∧ bvField c.grquota 15 0 ≤ bvField c.grquota 31 16 then (s, 2)
      else
        let n := s.tick
        let s1 : State := ({ s with prods := s.prods.put n { p with index := l.spawns + 1 } } : State).bump
        let s2 := ((s1.modProd e.prod fun q => { q with children := q.children + 1 }).modLaunch par.launch fun q =>
          { q with counter := q.counter + 1, spawns := q.spawns + 1, hasProducer := q.hasProducer || p.producer }).modEns ens fun x =>
            { x with groups := x.groups.set group (x.groups.get group + 1) }
        if green then (s2.writeGreen l.ctx, 1) else (s2.toBuffer n die c.part, 0)

/-- The descriptor has been read: the child is enqueued, and the status is written 16 cycles after the read returns (R356,
R357). -/
def State.spawnEnd (s : State) (tid pa group pend : Nat) : State :=
  match s.troupes.find? tid with
  | none => s
  | some t =>
    let r := s.spawnNow t.ens pa group
    let s1 := r.1.modTroupe tid fun t => t.fillPend pend (BitVec.ofNat 32 r.2)
    let q := readMax (s1.coreOf tid) [pa, pa + 32] s1
    q.1.bump.at_ (q.1.now + q.2 + 16) (.scoreboardResultWrite tid pend)

/-- spawn (R357). -/
def opSpawn (n : Ins) : Work → Eff :=
  ifActive fun w0 =>
    let i := lowLane w0.act
    let va := w0.pairAddr n i
    let depth := (w0.s.prod w0.E.prod).depth
    let scope := Scope.num n.scope
    if w0.memHeld then .hold
    else if va % 64 ≠ 0 then .trap { cause := 0x07, info := i, addr := va }
    else if 10 ≤ depth then .trap { cause := 0x0E, info := depth }
    else
      w0.single .load (fun _ => true) 64 [va] fun w ms =>
        let pa := (ms.map (·.pa)).headD 0
        if w.mayRelease scope = false then .hold
        else
          let id := w.s.tick
          let w1 := w.holdFor (w.pendOf false 0 0#32 (w.outsOf n 1 w.act fun _ _ => 0#32))
          if actsOn true false scope then .raw (w1.actThen n true false scope none (.spawn pa (n.mod % 8) id))
          else .raw ((w1.finish n).spawnEnd w.tid pa (n.mod % 8) id)

/-- Every group counter that a mask names is 0 (R358). -/
def Ensemble.joined (e : Ensemble) (mask : Nat) : Bool := (List.range 8).all fun k => !bitOf mask k || e.groups.get k = 0

/-- join, and park (R358). -/
def joinBody (park : Bool) (n : Ins) : Work → Eff :=
  ifActive fun w =>
    let scope := Scope.num n.scope
    if !w.E.joined n.mod then .raw (w.suspend n (.join n.mod scope park))
    else if actsOn false true scope then .raw (w.actThen n false true scope none .nothing)
    else .done w

/-- join (R358). -/
def opJoin : Ins → Work → Eff := joinBody false

/-- park (R358). -/
def opPark : Ins → Work → Eff := joinBody true

/-- The launches that wait for a dependence, an admission or a counter look again (R342, R348). -/
def State.retryLaunches (s : State) : State :=
  (s.launches.filter fun l => !l.2.started).foldl (fun s l => s.at_ s.now (.launchStart l.1)) s

/-- An ensemble of a production has triggered (R346): the launch triggers with the last one of its producer. -/
def State.trigger (s : State) (n : Nat) : State :=
  let p := s.prod n
  let s1 := s.modProd n fun p => { p with trigs := p.trigs + 1 }
  if p.trigs + 1 = p.count then (s1.modLaunch p.launch fun l => { l with triggered := true }).retryLaunches else s1

/-- trig (R360): a release at module scope writes nothing back (R320). -/
def opTrig (_ : Ins) : Work → Eff :=
  ifActive fun w =>
    if w.mayRelease 4 = false then .hold
    else if (w.s.prod w.E.prod).producer ∧ !w.E.triggered then
      .done { w with E := { w.E with triggered := true }, s := w.s.trigger w.E.prod }
    else .done w

/-- SPAWN (R357), extended form. -/
def execSpawn (f : X) (s : State) : Out := runX 0xb0 f opSpawn s

/-- JOIN (R358), extended form. -/
def execJoin (f : X) (s : State) : Out := runX 0xb1 f opJoin s

/-- TRIG (R360), extended form. -/
def execTrig (f : X) (s : State) : Out := runX 0xb2 f opTrig s

/-- PARK (R358), extended form. -/
def execPark (f : X) (s : State) : Out := runX 0xb3 f opPark s

/-- QSIG (R361), extended form. -/
def execQsig (f : X) (s : State) : Out := runX 0xb4 f opQsig s

end Sys2Proof.Machine
end

