-- ==== Sys2Proof/Machine/Stage.lean ====
section
/-! DEFINITION. Stage accesses, window bindings, the instructions that start copies, batches, and transaction barriers (R263 to
R276), and the end of a cache action (R380). -/

namespace Sys2Proof.Machine

open Sys2Proof

/-! ### Starting copies -/

/-- A copy of a troupe, not yet in its queue: it belongs to the open batch (R257). -/
def newCopy (tid : Nat) (t : Troupe) (pc : Word) (kind : CopyKind) (units : Nat) (bar : Option Nat) : Copy :=
  { ens := t.ens, tid := tid, batch := t.batch + 1, kind := kind, fmt := 0, record := 0, goff := 0, guard := none,
    members := [t.ens], pc := pc, units := units, bar := bar, started := none, landed := 0, tail := 0, back := 0,
    parked := false, todo := [], doneSecs := [], issued := 0, waits := t.unacked, sent := 0, shift := 0 }

/-- A copy of the issuing troupe. -/
def Work.copy (w : Work) (kind : CopyKind) (units : Nat) (bar : Option Nat) : Copy := newCopy w.tid w.T w.S.pc kind units bar

/-- The entry that a copy command of a troupe of an ensemble finds (R158, R160). -/
def State.ensEntry (s : State) (tid : Nat) (e : Ensemble) (n : Nat) : DWord := s.lookFor e.core e.ctx tid n

/-- The copy of a window under the entry it names now (R158, R246). -/
def State.windowCopy (s : State) (tid : Nat) (t : Troupe) (e : Ensemble) (pc : Word) (k : Nat) (g : Int) (guard : Option Nat) :
    Copy :=
  let x := e.win k
  let c : Copy :=
    { newCopy tid t pc (.window k) 0 (some (recBar x.record)) with
      fmt := s.ensEntry tid e (recFmt x.record), record := x.record, goff := g, guard := guard, back := x.state }
  let c1 : Copy := { c with units := ceilDiv c.bytes 32 }
  if recDir c1.record = 2 ∧ bitOf c1.record.toNat 460 then
    { c1 with todo := distinct ((List.range c1.units).flatMap c1.secsOf) }
  else c1

/-- The entry of a window's copy is one that R246 and R260 allow. -/
def State.copyEntry (s : State) (tid : Nat) (e : Ensemble) (r : BitVec 512) : Bool :=
  let f := fmtOf (s.ensEntry tid e (recFmt r))
  fmtValid (s.ensEntry tid e) (recFmt r) && f.plain && 1 ≤ f.kind && f.kind ≤ 3
  && (f.width = 4 || f.width = 8 || f.width = 16 || f.width = 32)
  && (recDir r ≠ 2 || reduceOk (s.ensEntry tid e (recFmt r)) (rf r 459 457))

/-- The lowest member that a MCAST field names. -/
def leaderOf (mcast : Nat) : Nat := ((List.range 4).find? (bitOf mcast)).getD 0

/-- The ensemble's starting instruction starts the copy of a window: not for a multicast that it does not lead (R250). -/
def Ensemble.leads (e : Ensemble) (r : BitVec 512) : Bool := recMcast r = 0 || leaderOf (recMcast r) = e.member

/-- What a touch of a bound window comes to. -/
inductive TouchStep where
  | nothing
  | trap (t : TrapInfo)
  | full
  | start (c : Copy)

/-- A touch of a bound window (R271, R246, R251, R258). -/
def State.touch (s : State) (tid : Nat) (t : Troupe) (e : Ensemble) (pc : Word) (k : Nat) (g : Int) (guard : Option Nat) :
    TouchStep :=
  let x := e.win k
  let r := x.record
  let slot := recSlot r
  let bytes := recElems r * (fmtOf (s.ensEntry tid e (recFmt r))).width / 8
  let lo := recDest r
  if (x.state ≠ 1 ∧ x.state ≠ 4) ∨ !e.leads r then .nothing
  else if !s.copyEntry tid e r then .trap { cause := 0x06, info := recFmt r }
  else if !recSlotEn r ∧ e.size < lo + bytes then .trap (stageOut lo)
  else
    match (if recSlotEn r ∨ bytes = 0 then none else s.conflict t.ens e (recDir r = 0) lo (lo + bytes - 1)) with
    | some t => .trap t
    | none =>
      if recSlotEn r ∧ (e.slot slot.1 slot.2).isNone then .trap { cause := 0x10, info := slot.2 + 8 * slot.1.toNat }
      else if 8 ≤ t.queue.length then .full
      else .start (s.windowCopy tid t e pc k g guard)

/-- The troupe's stagehand queue is full (R258). -/
def Work.queueFull (w : Work) : Bool := 8 ≤ w.T.queue.length

/-- The copy goes to the stagehand queue. -/
def Work.enqueue (w : Work) (c : Copy) : Work := w.via fun s => s.enqueue c

/-! ### sld and sst -/

/-- The fill windows, absent or filling, whose ranges some lane's bytes touch (R265). -/
def Work.fillsHit (w : Work) (lanes : List Nat) (addr : Nat → Nat) (n : Nat) : List Nat :=
  (List.range 32).filter fun k =>
    let x := w.E.win k
    (x.state = 1 || x.state = 2) && recDir x.record = 0 && (match x.range with
      | some (lo, hi) => lanes.any fun i => meets lo hi (addr i) (addr i + n - 1)
      | none => false)

/-- Start the copies of absent windows in ascending order: whether all of them started (R246, R258). -/
def Work.startFills (w : Work) : List Nat → Work × Bool
  | [] => (w, true)
  | k :: t =>
    if (w.E.win k).state ≠ 1 ∨ !w.E.leads (w.E.win k).record then w.startFills t
    else if w.queueFull then (w, false)
    else (w.enqueue (w.s.windowCopy w.tid w.T w.E w.S.pc k 0 none)).startFills t

/-- The checks of a stage access (R265), then its effect. A draining window's range traps before the copy has registered it too (R245): the
entry of INFO is then a free value (log entry 89). -/
def Work.stage (w0 : Work) (n : Ins) (size : Nat) (body : Work → (Nat → Nat) → Eff) : Eff :=
  let addr := w0.stageAddr n n.sa
  let lanes := lanesOf w0.act
  if w0.memHeld then .hold
  else
    match lanes.find? fun i => addr i % size ≠ 0 with
    | some i => .trap { cause := 0x07, info := i, addr := addr i }
    | none =>
      match lanes.find? fun i => w0.E.size < addr i + size with
      | some i => .trap (stageOut (addr i))
      | none =>
        let hit := w0.fillsHit lanes addr size
        let absent := hit.filter fun k => (w0.E.win k).state = 1 && w0.E.leads (w0.E.win k).record
        match absent.find? fun k => !w0.s.copyEntry w0.tid w0.E (w0.E.win k).record with
        | some k => .trap { cause := 0x06, info := recFmt (w0.E.win k).record }
        | none =>
          match w0.startFills absent with
          | (w, false) => .raw w.hold
          | (w, true) =>
            let lockOf (i : Nat) : Option Nat := (w.s.core w.E.core).stageLock w.T.ens (addr i) (addr i + size - 1) false
            match lanes.find? fun i => (lockOf i).isSome with
            | some i => .trapAfter w { cause := 0x0A, info := (lockOf i).getD 0, addr := addr i }
            | none =>
              match lanes.find? fun i => (w.E.winAt [5] (addr i) (addr i + size - 1)).isSome with
              | some i => .trapAfter w { cause := 0x0A, info := Config.unstated w.s.tick % 64, addr := addr i }
              | none =>
              match hit with
              | k :: _ =>
                let i := (lanes.find? fun i => w0.fillsHit [i] addr size |>.contains k).getD 0
                .trapAfter w { cause := 0x0B, info := k, addr := addr i }
              | [] => body w addr

/-- sld (R265). -/
def opSld (n : Ins) : Work → Eff :=
  ifActive fun w0 => w0.stage n (sizeOf n.mod) fun w addr =>
    .done (w.later 24 0#32 n (wordsOf n.mod) fun k i => loadWord n.mod k (leNat (w.E.stageRead (addr i) (sizeOf n.mod))))

/-- The barriers whose bytes an access of some lanes touches. -/
def Ensemble.barsHit (e : Ensemble) (lanes : List Nat) (addr : Nat → Nat) (n : Nat) : List Nat :=
  e.bars.filter fun b => lanes.any fun i => meets b (b + 15) (addr i) (addr i + n - 1)

/-- The phase check of R255 completes a phase of the barrier at an address. -/
def Ensemble.completes (e : Ensemble) (b : Nat) : Bool := (barStep (e.bar b) 0 0).2

/-- Barriers check their phase, once each (R255). -/
def State.checkBars (s : State) (ens : Nat) (bars : List Nat) : State := bars.foldl (fun s b => s.barApply ens b 0 0) s

/-- sst: the highest lane's bytes stand (R240); then every barrier it wrote to checks its phase, once; a phase that completes is a release
at its scope, with the hold and the actions of tbarr's (R255, R275; log entry 91). -/
def opSst (n : Ins) : Work → Eff :=
  ifActive fun w0 => w0.stage n (sizeOf n.mod) fun w addr =>
    let size := sizeOf n.mod
    let lanes := lanesOf w.act
    let e := lanes.foldl (fun (e : Ensemble) i => e.stageWrite (addr i) (natLE size (w.dataOf n n.sb size i))) w.E
    let hit := e.barsHit lanes addr size
    let done := hit.filter e.completes
    if done.any fun b => !w.mayRelease (e.barScope b) then .hold
    else if done.any fun b => actsOn true false (e.barScope b) then
      let x := ({ w with E := e } : Work).physical (((done.filter fun b => actsOn true false (e.barScope b)).flatMap (e.regions true)).flatMap
        fun r => pageParts r.1 r.2)
      .raw (x.1.actThen n true false 5 (some x.2) (.phases hit))
    else .done (({ w with E := e } : Work).via fun s => s.checkBars w.T.ens hit)

/-! ### sgath and sfill -/

/-- sgath (R266). -/
def opSgath (n : Ins) : Work → Eff :=
  ifActive fun w =>
    let lanes := lanesOf w.act
    let low := lowLane w.act
    let row := 32 * 2 ^ (n.mod % 8)
    let dst := (w.src true n n.sb 0 low).toNat
    let bar := if bitOf n.mod 3 then some (w.src true n n.sc 0 low).toNat else none
    let barBad : Bool := match bar with
      | some b => b % 16 ≠ 0
      | none => false
    if w.memHeld then .hold
    else if dst % 32 ≠ 0 then .trap { cause := 0x07, info := low, addr := dst }
    else
      match lanes.find? fun i => w.pairAddr n i % 32 ≠ 0 with
      | some i => .trap { cause := 0x07, info := i, addr := w.pairAddr n i }
      | none =>
        if barBad then .trap { cause := 0x07, info := low, addr := bar.getD 0 }
        else if w.E.size < dst + lanes.length * row then .trap (stageOut dst)
        else if w.E.size < bar.getD 0 + 16 ∧ bar.isSome then .trap (stageOut (bar.getD 0))
        else
          match w.conflict true dst (dst + lanes.length * row - 1) with
          | some t => .trap t
          | none =>
            if w.queueFull then .hold
            else .done (w.enqueue (w.copy (.sgath (lanes.map (w.pairAddr n)) dst row) lanes.length bar))

/-- sfill (R267). -/
def opSfill (n : Ins) : Work → Eff :=
  ifActive fun w =>
    let low := lowLane w.act
    let dst := w.stageAddr n n.sa low
    let len := (w.src true n n.sb 0 low).toNat
    if w.memHeld then .hold
    else if len % 32 ≠ 0 ∨ len < 32 ∨ 524288 < len then .trap { cause := 0x02 }
    else if dst % 32 ≠ 0 then .trap { cause := 0x07, info := low, addr := dst }
    else if w.E.size < dst + len then .trap (stageOut dst)
    else
      match w.conflict true dst (dst + len - 1) with
      | some t => .trap t
      | none =>
        if w.queueFull then .hold
        else .done (w.enqueue (w.copy (.sfill dst len (w.src true n n.sc 0 low)) (len / 32) none))

/-! ### Binding -/

/-- A window has a copy in flight or held (R268). -/
def Window.busy (x : Window) : Bool := x.state = 2 || x.state = 5

/-- The state that a bound window enters (R245). -/
def boundState (r : BitVec 512) : BitVec 3 := if recDir r = 0 then 1 else 4

/-- wbind takes effect (R268). -/
def Ensemble.bindWin (e : Ensemble) (k width : Nat) (r : BitVec 512) : Ensemble :=
  e.modWin k fun x => { x with record := r, held := false, state := boundState r, bytes := recElems r * width / 8 }

/-- wbind (R268): the checks at issue; the binding takes effect 24 cycles later, in which the split issues nothing. -/
def opWbind (n : Ins) : Work → Eff :=
  ifActive fun w =>
    let k := n.mod % 32
    let low := lowLane w.act
    match w.S.wait with
    | .bind _ r =>
      if (w.E.win k).busy then .hold
      else .done { w with E := w.E.bindWin k (w.fmt (recFmt r)).width r, S := { w.S with wait := .none } }
    | _ =>
      let a := w.stageAddr n n.sa low
      if w.memHeld then .hold
      else if a % 64 ≠ 0 then .trap { cause := 0x07, info := low, addr := a }
      else if w.E.size < a + 64 then .trap (stageOut a)
      else if (w.E.win k).busy then .hold
      else
        let r := BitVec.ofNat 512 (leNat (w.E.stageRead a 64))
        match bindCheck w.E k (w.fmt (recFmt r)).width r with
        | some t => .trap t
        | none =>
          .raw ({ w with S := { w.S with wait := .bind (w.s.now + 24) r, earliest := w.s.now + 24 } } : Work).commit

/-- Replace field `hi:lo` of a record. -/
def recPut (r : BitVec 512) (hi lo v : Nat) : BitVec 512 :=
  BitVec.ofNat 512 (r.toNat - rf r hi lo * 2 ^ lo + v % 2 ^ (hi + 1 - lo) * 2 ^ lo)

/-- The record that a wset leaves, or the trap of its value (R269). -/
def wsetRecord (e : Ensemble) (sel v : Nat) (r : BitVec 512) : Except TrapInfo (BitVec 512) :=
  if sel < 5 then
    if v / 2 ^ 20 = 0 ∨ v / 2 ^ 20 = 0xFFF then .ok (recPut r (21 * sel + 324) (21 * sel + 304) v) else .error { cause := 0x02 }
  else if sel = 5 then
    if v / 2 ^ 60 ≠ 0 ∨ v % 16 ≠ 0 then .error { cause := 0x02 } else .ok (recPut r 59 0 v)
  else if sel = 6 then
    if rf r 468 461 < v then .error { cause := 0x02 } else .ok (recPut r 476 469 v)
  else if v % 16 ≠ 0 then .error { cause := 0x02 }
  else if e.size < v + 16 then .error (stageOut v)
  else .ok (recPut r 442 428 (v / 16))

/-- wset (R269). -/
def opWset (n : Ins) : Work → Eff :=
  ifActive fun w =>
    let k := n.mod % 32
    let sel := n.mod / 32
    let low := lowLane w.act
    let v := if sel = 5 then w.src64 true n n.sa low else (w.src true n n.sa 0 low).toNat
    let x := w.E.win k
    if x.state = 0 then .trap { cause := 0x02 }
    else
      match wsetRecord w.E sel v x.record with
      | .error t => .trap t
      | .ok r =>
        if x.busy then .hold
        else .done { w with E := w.E.modWin k fun x => { x with record := r, state := boundState r } }

/-- wrel (R270). -/
def opWrel (n : Ins) : Work → Eff :=
  ifActive fun w =>
    let k := n.mod % 32
    if (w.E.win k).busy then .hold else .done { w with E := w.E.modWin k fun x => { x with state := 0 } }

/-! ### touch and wstat -/

/-- touch (R271). -/
def opTouch (n : Ins) : Work → Eff :=
  ifActive fun w =>
    let k := n.mod % 32
    let low := lowLane w.act
    let x := w.E.win k
    let gv := (w.src true n n.sb 0 low).toNat
    let g := if bitOf n.mod 5 then (w.src true n n.sa 0 low).toInt else 0
    if w.memHeld then .hold
    else if x.state = 0 ∨ (bitOf n.mod 5 ∧ !recSlide x.record) ∨ (bitOf n.mod 6 ∧ 16 ≤ gv) then .trap { cause := 0x02 }
    else
      match w.s.touch w.tid w.T w.E w.S.pc k g (if bitOf n.mod 6 then some gv else none) with
      | .nothing => .done w
      | .trap t => .trap t
      | .full => .hold
      | .start c => .done (w.enqueue c)

/-- The word that wstat reads (R272). -/
def Window.word (x : Window) : Word :=
  BitVec.ofNat 32 (x.state.toNat + 8 * x.err.toNat + 16 * x.held.toNat
    + 65536 * min 65535 (x.landed.toNat + ((List.range 64).filter fun k => x.tail.getLsbD k).length))

/-- wstat (R272). -/
def opWstat (n : Ins) : Work → Eff :=
  ifActive fun w =>
    let k := n.mod % 32
    let v := (w.E.win k).word
    let w1 := w.later 8 0#32 n 1 fun _ _ => v
    .done (if bitOf n.mod 5 then { w1 with E := w1.E.modWin k fun x => { x with err := false } } else w1)

/-! ### Batches -/

/-- bcommit (R273). -/
def opBcommit (n : Ins) : Work → Eff :=
  ifActive fun w =>
    let w1 := w.later 4 0#32 n 1 fun _ _ => w.T.batch + 1
    .done { w1 with T := { w1.T with batch := w1.T.batch + 1 } }

/-- bwait (R273). -/
def opBwait (n : Ins) : Work → Eff :=
  ifActive fun w =>
    let v := w.src true n n.sa 0 (lowLane w.act)
    if w.s.batchDone w.tid w.T v then .done w else .raw (w.suspend n (.batch v.toNat))

/-! ### Barriers -/

/-- tbinit's 16 bytes (R274), over what reserved bits held. -/
def barInit (old arrivals reload scope : Nat) (epoch : Bool) : Nat :=
  2 ^ 4 * arrivals + 2 ^ 24 * reload + 2 ^ 56 * arrivals + 2 ^ 76 * scope + 2 ^ 79 * epoch.toNat + 2 ^ 80 * reload
    + 2 ^ 113 * field old 127 113

/-- Clear EPOCH of the marked barrier, unless it stands at an address (R256). -/
def Ensemble.unmark (e : Ensemble) (addr : Nat) : Ensemble :=
  match e.epoch with
  | none => e
  | some a => if a = addr then e else e.stageWrite a (natLE 16 (e.bar a - 2 ^ 79 * (bitOf (e.bar a) 79).toNat))

/-- tbinit (R274, R256). -/
def opTbinit (n : Ins) : Work → Eff :=
  ifActive fun w =>
    let low := lowLane w.act
    let a := w.stageAddr n n.sa low
    let arrivals := (w.src true n n.sb 0 low).toNat
    let reload := (w.src true n n.sc 0 low).toNat
    let epoch := bitOf n.mod 0
    if w.memHeld then .hold
    else if arrivals = 0 ∨ 0xFFFFF < arrivals then .trap { cause := 0x02 }
    else
      match w.barCheck a with
      | some t => .trap t
      | none =>
        let e := if epoch then w.E.unmark a else w.E
        let e1 := e.stageWrite a (natLE 16 (barInit (e.bar a) arrivals reload (Scope.num n.scope) epoch))
        .done { w with E := { e1 with
          epoch := if epoch then some a else if e1.epoch = some a then none else e1.epoch
          bars := if e1.bars.contains a then e1.bars else e1.bars ++ [a] } }

/-- tbarr (R275): the arrival is a release at the barrier's scope. -/
def opTbarr (n : Ins) : Work → Eff :=
  ifActive fun w =>
    let low := lowLane w.act
    let a := w.stageAddr n n.sa low
    let count := (w.src true n n.sb 0 low).toNat
    let bytes := if bitOf n.mod 0 then (w.src true n n.sc 0 low).toNat else 0
    if w.memHeld then .hold
    else if count = 0 ∨ 0xFFFFF < count ∨ bytes % 32 ≠ 0 then .trap { cause := 0x02 }
    else
      match w.barCheck a with
      | some t => .trap t
      | none =>
        let scope := w.E.barScope a
        if w.mayRelease scope = false then .hold
        else if actsOn true false scope then
          let x := w.regionsOf_ true a
          let id := x.1.s.tick
          let w1 := x.1.holdFor (x.1.pendOf false 0 0#32 (x.1.outsOf n 1 x.1.act fun _ _ => 0#32))
          .raw (w1.actThen n true false scope (some x.2) (.arrive a count (if bitOf n.mod 0 then some (bytes / 32) else none) id))
        else
          let ph := BitVec.ofNat 32 (w.E.bar a % 16)
          .done ((w.via fun s => s.barApply w.T.ens a count (bytes / 32 : Nat)).later 24 0#32 n 1 fun _ _ => ph)

/-- tbexp (R275). -/
def opTbexp (n : Ins) : Work → Eff :=
  ifActive fun w =>
    let low := lowLane w.act
    let a := w.stageAddr n n.sa low
    let bytes := (w.src true n n.sb 0 low).toNat
    if w.memHeld then .hold
    else if bytes % 32 ≠ 0 then .trap { cause := 0x02 }
    else
      match w.barCheck a with
      | some t => .trap t
      | none => .done (w.via fun s => s.barApply w.T.ens a 0 (bytes / 32 : Nat))

/-- tbwait (R276): the return is an acquire at the barrier's scope. -/
def opTbwait (n : Ins) : Work → Eff :=
  ifActive fun w =>
    let low := lowLane w.act
    let a := w.stageAddr n n.sa low
    let p := (w.src true n n.sb 0 low).toNat % 16
    if w.memHeld then .hold
    else
      match w.barCheck a with
      | some t => .trap t
      | none =>
        let x := w.regionsOf_ true a
        let scope := w.E.barScope a
        if w.E.bar a % 16 = p then
          let e := x.1.E
          .raw (({ x.1 with E := { e with bars := if e.bars.contains a then e.bars else e.bars ++ [a] } } : Work).suspend n
            (.phase a p scope x.2))
        else if actsOn false true scope then
          .raw (({ x.1 with S := { x.1.S with earliest := w.s.now + 24 } } : Work).actThen n false true scope (some x.2) .nothing)
        else .raw (x.1.finishAfter n 24)

/-- TBWAIT_WAKE (R276): the waited phase completed 8 cycles ago; the return acquires. -/
def execTbwaitWake (tid uid : Nat) (s : State) : Out :=
  match s.troupes.find? tid with
  | none => .next s
  | some t =>
    match t.allSplits.find? fun p => p.uid = uid with
    | some p =>
      match p.wait with
      | .phase _ 16 scope l =>
        if actsOn false true scope then
          let id := s.tick
          .next ((s.modTroupe tid fun t => t.modSplit uid fun p => { p with wait := .cache id }).bump.startAct
            { id := id, tid := tid, uid := uid, scope := scope, release := false, acquire := true, regions := some l, after := .nothing })
        else .next (s.resume tid uid)
      | _ => .next s
    | none => .next s

/-! ### The end of a cache action -/

/-- What follows a cache action. -/
def State.afterAct (s : State) (a : CacheAct) (core : Nat) : State :=
  match a.after with
  | .nothing => s
  | .word pa op b =>
    let s1 := s.syncWrite core pa (relNew op (leNat (s.peek pa 8)) b.toNat)
    (if a.scope = 5 ∧ targetOf pa = .device then s1.writeBackSector (pa / 32) else s1).ackOf a.tid core pa a.id
  | .signal pa op b =>
    let s1 := s.syncWrite core pa (relNew op (leNat (s.peek pa 8)) b.toNat)
    ((if a.scope = 5 ∧ targetOf pa = .device then s1.writeBackSector (pa / 32) else s1).ackOf a.tid core pa a.id).notify pa
  | .spawn pa group pend => s.spawnEnd a.tid pa group pend
  | .phases bars => match s.troupes.find? a.tid with
    | none => s
    | some t => s.checkBars t.ens bars
  | .arrive addr count add pend =>
    match s.troupes.find? a.tid with
    | none => s
    | some t =>
      let ph := match s.ensembles.find? t.ens with
        | some e => e.bar addr % 16
        | none => 0
      ((s.barApply t.ens addr count ((add.getD 0 : Nat) : Int)).modTroupe a.tid fun t => t.fillPend pend (BitVec.ofNat 32 ph)).at_
        s.now (.scoreboardResultWrite a.tid pend)

/-- CACHE_ACTION_COMPLETE (R320, R378, R380): the write-back, invalidation and discard of the action are done, and the split goes
on. -/
def execCacheActionComplete (id : Nat) (s : State) : Out :=
  match s.cacheActs.find? fun a => a.id = id with
  | none => .next s
  | some a =>
    let s0 : State := { s with cacheActs := s.cacheActs.filter fun x => x.id ≠ id }
    if (s.troupes.find? a.tid).isNone then .next s0
    else
      let core := s.coreOf a.tid
      let s1 := if a.release then s0.releaseActs a.scope a.regions else s0
      let s2 := if a.acquire then s1.acquireActs core a.scope a.regions else s1
      .next ((s2.afterAct a core).resume a.tid a.uid)

/-- SLD (R265), extended form. -/
def execSld (f : X) (s : State) : Out := runX 0x90 f opSld s

/-- SST (R265), extended form. -/
def execSst (f : X) (s : State) : Out := runX 0x91 f opSst s

/-- SGATH (R266), extended form. -/
def execSgath (f : X) (s : State) : Out := runX 0x92 f opSgath s

/-- SFILL (R267), extended form. -/
def execSfill (f : X) (s : State) : Out := runX 0x93 f opSfill s

/-- WBIND (R268), extended form. -/
def execWbind (f : X) (s : State) : Out := runX 0x94 f opWbind s

/-- WSET (R269), extended form. -/
def execWset (f : X) (s : State) : Out := runX 0x95 f opWset s

/-- TOUCH (R271), extended form. -/
def execTouch (f : X) (s : State) : Out := runX 0x96 f opTouch s

/-- WREL (R270), extended form. -/
def execWrel (f : X) (s : State) : Out := runX 0x97 f opWrel s

/-- WSTAT (R272), extended form. -/
def execWstat (f : X) (s : State) : Out := runX 0x98 f opWstat s

/-- BCOMMIT (R273), extended form. -/
def execBcommit (f : X) (s : State) : Out := runX 0x99 f opBcommit s

/-- BWAIT (R273), extended form. -/
def execBwait (f : X) (s : State) : Out := runX 0x9a f opBwait s

/-- TBINIT (R274), extended form. -/
def execTbinit (f : X) (s : State) : Out := runX 0x9b f opTbinit s

/-- TBARR (R275), extended form. -/
def execTbarr (f : X) (s : State) : Out := runX 0x9c f opTbarr s

/-- TBEXP (R275), extended form. -/
def execTbexp (f : X) (s : State) : Out := runX 0x9d f opTbexp s

/-- TBWAIT (R276), extended form. -/
def execTbwait (f : X) (s : State) : Out := runX 0x9e f opTbwait s

end Sys2Proof.Machine
end

