-- ==== Sys2Proof/Machine/Cues.lean ====
section
/-! DEFINITION. Cues: arms at the home desk, copies of the cues, cue actions and guards (R365 to R377). -/

namespace Sys2Proof.Machine

open Sys2Proof

/-! ### Actions and their points -/

/-- The cue latency between the home desk of a context and a core (R366). -/
def State.lambda (s : State) (c core : Nat) : Nat := s.cueLatency (s.ctx c).part core

/-- The cue number of a record (R367). -/
def cueOf (r : Word) : Nat := r.toNat % 256

/-- The offset of a record (R367). -/
def offOf (r : Word) : Nat := r.toNat / 256

/-- An entry of a cue: SET over POINT (R365). -/
def cueEntry (set : Bool) (p : Nat) : DWord := BitVec.ofNat 64 (p % 2 ^ 63 + 2 ^ 63 * set.toNat)

/-- The cycle that a POINT stands for, modulo 2^63, nearest to a cycle (R365). -/
def pointNear (now : Nat) (p : DWord) : Int := (now : Int) + signed ((p.toNat + 2 ^ 63 - now % 2 ^ 63) % 2 ^ 63) 63

/-- The cycle of the model that an entry's POINT stands for in a context (R364, R365). -/
def State.pointOf (s : State) (c : Nat) (e : DWord) : Int :=
  pointNear (s.cycles (s.ctx c).part) e - (Config.cycleBase (s.ctx c).part : Nat)

/-- The event in which an action fires. -/
def Act.event (a : Act) (core : Nat) : Ev :=
  match a.kind with
  | .touch _ _ => .cueTouchFire core a.id
  | .arr _ _ _ _ => .cueArrFire core a.id
  | .guard _ _ => .cueGuardFire core a.id
  | .wait _ => .cuewaitFire core a.id
  | .start _ => .mmacoStart core a.id

/-- Firings of a core's later actions (R370). -/
def firesAfter (core id : Nat) : Ev → Bool
  | .cueTouchFire c n => c = core && id < n
  | .cueArrFire c n => c = core && id < n
  | .cueGuardFire c n => c = core && id < n
  | .cuewaitFire c n => c = core && id < n
  | .mmacoStart c n => c = core && id < n
  | _ => false

/-- Replace an action of a core. -/
def Core.putAct (c : Core) (a : Act) : Core := { c with acts := c.acts.map fun x => if x.id = a.id then a else x }

/-- An action of a core. -/
def Core.act (c : Core) (id : Nat) : Option Act := c.acts.find? fun a => a.id = id

/-- Forget an action. -/
def Core.dropAct (c : Core) (id : Nat) : Core := { c with acts := c.acts.filter fun a => a.id ≠ id }

/-- Let an action fire in a cycle, in the order of R370. -/
def State.fireAt (s : State) (core : Nat) (a : Act) (f : Nat) (late : Bool) : State :=
  let b : Act := { a with fires := some f, late := a.late || late }
  let s1 := s.modCore core (·.putAct b)
  s1.atBefore f (b.event core) (firesAfter core a.id)

/-- An action has its point (R369): the cycle in which it fires, and whether it is late. -/
def State.givePoint (s : State) (core : Nat) (a : Act) (p : Int) : State :=
  let l := s.lambda a.ctx core
  let f := p + a.off
  if (s.now : Int) + 4 ≤ f ∧ l ≤ a.off then s.fireAt core a f.toNat false
  else s.fireAt core a (max ((s.now : Int) + 4) (p + l)).toNat true

/-- A cue action issues (R369): it takes the point of its core's copy, or waits for one. -/
def State.addAct (s : State) (core : Nat) (a : Act) : State :=
  let s1 := s.modCore core fun c => { c with acts := c.acts ++ [a] }
  let e := (((s.core core).cues.find? a.ctx).getD []).get a.cue
  if bitOf e.toNat 63 then s1.givePoint core a (s.pointOf a.ctx e) else s1

/-- The core's 32 places for cue and cuewait actions are in use (R370). -/
def Core.actsFull (c : Core) : Bool :=
  32 ≤ (c.acts.filter fun a => match a.kind with
    | .start _ => false
    | .touch _ _ => true
    | .arr _ _ _ _ => true
    | .guard _ _ => true
    | .wait _ => true).length

/-- The action that an instruction makes. -/
def Work.newAct (w : Work) (r : Word) (kind : ActKind) : Act :=
  { id := w.s.tick, ctx := w.E.ctx, tid := w.tid, cue := cueOf r, off := offOf r, fires := none, late := false, kind := kind }

/-- An action issues. -/
def Work.addAct (w : Work) (a : Act) : Work := { w with s := w.s.bump.addAct w.E.core a }

/-! ### Instructions -/

/-- Arms of one desk and cycle that apply after one of a core (R368). -/
def armsAfter (core c : Nat) : Ev → Bool
  | .cuearmAtDesk k d _ _ _ => d = c && core < k
  | _ => false

/-- cuearm (R368, R374). -/
def opCuearm (n : Ins) : Work → Eff :=
  ifActive fun w =>
    let r := w.src true n n.sa 0 (lowLane w.act)
    if 63 < cueOf r then .trap { cause := 0x02 }
    else
      let due := w.s.now + w.s.lambda w.E.ctx w.E.core
      let ev := Ev.cuearmAtDesk w.E.core w.E.ctx (cueOf r) (offOf r) (bitOf n.mod 0)
      .done { w with s := w.s.atBefore due ev (armsAfter w.E.core w.E.ctx) }

/-- cue (R375): the checks and the record at issue. -/
def opCue (n : Ins) : Work → Eff :=
  ifActive fun w =>
    let low := lowLane w.act
    let r := w.src true n n.sa 0 low
    if 63 < cueOf r then .trap { cause := 0x02 }
    else
      match n.mod % 4 with
      | 0 =>
        let x := w.E.win (n.mod / 4)
        if x.state = 0 ∨ recSlide x.record then .trap { cause := 0x02 }
        else if (w.s.core w.E.core).actsFull then .hold
        else .done (w.addAct (w.newAct r (.touch (n.mod / 4) w.S.pc.toNat)))
      | 1 =>
        let a := w.stageAddr n n.sb low
        match w.barCheck a with
        | some t => .trap t
        | none =>
          if (w.s.core w.E.core).actsFull then .hold
          else
            let x := w.regionsOf_ true a
            .done (x.1.addAct (x.1.newAct r (.arr a x.1.T.unacked (w.E.barScope a) x.2)))
      | k =>
        if (w.s.core w.E.core).actsFull then .hold
        else .done (w.addAct (w.newAct r (.guard (n.mod / 4) (k = 2))))

/-- cuewait (R376). -/
def opCuewait (n : Ins) : Work → Eff :=
  ifActive fun w =>
    let r := w.src true n n.sa 0 (lowLane w.act)
    if 63 < cueOf r then .trap { cause := 0x02 }
    else if (w.s.core w.E.core).actsFull then .hold
    else
      let a := w.newAct r (.wait w.S.uid)
      .raw ((({ w with s := w.s.bump } : Work).suspend n (.cue a.id)).addAct w.E.core a)

/-- The state of a guard slot changes (R372, R377): 0 unresolved, 1 true, 2 false. -/
def Troupe.setGuard (t : Troupe) (q v : Nat) : Troupe :=
  { t with qstat := BitVec.ofNat 32 (t.qstat.toNat - guardOf t q * 4 ^ q + v * 4 ^ q) }

/-- A guard instruction (R377): the slot takes a state, and its prior state is the result. -/
def Work.guard (w : Work) (n : Ins) (v : Nat) : Work :=
  let old := BitVec.ofNat 32 (guardOf w.T n.mod)
  let w1 := w.later 8 0#32 n 1 fun _ _ => old
  { w1 with T := w1.T.setGuard n.mod v, s := w1.s.at_ w1.s.now (.copyStart w1.tid) }

/-- gdset (R377). -/
def opGdset (n : Ins) : Work → Eff :=
  ifActive fun w => .done (w.guard n (if w.src true n n.sa 0 (lowLane w.act) = 0 then 2 else 1))

/-- gdclr (R377). -/
def opGdclr (n : Ins) : Work → Eff := ifActive fun w => .done (w.guard n 0)

/-- CUEARM (R368), extended form. -/
def execCuearm (f : X) (s : State) : Out := runX 0xb8 f opCuearm s

/-- CUE (R375), extended form. -/
def execCue (f : X) (s : State) : Out := runX 0xb9 f opCue s

/-- CUEWAIT (R376), extended form. -/
def execCuewait (f : X) (s : State) : Out := runX 0xba f opCuewait s

/-- GDSET (R377), extended form. -/
def execGdset (f : X) (s : State) : Out := runX 0xbb f opGdset s

/-- GDCLR (R377), extended form. -/
def execGdclr (f : X) (s : State) : Out := runX 0xbc f opGdclr s

/-! ### Arms and broadcasts -/

/-- CUEARM_AT_DESK (R368): the arm replaces a pending broadcast of the cue. -/
def execCuearmAtDesk (_core c cue off : Nat) (clear : Bool) (s : State) : Out :=
  let id := s.tick
  .next ((s.modCtx c fun x => { x with arms := x.arms.put cue ⟨s.now + off, clear, id⟩ }).bump.at_ (s.now + off) (.cueBroadcast c cue id))

/-- The cores on which a context is resident. -/
def State.coresWith (s : State) (c : Nat) : List Nat :=
  (s.cores.filter fun k => k.2.onStage = some c || k.2.wings.contains c).map (·.1)

/-- CUE_BROADCAST (R368): the desk writes the master and sends the copies. -/
def execCueBroadcast (c cue id : Nat) (s : State) : Out :=
  match (s.ctx c).arms.find? cue with
  | none => .next s
  | some a =>
    if a.id ≠ id then .next s
    else
      let old := (s.ctx c).cues.get cue
      let v := if a.clear then cueEntry false old.toNat else cueEntry true (s.cycles (s.ctx c).part)
      let s1 := s.modCtx c fun x => { x with cues := x.cues.set cue v, arms := x.arms.del cue }
      .next ((s.coresWith c).foldl (fun (s : State) k => s.at_ (s.now + s.lambda c k) (.cueCopyWrite k c cue v.toNat (!a.clear))) s1)

/-- CUE_COPY_WRITE (R368, R369): a core's copy is written, and the actions that wait for a point take it. -/
def execCueCopyWrite (core c cue v : Nat) (set : Bool) (s : State) : Out :=
  let s1 := s.modCore core fun k =>
    let old := ((k.cues.find? c).getD []).get cue
    let e := if set then BitVec.ofNat 64 v else cueEntry false old.toNat
    { k with cues := k.cues.put c (((k.cues.find? c).getD []).set cue e) }
  if set then
    .next ((((s1.core core).acts.filter fun a => a.ctx = c && a.cue = cue && a.fires.isNone)).foldl
      (fun s a => s.givePoint core a (s.pointOf c (BitVec.ofNat 64 v))) s1)
  else .next s1

/-! ### Firing -/

/-- A late action sets CUELATE (R369). -/
def State.lateMark (s : State) (a : Act) : State :=
  if a.late then s.modTroupe a.tid fun t => { t with tstat := t.tstat ||| flagLate } else s

/-- The action is over. -/
def State.endAct (s : State) (core : Nat) (a : Act) : State := (s.lateMark a).modCore core (·.dropAct a.id)

/-- Hold a firing (R375): the action is late, and looks again in the next cycle, or sooner where a place frees. -/
def State.deferAct (s : State) (core : Nat) (a : Act) : State :=
  (s.modCore core (·.putAct { a with fires := some s.now, late := true })).atBefore (s.now + 1) (a.event core) (firesAfter core a.id)

/-- CUE_TOUCH_FIRE (R375): the touch is made; one that would trap is dropped and sets ERR; a full queue defers it, but not past a stop
(R371; log entry 87). -/
def execCueTouchFire (core id : Nat) (s : State) : Out :=
  match (s.core core).act id with
  | none => .next s
  | some a =>
    match a.kind, s.troupes.find? a.tid with
    | .touch k pc, some t =>
      match s.ensembles.find? t.ens with
      | none => .next (s.endAct core a)
      | some e =>
        let err (s : State) : State := s.modEns t.ens fun e => e.modWin k fun x => { x with err := true }
        if (e.win k).state = 0 ∨ recSlide (e.win k).record then .next ((err s).endAct core a)
        else
          match s.touch a.tid t e (BitVec.ofNat 32 pc) k 0 none with
          | .nothing => .next (s.endAct core a)
          | .trap _ => .next ((err s).endAct core a)
          | .full =>
            if e.pos = .resident then .next (s.deferAct core a)
            else .next ((s.endAct core a).enqueue (s.windowCopy a.tid t e (BitVec.ofNat 32 pc) k 0 none))
          | .start c => .next ((s.endAct core a).enqueue c)
    | _, _ => .next (s.endAct core a)

/-- CUE_ARR_FIRE (R375): an arrival of count 1, a release at the barrier's scope, once the recorded writes are acknowledged. -/
def execCueArrFire (core id : Nat) (s : State) : Out :=
  match (s.core core).act id with
  | none => .next s
  | some a =>
    match a.kind, s.troupes.find? a.tid with
    | .arr addr waits scope regions, some t =>
      if t.unacked.any waits.contains then .next (s.deferAct core a)
      else
        .next (((s.releaseActs scope (some regions)).barApply t.ens addr 1 0).endAct core a)
    | _, _ => .next (s.endAct core a)

/-- CUE_GUARD_FIRE (R375): the guard slot resolves. -/
def execCueGuardFire (core id : Nat) (s : State) : Out :=
  match (s.core core).act id with
  | none => .next s
  | some a =>
    match a.kind with
    | .guard q v =>
      .next (((s.modTroupe a.tid fun t => t.setGuard q (if v then 1 else 2)).endAct core a).at_ s.now (.copyStart a.tid))
    | _ => .next (s.endAct core a)

/-- CUEWAIT_FIRE (R376): the split becomes ready. -/
def execCuewaitFire (core id : Nat) (s : State) : Out :=
  match (s.core core).act id with
  | none => .next s
  | some a =>
    match a.kind with
    | .wait uid => .next ((s.endAct core a).resume a.tid uid)
    | _ => .next (s.endAct core a)

end Sys2Proof.Machine
end

