-- ==== Sys2Proof/Machine/Cuts.lean ====
section
/-! DEFINITION. What a cut of a context holds (R401 to R406): the units, the records and their sizes, and whether a context can be
saved (R404). -/

namespace Sys2Proof.Machine

open Sys2Proof

/-! ### The units of a context -/

/-- The physical address of a context's virtual address, as an engine that writes for the context finds it (R279, R408). -/
def State.enginePa (s : State) (c : Context) (va : Nat) : Option Nat :=
  let top := 32768 * bvField c.ptbr 51 15
  if 2 ^ 60 ≤ va ∨ targetOf top ≠ .device ∨ s.backed top = false then none
  else
    match s.walkFrom c.ctxid.toNat va 4 top [] with
    | .error _ => none
    | .ok (t, _) =>
      let pa := t.pa + va % 2 ^ levelShift t.level
      if s.backed pa then some pa else none

/-- An entry of the region list (R385): a base and a length. -/
def State.regionEntry (s : State) (c : Context) (k : Nat) : Nat × Nat :=
  match s.enginePa c (64 * bvField c.ckreg 59 6 + 16 * k) with
  | none => (0, 0)
  | some pa => (s.peek64 pa, s.peek64 (pa + 8))

/-- The 64 KiB pages of the regions that a context's checkpoints cover (R385, R401): those of which some part is mapped. -/
def State.regionPages (s : State) (c : Context) : List Nat :=
  let all := (List.range (bvField c.ckreg 5 0 + 1)).flatMap fun k =>
    let e := s.regionEntry c k
    (List.range (e.2 / 65536)).map fun j => e.1 / 65536 * 65536 + 65536 * j
  (distinct all).filter fun va => (List.range 16).any fun j => (s.enginePa c (va + 4096 * j)).isSome

/-- The ensembles of a context with their numbers. -/
def State.ensTab (s : State) (c : Nat) : Tab Ensemble := s.ensembles.filter fun e => e.2.ctx = c

/-- The troupes of a context with their numbers. -/
def State.troupeTab (s : State) (c : Nat) : Tab Troupe := s.troupes.filter fun t => s.ensIn c t.2.ens

/-- The register granules of a troupe. -/
def granulesOf (t : Nat × Troupe) : List CkUnit := (List.range (t.2.nregs / 8)).map fun u => .granule t.1 u

/-- The 64 KiB pieces of a troupe's block. -/
def piecesOf (t : Nat × Troupe) : List CkUnit := (List.range 20).map fun k => .piece t.1 (65536 * k)

/-- The stage lines, slots and tiles of an ensemble. -/
def storesOf (e : Nat × Ensemble) : List CkUnit :=
  ((List.range (e.2.size / 256)).map fun k => CkUnit.stage e.1 (256 * k))
  ++ (e.2.aSlots.map fun k => CkUnit.slot e.1 false k.1) ++ (e.2.bSlots.map fun k => CkUnit.slot e.1 true k.1)
  ++ e.2.tiles.map fun k => CkUnit.tile e.1 k.1

/-- The units of a context that checkpointing tracks (R401). -/
def State.units (s : State) (c : Nat) : List CkUnit :=
  ((s.troupeTab c).flatMap fun t => granulesOf t ++ piecesOf t) ++ ((s.ensTab c).flatMap storesOf)
  ++ (s.regionPages (s.ctx c)).map .page

/-- Data bytes of a unit's record (R406). -/
def CkUnit.size : CkUnit → Nat
  | .granule _ _ => 4096
  | .stage _ _ => 256
  | .slot _ b _ => if b then 65536 else 32768
  | .tile _ _ => 131072
  | .piece _ _ => 65536
  | .page _ => 65536

/-- The physical addresses that a unit's data takes in memory, by parts of 4 KiB; none for a part that nothing maps. -/
def State.unitParts (s : State) (c : Nat) (u : CkUnit) : List (Option Nat) :=
  match u with
  | .piece t off =>
    match s.troupes.find? t with
    | none => []
    | some x => (List.range 16).map fun j => some (blockBase (s.ctx c) x.block + off + 4096 * j)
  | .page va => (List.range 16).map fun j => s.enginePa (s.ctx c) (va + 4096 * j)
  | .granule _ _ => []
  | .stage _ _ => []
  | .slot _ _ _ => []
  | .tile _ _ => []

/-- The bytes of a part; a part that nothing maps has no stated content (log entry 13). -/
def State.partBytes (s : State) (p : Option Nat) : List Byte :=
  match p with
  | some pa => s.peek pa 4096
  | none => (List.range 4096).map fun i => BitVec.ofNat 8 (Config.unstated i)

/-- The data of a unit (R406). -/
def State.unitData (s : State) (c : Nat) (u : CkUnit) : List Byte :=
  match u with
  | .granule t k =>
    match s.troupes.find? t with
    | none => []
    | some x => (List.range 8).flatMap fun n => vecBytes (x.vec (.v (8 * k + n)))
  | .stage e a =>
    match s.ensembles.find? e with
    | none => []
    | some x => x.stage.getMany a 256
  | .slot e b k =>
    match s.ensembles.find? e with
    | none => []
    | some x => match (if b then x.bSlots else x.aSlots).find? k with
      | none => []
      | some y => y.data.getMany 0 (if b then 65536 else 32768)
  | .tile e k =>
    match s.ensembles.find? e with
    | none => []
    | some x => match x.tiles.find? k with
      | none => []
      | some y => (List.range 128).flatMap fun r => (List.range 256).flatMap fun j => natLE 4 (y.data.get (256 * r + j)).toNat
  | .piece _ _ => (s.unitParts c u).flatMap s.partBytes
  | .page _ => (s.unitParts c u).flatMap s.partBytes

/-- A unit lies on a fenced page (R423). -/
def State.unitFenced (s : State) (c : Nat) (u : CkUnit) : Bool :=
  (s.unitParts c u).any fun p => match p with
    | some pa => s.isFenced pa
    | none => false

/-! ### Records (R406) -/

/-- Bytes whose layout the spec does not state (log entry 13). -/
def freeBytes (tick n : Nat) : List Byte := (List.range n).map fun i => BitVec.ofNat 8 (Config.unstated (tick * 2 ^ 20 + i))

/-- The header of a record. -/
def recordHead (kind len seq prod ens trp unit : Nat) : List Byte :=
  natLE 1 kind ++ zeros 3 ++ natLE 4 len ++ natLE 8 seq ++ natLE 8 prod ++ natLE 4 ens ++ natLE 1 trp ++ zeros 3 ++ natLE 8 unit
  ++ zeros 24

/-- A record with its data. -/
def recordOf (kind seq prod ens trp unit : Nat) (data : List Byte) : List Byte :=
  recordHead kind data.length seq prod ens trp unit ++ data

/-- PROD of a record: the launch's number in the context and the production's number in the launch. -/
def State.prodRef (s : State) (n : Nat) : Nat :=
  let p := s.prod n
  2 ^ 32 * ((s.launches.find? p.launch).map (·.seq)).getD 0 + p.index

/-- PROD, ENS and TRP of a unit's record. -/
def State.unitRef (s : State) (u : CkUnit) : Nat × Nat × Nat :=
  let ens (e trp : Nat) : Nat × Nat × Nat := match s.ensembles.find? e with
    | none => (0, 0, 0)
    | some x => (s.prodRef x.prod, x.lin, trp)
  let troupe (t : Nat) : Nat × Nat × Nat := match s.troupes.find? t with
    | none => (0, 0, 0)
    | some x => ens x.ens x.num
  match u with
  | .granule t _ => troupe t
  | .piece t _ => troupe t
  | .stage e _ => ens e 0
  | .slot e _ _ => ens e 0
  | .tile e _ => ens e 0
  | .page _ => (0, 0, 0)

/-- KIND and UNIT of a unit's record. -/
def CkUnit.kind : CkUnit → Nat × Nat
  | .piece _ off => (3, off)
  | .granule _ u => (4, u)
  | .stage _ a => (5, a)
  | .page va => (6, va)
  | .slot _ b k => (7, k + 8 * b.toNat)
  | .tile _ k => (8, k)

/-- A unit's record in a cut. -/
def State.unitRecord (s : State) (u : CkUnit) (seq : Nat) (data : List Byte) : List Byte :=
  let r := s.unitRef u
  recordOf u.kind.1 seq r.1 r.2.1 r.2.2 u.kind.2 data

/-- The launches of a context. -/
def State.launchTab (s : State) (c : Nat) : Tab Launch := s.launches.filter fun l => l.2.ctx = c

/-- The context record (R406): the format table, the supervisor registers and the cues; TREC, which is held per troupe, and the
entries whose fields have no stated place are free values (log entry 13). -/
def State.contextRecord (s : State) (c seq : Nat) : List Byte :=
  let x := s.ctx c
  recordOf 1 seq 0 0 0 0
    (((List.range 48).flatMap fun k => natLE 8 (x.fmt.get (16 + k)).toNat)
    ++ ((List.range 16).flatMap fun k => if k = 9 then freeBytes s.tick 8 else natLE 8 (x.reg (0x40 + k)).toNat)
    ++ ((List.range 64).flatMap fun k => natLE 8 (x.cues.get k).toNat)
    ++ freeBytes s.tick (64 * ((s.launchTab c).length + (s.queuesOf c).length + 1)))

/-- An entry of a region table in a record: the binding record and the status word (R241, R244). -/
def Window.bytes80 (w : Window) : List Byte :=
  natLE 64 w.record.toNat
  ++ natLE 8 (w.state.toNat + 8 * w.err.toNat + 16 * w.held.toNat + 32 * w.landed.toNat) ++ natLE 8 w.tail.toNat

/-- An entry of a binding table in a record (R306). -/
def bindBytes (b : Option Bind) : List Byte :=
  match b with
  | none => zeros 24
  | some b => natLE 24 (16 * b.bar.toNat + 32 * b.scope + 2 ^ 40 * b.obj + 2 ^ 100 * b.base + 2 ^ 160 * b.len)

/-- An ensemble's record (R406): a g register stands before its owner, bit 31 over the troupe's number (log entry 97); what has no stated
place is a free value (log entry 13). -/
def State.ensRecord (s : State) (seq : Nat) (e : Ensemble) : List Byte :=
  recordOf 2 seq (s.prodRef e.prod) e.lin 0 0
    (((List.range 32).flatMap fun k => ((e.wins.find? k).map Window.bytes80).getD (zeros 80))
    ++ ((List.range 32).flatMap fun k => bindBytes (e.binds.find? k))
    ++ ((List.range 32).flatMap fun k => natLE 4 (e.g.get k).toNat ++ match e.gown.find? k with
        | some t => natLE 4 (2 ^ 31 + t)
        | none => zeros 4)
    ++ ((List.range 8).flatMap fun k => natLE 2 (e.groups.get k).toNat)
    ++ freeBytes s.tick 240)

/-- The records that say that an ensemble or a troupe of the last cut has ended (R406). TRP of an ensemble's is a free value. -/
def State.endedRecords (s : State) (seq : Nat) (prev : Cut) : List Byte :=
  let ref (e : Ensemble) : Nat × Nat :=
    (match prev.prods.find? e.prod with
     | none => 0
     | some p => 2 ^ 32 * ((prev.launches.find? p.launch).map (·.seq)).getD 0 + p.index, e.lin)
  (prev.ens.flatMap fun e =>
    if (s.ensembles.find? e.1).isSome then [] else
      recordOf 9 seq (ref e.2).1 (ref e.2).2 (Config.unstated s.tick % 256) 0 [])
  ++ prev.troupes.flatMap fun t =>
    match prev.ens.find? t.2.ens with
    | none => []
    | some e => if (s.troupes.find? t.1).isSome ∨ (s.ensembles.find? t.2.ens).isNone then [] else
        recordOf 9 seq (ref e).1 (ref e).2 t.2.num 0 []

/-! ### Images (R404, R405) -/

/-- A size of an image within the rules of R385 and R404. -/
def imageOk (mib : Word) : Bool := 8 ≤ mib.toNat && mib.toNat % 2 = 0

/-- The checkpoint image of a context is in use (R401). -/
def Context.checkpoints (c : Context) : Bool :=
  bitOf c.ckctl.toNat 31 && imageOk c.cklen && targetOf c.ckbase.toNat = .tier

/-- Bytes of each half of an image. -/
def halfSize (mib : Nat) : Nat := (mib * 2 ^ 20 - 4096) / 2

/-- Bytes of the records of some units with the context, ensemble and end records. -/
def State.cutSize (s : State) (c : Nat) (us : List CkUnit) : Nat :=
  (us.map fun u => 64 + u.size).sum + (s.contextRecord c 0).length + ((s.ensTab c).map fun e => (s.ensRecord 0 e.2).length).sum + 64

/-- The park image of a context is valid, and a full cut fits a half of it (R404). -/
def State.parkImageOk (s : State) (c : Context) : Bool :=
  imageOk c.pklen && (targetOf c.pkbase.toNat = .tier
    || (targetOf c.pkbase.toNat = .device && s.backed c.pkbase.toNat && s.backed (c.pkbase.toNat + 2 ^ 20 * c.pklen.toNat - 1)))

/-- Why a context cannot be parked or moved (R404, R442): INFO of the event; none if it can. -/
def State.saveBar (s : State) (c : Nat) : Option Nat :=
  let x := s.ctx c
  if x.checkpoints then none
  else if s.parkImageOk x = false then some 0
  else if halfSize x.pklen.toNat < s.cutSize c (s.units c) then some 1
  else none

/-- A context can be parked or moved (R404). -/
def State.canSave (s : State) (c : Nat) : Bool := (s.saveBar c).isNone

/-- A context that cannot be saved is passed by and reported (R404, R442), once while the event waits. -/
def State.cannotSave (s : State) (c info : Nat) : State :=
  let d := s.homeDie (s.ctx c).part
  let r : Report := ⟨8, (s.ctx c).ctxid.toNat, 0, 0, info⟩
  if (s.die d).reports.contains r then s else s.report d r

/-! ### Forming a cut -/

/-- Where a cut goes: its half, its offset there, its number, and its units (R404, R405). -/
structure Plan where
  half : Nat
  off : Nat
  seq : Nat
  units : List CkUnit
  full : Bool
deriving DecidableEq, Repr

/-- The data that a cut holds of a unit. -/
def Cut.unit (k : Cut) (u : CkUnit) : Option (List Byte) := (k.data.find? fun d => d.1 = u).map (·.2)

/-- A unit is a piece of a troupe's block, which engines write at stops and spills. -/
def CkUnit.isPiece : CkUnit → Bool
  | .piece _ _ => true
  | .granule _ _ => false
  | .stage _ _ => false
  | .slot _ _ _ => false
  | .tile _ _ => false
  | .page _ => false

/-- The dirty units since a cut (R401, log entry 25): those written, those that the cut does not hold, and pieces of blocks whose bytes have
changed. -/
def State.dirty (s : State) (c : Nat) (k : Cut) : List CkUnit :=
  (s.units c).filter fun u =>
    (s.ctx c).touched.contains u || (k.unit u).isNone || (u.isPiece && k.unit u ≠ some (s.unitData c u))

/-- The base and the size of the image that takes a context's cut (R404). -/
def Context.image (c : Context) : Nat × Nat :=
  if c.checkpoints then (2 ^ 20 * bvField c.ckbase 51 20, c.cklen.toNat) else (2 ^ 20 * bvField c.pkbase 51 20, c.pklen.toNat)

/-- Where a context's next cut goes, if its image can take it (R404, R405). -/
def State.planCut (s : State) (c : Nat) : Option Plan :=
  let x := s.ctx c
  let room := halfSize x.image.2
  let all := s.units c
  let last := s.cuts.find? c
  let seq := (last.map (·.seq)).getD 0 + 1
  let full (h : Nat) : Option Plan := if room < s.cutSize c all then none else some ⟨h, 0, seq, all, true⟩
  match last with
  | none => full 0
  | some k =>
    if x.checkpoints = false ∨ k.parkImage = true then full (1 - k.half)
    else
      let d := s.dirty c k
      if k.end_ + s.cutSize c d + (s.endedRecords seq k).length ≤ room then some ⟨k.half, k.end_, seq, d, false⟩ else full (1 - k.half)

/-- The physical address of an offset in a half of a context's image (R405). -/
def Context.imageAt (c : Context) (half off : Nat) : Nat := c.image.1 + 4096 + half * halfSize c.image.2 + off

/-- The data of a unit at a cut (R405): as it stands if the cut holds a record of it, else that of its last record. -/
def State.cutData (s : State) (c : Nat) (p : Plan) (u : CkUnit) : List Byte :=
  if p.units.contains u then s.unitData c u else ((s.cuts.find? c).bind fun k => k.unit u).getD (s.unitData c u)

/-- What a context's cut holds besides the units (R362, R406). -/
def State.snapshot (s : State) (c : Nat) (p : Plan) (moving : Bool) (end_ : Nat) : Cut :=
  { seq := p.seq, half := p.half, end_ := end_, parkImage := !(s.ctx c).checkpoints, moving := moving, ctx := s.ctx c,
    ens := s.ensTab c, troupes := s.troupeTab c, copies := s.copies.filter fun k => s.ensIn c k.2.ens,
    prods := s.prods.filter fun k => s.prodCtx k.2 = c, launches := s.launchTab c, loads := s.ovlLoads.filter fun l => l.ctx = c,
    data := (s.units c).map fun u => (u, s.cutData c p u), rdidx := (s.queuesOf c).map fun q => (q, s.qGet q 0x18 8),
    todo := p.units, took := p.units, part := false }

/-- Units of a context are dirty (R401). -/
def Context.touch (x : Context) (us : List CkUnit) : Context :=
  { x with touched := x.touched ++ us.filter fun u => !x.touched.contains u }

/-- A cut that is not committed is reported (R423, R442). -/
def State.cutFails (s : State) (c seq : Nat) : State :=
  s.report (s.homeDie (s.ctx c).part) ⟨4, (s.ctx c).ctxid.toNat, 0, 0, seq⟩

/-- The next unit of a cut is streamed, or the cut is committed (R403). -/
def State.streamNext (s : State) (c : Nat) (todo : List CkUnit) : State :=
  let due := s.now + 1 + Config.pathCycles s.tick
  s.bump.at_ due (if todo = [] then .cutCommit c else .unitStreamed c)

/-- Form a cut (R402): its context and ensemble records are written, its units become clean, and they are protected until they are
streamed. -/
def State.formCut (s : State) (c : Nat) (p : Plan) (moving : Bool) : State :=
  let x := s.ctx c
  let ended := match s.cuts.find? c with
    | some k => if p.full then [] else s.endedRecords p.seq k
    | none => []
  let head := s.contextRecord c p.seq ++ ((s.ensTab c).flatMap fun e => s.ensRecord p.seq e.2) ++ ended
  let k := s.snapshot c p moving (p.off + head.length)
  let s1 := s.homeWrite (x.imageAt p.half p.off) head
  (({ s1 with cutting := s1.cutting.put c k } : State).modCtx c fun x => { x with touched := [] }).streamNext c k.todo

/-- A unit belongs to an ensemble's allotment. -/
def State.unitIn (s : State) (e : Nat) (u : CkUnit) : Bool :=
  let troupe (t : Nat) : Bool := (s.troupes.find? t).map (·.ens) = some e
  match u with
  | .granule t _ => troupe t
  | .piece t _ => troupe t
  | .stage k _ => k = e
  | .slot k _ _ => k = e
  | .tile k _ => k = e
  | .page _ => false

/-- The engine saves the allotment of an ensemble that a park takes off its core (R358, R400, R404): its record and its units go to the
context's image, behind the committed cut and what is saved there already, and are protected until they are streamed (log entry 69). -/
def State.saveSet (s : State) (c e : Nat) : State :=
  match s.planCut c, s.ensembles.find? e with
  | some p, some x =>
    let head := s.ensRecord p.seq x
    let us := p.units.filter (s.unitIn e)
    let next := p.off + (s.ctx c).saves
    let off := if next + head.length + (us.map fun u => 64 + u.size).sum ≤ halfSize (s.ctx c).image.2 then next else p.off
    let k : Cut :=
      { s.snapshot c p false (off + head.length) with
        data := us.map fun u => (u, s.unitData c u), todo := us, took := [], part := true }
    if us.any (s.unitFenced c) then s.cutFails c p.seq
    else ({ s.homeWrite ((s.ctx c).imageAt p.half off) head with cutting := s.cutting.put c k } : State).streamNext c us
  | _, _ => s

/-! ### Writes that a protected unit holds (R402) -/

/-- Results that an instruction has just put into the scoreboard for a granule's registers. -/
def newResult (a b : Troupe) (u : Nat) : Bool :=
  b.pend.any fun p => !(a.pend.any fun q => q.id = p.id) && p.outs.any fun o => match o.reg with
    | .v n => n / 8 = u
    | _ => false

/-- What happened between two states writes a unit (log entry 25). -/
def State.marks (s s1 : State) (c : Nat) (u : CkUnit) : Bool :=
  (s1.unitData c u ≠ [] && s.unitData c u ≠ s1.unitData c u)
  || (match u with
      | .granule t k => match s.troupes.find? t, s1.troupes.find? t with
        | some a, some b => newResult a b k
        | _, _ => false
      | _ => false)

/-- The units of a context that what happened between two states has written (R401). A page is written by the context's troupes and engines
alone: `pages`. -/
def State.written (s s1 : State) (c : Nat) (pages : Bool) : List CkUnit :=
  ((s1.troupeTab c).flatMap fun t => if s.troupes.find? t.1 = some t.2 then [] else (granulesOf t).filter (s.marks s1 c))
  ++ ((s1.ensTab c).flatMap fun e => if s.ensembles.find? e.1 = some e.2 then [] else (storesOf e).filter (s.marks s1 c))
  ++ (if pages = false ∨ s.mem = s1.mem then [] else ((s1.regionPages (s1.ctx c)).map CkUnit.page).filter (s.marks s1 c))

/-- The units written in a step are dirty in each context that is checkpointed (R401); before its first cut every unit is. -/
def State.markDirty (s s1 : State) (pages : Bool) : State :=
  s.contexts.foldl (fun t c =>
    if c.2.checkpoints && ((s.cuts.find? c.1).isSome || (s.cutting.find? c.1).isSome) then
      t.modCtx c.1 fun x => x.touch (s.written s1 c.1 pages)
    else t) s1

/-- What happened between two states writes a unit that is protected. -/
def State.protects (s s1 : State) : Bool := s.cutting.any fun k => k.2.todo.any fun u => s.marks s1 k.1 u

/-- A die counts a cycle held by checkpointing (R440). -/
def State.countHold (s : State) (d : Nat) : State := s.modDie d fun x => { x with ckhold := x.ckhold + 1 }

/-- Events that write for a context's troupes and engines: landings, and accesses at their translation. -/
def writesFor : Ev → Bool
  | .sectorLanding _ _ => true
  | .sfillComplete _ => true
  | .opldComplete _ => true
  | .reduceContribution _ _ => true
  | .reduceRetry _ _ => true
  | .acqWaitSuccess _ => true
  | .acqPoll _ => true
  | .cueArrFire _ _ => true
  | .cacheActionComplete _ => true
  | _ => false

/-- Events that give a context the values of a cut, which leaves nothing dirty. -/
def restores : Ev → Bool
  | .resumption _ => true
  | .coreFence _ => true
  | _ => false

/-- Run an event of the agenda: a write of a protected unit is held until the unit has been streamed (R402), and what it writes is dirty
(R401). -/
def runHeld (run : Ev → State → Out) (ev : Ev) (s : State) : Out :=
  match run ev s with
  | .next s1 =>
    if writesFor ev && s.protects s1 then
      .next ((s.at_ (s.now + 1) ev).countHold (s.homeDie ((s.cutting.head?.map fun k => (s.ctx k.1).part).getD 0)))
    else .next (if restores ev then s1 else s.markDirty s1 (writesFor ev))
  | .fault f => .fault f
  | .refused r => .refused r

end Sys2Proof.Machine
end

