-- ==== Sys2Proof/Machine/Issue.lean ====
section
/-! DEFINITION. What happens next: the agenda, the choice of the split that issues (R80, R84, R91, R92), and fetch (R27, R70). -/

namespace Sys2Proof.Machine

open Sys2Proof

/-- A resident split may issue, as far as its troupe is concerned: its STATE (R84), the full bracket (R94), a trap handler
(R390), and a parked memory instruction (R285, R289). -/
def Troupe.ready (t : Troupe) (p : Split) : Bool :=
  p.state = 1 && (t.trapPc.isNone || p.hand) && (p.infull || !(t.splits.any fun e => e.2.infull))
  && (t.parked = [] || t.parked.any fun q => q.uid = p.uid && q.go)

/-- An ensemble may issue on its core: it is resident, its core is not fenced (R409), and its context is on stage (R394). -/
def State.onStage (s : State) (e : Ensemble) : Bool :=
  let c := s.core e.core
  e.pos = .resident && !c.fenced && c.onStage = some e.ctx
  && (match s.contexts.find? e.ctx with
    | some x => !x.terminated && !x.stopped
    | none => false)

/-- The first cycle in which a quarter may select again (R80), after a troupe that it holds or one that has ended. -/
def State.quarterFree (s : State) (core quarter : Nat) : Nat :=
  (s.troupes.filter fun t => t.2.quarter = quarter && (match s.ensembles.find? t.2.ens with
    | some e => e.core = core
    | none => false)).foldl (fun m t => max m t.2.selFree) (((s.core core).selFree.find? quarter).getD 0)

/-- A troupe that has a ready split: where it stands, and the earliest cycle in which it can be selected. -/
structure Cand where
  tid : Nat
  core : Nat
  quarter : Nat
  slot : Nat
  lastSel : Nat
  due : Nat
deriving DecidableEq, Repr

/-- The least of some cycles. -/
def leastOf : Nat → List Nat → Nat
  | m, [] => m
  | m, a :: t => leastOf (min m a) t

/-- The candidate of a troupe, if it has a ready split (R80). -/
def State.cand (s : State) (tid : Nat) (t : Troupe) : Option Cand :=
  match s.ensembles.find? t.ens with
  | none => none
  | some e =>
    if !s.onStage e then none
    else
      match (t.splits.filter fun x => t.ready x.2).map fun x => x.2.earliest with
      | [] => none
      | a :: l =>
        some { tid := tid, core := e.core, quarter := t.quarter, slot := t.slot, lastSel := t.lastSel,
               due := max (max s.now (s.quarterFree e.core t.quarter)) (max (s.core e.core).from_ (leastOf a l)) }

/-- One candidate goes before another: the earlier cycle; within a cycle the lower core and quarter, as engine order runs (R226); within
a quarter the one that has gone longest without being selected, then the lower slot (R80). -/
def Cand.before (a b : Cand) : Bool :=
  a.due < b.due || (a.due = b.due && (a.core < b.core || (a.core = b.core && (a.quarter < b.quarter
    || (a.quarter = b.quarter && (a.lastSel < b.lastSel || (a.lastSel = b.lastSel && a.slot < b.slot)))))))

/-- The candidate that goes first. -/
def firstCand : List Cand → Option Cand
  | [] => none
  | a :: t =>
    match firstCand t with
    | none => some a
    | some b => if b.before a then some b else some a

/-- The splits that a troupe offers in a cycle: the least recently issued of its ready ones first (R91). -/
def Troupe.offers (t : Troupe) (now : Nat) : List (Nat × Split) :=
  t.splits.filter fun x => t.ready x.2 && x.2.earliest ≤ now

/-- What a fetch gives (R27, R70). -/
inductive Fetched where
  | instr (i : Instr)
  | reserved

/-- The code from the program counter on, if a slot holds the overlay: bytes that the quarter's loop buffer holds come from there (R71).
A parked instruction that is replayed has been fetched before (R78). -/
def State.codeOf (s : State) (w : Work) : Option (List Byte) :=
  match w.T.parked.find? fun p => p.uid = w.S.uid && p.go with
  | some p => some p.insn
  | none =>
    if w.S.past then (s.codeAt w.E.core w.E.ctx w.S.pc).map fun _ => []
    else
      let off := 4 * bvField w.S.pc 15 2
      match (s.core w.E.core).slotOf w.E.ctx (ovlOf w.S.pc), (s.core w.E.core).loops.find? w.T.quarter with
      | some k, some b =>
        if b.slot = k ∧ b.base ≤ off ∧ off < b.base + b.code.length then
          (s.codeAt w.E.core w.E.ctx w.S.pc).map fun bs => b.code.drop (off - b.base) ++ bs.drop (b.base + b.code.length - off)
        else s.codeAt w.E.core w.E.ctx w.S.pc
      | _, _ => s.codeAt w.E.core w.E.ctx w.S.pc

/-- Fetch and decode for a split of a troupe: from the slot that holds its overlay. -/
def State.fetch (s : State) (w : Work) : Fetched :=
  match s.codeOf w with
  | none => .instr .fetchOverlayAbsent
  | some [] => .instr (.fetchBeyondOverlay w.S.fell.isSome)
  | some bs =>
    match decode bs with
    | .ok i => .instr i
    | .error .undefined => .instr (.undefinedInstruction (BitVec.ofNat 32 (leNat (bs.take 4))))
    | .error .reserved => .reserved
    | .error .short => .instr (.fetchBeyondOverlay false)

/-- The split that stands in an entry of a troupe is about to issue. -/
def State.issuing (s : State) (tid ent : Nat) : Option Work := s.work tid ent

/-- Opcodes that may co-issue: not control, cross-lane and system instructions (R92), acq, rel and fence (R315), the launch
instructions (R356), and the cue and guard instructions (R373). -/
def joins (op : Nat) : Bool :=
  !(op ≤ 0x0D) && !(0x10 ≤ op && op ≤ 0x14) && op != 0x4A && !(0xAC ≤ op && op ≤ 0xAE) && !(0xB0 ≤ op && op ≤ 0xB4)
  && !(0xB8 ≤ op && op ≤ 0xBC) && !(0xC0 ≤ op && op ≤ 0xCA)

/-- The instruction of a split may co-issue. -/
def State.mayJoin (s : State) (tid ent : Nat) (p : Split) : Bool :=
  !p.infull && (match s.work tid ent with
    | none => false
    | some w => match s.fetch w with
      | .reserved => true
      | .instr i => match i.view with
        | some (op, _) => joins op
        | none => true)

/-- The split that joins an offered one (R92): the least recently issued of those that qualify. -/
def State.joiner (s : State) (tid : Nat) (a : Nat × Split) (others : List (Nat × Split)) : Option (Nat × Split) :=
  match others with
  | [] => none
  | o :: os =>
    if s.mayJoin tid a.1 a.2 then
      bestSplit (fun x y => x.lastIss < y.lastIss) ((o :: os).filter fun x => s.mayJoin tid x.1 x.2)
    else none

/-- The instruction that the split in an entry of a troupe would issue. -/
def State.nextIns (s : State) (tid ent : Nat) : Option (Work × Ins) :=
  match s.work tid ent with
  | none => none
  | some w => match s.fetch w with
    | .reserved => none
    | .instr i => i.view.map fun v => (w, insOf v.1 v.2)

/-- The splits among which a cycle's selection falls: those that the register scoreboard lets issue, where there are some (R84, R92). -/
def State.unheld (s : State) (tid : Nat) (l : List (Nat × Split)) : List (Nat × Split) :=
  if l.length < 2 then l
  else
    match l.filter fun x => match s.nextIns tid x.1 with
      | some (w, n) => !w.held n
      | none => true with
    | [] => l
    | r :: t => r :: t

/-- What the machine does next: an event of the agenda, an issue with the entry that co-issues with it, or nothing. -/
inductive Next where
  | event (ev : Ev) (s : State)
  | issue (ent : Nat) (other : Option Nat) (s : State)
  | idle (s : State)

/-- The state in which a split of a troupe issues. -/
def State.issueAt (s : State) (due tid ent : Nat) : State := { s with now := due, cur := some (tid, ent) }

/-- Choose among a troupe's offered splits; a pair issues in ascending entry order (R93). -/
def State.choose (s : State) (c : Cand) : Next :=
  match s.troupes.find? c.tid with
  | none => .idle s
  | some t =>
    let offers := s.unheld c.tid (t.offers c.due)
    match bestSplit (fun x y => x.lastIss < y.lastIss) offers with
    | none => .idle s
    | some a =>
      match s.joiner c.tid a (offers.filter fun x => x.1 ≠ a.1) with
      | none => .issue a.1 none (s.issueAt c.due c.tid a.1)
      | some b => .issue (min a.1 b.1) (some (max a.1 b.1)) (s.issueAt c.due c.tid (min a.1 b.1))

/-- The number of the troupe of a candidate that is about to write a g register (R129). -/
def State.gWriter (s : State) (c : Cand) : Option Nat :=
  match s.choose c with
  | .issue ent _ s1 => match s1.nextIns c.tid ent with
    | some (w, n) => if n.op = 0x49 ∧ n.dst.kind = .g then some w.T.num else none
    | none => none
  | .event _ _ => none
  | .idle _ => none

/-- Of the troupes of one ensemble that issue writes of g registers in one cycle, the lowest-numbered goes first (R129). -/
def State.turn (s : State) (cands : List Cand) (c : Cand) : Cand :=
  let ens (x : Cand) : Option Nat := (s.troupes.find? x.tid).map (·.ens)
  let rivals := cands.filter fun x => x.due = c.due && x.core = c.core && x.quarter ≠ c.quarter && ens x = ens c
    && !(cands.any fun y => y.quarter = x.quarter && y.core = x.core && y.before x)
  rivals.foldl (fun b x => match s.gWriter b, s.gWriter x with
    | some m, some n => if n < m then x else b
    | _, _ => b) c

/-- The troupe whose co-issuing split has still to issue in this cycle. -/
def State.pairing (s : State) : Option (Nat × Nat) :=
  s.troupes.findSome? fun t => t.2.pair.map fun k => (t.1, k)

/-- What happens next: a co-issuing split; else the agenda's first event, if it is due before the first issue, or in its cycle and ahead of
its instructions (R240). -/
def State.following (s : State) : Next :=
  match s.pairing with
  | some (tid, ent) => .issue ent none ((s.modTroupe tid fun t => { t with pair := none }).issueAt s.now tid ent)
  | none =>
    let cands := s.troupes.filterMap fun t => s.cand t.1 t.2
    match firstCand cands, s.agenda with
    | none, [] => .idle { s with now := s.now + 1, cur := none }
    | some c, [] => s.choose (s.turn cands c)
    | none, e :: rest => .event e.ev { s with agenda := rest, now := max s.now e.due, cur := none }
    | some c, e :: rest =>
      if e.due < c.due ∨ (e.due = c.due ∧ s.rank e.ev = 0) then .event e.ev { s with agenda := rest, now := max s.now e.due, cur := none }
      else s.choose (s.turn cands c)

/-- The slot that serves a fetch is the most recently fetched from (R73), and the quarter's loop buffer holds the 512 bytes of its code
about the fetch (R71). -/
def State.noteFetch (s : State) (w : Work) : State :=
  match (s.core w.E.core).slotOf w.E.ctx (ovlOf w.S.pc) with
  | none => s
  | some k =>
    let base := 4 * bvField w.S.pc 15 2 / 512 * 512
    s.modCore w.E.core fun c =>
      { c with slots := c.slots.modify k fun x => { x with lastFetch := s.tick },
               loops := c.loops.put w.T.quarter ⟨k, base, ((c.slots.getD k OvlSlot.empty).code.drop base).take 512⟩ }

/-- Run what was fetched; reserved fields trap at decode (R55). -/
def runFetched (run : Instr → State → Out) (w : Work) (f : Fetched) (s : State) : Out :=
  match f with
  | .instr i => run i s
  | .reserved => w.fetchTrap { cause := 0x02 }

/-- An instruction that would write a protected unit is held at its issue (R402); the units that it writes are dirty (R401). -/
def orHold (w : Work) (o : Out) (s : State) : Out :=
  match o with
  | .next s1 => if s.protects s1 then .next (w.hold.countHold (dieOf w.E.core)) else .next (s.markDirty s1 true)
  | .fault f => .fault f
  | .refused r => .refused r

/-- The report that the split which issues has to take first (R393): it stands in the lowest entry, and no handler runs. -/
def Work.reported (w : Work) : Option Due :=
  if w.T.trapPc.isNone && w.T.lowest.map (·.1) == some w.ent then w.T.due.head? else none

/-- Take a report that waited for its split's next instruction (R393). -/
def Work.hear (w : Work) (d : Due) : Out :=
  match (w.s.modTroupe w.tid fun t => { t with due := t.due.drop 1 }).work w.tid w.ent with
  | none => .refused .noIssuer
  | some x => x.takeReport d

/-- Fetch and run the instruction of the split that issues, unless a report comes before it. -/
def State.issue (run : Instr → State → Out) (s : State) : Out :=
  match s.issuer with
  | none => .refused .noIssuer
  | some w =>
    match w.reported with
    | some d => w.hear d
    | none => orHold w (runFetched run w (s.fetch w) (s.noteFetch w)) s

/-- The troupe has taken a trap, or is gone, since an earlier state. -/
def trapped (s0 s1 : State) (tid : Nat) : Bool :=
  match s0.troupes.find? tid, s1.troupes.find? tid with
  | some a, some b => a.trapPc != b.trapPc
  | _, _ => true

/-- The other split of a pair issues next, in the same cycle. -/
def State.thenPair (s : State) (now tid ent : Nat) : State := ({ s with now := now } : State).modTroupe tid fun t => { t with pair := some ent }

/-- The memory instructions, which the translation unit takes in order (R284). -/
def memoryOp (op : Nat) : Bool := (0xA0 ≤ op && op ≤ 0xA7) || op = 0x52 || op = 0x53

/-- The split in an entry is about to issue a memory instruction: its work, and the lanes that it has active. -/
def State.memoryAt (s : State) (tid ent : Nat) : Option (Work × Mask) :=
  (s.nextIns tid ent).bind fun x => if memoryOp x.2.op then some (x.1, x.1.active x.2) else none

/-- A split's memory instruction is returned unperformed and parks beside the other one of its pair (R285, R304). -/
def State.parkBeside (s : State) (tid : Nat) (w : Work) (act : Mask) : State :=
  s.modTroupe tid fun t =>
    { t with parked := t.parked ++ [{ uid := w.S.uid, pc := w.S.pc, insn := w.insn, active := act, done := 0, go := false }] }

/-- The first of two memory instructions of a pair has issued (R92, R285, R304): when it has parked, the second parks unperformed; else
the second issues, and a fault of it reports the first one's lanes too (R288). -/
def State.pairMemory (s0 s1 : State) (tid ent other : Nat) : State :=
  match s0.memoryAt tid ent, s0.memoryAt tid other with
  | some (a, act), some (b, act') =>
    if (s1.troupes.find? tid).any fun t => t.parked.any fun p => p.uid = a.S.uid then s1.parkBeside tid b act'
    else (s1.thenPair s0.now tid other).modTroupe tid fun t => { t with paired := (s0.now, act) }
  | _, _ => s1.thenPair s0.now tid other

/-- Issue two splits together (R92, R93): the lower entry first. When it traps, the other one's instruction completes first (R58); when
both would trap, the second is returned unperformed (R390). -/
def State.issuePair (run : Instr → State → Out) (s : State) (ent other : Nat) : Out :=
  match s.cur with
  | none => .refused .noIssuer
  | some (tid, _) =>
    match s.issue run with
    | .next s1 =>
      if trapped s s1 tid then
        match ({ s with cur := some (tid, other) } : State).issue run with
        | .next s2 => if trapped s s2 tid then .next s1 else .next (s2.thenPair s.now tid ent)
        | .fault f => .fault f
        | .refused r => .refused r
      else .next (s.pairMemory s1 tid ent other)
    | .fault f => .fault f
    | .refused r => .refused r

end Sys2Proof.Machine
end

