-- ==== Sys2Proof/Machine/Images.lean ====
section
/-! DEFINITION. Image load (R2, R52, R66, R68), contexts as they are created (R157, R68), and ovld (R72 to R74). -/

namespace Sys2Proof.Machine

open Sys2Proof

/-! ### Image load -/

/-- A little-endian field of an image. -/
def imgField (b : List Byte) (off n : Nat) : Nat := leNat ((b.drop off).take n)

/-- The entries of a table of an image: their offsets. -/
def imgTable (b : List Byte) (at_ count size : Nat) : List Nat := (List.range count).map fun k => imgField b at_ 4 + size * k

/-- The overlay entries of an image. -/
def imgOverlays (b : List Byte) : List Nat := imgTable b 0x18 (imgField b 0x0C 2) 16

/-- The format preloads of an image: index and descriptor. -/
def imgFormats (b : List Byte) : List (Nat × DWord) :=
  (imgTable b 0x1C (imgField b 0x0E 1) 16).map fun e => (imgField b e 1, BitVec.ofNat 64 (imgField b (e + 8) 8))

/-- The window preloads of an image: window and record. -/
def imgWindows (b : List Byte) : List (Nat × BitVec 512) :=
  (imgTable b 0x20 (imgField b 0x0F 1) 72).map fun e => (imgField b e 1, BitVec.ofNat 512 (imgField b (e + 8) 64))

/-- The reserved fields of the header and the tables are zero (R66). -/
def imgReserved (b : List Byte) : Bool :=
  imgField b 0x2A 2 = 0
  && ((imgOverlays b).all fun e => imgField b (e + 2) 2 = 0 && imgField b (e + 12) 4 = 0)
  && ((imgTable b 0x1C (imgField b 0x0E 1) 16).all fun e => imgField b (e + 1) 7 = 0)
  && ((imgTable b 0x20 (imgField b 0x0F 1) 72).all fun e => imgField b (e + 1) 7 = 0)
  && ((imgTable b 0x24 (imgField b 0x28 2) 32).all fun e => imgField b (e + 6) 2 = 0 && imgField b (e + 24) 8 = 0)
  && ((imgTable b 0x2C (imgField b 0x30 4) 16).all fun e => imgField b (e + 5) 1 = 0)

/-- The opcode is newer than a minor version (R52). -/
def opNewer (minor op : Nat) : Bool :=
  (minor < 1 && (op = 0x55 || op = 0x86)) || (minor < 2 && (op = 0x48 || op = 0x4A || op = 0x4B))
  || (minor < 3 && (op = 0x87 || op = 0x92 || op = 0x37 || op = 0xA7))

/-- A short code that images below 1.2 may not name (R52). -/
def shortNew (c : Nat) : Bool := 60 ≤ c && c ≤ 63

/-- A long code of the special class with an index that images below 1.2 may not name (R52). -/
def longNew (c : Nat) : Bool := 768 ≤ c && c ≤ 831

/-- An operand field of the form names a code that is newer than 1.1 (R52, R68). A base word of an opcode with no base form is walked as
one with the base fields, and one of an XT opcode as one without any (log entry 99). -/
def fieldsNew (w w1 w2 : Nat) : Bool :=
  let op := w / 4 % 256
  let xt := 2 ≤ op && op ≤ 7
  if w % 4 = 0 ∨ w % 4 = 2 then
    if xt then false
    else shortNew (field w 31 26) || (op != 0x21 && (shortNew (field w 25 20) || shortNew (field w 19 14)))
  else if xt then longNew (field w2 31 22)
  else longNew (field w1 31 22) || longNew (field w1 21 12) || longNew (field w1 11 2) || longNew (field w2 31 22)

/-- The walk of status 7 over the words of an overlay (R68): `skip` words of the last instruction stand before. -/
def walkOk (minor : Nat) : Nat → List Nat → Bool
  | _, [] => true
  | k + 1, _ :: t => walkOk minor k t
  | 0, w :: t =>
    let n := lenWords (w % 4)
    if assigned (w / 4 % 256) ∧ n ≤ t.length + 1 then
      !opNewer minor (w / 4 % 256) && !(minor < 2 && fieldsNew w (t.getD 0 0) (t.getD 1 0)) && walkOk minor (n - 1) t
    else walkOk minor 0 t

/-- The code of an overlay entry. -/
def imgCode (b : List Byte) (e : Nat) : List Byte := (b.drop (imgField b (e + 8) 4)).take (imgField b (e + 4) 4)

/-- The overlay entries are as R66 says, and their identifiers differ; code that runs past the image's last byte counts as a breach
(log entry 99). -/
def overlaysOk (b : List Byte) : Bool :=
  let es := imgOverlays b
  let ids := es.map fun e => imgField b e 2
  (distinct ids).length = es.length && ids.all (· < 4096)
  && es.all fun e =>
    let size := imgField b (e + 4) 4
    let off := imgField b (e + 8) 4
    4 ≤ size && size ≤ 65536 && size % 4 = 0 && off % 64 = 0 && off + size ≤ b.length

/-- ENTRY names a word of an overlay, or an image that is not launched has none (R68). -/
def entryOk (b : List Byte) (launched : Bool) : Bool :=
  let pc := imgField b 0x08 4
  if pc = 0xFFFFFFFF then !launched
  else
    field pc 31 28 = 0 && field pc 1 0 = 0
    && (imgOverlays b).any fun e => imgField b e 2 = field pc 27 16 && field pc 15 0 < imgField b (e + 4) 4

/-- REGS, SCALARS, TROUPES and STAGE are within R64. -/
def sizesOk (b : List Byte) : Bool :=
  let regs := imgField b 0x10 2
  let stage := imgField b 0x14 4
  8 ≤ regs && regs ≤ 256 && regs % 8 = 0 && imgField b 0x12 1 ≤ 64 && 1 ≤ imgField b 0x13 1 && imgField b 0x13 1 ≤ 16
  && stage ≤ 524288 && stage % 256 = 0

/-- The status of an image (R68): the first condition that holds. An image that breaks a limit of R66 for which R68 lists no status is
accepted (log entry 99). -/
def imageStatus (b : List Byte) (launched : Bool) : Nat :=
  if imgField b 0 4 ≠ 0x494B5645 ∨ imgField b 6 2 ≠ 64 ∨ imgReserved b = false then 1
  else if imgField b 5 1 ≠ 1 ∨ 3 < imgField b 4 1 then 2
  else if overlaysOk b = false then 3
  else if entryOk b launched = false then 4
  else if sizesOk b = false then 5
  else if ((imgFormats b).any fun f => f.1 < 16) ∨ ((imgWindows b).any fun w => 31 < w.1) then 6
  else if ((imgOverlays b).all fun e => walkOk (imgField b 4 1) 0 (Sys2Proof.wordsOf (imgCode b e))) = false then 7
  else 0

/-- IMAGE_LOAD (R68): the stage manager checks an image and keeps its status. -/
def execImageLoad (n : Nat) (img : List Byte) (launched : Bool) (s : State) : Out :=
  .next { s with images := s.images.put n { status := imageStatus img launched, bytes := img } }

/-! ### Contexts -/

/-- CONTEXT_CREATION (R157, R68): every programmable format entry is 0, then the preloads of an accepted image apply; the
supervisor registers take what system software gives (log entry 23). A refused image has no effect on any context. -/
def execContextCreation (c part img : Nat) (regs : List (Nat × DWord)) (s : State) : Out :=
  match s.images.find? img with
  | none => .next s
  | some m =>
    let live : Bool := match s.contexts.find? c with
      | some x => !x.terminated
      | none => false
    if m.status ≠ 0 ∨ (s.parts.find? part).isNone ∨ live = true then .next s
    else
      let fmt := (imgFormats m.bytes).foldl (fun (t : Store 64) e => t.set e.1 e.2) []
      let base : Context := ({ s with contexts := [] } : State).ctx c
      let x : Context :=
        regs.foldl (fun x r => x.setReg r.1 r.2)
          { base with part := part, fmt := fmt, preload := imgWindows m.bytes, minor := imgField m.bytes 4 1 }
      .next (({ s with contexts := s.contexts.put c x } : State).at_ ((s.now / 65536 + 1) * 65536) (.savecostUpdate c))

/-! ### ovld -/

/-- ovld (R73): its status is a scoreboard result. -/
def opOvld (n : Ins) : Work → Eff :=
  ifActive fun w =>
    let id := w.s.tick
    let w1 := w.holdFor (w.pendOf false 0 0#32 (w.outsOf n 1 w.act fun _ _ => 0#32))
    let l : OvlLoad :=
      { id := w1.s.tick, core := w.E.core, ctx := w.E.ctx, tid := w.tid, uid := w.S.uid,
        ovl := (w.src true n n.sa 0 (lowLane w.act)).toNat, sup := w.T.sup, dst := some id, slot := none, pages := [], base := 0,
        size := 0, pc := w.S.pc }
    .raw (({ w1 with s := w1.s.bump } : Work).finish n |>.loadOvl l)

/-- Loads of the same overlay that wait for the copy under way (R73). -/
def State.sameLoads (s : State) (l : OvlLoad) : List OvlLoad :=
  s.ovlLoads.filter fun y => y.id ≠ l.id && y.core = l.core && y.ctx = l.ctx && y.ovl = l.ovl && y.slot.isNone
    && !(s.faultWaits.any fun f => f.waiter = .ovld y.id)

/-- Give loads a status. -/
def State.ovlDeliverAll (s : State) (ls : List OvlLoad) (v : Nat) : State :=
  ls.foldl (fun s y => ({ s with ovlLoads := s.ovlLoads.filter fun x => x.id ≠ y.id } : State).ovlDeliver y v) s

/-- The ensemble of a troupe is resident: no stop holds it. -/
def State.runs (s : State) (tid : Nat) : Bool :=
  match s.troupes.find? tid with
  | none => false
  | some t => match s.ensembles.find? t.ens with
    | some e => e.pos = .resident
    | none => false

/-- OVLD_COPY_COMPLETE (R73): the slot is filled and tagged, or a load that found every slot being filled tries again. -/
def execOvldCopyComplete (n : Nat) (s : State) : Out :=
  match s.ovlLoads.find? fun l => l.id = n with
  | none => .next s
  | some l =>
    match l.slot with
    | none => .next (if s.runs l.tid then s.loadOvl l else s)
    | some k =>
      if l.pages.any s.mapWaits then .next (s.at_ (s.now + 1) (.ovldCopyComplete n))
      else
      let same := s.sameLoads l
      let r := s.landOvl l k
      .next (if r.2 = 1 then (r.1.ovlDeliver l 1).ovlDeliverAll same 1 else same.foldl State.loadOvl (r.1.ovlDeliver l r.2))

/-- OVLD (R73), extended form. -/
def execOvld (f : X) (s : State) : Out := runX 0xb5 f opOvld s

end Sys2Proof.Machine
end

