-- ==== Sys2Proof/Machine/Replay.lean ====
section
/-! DEFINITION. The fault queue and the replies of the paging service (R286 to R289, R393). -/

namespace Sys2Proof.Machine

open Sys2Proof

/-- Go on with a state, where there is one. -/
def andThen (o : Out) (f : State → Out) : Out :=
  match o with
  | .next s => f s
  | .fault e => .fault e
  | .refused e => .refused e

/-- Do something for each element of a list. -/
def forEach {α : Type} (f : α → State → Out) : List α → State → Out
  | [], s => .next s
  | a :: t, s => andThen (f a s) (forEach f t)

/-- The ring of a die's fault queue: its base and its number of records (R287). -/
def Die.ring (d : Die) : Nat × Nat := (4096 * bvField d.fqcfg 51 12, 2 ^ bvField d.fqcfg 4 0)

/-- FAULT_RECORD_WRITE (R287): the fault unit writes its oldest record, unless the ring is full, and then advances TAIL. -/
def execFaultRecordWrite (d : Nat) (s : State) : Out :=
  let x := s.die d
  match x.records with
  | [] => .next s
  | r :: rest =>
    if x.ring.2 ≤ (x.fqtail - x.fqhead).toNat then .next s
    else
      .next ((s.homeWrite (x.ring.1 + 64 * (x.fqtail.toNat % x.ring.2)) r).modDie d fun y =>
        { y with records := rest, fqtail := y.fqtail + 1 })

/-- FQHEAD_WRITE (R287): the service has consumed records, and those that wait for a place are written. -/
def execFqheadWrite (d : Nat) (v : Word) (s : State) : Out :=
  if s.dead then .next s
  else
  let n := (s.die d).records.length
  .next ((s.modDie d fun y => { y with fqhead := v }).atAll s.now (List.replicate n (.faultRecordWrite d)))

/-- The waiters of a group of a die (R286). -/
def State.waitersOf (s : State) (d : Nat) (token : Word) : List FaultWait :=
  s.faultWaits.filter fun f => dieOf f.core = d && f.token = some token

/-- A group closes (R286). -/
def State.closeGroup (s : State) (d : Nat) (token : Word) (res : Word) : State :=
  s.modDie d fun y => { y with groups := y.groups.filter fun g => g.token ≠ token, frstat := res }

/-- The group of a token is open (R289). -/
def State.openToken (s : State) (d : Nat) (token : Word) : Bool := (s.die d).groups.any fun g => g.token = token

/-- A reply that changes nothing but FRSTAT (R287, R289). -/
def State.badReply (s : State) (d : Nat) (res : Word) : State := s.modDie d fun y => { y with frstat := res }

/-- FRPLY_REPLAY (R289): the group closes, and its waiters become eligible 16 cycles later. -/
def execFrplyReplay (d : Nat) (token : Word) (s : State) : Out :=
  if s.dead then .next s
  else if s.openToken d token = false then .next (s.badReply d 1)
  else
    let ws := s.waitersOf d token
    let s1 : State :=
      { s.closeGroup d token 0 with
        faultWaits := s.faultWaits.map fun f => if dieOf f.core = d ∧ f.token = some token then { f with token := none, closing := true } else f }
    .next ((ws.foldl (fun (s : State) f => s.at_ (s.now + 16) (.parkedReplay f.id)) s1).admitFaults)

/-- A trap handler holds a split of the troupe: one that is not the handler's own issues only after tret (R390). -/
def Troupe.holds (t : Troupe) (uid : Nat) : Bool :=
  t.trapPc.isSome && !(t.allSplits.any fun p => p.uid = uid && p.handles)

/-- A parked instruction waits for no fault of its own: it parks beside the other one of its pair (R304). -/
def State.beside (s : State) (tid : Nat) (p : Parked) : Bool := !(s.faultWaits.any fun f => f.waiter = .instr tid p.uid)

/-- A troupe's parked instruction, if it holds one, may issue again (R289). While a handler runs it is returned, and issues again after
tret (R390). -/
def Troupe.unpark (t : Troupe) (uid now : Nat) : Troupe :=
  match t.parked.find? fun p => p.uid = uid with
  | none => t
  | some p =>
    { t.modSplit uid fun x => { x with redo := some (p.active, p.done), earliest := max x.earliest now } with
      parked := if t.holds uid then t.parked.filter fun q => q.uid ≠ uid
        else t.parked.map fun q => if q.uid = uid then { q with go := true } else q }

/-- A parked instruction may issue again for the lanes of ACTIVE that are not in DONE (R289), and with it the one that parks beside
it. -/
def State.replayInstr (s : State) (tid uid : Nat) : State :=
  s.modTroupe tid fun t =>
    (t.parked.filter fun q => q.uid = uid || s.beside tid q).foldl (fun t q => t.unpark q.uid s.now) t

/-- A parked copy goes on with its sectors that have not landed (R252, R289). -/
def State.replayCopy (s : State) (id : Nat) : State :=
  match s.copies.find? id with
  | none => s
  | some c =>
    (s.modCopy id fun x => { x with parked := false, sent := c.landed }).requestUnits id 65

/-- PARKED_REPLAY (R289): a waiter of a closed group issues, resumes or restarts. -/
def execParkedReplay (id : Nat) (s : State) : Out :=
  match s.faultWaits.find? fun f => f.id = id with
  | none => .next s
  | some f =>
    let s1 := ({ s with faultWaits := s.faultWaits.filter fun x => x.id ≠ id } : State).admitFaults
    .next (match f.waiter with
      | .instr t uid => s1.replayInstr t uid
      | .copy n => s1.replayCopy n
      | .ovld n =>
        match s1.ovlLoads.find? fun l => l.id = n with
        | none => s1
        | some l => s1.loadOvl l)

/-- The trap of a parked instruction whose fault is raised (R289, R386): it keeps DONE, and one that parks beside it is returned
unperformed. While a handler runs, it would trap, and is returned instead (R390). -/
def State.raiseInstr (s : State) (tid uid : Nat) (f : FaultWait) : Out :=
  match s.troupes.find? tid with
  | none => .next s
  | some t =>
    match t.parked.find? fun p => p.uid = uid, List.find? (fun (e : Nat × Split) => e.2.uid = uid) t.splits with
    | some p, some (k, _) =>
      if t.holds uid then .next ((s.dropFaults (.instr tid uid)).replayInstr tid uid)
      else
      let s1 := (s.dropFaults (.instr tid uid)).modTroupe tid fun t =>
        { t with parked := t.parked.filter fun q => q.uid ≠ uid && !s.beside tid q }
      s1.takeTrap tid k { cause := f.cause, info := f.reason + 256 * f.level + 65536 * f.acc, addr := f.va, done := p.done }
        { pc := p.pc, ilen := p.insn.length, insn := p.insn, active := p.active }
    | some _, none => .next (s.replayInstr tid uid)
    | _, _ => .next s

/-- The report of an overlay load whose fault is raised (R393): status 2, and a trap of its troupe; for a trap entry, the end of
its context (R390). -/
def State.raiseOvl (s : State) (n : Nat) (f : FaultWait) : Out :=
  match s.ovlLoads.find? fun l => l.id = n with
  | none => .next s
  | some l =>
    let ens := ((s.troupes.find? l.tid).map (·.ens)).getD 0
    let s1 := (({ s with ovlLoads := s.ovlLoads.filter fun x => x.id ≠ n } : State).dropFaults (.ovld n)).ovlDeliver l 2
    if l.dst.isNone then .next s1
    else s1.deliver l.tid ens l.ctx 0xFF l.pc.toNat f.cause f.reason f.level f.acc f.va

/-- Raise the fault of one waiter (R289). -/
def raiseWaiter (f : FaultWait) (s : State) : Out :=
  if (s.faultWaits.any fun x => x.id = f.id) = false then .next s
  else
    match f.waiter with
    | .instr t uid => s.raiseInstr t uid f
    | .copy n =>
      match s.copies.find? n with
      | none => .next (s.dropFaults f.waiter)
      | some c => s.reportCopy n c f.cause f.reason f.level f.va
    | .ovld n => s.raiseOvl n f

/-- FRPLY_RAISE (R289): the group closes; each waiting instruction traps, each waiting copy or ovld is reported. -/
def execFrplyRaise (d : Nat) (token : Word) (s : State) : Out :=
  if s.dead then .next s
  else if s.openToken d token = false then .next (s.badReply d 1)
  else andThen (forEach raiseWaiter (s.waitersOf d token) (s.closeGroup d token 0)) fun s1 => .next s1.admitFaults

end Sys2Proof.Machine
end

