-- ==== Sys2Proof/Machine/Stops.lean ====
section
/-! DEFINITION. Positions, switches and stops: the drain, the capture of troupe blocks, and the return of stopped ensembles (R290,
R317, R371, R387, R394 to R400). -/

namespace Sys2Proof.Machine

open Sys2Proof

/-! ### Positions -/

/-- The ensembles that hold resources of a core: all but those saved away from it. -/
def State.onCore (s : State) (core : Nat) : List (Nat × Ensemble) :=
  s.ensembles.filter fun e => e.2.core = core && e.2.pos != .saved true

/-- The context of a core's stage, and those in its wings (R394). -/
def Core.residents (c : Core) : List Nat := c.onStage.toList ++ c.wings

/-- A core puts another context on stage: its first instruction issues 32 to 96 cycles after the decision (R396). -/
def State.stageOn (s : State) (core c : Nat) : State :=
  (s.modCore core fun x =>
    { x.stage s.now (some c) with
      wings := (x.wings.filter (· ≠ c)) ++ x.onStage.toList.filter (· ≠ c), from_ := s.now + 32 + Config.pathCycles s.tick % 65 }).bump

/-- A core holds no copy of a context's format table any more: broadcasts and echoes on their way to it go nowhere (R159, R160). -/
def State.dropFmt (s : State) (core c : Nat) : State :=
  let s1 := s.modCore core fun x => { x with fts := x.fts.del c, echo := x.echo.filter fun e => e.1 ≠ c, fresh := x.fresh.filter fun f => f.ctx ≠ c }
  ({ s1 with agenda := s1.agenda.filter fun t => match t.ev with
      | .formatBroadcastApply d k _ _ _ => d ≠ c || k ≠ core
      | _ => true } : State).notePreload fun _ => true

/-- A context takes a position on a core (R394): what the core's L1 holds is older than the context's start or resumption there
(R317). -/
def State.enterCore (s : State) (core c : Nat) : State :=
  let x := s.core core
  if x.residents.contains c then s
  else
    let k := s.ctx c
    s.modCore core fun x =>
      { (if x.onStage.isNone then x.stage s.now (some c) else x) with
        wings := if x.onStage.isNone then x.wings else x.wings ++ [c]
        l1 := [], fts := x.fts.put c k.fmt, cues := x.cues.put c k.cues }

/-- A context that has no position on any core keeps what is left of its checkpoint interval (R402). -/
def State.pauseIntervals (s : State) (c : Nat) : State :=
  if s.ensembles.any fun e => e.2.ctx = c && e.2.pos != .saved true then s
  else
    let mine (t : Timed) : Bool := t.ev = .checkpointCut c && s.now + 1 < t.due
    match s.agenda.find? mine with
    | none => s
    | some t => ({ s with agenda := s.agenda.filter fun u => !mine u } : State).modCtx c fun x => { x with ckLeft := t.due - s.now }

/-- A context that has nothing left on a core gives its position up. -/
def State.leaveCore (s : State) (core c : Nat) : State :=
  if (s.onCore core).any fun e => e.2.ctx = c then s
  else
    let x := s.core core
    let s0 := (s.dropFmt core c).pauseIntervals c
    if x.onStage = some c then
      let s1 := s0.modCore core fun x => x.stage s.now none
      match x.wings with
      | [] => s1
      | d :: _ => s1.stageOn core d
    else s0.modCore core fun x => { x with wings := x.wings.filter (· ≠ c) }

/-- CONTEXT_SWITCH (R396): the stage manager brings a context from the wings onto the stage. -/
def execContextSwitch (core c : Nat) (s : State) : Out :=
  .next (if (s.core core).wings.contains c then s.stageOn core c else s)

/-- A troupe of a context on a core could issue now, were its context on stage (R80, R396). -/
def State.hasEligible (s : State) (core c : Nat) : Bool :=
  s.troupes.any fun t => (match s.ensembles.find? t.2.ens with
    | some e => e.core = core && e.ctx = c && e.pos = .resident
    | none => false) && t.2.splits.any fun x => t.2.ready x.2 && x.2.earliest ≤ s.now

/-- The last cycle in which a troupe of a context on a core could issue, as far as the core knows it: one of an issue, or the cycle before
its first on stage (R396). -/
def State.lastEligible (s : State) (core c : Nat) : Nat :=
  s.troupes.foldl (fun m t => match s.ensembles.find? t.2.ens with
    | some e => if e.core = core ∧ e.ctx = c then max m (t.2.selFree - 1) else m
    | none => m) ((s.core core).from_ - 1)

/-- AUTO_SWITCH (R396): with automatic switching enabled and nothing of the on-stage context eligible for 64 consecutive cycles, the next
context in the wings that has an eligible troupe takes the stage. -/
def execAutoSwitch (core : Nat) (s : State) : Out :=
  let x := s.core core
  if x.auto = false ∨ (match x.onStage with
    | some c => s.hasEligible core c || s.now < s.lastEligible core c + 64
    | none => false) = true then .next s
  else
    match x.wings.find? fun c => s.hasEligible core c with
    | none => .next s
    | some c => .next (s.stageOn core c)

/-! ### Waits for joins -/

/-- A split whose join condition holds acquires and goes on (R358). -/
def State.joinGo (s : State) (tid uid scope : Nat) : State :=
  if actsOn false true scope then
    let id := s.tick
    (s.modTroupe tid fun t => t.modSplit uid fun p => { p with wait := .cache id }).bump.startAct
      { id := id, tid := tid, uid := uid, scope := scope, release := false, acquire := true, regions := none, after := .nothing }
  else s.resume tid uid

/-- The troupes of an ensemble, in ascending number. -/
def State.troupesOf (s : State) (e : Nat) : List (Nat × Troupe) :=
  (List.range 16).flatMap fun k => s.troupes.filter fun t => t.2.ens = e && t.2.num = k

/-- The waits of an ensemble in join or park: troupe, split, mask and scope. -/
def State.joinsOf (s : State) (e : Nat) : List (Nat × Nat × Nat × Nat) :=
  (s.troupesOf e).flatMap fun t => t.2.allSplits.filterMap fun p => match p.wait with
    | .join mask scope _ => some (t.1, p.uid, mask, scope)
    | _ => none

/-- A group counter has changed: splits whose join holds go on; a saved ensemble becomes a placement request (R358). -/
def State.wakeJoins (s : State) (e : Nat) : State :=
  match s.ensembles.find? e with
  | none => s
  | some x =>
    if x.pos = .resident then
      ((s.joinsOf e).filter fun j => x.joined j.2.2.1).foldl (fun s j => s.joinGo j.1 j.2.1 j.2.2.2) s
    else s.at_ s.now (.ensemblePlacement (s.ctx x.ctx).part)

/-! ### The save area's blocks (R387) -/

/-- A register's 32-bit values, lane by lane. -/
def laneWords (n : Nat) (v : Vec) : List Byte := (List.range 128).flatMap fun i => natLE n (v.at_ i).toNat

/-- The words of an instruction at a program counter of an ensemble. -/
def State.wordsAt (s : State) (e : Ensemble) (pc : Word) : List Byte :=
  let b := (s.codeAt e.core e.ctx pc).getD []
  (b.take (lengthOf (b.headD 0)) ++ zeros 20).take 20

/-- A parked instruction (R387). -/
def State.parkedBytes (s : State) (e : Ensemble) (p : Option Parked) : List Byte :=
  match p with
  | none => zeros 128
  | some q => natLE 4 q.pc.toNat ++ zeros 12 ++ natLE 16 q.active.toNat ++ natLE 16 q.done.toNat ++ s.wordsAt e q.pc ++ zeros 60

/-- The copies of a troupe's open batch (R257). -/
def State.openBatch (s : State) (tid : Nat) (t : Troupe) : Nat :=
  (s.copies.filter fun c => c.2.tid = tid && c.2.batch = t.batch + 1).length

/-- Bytes 0x1000 to 0x5E1F of a troupe's block (R387). -/
def State.blockBytes (s : State) (e : Ensemble) (tid : Nat) (t : Troupe) : List Byte :=
  ((List.range 8).flatMap fun k => match t.splits.find? k with
    | some p => splitBytes p
    | none => zeros 1024)
  ++ ((List.range 8).flatMap fun k => match t.splits.find? k with
    | some p => shadowBlock p
    | none => zeros 64)
  ++ ((List.range 8).flatMap fun n => laneWords 4 (t.vec (.o n)))
  ++ ((List.range 4).flatMap fun n => laneWords 2 (t.vec (.x n)))
  ++ laneWords 4 (t.vec .latI) ++ laneWords 4 (t.vec .latV) ++ laneWords 4 (t.vec .gen) ++ predBytes t
  ++ (([t.tstat, t.srseed, t.qstat] ++ (List.range 4).map fun k => t.xb.getD k 0).flatMap fun w => natLE 4 w.toNat)
  ++ natLE 4 t.forkCtr.toNat ++ natLE 4 t.batch.toNat ++ natLE 4 (s.openBatch tid t) ++ natLE 4 t.stack.length
  ++ natLE 4 t.stackHead ++ zeros 80
  ++ s.parkedBytes e t.parked[0]? ++ s.parkedBytes e t.parked[1]?
  ++ ((List.range 8).flatMap fun n => laneWords 4 (t.vec (.so n)))
  ++ ((List.range 8).flatMap fun n => natLE 4 (t.ss.get n).toNat)

/-- Write a troupe's block: its image, and the lane shadow data of its resident splits (R387, R388). -/
def State.writeBlock (s : State) (e : Ensemble) (tid : Nat) (t : Troupe) : State :=
  let base := blockBase (s.ctx e.ctx) t.block
  t.splits.foldl (fun s x => (lanesOf x.2.mask).foldl (fun s i =>
      if shadowSlot x.2 i = [] then s else s.homeWrite (base + 0x30000 + 1024 * i) (shadowSlot x.2 i)) s)
    (s.homeWrite (base + 0x1000) (s.blockBytes e tid t))

/-! ### Stops -/

/-- A stop of one member of a co-operative group stops the group (R397). -/
def State.wholeGroups (s : State) (es : List Nat) : List Nat :=
  distinct (es.flatMap fun e => match s.ensembles.find? e with
    | some x => if x.group = [] then [e] else x.group
    | none => [])

/-- The waits of a stopped ensemble end; a join or park stays saved waiting (R398). -/
def State.endWaits (s : State) (e : Nat) : State :=
  (s.troupesOf e).foldl (fun s t => t.2.allSplits.foldl (fun s p => match p.wait with
    | .join _ _ _ => s
    | _ => s.endWait t.1 p.uid) s) s

/-- A swap-back read in flight is abandoned (R398). -/
def Troupe.abandonRead (t : Troupe) : Troupe :=
  { t with stack := t.coming.map (·.2) ++ t.stack, coming := [], stackHead := (t.stackHead + 120 - t.coming.length % 120) % 120 }

/-- Pending cue actions of some troupes fire at once, late (R371): a cuewait's wait ends with the stop, and its action is over. -/
def State.fireLate (s : State) (core : Nat) (tids : List Nat) : State :=
  ((s.core core).acts.filter fun a => tids.contains a.tid).foldl (fun s a => match a.kind with
    | .wait _ => s.lateMark { a with late := true }
    | .touch _ _ => s.fireAt core a s.now true
    | .arr _ _ _ _ => s.fireAt core a s.now true
    | .guard _ _ => s.fireAt core a s.now true
    | .start _ => s.fireAt core a s.now true) s

/-- Copies of an ensemble are recorded as they stand, without their locks (R253), and nothing of them is on its way. -/
def State.recordCopies (s : State) (e : Nat) : State :=
  (s.copies.filter fun c => c.2.ens = e).foldl (fun s c =>
    (((s.modCopy c.1 fun x => { x with parked := true }).modCore (s.copyCore c.2) (·.unlock c.1)).dropFaults (.copy c.1)).recallUnits c.1) s

/-- Overlay loads of some troupes are abandoned (R74): they restart after the stop. Loads that wait for one of their copies look again
(log entry 90). -/
def State.recordLoads (s : State) (tids : List Nat) : State :=
  let mine := s.ovlLoads.filter fun l => tids.contains l.tid
  let others := s.ovlLoads.filter fun l => !tids.contains l.tid && l.slot.isNone && mine.any fun m =>
    m.slot.isSome && m.core = l.core && m.ctx = l.ctx && m.ovl = l.ovl
  let s1 := s.dropFills mine
  let s2 := mine.foldl (fun s l => s.dropFaults (.ovld l.id))
    { s1 with
      ovlLoads := s1.ovlLoads.map fun l => if tids.contains l.tid then { l with slot := none } else l
      agenda := s1.agenda.filter fun t => match t.ev with
        | .ovldCopyComplete n => !(mine.any fun l => l.id = n)
        | _ => true }
  others.foldl (fun s l => s.at_ s.now (.ovldCopyComplete l.id)) s2

/-- One ensemble stops (R397, R398): nothing of it issues after this cycle, and its capture follows the freeze. -/
def State.stopOne (s : State) (e : Nat) (park : Bool) : State :=
  match s.ensembles.find? e with
  | none => s
  | some x =>
    if x.pos ≠ .resident then s
    else
      let tids := (s.troupesOf e).map (·.1)
      let s1 := tids.foldl (fun (s : State) t => s.modTroupe t Troupe.abandonRead) ((s.fireLate x.core tids).endWaits e)
      let s2 := (s1.recordCopies e).recordLoads tids
      let s3 := tids.foldl (fun (s : State) t =>
        { s with
          faultWaits := s.faultWaits.filter fun f => match f.waiter with
            | .instr u _ => u ≠ t
            | .copy _ => true
            | .ovld _ => true
          requests := s.requests.filter fun r => r.tid ≠ t }) s2
      ((s3.admitFaults.modEns e fun x => { x with pos := .stopped park }).bump).at_ (s.now + 76 + Config.pathCycles s3.tick) (.captureComplete e)

/-- A stop of a set of ensembles, with the groups they belong to (R397). -/
def State.stopAll (s : State) (es : List Nat) (park : Bool) : State :=
  (s.wholeGroups es).foldl (fun s e => s.stopOne e park) s

/-- Arms that the desk still holds, or that are on their way to it, are applied before the cues are saved (R371). -/
def State.settleArms (s : State) (c : Nat) : State :=
  let sent := s.agenda.filterMap fun t => match t.ev with
    | .cuearmAtDesk _ d cue _ clear => if d = c then some (cue, clear) else none
    | _ => none
  let put (s : State) (cue : Nat) (clear : Bool) : State := s.modCtx c fun x =>
    { x with cues := x.cues.set cue (if clear then cueEntry false (x.cues.get cue).toNat else cueEntry true (s.cycles x.part)), arms := x.arms.del cue }
  let s1 : State := (s.ctx c).arms.foldl (fun s a => put s a.1 a.2.clear) s
  let s2 : State := sent.foldl (fun s a => put s a.1 a.2) s1
  { s2 with agenda := s2.agenda.filter fun t => match t.ev with
      | .cuearmAtDesk _ d _ _ _ => d ≠ c
      | _ => true }

/-- The ensembles of a context. -/
def State.ensOf (s : State) (c : Nat) : List Nat := (s.ensembles.filter fun e => e.2.ctx = c).map (·.1)

/-- The queues of a stopped context give up their slots (R362): a launch that has not started is forgotten, to be read again. -/
def State.unmapQueues (s : State) (c : Nat) : State :=
  (s.queuesOf c).foldl (fun (s : State) q =>
    let x := s.queue q
    if x.slot.isNone then s
    else
      let s1 := if s.qGet q 0x20 1 = 2 then s.qPut q 0x20 1 1 else s
      { s1 with launches := match x.head with
          | some n => s1.launches.del n
          | none => s1.launches }
        |>.modQueue q fun y => { y with slot := none, busy := false, head := none }) s

/-- A context as a whole is stopped: its queues are unmapped, and also the productions in spawn buffers go to its green room (R362, R371). -/
def State.stopContext (s : State) (c : Nat) (park : Bool) : State :=
  let s1 := (s.modCtx c fun x => { x with stopped := true }).settleArms c
  let s2 : State :=
    { s1 with prods := s1.prods.map fun p =>
        (p.1, match p.2.place with
          | .buffer _ => if s1.prodCtx p.2 = c then { p.2 with place := .green } else p.2
          | .admission _ => if s1.prodCtx p.2 = c then { p.2 with place := .green } else p.2
          | .green => p.2
          | .placed => p.2) }
  let s3 := if (s2.greenOf c).length = (s.greenOf c).length then s2 else s2.writeGreen c
  (s3.unmapQueues c).stopAll (s3.ensOf c) park

/-- The contexts all of whose ensembles a set holds. -/
def State.wholeContexts (s : State) (es : List Nat) : List Nat :=
  (s.contexts.map (·.1)).filter fun c => s.ensOf c ≠ [] && (s.ensOf c).all es.contains

/-- STOP (R397): a set that holds every ensemble of a context stops the context; a stop that parks needs an image to save to
(R404). -/
def execStop (es : List Nat) (park : Bool) (s : State) : Out :=
  let set := s.wholeGroups es
  let bad := (distinct (set.filterMap fun e => (s.ensembles.find? e).map (·.ctx))).filterMap fun c =>
    if park then (s.saveBar c).map fun i => (c, i) else none
  match bad with
  | (c, i) :: _ => .next (s.cannotSave c i)
  | [] =>
    let whole := s.wholeContexts set
    let s1 := whole.foldl (fun s c => s.stopContext c park) s
    .next (s1.stopAll set park)

/-- Everything that a stopped ensemble issued is complete (R400): no result, write, landing, cue action or matrix work of it is
outstanding, and no write of its context's format table is under way (R162). -/
def State.captured (s : State) (e : Nat) (x : Ensemble) : Bool :=
  ((s.troupesOf e).all fun t =>
    (t.2.pend.all fun p => s.ovlLoads.any fun l => l.dst = some p.id) && t.2.unacked = [] && t.2.allSplits.all fun p => p.landings = [])
  && !((s.core x.core).mats.any fun m => m.ens = e) && !(s.fmtFlying fun c _ => c = x.ctx)
  && !((s.core x.core).acts.any fun a => (s.troupesOf e).any fun t => t.1 = a.tid)

/-- CAPTURE_COMPLETE (R400): the troupe blocks are written. A parked ensemble leaves its core; the engine saves it, or, with its whole
context stopped, cuts the context once every ensemble is captured (R402, R404). -/
def execCaptureComplete (e : Nat) (s : State) : Out :=
  match s.ensembles.find? e with
  | none => .next s
  | some x =>
    match x.pos with
    | .stopped park =>
      let alone : Bool := park && !(s.ctx x.ctx).stopped
      if s.captured e x = false ∨ (alone && (s.cutting.find? x.ctx).isSome) = true then .next (s.at_ (s.now + 1) (.captureComplete e))
      else
        let s1 := (s.troupesOf e).foldl (fun s t => s.writeBlock x t.1 t.2) s
        let s2 := s1.modEns e fun x => { x with pos := .saved park }
        let s3 := if park then (s2.leaveCore x.core x.ctx).at_ s.now (.ensemblePlacement (s.ctx x.ctx).part) else s2
        let done := (s3.ensOf x.ctx).all fun k => match s3.ensembles.find? k with
          | some y => match y.pos with
            | .saved _ => true
            | _ => false
          | none => true
        .next (if alone then s3.saveSet x.ctx e
          else if (s3.ctx x.ctx).stopped = true ∧ done = true then s3.at_ s.now (.checkpointCut x.ctx) else s3)
    | .resident => .next s
    | .saved _ => .next s

/-! ### Return -/

/-- A copy goes on after a stop: its ranges are registered again and its units that have not landed move (R253); an sfill or opld
starts again from its first byte (R230, R398). -/
def State.resumeCopy (s : State) (id : Nat) (c : Copy) : State :=
  match c.started with
  | none => s.modCopy id fun x => { x with parked := false }
  | some _ =>
    let s1 := (s.modCopy id fun x => { x with parked := false, started := some s.now }).registerCopy id c
    match c.kind with
    | .sfill _ len _ => s1.at_ (s.now + 4 + len / 128) (.sfillComplete id)
    | .opld _ _ _ _ len => s1.at_ (s.now + 4 + len / c.rate) (.opldComplete id)
    | .window _ => s1.replayCopy id
    | .sgath _ _ _ => s1.replayCopy id

/-- The entries of the range-lock table that the copies in flight of an ensemble register again (R253). -/
def State.relocks (s : State) (e : Nat) : Nat :=
  ((s.copies.filter fun c => c.2.ens = e && c.2.started.isSome && !s.copyLocked c.1 c.2).map fun c => (s.copyLocks c.1 c.2).length).sum

/-- A stopped ensemble goes on, on the core where it stands (R95, R253, R290, R317): the core's L1 is invalidated first. No instruction of
it issues before its copies in flight have their ranges in the core's table again, so that it waits for room there. -/
def State.wakeEnsemble (s : State) (e : Nat) : State :=
  match s.ensembles.find? e with
  | none => s
  | some x =>
    if !(s.core x.core).lockRoom (s.relocks e) then
      (s.modEns e fun x => { x with pos := .saved false }).at_ (s.now + 1) (.resumption x.ctx)
    else
    let s0 := (s.modCore x.core fun c => { c with l1 := [] }).modEns e fun x => { x with pos := .resident }
    let s1 := (s0.copies.filter fun c => c.2.ens = e).foldl (fun s c => s.resumeCopy c.1 c.2) s0
    let s2 := (s1.troupesOf e).foldl (fun s t =>
      (t.2.parked.foldl (fun s p => s.replayInstr t.1 p.uid) s).at_ s.now (.copyStart t.1)) s1
    let s3 := (s2.ovlLoads.filter fun l => (s2.troupesOf e).any fun t => t.1 = l.tid).foldl
      (fun s l => ({ s with ovlLoads := s.ovlLoads.filter fun y => y.id ≠ l.id } : State).loadOvl { l with core := x.core, id := l.id }) s2
    let s4 := (s3.troupesOf e).foldl (fun s t => ((s.reorder t.1).at_ s.now (.splitSwapBack t.1)).settle t.1 s.now) s3
    s4.wakeJoins e

/-- Every overlay of a context is absent (R70). -/
def State.dropOverlays (s : State) (c : Nat) : State :=
  { s with cores := s.cores.map fun k => (k.1, k.2.dropOverlays c) }

end Sys2Proof.Machine
end

