-- ==== Sys2Proof/Machine/Launch.lean ====
section
/-! DEFINITION. The front ends: queues and packets (R332 to R342), launches and productions from start to completion (R343 to R346), and
energy admission (R348). -/

namespace Sys2Proof.Machine

open Sys2Proof

/-! ### Queue slots -/

/-- A queue is a system queue (R332). -/
def State.qSys (s : State) (q : Nat) : Bool := bitOf (s.qGet q 0x22 1) 0

/-- The highest level that a queue may reach (R349). -/
def State.qTop (s : State) (q : Nat) : Nat := if s.qSys q then 23 else 19

/-- STATE of a queue (R332). -/
def State.qState (s : State) (q : Nat) : Nat := s.qGet q 0x20 1

/-- Every written packet of a queue has started. -/
def State.qEmpty (s : State) (q : Nat) : Bool := s.qGet q 0x10 8 = s.qGet q 0x18 8

/-- What is wrong with a queue's descriptor (R334): ERR and ERRADDR, the lowest code first. -/
def State.descError (s : State) (q : Nat) : Option (Nat × Nat) :=
  let ring := s.qGet q 0 8
  let log := s.qGet q 8 1
  let part := s.qGet q 0x0B 1
  let t := targetOf ring
  if bvField (BitVec.ofNat 8 (s.qGet q 0x22 1)) 7 1 ≠ 0 ∨ s.qGet q 0x23 5 ≠ 0 ∨ s.qGet q 0x30 16 ≠ 0 ∨ 2 ^ 20 ≤ s.qGet q 0x0C 4 then
    some (1, s.qDesc q)
  else if 2 ^ 52 ≤ ring ∨ (t ≠ .device ∧ t ≠ .host) ∨ (t = .device ∧ s.backed ring = false) ∨ ring % 64 ≠ 0 then some (3, ring)
  else if log < 4 ∨ 16 < log ∨ (s.parts.find? part).isNone ∨ (s.ctxNamed part (s.qGet q 0x0C 4)).isNone
      ∨ s.qTop q < s.qGet q 9 1 then some (4, s.qDesc q)
  else none

/-- The dies of a partition, lowest first. -/
def State.diesOf (s : State) (part : Nat) : List Nat := (List.range 12).filter fun d => s.partOf.getD d 0 = part

/-- The lowest free slot of a die (R333). -/
def State.freeSlot (s : State) (d : Nat) : Option Nat :=
  (List.range 128).find? fun k => !(s.queues.any fun q => q.2.slot = some (d, k))

/-- A free slot of the lowest-numbered die of a partition that has one (R333). -/
def State.slotFor (s : State) (part : Nat) : Option (Nat × Nat) :=
  (s.diesOf part).findSome? fun d => (s.freeSlot d).map fun k => (d, k)

/-- Queues that are enabled and hold no slot look for one (R333). -/
def State.remap (s : State) : State :=
  (s.queues.filter fun q => q.2.slot.isNone && s.qState q.1 = 1 && !s.qEmpty q.1).foldl (fun s q => s.at_ s.now (.queueMap q.1)) s

/-- A mapped queue of a partition that gives up its slot for another: every written packet of it has started (R333). -/
def State.idleQueue (s : State) (part : Nat) : Option Nat :=
  (List.find? (fun (q : Nat × Queue) => q.2.slot.isSome && !q.2.busy && q.2.head.isNone && !q.2.preload && s.qGet q.1 0x0B 1 = part && s.qEmpty q.1) s.queues).map (·.1)

/-- Where packet `k` of a queue lies (R332). -/
def State.packetAt (s : State) (q k : Nat) : Nat := s.qGet q 0 8 + 64 * (k % 2 ^ s.qGet q 8 1)

/-- The bytes of packet `k` of a queue. -/
def State.packet (s : State) (q : Nat) (k : Nat) : List Byte := s.peek (s.packetAt q k) 64

/-- The event of a packet's TYPE (R335). -/
def packetEvent (ty q : Nat) : Option Ev :=
  match ty with
  | 1 => some (.launchPacket q)
  | 2 => some (.waitPacket q)
  | 3 => some (.signalPacket q)
  | 4 => some (.nopPacket q)
  | 5 => some (.formatPreloadPacket q)
  | _ => none

/-- A field of a packet. -/
def pf (b : List Byte) (off n : Nat) : Nat := leNat ((b.drop off).take n)

/-- A queue that software has disabled leaves its slot (R333): a launch at its head that has not started is forgotten; its level is that
of its PRIO when it is enabled again (R349). -/
def State.disable (s : State) (q : Nat) : State :=
  let x := s.queue q
  ({ s with launches := match x.head with
      | some n => s.launches.del n
      | none => s.launches } : State).modQueue q fun y => { y.leave with level := 0, preload := y.preload }

/-- The front end goes on with the packet at the head of a mapped queue, once the order rules let it (R337): the read of the packet leaves
after some cycles, which R378 gives for a doorbell, and takes the time of its path (R351; log entry 94). -/
def State.pump (s : State) (q : Nat) (lead : Nat := Config.pathCycles s.tick) : State :=
  let x := s.queue q
  if x.slot.isNone then s
  else if s.qState q = 0 then (s.disable q).remap
  else if x.busy ∨ x.head.isSome ∨ x.preload then s
  else if s.qEmpty q then s.remap
  else if s.qState q ≠ 2 then s
  else
    let k := s.qGet q 0x18 8
    let b := s.packet q k
    match packetEvent (pf b 0 2 % 16) q with
    | none => (s.queueError q 1 k).remap
    | some e =>
      if bitOf (pf b 0 2) 4 ∧ x.inFlight ≠ [] then s
      else
        let pa := s.packetAt q k
        let r := readMax (hubOf ((x.slot.map (·.1)).getD 0)) [pa, pa + 32] (s.modQueue q fun y => { y with busy := true }).bump
        r.1.at_ (s.now + lead + r.2) e

/-- The context of a queue is stopped as a whole: its queues are mapped again once it goes on (R362). -/
def State.qStopped (s : State) (q : Nat) : Bool :=
  match s.ctxNamed (s.qGet q 0x0B 1) (s.qGet q 0x0C 4) with
  | some c => (s.ctx c).stopped
  | none => false

/-- QUEUE_MAP (R333): an enabled queue with a packet that has not started takes a slot. One that software has enabled again while it
held its slot goes on there, at its PRIO (R349). -/
def execQueueMap (q : Nat) (s : State) : Out :=
  if (s.queue q).slot.isSome then
    .next (if s.qState q = 1 then ((s.qPut q 0x20 1 2).modQueue q fun y => { y with level := s.qGet q 9 1 }).pump q 12 else s.pump q 12)
  else if s.qState q ≠ 1 ∨ s.qEmpty q ∨ s.qStopped q then .next s
  else
    match s.descError q with
    | some (e, a) => .next (s.queueError q e a)
    | none =>
      let part := s.qGet q 0x0B 1
      let take (s : State) (x : Nat × Nat) : State :=
        (((s.qPut q 0x20 1 2).modQueue q fun y => { y with slot := some x, level := if y.since.isNone then s.qGet q 9 1 else max y.level (s.qGet q 9 1) }).pump q 12)
      match s.slotFor part with
      | some x => .next (take s x)
      | none =>
        match s.idleQueue part with
        | none => .next s
        | some r =>
          let s1 := (s.qPut r 0x20 1 1).modQueue r Queue.leave
          match s1.slotFor part with
          | some x => .next (take s1 x)
          | none => .next s1

/-- DOORBELL (R441): a ring of a queue in STATE 0 or 4 is ignored; a waiting queue is evaluated again (R338). -/
def execDoorbell (q : Nat) (s : State) : Out :=
  let st := s.qState q
  if s.dead ∨ st = 0 ∨ st = 4 ∨ 65536 ≤ q then .next s
  else if st = 3 then .next (s.at_ s.now (.waitPacketReevaluate q))
  else .next (s.at_ s.now (.queueMap q))

/-! ### Packets -/

/-- The front end's translation (R334): the physical address, if the page is writable and, unless the queue is a system queue, open
to the user level. -/
def State.feTranslate (s : State) (c : Context) (sys : Bool) (va : Nat) : Option Nat :=
  let top := 32768 * bvField c.ptbr 51 15
  if 2 ^ 60 ≤ va ∨ targetOf top ≠ .device ∨ s.backed top = false then none
  else
    match s.walkFrom c.ctxid.toNat va 4 top [] with
    | .error _ => none
    | .ok (t, _) =>
      let pa := t.pa + va % 2 ^ levelShift t.level
      if t.write && (sys || t.user) && s.backed pa then some pa else none

/-- The bytes of a packet that no column of R335 names are zero, and so are the reserved bits of its header. -/
def packetReserved (b : List Byte) : Bool :=
  let hdr := pf b 0 2
  field hdr 15 11 = 0
  && (match hdr % 16 with
      | 1 => pf b 0x07 1 = 0 && pf b 0x06 1 / 2 = 0
      | 2 => pf b 3 5 = 0 && pf b 0x18 40 = 0
      | 3 => pf b 3 5 = 0 && pf b 0x18 40 = 0
      | 4 => pf b 2 62 = 0
      | _ => pf b 4 4 = 0 && (b.drop (8 + 8 * pf b 3 1)).all (· = 0))

/-- A range record (R341): its first byte, its length and whether the launch writes it; none for an unused one. -/
def rangeOf (r : DWord) : Option (Nat × Nat × Bool) :=
  let unit := match bvField r 63 62 with
    | 0 => 2 ^ 12
    | 1 => 2 ^ 21
    | _ => 2 ^ 30
  if bvField r 63 62 = 3 then none
  else some (4096 * bvField r 47 0, unit * (bvField r 60 48 + 1), bitOf r.toNat 61)

/-- A range record within its limits (R341). -/
def rangeOk (r : DWord) : Bool :=
  match rangeOf r with
  | none => bvField r 61 0 = 0
  | some (lo, n, _) => lo + n ≤ 2 ^ 60 && lo % (n / (bvField r 60 48 + 1)) = 0

/-- The range records of a launch packet. -/
def packetRanges (b : List Byte) : List DWord := (List.range 4).map fun k => BitVec.ofNat 64 (pf b (0x20 + 8 * k) 8)

/-- A packet's fields are within their limits (R335, R341). -/
def packetLimits (b : List Byte) : Bool :=
  let hdr := pf b 0 2
  let acq := field hdr 7 5
  let rel := field hdr 10 8
  match hdr % 16 with
  | 1 =>
    acq ≤ 5 && rel ≤ 5 && 1 ≤ pf b 2 1 && pf b 2 1 ≤ 32 && pf b 3 1 ≤ 64 && pf b 4 2 ≤ 2048 && field (pf b 8 4) 31 28 = 0
    && field (pf b 8 4) 1 0 = 0 && pf b 0x10 8 % 64 = 0 && pf b 0x18 8 % 8 = 0 && (packetRanges b).all rangeOk
  | 2 => acq ≤ 5 && rel ≤ 5 && 1 ≤ pf b 2 1 && pf b 2 1 ≤ 6 && pf b 8 8 % 8 = 0
  | 3 => acq ≤ 5 && rel ≤ 5 && pf b 2 1 ≤ 3 && pf b 8 8 % 8 = 0
  | 4 => acq = 0 && rel = 0
  | _ => acq = 0 && rel = 0 && 16 ≤ pf b 2 1 && pf b 2 1 ≤ 63 && 1 ≤ pf b 3 1 && pf b 3 1 ≤ 7 && pf b 2 1 + pf b 3 1 ≤ 64

/-- The virtual addresses that a packet names and R334 checks. -/
def packetVas (b : List Byte) : List Nat :=
  match pf b 0 2 % 16 with
  | 1 => (if pf b 0x18 8 = 0 then [] else [pf b 0x18 8]) ++ [pf b 0x10 8]
  | 2 => [pf b 8 8]
  | 3 => [pf b 8 8]
  | _ => []

/-- What is wrong with a packet (R334): ERR and ERRADDR. -/
def State.packetError (s : State) (q k : Nat) (c : Context) (b : List Byte) : Option (Nat × Nat) :=
  if packetReserved b = false then some (1, k)
  else if packetLimits b = false then some (2, k)
  else ((packetVas b).find? fun va => (s.feTranslate c (s.qSys q) va).isNone).map fun va => (3, va)

/-- The packet at the head of a mapped queue, if it has the TYPE of an event and may start (R337): its index, its bytes and its
context; or what to do instead. -/
inductive Head where
  | none (s : State)
  | packet (k : Nat) (b : List Byte) (c : Nat) (s : State)

/-- Look at the head of a queue for an event of a TYPE. -/
def State.headOf (s : State) (q ty : Nat) : Head :=
  let s0 := s.modQueue q fun x => { x with busy := false }
  let x := s0.queue q
  let k := s0.qGet q 0x18 8
  let b := s0.packet q k
  if x.slot.isNone ∨ x.head.isSome ∨ x.preload ∨ s0.qState q ≠ 2 ∨ s0.qEmpty q ∨ pf b 0 2 % 16 ≠ ty
      ∨ (bitOf (pf b 0 2) 4 = true ∧ x.inFlight ≠ []) then .none s0
  else
    match s0.ctxNamed (s0.qGet q 0x0B 1) (s0.qGet q 0x0C 4) with
    | none => .none (s0.queueError q 4 (s0.qDesc q)).remap
    | some c =>
      match s0.packetError q k (s0.ctx c) b with
      | some (e, a) => .none (s0.queueError q e a).remap
      | none => .packet k b c s0

/-- RDIDX advances when a packet starts (R337). -/
def State.started (s : State) (q k : Nat) : State := s.qPut q 0x18 8 (k + 1)

/-- The die on which a queue is mapped. -/
def State.qDie (s : State) (q : Nat) : Nat := ((s.queue q).slot.map (·.1)).getD 0

/-- Two byte ranges overlap. -/
def rangesMeet (a b : Nat × Nat × Bool) : Bool := a.1 < b.1 + b.2.1 && b.1 < a.1 + a.2.1

/-- The dependence of a launch's ranges on those of an earlier one (R342): none, or whether it lasts until that one completes. -/
def dependence (l e : List DWord) : Option Bool :=
  let pairs := (l.filterMap rangeOf).flatMap fun a => (e.filterMap rangeOf).filterMap fun b =>
    if rangesMeet a b ∧ (a.2.2 = true ∨ b.2.2 = true) then some (a.2.2) else none
  if pairs = [] then none else some (pairs.any id)

/-- A launch uses a range (R341). -/
def usesRanges (l : List DWord) : Bool := l.any fun r => (rangeOf r).isSome

/-- Entries of a die's hazard matcher that are in use (R342). -/
def State.matcherUse (s : State) (d : Nat) : Nat := (s.launches.filter fun l => l.2.die = d && usesRanges l.2.ranges).length

/-- LAUNCH_PACKET (R337, R342): the launch enters the hazard matcher at its first start attempt. -/
def execLaunchPacket (q : Nat) (s : State) : Out :=
  match s.headOf q 1 with
  | .none s1 => .next s1
  | .packet k b c s1 =>
    let ranges := packetRanges b
    let d := s1.qDie q
    let hdr := pf b 0 2
    if usesRanges ranges ∧ 256 ≤ s1.matcherUse d then .next s1
    else
      let n := s1.tick
      let deps := if usesRanges ranges = false then [] else
        s1.launches.filterMap fun e => if e.2.ctx = c then (dependence ranges e.2.ranges).map fun f => (e.1, f) else none
      let l : Launch :=
        { seq := 0, spawns := 0, ctx := c, queue := q, index := k, die := d, counter := 0, regs := 8 * pf b 2 1, scalars := pf b 3 1,
          stage := 256 * pf b 4 2, seedProd := bitOf (pf b 6 1) 0, entry := BitVec.ofNat 32 (pf b 8 4), energy := pf b 0x0C 4,
          args := BitVec.ofNat 64 (pf b 0x10 8), sig := BitVec.ofNat 64 (pf b 0x18 8), acq := field hdr 7 5,
          rel := field hdr 10 8, wide := max (field hdr 7 5) (s1.queue q).acq, ranges := ranges, deps := deps, admitted := false,
          started := false, hasProducer := bitOf (pf b 6 1) 0, triggered := false }
      let s2 : State := ({ s1 with launches := s1.launches.put n l } : State).bump
      .next ((s2.modQueue q fun x => { x with head := some n }).at_ s.now (.launchStart n))

/-- Every dependence of a launch has been resolved (R342). -/
def State.resolved (s : State) (l : Launch) : Bool :=
  l.deps.all fun d => match s.launches.find? d.1 with
    | none => true
    | some e => !d.2 && e.triggered

/-- Spawn-tree counters of a die that are in use (R344). -/
def State.countersUsed (s : State) (d : Nat) : Nat := (s.launches.filter fun l => l.2.die = d && l.2.started).length

/-- A queue has a placement request that waits (R349). -/
def State.noteRequest (s : State) (q : Nat) : State :=
  if (s.queue q).since.isSome then s
  else (s.modQueue q fun x => { x with since := some s.now }).at_ (s.now + 4194304) (.priorityAging q)

/-- The root production of a launch (R343, R345). -/
def Launch.root (l : Launch) (n : Nat) : Prod :=
  { launch := n, index := 0, depth := 1, from_ := none, parent := none, troupes := 1, regs := l.regs, scalars := l.scalars,
    stage := l.stage, acq := l.wide, rel := l.rel, coop := false, producer := l.seedProd, entry := l.entry, args := l.args,
    gx := 1, gy := 1, gz := 1, energy := 0, place := .placed, admitted := true, next := 0, ended := 0, trigs := 0, children := 0, origin := l.die,
    retiring := false }

/-- LAUNCH_START (R337, R342, R344, R348): with its dependences resolved, its estimate admitted and a counter free, the launch
starts, and its seed is a placement request. -/
def execLaunchStart (n : Nat) (s : State) : Out :=
  match s.launches.find? n with
  | none => .next s
  | some l =>
    let part := (s.ctx l.ctx).part
    if l.started ∨ s.resolved l = false then .next s
    else if s.qState l.queue = 0 then .next (s.disable l.queue).remap
    else
      match (if l.admitted then some s else s.admission part l.energy) with
      | none => .next s
      | some s1 =>
        let s2 := s1.modLaunch n fun x => { x with admitted := true }
        if 256 ≤ s2.countersUsed l.die then .next s2
        else
          let s3 := (s2.modLaunch n fun x => { x with started := true, counter := 1, seq := (s2.ctx l.ctx).launched }).modCtx l.ctx
            fun x => { x with launched := x.launched + 1 }
          let s4 : State := ({ s3 with prods := s3.prods.put s3.tick (l.root n) } : State).bump
          let s5 := (s4.started l.queue l.index).modQueue l.queue fun x => { x with head := none, inFlight := x.inFlight ++ [n] }
          .next (((s5.noteRequest l.queue).at_ s.now (.ensemblePlacement part)).pump l.queue)

/-- The read of a sync word by the front end (R338), at system scope from the stack, and whether a condition on it holds. -/
def State.waitHolds (s : State) (acq cond : Nat) (value : DWord) (pa : Nat) : State × Bool :=
  let s1 := s.syncRead acq pa
  (s1.bump, acqHolds cond (leNat (s1.peek pa 8)) value.toNat)

/-- A wait packet completes (R338): later launches of the queue acquire at its scope. -/
def State.waited (s : State) (q acq : Nat) : State :=
  s.modQueue q fun x => { x with acq := max x.acq acq, waiting := none }

/-- WAIT_PACKET (R338): a condition that does not hold puts the queue into STATE 3, without its slot. -/
def execWaitPacket (q : Nat) (s : State) : Out :=
  match s.headOf q 2 with
  | .none s1 => .next s1
  | .packet k b c s1 =>
    match s1.feTranslate (s1.ctx c) (s1.qSys q) (pf b 8 8) with
    | none => .next s1
    | some pa =>
      let acq := field (pf b 0 2) 7 5
      let value := BitVec.ofNat 64 (pf b 0x10 8)
      let r := (s1.started q k).waitHolds acq (pf b 2 1) value pa
      if r.2 then .next ((r.1.waited q acq).pump q)
      else
        let s2 := (r.1.qPut q 0x20 1 3).modQueue q fun x =>
          { x.leave with waiting := some pa, cond := pf b 2 1, value := value, wacq := acq }
        .next (s2.remap.at_ (s.now + 65536) (.waitPacketReevaluate q))

/-- WAIT_PACKET_REEVALUATE (R338): the condition again, after a signal, a doorbell, or 65,536 cycles. -/
def execWaitPacketReevaluate (q : Nat) (s : State) : Out :=
  let x := s.queue q
  match x.waiting with
  | none => .next s
  | some pa =>
    if s.qState q = 0 then .next (s.modQueue q fun x => { x with waiting := none, level := 0 })
    else
      let r := s.waitHolds x.wacq x.cond x.value pa
      if r.2 then .next (((r.1.waited q x.wacq).qPut q 0x20 1 1).at_ s.now (.queueMap q))
      else .next (r.1.at_ (s.now + 65536) (.waitPacketReevaluate q))

/-- SIGNAL_PACKET (R339): a release at REL over every address, then the operation on the word at its home. -/
def execSignalPacket (q : Nat) (s : State) : Out :=
  match s.headOf q 3 with
  | .none s1 => .next s1
  | .packet k b c s1 =>
    match s1.feTranslate (s1.ctx c) (s1.qSys q) (pf b 8 8) with
    | none => .next s1
    | some pa =>
      let rel := field (pf b 0 2) 10 8
      let s2 := (s1.started q k).releaseActs rel none
      let v := relNew (pf b 2 1) (leNat (s2.peek pa 8)) (pf b 0x10 8)
      let s3 := s2.homeWrite pa (natLE 8 v)
      let s4 := if rel = 5 ∧ targetOf pa = .device then s3.writeBackSector (pa / 32) else s3
      .next ((s4.notify pa).pump q)

/-- NOP_PACKET (R337): complete at its start. -/
def execNopPacket (q : Nat) (s : State) : Out :=
  match s.headOf q 4 with
  | .none s1 => .next s1
  | .packet k _ _ s1 => .next ((s1.started q k).pump q)

/-- The table writes of a format preload packet (R335, R159). -/
def preloads (b : List Byte) : List (Nat × DWord) :=
  (List.range (pf b 3 1)).map fun k => (pf b 2 1 + k, BitVec.ofNat 64 (pf b (8 + 8 * k) 8))

/-- FORMAT_PRELOAD_PACKET (R337, R159): the writes reach the home when the front end takes the packet; the packet completes when every
copy has applied them. -/
def execFormatPreloadPacket (q : Nat) (s : State) : Out :=
  if (s.queue q).preload then
    if s.fmtFlying fun _ n => (s.queue q).writes.contains n then .next s
    else .next ((s.modQueue q fun x => { x with preload := false, busy := false, writes := [] }).pump q)
  else
    match s.headOf q 5 with
    | .none s1 => .next s1
    | .packet k b c s1 =>
      let es := preloads b
      let s2 := es.foldl (fun (s : State) e => (s.at_ s.now (.formatWriteAtHome c 1152 e.1 e.2 s.tick)).bump) (s1.started q k)
      .next (s2.modQueue q fun x => { x with preload := true, writes := (List.range es.length).map ((s1.started q k).tick + ·) })

/-! ### Retirement and completion -/

/-- The signal of a completed launch (R340): the word at SIG loses 1, at its home. -/
def State.postSignal (s : State) (l : Launch) : State :=
  if l.sig = 0 then s
  else
    match s.feTranslate (s.ctx l.ctx) (s.qSys l.queue) l.sig.toNat with
    | none => s
    | some pa =>
      let s1 := s.homeWrite pa (natLE 8 (leNat (s.peek pa 8) + (2 ^ 64 - 1)))
      (if l.rel = 5 ∧ targetOf pa = .device then s1.writeBackSector (pa / 32) else s1).notify pa

/-- A launch completes (R340): the release at REL, its signal, its matcher entry and its counter. -/
def State.completeLaunch (s : State) (n : Nat) : State :=
  match s.launches.find? n with
  | none => s
  | some l =>
    let s1 := (s.releaseActs l.rel none).postSignal l
    let s2 : State := { s1 with launches := s1.launches.del n }
    let s3 := s2.modQueue l.queue fun x => { x with inFlight := x.inFlight.filter (· ≠ n) }
    (s3.queues.foldl (fun (s : State) q => s.pump q.1) s3).retryLaunches

/-- A production may retire (R344): its ensembles have ended, and its children have retired. -/
def Prod.over (p : Prod) : Bool := p.ended = p.count && p.children = 0

/-- A production may have become ready to retire. -/
def State.noteRetire (s : State) (n : Nat) : State :=
  match s.prods.find? n with
  | none => s
  | some p => if p.over then s.at_ s.now (.productionRetire n) else s

/-- The retirement itself (R344): its group counter, its parent and the launch's counter lose one. -/
def State.retire (s : State) (n : Nat) (p : Prod) : State :=
  let s1 : State := { s with prods := s.prods.del n }
  let s2 := match p.from_ with
    | none => s1
    | some (e, g) => (s1.modEns e fun x => { x with groups := x.groups.set g (x.groups.get g - 1) }).wakeJoins e
  let s3 := match p.parent with
    | none => s2
    | some k => (s2.modProd k fun x => { x with children := x.children - 1 }).noteRetire k
  let s4 := s3.modLaunch p.launch fun l => { l with counter := l.counter - 1 }
  match s4.launches.find? p.launch with
  | none => s4
  | some l => if l.counter = 0 then s4.completeLaunch p.launch else s4

/-- PRODUCTION_RETIRE (R344, R380): the release at REL from the hub of the counter's die, then the retirement. The release that the
completion of a launch makes after its root's has nothing left to write back (R340). At die scope and wider the ensembles' format-table
writes reach every copy first, within 4,096 cycles (R159, R161; log entry 96). -/
def execProductionRetire (n : Nat) (s : State) : Out :=
  match s.prods.find? n with
  | none => .next s
  | some p =>
    if p.over = false then .next s
    else if (p.rel = 5 ∨ 3 ≤ p.rel ∧ (s.fmtFlying fun c _ => c = s.prodCtx p) = true) ∧ p.retiring = false then
      let die := ((s.launches.find? p.launch).map (·.die)).getD 0
      let r := if p.rel = 5 then s.backCycles (hubOf die) none else (s, 0)
      let last := if p.rel = 5 ∧ p.parent.isNone = true then 40 + s.farTerm (hubOf die) none else 0
      let tables := if s.fmtFlying fun c _ => c = s.prodCtx p then 4096 else 0
      .next ((r.1.modProd n fun x => { x with retiring := true }).bump.at_ (s.now + r.2 + last + tables) (.productionRetire n))
    else .next ((s.releaseActs p.rel none).retire n p)

/-- Every load, store and engine command of a troupe has completed (R79); a cue action that has not fired is one (R369; log entry 101). -/
def State.troupeQuiet (s : State) (tid : Nat) (t : Troupe) : Bool :=
  t.pend = [] && t.unacked = [] && t.queue = [] && !(s.cores.any fun k => k.2.acts.any fun a => a.tid = tid) && !(s.copies.any fun c => c.2.tid = tid)
  && !(s.ovlLoads.any fun l => l.tid = tid) && !(s.cores.any fun k => k.2.mats.any fun m => m.tid = tid)

/-- An ensemble has ended (R79, R346): a producer's triggers if it has not, and its production may retire. -/
def State.endEnsemble (s : State) (e : Nat) (x : Ensemble) : State :=
  let s1 : State := { s with ensembles := s.ensembles.del e }
  let s2 := s1.modProd x.prod fun p => { p with ended := p.ended + 1 }
  let s3 := if (s2.prod x.prod).producer ∧ !x.triggered then s2.trigger x.prod else s2
  ((s3.leaveCore x.core x.ctx).noteRetire x.prod).at_ s.now (.ensemblePlacement (s.ctx x.ctx).part)

/-- TROUPE_END (R79): with every lane exited and everything it issued complete, the slot and the block are free. -/
def execTroupeEnd (tid : Nat) (s : State) : Out :=
  match s.troupes.find? tid with
  | none => .next s
  | some t =>
    if t.allSplits ≠ [] then .next s
    else if s.troupeQuiet tid t = false then .next (s.at_ (s.now + 1) (.troupeEnd tid))
    else
      match s.ensembles.find? t.ens with
      | none => .next { s with troupes := s.troupes.del tid }
      | some e =>
        let s1 : State := { s with troupes := s.troupes.del tid }
        let s2 := s1.freeBlocks e.ctx [t.block]
        let s3 := s2.modCore e.core fun c =>
          { c with selFree := c.selFree.put t.quarter (max t.selFree ((c.selFree.find? t.quarter).getD 0)) }
        if s3.troupes.any fun x => x.2.ens = t.ens then .next ((s3.notePark t.ens).at_ s.now (.ensemblePlacement (s.ctx e.ctx).part))
        else .next (s3.endEnsemble t.ens e)

/-! ### Admission, the green room and aging -/

/-- ENERGY_INTERVAL_START (R348, R434): the budget is full again, and what waits for admission looks again. -/
def execEnergyIntervalStart (p : Nat) (s : State) : Out :=
  let b := (s.part p).budget.toNat
  let s1 := s.modPart p fun x => { x with left := b, charged := false }
  let s2 := (s1.prods.filter fun x => (s1.ctx (s1.prodCtx x.2)).part = p).foldl (fun (s : State) x => match x.2.place with
    | .admission d => s.toBuffer x.1 d p
    | _ => s) s1
  .next (s2.retryLaunches.at_ (s.nextPoint p (2 ^ 21)) (.energyIntervalStart p))

/-- The context that gives the next entry to a die's spawn buffer: round-robin (R354). -/
def State.nextGreen (s : State) (d : Nat) : Option Nat :=
  let cs := (s.contexts.map (·.1)).filter fun c => !(s.ctx c).stopped && (match s.greenOf c with
    | [] => false
    | p :: _ => p.2.origin = d)
  match cs.find? fun c => (s.die d).lastGreen < c with
  | some c => some c
  | none => cs.head?

/-- A spawn buffer with room takes from the green rooms (R354). -/
def State.pullGreen (s : State) (d : Nat) : State :=
  if 256 ≤ s.bufferUse d then s
  else
    match s.nextGreen d with
    | none => s
    | some c => s.at_ s.now (.greenRoomTransfer c)

/-- GREEN_ROOM_TRANSFER (R354, R355): the oldest entry of the context's green room moves to its die's spawn buffer. -/
def execGreenRoomTransfer (c : Nat) (s : State) : Out :=
  match s.greenOf c with
  | [] => .next s
  | (n, p) :: _ =>
    if 256 ≤ s.bufferUse p.origin ∨ (s.ctx c).stopped = true then .next s
    else
      let s1 := (s.toBuffer n p.origin (s.ctx c).part).writeGreen c
      let s2 := s1.modDie p.origin fun d => { d with lastGreen := c }
      .next ((s2.diesOf (s.ctx c).part).foldl (fun s d => s.pullGreen d) s2)

/-- PRIORITY_AGING (R349): a queue with a request waiting and none served for 4,194,304 cycles rises one level. -/
def execPriorityAging (q : Nat) (s : State) : Out :=
  match (s.queue q).since with
  | none => .next s
  | some t =>
    if s.now < t + 4194304 then .next s
    else
      .next ((s.modQueue q fun x => { x with level := min (x.level + 1) (s.qTop q), since := some s.now }).at_ (s.now + 4194304)
        (.priorityAging q))

end Sys2Proof.Machine
end

