-- ==== Sys2Proof/Machine/Place.lean ====
section
/-! DEFINITION. Placement: requests and their order, the room of a core, the start and the return of ensembles, and what makes room
(R343 to R352, R358, R395). -/

namespace Sys2Proof.Machine

open Sys2Proof

/-! ### Room on a core (R395) -/

/-- An allotment: troupe slots, register granules, bytes of stage memory, A slots, B slots and tiles. -/
structure Allot where
  slots : Nat
  granules : Nat
  stage : Nat
  a : Nat
  b : Nat
  tiles : Nat
deriving DecidableEq, Repr

/-- Nothing. -/
def Allot.none : Allot := ⟨0, 0, 0, 0, 0, 0⟩

/-- The sum of two allotments. -/
def Allot.add (x y : Allot) : Allot :=
  ⟨x.slots + y.slots, x.granules + y.granules, x.stage + y.stage, x.a + y.a, x.b + y.b, x.tiles + y.tiles⟩

/-- What an ensemble holds, or needs to return (R350). -/
def State.allotOf (s : State) (e : Nat) (x : Ensemble) : Allot :=
  let ts := s.troupesOf e
  ⟨ts.length, (ts.map fun t => t.2.nregs / 8).sum, x.size, x.aSlots.length, x.bSlots.length, x.tiles.length⟩

/-- What an ensemble of a production takes at its start. -/
def Prod.allot (p : Prod) : Allot := ⟨p.troupes, p.troupes * (p.regs / 8), p.stage, 0, 0, 0⟩

/-- A core's whole resources hold an allotment. -/
def Allot.fits (x : Allot) : Bool :=
  x.slots ≤ 96 && x.granules ≤ 512 && x.stage ≤ 524288 && x.a ≤ 8 && x.b ≤ 8 && x.tiles ≤ 4

/-- More than half of one of the resources (R395). -/
def Allot.big (x : Allot) : Bool :=
  48 < x.slots || 256 < x.granules || 262144 < x.stage || 4 < x.a || 4 < x.b || 2 < x.tiles

/-- What a context holds on a core, but for some ensembles. -/
def State.held (s : State) (core c : Nat) (but : List Nat) : Allot :=
  ((s.onCore core).filter fun e => e.2.ctx = c && !but.contains e.1).foldl (fun a e => a.add (s.allotOf e.1 e.2)) Allot.none

/-- The contexts that would hold a position on a core without some ensembles. -/
def State.holders (s : State) (core : Nat) (but : List Nat) : List Nat :=
  distinct (((s.onCore core).filter fun e => !but.contains e.1).map fun e => e.2.ctx)

/-- A core has room for an allotment of a context, once some ensembles are off it (R350, R394, R395, R409). -/
def State.room (s : State) (core c : Nat) (x : Allot) (but : List Nat) : Bool :=
  let cs := s.holders core but
  let cs1 := if cs.contains c then cs else cs ++ [c]
  let of (k : Nat) : Allot := if k = c then (s.held core k but).add x else s.held core k but
  !(s.core core).fenced && (cs1.foldl (fun a k => a.add (of k)) Allot.none).fits
  && cs1.length ≤ (if cs1.any fun k => (of k).big then 2 else 3)

/-! ### Requests (R349, R350) -/

/-- A placement request: saved ensembles, or the next ensembles of a production from a linear number on. -/
structure Req where
  ens : List Nat
  prod : Nat
  lin : Nat
  count : Nat
  ctx : Nat
  queue : Nat
  launch : Nat
deriving DecidableEq, Repr

/-- Productions above a production in its spawn tree; the depth bounds the search (R343). -/
def State.ancestors (s : State) : Nat → Nat → List Nat
  | 0, _ => []
  | fuel + 1, n => match (s.prod n).parent with
    | none => []
    | some k => k :: s.ancestors fuel k

/-- The producer of a launch and its ancestors (R347). -/
def State.producers (s : State) (launch : Nat) : List Nat :=
  match List.find? (fun (p : Nat × Prod) => p.2.launch = launch && p.2.producer) s.prods with
  | none => []
  | some p => p.1 :: s.ancestors 10 p.1

/-- A launch that depends on another one whose trigger let it start (R342, R347). -/
def State.consumes (s : State) (l launch : Nat) : Bool :=
  match s.launches.find? l with
  | none => false
  | some x => x.started && x.deps.contains (launch, false)

/-- An ensemble of a production that starts now is an early consumer (R347): its launch depends on one whose producer has ensembles
that have not been placed. -/
def State.startsEarly (s : State) (n : Nat) : Bool :=
  match s.launches.find? (s.prod n).launch with
  | none => false
  | some l => l.deps.any fun d => !d.2 && s.prods.any fun p => p.2.launch = d.1 && p.2.producer && p.2.next < p.2.count

/-- A request of a producer, or of its ancestor, whose launch has a dependant in flight (R347). -/
def State.leads (s : State) (r : Req) : Bool :=
  (s.launches.any fun l => s.consumes l.1 r.launch) && (s.producers r.launch).contains r.prod

/-- A saved ensemble waits for nothing but room: no split of it waits in join or park, or the condition of one holds (R358). -/
def State.wakes (s : State) (e : Nat) (x : Ensemble) : Bool :=
  s.joinsOf e = [] || (s.joinsOf e).any fun j => x.joined j.2.2.1

/-- The ensembles of a context are placed: it is not stopped as a whole. -/
def State.places (s : State) (part c : Nat) : Bool :=
  match s.contexts.find? c with
  | none => false
  | some x => x.part = part && !x.stopped && !x.terminated

/-- The request of a saved ensemble, the first that has not ended of its co-operative group. -/
def State.returnReq (s : State) (part e : Nat) (x : Ensemble) : Option Req :=
  let es := if x.group = [] then [e] else x.group.filter fun k => (s.ensembles.find? k).isSome
  let waiting := es.filter fun k => s.joinsOf k ≠ []
  let goes (k : Nat) : Bool := match s.ensembles.find? k with
    | some y => s.wakes k y
    | none => false
  let saved (k : Nat) : Bool := match s.ensembles.find? k with
    | some y => y.pos = .saved true
    | none => true
  if s.places part x.ctx && es.head? = some e && es.all saved && (waiting = [] || waiting.any goes) then
    let p := s.prod x.prod
    some { ens := es, prod := x.prod, lin := x.lin, count := max 1 x.group.length, ctx := x.ctx,
           queue := ((s.launches.find? p.launch).map (·.queue)).getD 0, launch := p.launch }
  else none

/-- The request of a production with ensembles not placed. -/
def State.startReq (s : State) (part n : Nat) (p : Prod) : Option Req :=
  match s.launches.find? p.launch with
  | none => none
  | some l =>
    let out : Bool := match p.place with
      | .placed => true
      | .buffer _ => true
      | .admission _ => false
      | .green => false
    if out ∧ p.next < p.count ∧ s.places part l.ctx = true then
      some { ens := [], prod := n, lin := p.next, count := if p.coop then 4 else 1, ctx := l.ctx, queue := l.queue, launch := p.launch }
    else none

/-- All requests of a partition but for those that R347 holds back. -/
def State.requests_ (s : State) (part : Nat) : List Req :=
  let rs := (s.ensembles.filterMap fun e => s.returnReq part e.1 e.2) ++ s.prods.filterMap fun p => s.startReq part p.1 p.2
  let led := (rs.filter s.leads).map (·.launch)
  rs.filter fun r => !(r.ens.any fun e => match s.ensembles.find? e with
    | some x => x.yielded && x.early && led.any fun l => s.consumes r.launch l
    | none => false)

/-- WEIGHT of a queue (R332); 0 counts as 1. -/
def State.qWeight (s : State) (q : Nat) : Nat := max 1 (s.qGet q 0x0A 1)

/-- The place of a queue in the round of its level (R350): the queue served last keeps its turn up to WEIGHT requests. -/
def State.turnOf (s : State) (part q : Nat) : Nat :=
  match (s.part part).turn.find? (s.queue q).level with
  | none => q
  | some l =>
    if q = l then (if (s.queue q).served < s.qWeight q then 0 else 65536)
    else if l < q then q - l else 65536 + q - l

/-- The order of R350 as a list of numbers, compared from the left. -/
def State.reqKey (s : State) (part : Nat) (r : Req) : List Nat :=
  [(!s.leads r).toNat, 31 - (s.queue r.queue).level, s.turnOf part r.queue, r.queue, r.ens.isEmpty.toNat, r.launch, r.prod, r.lin]

/-- The lexicographic order of lists of numbers. -/
def lexLess : List Nat → List Nat → Bool
  | [], [] => false
  | [], _ :: _ => true
  | _ :: _, [] => false
  | a :: t, b :: u => a < b || (a = b && lexLess t u)

/-- Insert a request in the order of R350. -/
def insertReq (x : List Nat × Req) : List (List Nat × Req) → List (List Nat × Req)
  | [] => [x]
  | y :: t => if lexLess x.1 y.1 then x :: y :: t else y :: insertReq x t

/-- The requests of a partition in the order of R350. -/
def State.ordered (s : State) (part : Nat) : List Req :=
  (((s.requests_ part).map fun r => (s.reqKey part r, r)).foldl (fun l x => insertReq x l) []).map (·.2)

/-! ### The cores that a request takes -/

/-- What the ensembles of a request need, one core each: every member of a group that starts needs the same, and a group that returns
needs four cores though a member has ended (R352). -/
def State.needs (s : State) (r : Req) : List Allot :=
  if r.ens = [] then List.replicate r.count (s.prod r.prod).allot
  else (r.ens.map fun e => match s.ensembles.find? e with
    | some x => s.allotOf e x
    | none => Allot.none) ++ List.replicate (r.count - r.ens.length) Allot.none

/-- The lowest cores of a die that have room, one for each member, all distinct (R352). -/
def State.coresFor (s : State) (c : Nat) (but : List Nat) : List Allot → List Nat → Option (List Nat)
  | [], _ => some []
  | x :: t, cores =>
    match cores.find? fun k => s.room k c x but with
    | none => none
    | some k => (s.coresFor c but t (cores.filter (· ≠ k))).map (k :: ·)

/-- The troupe blocks that a request still needs (R387). -/
def State.blocksFree (s : State) (r : Req) : Bool :=
  let c := s.ctx r.ctx
  r.ens != [] || r.count * (s.prod r.prod).troupes + c.blocks.length ≤ c.saven.toNat

/-- The cores on which a request can be placed now, once some ensembles are off them (R350). -/
def State.whereTo (s : State) (part : Nat) (r : Req) (but : List Nat) : Option (List Nat) :=
  if s.blocksFree r = false then none
  else (s.diesOf part).findSome? fun d => s.coresFor r.ctx but (s.needs r) ((List.range 96).map (96 * d + ·))

/-- Quarters of a core with their free slots. -/
def State.freeSlots (s : State) (core q : Nat) : List Nat :=
  let used := s.troupes.filterMap fun t =>
    if t.2.quarter = q && (match s.ensembles.find? t.2.ens with
      | some e => e.core = core && e.pos != .saved true
      | none => false) then some t.2.slot else none
  (List.range 24).filter fun k => !used.contains k

/-- The quarter and slot that the next troupe on a core takes (R79). -/
def State.seat (s : State) (core : Nat) : Nat × Nat :=
  let q := [1, 2, 3].foldl (fun b q => if (s.freeSlots core b).length < (s.freeSlots core q).length then q else b) 0
  (q, (s.freeSlots core q).headD 0)

/-- The lowest blocks of a save area that are free (R387). -/
def freeBlockList (used : List Nat) (n : Nat) : List Nat :=
  ((List.range (used.length + n)).filter fun b => !used.contains b).take n

/-! ### The start of an ensemble (R345, R351) -/

/-- The window preloads of the context's image (R68); one that fails its checks leaves the window unbound. -/
def Ensemble.preloads (e : Ensemble) (look : Nat → DWord) (ws : List (Nat × BitVec 512)) : Ensemble :=
  ws.foldl (fun e w =>
    let width := (fmtOf (look (recFmt w.2))).width
    if fmtValid look (recFmt w.2) && (bindCheck e w.1 width w.2).isNone then e.bindWin w.1 width w.2 else e) e

/-- One troupe of a starting ensemble: its slot, its block and its first split, which issues nothing before the start acquire has
completed, if the scope has one. -/
def State.startTroupe (s : State) (e : Nat) (p : Prod) (core k block first : Nat) : State :=
  let q := s.seat core
  let id := s.tick
  let t := Troupe.start e k q.1 q.2 p.regs p.scalars block p.entry first
  let s1 : State := ({ s with troupes := s.troupes.put id t } : State).bump
  if actsOn false true p.acq then
    let act := s1.tick
    let a : CacheAct :=
      { id := act, tid := id, uid := 0, scope := p.acq, release := false, acquire := true, regions := none, after := .nothing }
    let r := s1.actCycles core false true p.acq none
    let due := first + r.2
    let s2 := r.1.modTroupe id fun t => t.modSplit 0 fun x => { x with earliest := due }
    (({ s2 with cacheActs := s2.cacheActs ++ [a] } : State).bump).at_ due (.cacheActionComplete act)
  else s1

/-- The first cycle in which a starting ensemble may issue, but for its acquire (R351). -/
def State.firstIssue (s : State) (p : Prod) (core : Nat) : Nat :=
  s.now + (if p.parent.isNone then 48 else 40) + 2 * hubHops core + 48 * dieHops p.origin (dieOf core)

/-- An ensemble of a production starts on a core (R345): every troupe with it. -/
def State.startEns (s : State) (c n lin member core : Nat) (group : List Nat) (e : Nat) : State :=
  let p := s.prod n
  let s1 := s.enterCore core c
  let blocks := freeBlockList (s1.ctx c).blocks p.troupes
  let x : Ensemble := { Ensemble.start c core p.stage n lin s1.tick with member := member, group := group, early := s.startsEarly n }
  let s2 : State := ({ s1 with ensembles := s1.ensembles.put e (x.preloads (s1.fmtEntry core c) (s1.ctx c).preload) } : State).bump
  (List.range p.troupes).foldl (fun s k => s.startTroupe e p core k (blocks.getD k 0) (s.firstIssue p core)) (s2.takeBlocks c blocks)

/-- The ensembles of a request start: one, or the four of a co-operative group in the same cycle (R352). -/
def State.startReqOn (s : State) (r : Req) (cores : List Nat) : State :=
  let base := s.tick
  let group := if r.count = 4 then (List.range 4).map (base + ·) else []
  let s0 : State := { s with tick := s.tick + r.count }
  let s1 := (List.range r.count).foldl (fun s m =>
    s.startEns r.ctx r.prod (r.lin + m) m (cores.getD m 0) group (base + m)) s0
  let s2 := s1.modProd r.prod fun p => { p with next := p.next + r.count, place := .placed }
  match (s.prod r.prod).place with
  | .buffer d => s2.pullGreen d
  | .admission _ => s2
  | .green => s2
  | .placed => s2

/-! ### The return of an ensemble (R79, R214) -/

/-- The lowest physical numbers that claims on a core leave free. -/
def State.freePhys (s : State) (core n : Nat) (of : Ensemble → List Nat) : List Nat :=
  let used := (s.onCore core).flatMap fun e => of e.2
  (List.range n).filter fun k => !used.contains k

/-- A saved ensemble returns to a core: new slots, each taken in turn (R79), and new places for its claims under the same names (R214). -/
def State.returnEns (s : State) (e core : Nat) : State :=
  match s.ensembles.find? e with
  | none => s
  | some x =>
    let fa := s.freePhys core 8 fun y => y.aSlots.map fun k => k.2.phys
    let fb := s.freePhys core 8 fun y => y.bSlots.map fun k => k.2.phys
    let ft := s.freePhys core 4 fun y => y.tiles.map fun k => k.2.phys
    let slots (t : Tab Slot) (f : List Nat) : Tab Slot := (t.zip f).map fun k => (k.1.1, { k.1.2 with phys := k.2 })
    let s1 := s.enterCore core x.ctx
    let s2 := s1.modEns e fun y =>
      { y with core := core, placed := s1.tick, yielded := false, pos := .resident, aSlots := slots y.aSlots fa, bSlots := slots y.bSlots fb,
               tiles := (y.tiles.zip ft).map fun k => (k.1.1, { k.1.2 with phys := k.2 }) }
    let s3 := (s.troupesOf e).foldl (fun (s : State) t => s.modTroupe t.1 fun x => { x with slot := 24 }) s2
    let s4 := (s.troupesOf e).foldl (fun (s : State) t =>
      let q := s.seat core
      s.modTroupe t.1 fun x => { x with quarter := q.1, slot := q.2, selFree := 0 }) s3
    (s4.bump).wakeEnsemble e

/-- The ensembles of a request return, those of a group together (R352). -/
def State.returnReqOn (s : State) (r : Req) (cores : List Nat) : State :=
  (r.ens.zip cores).foldl (fun s x => s.returnEns x.1 x.2) s

/-! ### The scheduler -/

/-- Every split of an ensemble waits, and one of them in join or park (R358). -/
def State.blocked (s : State) (e : Nat) : Bool :=
  let ps := (s.troupesOf e).flatMap fun t => t.2.allSplits
  ps.all (fun p => p.state = 2) && s.joinsOf e ≠ []

/-- Some split of an ensemble waits in park. -/
def State.inPark (s : State) (e : Nat) : Bool := (s.troupesOf e).any fun t => t.2.allSplits.any Split.parks

/-- The resident ensembles of a partition, the youngest first (R347, R358). -/
def State.youngest (s : State) (part : Nat) : List (Nat × Ensemble) :=
  let es := s.ensembles.filter fun e => e.2.pos = .resident && (s.ctx e.2.ctx).part = part
  es.foldl (fun l e => (l.takeWhile fun y => e.2.placed < y.2.placed) ++ [e] ++ l.dropWhile fun y => e.2.placed < y.2.placed) []

/-- Park an ensemble, or report that its context cannot be saved (R358, R404). -/
def State.parkEns (s : State) (e : Nat) (x : Ensemble) (yields : Bool) : State :=
  match s.saveBar x.ctx with
  | some i => s.cannotSave x.ctx i
  | none => (if yields then s.modEns e fun y => { y with yielded := true } else s).stopAll [e] true

/-- Blocked ensembles that wait in park are parked at once (R358). -/
def State.parkBlocked (s : State) (part : Nat) : State :=
  (s.youngest part).foldl (fun s e => if s.blocked e.1 && s.inPark e.1 then s.parkEns e.1 e.2 false else s) s

/-- Ensembles that stopping would make room: early consumers for a producer's request (R347), blocked ensembles of ancestors for a
descendant's (R358). -/
def State.victims (s : State) (part : Nat) (r : Req) : List (Nat × Ensemble × Bool) :=
  ((s.youngest part).filterMap fun e =>
    if s.leads r ∧ e.2.early = true ∧ s.consumes (s.prod e.2.prod).launch r.launch = true ∧ s.canSave e.2.ctx = true then some (e.1, e.2, true) else none)
  ++ (s.youngest part).filterMap fun e =>
    if (s.ancestors 10 r.prod).contains e.2.prod ∧ s.blocked e.1 = true ∧ s.canSave e.2.ctx = true then some (e.1, e.2, false) else none

/-- The youngest ensemble that is stopped so that a request may fit, if stopping them all would make it fit: those of R358 without that
condition. -/
def State.victim (s : State) (part : Nat) (r : Req) : Option (Nat × Ensemble × Bool) :=
  let vs := s.victims part r
  let early := vs.filter fun v => v.2.2
  if early ≠ [] ∧ (s.whereTo part r (early.map (·.1))).isSome then early.head?
  else (vs.filter fun v => !v.2.2).head?

/-- Make room for the first request that finds none (R347, R358), unless a stop is already under way. -/
def State.makeRoom (s : State) (part : Nat) (rs : List Req) : State :=
  let stopping := s.ensembles.any fun e => e.2.pos = .stopped true && (s.ctx e.2.ctx).part = part
  if stopping then s
  else
    match rs.findSome? fun r => if s.blocksFree r then s.victim part r else none with
    | none => s
    | some (e, x, y) => s.parkEns e x y

/-- A request is served (R349, R350): its queue's turn, its level, and its waiting time. -/
def State.serve (s : State) (part : Nat) (r : Req) (more : Bool) : State :=
  let q := s.queue r.queue
  let keeps := (s.part part).turn.find? q.level = some r.queue && q.served < s.qWeight r.queue
  let s1 := s.modPart part fun p => { p with turn := p.turn.put q.level r.queue }
  let s2 := s1.modQueue r.queue fun x =>
    { x with served := if keeps then x.served + 1 else 1, level := s.qGet r.queue 9 1, since := none }
  if more then s2.noteRequest r.queue else s2

/-- The first placement of a context starts its checkpoint intervals; after a time without a position one goes on (R402). -/
def State.startIntervals (s : State) (c : Nat) : State :=
  if s.agenda.any fun t => t.ev = .checkpointCut c then s
  else
    let x := s.ctx c
    (s.at_ (s.now + if x.ckLeft = 0 then 2 ^ bvField x.ckctl 24 20 else x.ckLeft) (.checkpointCut c)).modCtx c fun x => { x with ckLeft := 0 }


/-- Every spawn buffer of a partition that has room takes from the green rooms (R354, R359). -/
def State.pullAll (s : State) (part : Nat) : State := (s.diesOf part).foldl (fun s d => s.pullGreen d) s

/-- ENSEMBLE_PLACEMENT (R350): the first request in order that fits is placed, and the scheduler looks again; when none fits, room is
made as R347 and R358 say. -/
def execEnsemblePlacement (part : Nat) (s : State) : Out :=
  let s0 := s.parkBlocked part
  let rs := s0.ordered part
  let s1 := rs.foldl (fun s r => s.noteRequest r.queue) s0
  match rs.findSome? fun r => (s1.whereTo part r []).map fun k => (r, k) with
  | none => .next (((s1.makeRoom part rs).pullAll part).retryLaunches)
  | some (r, cores) =>
    let s2 := if r.ens = [] then s1.startReqOn r cores else s1.returnReqOn r cores
    let more := (rs.filter fun x => x.queue = r.queue).length > 1 || (s2.requests_ part).any fun x => x.queue = r.queue
    .next (((s2.serve part r more).startIntervals r.ctx).at_ s.now (.ensemblePlacement part))

end Sys2Proof.Machine
end

