-- ==== Sys2Proof/Machine/Checkpoints.lean ====
section
/-! DEFINITION. Checkpoints: cuts, the engine's streaming, commits, resumption from a cut, core fences and SAVECOST (R402 to R409). -/

namespace Sys2Proof.Machine

open Sys2Proof

/-! ### Going on after a stop -/

/-- The point that a resumption at a cycle gives every cue that is set (R371). -/
def repoint (now : Nat) (cues : Store 64) : Store 64 :=
  cues.map fun e => (e.1, if bitOf e.2.toNat 63 then cueEntry true (now + 2 ^ 63 - 2 ^ 24) else e.2)

/-- A core's copies of a context's cues follow the home desk. -/
def Core.takeCues (k : Core) (c : Nat) (cues : Store 64) : Core :=
  { k with cues := if k.residents.contains c then k.cues.put c cues else k.cues }

/-- A stopped context goes on: its cues get new points, its overlays are absent, its captured ensembles go on where they stand, its
green room feeds the spawn buffers again, its queues are mapped again, and its saved ensembles may be placed (R70, R362, R371, R402,
R408). -/
def State.goOn (s : State) (c : Nat) : State :=
  let cues := repoint (s.cycles (s.ctx c).part) (s.ctx c).cues
  let s1 := s.modCtx c fun x => { x with stopped := false, cues := cues }
  let s2 : State := { s1 with cores := s1.cores.map fun k => (k.1, k.2.takeCues c cues) }
  let s3 := ((s2.ensTab c).filter fun e => e.2.pos = .saved false).foldl (fun s e => s.wakeEnsemble e.1) (s2.dropOverlays c)
  let part := (s.ctx c).part
  let s4 := (s3.queuesOf c).foldl (fun s q => s.at_ s.now (.queueMap q)) s3
  (s4.pullAll part).at_ s.now (.ensemblePlacement part)

/-! ### Cuts of a whole context -/

/-- Every ensemble of a context is captured or saved (R400). -/
def State.allCaptured (s : State) (c : Nat) : Bool :=
  (s.ensTab c).all fun e => match e.2.pos with
    | .saved _ => true
    | .resident => false
    | .stopped _ => false

/-- A stop that moves or parks the context, in contrast to one for a cut in place. -/
def State.moving (s : State) (c : Nat) : Bool := !((s.ensTab c).any fun e => e.2.pos = .saved false)

/-- A stopped context is captured (R402, R404): its cut is formed, and it goes on unless the stop moves it. -/
def State.cutNow (s : State) (c : Nat) : State :=
  let m := s.moving c
  let s1 :=
    if (s.ctx c).checkpoints = false ∧ m = false then s
    else match s.planCut c with
      | none => s.cannotSave c 1
      | some p => if p.units.any (s.unitFenced c) then s.cutFails c p.seq else s.formCut c p m
  if m then s1 else s1.goOn c

/-- CHECKPOINT_CUT (R402): at the end of an interval the context is stopped; once it is captured its dirty units form the cut. -/
def execCheckpointCut (c : Nat) (s : State) : Out :=
  match s.contexts.find? c with
  | none => .next s
  | some x =>
    if x.terminated then .next s
    else if x.stopped then
      .next (if s.allCaptured c = false then s
        else if (s.cutting.find? c).isSome then s.at_ (s.now + 1) (.checkpointCut c)
        else s.cutNow c)
    else if (s.ensTab c).all (fun e => e.2.pos != .resident) then .next s
    else if (s.cutting.find? c).isSome then .next (s.at_ (s.now + 1) (.checkpointCut c))
    else
      let s1 := s.at_ (s.now + 2 ^ bvField x.ckctl 24 20) (.checkpointCut c)
      .next (if x.checkpoints then s1.stopContext c false else s1)

/-! ### Streaming and commit -/

/-- The tables of a cut in place of the machine's, to name its records. -/
def Cut.view (k : Cut) (s : State) : State :=
  { s with ensembles := k.ens, troupes := k.troupes, prods := k.prods, launches := k.launches }

/-- UNIT_STREAMED (R402, R403): one protected unit is written to the image as a record, and is protected no more. -/
def execUnitStreamed (c : Nat) (s : State) : Out :=
  match s.cutting.find? c with
  | none => .next s
  | some k =>
    match k.todo with
    | [] => .next s
    | u :: rest =>
      if s.unitFenced c u then
        .next ((({ s with cutting := s.cutting.del c } : State).modCtx c fun x => x.touch k.took).cutFails c k.seq)
      else
        let rec_ := (k.view s).unitRecord u k.seq ((k.unit u).getD [])
        let s1 := s.homeWrite (k.ctx.imageAt k.half k.end_) rec_
        .next (({ s1 with cutting := s1.cutting.put c { k with end_ := k.end_ + rec_.length, todo := rest } } : State).streamNext c rest)

/-- The header of an image (R405). -/
def Cut.header (k : Cut) (end_ : Nat) : List Byte :=
  natLE 4 0x4B435645 ++ natLE 1 k.ctx.minor ++ natLE 1 1 ++ natLE 2 1 ++ natLE 8 k.seq ++ natLE 1 k.half ++ zeros 7
  ++ natLE 8 end_ ++ natLE 4 k.ctx.ctxid.toNat ++ zeros (4096 - 0x24)

/-- CUT_COMMIT (R403, R405): the end record, then the header; from then on readers use this cut. Records of parked ensembles only stand
behind the cut that readers use (log entry 69). -/
def execCutCommit (c : Nat) (s : State) : Out :=
  match s.cutting.find? c with
  | none => .next s
  | some k =>
    if k.todo ≠ [] then .next s
    else
      if k.part then
        let start := match s.cuts.find? c with
          | some z => if z.half = k.half then z.end_ else 0
          | none => 0
        .next (({ s with cutting := s.cutting.del c } : State).modCtx c fun x => { x with saves := k.end_ - start })
      else
      let rec_ := recordOf 10 k.seq 0 0 0 0 []
      let end_ := k.end_ + rec_.length
      let s1 := (s.homeWrite (k.ctx.imageAt k.half k.end_) rec_).homeWrite k.ctx.image.1 (k.header end_)
      .next (({ s1 with cutting := s1.cutting.del c, cuts := s1.cuts.put c { k with end_ := end_ } } : State).modCtx c fun x =>
        { x with saves := 0 })

/-! ### Resumption -/

/-- Write a unit's memory back through the home slices as the context's writes (R408). -/
def State.restoreUnit (s : State) (c : Nat) (d : CkUnit × List Byte) : State :=
  ((s.unitParts c d.1).zip ((List.range 16).map fun j => (d.2.drop (4096 * j)).take 4096)).foldl
    (fun s p => match p.1 with
      | some pa => s.homeWrite pa p.2
      | none => s) s

/-- A queue's read index takes its value at the cut, and its packets after it start again once the queue is mapped again (R362, R409);
one that waits on a packet that the cut holds as started waits on. -/
def State.restoreQueue (s : State) (k : Cut) (q v : Nat) : State :=
  let mine := (k.launches.filter fun l => l.2.queue = q && l.2.started).map (·.1)
  let s1 := (s.qPut q 0x18 8 v).modQueue q fun x => { x.leave with inFlight := mine }
  if s.qState q = 3 ∧ s.qGet q 0x18 8 = v then s1
  else if s.qState q = 2 ∨ s.qState q = 3 then (s1.qPut q 0x20 1 1).modQueue q fun x => { x with waiting := none }
  else s1

/-- A context's registers that a cut restores: the format table, the cues, the account and the counts; system software sets the
supervisor registers (R408). -/
def Context.restored (x y : Context) : Context :=
  { x with fmt := y.fmt, cues := y.cues, arms := [], energy := y.energy, launched := y.launched, touched := [], stopped := true }

/-- The context as a cut holds it, every ensemble of it saved (R408, R409). -/
def State.restoreCut (s : State) (c : Nat) (k : Cut) : State :=
  let s1 := (s.clear c).modCtx c fun x => x.restored k.ctx
  let s2 : State :=
    { s1 with
      ensembles := k.ens.foldl (fun t e => t.put e.1 { e.2 with pos := .saved true }) s1.ensembles
      troupes := k.troupes.foldl (fun t e => t.put e.1 e.2) s1.troupes
      copies := k.copies.foldl (fun t e => t.put e.1 e.2) s1.copies
      prods := k.prods.foldl (fun t e => t.put e.1 e.2) s1.prods
      launches := (k.launches.filter fun l => l.2.started).foldl (fun t e => t.put e.1 e.2) s1.launches
      ovlLoads := s1.ovlLoads ++ k.loads }
  let s3 := k.data.foldl (fun s d => s.restoreUnit c d) (s2.takeBlocks c k.ctx.blocks)
  let s4 := if s3.greenOf c = [] then s3 else s3.writeGreen c
  (k.rdidx.foldl (fun s q => s.restoreQueue k q.1 q.2) s4).admitFaults

/-- RESUMPTION (R408): a stopped context is restored from its committed cut and goes on, on any cores with room. -/
def execResumption (c : Nat) (s : State) : Out :=
  match s.contexts.find? c with
  | none => .next s
  | some x =>
    if x.terminated then .next s
    else if x.stopped = false then
      .next (((s.ensTab c).filter fun e => e.2.pos = .saved false).foldl (fun s e => s.wakeEnsemble e.1) s)
    else if s.allCaptured c = false ∨ (s.cutting.find? c).isSome then .next (s.at_ (s.now + 1) (.resumption c))
    else
      match s.cuts.find? c with
      | none => .next s
      | some k => .next ((s.restoreCut c k).goOn c)

/-- A fenced core is left with nothing (R409). -/
def Core.fence (x : Core) : Core :=
  { x with fenced := true, onStage := none, stints := [], wings := [], l1 := [], tlb := [], utlb := [], walkc := [], locks := [], mats := [], acts := [] }

/-- What happens to a context with an ensemble on a fenced core (R409). -/
def State.recover (s : State) (c : Nat) : State :=
  match s.cuts.find? c with
  | some k => (s.restoreCut c k).goOn c
  | none => (s.report (s.homeDie (s.ctx c).part) ⟨2, (s.ctx c).ctxid.toNat, 0, 0, 0⟩).terminate c

/-- CORE_FENCE (R409): the core stops for good; contexts with an ensemble on it recover from their committed cuts or are
terminated. -/
def execCoreFence (core : Nat) (s : State) : Out :=
  let cs := distinct ((s.onCore core).map fun e => e.2.ctx)
  .next (cs.foldl State.recover (s.modCore core Core.fence))

/-! ### SAVECOST (R407) -/

/-- Bytes that a moving cut of a context would write (R407). -/
def State.moveBytes (s : State) (c : Nat) : Nat :=
  match s.cuts.find? c with
  | none => s.cutSize c (s.units c)
  | some k => s.cutSize c (if (s.ctx c).checkpoints then s.dirty c k else s.units c)

/-- SAVECOST's value (R407, R444): the size in pages, and the estimate over 256 in cycles. -/
def State.saveCost (s : State) (c : Nat) : DWord :=
  let size := ceilDiv (s.moveBytes c) 4096
  let b := 10 * 32 * bvField s.ckshare 3 0
  let f := clockTenths (s.part (s.ctx c).part).setting
  let est := (640 * b + size * 4096 * f) / (256 * b)
  BitVec.ofNat 64 (2 ^ 32 * min est (2 ^ 32 - 1) + size % 2 ^ 32)

/-- SAVECOST_UPDATE (R407): every 65,536 cycles. -/
def execSavecostUpdate (c : Nat) (s : State) : Out :=
  match s.contexts.find? c with
  | none => .next s
  | some x =>
    if x.terminated then .next s
    else .next ((s.modCtx c fun x => { x with savecost := s.saveCost c }).at_ ((s.now / 65536 + 1) * 65536) (.savecostUpdate c))

end Sys2Proof.Machine
end

