-- ==== Sys2Proof/Machine/Collective.lean ====
section
/-! DEFINITION. The instructions that combine lanes: vote, shfl, tred, tredf and scan (R110 to R115). -/

namespace Sys2Proof.Machine

open Sys2Proof

/-- The mask of the active lanes that vote 1 (R111). -/
def Work.ballot (w : Work) (n : Ins) : Mask := maskFilter w.act fun i => w.src false n n.sa 0 i ≠ 0

/-- The outcome of any, all and uni (R111). -/
def voteOf (op : Nat) (b act : Mask) : Bool :=
  match op with
  | 0 => b != 0
  | 1 => b == act
  | _ => b == 0 || b == act

/-- vote (R111). -/
def opVote (n : Ins) : Work → Eff :=
  ifActive fun w =>
    let b := w.ballot n
    if n.mod % 4 = 3 then .done (w.later 8 0#32 n 4 fun k _ => BitVec.ofNat 32 (b.toNat / 2 ^ (32 * k)))
    else
      .done (w.later 8 0#32 n 1 fun _ _ => if voteOf (n.mod % 4) b w.act then 1#32 else 0#32)

/-- The lane that shfl reads (R112). -/
def shflLane (mode wd n i : Nat) : Nat :=
  let b := i - i % wd
  match mode with
  | 0 => b + n % wd
  | 1 => if n ≤ i - b then i - n else i
  | 2 => if i + n < b + wd then i + n else i
  | _ => i ^^^ (n % wd)

/-- shfl (R112). -/
def opShfl (n : Ins) : Work → Eff :=
  ifActive fun w =>
    .done (w.later 12 0#32 n 1 fun _ i =>
      let j := shflLane (n.mod % 4) (2 ^ (n.mod / 4 % 8)) (w.src false n n.sb 0 i).toNat i
      w.src false n n.sa 0 (if w.act.getLsbD j then j else i))

/-- The identity of an op of tred and scan (R115). -/
def redIdentity (op : Nat) : Int :=
  match op with
  | 1 => 2 ^ 31 - 1
  | 2 => -(2 : Int) ^ 31
  | 3 => 2 ^ 32 - 1
  | 5 => 2 ^ 32 - 1
  | _ => 0

/-- A lane's value as an op reads it: two's complement for .add, .smin and .smax. -/
def redRead (op : Nat) (x : Word) : Int := if op ≤ 2 then x.toInt else (x.toNat : Int)

/-- One combination, exact (R113). -/
def redStep (op : Nat) (a b : Int) : Int :=
  match op with
  | 0 => a + b
  | 1 => min a b
  | 2 => max a b
  | 3 => min a b
  | 4 => max a b
  | 5 => ((a.toNat &&& b.toNat : Nat) : Int)
  | 6 => ((a.toNat ||| b.toNat : Nat) : Int)
  | _ => ((a.toNat ^^^ b.toNat : Nat) : Int)

/-- The combination of some lanes' values: its 32 bits, and ISAT when .sat clamps it (R113). -/
def reduce (op : Nat) (sat : Bool) (xs : List Word) : Word × Word :=
  let t := (xs.map (redRead op)).foldl (redStep op) (redIdentity op)
  let r := fit t 32 true (sat && op = 0)
  (BitVec.ofNat 32 r.1, r.2)

/-- tred (R113). -/
def opTred (n : Ins) : Work → Eff :=
  ifActive fun w =>
    let r := reduce (n.mod % 8) n.sat ((lanesOf w.act).map fun i => w.src false n n.sa 0 i)
    .done (w.later 20 r.2 n 1 fun _ _ => r.1)

/-- scan (R115). -/
def opScan (n : Ins) : Work → Eff :=
  ifActive fun w =>
    let upTo (i : Nat) : List Word :=
      ((lanesOf w.act).filter fun j => j < i || (j = i && !bitOf n.mod 3)).map fun j => w.src false n n.sa 0 j
    let r (i : Nat) : Word × Word := reduce (n.mod % 8) n.sat (upTo i)
    .done (w.later 24 (orFlags ((lanesOf w.act).map fun i => (r i).2)) n 1 fun _ i => (r i).1)

/-- One level of the tree of R114: pairs of nodes, where none is an absent node. -/
def treeLevel (node : Nat → Nat → Nat × Word) : List (Option Nat) → List (Option Nat) × Word
  | a :: b :: t =>
    let r := treeLevel node t
    match a, b with
    | none, none => (none :: r.1, r.2)
    | some x, none => (some x :: r.1, r.2)
    | none, some y => (some y :: r.1, r.2)
    | some x, some y => (some (node x y).1 :: r.1, (node x y).2 ||| r.2)
  | l => (l, 0#32)

/-- The levels of the tree of R114. -/
def treeReduce (node : Nat → Nat → Nat × Word) : Nat → List (Option Nat) → List (Option Nat) × Word
  | 0, l => (l, 0#32)
  | k + 1, l =>
    let a := treeLevel node l
    let b := treeReduce node k a.1
    (b.1, a.2 ||| b.2)

/-- A node of tredf (R114): fadd, fmin or fmax of two codes. -/
def redNode (f : Fmt) (op : Nat) (mode : RMode) (x y : Nat) : Nat × Word :=
  match op with
  | 0 => faddNum f mode false 0 (decodeFloat f x) (decodeFloat f y)
  | 1 => minMax f false x y
  | _ => minMax f true x y

/-- tredf (R114). -/
def opTredf (n : Ins) : Work → Eff :=
  ifActive fun w =>
    let f := w.fmt n.fmt
    let leaf (i : Nat) : Option Nat :=
      if w.act.getLsbD i then some ((w.src false n n.sa 0 i).toNat % 2 ^ f.width) else none
    let r := treeReduce (redNode f (n.mod % 4) n.rnd) 7 ((List.range 128).map leaf)
    .done (w.later 28 r.2 n 1 fun _ _ => BitVec.ofNat 32 ((r.1.headD none).getD 0))

/-- VOTE (R111), extended form. -/
def execVote (f : X) (s : State) : Out := runX 0x10 f opVote s

/-- SHFL (R112), extended form. -/
def execShfl (f : X) (s : State) : Out := runX 0x11 f opShfl s

/-- TRED (R113), extended form. -/
def execTred (f : X) (s : State) : Out := runX 0x12 f opTred s

/-- TREDF (R114), extended form. -/
def execTredf (f : X) (s : State) : Out := runX 0x13 f opTredf s

/-- SCAN (R115), extended form. -/
def execScan (f : X) (s : State) : Out := runX 0x14 f opScan s

end Sys2Proof.Machine
end

