-- ==== Sys2Proof/Machine/Stacks.lean ====
section
/-! DEFINITION. The memory stacks: mapping commits (R418 to R420), fences (R423), refresh and scrubbing (R424, R425). -/

namespace Sys2Proof.Machine

open Sys2Proof

/-! ### Elimination over GF(2) -/

/-- Exclusive or of two equations: a mask of unknowns and the right-hand side. -/
def eqXor (x y : Nat × Bool) : Nat × Bool := (x.1 ^^^ y.1, x.2 != y.2)

/-- Take the first equation that has an unknown, and the others in order. -/
def takeEq (k : Nat) : List (Nat × Bool) → Option ((Nat × Bool) × List (Nat × Bool))
  | [] => none
  | e :: t =>
    if bitOf e.1 k then some (e, t)
    else (takeEq k t).map fun r => (r.1, e :: r.2)

/-- Eliminate the unknowns from `k` on: the solved equations in the order of their unknowns, or none if the matrix is singular. -/
def eliminate : Nat → Nat → List (Nat × Bool) → List (Nat × Bool) → Option (List (Nat × Bool))
  | 0, _, _, solved => some solved
  | n + 1, k, rest, solved =>
    match takeEq k rest with
    | none => none
    | some (p, t) =>
      let clear (e : Nat × Bool) : Nat × Bool := if bitOf e.1 k then eqXor e p else e
      eliminate n (k + 1) (t.map clear) (solved.map clear ++ [p])

/-- The bits of M with G M = Y, for 44 rows; none if G is singular (R419). -/
def solveRows (rows : List (BitVec 44)) (y : Nat) : Option Nat :=
  (eliminate 44 0 ((List.range 44).map fun k => ((rows.getD k 0).toNat, bitOf y k)) []).map fun l =>
    ((List.range 44).map fun k => ((l.getD k (0, false)).2).toNat * 2 ^ k).sum

/-! ### Commits (R420) -/

/-- The matrix is the identity outside rows and columns 0 to s + 23. -/
def matrixShape (s : Nat) (rows : List (BitVec 44)) : Bool :=
  (List.range 44).all fun k =>
    let r := (rows.getD k 0).toNat
    if s + 24 ≤ k then r = 2 ^ k else r < 2 ^ (s + 24)

/-- A value for MAPREG breaks no rule of R418, given the other regions. -/
def State.mapNextOk (s : State) (region : Nat) (v : DWord) : Bool :=
  if bitOf v.toNat 63 = false then bvField v 53 20 = 0
  else
    let ls := bvField v 61 59
    let st := bvField v 58 54
    let lo := bvField v 19 0 * 2 ^ 32
    let hi := lo + 15 * 2 ^ (ls + 32)
    bvField v 53 20 = 0 && ls ≤ 4 && st % 2 ^ ls = 0 && st + 2 ^ ls ≤ 24
    && (List.range 16).all fun r =>
      let m := s.mapRegs.getD r 0
      r = region || !bitOf m.toNat 63
      || ((match regionSpan m with
          | some (b, n) => hi ≤ b || b + n ≤ lo
          | none => true)
        && (st + 2 ^ ls ≤ bvField m 58 54 || bvField m 58 54 + 2 ^ bvField m 61 59 ≤ st))

/-- Discard a region at every L2 slice and memory-side cache (R420). -/
def State.discardRegion (s : State) (m : DWord) : State :=
  match regionSpan m with
  | none => s
  | some (b, n) => s.discard b (b + n)

/-- MAPCMD_COMMIT (R420): a write of MAPCMD with GO starts a commit, unless one is being checked. -/
def execMapcmdCommit (v : Word) (s : State) : Out :=
  if s.dead ∨ bitOf v.toNat 4 = false ∨ s.mapping.isSome = true then .next s
  else
    let r := v.toNat % 16
    let rows := (List.range 44).map fun n => BitVec.ofNat 44 (s.mapRows.get n).toNat
    let s1 := s.discardRegion (s.mapRegs.getD r 0)
    .next (({ s1 with mapping := some { region := r, next := s.mapNext, rows := rows }, mapStat := 1 } : State).at_ (s.now + 2112)
      .mapCheckComplete)

/-- The result of a check (R420): STATE. -/
def State.checkMapping (s : State) (m : Mapping) : Nat :=
  let ls := bvField m.next 61 59
  if (solveRows m.rows 0).isNone ∨ matrixShape ls m.rows = false then 2
  else if s.mapNextOk m.region m.next = false then 3
  else 0

/-- The contents of a region after a commit are undefined (R420, log entry 10): the bytes that were listed, and every sector that the
caches hold. -/
def State.scramble (s : State) (m : DWord) : State :=
  match regionSpan m with
  | none => s
  | some (b, n) =>
    let inside (a : Nat) : Bool := b ≤ a && a < b + n
    let touched := (s.mem.filter fun c => inside c.1).map (·.1)
    { s with
      mem := touched.foldl (fun m a => Memory.write m a [Config.remapped s.tick a]) s.mem
      stackDiff := s.stackDiff.filter fun c => !inside c.1
      cached := s.cached.filter fun c => !inside (32 * c.1) }

/-- MAP_CHECK_COMPLETE (R420): the new matrix and MAPREG take effect together, or the old ones stay; waiting accesses go on. -/
def execMapCheckComplete (s : State) : Out :=
  match s.mapping with
  | none => .next s
  | some m =>
    let st := s.checkMapping m
    let s1 : State := { s with mapping := none, mapStat := st }
    if st ≠ 0 then .next s1
    else
      let s2 := (s1.scramble (s.mapRegs.getD m.region 0)).scramble m.next
      .next ({ s2 with mapRegs := s.mapRegs.set m.region m.next,
                       matrices := (s.matrices.take (44 * m.region)) ++ m.rows ++ s.matrices.drop (44 * m.region + 44) } : State).bump

/-! ### Fences (R423) -/

/-- The lowest fence entry of an interface that is free. -/
def Stack.freeFence (k : Stack) : Option Nat := (List.range 256).find? fun j => !bitOf (k.fence.get j).toNat 63

/-- A page of a stack is fenced: an entry, or the whole stack once its list is full. -/
def Stack.fencePage (k : Stack) (pa : Nat) : Stack :=
  if k.fence.any fun e => bitOf e.2.toNat 63 && bvField e.2 51 12 = pa / 4096 then k
  else
    match k.freeFence with
    | none => { k with allFenced := true }
    | some j => { k with fence := k.fence.set j (BitVec.ofNat 64 (2 ^ 63 + pa / 4096 * 4096)) }

/-- ECC_UNCORRECTABLE (R423): the page of the failing line is fenced and reported, with the CTXID of the access that found it, or 0 for
a scrub. -/
def execEccUncorrectable (pa ctxid : Nat) (s : State) : Out :=
  match s.stackOf pa with
  | none => .next s
  | some (k, _) => .next ((s.modStack k fun x => x.fencePage pa).report (k / 2) ⟨3, ctxid, k, pa / 4096 * 4096, 0⟩)

/-- FCLR_WRITE (R440): the entry of the page is cleared. -/
def execFclrWrite (k pa : Nat) (s : State) : Out :=
  .next (if s.dead then s else s.modStack k fun x =>
    { x with fence := x.fence.filter fun e => !(bitOf e.2.toNat 63 && bvField e.2 51 12 = bvField (BitVec.ofNat 64 pa) 51 12) })

/-! ### Refresh and scrubbing (R424, R425) -/

/-- Cycles of a time in nanoseconds on the die of a stack, rounded up, at its partition's clock. -/
def State.nsCycles (s : State) (k ns : Nat) : Nat := ceilDiv (ns * clockTenths (s.part (s.partOf.getD (k / 2) 0)).setting) 10

/-- REFRESH_HEARTBEAT (R424): the management core certifies its refreshes every 512 ns; without another heartbeat within four marks
the memory interface takes over. -/
def execRefreshHeartbeat (k : Nat) (s : State) : Out :=
  let s1 := s.modStack k fun x => { x with beat := s.now }
  .next ((s1.at_ (s.now + s.nsCycles k 512) (.refreshHeartbeat k)).at_ (s.now + s.nsCycles k 2048) (.refreshTakeover k))

/-- REFRESH_TAKEOVER (R424): four marks without a heartbeat have passed; the interface issues its first refresh within 1.9 µs, the
management core issues none, and the takeover is reported. -/
def execRefreshTakeover (k : Nat) (s : State) : Out :=
  let x := s.stack k
  if x.takeover ∨ s.now < x.beat + s.nsCycles k 2048 then .next s
  else
    let s1 := (s.modStack k fun y => { y with takeover := true }).report (k / 2) ⟨6, 0, k, 0, 0⟩
    let s2 : State := { s1 with agenda := s1.agenda.filter fun t => t.ev ≠ .refresh k }
    .next (s2.bump.at_ (s.now + Config.pathCycles s.tick % (s.nsCycles k 1900 + 1)) (.refresh k))

/-- REFRESH (R424): a refresh of the stack is issued, by the management core or, after a takeover, by the memory interface; the next
falls due after a time that the spec does not state. -/
def execRefresh (k : Nat) (s : State) : Out :=
  .next ((s.modStack k fun x => { x with refreshes := x.refreshes + 1 }).bump.at_ (s.now + 1 + Config.pathCycles s.tick) (.refresh k))

/-- BASE_DIE_RESET (R424): the management core restarts and takes refresh back. -/
def execBaseDieReset (k : Nat) (s : State) : Out :=
  .next ((s.modStack k fun x => { x with takeover := false, beat := s.now }).atAll s.now [.refreshHeartbeat k, .scrub k])

/-- Codewords of a stack (R416, R421, R422): a sector of 32 bytes under inline ECC, a block of 512 bytes under BCH. -/
def State.codewords (s : State) (k : Nat) : Nat :=
  let bch : Bool := s.mapRegs.any fun m =>
    bitOf m.toNat 63 && bitOf m.toNat 62 && bvField m 58 54 ≤ k && k < bvField m 58 54 + 2 ^ bvField m 61 59
  15 * 2 ^ 32 / (if bch then 512 else 32)

/-- Cycles between two scrub reads at most, so that every codeword is read once in each scrub period (R425). -/
def State.scrubGap (s : State) (k : Nat) : Nat := max 1 (s.nsCycles k (s.scrub * 3600 * 10 ^ 9) / s.codewords k)

/-- SCRUB (R425): the next codeword is read, the next one after it in time for the scrub period; after a takeover scrubbing stops. -/
def execScrub (k : Nat) (s : State) : Out :=
  if (s.stack k).takeover then .next s
  else
    .next ((s.modStack k fun x => { x with scrubbed := x.scrubbed + 1 }).bump.at_ (s.now + 1 + Config.pathCycles s.tick % s.scrubGap k)
      (.scrub k))

end Sys2Proof.Machine
end

