-- ==== Sys2Proof/Machine/Helyel.lean ====
section
/-! DEFINITION. The Helyel endpoints: links, remote requests to a stack, and the answers to the module's own requests (R426 to R431). -/

namespace Sys2Proof.Machine

open Sys2Proof

/-! ### The link (R426) -/

/-- An endpoint starts retraining, which ends within 40 µs, with success or not. -/
def State.retrain (s : State) (e : Nat) : State :=
  let due := s.now + Config.pathCycles s.tick % (s.nsCycles e 40000 + 1)
  ((s.modStack e fun k => { k with link := 1 }).bump).at_ due (.linkRetrainComplete e (Config.choice s.tick % 2 = 0))

/-- FLIT_CRC_FAILURE (R426): the receiver sends NAK with the flit's SEQ. -/
def execFlitCrcFailure (e seq : Nat) (s : State) : Out :=
  .next (if (s.stack e).link = 0 then { s with sent := some (.nak (seq % 1024)) } else s)

/-- FLIT_NAK (R426): the sender replays from the flit; after 8 failed replays of one flit the link retrains. -/
def execFlitNak (e seq : Nat) (s : State) : Out :=
  let k := s.stack e
  if k.link ≠ 0 then .next s
  else
    let n := if k.naks ≠ 0 ∧ k.nakSeq = seq then k.naks + 1 else 1
    if 9 ≤ n then .next ((s.modStack e fun k => { k with naks := 0 }).retrain e)
    else
      let lnk := BitVec.ofNat 64 (bvField k.lnk 63 32 * 2 ^ 32 + (bvField k.lnk 31 16 + 1) % 65536 * 65536 + bvField k.lnk 15 0)
      .next { s.modStack e fun k => { k with nakSeq := seq, naks := n, lnk := lnk } with sent := some (.flits (seq % 1024)) }

/-- LNKCTL_RETRAIN (R426): a link that is down retrains; in another state the write is ignored. -/
def execLnkctlRetrain (e : Nat) (s : State) : Out := .next (if (s.stack e).link = 2 ∧ s.dead = false then s.retrain e else s)

/-- Record an answer to a lane's request (R430). -/
def State.answer (s : State) (n lane status : Nat) : State :=
  match s.requests.find? fun r => r.id = n with
  | none => s
  | some r =>
    match r.lanes.find? fun l => l.1 = lane with
    | none => s
    | some l =>
      if (r.answers.find? lane).isSome then s
      else
        ({ s with requests := s.requests.map fun x => if x.id = n then { x with answers := x.answers.put lane status } else x } : State).logPeer
          status l.2

/-- HELYEL_RESPONSE (R430): a response, or the local completion, of one lane's request. -/
def execHelyelResponse (n lane status : Nat) (s : State) : Out := .next (s.answer n lane status)

/-- LINK_RETRAIN_COMPLETE (R426): the link returns to service, or stays down: outstanding requests complete with LINKDOWN, and the event
is written. -/
def execLinkRetrainComplete (e : Nat) (ok : Bool) (s : State) : Out :=
  if (s.stack e).link ≠ 1 then .next s
  else if ok then .next (s.modStack e fun k => { k with link := 0, naks := 0 })
  else
    let s1 := s.modStack e fun k => { k with link := 2, naks := 0 }
    let s2 := s1.requests.foldl (fun s r =>
      (r.lanes.filter fun l => endpointOf l.2 = e).foldl (fun s l => s.answer r.id l.1 5) s) s1
    .next (s2.report (e / 2) ⟨7, 0, e, 0, 0⟩)

/-! ### Requests to this module's stacks (R427 to R429) -/

/-- The physical address of a stack-local address: the inverse of R419, none where no region maps the stack. -/
def State.paOf (s : State) (k sla : Nat) : Option Nat :=
  (List.range 16).findSome? fun r =>
    let m := s.mapRegs.getD r 0
    let ls := bvField m 61 59
    let st := bvField m 58 54
    if bitOf m.toNat 63 && st ≤ k && k < st + 2 ^ ls then
      let line := sla / 256
      let cell := line % 2 ^ 24
      let y := cell % 2 ^ 10 + (k - st) * 2 ^ 10 + cell / 2 ^ 10 * 2 ^ (10 + ls)
      (solveRows ((s.matrices.drop (44 * r)).take 44) y).map fun x =>
        bvField m 19 0 * 2 ^ 32 + (line / 2 ^ 24 * 2 ^ (ls + 24) + x) * 256 + sla % 256
    else none

/-- The permission bit that a request needs (R429). -/
def aclOk (e : BitVec 128) (perm node : Nat) (key : Word) (lo hi : Nat) : Bool :=
  bitOf e.toNat 127 && bitOf (bvField e 126 124) perm && bvField e 123 115 ≤ node && node ≤ bvField e 114 106
  && bvField e 105 86 ≤ lo / 65536 && hi / 65536 ≤ bvField e 85 66 && bvField e 31 0 = key.toNat

/-- The status of a request on arrival (R424, R428, R429): REFUSED, UNBACKED, DENIED, FENCED, or OK. -/
def State.checkRequest (s : State) (k perm node : Nat) (key : Word) (sla n : Nat) : Nat :=
  let x := s.stack k
  if x.takeover then 3
  else if 0xF00000000 ≤ sla then 4
  else if ((List.range 64).any fun j => aclOk (x.acl.get j) perm node key sla (sla + n - 1)) = false then 1
  else if (match s.paOf k sla with
      | some pa => s.isFenced pa
      | none => false) then 2
  else 0

/-- The request is one that R428 allows: whole sectors of one line, or an aligned atomic. -/
def requestForm (atomic : Bool) (sla n : Nat) : Bool :=
  sla < 2 ^ 36 && n ≠ 0 && (if atomic then sla % n = 0 else sla % 32 = 0 && n % 32 = 0 && sla / 256 = (sla + n - 1) / 256)

/-- A cached sector may have been written back or dropped before the request reached the stack (R330, log entry 9). -/
def State.settleSectors (s : State) (pa n : Nat) : State :=
  (sectorsOf pa n).foldl (fun s k =>
    if (s.cached.find? k).isSome && Config.evicted s.tick k then s.discardSector k else s) s.bump

/-- A byte as the stack holds it (R295). -/
def State.stackByte (s : State) (pa : Nat) : Byte := (s.stackDiff.find? pa).getD (s.mem.read pa)

/-- Write one byte of the stack: a sector that a cache holds keeps its own (R295, R330). -/
def State.writeStackByte (s : State) (pa : Nat) (b : Byte) : State :=
  if (s.cached.find? (pa / 32)).isSome then
    { s with stackDiff := if s.mem.read pa = b then s.stackDiff.del pa else s.stackDiff.put pa b }
  else ({ s with mem := s.mem.write pa [b], stackDiff := s.stackDiff.del pa } : State)

/-- Write bytes of the stack where a mask allows it. -/
def State.writeStack (s : State) (pa : Nat) (mask : Nat → Bool) (bs : List Byte) : State :=
  (List.range bs.length).foldl (fun s i => if mask i then s.writeStackByte (pa + i) (bs.getD i 0) else s) s

/-- Answer a request. -/
def State.reply (s : State) (status old : Nat) (data : List Byte) : State := { s with sent := some (.helyel status old data) }

/-- Serve a request: its checks, then what it does to the bytes at its physical address. A request waits while a commit checks its
region (R420); none arrives while the link is down or retraining (R426). -/
def State.serveRequest (s : State) (ev : Ev) (k perm node : Nat) (key : Word) (sla n : Nat) (atomic : Bool)
    (body : State → Nat → State) : State :=
  if (s.stack k).link ≠ 0 ∨ requestForm atomic sla n = false then s
  else
    match s.checkRequest k perm node key sla n with
    | 0 =>
      match s.paOf k sla with
      | none => s.reply 0 (Config.unstated s.tick) (freeBytes s.tick n)
      | some pa => if s.mapWaits pa then s.at_ (s.now + 1) ev else body (s.settleSectors pa n) pa
    | st => s.reply st 0 []

/-- HELYEL_READ (R428): `n` sectors of the stack. -/
def execHelyelRead (e node : Nat) (key : Word) (sla n : Nat) (s : State) : Out :=
  .next (s.serveRequest (.helyelRead e node key sla n) e 0 node key sla (32 * n) false fun s pa =>
    s.reply 0 0 ((List.range (32 * n)).map fun i => s.stackByte (pa + i)))

/-- The bytes that a write's mask lets through: those of a one-sector write that the mask names, else all (R428). -/
def maskAt (data : List Byte) (mask : Word) (i : Nat) : Bool := data.length ≠ 32 || mask.getLsbD i

/-- HELYEL_WRITE (R428): sectors of the stack. -/
def execHelyelWrite (e node : Nat) (key : Word) (sla : Nat) (mask : Word) (data : List Byte) (s : State) : Out :=
  .next (s.serveRequest (.helyelWrite e node key sla mask data) e 1 node key sla data.length false fun s pa =>
    (s.writeStack pa (maskAt data mask) data).reply 0 0 [])

/-- Bytes of an atomic. -/
def atomicSize (wide : Bool) : Nat := if wide then 8 else 4

/-- An indivisible update of a value in the stack; the old value is the answer (R428). -/
def State.stackAtomic (s : State) (pa : Nat) (wide : Bool) (f : Nat → Nat) : State :=
  let n := atomicSize wide
  let old := leNat ((List.range n).map fun i => s.stackByte (pa + i))
  (s.writeStack pa (fun _ => true) (natLE n (f old))).reply 0 old []

/-- HELYEL_ATOMIC_ADD (R428): integer addition modulo 2^(8n). -/
def execHelyelAtomicAdd (e node : Nat) (key : Word) (sla : Nat) (wide : Bool) (v : DWord) (s : State) : Out :=
  .next (s.serveRequest (.helyelAtomicAdd e node key sla wide v) e 2 node key sla (atomicSize wide) true fun s pa =>
    s.stackAtomic pa wide fun m => m + v.toNat)

/-- HELYEL_COMPARE_AND_SWAP (R428). -/
def execHelyelCompareAndSwap (e node : Nat) (key : Word) (sla : Nat) (wide : Bool) (v cmp : DWord) (s : State) : Out :=
  .next (s.serveRequest (.helyelCompareAndSwap e node key sla wide v cmp) e 2 node key sla (atomicSize wide) true fun s pa =>
    s.stackAtomic pa wide fun m => if m = cmp.toNat % 2 ^ (8 * atomicSize wide) then v.toNat else m)

/-- HELYEL_FENCED_WRITE (R428): requests are performed one at a time in their order of arrival, so that it needs no further order. -/
def execHelyelFencedWrite (e node : Nat) (key : Word) (sla : Nat) (mask : Word) (data : List Byte) (s : State) : Out :=
  .next (s.serveRequest (.helyelFencedWrite e node key sla mask data) e 1 node key sla data.length false fun s pa =>
    (s.writeStack pa (maskAt data mask) data).reply 0 0 [])

end Sys2Proof.Machine
end

