-- ==== Sys2Proof/Machine/Energy.lean ====
section
/-! DEFINITION. Energy accounts, the ladder of settings and the caps (R432 to R438). -/

namespace Sys2Proof.Machine

open Sys2Proof

/-- What the events of the nine classes that an account is charged with weigh at a fold (R432). -/
def State.charge (s : State) (account : Nat) : Nat :=
  ((List.range 9).map fun k => Config.weight s.cal k * Config.events s.tick account k).sum

/-- The contexts of a partition that have not been terminated. -/
def State.liveOn (s : State) (p : Nat) : List Nat :=
  (s.contexts.filter fun c => c.2.part = p && !c.2.terminated).map (·.1)

/-- What a partition's account is charged with at a fold (R432): the events of its contexts and the others on its dies and stacks, and
each die's idle weight for every cycle. -/
def State.partCharge (s : State) (p : Nat) : Nat :=
  ((s.liveOn p).map fun c => s.charge (2 * c)).sum + s.charge (2 * p + 1) + 65536 * (s.diesOf p).length * Config.weight s.cal 9

/-- ENERGY_FOLD (R432): every 2^16 cycles each core's weighted counts go into the accounts of its contexts and of its partition; the
counts and the weights are free values (log entry 11). -/
def execEnergyFold (s : State) : Out :=
  let s1 : State :=
    { s with
      contexts := s.contexts.map fun c => (c.1, if c.2.terminated then c.2 else { c.2 with energy := c.2.energy + s.charge (2 * c.1) })
      parts := s.parts.map fun p => (p.1, { p.2 with energy := p.2.energy + s.partCharge p.1 }) }
  .next (s1.bump.at_ ((s.now / 65536 + 1) * 65536) .energyFold)

/-! ### Settings and model power (R436) -/

/-- The last setting of the ladder: 0.9 GHz with G = 7. -/
def floorSetting : Nat := 11

/-- Eighths of a watt that a die draws at a setting (R436). -/
def State.diePower (s : State) (setting : Nat) : Nat :=
  let l := s.flash.ladder
  if setting ≤ 4 then 8 * l.getD setting 0
  else 8 * l.getD 5 0 + (l.getD 4 0 - l.getD 5 0) * (8 - (setting - 4))

/-- The dies of a partition. -/
def State.dieCount (s : State) (p : Nat) : Nat := (s.diesOf p).length

/-- A partition's modelled power with its stacks, in eighths of a watt (log entry 26). -/
def State.partPower (s : State) (p setting : Nat) : Nat := s.dieCount p * (s.diePower setting + 8 * 80)

/-- The setting that a table gives a partition. -/
def settingOf (t : Tab Nat) (p : Nat) : Nat := (t.find? p).getD 0

/-- Modelled module power in eighths of a watt (R436). -/
def State.modulePower (s : State) (t : Tab Nat) : Nat := (s.parts.map fun p => s.partPower p.1 (settingOf t p.1)).sum + 8 * 280

/-- Move a partition down the ladder until a condition holds, to the floor at most. -/
def lower (ok : Tab Nat → Bool) (p : Nat) : Nat → Tab Nat → Tab Nat
  | 0, t => t
  | n + 1, t => if ok t ∨ floorSetting ≤ settingOf t p then t else lower ok p n (t.put p (settingOf t p + 1))

/-- Partitions in ascending rank, ties in ascending number (R436). -/
def State.byRank (s : State) : List Nat := (List.range 8).flatMap fun r => (s.parts.filter fun p => p.2.rank = r).map (·.1)

/-- Meet a limit on module power by some partitions, in their order. -/
def State.meetCap (s : State) (limit : Nat) (ps : List Nat) (t : Tab Nat) : Tab Nat :=
  ps.foldl (fun t p => lower (fun t => s.modulePower t ≤ 8 * limit) p floorSetting t) t

/-- What the steps of R436 give: the settings after the partition caps, after the module cap, and after the hall cap. -/
def State.capSteps (s : State) : Tab Nat × Tab Nat × Tab Nat :=
  let start : Tab Nat := s.parts.map fun p => (p.1, 0)
  let t2 := s.parts.foldl (fun t p =>
    if p.2.pcap = 0 then t else lower (fun t => s.partPower p.1 (settingOf t p.1) ≤ 8 * p.2.pcap) p.1 floorSetting t) start
  let t3 := if s.moduleCap = 0 then t2 else s.meetCap s.moduleCap s.byRank t2
  let t4 := match s.hall with
    | none => t3
    | some h => s.meetCap h.limit (s.byRank.filter fun p => (s.part p).rank ≤ h.rank) t3
  (t2, t3, t4)

/-- The setting and the CAUSE of a partition after all steps (R438). -/
def capOf (c : Tab Nat × Tab Nat × Tab Nat) (p : Nat) (x : Part) : Nat × Nat :=
  let a := settingOf c.1 p
  let b := settingOf c.2.1 p
  let d := settingOf c.2.2 p
  let e := min floorSetting (d + x.thermal + x.current)
  let cause :=
    if d < e then (if x.thermal = 0 then 5 else 4)
    else if a < d then (if b < d then 1 else 2)
    else if 0 < a then 3
    else 0
  (e, cause)

/-- CAP_CAUSE of a partition (R438); SINCE moves with CAUSE or the setting. -/
def State.capWord (s : State) (p : Nat) (x : Part) (setting cause : Nat) : DWord :=
  let rank := if cause = 1 then (s.hall.map (·.rank)).getD 0 else 0
  let since := if setting = x.setting ∧ cause = bvField x.cause 63 61 then bvField x.cause 47 0 else s.cycles p / 65536 % 2 ^ 48
  BitVec.ofNat 64 (cause * 2 ^ 61 + rank % 8 * 2 ^ 58 + min setting 4 * 2 ^ 55 + (setting - 4) * 2 ^ 52 + since)

/-- CAP_APPLICATION (R436): every partition's setting is formed anew; a change of setting is reported (R437, R442). -/
def execCapApplication (s : State) : Out :=
  let c := s.capSteps
  let s1 := s.parts.foldl (fun (t : State) p =>
    let r := capOf c p.1 p.2
    let w := s.capWord p.1 p.2 r.1 r.2
    let t1 := t.modPart p.1 fun x => { x with setting := r.1, cause := w, thermal := 0, current := 0 }
    if r.1 = p.2.setting then t1 else t1.report 0 ⟨5, 0, p.1, 0, w.toNat⟩) s
  .next (s1.at_ (s.nextPoint (s.partOf.getD 0 0) 65536) .capApplication)

/-- THERMAL_EVENT (R436): the die's partition steps down at the next application. -/
def execThermalEvent (d : Nat) (s : State) : Out :=
  .next (s.modPart (s.partOf.getD d 0) fun x => { x with thermal := x.thermal + 1 })

/-- CURRENT_LIMIT_EVENT (R436). -/
def execCurrentLimitEvent (d : Nat) (s : State) : Out :=
  .next (s.modPart (s.partOf.getD d 0) fun x => { x with current := x.current + 1 })

/-- SET_HALL_CAP (R437): the message replaces the one before it and is answered with MET and the modelled module power. -/
def execSetHallCap (limit rank expiry : Nat) (s : State) : Out :=
  let id := s.tick
  let lim := limit % 65536
  let s1 : State := { s with hall := if lim = 0 then none else some { limit := lim, rank := rank % 8, id := id } }
  let met := lim = 0 || s1.modulePower s1.capSteps.2.2 ≤ 8 * lim
  let power := s.modulePower (s.parts.map fun p => (p.1, p.2.setting)) / 8
  let s2 := ({ s1 with sent := some (.hall met power) } : State).bump
  .next (if lim = 0 ∨ expiry % 65536 = 0 then s2 else s2.at_ (s.now + s.nsCycles 0 (expiry % 65536 * 1000000000)) (.hallCapExpiry id))

/-- HALL_CAP_EXPIRY (R437): the cap that has not been replaced is lifted. -/
def execHallCapExpiry (n : Nat) (s : State) : Out :=
  .next { s with hall := s.hall.bind fun h => if h.id = n then none else some h }

end Sys2Proof.Machine
end

