-- ==== Sys2Proof/Machine/Matrix.lean ====
section
/-! DEFINITION. The operand stores, the accumulator tiles and the matrix array (R211 to R237). -/

namespace Sys2Proof.Machine

open Sys2Proof

/-! ### Claims -/

/-- The physical numbers of a store's slots that are tied to names of the ensembles resident on a core (R212): A, B and accumulator. An
ensemble parked away from its core ties none (R358). -/
def State.tied (s : State) (core : Nat) (p : Ensemble → List Nat) : List Nat :=
  (s.ensembles.filter fun e => e.2.core = core && e.2.pos != .saved true).flatMap fun e => p e.2

/-- The lowest free one of `count` physical numbers (R213). -/
def lowestFree (count : Nat) (used : List Nat) : Option Nat := (List.range count).find? fun k => !used.contains k

/-- The physical A or B slots that are tied. -/
def Ensemble.slotsTied (b : Bool) (e : Ensemble) : List Nat := (if b then e.bSlots else e.aSlots).map (·.2.phys)

/-- The physical tiles that are tied. -/
def Ensemble.tilesTied (e : Ensemble) : List Nat := e.tiles.map (·.2.phys)

/-- Put the issuing ensemble's entry into the table, so that a search over all ensembles sees it. -/
def Work.here (w : Work) : State := { w.s with ensembles := w.s.ensembles.put w.T.ens w.E }

/-- aclaim and bclaim (R233). -/
def Work.claim (w : Work) (n : Ins) (b : Bool) : Work :=
  let k := n.mod % 8
  let status (v : Nat) (w : Work) : Work := w.later 8 0#32 n 1 fun _ _ => BitVec.ofNat 32 v
  if (w.E.slot b k).isSome then status 1 w
  else
    match lowestFree 8 (w.here.tied w.E.core (Ensemble.slotsTied b)) with
    | none => status 2 w
    | some p => status 0 { w with E := w.E.setSlot b k { phys := p, data := [] } }

/-- arel and brel, once R228 lets them issue (R233). -/
def Work.release (w : Work) (n : Ins) (b : Bool) : Work :=
  let k := n.mod % 8
  let status (v : Nat) (w : Work) : Work := w.later 8 0#32 n 1 fun _ _ => BitVec.ofNat 32 v
  if (w.E.slot b k).isNone then status 1 w
  else
    status 0 { w with E := if b then { w.E with bSlots := w.E.bSlots.del k } else { w.E with aSlots := w.E.aSlots.del k } }

/-- aclaim (R233). -/
def opAclaim (n : Ins) : Work → Eff := ifActive fun w => .done (w.claim n false)

/-- bclaim (R233). -/
def opBclaim (n : Ins) : Work → Eff := ifActive fun w => .done (w.claim n true)

/-- arel (R233), held by earlier matrix instructions that read the slot (R228). -/
def opArel (n : Ins) : Work → Eff :=
  ifActive fun w => if w.s.slotReading w.E.core w.T.ens false (n.mod % 8) then .hold else .done (w.release n false)

/-- brel (R233), held as arel is. -/
def opBrel (n : Ins) : Work → Eff :=
  ifActive fun w => if w.s.slotReading w.E.core w.T.ens true (n.mod % 8) then .hold else .done (w.release n true)

/-! ### opld -/

/-- opld (R234): the checks in the order of their codes, the holds of R228 and R258, and the copy. -/
def opOpld (n : Ins) : Work → Eff :=
  ifActive fun w =>
    let low := lowLane w.act
    let b := bitOf n.mod 3
    let k := n.mod % 8
    let src := w.stageAddr n n.sa low
    let rec_ := (w.src true n n.sb 0 low).toNat
    let off := rec_ % 65536
    let len := (field rec_ 25 16 + 1) * 64
    let bar := if n.sc = .zero then none else some (w.src true n n.sc 0 low).toNat
    if off % 64 ≠ 0 ∨ rec_ / 2 ^ 26 ≠ 0 ∨ (if b then 65536 else 32768) < off + len then .trap { cause := 0x02 }
    else if src % 64 ≠ 0 then .trap { cause := 0x07, info := low, addr := src }
    else if bar.isSome ∧ bar.getD 0 % 16 ≠ 0 then .trap { cause := 0x07, info := low, addr := bar.getD 0 }
    else if w.E.size < src + len then .trap (stageOut src)
    else if bar.isSome ∧ w.E.size < bar.getD 0 + 16 then .trap (stageOut (bar.getD 0))
    else
      match w.conflict false src (src + len - 1) with
      | some t => .trap t
      | none =>
        if (w.E.slot b k).isNone then .trap { cause := 0x10, info := k + 8 * b.toNat }
        else if w.memHeld ∨ w.s.slotReading w.E.core w.T.ens b k ∨ w.s.slotWriting w.T.ens b k w.s.tick ∨ w.queueFull then .hold
        else .done (w.enqueue (w.copy (.opld b k off src len) (len / 32) bar))

/-! ### Shapes, formats and checks -/

/-- A rate class of R219: P, the lead bit, the largest K, and whether its steps are TX blocks. -/
structure MatClass where
  name : Nat
  p : Nat
  lead : Int
  kmax : Nat
  tx : Bool
deriving DecidableEq, Repr

/-- The class of an entry (R219). -/
def classOfEntry (f : Fmt) : Option MatClass :=
  if f.kind = 1 ∧ f.width = 16 ∧ f.plain then some ⟨0, 8, 34, 128, false⟩
  else if f.kind = 1 ∧ f.width = 8 then some ⟨1, 16, 20, 256, false⟩
  else if f.kind = 1 ∧ (f.width = 4 ∨ f.width = 6) then some ⟨2, 32, 19, if f.width = 6 then 256 else 512, false⟩
  else if f.kind = 5 then
    (if f.fw = 7 then some ⟨3, 8, 0, 128, true⟩ else if f.fw = 4 then some ⟨4, 16, 0, 256, true⟩ else some ⟨5, 32, 0, 512, true⟩)
  else none

/-- What a matrix instruction works on, once its checks pass (R217 to R219, R225). -/
structure MatCfg where
  fa : Fmt
  fb : Fmt
  k : Nat
  n : Nat
  coff : Nat
  p : Nat
  lead : Int
  tx : Bool
  ascl : Nat
  bscl : Nat
  meta_ : Nat
  tile : Nat
  a : Nat
  b : Nat
  ranges : List (Nat × Nat)

/-- Array cycles (R219). -/
def MatCfg.occ (c : MatCfg) : Nat := c.n / 8 * (c.k / c.p)

/-- Kinds of matrix multiply. -/
inductive MatKind where
  | dense | sparse | cued
deriving DecidableEq, Repr

/-- The entry that the checks of code 0x06 name, if they fail (R220). -/
def Work.matEntry (w : Work) (kind : MatKind) (af bf cf abl bbl : Nat) : Option Nat :=
  let fa := w.fmt af
  let fb := w.fmt bf
  let ca := classOfEntry fa
  let cb := classOfEntry fb
  if !fmtValid w.look af ∨ ca.isNone then some af
  else if !fmtValid w.look bf ∨ cb.isNone then some bf
  else if cf ≠ 0 then some cf
  else if ca.map (·.name) ≠ cb.map (·.name) then some bf
  else if abl ≠ fa.blen then some af
  else if bbl ≠ fb.blen then some bf
  else if kind = .sparse ∧ !fa.plain then some af
  else if kind = .sparse ∧ !fb.plain then some bf
  else none

/-- The limits of R219 on K, for two valid entries of one class. -/
def kOk (kind : MatKind) (fa fb : Fmt) (ca cb : MatClass) (k : Nat) : Bool :=
  let p := if kind = .sparse then 2 * ca.p else ca.p
  let bl (f : Fmt) : Nat := if f.scaled then f.blockLen else 1
  let mult := if ca.tx then 32 else if ca.name = 0 then 16 else max (max (if ca.name = 1 then 16 else 1) p) (max (bl fa) (bl fb))
  k ≤ min ca.kmax cb.kmax && k % mult = 0

/-- The checks of R220, in their order. -/
def Work.matCheck (w : Work) (n : Ins) (kind : MatKind) : Except TrapInfo MatCfg :=
  let low := lowLane w.act
  let fb_ := w.src64 true n n.sa low
  let sh := (w.src true n n.sb 0 low).toNat
  let sc := (w.src true n n.sc 0 low).toNat
  let af := field fb_ 5 0
  let bf := field fb_ 11 6
  let fa := w.fmt af
  let fb := w.fmt bf
  let ascl := field fb_ 42 24
  let bscl := field fb_ 61 43
  let nn := 8 * (sh % 32 + 1)
  let k := 16 * (field sh 9 5 + 1)
  let coff := field sh 14 10
  let both : Option (MatClass × MatClass) :=
    if !fmtValid w.look af || !fmtValid w.look bf then none
    else match classOfEntry fa, classOfEntry fb with
      | some x, some y => if x.name = y.name then some (x, y) else none
      | _, _ => none
  let kBad : Bool := match both with
    | some (x, y) => !kOk kind fa fb x y k
    | none => false
  if fb_ / 2 ^ 62 ≠ 0 ∨ field fb_ 23 22 ≠ 0 ∨ sh / 2 ^ 15 ≠ 0 ∨ 256 < coff * 8 + nn
      ∨ ascl % 16 ≠ 0 ∨ bscl % 16 ≠ 0 ∨ (ascl ≠ 0 ∧ !fa.scaled) ∨ (bscl ≠ 0 ∧ !fb.scaled)
      ∨ (kind = .sparse ∧ (sc / 2 ^ 19 ≠ 0 ∨ sc % 256 ≠ 0)) ∨ (kind = .cued ∧ 63 < sc % 256) ∨ kBad = true then
    .error { cause := 0x02 }
  else
    match w.matEntry kind af bf (field fb_ 17 12) (field fb_ 19 18) (field fb_ 21 20), both with
    | some e, _ => .error { cause := 0x06, info := e }
    | none, none => .error { cause := 0x06, info := af }
    | none, some (x, _) =>
      let ranges :=
        (if fa.scaled then [(ascl, ascl + 128 * (k / fa.blockLen) - 1)] else [])
        ++ (if fb.scaled then [(bscl, bscl + nn * (k / fb.blockLen) - 1)] else [])
        ++ (if kind = .sparse then [(sc, sc + 8191)] else [])
      let c : MatCfg :=
        { fa := fa, fb := fb, k := k, n := nn, coff := 8 * coff, p := if kind = .sparse then 2 * x.p else x.p, lead := x.lead,
          tx := x.tx, ascl := ascl, bscl := bscl, meta_ := sc, tile := n.mod % 4, a := n.mod / 4 % 8, b := n.mod / 32 % 8,
          ranges := ranges }
      match ranges.find? fun r => w.E.size ≤ r.2 with
      | some r => .error (stageOut r.1)
      | none =>
        if (w.E.aSlots.find? c.a).isNone then .error { cause := 0x10, info := c.a }
        else if (w.E.bSlots.find? c.b).isNone then .error { cause := 0x10, info := 8 + c.b }
        else if (w.E.tiles.find? c.tile).isNone then .error { cause := 0x10, info := 16 + c.tile }
        else .ok c

/-! ### Arithmetic -/

/-- An element of a row of A or a column of B with its block's scale (R215, R216). -/
def matElem (f : Fmt) (bits : Nat) (scale : Option Nat) : Num :=
  match scale with
  | none => decodeFloat f bits
  | some 255 => .nan false
  | some s => (decodeFloat f bits).scale ((s : Int) - 127)

/-- `count` elements of a 256-byte string, with the scales of its blocks. -/
def matElems (f : Fmt) (count : Nat) (str : Nat) (scales : List Byte) : List Num :=
  (List.range count).map fun i =>
    matElem f (str / 2 ^ (f.width * i) % 2 ^ f.width)
      (if f.scaled then some (scales.getD (i / f.blockLen) 0).toNat else none)

/-- The sparse row of R225: element `k` stands where the metadata puts it, none where it leaves a position empty; and whether a
group is malformed. -/
def spread (kept : List Num) (meta_ k : Nat) : List (Option Num) × Bool :=
  let gs := (List.range (k / 4)).map fun g => (meta_ / 2 ^ (4 * g) % 4, meta_ / 2 ^ (4 * g + 2) % 4)
  ((List.range k).map fun q =>
    let g := gs.getD (q / 4) (0, 0)
    if g.2 ≤ g.1 then none
    else if q % 4 = g.1 then kept[2 * (q / 4)]?
    else if q % 4 = g.2 then kept[2 * (q / 4) + 1]?
    else none,
   gs.any fun g => g.2 ≤ g.1)

/-- The product of two elements: none where it is ∞ × 0. -/
def matProd (a : Option Num) (b : Num) : Option Num :=
  match a with
  | none => some (.fin false 0 0)
  | some x => mulNum x b

/-- One step of R222 on the code c: the new code and the flags. -/
def stepFloat (lead : Int) (sat : Bool) (c : Nat) (ab : List (Option Num × Num)) : Nat × Word :=
  let x := decodeFloat ft0 c
  let snan := ab.any fun e => (e.1.any Num.isSnan) || e.2.isSnan
  let fl := flagIf snan flagInv
  if x.isNan || ab.any fun e => (e.1.any Num.isNan) || e.2.isNan then (0x7FC00000, fl)
  else
    let ps := ab.map fun e => matProd e.1 e.2
    if ps.any (·.isNone) then (0x7FC00000, fl ||| flagInv)
    else
      let infs := (x :: ps.filterMap id).filterMap fun p => match p with
        | .inf n => some n
        | .fin _ _ _ => none
        | .nan _ => none
      match infs with
      | n :: t =>
        if t.any (· != n) then (0x7FC00000, fl ||| flagInv) else ((if n then 0xFF800000 else 0x7F800000), fl)
      | [] =>
        let fins := (ps.filterMap id).filterMap fun p => match p with
          | .fin n m e => if m = 0 then none else some (n, m, e)
          | .inf _ => none
          | .nan _ => none
        match fins with
        | [] => (c, fl)
        | (_, m0, e0) :: t =>
          let emax := t.foldl (fun a p => max a (numLog p.2.1 p.2.2)) (numLog m0 e0)
          let cut (p : Bool × Nat × Int) : Nat × Nat × Nat := quotient p.2.1 p.2.2 (emax - lead)
          let s := (fins.map fun p => if p.1 then -((cut p).1 : Int) else ((cut p).1 : Int)).sum
          let inx := flagIf (fins.any fun p => (cut p).2.1 != 0) flagInx
          if s = 0 then (c, fl ||| inx)
          else
            let r := faddNum ft0 .rne sat 0 x (Num.ofInt s (emax - lead))
            (r.1, fl ||| inx ||| r.2)

/-- A TX block's exponent, tiers, signs and magnitudes (R170), as a value of each element over 2^(E − BIAS − (m − 1) − 3). -/
def txTerms (f : Fmt) (bits : Nat) : Nat × List Int :=
  (bits % 256, (List.range 32).map fun k =>
    let code := bits / 2 ^ (16 + f.width * k) % 2 ^ f.width
    let mag : Int := (code % 2 ^ f.fw : Nat)
    let tau := bits / 2 ^ (8 + 2 * (k / 8)) % 4
    (if bitOf code f.fw then -mag else mag) * 2 ^ (3 - tau))

/-- One step of R223. -/
def stepTx (fa fb : Fmt) (sat : Bool) (c : Nat) (a b : Nat × List Int) : Nat × Word :=
  let x := decodeFloat ft0 c
  if x.isNan ∨ a.1 = 255 ∨ b.1 = 255 then (0x7FC00000, 0#32)
  else
    let t := ((List.range 32).map fun k => a.2.getD k 0 * b.2.getD k 0).sum
    let infinite : Bool := match x with
      | .inf _ => true
      | .fin _ _ _ => false
      | .nan _ => false
    if t = 0 ∨ infinite then (c, 0#32)
    else
      faddNum ft0 .rne sat 0 x
        (Num.ofInt t ((a.1 : Int) - fa.bias + (b.1 : Int) - fb.bias - 2 * ((fa.fw : Int) - 1) - 6))

/-- Apply steps in ascending order (R221). -/
def matSteps {α : Type} (step : Nat → α → Nat × Word) (c : Nat) (l : List α) : Nat × Word :=
  l.foldl (fun (x : Nat × Word) a => let r := step x.1 a; (r.1, x.2 ||| r.2)) (c, 0#32)

/-- Cut a list into pieces of a length. -/
def pieces {α : Type} (p : Nat) : Nat → List α → List (List α)
  | 0, _ => []
  | k + 1, l => l.take p :: pieces p k (l.drop p)

/-- The rows of the active lanes after a matrix instruction, and its flags (R221, R224, R229). -/
def matCompute (e : Ensemble) (c : MatCfg) (sparse sat : Bool) (lanes : List Nat) (tile : Store 32) : Store 32 × Word :=
  let sa : Store 8 := ((e.aSlots.find? c.a).map (·.data)).getD []
  let sb : Store 8 := ((e.bSlots.find? c.b).map (·.data)).getD []
  let row (r : Nat) : Nat := leNat (sa.getMany (256 * r) 256)
  let col (j : Nat) : Nat := leNat (sb.getMany (256 * j) 256)
  let put (st : Store 32 × Word) (r j : Nat) (x : Nat × Word) : Store 32 × Word :=
    (st.1.set (256 * r + c.coff + j) (BitVec.ofNat 32 x.1), st.2 ||| x.2)
  let old (t : Store 32) (r j : Nat) : Nat := (t.get (256 * r + c.coff + j)).toNat
  if c.tx then
    let len := 16 + 32 * c.fa.width
    let lenB := 16 + 32 * c.fb.width
    let blocks (f : Fmt) (l str : Nat) : List (Nat × List Int) := (List.range (c.k / 32)).map fun b => txTerms f (str / 2 ^ (l * b))
    let cols := (List.range c.n).map fun j => blocks c.fb lenB (col j)
    lanes.foldl (fun st r =>
      let ra := blocks c.fa len (row r)
      (List.range c.n).foldl (fun st j =>
        put st r j (matSteps (fun v (ab : (Nat × List Int) × (Nat × List Int)) => stepTx c.fa c.fb sat v ab.1 ab.2) (old st.1 r j)
          (ra.zip (cols.getD j [])))) st) (tile, 0#32)
  else
    let na := c.k / c.fa.blockLen
    let nb := c.k / c.fb.blockLen
    let cols := (List.range c.n).map fun j => matElems c.fb c.k (col j) (e.stageRead (c.bscl + j * nb) (if c.fb.scaled then nb else 0))
    lanes.foldl (fun st r =>
      let elems := matElems c.fa (if sparse then c.k / 2 else c.k) (row r) (e.stageRead (c.ascl + r * na) (if c.fa.scaled then na else 0))
      let sp := if sparse then spread elems (leNat (e.stageRead (c.meta_ + 64 * r) 64)) c.k else (elems.map some, false)
      let st0 : Store 32 × Word := (st.1, st.2 ||| flagIf sp.2 flagInv)
      (List.range c.n).foldl (fun st j =>
        put st r j (matSteps (stepFloat c.lead sat) (old st.1 r j) (pieces c.p (c.k / c.p) (sp.1.zip (cols.getD j []))))) st0)
      (tile, 0#32)

/-! ### Issue -/

/-- The array holds an instruction that has not passed its last occupancy cycle (R227). -/
def Core.arrayBusy (c : Core) (now : Nat) : Bool :=
  c.mats.any fun m => match m.start with
    | some t => now < t + m.occ
    | none => true

/-- The issue conditions of R227 do not hold on the array, or on the slots and the tile that the instruction names. -/
def Work.arrayHeld (w : Work) (n : Ins) : Bool :=
  (w.s.core w.E.core).arrayBusy w.s.now
  || w.s.slotWriting w.T.ens false (n.mod / 4 % 8) w.s.tick || w.s.slotWriting w.T.ens true (n.mod / 32 % 8) w.s.tick
  || w.s.now < ((w.E.tiles.find? (n.mod % 4)).map (·.busy)).getD 0

/-- The issue conditions of R227 do not hold on the ranges in stage memory. -/
def Work.matHeld (w : Work) (c : MatCfg) : Bool :=
  let core := w.s.core w.E.core
  (c.ranges.any fun r => (core.stageLock w.T.ens r.1 r.2 true).isSome || (w.E.winAt [2] r.1 r.2).isSome)
  || !core.lockRoom c.ranges.length

/-- A matrix multiply that may issue (R227, R235): its tile holds the result at once, and nothing reads it before it is ready
(log entry 19). -/
def Work.matIssue (w : Work) (n : Ins) (kind : MatKind) (c : MatCfg) : Work :=
  let r := matCompute w.E c (kind = .sparse) n.sat (lanesOf w.act) ((w.E.tiles.find? c.tile).map (·.data) |>.getD [])
  let id := w.s.tick
  let m : Mat :=
    { id := id, ens := w.T.ens, tid := w.tid, uid := w.S.uid, tile := c.tile, aslot := c.a, bslot := c.b, occ := c.occ,
      start := if kind = .cued then none else some w.s.now, flags := r.2, readers := [] }
  let locks := c.ranges.map fun x =>
    ({ stage := true, ctx := w.E.ctx, ens := w.T.ens, lo := x.1, hi := x.2, writes := false, owner := id } : RangeLock)
  let w1 : Work :=
    { w with E := { w.E with tiles := w.E.tiles.modify c.tile fun t => { t with data := r.1 } },
             s := w.s.bump.modCore w.E.core fun k => { k.lock locks with mats := k.mats ++ [m] } }
  if kind = .cued then w1.addAct (w1.newAct (w.src true n n.sc 0 (lowLane w.act)) (.start id))
  else { w1 with s := w1.s.at_ (w.s.now + 32 + c.occ) (.matrixTileReady w.E.core id) }

/-- mma, mmasp and mmaco (R235): the checks are made when the instruction issues (R220, R227). -/
def opMat (kind : MatKind) (n : Ins) : Work → Eff :=
  ifActive fun w =>
    if w.memHeld ∨ w.arrayHeld n then .hold
    else
      match w.matCheck n kind with
      | .error t => .trap t
      | .ok c => if w.matHeld c then .hold else .done (w.matIssue n kind c)

/-- mma. -/
def opMma (n : Ins) : Work → Eff := opMat .dense n

/-- mmasp. -/
def opMmasp (n : Ins) : Work → Eff := opMat .sparse n

/-- mmaco. -/
def opMmaco (n : Ins) : Work → Eff := opMat .cued n

/-! ### Accumulator access -/

/-- An earlier matrix instruction into a tile is not complete (R228). -/
def Work.tilePending (w : Work) (k : Nat) : Bool :=
  ((w.s.core w.E.core).mats.any fun m => m.ens = w.T.ens && m.tile = k)
  || w.s.now < ((w.E.tiles.find? k).map (·.busy)).getD 0

/-- Claim a tile that is unclaimed (R213); none when no physical tile is free. -/
def Work.claimTile (w : Work) (k : Nat) : Option Work :=
  if (w.E.tiles.find? k).isSome then some w
  else
    (lowestFree 4 (w.here.tied w.E.core Ensemble.tilesTied)).map fun p =>
      { w with E := { w.E with tiles := w.E.tiles.put k { phys := p, data := [], busy := 0 } } }

/-- Change a tile's elements, complete after some cycles. -/
def Work.tileWrite (w : Work) (k cycles : Nat) (f : Store 32 → Store 32) : Work :=
  { w with E := { w.E with tiles := w.E.tiles.modify k fun t => { t with data := f t.data, busy := w.s.now + cycles } } }

/-- acczero (R237). -/
def opAcczero (n : Ins) : Work → Eff :=
  ifActive fun w =>
    let k := n.mod % 4
    if w.tilePending k then .hold
    else
      match w.claimTile k with
      | none => .trap { cause := 0x10, info := 256 + 16 + k }
      | some w1 =>
        .done (w1.tileWrite k 8 fun t =>
          (lanesOf w.act).foldl (fun (t : Store 32) r => t.setMany (256 * r) (List.replicate 256 0#32)) t)

/-- The column count of accrd and accwr (R237). -/
def accCols (n : Ins) : Nat := 2 ^ (n.mod / 4 % 4)

/-- accrd (R237): the values are those of the tile at issue, written when R228 says. -/
def opAccrd (n : Ins) : Work → Eff :=
  ifActive fun w =>
    let k := n.mod % 4
    let g := accCols n
    let col := (w.src true n n.sa 0 (lowLane w.act)).toNat
    if 256 < col + g then .trap { cause := 0x02 }
    else
      match w.E.tiles.find? k with
      | none => .trap { cause := 0x10, info := 16 + k }
      | some t =>
        let f := fmtOf (builtin n.fmt)
        let conv (j i : Nat) : Nat × Word :=
          convertNum (decodeFloat ft0 (t.data.get (256 * i + col + j)).toNat) false f n.rnd n.sat (w.random j i)
        let flags := orFlags ((lanesOf w.act).flatMap fun i => (List.range g).map fun j => (conv j i).2)
        let outs := w.outsOf n g w.act fun j i => BitVec.ofNat 32 (conv j i).1
        let core := w.s.core w.E.core
        let mine := core.mats.filter fun m => m.ens = w.T.ens && m.tile = k
        let id := w.s.tick
        let w1 := (w.holdFor (w.pendOf false 0 flags outs)).stepped n g
        match mine.find? fun m => m.start.isNone with
        | some m =>
          let m1 : Mat := { m with readers := m.readers ++ [(w.tid, id, g)] }
          .done { w1 with s := w1.s.modCore w.E.core fun c => { c with mats := c.mats.map fun x => if x.id = m.id then m1 else x } }
        | none =>
          let ready := mine.foldl (fun a m => max a (m.start.getD 0 + 32 + m.occ)) (max w.s.now t.busy)
          .done { w1 with s := w1.s.at_ (ready + 12 + g) (.scoreboardResultWrite w.tid id) }

/-- accwr (R237). -/
def opAccwr (n : Ins) : Work → Eff :=
  ifActive fun w =>
    let k := n.mod % 4
    let g := accCols n
    let col := (w.src true n n.sa 0 (lowLane w.act)).toNat
    if 256 < col + g then .trap { cause := 0x02 }
    else if w.tilePending k then .hold
    else
      match w.claimTile k with
      | none => .trap { cause := 0x10, info := 256 + 16 + k }
      | some w1 =>
        let f := fmtOf (builtin n.fmt)
        let value (j i : Nat) : Word :=
          let x := w.src true n n.sb j i
          if n.fmt = 0 then x else BitVec.ofNat 32 (convertNum (decodeFloat f (x.toNat % 65536)) false ft0 .rne false 0).1
        .done (w1.tileWrite k (8 + g) fun t =>
          (lanesOf w.act).foldl (fun (t : Store 32) r => t.setMany (256 * r + col) ((List.range g).map fun j => value j r)) t)

/-- accfree (R237). -/
def opAccfree (n : Ins) : Work → Eff :=
  ifActive fun w =>
    let k := n.mod % 4
    if w.tilePending k then .hold else .done { w with E := { w.E with tiles := w.E.tiles.del k } }

/-- ACLAIM (R233), extended form. -/
def execAclaim (f : X) (s : State) : Out := runX 0x80 f opAclaim s

/-- AREL (R233), extended form. -/
def execArel (f : X) (s : State) : Out := runX 0x81 f opArel s

/-- BCLAIM (R233), extended form. -/
def execBclaim (f : X) (s : State) : Out := runX 0x82 f opBclaim s

/-- BREL (R233), extended form. -/
def execBrel (f : X) (s : State) : Out := runX 0x83 f opBrel s

/-- OPLD (R234), extended form. -/
def execOpld (f : X) (s : State) : Out := runX 0x84 f opOpld s

/-- MMA (R235), extended form. -/
def execMma (f : X) (s : State) : Out := runX 0x85 f opMma s

/-- MMASP (R235), extended form. -/
def execMmasp (f : X) (s : State) : Out := runX 0x86 f opMmasp s

/-- MMACO (R236), extended form. -/
def execMmaco (f : X) (s : State) : Out := runX 0x87 f opMmaco s

/-- ACCZERO (R237), extended form. -/
def execAcczero (f : X) (s : State) : Out := runX 0x88 f opAcczero s

/-- ACCRD (R237), extended form. -/
def execAccrd (f : X) (s : State) : Out := runX 0x89 f opAccrd s

/-- ACCWR (R237), extended form. -/
def execAccwr (f : X) (s : State) : Out := runX 0x8a f opAccwr s

/-- ACCFREE (R237), extended form. -/
def execAccfree (f : X) (s : State) : Out := runX 0x8b f opAccfree s

/-! ### Events -/

/-- MATRIX_TILE_READY (R224, R227): flags are merged, ranges released, and the instruction is gone. -/
def execMatrixTileReady (core id : Nat) (s : State) : Out :=
  match (s.core core).mats.find? fun m => m.id = id with
  | none => .next s
  | some m =>
    let s1 := s.modCore core fun c => { c.unlock id with mats := c.mats.filter fun x => x.id ≠ id }
    let s2 := s1.modTroupe m.tid fun t => { t with tstat := t.tstat ||| m.flags }
    .next ((s2.kick core).at_ s2.now (.troupeEnd m.tid))

/-- The array takes up an mmaco (R235, R236): its readiness and that of the accrd results that wait for it are known. -/
def State.startMat (s : State) (core : Nat) (m : Mat) : State :=
  let ready := s.now + 32 + m.occ
  let m1 : Mat := { m with start := some s.now, readers := [] }
  let s1 := (s.modCore core fun c => { c with mats := c.mats.map fun x => if x.id = m.id then m1 else x }).at_ ready
    (.matrixTileReady core m.id)
  m.readers.foldl (fun (s : State) r => s.at_ (ready + 12 + r.2.2) (.scoreboardResultWrite r.1 r.2.1)) s1

/-- MMACO_START (R236): the cue action fires. -/
def execMmacoStart (core id : Nat) (s : State) : Out :=
  match (s.core core).act id with
  | none => .next s
  | some a =>
    let s1 := s.endAct core a
    match a.kind with
    | .start mat =>
      match (s1.core core).mats.find? fun m => m.id = mat with
      | none => .next s1
      | some m => .next (s1.startMat core m)
    | _ => .next s1

end Sys2Proof.Machine
end

