-- ==== Sys2Proof/Machine/Ports.lean ====
section
/-! DEFINITION. The module's ports: registers (R440), reports to the driver (R442), the host's and the service core's accesses (R329,
R461), the tier's snoops (R444), measurement (R445) and reset (R446). -/

namespace Sys2Proof.Machine

open Sys2Proof

/-! ### Reports (R442) -/

/-- Events that the ring holds. -/
def State.evSize (s : State) : Nat := 2 ^ bvField s.evcfg 4 0

/-- The stage managers look at the events that wait. -/
def State.writeEvents (s : State) : State :=
  (s.dies.filter fun d => d.2.reports ≠ []).foldl (fun s d => s.at_ s.now (.eventWrite d.1)) s

/-- An event's 32 bytes. -/
def Report.bytes (r : Report) (d lost : Nat) : List Byte :=
  natLE 1 r.code ++ natLE 1 d ++ natLE 2 (min lost 65535) ++ natLE 4 r.ctxid ++ natLE 4 r.num ++ zeros 4 ++ natLE 8 r.addr ++ natLE 8 r.info

/-- EVENT_WRITE (R442): the oldest event of a die is written into the ring, with the count of those dropped, and TAIL advances. -/
def execEventWrite (d : Nat) (s : State) : Out :=
  let x := s.die d
  match x.reports with
  | [] => .next s
  | r :: rest =>
    if s.evbase = 0 ∨ s.evSize ≤ (s.evtail - s.evhead).toNat then .next s
    else
      let s1 := s.homeWrite (4096 * bvField s.evbase 51 12 + 32 * (s.evtail.toNat % s.evSize)) (r.bytes d x.dropped)
      let s2 := s1.modDie d fun y => { y with reports := rest, dropped := 0 }
      .next (({ s2 with evtail := s2.evtail + 1 } : State).at_ s.now (.eventWrite d))

/-- EVHEAD_WRITE (R442): the driver has consumed events; places are free again. -/
def execEvheadWrite (v : Word) (s : State) : Out := .next (if s.dead then s else ({ s with evhead := v } : State).writeEvents)

/-- MSI-X vector 0 is raised (R442). -/
def State.msix0 (s : State) : Bool := s.evtail ≠ s.evhead

/-! ### Registers (R440) -/

/-- Clear the fields of a counter in which a written value has a bit set (R431). -/
def clearFields (x v : DWord) : DWord :=
  let keep (hi lo : Nat) : Nat := if bvField v hi lo = 0 then bvField x hi lo * 2 ^ lo else 0
  BitVec.ofNat 64 (keep 63 32 + keep 31 16 + keep 15 0)

/-- An offset in a die's block: the die and the offset. -/
def dieBlock (off : Nat) : Option (Nat × Nat) :=
  if 0x1000000 ≤ off ∧ off < 0x1000000 + 12 * 0x100000 then some ((off - 0x1000000) / 0x100000, off % 0x100000) else none

/-- COUNTER_CLEAR (R431): a write to CHQ of a channel or to LNK. -/
def execCounterClear (off : Nat) (v : DWord) (s : State) : Out :=
  match if s.dead then none else dieBlock off with
  | none => .next s
  | some (d, o) =>
    if o < 0x3000 ∨ 0x3400 ≤ o then .next s
    else
      let m := (o - 0x3000) / 0x200
      let r := (o - 0x3000) % 0x200
      .next (s.modStack (2 * d + m) fun k =>
        if r < 0x100 ∧ r % 8 = 0 then { k with chq := k.chq.set (r / 8) (clearFields (k.chq.get (r / 8)) v) }
        else if r = 0x100 then { k with lnk := clearFields k.lnk v }
        else k)

/-- A write to the module's own registers. -/
def State.writeModuleReg (s : State) (off : Nat) (v : DWord) : State :=
  match off with
  | 0x10 => { s with qtbase := v }
  | 0x18 => ({ s with evbase := keepBits v 51 12 } : State).writeEvents
  | 0x30 => if bvField v 3 0 = 0 then s else { s with ckshare := BitVec.ofNat 32 (bvField v 3 0) }
  | 0x38 => { s with evcfg := BitVec.ofNat 32 (if 6 ≤ bvField v 4 0 ∧ bvField v 4 0 ≤ 16 then bvField v 4 0 else 8) }
  | _ => s

/-- A write to the mapping registers (R420); MAPREG and MAPSTAT are read only. -/
def State.writeMapReg (s : State) (o : Nat) (v : DWord) : State :=
  if o = 0x280 then { s with mapNext := v }
  else if 0x100 ≤ o ∧ o < 0x100 + 8 * 44 ∧ o % 8 = 0 then { s with mapRows := s.mapRows.set ((o - 0x100) / 8) (keepBits v 43 0) }
  else s

/-- A write to a die's registers that have no event of their own (R287, R426, R427): FQCFG, which may make room for the records that
wait, a reply whose ACT is reserved, HNODE. -/
def State.writeDieReg (s : State) (d o : Nat) (v : DWord) : State :=
  if o = 0 then
    let n := bvField v 4 0
    (s.modDie d fun x => { x with fqcfg := keepBits v 51 12 ||| BitVec.ofNat 64 (if 6 ≤ n ∧ n ≤ 16 then n else 6) }).atAll s.now
      (List.replicate (s.die d).records.length (.faultRecordWrite d))
  else if o = 0x18 ∧ 2 ≤ bvField v 33 32 then s.modDie d fun x => { x with frstat := 2 }
  else if o = 0x3110 then s.modStack (2 * d) fun k => { k with hnode := BitVec.ofNat 32 (bvField v 8 0) }
  else if o = 0x3310 then s.modStack (2 * d + 1) fun k => { k with hnode := BitVec.ofNat 32 (bvField v 8 0) }
  else s

/-- A write to a base die's management registers, whose offsets the spec does not give (R427, R429; log entry 27): here half `h` of
entry `k` of the access-control table of stack `e` at 2^32 + 65,536 e + 16 k + 8 h, and the key of node `k` at 2^33 + 65,536 e + 8 k.
Bits 65:32 of an entry are reserved and read as zero (R8, R429). -/
def State.writeBaseReg (s : State) (off : Nat) (v : DWord) : State :=
  let e := off % 2 ^ 32 / 65536
  let o := off % 65536
  if 24 ≤ e then s
  else if off < 2 ^ 33 then
    if 1024 ≤ o then s
    else s.modStack e fun k =>
      let old := (k.acl.get (o / 16)).toNat
      { k with acl := k.acl.set (o / 16) (BitVec.ofNat 128
          (if o % 16 < 8 then old / 2 ^ 64 * 2 ^ 64 + bvField v 31 0 else old % 2 ^ 64 + bvField v 63 2 * 2 ^ 66)) }
  else if o < 4096 then s.modStack e fun k => { k with keys := k.keys.set (o / 8) (BitVec.ofNat 32 v.toNat) }
  else s

/-- REGISTER_WRITE (R7, R440): a register with no event of its own stores its writable fields, unless verification has failed (R446). -/
def execRegisterWrite (off : Nat) (v : DWord) (s : State) : Out :=
  .next (
    if s.dead then s
    else if off < 0x10000 then s.writeModuleReg off v
    else if off < 0x20000 then s.writeMapReg (off - 0x10000) v
    else if off < 0x20000 + 0x100 * 12 then
      let p := (off - 0x20000) / 0x100
      if off % 0x100 = 8 ∧ (s.parts.find? p).isSome then s.modPart p fun x => { x with budget := v } else s
    else
      match dieBlock off with
      | some (d, o) => s.writeDieReg d o v
      | none => if 2 ^ 32 ≤ off ∧ off < 2 ^ 33 + 2 ^ 32 then s.writeBaseReg off v else s)

/-! ### Accesses from outside the cores -/

/-- HOST_CXL_MEM_READ (R329): served at the home slice; a page that memory refuses gives bytes that the spec does not state. -/
def execHostCxlMemRead (pa n : Nat) (s : State) : Out :=
  if s.bootstat ≠ 1 ∨ targetOf pa ≠ .device ∨ s.backed pa = false then .next s
  else if s.mapWaits pa then .next (s.at_ (s.now + 1) (.hostCxlMemRead pa n))
  else if s.isFenced pa then .next ({ s with sent := some (.host (freeBytes s.tick n)) } : State).bump
  else .next { s.noteReads (sectorsOf pa n) with sent := some (.host (s.peek pa n)) }

/-- HOST_CXL_MEM_WRITE (R329): the write enters home order. -/
def execHostCxlMemWrite (pa : Nat) (data : List Byte) (s : State) : Out :=
  if s.bootstat ≠ 1 ∨ targetOf pa ≠ .device ∨ s.backed pa = false then .next s
  else if s.mapWaits pa then .next (s.at_ (s.now + 1) (.hostCxlMemWrite pa data))
  else .next (s.homeWrite pa data)

/-- BACK_INVALIDATE_SNOOP (R444): answered at once, since no tier data is retained. -/
def execBackInvalidateSnoop (_ : Nat) (s : State) : Out := .next { s with sent := some .snoop }

/-- SERVICE_CORE_MEMORY_ACCESS (R461): a load or a store of a service core, at its home slice. -/
def execServiceCoreMemoryAccess (_ pa n : Nat) (data : Option (List Byte)) (s : State) : Out :=
  if s.backed pa = false then .next s
  else if s.mapWaits pa then .next (s.at_ (s.now + 1) (.serviceCoreMemoryAccess 0 pa n data))
  else
    match data with
    | some bs => .next (s.homeWrite pa bs)
    | none => .next { (if targetOf pa = .device then s.noteReads (sectorsOf pa n) else s) with sent := some (.busData (s.peek pa n)) }

/-- SPDM_MEASUREMENT_REQUEST (R445): the hash of the key and the measurement of the image, a free value (log entry 12). -/
def execSpdmMeasurementRequest (s : State) : Out := .next { s with sent := some (.spdm (Config.measurement 0)) }

/-! ### Reset and bring-up (R446) -/

/-- The periodic events that bring-up starts: intervals, folds, applications of the caps, and the base dies' work. -/
def State.startPeriodic (s : State) : State :=
  let s1 := s.parts.foldl (fun (s : State) p => s.at_ (s.nextPoint p.1 (2 ^ 21)) (.energyIntervalStart p.1)) s
  let s2 := (s1.at_ ((s.now / 65536 + 1) * 65536) .energyFold).at_ (s.nextPoint (s.partOf.getD 0 0) 65536) .capApplication
  (List.range 24).foldl (fun (s : State) k => s.atAll s.now [.refreshHeartbeat k, .refresh k, .scrub k]) s2

/-- MODULE_RESET (R446): every register takes its reset value and every context is gone; memory and flash keep their bytes (log entry
5); then bring-up runs from the configuration image. -/
def execModuleReset (s : State) : Out :=
  let held := s.stackDiff.foldl (fun m c => Memory.write m c.1 [c.2]) s.mem
  let s1 : State := { State.reset with agenda := [], mem := held, flash := s.flash, tick := s.tick }
  let s2 := s1.bringUp
  .next (if s2.bootstat = 1 then s2.startPeriodic else s2)

end Sys2Proof.Machine
end

