-- ==== Sys2Proof/Machine/Agenda.lean ====
section
/-! DEFINITION. The events of the agenda, each with the meaning that its row of the opcode table has in the dispatch. -/

namespace Sys2Proof.Machine

open Sys2Proof

/-- What an event of the agenda does: the meaning of its constructor of Instr. -/
def runEvent (e : Ev) (s : State) : Out :=
  match e with
  | .undefinedInstruction w => execUndefinedInstruction w s
  | .fetchBeyondOverlay fell => execFetchBeyondOverlay fell s
  | .fetchOverlayAbsent => execFetchOverlayAbsent s
  | .fixedLatencyWrite t n => execFixedLatencyWrite t n s
  | .scoreboardResultWrite t n => execScoreboardResultWrite t n s
  | .loadSectorReturn t n => execLoadSectorReturn t n s
  | .storeAcknowledge t n => execStoreAcknowledge t n s
  | .reconvergenceFusion t => execReconvergenceFusion t s
  | .rejoinRelease t => execRejoinRelease t s
  | .splitSwapBack t => execSplitSwapBack t s
  | .splitExchange t => execSplitExchange t s
  | .troupeEnd t => execTroupeEnd t s
  | .imageLoad n img launched => execImageLoad n img launched s
  | .ovldCopyComplete n => execOvldCopyComplete n s
  | .shootdownAcknowledge core n => execShootdownAcknowledge core n s
  | .formatWriteAtHome c core e v n => execFormatWriteAtHome c core e v n s
  | .formatBroadcastApply c core e v n => execFormatBroadcastApply c core e v n s
  | .matrixTileReady core n => execMatrixTileReady core n s
  | .opldComplete n => execOpldComplete n s
  | .mmacoStart core n => execMmacoStart core n s
  | .copyStart t => execCopyStart t s
  | .sectorLanding n j => execSectorLanding n j s
  | .tbwaitWake t uid => execTbwaitWake t uid s
  | .sfillComplete n => execSfillComplete n s
  | .reduceContribution n sec => execReduceContribution n sec s
  | .reduceRetry n sec => execReduceRetry n sec s
  | .faultRecordWrite d => execFaultRecordWrite d s
  | .frplyReplay d token => execFrplyReplay d token s
  | .frplyRaise d token => execFrplyRaise d token s
  | .parkedReplay n => execParkedReplay n s
  | .fqheadWrite d v => execFqheadWrite d v s
  | .acqWaitSuccess n => execAcqWaitSuccess n s
  | .acqPoll n => execAcqPoll n s
  | .doorbell q => execDoorbell q s
  | .queueMap q => execQueueMap q s
  | .launchPacket q => execLaunchPacket q s
  | .waitPacket q => execWaitPacket q s
  | .signalPacket q => execSignalPacket q s
  | .nopPacket q => execNopPacket q s
  | .formatPreloadPacket q => execFormatPreloadPacket q s
  | .waitPacketReevaluate q => execWaitPacketReevaluate q s
  | .launchStart n => execLaunchStart n s
  | .productionRetire n => execProductionRetire n s
  | .energyIntervalStart p => execEnergyIntervalStart p s
  | .priorityAging q => execPriorityAging q s
  | .ensemblePlacement p => execEnsemblePlacement p s
  | .greenRoomTransfer c => execGreenRoomTransfer c s
  | .cuearmAtDesk core c cue off clear => execCuearmAtDesk core c cue off clear s
  | .cueBroadcast c cue n => execCueBroadcast c cue n s
  | .cueCopyWrite core c cue p set => execCueCopyWrite core c cue p set s
  | .cueTouchFire core n => execCueTouchFire core n s
  | .cueArrFire core n => execCueArrFire core n s
  | .cueGuardFire core n => execCueGuardFire core n s
  | .cuewaitFire core n => execCuewaitFire core n s
  | .contextSwitch core c => execContextSwitch core c s
  | .autoSwitch core => execAutoSwitch core s
  | .stop es park => execStop es park s
  | .captureComplete e => execCaptureComplete e s
  | .checkpointCut c => execCheckpointCut c s
  | .unitStreamed c => execUnitStreamed c s
  | .cutCommit c => execCutCommit c s
  | .resumption c => execResumption c s
  | .coreFence core => execCoreFence core s
  | .savecostUpdate c => execSavecostUpdate c s
  | .mapcmdCommit v => execMapcmdCommit v s
  | .mapCheckComplete => execMapCheckComplete s
  | .eccUncorrectable pa ctxid => execEccUncorrectable pa ctxid s
  | .fclrWrite k pa => execFclrWrite k pa s
  | .refreshHeartbeat k => execRefreshHeartbeat k s
  | .refreshTakeover k => execRefreshTakeover k s
  | .baseDieReset k => execBaseDieReset k s
  | .scrub k => execScrub k s
  | .flitNak e seq => execFlitNak e seq s
  | .linkRetrainComplete e ok => execLinkRetrainComplete e ok s
  | .lnkctlRetrain e => execLnkctlRetrain e s
  | .helyelRead e node key sla n => execHelyelRead e node key sla n s
  | .helyelWrite e node key sla mask data => execHelyelWrite e node key sla mask data s
  | .helyelAtomicAdd e node key sla wide v => execHelyelAtomicAdd e node key sla wide v s
  | .helyelCompareAndSwap e node key sla wide v cmp => execHelyelCompareAndSwap e node key sla wide v cmp s
  | .helyelFencedWrite e node key sla mask data => execHelyelFencedWrite e node key sla mask data s
  | .helyelResponse n lane status => execHelyelResponse n lane status s
  | .counterClear off v => execCounterClear off v s
  | .energyFold => execEnergyFold s
  | .capApplication => execCapApplication s
  | .thermalEvent d => execThermalEvent d s
  | .currentLimitEvent d => execCurrentLimitEvent d s
  | .setHallCap limit rank expiry => execSetHallCap limit rank expiry s
  | .hallCapExpiry n => execHallCapExpiry n s
  | .eventWrite d => execEventWrite d s
  | .evheadWrite v => execEvheadWrite v s
  | .hostCxlMemRead pa n => execHostCxlMemRead pa n s
  | .hostCxlMemWrite pa data => execHostCxlMemWrite pa data s
  | .backInvalidateSnoop pa => execBackInvalidateSnoop pa s
  | .moduleReset => execModuleReset s
  | .registerWrite off v => execRegisterWrite off v s
  | .contextCreation c part img regs => execContextCreation c part img regs s
  | .refresh k => execRefresh k s
  | .flitCrcFailure e seq => execFlitCrcFailure e seq s
  | .cacheActionComplete n => execCacheActionComplete n s
  | .swapBackReadComplete t k => execSwapBackReadComplete t k s
  | .spdmMeasurementRequest => execSpdmMeasurementRequest s
  | .serviceCoreMemoryAccess d pa n data => execServiceCoreMemoryAccess d pa n data s

end Sys2Proof.Machine
end

