-- ==== Sys2Proof/Machine/Dispatch.lean ====
section
/-! DEFINITION. The dispatch: one arm per constructor of Instr. -/

namespace Sys2Proof.Machine

open Sys2Proof

/-- What an instruction does, or an event of the module (the event rows of the opcode table). -/
def exec (i : Instr) (s : State) : Host.Outcome State Fault Refusal :=
  match i with
  | .nop f => Sys2Proof.Machine.execNop f s
  | .nopBase f => Sys2Proof.Machine.execNopBase f s
  | .bra f => Sys2Proof.Machine.execBra f s
  | .braBase f => Sys2Proof.Machine.execBraBase f s
  | .brc f => Sys2Proof.Machine.execBrc f s
  | .brx f => Sys2Proof.Machine.execBrx f s
  | .call f => Sys2Proof.Machine.execCall f s
  | .callBase f => Sys2Proof.Machine.execCallBase f s
  | .callx f => Sys2Proof.Machine.execCallx f s
  | .ocall f => Sys2Proof.Machine.execOcall f s
  | .ret f => Sys2Proof.Machine.execRet f s
  | .retBase f => Sys2Proof.Machine.execRetBase f s
  | .exit f => Sys2Proof.Machine.execExit f s
  | .exitBase f => Sys2Proof.Machine.execExitBase f s
  | .yield f => Sys2Proof.Machine.execYield f s
  | .yieldBase f => Sys2Proof.Machine.execYieldBase f s
  | .rejoin f => Sys2Proof.Machine.execRejoin f s
  | .rejoinBase f => Sys2Proof.Machine.execRejoinBase f s
  | .full f => Sys2Proof.Machine.execFull f s
  | .fullBase f => Sys2Proof.Machine.execFullBase f s
  | .endfull f => Sys2Proof.Machine.execEndfull f s
  | .endfullBase f => Sys2Proof.Machine.execEndfullBase f s
  | .vote f => Sys2Proof.Machine.execVote f s
  | .shfl f => Sys2Proof.Machine.execShfl f s
  | .tred f => Sys2Proof.Machine.execTred f s
  | .tredf f => Sys2Proof.Machine.execTredf f s
  | .scan f => Sys2Proof.Machine.execScan f s
  | .splq f => Sys2Proof.Machine.execSplq f s
  | .splqBase f => Sys2Proof.Machine.execSplqBase f s
  | .mov f => Sys2Proof.Machine.execMov f s
  | .movBase f => Sys2Proof.Machine.execMovBase f s
  | .movi f => Sys2Proof.Machine.execMovi f s
  | .moviBase f => Sys2Proof.Machine.execMoviBase f s
  | .iadd f => Sys2Proof.Machine.execIadd f s
  | .iaddBase f => Sys2Proof.Machine.execIaddBase f s
  | .isub f => Sys2Proof.Machine.execIsub f s
  | .isubBase f => Sys2Proof.Machine.execIsubBase f s
  | .iaddc f => Sys2Proof.Machine.execIaddc f s
  | .isubb f => Sys2Proof.Machine.execIsubb f s
  | .imul f => Sys2Proof.Machine.execImul f s
  | .imulBase f => Sys2Proof.Machine.execImulBase f s
  | .imulh f => Sys2Proof.Machine.execImulh f s
  | .imulhBase f => Sys2Proof.Machine.execImulhBase f s
  | .imulw f => Sys2Proof.Machine.execImulw f s
  | .imulwBase f => Sys2Proof.Machine.execImulwBase f s
  | .imad f => Sys2Proof.Machine.execImad f s
  | .isad f => Sys2Proof.Machine.execIsad f s
  | .imin f => Sys2Proof.Machine.execImin f s
  | .iminBase f => Sys2Proof.Machine.execIminBase f s
  | .imax f => Sys2Proof.Machine.execImax f s
  | .imaxBase f => Sys2Proof.Machine.execImaxBase f s
  | .iabs f => Sys2Proof.Machine.execIabs f s
  | .iabsBase f => Sys2Proof.Machine.execIabsBase f s
  | .ineg f => Sys2Proof.Machine.execIneg f s
  | .inegBase f => Sys2Proof.Machine.execInegBase f s
  | .icmp f => Sys2Proof.Machine.execIcmp f s
  | .sel f => Sys2Proof.Machine.execSel f s
  | .and f => Sys2Proof.Machine.execAnd f s
  | .andBase f => Sys2Proof.Machine.execAndBase f s
  | .or f => Sys2Proof.Machine.execOr f s
  | .orBase f => Sys2Proof.Machine.execOrBase f s
  | .xor f => Sys2Proof.Machine.execXor f s
  | .xorBase f => Sys2Proof.Machine.execXorBase f s
  | .not f => Sys2Proof.Machine.execNot f s
  | .notBase f => Sys2Proof.Machine.execNotBase f s
  | .andn f => Sys2Proof.Machine.execAndn f s
  | .andnBase f => Sys2Proof.Machine.execAndnBase f s
  | .bsel f => Sys2Proof.Machine.execBsel f s
  | .logic3 f => Sys2Proof.Machine.execLogic3 f s
  | .shl f => Sys2Proof.Machine.execShl f s
  | .shlBase f => Sys2Proof.Machine.execShlBase f s
  | .shr f => Sys2Proof.Machine.execShr f s
  | .shrBase f => Sys2Proof.Machine.execShrBase f s
  | .sar f => Sys2Proof.Machine.execSar f s
  | .sarBase f => Sys2Proof.Machine.execSarBase f s
  | .rot f => Sys2Proof.Machine.execRot f s
  | .rotBase f => Sys2Proof.Machine.execRotBase f s
  | .popc f => Sys2Proof.Machine.execPopc f s
  | .popcBase f => Sys2Proof.Machine.execPopcBase f s
  | .clz f => Sys2Proof.Machine.execClz f s
  | .clzBase f => Sys2Proof.Machine.execClzBase f s
  | .ctz f => Sys2Proof.Machine.execCtz f s
  | .ctzBase f => Sys2Proof.Machine.execCtzBase f s
  | .brev f => Sys2Proof.Machine.execBrev f s
  | .brevBase f => Sys2Proof.Machine.execBrevBase f s
  | .bfx f => Sys2Proof.Machine.execBfx f s
  | .bfi f => Sys2Proof.Machine.execBfi f s
  | .perm f => Sys2Proof.Machine.execPerm f s
  | .permBase f => Sys2Proof.Machine.execPermBase f s
  | .sext f => Sys2Proof.Machine.execSext f s
  | .zext f => Sys2Proof.Machine.execZext f s
  | .lea f => Sys2Proof.Machine.execLea f s
  | .xset f => Sys2Proof.Machine.execXset f s
  | .xbnd f => Sys2Proof.Machine.execXbnd f s
  | .smov f => Sys2Proof.Machine.execSmov f s
  | .smovBase f => Sys2Proof.Machine.execSmovBase f s
  | .gmov f => Sys2Proof.Machine.execGmov f s
  | .vtos f => Sys2Proof.Machine.execVtos f s
  | .stov f => Sys2Proof.Machine.execStov f s
  | .stovBase f => Sys2Proof.Machine.execStovBase f s
  | .plog f => Sys2Proof.Machine.execPlog f s
  | .pmov f => Sys2Proof.Machine.execPmov f s
  | .fset f => Sys2Proof.Machine.execFset f s
  | .fget f => Sys2Proof.Machine.execFget f s
  | .fsave f => Sys2Proof.Machine.execFsave f s
  | .fload f => Sys2Proof.Machine.execFload f s
  | .cvt f => Sys2Proof.Machine.execCvt f s
  | .cvtsr f => Sys2Proof.Machine.execCvtsr f s
  | .pack f => Sys2Proof.Machine.execPack f s
  | .unpack f => Sys2Proof.Machine.execUnpack f s
  | .fadd f => Sys2Proof.Machine.execFadd f s
  | .faddBase f => Sys2Proof.Machine.execFaddBase f s
  | .fsub f => Sys2Proof.Machine.execFsub f s
  | .fsubBase f => Sys2Proof.Machine.execFsubBase f s
  | .fmul f => Sys2Proof.Machine.execFmul f s
  | .fmulBase f => Sys2Proof.Machine.execFmulBase f s
  | .ffma f => Sys2Proof.Machine.execFfma f s
  | .fmin f => Sys2Proof.Machine.execFmin f s
  | .fminBase f => Sys2Proof.Machine.execFminBase f s
  | .fmax f => Sys2Proof.Machine.execFmax f s
  | .fmaxBase f => Sys2Proof.Machine.execFmaxBase f s
  | .fabs f => Sys2Proof.Machine.execFabs f s
  | .fabsBase f => Sys2Proof.Machine.execFabsBase f s
  | .fclamp f => Sys2Proof.Machine.execFclamp f s
  | .fcmp f => Sys2Proof.Machine.execFcmp f s
  | .fclass f => Sys2Proof.Machine.execFclass f s
  | .frnd f => Sys2Proof.Machine.execFrnd f s
  | .fscale f => Sys2Proof.Machine.execFscale f s
  | .fscaleBase f => Sys2Proof.Machine.execFscaleBase f s
  | .fdot2 f => Sys2Proof.Machine.execFdot2 f s
  | .fcpsgn f => Sys2Proof.Machine.execFcpsgn f s
  | .fcpsgnBase f => Sys2Proof.Machine.execFcpsgnBase f s
  | .fgetexp f => Sys2Proof.Machine.execFgetexp f s
  | .fgetexpBase f => Sys2Proof.Machine.execFgetexpBase f s
  | .fgetman f => Sys2Proof.Machine.execFgetman f s
  | .fgetmanBase f => Sys2Proof.Machine.execFgetmanBase f s
  | .frcp f => Sys2Proof.Machine.execFrcp f s
  | .frcpBase f => Sys2Proof.Machine.execFrcpBase f s
  | .frsq f => Sys2Proof.Machine.execFrsq f s
  | .frsqBase f => Sys2Proof.Machine.execFrsqBase f s
  | .fsqrt f => Sys2Proof.Machine.execFsqrt f s
  | .fsqrtBase f => Sys2Proof.Machine.execFsqrtBase f s
  | .fexp2 f => Sys2Proof.Machine.execFexp2 f s
  | .fexp2Base f => Sys2Proof.Machine.execFexp2Base f s
  | .flog2 f => Sys2Proof.Machine.execFlog2 f s
  | .flog2Base f => Sys2Proof.Machine.execFlog2Base f s
  | .fsinpi f => Sys2Proof.Machine.execFsinpi f s
  | .fsinpiBase f => Sys2Proof.Machine.execFsinpiBase f s
  | .fcospi f => Sys2Proof.Machine.execFcospi f s
  | .fcospiBase f => Sys2Proof.Machine.execFcospiBase f s
  | .aclaim f => Sys2Proof.Machine.execAclaim f s
  | .arel f => Sys2Proof.Machine.execArel f s
  | .bclaim f => Sys2Proof.Machine.execBclaim f s
  | .brel f => Sys2Proof.Machine.execBrel f s
  | .opld f => Sys2Proof.Machine.execOpld f s
  | .mma f => Sys2Proof.Machine.execMma f s
  | .mmasp f => Sys2Proof.Machine.execMmasp f s
  | .mmaco f => Sys2Proof.Machine.execMmaco f s
  | .acczero f => Sys2Proof.Machine.execAcczero f s
  | .accrd f => Sys2Proof.Machine.execAccrd f s
  | .accwr f => Sys2Proof.Machine.execAccwr f s
  | .accfree f => Sys2Proof.Machine.execAccfree f s
  | .sld f => Sys2Proof.Machine.execSld f s
  | .sst f => Sys2Proof.Machine.execSst f s
  | .sgath f => Sys2Proof.Machine.execSgath f s
  | .sfill f => Sys2Proof.Machine.execSfill f s
  | .wbind f => Sys2Proof.Machine.execWbind f s
  | .wset f => Sys2Proof.Machine.execWset f s
  | .touch f => Sys2Proof.Machine.execTouch f s
  | .wrel f => Sys2Proof.Machine.execWrel f s
  | .wstat f => Sys2Proof.Machine.execWstat f s
  | .bcommit f => Sys2Proof.Machine.execBcommit f s
  | .bwait f => Sys2Proof.Machine.execBwait f s
  | .tbinit f => Sys2Proof.Machine.execTbinit f s
  | .tbarr f => Sys2Proof.Machine.execTbarr f s
  | .tbexp f => Sys2Proof.Machine.execTbexp f s
  | .tbwait f => Sys2Proof.Machine.execTbwait f s
  | .ld f => Sys2Proof.Machine.execLd f s
  | .st f => Sys2Proof.Machine.execSt f s
  | .ldg f => Sys2Proof.Machine.execLdg f s
  | .stg f => Sys2Proof.Machine.execStg f s
  | .ldc f => Sys2Proof.Machine.execLdc f s
  | .atom f => Sys2Proof.Machine.execAtom f s
  | .ared f => Sys2Proof.Machine.execAred f s
  | .atomx f => Sys2Proof.Machine.execAtomx f s
  | .pref f => Sys2Proof.Machine.execPref f s
  | .inval f => Sys2Proof.Machine.execInval f s
  | .sbind f => Sys2Proof.Machine.execSbind f s
  | .sunbind f => Sys2Proof.Machine.execSunbind f s
  | .acq f => Sys2Proof.Machine.execAcq f s
  | .rel f => Sys2Proof.Machine.execRel f s
  | .fence f => Sys2Proof.Machine.execFence f s
  | .spawn f => Sys2Proof.Machine.execSpawn f s
  | .join f => Sys2Proof.Machine.execJoin f s
  | .trig f => Sys2Proof.Machine.execTrig f s
  | .park f => Sys2Proof.Machine.execPark f s
  | .qsig f => Sys2Proof.Machine.execQsig f s
  | .ovld f => Sys2Proof.Machine.execOvld f s
  | .cuearm f => Sys2Proof.Machine.execCuearm f s
  | .cue f => Sys2Proof.Machine.execCue f s
  | .cuewait f => Sys2Proof.Machine.execCuewait f s
  | .gdset f => Sys2Proof.Machine.execGdset f s
  | .gdclr f => Sys2Proof.Machine.execGdclr f s
  | .trap f => Sys2Proof.Machine.execTrap f s
  | .sysc f => Sys2Proof.Machine.execSysc f s
  | .tret f => Sys2Proof.Machine.execTret f s
  | .tretBase f => Sys2Proof.Machine.execTretBase f s
  | .rdsr f => Sys2Proof.Machine.execRdsr f s
  | .wrsr f => Sys2Proof.Machine.execWrsr f s
  | .bkpt f => Sys2Proof.Machine.execBkpt f s
  | .bkptBase f => Sys2Proof.Machine.execBkptBase f s
  | .halt f => Sys2Proof.Machine.execHalt f s
  | .haltBase f => Sys2Proof.Machine.execHaltBase f s
  | .rdcyc f => Sys2Proof.Machine.execRdcyc f s
  | .rdcycBase f => Sys2Proof.Machine.execRdcycBase f s
  | .rdnrg f => Sys2Proof.Machine.execRdnrg f s
  | .rdnrgBase f => Sys2Proof.Machine.execRdnrgBase f s
  | .rdid f => Sys2Proof.Machine.execRdid f s
  | .tlbinv f => Sys2Proof.Machine.execTlbinv f s
  | .undefinedInstruction w => Sys2Proof.Machine.execUndefinedInstruction w s
  | .fetchBeyondOverlay fell => Sys2Proof.Machine.execFetchBeyondOverlay fell s
  | .fetchOverlayAbsent => Sys2Proof.Machine.execFetchOverlayAbsent s
  | .fixedLatencyWrite t n => Sys2Proof.Machine.execFixedLatencyWrite t n s
  | .scoreboardResultWrite t n => Sys2Proof.Machine.execScoreboardResultWrite t n s
  | .loadSectorReturn t n => Sys2Proof.Machine.execLoadSectorReturn t n s
  | .storeAcknowledge t n => Sys2Proof.Machine.execStoreAcknowledge t n s
  | .reconvergenceFusion t => Sys2Proof.Machine.execReconvergenceFusion t s
  | .rejoinRelease t => Sys2Proof.Machine.execRejoinRelease t s
  | .splitSwapBack t => Sys2Proof.Machine.execSplitSwapBack t s
  | .splitExchange t => Sys2Proof.Machine.execSplitExchange t s
  | .troupeEnd t => Sys2Proof.Machine.execTroupeEnd t s
  | .imageLoad n img launched => Sys2Proof.Machine.execImageLoad n img launched s
  | .ovldCopyComplete n => Sys2Proof.Machine.execOvldCopyComplete n s
  | .shootdownAcknowledge core n => Sys2Proof.Machine.execShootdownAcknowledge core n s
  | .formatWriteAtHome c core e v n => Sys2Proof.Machine.execFormatWriteAtHome c core e v n s
  | .formatBroadcastApply c core e v n => Sys2Proof.Machine.execFormatBroadcastApply c core e v n s
  | .matrixTileReady core n => Sys2Proof.Machine.execMatrixTileReady core n s
  | .opldComplete n => Sys2Proof.Machine.execOpldComplete n s
  | .mmacoStart core n => Sys2Proof.Machine.execMmacoStart core n s
  | .copyStart t => Sys2Proof.Machine.execCopyStart t s
  | .sectorLanding n j => Sys2Proof.Machine.execSectorLanding n j s
  | .tbwaitWake t uid => Sys2Proof.Machine.execTbwaitWake t uid s
  | .sfillComplete n => Sys2Proof.Machine.execSfillComplete n s
  | .reduceContribution n sec => Sys2Proof.Machine.execReduceContribution n sec s
  | .reduceRetry n sec => Sys2Proof.Machine.execReduceRetry n sec s
  | .faultRecordWrite d => Sys2Proof.Machine.execFaultRecordWrite d s
  | .frplyReplay d token => Sys2Proof.Machine.execFrplyReplay d token s
  | .frplyRaise d token => Sys2Proof.Machine.execFrplyRaise d token s
  | .parkedReplay n => Sys2Proof.Machine.execParkedReplay n s
  | .fqheadWrite d v => Sys2Proof.Machine.execFqheadWrite d v s
  | .acqWaitSuccess n => Sys2Proof.Machine.execAcqWaitSuccess n s
  | .acqPoll n => Sys2Proof.Machine.execAcqPoll n s
  | .doorbell q => Sys2Proof.Machine.execDoorbell q s
  | .queueMap q => Sys2Proof.Machine.execQueueMap q s
  | .launchPacket q => Sys2Proof.Machine.execLaunchPacket q s
  | .waitPacket q => Sys2Proof.Machine.execWaitPacket q s
  | .signalPacket q => Sys2Proof.Machine.execSignalPacket q s
  | .nopPacket q => Sys2Proof.Machine.execNopPacket q s
  | .formatPreloadPacket q => Sys2Proof.Machine.execFormatPreloadPacket q s
  | .waitPacketReevaluate q => Sys2Proof.Machine.execWaitPacketReevaluate q s
  | .launchStart n => Sys2Proof.Machine.execLaunchStart n s
  | .productionRetire n => Sys2Proof.Machine.execProductionRetire n s
  | .energyIntervalStart p => Sys2Proof.Machine.execEnergyIntervalStart p s
  | .priorityAging q => Sys2Proof.Machine.execPriorityAging q s
  | .ensemblePlacement p => Sys2Proof.Machine.execEnsemblePlacement p s
  | .greenRoomTransfer c => Sys2Proof.Machine.execGreenRoomTransfer c s
  | .cuearmAtDesk core c cue off clear => Sys2Proof.Machine.execCuearmAtDesk core c cue off clear s
  | .cueBroadcast c cue n => Sys2Proof.Machine.execCueBroadcast c cue n s
  | .cueCopyWrite core c cue p set => Sys2Proof.Machine.execCueCopyWrite core c cue p set s
  | .cueTouchFire core n => Sys2Proof.Machine.execCueTouchFire core n s
  | .cueArrFire core n => Sys2Proof.Machine.execCueArrFire core n s
  | .cueGuardFire core n => Sys2Proof.Machine.execCueGuardFire core n s
  | .cuewaitFire core n => Sys2Proof.Machine.execCuewaitFire core n s
  | .contextSwitch core c => Sys2Proof.Machine.execContextSwitch core c s
  | .autoSwitch core => Sys2Proof.Machine.execAutoSwitch core s
  | .stop es park => Sys2Proof.Machine.execStop es park s
  | .captureComplete e => Sys2Proof.Machine.execCaptureComplete e s
  | .checkpointCut c => Sys2Proof.Machine.execCheckpointCut c s
  | .unitStreamed c => Sys2Proof.Machine.execUnitStreamed c s
  | .cutCommit c => Sys2Proof.Machine.execCutCommit c s
  | .resumption c => Sys2Proof.Machine.execResumption c s
  | .coreFence core => Sys2Proof.Machine.execCoreFence core s
  | .savecostUpdate c => Sys2Proof.Machine.execSavecostUpdate c s
  | .mapcmdCommit v => Sys2Proof.Machine.execMapcmdCommit v s
  | .mapCheckComplete => Sys2Proof.Machine.execMapCheckComplete s
  | .eccUncorrectable pa ctxid => Sys2Proof.Machine.execEccUncorrectable pa ctxid s
  | .fclrWrite k pa => Sys2Proof.Machine.execFclrWrite k pa s
  | .refreshHeartbeat k => Sys2Proof.Machine.execRefreshHeartbeat k s
  | .refreshTakeover k => Sys2Proof.Machine.execRefreshTakeover k s
  | .baseDieReset k => Sys2Proof.Machine.execBaseDieReset k s
  | .scrub k => Sys2Proof.Machine.execScrub k s
  | .flitNak e seq => Sys2Proof.Machine.execFlitNak e seq s
  | .linkRetrainComplete e ok => Sys2Proof.Machine.execLinkRetrainComplete e ok s
  | .lnkctlRetrain e => Sys2Proof.Machine.execLnkctlRetrain e s
  | .helyelRead e node key sla n => Sys2Proof.Machine.execHelyelRead e node key sla n s
  | .helyelWrite e node key sla mask data => Sys2Proof.Machine.execHelyelWrite e node key sla mask data s
  | .helyelAtomicAdd e node key sla wide v => Sys2Proof.Machine.execHelyelAtomicAdd e node key sla wide v s
  | .helyelCompareAndSwap e node key sla wide v cmp => Sys2Proof.Machine.execHelyelCompareAndSwap e node key sla wide v cmp s
  | .helyelFencedWrite e node key sla mask data => Sys2Proof.Machine.execHelyelFencedWrite e node key sla mask data s
  | .helyelResponse n lane status => Sys2Proof.Machine.execHelyelResponse n lane status s
  | .counterClear off v => Sys2Proof.Machine.execCounterClear off v s
  | .energyFold => Sys2Proof.Machine.execEnergyFold s
  | .capApplication => Sys2Proof.Machine.execCapApplication s
  | .thermalEvent d => Sys2Proof.Machine.execThermalEvent d s
  | .currentLimitEvent d => Sys2Proof.Machine.execCurrentLimitEvent d s
  | .setHallCap limit rank expiry => Sys2Proof.Machine.execSetHallCap limit rank expiry s
  | .hallCapExpiry n => Sys2Proof.Machine.execHallCapExpiry n s
  | .eventWrite d => Sys2Proof.Machine.execEventWrite d s
  | .evheadWrite v => Sys2Proof.Machine.execEvheadWrite v s
  | .hostCxlMemRead pa n => Sys2Proof.Machine.execHostCxlMemRead pa n s
  | .hostCxlMemWrite pa data => Sys2Proof.Machine.execHostCxlMemWrite pa data s
  | .backInvalidateSnoop pa => Sys2Proof.Machine.execBackInvalidateSnoop pa s
  | .moduleReset => Sys2Proof.Machine.execModuleReset s
  | .registerWrite off v => Sys2Proof.Machine.execRegisterWrite off v s
  | .contextCreation c part img regs => Sys2Proof.Machine.execContextCreation c part img regs s
  | .refresh k => Sys2Proof.Machine.execRefresh k s
  | .flitCrcFailure e seq => Sys2Proof.Machine.execFlitCrcFailure e seq s
  | .cacheActionComplete n => Sys2Proof.Machine.execCacheActionComplete n s
  | .swapBackReadComplete t k => Sys2Proof.Machine.execSwapBackReadComplete t k s
  | .spdmMeasurementRequest => Sys2Proof.Machine.execSpdmMeasurementRequest s
  | .serviceCoreMemoryAccess d pa n data => Sys2Proof.Machine.execServiceCoreMemoryAccess d pa n data s

end Sys2Proof.Machine
end

