-- ==== Sys2Proof/Machine/Step.lean ====
section
/-! DEFINITION. The step function, and the state in which a given instruction is the next one fetched. -/

namespace Sys2Proof.Machine

open Sys2Proof

/-- One step: an event of the module, or the issue of one instruction, or a cycle in which nothing happens (log entry 3). -/
def step (s : State) : Host.Outcome State Fault Refusal :=
  match s.following with
  | .event ev s1 => runHeld runEvent ev s1
  | .issue _ none s1 => s1.issue exec
  | .issue ent (some other) s1 => s1.issuePair exec ent other
  | .idle s1 => .next s1

/-- A module after bring-up whose core 0 runs one troupe of one context at the first word of overlay 0, and the slot of that
overlay holds the given words: what loading and launching a program leaves (log entry 22). -/
def State.withFetchWord (s : State) (nbits w : Nat) : State := s.loaded (bytesOf (tableWords (w % 2 ^ nbits)))

end Sys2Proof.Machine
end

