-- ==== Sys2Proof/Safety.lean ====
section
/-! DEFINITION. The terms that statements use: what counts as a safe run, when an instruction issues, and what an instruction
leaves behind it. -/

namespace Sys2Proof

open Sys2Proof.Machine

/-- The invariant of the model: memory is in canonical form, so that equal memories are equal data. -/
def Inv (s : State) : Prop := Memory.wf s.mem = true

/-- A step that goes on: neither a fault nor a refusal. -/
def goesOn (s : State) : Bool :=
  match step s with
  | .next _ => true
  | .fault _ => false
  | .refused _ => false

/-- A run of a number of steps in which every step goes on. -/
def safeRun : Nat → State → Bool
  | 0, _ => true
  | n + 1, s =>
    match step s with
    | .next t => safeRun n t
    | .fault _ => false
    | .refused _ => false

/-- The instruction of the split that issues at `s` passes the checks of R56 and R59, no scoreboard result holds it back (R47),
and it has an active lane (R57); `w` is the split with those lanes. -/
def issues (n : Ins) (s : State) (w : Work) : Prop := gate n s = .go w ∧ w.act ≠ 0

/-- A register written: the register, the lanes, and each lane's value. -/
abbrev Write := Reg × Mask × (Nat → Word)

/-- The value that writes, in order, give a register in a lane, if one of them names it there: the last one stands; a register
that is not held per lane takes the value of the lowest lane written (R126); p7 is never written (R131). -/
def written (outs : List Write) (r : Reg) (i : Nat) : Option Word :=
  if r = .p 7 then none
  else
    (outs.reverse.find? fun o => o.1 = r && (!r.perLane || o.2.1.getLsbD i)).map fun o =>
      r.narrow (o.2.2 (if r.perLane then i else lowLane o.2.1))

/-- What accesses to memory may change of the module beside the bytes that they write (R292 to R295, R378, R431): the cores' caches and
request ports, what the caches above the stacks hold, what the stacks have, and the counters of stacks and ports. -/
structure Caches where
  cores : Tab Core
  cached : Tab SectorCopy
  stackDiff : Tab Byte
  stackTab : Tab Stack
  lhost : DWord
  tq : DWord
deriving DecidableEq, Repr

/-- The module after accesses to memory, but for the bytes written. -/
def Caches.on (c : Caches) (s : State) : State :=
  { s with cores := c.cores, cached := c.cached, stackDiff := c.stackDiff, stackTab := c.stackTab,
           lhost := c.lhost, tq := c.tq }

/-- Some state of the module differs at most in the counter, the agenda, the troupes and the ensembles. -/
def sameModule (s t : State) : Prop :=
  t = { s with tick := t.tick, agenda := t.agenda, troupes := t.troupes, ensembles := t.ensembles }

/-- Every troupe but one, every ensemble but that troupe's, and every split of that troupe but one are as they were. -/
def othersKept (s t : State) (w x : Work) : Prop :=
  (∀ k, k ≠ w.tid → t.troupes.find? k = s.troupes.find? k)
  ∧ (∀ k, k ≠ w.T.ens → t.ensembles.find? k = s.ensembles.find? k)
  ∧ ∀ k, k ≠ w.ent → x.T.splits.find? k = w.T.splits.find? k

/-- The instruction of split `w` completes in `t`, which holds the split as `x`: its registers, g registers, general registers
and latches are what the writes make them, all others as they were; the flags are merged into TSTAT; `pends` are the results
that the scoreboard now holds for it; it stands at `next`, in STATE 3 if that is its reconvergence address (R86); and
nothing else of the split, its troupe, its ensemble and the module has changed, memory included, but what the issue unit keeps
of the order of issues. -/
structure Completes (s : State) (w : Work) (outs : List Write) (flags : Word) (pends : List Pend) (next : Dest) (t : State)
    (x : Work) : Prop where
  split : t.work w.tid w.ent = some x
  regs : ∀ r i, i < 128 → x.now r i = (written outs r i).getD (w.now r i)
  pc : x.S.pc = next.pc ∧ x.S.past = next.past
  state : x.S.state = if w.S.rcv = some next.pc ∧ next.past = false then 3 else w.S.state
  entry : x.S = { w.S with
    pc := x.S.pc, past := x.S.past, state := x.S.state, scal := x.S.scal, frames := x.S.frames, shadow := x.S.shadow, dist := x.S.dist,
    earliest := x.S.earliest, lastIss := x.S.lastIss, swapIn := x.S.swapIn, redo := none, fell := x.S.fell,
    landings := x.S.landings, atRejoin := x.S.atRejoin }
  frames : x.S.frames.map (fun f => (f.rcv, f.forkId)) = w.S.frames.map fun f => (f.rcv, f.forkId)
  troupe : x.T = { w.T with
    file := x.T.file, ss := x.T.ss, tstat := w.T.tstat ||| flags, splits := x.T.splits, pend := w.T.pend ++ pends,
    lastSel := x.T.lastSel, selFree := x.T.selFree, parked := x.T.parked }
  ensemble : x.E = { w.E with g := x.E.g }
  others : othersKept s t w x
  module : sameModule s t

/-- The place past an instruction (R26, R65). -/
def nextWord (n : Ins) (w : Work) : Dest := nextDest w.S.pc n.ilen

/-- The writes of a result of one register for each active lane: the destination operand's registers, and the pipe's latch
(R124, R126). -/
def laneWrites (vector : Bool) (n : Ins) (w : Work) (v : Nat → Word) : List Write :=
  w.outsOf n 1 w.act (fun _ => v) ++ [(latchOf vector, w.act, v)]

/-- Whenever instruction `i` issues, it completes at the next word with a lane result of a pipe: in every active lane the value
satisfies `good`, and the flags merged into TSTAT satisfy `flags`. -/
def laneResult (vector : Bool) (good : Ins → Work → Nat → Word → Prop) (flags : Ins → Work → Word → Prop) (i : Instr) (n : Ins) :
    Prop :=
  ∀ s w, issues n s w → ∃ v fl t x, exec i s = .next t
    ∧ Completes s w (laneWrites vector n w v) fl [] (nextWord n w) t x
    ∧ (∀ l, w.act.getLsbD l = true → good n w l (v l)) ∧ flags n w fl

/-- Whenever instruction `i` issues, it completes at the next word with some register writes and flags and no other effect. -/
def completesWith (i : Instr) (n : Ins) (outs : Work → List Write) (flags : Work → Word) : Prop :=
  ∀ s w, issues n s w → ∃ t x, exec i s = .next t ∧ Completes s w (outs w) (flags w) [] (nextWord n w) t x

/-- A 64-bit lane value written to a pair, its low word first, and its low word to the pipe's latch (R118, R124). -/
def pairWrites (vector : Bool) (n : Ins) (w : Work) (v : Nat → Nat) : List Write :=
  w.outsOf n 2 w.act (fun k l => BitVec.ofNat 32 (v l / 2 ^ (32 * k)))
    ++ [(latchOf vector, w.act, fun l => BitVec.ofNat 32 (v l))]

/-- The instruction completes at the next word and leaves a result of `len` registers on the scoreboard, to be written later
(R47), which an event of the agenda will write: `v k l` is the value of register `k` in lane `l`. -/
def scoreboardResult (i : Instr) (n : Ins) (len : Work → Nat) (v : Work → Nat → Nat → Word) (flags : Work → Word) : Prop :=
  ∀ s w, issues n s w → ∃ t x, exec i s = .next t
    ∧ Completes s w [] 0#32 [w.pendOf false 0 (flags w) (w.outsOf n (len w) w.act (v w))] (nextWord n w) t x
    ∧ ∃ due, ⟨due, .scoreboardResultWrite w.tid s.tick⟩ ∈ t.agenda

/-- A lane result of the integer pipe that is a matter of the three 32-bit sources alone and raises no flag. -/
def wordRel (good : Ins → Word → Word → Word → Word → Prop) : Instr → Ins → Prop :=
  laneResult false
    (fun n w l v => good n (w.src false n n.sa 0 l) (w.src false n n.sb 0 l) (w.src false n n.sc 0 l) v)
    fun _ _ fl => fl = 0#32

/-- A lane result of the integer pipe that is a function of the three 32-bit sources and raises no flag. -/
def wordResult (f : Ins → Word → Word → Word → Word) : Instr → Ins → Prop := wordRel fun n a b c v => v = f n a b c

/-- The extended form and the base form of an instruction both satisfy a property. -/
def bothForms (op : Nat) (x : X → Instr) (b : B3 → Instr) (p : Instr → Ins → Prop) : Prop :=
  (∀ f, p (x f) (insX op f)) ∧ ∀ f, p (b f) (insB3 op f)

/-- The extended form of an instruction satisfies a property. -/
def oneForm (op : Nat) (x : X → Instr) (p : Instr → Ins → Prop) : Prop := ∀ f, p (x f) (insX op f)

/-- An exact integer brought into a width: clamped when it saturates, else as it is (R133); its encoding is this modulo 2^w. -/
def clamped (t : Int) (w : Nat) (sgn sat : Bool) : Int := if sat then max (intLo w sgn) (min (intHi w sgn) t) else t

/-- An exact integer lies outside the range of a width (R133). -/
def outOfRange (t : Int) (w : Nat) (sgn : Bool) : Prop := t < intLo w sgn ∨ intHi w sgn < t

/-- Element `e` of a source in a lane, under an integer entry (R133). -/
def srcElem (n : Ins) (w : Work) (o : Operand) (l e : Nat) : Int :=
  let f := w.fmt n.fmt
  readInt ((w.src false n o 0 l).toNat / 2 ^ (f.width * e)) f.width f.sign

/-- The conditions of icmp (R141). -/
def icmpHolds (cond : Nat) (a b : Int) : Prop :=
  match cond with
  | 0 => a = b
  | 1 => a ≠ b
  | 2 => a < b
  | 3 => a ≤ b
  | 4 => b < a
  | _ => b ≤ a

/-- An integer result of R133, element by element: each element is the exact result of the elements of the three sources,
fitted; ISAT is raised exactly when some element saturates. -/
def elementResult (exact : Fmt → Int → Int → Int → Int) : Instr → Ins → Prop :=
  let t (n : Ins) (w : Work) (l e : Nat) : Int :=
    exact (w.fmt n.fmt) (srcElem n w n.sa l e) (srcElem n w n.sb l e) (srcElem n w n.sc l e)
  let sat (n : Ins) (w : Work) : Bool := n.sat || (w.fmt n.fmt).satPolicy
  laneResult false
    (fun n w l v =>
      let f := w.fmt n.fmt
      (f.width = 8 ∨ f.width = 16 ∨ f.width = 32)
      ∧ ∀ e, e < 32 / f.width →
          ((v.toNat / 2 ^ (f.width * e) % 2 ^ f.width : Nat) : Int) = clamped (t n w l e) f.width f.sign (sat n w) % 2 ^ f.width)
    fun n w fl =>
      let f := w.fmt n.fmt
      (fl = 0#32 ∨ fl = flagSat)
      ∧ (fl = flagSat ↔ sat n w = true ∧ ∃ l e, w.act.getLsbD l = true ∧ e < 32 / f.width ∧ outOfRange (t n w l e) f.width f.sign)

/-- The writes of the generators of the active lanes in rounding mode rsr, when an instruction rounds `k` times in each lane
(R175, R191). -/
def genWrites (n : Ins) (w : Work) (k : Nat) : List Write :=
  if n.rnd = .rsr then [(.gen, w.act, fun l => lfsrSteps k (w.now .gen l))] else []

/-- Whenever instruction `i` issues, it completes at the next word with a lane result of the vector pipe: lane `l` takes `v w l`
and its flags, and the generators step `steps w` times in mode rsr. -/
def vectorResult (v : Work → Nat → Word × Word) (steps : Work → Nat) (i : Instr) (n : Ins) : Prop :=
  ∀ s w, issues n s w → ∃ t x, exec i s = .next t
    ∧ Completes s w (laneWrites true n w (fun l => (v w l).1) ++ genWrites n w (steps w))
        (orFlags ((lanesOf w.act).map fun l => (v w l).2)) [] (nextWord n w) t x

/-- A vector float result, element by element (R189, R191): `t` has the entry, the instruction, the codes of the elements of the
three sources and the random value, and gives the element's code and flags. -/
def floatResult (t : Fmt → Ins → Nat → Nat → Nat → Nat → Nat × Word) (i : Instr) (n : Ins) : Prop :=
  ∀ s w, issues n s w →
    let f := w.fmt n.fmt
    let r (l e : Nat) : Nat × Word :=
      t f n (w.elem n f n.sa e l) (w.elem n f n.sb e l) (w.elem n f n.sc e l) (w.random e l)
    (f.width = 4 ∨ f.width = 8 ∨ f.width = 16 ∨ f.width = 32)
    ∧ ∃ v y x, exec i s = .next y
      ∧ Completes s w (laneWrites true n w v ++ genWrites n w (32 / f.width))
          (orFlags ((lanesOf w.act).flatMap fun l => (List.range (32 / f.width)).map fun e => (r l e).2)) [] (nextWord n w) y x
      ∧ ∀ l, w.act.getLsbD l = true → ∀ e, e < 32 / f.width →
          (v l).toNat / 2 ^ (f.width * e) % 2 ^ f.width = (r l e).1 % 2 ^ f.width

/-- The split of a taken branch starts a new run, in STATE 1 (R43, R96). -/
def redirected (w : Work) : Work := { w with S := { w.S.newRun with state := 1, atRejoin := 0 } }

/-- The instruction goes to `target` with some register writes and no other effect, and its split issues again four cycles later
at the earliest, and not before its pending results are written (R96) or its STALL has passed (R41). -/
def takes (i : Instr) (n : Ins) (s : State) (w : Work) (outs : List Write) (target : Dest) : Prop :=
  ∃ t x, exec i s = .next t ∧ Completes s (redirected w) outs 0#32 [] target t x
    ∧ x.S.earliest = max (s.now + max 4 (1 + n.stall)) w.S.landDue

/-- Two lanes of the split that issues have different targets, and the fork has a frame to use: its reconvergence address is
already on top, or a frame is free (R85). -/
def mayFork (w : Work) (rcv : Word) (target : Nat → Dest) : Prop :=
  (∃ i j, w.S.mask.getLsbD i = true ∧ w.S.mask.getLsbD j = true ∧ target i ≠ target j)
  ∧ (w.S.rcv = some rcv ∨ w.S.frames.length < 16) ∧ (w.T.splits.map (·.1)).Nodup

/-- The instruction forks its split (R85): afterwards each of its lanes is in a split of the troupe that stands at that lane's
target, with one frame more if the reconvergence address was not on top, whose fork identifier no frame of the troupe held; the
new splits have the split's scalar registers; every other split is still in the troupe; and no other troupe, and no ensemble but
for the link register's sake, has changed. -/
def forks (i : Instr) (s : State) (w : Work) (rcv : Word) (target : Nat → Dest) : Prop :=
  ∃ t T, exec i s = .next t ∧ t.troupes.find? w.tid = some T
    ∧ (∀ l, w.S.mask.getLsbD l = true → ∃ p ∈ T.allSplits, p.mask.getLsbD l = true ∧ p.pc = (target l).pc ∧ p.past = (target l).past
        ∧ p.scal = w.S.scal
        ∧ p.rcv = some rcv ∧ p.frames.length = w.S.frames.length + (if w.S.rcv = some rcv then 0 else 1)
        ∧ (∀ j, p.mask.getLsbD j = true → w.S.mask.getLsbD j = true ∧ target j = target l)
        ∧ (w.S.rcv ≠ some rcv → w.T.forkIds.length < 65536 → ∀ f ∈ p.frames.getLast?, f.forkId ∉ w.T.forkIds)
        ∧ p.state = if (target l).pc = rcv ∧ (target l).past = false then 3 else 1)
    ∧ (∀ p ∈ w.T.allSplits, p.uid ≠ w.S.uid → p ∈ T.allSplits)
    ∧ (∀ k, k ≠ w.tid → t.troupes.find? k = s.troupes.find? k)
    ∧ (∀ k, k ≠ w.T.ens → t.ensembles.find? k = s.ensembles.find? k)
    ∧ t.contexts = s.contexts ∧ t.cores = s.cores

/-- The instruction of split `w` has issued and its split waits in it (R84), in STATE 2, until something goes on past it: no
register has changed, `pends` are the results that the scoreboard now holds for it, and nothing else of the split, its troupe,
its ensemble and the module has changed, but what the issue unit keeps of the order of issues. -/
structure Waits (s : State) (w : Work) (n : Ins) (why : Wait) (pends : List Pend) (t : State) (x : Work) : Prop where
  split : t.work w.tid w.ent = some x
  regs : ∀ r i, x.now r i = w.now r i
  entry : x.S = { w.S with
    state := 2, wait := why, waitLen := n.ilen, shadow := x.S.shadow, dist := x.S.dist, earliest := x.S.earliest,
    lastIss := x.S.lastIss, swapIn := x.S.swapIn, redo := none, fell := x.S.fell }
  troupe : x.T = { w.T with
    splits := x.T.splits, pend := w.T.pend ++ pends, lastSel := x.T.lastSel, selFree := x.T.selFree, parked := x.T.parked }
  ensemble : x.E = w.E
  others : othersKept s t w x
  module : sameModule s t

/-! ### Memory accesses -/

/-- The accesses of the active lanes reach device memory (R281, R298, R327, R423): they are aligned and translate to aligned physical
addresses, as page leaves are aligned (R281), and no range lock, fence, map commit or acquire is in their way; `ms` holds each
lane's physical address, `s1` is the state with the TLBs as the translations leave them. -/
structure Reaches (w : Work) (acc : Access) (ok : Nat → Bool) (size : Nat) (va : Nat → Nat) (ms : List (Nat × Mapped))
    (s1 : State) : Prop where
  free : w.memHeld = false
  aligned : ∀ l, w.act.getLsbD l = true → va l % size = 0
  translated : w.xlateAll acc ok va (lanesOf w.act) = ({ w with s := s1 }, ms.map fun r => (r.1, .ok r.2))
  device : ∀ r ∈ ms, targetOf r.2.pa = .device ∧ r.2.pa % size = 0
  unlocked : ∀ r ∈ ms, (s1.core w.E.core).memLock w.E.ctx (va r.1) size = none
  unfenced : ∀ r ∈ ms, s1.isFenced r.2.pa = false
  settled : ∀ r ∈ ms, s1.mapWaits r.2.pa = false
  unasked : w.asked = none

/-- The value that a load reads of a sector: the home's bytes, or, of ordinary memory and without .nc, those that the core's L1
holds (R292). -/
def loaded (s : State) (core : Nat) (nc : Bool) (m : Mapped) (size v : Nat) : Prop :=
  v = leNat (s.peek m.pa size)
  ∨ (nc = false ∧ m.mt = 0
      ∧ ∃ d, (s.core core).l1Find (m.pa / 32) = some d ∧ v = leNat ((d.drop (m.pa % 32)).take size))

/-- A load whose accesses reach memory completes at the next word (R291, R292, R298): the scoreboard holds its result, one value for
each active lane, until every sector has returned; memory and everything else but the caches is as it was. -/
def loadResult (code : Ins → Nat) (nc : Ins → Bool) (va : Ins → Work → Nat → Nat) (i : Instr) (n : Ins) : Prop :=
  ∀ s w ms s1, issues n s w → Reaches w .load (fun _ => true) (Machine.sizeOf (code n)) (va n w) ms s1 →
    ∃ (v : Nat → Nat) (c : Caches) (t : State) (x : Work),
      let b : Work := { w with s := c.on s }
      let k := (distinct (ms.map fun r => r.2.pa / 32)).length
      let ev : Ev := .loadSectorReturn w.tid s.tick
      exec i s = .next t
      ∧ Completes b.s b [] 0#32
          [w.pendOf true k 0#32 (w.loadOuts n (Machine.wordsOf (code n)) w.act fun j l => loadWord (code n) j (v l))] (nextWord n w) t x
      ∧ (∀ r ∈ ms, loaded s w.E.core (nc n) r.2 (Machine.sizeOf (code n)) (v r.1))
      ∧ (t.agenda.filter fun e => e.ev = ev).length = (s.agenda.filter fun e => e.ev = ev).length + k

/-- A store whose accesses reach memory completes at the next word (R291, R292, R298): the lanes' bytes are in memory, in ascending
order of lanes, every other byte is as it was, and the home is to acknowledge it. -/
def storeResult (code : Ins → Nat) (va : Ins → Work → Nat → Nat) (i : Instr) (n : Ins) : Prop :=
  ∀ s w ms s1, issues n s w → Reaches w .store (fun _ => true) (Machine.sizeOf (code n)) (va n w) ms s1 →
    let m : Memory := ms.foldl (fun m r => m.write r.2.pa (natLE (Machine.sizeOf (code n)) (w.dataOf n n.sc (Machine.sizeOf (code n)) r.1))) s.mem
    ∃ (c : Caches) (t : State) (x : Work),
      let b : Work := { w with s := c.on { s with mem := m },
                               T := { w.T with unacked := w.T.unacked ++ [s.tick] } }
      exec i s = .next t ∧ Completes b.s b [] 0#32 [] (nextWord n w) t x
      ∧ (∃ due, ⟨due, .storeAcknowledge w.tid s.tick⟩ ∈ t.agenda)
      ∧ (Inv s → ∀ a, (∀ r ∈ ms, ¬(r.2.pa ≤ a ∧ a < r.2.pa + Machine.sizeOf (code n))) → t.mem.read a = s.mem.read a)

/-- Read-modify-writes one after another (R291, R300): the memory after them, and what each found. -/
def rmwAll (size : Nat) (new : Nat → Nat → Nat) : List (Nat × Mapped) → Memory → Memory × List (Nat × Nat)
  | [], m => (m, [])
  | (l, x) :: t, m =>
    let old := leNat (m.readN x.pa size)
    let r := rmwAll size new t (m.write x.pa (natLE size (new l old)))
    (r.1, (l, old) :: r.2)

/-- An atomic whose accesses reach memory completes at the next word (R300, R301): memory holds the new values, every byte outside
the words is as it was, the home is to acknowledge it, and where there is a destination the scoreboard holds the old values. -/
def atomicResult (size op len : Ins → Nat) (i : Instr) (n : Ins) : Prop :=
  ∀ s w ms s1, issues n s w → Reaches w .atomic (atomicOk (size n) (op n)) (size n) (w.pairAddr n) ms s1 →
    let new (l m : Nat) : Nat := atomNew (8 * size n) (op n) m (w.dataOf n n.sb (size n) l) (w.dataOf n n.sc (size n) l)
    let r := rmwAll (size n) new ms s.mem
    let old (l : Nat) : Nat := ((r.2.find? fun x => x.1 = l).map (·.2)).getD 0
    let k := (distinct (ms.map fun r => r.2.pa / 32)).length
    ∃ (c : Caches) (t : State) (x : Work),
      let b : Work := { w with s := c.on { s with tick := s.tick + 1, mem := r.1 },
                               T := { w.T with unacked := w.T.unacked ++ [s.tick] } }
      exec i s = .next t
      ∧ Completes b.s b [] 0#32
          (if len n = 0 then []
           else [b.pendOf true k 0#32 (w.loadOuts n (len n) w.act fun j l => BitVec.ofNat 32 (old l / 2 ^ (32 * j)))])
          (nextWord n w) t x
      ∧ (∃ due, ⟨due, .storeAcknowledge w.tid s.tick⟩ ∈ t.agenda)
      ∧ (Inv s → ∀ a, (∀ r ∈ ms, ¬(r.2.pa ≤ a ∧ a < r.2.pa + size n)) → t.mem.read a = s.mem.read a)

/-- A property of every instruction that makes an access of each active lane (R298 to R301): its kind, the targets that support it, its
size, and each lane's virtual address. -/
def eachAccess (p : Instr → Ins → Access → (Nat → Bool) → Nat → (Work → Nat → Nat) → Prop) : Prop :=
  let all (_ : Nat) : Bool := true
  (∀ f, let n := insX 0xA0 f; p (.ld f) n .load all (Machine.sizeOf (n.mod % 8)) fun w => w.baseAddr n)
  ∧ (∀ f, let n := insX 0xA1 f; p (.st f) n .store all (Machine.sizeOf (n.mod % 8)) fun w => w.baseAddr n)
  ∧ (∀ f, let n := insX 0xA2 f; p (.ldg f) n .load all (Machine.sizeOf (n.mod % 8)) fun w => w.pairAddr n)
  ∧ (∀ f, let n := insX 0xA3 f; p (.stg f) n .store all (Machine.sizeOf (n.mod % 8)) fun w => w.pairAddr n)
  ∧ (∀ f, let n := insX 0xA4 f; p (.ldc f) n .load all (Machine.sizeOf n.mod) fun w _ => w.pairAddr n (lowLane w.act))
  ∧ (∀ f, let n := insX 0xA5 f; p (.atom f) n .atomic (atomicOk (atomSize n) (n.mod % 16)) (atomSize n) fun w => w.pairAddr n)
  ∧ (∀ f, let n := insX 0xA6 f; p (.ared f) n .atomic (atomicOk (atomSize n) (n.mod % 16)) (atomSize n) fun w => w.pairAddr n)
  ∧ ∀ f, let n := insX 0xA7 f; p (.atomx f) n .atomic (atomicOk 16 (if n.mod = 0 then 9 else 10)) 16 fun w => w.pairAddr n

/-- The accesses of an instruction that makes one, in as many pages as it spans (R183, R311), reach device memory; `ms` holds the
physical address of each part. -/
structure ReachesOne (w : Work) (acc : Access) (ok : Nat → Bool) (len : Nat) (vas : List Nat) (ms : List Mapped) (s1 : State) :
    Prop where
  free : w.memHeld = false
  parts : ms.length = vas.length
  translated : w.xlateAll acc ok (fun k => vas.getD k 0) (List.range vas.length)
    = ({ w with s := s1 }, (List.range ms.length).map fun k => (k, .ok (ms.getD k ⟨0, 0, 0, 0⟩)))
  device : ∀ m ∈ ms, targetOf m.pa = .device
  unlocked : (s1.core w.E.core).memLock w.E.ctx (vas.headD 0) len = none
  unfenced : ∀ m ∈ ms, s1.isFenced m.pa = false
  settled : ∀ m ∈ ms, s1.mapWaits m.pa = false
  unasked : w.asked = none

/-- Where byte `k` of a table in memory lies: in its first page, or in the next (R183). -/
def tableByte (va : Nat) (ms : List Mapped) (k : Nat) : Nat :=
  let c := 4096 - va % 4096
  if k < c then (ms.getD 0 ⟨0, 0, 0, 0⟩).pa + k else (ms.getD 1 ⟨0, 0, 0, 0⟩).pa + (k - c)

/-- The entries of a split's shadow list after results have landed in registers of its (R44): each is noted in every entry. -/
def landedShadow (owner : Nat) (outs : List Prior) (q : Split) : List Shadow :=
  outs.foldl (fun l o => if q.receives owner o then l.map (·.landed o) else l) q.shadow

/-- A held result lands in a troupe (R47, R209): it is off the scoreboard, its flags are merged into TSTAT, and its registers have its
values, every other register, and every other troupe, being as it was. -/
def lands (s t : State) (tid : Nat) (T : Troupe) (p : Pend) : Prop :=
  let outs : List Write := p.outs.map fun o => (o.reg, o.lanes, fun i => o.old.at_ (if o.reg.perLane then i else 0))
  ∃ T', t.troupes.find? tid = some T'
    ∧ T'.pend = T.pend.filter (fun q => q.id ≠ p.id) ∧ T'.tstat = T.tstat ||| p.flags
    ∧ (∀ r l, r.perLane = true → r ≠ .p 7 → l < 128 → (T'.vec r).at_ l = (written outs r l).getD ((T.vec r).at_ l))
    ∧ (∀ k, T'.ss.get k = (written outs (.ss k) 0).getD (T.ss.get k))
    ∧ (∀ k q, T.splits.find? k = some q → ∃ q', T'.splits.find? k = some q'
        ∧ (∀ j, q'.scal.get j = if q.uid = p.owner then (written outs (.s j) 0).getD (q.scal.get j) else q.scal.get j)
        ∧ q'.shadow = landedShadow p.owner p.outs q
        ∧ q' = { q with scal := q'.scal, frames := q'.frames, shadow := q'.shadow })
    ∧ T' = { T with file := T'.file, ss := T'.ss, tstat := T'.tstat, pend := T'.pend, splits := T'.splits, stack := T'.stack,
                    coming := T'.coming, saved := T'.saved }
    ∧ (∀ k, k ≠ tid → t.troupes.find? k = s.troupes.find? k)

/-- A split that waited goes on past its instruction (R84). -/
def goesOnPast (t : State) (tid : Nat) (T : Troupe) (uid : Nat) : Prop :=
  ∀ k q, T.splits.find? k = some q → q.uid = uid → q.state = 2 →
    ∃ T' q', t.troupes.find? tid = some T' ∧ T'.splits.find? k = some q'
      ∧ (q'.pc = if q.waitLen = 0 then q.pc else pcStep q.pc q.waitLen)
      ∧ (q'.past = if q.waitLen = 0 then q.past else pastEnd q.pc q.waitLen)
      ∧ q'.wait = .none ∧ q'.state = if q.rcv = some q'.pc ∧ q'.past = false then 3 else 1

/-- The conditions of an acq (R308). -/
def acqCond (cond m c : Nat) : Prop :=
  let sg (v : Nat) : Int := if v < 2 ^ 63 then v else (v : Int) - 2 ^ 64
  match cond with
  | 0 => True
  | 1 => m = c
  | 2 => m ≠ c
  | 3 => m < c
  | 4 => c ≤ m
  | 5 => sg m < sg c
  | _ => sg c ≤ sg m

/-! ### Stage memory -/

/-- The stage accesses of the active lanes, of some bytes each, meet nothing that stops them (R265): they are aligned and inside the
allotment, and no absent, filling or draining window and no engine's range is in their way. -/
structure Staged (w : Work) (n : Ins) (size : Nat) : Prop where
  free : w.memHeld = false
  aligned : ∀ l, w.act.getLsbD l = true → w.stageAddr n n.sa l % size = 0
  inside : ∀ l, w.act.getLsbD l = true → w.stageAddr n n.sa l + size ≤ w.E.size
  present : w.fillsHit (lanesOf w.act) (w.stageAddr n n.sa) size = []
  unlocked : ∀ l, w.act.getLsbD l = true →
    (w.s.core w.E.core).stageLock w.T.ens (w.stageAddr n n.sa l) (w.stageAddr n n.sa l + size - 1) false = none
  undrained : ∀ l, w.act.getLsbD l = true → w.E.winAt [5] (w.stageAddr n n.sa l) (w.stageAddr n n.sa l + size - 1) = none

/-- Lane `l` is the lowest active lane with a property. -/
def lowestWith (w : Work) (p : Nat → Prop) (l : Nat) : Prop :=
  w.act.getLsbD l = true ∧ p l ∧ ∀ j, j < l → w.act.getLsbD j = true → ¬p j

/-- A copy command stands at the end of its troupe's stagehand queue (R246, R258), under the number that the counter had; the
stagehand looks at the queue 4 cycles later; the split goes on; and apart from windows that begin to fill or drain nothing of
the troupe, its ensemble and memory has changed. -/
def queued (s t : State) (w : Work) (n : Ins) (c : Copy) : Prop :=
  ∃ x c', t.work w.tid w.ent = some x ∧ x.S.pc = (nextWord n w).pc ∧ (∀ r i, x.now r i = w.now r i)
    ∧ x.T.queue = w.T.queue ++ [s.tick] ∧ x.T.pend = w.T.pend ∧ x.E = { w.E with wins := x.E.wins }
    ∧ t.copies.find? s.tick = some c' ∧ c' = { c with members := c'.members, issued := s.now }
    ∧ (∀ k, k ≠ s.tick → t.copies.find? k = s.copies.find? k)
    ∧ ⟨s.now + 4, .copyStart w.tid⟩ ∈ t.agenda ∧ t.mem = s.mem ∧ t.contexts = s.contexts
    ∧ (∀ k, k ≠ w.tid → t.troupes.find? k = s.troupes.find? k)

/-- One update of the barrier at a stage address has been applied (R255): its bits are the result, the other bytes of stage memory
are as they were, the end of a phase of the epoch barrier has ended the ownership of the g registers (R128), and each split
that waits for the phase now completed wakes 8 cycles later (R276). -/
def barApplied (s t : State) (w : Work) (a arrive : Nat) (add : Int) : Prop :=
  let r := barStep (w.E.bar a) arrive add
  ∃ E', t.ensembles.find? w.T.ens = some E' ∧ E'.bar a = r.1
    ∧ (∀ c, c < a ∨ a + 16 ≤ c → E'.stageRead c 1 = w.E.stageRead c 1)
    ∧ E'.gown = (if r.2 ∧ w.E.epoch = some a then [] else w.E.gown)
    ∧ (r.2 = true → ∀ k T j p q sc l, s.troupes.find? k = some T → T.ens = w.T.ens → T.splits.find? j = some p →
        (k ≠ w.tid ∨ j ≠ w.ent) → p.wait = .phase a q sc l → q < 16 → q ≠ r.1 % 16 → ⟨s.now + 8, .tbwaitWake k p.uid⟩ ∈ t.agenda)
    ∧ t.mem = s.mem

/-! ### Meeting points -/

/-- The splits of a fusing group whose value of sN counts (R87): those that wrote it since the common fork, or all if none did. -/
def writersOf (ps : List Split) (n : Nat) : List Split :=
  let ws := ps.filter fun p => p.wroteSince (sharedFrames ps) n
  if ws = [] then ps else ws

/-- The scalar registers of a fused split (R87): each is that of the split with the lowest lane among those that count. -/
def mergesTo (ps : List Split) (scal : Store 32) : Prop :=
  ∀ n p, n < 64 → p ∈ writersOf ps n → (∀ q ∈ writersOf ps n, q = p ∨ lowLane p.mask < lowLane q.mask) → scal.get n = p.scal.get n

/-- Some scalar register of a fusing group has differing values that count (R87): SMERGE is set. -/
def mergeDiffers (ps : List Split) : Prop :=
  ps.length ≠ 1 ∧ ∃ n p q, n < 64 ∧ p ∈ writersOf ps n ∧ q ∈ writersOf ps n ∧ p.scal.get n ≠ q.scal.get n

/-- An event of a troupe's splits changes, of the module, at most the agenda, the counter and that troupe. -/
def onlyTroupe (s t : State) (tid : Nat) : Prop :=
  t = { s with tick := t.tick, agenda := t.agenda, troupes := t.troupes }
  ∧ ∀ k, k ≠ tid → t.troupes.find? k = s.troupes.find? k

/-! ### Operand stores, tiles and the array -/

/-- The bytes of an operand slot (R215); an unclaimed one has none. -/
def slotBytes (w : Work) (b : Bool) (k : Nat) : Store 8 := ((w.E.slot b k).map (·.data)).getD []

/-- The 256 bytes of a row of A or a column of B as one number (R215). -/
def matString (w : Work) (b : Bool) (k r : Nat) : Nat := leNat ((slotBytes w b k).getMany (256 * r) 256)

/-- Element `q` of a row of A or a column of B, under its block's scale if it has one (R215, R216); `table` is where the scales of
the row or column begin. -/
def matAt (w : Work) (f : Fmt) (str table q : Nat) : Machine.Num :=
  matElem f (str / 2 ^ (f.width * q) % 2 ^ f.width)
    (if f.scaled then some (leNat (w.E.stageRead (table + q / f.blockLen) 1)) else none)

/-- The element that row `r` of A has at position `q`; none where the metadata of a sparse row leaves it empty, as in a malformed
group (R225). -/
def matA (w : Work) (c : MatCfg) (sparse : Bool) (r q : Nat) : Option Machine.Num :=
  let at_ (k : Nat) : Machine.Num := matAt w c.fa (matString w false c.a r) (c.ascl + r * (c.k / c.fa.blockLen)) k
  if sparse then
    let m := leNat (w.E.stageRead (c.meta_ + 64 * r) 64) / 2 ^ (4 * (q / 4))
    let i0 := m % 4
    let i1 := m / 4 % 4
    if i1 ≤ i0 then none
    else if q % 4 = i0 then some (at_ (2 * (q / 4)))
    else if q % 4 = i1 then some (at_ (2 * (q / 4) + 1))
    else none
  else some (at_ q)

/-- The steps of R221 on the element of row `r` and column `j` whose code was `v`: its new code and the flags. -/
def matElement (w : Work) (c : MatCfg) (sparse sat : Bool) (r j v : Nat) : Nat × Word :=
  if c.tx then
    let block (f : Fmt) (str b : Nat) : Nat × List Int := txTerms f (str / 2 ^ ((16 + 32 * f.width) * b))
    matSteps (fun v b => stepTx c.fa c.fb sat v (block c.fa (matString w false c.a r) b) (block c.fb (matString w true c.b j) b)) v
      (List.range (c.k / 32))
  else
    matSteps (fun v k => stepFloat c.lead sat v ((List.range c.p).map fun q =>
        (matA w c sparse r (c.p * k + q),
          matAt w c.fb (matString w true c.b j) (c.bscl + j * (c.k / c.fb.blockLen)) (c.p * k + q)))) v
      (List.range (c.k / c.p))

/-- A group of row `r` of a sparse A is malformed (R225). -/
def malformed (w : Work) (c : MatCfg) (r : Nat) : Bool :=
  (List.range (c.k / 4)).any fun g =>
    let m := leNat (w.E.stageRead (c.meta_ + 64 * r) 64) / 2 ^ (4 * g)
    m / 4 % 4 ≤ m % 4

/-- What a tile holds at row `r` and column `j` (R215); an unclaimed one, +0 as a claim will set it (R213). -/
def tileAt (e : Ensemble) (k r j : Nat) : Word := Store.get (((e.tiles.find? k).map fun x => x.data).getD []) (256 * r + j)

/-- Only one tile of an ensemble differs. -/
def onlyTile (e e' : Ensemble) (k : Nat) : Prop :=
  e' = { e with tiles := e'.tiles } ∧ ∀ j, j ≠ k → e'.tiles.find? j = e.tiles.find? j

/-- A number of a physical slot or tile is tied to a name on a core (R212). -/
def tiedOn (s : State) (core : Nat) (phys : Ensemble → List Nat) (p : Nat) : Prop :=
  ∃ e ∈ s.ensembles, e.2.core = core ∧ e.2.pos ≠ .saved true ∧ p ∈ phys e.2

/-- The lowest number below a bound that is not tied (R213). -/
def lowestUntied (s : State) (core : Nat) (phys : Ensemble → List Nat) (count p : Nat) : Prop :=
  p < count ∧ ¬tiedOn s core phys p ∧ ∀ q, q < p → tiedOn s core phys q

/-- An earlier matrix instruction into a tile of the ensemble is not ready, or an acczero or accwr of it not complete (R228). -/
def tileBusy (s : State) (w : Work) (k : Nat) : Prop :=
  (∃ m ∈ (s.core w.E.core).mats, m.ens = w.T.ens ∧ m.tile = k) ∨ ∃ x, w.E.tiles.find? k = some x ∧ s.now < x.busy

/-! ### Cue actions -/

/-- Of a cue action `a` that takes the point P, `b` is what its core then holds (R369): with F = P + OFF, it fires in F if that is at
least 4 cycles ahead and OFF is at least the cue latency, and else late, in the first cycle that both allow. -/
def firesBy (s t : State) (core : Nat) (a b : Act) (p : Int) : Prop :=
  let l : Int := s.lambda a.ctx core
  let due := p + a.off
  ∃ f : Nat, b = { a with fires := some f, late := b.late } ∧ ⟨f, a.event core⟩ ∈ t.agenda
    ∧ if (s.now : Int) + 4 ≤ due ∧ l ≤ a.off then (f : Int) = due ∧ b.late = a.late
      else f = (max ((s.now : Int) + 4) (p + l)).toNat ∧ b.late = true

/-- A core holds a new cue action (R369, R370): it has the point of the core's copy of its cue, or waits for one. -/
def actMade (s t : State) (core : Nat) (a : Act) : Prop :=
  let e := Store.get (((s.core core).cues.find? a.ctx).getD []) a.cue
  ∃ b ∈ (t.core core).acts, (e.getLsbD 63 = false → b = a) ∧ (e.getLsbD 63 = true → firesBy s t core a b (s.pointOf a.ctx e))

/-- A core's action is over, and its others are as they were. -/
def actEnded (s t : State) (core id : Nat) : Prop := ∀ x, x ∈ (t.core core).acts ↔ x ∈ (s.core core).acts ∧ x.id ≠ id

/-- A core's action is due but waits, and will be late; it looks again in the next cycle. -/
def actDeferred (s t : State) (core : Nat) (a : Act) : Prop :=
  { a with fires := some s.now, late := true } ∈ (t.core core).acts ∧ ⟨s.now + 1, a.event core⟩ ∈ t.agenda

/-! ### Traps -/

/-- The split of `w` may take a trap to a handler (R390): its troupe is at user level, its block of the save area stands in device
memory that is backed, and a slot of its core holds the handler's overlay; `c` is the context as its core sees it. -/
structure MayTrap (s : State) (w : Work) (c : Context) : Prop where
  user : w.T.tstat.getLsbD 16 = false
  seen : s.ctxSeen w.E.core w.E.ctx = some c
  device : targetOf (blockBase c w.T.block) = .device ∧ targetOf (blockBase c w.T.block + 0x13FFFF) = .device
  backed : s.backed (blockBase c w.T.block) = true ∧ s.backed (blockBase c w.T.block + 0x13FFFF) = true
  handler : ((s.core w.E.core).slotOf w.E.ctx (bvField c.tvec 27 16)).isSome = true

/-- The split of `w` has taken a trap (R390): the record stands in its troupe's block of the save area, the troupe is at supervisor
level with TREC and the cause in SS0 to SS2, the split stands at the handler with its mask and scalar registers, no frame and an
empty shadow list, and issues 24 cycles later at the earliest; the results still to come are marked, and nothing else has
changed, memory outside the record and the lanes' trap shadow area included. -/
structure Trapped (s : State) (w : Work) (c : Context) (x : TrapInfo) (a : TrapAt) (t : State) : Prop where
  troupe : ∃ T p, t.troupes.find? w.tid = some T ∧ T.splits.find? w.ent = some p
    ∧ T = { w.T with
        tstat := w.T.tstat ||| flagLevel, ss := T.ss, trapPc := some a.pc, splits := T.splits, stack := T.stack, coming := T.coming,
        saved := some { uid := w.S.uid, dist := w.S.dist, run := w.S.run, adds := a.adds, written := w.S.shadow, shadow := w.S.shadow },
        pend := w.T.pend.map fun q => { q with kept := true }, parked := w.T.parked.filter fun q => q.uid ≠ w.S.uid }
    ∧ (∀ k, T.ss.get k =
        if k = 0 then BitVec.ofNat 32 (trecOf c w.T.block) else if k = 1 then BitVec.ofNat 32 (trecOf c w.T.block / 2 ^ 32)
        else if k = 2 then BitVec.ofNat 32 x.cause else w.T.ss.get k)
    ∧ p = { w.S with
        frames := [], infull := false, shadow := [], pc := c.tvec, past := false, state := 1, wait := .none, hand := true, atRejoin := 0,
        fell := none, redo := none, run := w.S.lastRun + 1, lastRun := w.S.lastRun + 1, earliest := p.earliest }
    ∧ s.now + 24 ≤ p.earliest
    ∧ ∀ k q, w.T.splits.find? k = some q → q.uid ≠ w.S.uid → T.splits.find? k = some q
  record : Inv s → t.mem.readN (blockBase c w.T.block) 4096 = trapRecord w.T w.ent w.S x a
  memory : Inv s → ∀ b, let base := blockBase c w.T.block
    ¬(base ≤ b ∧ b < base + 4096) → ¬(base + 0x10000 ≤ b ∧ b < base + 0x30000) → t.mem.read b = s.mem.read b
  others : ∀ k, k ≠ w.tid → t.troupes.find? k = s.troupes.find? k
  module : t = { s with
    tick := t.tick, agenda := t.agenda, mem := t.mem, cached := t.cached, stackDiff := t.stackDiff, troupes := t.troupes }

/-- An instruction that takes a trap before it has any effect (R390): ACTIVE and DONE are those of its first issue (R285, R391). -/
def trapsTo (i : Instr) (n : Ins) (x : Work → TrapInfo) : Prop :=
  ∀ s w c, issues n s w → MayTrap s w c → ∃ t, exec i s = .next t
    ∧ Trapped s w c { x w with done := w.done1 } { pc := w.S.pc, ilen := n.ilen, insn := bytesOf n.words, active := w.active1, adds := 1 + n.stall } t

/-- A context has been terminated (R413): no troupe, ensemble or copy of it is left, and its front-end queues wait for nothing. -/
structure Terminated (s t : State) (c : Nat) : Prop where
  context : ∀ x, s.contexts.find? c = some x → ∃ y, t.contexts.find? c = some y ∧ y.terminated = true ∧ y.ctxid = x.ctxid
  ensembles : ∀ e, e ∈ t.ensembles ↔ e ∈ s.ensembles ∧ e.2.ctx ≠ c
  troupes : ∀ e, e ∈ t.troupes ↔ e ∈ s.troupes ∧ ∀ E, s.ensembles.find? e.2.ens = some E → E.ctx ≠ c
  copies : ∀ e, e ∈ t.copies ↔ e ∈ s.copies ∧ ∀ E, s.ensembles.find? e.2.ens = some E → E.ctx ≠ c
  launches : ∀ e, e ∈ t.launches ↔ e ∈ s.launches ∧ e.2.ctx ≠ c

/-- A die's stage manager has an event to report of a code and number for a CTXID (R442), if it has room. -/
def reported (s t : State) (d code ctxid num : Nat) : Prop :=
  (s.die d).reports.length < 256 → ∃ r ∈ (t.die d).reports, r.code = code ∧ r.ctxid = ctxid ∧ r.num = num

/-- The answer of a step whose writes have been noted for checkpointing (R401). -/
def noted (s : State) (pages : Bool) (o : Out) : Out :=
  match o with
  | .next t => .next (s.markDirty t pages)
  | .fault f => .fault f
  | .refused r => .refused r

/-! ### System registers -/

/-- The value of a system register as rdsr finds it (R353, R383): `c` is the context as its core sees it, `p` the ensemble's production. -/
def sysReg (w : Work) (c : Context) (p : Prod) (num : Nat) : Nat :=
  match num with
  | 0x00 => w.T.tstat.toNat
  | 0x01 => w.T.srseed.toNat
  | 0x02 => w.T.qstat.toNat
  | 0x03 => c.savecost.toNat
  | 0x04 => p.args.toNat % 2 ^ 32
  | 0x05 => p.args.toNat / 2 ^ 32
  | 0x06 => w.E.lin % p.gx
  | 0x07 => w.E.lin / (p.gx * p.gy) * 65536 + w.E.lin / p.gx % p.gy
  | 0x08 => p.gx - 1
  | 0x09 => (p.gz - 1) * 65536 + (p.gy - 1)
  | 0x0A => (if p.producer then 128 else 0) + (if p.coop then 64 else 0) + w.E.member % 4 * 16 + p.depth
  | 0x40 => c.ptbr.toNat
  | 0x41 => c.ctxid.toNat
  | 0x42 => c.odir.toNat
  | 0x43 => c.grbase.toNat
  | 0x44 => c.grquota.toNat
  | 0x45 => c.tvec.toNat
  | 0x46 => c.savebase.toNat
  | 0x47 => c.saven.toNat
  | 0x48 => c.saveva.toNat
  | 0x49 => 65536 * bvField c.saveva 59 16 + 0x10000 + 0x140000 * w.T.block
  | 0x4A => c.ckctl.toNat
  | 0x4B => c.ckbase.toNat
  | 0x4C => c.cklen.toNat
  | 0x4D => c.ckreg.toNat
  | 0x4E => c.pkbase.toNat
  | 0x4F => c.pklen.toNat
  | _ => 0

/-- The bits of a register held per context that a write sets as they are (R282, R355, R385, R404). -/
def sysRegMask (num : Nat) : DWord :=
  match num with
  | 0x40 => 0x000FFFFFFFFF8000#64
  | 0x41 => 0x00000000000FFFFF#64
  | 0x42 => 0x0FFFFFFFFFFF0000#64
  | 0x43 => 0x000FFFFFFFFFFFC0#64
  | 0x45 => 0x000000000FFFFFFC#64
  | 0x46 => 0x000FFFFFFFFF0000#64
  | 0x48 => 0x0FFFFFFFFFFF0000#64
  | 0x4B => 0x000FFFFFFFF00000#64
  | 0x4C => 0x00000000FFFFFFFF#64
  | 0x4D => 0x0FFFFFFFFFFFFFFF#64
  | 0x4E => 0x000FFFFFFFF00000#64
  | _ => 0x00000000FFFFFFFF#64

/-- A translation that a shootdown covers (R415): of its pages, of its context, or any. -/
def shotDown (x : Shoot) (e : TlbEnt) : Prop :=
  let lo := e.vpn * 2 ^ levelShift e.level
  let first := x.addr / 4096 * 4096
  (x.kind = 0 ∧ e.ctxid = x.ctxid ∧ lo < first + 4096 * x.count ∧ first < lo + 2 ^ levelShift e.level)
  ∨ (x.kind = 1 ∧ e.ctxid = x.ctxid) ∨ 2 ≤ x.kind

/-! ### Memory as the module's units write it, and the front ends -/

/-- Bytes stand in memory at an address, and every other byte is as it was. -/
def storedAt (s t : State) (pa : Nat) (bs : List Byte) : Prop :=
  Inv s → t.mem.readN pa bs.length = bs ∧ ∀ a, a < pa ∨ pa + bs.length ≤ a → t.mem.read a = s.mem.read a

/-- The entries of a table stand in ascending order, each number once. -/
def inOrder {α : Type} (x : Tab α) : Prop := (x.map (·.1)).Pairwise (· < ·)

/-- Of the module only memory, what its caches know of it, the agenda and the dies differ. -/
def onlyMemory (s t : State) : Prop :=
  t = { s with tick := t.tick, mem := t.mem, cached := t.cached, stackDiff := t.stackDiff, agenda := t.agenda, dies := t.dies }

/-- The front end stands before a packet that may start (R337): the queue is mapped and in STATE 2, its written packet `k`, of bytes `b`
and TYPE `ty`, is the next, BAR lets it start, and the queue names context `c`. -/
structure AtHead (s : State) (q ty k : Nat) (b : List Byte) (c : Nat) : Prop where
  mapped : (s.queue q).slot.isSome = true
  free : (s.queue q).head = none ∧ (s.queue q).preload = false
  state : s.qState q = 2
  index : s.qGet q 0x18 8 = k ∧ s.qGet q 0x10 8 ≠ k
  bytes : s.peek (s.qGet q 0 8 + 64 * (k % 2 ^ s.qGet q 8 1)) 64 = b
  type : pf b 0 2 % 16 = ty
  order : (pf b 0 2).testBit 4 = true → (s.queue q).inFlight = []
  named : s.ctxNamed (s.qGet q 0x0B 1) (s.qGet q 0x0C 4) = some c

/-- A queue has stopped with an error (R334): it has left its slot, its descriptor says so, and the event is to be reported. -/
def queueStopped (s t : State) (q err addr : Nat) : Prop :=
  (t.queue q).slot = none
  ∧ (Inv s → t.qState q = 4 ∧ t.qGet q 0x21 1 = err % 256 ∧ t.qGet q 0x28 8 = addr % 2 ^ 64)
  ∧ reported s t (((s.queue q).slot.map (·.1)).getD 0) 1 (s.qGet q 0x0C 4) q

/-- A front end has worked on a queue: nothing of the contexts, the cores and what runs on them has changed, and of memory at most the
queue's descriptor. -/
def queueOnly (s t : State) (q : Nat) : Prop :=
  t.contexts = s.contexts ∧ t.cores = s.cores ∧ t.ensembles = s.ensembles ∧ t.troupes = s.troupes ∧ t.prods = s.prods
  ∧ (Inv s → ∀ a, a < s.qDesc q ∨ s.qDesc q + 64 ≤ a → t.mem.read a = s.mem.read a)

/-- Slot `k` of die `d` is the first free one for a partition: of the lowest-numbered die that has one (R333). -/
def firstSlot (s : State) (part d k : Nat) : Prop :=
  let free (d k : Nat) : Prop := d < 12 ∧ s.partOf.getD d 0 = part ∧ k < 128 ∧ ∀ x ∈ s.queues, x.2.slot ≠ some (d, k)
  free d k ∧ ∀ e j, free e j → d < e ∨ (d = e ∧ k ≤ j)

/-- A request from a Helyel link to `n` bytes of stack `e` is checked in the order of log entry 39 (R424, R428, R429): REFUSED after a
takeover, UNBACKED beyond the stack, DENIED without an entry of the access-control table for its operation, node, key and bytes,
FENCED on a fenced page; else `served` holds of its physical address. -/
def requestServed (s t : State) (e perm node : Nat) (key : Word) (sla n : Nat) (served : Nat → Prop) : Prop :=
  let x := s.stack e
  let allows (a : BitVec 128) : Prop := a.getLsbD 127 = true ∧ (bvField a 126 124).testBit perm = true ∧ bvField a 123 115 ≤ node
    ∧ node ≤ bvField a 114 106 ∧ bvField a 105 86 ≤ sla / 65536 ∧ (sla + n - 1) / 65536 ≤ bvField a 85 66 ∧ bvField a 31 0 = key.toNat
  let granted : Prop := ∃ j, j < 64 ∧ allows (x.acl.get j)
  let answer (v : Nat) : Prop := t = { s with sent := some (.helyel v 0 []) }
  (x.takeover = true → answer 3)
  ∧ (x.takeover = false → 0xF00000000 ≤ sla → answer 4)
  ∧ (x.takeover = false → sla < 0xF00000000 → ¬granted → answer 1)
  ∧ (x.takeover = false → sla < 0xF00000000 → granted → ∀ pa, s.paOf e sla = some pa →
      (s.isFenced pa = true → answer 2) ∧ (s.isFenced pa = false → s.mapWaits pa = false → served pa))

/-- Outside the sectors of some bytes, memory is as it was for the module, and outside their lines for the stacks (R293, R295, R331). -/
def sectorsOnly (s t : State) (pa n : Nat) : Prop :=
  Inv s → ∀ a, (a / 32 < pa / 32 ∨ (pa + n - 1) / 32 < a / 32) → t.mem.read a = s.mem.read a
    ∧ ((a / 256 < pa / 256 ∨ (pa + n - 1) / 256 < a / 256) → t.stackByte a = s.stackByte a)

/-- An atomic from a Helyel link on the `n` bytes at an address, of which no cache holds any: its old value is the answer, and its new
value stands in the stack (R428). -/
def stackUpdated (s t : State) (pa n : Nat) (new : Nat → Nat) : Prop :=
  sectorsOnly s t pa n ∧ ∃ old, t.sent = some (.helyel 0 old [])
    ∧ (Inv s → (∀ k, pa / 32 ≤ k → k ≤ (pa + n - 1) / 32 → s.cached.find? k = none) →
        old = leNat ((List.range n).map fun i => s.stackByte (pa + i)) ∧ t.mem.readN pa n = natLE n (new old))

/-! ### Decode -/

/-- A word list decodes to an instruction, whatever bytes follow it. -/
def decodesTo (ws : List Nat) (i : Instr) : Prop := ∀ rest, decode (bytesOf ws ++ rest) = .ok i

end Sys2Proof
end

