-- ==== Sys2Proof/Certificates/Slice0/Obligations.lean ====
section
/-! DEFINITION. The statements about the model that are to be proved. -/

open Sys2Proof Sys2Proof.Machine

/-! ### Integer arithmetic, logic and moves -/

/-- R137: these instructions act element by element under R133, on the exact result of the elements. R138: imad is elementwise; isad
is one 32-bit result, the fit of c plus the sum of the absolute differences of all elements. Neither has an intermediate that wraps.
R139, R140, R141: the sum and difference with carry and their out predicate, written after DST; the exact 64-bit product; the
comparison, each element all ones or zero. -/
def Obligations.IntegerArithmetic : Prop :=
  bothForms 0x22 .iadd .iaddBase (elementResult fun _ a b _ => a + b)
  ∧ bothForms 0x23 .isub .isubBase (elementResult fun _ a b _ => a - b)
  ∧ bothForms 0x26 .imul .imulBase (elementResult fun _ a b _ => a * b)
  ∧ bothForms 0x27 .imulh .imulhBase (elementResult fun f a b _ => a * b / 2 ^ f.width)
  ∧ bothForms 0x2B .imin .iminBase (elementResult fun _ a b _ => min a b)
  ∧ bothForms 0x2C .imax .imaxBase (elementResult fun _ a b _ => max a b)
  ∧ bothForms 0x2D .iabs .iabsBase (elementResult fun _ a _ _ => |a|)
  ∧ bothForms 0x2E .ineg .inegBase (elementResult fun _ a _ _ => -a)
  ∧ oneForm 0x29 .imad (elementResult fun _ a b c => a * b + c)
  ∧ oneForm 0x2A .isad
    (let t (n : Ins) (w : Work) (l : Nat) : Int :=
      readInt (w.src false n n.sc 0 l).toNat 32 (w.fmt n.fmt).sign
        + ((List.range (32 / (w.fmt n.fmt).width)).map fun e => |srcElem n w n.sa l e - srcElem n w n.sb l e|).sum
    let sat (n : Ins) (w : Work) : Bool := n.sat || (w.fmt n.fmt).satPolicy
    laneResult false
      (fun n w l v => ((v.toNat : Nat) : Int) = clamped (t n w l) 32 (w.fmt n.fmt).sign (sat n w) % 2 ^ 32)
      fun n w fl => (fl = 0#32 ∨ fl = flagSat)
        ∧ (fl = flagSat ↔ sat n w = true ∧ ∃ l, w.act.getLsbD l = true ∧ outOfRange (t n w l) 32 (w.fmt n.fmt).sign))
  ∧ (∀ f, let n := insX 0x24 f
    let t (w : Work) (l : Nat) : Nat :=
      (w.src false n n.sa 0 l).toNat + (w.src false n n.sb 0 l).toNat + (w.src false n n.sc 0 l).toNat % 2
    completesWith (.iaddc f) n
      (fun w => w.outsOf n 1 w.act (fun _ l => BitVec.ofNat 32 (t w l))
        ++ (w.dests (.p (BitVec.ofNat 3 n.mod)) 0 w.act).map (fun d => (d.1, d.2, fun l => if 2 ^ 32 ≤ t w l then 1#32 else 0#32))
        ++ [(.latI, w.act, fun l => BitVec.ofNat 32 (t w l))])
      fun _ => 0#32)
  ∧ (∀ f, let n := insX 0x25 f
    let t (w : Work) (l : Nat) : Int :=
      ((w.src false n n.sa 0 l).toNat : Int) - (w.src false n n.sb 0 l).toNat - ((w.src false n n.sc 0 l).toNat % 2 : Nat)
    completesWith (.isubb f) n
      (fun w => w.outsOf n 1 w.act (fun _ l => BitVec.ofInt 32 (t w l))
        ++ (w.dests (.p (BitVec.ofNat 3 n.mod)) 0 w.act).map (fun d => (d.1, d.2, fun l => if t w l < 0 then 1#32 else 0#32))
        ++ [(.latI, w.act, fun l => BitVec.ofInt 32 (t w l))])
      fun _ => 0#32)
  ∧ bothForms 0x28 .imulw .imulwBase (fun i n => completesWith i n
      (fun w => pairWrites false n w fun l =>
        ((readInt (w.src false n n.sa 0 l).toNat 32 (w.fmt n.fmt).sign
          * readInt (w.src false n n.sb 0 l).toNat 32 (w.fmt n.fmt).sign) % 2 ^ 64).toNat)
      fun _ => 0#32)
  ∧ oneForm 0x2F .icmp (laneResult false
      (fun n w l v =>
        let f := w.fmt n.fmt
        (f.width = 8 ∨ f.width = 16 ∨ f.width = 32)
        ∧ ∀ e, e < 32 / f.width →
            let c := icmpHolds n.mod (srcElem n w n.sa l e) (srcElem n w n.sb l e)
            let r := v.toNat / 2 ^ (f.width * e) % 2 ^ f.width
            (c → r = 2 ^ f.width - 1) ∧ (¬c → r = 0))
      fun _ _ fl => fl = 0#32)

/-- R142, R143: the bitwise instructions and the shifts. R136, R144 to R147: moves, bit counts, bit reversal, bit fields, byte
permutation, and extension. -/
def Obligations.LogicShiftsAndBitFields : Prop :=
  bothForms 0x31 .and .andBase (wordResult fun _ a b _ => a &&& b)
  ∧ bothForms 0x32 .or .orBase (wordResult fun _ a b _ => a ||| b)
  ∧ bothForms 0x33 .xor .xorBase (wordResult fun _ a b _ => a ^^^ b)
  ∧ bothForms 0x34 .not .notBase (wordResult fun _ a _ _ => ~~~a)
  ∧ bothForms 0x35 .andn .andnBase (wordResult fun _ a b _ => a &&& ~~~b)
  ∧ oneForm 0x36 .bsel (wordResult fun _ m a b => (m &&& a) ||| (~~~m &&& b))
  ∧ oneForm 0x37 .logic3 (wordRel fun n a b c v => ∀ j, j < 32 →
      v.getLsbD j = n.mod.testBit (4 * (a.getLsbD j).toNat + 2 * (b.getLsbD j).toNat + (c.getLsbD j).toNat))
  ∧ oneForm 0x30 .sel (wordResult fun _ a b c => if c ≠ 0 then a else b)
  ∧ bothForms 0x38 .shl .shlBase (wordResult fun _ a b _ => a <<< b.toNat)
  ∧ bothForms 0x39 .shr .shrBase (wordResult fun _ a b _ => a >>> b.toNat)
  ∧ bothForms 0x3A .sar .sarBase (wordResult fun _ a b _ => a.sshiftRight b.toNat)
  ∧ bothForms 0x3B .rot .rotBase (wordRel fun _ a b _ v => ∀ j, j < 32 → v.getLsbD ((j + b.toNat) % 32) = a.getLsbD j)
  ∧ bothForms 0x20 .mov .movBase (wordResult fun _ a _ _ => a)
  ∧ oneForm 0x21 .movi (wordResult fun _ a _ _ => a)
  ∧ (∀ f : BI, laneResult false (fun _ _ _ v => v = f.imm.signExtend 32) (fun _ _ fl => fl = 0#32) (.moviBase f) (insBI f))
  ∧ bothForms 0x3C .popc .popcBase
      (wordRel fun _ a _ _ v => v.toNat = ((List.range 32).filter fun j => a.getLsbD j).length)
  ∧ bothForms 0x3D .clz .clzBase
      (wordRel fun _ a _ _ v => v.toNat ≤ 32 ∧ (∀ j, 32 - v.toNat ≤ j → a.getLsbD j = false)
        ∧ (v.toNat < 32 → a.getLsbD (31 - v.toNat) = true))
  ∧ bothForms 0x3E .ctz .ctzBase
      (wordRel fun _ a _ _ v => v.toNat ≤ 32 ∧ (∀ j, j < v.toNat → a.getLsbD j = false)
        ∧ (v.toNat < 32 → a.getLsbD v.toNat = true))
  ∧ bothForms 0x3F .brev .brevBase (wordRel fun _ a _ _ v => ∀ j, j < 32 → v.getLsbD (31 - j) = a.getLsbD j)
  ∧ oneForm 0x40 .bfx (wordRel fun n a f _ v =>
      let pos := f.toNat % 256
      let len := f.toNat / 256 % 256
      let m := min len (32 - pos)
      if 32 ≤ pos ∨ len = 0 then v = 0
      else ∀ j, j < 32 → v.getLsbD j = if j < m then a.getLsbD (pos + j) else n.mod.testBit 0 && a.getLsbD (pos + m - 1))
  ∧ oneForm 0x41 .bfi (wordRel fun _ a b f v =>
      let pos := f.toNat % 256
      let len := f.toNat / 256 % 256
      let m := min len (32 - pos)
      if 32 ≤ pos ∨ len = 0 then v = a
      else ∀ j, j < 32 → v.getLsbD j = if pos ≤ j ∧ j < pos + m then b.getLsbD (j - pos) else a.getLsbD j)
  ∧ bothForms 0x42 .perm .permBase (wordRel fun _ a sel _ v => ∀ k, k < 4 →
      let s := sel.toNat / 2 ^ (4 * k) % 16
      let b := a.toNat / 2 ^ (8 * (s % 4)) % 256
      v.toNat / 2 ^ (8 * k) % 256 =
        if s.testBit 2 then 0 else if s.testBit 3 then (if b.testBit 7 then 0xFF else 0) else b)
  ∧ oneForm 0x43 .sext (wordRel fun n a _ _ v => ∀ j, j < 32 → v.getLsbD j = a.getLsbD (min j (n.mod % 32)))
  ∧ oneForm 0x44 .zext (wordRel fun n a _ _ v => ∀ j, j < 32 → v.getLsbD j = (decide (j ≤ n.mod % 32) && a.getLsbD j))

/-- R148, R149, R150: lea forms a 64-bit address; xset writes an index that lies within its bounds pair; xbnd gives the previous
bounds, which the new ones, themselves within the register allotment, replace. -/
def Obligations.AddressAndIndex : Prop :=
  oneForm 0x45 .lea (fun i n => completesWith i n
    (fun w => pairWrites false n w fun l =>
      let x := w.src false n n.sb 0 l
      let ix : Int := if n.mod.testBit 3 then (x.toNat : Int) else x.toInt
      (((w.src64 false n n.sa l : Nat) + ix * 2 ^ (n.mod % 8) + n.disp : Int) % 2 ^ 64).toNat)
    fun _ => 0#32)
  ∧ oneForm 0x46 .xset (fun i n =>
    let t (w : Work) (l : Nat) : Int := (w.src false n n.sa 0 l).toInt * 2 ^ (n.mod % 4) + (w.src false n n.sb 0 l).toInt
    ∀ s w, issues n s w → ∀ a, n.dst = .x a →
      (∀ l, w.act.getLsbD l = true →
        ((w.T.xb.getD a.toNat 0).toNat % 65536 : Int) ≤ t w l ∧ t w l ≤ (w.T.xb.getD a.toNat 0).toNat / 65536)
      ∧ ∃ y x, exec i s = .next y
        ∧ Completes s w (laneWrites false n w fun l => BitVec.ofInt 32 (t w l)) 0#32 [] (nextWord n w) y x)
  ∧ oneForm 0x47 .xbnd (fun i n =>
    ∀ s w, issues n s w →
      let v := w.src false n n.sa 0 (lowLane w.act)
      let k := n.mod % 4
      v.toNat % 65536 ≤ v.toNat / 65536 ∧ v.toNat / 65536 < w.T.nregs
      ∧ ∃ y x, exec i s = .next y
        ∧ Completes s { w with T := { w.T with xb := w.T.xb.set k v } } (w.outsOf n 1 w.act fun _ _ => w.T.xb.getD k 0) 0#32 []
            (nextWord n w) y x)

/-- R109, R151, R152, R155, R156: moves that write no more than the registers they name: the query of a split, smov, stov, plog and
pmov. R128, R130, R153, R154: vtos reads one lane; gmov writes a g register that no other troupe owns, or reads one; the reads go to
the scoreboard. That splq writes the integer latch is the model's choice (log entry 100). -/
def Obligations.MovesAndQueries : Prop :=
  bothForms 0x48 .smov .smovBase (fun i n => completesWith i n
    (fun w => w.outsOf n 1 w.act fun _ l => w.src false n n.sa 0 l) fun _ => 0#32)
  ∧ bothForms 0x4B .stov .stovBase (fun i n =>
    ∀ s w, issues n s w →
      let k := (w.src false n n.sb 0 (lowLane w.act)).toNat
      let v (l : Nat) : Word := w.src false n n.sa 0 l
      ∃ y x, exec i s = .next y ∧ Completes s w
        (if w.act.getLsbD k then w.outsOf n 1 (1#128 <<< k) (fun _ => v) ++ [(.latI, 1#128 <<< k, v)] else []) 0#32 []
        (nextWord n w) y x)
  ∧ oneForm 0x4C .plog (wordRel fun n a b _ v =>
      v = if n.mod.testBit (2 * (a.toNat % 2) + b.toNat % 2) then 1#32 else 0#32)
  ∧ oneForm 0x4D .pmov (fun i n =>
    ∀ s w, issues n s w →
      (n.mod.testBit 0 = false → ∃ v y x, exec i s = .next y
        ∧ Completes s w (laneWrites false n w v) 0#32 [] (nextWord n w) y x
        ∧ ∀ l, w.act.getLsbD l = true → (v l).toNat < 256
          ∧ ∀ k, k < 8 → (v l).getLsbD k = (w.read (.p k) l).getLsbD 0)
      ∧ (n.mod.testBit 0 = true → ∃ y x, exec i s = .next y
        ∧ Completes s w (((List.range 7).filter fun k => n.mod.testBit (k + 1)).map fun k =>
            (Reg.p k, w.act, fun l => (w.src false n n.sa 0 l) >>> k)) 0#32 [] (nextWord n w) y x))
  ∧ bothForms 0x15 .splq .splqBase (laneResult false
      (fun n w _ v => v = BitVec.ofNat 32 (
        if n.mod = 0 then (lanesOf w.S.mask).length
        else if n.mod = 1 then lowLane w.S.mask
        else if n.mod = 2 then w.T.splits.length + w.T.stack.length + w.T.coming.length
        else if n.mod = 3 then w.S.frames.length
        else if n.mod = 8 then w.ent
        else w.S.mask.toNat / 2 ^ (32 * (n.mod - 4)) % 2 ^ 32))
      fun _ _ fl => fl = 0#32)
  ∧ oneForm 0x4A .vtos (fun i n => scoreboardResult i n (fun _ => 1)
    (fun w _ _ =>
      let k := (w.src false n n.sb 0 (lowLane w.act)).toNat
      w.src false n n.sa 0 (if n.mod = 1 then lowLane w.act else if n.mod = 2 then highLane w.act
        else if w.act.getLsbD k then k else lowLane w.act))
    fun _ => 0#32)
  ∧ oneForm 0x49 .gmov (fun i n =>
    ∀ s w, issues n s w →
      (∀ a, n.mod = 0 → n.dst = .g a →
        let v := w.src false n n.sa 0 (lowLane w.act)
        let g := a.toNat
        let e : GWrite := { id := s.tick, reg := g, tid := w.tid, uid := w.S.uid, run := w.S.run, stamp := w.S.dist,
                            cycle := s.now, landed := false, prior := w.E.g.get g }
        (∀ o, w.E.gown.find? g = some o → o = w.T.num) →
          ∃ y x, exec i s = .next y
            ∧ Completes s { w with E := { w.E with gown := w.E.gown.put g w.T.num, glog := e :: w.E.glog } }
                [(.g g, w.act, fun _ => v)] 0#32 [] (nextWord n w) y x)
      ∧ (∀ a o, n.mod = 0 → n.dst = .g a → w.E.gown.find? a.toNat = some o → o ≠ w.T.num →
          exec i s = w.trap n { cause := 0x0F, info := a.toNat + 256 * o })
      ∧ ∀ a, n.mod = 1 → n.sa = .g a → ∃ y x, exec i s = .next y
          ∧ Completes s w [] 0#32
              [w.pendOf false 0 0#32 (w.outsOf n 1 w.act fun _ _ => gmovValue s.now a.toNat (w.E.g.get a.toNat) w.E.glog)]
              (nextWord n w) y x)

/-! ### Vector floating point -/

/-- R189, R191, R196, R199 to R205: the elementwise vector float instructions. Each element is computed under the entry by the
operation's own rule; the vector latch takes the lane's result, and in mode rsr every element steps the lane's generator. -/
def Obligations.FloatElementwise : Prop :=
  bothForms 0x60 .fadd .faddBase (floatResult fun f n a b _ r =>
    arith f n.rnd n.sat r [decodeFloat f a, decodeFloat f b] fun _ => addNum n.rnd (decodeFloat f a) (decodeFloat f b))
  ∧ bothForms 0x61 .fsub .fsubBase (floatResult fun f n a b _ r =>
    arith f n.rnd n.sat r [decodeFloat f a, negNum (decodeFloat f b)] fun _ =>
      addNum n.rnd (decodeFloat f a) (negNum (decodeFloat f b)))
  ∧ bothForms 0x62 .fmul .fmulBase (floatResult fun f n a b _ r =>
    arith f n.rnd n.sat r [decodeFloat f a, decodeFloat f b] fun _ => mulNum (decodeFloat f a) (decodeFloat f b))
  ∧ oneForm 0x63 .ffma (floatResult fun f n a b c r =>
    arith f n.rnd n.sat r [decodeFloat f a, decodeFloat f b, decodeFloat f c] fun _ =>
      (mulNum (decodeFloat f a) (decodeFloat f b)).bind fun p => addNum n.rnd p (decodeFloat f c))
  ∧ bothForms 0x64 .fmin .fminBase (floatResult fun f _ a b _ _ => minMax f false a b)
  ∧ bothForms 0x65 .fmax .fmaxBase (floatResult fun f _ a b _ _ => minMax f true a b)
  ∧ bothForms 0x66 .fabs .fabsBase (floatResult fun f _ a _ _ _ => (if f.sign then a % 2 ^ (f.width - 1) else a, 0#32))
  ∧ oneForm 0x67 .fclamp (floatResult fun f _ a b c _ =>
    let lo := minMax f true a b
    let hi := minMax f false lo.1 c
    (hi.1, lo.2 ||| hi.2))
  ∧ oneForm 0x68 .fcmp (floatResult fun f n a b _ _ =>
    let c := floatCond (n.mod % 8) (decodeFloat f a) (decodeFloat f b)
    (if c.1 then 2 ^ f.width - 1 else 0, c.2))
  ∧ oneForm 0x69 .fclass (floatResult fun f _ a _ _ _ => (classOf f a, 0#32))
  ∧ oneForm 0x6A .frnd (floatResult fun f n a _ _ r => frndNum f n.rnd n.sat r a)
  ∧ bothForms 0x6D .fcpsgn .fcpsgnBase (floatResult fun f _ a b _ _ =>
    (if f.sign then a % 2 ^ (f.width - 1) + b / 2 ^ (f.width - 1) * 2 ^ (f.width - 1) else a, 0#32))
  ∧ bothForms 0x6E .fgetexp .fgetexpBase (floatResult fun f _ a _ _ _ => getExp f a)
  ∧ bothForms 0x6F .fgetman .fgetmanBase (floatResult fun f _ a _ _ _ => getMan f a)

/-- R197, R198, R208: fscale, whose one exponent serves every element of a lane; fdot2, one FP32 result and one rounding for each
lane; and the special functions, whose results the scoreboard holds and which write no latch. -/
def Obligations.FloatScaleDotSpecial : Prop :=
  bothForms 0x6B .fscale .fscaleBase (fun i n => vectorResult
    (fun w l => packElems (w.fmt n.fmt).width fun e =>
      let f := w.fmt n.fmt
      let a := decodeFloat f (w.elem n f n.sa e l)
      arith f n.rnd n.sat (w.random e l) [a] fun _ => some (a.scale (w.src true n n.sb 0 l).toInt))
    (fun w => 32 / (w.fmt n.fmt).width) i n)
  ∧ oneForm 0x6C .fdot2 (fun i n => vectorResult
    (fun w l =>
      let f := w.fmt n.fmt
      let a (e : Nat) : Machine.Num := decodeFloat f (w.elem n f n.sa e l)
      let b (e : Nat) : Machine.Num := decodeFloat f (w.elem n f n.sb e l)
      let c := decodeFloat ft0 (w.src true n n.sc 0 l).toNat
      let t := arith ft0 n.rnd n.sat (w.random 0 l) [a 0, b 0, a 1, b 1, c] fun _ =>
        (mulNum (a 0) (b 0)).bind fun p => (mulNum (a 1) (b 1)).bind fun q => (addNum n.rnd p q).bind fun u => addNum n.rnd u c
      (BitVec.ofNat 32 t.1, t.2))
    (fun _ => 1) i n)
  ∧ (let special (i : Instr) (n : Ins) : Prop :=
      let t (w : Work) (l : Nat) : Word × Word :=
        packElems (w.fmt n.fmt).width fun e =>
          specialElem (w.fmt n.fmt) n.op n.rnd n.sat (2 * n.fmt + n.sat.toNat) (w.elem n (w.fmt n.fmt) n.sa e l)
      scoreboardResult i n (fun _ => 1) (fun w _ l => (t w l).1) fun w => orFlags ((lanesOf w.act).map fun l => (t w l).2)
    bothForms 0x70 .frcp .frcpBase special ∧ bothForms 0x71 .frsq .frsqBase special ∧ bothForms 0x72 .fsqrt .fsqrtBase special
    ∧ bothForms 0x73 .fexp2 .fexp2Base special ∧ bothForms 0x74 .flog2 .flog2Base special
    ∧ bothForms 0x75 .fsinpi .fsinpiBase special ∧ bothForms 0x76 .fcospi .fcospiBase special)

/-- R172, R35: the multiple of 2^q that a rounding mode chooses for a magnitude m × 2^e. A magnitude on the grid is exact;
elsewhere rne and rna take the nearest multiple and settle a tie to the even and to the larger one, rtz takes the one toward
zero, and rdn and rup the one below and above, by the sign. -/
def Obligations.Rounding : Prop :=
  ∀ (mode : RMode) (neg : Bool) (m : Nat) (e q : Int) (r : Nat),
    let k := (roundTo mode neg m e q r).1
    (q ≤ e → k = m * 2 ^ (e - q).toNat ∧ (roundTo mode neg m e q r).2 = false)
    ∧ (e < q →
      let d := 2 ^ (q - e).toNat
      ((roundTo mode neg m e q r).2 = true ↔ m % d ≠ 0)
      ∧ (m % d = 0 → k = m / d)
      ∧ (m % d ≠ 0 → k = m / d ∨ k = m / d + 1)
      ∧ (mode = .rne → 2 * (m - k * d) ≤ d ∧ 2 * (k * d - m) ≤ d ∧ (2 * (m % d) = d → k % 2 = 0))
      ∧ (mode = .rna → 2 * (m - k * d) ≤ d ∧ 2 * (k * d - m) ≤ d ∧ (2 * (m % d) = d → m < k * d))
      ∧ (mode = .rtz → k * d ≤ m)
      ∧ (mode = .rdn → if neg then m ≤ k * d else k * d ≤ m)
      ∧ (mode = .rup → if neg then k * d ≤ m else m ≤ k * d))

/-! ### Instructions that combine lanes -/

/-- R111, R112: the votes over the active lanes, and the lane that shfl reads, which must itself be active. The results go to the
scoreboard. R113, R114, R115: the reductions and the running reduction over the active lanes. The integer ones are exact and
saturate once at the end; the floating-point one follows the fixed tree over lane numbers. -/
def Obligations.VoteShuffleAndReductions : Prop :=
  oneForm 0x10 .vote (fun i n =>
    let b (w : Work) (l : Nat) : Bool := w.src false n n.sa 0 l ≠ 0
    let yes (w : Work) : Bool :=
      if n.mod % 4 = 0 then (lanesOf w.act).any (b w)
      else if n.mod % 4 = 1 then (lanesOf w.act).all (b w)
      else (lanesOf w.act).all (b w) || (lanesOf w.act).all fun l => !b w l
    scoreboardResult i n (fun _ => if n.mod % 4 = 3 then 4 else 1)
      (fun w k _ =>
        if n.mod % 4 = 3 then BitVec.ofNat 32 ((maskFilter w.act (b w)).toNat / 2 ^ (32 * k))
        else if yes w then 1#32 else 0#32)
      fun _ => 0#32)
  ∧ oneForm 0x11 .shfl (fun i n => scoreboardResult i n (fun _ => 1)
      (fun w _ l =>
        let wd := 2 ^ (n.mod / 4 % 8)
        let b := l - l % wd
        let k := (w.src false n n.sb 0 l).toNat
        let j :=
          if n.mod % 4 = 0 then b + k % wd
          else if n.mod % 4 = 1 then (if k ≤ l - b then l - k else l)
          else if n.mod % 4 = 2 then (if l + k < b + wd then l + k else l)
          else l ^^^ (k % wd)
        w.src false n n.sa 0 (if w.act.getLsbD j then j else l))
      fun _ => 0#32)
  ∧ oneForm 0x12 .tred (fun i n =>
    let r (w : Work) : Word × Word := reduce (n.mod % 8) n.sat ((lanesOf w.act).map fun l => w.src false n n.sa 0 l)
    scoreboardResult i n (fun _ => 1) (fun w _ _ => (r w).1) fun w => (r w).2)
  ∧ oneForm 0x13 .tredf (fun i n =>
    let r (w : Work) : List (Option Nat) × Word :=
      treeReduce (redNode (w.fmt n.fmt) (n.mod % 4) n.rnd) 7 ((List.range 128).map fun l =>
        if w.act.getLsbD l then some ((w.src false n n.sa 0 l).toNat % 2 ^ (w.fmt n.fmt).width) else none)
    scoreboardResult i n (fun _ => 1) (fun w _ _ => BitVec.ofNat 32 (((r w).1.headD none).getD 0)) fun w => (r w).2)
  ∧ oneForm 0x14 .scan (fun i n =>
    let r (w : Work) (l : Nat) : Word × Word := reduce (n.mod % 8) n.sat
      (((lanesOf w.act).filter fun j => j < l || (j = l && !n.mod.testBit 3)).map fun j => w.src false n n.sa 0 j)
    scoreboardResult i n (fun _ => 1) (fun w _ l => (r w l).1) fun w => orFlags ((lanesOf w.act).map fun l => (r w l).2))
  ∧ (∀ (sat : Bool) (xs : List Word),
      (((reduce 0 sat xs).1.toNat : Nat) : Int) = clamped (xs.map BitVec.toInt).sum 32 true sat % 2 ^ 32
      ∧ ((reduce 0 sat xs).2 = flagSat ↔ sat = true ∧ outOfRange (xs.map BitVec.toInt).sum 32 true))
  ∧ ∀ op, op < 8 → ∀ sat, (reduce op sat []).1 =
      if op = 1 then 0x7FFFFFFF#32 else if op = 2 then 0x80000000#32 else if op = 3 ∨ op = 5 then 0xFFFFFFFF#32 else 0#32

/-! ### Formats -/

/-- R158 to R160, R182: fset changes the issuing core's own copy of an entry at once, and no other entry of any copy, and sends the
write to the home; the troupe's own instructions see it from then on, other troupes of the core from the next cycle on. fget reads the
entry as the split sees it. R159, R160: the home of a format table takes a write and broadcasts it to the cores that hold a copy; a core's
copy takes a broadcast, but for the echo of its own write, and for any other write to an entry that it has itself written and not yet
seen echoed. -/
def Obligations.FormatEntriesAndBroadcast : Prop :=
  oneForm 0x50 .fset (fun i n => ∀ s w, issues n s w →
    let v := BitVec.ofNat 64 (w.src64 true n n.sa (lowLane w.act))
    let s1 := s.fset w.E.core w.E.ctx w.tid n.fmt v
    ∃ t x, exec i s = .next t
      ∧ Completes s1 { w with s := s1, T := w.T.noteFset s s.tick } [] 0#32 [] (nextWord n w) t x
      ∧ t.fmtEntry w.E.core w.E.ctx n.fmt = v
      ∧ (∀ k c e, (k ≠ w.E.core ∨ c ≠ w.E.ctx ∨ e ≠ n.fmt) → t.fmtEntry k c e = s.fmtEntry k c e)
      ∧ ((∀ f ∈ (s.core w.E.core).fresh, ¬(f.ctx = w.E.ctx ∧ f.entry = n.fmt ∧ f.cycle = s.now)) →
          ∀ k, ({ x with tid := k } : Work).look n.fmt = if k = w.tid then v else s.fmtEntry w.E.core w.E.ctx n.fmt)
      ∧ t.mem = s.mem
      ∧ ∃ due, ⟨due, .formatWriteAtHome w.E.ctx w.E.core n.fmt v s.tick⟩ ∈ t.agenda)
  ∧ oneForm 0x51 .fget (fun i n => completesWith i n (fun w => pairWrites true n w fun _ => (w.look n.fmt).toNat) fun _ => 0#32)
  ∧ (∀ (s : State) (w : Work) e, (∀ f ∈ (s.core w.E.core).fresh, f.cycle ≠ s.now) → ({ w with s := s } : Work).look e = s.fmtEntry w.E.core w.E.ctx e)
  ∧ (∀ s c core e v id, ∃ t, exec (.formatWriteAtHome c core e v id) s = .next t
    ∧ (∀ k, t.contexts.find? k = if k = c then (s.contexts.find? c).map fun x => { x with fmt := x.fmt.set e v } else s.contexts.find? k)
    ∧ (∀ k, k ∈ s.coresOf c → ∃ due, ⟨due, .formatBroadcastApply c k e v id⟩ ∈ t.agenda)
    ∧ t = { s with tick := t.tick, agenda := t.agenda, contexts := t.contexts })
  ∧ ∀ s c core e v id, ∃ t, exec (.formatBroadcastApply c core e v id) s = .next t
    ∧ t = { s with cores := t.cores, tick := t.tick, agenda := t.agenda } ∧ (∀ k, k ≠ core → t.core k = s.core k)
    ∧ ((s.core core).echo.contains (c, e, id) = true →
        t.core core = { s.core core with echo := (s.core core).echo.filter (· ≠ (c, e, id)) })
    ∧ ((∀ x ∈ (s.core core).echo, ¬(x.1 = c ∧ x.2.1 = e)) →
        t.core core = { s.core core with fts := (s.core core).fts.put c ((((s.core core).fts.find? c).getD []).set e v) })
    ∧ ((s.core core).echo.contains (c, e, id) = false → (∃ x ∈ (s.core core).echo, x.1 = c ∧ x.2.1 = e) →
        t.core core = s.core core)

/-- R179, R184 to R187: one element converted in each lane, and groups packed and unpacked, with the flags of every element. cvtsr
takes its random value from SC and steps no generator. -/
def Obligations.FormatConversions : Prop :=
  (let elem (n : Ins) (w : Work) (r : Nat) (l : Nat) : Word × Word :=
    let t := cvtElem (w.fmt (n.mod % 64)) (w.fmt n.fmt) n.rnd n.sat (w.src true n n.sa 0 l).toNat (w.src true n n.sb 0 l).toNat r
    (placeElem (w.fmt n.fmt) t.1, t.2)
  oneForm 0x54 .cvt (fun i n => vectorResult (fun w l => elem n w (w.random 0 l) l) (fun _ => 1) i n)
  ∧ oneForm 0x55 .cvtsr (laneResult true
      (fun n w l v => v = (elem n w (w.src true n n.sc 0 l).toNat l).1)
      fun n w fl => fl = orFlags ((lanesOf w.act).map fun l => (elem n w (w.src true n n.sc 0 l).toNat l).2)))
  ∧ oneForm 0x56 .pack (fun i n => ∀ s w, issues n s w →
      let f := w.fmt (n.mod % 64)
      let k := packLens (w.fmt n.fmt)
      let t (l : Nat) : Nat × Word :=
        packGroup f (w.fmt n.fmt) n.rnd n.sat ((List.range k.2).map fun j => (w.src true n n.sa j l).toNat % 2 ^ f.width)
          fun j => w.random j l
      ∃ y x, exec i s = .next y
        ∧ Completes s w (w.outsOf n k.1 w.act (fun j l => BitVec.ofNat 32 ((t l).1 / 2 ^ (32 * j)))
            ++ [(.latV, w.act, fun l => BitVec.ofNat 32 (t l).1)] ++ genWrites n w k.2)
          (orFlags ((lanesOf w.act).map fun l => (t l).2)) [] (nextWord n w) y x)
  ∧ oneForm 0x57 .unpack (fun i n => ∀ s w, issues n s w →
      let f := w.fmt (n.mod % 64)
      let g := w.fmt n.fmt
      let k := packLens f
      let t (j l : Nat) : Nat × Word :=
        convertNum (unpackElem f (w.groupBits n n.sa k.1 l) j) (f.integral && f.plain) g n.rnd n.sat (w.random j l)
      ∃ y x, exec i s = .next y
        ∧ Completes s w (w.outsOf n k.2 w.act (fun j l => placeElem g (t j l).1)
            ++ [(.latV, w.act, fun l => placeElem g (t 0 l).1)] ++ genWrites n w k.2)
          (orFlags ((lanesOf w.act).flatMap fun l => (List.range k.2).map fun j => (t j l).2)) [] (nextWord n w) y x)

/-! ### Control -/

/-- R98 to R101, R106: nop and yield only go to the next word; bra and a brc whose condition holds in every lane go to the target,
and a brc whose condition holds in no lane to the next word; brx goes to its table word when the lanes agree. A redirection starts a new
run (R43), and its successor issues four cycles later at the earliest, and not before the split's pending results are written (R96). R76,
R102 to R104: call, callx and ocall write the address of the next word to the link register of every lane and go to the target; ret
goes to the link value without its low two and high four bits. ocall of an overlay that no slot of the core holds traps with cause
0x0C. -/
def Obligations.BranchesAndCalls : Prop :=
  (bothForms 0x01 .nop .nopBase (fun i n => ∀ s w, gate n s = .go w →
    ∃ t x, exec i s = .next t ∧ Completes s w [] 0#32 [] (nextWord n w) t x)
  ∧ bothForms 0x0A .yield .yieldBase (fun i n => ∀ s w, gate n s = .go w →
    ∃ t x, exec i s = .next t ∧ Completes s w [] 0#32 [] (nextWord n w) t x)
  ∧ (let branch (i : Instr) (n : Ins) : Prop := ∀ s w, gate n s = .go w → takes i n s w [] (destAt (ovlOf w.S.pc) n.tgt)
    (∀ f, branch (.bra f) (insXT 0x02 f)) ∧ ∀ f, branch (.braBase f) (insBT 0x02 f))
  ∧ (∀ f s w, let n := insXT 0x03 f
      let cond (l : Nat) : Prop := w.read (.p n.pred) l = if n.pneg then 0#32 else 1#32
      gate n s = .go w → (∀ l, w.read (.p n.pred) l = 0#32 ∨ w.read (.p n.pred) l = 1#32) →
        ((∀ l, w.S.mask.getLsbD l = true → ¬cond l) →
          ∃ t x, exec (.brc f) s = .next t ∧ Completes s w [] 0#32 [] (nextWord n w) t x)
        ∧ (w.S.mask ≠ 0 → (∀ l, w.S.mask.getLsbD l = true → cond l) →
          takes (.brc f) n s w [] (destAt (ovlOf w.S.pc) n.tgt)))
  ∧ ∀ f s w, let n := insXT 0x04 f
      gate n s = .go w → w.S.mask ≠ 0 →
        ∀ k, (∀ l, w.S.mask.getLsbD l = true → n.tgt + min (w.src true n n.si 0 l).toNat n.mod = k) →
          takes (.brx f) n s w [] (destAt (ovlOf w.S.pc) k))
  ∧ (let link (n : Ins) (w : Work) : List Write := [(w.T.oReg 7, w.S.mask, fun _ => (nextWord n w).pc)]
  let call (i : Instr) (n : Ins) : Prop := ∀ s w, gate n s = .go w → takes i n s w (link n w) (destAt (ovlOf w.S.pc) n.tgt)
  (∀ f, call (.call f) (insXT 0x05 f)) ∧ (∀ f, call (.callBase f) (insBT 0x05 f))
  ∧ (∀ f s w, let n := insXT 0x06 f
      gate n s = .go w → w.S.mask ≠ 0 →
        ∀ k, (∀ l, w.S.mask.getLsbD l = true → n.tgt + min (w.src true n n.si 0 l).toNat n.mod = k) →
          takes (.callx f) n s w (link n w) (destAt (ovlOf w.S.pc) k))
  ∧ (∀ f s w, let n := insXT 0x07 f
      gate n s = .go w →
        (((s.core w.E.core).slotOf w.E.ctx (n.aux % 4096)).isSome = true →
          takes (.ocall f) n s w (link n w) (destAt n.aux n.tgt))
        ∧ (((s.core w.E.core).slotOf w.E.ctx (n.aux % 4096)).isSome = false →
          exec (.ocall f) s = w.trap n { cause := 0x0C, info := n.aux % 4096 }))
  ∧ bothForms 0x08 .ret .retBase (fun i n => ∀ s w, gate n s = .go w → w.S.mask ≠ 0 →
        ∀ p, (∀ l, w.S.mask.getLsbD l = true → w.read (w.T.oReg 7) l &&& 0x0FFFFFFC#32 = p) → takes i n s w [] { pc := p }))

/-- R85, R100, R101, R103, R104: lanes with different targets fork, once the split's scalar results have landed (R43); a fork that needs
a seventeenth frame traps with cause 0x0D. -/
def Obligations.Forks : Prop :=
  (∀ f s w, let n := insXT 0x03 f
    let target (l : Nat) : Dest :=
      if w.read (.p n.pred) l = if n.pneg then 0#32 else 1#32 then destAt (ovlOf w.S.pc) n.tgt else nextWord n w
    let rcv := pcAt (ovlOf w.S.pc) n.aux
    gate n s = .go w → (∀ l, w.read (.p n.pred) l = 0#32 ∨ w.read (.p n.pred) l = 1#32) →
      (w.scalarsIn = true → mayFork w rcv target → forks (.brc f) s w rcv target)
      ∧ (∀ i j, w.S.mask.getLsbD i = true → w.S.mask.getLsbD j = true → target i ≠ target j →
          (w.scalarsIn = false → exec (.brc f) s = .next w.hold)
          ∧ (w.scalarsIn = true → w.S.rcv ≠ some rcv → 16 ≤ w.S.frames.length → exec (.brc f) s = w.trap n { cause := 0x0D })))
  ∧ (∀ f s w, let n := insXT 0x04 f
    let target (l : Nat) : Dest := destAt (ovlOf w.S.pc) (n.tgt + min (w.src true n n.si 0 l).toNat n.mod)
    let rcv := pcAt (ovlOf w.S.pc) n.aux
    gate n s = .go w → w.scalarsIn = true → mayFork w rcv target → forks (.brx f) s w rcv target)
  ∧ (∀ f s w, let n := insXT 0x06 f
    let target (l : Nat) : Dest := destAt (ovlOf w.S.pc) (n.tgt + min (w.src true n n.si 0 l).toNat n.mod)
    gate n s = .go w → w.scalarsIn = true → mayFork w (nextWord n w).pc target → forks (.callx f) s w (nextWord n w).pc target)
  ∧ bothForms 0x08 .ret .retBase (fun i n => ∀ s w,
    let target (l : Nat) : Dest := { pc := w.read (w.T.oReg 7) l &&& 0x0FFFFFFC#32 }
    let rcv := w.S.rcv.getD 0xFFFFFFFF#32
    gate n s = .go w → w.scalarsIn = true → mayFork w rcv target → forks i s w rcv target)

/-- R94, R105, R107, R108: exit takes its active lanes out of the split, and a split without lanes out of the troupe; rejoin stands in
STATE 3 where it is; full takes up the lanes of every split of the troupe, and endfull restores the split's own. exit, full and endfull
wait for the split's fixed-latency results and start a new run (R43); rejoin does not. -/
def Obligations.ExitRejoinAndBracket : Prop :=
  bothForms 0x09 .exit .exitBase (fun i n => ∀ s w, gate n s = .go w →
    (w.drained = false → exec i s = .next w.hold)
    ∧ (w.drained = true → (w.act = 0 ∨ w.S.mask &&& ~~~w.act ≠ 0) → ∃ t x, exec i s = .next t
        ∧ Completes s { w with S := { w.S.newRun with mask := w.S.mask &&& ~~~w.act } } [] 0#32 [] (nextWord n w) t x)
    ∧ (w.drained = true → w.act ≠ 0 → w.S.mask &&& ~~~w.act = 0 → ∃ t T, exec i s = .next t
        ∧ t.troupes.find? w.tid = some T
        ∧ T = { w.T with splits := w.T.splits.del w.ent, lastSel := T.lastSel, selFree := T.selFree, parked := T.parked }
        ∧ (∀ k, k ≠ w.tid → t.troupes.find? k = s.troupes.find? k)
        ∧ (∀ k, t.ensembles.find? k = s.ensembles.find? k) ∧ sameModule s t
        ∧ ⟨s.now, .splitSwapBack w.tid⟩ ∈ t.agenda ∧ ⟨s.now, .troupeEnd w.tid⟩ ∈ t.agenda))
  ∧ bothForms 0x0B .rejoin .rejoinBase (fun i n => ∀ s w, gate n s = .go w → ∃ t x, exec i s = .next t
    ∧ Completes s { w with S := { w.S with state := 3 } } [] 0#32 [] { pc := w.S.pc, past := w.S.past } t x ∧ x.S.atRejoin = n.ilen
    ∧ ⟨s.now, .rejoinRelease w.tid⟩ ∈ t.agenda)
  ∧ (let from_ (s : State) (w : Work) : Nat := (s.core w.E.core).stageCycles w.E.ctx s.now
  bothForms 0x0C .full .fullBase (fun i n => ∀ s w, gate n s = .go w → w.drained = true →
    (∀ p ∈ w.T.allSplits, p.landings = []) → (∀ p ∈ w.T.pend, p.owner = w.S.uid) →
      ∃ t x, exec i s = .next t
        ∧ Completes s { w with S := { w.S.newRun with fsave := w.S.mask, mask := x.S.mask, infull := true }
                               T := { w.T with fullFrom := some (from_ s w) } } [] 0#32 [] (nextWord n w) t x
        ∧ ∀ l, x.S.mask.getLsbD l = true ↔ ∃ p ∈ w.T.allSplits, p.mask.getLsbD l = true)
  ∧ bothForms 0x0D .endfull .endfullBase (fun i n => ∀ s w, gate n s = .go w → w.drained = true →
      ∃ t x, exec i s = .next t
        ∧ Completes s { w with S := { w.S.newRun with mask := w.S.fsave, infull := false }
                               T := { w.T with fullFor := w.T.fullFor + (from_ s w - w.T.fullFrom.getD (from_ s w)), fullFrom := none } }
            [] 0#32 [] (nextWord n w) t x))

/-! ### Memory instructions -/

/-- R291, R292, R298, R299: the loads. ldc reads one address for every active lane. R291, R292, R298: the stores. -/
def Obligations.LoadsAndStores : Prop :=
  oneForm 0xA0 .ld (loadResult (fun n => n.mod % 8) (fun n => bitOf n.mod 3) fun n w => w.baseAddr n)
  ∧ oneForm 0xA2 .ldg (loadResult (fun n => n.mod % 8) (fun n => bitOf n.mod 3) fun n w => w.pairAddr n)
  ∧ oneForm 0xA4 .ldc (loadResult (fun n => n.mod) (fun _ => false) fun n w _ => w.pairAddr n (lowLane w.act))
  ∧ oneForm 0xA1 .st (storeResult (fun n => n.mod % 8) fun n w => w.baseAddr n)
  ∧ oneForm 0xA3 .stg (storeResult (fun n => n.mod % 8) fun n w => w.pairAddr n)

/-- R300, R301: the atomics, and the signed minimum and maximum, sum and compare-and-swap that they store. -/
def Obligations.Atomics : Prop :=
  oneForm 0xA5 .atom (atomicResult atomSize (fun n => n.mod % 16) fun n => atomSize n / 4)
  ∧ oneForm 0xA6 .ared (atomicResult atomSize (fun n => n.mod % 16) fun _ => 0)
  ∧ oneForm 0xA7 .atomx (atomicResult (fun _ => 16) (fun n => if n.mod = 0 then 9 else 10) fun _ => 4)
  ∧ (∀ bits m b c, m < 2 ^ bits → b < 2 ^ bits →
      atomNew bits 0 m b c = (m + b) % 2 ^ bits
      ∧ signed (atomNew bits 2 m b c) bits = min (signed m bits) (signed b bits)
      ∧ signed (atomNew bits 3 m b c) bits = max (signed m bits) (signed b bits)
      ∧ atomNew bits 9 m b c = b ∧ atomNew bits 10 m b c = if m = c then b else m)

/-- R281, R285, R286, R298, R327, R423: what keeps an access from its effect. A misaligned address traps with cause 0x07; lanes that do not
translate park the instruction with a fault record for each page, after the others' accesses; a range lock traps with cause
0x0A and a fenced page with cause 0x11, with no lane's effect. R291, R430: lanes in the peer aperture send their requests first, and the
split stays at its instruction until they are answered. -/
def Obligations.AccessTraps : Prop :=
  eachAccess fun i n acc ok size va => ∀ s w, issues n s w → w.memHeld = false →
    (∀ l, w.act.getLsbD l = true → va w l % size ≠ 0 → (∀ j, j < l → w.act.getLsbD j = true → va w j % size = 0) →
      exec i s = w.trap n { cause := 0x07, info := l, addr := va w l })
    ∧ ((∀ l, w.act.getLsbD l = true → va w l % size = 0) →
      let x := w.xlateAll acc ok (va w) (lanesOf w.act)
      (∀ r ∈ x.2, ∀ m, r.2 = .ok m → x.1.s.mapWaits m.pa = false) →
      w.asked = none →
        ((∃ r ∈ x.2, ∃ e, r.2 = .error e) → (∀ r ∈ x.2, ∀ m, r.2 = .ok m → targetOf m.pa ≠ .peer) →
            (∀ f ∈ s.faultWaits, f.id < s.tick) →
          ∃ t T p, exec i s = .next t ∧ t.troupes.find? w.tid = some T ∧ p ∈ T.parked
            ∧ p.uid = w.S.uid ∧ p.pc = w.S.pc ∧ p.active = w.active1 ∧ p.go = false
            ∧ ∀ r ∈ x.2, ∀ e, r.2 = .error e → p.done.getLsbD r.1 = w.done1.getLsbD r.1
              ∧ ∃ f ∈ t.faultWaits, f.waiter = .instr w.tid w.S.uid ∧ f.va / 4096 = va w r.1 / 4096 ∧ f.lanes.getLsbD r.1 = true
                  ∧ f.pc = w.S.pc ∧ f.acc = acc.acc)
        ∧ (∀ ms : List (Nat × Mapped), x.2 = ms.map (fun r => (r.1, .ok r.2)) →
          let at_ (c : TrapInfo) : Out := ({ x.1 with s := x.1.commit } : Work).trap n c
          (∀ k r, ms.find? (fun r => ((x.1.s.core w.E.core).memLock w.E.ctx (va w r.1) size).isSome) = some r →
            (x.1.s.core w.E.core).memLock w.E.ctx (va w r.1) size = some k →
              exec i s = at_ { cause := 0x0A, info := k, addr := va w r.1 })
          ∧ ((∀ r ∈ ms, (x.1.s.core w.E.core).memLock w.E.ctx (va w r.1) size = none) →
            (∀ r, ms.find? (fun r => x.1.s.isFenced r.2.pa) = some r → exec i s = at_ { cause := 0x11, addr := va w r.1 })
            ∧ ((∀ r ∈ ms, x.1.s.isFenced r.2.pa = false) → (∃ r ∈ ms, targetOf r.2.pa = .peer) →
              ∃ t y q, exec i s = .next t ∧ t.work w.tid w.ent = some y ∧ y.S.pc = w.S.pc ∧ y.S.state = w.S.state
                ∧ y.S.redo = some (w.active1, w.done1 ||| maskOf ((ms.filter fun r => targetOf r.2.pa ≠ .peer).map (·.1)))
                ∧ q ∈ t.requests ∧ q.tid = w.tid ∧ q.uid = w.S.uid ∧ q.pc = w.S.pc
                ∧ q.lanes = (ms.filter fun r => targetOf r.2.pa = .peer).map fun r => (r.1, r.2.pa)))))

/-- R183: fsave stores the 512 bytes of the core's copy of the table; fload reads them and waits, to write entries 16 to 63 when its
last sector has returned. Both trap with cause 0x07 at an address that is not a multiple of 64. -/
def Obligations.FormatTables : Prop :=
  oneForm 0x52 .fsave (fun i n => ∀ s w, issues n s w →
    let l := lowLane w.act
    let va := w.pairAddr n l
    (w.memHeld = false → va % 64 ≠ 0 → exec i s = w.trap n { cause := 0x07, info := l, addr := va })
    ∧ (va % 64 = 0 → ∀ ms s1, ReachesOne w .store (fun _ => true) 512 (pagesOf va 512) ms s1 →
      (∀ k, k < 512 → targetOf (tableByte va ms k) = .device) →
        ∃ (c : Caches) (m : Memory) (t : State) (x : Work),
          let b : Work := { w with s := c.on { s with mem := m },
                                   T := { w.T with unacked := w.T.unacked ++ [s.tick] } }
          exec i s = .next t ∧ Completes b.s b [] 0#32 [] (nextWord n w) t x
          ∧ (Inv s → (∀ a, (∀ k, k < 512 → tableByte va ms k ≠ a) → t.mem.read a = s.mem.read a)
            ∧ ((∀ j k, j < 512 → k < 512 → tableByte va ms j = tableByte va ms k → j = k) → ∀ k, k < 512 →
              t.mem.read (tableByte va ms k)
                = BitVec.ofNat 8 ((w.look (k / 8)).toNat / 2 ^ (8 * (k % 8)))))))
  ∧ oneForm 0x53 .fload (fun i n => ∀ s w, issues n s w →
    let l := lowLane w.act
    let va := w.pairAddr n l
    (w.memHeld = false → va % 64 ≠ 0 → exec i s = w.trap n { cause := 0x07, info := l, addr := va })
    ∧ (va % 64 = 0 → ∀ ms s1, ReachesOne w .load (fun _ => true) 512 (pagesOf va 512) ms s1 →
      (∀ k, k < 512 → targetOf (tableByte va ms k) = .device ∧ (s.core w.E.core).l1Find (tableByte va ms k / 32) = none) →
      (∀ m ∈ ms, m.pa % 32 = 0) →
        ∃ (c : Caches) (t : State) (x : Work),
          let b : Work := { w with s := c.on s }
          exec i s = .next t
          ∧ Waits b.s b n (.fload s.tick ((List.range 48).map fun k => BitVec.ofNat 64 (s.peek64 (tableByte va ms (128 + 8 * k)))))
              [w.pendOf true (distinct ((List.range 16).map fun j => tableByte va ms (32 * j) / 32)).length 0#32 []] t x))

/-- R47, R88, R183, R291, R378: a held result is written when its last part arrives; a scalar of a split on the split stack is written into
its record there too; the last sector of an fload also writes the core's
format entries and lets the split go on. An acknowledgement is no longer awaited, and a fixed-latency result no longer waits to
land. -/
def Obligations.ResultLanding : Prop :=
  (∀ tid id s, ∃ t, exec (.scoreboardResultWrite tid id) s = .next t
    ∧ ∀ T p, s.troupes.find? tid = some T → T.pend.find? (fun p => p.id = id) = some p → T.trapPc = none →
        lands s t tid T p ∧ ((∀ q ∈ T.stack, q.uid ≠ p.owner) → t = { s with troupes := t.troupes })
        ∧ (∀ o n j E, p.outs = [o] → o.reg = .s n → T.stack.findIdx? (fun q => q.uid = p.owner) = some j →
            (∀ q ∈ T.stack, q.frames.length ≤ 16) → s.ensembles.find? T.ens = some E → Inv s →
              t.mem.readN (stackRecord (blockBase (s.ctx E.ctx) T.block) (T.stackHead + j) + 320 + 4 * n) 4
                = natLE 4 (o.old.at_ 0).toNat))
  ∧ (∀ tid id s, ∃ t, exec (.loadSectorReturn tid id) s = .next t
    ∧ ∀ T p, s.troupes.find? tid = some T → T.pend.find? (fun p => p.id = id) = some p →
      (1 < p.sectors → t = { s with troupes := t.troupes } ∧ (∀ k, k ≠ tid → t.troupes.find? k = s.troupes.find? k)
        ∧ t.troupes.find? tid = some { T with pend := T.pend.map fun q => if q.id = id then { q with sectors := q.sectors - 1 } else q })
      ∧ (p.sectors ≤ 1 → T.trapPc = none → T.floading id = none →
          lands s t tid T p ∧ ((∀ q ∈ T.stack, q.uid ≠ p.owner) → t = { s with troupes := t.troupes }))
      ∧ (p.sectors ≤ 1 → T.trapPc = none → ∀ uid es E, T.floading id = some (uid, es) → s.ensembles.find? T.ens = some E →
          es.length = 48 → (∀ q ∈ T.stack, q.uid ≠ p.owner) →
            (∀ k, k < 48 → t.fmtEntry E.core E.ctx (16 + k) = es.getD k 0)
            ∧ (∀ k, k < 16 → t.fmtEntry E.core E.ctx k = s.fmtEntry E.core E.ctx k) ∧ t.mem = s.mem
            ∧ goesOnPast t tid T uid))
  ∧ (∀ tid id s, ∃ t, exec (.storeAcknowledge tid id) s = .next t
    ∧ t.troupes = s.troupes.modify tid (fun T => { T with unacked := T.unacked.filter (· ≠ id) }) ∧ t = { s with troupes := t.troupes })
  ∧ ∀ tid id s, ∃ t, exec (.fixedLatencyWrite tid id) s = .next t
    ∧ t = { s with troupes := t.troupes, ensembles := t.ensembles }
    ∧ (∀ k, k ≠ tid → t.troupes.find? k = s.troupes.find? k)
    ∧ (∀ k E, s.ensembles.find? k = some E → ∃ E', t.ensembles.find? k = some E' ∧ E' = { E with glog := E'.glog })
    ∧ ∀ T, s.troupes.find? tid = some T → ∃ T', t.troupes.find? tid = some T'
      ∧ T' = { T with splits := T'.splits, stack := T'.stack, coming := T'.coming }
      ∧ (∀ p ∈ T'.allSplits, ∀ l ∈ p.landings, l.id ≠ id)
      ∧ T'.allSplits.map (fun p => ({ p with landings := [] } : Split)) = T.allSplits.map fun p => { p with landings := [] }

/-! ### Sync objects -/

/-- R307, R309, R310, R313, R314: sbind and sunbind change the ensemble's bindings; sbind traps on a misaligned object or base, and on a
length that is zero or no multiple of 32; a fence completes once the earlier accesses it orders have, or waits for its cache
actions. What a release at a scope beyond the troupe waits for: the troupe's earlier loads have returned, its writes are acknowledged,
and at die scope and wider the format-table writes it made have reached every copy (R161 as the model realises it, log entry 96). -/
def Obligations.BindingsAndFences : Prop :=
  oneForm 0xAA .sbind (fun i n => ∀ s w, issues n s w →
    let l := lowLane w.act
    let bar := n.mod.testBit 5
    let obj := if bar then w.stageAddr n n.sa l else w.pairAddr n l
    let base := w.src64 true n n.sb l
    let len := (w.src true n n.sc 0 l).toNat
    let aligned := obj % (if bar then 16 else 8) = 0
    (¬aligned → exec i s = w.trap n { cause := 0x07, info := l, addr := obj })
    ∧ (aligned → base % 32 ≠ 0 → exec i s = w.trap n { cause := 0x07, info := l, addr := base })
    ∧ (aligned → base % 32 = 0 → (len = 0 ∨ len % 32 ≠ 0) → exec i s = w.trap n { cause := 0x02 })
    ∧ (aligned → base % 32 = 0 → len ≠ 0 → len % 32 = 0 → base + len ≤ 2 ^ 60 → (bar = true → obj + 16 ≤ w.E.size) →
      let e : Bind := { bar := bar, obj := obj, base := base, len := len, scope := if bar then 0 else Scope.num n.scope }
      ∃ t x, exec i s = .next t
        ∧ Completes s { w with E := { w.E with binds := w.E.binds.put (n.mod % 32) e } } [] 0#32 [] (nextWord n w) t x))
  ∧ oneForm 0xAB .sunbind (fun i n => ∀ s w, issues n s w → ∃ t x, exec i s = .next t
      ∧ Completes s { w with E := { w.E with binds := if n.mod.testBit 5 then [] else w.E.binds.del (n.mod % 32) } } [] 0#32 []
          (nextWord n w) t x)
  ∧ oneForm 0xAE .fence (fun i n => ∀ s w, issues n s w → w.memHeld = false →
    let scope := Scope.num n.scope
    let acts : Prop := scope = 5 ∨ (n.mod ≠ 2 ∧ 3 ≤ scope)
    (n.mod ≠ 1 → w.mayRelease scope = false → exec i s = .next w.hold)
    ∧ ((n.mod = 1 ∨ w.mayRelease scope = true) →
      (¬acts → ∃ t x, exec i s = .next t ∧ Completes s w [] 0#32 [] (nextWord n w) t x)
      ∧ (acts → ∃ t x, exec i s = .next t
        ∧ (∃ c : Caches, let s0 := c.on { s with cacheActs := t.cacheActs }
          Waits s0 { w with s := s0 } n (.cache s.tick) [] t x)
        ∧ t.cacheActs = s.cacheActs ++ [⟨s.tick, w.tid, w.S.uid, scope, n.mod ≠ 1, n.mod ≠ 2, none, .nothing⟩]
        ∧ ∃ due, ⟨due, .cacheActionComplete s.tick⟩ ∈ t.agenda)))
  ∧ ∀ (w : Work) (scope : Nat), w.mayRelease scope = true ↔ scope = 0 ∨ (∀ p ∈ w.T.pend, p.load = false) ∧ w.T.unacked = []
      ∧ (scope < 3 ∨ ∀ id ∈ w.T.fsets, ∀ t ∈ w.s.agenda, (∀ c k e v, t.ev ≠ .formatWriteAtHome c k e v id)
          ∧ ∀ c k e v, t.ev ≠ .formatBroadcastApply c k e v id)

/-- R307, R308, R311, R312, R320: an acq reads its word at the home and, where its condition holds, writes the new value in the same
step (none for a read, nor for a .cas whose comparison fails) and leaves the old one on the scoreboard; it then completes, or waits for
its acquire actions at the larger scopes. Where the condition fails it waits, and nothing is written. A write to the word, or a poll, tries it again. -/
def Obligations.Acquire : Prop :=
  oneForm 0xAC .acq (fun i n => ∀ s w, issues n s w →
    let l := lowLane w.act
    let va := w.pairAddr n l
    let op := n.mod % 8
    let cond := n.mod / 8
    let scope := w.E.scopeOf va (Scope.num n.scope)
    (w.memHeld = false → va % 8 ≠ 0 → exec i s = w.trap n { cause := 0x07, info := l, addr := va })
    ∧ (va % 8 = 0 → ∀ m0 s1, ReachesOne w (if op = 0 then .load else .atomic) (acqOk op) 8 [va] [m0] s1 →
      let pa := m0.pa
      let r := ({ w with s := s1 } : Work).regionsOf_ false va
      let s2 := (if op = 0 then r.1.s.readTime w.E.core pa else r.1.s.writeTime w.E.core pa).1.acqRead w.E.core scope pa
      let m := leNat (s2.peek pa 8)
      let c := w.src64 true n n.sc l
      let outs (v : Nat) : List Write := w.outsOf n 2 w.act fun k _ => BitVec.ofNat 32 (v / 2 ^ (32 * k))
      let writes : Prop := op ≠ 0 ∧ ¬(op = 3 ∧ m ≠ c)
      (scope ≠ 5 → s2.mem = s.mem)
      ∧ (acqCond cond m c → ∃ (k : Caches) (ua : List Nat) (t : State) (x : Work),
        let s0 : State := k.on { s with mem := t.mem, cacheActs := t.cacheActs }
        let b : Work := { w with s := s0, T := { w.T with unacked := w.T.unacked ++ ua } }
        let p := [w.pendOf true 1 0#32 (outs m)]
        exec i s = .next t
        ∧ (writes → t.mem = s2.mem.write pa (natLE 8 (acqNew op m (w.src64 true n n.sb l) c)) ∧ ua.length = 1)
        ∧ (¬writes → t.mem = s2.mem ∧ ua = [])
        ∧ (scope < 3 → t.cacheActs = s.cacheActs ∧ Completes s0 b [] 0#32 p (nextWord n w) t x)
        ∧ (3 ≤ scope → ∃ id, Waits s0 b n (.cache id) p t x
            ∧ t.cacheActs = s.cacheActs ++ [⟨id, w.tid, w.S.uid, scope, false, true, some r.2, .nothing⟩]))
      ∧ (¬acqCond cond m c → ∃ (k : Caches) (t : State) (x : Work),
        let a : AcqWait := { id := s.tick, tid := w.tid, uid := w.S.uid, pa := pa, op := op, cond := cond,
                             b := BitVec.ofNat 64 (w.src64 true n n.sb l), c := BitVec.ofNat 64 c, pend := s.tick, scope := scope,
                             regions := r.2, va := va, active := w.active1 }
        let s0 : State := k.on { s with mem := s2.mem, acqWaits := s.acqWaits ++ [a] }
        exec i s = .next t ∧ Waits s0 { w with s := s0 } n (.acq s.tick) [w.pendOf true 1 0#32 (outs 0)] t x)))
  ∧ (let again (ev : Nat → Instr) : Prop := ∀ id s, ∃ t, exec (ev id) s = .next t
      ∧ ∀ a, s.acqWaits.find? (fun a => a.id = id) = some a → targetOf a.pa = .device →
        let s2 := s.syncRead a.scope a.pa
        let m := leNat (s2.peek a.pa 8)
        (¬acqCond a.cond m a.c.toNat → t.mem = s2.mem ∧ t.acqWaits = s.acqWaits ∧ t.troupes = s.troupes)
        ∧ (acqCond a.cond m a.c.toNat → t.acqWaits = s.acqWaits.filter (fun x => x.id ≠ a.id)
          ∧ ((a.op ≠ 0 ∧ ¬(a.op = 3 ∧ m ≠ a.c.toNat)) → t.mem = s2.mem.write a.pa (natLE 8 (acqNew a.op m a.b.toNat a.c.toNat)))
          ∧ (¬(a.op ≠ 0 ∧ ¬(a.op = 3 ∧ m ≠ a.c.toNat)) → t.mem = s2.mem)
          ∧ (a.scope < 3 → ∀ T, s.troupes.find? a.tid = some T → goesOnPast t a.tid T a.uid)
          ∧ (3 ≤ a.scope → ∃ act ∈ t.cacheActs, act.id = a.id ∧ act.acquire = true ∧ act.uid = a.uid))
    again .acqWaitSuccess ∧ again .acqPoll)

/-- R302, R303: pref changes nothing but the caches. inval removes from the core's L1 every sector with a byte of its range's
physical pages and no other, and its split issues nothing further for 8 cycles and one for each page. Both are held while another
split of the troupe is in an acquire. R307, R313, R320, R361: rel and qsig wait for the earlier accesses of the troupe, at a scope beyond
it, and then write their word's new value, at once or, at system scope, after the write-back; qsig has the signal unit look again at the
queues that wait for the word. A cache action that completes does what it was for and lets its split go on. -/
def Obligations.CacheActionsAndRelease : Prop :=
  oneForm 0xA8 .pref (fun i n => ∀ s w, issues n s w → w.memHeld = false → ∃ (c : Caches) (t : State) (x : Work),
    let b : Work := { w with s := c.on s }
    exec i s = .next t ∧ Completes b.s b [] 0#32 [] (nextWord n w) t x)
  ∧ oneForm 0xA9 .inval (fun i n => ∀ s w, issues n s w → w.memHeld = false →
    let va := addr64 (w.src64 true n n.sa (lowLane w.act)) n.disp
    let parts := pageParts va (w.src true n n.sb 0 (lowLane w.act)).toNat
    ∃ (c : Caches) (t : State) (x : Work),
      let b : Work := { w with s := c.on s }
      exec i s = .next t ∧ Completes b.s b [] 0#32 [] (nextWord n w) t x ∧ s.now + 8 + parts.length ≤ x.S.earliest
      ∧ (∀ k d, (t.core w.E.core).l1Find k = some d ↔ (s.core w.E.core).l1Find k = some d
          ∧ ∀ iv ∈ (w.physical parts).2, ¬(32 * k < iv.2 ∧ iv.1 < 32 * k + 32))
      ∧ ∀ c, c ≠ w.E.core → (t.core c).l1 = (s.core c).l1)
  ∧ (∀ f g s w, (issues (insX 0xA8 f) s w → w.memHeld = true → exec (.pref f) s = .next w.hold)
      ∧ (issues (insX 0xA9 g) s w → w.memHeld = true → exec (.inval g) s = .next w.hold))
  ∧ (let rel (sig : Bool) (i : Instr) (n : Ins) : Prop := ∀ s w, issues n s w →
    let l := lowLane w.act
    let va := w.pairAddr n l
    let scope := w.E.scopeOf va (Scope.num n.scope)
    (w.memHeld = false → va % 8 ≠ 0 → exec i s = w.trap n { cause := 0x07, info := l, addr := va })
    ∧ (va % 8 = 0 → ∀ m0 s1, ReachesOne w (if n.mod = 0 then .store else .atomic) (relOk sig n.mod) 8 [va] [m0] s1 →
      let pa := m0.pa
      let b := w.src64 true n n.sb l
      (w.mayRelease scope = false → exec i s = .next w.hold)
      ∧ (w.mayRelease scope = true → scope ≠ 5 → ∃ (c : Caches) (t : State) (x : Work),
          let m := s.mem.write pa (natLE 8 (relNew n.mod (leNat (s.peek pa 8)) b))
          let b : Work := { w with s := c.on { s with mem := m }, T := { w.T with unacked := w.T.unacked ++ [s.tick] } }
          exec i s = .next t ∧ Completes b.s b [] 0#32 [] (nextWord n w) t x
          ∧ (sig = true → ∀ q k, (q, k) ∈ s.queues → k.waiting = some pa → ⟨s.now, .waitPacketReevaluate q⟩ ∈ t.agenda)
          ∧ (∃ due, ⟨due, .storeAcknowledge w.tid s.tick⟩ ∈ t.agenda)
          ∧ (Inv s → ∀ a, ¬(pa ≤ a ∧ a < pa + 8) → t.mem.read a = s.mem.read a))
      ∧ (w.mayRelease scope = true → scope = 5 → ∃ (c : Caches) (rs : List (Nat × Nat)) (t : State) (x : Work),
          let v := BitVec.ofNat 64 b
          let act : CacheAct := { id := s.tick, tid := w.tid, uid := w.S.uid, scope := 5, release := true, acquire := false,
                                  regions := some rs, after := if sig then .signal pa n.mod v else .word pa n.mod v }
          let s0 : State := c.on { s with cacheActs := s.cacheActs ++ [act] }
          exec i s = .next t
          ∧ Waits s0 { w with s := s0, T := { w.T with unacked := w.T.unacked ++ [s.tick] } } n (.cache s.tick) [] t x
          ∧ ∃ due, ⟨due, .cacheActionComplete s.tick⟩ ∈ t.agenda))
  oneForm 0xAD .rel (rel false) ∧ oneForm 0xB4 .qsig (rel true))
  ∧ ∀ id s, ∃ t, exec (.cacheActionComplete id) s = .next t
    ∧ ∀ a T, s.cacheActs.find? (fun a => a.id = id) = some a → s.troupes.find? a.tid = some T →
      (∀ x ∈ t.cacheActs, x.id ≠ id)
      ∧ (a.after = .nothing → goesOnPast t a.tid T a.uid)
      ∧ (∀ pa op v, (a.after = .word pa op v ∨ a.after = .signal pa op v) → a.release = true → a.acquire = false →
          targetOf pa = .device →
            t.mem = s.mem.write pa (natLE 8 (relNew op (leNat (s.peek pa 8)) v.toNat)) ∧ goesOnPast t a.tid T a.uid
            ∧ ∃ due, ⟨due, .storeAcknowledge a.tid id⟩ ∈ t.agenda)

/-! ### Stage memory -/

/-- R239, R240, R251, R265: sld leaves its lanes' bytes on the scoreboard; sst writes its lanes' bytes, the highest lane's standing
where they meet, and updates a barrier that it wrote to; where that completes a phase, it releases at the barrier's scope as tbarr does
(R255; log entry 91). Misalignment, the end of the allotment, an engine's range or a draining window, and a filling window trap, in that
order. -/
def Obligations.StageAccesses : Prop :=
  oneForm 0x90 .sld (fun i n => ∀ s w, issues n s w → Staged w n (Machine.sizeOf n.mod) → ∃ t x, exec i s = .next t
    ∧ Completes s w [] 0#32
        [w.pendOf false 0 0#32 (w.outsOf n (Machine.wordsOf n.mod) w.act fun k l =>
          loadWord n.mod k (leNat (w.E.stageRead (w.stageAddr n n.sa l) (Machine.sizeOf n.mod))))] (nextWord n w) t x
    ∧ ∃ due, ⟨due, .scoreboardResultWrite w.tid s.tick⟩ ∈ t.agenda)
  ∧ oneForm 0x91 .sst (fun i n => ∀ s w,
    let size := Machine.sizeOf n.mod
    let at_ := w.stageAddr n n.sa
    let data (l : Nat) : List Byte := natLE size (w.dataOf n n.sb size l)
    issues n s w → Staged w n size → ∃ E' : Ensemble,
      E' = { w.E with stage := E'.stage }
      ∧ (∀ a, (∀ l, w.act.getLsbD l = true → ¬(at_ l ≤ a ∧ a < at_ l + size)) → E'.stageRead a 1 = w.E.stageRead a 1)
      ∧ (∀ l, w.act.getLsbD l = true → (∀ j, l < j → w.act.getLsbD j = true → at_ j ≠ at_ l) → E'.stageRead (at_ l) size = data l)
      ∧ ((∀ b ∈ w.E.bars, ∀ l, w.act.getLsbD l = true → ¬(b ≤ at_ l + size - 1 ∧ at_ l ≤ b + 15)) →
        ∃ t x, exec i s = .next t ∧ Completes s { w with E := E' } [] 0#32 [] (nextWord n w) t x)
      ∧ ∀ b, E'.barsHit (lanesOf w.act) at_ size = [b] → b + 16 ≤ w.E.size →
        (E'.completes b = true → w.mayRelease (E'.barScope b) = false → exec i s = .next w.hold)
        ∧ ((E'.completes b = false ∨ w.mayRelease (E'.barScope b) = true ∧ E'.barScope b ≠ 5) →
          ∃ t x, exec i s = .next t ∧ t.work w.tid w.ent = some x ∧ x.S.pc = (nextWord n w).pc
            ∧ barApplied s t { w with E := E' } b 0 0)
        ∧ (E'.completes b = true → w.mayRelease (E'.barScope b) = true → E'.barScope b = 5 →
          ∃ t x act, exec i s = .next t ∧ t.work w.tid w.ent = some x ∧ x.S.state = 2 ∧ x.S.wait = .cache act.id
            ∧ x.E.stage = E'.stage ∧ act ∈ t.cacheActs ∧ act.release = true ∧ act.after = .phases [b]))
  ∧ (let traps (i : Instr) (n : Ins) : Prop := ∀ s w,
      let size := Machine.sizeOf n.mod
      let at_ := w.stageAddr n n.sa
      issues n s w → w.memHeld = false →
        (∀ l, lowestWith w (fun l => at_ l % size ≠ 0) l → exec i s = w.trap n { cause := 0x07, info := l, addr := at_ l })
        ∧ ((∀ l, w.act.getLsbD l = true → at_ l % size = 0) →
          (∀ l, lowestWith w (fun l => w.E.size < at_ l + size) l → exec i s = w.trap n { cause := 0x09, info := 8, addr := at_ l })
          ∧ ((∀ l, w.act.getLsbD l = true → at_ l + size ≤ w.E.size) →
            (∀ k ∈ w.fillsHit (lanesOf w.act) at_ size, (w.E.win k).state = 2) →
              let lock (l : Nat) : Option Nat := (s.core w.E.core).stageLock w.T.ens (at_ l) (at_ l + size - 1) false
              let stop (c : TrapInfo) : Out := ({ w with s := w.commit } : Work).trap n c
              (∀ l k, lowestWith w (fun l => (lock l).isSome) l → lock l = some k →
                exec i s = stop { cause := 0x0A, info := k, addr := at_ l })
              ∧ ((∀ l, w.act.getLsbD l = true → lock l = none) →
                let drains (l : Nat) : Prop := w.E.winAt [5] (at_ l) (at_ l + size - 1) ≠ none
                (∀ l, lowestWith w drains l → ∃ k, exec i s = stop { cause := 0x0A, info := k, addr := at_ l })
                ∧ ((∀ l, w.act.getLsbD l = true → ¬drains l) → ∀ k ks, w.fillsHit (lanesOf w.act) at_ size = k :: ks →
                  ∀ l, lowestWith w (fun l => k ∈ w.fillsHit [l] at_ size) l → exec i s = stop { cause := 0x0B, info := k, addr := at_ l }))))
    oneForm 0x90 .sld traps ∧ oneForm 0x91 .sst traps)

/-- R254, R256, R274 to R276, R320: tbinit writes the barrier's bits; tbarr and tbexp apply one update, tbarr leaving the phase
before it on the scoreboard; tbwait waits while the phase it names is the current one, and else goes on 24 cycles later. R254, R255:
the bits of a barrier after one update. The phase completes when no arrival and no sector is due; PHASE then moves on and ARRIVALS
and SECTORS take their reload values. OVR stays once more arrivals have come than were due. -/
def Obligations.BarriersAndArrivals : Prop :=
  (let a (n : Ins) (w : Work) : Nat := w.stageAddr n n.sa (lowLane w.act)
  let b (n : Ins) (w : Work) : Nat := (w.src true n n.sb 0 (lowLane w.act)).toNat
  let c (n : Ins) (w : Work) : Nat := (w.src true n n.sc 0 (lowLane w.act)).toNat
  let ok (n : Ins) (w : Work) : Prop := a n w % 16 = 0 ∧ a n w + 16 ≤ w.E.size
  let traps (i : Instr) (n : Ins) (valid : Work → Prop) : Prop := ∀ s w, issues n s w → w.memHeld = false →
    (¬valid w → exec i s = w.trap n { cause := 0x02 })
    ∧ (valid w → a n w % 16 ≠ 0 → exec i s = w.trap n { cause := 0x07, info := lowLane w.act, addr := a n w })
    ∧ (valid w → a n w % 16 = 0 → w.E.size < a n w + 16 → exec i s = w.trap n { cause := 0x09, info := 8, addr := a n w })
  oneForm 0x9B .tbinit (fun i n =>
    let valid (w : Work) : Prop := b n w ≠ 0 ∧ b n w ≤ 0xFFFFF
    traps i n valid
    ∧ ∀ s w, issues n s w → w.memHeld = false → valid w → ok n w →
      (n.mod.testBit 0 = false ∨ w.E.epoch = none ∨ w.E.epoch = some (a n w)) → ∃ E' t x, exec i s = .next t
        ∧ Completes s { w with E := E' } [] 0#32 [] (nextWord n w) t x
        ∧ E' = { w.E with stage := E'.stage, epoch := E'.epoch, bars := E'.bars }
        ∧ (let v := E'.bar (a n w)
          field v 3 0 = 0 ∧ field v 23 4 = b n w ∧ field v 55 24 = c n w ∧ field v 75 56 = b n w ∧ field v 78 76 = Scope.num n.scope
          ∧ v.testBit 79 = n.mod.testBit 0 ∧ field v 111 80 = c n w ∧ v.testBit 112 = false
          ∧ field v 127 113 = field (w.E.bar (a n w)) 127 113)
        ∧ E'.epoch = (if n.mod.testBit 0 then some (a n w) else if w.E.epoch = some (a n w) then none else w.E.epoch)
        ∧ a n w ∈ E'.bars ∧ ∀ d, d < a n w ∨ a n w + 16 ≤ d → E'.stageRead d 1 = w.E.stageRead d 1)
  ∧ oneForm 0x9C .tbarr (fun i n =>
    let bytes (w : Work) : Nat := if n.mod.testBit 0 then c n w else 0
    let valid (w : Work) : Prop := b n w ≠ 0 ∧ b n w ≤ 0xFFFFF ∧ bytes w % 32 = 0
    traps i n valid
    ∧ ∀ s w, issues n s w → w.memHeld = false → valid w → ok n w →
      (w.mayRelease (w.E.barScope (a n w)) = false → exec i s = .next w.hold)
      ∧ (w.mayRelease (w.E.barScope (a n w)) = true → w.E.barScope (a n w) ≠ 5 →
        ∃ t x p, exec i s = .next t ∧ barApplied s t w (a n w) (b n w) (bytes w / 32 : Nat)
          ∧ t.work w.tid w.ent = some x ∧ x.S.pc = (nextWord n w).pc ∧ (∀ r l, x.now r l = w.now r l)
          ∧ x.T.pend = w.T.pend ++ [p]
          ∧ p.outs = (w.pendOf false 0 0#32 (w.outsOf n 1 w.act fun _ _ => BitVec.ofNat 32 (w.E.bar (a n w) % 16))).outs)
      ∧ (w.mayRelease (w.E.barScope (a n w)) = true → w.E.barScope (a n w) = 5 → ∃ t id act, exec i s = .next t ∧ act ∈ t.cacheActs ∧ act.id = id ∧ act.release = true
          ∧ ∃ x, t.work w.tid w.ent = some x ∧ x.S.state = 2 ∧ x.S.wait = .cache id ∧ t.mem = s.mem))
  ∧ oneForm 0x9D .tbexp (fun i n =>
    let valid (w : Work) : Prop := b n w % 32 = 0
    traps i n valid
    ∧ ∀ s w, issues n s w → w.memHeld = false → valid w → ok n w → ∃ t x, exec i s = .next t
      ∧ barApplied s t w (a n w) 0 (b n w / 32 : Nat)
      ∧ t.work w.tid w.ent = some x ∧ x.S.pc = (nextWord n w).pc ∧ (∀ r l, x.now r l = w.now r l) ∧ x.T.pend = w.T.pend)
  ∧ oneForm 0x9E .tbwait (fun i n => traps i n (fun _ => True)
    ∧ ∀ s w, issues n s w → w.memHeld = false → ok n w → ∃ (c : Caches) (t : State) (x : Work),
      let s0 : State := c.on { s with cacheActs := t.cacheActs }
      exec i s = .next t
      ∧ (w.E.bar (a n w) % 16 = b n w % 16 → t.cacheActs = s.cacheActs ∧ ∃ E' rs,
          E' = { w.E with bars := E'.bars } ∧ a n w ∈ E'.bars
          ∧ Waits s0 { w with s := s0, E := E' } n (.phase (a n w) (b n w % 16) (w.E.barScope (a n w)) rs) [] t x)
      ∧ (w.E.bar (a n w) % 16 ≠ b n w % 16 → w.E.barScope (a n w) < 3 → t.cacheActs = s.cacheActs
          ∧ Completes s0 { w with s := s0 } [] 0#32 [] (nextWord n w) t x ∧ s.now + 24 ≤ x.S.earliest)
      ∧ (w.E.bar (a n w) % 16 ≠ b n w % 16 → 3 ≤ w.E.barScope (a n w) → ∃ id rs,
          t.cacheActs = s.cacheActs ++ [⟨id, w.tid, w.S.uid, w.E.barScope (a n w), false, true, some rs, .nothing⟩]
          ∧ Waits s0 { w with s := s0 } n (.cache id) [] t x))
  ∧ ∀ tid uid s, ∃ t, exec (.tbwaitWake tid uid) s = .next t ∧ t.mem = s.mem ∧ t.ensembles = s.ensembles
    ∧ ∀ T k p d sc l, s.troupes.find? tid = some T → T.splits.find? k = some p → p.uid = uid →
      (∀ q ∈ T.allSplits, q.uid = uid → q = p) → p.wait = .phase d 16 sc l →
        (sc < 3 → goesOnPast t tid T uid)
        ∧ (3 ≤ sc → ∃ act ∈ t.cacheActs, act.tid = tid ∧ act.uid = uid ∧ act.acquire = true ∧ act.scope = sc ∧ act.regions = some l))
  ∧ (∀ (v arrive : Nat) (add : Int), v < 2 ^ 128 →
    let r := (barStep v arrive add).1
    let arrivals := field v 23 4 - arrive
    let sectors : Nat := (((field v 55 24 : Nat) + add) % (2 : Int) ^ 32).toNat
    r < 2 ^ 128
    ∧ ((barStep v arrive add).2 = true ↔ arrivals = 0 ∧ sectors = 0)
    ∧ (arrivals = 0 → sectors = 0 → field r 3 0 = (field v 3 0 + 1) % 16 ∧ field r 23 4 = field v 75 56 ∧ field r 55 24 = field v 111 80)
    ∧ (¬(arrivals = 0 ∧ sectors = 0) → field r 3 0 = field v 3 0 ∧ field r 23 4 = arrivals ∧ field r 55 24 = sectors)
    ∧ field r 111 56 = field v 111 56 ∧ field r 127 113 = field v 127 113
    ∧ (r.testBit 112 = true ↔ v.testBit 112 = true ∨ field v 23 4 < arrive))

/-- R242 to R246, R268 to R273: wbind binds a window by the record in stage memory, in two parts 24 cycles apart; wset replaces one
field of the record of a bound window; wrel unbinds; wstat gives the window's word and clears ERR if asked; bcommit closes a
batch and bwait waits for one. A window whose copy moves holds wbind, wset and wrel. -/
def Obligations.Windows : Prop :=
  (∀ (r : BitVec 512) (hi lo v : Nat), lo ≤ hi → hi < 512 → rf (recPut r hi lo v) hi lo = v % 2 ^ (hi + 1 - lo)
    ∧ ∀ j, (j < lo ∨ hi < j) → (recPut r hi lo v).getLsbD j = r.getLsbD j)
  ∧ oneForm 0x94 .wbind (fun i n => ∀ s w, issues n s w →
    let k := n.mod % 32
    let a := w.stageAddr n n.sa (lowLane w.act)
    let r := BitVec.ofNat 512 (leNat (w.E.stageRead a 64))
    let moving : Prop := (w.E.win k).state = 2 ∨ (w.E.win k).state = 5
    (∀ d r, w.S.wait = .bind d r → ¬moving → ∃ E' t x, exec i s = .next t
        ∧ Completes s { w with E := E', S := { w.S with wait := .none } } [] 0#32 [] (nextWord n w) t x
        ∧ (E'.win k).record = r ∧ (E'.win k).state = (if recDir r = 0 then 1 else 4) ∧ (E'.win k).held = false
        ∧ (∀ j, j ≠ k → E'.win j = w.E.win j) ∧ E' = { w.E with wins := E'.wins })
    ∧ ((∀ d r, w.S.wait ≠ .bind d r) → w.memHeld = false →
      (a % 64 ≠ 0 → exec i s = w.trap n { cause := 0x07, info := lowLane w.act, addr := a })
      ∧ (a % 64 = 0 → w.E.size < a + 64 → exec i s = w.trap n { cause := 0x09, info := 8, addr := a })
      ∧ (a % 64 = 0 → a + 64 ≤ w.E.size → moving → exec i s = .next w.hold)
      ∧ (a % 64 = 0 → a + 64 ≤ w.E.size → ¬moving →
        (∀ c, bindCheck w.E k (w.fmt (recFmt r)).width r = some c → exec i s = w.trap n c)
        ∧ (bindCheck w.E k (w.fmt (recFmt r)).width r = none → ∃ t x, exec i s = .next t ∧ t.work w.tid w.ent = some x
          ∧ x.S = { w.S with wait := .bind (s.now + 24) r, earliest := s.now + 24 } ∧ x.E = w.E ∧ (∀ q l, x.now q l = w.now q l)
          ∧ t.mem = s.mem))))
  ∧ oneForm 0x95 .wset (fun i n => ∀ s w, issues n s w →
    let k := n.mod % 32
    let sel := n.mod / 32
    let v := if sel = 5 then w.src64 true n n.sa (lowLane w.act) else (w.src true n n.sa 0 (lowLane w.act)).toNat
    let x := w.E.win k
    ((w.E.win k).state = 0 → exec i s = w.trap n { cause := 0x02 })
    ∧ (x.state ≠ 0 →
      (∀ c, wsetRecord w.E sel v x.record = .error c → exec i s = w.trap n c)
      ∧ ∀ r, wsetRecord w.E sel v x.record = .ok r →
        (x.state = 2 ∨ x.state = 5 → exec i s = .next w.hold)
        ∧ (sel < 5 → rf r (21 * sel + 324) (21 * sel + 304) = v % 2 ^ 21)
        ∧ (sel = 5 → rf r 59 0 = v) ∧ (sel = 6 → rf r 476 469 = v % 256) ∧ (sel = 7 → rf r 442 428 = v / 16 % 2 ^ 15)
        ∧ (x.state ≠ 2 → x.state ≠ 5 → ∃ E' t y, exec i s = .next t ∧ Completes s { w with E := E' } [] 0#32 [] (nextWord n w) t y
          ∧ E'.win k = { x with record := r, state := if recDir r = 0 then 1 else 4 }
          ∧ (∀ j, j ≠ k → E'.win j = w.E.win j) ∧ E' = { w.E with wins := E'.wins })))
  ∧ oneForm 0x97 .wrel (fun i n => ∀ s w, issues n s w →
    ((w.E.win (n.mod % 32)).state = 2 ∨ (w.E.win (n.mod % 32)).state = 5 → exec i s = .next w.hold)
    ∧ ((w.E.win (n.mod % 32)).state ≠ 2 → (w.E.win (n.mod % 32)).state ≠ 5 → ∃ E' t x, exec i s = .next t ∧ Completes s { w with E := E' } [] 0#32 [] (nextWord n w) t x
      ∧ E'.win (n.mod % 32) = { w.E.win (n.mod % 32) with state := 0 }
      ∧ (∀ j, j ≠ n.mod % 32 → E'.win j = w.E.win j) ∧ E' = { w.E with wins := E'.wins }))
  ∧ oneForm 0x98 .wstat (fun i n => ∀ s w, issues n s w →
    let x := w.E.win (n.mod % 32)
    ∃ v E' t y, exec i s = .next t
      ∧ Completes s { w with E := E' } [] 0#32 [w.pendOf false 0 0#32 (w.outsOf n 1 w.act fun _ _ => v)] (nextWord n w) t y
      ∧ bvField v 2 0 = x.state.toNat ∧ v.getLsbD 3 = x.err ∧ v.getLsbD 4 = x.held ∧ bvField v 15 5 = 0
      ∧ bvField v 31 16 = x.landed.toNat + ((List.range 64).filter fun k => x.tail.getLsbD k).length
      ∧ E'.win (n.mod % 32) = { x with err := x.err && !n.mod.testBit 5 }
      ∧ (∀ j, j ≠ n.mod % 32 → E'.win j = w.E.win j) ∧ E' = { w.E with wins := E'.wins })
  ∧ oneForm 0x99 .bcommit (fun i n => ∀ s w, issues n s w → ∃ t x, exec i s = .next t
    ∧ Completes s { w with T := { w.T with batch := w.T.batch + 1 } } [] 0#32
        [w.pendOf false 0 0#32 (w.outsOf n 1 w.act fun _ _ => w.T.batch + 1)] (nextWord n w) t x)
  ∧ oneForm 0x9A .bwait (fun i n => ∀ s w, issues n s w →
    let v := w.src true n n.sa 0 (lowLane w.act)
    (s.batchDone w.tid w.T v = true → ∃ t x, exec i s = .next t ∧ Completes s w [] 0#32 [] (nextWord n w) t x)
    ∧ (s.batchDone w.tid w.T v = false → ∃ t x, exec i s = .next t ∧ Waits s w n (.batch v.toNat) [] t x))

/-- R234, R246, R251, R257, R258, R266, R267, R271: the instructions that start copies put them into their troupe's stagehand queue, with
the descriptor, batch and barrier of their issue; a full queue holds them, and their checks trap. The stagehand starts the command at
the head of the queue, discards it where its guard resolved false, or leaves it. -/
def Obligations.CopyCommands : Prop :=
  oneForm 0x92 .sgath (fun i n => ∀ s w, issues n s w → w.memHeld = false →
    let low := lowLane w.act
    let lanes := lanesOf w.act
    let row := 32 * 2 ^ (n.mod % 8)
    let dst := (w.src true n n.sb 0 low).toNat
    let bar := if n.mod.testBit 3 then some (w.src true n n.sc 0 low).toNat else none
    (dst % 32 ≠ 0 → exec i s = w.trap n { cause := 0x07, info := low, addr := dst })
    ∧ (dst % 32 = 0 → ∀ l, lowestWith w (fun l => w.pairAddr n l % 32 ≠ 0) l →
        exec i s = w.trap n { cause := 0x07, info := l, addr := w.pairAddr n l })
    ∧ (dst % 32 = 0 → (∀ l, w.act.getLsbD l = true → w.pairAddr n l % 32 = 0) → (∀ b ∈ bar, b % 16 = 0) →
      (w.E.size < dst + lanes.length * row → exec i s = w.trap n { cause := 0x09, info := 8, addr := dst })
      ∧ (dst + lanes.length * row ≤ w.E.size → (∀ b ∈ bar, b + 16 ≤ w.E.size) →
        (∀ c, w.conflict true dst (dst + lanes.length * row - 1) = some c → exec i s = w.trap n c)
        ∧ (w.conflict true dst (dst + lanes.length * row - 1) = none →
          (8 ≤ w.T.queue.length → exec i s = .next w.hold)
          ∧ (w.T.queue.length < 8 → ∃ t, exec i s = .next t
              ∧ queued s t w n (w.copy (.sgath (lanes.map (w.pairAddr n)) dst row) lanes.length bar))))))
  ∧ oneForm 0x93 .sfill (fun i n => ∀ s w, issues n s w → w.memHeld = false →
    let low := lowLane w.act
    let dst := w.stageAddr n n.sa low
    let len := (w.src true n n.sb 0 low).toNat
    let valid : Prop := len % 32 = 0 ∧ 32 ≤ len ∧ len ≤ 524288
    (¬valid → exec i s = w.trap n { cause := 0x02 })
    ∧ (valid → dst % 32 ≠ 0 → exec i s = w.trap n { cause := 0x07, info := low, addr := dst })
    ∧ (valid → dst % 32 = 0 → w.E.size < dst + len → exec i s = w.trap n { cause := 0x09, info := 8, addr := dst })
    ∧ (valid → dst % 32 = 0 → dst + len ≤ w.E.size → w.conflict true dst (dst + len - 1) = none → w.T.queue.length < 8 →
        ∃ t, exec i s = .next t ∧ queued s t w n (w.copy (.sfill dst len (w.src true n n.sc 0 low)) (len / 32) none)))
  ∧ oneForm 0x84 .opld (fun i n => ∀ s w, issues n s w →
    let low := lowLane w.act
    let b := n.mod.testBit 3
    let k := n.mod % 8
    let src := w.stageAddr n n.sa low
    let v := (w.src true n n.sb 0 low).toNat
    let off := v % 65536
    let len := (v / 65536 % 1024 + 1) * 64
    let bar := if n.sc = .zero then none else some (w.src true n n.sc 0 low).toNat
    let valid : Prop := off % 64 = 0 ∧ v < 2 ^ 26 ∧ off + len ≤ if b then 65536 else 32768
    (¬valid → exec i s = w.trap n { cause := 0x02 })
    ∧ (valid → src % 64 ≠ 0 → exec i s = w.trap n { cause := 0x07, info := low, addr := src })
    ∧ (valid → src % 64 = 0 → (∀ a ∈ bar, a % 16 = 0) → w.E.size < src + len → exec i s = w.trap n { cause := 0x09, info := 8, addr := src })
    ∧ (valid → src % 64 = 0 → (∀ a ∈ bar, a % 16 = 0 ∧ a + 16 ≤ w.E.size) → src + len ≤ w.E.size →
        w.conflict false src (src + len - 1) = none →
        (w.E.slot b k = none → exec i s = w.trap n { cause := 0x10, info := k + 8 * b.toNat })
        ∧ ((w.E.slot b k).isSome = true → w.memHeld = false → s.slotReading w.E.core w.T.ens b k = false →
          s.slotWriting w.T.ens b k s.tick = false → w.T.queue.length < 8 →
            ∃ t, exec i s = .next t ∧ queued s t w n (w.copy (.opld b k off src len) (len / 32) bar))))
  ∧ oneForm 0x96 .touch (fun i n => ∀ s w, issues n s w → w.memHeld = false →
    let low := lowLane w.act
    let k := n.mod % 32
    let x := w.E.win k
    let r := x.record
    let gv := (w.src true n n.sb 0 low).toNat
    let g := if n.mod.testBit 5 then (w.src true n n.sa 0 low).toInt else 0
    let bytes := recElems r * (fmtOf (w.look (recFmt r))).width / 8
    let lo := recDest r
    let valid : Prop := x.state ≠ 0 ∧ (n.mod.testBit 5 = true → recSlide r = true) ∧ (n.mod.testBit 6 = true → gv < 16)
    (¬valid → exec i s = w.trap n { cause := 0x02 })
    ∧ (valid → ((x.state ≠ 1 ∧ x.state ≠ 4) ∨ w.E.leads r = false) →
        ∃ t x, exec i s = .next t ∧ Completes s w [] 0#32 [] (nextWord n w) t x)
    ∧ (valid → (x.state = 1 ∨ x.state = 4) → w.E.leads r = true →
      (s.copyEntry w.tid w.E r = false → exec i s = w.trap n { cause := 0x06, info := recFmt r })
      ∧ (s.copyEntry w.tid w.E r = true → recSlotEn r = false → w.E.size < lo + bytes → exec i s = w.trap n { cause := 0x09, info := 8, addr := lo })
      ∧ (s.copyEntry w.tid w.E r = true → recSlotEn r = true → w.E.slot (recSlot r).1 (recSlot r).2 = none →
          exec i s = w.trap n { cause := 0x10, info := (recSlot r).2 + 8 * (recSlot r).1.toNat })
      ∧ (s.copyEntry w.tid w.E r = true →
        (recSlotEn r = true → (w.E.slot (recSlot r).1 (recSlot r).2).isSome = true) →
        (recSlotEn r = false → lo + bytes ≤ w.E.size ∧ s.conflict w.T.ens w.E (recDir r = 0) lo (lo + bytes - 1) = none) →
          (8 ≤ w.T.queue.length → exec i s = .next w.hold)
          ∧ (w.T.queue.length < 8 → ∃ t c, exec i s = .next t ∧ queued s t w n c ∧ c.kind = .window k ∧ c.record = r
              ∧ c.fmt = w.look (recFmt r) ∧ c.goff = g ∧ c.guard = (if n.mod.testBit 6 then some gv else none)
              ∧ c.batch = w.T.batch + 1 ∧ c.bar = some (recBar r) ∧ c.units = (bytes + 31) / 32 ∧ c.started = none))))
  ∧ ∀ tid s, ∃ t, exec (.copyStart tid) s = .next t ∧ t.mem = s.mem
    ∧ ∀ T id c, s.troupes.find? tid = some T → T.queue = [id] → s.copies.find? id = some c →
      (∀ q, c.guard = some q → bvField T.qstat (2 * q + 1) (2 * q) = 0 → t = { s with agenda := t.agenda })
      ∧ (s.now < c.issued + 4 → (∀ q, c.guard = some q → bvField T.qstat (2 * q + 1) (2 * q) ≠ 2) →
          t = { s with agenda := t.agenda } ∧ ⟨c.issued + 4, .copyStart tid⟩ ∈ t.agenda)
      ∧ (∀ q, c.guard = some q → bvField T.qstat (2 * q + 1) (2 * q) = 2 → t.copies.find? id = none
          ∧ ∃ T', t.troupes.find? tid = some T' ∧ T'.queue = [])
      ∧ ((∀ q, c.guard = some q → bvField T.qstat (2 * q + 1) (2 * q) = 1) → c.slot = none → c.issued + 4 ≤ s.now →
          (s.copyLocked id c = true ∨ (s.core (s.copyCore c)).lockRoom (s.copyLocks id c).length = true) →
            ∃ c' T', t.copies.find? id = some c' ∧ c'.started = some s.now ∧ t.troupes.find? tid = some T' ∧ T'.queue = [])

/-- R244, R247, R248, R252, R260, R262, R266, R267, R326: what lands, once the writes that its troupe made before the command are
acknowledged. A unit of a fill stands in stage memory, is counted in its window and in
the barrier; a row of a gather stands in its place; a pattern fills its range; an operand load fills the slot. A page that does not
translate parks the copy. A contribution to an ordered reduction is applied at once if it is the one due; a refused one is sent again in
the cycle after the signal, and takes the path time. -/
def Obligations.CopyLanding : Prop :=
  (∀ id j s c, s.copies.find? id = some c → c.parked = false → c.hasLanded j = false → s.copyWaits c = false → ∀ pages s1,
    let ready : Prop := s.copyPages c (c.pages j) = (s1, .ok pages)
      ∧ (∀ p ∈ pages, s1.mapWaits p.2 = false ∧ s1.refuses p.2 = false ∧ targetOf p.2 = .device)
    (∀ va m, s.copyPages c (c.pages j) = (s1, .error (va, m)) →
      ∃ t, exec (.sectorLanding id j) s = .next t ∧ t.copies.find? id = some { c with parked := true } ∧ t.mem = s.mem)
    ∧ (ready → ∀ k e, c.kind = .window k → recDir c.record = 0 → recSlotEn c.record = false → c.members = [c.ens] →
      s.ensembles.find? c.ens = some e → ∀ a, c.bar = some a →
      let lo := recDest c.record + 32 * j
      (a + 16 ≤ lo ∨ lo + 32 ≤ a) → lo + 32 ≤ e.size → a + 16 ≤ e.size →
        let r := landMark c.landed c.tail j
        ∃ t E', exec (.sectorLanding id j) s = .next t ∧ t.ensembles.find? c.ens = some E' ∧ t.mem = s.mem
          ∧ E'.stageRead lo 32 = s1.fillBytes c pages j
          ∧ E'.bar a = (barStep (e.bar a) 0 (-1)).1
          ∧ (∀ d, (d < lo ∨ lo + 32 ≤ d) → (d < a ∨ a + 16 ≤ d) → E'.stageRead d 1 = e.stageRead d 1)
          ∧ (r.1 < c.units → (∃ c', t.copies.find? id = some c'
              ∧ c' = { c with landed := r.1, tail := r.2, sent := c'.sent, shift := c'.shift, todo := c'.todo }) ∧ (E'.win k).landed.toNat = r.1 % 32768
              ∧ (E'.win k).tail = r.2 ∧ (E'.win k).state = (e.win k).state)
          ∧ (c.units ≤ r.1 → t.copies.find? id = none ∧ (E'.win k).state = 3))
    ∧ (ready → ∀ rows dst row va e, c.kind = .sgath rows dst row → rows[j]? = some va → s.ensembles.find? c.ens = some e → c.bar = none →
      dst + j * row + row ≤ e.size → row % 32 = 0 →
        ∃ t E', exec (.sectorLanding id j) s = .next t ∧ t.ensembles.find? c.ens = some E' ∧ t.mem = s.mem
          ∧ E'.stageRead (dst + j * row) row = s1.rowBytes pages va row
          ∧ ∀ d, (d < dst + j * row ∨ dst + j * row + row ≤ d) → E'.stageRead d 1 = e.stageRead d 1))
  ∧ (∀ id s, ∃ t, exec (.sfillComplete id) s = .next t ∧ t.mem = s.mem
    ∧ ∀ c e dst len p, s.copies.find? id = some c → c.parked = false → c.kind = .sfill dst len p →
      s.ensembles.find? c.ens = some e → dst + len ≤ e.size → len % 4 = 0 →
        t.copies.find? id = none ∧ ∃ E', t.ensembles.find? c.ens = some E'
          ∧ (∀ k, k < len / 4 → E'.stageRead (dst + 4 * k) 4 = natLE 4 p.toNat)
          ∧ ∀ d, (d < dst ∨ dst + len ≤ d) → E'.stageRead d 1 = e.stageRead d 1)
  ∧ (∀ id s, ∃ t, exec (.opldComplete id) s = .next t ∧ t.mem = s.mem
    ∧ ∀ c e b k off src len x, s.copies.find? id = some c → c.parked = false → c.kind = .opld b k off src len →
      s.ensembles.find? c.ens = some e → e.slot b k = some x →
        t.copies.find? id = none ∧ ∃ E' y, t.ensembles.find? c.ens = some E' ∧ E'.slot b k = some y
          ∧ y.phys = x.phys ∧ y.data.getMany off len = e.stageRead src len
          ∧ ∀ d, (d < off ∨ off + len ≤ d) → y.data.get d = x.data.get d)
  ∧ (∀ id sec s c pages s1, s.copies.find? id = some c → c.parked = false → s.copyWaits c = false → s.copyPages c [sec / 128] = (s1, .ok pages) →
      (∀ p ∈ pages, s1.mapWaits p.2 = false ∧ s1.refuses p.2 = false ∧ targetOf p.2 = .device) →
      let pa := physOf pages (32 * sec) / 32
      let k := rf c.record 476 469
      s1.refuses (physOf pages (32 * sec)) = false → ∃ t, exec (.reduceContribution id sec) s = .next t
        ∧ (s1.episodes.find? pa = none → (s1.staging (s1.sliceOf (32 * pa))).1 < 1024 → k = 0 → rf c.record 468 461 = 0 →
            t.mem = (s1.reduceApply (s1.copyCore c) c (bitOf c.record.toNat 509) pa (s1.contribution c sec)).mem))
  ∧ ∀ id sec s, ∃ t, exec (.reduceRetry id sec) s = .next t
      ∧ (∃ c : Caches, t = { c.on s with tick := t.tick, agenda := t.agenda })
      ∧ ((s.copies.find? id).isSome = true → ∃ due, s.now + 1 ≤ due ∧ ⟨due, .reduceContribution id sec⟩ ∈ t.agenda)

/-! ### Meeting points -/

/-- R86, R87: the reconvergence rule releases the splits that wait at one address with one frame stack, once every other split that
holds their top fork waits there too; they fuse, and the fused split goes on without its top frame, in a new run; one alone goes on in its
run (R43, R107). The rejoin rule releases every split that stands at a rejoin, once all splits of the troupe stand and the first rule
releases none. A fused group has the lanes of all, and the merged scalar registers; differing values set SMERGE. Spilled splits fuse only
once they are resident: until then two or more that are resident fuse among themselves and wait on (log entry 18). -/
def Obligations.Reconvergence : Prop :=
  let resident (T : Troupe) (r : Split) : Prop := ∃ e ∈ T.splits, e.2.uid = r.uid
  (∀ (T : Troupe) ps, T.released = some ps → ∃ f pc ids, ps ≠ [] ∧ ids.getLast? = some f
    ∧ (∀ p ∈ ps, p ∈ T.allSplits ∧ p.state = 3 ∧ p.atRejoin = 0 ∧ p.pc = pc ∧ p.frames.map (·.forkId) = ids)
    ∧ ∀ q ∈ T.allSplits, q ∉ ps →
        (∀ g ∈ q.frames, g.forkId ≠ f)
        ∨ (q.state = 3 ∧ q.pc = pc ∧ q.frames.getLast?.map (·.forkId) = some f ∧ q.frames.map (·.forkId) ≠ ids))
  ∧ (∀ ps k, (∀ p ∈ ps, p.frames.length ≤ 16) → ps ≠ [] →
      let same (k : Nat) : Prop := ∃ f, ∀ p ∈ ps, p.frames[k]?.map (·.forkId) = some f
      (same k → k < sharedFrames ps) ∧ (sharedFrames ps = 0 ∨ same (sharedFrames ps - 1)))
  ∧ (∀ tid s, ∃ t, exec (.reconvergenceFusion tid) s = .next t ∧ onlyTroupe s t tid
    ∧ ∀ T, s.troupes.find? tid = some T →
      (T.released = none → t = s)
      ∧ (∀ ps, T.released = some ps → T.settled ps = false → t.troupes = s.troupes ∧ ⟨s.now + 1, .reconvergenceFusion tid⟩ ∈ t.agenda)
      ∧ ∀ ps k p, T.released = some ps → T.settled ps = true → T.groupEntry ps = some (k, p) → (T.splits.map (·.1)).Nodup →
        (T.allSplits.map (·.uid)).Nodup →
        ((∀ r ∈ ps, resident T r) → ∃ T' q, t.troupes.find? tid = some T' ∧ T'.splits.find? k = some q
          ∧ (∀ l, q.mask.getLsbD l = true ↔ ∃ r ∈ ps, r.mask.getLsbD l = true)
          ∧ q.pc = p.pc ∧ q.state = (if q.rcv = some p.pc ∧ p.past = false then 3 else 1) ∧ mergesTo ps q.scal
          ∧ (2 ≤ ps.length → q.run = p.lastRun + 1 ∧ q.shadow = []) ∧ (ps.length = 1 → q.run = p.run ∧ q.shadow = p.shadow)
          ∧ q.frames.map (fun f => (f.rcv, f.forkId)) = p.frames.dropLast.map (fun f => (f.rcv, f.forkId))
          ∧ q.frames.dropLast = p.frames.dropLast.dropLast
          ∧ (∀ f g n, q.frames.getLast? = some f → p.frames.dropLast.getLast? = some g → (f.wr.getLsbD n = true ↔
              g.wr.getLsbD n = true ∨ ∃ r ∈ ps, ∃ h ∈ r.frames.getLast?, h.wr.getLsbD n = true))
          ∧ (∀ r ∈ T.allSplits, (∀ x ∈ ps, x.uid ≠ r.uid) → r ∈ T'.allSplits)
          ∧ T' = { T with splits := T'.splits, tstat := T'.tstat }
          ∧ (mergeDiffers ps → T'.tstat = T.tstat ||| flagMerge) ∧ (¬mergeDiffers ps → T'.tstat = T.tstat)
          ∧ ⟨s.now, .reconvergenceFusion tid⟩ ∈ t.agenda ∧ ⟨s.now, .splitSwapBack tid⟩ ∈ t.agenda)
        ∧ ((∃ r ∈ ps, ¬resident T r) →
          ((T.resident ps).length ≤ 1 → t = s)
          ∧ (2 ≤ (T.resident ps).length → ∃ T' q, t.troupes.find? tid = some T' ∧ T'.splits.find? k = some q
            ∧ (∀ l, q.mask.getLsbD l = true ↔ ∃ r ∈ ps, resident T r ∧ r.mask.getLsbD l = true)
            ∧ q.pc = p.pc ∧ q.state = 3 ∧ q.atRejoin = p.atRejoin ∧ mergesTo (T.resident ps) q.scal
            ∧ ((∀ r ∈ ps, r.frames.length ≤ 16) → q.frames.map (·.forkId) = p.frames.map (·.forkId))
            ∧ (∀ r ∈ T.allSplits, (∀ x ∈ ps, resident T x → x.uid ≠ r.uid) → r ∈ T'.allSplits)
            ∧ T' = { T with splits := T'.splits, tstat := T'.tstat })))
  ∧ ∀ tid s, ∃ t, exec (.rejoinRelease tid) s = .next t
    ∧ (∃ c : Caches, t = { c.on s with tick := t.tick, agenda := t.agenda, troupes := t.troupes, mem := t.mem })
    ∧ (∀ k, k ≠ tid → t.troupes.find? k = s.troupes.find? k)
    ∧ ∀ T, s.troupes.find? tid = some T →
      (T.rejoined = none → t = s)
      ∧ ∀ gs, T.rejoined = some gs →
        ((∀ p ∈ T.allSplits, p.state = 3) ∧ T.released = none
          ∧ (∀ p ∈ T.allSplits, p.atRejoin ≠ 0 → ∃ g ∈ gs, p ∈ g ∧ ∀ q, q ∈ g ↔ q ∈ T.allSplits ∧ q.atRejoin ≠ 0 ∧ q.pc = p.pc))
        ∧ (T.settled gs.flatten = false → t.troupes = s.troupes ∧ ⟨s.now + 1, .rejoinRelease tid⟩ ∈ t.agenda)
        ∧ (T.settled gs.flatten = true → (∀ g ∈ gs, 2 ≤ g.length → ∀ r ∈ g, resident T r) → (T.splits.map (·.1)).Nodup →
            (T.allSplits.map (·.uid)).Nodup →
          ∃ T', t.troupes.find? tid = some T'
            ∧ (∀ g ∈ gs, ∃ p ∈ g, ∃ q ∈ T'.allSplits, q.state = 1 ∧ q.frames = []
                ∧ q.pc = pcStep p.pc p.atRejoin ∧ q.past = pastEnd p.pc p.atRejoin
                ∧ (g.length = 1 → q.run = p.run ∧ q.shadow = p.shadow)
                ∧ mergesTo g q.scal ∧ ∀ l, q.mask.getLsbD l = true ↔ ∃ r ∈ g, r.mask.getLsbD l = true)
            ∧ T' = { T with splits := T'.splits, stack := T'.stack, coming := T'.coming, tstat := T'.tstat }
            ∧ ((∃ g ∈ gs, mergeDiffers g) → T'.tstat = T.tstat ||| flagMerge)
            ∧ ((∀ g ∈ gs, ¬mergeDiffers g) → T'.tstat = T.tstat))

/-- R88, R90: the split longest on the split stack goes to the lowest free entry, and is resident once its record has been read; while
the stack is not empty, an exchange swaps it with the youngest blocked resident split, or the least recently issued one, once 4,096
cycles that count, on stage and outside brackets, have passed since the last; one that is due in a bracket or off stage is looked at again
in the next cycle. -/
def Obligations.SwapBackAndExchange : Prop :=
  (∀ tid s, ∃ t, exec (.splitSwapBack tid) s = .next t
    ∧ (∃ c : Caches, t = { c.on s with tick := t.tick, agenda := t.agenda, troupes := t.troupes })
    ∧ (∀ k, k ≠ tid → t.troupes.find? k = s.troupes.find? k)
    ∧ ∀ T p rest k, s.troupes.find? tid = some T → T.stack = p :: rest → k < 8 → T.splits.find? k = none → T.coming.find? k = none →
      (∀ j, j < k → (T.splits.find? j).isSome = true ∨ (T.coming.find? j).isSome = true) →
        t.troupes.find? tid = some { T with stack := rest, stackHead := (T.stackHead + 1) % 120, coming := T.coming.put k p }
        ∧ ∃ due, ⟨due, .swapBackReadComplete tid k⟩ ∈ t.agenda)
  ∧ (∀ tid k s, ∃ t, exec (.swapBackReadComplete tid k) s = .next t ∧ onlyTroupe s t tid
    ∧ ∀ T p, s.troupes.find? tid = some T → T.coming.find? k = some p →
        t.troupes.find? tid = some { T with coming := T.coming.del k, splits := T.splits.put k { p with swapIn := true } }
        ∧ ⟨s.now, .splitSwapBack tid⟩ ∈ t.agenda)
  ∧ (∀ T : Troupe, T.splits ≠ [] → ∃ k v, T.exchanged = some (k, v) ∧ (k, v) ∈ T.splits
      ∧ let blocked (p : Split) : Prop := p.state = 2 ∨ p.state = 3
        ((∃ e ∈ T.splits, blocked e.2) → blocked v ∧ ∀ e ∈ T.splits, blocked e.2 → e.2.born ≤ v.born)
        ∧ ((∀ e ∈ T.splits, ¬blocked e.2) → ∀ e ∈ T.splits, v.lastIss ≤ e.2.lastIss))
  ∧ ∀ tid s, ∃ t, exec (.splitExchange tid) s = .next t ∧ (∀ k, k ≠ tid → t.troupes.find? k = s.troupes.find? k)
    ∧ t.ensembles = s.ensembles ∧ t.contexts = s.contexts
    ∧ ∀ T e c, s.troupes.find? tid = some T → s.ensembles.find? T.ens = some e → s.contexts.find? e.ctx = some c →
      let gone := s.exchCycles T - T.exchAt
      (T.stack = [] → t = s)
      ∧ ∀ p rest, T.stack = p :: rest → (∀ d, ⟨d, .splitExchange tid⟩ ∉ s.agenda) →
        (gone < 4096 → t = { s with agenda := t.agenda } ∧ ⟨s.now + (4096 - gone), .splitExchange tid⟩ ∈ t.agenda)
        ∧ (4096 ≤ gone → ((∃ x ∈ T.splits, x.2.infull = true) ∨ (s.core e.core).onStage ≠ some e.ctx) →
            t = { s with agenda := t.agenda } ∧ ⟨s.now + 1, .splitExchange tid⟩ ∈ t.agenda)
        ∧ (4096 ≤ gone → (∀ x ∈ T.splits, x.2.infull = false) → (s.core e.core).onStage = some e.ctx →
          ∀ k v, T.exchanged = some (k, v) →
            t.troupes.find? tid = some
              { T with splits := T.splits.del k, stack := rest ++ [v], stackHead := (T.stackHead + 1) % 120, coming := T.coming.put k p,
                       exchAt := s.exchCycles T }
            ∧ (∃ due, ⟨due, .swapBackReadComplete tid k⟩ ∈ t.agenda) ∧ ⟨s.now + 4096, .splitExchange tid⟩ ∈ t.agenda)

/-! ### Operand stores, tiles and the array -/

/-- R212, R213, R228, R233: a claim ties an unclaimed name to the lowest free physical slot, which then holds zero bytes, with status
0; a name that is claimed gives status 1, and a store with no free slot status 2. A release unties a claimed name, once no matrix
instruction reads the slot any more. The status is on the scoreboard for 8 cycles. -/
def Obligations.SlotClaims : Prop :=
  let status (i : Instr) (n : Ins) (s : State) (w : Work) (e : Ensemble) (v : Word) : Prop := ∃ t x, exec i s = .next t
    ∧ Completes s { w with E := e } [] 0#32 [w.pendOf false 0 0#32 (w.outsOf n 1 w.act fun _ _ => v)] (nextWord n w) t x
    ∧ ⟨s.now + 8, .scoreboardResultWrite w.tid s.tick⟩ ∈ t.agenda
  let others (e e' : Ensemble) (b : Bool) (k : Nat) : Prop :=
    (∀ c j, (c ≠ b ∨ j ≠ k) → e'.slot c j = e.slot c j) ∧ e' = { e with aSlots := e'.aSlots, bSlots := e'.bSlots }
  let claim (b : Bool) (i : Instr) (n : Ins) : Prop := ∀ s w, issues n s w →
    let k := n.mod % 8
    ((w.E.slot b k).isSome = true → status i n s w w.E 1#32)
    ∧ (w.E.slot b k = none →
      (∀ p, lowestUntied s w.E.core (Ensemble.slotsTied b) 8 p → ∃ e, status i n s w e 0#32
        ∧ e.slot b k = some { phys := p, data := [] } ∧ others w.E e b k)
      ∧ ((∀ p, p < 8 → tiedOn s w.E.core (Ensemble.slotsTied b) p) → status i n s w w.E 2#32))
  let release (b : Bool) (i : Instr) (n : Ins) : Prop := ∀ s w, issues n s w →
    let k := n.mod % 8
    let read : Prop := ∃ m ∈ (s.core w.E.core).mats, m.ens = w.T.ens ∧ (if b then m.bslot else m.aslot) = k
      ∧ ∀ t, m.start = some t → s.now < t + m.occ
    (read → exec i s = .next w.hold)
    ∧ (¬read → (w.E.slot b k = none → status i n s w w.E 1#32)
      ∧ ((w.E.slot b k).isSome = true → ∃ e, status i n s w e 0#32 ∧ e.slot b k = none ∧ others w.E e b k))
  oneForm 0x80 .aclaim (claim false) ∧ oneForm 0x82 .bclaim (claim true)
  ∧ oneForm 0x81 .arel (release false) ∧ oneForm 0x83 .brel (release true)

/-- R213, R228, R229, R237: acczero and accwr claim an unclaimed tile, and write the rows of the active lanes, once no earlier matrix
instruction or write of the tile is under way; accrd reads the tile at its issue, and its result is written 12 + g cycles after the
tile is ready; accfree gives the tile up. -/
def Obligations.Accumulators : Prop :=
  let col (n : Ins) (w : Work) : Nat := (w.src true n n.sa 0 (lowLane w.act)).toNat
  let claimed (s : State) (w : Work) (k cycles : Nat) (e : Ensemble) : Prop := onlyTile w.E e k ∧ ∃ y, e.tiles.find? k = some y
    ∧ y.busy = s.now + cycles ∧ (∀ x, w.E.tiles.find? k = some x → y.phys = x.phys)
    ∧ (w.E.tiles.find? k = none → lowestUntied s w.E.core Ensemble.tilesTied 4 y.phys)
  let noTile (s : State) (w : Work) (k : Nat) : Prop := w.E.tiles.find? k = none ∧ ∀ p, p < 4 → tiedOn s w.E.core Ensemble.tilesTied p
  oneForm 0x88 .acczero (fun i n => ∀ s w, issues n s w →
    let k := n.mod % 4
    (tileBusy s w k → exec i s = .next w.hold)
    ∧ (¬tileBusy s w k → noTile s w k → exec i s = w.trap n { cause := 0x10, info := 272 + k })
    ∧ (¬tileBusy s w k → ¬noTile s w k → ∃ e t x, exec i s = .next t
        ∧ Completes s { w with E := e } [] 0#32 [] (nextWord n w) t x ∧ claimed s w k 8 e
        ∧ ∀ r j, r < 128 → j < 256 → tileAt e k r j = if w.act.getLsbD r then 0#32 else tileAt w.E k r j))
  ∧ oneForm 0x8A .accwr (fun i n => ∀ s w, issues n s w →
    let k := n.mod % 4
    let g := 2 ^ (n.mod / 4 % 4)
    let f := fmtOf (builtin n.fmt)
    let value (t r : Nat) : Word :=
      let x := w.src true n n.sb t r
      if n.fmt = 0 then x else BitVec.ofNat 32 (convertNum (decodeFloat f (x.toNat % 65536)) false ft0 .rne false 0).1
    (256 < col n w + g → exec i s = w.trap n { cause := 0x02 })
    ∧ (col n w + g ≤ 256 →
      (tileBusy s w k → exec i s = .next w.hold)
      ∧ (¬tileBusy s w k → noTile s w k → exec i s = w.trap n { cause := 0x10, info := 272 + k })
      ∧ (¬tileBusy s w k → ¬noTile s w k → ∃ e t x, exec i s = .next t
          ∧ Completes s { w with E := e } [] 0#32 [] (nextWord n w) t x ∧ claimed s w k (8 + g) e
          ∧ ∀ r j, r < 128 → j < 256 → tileAt e k r j =
              if w.act.getLsbD r ∧ col n w ≤ j ∧ j < col n w + g then value (j - col n w) r else tileAt w.E k r j)))
  ∧ oneForm 0x89 .accrd (fun i n => ∀ s w, issues n s w →
    let k := n.mod % 4
    let g := 2 ^ (n.mod / 4 % 4)
    let conv (t r : Nat) : Nat × Word :=
      convertNum (decodeFloat ft0 (tileAt w.E k r (col n w + t)).toNat) false (fmtOf (builtin n.fmt)) n.rnd n.sat (w.random t r)
    let mine (m : Mat) : Prop := m ∈ (s.core w.E.core).mats ∧ m.ens = w.T.ens ∧ m.tile = k
    (256 < col n w + g → exec i s = w.trap n { cause := 0x02 })
    ∧ (col n w + g ≤ 256 → w.E.tiles.find? k = none → exec i s = w.trap n { cause := 0x10, info := 16 + k })
    ∧ (col n w + g ≤ 256 → ∀ y, w.E.tiles.find? k = some y → ∃ (cs : Tab Core) (t : State) (x : Work),
      let b : Work := { w with s := { s with cores := cs } }
      exec i s = .next t
      ∧ Completes b.s b (genWrites n w g) 0#32
          [w.pendOf false 0 (orFlags ((lanesOf w.act).flatMap fun r => (List.range g).map fun t => (conv t r).2))
            (w.outsOf n g w.act fun t r => BitVec.ofNat 32 (conv t r).1)] (nextWord n w) t x
      ∧ ((∀ m, mine m → m.start.isSome = true) → cs = s.cores ∧ ∃ ready, ⟨ready + 12 + g, .scoreboardResultWrite w.tid s.tick⟩ ∈ t.agenda
          ∧ s.now ≤ ready ∧ y.busy ≤ ready ∧ (∀ m c, mine m → m.start = some c → c + 32 + m.occ ≤ ready)
          ∧ (ready = s.now ∨ ready = y.busy ∨ ∃ m c, mine m ∧ m.start = some c ∧ ready = c + 32 + m.occ))
      ∧ ((∃ m, mine m ∧ m.start = none) → ∃ m, mine m ∧ m.start = none
          ∧ { m with readers := m.readers ++ [(w.tid, s.tick, g)] } ∈ (t.core w.E.core).mats)))
  ∧ oneForm 0x8B .accfree (fun i n => ∀ s w, issues n s w →
    let k := n.mod % 4
    (tileBusy s w k → exec i s = .next w.hold)
    ∧ (¬tileBusy s w k → ∃ e t x, exec i s = .next t ∧ Completes s { w with E := e } [] 0#32 [] (nextWord n w) t x
        ∧ onlyTile w.E e k ∧ e.tiles.find? k = none))

/-- R217 to R225, R227, R235, R236: a matrix instruction waits while the array is occupied, or a copy or a write of its slots and its
tile is under way; then its operands are checked; one that passes, and whose ranges are free, puts the steps of its rows into the
tile, registers itself, and is ready 32 + O cycles after its start; mmaco starts with a cue action. -/
def Obligations.MatrixMultiply : Prop :=
  let lowWord (n : Ins) (w : Work) (o : Operand) : Nat := (w.src true n o 0 (lowLane w.act)).toNat
  let matrix (kind : MatKind) (i : Instr) (n : Ins) : Prop := ∀ s w, issues n s w →
    let fb := w.src64 true n n.sa (lowLane w.act)
    let sh := lowWord n w n.sb
    let sc := lowWord n w n.sc
    let sparse : Bool := kind = .sparse
    let waits : Prop := w.memHeld = true ∨ w.arrayHeld n = true
    (w.arrayHeld n = true ↔ (∃ m ∈ (s.core w.E.core).mats, ∀ t, m.start = some t → s.now < t + m.occ)
      ∨ s.slotWriting w.T.ens false (n.mod / 4 % 8) s.tick = true ∨ s.slotWriting w.T.ens true (n.mod / 32 % 8) s.tick = true
      ∨ ∃ x, w.E.tiles.find? (n.mod % 4) = some x ∧ s.now < x.busy)
    ∧ (waits → exec i s = .next w.hold)
    ∧ (∀ e, w.matCheck n kind = .error e →
      (¬waits → exec i s = w.trap n e) ∧ (e.cause = 0x02 ∨ e.cause = 0x06 ∨ e.cause = 0x09 ∨ e.cause = 0x10))
    ∧ (field fb 63 62 ≠ 0 ∨ field fb 23 22 ≠ 0 ∨ 2 ^ 15 ≤ sh ∨ 256 < 8 * field sh 14 10 + 8 * (field sh 4 0 + 1)
        ∨ field fb 42 24 % 16 ≠ 0 ∨ field fb 61 43 % 16 ≠ 0 ∨ (sparse = true ∧ (2 ^ 19 ≤ sc ∨ sc % 256 ≠ 0))
        ∨ (kind = .cued ∧ 63 < sc % 256) → w.matCheck n kind = .error { cause := 0x02 })
    ∧ (∀ c, w.matCheck n kind = .ok c →
      c.fa = w.fmt (field fb 5 0) ∧ c.fb = w.fmt (field fb 11 6) ∧ field fb 17 12 = 0 ∧ field fb 19 18 = c.fa.blen ∧ field fb 21 20 = c.fb.blen ∧ c.k = 16 * (field sh 9 5 + 1)
      ∧ c.n = 8 * (field sh 4 0 + 1) ∧ c.coff = 8 * field sh 14 10 ∧ c.coff + c.n ≤ 256 ∧ c.ascl = field fb 42 24
      ∧ c.bscl = field fb 61 43 ∧ (sparse = true → c.meta_ = sc)
      ∧ c.tile = n.mod % 4 ∧ c.a = n.mod / 4 % 8 ∧ c.b = n.mod / 32 % 8
      ∧ (w.E.slot false c.a).isSome = true ∧ (w.E.slot true c.b).isSome = true ∧ (w.E.tiles.find? c.tile).isSome = true
      ∧ (let twice := if sparse then 2 else 1
        (c.fa.kind = 1 → c.tx = false ∧ c.fb.kind = 1
          ∧ (c.fa.width = 16 → c.fb.width = 16 ∧ c.p = 8 * twice ∧ c.lead = 34 ∧ c.k ≤ 128)
          ∧ (c.fa.width = 8 → c.fb.width = 8 ∧ c.p = 16 * twice ∧ c.lead = 20 ∧ c.k ≤ 256)
          ∧ (c.fa.width = 4 ∨ c.fa.width = 6 → (c.fb.width = 4 ∨ c.fb.width = 6) ∧ c.p = 32 * twice ∧ c.lead = 19 ∧ c.k ≤ 512
              ∧ (c.fa.width = 6 ∨ c.fb.width = 6 → c.k ≤ 256)))
        ∧ (c.fa.kind = 1 ∨ (c.fa.kind = 5 ∧ c.tx = true ∧ c.fb.kind = 5 ∧ c.k % 32 = 0 ∧ sparse = false))))
    ∧ ∀ c, w.matCheck n kind = .ok c →
      (w.matHeld c = true → exec i s = .next w.hold)
      ∧ (¬waits → w.matHeld c = false → ∃ (cs : Tab Core) (e : Ensemble) (m : Mat) (t : State) (x : Work),
        let b : Work := { w with s := { s with cores := cs }, E := e }
        exec i s = .next t ∧ Completes b.s b [] 0#32 [] (nextWord n w) t x ∧ onlyTile w.E e c.tile
        ∧ (∀ r j, r < 128 → j < 256 → tileAt e c.tile r j =
            if w.act.getLsbD r ∧ c.coff ≤ j ∧ j < c.coff + c.n
            then BitVec.ofNat 32 (matElement w c sparse n.sat r (j - c.coff) (tileAt w.E c.tile r j).toNat).1
            else tileAt w.E c.tile r j)
        ∧ (t.core w.E.core).mats = (s.core w.E.core).mats ++ [m]
        ∧ m = { id := s.tick, ens := w.T.ens, tid := w.tid, uid := w.S.uid, tile := c.tile, aslot := c.a, bslot := c.b,
                occ := c.n / 8 * (c.k / c.p), start := if kind = .cued then none else some s.now, flags := m.flags, readers := [] }
        ∧ m.flags = orFlags ((lanesOf w.act).flatMap fun r => (if sparse && malformed w c r then flagInv else 0#32)
            :: (List.range c.n).map fun j => (matElement w c sparse n.sat r j (tileAt w.E c.tile r (c.coff + j)).toNat).2)
        ∧ (kind ≠ .cued → ⟨s.now + 32 + m.occ, .matrixTileReady w.E.core s.tick⟩ ∈ t.agenda)
        ∧ (kind = .cued → ∃ a ∈ (t.core w.E.core).acts, a.kind = .start s.tick ∧ a.cue = sc % 256 ∧ a.off = sc / 256 ∧ a.ctx = w.E.ctx))
  oneForm 0x85 .mma (matrix .dense) ∧ oneForm 0x86 .mmasp (matrix .sparse) ∧ oneForm 0x87 .mmaco (matrix .cued)

/-- R224, R227, R236: when the tile of a matrix instruction is ready its flags are merged, its ranges are released and the array
forgets it. When the cue action of an mmaco fires, it starts, and is ready 32 + O cycles later; the accrd results that waited for
that are written 12 + g cycles after. -/
def Obligations.MatrixEvents : Prop :=
  (∀ core id s, ∃ t, exec (.matrixTileReady core id) s = .next t
    ∧ (t = s ∨ t = { s with tick := t.tick, agenda := t.agenda, cores := t.cores, troupes := t.troupes })
    ∧ ∀ m, (s.core core).mats.find? (fun m => m.id = id) = some m →
        (∀ x, x ∈ (t.core core).mats ↔ x ∈ (s.core core).mats ∧ x.id ≠ id)
        ∧ (∀ x, x ∈ (t.core core).locks ↔ x ∈ (s.core core).locks ∧ x.2.owner ≠ id)
        ∧ (∀ k, k ≠ core → t.core k = s.core k)
        ∧ ∀ k, t.troupes.find? k =
            if k = m.tid then (s.troupes.find? k).map fun T => { T with tstat := T.tstat ||| m.flags } else s.troupes.find? k)
  ∧ ∀ core id s, ∃ t, exec (.mmacoStart core id) s = .next t ∧ t.mem = s.mem ∧ t.ensembles = s.ensembles
    ∧ ∀ a k m, (s.core core).acts.find? (fun a => a.id = id) = some a → a.kind = .start k →
        (s.core core).mats.find? (fun m => m.id = k) = some m →
          { m with start := some s.now, readers := [] } ∈ (t.core core).mats
          ∧ (∀ x ∈ (s.core core).mats, x.id ≠ k → x ∈ (t.core core).mats)
          ∧ (∀ x, x ∈ (t.core core).acts ↔ x ∈ (s.core core).acts ∧ x.id ≠ id)
          ∧ ⟨s.now + 32 + m.occ, .matrixTileReady core k⟩ ∈ t.agenda
          ∧ (∀ r ∈ m.readers, ⟨s.now + 32 + m.occ + 12 + r.2.2, .scoreboardResultWrite r.1 r.2.1⟩ ∈ t.agenda)
          ∧ ∀ T, s.troupes.find? a.tid = some T → a.late = true →
              ∃ T', t.troupes.find? a.tid = some T' ∧ T'.tstat = T.tstat ||| flagLate

/-! ### Cues -/

/-- R365 to R370, R374 to R377: cuearm sends an arm to the home desk; cue, its window or barrier checked, and cuewait leave an action
with the core, unless its 32 places are in use; gdset and gdclr change a guard slot and give its prior state. -/
def Obligations.Cues : Prop :=
  let low (w : Work) : Nat := lowLane w.act
  let rec_ (n : Ins) (w : Work) : Nat := (w.src true n n.sa 0 (low w)).toNat
  let act (n : Ins) (s : State) (w : Work) (kind : ActKind) : Act :=
    { id := s.tick, ctx := w.E.ctx, tid := w.tid, cue := rec_ n w % 256, off := rec_ n w / 256, fires := none, late := false, kind := kind }
  oneForm 0xB8 .cuearm (fun i n => ∀ s w, issues n s w →
    (63 < rec_ n w % 256 → exec i s = w.trap n { cause := 0x02 })
    ∧ (rec_ n w % 256 ≤ 63 → ∃ t x, exec i s = .next t ∧ Completes s w [] 0#32 [] (nextWord n w) t x
        ∧ ⟨s.now + s.lambda w.E.ctx w.E.core, .cuearmAtDesk w.E.core w.E.ctx (rec_ n w % 256) (rec_ n w / 256) (n.mod.testBit 0)⟩
            ∈ t.agenda))
  ∧ oneForm 0xB9 .cue (fun i n => ∀ s w, issues n s w →
    let x := w.E.win (n.mod / 4)
    let a := w.stageAddr n n.sb (low w)
    let full : Prop := (s.core w.E.core).actsFull = true
    let made (kind : List (Nat × Nat) → ActKind) : Prop := ∃ (c : Caches) (rs : List (Nat × Nat)) (t : State) (x : Work),
      let b : Work := { w with s := c.on s }
      exec i s = .next t ∧ Completes b.s b [] 0#32 [] (nextWord n w) t x ∧ actMade s t w.E.core (act n s w (kind rs))
    (63 < rec_ n w % 256 → exec i s = w.trap n { cause := 0x02 })
    ∧ (rec_ n w % 256 ≤ 63 →
      (n.mod % 4 = 0 → ((x.state = 0 ∨ recSlide x.record = true) → exec i s = w.trap n { cause := 0x02 })
        ∧ (x.state ≠ 0 → recSlide x.record = false → (full → exec i s = .next w.hold)
            ∧ (¬full → made fun _ => .touch (n.mod / 4) w.S.pc.toNat)))
      ∧ (n.mod % 4 = 1 → (a % 16 ≠ 0 → exec i s = w.trap n { cause := 0x07, info := low w, addr := a })
        ∧ (a % 16 = 0 → w.E.size < a + 16 → exec i s = w.trap n { cause := 0x09, info := 8, addr := a })
        ∧ (a % 16 = 0 → a + 16 ≤ w.E.size → (full → exec i s = .next w.hold)
            ∧ (¬full → made fun rs => .arr a w.T.unacked (w.E.barScope a) rs)))
      ∧ (2 ≤ n.mod % 4 → (full → exec i s = .next w.hold)
        ∧ (¬full → made fun _ => .guard (n.mod / 4) (n.mod % 4 = 2)))))
  ∧ oneForm 0xBA .cuewait (fun i n => ∀ s w, issues n s w →
    (63 < rec_ n w % 256 → exec i s = w.trap n { cause := 0x02 })
    ∧ (rec_ n w % 256 ≤ 63 → ((s.core w.E.core).actsFull = true → exec i s = .next w.hold)
      ∧ ((s.core w.E.core).actsFull = false → ∃ (cs : Tab Core) (t : State) (x : Work),
          let s0 : State := { s with cores := cs }
          exec i s = .next t ∧ Waits s0 { w with s := s0 } n (.cue s.tick) [] t x
          ∧ actMade s t w.E.core (act n s w (.wait w.S.uid)))))
  ∧ (let guard (i : Instr) (n : Ins) (v : Work → Nat) : Prop := ∀ s w, issues n s w → n.mod < 16 → ∃ q t x, exec i s = .next t
      ∧ Completes s { w with T := { w.T with qstat := q } } [] 0#32
          [w.pendOf false 0 0#32 (w.outsOf n 1 w.act fun _ _ => BitVec.ofNat 32 (bvField w.T.qstat (2 * n.mod + 1) (2 * n.mod)))]
          (nextWord n w) t x
      ∧ bvField q (2 * n.mod + 1) (2 * n.mod) = v w
      ∧ (∀ k, k < 16 → k ≠ n.mod → bvField q (2 * k + 1) (2 * k) = bvField w.T.qstat (2 * k + 1) (2 * k))
      ∧ ⟨s.now + 8, .scoreboardResultWrite w.tid s.tick⟩ ∈ t.agenda ∧ ⟨s.now, .copyStart w.tid⟩ ∈ t.agenda
    oneForm 0xBB .gdset (fun i n => guard i n fun w => if rec_ n w = 0 then 2 else 1)
    ∧ oneForm 0xBC .gdclr (fun i n => guard i n fun _ => 0))

/-- R365, R368, R369: an arm that reaches the desk replaces a pending broadcast of its cue; in its cycle the desk writes the cue and
sends it to every core on which the context is resident, and a core's copy is written one cue latency later; the actions that wait
for a point take it. -/
def Obligations.CueBroadcasts : Prop :=
  (∀ s core c cue off clear, ∃ t, exec (.cuearmAtDesk core c cue off clear) s = .next t
    ∧ t = { s with tick := t.tick, agenda := t.agenda, contexts := t.contexts }
    ∧ (∀ k, t.contexts.find? k = if k = c then (s.contexts.find? c).map fun x => { x with arms := x.arms.put cue ⟨s.now + off, clear, s.tick⟩ }
        else s.contexts.find? k)
    ∧ ⟨s.now + off, .cueBroadcast c cue s.tick⟩ ∈ t.agenda)
  ∧ (∀ s c cue id, ∃ t, exec (.cueBroadcast c cue id) s = .next t
    ∧ t = { s with agenda := t.agenda, contexts := t.contexts }
    ∧ ((∀ x a, s.contexts.find? c = some x → x.arms.find? cue = some a → a.id ≠ id) → t = s)
    ∧ ∀ x a, s.contexts.find? c = some x → x.arms.find? cue = some a → a.id = id → ∃ v,
        (∀ k, t.contexts.find? k = if k = c then some { x with cues := x.cues.set cue v, arms := x.arms.del cue } else s.contexts.find? k)
        ∧ v.getLsbD 63 = !a.clear
        ∧ bvField v 62 0 = (if a.clear then bvField (x.cues.get cue) 62 0 else s.cycles x.part % 2 ^ 63)
        ∧ ∀ k y, (k, y) ∈ s.cores → (y.onStage = some c ∨ c ∈ y.wings) →
            ⟨s.now + s.lambda c k, .cueCopyWrite k c cue v.toNat (!a.clear)⟩ ∈ t.agenda)
  ∧ ∀ s core c cue p set, ∃ t, exec (.cueCopyWrite core c cue p set) s = .next t
    ∧ t = { s with agenda := t.agenda, cores := t.cores } ∧ (∀ k, k ≠ core → t.core k = s.core k)
    ∧ (let old (d e : Nat) : DWord := Store.get (((s.core core).cues.find? d).getD []) e
      let new (d e : Nat) : DWord := Store.get (((t.core core).cues.find? d).getD []) e
      (∀ d e, (d ≠ c ∨ e ≠ cue) → new d e = old d e)
      ∧ (set = true → new c cue = BitVec.ofNat 64 p)
      ∧ (set = false → (new c cue).getLsbD 63 = false ∧ bvField (new c cue) 62 0 = bvField (old c cue) 62 0))
    ∧ (((s.core core).acts.map (·.id)).Nodup → ∀ a ∈ (s.core core).acts,
      (set = false ∨ a.ctx ≠ c ∨ a.cue ≠ cue ∨ a.fires.isSome = true → a ∈ (t.core core).acts)
      ∧ (set = true → a.ctx = c → a.cue = cue → a.fires = none →
          ∃ b ∈ (t.core core).acts, firesBy s t core a b (s.pointOf c (BitVec.ofNat 64 p))))

/-- R369, R375, R376: when a cue action fires it is over, and sets CUELATE if it is late. A touch is made, or sets ERR where it would
trap, or waits for a place in the queue (past a stop it takes one beyond the eighth: the model's choice, log entry 87); an arrival of count 1 is made on the barrier once the recorded writes are acknowledged; a
guard slot resolves; a cuewait goes on. -/
def Obligations.CueFirings : Prop :=
  let late (s t : State) (a : Act) : Prop := ∀ T, s.troupes.find? a.tid = some T →
    ∃ T', t.troupes.find? a.tid = some T' ∧ T'.tstat = if a.late then T.tstat ||| flagLate else T.tstat
  let held (s : State) (core id : Nat) (a : Act) : Prop := (s.core core).acts.find? (fun x => x.id = id) = some a
  (∀ core id s, ∃ t, exec (.cueTouchFire core id) s = .next t ∧ t.mem = s.mem
    ∧ ∀ a k pc T E, held s core id a → a.kind = .touch k pc → s.troupes.find? a.tid = some T → s.ensembles.find? T.ens = some E →
      let gone : Prop := (E.win k).state = 0 ∨ recSlide (E.win k).record = true
      let r := s.touch a.tid T E (BitVec.ofNat 32 pc) k 0 none
      (∀ c, (gone ∨ r = .trap c) → actEnded s t core id ∧ late s t a ∧ t.copies = s.copies
          ∧ ∃ E', t.ensembles.find? T.ens = some E' ∧ E'.win k = { E.win k with err := true } ∧ (∀ j, j ≠ k → E'.win j = E.win j)
            ∧ E' = { E with wins := E'.wins })
      ∧ (¬gone → r = .nothing → actEnded s t core id ∧ late s t a ∧ t.ensembles = s.ensembles ∧ t.copies = s.copies)
      ∧ (¬gone → r = .full → E.pos ≠ .resident → late s t a ∧ ∃ T', t.troupes.find? a.tid = some T' ∧ T'.queue = T.queue ++ [s.tick])
      ∧ (¬gone → r = .full → E.pos = .resident → actDeferred s t core a ∧ t.ensembles = s.ensembles ∧ t.troupes = s.troupes ∧ t.copies = s.copies)
      ∧ (¬gone → ∀ c, r = .start c → late s t a ∧ ∃ T', t.troupes.find? a.tid = some T' ∧ T'.queue = T.queue ++ [s.tick]))
  ∧ (∀ core id s, ∃ t, exec (.cueArrFire core id) s = .next t ∧ t.mem = s.mem
    ∧ ∀ a addr waits scope rs T E, held s core id a → a.kind = .arr addr waits scope rs → s.troupes.find? a.tid = some T →
      s.ensembles.find? T.ens = some E →
        ((∃ k ∈ T.unacked, k ∈ waits) → actDeferred s t core a ∧ t.ensembles = s.ensembles ∧ t.troupes = s.troupes)
        ∧ ((∀ k ∈ T.unacked, k ∉ waits) → addr + 16 ≤ E.size → actEnded s t core id ∧ late s t a
            ∧ ∃ E', t.ensembles.find? T.ens = some E' ∧ E'.bar addr = (barStep (E.bar addr) 1 0).1
              ∧ ∀ c, c < addr ∨ addr + 16 ≤ c → E'.stageRead c 1 = E.stageRead c 1))
  ∧ (∀ core id s, ∃ t, exec (.cueGuardFire core id) s = .next t ∧ t.mem = s.mem ∧ t.ensembles = s.ensembles
    ∧ ∀ a q v T, held s core id a → a.kind = .guard q v → s.troupes.find? a.tid = some T → q < 16 → actEnded s t core id ∧ late s t a
      ∧ ⟨s.now, .copyStart a.tid⟩ ∈ t.agenda
      ∧ ∃ T', t.troupes.find? a.tid = some T' ∧ T' = { T with qstat := T'.qstat, tstat := T'.tstat }
        ∧ bvField T'.qstat (2 * q + 1) (2 * q) = (if v then 1 else 2)
        ∧ ∀ k, k < 16 → k ≠ q → bvField T'.qstat (2 * k + 1) (2 * k) = bvField T.qstat (2 * k + 1) (2 * k))
  ∧ ∀ core id s, ∃ t, exec (.cuewaitFire core id) s = .next t ∧ t.mem = s.mem ∧ t.ensembles = s.ensembles
    ∧ ∀ a uid T, held s core id a → a.kind = .wait uid → s.troupes.find? a.tid = some T →
        actEnded s t core id ∧ late s t a ∧ goesOnPast t a.tid T uid

/-! ### Productions -/

/-- R343, R354 to R357: spawn traps at a misaligned descriptor and in a production of depth 10; it waits for the earlier accesses of its
troupe at a scope beyond it, writes back at system scope before it reads, and else gives status 3 for a descriptor outside its
limits, 2 for a full group counter or green room, and 0 or 1 where the child enters the spawn buffer or the green room; then the
parent, the launch and the group count it. -/
def Obligations.Spawn : Prop :=
  oneForm 0xB0 .spawn (fun i n => ∀ s w, issues n s w → w.memHeld = false →
    let low := lowLane w.act
    let va := w.pairAddr n low
    let scope := Scope.num n.scope
    let g := n.mod % 8
    (va % 64 ≠ 0 → exec i s = w.trap n { cause := 0x07, info := low, addr := va })
    ∧ (va % 64 = 0 → 10 ≤ (s.prod w.E.prod).depth → exec i s = w.trap n { cause := 0x0E, info := (s.prod w.E.prod).depth })
    ∧ (va % 64 = 0 → (s.prod w.E.prod).depth < 10 → ∀ m s1, ReachesOne w .load (fun _ => true) 64 [va] [m] s1 →
      (w.mayRelease scope = false → exec i s = .next w.hold)
      ∧ (w.mayRelease scope = true → scope = 5 → ∃ (k : Caches) (id : Nat) (t : State) (x : Work),
          let act : CacheAct := { id := id, tid := w.tid, uid := w.S.uid, scope := 5, release := true, acquire := false, regions := none,
                                  after := .spawn m.pa g s.tick }
          let s0 : State := k.on { s with cacheActs := s.cacheActs ++ [act] }
          exec i s = .next t
          ∧ Waits s0 { w with s := s0 } n (.cache id) [w.pendOf false 0 0#32 (w.outsOf n 1 w.act fun _ _ => 0#32)] t x)
      ∧ (w.mayRelease scope = true → scope ≠ 5 → (∀ p ∈ w.T.pend, p.id < s.tick) → (∀ k p, s.prods.find? k = some p → k < s.tick) →
        ∀ par l, s.prods.find? w.E.prod = some par → s.launches.find? par.launch = some l →
        let b := s.peek m.pa 64
        let die := w.E.core / 96
        let p := prodOfBytes b par.launch (par.depth + 1) w.T.ens g w.E.prod die
        let quota := (s.ctx l.ctx).grquota
        let green : Prop := 256 ≤ s.bufferUse die ∨ s.greenOf l.ctx ≠ []
        let status (v : Nat) (s0 : State) (e : Ensemble) (t : State) : Prop := exec i s = .next t
          ∧ (∃ x, Completes s0 { w with s := s0, E := e } [] 0#32
              [w.pendOf false 0 0#32 (w.outsOf n 1 w.act fun _ _ => BitVec.ofNat 32 v)] (nextWord n w) t x)
          ∧ ∃ due, ⟨due, .scoreboardResultWrite w.tid s.tick⟩ ∈ t.agenda
        let nothing (v : Nat) : Prop := ∃ (k : Caches) (t : State), status v (k.on s) w.E t
        (descOk b p l.hasProducer = false → nothing 3)
        ∧ (descOk b p l.hasProducer = true → w.E.groups.get g = 65535 → nothing 2)
        ∧ (descOk b p l.hasProducer = true → w.E.groups.get g ≠ 65535 → green → bvField quota 15 0 ≤ bvField quota 31 16 → nothing 2)
        ∧ (descOk b p l.hasProducer = true → w.E.groups.get g ≠ 65535 → (green → bvField quota 31 16 < bvField quota 15 0) →
          ∃ (h : Caches) (m' : Memory) (ps : Tab Prod) (ls : Tab Launch) (xs : Tab Context) (pt : Tab Part) (t : State) (k : Nat)
            (c : Prod),
            let s0 : State := h.on { s with mem := m', prods := ps, launches := ls, contexts := xs, parts := pt }
            ((green → status 1 s0 { w.E with groups := w.E.groups.set g (w.E.groups.get g + 1) } t ∧ c.place = .green)
              ∧ (¬green → status 0 s0 { w.E with groups := w.E.groups.set g (w.E.groups.get g + 1) } t ∧ m' = s.mem ∧ xs = s.contexts
                  ∧ (c.place = .buffer die ∨ c.place = .admission die)))
            ∧ ps.find? k = some c ∧ s.prods.find? k = none ∧ c = { p with index := l.spawns + 1, place := c.place, admitted := c.admitted }
            ∧ (c.admitted = true ↔ c.place = .buffer die)
            ∧ ps.find? w.E.prod = some { par with children := par.children + 1 }
            ∧ (∀ j, j ≠ k → j ≠ w.E.prod → ps.find? j = s.prods.find? j)
            ∧ ls.find? par.launch = some { l with counter := l.counter + 1, spawns := l.spawns + 1,
                                                  hasProducer := l.hasProducer || p.producer }
            ∧ ∀ j, j ≠ par.launch → ls.find? j = s.launches.find? j))))

/-- R346, R358, R360: join and park wait while a group counter that they name is not 0, and then acquire; trig waits for the earlier
accesses of its troupe, and the first one of an ensemble of the producer triggers it, the last ensemble the launch. -/
def Obligations.JoinAndTrigger : Prop :=
  (let join (park : Bool) (i : Instr) (n : Ins) : Prop := ∀ s w, issues n s w →
    let scope := Scope.num n.scope
    let zero : Prop := ∀ k, k < 8 → n.mod.testBit k = true → w.E.groups.get k = 0
    (¬zero → ∃ t x, exec i s = .next t ∧ Waits s w n (.join n.mod scope park) [] t x)
    ∧ (zero → scope < 3 → ∃ t x, exec i s = .next t ∧ Completes s w [] 0#32 [] (nextWord n w) t x)
    ∧ (zero → 3 ≤ scope → ∃ (c : Caches) (t : State) (x : Work),
        let s0 : State := c.on { s with cacheActs := s.cacheActs ++ [⟨s.tick, w.tid, w.S.uid, scope, false, true, none, .nothing⟩] }
        exec i s = .next t ∧ Waits s0 { w with s := s0 } n (.cache s.tick) [] t x)
  oneForm 0xB1 .join (join false) ∧ oneForm 0xB3 .park (join true))
  ∧ oneForm 0xB2 .trig (fun i n => ∀ s w, issues n s w →
    (w.mayRelease 4 = false → exec i s = .next w.hold)
    ∧ (w.mayRelease 4 = true → ∀ p, s.prods.find? w.E.prod = some p →
      ((p.producer = false ∨ w.E.triggered = true) → ∃ t x, exec i s = .next t ∧ Completes s w [] 0#32 [] (nextWord n w) t x)
      ∧ (p.producer = true → w.E.triggered = false → ∃ (ls : Tab Launch) (t : State) (x : Work),
          let s0 : State := { s with prods := s.prods.put w.E.prod { p with trigs := p.trigs + 1 }, launches := ls }
          exec i s = .next t ∧ Completes s0 { w with s := s0, E := { w.E with triggered := true } } [] 0#32 [] (nextWord n w) t x
          ∧ (p.trigs + 1 ≠ p.gx * p.gy * p.gz → ls = s.launches)
          ∧ (p.trigs + 1 = p.gx * p.gy * p.gz → (∀ j, j ≠ p.launch → ls.find? j = s.launches.find? j)
              ∧ (∀ l, s.launches.find? p.launch = some l → ls.find? p.launch = some { l with triggered := true })
              ∧ ∀ j l, (j, l) ∈ ls → l.started = false → ⟨s.now, .launchStart j⟩ ∈ t.agenda))))

/-! ### Overlays -/

/-- R67, R68, R73, R74: ovld puts its status on the scoreboard: 2 for an identifier or a directory entry outside the limits, 0 for an
overlay that a slot holds; else it waits for the copy of the same overlay that is in flight, or takes a slot, whose tag is discarded
first, and copies, or waits with a fault record; a copy that completes fills and tags the slot and gives status 1. Image load keeps the status of an image, and an accepted image is within the limits. -/
def Obligations.OverlayLoads : Prop :=
  oneForm 0xB5 .ovld (fun i n => ∀ s w, issues n s w → (∀ p ∈ w.T.pend, p.id < s.tick) → (∀ f ∈ s.faultWaits, f.id < s.tick) →
    let k := (w.src true n n.sa 0 (lowLane w.act)).toNat
    let core := w.E.core
    ∃ t x p, exec i s = .next t ∧ t.work w.tid w.ent = some x ∧ x.S.pc = (nextWord n w).pc ∧ (∀ r l, x.now r l = w.now r l)
      ∧ x.E = w.E ∧ x.T.pend = w.T.pend ++ [p] ∧ t.mem = s.mem ∧ (∀ j, j ≠ w.tid → t.troupes.find? j = s.troupes.find? j)
      ∧ (let status (v : Word) : Prop := p = w.pendOf false 0 0#32 (w.outsOf n 1 w.act fun _ _ => v)
          ∧ ⟨s.now, .scoreboardResultWrite w.tid s.tick⟩ ∈ t.agenda
        (4096 ≤ k → status 2#32)
        ∧ (k < 4096 → ∀ c, s.ctxSeen core w.E.ctx = some c →
          let r := s.translate core none c.ptbr.toNat c.ctxid.toNat w.T.sup .ovld (65536 * bvField c.odir 59 16 + 16 * k)
          let held : Prop := ((s.core core).slotOf w.E.ctx k).isSome = true
          let flying : Prop := ∃ y ∈ s.ovlLoads, y.id ≠ s.tick + 1 ∧ y.core = core ∧ y.ctx = w.E.ctx ∧ y.ovl = k ∧ y.slot.isSome = true
          let waits : Prop := ∃ l ∈ t.ovlLoads, l.id = s.tick + 1 ∧ l.slot = none ∧ l.ovl = k ∧ l.ctx = w.E.ctx ∧ l.dst = some s.tick
          (∀ m, r.2 = .error m → (held → status 0#32) ∧ (¬held → flying → waits ∧ t.faultWaits = s.faultWaits)
            ∧ (¬held → ¬flying → ∃ f ∈ t.faultWaits, f.waiter = .ovld (s.tick + 1) ∧ f.acc = 3 ∧ f.cause = m.cause ∧ f.reason = m.reason
                ∧ f.pc = w.S.pc))
          ∧ ∀ m, r.2 = .ok m →
            let e := leNat (s.peek m.pa 16)
            let size := field e 112 96
            let valid : Prop := e.testBit 127 = true ∧ field e 126 113 = 0 ∧ field e 95 60 = 0 ∧ field e 5 0 = 0 ∧ 4 ≤ size
              ∧ size ≤ 65536 ∧ size % 4 = 0
            (¬valid → status 2#32) ∧ (valid → held → status 0#32) ∧ (valid → ¬held → flying → waits ∧ t.faultWaits = s.faultWaits)
            ∧ (valid → ¬held → ¬flying → ∀ j, (s.core core).pickSlot = some j → (s.core core).slots.length = 4 →
              let s2 := (r.1.noteRead m.pa).modCore core fun x => x.modSlot j fun y => { y with tag := none, code := [] }
              let q := (s2.codePages core c.ptbr.toNat c.ctxid.toNat w.T.sup (pagesOf (field e 59 0) size)).2
              (∀ pages, q = .ok pages →
                ∃ l ∈ t.ovlLoads, l.slot = some j ∧ l.ovl = k ∧ l.ctx = w.E.ctx ∧ l.dst = some s.tick ∧ l.pages = pages ∧ l.size = size
                  ∧ (∃ due, ⟨due, .ovldCopyComplete l.id⟩ ∈ t.agenda)
                  ∧ (t.core core).slots[j]?.map (fun x => (x.tag, x.filling)) = some (none, true))
              ∧ ∀ va z, q = .error (va, z) → waits
                ∧ (∃ f ∈ t.faultWaits, f.waiter = .ovld (s.tick + 1) ∧ f.acc = 3 ∧ f.va = va ∧ f.cause = z.cause ∧ f.pc = w.S.pc)
                ∧ (t.core core).slots[j]?.map (·.tag) = some none))))
  ∧ (∀ id s, ∃ t, exec (.ovldCopyComplete id) s = .next t
    ∧ ∀ l k x, s.ovlLoads.find? (fun l => l.id = id) = some l → l.slot = some k → (∀ pa ∈ l.pages, s.mapWaits pa = false) →
      (s.core l.core).slots[k]? = some x →
        (∀ y ∈ t.ovlLoads, y.id ≠ id)
        ∧ ((∀ pa ∈ l.pages, s.isFenced pa = false) →
          (∃ y, (t.core l.core).slots[k]? = some y ∧ y.tag = some (l.ctx, l.ovl) ∧ y.filling = false
            ∧ y.code = s.peekPages (l.pages.headD 0 % 4096) l.size l.pages)
          ∧ ∀ d T, l.dst = some d → s.troupes.find? l.tid = some T → s.sameLoads l = [] →
              t.troupes.find? l.tid = some (T.fillPend d 1#32) ∧ ⟨s.now, .scoreboardResultWrite l.tid d⟩ ∈ t.agenda)
        ∧ ((∃ pa ∈ l.pages, s.isFenced pa = true) → ∀ d T, l.dst = some d → s.troupes.find? l.tid = some T → s.sameLoads l = [] →
            t.troupes.find? l.tid = some (T.fillPend d 2#32) ∧ ⟨s.now, .scoreboardResultWrite l.tid d⟩ ∈ t.agenda
            ∧ ∃ y, (t.core l.core).slots[k]? = some y ∧ y.tag = none ∧ y.filling = false))
  ∧ (∀ n b launched s, ∃ t, exec (.imageLoad n b launched) s = .next t
    ∧ t = { s with images := s.images.put n { status := imageStatus b launched, bytes := b } })
  ∧ ∀ b launched, imageStatus b launched ≤ 7
    ∧ ((imgField b 0 4 ≠ 0x494B5645 ∨ imgField b 6 2 ≠ 64) → imageStatus b launched = 1)
    ∧ (imageStatus b launched = 0 →
      imgField b 0 4 = 0x494B5645 ∧ imgField b 6 2 = 64 ∧ imgField b 5 1 = 1 ∧ imgField b 4 1 ≤ 3
      ∧ ((imgOverlays b).map fun e => imgField b e 2).Nodup
      ∧ (∀ e ∈ imgOverlays b, imgField b e 2 < 4096 ∧ 4 ≤ imgField b (e + 4) 4 ∧ imgField b (e + 4) 4 ≤ 65536
          ∧ imgField b (e + 4) 4 % 4 = 0 ∧ imgField b (e + 8) 4 % 64 = 0 ∧ imgField b (e + 8) 4 + imgField b (e + 4) 4 ≤ b.length)
      ∧ (launched = true → ∃ e ∈ imgOverlays b, imgField b e 2 = field (imgField b 8 4) 27 16
          ∧ field (imgField b 8 4) 15 0 < imgField b (e + 4) 4)
      ∧ 8 ≤ imgField b 0x10 2 ∧ imgField b 0x10 2 ≤ 256 ∧ imgField b 0x10 2 % 8 = 0 ∧ imgField b 0x12 1 ≤ 64
      ∧ 1 ≤ imgField b 0x13 1 ∧ imgField b 0x13 1 ≤ 16 ∧ imgField b 0x14 4 ≤ 524288 ∧ imgField b 0x14 4 % 256 = 0
      ∧ (∀ f ∈ imgFormats b, 16 ≤ f.1) ∧ ∀ x ∈ imgWindows b, x.1 ≤ 31)

/-! ### Traps -/

/-- R27, R53, R70, R386, R389, R390, R411: taking a trap, and what takes one: trap, sysc and bkpt, an undefined word, a fetch beyond the
overlay and an overlay that no slot holds. The record has the layout of R389. -/
def Obligations.Traps : Prop :=
  (∀ s w c x a, s.work w.tid w.ent = some w → MayTrap s w c → ∃ t, s.takeTrap w.tid w.ent x a = .next t ∧ Trapped s w c x a t)
  ∧ (∀ T ent p x a, let r := trapRecord T ent p x a
      let at_ (off n v : Nat) : Prop := leNat ((r.drop off).take n) = v % 256 ^ n
      r.length = 4096 ∧ at_ 0x000 1 x.cause ∧ at_ 0x001 1 (if T.tstat.getLsbD 16 then 1 else 0) ∧ at_ 0x002 1 ent ∧ at_ 0x003 1 x.action
      ∧ at_ 0x004 1 (a.flags + if x.sysc then 2 else 0) ∧ at_ 0x005 1 a.win ∧ at_ 0x006 1 a.ilen ∧ at_ 0x008 4 a.pc.toNat
      ∧ at_ 0x010 8 x.addr ∧ at_ 0x018 8 x.info ∧ at_ 0x020 16 a.active.toNat ∧ at_ 0x030 16 x.done.toNat
      ∧ at_ 0x080 16 p.mask.toNat ∧ at_ 0x090 4 p.pc.toNat ∧ (∀ k, k < 64 → at_ (0x1C0 + 4 * k) 4 (p.scal.get k).toNat)
      ∧ (∀ l, l < 128 → at_ (0x480 + 4 * l) 4 ((T.vec .latI).at_ l).toNat ∧ at_ (0x680 + 4 * l) 4 ((T.vec .latV).at_ l).toNat
          ∧ ∀ k, k < 7 → (leNat ((r.drop (0x880 + l)).take 1)).testBit k = ((T.vec (.p k)).at_ l).getLsbD 0)
      ∧ (a.insn.length ≤ 20 → (r.drop 0x900).take a.insn.length = a.insn))
  ∧ (∀ s w c, s.issuer = some w → MayTrap s w c →
    let here (len : Nat) (insn : List Byte) : TrapAt := { pc := w.S.pc, ilen := len, insn := insn, active := w.S.mask }
    let first (i : Instr) (x : TrapInfo) (a : TrapAt) : Prop := ∃ t, exec i s = .next t ∧ Trapped s w c x a t
    (∀ word, let n := lengthOf (BitVec.ofNat 8 word.toNat)
        first (.undefinedInstruction word) { cause := 0x01 } (here n (natLE 4 word.toNat ++ (w.code.drop 4).take (n - 4))))
    ∧ first .fetchOverlayAbsent { cause := 0x0C, info := bvField w.S.pc 27 16 } (here w.fetchLen (w.code.take w.fetchLen))
    ∧ first (.fetchBeyondOverlay false) { cause := 0x01 } (here w.fetchLen (w.code.take w.fetchLen))
    ∧ ∀ n, w.S.fell = some n →
        let pc := BitVec.ofNat 32 (65536 * bvField w.S.pc 27 16 + (65536 + 4 * bvField w.S.pc 15 2 - n) % 65536)
        first (.fetchBeyondOverlay true) { cause := 0x01, info := 1, action := 1 }
          { pc := pc, ilen := n, insn := ((s.codeAt w.E.core w.E.ctx pc).getD []).take n, active := w.S.mask })
  ∧ oneForm 0xC0 .trap (fun i n => trapsTo i n fun _ => { cause := 0x13, info := n.mod, action := 1 })
  ∧ oneForm 0xC1 .sysc (fun i n => trapsTo i n fun w =>
      { cause := 0x13, info := w.src64 true n n.sa (lowLane w.act), action := 1, sysc := true })
  ∧ bothForms 0xC5 .bkpt .bkptBase (fun i n => trapsTo i n fun _ => { cause := 0x12, info := n.mod, action := 1 })

/-- R391: tret, once the handler's stores are acknowledged, restores the split's entry, the latches, the predicates and the level of
the record, and goes to the record's program counter, or past that instruction where ACTION is 1; with ACTION 0 at the trapped
instruction it issues again for the lanes not done. The split goes on in the run and at the distance of the trapped instruction, and
where the handler has left the record's shadow list alone it has the list of before, with what has landed since. (That an undefined or absent instruction is fetched anew, with no ACTIVE of its
own, is read from R389: log entry 13.) -/
def Obligations.TrapReturn : Prop :=
  bothForms 0xC2 .tret .tretBase fun i n => ∀ s w, issues n s w →
    let quiet : Prop := (∀ p ∈ w.T.pend, p.load = false) ∧ w.T.unacked = []
    let base := blockBase w.ctx w.T.block
    let num (off n : Nat) : Nat := leNat (s.peek (base + off) n)
    let pc : Word := BitVec.ofNat 32 (num 0x008 4) &&& 0x0FFFFFFC#32
    (¬quiet → exec i s = .next w.hold)
    ∧ (quiet → (∀ p ∈ w.T.allSplits, p.hand = true → p.uid = w.S.uid) → BitVec.ofNat 128 (num 0x080 16) = w.S.mask → w.T.due = [] →
      ∃ t x, exec i s = .next t ∧ t.work w.tid w.ent = some x
        ∧ x.S.mask = w.S.mask ∧ x.S.pc = (if num 0x003 1 = 1 then pcStep pc (num 0x006 1) else pc)
        ∧ x.S.past = (decide (num 0x003 1 = 1) && pastEnd pc (num 0x006 1))
        ∧ x.S.hand = false ∧ x.S.wait = .none ∧ x.S.infull = (num 0x094 4).testBit 3 ∧ x.S.fsave = BitVec.ofNat 128 (num 0x098 16)
        ∧ (∀ k, k < 64 → x.S.scal.get k = BitVec.ofNat 32 (num (0x1C0 + 4 * k) 4))
        ∧ x.S.frames = (List.range (min 16 (field (num 0x094 4) 8 4))).map (fun k =>
            { rcv := BitVec.ofNat 32 (num (0x0C0 + 16 * k) 4), forkId := BitVec.ofNat 16 (num (0x0C4 + 16 * k) 2),
              wr := BitVec.ofNat 64 (num (0x0C8 + 16 * k) 8) })
        ∧ (num 0x003 1 = 1 → x.S.redo = none)
        ∧ (num 0x003 1 = 0 → w.T.trapPc = some pc → num 0 1 ≠ 0x01 → num 0 1 ≠ 0x0C →
            x.S.redo = some (BitVec.ofNat 128 (num 0x020 16), BitVec.ofNat 128 (num 0x030 16)))
        ∧ (∀ v, w.T.saved = some v → x.S.run = v.run ∧ x.S.dist = (if num 0x003 1 = 1 then v.dist + v.adds else v.dist)
            ∧ (s.shadowKept base w.S.mask { w.S with shadow := v.written, dist := v.dist } = true → x.S.shadow = v.shadow))
        ∧ x.T.trapPc = none ∧ x.T.tstat.getLsbD 16 = ((num 0x001 1).testBit 0 && w.T.tstat.getLsbD 16)
        ∧ (∀ b, b ≠ 16 → x.T.tstat.getLsbD b = w.T.tstat.getLsbD b)
        ∧ (∀ l, l < 128 → (x.T.vec .latI).at_ l = BitVec.ofNat 32 (num (0x480 + 4 * l) 4)
            ∧ (x.T.vec .latV).at_ l = BitVec.ofNat 32 (num (0x680 + 4 * l) 4)
            ∧ ∀ k, k < 7 → ((x.T.vec (.p k)).at_ l = 1#32 ↔ (num (0x880 + l) 1).testBit k = true))
        ∧ (∀ r, r ≠ .latI → r ≠ .latV → (∀ k, r ≠ .p k) → x.T.vec r = w.T.vec r)
        ∧ x.T = { w.T with tstat := x.T.tstat, file := x.T.file, trapPc := none, saved := none, splits := x.T.splits, lastSel := x.T.lastSel,
                           selFree := x.T.selFree, parked := x.T.parked }
        ∧ x.E = w.E ∧ othersKept s t w x ∧ sameModule s t)

/-- R390 to R392, R413, R442: a trap at supervisor level, and a tret that breaks R391, end the context and report it; halt.ctx ends the
context, and halt.troupe every split of its troupe. -/
def Obligations.DoubleTrapAndHalt : Prop :=
  (∀ s w x a c, s.work w.tid w.ent = some w → w.T.tstat.getLsbD 16 = true → s.contexts.find? w.E.ctx = some c →
    ∃ t, s.takeTrap w.tid w.ent x a = .next t ∧ Terminated s t w.E.ctx ∧ reported s t (w.E.core / 96) 2 c.ctxid.toNat x.cause)
  ∧ bothForms 0xC2 .tret .tretBase (fun i n => ∀ s w c, issues n s w → (∀ p ∈ w.T.pend, p.load = false) → w.T.unacked = [] →
      s.contexts.find? w.E.ctx = some c →
      ((∃ p ∈ w.T.allSplits, p.hand = true ∧ p.uid ≠ w.S.uid)
        ∨ BitVec.ofNat 128 (leNat (s.peek (blockBase w.ctx w.T.block + 0x080) 16)) ≠ w.S.mask) →
      ∃ t, exec i s = .next t ∧ Terminated s t w.E.ctx ∧ reported s t (w.E.core / 96) 2 c.ctxid.toNat 0x80)
  ∧ bothForms 0xC6 .halt .haltBase (fun i n => ∀ s w, issues n s w →
    (w.drained = false → exec i s = .next w.hold)
    ∧ (w.drained = true → n.mod = 0 → ∃ t T, exec i s = .next t ∧ t.troupes.find? w.tid = some T
        ∧ T = { w.T with splits := [], stack := [], coming := [], parked := [], trapPc := none, saved := none, lastSel := T.lastSel, selFree := T.selFree }
        ∧ ⟨s.now, .troupeEnd w.tid⟩ ∈ t.agenda ∧ t.mem = s.mem ∧ t.contexts = s.contexts ∧ t.copies = s.copies
        ∧ (∀ k, k ≠ w.tid → t.troupes.find? k = s.troupes.find? k) ∧ ∀ k, t.ensembles.find? k = s.ensembles.find? k)
    ∧ (w.drained = true → n.mod = 1 → ∀ c, s.contexts.find? w.E.ctx = some c →
        ∃ t, exec i s = .next t ∧ Terminated s t w.E.ctx ∧ reported s t (w.E.core / 96) 2 c.ctxid.toNat 0))

/-! ### System registers -/

/-- R282, R383 to R385, R404, R412: rdsr reads every register of the table, TSTAT once no flags are outstanding; wrsr writes the fields
that are RW, and every register held per context reads back on the writing core; a write of PTBR or CTXID discards its translations.
rdcyc, rdnrg and rdid give the cycle counter, an energy account, and the place or the device (R414). -/
def Obligations.SystemRegisters : Prop :=
  let read (i : Instr) (n : Ins) (s : State) (w : Work) (len cycles v : Nat) : Prop := ∃ t x, exec i s = .next t
    ∧ Completes s w [] 0#32 [w.pendOf false 0 0#32 (w.outsOf n len w.act fun k _ => BitVec.ofNat 32 (v / 2 ^ (32 * k)))] (nextWord n w) t x
    ∧ ⟨s.now + cycles, .scoreboardResultWrite w.tid s.tick⟩ ∈ t.agenda
  oneForm 0xC3 .rdsr (fun i n => ∀ s w, issues n s w →
    let out : Prop := (∃ p ∈ w.T.pend, p.flags ≠ 0#32) ∨ ∃ m ∈ (s.core w.E.core).mats, m.tid = w.tid
    (n.mod = 0 → out → exec i s = .next w.hold)
    ∧ ((n.mod = 0 → ¬out) → read i n s w (if sysRegWidth n.mod = some 64 then 2 else 1) 12 (sysReg w w.ctx (s.prod w.E.prod) n.mod)))
  ∧ oneForm 0xC4 .wrsr (fun i n => ∀ s w, issues n s w →
    let l := lowLane w.act
    let v : DWord := BitVec.ofNat 64 (if sysRegWidth n.mod = some 64 then w.src64 true n n.sa l else (w.src true n n.sa 0 l).toNat)
    let low : Word := BitVec.ofNat 32 v.toNat
    (n.mod = 0 → ∃ (cs : Tab Core) (t : State) (x : Work),
      let s0 : State := { s with cores := cs }
      let T0 : Troupe := { w.T with tstat := (w.T.tstat &&& ~~~0x17F#32) ||| (low &&& 0x17F#32),
                                    pend := w.T.pend.map fun p => { p with flags := 0#32 } }
      exec i s = .next t ∧ Completes s0 { w with s := s0, T := T0 } [] 0#32 [] (nextWord n w) t x
      ∧ (t.core w.E.core).mats = (s.core w.E.core).mats.map fun m => if m.tid = w.tid then { m with flags := 0#32 } else m)
    ∧ (n.mod = 1 → ∃ t x, exec i s = .next t
        ∧ Completes s { w with T := { w.T with srseed := low } } [(.gen, ~~~0#128, seedOf low)] 0#32 [] (nextWord n w) t x)
    ∧ (0x40 ≤ n.mod → ∀ c, s.contexts.find? w.E.ctx = some c → ∃ (cs : Tab Core) (xs : Tab Context) (y : Context) (t : State) (x : Work),
      let s0 : State := { s with cores := cs, contexts := xs }
      exec i s = .next t ∧ Completes s0 { w with s := s0 } [] 0#32 [] (nextWord n w) t x
      ∧ (∀ k, xs.find? k = if k = w.E.ctx then some y else s.contexts.find? k)
      ∧ y = { c.setReg n.mod v with late := y.late } ∧ (∀ e ∈ y.late, e ∉ c.late → e.2.2.2 ≤ s.now + 4096)
      ∧ (t.ctxSeen w.E.core w.E.ctx).map (fun c => c.reg n.mod) = some ((c.setReg n.mod v).reg n.mod)
      ∧ ((n.mod = 0x40 ∨ n.mod = 0x41) → ∀ e ∈ (t.core w.E.core).tlb, e.ctxid ≠ c.ctxid.toNat)))
  ∧ (∀ (c : Context) k (v : DWord), 0x40 ≤ k → k ≤ 0x4F → k ≠ 0x44 → k ≠ 0x47 → k ≠ 0x49 → k ≠ 0x4A →
      (c.setReg k v).reg k = v &&& sysRegMask k)
  ∧ (∀ (c : Context) (v : DWord),
      bvField (c.setReg 0x44 v).grquota 15 0 = min (bvField v 15 0) 62463
      ∧ bvField (c.setReg 0x44 v).grquota 31 16 = bvField c.grquota 31 16
      ∧ (c.setReg 0x47 v).saven.toNat = min (bvField v 19 0) 524288
      ∧ (c.setReg 0x4A v).ckctl.getLsbD 31 = v.getLsbD 31
      ∧ bvField (c.setReg 0x4A v).ckctl 24 20 = (if 20 ≤ bvField v 24 20 then bvField v 24 20 else 20))
  ∧ bothForms 0xC7 .rdcyc .rdcycBase (fun i n => ∀ s w, issues n s w → read i n s w 2 8 (s.cycles w.ctx.part))
  ∧ bothForms 0xC8 .rdnrg .rdnrgBase (fun i n => ∀ s w, issues n s w →
      read i n s w 2 24 ((if n.mod = 0 then (s.ctx w.E.ctx).energy else (s.part (s.ctx w.E.ctx).part).energy) / 256000000))
  ∧ oneForm 0xC9 .rdid (fun i n => ∀ s w, issues n s w → read i n s w 2 12
      (if n.mod = 0 then
        w.E.core / 96 + w.E.core % 96 * 2 ^ 4 + w.T.quarter * 2 ^ 11 + w.T.slot * 2 ^ 13 + (s.ctx w.E.ctx).part * 2 ^ 18
      else 0x0E12153600010103))

/-- R77, R415: tlbinv waits until the last core has acknowledged its shootdown, in the cycle that R415 gives; a core that acknowledges has
discarded the translations covered and no others, and the overlay slots that hold code from the pages (where no copy of such code is
in flight there, which it would start again: R78). -/
def Obligations.Shootdowns : Prop :=
  oneForm 0xCA .tlbinv (fun i n => ∀ s w, issues n s w →
    let l := lowLane w.act
    let pages := (w.src true n n.sb 0 l).toNat
    let count := if n.mod = 0 then pages else 1
    (n.mod = 0 → (pages = 0 ∨ 4096 < pages) → exec i s = w.trap n { cause := 0x02 })
    ∧ ((n.mod = 0 → 1 ≤ pages ∧ pages ≤ 4096) → ∃ (ks fs : List Nat) (t : State) (x : Work),
      let y : Shoot := { id := s.tick, tid := w.tid, uid := w.S.uid, kind := n.mod, ctxid := w.ctx.ctxid.toNat,
                         addr := if n.mod = 0 then w.src64 true n n.sa l else 0, count := count, left := ks, frames := fs }
      let s0 : State := { s with shoots := s.shoots ++ [y] }
      let far := farthest w.E.core
      exec i s = .next t ∧ Waits s0 { w with s := s0 } n (.shoot s.tick) [] t x
      ∧ far ∈ ks ∧ (∀ k c, (k, c) ∈ s.cores → k ∈ ks)
      ∧ (n.mod = 0 → ∀ k c e j, (k, c) ∈ s.cores → e ∈ c.tlb → j < count →
          let va := y.addr / 4096 * 4096 + 4096 * j
          e.maps y.ctxid va = true → e.pa + va % e.span.2 ∈ fs)
      ∧ (∀ k ∈ ks, ∃ due, ⟨due, .shootdownAcknowledge k s.tick⟩ ∈ t.agenda)
      ∧ ⟨s.now + 16 + 4 * count + 2 * coreTerm w.E.core far, .shootdownAcknowledge far s.tick⟩ ∈ t.agenda))
  ∧ (∀ a k, a < 1152 → k < 1152 → coreTerm a k ≤ coreTerm a (farthest a))
  ∧ ∀ core id s, ∃ t, exec (.shootdownAcknowledge core id) s = .next t
    ∧ (s.shoots.find? (fun y => y.id = id) = none → t = s)
    ∧ ∀ y, s.shoots.find? (fun y => y.id = id) = some y →
      (∀ l ∈ s.ovlLoads, l.core = core → l.slot.isSome = true → y.takes (s.ctx l.ctx).ctxid.toNat l.base l.size l.pages = false) →
      t.mem = s.mem ∧ t.ensembles = s.ensembles ∧ (∀ k, k ≠ core → t.core k = s.core k)
      ∧ ((∃ k c, (k, c) ∈ s.cores ∧ k = core) → ∀ (j : Nat) (z : OvlSlot), (s.core core).slots[j]? = some z →
          (t.core core).slots[j]? = some
            (if z.tag.isSome && y.takes z.ctxid z.base z.code.length z.pages then { OvlSlot.empty with filling := z.filling } else z))
      ∧ (∀ e, e ∈ (t.core core).tlb ↔ e ∈ (s.core core).tlb ∧ ¬shotDown y e)
      ∧ ((∃ k ∈ y.left, k ≠ core) → { y with left := y.left.filter (· ≠ core) } ∈ t.shoots ∧ t.troupes = s.troupes)
      ∧ ((∀ k ∈ y.left, k = core) → (∀ x ∈ t.shoots, x.id ≠ id)
          ∧ ∀ T, s.troupes.find? y.tid = some T → goesOnPast t y.tid T y.uid)

/-! ### Replayable faults -/

/-- R286 to R289, R393, R446: the fault unit writes its records in order while the ring has room, each with the fields of R288; a reply that names
no open group changes nothing but FRSTAT; a replay closes the group and makes its waiters eligible 16 cycles later, when a parked
instruction issues again for the lanes not done, and a parked copy asks for its units that have not landed; a reply that raises makes
a waiting instruction trap, with its DONE. (Both are said where no other parked instruction of the troupe waits beside it: R304.) Once
verification has failed no register responds. A report of an abandoned copy or overlay load is a trap of the split of lowest entry, or
waits there for tret while a handler runs; with no troupe left it ends the context. -/
def Obligations.FaultService : Prop :=
  (∀ d s, ∃ t, exec (.faultRecordWrite d) s = .next t
    ∧ let x := s.die d
      let size := 2 ^ bvField x.fqcfg 4 0
      ((x.records = [] ∨ size ≤ (x.fqtail - x.fqhead).toNat) → t = s)
      ∧ ∀ r rest, x.records = r :: rest → (x.fqtail - x.fqhead).toNat < size →
        storedAt s t (4096 * bvField x.fqcfg 51 12 + 64 * (x.fqtail.toNat % size)) r ∧ onlyMemory s t
        ∧ t.die d = { x with records := rest, fqtail := x.fqtail + 1 } ∧ ∀ k, k ≠ d → t.die k = s.die k)
  ∧ (∀ f seq token, let r := faultRecord f seq token
      let at_ (off n v : Nat) : Prop := leNat ((r.drop off).take n) = v % 256 ^ n
      r.length = 64 ∧ at_ 0x00 8 f.va ∧ at_ 0x08 4 f.ctxid ∧ at_ 0x0C 1 f.cause ∧ at_ 0x0D 1 f.reason ∧ at_ 0x0E 1 f.level
      ∧ at_ 0x0F 1 f.acc ∧ at_ 0x10 1 (f.core / 96) ∧ at_ 0x11 1 (f.core % 96) ∧ at_ 0x12 1 f.slot ∧ at_ 0x13 1 f.win
      ∧ at_ 0x14 4 f.pc.toNat ∧ at_ 0x18 4 seq.toNat ∧ at_ 0x1C 4 token.toNat ∧ at_ 0x20 16 f.lanes.toNat ∧ at_ 0x30 16 f.done.toNat)
  ∧ (∀ d v s, ∃ t, exec (.fqheadWrite d v) s = .next t ∧ t = { s with agenda := t.agenda, dies := t.dies }
    ∧ (s.bootstat = 2 → t = s) ∧ (s.bootstat ≠ 2 → t.die d = { s.die d with fqhead := v } ∧ (∀ k, k ≠ d → t.die k = s.die k)
    ∧ ((s.die d).records ≠ [] → ⟨s.now, .faultRecordWrite d⟩ ∈ t.agenda)))
  ∧ (let closed (s t : State) (d : Nat) : Prop := t = { s with dies := t.dies } ∧ t.die d = { s.die d with frstat := 1 }
      ∧ ∀ k, k ≠ d → t.die k = s.die k
    (∀ d token s, ∃ t, exec (.frplyReplay d token) s = .next t ∧ (s.bootstat = 2 → t = s) ∧ (s.bootstat ≠ 2 →
      ((∀ g ∈ (s.die d).groups, g.token ≠ token) → closed s t d)
      ∧ ((∃ g ∈ (s.die d).groups, g.token = token) →
        t.mem = s.mem ∧ t.troupes = s.troupes ∧ t.copies = s.copies ∧ (t.die d).frstat = 0#32
        ∧ (∀ f ∈ s.faultWaits, f.core / 96 = d → f.token = some token → ⟨s.now + 16, .parkedReplay f.id⟩ ∈ t.agenda)
        ∧ ((s.faultWaits.map (·.id)).Nodup → ∀ f ∈ s.faultWaits, f.core / 96 = d → f.token = some token →
            { f with token := none, closing := true } ∈ t.faultWaits)
        ∧ ((∀ f ∈ s.faultWaits, f.token.isSome = true ∨ f.closing = true) →
            (t.die d).groups = (s.die d).groups.filter fun g => g.token ≠ token))))
    ∧ ∀ d token s, (s.bootstat = 2 → exec (.frplyRaise d token) s = .next s) ∧ (s.bootstat ≠ 2 → ((∀ g ∈ (s.die d).groups, g.token ≠ token) → ∃ t, exec (.frplyRaise d token) s = .next t ∧ closed s t d)
      ∧ ∀ f w c p, (∃ g ∈ (s.die d).groups, g.token = token) → (s.faultWaits.filter fun g => g.core / 96 = d ∧ g.token = some token) = [f] →
        f.waiter = .instr w.tid w.S.uid → s.work w.tid w.ent = some w → MayTrap s w c → w.T.trapPc = none →
        (∀ q ∈ w.T.parked, q.uid ≠ w.S.uid → ∃ g ∈ s.faultWaits, g.waiter = .instr w.tid q.uid) →
        (∀ e ∈ w.T.splits, e.2.uid = w.S.uid → e = (w.ent, w.S)) → w.T.parked.find? (fun q => q.uid = w.S.uid) = some p →
        ∃ (ds : Tab Die) (fs : List FaultWait) (t : State),
          exec (.frplyRaise d token) s = .next t ∧ (t.die d).frstat = 0#32
          ∧ Trapped { s with dies := ds, faultWaits := fs } w c
              { cause := f.cause, info := f.reason + 256 * f.level + 65536 * f.acc, addr := f.va, done := p.done }
              { pc := p.pc, ilen := p.insn.length, insn := p.insn, active := p.active } t))
  ∧ (∀ (s : State) tid ens ctx win pc cause reason level acc va,
    let d : Due := { cause := cause, info := reason + 256 * level + 65536 * acc + 2 ^ 32 * pc, addr := va, win := win }
    let hears (t : State) : Prop := s.deliver tid ens ctx win pc cause reason level acc va = .next t
    (s.hearer tid ens = none → ∃ t, hears t ∧ Terminated s t ctx
      ∧ ∀ x E, s.contexts.find? ctx = some x → s.ensembles.find? ens = some E → reported s t (E.core / 96) 2 x.ctxid.toNat cause)
    ∧ ∀ h T k p, s.hearer tid ens = some h → s.troupes.find? h = some T → T.lowest = some (k, p) →
      (T.trapPc ≠ none → p.hand = false → (∀ c, p.wait ≠ .entry c) →
        hears { s with troupes := s.troupes.put h { T with due := T.due ++ [d] } })
      ∧ (T.trapPc = none → (∀ q ∈ T.allSplits, q.uid = p.uid → q.state ≠ 2) → ∀ w c, s.work h k = some w → MayTrap s w c →
        ∃ t, hears t ∧ Trapped s w c { cause := cause, info := d.info, addr := va, done := w.nextActive.2 }
          { pc := w.S.pc, ilen := max 4 w.insn.length, insn := w.insn, active := w.nextActive.1,
            adds := (w.ahead.map fun n => 1 + n.stall).getD 0, flags := 1, win := win } t))
  ∧ ∀ id s, ∃ t, exec (.parkedReplay id) s = .next t ∧ ∀ f, s.faultWaits.find? (fun f => f.id = id) = some f →
    (∀ tid uid T p, f.waiter = .instr tid uid → s.troupes.find? tid = some T → T.parked.find? (fun q => q.uid = uid) = some p →
      (∀ q ∈ T.parked, q.uid ≠ uid → ∃ g ∈ s.faultWaits, g.id ≠ id ∧ g.waiter = .instr tid q.uid) →
      (∀ g ∈ t.faultWaits, g.id ≠ id) ∧ t.mem = s.mem ∧ (∀ k, k ≠ tid → t.troupes.find? k = s.troupes.find? k)
      ∧ ∃ T', t.troupes.find? tid = some T'
        ∧ T' = { T with splits := T'.splits, stack := T'.stack, coming := T'.coming, parked := T'.parked }
        ∧ (∀ k, T'.splits.find? k = (T.splits.find? k).map fun x =>
            if x.uid = uid then { x with redo := some (p.active, p.done), earliest := max x.earliest s.now } else x)
        ∧ (T.trapPc = none → T'.parked = T.parked.map fun q => if q.uid = uid then { q with go := true } else q))
    ∧ ∀ n c, f.waiter = .copy n → s.copies.find? n = some c → ∃ d, t.copies.find? n = some d
        ∧ d = { c with parked := false, sent := d.sent, shift := d.shift, todo := d.todo }
        ∧ (c.started.isSome = true → c.landed ≤ c.units → d.sent = min c.units (c.landed + 64))
        ∧ (c.ordered = false → ∀ j, c.landed ≤ j → j < d.sent → c.hasLanded j = false → ∃ due, ⟨due, .sectorLanding n j⟩ ∈ t.agenda)
        ∧ t.mem = s.mem ∧ t.troupes = s.troupes

/-! ### The front ends -/

/-- R332 to R335, R337 to R339, R341, R342, R441: a doorbell, the mapping of a queue, and the packet at its head: what is wrong stops the
queue; a nop is complete at its start; a wait packet whose condition does not hold leaves the queue waiting, with the packet's condition, and is evaluated again;
a signal packet applies its operation to its word; a format preload sends its writes and completes when every copy has applied them; a
launch enters the matcher with its
dependences. -/
def Obligations.QueuePackets : Prop :=
  (∀ q s, ∃ t, exec (.doorbell q) s = .next t ∧ t = { s with agenda := t.agenda }
    ∧ ((s.bootstat = 2 ∨ s.qState q = 0 ∨ s.qState q = 4) → t = s)
    ∧ (s.bootstat ≠ 2 → q < 65536 → s.qState q = 3 → ⟨s.now, .waitPacketReevaluate q⟩ ∈ t.agenda)
    ∧ (s.bootstat ≠ 2 → q < 65536 → s.qState q ≠ 0 → s.qState q ≠ 3 → s.qState q ≠ 4 → ⟨s.now, .queueMap q⟩ ∈ t.agenda))
  ∧ (∀ q s, ∃ t, exec (.queueMap q) s = .next t
    ∧ ((s.queue q).slot = none →
      ((s.qState q ≠ 1 ∨ s.qGet q 0x10 8 = s.qGet q 0x18 8 ∨ s.qStopped q = true) → t = s)
      ∧ (s.qState q = 1 → s.qGet q 0x10 8 ≠ s.qGet q 0x18 8 → s.qStopped q = false →
        (∀ e a, s.descError q = some (e, a) → queueStopped s t q e a)
        ∧ (s.descError q = none → ∀ d k, firstSlot s (s.qGet q 0x0B 1) d k → Inv s →
            let s1 := s.qPut q 0x20 1 2
            let hdr := pf (s1.packet q (s1.qGet q 0x18 8)) 0 2
            1 ≤ hdr % 16 → hdr % 16 ≤ 5 →
              (t.queue q).slot = some (d, k) ∧ t.qState q = 2 ∧ queueOnly s t q
              ∧ (t.queue q).level = (if (s.queue q).since = none then s.qGet q 9 1 else max (s.queue q).level (s.qGet q 9 1))
              ∧ ((s.queue q).busy = false → (s.queue q).head = none → (s.queue q).preload = false →
                  (hdr.testBit 4 = true → (s.queue q).inFlight = []) →
                    ∃ due ev, packetEvent (hdr % 16) q = some ev ∧ ⟨due, ev⟩ ∈ t.agenda)))))
  ∧ (let packet (ty : Nat) (ev : Nat → Instr) (good : State → State → Nat → Nat → List Byte → Nat → Prop) : Prop :=
      ∀ q s, ∃ t, exec (ev q) s = .next t ∧ ∀ k b c, AtHead s q ty k b c →
        (∀ e a, s.packetError q k (s.ctx c) b = some (e, a) → queueStopped s t q e a)
        ∧ (s.packetError q k (s.ctx c) b = none → good s t q k b c)
    let counted (s t : State) (q k : Nat) : Prop := Inv s → t.qGet q 0x18 8 = (k + 1) % 2 ^ 64
    packet 4 .nopPacket (fun s t q k _ _ => counted s t q k ∧ queueOnly s t q)
    ∧ packet 2 .waitPacket (fun s t q k b c => ∀ pa, q < 65536 → s.feTranslate (s.ctx c) (s.qSys q) (pf b 8 8) = some pa →
        let acq := field (pf b 0 2) 7 5
        let s1 := (s.started q k).syncRead acq pa
        let holds := acqCond (pf b 2 1) (leNat (s1.peek pa 8)) (pf b 0x10 8)
        (acq ≠ 5 → counted s t q k ∧ queueOnly s t q)
        ∧ (holds → (t.queue q).waiting = none ∧ (t.queue q).acq = max (s.queue q).acq acq)
        ∧ (¬holds → (t.queue q).slot = none ∧ (t.queue q).waiting = some pa ∧ (Inv s → t.qState q = 3)
            ∧ (t.queue q).cond = pf b 2 1 ∧ (t.queue q).value = BitVec.ofNat 64 (pf b 0x10 8) ∧ (t.queue q).wacq = acq
            ∧ ⟨s.now + 65536, .waitPacketReevaluate q⟩ ∈ t.agenda))
    ∧ packet 3 .signalPacket (fun s t q k b c => ∀ pa, s.feTranslate (s.ctx c) (s.qSys q) (pf b 8 8) = some pa →
        (pa + 8 ≤ s.qDesc q ∨ s.qDesc q + 64 ≤ pa) →
          counted s t q k
          ∧ (Inv s → t.mem.readN pa 8 = natLE 8 (relNew (pf b 2 1) (leNat (s.peek pa 8)) (pf b 0x10 8)))
          ∧ (Inv s → ∀ a, (a < s.qDesc q ∨ s.qDesc q + 64 ≤ a) → (a < pa ∨ pa + 8 ≤ a) → t.mem.read a = s.mem.read a)
          ∧ (∀ r y, (r, y) ∈ s.queues → r ≠ q → y.waiting = some pa → ⟨s.now, .waitPacketReevaluate r⟩ ∈ t.agenda)
          ∧ t.contexts = s.contexts ∧ t.cores = s.cores ∧ t.ensembles = s.ensembles ∧ t.troupes = s.troupes)
    ∧ packet 5 .formatPreloadPacket (fun s t q k b c => counted s t q k ∧ queueOnly s t q ∧ (t.queue q).preload = true
        ∧ ∀ j, j < pf b 3 1 → ∃ id ∈ (t.queue q).writes, ⟨s.now, .formatWriteAtHome c 1152 (pf b 2 1 + j) (BitVec.ofNat 64 (pf b (8 + 8 * j) 8)) id⟩ ∈ t.agenda)
    ∧ packet 1 .launchPacket (fun s t q k b c =>
        let rs := packetRanges b
        let hdr := pf b 0 2
        let d := ((s.queue q).slot.map (·.1)).getD 0
        let full : Prop := usesRanges rs = true ∧ 256 ≤ (s.launches.filter fun l => l.2.die = d && usesRanges l.2.ranges).length
        t.mem = s.mem ∧ queueOnly s t q ∧ (full → t.launches = s.launches)
        ∧ (¬full → ∃ l, (∀ j, t.launches.find? j = if j = s.tick then some l else s.launches.find? j)
          ∧ l = { seq := 0, spawns := 0, ctx := c, queue := q, index := k, die := d, counter := 0, regs := 8 * pf b 2 1,
                  scalars := pf b 3 1, stage := 256 * pf b 4 2, seedProd := (pf b 6 1).testBit 0, entry := BitVec.ofNat 32 (pf b 8 4),
                  energy := pf b 0x0C 4, args := BitVec.ofNat 64 (pf b 0x10 8), sig := BitVec.ofNat 64 (pf b 0x18 8),
                  acq := field hdr 7 5, rel := field hdr 10 8, wide := max (field hdr 7 5) (s.queue q).acq, ranges := rs,
                  deps := l.deps, admitted := false, started := false, hasProducer := (pf b 6 1).testBit 0, triggered := false }
          ∧ (t.queue q).head = some s.tick ∧ ⟨s.now, .launchStart s.tick⟩ ∈ t.agenda
          ∧ ∀ e f, (e, f) ∈ l.deps ↔ ∃ x, (e, x) ∈ s.launches ∧ x.ctx = c
            ∧ (let meets (a b : Nat × Nat × Bool) : Prop :=
                a ∈ rs.filterMap rangeOf ∧ b ∈ x.ranges.filterMap rangeOf ∧ a.1 < b.1 + b.2.1 ∧ b.1 < a.1 + a.2.1
                ∧ (a.2.2 = true ∨ b.2.2 = true)
              (∃ a b, meets a b) ∧ (f = true ↔ ∃ a b, meets a b ∧ a.2.2 = true)))))
  ∧ (∀ q s, (s.queue q).preload = true → ∃ t, exec (.formatPreloadPacket q) s = .next t ∧ queueOnly s t q
    ∧ (let moves : Prop := s.fmtFlying (fun _ n => (s.queue q).writes.contains n) = true
      (moves → t = s) ∧ (¬moves → (t.queue q).preload = false)))
  ∧ ∀ q s, ∃ t, exec (.waitPacketReevaluate q) s = .next t ∧ ((s.queue q).waiting = none → t = s)
    ∧ ∀ pa, (s.queue q).waiting = some pa →
      (s.qState q = 0 → t = { s with queues := t.queues } ∧ (t.queue q).waiting = none)
      ∧ (s.qState q ≠ 0 → q < 65536 →
        let acq := (s.queue q).wacq
        let s1 := s.syncRead acq pa
        let holds := acqCond (s.queue q).cond (leNat (s1.peek pa 8)) (s.queue q).value.toNat
        (holds → (t.queue q).waiting = none ∧ (t.queue q).acq = max (s.queue q).acq acq ∧ (Inv s → t.qState q = 1)
            ∧ ⟨s.now, .queueMap q⟩ ∈ t.agenda)
        ∧ (¬holds → t.queues = s.queues ∧ t.mem = s1.mem ∧ ⟨s.now + 65536, .waitPacketReevaluate q⟩ ∈ t.agenda))

/-! ### Launches, productions and placement -/

/-- R79, R340, R342, R344, R346, R348, R349, R354: a launch starts once its dependences are resolved, its estimate is admitted and a
counter is free, and is forgotten where software has disabled its queue; a troupe ends when nothing of it is outstanding, and with the last one its ensemble; a production retires when its
ensembles have ended and its children retired, and the launch completes when its counter reaches 0, with its signal; intervals,
aging and the green room. -/
def Obligations.LaunchesAndRetirement : Prop :=
  (∀ n s, ∃ t, exec (.launchStart n) s = .next t ∧ t.troupes = s.troupes ∧ t.ensembles = s.ensembles ∧ t.cores = s.cores
    ∧ ∀ l, s.launches.find? n = some l →
      let part := (s.ctx l.ctx).part
      let free : Prop := ∀ d ∈ l.deps, ∀ e, s.launches.find? d.1 = some e → d.2 = false ∧ e.triggered = true
      let x := s.part part
      let admitted : Prop := l.admitted = true ∨ l.energy = 0 ∨ x.budget = 0#64 ∨ l.energy ≤ x.left ∨ x.charged = false
      let full : Prop := 256 ≤ (s.launches.filter fun y => y.2.die = l.die && y.2.started).length
      ((l.started = true ∨ ¬free ∨ (s.qState l.queue ≠ 0 ∧ ¬admitted)) → t = s)
      ∧ (l.started = false → free → s.qState l.queue = 0 → (t.queue l.queue).slot = none ∧ (t.queue l.queue).head = none
          ∧ ((s.queue l.queue).head = some n → t.launches.find? n = none) ∧ t.prods = s.prods ∧ t.mem = s.mem)
      ∧ (l.started = false → free → s.qState l.queue ≠ 0 → admitted →
        ((t.part part).left = if l.admitted = true ∨ l.energy = 0 ∨ x.budget = 0#64 then x.left else x.left - l.energy)
        ∧ (inOrder s.launches → full → t.launches.find? n = some { l with admitted := true } ∧ t.prods = s.prods ∧ t.mem = s.mem)
        ∧ (inOrder s.launches → ¬full →
          t.launches.find? n = some { l with admitted := true, started := true, counter := 1, seq := (s.ctx l.ctx).launched }
          ∧ (∀ j, j ≠ n → t.launches.find? j = s.launches.find? j)
          ∧ (∀ j, j ≠ s.tick → t.prods.find? j = s.prods.find? j)
          ∧ (∃ p, t.prods.find? s.tick = some p ∧ p.launch = n ∧ p.depth = 1 ∧ p.parent = none ∧ p.from_ = none ∧ p.troupes = 1
            ∧ p.regs = l.regs ∧ p.scalars = l.scalars ∧ p.stage = l.stage ∧ p.entry = l.entry ∧ p.args = l.args ∧ p.producer = l.seedProd
            ∧ p.acq = l.wide ∧ p.rel = l.rel ∧ p.count = 1 ∧ p.next = 0 ∧ p.ended = 0 ∧ p.children = 0 ∧ p.place = .placed)
          ∧ ⟨s.now, .ensemblePlacement part⟩ ∈ t.agenda ∧ (Inv s → t.qGet l.queue 0x18 8 = (l.index + 1) % 2 ^ 64))))
  ∧ (∀ tid s, ∃ t, exec (.troupeEnd tid) s = .next t ∧ (∀ k, k ≠ tid → t.troupes.find? k = s.troupes.find? k)
    ∧ ∀ T E, s.troupes.find? tid = some T → s.ensembles.find? T.ens = some E →
      let quiet : Prop := T.pend = [] ∧ T.unacked = [] ∧ T.queue = [] ∧ (∀ c ∈ s.copies, c.2.tid ≠ tid) ∧ (∀ l ∈ s.ovlLoads, l.tid ≠ tid)
        ∧ ∀ k ∈ s.cores, (∀ m ∈ k.2.mats, m.tid ≠ tid) ∧ ∀ a ∈ k.2.acts, a.tid ≠ tid
      (T.allSplits ≠ [] → t = s)
      ∧ (T.allSplits = [] → ¬quiet → t = { s with agenda := t.agenda } ∧ ⟨s.now + 1, .troupeEnd tid⟩ ∈ t.agenda)
      ∧ (T.allSplits = [] → quiet → t.troupes.find? tid = none
        ∧ (∀ c, s.contexts.find? E.ctx = some c → ∃ c', t.contexts.find? E.ctx = some c' ∧ ∀ b, b ∈ c'.blocks ↔ b ∈ c.blocks ∧ b ≠ T.block)
        ∧ ((∃ k X, k ≠ tid ∧ (k, X) ∈ s.troupes ∧ X.ens = T.ens) → t.ensembles = s.ensembles ∧ t.prods = s.prods)
        ∧ ((∀ k X, (k, X) ∈ s.troupes → X.ens = T.ens → k = tid) →
          (∀ k, t.ensembles.find? k = if k = T.ens then none else s.ensembles.find? k)
          ∧ ∀ p, s.prods.find? E.prod = some p → ∃ p', t.prods.find? E.prod = some p' ∧ p'.ended = p.ended + 1
            ∧ p'.trigs = (if p.producer = true ∧ E.triggered = false then p.trigs + 1 else p.trigs)
            ∧ (p.ended + 1 = p.gx * p.gy * p.gz → p.children = 0 → ⟨s.now, .productionRetire E.prod⟩ ∈ t.agenda))))
  ∧ (∀ n s, ∃ t, exec (.productionRetire n) s = .next t
    ∧ (∀ k, (t.troupes.find? k).map (·.ens) = (s.troupes.find? k).map (·.ens))
    ∧ ∀ p, s.prods.find? n = some p →
      let done : Prop := p.ended = p.gx * p.gy * p.gz ∧ p.children = 0
      let tables : Prop := s.fmtFlying (fun c _ => c = s.prodCtx p) = true
      let first : Prop := (p.rel = 5 ∨ (3 ≤ p.rel ∧ tables)) ∧ p.retiring = false
      (¬done → t = s)
      ∧ (done → first → t.prods.find? n = some { p with retiring := true } ∧ t.mem = s.mem
          ∧ ∃ due, (p.rel = 5 → s.now + 40 ≤ due) ∧ (tables → s.now + 4096 ≤ due) ∧ ⟨due, .productionRetire n⟩ ∈ t.agenda)
      ∧ (done → ¬first → (∀ q x, (q, x) ∈ s.queues → x.slot.isSome = true → s.qState q ≠ 0) → t.prods.find? n = none
        ∧ (∀ e g x, p.from_ = some (e, g) → s.ensembles.find? e = some x → ∃ x', t.ensembles.find? e = some x'
            ∧ x'.groups.get g = x.groups.get g - 1 ∧ ∀ j, j ≠ g → x'.groups.get j = x.groups.get j)
        ∧ (∀ k y, p.parent = some k → k ≠ n → s.prods.find? k = some y → t.prods.find? k = some { y with children := y.children - 1 })
        ∧ ∀ l, s.launches.find? p.launch = some l →
          (2 ≤ l.counter → t.launches.find? p.launch = some { l with counter := l.counter - 1 } ∧ t.mem = s.mem)
          ∧ (l.counter = 1 → t.launches.find? p.launch = none
            ∧ (∀ j, j ≠ p.launch → t.launches.find? j = s.launches.find? j)
            ∧ ∀ pa, l.sig ≠ 0#64 → s.feTranslate (s.ctx l.ctx) (s.qSys l.queue) l.sig.toNat = some pa →
                (∀ q ∈ s.queues, pa + 8 ≤ s.qDesc q.1 ∨ s.qDesc q.1 + 64 ≤ pa) → (pa + 8 ≤ s.qDesc l.queue ∨ s.qDesc l.queue + 64 ≤ pa) →
                Inv s → t.mem.readN pa 8 = natLE 8 (leNat (s.peek pa 8) + (2 ^ 64 - 1)))))
  ∧ (∀ p s, ∃ t, exec (.energyIntervalStart p) s = .next t ∧ t = { s with agenda := t.agenda, parts := t.parts, prods := t.prods }
    ∧ (∃ due, s.now < due ∧ due ≤ s.now + 2 ^ 21 ∧ (s.cycles p + (due - s.now)) % 2 ^ 21 = 0 ∧ ⟨due, .energyIntervalStart p⟩ ∈ t.agenda)
    ∧ (let waits (x : Nat × Prod) : Prop := (∃ d, x.2.place = .admission d) ∧ (s.ctx (s.prodCtx x.2)).part = p
      ((∀ x ∈ s.prods, ¬waits x) → t.prods = s.prods ∧ t.part p = { s.part p with left := (s.part p).budget.toNat, charged := false })
      ∧ ∀ n x d, s.prods = [(n, x)] → x.place = .admission d → waits (n, x) → t.prods = [(n, { x with place := .buffer d, admitted := true })]
          ∧ ⟨s.now, .ensemblePlacement p⟩ ∈ t.agenda)
    ∧ ∀ n l, (n, l) ∈ s.launches → l.started = false → ⟨s.now, .launchStart n⟩ ∈ t.agenda)
  ∧ (∀ q s, ∃ t, exec (.priorityAging q) s = .next t
    ∧ ((s.queue q).since = none → t = s)
    ∧ ∀ c, (s.queue q).since = some c → (s.now < c + 4194304 → t = s)
      ∧ (c + 4194304 ≤ s.now → t = { s with agenda := t.agenda, queues := t.queues } ∧ ⟨s.now + 4194304, .priorityAging q⟩ ∈ t.agenda
        ∧ (∀ r, r ≠ q → t.queue r = s.queue r)
        ∧ t.queue q = { s.queue q with level := min ((s.queue q).level + 1) (if (s.qGet q 0x22 1).testBit 0 then 23 else 19),
                                       since := some s.now }))
  ∧ ∀ c s, ∃ t, exec (.greenRoomTransfer c) s = .next t ∧ t.troupes = s.troupes ∧ t.ensembles = s.ensembles
    ∧ ∀ n p rest, s.greenOf c = (n, p) :: rest →
      ((256 ≤ s.bufferUse p.origin ∨ (s.ctx c).stopped = true) → t = s)
      ∧ (s.bufferUse p.origin < 256 → (s.ctx c).stopped = false → inOrder s.prods → (s.contexts.find? c).isSome = true →
          rest.length < 65536 →
        (∃ place a, ((place = .buffer p.origin ∧ a = true) ∨ (place = .admission p.origin ∧ a = p.admitted))
          ∧ t.prods.find? n = some { p with place := place, admitted := a })
        ∧ (∀ j, j ≠ n → t.prods.find? j = s.prods.find? j)
        ∧ bvField (t.ctx c).grquota 31 16 = rest.length ∧ bvField (t.ctx c).grquota 15 0 = bvField (s.ctx c).grquota 15 0
        ∧ storedAt s t (s.ctx c).grbase.toNat (rest.flatMap fun x => x.2.bytes))

/-- R345, R350 to R352, R394 to R396: the scheduler places the first request in order that has room, a new ensemble with all its
troupes or saved ones again; a stage manager brings a context from the wings onto the stage, on command or, where it is
enabled, when nothing of the stage's context may issue. -/
def Obligations.Placement : Prop :=
  (∀ p s, ∃ t, exec (.ensemblePlacement p) s = .next t
    ∧ ((∀ e ∈ s.youngest p, (s.blocked e.1 && s.inPark e.1) = false) → ∀ r cores, r ∈ s.requests_ p → s.whereTo p r [] = some cores →
        (∀ y ∈ s.requests_ p, (s.whereTo p y []).isSome = true → y = r ∨ lexLess (s.reqKey p r) (s.reqKey p y) = true) →
      ⟨s.now, .ensemblePlacement p⟩ ∈ t.agenda
      ∧ (∀ x, s.prods.find? r.prod = some x → r.ens = [] → (s.ensembles.map (·.1)).all (· < s.tick) = true →
          (s.troupes.map (·.1)).all (· < s.tick) = true →
        t.prods.find? r.prod = some { x with next := x.next + r.count, place := .placed }
        ∧ ∀ m, m < r.count → ∃ e E, t.ensembles.find? e = some E ∧ s.ensembles.find? e = none
          ∧ cores[m]? = some E.core ∧ E.ctx = r.ctx ∧ E.prod = r.prod ∧ E.lin = r.lin + m ∧ E.member = m ∧ E.size = x.stage
          ∧ E.pos = .resident ∧ E.triggered = false ∧ (∀ g, E.groups.get g = 0)
          ∧ ∀ k, k < x.troupes → ∃ tid T S, t.troupes.find? tid = some T ∧ s.troupes.find? tid = none ∧ T.ens = e ∧ T.num = k
            ∧ T.nregs = x.regs ∧ T.nscal = x.scalars ∧ T.tstat = 0#32 ∧ T.splits = [(0, S)] ∧ S.mask = ~~~0#128 ∧ S.pc = x.entry
            ∧ s.now + (if x.parent = none then 48 else 40) ≤ S.earliest
            ∧ (∀ n l, (T.vec (.v n)).at_ l = 0#32) ∧ ∀ n, S.scal.get n = 0#32)
      ∧ (r.ens ≠ [] → r.ens.Nodup → (∀ l ∈ s.ovlLoads, ∀ x ∈ s.troupes, x.1 = l.tid → x.2.ens ∉ r.ens) →
          (∀ c ∈ s.copies, c.2.ens ∉ r.ens) → (∀ k, (s.core k).locks.length ≤ 64) →
        ∀ (i e : Nat) (E : Ensemble), r.ens[i]? = some e → s.ensembles.find? e = some E → ∃ E', t.ensembles.find? e = some E' ∧ cores[i]? = some E'.core
          ∧ E'.pos = .resident))
    ∧ (s.requests_ p = [] → (∀ e ∈ s.youngest p, (s.blocked e.1 && s.inPark e.1) = false) → t = { s with agenda := t.agenda }
        ∧ ∀ n l, (n, l) ∈ s.launches → l.started = false → ⟨s.now, .launchStart n⟩ ∈ t.agenda))
  ∧ (∀ core c s, ∃ t, exec (.contextSwitch core c) s = .next t ∧ t = { s with tick := t.tick, cores := t.cores }
    ∧ (∀ k, k ≠ core → t.core k = s.core k) ∧ (c ∉ (s.core core).wings → t = s)
    ∧ (c ∈ (s.core core).wings → (t.core core).onStage = some c ∧ s.now + 32 ≤ (t.core core).from_ ∧ (t.core core).from_ ≤ s.now + 96
        ∧ ∀ d, d ∈ (t.core core).wings ↔ d ≠ c ∧ (d ∈ (s.core core).wings ∨ (s.core core).onStage = some d)))
  ∧ ∀ core s, ∃ t, exec (.autoSwitch core) s = .next t ∧ t = { s with tick := t.tick, cores := t.cores }
    ∧ (∀ k, k ≠ core → t.core k = s.core k)
    ∧ (((s.core core).auto = false
        ∨ (∃ c, (s.core core).onStage = some c ∧ (s.hasEligible core c = true ∨ s.now < (s.core core).from_ - 1 + 64
            ∨ ∃ k T E, s.troupes.find? k = some T ∧ s.ensembles.find? T.ens = some E ∧ E.core = core ∧ E.ctx = c ∧ s.now < T.selFree - 1 + 64))
        ∨ ∀ c ∈ (s.core core).wings, s.hasEligible core c = false) → t = s)
    ∧ ((s.core core).auto = true → (∀ c, (s.core core).onStage = some c → s.hasEligible core c = false ∧ (s.core core).from_ - 1 + 64 ≤ s.now
          ∧ ∀ k T E, (k, T) ∈ s.troupes → s.ensembles.find? T.ens = some E → E.core = core → E.ctx = c → T.selFree - 1 + 64 ≤ s.now) →
        ∀ a c b, (s.core core).wings = a ++ c :: b → (∀ d ∈ a, s.hasEligible core d = false) → s.hasEligible core c = true →
          (t.core core).onStage = some c ∧ s.now + 32 ≤ (t.core core).from_ ∧ (t.core core).from_ ≤ s.now + 96)

/-! ### Stops and checkpoints -/

/-- R362, R371, R387, R397, R398, R400, R404: a stop takes every resident ensemble of its set, with the groups they belong to, and a
context all of whose ensembles it takes; no capture ends before 76 cycles have passed; a capture waits for what is outstanding,
writes the troupe blocks, and a parked ensemble leaves its core; one that is parked alone has its units saved by the engine as records
(their place in the image is the model's choice, log entry 69). A context that cannot be saved is not parked. -/
def Obligations.Stops : Prop :=
  (∀ es park s, ∃ t, exec (.stop es park) s = .next t ∧
    let set := s.wholeGroups es
    let barred : Prop := park = true ∧ ∃ e E, e ∈ set ∧ s.ensembles.find? e = some E ∧ (s.saveBar E.ctx).isSome = true
    let whole (c : Nat) : Prop := s.ensOf c ≠ [] ∧ ∀ e ∈ s.ensOf c, e ∈ set
    (barred → t = { s with agenda := t.agenda, dies := t.dies })
    ∧ (¬barred →
        (∀ e E, e ∈ set → s.ensembles.find? e = some E → (E.group = [] ∨ e ∈ E.group) ∧ ∀ k ∈ E.group, k ∈ set) →
      (∀ e E, e ∈ set → s.ensembles.find? e = some E → E.pos = .resident →
        t.ensembles.find? e = some { E with pos := .stopped park } ∧ ∃ due, s.now + 76 ≤ due ∧ ⟨due, .captureComplete e⟩ ∈ t.agenda)
      ∧ (∀ e, e ∉ set → t.ensembles.find? e = s.ensembles.find? e)
      ∧ ∀ c x, s.contexts.find? c = some x → whole c → (t.ctx c).stopped = true
        ∧ ∀ n p d, s.prods.find? n = some p → (p.place = .buffer d ∨ p.place = .admission d) → s.prodCtx p = c →
            t.prods.find? n = some { p with place := .green }))
  ∧ ∀ e s, ∃ t, exec (.captureComplete e) s = .next t ∧ ∀ E, s.ensembles.find? e = some E →
    ((E.pos = .resident ∨ ∃ b, E.pos = .saved b) → t = s)
    ∧ ∀ park, E.pos = .stopped park →
      let clear : Prop := (∀ x ∈ s.troupesOf e, x.2.unacked = [] ∧ (∀ p ∈ x.2.allSplits, p.landings = [])
          ∧ (∀ p ∈ x.2.pend, ∃ l ∈ s.ovlLoads, l.dst = some p.id) ∧ ∀ a ∈ (s.core E.core).acts, a.tid ≠ x.1)
        ∧ (∀ m ∈ (s.core E.core).mats, m.ens ≠ e) ∧ s.fmtFlying (fun c _ => c = E.ctx) = false
      let alone : Prop := park = true ∧ (s.ctx E.ctx).stopped = false
      let waits : Prop := ¬clear ∨ (alone ∧ (s.cutting.find? E.ctx).isSome = true)
      (waits → t = { s with agenda := t.agenda } ∧ ⟨s.now + 1, .captureComplete e⟩ ∈ t.agenda)
      ∧ (¬waits → t.troupes = s.troupes ∧ t.prods = s.prods
        ∧ (∀ d x, s.contexts.find? d = some x → ∃ n, t.contexts.find? d = some { x with ckLeft := n }
            ∧ (n = x.ckLeft ∨ (park = true ∧ d = E.ctx)))
        ∧ (∀ k, t.ensembles.find? k = if k = e then some { E with pos := .saved park } else s.ensembles.find? k)
        ∧ (alone → ∀ k, t.cutting.find? E.ctx = some k → k.part = true ∧ (∀ u ∈ k.todo, s.unitIn e u = true ∧ ∃ d, (u, d) ∈ k.data)
            ∧ ∃ due, ⟨due, if k.todo = [] then .cutCommit E.ctx else .unitStreamed E.ctx⟩ ∈ t.agenda)
        ∧ (Inv s → ¬alone → ((s.troupesOf e).map fun x => x.2.block).Nodup → (∀ x ∈ s.troupesOf e, ∀ p ∈ x.2.splits, p.2.shadow.length ≤ 16) →
            ∀ x ∈ s.troupesOf e, let b := s.blockBytes E x.1 x.2
              b.length = 0x4E20 ∧ t.mem.readN (blockBase (s.ctx E.ctx) x.2.block + 0x1000) 0x4E20 = b)
        ∧ (park = true → ⟨s.now, .ensemblePlacement (s.ctx E.ctx).part⟩ ∈ t.agenda)
        ∧ ((s.ctx E.ctx).stopped = true → inOrder s.ensembles →
            (∀ k F, s.ensembles.find? k = some F → F.ctx = E.ctx → k ≠ e → ∃ b, F.pos = .saved b) →
              ⟨s.now, .checkpointCut E.ctx⟩ ∈ t.agenda))

/-- R401 to R409: the units that a step writes are dirty; the cut of a context at the end of an interval and once it is captured, of its
dirty units; where it goes; the streaming of its units as records; the commit, with the end record and the image's header; resumption from the committed cut; a fenced core; SAVECOST. -/
def Obligations.Checkpoints : Prop :=
  (∀ c s, ∃ t, exec (.checkpointCut c) s = .next t ∧ ∀ x, s.contexts.find? c = some x →
    let resident : Prop := ∃ e E, (e, E) ∈ s.ensembles ∧ E.ctx = c ∧ E.pos = .resident
    ((x.terminated = true ∨ (x.stopped = false ∧ ¬resident) ∨ (x.stopped = true ∧ s.allCaptured c = false)) → t = s)
    ∧ (x.terminated = false → (s.cutting.find? c).isSome = true → (x.stopped = false → resident) → (x.stopped = true → s.allCaptured c = true) →
        t = { s with agenda := t.agenda } ∧ ⟨s.now + 1, .checkpointCut c⟩ ∈ t.agenda)
    ∧ (x.terminated = false → s.cutting.find? c = none →
      (x.stopped = false → resident → ⟨s.now + 2 ^ bvField x.ckctl 24 20, .checkpointCut c⟩ ∈ t.agenda
        ∧ (x.checkpoints = false → t = { s with agenda := t.agenda })
        ∧ (x.checkpoints = true → (t.ctx c).stopped = true
          ∧ ∀ e E, s.ensembles.find? e = some E → E.ctx = c → E.pos = .resident →
              (E.group = [] ∨ e ∈ E.group) → t.ensembles.find? e = some { E with pos := .stopped false }))
      ∧ (x.stopped = true → s.allCaptured c = true → (x.checkpoints = true ∨ s.moving c = true) →
          (∀ l ∈ s.ovlLoads, ∀ y ∈ s.troupes, y.1 = l.tid → y.2.ens ∉ s.ensOf c) →
        ∀ p, s.planCut c = some p → (∀ u ∈ p.units, s.unitFenced c u = false) →
          (∃ k, t.cutting.find? c = some k ∧ k.seq = p.seq ∧ k.half = p.half ∧ k.todo = p.units ∧ k.part = false ∧ k.ens = s.ensTab c
            ∧ k.troupes = s.troupeTab c ∧ k.ctx = x ∧ (∀ u ∈ p.units, (u, s.unitData c u) ∈ k.data)
            ∧ ∀ u ∈ s.units c, u ∉ p.units → ∀ y d, s.cuts.find? c = some y → y.unit u = some d → (u, d) ∈ k.data)
          ∧ (t.ctx c).stopped = s.moving c ∧ (t.ctx c).touched = [])))
  ∧ (∀ c (s : State) p, s.planCut c = some p →
    p.off + s.cutSize c p.units ≤ halfSize (s.ctx c).image.2
    ∧ (s.cuts.find? c = none → p.seq = 1 ∧ p.half = 0 ∧ p.off = 0 ∧ p.units = s.units c)
    ∧ ∀ k, s.cuts.find? c = some k → p.seq = k.seq + 1
      ∧ ((p.half = k.half ∧ p.off = k.end_ ∧ ∀ u, u ∈ p.units ↔ u ∈ s.units c
          ∧ (u ∈ (s.ctx c).touched ∨ k.unit u = none ∨ (u.isPiece = true ∧ k.unit u ≠ some (s.unitData c u))))
        ∨ (p.half = 1 - k.half ∧ p.off = 0 ∧ p.units = s.units c)))
  ∧ (∀ (s t : State) pages, s.markDirty t pages = { t with contexts := (s.markDirty t pages).contexts }
    ∧ (s.cuts = [] → s.cutting = [] → s.markDirty t pages = t)
    ∧ ∀ c x y, s.contexts.find? c = some x → x.checkpoints = true → (s.cuts.find? c).isSome = true → t.contexts.find? c = some y →
      (∀ u ∈ y.touched, u ∈ ((s.markDirty t pages).ctx c).touched)
      ∧ ∀ u ∈ t.units c, u.isPiece = false → t.unitData c u ≠ s.unitData c u → t.unitData c u ≠ [] →
          ((pages = true ∧ s.mem ≠ t.mem) ∨ ∀ va, u ≠ .page va) → u ∈ ((s.markDirty t pages).ctx c).touched)
  ∧ (∀ c s, ∃ t, exec (.unitStreamed c) s = .next t ∧ ∀ k u rest, s.cutting.find? c = some k → k.todo = u :: rest →
    (s.unitFenced c u = true → t.cutting.find? c = none ∧ t.mem = s.mem
      ∧ (∀ x, s.contexts.find? c = some x → ∀ v, v ∈ (t.ctx c).touched ↔ v ∈ x.touched ∨ v ∈ k.took)
      ∧ reported s t (s.homeDie (s.ctx c).part) 4 (s.ctx c).ctxid.toNat 0)
    ∧ (s.unitFenced c u = false → ∃ r data due, storedAt s t (k.ctx.imageAt k.half k.end_) r ∧ data = (k.unit u).getD []
      ∧ (let at_ (off n v : Nat) : Prop := leNat ((r.drop off).take n) = v % 256 ^ n
        r.length = 64 + data.length ∧ r.drop 64 = data ∧ at_ 0 1 u.kind.1 ∧ at_ 4 4 data.length ∧ at_ 8 8 k.seq ∧ at_ 0x20 8 u.kind.2)
      ∧ t.cutting.find? c = some { k with end_ := k.end_ + r.length, todo := rest }
      ∧ ⟨due, if rest = [] then .cutCommit c else .unitStreamed c⟩ ∈ t.agenda
      ∧ t = { s with tick := t.tick, mem := t.mem, cached := t.cached, stackDiff := t.stackDiff, agenda := t.agenda, cutting := t.cutting }))
  ∧ (∀ c s, ∃ t, exec (.cutCommit c) s = .next t ∧ ∀ k, s.cutting.find? c = some k → (k.todo ≠ [] → t = s)
    ∧ (k.todo = [] → k.part = true → t.cutting.find? c = none ∧ t = { s with cutting := t.cutting, contexts := t.contexts })
    ∧ (k.todo = [] → k.part = false → t.cutting.find? c = none ∧ t.cuts.find? c = some { k with end_ := k.end_ + 64 }
      ∧ (∀ d, d ≠ c → t.cuts.find? d = s.cuts.find? d)
      ∧ (Inv s →
        let at_ (off n v : Nat) : Prop := leNat (t.mem.readN (k.ctx.image.1 + off) n) = v % 256 ^ n
        at_ 0 4 0x4B435645 ∧ at_ 4 1 k.ctx.minor ∧ at_ 5 1 1 ∧ at_ 6 2 1 ∧ at_ 8 8 k.seq ∧ at_ 0x10 1 k.half ∧ at_ 0x18 8 (k.end_ + 64)
        ∧ at_ 0x20 4 k.ctx.ctxid.toNat ∧ leNat (t.mem.readN (k.ctx.imageAt k.half k.end_) 1) = 10)
      ∧ (∀ d, t.contexts.find? d = (s.contexts.find? d).map fun x => if d = c then { x with saves := 0 } else x)
      ∧ t = { s with mem := t.mem, cached := t.cached, stackDiff := t.stackDiff, agenda := t.agenda, cutting := t.cutting, cuts := t.cuts,
                     contexts := t.contexts }))
  ∧ (let asAt (s t : State) (c : Nat) (k : Cut) : Prop :=
      (∀ e E, k.ens.find? e = some E → inOrder k.ens → t.ensembles.find? e = some { E with pos := .saved true })
      ∧ (∀ n T, k.troupes.find? n = some T → inOrder k.troupes → t.troupes.find? n = some T)
      ∧ (∀ e E, (e, E) ∈ t.ensembles → E.ctx = c → e ∈ k.ens.map (·.1))
      ∧ (t.ctx c).stopped = false ∧ (t.ctx c).fmt = k.ctx.fmt ∧ ⟨s.now, .ensemblePlacement (s.ctx c).part⟩ ∈ t.agenda
    (∀ c s, ∃ t, exec (.resumption c) s = .next t ∧ ∀ x, s.contexts.find? c = some x → x.terminated = false → x.stopped = true →
      ((s.allCaptured c = false ∨ (s.cutting.find? c).isSome = true) →
        t = { s with agenda := t.agenda } ∧ ⟨s.now + 1, .resumption c⟩ ∈ t.agenda)
      ∧ (s.allCaptured c = true → s.cutting.find? c = none → (s.cuts.find? c = none → t = s)
        ∧ ∀ k, s.cuts.find? c = some k → asAt s t c k))
    ∧ ∀ core s, ∃ t, exec (.coreFence core) s = .next t ∧ (t.core core).fenced = true
      ∧ ((∀ e E, (e, E) ∈ s.ensembles → E.core = core → E.pos = .saved true) → t = { s with cores := t.cores }
          ∧ ∀ k, k ≠ core → t.core k = s.core k)
      ∧ ∀ c x, s.contexts.find? c = some x → (∃ e E, (e, E) ∈ s.ensembles ∧ E.core = core ∧ E.pos ≠ .saved true) →
        (∀ e E, (e, E) ∈ s.ensembles → E.core = core → E.pos ≠ .saved true → E.ctx = c) →
          (s.cuts.find? c = none → Terminated s t c ∧ reported s t (s.homeDie x.part) 2 x.ctxid.toNat 0)
          ∧ ∀ k, s.cuts.find? c = some k → asAt s t c k)
  ∧ ∀ c s, ∃ t, exec (.savecostUpdate c) s = .next t ∧ ∀ x, s.contexts.find? c = some x → (x.terminated = true → t = s)
    ∧ (x.terminated = false → t = { s with agenda := t.agenda, contexts := t.contexts }
      ∧ ⟨(s.now / 65536 + 1) * 65536, .savecostUpdate c⟩ ∈ t.agenda
      ∧ (∀ d, d ≠ c → t.contexts.find? d = s.contexts.find? d)
      ∧ ∃ y, t.contexts.find? c = some y ∧ y = { x with savecost := y.savecost }
        ∧ (let size := (s.moveBytes c + 4095) / 4096
          let clock := clockTenths (s.part x.part).setting
          let bytes := 320 * bvField s.ckshare 3 0
          bvField y.savecost 31 0 = size % 2 ^ 32
          ∧ bvField y.savecost 63 32 = min ((640 * bytes + size * 4096 * clock) / (256 * bytes)) (2 ^ 32 - 1)))

/-! ### Memory stacks and links -/

/-- R420, R423 to R425, R440: a commit of a mapping, its check after 2,112 cycles and its two refusals; an uncorrectable error fences
its page, or its stack when the list is full, and is reported; a cleared fence; heartbeats, the takeover of refresh at the fourth
mark, the reset of a base die, and scrubbing. -/
def Obligations.MemoryStacks : Prop :=
  (∀ v s, ∃ t, exec (.mapcmdCommit v) s = .next t ∧ ((s.bootstat = 2 ∨ v.getLsbD 4 = false ∨ s.mapping.isSome = true) → t = s)
    ∧ (s.bootstat ≠ 2 → v.getLsbD 4 = true → s.mapping = none → (∃ m, t.mapping = some m ∧ m.region = v.toNat % 16 ∧ m.next = s.mapNext
        ∧ m.rows.length = 44 ∧ ∀ k, k < 44 → m.rows[k]? = some (BitVec.ofNat 44 (s.mapRows.get k).toNat))
      ∧ t.mapStat = 1 ∧ ⟨s.now + 2112, .mapCheckComplete⟩ ∈ t.agenda
      ∧ t = { s with mem := t.mem, cached := t.cached, stackDiff := t.stackDiff, agenda := t.agenda, mapping := t.mapping, mapStat := 1 }))
  ∧ (∀ s, ∃ t, exec .mapCheckComplete s = .next t ∧ (s.mapping = none → t = s) ∧ ∀ m, s.mapping = some m →
    let wrong : Prop := (solveRows m.rows 0).isNone = true ∨ matrixShape (bvField m.next 61 59) m.rows = false
    let breaks : Prop := s.mapNextOk m.region m.next = false
    t.mapping = none ∧ (wrong → t.mapStat = 2) ∧ (¬wrong → breaks → t.mapStat = 3) ∧ (¬wrong → ¬breaks → t.mapStat = 0)
    ∧ (t.mapStat ≠ 0 → t = { s with mapping := none, mapStat := t.mapStat })
    ∧ (t.mapStat = 0 → t.mapRegs = s.mapRegs.set m.region m.next
      ∧ (m.rows.length = 44 → 44 * m.region + 44 ≤ s.matrices.length → ∀ k,
          t.matrices[k]? = if 44 * m.region ≤ k ∧ k < 44 * m.region + 44 then m.rows[k - 44 * m.region]? else s.matrices[k]?)))
  ∧ (∀ (s : State) r v, s.mapNextOk r v = true → v.getLsbD 63 = true →
    bvField v 61 59 ≤ 4 ∧ bvField v 58 54 % 2 ^ bvField v 61 59 = 0 ∧ bvField v 58 54 + 2 ^ bvField v 61 59 ≤ 24 ∧ bvField v 53 20 = 0
    ∧ ∀ j, j < 16 → j ≠ r → (s.mapRegs.getD j 0).getLsbD 63 = true → ∀ a b n, regionSpan (s.mapRegs.getD j 0) = some (b, n) →
        ¬(b ≤ a ∧ a < b + n ∧ bvField v 19 0 * 2 ^ 32 ≤ a ∧ a < bvField v 19 0 * 2 ^ 32 + 15 * 2 ^ (bvField v 61 59 + 32)))
  ∧ (∀ pa ctxid s, ∃ t, exec (.eccUncorrectable pa ctxid) s = .next t ∧ (s.stackOf pa = none → t = s)
    ∧ ∀ k a, s.stackOf pa = some (k, a) → pa < 2 ^ 52 →
      t = { s with agenda := t.agenda, dies := t.dies, stackTab := t.stackTab } ∧ t.isFenced pa = true ∧ reported s t (k / 2) 3 ctxid k
      ∧ (inOrder s.stackTab → (s.stack k).freeFence.isSome = true → ∀ b, b < 2 ^ 52 → b / 4096 ≠ pa / 4096 → t.isFenced b = s.isFenced b)
      ∧ (s.isFenced pa = false → (s.stack k).freeFence = none → (t.stack k).allFenced = true))
  ∧ (∀ k pa s, ∃ t, exec (.fclrWrite k pa) s = .next t ∧ t = { s with stackTab := t.stackTab } ∧ (∀ j, j ≠ k → t.stack j = s.stack j)
    ∧ t.stack k = { s.stack k with fence := (t.stack k).fence } ∧ (s.bootstat = 2 → t = s)
    ∧ (s.bootstat ≠ 2 → ∀ e, e ∈ (t.stack k).fence ↔ e ∈ (s.stack k).fence
        ∧ ¬(e.2.getLsbD 63 = true ∧ bvField e.2 51 12 = bvField (BitVec.ofNat 64 pa) 51 12)))
  ∧ (let only (s t : State) (k : Nat) : Prop :=
      t = { s with tick := t.tick, agenda := t.agenda, stackTab := t.stackTab } ∧ ∀ j, j ≠ k → t.stack j = s.stack j
    let soon (t : State) (ev : Ev) (lo : Nat) : Prop := ∃ due, lo ≤ due ∧ ⟨due, ev⟩ ∈ t.agenda
    (∀ k s, ∃ t, exec (.refreshHeartbeat k) s = .next t ∧ only s t k ∧ t.stack k = { s.stack k with beat := s.now }
      ∧ ⟨s.now + s.nsCycles k 512, .refreshHeartbeat k⟩ ∈ t.agenda ∧ ⟨s.now + s.nsCycles k 2048, .refreshTakeover k⟩ ∈ t.agenda)
    ∧ (∀ k s, ∃ t, exec (.refreshTakeover k) s = .next t
      ∧ (((s.stack k).takeover = true ∨ s.now < (s.stack k).beat + s.nsCycles k 2048) → t = s)
      ∧ ((s.stack k).takeover = false → (s.stack k).beat + s.nsCycles k 2048 ≤ s.now →
          t.stack k = { s.stack k with takeover := true } ∧ reported s t (k / 2) 6 0 k
          ∧ ∃ due, due ≤ s.now + s.nsCycles k 1900 ∧ ⟨due, .refresh k⟩ ∈ t.agenda ∧ ∀ d, ⟨d, .refresh k⟩ ∈ t.agenda → d = due))
    ∧ (∀ k s, ∃ t, exec (.refresh k) s = .next t ∧ only s t k
      ∧ t.stack k = { s.stack k with refreshes := (s.stack k).refreshes + 1 } ∧ soon t (.refresh k) (s.now + 1))
    ∧ (∀ k s, ∃ t, exec (.baseDieReset k) s = .next t ∧ only s t k
      ∧ t.stack k = { s.stack k with takeover := false, beat := s.now } ∧ soon t (.refreshHeartbeat k) s.now ∧ soon t (.scrub k) s.now)
    ∧ ∀ k s, ∃ t, exec (.scrub k) s = .next t ∧ ((s.stack k).takeover = true → t = s)
      ∧ ((s.stack k).takeover = false → only s t k ∧ t.stack k = { s.stack k with scrubbed := (s.stack k).scrubbed + 1 }
          ∧ ∃ due, s.now < due ∧ due ≤ s.now + max 1 (s.nsCycles k (s.scrub * 3600000000000) / s.codewords k) ∧ ⟨due, .scrub k⟩ ∈ t.agenda))

/-- R426, R428 to R430: a failed flit is asked for again, replayed up to 8 times, and then the link retrains, within 40 µs; a failed
retraining takes it down and completes what is outstanding with LINKDOWN; requests from the link read, write and update the
stack's bytes, or are answered with what stops them; responses are recorded once for each lane. -/
def Obligations.HelyelLinks : Prop :=
  (let retrains (s t : State) (e : Nat) : Prop := (t.stack e).link = 1
      ∧ ∃ due ok, due ≤ s.now + s.nsCycles e 40000 ∧ ⟨due, .linkRetrainComplete e ok⟩ ∈ t.agenda
   (∀ e seq s, ∃ t, exec (.flitCrcFailure e seq) s = .next t
      ∧ t = if (s.stack e).link = 0 then { s with sent := some (.nak (seq % 1024)) } else s)
    ∧ (∀ e seq s, ∃ t, exec (.flitNak e seq) s = .next t ∧ (∀ j, j ≠ e → t.stack j = s.stack j) ∧ ((s.stack e).link ≠ 0 → t = s)
      ∧ ((s.stack e).link = 0 →
        let again : Prop := (s.stack e).naks ≠ 0 ∧ (s.stack e).nakSeq = seq
        (again → 8 ≤ (s.stack e).naks → retrains s t e)
        ∧ (¬(again ∧ 8 ≤ (s.stack e).naks) → t = { s with stackTab := t.stackTab, sent := some (.flits (seq % 1024)) }
          ∧ (t.stack e).nakSeq = seq ∧ (again → (t.stack e).naks = (s.stack e).naks + 1) ∧ (¬again → (t.stack e).naks = 1)
          ∧ bvField (t.stack e).lnk 31 16 = (bvField (s.stack e).lnk 31 16 + 1) % 65536
          ∧ bvField (t.stack e).lnk 63 32 = bvField (s.stack e).lnk 63 32 ∧ bvField (t.stack e).lnk 15 0 = bvField (s.stack e).lnk 15 0)))
    ∧ (∀ e s, ∃ t, exec (.lnkctlRetrain e) s = .next t ∧ ((s.stack e).link ≠ 2 ∨ s.bootstat = 2 → t = s)
      ∧ ((s.stack e).link = 2 → s.bootstat ≠ 2 → retrains s t e)))
  ∧ (∀ e ok s, ∃ t, exec (.linkRetrainComplete e ok) s = .next t ∧ ((s.stack e).link ≠ 1 → t = s)
    ∧ ((s.stack e).link = 1 → ok = true → t = { s with stackTab := t.stackTab } ∧ t.stack e = { s.stack e with link := 0, naks := 0 })
    ∧ ((s.stack e).link = 1 → ok = false → (t.stack e).link = 2 ∧ reported s t (e / 2) 7 0 e ∧ t.mem = s.mem ∧ t.troupes = s.troupes
      ∧ ((s.requests.map (·.id)).Nodup → ∀ r ∈ s.requests, ∀ l ∈ r.lanes, field l.2 40 36 = e → r.answers.find? l.1 = none →
          ∃ r' ∈ t.requests, r'.id = r.id ∧ r'.answers.find? l.1 = some 5)))
  ∧ (∀ n lane status s, ∃ t, exec (.helyelResponse n lane status) s = .next t
    ∧ t = { s with requests := t.requests, stackTab := t.stackTab }
    ∧ ∀ r l, s.requests.find? (fun r => r.id = n) = some r → r.lanes.find? (fun l => l.1 = lane) = some l →
      (r.answers.find? lane ≠ none → t = s)
      ∧ (r.answers.find? lane = none → { r with answers := r.answers.put lane status } ∈ t.requests))
  ∧ (let serves (ev : Instr) (e perm node : Nat) (key : Word) (sla n : Nat) (atomic : Bool) (good : State → State → Nat → Prop) : Prop :=
      ∀ s, ∃ t, exec ev s = .next t ∧ (((s.stack e).link ≠ 0 ∨ requestForm atomic sla n = false) → t = s)
        ∧ ((s.stack e).link = 0 → requestForm atomic sla n = true → requestServed s t e perm node key sla n (good s t))
    (∀ e node key sla n, serves (.helyelRead e node key sla n) e 0 node key sla (32 * n) false fun s t pa =>
      sectorsOnly s t pa (32 * n) ∧ ∃ data, t.sent = some (.helyel 0 0 data) ∧ data.length = 32 * n ∧ ∀ i, i < 32 * n →
        data[i]? = some (t.stackByte (pa + i))
        ∧ (Inv s → s.cached.find? ((pa + i) / 32) = none → data[i]? = some (s.stackByte (pa + i))))
    ∧ (let writes (ev : Nat → Nat → Word → Nat → Word → List Byte → Instr) : Prop := ∀ e node key sla mask data,
        serves (ev e node key sla mask data) e 1 node key sla data.length false fun s t pa =>
          sectorsOnly s t pa data.length ∧ t.sent = some (.helyel 0 0 []) ∧ (Inv s → ∀ i, i < data.length →
            let named : Prop := data.length ≠ 32 ∨ mask.getLsbD i = true
            (named → data[i]? = some (t.stackByte (pa + i))
              ∧ (s.cached.find? ((pa + i) / 32) = none → data[i]? = some (t.mem.read (pa + i))))
            ∧ (¬named → s.cached.find? ((pa + i) / 32) = none →
                t.mem.read (pa + i) = s.mem.read (pa + i) ∧ t.stackByte (pa + i) = s.stackByte (pa + i)))
      writes .helyelWrite ∧ writes .helyelFencedWrite)
    ∧ (∀ e node key sla wide v, let n := if wide then 8 else 4
        serves (.helyelAtomicAdd e node key sla wide v) e 2 node key sla n true fun s t pa => stackUpdated s t pa n fun m => m + v.toNat)
    ∧ ∀ e node key sla wide v cmp, let n := if wide then 8 else 4
        serves (.helyelCompareAndSwap e node key sla wide v cmp) e 2 node key sla n true fun s t pa =>
          stackUpdated s t pa n fun m => if m = cmp.toNat % 2 ^ (8 * n) then v.toNat else m)

/-! ### Energy, registers and the host -/

/-- R432, R433, R436 to R438: at each fold the accounts grow by the weighted events of nine classes, a partition's by those of its contexts
too and by its dies' idle weight (counts and weights are free values, log entry 11); each application forms every partition's setting anew: the partition caps, each
met as near the top of the ladder as may be, then the module cap and the hall cap in ascending rank, each partition to the floor
before the next, then a step down for each thermal or current-limit event; CAP_CAUSE and the reports follow; a hall message
replaces the one before it, and expires. -/
def Obligations.EnergyAndCaps : Prop :=
  (∀ s, ∃ t, exec .energyFold s = .next t
    ∧ t = { s with tick := t.tick, agenda := t.agenda, contexts := t.contexts, parts := t.parts }
    ∧ ⟨(s.now / 65536 + 1) * 65536, .energyFold⟩ ∈ t.agenda
    ∧ ∃ (weight : Nat → Nat) (own other : Nat → Nat → Nat),
      let sum (n : Nat → Nat) : Nat := ((List.range 9).map fun k => weight k * n k).sum
      (∀ c, t.contexts.find? c = (s.contexts.find? c).map fun x => if x.terminated then x else { x with energy := x.energy + sum (own c) })
      ∧ ∀ p, t.parts.find? p = (s.parts.find? p).map fun x => { x with energy := x.energy
          + (((s.contexts.filter fun c => c.2.part = p && !c.2.terminated).map fun c => sum (own c.1)).sum + sum (other p)
            + 65536 * (s.diesOf p).length * weight 9) })
  ∧ (∀ s : State, inOrder s.parts → (∀ p x, s.parts.find? p = some x → x.rank < 8) →
    let a (p : Nat) : Nat := settingOf s.capSteps.1 p
    let b (p : Nat) : Nat := settingOf s.capSteps.2.1 p
    let c (p : Nat) : Nat := settingOf s.capSteps.2.2 p
    let stage (limit : Nat) (may : Part → Prop) (u v : Nat → Nat) (total : Nat) : Prop :=
      (∀ p x, s.parts.find? p = some x → u p ≤ v p ∧ v p ≤ 11 ∧ (¬may x → v p = u p))
      ∧ (total ≤ 8 * limit ∨ ∀ p x, s.parts.find? p = some x → may x → v p = 11)
      ∧ ∀ p x q y, s.parts.find? p = some x → s.parts.find? q = some y → may x → (x.rank < y.rank ∨ (x.rank = y.rank ∧ p < q)) →
          u q < v q → v p = 11
    (∀ p x, s.parts.find? p = some x → a p ≤ 11
      ∧ (x.pcap = 0 → a p = 0)
      ∧ (x.pcap ≠ 0 → (s.partPower p (a p) ≤ 8 * x.pcap ∨ a p = 11) ∧ ∀ j, j < a p → 8 * x.pcap < s.partPower p j))
    ∧ (s.moduleCap = 0 → s.capSteps.2.1 = s.capSteps.1)
    ∧ (s.moduleCap ≠ 0 → stage s.moduleCap (fun _ => True) a b (s.modulePower s.capSteps.2.1))
    ∧ (s.hall = none → s.capSteps.2.2 = s.capSteps.2.1)
    ∧ ∀ h, s.hall = some h → stage h.limit (fun x => x.rank ≤ h.rank) b c (s.modulePower s.capSteps.2.2))
  ∧ (∀ s, ∃ t, exec .capApplication s = .next t ∧ t = { s with agenda := t.agenda, parts := t.parts, dies := t.dies }
    ∧ (∃ due, s.now < due ∧ due ≤ s.now + 65536 ∧ (s.cycles (s.partOf.getD 0 0) + (due - s.now)) % 65536 = 0 ∧ ⟨due, .capApplication⟩ ∈ t.agenda)
    ∧ ∀ p x, inOrder s.parts → s.parts.find? p = some x →
      let a := settingOf s.capSteps.1 p
      let b := settingOf s.capSteps.2.1 p
      let c := settingOf s.capSteps.2.2 p
      let d := min 11 (c + x.thermal + x.current)
      let y := t.part p
      y = { x with setting := d, cause := y.cause, thermal := 0, current := 0 }
      ∧ bvField y.cause 63 61 = (if c < d then (if x.thermal = 0 then 5 else 4) else if b < c ∧ a < c then 1 else if a < c then 2
          else if 0 < a then 3 else 0)
      ∧ bvField y.cause 57 55 = min d 4 ∧ bvField y.cause 54 52 = d - 4 ∧ bvField y.cause 51 48 = 0
      ∧ ((x.setting ≠ d ∨ bvField x.cause 63 61 ≠ bvField y.cause 63 61) → bvField y.cause 47 0 = s.cycles p / 65536 % 2 ^ 48)
      ∧ (x.setting ≠ d → (s.die 0).reports.length + s.parts.length ≤ 256 →
          ∃ r ∈ (t.die 0).reports, r.code = 5 ∧ r.num = p ∧ r.info = y.cause.toNat))
  ∧ (∀ d s, (∃ t, exec (.thermalEvent d) s = .next t ∧ t = { s with parts := t.parts }
      ∧ ∀ p, t.part p = if p = s.partOf.getD d 0 then { s.part p with thermal := (s.part p).thermal + 1 } else s.part p)
    ∧ ∃ t, exec (.currentLimitEvent d) s = .next t ∧ t = { s with parts := t.parts }
      ∧ ∀ p, t.part p = if p = s.partOf.getD d 0 then { s.part p with current := (s.part p).current + 1 } else s.part p)
  ∧ (∀ limit rank expiry s, ∃ t met, exec (.setHallCap limit rank expiry) s = .next t
    ∧ t = { s with tick := t.tick, agenda := t.agenda, hall := t.hall, sent := t.sent }
    ∧ t.hall = (if limit % 65536 = 0 then none else some { limit := limit % 65536, rank := rank % 8, id := s.tick })
    ∧ t.sent = some (.hall met (s.modulePower (s.parts.map fun p => (p.1, p.2.setting)) / 8))
    ∧ (met = true ↔ (limit % 65536 = 0 ∨ t.modulePower t.capSteps.2.2 ≤ 8 * (limit % 65536)))
    ∧ (limit % 65536 ≠ 0 → expiry % 65536 ≠ 0 →
        ⟨s.now + s.nsCycles 0 (expiry % 65536 * 1000000000), .hallCapExpiry s.tick⟩ ∈ t.agenda))
  ∧ ∀ n s, ∃ t, exec (.hallCapExpiry n) s = .next t ∧ t = { s with hall := t.hall }
    ∧ ∀ h, s.hall = some h → t.hall = if h.id = n then none else some h

/-- R329, R431, R440, R442, R444 to R446, R461: the writes of the module's registers; the events that the stage managers report; the
accesses of the host and the service cores; measurement; the creation of a context from an accepted image; and reset with
bring-up. -/
def Obligations.RegistersAndHost : Prop :=
  (∀ off v s, ∃ t, exec (.registerWrite off v) s = .next t ∧ t.mem = s.mem ∧ t.contexts = s.contexts ∧ t.troupes = s.troupes
    ∧ (s.bootstat = 2 → t = s) ∧ (s.bootstat ≠ 2 → (off = 0x10 → t = { s with qtbase := v })
    ∧ (off = 0x18 → t = { s with evbase := t.evbase, agenda := t.agenda } ∧ bvField t.evbase 51 12 = bvField v 51 12
        ∧ bvField t.evbase 11 0 = 0 ∧ bvField t.evbase 63 52 = 0)
    ∧ (off = 0x38 → t = { s with evcfg := BitVec.ofNat 32 (if 6 ≤ bvField v 4 0 ∧ bvField v 4 0 ≤ 16 then bvField v 4 0 else 8) })
    ∧ (off = 0x10280 → t = { s with mapNext := v })
    ∧ (∀ n, n < 44 → off = 0x10100 + 8 * n → t = { s with mapRows := t.mapRows }
        ∧ ∀ k, (t.mapRows.get k).toNat = if k = n then bvField v 43 0 else (s.mapRows.get k).toNat)
    ∧ (∀ p, p < 12 → off = 0x20008 + 0x100 * p → (s.parts.find? p).isSome = true →
        t = { s with parts := t.parts } ∧ ∀ k, t.part k = if k = p then { s.part p with budget := v } else s.part k)
    ∧ ∀ d, d < 12 → let base := 0x1000000 + 0x100000 * d
      (off = base → t = { s with dies := t.dies, agenda := t.agenda } ∧ bvField (t.die d).fqcfg 51 12 = bvField v 51 12
        ∧ bvField (t.die d).fqcfg 4 0 = (if 6 ≤ bvField v 4 0 ∧ bvField v 4 0 ≤ 16 then bvField v 4 0 else 6)
        ∧ ((s.die d).records ≠ [] → ⟨s.now, .faultRecordWrite d⟩ ∈ t.agenda))
      ∧ (off = base + 0x18 → 2 ≤ bvField v 33 32 → t = { s with dies := t.dies } ∧ t.die d = { s.die d with frstat := 2 })
      ∧ ∀ m, m < 2 → off = base + 0x3110 + 0x200 * m → t = { s with stackTab := t.stackTab }
        ∧ t.stack (2 * d + m) = { s.stack (2 * d + m) with hnode := BitVec.ofNat 32 (bvField v 8 0) }))
  ∧ (∀ k n h v s, k < 24 → n < 64 → h < 2 → s.bootstat ≠ 2 → ∃ t, exec (.registerWrite (2 ^ 32 + 65536 * k + 16 * n + 8 * h) v) s = .next t
    ∧ t = { s with stackTab := t.stackTab } ∧ (∀ j, j ≠ k → t.stack j = s.stack j)
    ∧ t.stack k = { s.stack k with acl := (t.stack k).acl } ∧ (∀ j, j ≠ n → (t.stack k).acl.get j = (s.stack k).acl.get j)
    ∧ let x := (s.stack k).acl.get n
      let y := (t.stack k).acl.get n
      bvField x 65 32 = 0 → bvField y 65 32 = 0 ∧ bvField y 31 0 = (if h = 0 then bvField v 31 0 else bvField x 31 0)
        ∧ bvField y 127 66 = (if h = 0 then bvField x 127 66 else bvField v 63 2))
  ∧ (∀ off v s, ∃ t, exec (.counterClear off v) s = .next t ∧ t = { s with stackTab := t.stackTab } ∧ (s.bootstat = 2 → t = s)
    ∧ ∀ d m, s.bootstat ≠ 2 → d < 12 → m < 2 →
    let k := 2 * d + m
    let base := 0x1000000 + 0x100000 * d + 0x3000 + 0x200 * m
    let cleared (x y : DWord) : Prop := ∀ hi lo, (hi, lo) ∈ [(63, 32), (31, 16), (15, 0)] →
      bvField y hi lo = if bvField v hi lo = 0 then bvField x hi lo else 0
    (∀ c, c < 32 → off = base + 8 * c → cleared ((s.stack k).chq.get c) ((t.stack k).chq.get c)
        ∧ (∀ j, j ≠ c → (t.stack k).chq.get j = (s.stack k).chq.get j) ∧ t.stack k = { s.stack k with chq := (t.stack k).chq })
    ∧ (off = base + 0x100 → cleared (s.stack k).lnk (t.stack k).lnk ∧ t.stack k = { s.stack k with lnk := (t.stack k).lnk }))
  ∧ (∀ d s, ∃ t, exec (.eventWrite d) s = .next t ∧
    let size := 2 ^ bvField s.evcfg 4 0
    (((s.die d).reports = [] ∨ s.evbase = 0#64 ∨ size ≤ (s.evtail - s.evhead).toNat) → t = s)
    ∧ ∀ r rest, (s.die d).reports = r :: rest → s.evbase ≠ 0#64 → (s.evtail - s.evhead).toNat < size →
      (∃ b, storedAt s t (4096 * bvField s.evbase 51 12 + 32 * (s.evtail.toNat % size)) b
        ∧ (let at_ (off n v : Nat) : Prop := leNat ((b.drop off).take n) = v % 256 ^ n
          b.length = 32 ∧ at_ 0 1 r.code ∧ at_ 1 1 d ∧ at_ 2 2 (min (s.die d).dropped 65535) ∧ at_ 4 4 r.ctxid ∧ at_ 8 4 r.num ∧ at_ 0xC 4 0
          ∧ at_ 0x10 8 r.addr ∧ at_ 0x18 8 r.info))
      ∧ t.evtail = s.evtail + 1 ∧ t.msix0 = true ∧ t.die d = { s.die d with reports := rest, dropped := 0 } ∧ (∀ k, k ≠ d → t.die k = s.die k)
      ∧ ⟨s.now, .eventWrite d⟩ ∈ t.agenda)
  ∧ (∀ v s, ∃ t, exec (.evheadWrite v) s = .next t ∧ (s.bootstat = 2 → t = s) ∧ (s.bootstat ≠ 2 → t = { s with evhead := v, agenda := t.agenda }
    ∧ (t.msix0 = true ↔ s.evtail ≠ v)
    ∧ ∀ d x, (d, x) ∈ s.dies → x.reports ≠ [] → ⟨s.now, .eventWrite d⟩ ∈ t.agenda))
  ∧ (∀ pa n s, ∃ t, exec (.hostCxlMemRead pa n) s = .next t
    ∧ ((s.bootstat ≠ 1 ∨ targetOf pa ≠ .device ∨ s.backed pa = false) → t = s)
    ∧ (s.bootstat = 1 → targetOf pa = .device → s.backed pa = true →
      (s.mapWaits pa = true → t = { s with agenda := t.agenda } ∧ ⟨s.now + 1, .hostCxlMemRead pa n⟩ ∈ t.agenda)
      ∧ (s.mapWaits pa = false → s.isFenced pa = true → t = { s with tick := t.tick, sent := t.sent })
      ∧ (s.mapWaits pa = false → s.isFenced pa = false →
          t = { s with cached := t.cached, stackDiff := t.stackDiff, sent := some (.host (s.mem.readN pa n)) })))
  ∧ (∀ pa data s, ∃ t, exec (.hostCxlMemWrite pa data) s = .next t
    ∧ ((s.bootstat ≠ 1 ∨ targetOf pa ≠ .device ∨ s.backed pa = false) → t = s)
    ∧ (s.bootstat = 1 → targetOf pa = .device → s.backed pa = true →
      (s.mapWaits pa = true → t = { s with agenda := t.agenda } ∧ ⟨s.now + 1, .hostCxlMemWrite pa data⟩ ∈ t.agenda)
      ∧ (s.mapWaits pa = false → storedAt s t pa data ∧ onlyMemory s t)))
  ∧ (∀ pa s, exec (.backInvalidateSnoop pa) s = .next { s with sent := some .snoop })
  ∧ (∀ d pa n data s, ∃ t, exec (.serviceCoreMemoryAccess d pa n data) s = .next t ∧ (s.backed pa = false → t = s)
    ∧ (s.backed pa = true → s.mapWaits pa = false →
      (∀ bs, data = some bs → storedAt s t pa bs ∧ onlyMemory s t)
      ∧ (data = none → t = { s with cached := t.cached, stackDiff := t.stackDiff, sent := some (.busData (s.mem.readN pa n)) })))
  ∧ (∀ s, ∃ v, exec .spdmMeasurementRequest s = .next { s with sent := some (.spdm v) })
  ∧ (∀ c part img regs s, ∃ t, exec (.contextCreation c part img regs) s = .next t
    ∧ let live : Prop := ∃ x, s.contexts.find? c = some x ∧ x.terminated = false
      ((s.images.find? img = none ∨ s.parts.find? part = none ∨ live) → t = s)
      ∧ ∀ m, s.images.find? img = some m → (m.status ≠ 0 → t = s)
        ∧ (m.status = 0 → (s.parts.find? part).isSome = true → ¬live →
          t = { s with agenda := t.agenda, contexts := t.contexts } ∧ (∀ d, d ≠ c → t.contexts.find? d = s.contexts.find? d)
          ∧ ⟨(s.now / 65536 + 1) * 65536, .savecostUpdate c⟩ ∈ t.agenda
          ∧ ∃ y : Context, t.contexts.find? c = some (regs.foldl (fun x r => x.setReg r.1 r.2) y) ∧ y.part = part
            ∧ (∀ k v, ((imgFormats m.bytes).map (·.1)).Nodup → (k, v) ∈ imgFormats m.bytes → y.fmt.get k = v)
            ∧ (∀ k, (∀ e ∈ imgFormats m.bytes, e.1 ≠ k) → y.fmt.get k = 0) ∧ y.preload = imgWindows m.bytes
            ∧ y.minor = imgField m.bytes 4 1 ∧ y.stopped = false ∧ y.terminated = false ∧ y.blocks = [] ∧ y.energy = 0
            ∧ ∀ k, 0x40 ≤ k → k ≤ 0x4F → y.reg k = if k = 0x4A then 0x01400000 else 0))
  ∧ ∀ s, ∃ t, exec .moduleReset s = .next t ∧ t.flash = s.flash
    ∧ t.contexts = [] ∧ t.cores = [] ∧ t.ensembles = [] ∧ t.troupes = [] ∧ t.launches = [] ∧ t.prods = [] ∧ t.queues = [] ∧ t.copies = []
    ∧ t.evbase = 0#64 ∧ t.evhead = 0#32 ∧ t.evtail = 0#32 ∧ t.qtbase = 0#64
    ∧ (Inv s → inOrder s.stackDiff → ∀ a, t.mem.read a = s.stackByte a)
    ∧ (s.flash.good = false → t.bootstat = 2)
    ∧ (s.flash.good = true → t.bootstat = 1 ∧ t.mapRegs = s.flash.mapRegs ∧ t.matrices = s.flash.matrices ∧ t.partOf = s.flash.partOf
      ∧ t.moduleCap = s.flash.moduleCap ∧ t.parts = s.flash.parts
      ∧ t.cal = s.flash.cal ∧ t.scrub = s.flash.scrub
      ∧ ∃ due due', ⟨due, .energyFold⟩ ∈ t.agenda ∧ ⟨due', .capApplication⟩ ∈ t.agenda)

/-! ### Completion -/

/-- Where the forms of R157 to R161, R182, R268 to R273, R302, R303, R313, R357 and R361, and the events of the format table and of the
memory stacks, complete: for every state in which the instruction issues and that meets the conditions stated on it and the operands
alone, `exec` answers a next state with the form's own effect, and the split stands at the next word. Every event of the module but
the eight that may take a trap at once answers a next state in every state. -/
def Obligations.Completions : Prop :=
  (∀ f s w, let n := insX 0x50 f
    issues n s w → ∃ t x, exec (.fset f) s = .next t ∧ t.work w.tid w.ent = some x ∧ x.S.pc = (nextWord n w).pc ∧ t.mem = s.mem
      ∧ t.fmtEntry w.E.core w.E.ctx n.fmt = BitVec.ofNat 64 (w.src64 true n n.sa (lowLane w.act)))
  ∧ (∀ f s w, let n := insX 0x51 f
    issues n s w → ∃ t x, exec (.fget f) s = .next t
      ∧ Completes s w (pairWrites true n w fun _ => (w.look n.fmt).toNat) 0#32 [] (nextWord n w) t x)
  ∧ (∀ f s w, let n := insX 0x94 f
    let k := n.mod % 32
    (w.E.win k).state ≠ 2 → (w.E.win k).state ≠ 5 → issues n s w →
      (∀ d r, w.S.wait = .bind d r → ∃ E t x, exec (.wbind f) s = .next t
        ∧ Completes s { w with E := E, S := { w.S with wait := .none } } [] 0#32 [] (nextWord n w) t x ∧ (E.win k).record = r)
      ∧ (w.S.wait = .none → w.memHeld = false →
        let a := w.stageAddr n n.sa (lowLane w.act)
        let r := BitVec.ofNat 512 (leNat (w.E.stageRead a 64))
        a % 64 = 0 → a + 64 ≤ w.E.size → bindCheck w.E k (w.fmt (recFmt r)).width r = none →
          ∃ t x, exec (.wbind f) s = .next t ∧ t.work w.tid w.ent = some x ∧ x.S.wait = .bind (s.now + 24) r))
  ∧ (∀ f s w, let n := insX 0x95 f
    let k := n.mod % 32
    let v := if n.mod / 32 = 5 then w.src64 true n n.sa (lowLane w.act) else (w.src true n n.sa 0 (lowLane w.act)).toNat
    issues n s w → (w.E.win k).state ≠ 0 → (w.E.win k).state ≠ 2 → (w.E.win k).state ≠ 5 →
      ∀ r, wsetRecord w.E (n.mod / 32) v (w.E.win k).record = .ok r → ∃ E t x, exec (.wset f) s = .next t
        ∧ Completes s { w with E := E } [] 0#32 [] (nextWord n w) t x ∧ (E.win k).record = r)
  ∧ (∀ f s w, let n := insX 0x97 f
    let k := n.mod % 32
    issues n s w → (w.E.win k).state ≠ 2 → (w.E.win k).state ≠ 5 → ∃ E t x, exec (.wrel f) s = .next t
      ∧ Completes s { w with E := E } [] 0#32 [] (nextWord n w) t x ∧ (E.win k).state = 0)
  ∧ (∀ f s w, let n := insX 0x98 f
    issues n s w → ∃ E t x, exec (.wstat f) s = .next t
      ∧ Completes s { w with E := E } [] 0#32 [w.pendOf false 0 0#32 (w.outsOf n 1 w.act fun _ _ => (w.E.win (n.mod % 32)).word)]
          (nextWord n w) t x)
  ∧ (∀ f s w, let n := insX 0x99 f
    issues n s w → ∃ t x, exec (.bcommit f) s = .next t
      ∧ Completes s { w with T := { w.T with batch := w.T.batch + 1 } } [] 0#32
          [w.pendOf false 0 0#32 (w.outsOf n 1 w.act fun _ _ => w.T.batch + 1)] (nextWord n w) t x)
  ∧ (∀ f s w, let n := insX 0x9A f
    issues n s w → s.batchDone w.tid w.T (w.src true n n.sa 0 (lowLane w.act)) = true → ∃ t x, exec (.bwait f) s = .next t
      ∧ Completes s w [] 0#32 [] (nextWord n w) t x)
  ∧ (∀ f s w, issues (insX 0xA8 f) s w → w.memHeld = false → ∃ (c : Caches) (t : State) (x : Work), exec (.pref f) s = .next t
      ∧ Completes (c.on s) { w with s := c.on s } [] 0#32 [] (nextWord (insX 0xA8 f) w) t x)
  ∧ (∀ f s w, issues (insX 0xA9 f) s w → w.memHeld = false → ∃ (c : Caches) (t : State) (x : Work), exec (.inval f) s = .next t
      ∧ Completes (c.on s) { w with s := c.on s } [] 0#32 [] (nextWord (insX 0xA9 f) w) t x)
  ∧ (let releases (i : Instr) (n : Ins) (sig : Bool) : Prop := ∀ s w,
      let va := w.pairAddr n (lowLane w.act)
      let scope := w.E.scopeOf va (Scope.num n.scope)
      issues n s w → va % 8 = 0 → w.mayRelease scope = true → scope ≠ 5 →
      ∀ m s1, ReachesOne w (if n.mod = 0 then .store else .atomic) (relOk sig n.mod) 8 [va] [m] s1 →
        ∃ (c : Caches) (t : State) (x : Work),
          let mem := s.mem.write m.pa (natLE 8 (relNew n.mod (leNat (s.peek m.pa 8)) (w.src64 true n n.sb (lowLane w.act))))
          let b : Work := { w with s := c.on { s with mem := mem }, T := { w.T with unacked := w.T.unacked ++ [s.tick] } }
          exec i s = .next t ∧ Completes b.s b [] 0#32 [] (nextWord n w) t x
    (∀ f, releases (.rel f) (insX 0xAD f) false) ∧ ∀ f, releases (.qsig f) (insX 0xB4 f) true)
  ∧ (∀ f s w, let n := insX 0xB0 f
    let va := w.pairAddr n (lowLane w.act)
    issues n s w → w.memHeld = false → va % 64 = 0 → (s.prod w.E.prod).depth < 10 → w.mayRelease (Scope.num n.scope) = true →
      Scope.num n.scope ≠ 5 → ∀ m s1, ReachesOne w .load (fun _ => true) 64 [va] [m] s1 →
        ∃ t x, exec (.spawn f) s = .next t ∧ t.work w.tid w.ent = some x ∧ x.S.pc = (nextWord n w).pc
          ∧ ∃ v, v < 4 ∧ ∃ p ∈ x.T.pend, p.id = s.tick
              ∧ p.outs = (w.pendOf false 0 0#32 (w.outsOf n 1 w.act fun _ _ => BitVec.ofNat 32 v)).outs)
  ∧ (∀ s c core e v id, ∃ t, exec (.formatWriteAtHome c core e v id) s = .next t
    ∧ ∀ y, s.contexts.find? c = some y → t.contexts.find? c = some { y with fmt := y.fmt.set e v })
  ∧ (∀ s c core e v id, 16 ≤ e → (∀ x ∈ (s.core core).echo, ¬(x.1 = c ∧ x.2.1 = e)) →
      ∃ t, exec (.formatBroadcastApply c core e v id) s = .next t ∧ t.fmtEntry core c e = v)
  ∧ (∀ s id, ∃ t, exec (.cacheActionComplete id) s = .next t ∧ ∀ a T, s.cacheActs.find? (fun a => a.id = id) = some a →
      s.troupes.find? a.tid = some T → a.after = .nothing → goesOnPast t a.tid T a.uid)
  ∧ (∀ (v : Word) (s : State), s.bootstat ≠ 2 → v.getLsbD 4 = true → s.mapping = none →
      ∃ t, exec (.mapcmdCommit v) s = .next t ∧ t.mapStat = 1 ∧ ⟨s.now + 2112, .mapCheckComplete⟩ ∈ t.agenda)
  ∧ (∀ s, ∃ t, exec .mapCheckComplete s = .next t ∧ t.mapping = none)
  ∧ (∀ pa ctxid s, (s.stackOf pa).isSome = true → pa < 2 ^ 52 → ∃ t, exec (.eccUncorrectable pa ctxid) s = .next t ∧ t.isFenced pa = true)
  ∧ (∀ k pa s, s.bootstat ≠ 2 → ∃ t, exec (.fclrWrite k pa) s = .next t
      ∧ ∀ e ∈ (t.stack k).fence, ¬(e.2.getLsbD 63 = true ∧ bvField e.2 51 12 = bvField (BitVec.ofNat 64 pa) 51 12))
  ∧ (∀ k s, ∃ t, exec (.refreshHeartbeat k) s = .next t ∧ (t.stack k).beat = s.now)
  ∧ (∀ k s, (s.stack k).beat + s.nsCycles k 2048 ≤ s.now → ∃ t, exec (.refreshTakeover k) s = .next t ∧ (t.stack k).takeover = true)
  ∧ (∀ k s, ∃ t, exec (.refresh k) s = .next t ∧ (t.stack k).refreshes = (s.stack k).refreshes + 1)
  ∧ (∀ k s, ∃ t, exec (.baseDieReset k) s = .next t ∧ (t.stack k).takeover = false)
  ∧ (∀ k s, (s.stack k).takeover = false → ∃ t, exec (.scrub k) s = .next t ∧ (t.stack k).scrubbed = (s.stack k).scrubbed + 1)
  ∧ ∀ i s, i.view = none → (∀ v, i ≠ .undefinedInstruction v) → (∀ b, i ≠ .fetchBeyondOverlay b) → i ≠ .fetchOverlayAbsent →
      (∀ a b, i ≠ .sectorLanding a b) → (∀ a b, i ≠ .reduceContribution a b) → (∀ d t, i ≠ .frplyRaise d t) →
      (∀ a, i ≠ .acqWaitSuccess a) → (∀ a, i ≠ .acqPoll a) → ∃ t, exec i s = .next t

/-! ### The machine -/

/-- R45, R55 to R57, R59, R118: an instruction that fails a check traps with that check's cause, the checks in the order of their codes
and privilege after them; one whose source waits is held; and from opcode 0x10 on, an instruction that passes with no active lane
completes at the next word with no effect. -/
def Obligations.DecodeChecks : Prop :=
  (∀ i op f s, i.view = some (op, f) → let n := insOf op f
    (∀ w x, gate n s = .trap w x → exec i s = w.trap n x) ∧ (∀ w, gate n s = .hold w → exec i s = .next w.hold)
    ∧ ∀ w, 0x10 ≤ op → op ≠ 0x48 → gate n s = .go w → w.act = 0 → ∃ t x, exec i s = .next t ∧ Completes s w [] 0#32 [] (nextWord n w) t x)
  ∧ ∀ n s w0, s.issuer = some w0 →
    let w : Work := { w0 with act := w0.active n }
    let traps (cause : Nat) : Prop := ∃ x, gate n s = .trap w x ∧ x.cause = cause
    let pass2 : Prop := w0.check02 n = true ∧ w0.held n = false
    let dsts := (w.operands n).1
    let srcs := (w.operands n).2
    (n.ok = false → gate n s = .trap w0 { cause := 0x02 })
    ∧ (pass2 → ∀ d x, dsts.head? = some d → x ∈ srcs → overlaps n.op d x = true → traps 0x03)
    ∧ (pass2 → w.check03 n = none → ∀ a len,
        (((.v a, len) ∈ dsts ++ srcs ∧ w.T.nregs < a.toNat + len) ∨
         (w.T.tstat.getLsbD 16 = false ∧ ∃ b : BitVec 6, a.toNat = b.toNat ∧ (.s b, len) ∈ dsts ++ srcs ∧ w.T.nscal < b.toNat + len)) →
          traps 0x04)
    ∧ (pass2 → w.check03 n = none → w.check04 n = none → w.T.tstat.getLsbD 8 = true → ∀ o r, o ∈ srcs → r ∈ w.regsOf n o.1 o.2 →
        (w.undersized r).isSome = true → traps 0x05)
    ∧ (pass2 → w.check03 n = none → w.check04 n = none → w.T.tstat.getLsbD 8 = false → (badEntry w.look n).isSome = true → traps 0x06)
    ∧ (pass2 → w.check03 n = none → w.check04 n = none → w.check05 n = none → w.check06 n = none → w.T.tstat.getLsbD 16 = false →
        (n.op ∈ [0xC2, 0xC6, 0xC9, 0xCA] ∨ (n.op ∈ [0xC3, 0xC4] ∧ 0x40 ≤ n.mod ∧ n.mod ≤ 0x4F)) → traps 0x14)
    ∧ (pass2 → w.T.tstat.getLsbD 16 = true → ∀ v x, gate n s = .trap v x → x.cause ≠ 0x14)

/-- R287, R383, R418, R420, R431, R440, R442, R444, R446: the values that the spec gives for reset, of the module, of a die, of a stack
and its endpoint, and of a context (the zeros of QTBASE, CKHOLD, LHOST and TQ are the model's, log entry 4); memory is in its
canonical form (log entry 5); and the first event is the reset itself. -/
def Obligations.ResetValues : Prop :=
  let s := State.reset
  Inv s ∧ s.agenda = [⟨0, .moduleReset⟩]
  ∧ s.bootstat = 0 ∧ s.qtbase = 0#64 ∧ s.evbase = 0#64 ∧ s.evhead = 0#32 ∧ s.evtail = 0#32 ∧ s.evcfg = 8#32 ∧ s.ckshare = 8#32
  ∧ s.lhost = 0#64 ∧ s.tq = 0#64 ∧ s.mapNext = 0#64 ∧ s.mapStat = 0 ∧ (∀ k, s.mapRows.get k = 0) ∧ (∀ r, s.mapRegs.getD r 0 = 0#64)
  ∧ (∀ d, (s.die d).fqcfg = 6#64 ∧ (s.die d).fqhead = 0#32 ∧ (s.die d).fqtail = 0#32 ∧ (s.die d).frstat = 0#32 ∧ (s.die d).ckhold = 0#64)
  ∧ (∀ k, (∀ j, (s.stack k).fence.get j = 0) ∧ (∀ j, (s.stack k).chq.get j = 0) ∧ (s.stack k).lnk = 0#64 ∧ (s.stack k).link = 0
      ∧ (s.stack k).hnode = 0#32 ∧ (∀ j, (s.stack k).acl.get j = 0) ∧ (s.stack k).takeover = false)
  ∧ (∀ p, (s.part p).budget = 0#64 ∧ (s.part p).cause = 0#64)
  ∧ (∀ c n, (s.ctx c).reg n = if n = 0x4A then 0x01400000#64 else 0#64)
  ∧ (∀ c n, 16 ≤ n → (s.ctx c).fmt.get n = 0)
  ∧ s.contexts = [] ∧ s.cores = [] ∧ s.ensembles = [] ∧ s.troupes = [] ∧ s.launches = [] ∧ s.queues = []

/-- A step is what happens next: an event of the agenda with its meaning, or the issue of one split, or of a pair, or a cycle in which
nothing happens. Where the words at the program counter of the split that issues decode, the step is the meaning of the
instruction that they hold, in that state, with the overlay's slot marked as fetched from. The words are those of the slot that holds
the overlay, with the quarter's loop buffer before it where that holds them (R71); past the overlay's last byte there are none; and a
parked instruction that is replayed runs from the words fetched before (R78). A report that waited for the split's next instruction is
taken before it (R393). What a step writes is noted for checkpointing (R401). -/
def Obligations.StepRunsDecoded : Prop :=
  (∀ s ev s1, s.following = .event ev s1 → s1.cutting = [] →
      (restores ev = false → step s = noted s1 (writesFor ev) (runEvent ev s1)) ∧ (restores ev = true → step s = runEvent ev s1))
  ∧ (∀ s s1, s.following = .idle s1 → step s = .next s1)
  ∧ (∀ (s : State) (w : Work), let replayed := fun p : Parked => p.uid = w.S.uid ∧ p.go = true
    (∀ p, w.T.parked.find? (fun p => decide (replayed p)) = some p → s.codeOf w = some p.insn)
    ∧ ((∀ p ∈ w.T.parked, ¬replayed p) →
      (w.S.past = true → s.codeAt w.E.core w.E.ctx w.S.pc ≠ none → s.codeOf w = some [])
      ∧ (s.codeAt w.E.core w.E.ctx w.S.pc = none → s.codeOf w = none)
      ∧ (w.S.past = false → (s.core w.E.core).loops.find? w.T.quarter = none → s.codeOf w = s.codeAt w.E.core w.E.ctx w.S.pc)
      ∧ ∀ b bs k, w.S.past = false → (s.core w.E.core).loops.find? w.T.quarter = some b →
          (s.core w.E.core).slotOf w.E.ctx (bvField w.S.pc 27 16) = some k → s.codeAt w.E.core w.E.ctx w.S.pc = some bs →
          let off := 4 * bvField w.S.pc 15 2
          let buffered : Prop := b.slot = k ∧ b.base ≤ off ∧ off < b.base + b.code.length
          (¬buffered → s.codeOf w = some bs)
          ∧ (buffered → s.codeOf w = some (b.code.drop (off - b.base) ++ bs.drop (b.base + b.code.length - off)))))
  ∧ (∀ s ent s1 w bs i, s.following = .issue ent none s1 → s1.issuer = some w → w.reported = none → s1.cutting = [] →
      s1.codeOf w = some bs → bs ≠ [] → decode bs = .ok i → step s = noted s1 true (exec i (s1.noteFetch w)))
  ∧ (∀ s ent s1 w bs, s.following = .issue ent none s1 → s1.issuer = some w → w.reported = none → s1.cutting = [] →
      s1.codeOf w = some bs → bs ≠ [] →
      (decode bs = .error .undefined →
        step s = noted s1 true (exec (.undefinedInstruction (BitVec.ofNat 32 (leNat (bs.take 4)))) (s1.noteFetch w)))
      ∧ (decode bs = .error .reserved → step s = noted s1 true (w.fetchTrap { cause := 0x02 }))
      ∧ (decode bs = .error .short → step s = noted s1 true (exec (.fetchBeyondOverlay false) (s1.noteFetch w))))
  ∧ (∀ s ent s1 w, s.following = .issue ent none s1 → s1.issuer = some w → w.reported = none → s1.cutting = [] →
      (s1.codeOf w = none → step s = noted s1 true (exec .fetchOverlayAbsent (s1.noteFetch w)))
      ∧ (s1.codeOf w = some [] → step s = noted s1 true (exec (.fetchBeyondOverlay w.S.fell.isSome) (s1.noteFetch w))))
  ∧ (∀ s ent s1 w d rest c, s.following = .issue ent none s1 → s1.issuer = some w → w.T.due = d :: rest → w.T.trapPc = none →
      (∀ k, w.T.splits.find? k ≠ none → w.ent ≤ k) → w.ent < 8 → MayTrap s1 w c →
      let T := { w.T with due := rest }
      let s2 := { s1 with troupes := s1.troupes.put w.tid T }
      let v : Work := { w with s := s2, T := T }
      ∃ t, step s = .next t ∧ Trapped s2 v c { cause := d.cause, info := d.info, addr := d.addr, done := v.nextActive.2 }
        { pc := w.S.pc, ilen := max 4 v.insn.length, insn := v.insn, active := v.nextActive.1,
          adds := (v.ahead.map fun n => 1 + n.stall).getD 0, flags := 1, win := d.win } t)
  ∧ (∀ s ent other s1 w bs i tid e u, s.following = .issue ent (some other) s1 → s1.cur = some (tid, e) → s1.issuer = some w →
      w.reported = none → s1.cutting = [] → s1.codeOf w = some bs → bs ≠ [] → decode bs = .ok i → exec i (s1.noteFetch w) = .next u →
      let t := s1.markDirty u true
      trapped s1 t tid = false →
      ((s1.memoryAt tid e = none ∨ s1.memoryAt tid other = none) → step s = .next (t.thenPair s1.now tid other))
      ∧ ∀ a act b act', s1.memoryAt tid e = some (a, act) → s1.memoryAt tid other = some (b, act') →
          let parks : Prop := ∃ x p, t.troupes.find? tid = some x ∧ p ∈ x.parked ∧ p.uid = a.S.uid
          (parks → step s = .next (t.parkBeside tid b act'))
          ∧ (¬parks → step s = .next ((t.thenPair s1.now tid other).modTroupe tid fun x => { x with paired := (s1.now, act) })))
  ∧ ∀ nbits v i, decodeTableWord nbits v = some i → ∃ s1 w, s1.issuer = some w ∧ w.S.pc = 0#32 ∧ w.S.mask = ~~~0#128
      ∧ step (State.reset.withFetchWord nbits v) = exec i s1

/-- Words written out from the encoding tables of R25 to R39, each with the instruction it stands for. -/
def Obligations.DecodeWords : Prop :=
  let w0 : W0 := { head := ⟨false, 0⟩, pneg := false, pred := 7, scope := .troupe, sat := false, rnd := .rne, fmt := 0 }
  let x : X := { w0 := w0, dst := .v 0, sa := .v 0, sb := .v 0, sc := .v 0, mod := 0, disp := 0, lit := none }
  let b : B3 := { head := ⟨false, 0⟩, dst := .v 0, sa := .v 0, sb := .v 0, lit := none }
  decodesTo [0x00000024] (.exitBase b)
  ∧ decodesTo [0x0401C084] (.moviBase { head := ⟨false, 0⟩, dst := .v 1, imm := 7 })
  ∧ decodesTo [0x04104088] (.iaddBase { b with dst := .v 1, sa := .v 1, sb := .v 1 })
  ∧ decodesTo [0x71028089, 0x0180200C, 0] (.iadd { x with w0 := { w0 with sat := true, fmt := 5 }, dst := .v 6, sa := .v 2, sb := .v 3 })
  ∧ decodesTo [0x70008181, 0x0100200C, 0] (.fadd { x with w0 := { w0 with fmt := 1 }, dst := .v 4, sa := .v 2, sb := .v 3 })
  ∧ decodesTo [0x7000001D, 0x00000050, 0] (.ocall { w0 := w0, tgt := 0, aux := 5, si := .v 0, mod := 0, lit := none })
  ∧ decodesTo [0x70000289, 0x01008000, 0x00010040] (.ldg { x with dst := .v 4, sa := .v 8, mod := 4, disp := 64 })
  ∧ decodesTo [0x70000295, 0x00F04004, 0] (.atom { x with dst := .v 3, sa := .s 4, sb := .v 1 })
  ∧ decodesTo [0x70000301, 0, 0x00014000] (.trap { x with mod := 5 })
  ∧ decodesTo [0x7000032B, 0x00302DB0, 0, 1, 0] (.tlbinv { x with sa := .s 2, sb := .lit, lit := some 1 })

/-- R25 to R39: decoding the encoding of any well-formed instruction, whatever follows it, gives that instruction back, with every
operand and field at every value that the encoding admits. -/
def Obligations.DecodeOfEncode : Prop :=
  ∀ i op f, i.view = some (op, f) → i.wellFormed = true →
    decodesTo (encode i) i ∧ (encode i).length ∈ [1, 3, 5] ∧ ∀ w ∈ encode i, w < 2 ^ 32

/-- Every step keeps the memory in its canonical form: addresses strictly rising, and no byte listed that an unlisted address reads as. -/
def Obligations.StepKeepsMemory : Prop := ∀ s t : State, Sys2Proof.Inv s → step s = .next t → Sys2Proof.Inv t
end

