-- ==== Sys2Proof/Laws/State.lean ====
section
/-! SUPPORT. What each update of the state leaves in each field: one lemma per field per update, so that no proof unfolds
a record update. -/

namespace Sys2Proof.Machine

open Sys2Proof

variable (s : State) (t : Troupe) (w : Work)

/-! ### `State.bump` -/

@[simp] theorem State.bump_now : (s.bump).now = s.now := rfl
@[simp] theorem State.bump_tick : (s.bump).tick = s.tick + 1 := rfl
@[simp] theorem State.bump_agenda : (s.bump).agenda = s.agenda := rfl
@[simp] theorem State.bump_cur : (s.bump).cur = s.cur := rfl
@[simp] theorem State.bump_mem : (s.bump).mem = s.mem := rfl
@[simp] theorem State.bump_cached : (s.bump).cached = s.cached := rfl
@[simp] theorem State.bump_stackDiff : (s.bump).stackDiff = s.stackDiff := rfl
@[simp] theorem State.bump_mapRegs : (s.bump).mapRegs = s.mapRegs := rfl
@[simp] theorem State.bump_matrices : (s.bump).matrices = s.matrices := rfl
@[simp] theorem State.bump_partOf : (s.bump).partOf = s.partOf := rfl
@[simp] theorem State.bump_stackTab : (s.bump).stackTab = s.stackTab := rfl
@[simp] theorem State.bump_parts : (s.bump).parts = s.parts := rfl
@[simp] theorem State.bump_hall : (s.bump).hall = s.hall := rfl
@[simp] theorem State.bump_moduleCap : (s.bump).moduleCap = s.moduleCap := rfl
@[simp] theorem State.bump_flash : (s.bump).flash = s.flash := rfl
@[simp] theorem State.bump_bootstat : (s.bump).bootstat = s.bootstat := rfl
@[simp] theorem State.bump_qtbase : (s.bump).qtbase = s.qtbase := rfl
@[simp] theorem State.bump_evbase : (s.bump).evbase = s.evbase := rfl
@[simp] theorem State.bump_evhead : (s.bump).evhead = s.evhead := rfl
@[simp] theorem State.bump_evtail : (s.bump).evtail = s.evtail := rfl
@[simp] theorem State.bump_evcfg : (s.bump).evcfg = s.evcfg := rfl
@[simp] theorem State.bump_ckshare : (s.bump).ckshare = s.ckshare := rfl
@[simp] theorem State.bump_lhost : (s.bump).lhost = s.lhost := rfl
@[simp] theorem State.bump_tq : (s.bump).tq = s.tq := rfl
@[simp] theorem State.bump_mapRows : (s.bump).mapRows = s.mapRows := rfl
@[simp] theorem State.bump_mapNext : (s.bump).mapNext = s.mapNext := rfl
@[simp] theorem State.bump_mapStat : (s.bump).mapStat = s.mapStat := rfl
@[simp] theorem State.bump_mapping : (s.bump).mapping = s.mapping := rfl
@[simp] theorem State.bump_queues : (s.bump).queues = s.queues := rfl
@[simp] theorem State.bump_launches : (s.bump).launches = s.launches := rfl
@[simp] theorem State.bump_prods : (s.bump).prods = s.prods := rfl
@[simp] theorem State.bump_shoots : (s.bump).shoots = s.shoots := rfl
@[simp] theorem State.bump_cutting : (s.bump).cutting = s.cutting := rfl
@[simp] theorem State.bump_cuts : (s.bump).cuts = s.cuts := rfl
@[simp] theorem State.bump_images : (s.bump).images = s.images := rfl
@[simp] theorem State.bump_requests : (s.bump).requests = s.requests := rfl
@[simp] theorem State.bump_sent : (s.bump).sent = s.sent := rfl
@[simp] theorem State.bump_dies : (s.bump).dies = s.dies := rfl
@[simp] theorem State.bump_faultWaits : (s.bump).faultWaits = s.faultWaits := rfl
@[simp] theorem State.bump_ovlLoads : (s.bump).ovlLoads = s.ovlLoads := rfl
@[simp] theorem State.bump_copies : (s.bump).copies = s.copies := rfl
@[simp] theorem State.bump_episodes : (s.bump).episodes = s.episodes := rfl
@[simp] theorem State.bump_refused : (s.bump).refused = s.refused := rfl
@[simp] theorem State.bump_acqWaits : (s.bump).acqWaits = s.acqWaits := rfl
@[simp] theorem State.bump_cacheActs : (s.bump).cacheActs = s.cacheActs := rfl
@[simp] theorem State.bump_cores : (s.bump).cores = s.cores := rfl
@[simp] theorem State.bump_contexts : (s.bump).contexts = s.contexts := rfl
@[simp] theorem State.bump_ensembles : (s.bump).ensembles = s.ensembles := rfl
@[simp] theorem State.bump_troupes : (s.bump).troupes = s.troupes := rfl

/-! ### `State.at_` -/

@[simp] theorem State.at_now (n : Nat) (e : Ev) : (s.at_ n e).now = s.now := rfl
@[simp] theorem State.at_tick (n : Nat) (e : Ev) : (s.at_ n e).tick = s.tick := rfl
@[simp] theorem State.at_agenda (n : Nat) (e : Ev) : (s.at_ n e).agenda = insertTimed s.rank ⟨n, e⟩ s.agenda := rfl
@[simp] theorem State.at_cur (n : Nat) (e : Ev) : (s.at_ n e).cur = s.cur := rfl
@[simp] theorem State.at_mem (n : Nat) (e : Ev) : (s.at_ n e).mem = s.mem := rfl
@[simp] theorem State.at_cached (n : Nat) (e : Ev) : (s.at_ n e).cached = s.cached := rfl
@[simp] theorem State.at_stackDiff (n : Nat) (e : Ev) : (s.at_ n e).stackDiff = s.stackDiff := rfl
@[simp] theorem State.at_mapRegs (n : Nat) (e : Ev) : (s.at_ n e).mapRegs = s.mapRegs := rfl
@[simp] theorem State.at_matrices (n : Nat) (e : Ev) : (s.at_ n e).matrices = s.matrices := rfl
@[simp] theorem State.at_partOf (n : Nat) (e : Ev) : (s.at_ n e).partOf = s.partOf := rfl
@[simp] theorem State.at_stackTab (n : Nat) (e : Ev) : (s.at_ n e).stackTab = s.stackTab := rfl
@[simp] theorem State.at_parts (n : Nat) (e : Ev) : (s.at_ n e).parts = s.parts := rfl
@[simp] theorem State.at_hall (n : Nat) (e : Ev) : (s.at_ n e).hall = s.hall := rfl
@[simp] theorem State.at_moduleCap (n : Nat) (e : Ev) : (s.at_ n e).moduleCap = s.moduleCap := rfl
@[simp] theorem State.at_flash (n : Nat) (e : Ev) : (s.at_ n e).flash = s.flash := rfl
@[simp] theorem State.at_bootstat (n : Nat) (e : Ev) : (s.at_ n e).bootstat = s.bootstat := rfl
@[simp] theorem State.at_qtbase (n : Nat) (e : Ev) : (s.at_ n e).qtbase = s.qtbase := rfl
@[simp] theorem State.at_evbase (n : Nat) (e : Ev) : (s.at_ n e).evbase = s.evbase := rfl
@[simp] theorem State.at_evhead (n : Nat) (e : Ev) : (s.at_ n e).evhead = s.evhead := rfl
@[simp] theorem State.at_evtail (n : Nat) (e : Ev) : (s.at_ n e).evtail = s.evtail := rfl
@[simp] theorem State.at_evcfg (n : Nat) (e : Ev) : (s.at_ n e).evcfg = s.evcfg := rfl
@[simp] theorem State.at_ckshare (n : Nat) (e : Ev) : (s.at_ n e).ckshare = s.ckshare := rfl
@[simp] theorem State.at_lhost (n : Nat) (e : Ev) : (s.at_ n e).lhost = s.lhost := rfl
@[simp] theorem State.at_tq (n : Nat) (e : Ev) : (s.at_ n e).tq = s.tq := rfl
@[simp] theorem State.at_mapRows (n : Nat) (e : Ev) : (s.at_ n e).mapRows = s.mapRows := rfl
@[simp] theorem State.at_mapNext (n : Nat) (e : Ev) : (s.at_ n e).mapNext = s.mapNext := rfl
@[simp] theorem State.at_mapStat (n : Nat) (e : Ev) : (s.at_ n e).mapStat = s.mapStat := rfl
@[simp] theorem State.at_mapping (n : Nat) (e : Ev) : (s.at_ n e).mapping = s.mapping := rfl
@[simp] theorem State.at_queues (n : Nat) (e : Ev) : (s.at_ n e).queues = s.queues := rfl
@[simp] theorem State.at_launches (n : Nat) (e : Ev) : (s.at_ n e).launches = s.launches := rfl
@[simp] theorem State.at_prods (n : Nat) (e : Ev) : (s.at_ n e).prods = s.prods := rfl
@[simp] theorem State.at_shoots (n : Nat) (e : Ev) : (s.at_ n e).shoots = s.shoots := rfl
@[simp] theorem State.at_cutting (n : Nat) (e : Ev) : (s.at_ n e).cutting = s.cutting := rfl
@[simp] theorem State.at_cuts (n : Nat) (e : Ev) : (s.at_ n e).cuts = s.cuts := rfl
@[simp] theorem State.at_images (n : Nat) (e : Ev) : (s.at_ n e).images = s.images := rfl
@[simp] theorem State.at_requests (n : Nat) (e : Ev) : (s.at_ n e).requests = s.requests := rfl
@[simp] theorem State.at_sent (n : Nat) (e : Ev) : (s.at_ n e).sent = s.sent := rfl
@[simp] theorem State.at_dies (n : Nat) (e : Ev) : (s.at_ n e).dies = s.dies := rfl
@[simp] theorem State.at_faultWaits (n : Nat) (e : Ev) : (s.at_ n e).faultWaits = s.faultWaits := rfl
@[simp] theorem State.at_ovlLoads (n : Nat) (e : Ev) : (s.at_ n e).ovlLoads = s.ovlLoads := rfl
@[simp] theorem State.at_copies (n : Nat) (e : Ev) : (s.at_ n e).copies = s.copies := rfl
@[simp] theorem State.at_episodes (n : Nat) (e : Ev) : (s.at_ n e).episodes = s.episodes := rfl
@[simp] theorem State.at_refused (n : Nat) (e : Ev) : (s.at_ n e).refused = s.refused := rfl
@[simp] theorem State.at_acqWaits (n : Nat) (e : Ev) : (s.at_ n e).acqWaits = s.acqWaits := rfl
@[simp] theorem State.at_cacheActs (n : Nat) (e : Ev) : (s.at_ n e).cacheActs = s.cacheActs := rfl
@[simp] theorem State.at_cores (n : Nat) (e : Ev) : (s.at_ n e).cores = s.cores := rfl
@[simp] theorem State.at_contexts (n : Nat) (e : Ev) : (s.at_ n e).contexts = s.contexts := rfl
@[simp] theorem State.at_ensembles (n : Nat) (e : Ev) : (s.at_ n e).ensembles = s.ensembles := rfl
@[simp] theorem State.at_troupes (n : Nat) (e : Ev) : (s.at_ n e).troupes = s.troupes := rfl

/-! ### `State.modTroupe` -/

@[simp] theorem State.modTroupe_now (n : Nat) (f : Troupe → Troupe) : (s.modTroupe n f).now = s.now := rfl
@[simp] theorem State.modTroupe_tick (n : Nat) (f : Troupe → Troupe) : (s.modTroupe n f).tick = s.tick := rfl
@[simp] theorem State.modTroupe_agenda (n : Nat) (f : Troupe → Troupe) : (s.modTroupe n f).agenda = s.agenda := rfl
@[simp] theorem State.modTroupe_cur (n : Nat) (f : Troupe → Troupe) : (s.modTroupe n f).cur = s.cur := rfl
@[simp] theorem State.modTroupe_mem (n : Nat) (f : Troupe → Troupe) : (s.modTroupe n f).mem = s.mem := rfl
@[simp] theorem State.modTroupe_cached (n : Nat) (f : Troupe → Troupe) : (s.modTroupe n f).cached = s.cached := rfl
@[simp] theorem State.modTroupe_stackDiff (n : Nat) (f : Troupe → Troupe) : (s.modTroupe n f).stackDiff = s.stackDiff := rfl
@[simp] theorem State.modTroupe_mapRegs (n : Nat) (f : Troupe → Troupe) : (s.modTroupe n f).mapRegs = s.mapRegs := rfl
@[simp] theorem State.modTroupe_matrices (n : Nat) (f : Troupe → Troupe) : (s.modTroupe n f).matrices = s.matrices := rfl
@[simp] theorem State.modTroupe_partOf (n : Nat) (f : Troupe → Troupe) : (s.modTroupe n f).partOf = s.partOf := rfl
@[simp] theorem State.modTroupe_stackTab (n : Nat) (f : Troupe → Troupe) : (s.modTroupe n f).stackTab = s.stackTab := rfl
@[simp] theorem State.modTroupe_parts (n : Nat) (f : Troupe → Troupe) : (s.modTroupe n f).parts = s.parts := rfl
@[simp] theorem State.modTroupe_hall (n : Nat) (f : Troupe → Troupe) : (s.modTroupe n f).hall = s.hall := rfl
@[simp] theorem State.modTroupe_moduleCap (n : Nat) (f : Troupe → Troupe) : (s.modTroupe n f).moduleCap = s.moduleCap := rfl
@[simp] theorem State.modTroupe_flash (n : Nat) (f : Troupe → Troupe) : (s.modTroupe n f).flash = s.flash := rfl
@[simp] theorem State.modTroupe_bootstat (n : Nat) (f : Troupe → Troupe) : (s.modTroupe n f).bootstat = s.bootstat := rfl
@[simp] theorem State.modTroupe_qtbase (n : Nat) (f : Troupe → Troupe) : (s.modTroupe n f).qtbase = s.qtbase := rfl
@[simp] theorem State.modTroupe_evbase (n : Nat) (f : Troupe → Troupe) : (s.modTroupe n f).evbase = s.evbase := rfl
@[simp] theorem State.modTroupe_evhead (n : Nat) (f : Troupe → Troupe) : (s.modTroupe n f).evhead = s.evhead := rfl
@[simp] theorem State.modTroupe_evtail (n : Nat) (f : Troupe → Troupe) : (s.modTroupe n f).evtail = s.evtail := rfl
@[simp] theorem State.modTroupe_evcfg (n : Nat) (f : Troupe → Troupe) : (s.modTroupe n f).evcfg = s.evcfg := rfl
@[simp] theorem State.modTroupe_ckshare (n : Nat) (f : Troupe → Troupe) : (s.modTroupe n f).ckshare = s.ckshare := rfl
@[simp] theorem State.modTroupe_lhost (n : Nat) (f : Troupe → Troupe) : (s.modTroupe n f).lhost = s.lhost := rfl
@[simp] theorem State.modTroupe_tq (n : Nat) (f : Troupe → Troupe) : (s.modTroupe n f).tq = s.tq := rfl
@[simp] theorem State.modTroupe_mapRows (n : Nat) (f : Troupe → Troupe) : (s.modTroupe n f).mapRows = s.mapRows := rfl
@[simp] theorem State.modTroupe_mapNext (n : Nat) (f : Troupe → Troupe) : (s.modTroupe n f).mapNext = s.mapNext := rfl
@[simp] theorem State.modTroupe_mapStat (n : Nat) (f : Troupe → Troupe) : (s.modTroupe n f).mapStat = s.mapStat := rfl
@[simp] theorem State.modTroupe_mapping (n : Nat) (f : Troupe → Troupe) : (s.modTroupe n f).mapping = s.mapping := rfl
@[simp] theorem State.modTroupe_queues (n : Nat) (f : Troupe → Troupe) : (s.modTroupe n f).queues = s.queues := rfl
@[simp] theorem State.modTroupe_launches (n : Nat) (f : Troupe → Troupe) : (s.modTroupe n f).launches = s.launches := rfl
@[simp] theorem State.modTroupe_prods (n : Nat) (f : Troupe → Troupe) : (s.modTroupe n f).prods = s.prods := rfl
@[simp] theorem State.modTroupe_shoots (n : Nat) (f : Troupe → Troupe) : (s.modTroupe n f).shoots = s.shoots := rfl
@[simp] theorem State.modTroupe_cutting (n : Nat) (f : Troupe → Troupe) : (s.modTroupe n f).cutting = s.cutting := rfl
@[simp] theorem State.modTroupe_cuts (n : Nat) (f : Troupe → Troupe) : (s.modTroupe n f).cuts = s.cuts := rfl
@[simp] theorem State.modTroupe_images (n : Nat) (f : Troupe → Troupe) : (s.modTroupe n f).images = s.images := rfl
@[simp] theorem State.modTroupe_requests (n : Nat) (f : Troupe → Troupe) : (s.modTroupe n f).requests = s.requests := rfl
@[simp] theorem State.modTroupe_sent (n : Nat) (f : Troupe → Troupe) : (s.modTroupe n f).sent = s.sent := rfl
@[simp] theorem State.modTroupe_dies (n : Nat) (f : Troupe → Troupe) : (s.modTroupe n f).dies = s.dies := rfl
@[simp] theorem State.modTroupe_faultWaits (n : Nat) (f : Troupe → Troupe) : (s.modTroupe n f).faultWaits = s.faultWaits := rfl
@[simp] theorem State.modTroupe_ovlLoads (n : Nat) (f : Troupe → Troupe) : (s.modTroupe n f).ovlLoads = s.ovlLoads := rfl
@[simp] theorem State.modTroupe_copies (n : Nat) (f : Troupe → Troupe) : (s.modTroupe n f).copies = s.copies := rfl
@[simp] theorem State.modTroupe_episodes (n : Nat) (f : Troupe → Troupe) : (s.modTroupe n f).episodes = s.episodes := rfl
@[simp] theorem State.modTroupe_refused (n : Nat) (f : Troupe → Troupe) : (s.modTroupe n f).refused = s.refused := rfl
@[simp] theorem State.modTroupe_acqWaits (n : Nat) (f : Troupe → Troupe) : (s.modTroupe n f).acqWaits = s.acqWaits := rfl
@[simp] theorem State.modTroupe_cacheActs (n : Nat) (f : Troupe → Troupe) : (s.modTroupe n f).cacheActs = s.cacheActs := rfl
@[simp] theorem State.modTroupe_cores (n : Nat) (f : Troupe → Troupe) : (s.modTroupe n f).cores = s.cores := rfl
@[simp] theorem State.modTroupe_contexts (n : Nat) (f : Troupe → Troupe) : (s.modTroupe n f).contexts = s.contexts := rfl
@[simp] theorem State.modTroupe_ensembles (n : Nat) (f : Troupe → Troupe) : (s.modTroupe n f).ensembles = s.ensembles := rfl
@[simp] theorem State.modTroupe_troupes (n : Nat) (f : Troupe → Troupe) : (s.modTroupe n f).troupes = s.troupes.modify n f := rfl

/-! ### `State.modEns` -/

@[simp] theorem State.modEns_now (n : Nat) (f : Ensemble → Ensemble) : (s.modEns n f).now = s.now := rfl
@[simp] theorem State.modEns_tick (n : Nat) (f : Ensemble → Ensemble) : (s.modEns n f).tick = s.tick := rfl
@[simp] theorem State.modEns_agenda (n : Nat) (f : Ensemble → Ensemble) : (s.modEns n f).agenda = s.agenda := rfl
@[simp] theorem State.modEns_cur (n : Nat) (f : Ensemble → Ensemble) : (s.modEns n f).cur = s.cur := rfl
@[simp] theorem State.modEns_mem (n : Nat) (f : Ensemble → Ensemble) : (s.modEns n f).mem = s.mem := rfl
@[simp] theorem State.modEns_cached (n : Nat) (f : Ensemble → Ensemble) : (s.modEns n f).cached = s.cached := rfl
@[simp] theorem State.modEns_stackDiff (n : Nat) (f : Ensemble → Ensemble) : (s.modEns n f).stackDiff = s.stackDiff := rfl
@[simp] theorem State.modEns_mapRegs (n : Nat) (f : Ensemble → Ensemble) : (s.modEns n f).mapRegs = s.mapRegs := rfl
@[simp] theorem State.modEns_matrices (n : Nat) (f : Ensemble → Ensemble) : (s.modEns n f).matrices = s.matrices := rfl
@[simp] theorem State.modEns_partOf (n : Nat) (f : Ensemble → Ensemble) : (s.modEns n f).partOf = s.partOf := rfl
@[simp] theorem State.modEns_stackTab (n : Nat) (f : Ensemble → Ensemble) : (s.modEns n f).stackTab = s.stackTab := rfl
@[simp] theorem State.modEns_parts (n : Nat) (f : Ensemble → Ensemble) : (s.modEns n f).parts = s.parts := rfl
@[simp] theorem State.modEns_hall (n : Nat) (f : Ensemble → Ensemble) : (s.modEns n f).hall = s.hall := rfl
@[simp] theorem State.modEns_moduleCap (n : Nat) (f : Ensemble → Ensemble) : (s.modEns n f).moduleCap = s.moduleCap := rfl
@[simp] theorem State.modEns_flash (n : Nat) (f : Ensemble → Ensemble) : (s.modEns n f).flash = s.flash := rfl
@[simp] theorem State.modEns_bootstat (n : Nat) (f : Ensemble → Ensemble) : (s.modEns n f).bootstat = s.bootstat := rfl
@[simp] theorem State.modEns_qtbase (n : Nat) (f : Ensemble → Ensemble) : (s.modEns n f).qtbase = s.qtbase := rfl
@[simp] theorem State.modEns_evbase (n : Nat) (f : Ensemble → Ensemble) : (s.modEns n f).evbase = s.evbase := rfl
@[simp] theorem State.modEns_evhead (n : Nat) (f : Ensemble → Ensemble) : (s.modEns n f).evhead = s.evhead := rfl
@[simp] theorem State.modEns_evtail (n : Nat) (f : Ensemble → Ensemble) : (s.modEns n f).evtail = s.evtail := rfl
@[simp] theorem State.modEns_evcfg (n : Nat) (f : Ensemble → Ensemble) : (s.modEns n f).evcfg = s.evcfg := rfl
@[simp] theorem State.modEns_ckshare (n : Nat) (f : Ensemble → Ensemble) : (s.modEns n f).ckshare = s.ckshare := rfl
@[simp] theorem State.modEns_lhost (n : Nat) (f : Ensemble → Ensemble) : (s.modEns n f).lhost = s.lhost := rfl
@[simp] theorem State.modEns_tq (n : Nat) (f : Ensemble → Ensemble) : (s.modEns n f).tq = s.tq := rfl
@[simp] theorem State.modEns_mapRows (n : Nat) (f : Ensemble → Ensemble) : (s.modEns n f).mapRows = s.mapRows := rfl
@[simp] theorem State.modEns_mapNext (n : Nat) (f : Ensemble → Ensemble) : (s.modEns n f).mapNext = s.mapNext := rfl
@[simp] theorem State.modEns_mapStat (n : Nat) (f : Ensemble → Ensemble) : (s.modEns n f).mapStat = s.mapStat := rfl
@[simp] theorem State.modEns_mapping (n : Nat) (f : Ensemble → Ensemble) : (s.modEns n f).mapping = s.mapping := rfl
@[simp] theorem State.modEns_queues (n : Nat) (f : Ensemble → Ensemble) : (s.modEns n f).queues = s.queues := rfl
@[simp] theorem State.modEns_launches (n : Nat) (f : Ensemble → Ensemble) : (s.modEns n f).launches = s.launches := rfl
@[simp] theorem State.modEns_prods (n : Nat) (f : Ensemble → Ensemble) : (s.modEns n f).prods = s.prods := rfl
@[simp] theorem State.modEns_shoots (n : Nat) (f : Ensemble → Ensemble) : (s.modEns n f).shoots = s.shoots := rfl
@[simp] theorem State.modEns_cutting (n : Nat) (f : Ensemble → Ensemble) : (s.modEns n f).cutting = s.cutting := rfl
@[simp] theorem State.modEns_cuts (n : Nat) (f : Ensemble → Ensemble) : (s.modEns n f).cuts = s.cuts := rfl
@[simp] theorem State.modEns_images (n : Nat) (f : Ensemble → Ensemble) : (s.modEns n f).images = s.images := rfl
@[simp] theorem State.modEns_requests (n : Nat) (f : Ensemble → Ensemble) : (s.modEns n f).requests = s.requests := rfl
@[simp] theorem State.modEns_sent (n : Nat) (f : Ensemble → Ensemble) : (s.modEns n f).sent = s.sent := rfl
@[simp] theorem State.modEns_dies (n : Nat) (f : Ensemble → Ensemble) : (s.modEns n f).dies = s.dies := rfl
@[simp] theorem State.modEns_faultWaits (n : Nat) (f : Ensemble → Ensemble) : (s.modEns n f).faultWaits = s.faultWaits := rfl
@[simp] theorem State.modEns_ovlLoads (n : Nat) (f : Ensemble → Ensemble) : (s.modEns n f).ovlLoads = s.ovlLoads := rfl
@[simp] theorem State.modEns_copies (n : Nat) (f : Ensemble → Ensemble) : (s.modEns n f).copies = s.copies := rfl
@[simp] theorem State.modEns_episodes (n : Nat) (f : Ensemble → Ensemble) : (s.modEns n f).episodes = s.episodes := rfl
@[simp] theorem State.modEns_refused (n : Nat) (f : Ensemble → Ensemble) : (s.modEns n f).refused = s.refused := rfl
@[simp] theorem State.modEns_acqWaits (n : Nat) (f : Ensemble → Ensemble) : (s.modEns n f).acqWaits = s.acqWaits := rfl
@[simp] theorem State.modEns_cacheActs (n : Nat) (f : Ensemble → Ensemble) : (s.modEns n f).cacheActs = s.cacheActs := rfl
@[simp] theorem State.modEns_cores (n : Nat) (f : Ensemble → Ensemble) : (s.modEns n f).cores = s.cores := rfl
@[simp] theorem State.modEns_contexts (n : Nat) (f : Ensemble → Ensemble) : (s.modEns n f).contexts = s.contexts := rfl
@[simp] theorem State.modEns_ensembles (n : Nat) (f : Ensemble → Ensemble) : (s.modEns n f).ensembles = s.ensembles.modify n f := rfl
@[simp] theorem State.modEns_troupes (n : Nat) (f : Ensemble → Ensemble) : (s.modEns n f).troupes = s.troupes := rfl

/-! ### `State.modCtx` -/

@[simp] theorem State.modCtx_now (n : Nat) (f : Context → Context) : (s.modCtx n f).now = s.now := rfl
@[simp] theorem State.modCtx_tick (n : Nat) (f : Context → Context) : (s.modCtx n f).tick = s.tick := rfl
@[simp] theorem State.modCtx_agenda (n : Nat) (f : Context → Context) : (s.modCtx n f).agenda = s.agenda := rfl
@[simp] theorem State.modCtx_cur (n : Nat) (f : Context → Context) : (s.modCtx n f).cur = s.cur := rfl
@[simp] theorem State.modCtx_mem (n : Nat) (f : Context → Context) : (s.modCtx n f).mem = s.mem := rfl
@[simp] theorem State.modCtx_cached (n : Nat) (f : Context → Context) : (s.modCtx n f).cached = s.cached := rfl
@[simp] theorem State.modCtx_stackDiff (n : Nat) (f : Context → Context) : (s.modCtx n f).stackDiff = s.stackDiff := rfl
@[simp] theorem State.modCtx_mapRegs (n : Nat) (f : Context → Context) : (s.modCtx n f).mapRegs = s.mapRegs := rfl
@[simp] theorem State.modCtx_matrices (n : Nat) (f : Context → Context) : (s.modCtx n f).matrices = s.matrices := rfl
@[simp] theorem State.modCtx_partOf (n : Nat) (f : Context → Context) : (s.modCtx n f).partOf = s.partOf := rfl
@[simp] theorem State.modCtx_stackTab (n : Nat) (f : Context → Context) : (s.modCtx n f).stackTab = s.stackTab := rfl
@[simp] theorem State.modCtx_parts (n : Nat) (f : Context → Context) : (s.modCtx n f).parts = s.parts := rfl
@[simp] theorem State.modCtx_hall (n : Nat) (f : Context → Context) : (s.modCtx n f).hall = s.hall := rfl
@[simp] theorem State.modCtx_moduleCap (n : Nat) (f : Context → Context) : (s.modCtx n f).moduleCap = s.moduleCap := rfl
@[simp] theorem State.modCtx_flash (n : Nat) (f : Context → Context) : (s.modCtx n f).flash = s.flash := rfl
@[simp] theorem State.modCtx_bootstat (n : Nat) (f : Context → Context) : (s.modCtx n f).bootstat = s.bootstat := rfl
@[simp] theorem State.modCtx_qtbase (n : Nat) (f : Context → Context) : (s.modCtx n f).qtbase = s.qtbase := rfl
@[simp] theorem State.modCtx_evbase (n : Nat) (f : Context → Context) : (s.modCtx n f).evbase = s.evbase := rfl
@[simp] theorem State.modCtx_evhead (n : Nat) (f : Context → Context) : (s.modCtx n f).evhead = s.evhead := rfl
@[simp] theorem State.modCtx_evtail (n : Nat) (f : Context → Context) : (s.modCtx n f).evtail = s.evtail := rfl
@[simp] theorem State.modCtx_evcfg (n : Nat) (f : Context → Context) : (s.modCtx n f).evcfg = s.evcfg := rfl
@[simp] theorem State.modCtx_ckshare (n : Nat) (f : Context → Context) : (s.modCtx n f).ckshare = s.ckshare := rfl
@[simp] theorem State.modCtx_lhost (n : Nat) (f : Context → Context) : (s.modCtx n f).lhost = s.lhost := rfl
@[simp] theorem State.modCtx_tq (n : Nat) (f : Context → Context) : (s.modCtx n f).tq = s.tq := rfl
@[simp] theorem State.modCtx_mapRows (n : Nat) (f : Context → Context) : (s.modCtx n f).mapRows = s.mapRows := rfl
@[simp] theorem State.modCtx_mapNext (n : Nat) (f : Context → Context) : (s.modCtx n f).mapNext = s.mapNext := rfl
@[simp] theorem State.modCtx_mapStat (n : Nat) (f : Context → Context) : (s.modCtx n f).mapStat = s.mapStat := rfl
@[simp] theorem State.modCtx_mapping (n : Nat) (f : Context → Context) : (s.modCtx n f).mapping = s.mapping := rfl
@[simp] theorem State.modCtx_queues (n : Nat) (f : Context → Context) : (s.modCtx n f).queues = s.queues := rfl
@[simp] theorem State.modCtx_launches (n : Nat) (f : Context → Context) : (s.modCtx n f).launches = s.launches := rfl
@[simp] theorem State.modCtx_prods (n : Nat) (f : Context → Context) : (s.modCtx n f).prods = s.prods := rfl
@[simp] theorem State.modCtx_shoots (n : Nat) (f : Context → Context) : (s.modCtx n f).shoots = s.shoots := rfl
@[simp] theorem State.modCtx_cutting (n : Nat) (f : Context → Context) : (s.modCtx n f).cutting = s.cutting := rfl
@[simp] theorem State.modCtx_cuts (n : Nat) (f : Context → Context) : (s.modCtx n f).cuts = s.cuts := rfl
@[simp] theorem State.modCtx_images (n : Nat) (f : Context → Context) : (s.modCtx n f).images = s.images := rfl
@[simp] theorem State.modCtx_requests (n : Nat) (f : Context → Context) : (s.modCtx n f).requests = s.requests := rfl
@[simp] theorem State.modCtx_sent (n : Nat) (f : Context → Context) : (s.modCtx n f).sent = s.sent := rfl
@[simp] theorem State.modCtx_dies (n : Nat) (f : Context → Context) : (s.modCtx n f).dies = s.dies := rfl
@[simp] theorem State.modCtx_faultWaits (n : Nat) (f : Context → Context) : (s.modCtx n f).faultWaits = s.faultWaits := rfl
@[simp] theorem State.modCtx_ovlLoads (n : Nat) (f : Context → Context) : (s.modCtx n f).ovlLoads = s.ovlLoads := rfl
@[simp] theorem State.modCtx_copies (n : Nat) (f : Context → Context) : (s.modCtx n f).copies = s.copies := rfl
@[simp] theorem State.modCtx_episodes (n : Nat) (f : Context → Context) : (s.modCtx n f).episodes = s.episodes := rfl
@[simp] theorem State.modCtx_refused (n : Nat) (f : Context → Context) : (s.modCtx n f).refused = s.refused := rfl
@[simp] theorem State.modCtx_acqWaits (n : Nat) (f : Context → Context) : (s.modCtx n f).acqWaits = s.acqWaits := rfl
@[simp] theorem State.modCtx_cacheActs (n : Nat) (f : Context → Context) : (s.modCtx n f).cacheActs = s.cacheActs := rfl
@[simp] theorem State.modCtx_cores (n : Nat) (f : Context → Context) : (s.modCtx n f).cores = s.cores := rfl
@[simp] theorem State.modCtx_contexts (n : Nat) (f : Context → Context) : (s.modCtx n f).contexts = s.contexts.modify n f := rfl
@[simp] theorem State.modCtx_ensembles (n : Nat) (f : Context → Context) : (s.modCtx n f).ensembles = s.ensembles := rfl
@[simp] theorem State.modCtx_troupes (n : Nat) (f : Context → Context) : (s.modCtx n f).troupes = s.troupes := rfl

/-! ### `State.modCore` -/

@[simp] theorem State.modCore_now (n : Nat) (f : Core → Core) : (s.modCore n f).now = s.now := rfl
@[simp] theorem State.modCore_tick (n : Nat) (f : Core → Core) : (s.modCore n f).tick = s.tick := rfl
@[simp] theorem State.modCore_agenda (n : Nat) (f : Core → Core) : (s.modCore n f).agenda = s.agenda := rfl
@[simp] theorem State.modCore_cur (n : Nat) (f : Core → Core) : (s.modCore n f).cur = s.cur := rfl
@[simp] theorem State.modCore_mem (n : Nat) (f : Core → Core) : (s.modCore n f).mem = s.mem := rfl
@[simp] theorem State.modCore_cached (n : Nat) (f : Core → Core) : (s.modCore n f).cached = s.cached := rfl
@[simp] theorem State.modCore_stackDiff (n : Nat) (f : Core → Core) : (s.modCore n f).stackDiff = s.stackDiff := rfl
@[simp] theorem State.modCore_mapRegs (n : Nat) (f : Core → Core) : (s.modCore n f).mapRegs = s.mapRegs := rfl
@[simp] theorem State.modCore_matrices (n : Nat) (f : Core → Core) : (s.modCore n f).matrices = s.matrices := rfl
@[simp] theorem State.modCore_partOf (n : Nat) (f : Core → Core) : (s.modCore n f).partOf = s.partOf := rfl
@[simp] theorem State.modCore_stackTab (n : Nat) (f : Core → Core) : (s.modCore n f).stackTab = s.stackTab := rfl
@[simp] theorem State.modCore_parts (n : Nat) (f : Core → Core) : (s.modCore n f).parts = s.parts := rfl
@[simp] theorem State.modCore_hall (n : Nat) (f : Core → Core) : (s.modCore n f).hall = s.hall := rfl
@[simp] theorem State.modCore_moduleCap (n : Nat) (f : Core → Core) : (s.modCore n f).moduleCap = s.moduleCap := rfl
@[simp] theorem State.modCore_flash (n : Nat) (f : Core → Core) : (s.modCore n f).flash = s.flash := rfl
@[simp] theorem State.modCore_bootstat (n : Nat) (f : Core → Core) : (s.modCore n f).bootstat = s.bootstat := rfl
@[simp] theorem State.modCore_qtbase (n : Nat) (f : Core → Core) : (s.modCore n f).qtbase = s.qtbase := rfl
@[simp] theorem State.modCore_evbase (n : Nat) (f : Core → Core) : (s.modCore n f).evbase = s.evbase := rfl
@[simp] theorem State.modCore_evhead (n : Nat) (f : Core → Core) : (s.modCore n f).evhead = s.evhead := rfl
@[simp] theorem State.modCore_evtail (n : Nat) (f : Core → Core) : (s.modCore n f).evtail = s.evtail := rfl
@[simp] theorem State.modCore_evcfg (n : Nat) (f : Core → Core) : (s.modCore n f).evcfg = s.evcfg := rfl
@[simp] theorem State.modCore_ckshare (n : Nat) (f : Core → Core) : (s.modCore n f).ckshare = s.ckshare := rfl
@[simp] theorem State.modCore_lhost (n : Nat) (f : Core → Core) : (s.modCore n f).lhost = s.lhost := rfl
@[simp] theorem State.modCore_tq (n : Nat) (f : Core → Core) : (s.modCore n f).tq = s.tq := rfl
@[simp] theorem State.modCore_mapRows (n : Nat) (f : Core → Core) : (s.modCore n f).mapRows = s.mapRows := rfl
@[simp] theorem State.modCore_mapNext (n : Nat) (f : Core → Core) : (s.modCore n f).mapNext = s.mapNext := rfl
@[simp] theorem State.modCore_mapStat (n : Nat) (f : Core → Core) : (s.modCore n f).mapStat = s.mapStat := rfl
@[simp] theorem State.modCore_mapping (n : Nat) (f : Core → Core) : (s.modCore n f).mapping = s.mapping := rfl
@[simp] theorem State.modCore_queues (n : Nat) (f : Core → Core) : (s.modCore n f).queues = s.queues := rfl
@[simp] theorem State.modCore_launches (n : Nat) (f : Core → Core) : (s.modCore n f).launches = s.launches := rfl
@[simp] theorem State.modCore_prods (n : Nat) (f : Core → Core) : (s.modCore n f).prods = s.prods := rfl
@[simp] theorem State.modCore_shoots (n : Nat) (f : Core → Core) : (s.modCore n f).shoots = s.shoots := rfl
@[simp] theorem State.modCore_cutting (n : Nat) (f : Core → Core) : (s.modCore n f).cutting = s.cutting := rfl
@[simp] theorem State.modCore_cuts (n : Nat) (f : Core → Core) : (s.modCore n f).cuts = s.cuts := rfl
@[simp] theorem State.modCore_images (n : Nat) (f : Core → Core) : (s.modCore n f).images = s.images := rfl
@[simp] theorem State.modCore_requests (n : Nat) (f : Core → Core) : (s.modCore n f).requests = s.requests := rfl
@[simp] theorem State.modCore_sent (n : Nat) (f : Core → Core) : (s.modCore n f).sent = s.sent := rfl
@[simp] theorem State.modCore_dies (n : Nat) (f : Core → Core) : (s.modCore n f).dies = s.dies := rfl
@[simp] theorem State.modCore_faultWaits (n : Nat) (f : Core → Core) : (s.modCore n f).faultWaits = s.faultWaits := rfl
@[simp] theorem State.modCore_ovlLoads (n : Nat) (f : Core → Core) : (s.modCore n f).ovlLoads = s.ovlLoads := rfl
@[simp] theorem State.modCore_copies (n : Nat) (f : Core → Core) : (s.modCore n f).copies = s.copies := rfl
@[simp] theorem State.modCore_episodes (n : Nat) (f : Core → Core) : (s.modCore n f).episodes = s.episodes := rfl
@[simp] theorem State.modCore_refused (n : Nat) (f : Core → Core) : (s.modCore n f).refused = s.refused := rfl
@[simp] theorem State.modCore_acqWaits (n : Nat) (f : Core → Core) : (s.modCore n f).acqWaits = s.acqWaits := rfl
@[simp] theorem State.modCore_cacheActs (n : Nat) (f : Core → Core) : (s.modCore n f).cacheActs = s.cacheActs := rfl
@[simp] theorem State.modCore_cores (n : Nat) (f : Core → Core) : (s.modCore n f).cores = s.cores.put n (f (s.core n)) := rfl
@[simp] theorem State.modCore_contexts (n : Nat) (f : Core → Core) : (s.modCore n f).contexts = s.contexts := rfl
@[simp] theorem State.modCore_ensembles (n : Nat) (f : Core → Core) : (s.modCore n f).ensembles = s.ensembles := rfl
@[simp] theorem State.modCore_troupes (n : Nat) (f : Core → Core) : (s.modCore n f).troupes = s.troupes := rfl

/-! ### `State.modDie` -/

@[simp] theorem State.modDie_now (n : Nat) (f : Die → Die) : (s.modDie n f).now = s.now := rfl
@[simp] theorem State.modDie_tick (n : Nat) (f : Die → Die) : (s.modDie n f).tick = s.tick := rfl
@[simp] theorem State.modDie_agenda (n : Nat) (f : Die → Die) : (s.modDie n f).agenda = s.agenda := rfl
@[simp] theorem State.modDie_cur (n : Nat) (f : Die → Die) : (s.modDie n f).cur = s.cur := rfl
@[simp] theorem State.modDie_mem (n : Nat) (f : Die → Die) : (s.modDie n f).mem = s.mem := rfl
@[simp] theorem State.modDie_cached (n : Nat) (f : Die → Die) : (s.modDie n f).cached = s.cached := rfl
@[simp] theorem State.modDie_stackDiff (n : Nat) (f : Die → Die) : (s.modDie n f).stackDiff = s.stackDiff := rfl
@[simp] theorem State.modDie_mapRegs (n : Nat) (f : Die → Die) : (s.modDie n f).mapRegs = s.mapRegs := rfl
@[simp] theorem State.modDie_matrices (n : Nat) (f : Die → Die) : (s.modDie n f).matrices = s.matrices := rfl
@[simp] theorem State.modDie_partOf (n : Nat) (f : Die → Die) : (s.modDie n f).partOf = s.partOf := rfl
@[simp] theorem State.modDie_stackTab (n : Nat) (f : Die → Die) : (s.modDie n f).stackTab = s.stackTab := rfl
@[simp] theorem State.modDie_parts (n : Nat) (f : Die → Die) : (s.modDie n f).parts = s.parts := rfl
@[simp] theorem State.modDie_hall (n : Nat) (f : Die → Die) : (s.modDie n f).hall = s.hall := rfl
@[simp] theorem State.modDie_moduleCap (n : Nat) (f : Die → Die) : (s.modDie n f).moduleCap = s.moduleCap := rfl
@[simp] theorem State.modDie_flash (n : Nat) (f : Die → Die) : (s.modDie n f).flash = s.flash := rfl
@[simp] theorem State.modDie_bootstat (n : Nat) (f : Die → Die) : (s.modDie n f).bootstat = s.bootstat := rfl
@[simp] theorem State.modDie_qtbase (n : Nat) (f : Die → Die) : (s.modDie n f).qtbase = s.qtbase := rfl
@[simp] theorem State.modDie_evbase (n : Nat) (f : Die → Die) : (s.modDie n f).evbase = s.evbase := rfl
@[simp] theorem State.modDie_evhead (n : Nat) (f : Die → Die) : (s.modDie n f).evhead = s.evhead := rfl
@[simp] theorem State.modDie_evtail (n : Nat) (f : Die → Die) : (s.modDie n f).evtail = s.evtail := rfl
@[simp] theorem State.modDie_evcfg (n : Nat) (f : Die → Die) : (s.modDie n f).evcfg = s.evcfg := rfl
@[simp] theorem State.modDie_ckshare (n : Nat) (f : Die → Die) : (s.modDie n f).ckshare = s.ckshare := rfl
@[simp] theorem State.modDie_lhost (n : Nat) (f : Die → Die) : (s.modDie n f).lhost = s.lhost := rfl
@[simp] theorem State.modDie_tq (n : Nat) (f : Die → Die) : (s.modDie n f).tq = s.tq := rfl
@[simp] theorem State.modDie_mapRows (n : Nat) (f : Die → Die) : (s.modDie n f).mapRows = s.mapRows := rfl
@[simp] theorem State.modDie_mapNext (n : Nat) (f : Die → Die) : (s.modDie n f).mapNext = s.mapNext := rfl
@[simp] theorem State.modDie_mapStat (n : Nat) (f : Die → Die) : (s.modDie n f).mapStat = s.mapStat := rfl
@[simp] theorem State.modDie_mapping (n : Nat) (f : Die → Die) : (s.modDie n f).mapping = s.mapping := rfl
@[simp] theorem State.modDie_queues (n : Nat) (f : Die → Die) : (s.modDie n f).queues = s.queues := rfl
@[simp] theorem State.modDie_launches (n : Nat) (f : Die → Die) : (s.modDie n f).launches = s.launches := rfl
@[simp] theorem State.modDie_prods (n : Nat) (f : Die → Die) : (s.modDie n f).prods = s.prods := rfl
@[simp] theorem State.modDie_shoots (n : Nat) (f : Die → Die) : (s.modDie n f).shoots = s.shoots := rfl
@[simp] theorem State.modDie_cutting (n : Nat) (f : Die → Die) : (s.modDie n f).cutting = s.cutting := rfl
@[simp] theorem State.modDie_cuts (n : Nat) (f : Die → Die) : (s.modDie n f).cuts = s.cuts := rfl
@[simp] theorem State.modDie_images (n : Nat) (f : Die → Die) : (s.modDie n f).images = s.images := rfl
@[simp] theorem State.modDie_requests (n : Nat) (f : Die → Die) : (s.modDie n f).requests = s.requests := rfl
@[simp] theorem State.modDie_sent (n : Nat) (f : Die → Die) : (s.modDie n f).sent = s.sent := rfl
@[simp] theorem State.modDie_dies (n : Nat) (f : Die → Die) : (s.modDie n f).dies = s.dies.put n (f (s.die n)) := rfl
@[simp] theorem State.modDie_faultWaits (n : Nat) (f : Die → Die) : (s.modDie n f).faultWaits = s.faultWaits := rfl
@[simp] theorem State.modDie_ovlLoads (n : Nat) (f : Die → Die) : (s.modDie n f).ovlLoads = s.ovlLoads := rfl
@[simp] theorem State.modDie_copies (n : Nat) (f : Die → Die) : (s.modDie n f).copies = s.copies := rfl
@[simp] theorem State.modDie_episodes (n : Nat) (f : Die → Die) : (s.modDie n f).episodes = s.episodes := rfl
@[simp] theorem State.modDie_refused (n : Nat) (f : Die → Die) : (s.modDie n f).refused = s.refused := rfl
@[simp] theorem State.modDie_acqWaits (n : Nat) (f : Die → Die) : (s.modDie n f).acqWaits = s.acqWaits := rfl
@[simp] theorem State.modDie_cacheActs (n : Nat) (f : Die → Die) : (s.modDie n f).cacheActs = s.cacheActs := rfl
@[simp] theorem State.modDie_cores (n : Nat) (f : Die → Die) : (s.modDie n f).cores = s.cores := rfl
@[simp] theorem State.modDie_contexts (n : Nat) (f : Die → Die) : (s.modDie n f).contexts = s.contexts := rfl
@[simp] theorem State.modDie_ensembles (n : Nat) (f : Die → Die) : (s.modDie n f).ensembles = s.ensembles := rfl
@[simp] theorem State.modDie_troupes (n : Nat) (f : Die → Die) : (s.modDie n f).troupes = s.troupes := rfl

/-! ### `State.modStack` -/

@[simp] theorem State.modStack_now (n : Nat) (f : Stack → Stack) : (s.modStack n f).now = s.now := rfl
@[simp] theorem State.modStack_tick (n : Nat) (f : Stack → Stack) : (s.modStack n f).tick = s.tick := rfl
@[simp] theorem State.modStack_agenda (n : Nat) (f : Stack → Stack) : (s.modStack n f).agenda = s.agenda := rfl
@[simp] theorem State.modStack_cur (n : Nat) (f : Stack → Stack) : (s.modStack n f).cur = s.cur := rfl
@[simp] theorem State.modStack_mem (n : Nat) (f : Stack → Stack) : (s.modStack n f).mem = s.mem := rfl
@[simp] theorem State.modStack_cached (n : Nat) (f : Stack → Stack) : (s.modStack n f).cached = s.cached := rfl
@[simp] theorem State.modStack_stackDiff (n : Nat) (f : Stack → Stack) : (s.modStack n f).stackDiff = s.stackDiff := rfl
@[simp] theorem State.modStack_mapRegs (n : Nat) (f : Stack → Stack) : (s.modStack n f).mapRegs = s.mapRegs := rfl
@[simp] theorem State.modStack_matrices (n : Nat) (f : Stack → Stack) : (s.modStack n f).matrices = s.matrices := rfl
@[simp] theorem State.modStack_partOf (n : Nat) (f : Stack → Stack) : (s.modStack n f).partOf = s.partOf := rfl
@[simp] theorem State.modStack_stackTab (n : Nat) (f : Stack → Stack) : (s.modStack n f).stackTab = s.stackTab.put n (f (s.stack n)) := rfl
@[simp] theorem State.modStack_parts (n : Nat) (f : Stack → Stack) : (s.modStack n f).parts = s.parts := rfl
@[simp] theorem State.modStack_hall (n : Nat) (f : Stack → Stack) : (s.modStack n f).hall = s.hall := rfl
@[simp] theorem State.modStack_moduleCap (n : Nat) (f : Stack → Stack) : (s.modStack n f).moduleCap = s.moduleCap := rfl
@[simp] theorem State.modStack_flash (n : Nat) (f : Stack → Stack) : (s.modStack n f).flash = s.flash := rfl
@[simp] theorem State.modStack_bootstat (n : Nat) (f : Stack → Stack) : (s.modStack n f).bootstat = s.bootstat := rfl
@[simp] theorem State.modStack_qtbase (n : Nat) (f : Stack → Stack) : (s.modStack n f).qtbase = s.qtbase := rfl
@[simp] theorem State.modStack_evbase (n : Nat) (f : Stack → Stack) : (s.modStack n f).evbase = s.evbase := rfl
@[simp] theorem State.modStack_evhead (n : Nat) (f : Stack → Stack) : (s.modStack n f).evhead = s.evhead := rfl
@[simp] theorem State.modStack_evtail (n : Nat) (f : Stack → Stack) : (s.modStack n f).evtail = s.evtail := rfl
@[simp] theorem State.modStack_evcfg (n : Nat) (f : Stack → Stack) : (s.modStack n f).evcfg = s.evcfg := rfl
@[simp] theorem State.modStack_ckshare (n : Nat) (f : Stack → Stack) : (s.modStack n f).ckshare = s.ckshare := rfl
@[simp] theorem State.modStack_lhost (n : Nat) (f : Stack → Stack) : (s.modStack n f).lhost = s.lhost := rfl
@[simp] theorem State.modStack_tq (n : Nat) (f : Stack → Stack) : (s.modStack n f).tq = s.tq := rfl
@[simp] theorem State.modStack_mapRows (n : Nat) (f : Stack → Stack) : (s.modStack n f).mapRows = s.mapRows := rfl
@[simp] theorem State.modStack_mapNext (n : Nat) (f : Stack → Stack) : (s.modStack n f).mapNext = s.mapNext := rfl
@[simp] theorem State.modStack_mapStat (n : Nat) (f : Stack → Stack) : (s.modStack n f).mapStat = s.mapStat := rfl
@[simp] theorem State.modStack_mapping (n : Nat) (f : Stack → Stack) : (s.modStack n f).mapping = s.mapping := rfl
@[simp] theorem State.modStack_queues (n : Nat) (f : Stack → Stack) : (s.modStack n f).queues = s.queues := rfl
@[simp] theorem State.modStack_launches (n : Nat) (f : Stack → Stack) : (s.modStack n f).launches = s.launches := rfl
@[simp] theorem State.modStack_prods (n : Nat) (f : Stack → Stack) : (s.modStack n f).prods = s.prods := rfl
@[simp] theorem State.modStack_shoots (n : Nat) (f : Stack → Stack) : (s.modStack n f).shoots = s.shoots := rfl
@[simp] theorem State.modStack_cutting (n : Nat) (f : Stack → Stack) : (s.modStack n f).cutting = s.cutting := rfl
@[simp] theorem State.modStack_cuts (n : Nat) (f : Stack → Stack) : (s.modStack n f).cuts = s.cuts := rfl
@[simp] theorem State.modStack_images (n : Nat) (f : Stack → Stack) : (s.modStack n f).images = s.images := rfl
@[simp] theorem State.modStack_requests (n : Nat) (f : Stack → Stack) : (s.modStack n f).requests = s.requests := rfl
@[simp] theorem State.modStack_sent (n : Nat) (f : Stack → Stack) : (s.modStack n f).sent = s.sent := rfl
@[simp] theorem State.modStack_dies (n : Nat) (f : Stack → Stack) : (s.modStack n f).dies = s.dies := rfl
@[simp] theorem State.modStack_faultWaits (n : Nat) (f : Stack → Stack) : (s.modStack n f).faultWaits = s.faultWaits := rfl
@[simp] theorem State.modStack_ovlLoads (n : Nat) (f : Stack → Stack) : (s.modStack n f).ovlLoads = s.ovlLoads := rfl
@[simp] theorem State.modStack_copies (n : Nat) (f : Stack → Stack) : (s.modStack n f).copies = s.copies := rfl
@[simp] theorem State.modStack_episodes (n : Nat) (f : Stack → Stack) : (s.modStack n f).episodes = s.episodes := rfl
@[simp] theorem State.modStack_refused (n : Nat) (f : Stack → Stack) : (s.modStack n f).refused = s.refused := rfl
@[simp] theorem State.modStack_acqWaits (n : Nat) (f : Stack → Stack) : (s.modStack n f).acqWaits = s.acqWaits := rfl
@[simp] theorem State.modStack_cacheActs (n : Nat) (f : Stack → Stack) : (s.modStack n f).cacheActs = s.cacheActs := rfl
@[simp] theorem State.modStack_cores (n : Nat) (f : Stack → Stack) : (s.modStack n f).cores = s.cores := rfl
@[simp] theorem State.modStack_contexts (n : Nat) (f : Stack → Stack) : (s.modStack n f).contexts = s.contexts := rfl
@[simp] theorem State.modStack_ensembles (n : Nat) (f : Stack → Stack) : (s.modStack n f).ensembles = s.ensembles := rfl
@[simp] theorem State.modStack_troupes (n : Nat) (f : Stack → Stack) : (s.modStack n f).troupes = s.troupes := rfl

/-! ### `State.atAll` and `State.settle` -/

theorem State.atAll_eq (due : Nat) (l : List Ev) : s.atAll due l = { s with agenda := (s.atAll due l).agenda } := by
  unfold State.atAll
  induction l generalizing s with
  | nil => rfl
  | cons e l ih => rw [List.foldl_cons, ih (s.at_ due e)]; rfl

@[simp] theorem State.atAll_now (due : Nat) (l : List Ev) : (s.atAll due l).now = s.now := by rw [State.atAll_eq]
@[simp] theorem State.settle_now (tid due : Nat) : (s.settle tid due).now = s.now := rfl
@[simp] theorem State.atAll_tick (due : Nat) (l : List Ev) : (s.atAll due l).tick = s.tick := by rw [State.atAll_eq]
@[simp] theorem State.settle_tick (tid due : Nat) : (s.settle tid due).tick = s.tick := rfl
@[simp] theorem State.atAll_cur (due : Nat) (l : List Ev) : (s.atAll due l).cur = s.cur := by rw [State.atAll_eq]
@[simp] theorem State.settle_cur (tid due : Nat) : (s.settle tid due).cur = s.cur := rfl
@[simp] theorem State.atAll_mem (due : Nat) (l : List Ev) : (s.atAll due l).mem = s.mem := by rw [State.atAll_eq]
@[simp] theorem State.settle_mem (tid due : Nat) : (s.settle tid due).mem = s.mem := rfl
@[simp] theorem State.atAll_cached (due : Nat) (l : List Ev) : (s.atAll due l).cached = s.cached := by rw [State.atAll_eq]
@[simp] theorem State.settle_cached (tid due : Nat) : (s.settle tid due).cached = s.cached := rfl
@[simp] theorem State.atAll_stackDiff (due : Nat) (l : List Ev) : (s.atAll due l).stackDiff = s.stackDiff := by rw [State.atAll_eq]
@[simp] theorem State.settle_stackDiff (tid due : Nat) : (s.settle tid due).stackDiff = s.stackDiff := rfl
@[simp] theorem State.atAll_mapRegs (due : Nat) (l : List Ev) : (s.atAll due l).mapRegs = s.mapRegs := by rw [State.atAll_eq]
@[simp] theorem State.settle_mapRegs (tid due : Nat) : (s.settle tid due).mapRegs = s.mapRegs := rfl
@[simp] theorem State.atAll_matrices (due : Nat) (l : List Ev) : (s.atAll due l).matrices = s.matrices := by rw [State.atAll_eq]
@[simp] theorem State.settle_matrices (tid due : Nat) : (s.settle tid due).matrices = s.matrices := rfl
@[simp] theorem State.atAll_partOf (due : Nat) (l : List Ev) : (s.atAll due l).partOf = s.partOf := by rw [State.atAll_eq]
@[simp] theorem State.settle_partOf (tid due : Nat) : (s.settle tid due).partOf = s.partOf := rfl
@[simp] theorem State.atAll_stackTab (due : Nat) (l : List Ev) : (s.atAll due l).stackTab = s.stackTab := by rw [State.atAll_eq]
@[simp] theorem State.settle_stackTab (tid due : Nat) : (s.settle tid due).stackTab = s.stackTab := rfl
@[simp] theorem State.atAll_parts (due : Nat) (l : List Ev) : (s.atAll due l).parts = s.parts := by rw [State.atAll_eq]
@[simp] theorem State.settle_parts (tid due : Nat) : (s.settle tid due).parts = s.parts := rfl
@[simp] theorem State.atAll_hall (due : Nat) (l : List Ev) : (s.atAll due l).hall = s.hall := by rw [State.atAll_eq]
@[simp] theorem State.settle_hall (tid due : Nat) : (s.settle tid due).hall = s.hall := rfl
@[simp] theorem State.atAll_moduleCap (due : Nat) (l : List Ev) : (s.atAll due l).moduleCap = s.moduleCap := by rw [State.atAll_eq]
@[simp] theorem State.settle_moduleCap (tid due : Nat) : (s.settle tid due).moduleCap = s.moduleCap := rfl
@[simp] theorem State.atAll_flash (due : Nat) (l : List Ev) : (s.atAll due l).flash = s.flash := by rw [State.atAll_eq]
@[simp] theorem State.settle_flash (tid due : Nat) : (s.settle tid due).flash = s.flash := rfl
@[simp] theorem State.atAll_bootstat (due : Nat) (l : List Ev) : (s.atAll due l).bootstat = s.bootstat := by rw [State.atAll_eq]
@[simp] theorem State.settle_bootstat (tid due : Nat) : (s.settle tid due).bootstat = s.bootstat := rfl
@[simp] theorem State.atAll_qtbase (due : Nat) (l : List Ev) : (s.atAll due l).qtbase = s.qtbase := by rw [State.atAll_eq]
@[simp] theorem State.settle_qtbase (tid due : Nat) : (s.settle tid due).qtbase = s.qtbase := rfl
@[simp] theorem State.atAll_evbase (due : Nat) (l : List Ev) : (s.atAll due l).evbase = s.evbase := by rw [State.atAll_eq]
@[simp] theorem State.settle_evbase (tid due : Nat) : (s.settle tid due).evbase = s.evbase := rfl
@[simp] theorem State.atAll_evhead (due : Nat) (l : List Ev) : (s.atAll due l).evhead = s.evhead := by rw [State.atAll_eq]
@[simp] theorem State.settle_evhead (tid due : Nat) : (s.settle tid due).evhead = s.evhead := rfl
@[simp] theorem State.atAll_evtail (due : Nat) (l : List Ev) : (s.atAll due l).evtail = s.evtail := by rw [State.atAll_eq]
@[simp] theorem State.settle_evtail (tid due : Nat) : (s.settle tid due).evtail = s.evtail := rfl
@[simp] theorem State.atAll_evcfg (due : Nat) (l : List Ev) : (s.atAll due l).evcfg = s.evcfg := by rw [State.atAll_eq]
@[simp] theorem State.settle_evcfg (tid due : Nat) : (s.settle tid due).evcfg = s.evcfg := rfl
@[simp] theorem State.atAll_ckshare (due : Nat) (l : List Ev) : (s.atAll due l).ckshare = s.ckshare := by rw [State.atAll_eq]
@[simp] theorem State.settle_ckshare (tid due : Nat) : (s.settle tid due).ckshare = s.ckshare := rfl
@[simp] theorem State.atAll_lhost (due : Nat) (l : List Ev) : (s.atAll due l).lhost = s.lhost := by rw [State.atAll_eq]
@[simp] theorem State.settle_lhost (tid due : Nat) : (s.settle tid due).lhost = s.lhost := rfl
@[simp] theorem State.atAll_tq (due : Nat) (l : List Ev) : (s.atAll due l).tq = s.tq := by rw [State.atAll_eq]
@[simp] theorem State.settle_tq (tid due : Nat) : (s.settle tid due).tq = s.tq := rfl
@[simp] theorem State.atAll_mapRows (due : Nat) (l : List Ev) : (s.atAll due l).mapRows = s.mapRows := by rw [State.atAll_eq]
@[simp] theorem State.settle_mapRows (tid due : Nat) : (s.settle tid due).mapRows = s.mapRows := rfl
@[simp] theorem State.atAll_mapNext (due : Nat) (l : List Ev) : (s.atAll due l).mapNext = s.mapNext := by rw [State.atAll_eq]
@[simp] theorem State.settle_mapNext (tid due : Nat) : (s.settle tid due).mapNext = s.mapNext := rfl
@[simp] theorem State.atAll_mapStat (due : Nat) (l : List Ev) : (s.atAll due l).mapStat = s.mapStat := by rw [State.atAll_eq]
@[simp] theorem State.settle_mapStat (tid due : Nat) : (s.settle tid due).mapStat = s.mapStat := rfl
@[simp] theorem State.atAll_mapping (due : Nat) (l : List Ev) : (s.atAll due l).mapping = s.mapping := by rw [State.atAll_eq]
@[simp] theorem State.settle_mapping (tid due : Nat) : (s.settle tid due).mapping = s.mapping := rfl
@[simp] theorem State.atAll_queues (due : Nat) (l : List Ev) : (s.atAll due l).queues = s.queues := by rw [State.atAll_eq]
@[simp] theorem State.settle_queues (tid due : Nat) : (s.settle tid due).queues = s.queues := rfl
@[simp] theorem State.atAll_launches (due : Nat) (l : List Ev) : (s.atAll due l).launches = s.launches := by rw [State.atAll_eq]
@[simp] theorem State.settle_launches (tid due : Nat) : (s.settle tid due).launches = s.launches := rfl
@[simp] theorem State.atAll_prods (due : Nat) (l : List Ev) : (s.atAll due l).prods = s.prods := by rw [State.atAll_eq]
@[simp] theorem State.settle_prods (tid due : Nat) : (s.settle tid due).prods = s.prods := rfl
@[simp] theorem State.atAll_shoots (due : Nat) (l : List Ev) : (s.atAll due l).shoots = s.shoots := by rw [State.atAll_eq]
@[simp] theorem State.settle_shoots (tid due : Nat) : (s.settle tid due).shoots = s.shoots := rfl
@[simp] theorem State.atAll_cutting (due : Nat) (l : List Ev) : (s.atAll due l).cutting = s.cutting := by rw [State.atAll_eq]
@[simp] theorem State.settle_cutting (tid due : Nat) : (s.settle tid due).cutting = s.cutting := rfl
@[simp] theorem State.atAll_cuts (due : Nat) (l : List Ev) : (s.atAll due l).cuts = s.cuts := by rw [State.atAll_eq]
@[simp] theorem State.settle_cuts (tid due : Nat) : (s.settle tid due).cuts = s.cuts := rfl
@[simp] theorem State.atAll_images (due : Nat) (l : List Ev) : (s.atAll due l).images = s.images := by rw [State.atAll_eq]
@[simp] theorem State.settle_images (tid due : Nat) : (s.settle tid due).images = s.images := rfl
@[simp] theorem State.atAll_requests (due : Nat) (l : List Ev) : (s.atAll due l).requests = s.requests := by rw [State.atAll_eq]
@[simp] theorem State.settle_requests (tid due : Nat) : (s.settle tid due).requests = s.requests := rfl
@[simp] theorem State.atAll_sent (due : Nat) (l : List Ev) : (s.atAll due l).sent = s.sent := by rw [State.atAll_eq]
@[simp] theorem State.settle_sent (tid due : Nat) : (s.settle tid due).sent = s.sent := rfl
@[simp] theorem State.atAll_dies (due : Nat) (l : List Ev) : (s.atAll due l).dies = s.dies := by rw [State.atAll_eq]
@[simp] theorem State.settle_dies (tid due : Nat) : (s.settle tid due).dies = s.dies := rfl
@[simp] theorem State.atAll_faultWaits (due : Nat) (l : List Ev) : (s.atAll due l).faultWaits = s.faultWaits := by rw [State.atAll_eq]
@[simp] theorem State.settle_faultWaits (tid due : Nat) : (s.settle tid due).faultWaits = s.faultWaits := rfl
@[simp] theorem State.atAll_ovlLoads (due : Nat) (l : List Ev) : (s.atAll due l).ovlLoads = s.ovlLoads := by rw [State.atAll_eq]
@[simp] theorem State.settle_ovlLoads (tid due : Nat) : (s.settle tid due).ovlLoads = s.ovlLoads := rfl
@[simp] theorem State.atAll_copies (due : Nat) (l : List Ev) : (s.atAll due l).copies = s.copies := by rw [State.atAll_eq]
@[simp] theorem State.settle_copies (tid due : Nat) : (s.settle tid due).copies = s.copies := rfl
@[simp] theorem State.atAll_episodes (due : Nat) (l : List Ev) : (s.atAll due l).episodes = s.episodes := by rw [State.atAll_eq]
@[simp] theorem State.settle_episodes (tid due : Nat) : (s.settle tid due).episodes = s.episodes := rfl
@[simp] theorem State.atAll_refused (due : Nat) (l : List Ev) : (s.atAll due l).refused = s.refused := by rw [State.atAll_eq]
@[simp] theorem State.settle_refused (tid due : Nat) : (s.settle tid due).refused = s.refused := rfl
@[simp] theorem State.atAll_acqWaits (due : Nat) (l : List Ev) : (s.atAll due l).acqWaits = s.acqWaits := by rw [State.atAll_eq]
@[simp] theorem State.settle_acqWaits (tid due : Nat) : (s.settle tid due).acqWaits = s.acqWaits := rfl
@[simp] theorem State.atAll_cacheActs (due : Nat) (l : List Ev) : (s.atAll due l).cacheActs = s.cacheActs := by rw [State.atAll_eq]
@[simp] theorem State.settle_cacheActs (tid due : Nat) : (s.settle tid due).cacheActs = s.cacheActs := rfl
@[simp] theorem State.atAll_cores (due : Nat) (l : List Ev) : (s.atAll due l).cores = s.cores := by rw [State.atAll_eq]
@[simp] theorem State.settle_cores (tid due : Nat) : (s.settle tid due).cores = s.cores := rfl
@[simp] theorem State.atAll_contexts (due : Nat) (l : List Ev) : (s.atAll due l).contexts = s.contexts := by rw [State.atAll_eq]
@[simp] theorem State.settle_contexts (tid due : Nat) : (s.settle tid due).contexts = s.contexts := rfl
@[simp] theorem State.atAll_ensembles (due : Nat) (l : List Ev) : (s.atAll due l).ensembles = s.ensembles := by rw [State.atAll_eq]
@[simp] theorem State.settle_ensembles (tid due : Nat) : (s.settle tid due).ensembles = s.ensembles := rfl
@[simp] theorem State.atAll_troupes (due : Nat) (l : List Ev) : (s.atAll due l).troupes = s.troupes := by rw [State.atAll_eq]
@[simp] theorem State.settle_troupes (tid due : Nat) : (s.settle tid due).troupes = s.troupes := rfl

/-! ### Updates of the issuing split's data -/

@[simp] theorem Work.raise_s (f : Word) : (w.raise f).s = w.s := rfl
@[simp] theorem Work.raise_tid (f : Word) : (w.raise f).tid = w.tid := rfl
@[simp] theorem Work.raise_ent (f : Word) : (w.raise f).ent = w.ent := rfl
@[simp] theorem Work.raise_T (f : Word) : (w.raise f).T = { w.T with tstat := w.T.tstat ||| f } := rfl
@[simp] theorem Work.raise_S (f : Word) : (w.raise f).S = w.S := rfl
@[simp] theorem Work.raise_E (f : Word) : (w.raise f).E = w.E := rfl
@[simp] theorem Work.raise_act (f : Word) : (w.raise f).act = w.act := rfl
@[simp] theorem Work.holdFor_s (p : Pend) : (w.holdFor p).s = w.s.bump := rfl
@[simp] theorem Work.holdFor_tid (p : Pend) : (w.holdFor p).tid = w.tid := rfl
@[simp] theorem Work.holdFor_ent (p : Pend) : (w.holdFor p).ent = w.ent := rfl
@[simp] theorem Work.holdFor_T (p : Pend) : (w.holdFor p).T = { w.T with pend := w.T.pend ++ [p] } := rfl
@[simp] theorem Work.holdFor_S (p : Pend) : (w.holdFor p).S = w.S := rfl
@[simp] theorem Work.holdFor_E (p : Pend) : (w.holdFor p).E = w.E := rfl
@[simp] theorem Work.holdFor_act (p : Pend) : (w.holdFor p).act = w.act := rfl

/-! ### `Troupe.modSplit` changes only the places of splits -/

@[simp] theorem Troupe.modSplit_ens (u : Nat) (f : Split → Split) : (t.modSplit u f).ens = t.ens := rfl
@[simp] theorem Troupe.modSplit_num (u : Nat) (f : Split → Split) : (t.modSplit u f).num = t.num := rfl
@[simp] theorem Troupe.modSplit_quarter (u : Nat) (f : Split → Split) : (t.modSplit u f).quarter = t.quarter := rfl
@[simp] theorem Troupe.modSplit_slot (u : Nat) (f : Split → Split) : (t.modSplit u f).slot = t.slot := rfl
@[simp] theorem Troupe.modSplit_nregs (u : Nat) (f : Split → Split) : (t.modSplit u f).nregs = t.nregs := rfl
@[simp] theorem Troupe.modSplit_nscal (u : Nat) (f : Split → Split) : (t.modSplit u f).nscal = t.nscal := rfl
@[simp] theorem Troupe.modSplit_file (u : Nat) (f : Split → Split) : (t.modSplit u f).file = t.file := rfl
@[simp] theorem Troupe.modSplit_xb (u : Nat) (f : Split → Split) : (t.modSplit u f).xb = t.xb := rfl
@[simp] theorem Troupe.modSplit_tstat (u : Nat) (f : Split → Split) : (t.modSplit u f).tstat = t.tstat := rfl
@[simp] theorem Troupe.modSplit_srseed (u : Nat) (f : Split → Split) : (t.modSplit u f).srseed = t.srseed := rfl
@[simp] theorem Troupe.modSplit_qstat (u : Nat) (f : Split → Split) : (t.modSplit u f).qstat = t.qstat := rfl
@[simp] theorem Troupe.modSplit_ss (u : Nat) (f : Split → Split) : (t.modSplit u f).ss = t.ss := rfl
@[simp] theorem Troupe.modSplit_forkCtr (u : Nat) (f : Split → Split) : (t.modSplit u f).forkCtr = t.forkCtr := rfl
@[simp] theorem Troupe.modSplit_stackHead (u : Nat) (f : Split → Split) : (t.modSplit u f).stackHead = t.stackHead := rfl
@[simp] theorem Troupe.modSplit_nextUid (u : Nat) (f : Split → Split) : (t.modSplit u f).nextUid = t.nextUid := rfl
@[simp] theorem Troupe.modSplit_pend (u : Nat) (f : Split → Split) : (t.modSplit u f).pend = t.pend := rfl
@[simp] theorem Troupe.modSplit_unacked (u : Nat) (f : Split → Split) : (t.modSplit u f).unacked = t.unacked := rfl
@[simp] theorem Troupe.modSplit_queue (u : Nat) (f : Split → Split) : (t.modSplit u f).queue = t.queue := rfl
@[simp] theorem Troupe.modSplit_batch (u : Nat) (f : Split → Split) : (t.modSplit u f).batch = t.batch := rfl
@[simp] theorem Troupe.modSplit_parked (u : Nat) (f : Split → Split) : (t.modSplit u f).parked = t.parked := rfl
@[simp] theorem Troupe.modSplit_lastSel (u : Nat) (f : Split → Split) : (t.modSplit u f).lastSel = t.lastSel := rfl
@[simp] theorem Troupe.modSplit_selFree (u : Nat) (f : Split → Split) : (t.modSplit u f).selFree = t.selFree := rfl
@[simp] theorem Troupe.modSplit_pair (u : Nat) (f : Split → Split) : (t.modSplit u f).pair = t.pair := rfl
@[simp] theorem Troupe.modSplit_block (u : Nat) (f : Split → Split) : (t.modSplit u f).block = t.block := rfl
@[simp] theorem Troupe.modSplit_trapPc (u : Nat) (f : Split → Split) : (t.modSplit u f).trapPc = t.trapPc := rfl
@[simp] theorem Troupe.modSplit_fsets (u : Nat) (f : Split → Split) : (t.modSplit u f).fsets = t.fsets := rfl
@[simp] theorem Troupe.modSplit_paired (u : Nat) (f : Split → Split) : (t.modSplit u f).paired = t.paired := rfl
@[simp] theorem Troupe.modSplit_saved (u : Nat) (f : Split → Split) : (t.modSplit u f).saved = t.saved := rfl
@[simp] theorem Troupe.modSplit_exchAt (u : Nat) (f : Split → Split) : (t.modSplit u f).exchAt = t.exchAt := rfl
@[simp] theorem Troupe.modSplit_fullFor (u : Nat) (f : Split → Split) : (t.modSplit u f).fullFor = t.fullFor := rfl
@[simp] theorem Troupe.modSplit_fullFrom (u : Nat) (f : Split → Split) : (t.modSplit u f).fullFrom = t.fullFrom := rfl

end Sys2Proof.Machine
end

