-- ==== Sys2Proof/Laws/Caches.lean ====
section
/-! SUPPORT. What the caches above the stacks, and the paths to them, may change: each operation once. -/

namespace Sys2Proof.Machine

open Sys2Proof

/-- An operation that a relation allows, done for each entry of a list, is allowed, if the relation is reflexive and transitive. -/
theorem foldl_rel {α β : Type} {p : β → β → Prop} (hr : ∀ s, p s s) (ht : ∀ {a b c}, p a b → p b c → p a c) {f : β → α → β}
    (h : ∀ s a, p s (f s a)) (l : List α) : ∀ s, p s (l.foldl f s) := by
  induction l with
  | nil => exact hr
  | cons a l ih => exact fun s => ht (h s a) (ih _)

/-- Only what the caches above the stacks hold, and the bytes that the stacks lack, differ. -/
def OnlyCopies (s t : State) : Prop := t = { s with cached := t.cached, stackDiff := t.stackDiff }

theorem OnlyCopies.mk (s : State) (ca : Tab SectorCopy) (sd : Tab Byte) : OnlyCopies s { s with cached := ca, stackDiff := sd } := rfl

theorem OnlyCopies.refl (s : State) : OnlyCopies s s := rfl

theorem OnlyCopies.trans {a b c : State} (h : OnlyCopies a b) (k : OnlyCopies b c) : OnlyCopies a c := by
  unfold OnlyCopies at *; rw [k, h]

theorem OnlyCopies.foldl {α : Type} {f : State → α → State} (h : ∀ s a, OnlyCopies s (f s a)) (l : List α) (s : State) :
    OnlyCopies s (l.foldl f s) := foldl_rel .refl .trans h l s

theorem OnlyCopies.mem {s t : State} (h : OnlyCopies s t) : t.mem = s.mem := by rw [h]

theorem setCopy_only (s : State) (k : Nat) (c : SectorCopy) : OnlyCopies s (s.setCopy k c) := rfl

theorem setLine_only (s : State) (l : Nat) (f : SectorCopy → SectorCopy) : OnlyCopies s (s.setLine l f) := rfl

theorem stackTakes_only (s : State) (k : Nat) : OnlyCopies s (s.stackTakes k) := by
  unfold State.stackTakes
  split
  · exact .refl s
  · exact .mk s s.cached _

theorem sideBack_only (s : State) (l : Nat) : OnlyCopies s (s.sideBack l) :=
  (OnlyCopies.foldl stackTakes_only _ _).trans (setLine_only _ _ _)

theorem dropL2_only (s : State) (l : Nat) : OnlyCopies s (s.dropL2 l) := by
  unfold State.dropL2
  dsimp only
  refine OnlyCopies.trans ?_ (setLine_only _ _ _)
  split
  · exact .refl s
  · split
    · exact setLine_only _ _ _
    · exact .foldl stackTakes_only _ _

theorem dropSide_only (s : State) (l : Nat) : OnlyCopies s (s.dropSide l) := by
  unfold State.dropSide
  refine OnlyCopies.trans ?_ (setLine_only _ _ _)
  split
  · exact sideBack_only _ _
  · exact .refl s

theorem roomL2_only (s : State) (l : Nat) : OnlyCopies s (s.roomL2 l) := by
  unfold State.roomL2
  dsimp only
  split
  · exact .refl s
  · exact dropL2_only _ _

theorem roomSide_only (s : State) (l : Nat) : OnlyCopies s (s.roomSide l) := by
  unfold State.roomSide
  dsimp only
  split
  · exact .refl s
  · exact dropSide_only _ _

theorem makePlace_only (s : State) (ls : List Nat) : OnlyCopies s (s.makePlace ls) := by
  unfold State.makePlace
  dsimp only
  have h : OnlyCopies s (if s.l2Lines.length ≤ 12 then s else (ls.filter fun l => 12 ≤ (s.l2Rivals l).length).foldl State.roomL2 s) := by
    split
    · exact .refl s
    · exact .foldl roomL2_only _ _
  split
  · exact h
  · exact h.trans (.foldl roomSide_only _ _)

theorem noteSectors_only (s : State) (ks : List Nat) (write : Bool) (whole : Nat → Bool) : OnlyCopies s (s.noteSectors ks write whole) :=
  (OnlyCopies.mk s _ s.stackDiff).trans (makePlace_only _ _)

theorem noteReads_only (s : State) (ks : List Nat) : OnlyCopies s (s.noteReads ks) := noteSectors_only _ _ _ _

theorem noteWrites_only (s : State) (pa n : Nat) : OnlyCopies s (s.noteWrites pa n) := noteSectors_only _ _ _ _

theorem noteRead_only (s : State) (pa : Nat) : OnlyCopies s (s.noteRead pa) := by
  unfold State.noteRead
  split
  · exact noteReads_only _ _
  · exact .refl s

/-- A write at the homes changes memory by its bytes, wakes the acqs that wait for one of them, and is noted by the caches (R293, R312). -/
theorem homeWrite_eq (s : State) (pa : Nat) (bs : List Byte) :
    s.homeWrite pa bs = { s with
      mem := s.mem.write pa bs, agenda := (s.homeWrite pa bs).agenda, cached := (s.homeWrite pa bs).cached,
      stackDiff := (s.homeWrite pa bs).stackDiff } := by
  unfold State.homeWrite State.wakeAcq
  dsimp only
  split
  · rw [noteWrites_only]
  · rfl

theorem State.homeWrite_mem (s : State) (pa : Nat) (bs : List Byte) : (s.homeWrite pa bs).mem = s.mem.write pa bs := by
  rw [homeWrite_eq]

theorem writeBackSector_only (s : State) (k : Nat) : OnlyCopies s (s.writeBackSector k) := by
  unfold State.writeBackSector
  dsimp only
  have h := (stackTakes_only s k).trans (setCopy_only (s.stackTakes k) k { s.copyAt k with dirty := false })
  split
  · exact h.trans (sideBack_only _ _)
  · exact h

theorem writeBack_only (s : State) (lo hi : Nat) : OnlyCopies s (s.writeBack lo hi) := .foldl writeBackSector_only _ _

/-- Only the copies of memory above the stacks and the counters of stacks and ports differ. -/
def OnlyPaths (s t : State) : Prop :=
  t = { s with cached := t.cached, stackDiff := t.stackDiff, stackTab := t.stackTab, lhost := t.lhost, tq := t.tq }

theorem OnlyPaths.refl (s : State) : OnlyPaths s s := rfl

theorem OnlyPaths.trans {a b c : State} (h : OnlyPaths a b) (k : OnlyPaths b c) : OnlyPaths a c := by
  unfold OnlyPaths at *; rw [k, h]

theorem OnlyCopies.paths {s t : State} (h : OnlyCopies s t) : OnlyPaths s t := by
  unfold OnlyPaths; unfold OnlyCopies at h; rw [h]

theorem stackAccess_only (s : State) (pa : Nat) (write : Bool) : OnlyPaths s (s.stackAccess pa write).1 := by
  unfold State.stackAccess; split <;> rfl

theorem portAccess_only (s : State) (pa : Nat) : OnlyPaths s (s.portAccess pa).1 := by
  unfold State.portAccess; dsimp only; split <;> rfl

theorem readTime_only (s : State) (core pa : Nat) : OnlyPaths s (s.readTime core pa).1 := by
  unfold State.readTime
  dsimp only
  split
  · split
    · exact .refl s
    · split
      · exact .refl s
      · exact stackAccess_only _ _ _
  all_goals exact portAccess_only _ _

theorem writeTime_only (s : State) (core pa : Nat) : OnlyPaths s (s.writeTime core pa).1 := by
  unfold State.writeTime
  split
  · exact .refl s
  · exact readTime_only _ _ _

theorem readAll_only (core : Nat) (l : List Nat) (s : State) : OnlyPaths s (State.readAll core l s).1 := by
  induction l generalizing s with
  | nil => exact .refl s
  | cons a t ih => exact ((readTime_only s core a).trans (noteRead_only _ a).paths).trans (ih _)

theorem readMax_only (core : Nat) (l : List Nat) (s : State) : OnlyPaths s (readMax core l s).1 := by
  induction l generalizing s with
  | nil => exact .refl s
  | cons a t ih => exact ((readTime_only s core a).trans (noteRead_only _ a).paths).trans (ih _)

theorem backCycles_only (s : State) (core : Nat) (ivs : Option (List (Nat × Nat))) : OnlyPaths s (s.backCycles core ivs).1 := by
  unfold State.backCycles
  dsimp only
  split
  · exact .refl s
  · exact stackAccess_only _ _ _

/-- What accesses to memory left of the caches and the counters. -/
def State.caches (t : State) : Caches := ⟨t.cores, t.cached, t.stackDiff, t.stackTab, t.lhost, t.tq⟩

/-- Only the caches, what the stacks have, and the counters of stacks and ports differ. -/
def OnlyCaches (s t : State) : Prop := t = t.caches.on s

theorem OnlyCaches.refl (s : State) : OnlyCaches s s := rfl

theorem OnlyCaches.trans {a b c : State} (h : OnlyCaches a b) (k : OnlyCaches b c) : OnlyCaches a c := by
  unfold OnlyCaches State.caches Caches.on at *; rw [k, h]

theorem OnlyPaths.caches {s t : State} (h : OnlyPaths s t) : OnlyCaches s t := by
  unfold OnlyCaches State.caches Caches.on; unfold OnlyPaths at h; rw [h]

theorem OnlyCopies.caches {s t : State} (h : OnlyCopies s t) : OnlyCaches s t := h.paths.caches

theorem modCore_only (s : State) (k : Nat) (f : Core → Core) : OnlyCaches s (s.modCore k f) := rfl

end Sys2Proof.Machine
end

