-- ==== Sys2Proof/Laws/Table.lean ====
section
/-! SUPPORT. Lemmas of the keyed collections: reading after a write, at the same key and at another. -/

namespace Sys2Proof

variable {α : Type}

theorem Tab.find?_put_same (t : Tab α) (a : Nat) (x : α) : Tab.find? (Tab.put t a x) a = some x := by
  induction t with
  | nil => simp [Tab.put, Tab.find?]
  | cons p t ih =>
    simp only [Tab.put]
    split
    · simp [Tab.find?]
    · split
      · simp [Tab.find?]
      · next h => simp [Tab.find?, Ne.symm h, ih]

theorem Tab.find?_put_other (t : Tab α) {a b : Nat} (x : α) (h : b ≠ a) :
    Tab.find? (Tab.put t a x) b = Tab.find? t b := by
  induction t with
  | nil => simp [Tab.put, Tab.find?, Ne.symm h]
  | cons p t ih =>
    simp only [Tab.put]
    split
    · simp [Tab.find?, Ne.symm h]
    · split
      · next e => subst e; simp [Tab.find?, Ne.symm h]
      · simp [Tab.find?, ih]

@[simp] theorem Tab.find?_put (t : Tab α) (a b : Nat) (x : α) :
    Tab.find? (Tab.put t a x) b = if b = a then some x else Tab.find? t b := by
  split
  · next h => subst h; exact Tab.find?_put_same t b x
  · next h => exact Tab.find?_put_other t x h

theorem Tab.find?_modify_other (t : Tab α) {a b : Nat} (f : α → α) (h : b ≠ a) :
    Tab.find? (Tab.modify t a f) b = Tab.find? t b := by
  unfold Tab.modify
  split
  · rfl
  · exact Tab.find?_put_other t _ h

theorem Tab.find?_modify_same (t : Tab α) (a : Nat) (f : α → α) :
    Tab.find? (Tab.modify t a f) a = (Tab.find? t a).map f := by
  unfold Tab.modify
  split
  · next h => simp [h]
  · next x h => simp [h]

/-- Two writes at one key: the later one stands. -/
theorem Tab.put_put (t : Tab α) (a : Nat) (x y : α) : Tab.put (Tab.put t a x) a y = Tab.put t a y := by
  induction t with
  | nil => simp [Tab.put]
  | cons p t ih =>
    simp only [Tab.put]
    split
    · next h => simp [Tab.put]
    · split
      · next h => simp [Tab.put]
      · next h h' => simp [Tab.put, h, h', ih]

@[simp] theorem Tab.find?_del (t : Tab α) (a b : Nat) :
    Tab.find? (Tab.del t a) b = if b = a then none else Tab.find? t b := by
  induction t with
  | nil => simp [Tab.del, Tab.find?]
  | cons p t ih =>
    simp only [Tab.del]
    split
    · next e =>
      subst e
      by_cases h : b = p.1
      · rw [ih]; simp [h]
      · simp [Tab.find?, ih, h, Ne.symm h]
    · next e =>
      by_cases h : b = a
      · subst h; simp [Tab.find?, ih, e]
      · simp [Tab.find?, ih, h]

theorem Tab.mem_of_find? {t : Tab α} {a : Nat} {x : α} (h : Tab.find? t a = some x) : (a, x) ∈ t := by
  induction t with
  | nil => simp [Tab.find?] at h
  | cons p t ih =>
    unfold Tab.find? at h
    split at h
    · next e => cases h; subst e; simp
    · exact List.mem_cons_of_mem _ (ih h)

@[simp] theorem Store.get_set {w : Nat} (t : Store w) (a b : Nat) (x : BitVec w) :
    Store.get (Store.set t a x) b = if b = a then x else Store.get t b := by
  unfold Store.get Store.set
  split
  · next h => subst h; by_cases e : b = a <;> simp [e]
  · next h => by_cases e : b = a <;> simp [e]

theorem Tab.find?_append (t u : Tab α) (b : Nat) : Tab.find? (t ++ u) b = (Tab.find? t b).or (Tab.find? u b) := by
  induction t with
  | nil => simp [Tab.find?]
  | cons p t ih =>
    simp only [List.cons_append, Tab.find?, ih]
    split <;> simp

theorem Tab.find?_filter_key (t : Tab α) (c : Nat → Bool) (b : Nat) :
    Tab.find? (t.filter fun e => c e.1) b = if c b then Tab.find? t b else none := by
  induction t with
  | nil => simp [Tab.find?]
  | cons p t ih =>
    rw [List.filter_cons]
    by_cases h : p.1 = b
    · subst h
      by_cases hc : c p.1 = true
      · simp [hc, Tab.find?]
      · simp only [Bool.not_eq_true] at hc; simpa [hc] using ih
    · by_cases hc : c p.1 = true <;> simp [hc, Tab.find?, h, ih]

theorem Store.find?_cells {w : Nat} (a b : Nat) (xs : List (BitVec w)) :
    (Tab.find? (Store.cells a xs) b).getD 0 = if a ≤ b then xs.getD (b - a) 0 else 0 := by
  induction xs generalizing a with
  | nil => simp [Store.cells, Tab.find?]
  | cons x t ih =>
    by_cases hb : a = b
    · subst hb
      simp only [Store.cells]
      split
      · next h => rw [ih]; simp [h]
      · simp [Tab.find?]
    · have e : Tab.find? (Store.cells a (x :: t)) b = Tab.find? (Store.cells (a + 1) t) b := by
        simp only [Store.cells]; split <;> simp [Tab.find?, hb]
      rw [e, ih]
      by_cases h : a + 1 ≤ b
      · have h2 : b - a = (b - (a + 1)) + 1 := by omega
        have h3 : a ≤ b := by omega
        simp [h, h3, h2]
      · have h3 : ¬ a ≤ b := by omega
        simp [h, h3]

theorem Store.find?_cells_ge {w : Nat} (a b : Nat) (xs : List (BitVec w)) (h : a + xs.length ≤ b) :
    Tab.find? (Store.cells a xs) b = none := by
  induction xs generalizing a with
  | nil => simp [Store.cells, Tab.find?]
  | cons x t ih =>
    simp only [List.length_cons] at h
    have h1 := ih (a + 1) (by omega)
    simp only [Store.cells]
    split
    · exact h1
    · have : a ≠ b := by omega
      simp [Tab.find?, this, h1]

/-- What a key holds after a run of values has been set. -/
theorem Store.get_setMany {w : Nat} (t : Store w) (a b : Nat) (xs : List (BitVec w)) :
    Store.get (Store.setMany t a xs) b = if a ≤ b ∧ b < a + xs.length then xs.getD (b - a) 0 else Store.get t b := by
  have hb := Tab.find?_filter_key t (fun k => decide (k < a)) b
  have ha := Tab.find?_filter_key t (fun k => decide (a + xs.length ≤ k)) b
  have hc := Store.find?_cells a b xs
  simp only [Store.get, Store.setMany, Store.below, Store.above, Tab.find?_append, hb, ha]
  by_cases h1 : b < a
  · have h2 : ¬ a ≤ b := by omega
    have h3 : ¬ a + xs.length ≤ b := by omega
    simp only [h2, if_false] at hc
    simp only [h1, h2, h3, decide_true, decide_false, if_true, false_and, if_false]
    cases hf : Tab.find? t b with
    | some x => simp
    | none => simpa using hc
  · have h2 : a ≤ b := by omega
    by_cases h3 : a + xs.length ≤ b
    · have h4 : ¬ b < a + xs.length := by omega
      simp [h1, h3, h4, Store.find?_cells_ge a b xs h3]
    · have h4 : b < a + xs.length := by omega
      simp only [h2, if_true] at hc
      simp only [h1, h2, h3, h4, decide_false, and_self, if_true]
      simpa using hc

end Sys2Proof
end

