-- ==== Sys2Proof/Laws/Issue.lean ====
section
/-! SUPPORT. What the frame of every meaning does: the checks, the writes of registers, and the completion of an instruction. -/

namespace Sys2Proof.Machine

open Sys2Proof

/-! ### Registers -/

theorem Reg.key_inj {a b : Reg} (h : a.key = b.key) : a = b := by
  cases a <;> cases b <;> simp [Reg.key] at h ⊢ <;> omega

theorem Vec.at_update (v : Vec) (m : Mask) (f : Nat → Word) {i : Nat} (h : i < 128) :
    (v.update m f).at_ i = if m.getLsbD i then f i else v.at_ i := by
  simp [Vec.update, Vec.at_, List.getD, h]

/-- A register of the file after a write to the file: its own lanes, or as before. -/
theorem Troupe.vec_put (t : Troupe) (r q : Reg) (v : Vec) :
    ({ t with file := t.file.put r.key v } : Troupe).vec q = if q = r then v else t.vec q := by
  unfold Troupe.vec
  by_cases h : q = r
  · simp [h]
  · have : q.key ≠ r.key := fun e => h (Reg.key_inj e)
    simp [h, this]

theorem Split.wrote_scal (p : Split) (n : Nat) : (p.wrote n).scal = p.scal := by
  unfold Split.wrote; split <;> rfl

/-- Marking a write of a scalar changes nothing of the split but the WR bits of its top frame. -/
theorem Split.wrote_eq (p : Split) (n : Nat) : p.wrote n = { p with frames := (p.wrote n).frames } := by
  unfold Split.wrote; split <;> rfl

theorem Split.wrote_frames (p : Split) (n : Nat) :
    (p.wrote n).frames.map (fun f => (f.rcv, f.forkId)) = p.frames.map fun f => (f.rcv, f.forkId) := by
  unfold Split.wrote
  split
  · rfl
  · next f t h =>
    have e : p.frames = (f :: t).reverse := by rw [← h, List.reverse_reverse]
    simp [e]

/-- A register that is held per lane stands in the troupe's file. -/
theorem Work.now_file (w : Work) {r : Reg} (h : r.perLane = true) (h7 : r ≠ .p 7) (i : Nat) :
    w.now r i = (w.T.vec r).at_ i := by
  cases r with
  | p n =>
    unfold Work.now
    split <;> simp_all
  | _ => first | rfl | (simp [Reg.perLane] at h)

/-- Writing a register that is held per lane replaces its lanes in the troupe's file. -/
theorem Work.set_file (w : Work) {r : Reg} (h : r.perLane = true) (h7 : r ≠ .p 7) (m : Mask) (f : Nat → Word) :
    w.set r m f = { w with T := { w.T with file := w.T.file.put r.key ((w.T.vec r).update m fun i => r.narrow (f i)) } } := by
  cases r with
  | p n =>
    have : n ≠ 7 := fun e => h7 (by rw [e])
    simp [Work.set, Reg.narrow, this]
  | _ => first | rfl | (simp [Reg.perLane] at h)

theorem Work.now_of_vec {w x : Work} {r : Reg} (h : x.T.vec r = w.T.vec r) (hs : x.S.scal = w.S.scal) (hss : x.T.ss = w.T.ss)
    (hg : x.E.g = w.E.g) (i : Nat) : x.now r i = w.now r i := by
  unfold Work.now; split <;> simp_all

/-- The value of a register after one write (R126). -/
theorem Work.now_set (w : Work) (q r : Reg) (m : Mask) (f : Nat → Word) {i : Nat} (h : i < 128) :
    (w.set q m f).now r i = (written [(q, m, f)] r i).getD (w.now r i) := by
  by_cases h7 : r = .p 7
  · subst h7; simp [written, Work.now]
  by_cases e : q = r
  · subst e
    cases hl : q.perLane with
    | true =>
      rw [w.set_file hl h7, Work.now_file _ hl h7, Work.now_file _ hl h7, Troupe.vec_put, if_pos rfl, Vec.at_update _ _ _ h]
      by_cases hm : m.getLsbD i <;> simp [written, h7, hl, hm]
    | false =>
      cases q <;> simp [Reg.perLane] at hl <;>
        simp [written, Work.set, Work.now, Reg.perLane, Reg.narrow, Split.wrote_scal]
  · have hw : written [(q, m, f)] r i = none := by simp [written, e]
    rw [hw, Option.getD_none]
    cases hl : q.perLane with
    | true =>
      by_cases hq : q = .p 7
      · subst hq; rfl
      · rw [w.set_file hl hq]
        have hv := (Troupe.vec_put w.T q r ((w.T.vec q).update m fun i => q.narrow (f i))).trans (if_neg (Ne.symm e))
        exact Work.now_of_vec (w := w) (x := { w with T := { w.T with file := _ } }) hv rfl rfl rfl i
    | false =>
      cases q <;> simp [Reg.perLane] at hl <;> unfold Work.now <;> split <;>
        simp_all [Work.set, Split.wrote_scal, Troupe.vec, Ne.symm]

/-! ### Several writes -/

theorem written_cons (o : Write) (l : List Write) (r : Reg) (i : Nat) :
    written (o :: l) r i = (written l r i).or (written [o] r i) := by
  unfold written
  split
  · rfl
  · simp only [List.reverse_cons, List.find?_append, List.reverse_nil, List.nil_append]
    cases l.reverse.find? fun o => o.1 = r && (!r.perLane || o.2.1.getLsbD i) <;> simp

theorem written_append (a b : List Write) (r : Reg) (i : Nat) :
    written (a ++ b) r i = (written b r i).or (written a r i) := by
  induction a with
  | nil => simp [written]
  | cons o a ih =>
    rw [List.cons_append, written_cons, ih, written_cons o a]
    cases written b r i <;> simp

/-- Make several writes in order. -/
abbrev Work.setAll (w : Work) (outs : List Write) : Work := outs.foldl (fun w o => w.set o.1 o.2.1 o.2.2) w

theorem Work.now_setAll (w : Work) (outs : List Write) (r : Reg) {i : Nat} (h : i < 128) :
    (w.setAll outs).now r i = (written outs r i).getD (w.now r i) := by
  induction outs generalizing w with
  | nil => simp [written]
  | cons o t ih =>
    rw [Work.setAll, List.foldl_cons, ← Work.setAll, ih, Work.now_set w _ _ _ _ h, written_cons o t]
    cases written t r i <;> simp

/-- Only register values, and the WR bits of the top frame, differ. -/
structure Work.RegsOnly (w x : Work) : Prop where
  s : x.s = w.s
  tid : x.tid = w.tid
  ent : x.ent = w.ent
  act : x.act = w.act
  T : x.T = { w.T with file := x.T.file, ss := x.T.ss }
  S : x.S = { w.S with scal := x.S.scal, frames := x.S.frames }
  E : x.E = { w.E with g := x.E.g }
  frames : x.S.frames.map (fun f => (f.rcv, f.forkId)) = w.S.frames.map fun f => (f.rcv, f.forkId)

theorem Work.RegsOnly.refl (w : Work) : w.RegsOnly w := ⟨rfl, rfl, rfl, rfl, rfl, rfl, rfl, rfl⟩

theorem Work.RegsOnly.trans {a b c : Work} (h : a.RegsOnly b) (k : b.RegsOnly c) : a.RegsOnly c where
  s := k.s.trans h.s
  tid := k.tid.trans h.tid
  ent := k.ent.trans h.ent
  act := k.act.trans h.act
  T := by rw [k.T, h.T]
  S := by rw [k.S, h.S]
  E := by rw [k.E, h.E]
  frames := k.frames.trans h.frames

theorem Work.RegsOnly.set (w : Work) (r : Reg) (m : Mask) (f : Nat → Word) : w.RegsOnly (w.set r m f) := by
  cases r with
  | s n =>
    refine ⟨rfl, rfl, rfl, rfl, rfl, ?_, rfl, Split.wrote_frames _ n⟩
    exact (Split.wrote_eq _ n).trans (by simp [Work.set, Split.wrote_scal])
  | p n =>
    by_cases h : n = 7
    · subst h; exact Work.RegsOnly.refl w
    · constructor <;> simp [Work.set, h]
  | _ => constructor <;> rfl

theorem Work.RegsOnly.setAll (w : Work) (outs : List Write) : w.RegsOnly (w.setAll outs) := by
  induction outs generalizing w with
  | nil => exact .refl w
  | cons o t ih => exact (Work.RegsOnly.set w _ _ _).trans (ih _)

/-! ### Completion -/

/-- What a meaning leaves in the issuing split's data before the instruction completes: register values, flags, results on the
scoreboard, and the notes that the issue unit keeps of them. -/
structure Work.Does (w x : Work) (flags : Word) (pends : List Pend) : Prop where
  s : x.s = { w.s with tick := x.s.tick, agenda := x.s.agenda }
  tid : x.tid = w.tid
  ent : x.ent = w.ent
  T : x.T = { w.T with file := x.T.file, ss := x.T.ss, tstat := w.T.tstat ||| flags, pend := w.T.pend ++ pends }
  S : x.S = { w.S with scal := x.S.scal, frames := x.S.frames, shadow := x.S.shadow, landings := x.S.landings }
  E : x.E = { w.E with g := x.E.g }
  frames : x.S.frames.map (fun f => (f.rcv, f.forkId)) = w.S.frames.map fun f => (f.rcv, f.forkId)

theorem State.settle_eq (s : State) (tid due : Nat) : s.settle tid due = { s with agenda := (s.settle tid due).agenda } := rfl

/-- What the split that a gate passes is. -/
theorem gate_go {n : Ins} {s : State} {w : Work} (h : gate n s = .go w) :
    s.cur = some (w.tid, w.ent) ∧ w.s = s ∧ s.troupes.find? w.tid = some w.T ∧ w.T.splits.find? w.ent = some w.S
      ∧ s.ensembles.find? w.T.ens = some w.E ∧ w.checks n = none ∧ w.check02 n = true ∧ w.held n = false := by
  unfold gate at h
  split at h
  · cases h
  · next tid ent hc =>
    split at h
    · cases h
    · next w0 hw =>
      unfold State.work at hw
      split at hw
      · cases hw
      · next t ht =>
        split at hw
        · next p e hp he =>
          cases hw
          split at h
          · cases h
          · next h2 =>
            split at h
            · cases h
            · next h3 =>
              simp only at h
              split at h
              · cases h
              · next h4 =>
                cases h
                have e2 := Bool.eq_false_iff.2 h2
                have e3 := Bool.eq_false_iff.2 h3
                rw [Bool.not_eq_false'] at e2
                exact ⟨hc, rfl, ht, hp, he, h4, e2, e3⟩
        · cases hw

theorem Split.rcv_congr {p q : Split} (h : p.frames.map (fun f => (f.rcv, f.forkId)) = q.frames.map fun f => (f.rcv, f.forkId)) :
    p.rcv = q.rcv := by
  have e := congrArg (fun l => l.getLast?.map Prod.fst) h
  simpa [Split.rcv, List.getLast?_map, Function.comp_def] using e

/-- The data of a split that has just been put back. -/
theorem Work.work_commit (w : Work) :
    (w.commit).work w.tid w.ent
      = some { w with s := w.commit, T := { w.T with splits := w.T.splits.put w.ent w.S }, act := w.S.mask } := by
  simp [State.work, Work.commit]

/-- Two copies of a split's data with the same registers. -/
theorem Work.now_congr {w x : Work} (hf : x.T.file = w.T.file) (hs : x.S.scal = w.S.scal) (hss : x.T.ss = w.T.ss)
    (hg : x.E.g = w.E.g) (r : Reg) (i : Nat) : x.now r i = w.now r i :=
  Work.now_of_vec (by simp [Troupe.vec, hf]) hs hss hg i

theorem Split.meet_eq (p : Split) :
    p.meet = { p with state := p.meet.state, atRejoin := p.meet.atRejoin }
      ∧ p.meet.state = if p.rcv = some p.pc ∧ p.past = false then 3 else p.state := by
  unfold Split.meet; split <;> simp_all

/-- An instruction whose meaning does only what `Does` says completes at `next`: whatever put the split at `next`. -/
theorem Work.close_completes {s : State} {w x y : Work} {outs : List Write} {flags : Word} {pends : List Pend} {next : Dest}
    (hws : w.s = s) (hd : w.Does x flags pends)
    (hr : ∀ r i, i < 128 → x.now r i = (written outs r i).getD (w.now r i))
    (hs : y.s = { x.s with tick := y.s.tick, agenda := y.s.agenda })
    (ht : y.tid = x.tid) (he : y.ent = x.ent) (hE : y.E = x.E)
    (hT : y.T = { x.T with lastSel := y.T.lastSel, selFree := y.T.selFree, parked := y.T.parked })
    (hS : y.S = { x.S with pc := next.pc, past := next.past, dist := y.S.dist, earliest := y.S.earliest, lastIss := y.S.lastIss, swapIn := y.S.swapIn,
                           redo := none, fell := y.S.fell, shadow := y.S.shadow }) :
    ∃ z, Completes s w outs flags pends next y.close z ∧ z.S = y.S.meet := by
  have hens : y.T.ens = w.T.ens := by rw [hT, hd.T]
  have htid : y.tid = w.tid := ht.trans hd.tid
  have hent : y.ent = w.ent := he.trans hd.ent
  let m : Work := { y with S := y.S.meet }
  have hclose : ∃ a, y.close = { m.commit with agenda := a } := by
    unfold Work.close
    dsimp only
    split
    · exact ⟨_, State.settle_eq _ _ _⟩
    · exact ⟨_, rfl⟩
  obtain ⟨a, ha⟩ := hclose
  have hm := Split.meet_eq y.S
  have hpc : y.S.meet.pc = next.pc ∧ y.S.meet.past = next.past := by rw [hm.1, hS]; exact ⟨rfl, rfl⟩
  have hrcv : y.S.rcv = w.S.rcv := Split.rcv_congr (by rw [hS]; exact hd.frames)
  refine ⟨{ m with s := y.close, T := { y.T with splits := y.T.splits.put y.ent y.S.meet }, act := y.S.meet.mask }, ?_, rfl⟩
  constructor
  · rw [ha, ← htid, ← hent]
    simp [State.work, Work.commit, m]
  · intro r i hi
    rw [← hr r i hi]
    refine Work.now_congr ?_ ?_ ?_ ?_ r i <;> simp only [m]
    · rw [hT]
    · rw [hm.1, hS]
    · rw [hT]
    · exact congrArg _ hE
  · exact hpc
  · simp only [m]
    have h1 : y.S.pc = next.pc := by rw [hS]
    have h3 : y.S.past = next.past := by rw [hS]
    have h2 : y.S.state = w.S.state := by rw [hS, hd.S]
    rw [hm.2, hrcv, h1, h2, h3]
  · simp only [m]
    rw [hm.1, hS, hd.S]
  · change y.S.meet.frames.map _ = _
    rw [hm.1, hS]
    exact hd.frames
  · dsimp only
    rw [hT, hd.T]
  · change y.E = _
    rw [hE, hd.E]
  · refine ⟨fun k hk => ?_, fun k hk => ?_, fun k hk => ?_⟩
    · have h1 : y.s.troupes = s.troupes := by rw [hs, hd.s, hws]
      rw [ha]; simp [Work.commit, m, htid, hk, h1]
    · have h1 : y.s.ensembles = s.ensembles := by rw [hs, hd.s, hws]
      rw [ha]; simp [Work.commit, m, hens, hk, h1]
    · have h1 : y.T.splits = w.T.splits := by rw [hT, hd.T]
      dsimp only; rw [hent, h1]; simp [hk]
  · unfold sameModule
    rw [ha]
    simp only [Work.commit, m]
    rw [hs, hd.s, hws]

/-- An instruction that ends `done` completes at the next word. -/
theorem Work.finish_completes {s : State} {n : Ins} {w x : Work} {outs : List Write} {flags : Word} {pends : List Pend}
    (hs : w.s = s) (hd : w.Does x flags pends)
    (hr : ∀ r i, i < 128 → x.now r i = (written outs r i).getD (w.now r i)) :
    ∃ z, Completes s w outs flags pends (nextWord n w) (x.finish n) z := by
  have hpc : x.S.pc = w.S.pc := by rw [hd.S]
  obtain ⟨z, hz, -⟩ := Work.close_completes (next := nextWord n w) hs hd hr
    (y := { x.issued n with S := (x.issued n).S.next n.ilen }) rfl rfl rfl rfl rfl
    (by simp [Work.issued, Split.next, Split.at_, nextWord, hpc])
  exact ⟨z, hz⟩

end Sys2Proof.Machine
end

