-- ==== Sys2Proof/Laws/Results.lean ====
section
/-! SUPPORT. What the shared result operations do: fixed-latency results, flags, generator steps, and scoreboard results. -/

namespace Sys2Proof.Machine

open Sys2Proof

theorem State.bump_at (s : State) (n : Nat) (e : Ev) : s.bump.at_ n e = { s with tick := s.tick + 1, agenda := insertTimed s.rank ⟨n, e⟩ s.agenda } := rfl

namespace Work

theorem Does.refl (w : Work) : w.Does w 0#32 [] := by constructor <;> simp

/-- A meaning's work goes on from what an earlier part of it did. -/
theorem Does.trans {a b c : Work} {f g : Word} {p q : List Pend} (h : a.Does b f p) (k : b.Does c g q) :
    a.Does c (f ||| g) (p ++ q) where
  s := by rw [k.s, h.s]
  tid := k.tid.trans h.tid
  ent := k.ent.trans h.ent
  T := by rw [k.T, h.T]; simp [BitVec.or_assoc]
  S := by rw [k.S, h.S]
  E := by rw [k.E, h.E]
  frames := k.frames.trans h.frames

theorem Does.of_regsOnly {w x : Work} (h : w.RegsOnly x) : w.Does x 0#32 [] where
  s := by rw [h.s]
  tid := h.tid
  ent := h.ent
  T := by rw [h.T]; simp
  S := by rw [h.S]
  E := h.E
  frames := h.frames

theorem Does.cast {w x : Work} {f g : Word} {p : List Pend} (h : w.Does x f p) (e : f = g) : w.Does x g p := e ▸ h

/-- The writes of a fixed-latency result: its destination registers, then the latch (R42, R124). -/
def fixedWrites (w : Work) (vector latch : Bool) (outs : List Write) (lat : Nat → Word) : List Write :=
  outs ++ if latch then [(latchOf vector, w.act, lat)] else []

theorem fixed_does (w : Work) (vector latch : Bool) (code glen : Nat) (outs : List Write) (lat : Nat → Word) :
    w.Does (w.fixed vector latch code glen outs lat) 0#32 []
      ∧ ∀ r i, i < 128 → (w.fixed vector latch code glen outs lat).now r i
          = (written (w.fixedWrites vector latch outs lat) r i).getD (w.now r i) := by
  let x := w.setAll (w.fixedWrites vector latch outs lat)
  have hx : w.RegsOnly x := RegsOnly.setAll w _
  have he : (if latch then (w.setAll outs).set (latchOf vector) w.act lat else w.setAll outs) = x := by
    simp only [x, fixedWrites, setAll]
    cases latch <;> simp
  have hT : (w.fixed vector latch code glen outs lat).T = x.T := by rw [← he]; rfl
  have hE : (w.fixed vector latch code glen outs lat).E = x.E := by rw [← he]; rfl
  have hS : (w.fixed vector latch code glen outs lat).S
      = { x.S with shadow := (w.fixed vector latch code glen outs lat).S.shadow,
                   landings := (w.fixed vector latch code glen outs lat).S.landings } := by
    rw [← he]; rfl
  have hs : (w.fixed vector latch code glen outs lat).s
      = { x.s with tick := (w.fixed vector latch code glen outs lat).s.tick,
                   agenda := (w.fixed vector latch code glen outs lat).s.agenda } := by
    rw [← he]; rfl
  have ht : (w.fixed vector latch code glen outs lat).tid = x.tid := by rw [← he]; rfl
  have hn : (w.fixed vector latch code glen outs lat).ent = x.ent := by rw [← he]; rfl
  refine ⟨⟨?_, ?_, ?_, ?_, ?_, ?_, ?_⟩, fun r i hi => ?_⟩
  · rw [hs, hx.s]
  · rw [ht, hx.tid]
  · rw [hn, hx.ent]
  · rw [hT, hx.T]; simp
  · rw [hS, hx.S]
  · rw [hE, hx.E]
  · rw [hS]; exact hx.frames
  · rw [← now_setAll w _ r hi]
    exact now_congr (by rw [hT]) (by rw [hS]) (by rw [hT]) (by rw [hE]) r i

theorem fixed_act (w : Work) (vector latch : Bool) (code glen : Nat) (outs : List Write) (lat : Nat → Word) :
    (w.fixed vector latch code glen outs lat).act = w.act := by
  have h := (RegsOnly.setAll w outs).act
  cases latch
  · exact h
  · exact ((RegsOnly.set _ _ _ _).act).trans h

theorem raise_does (w : Work) (f : Word) : w.Does (w.raise f) f [] := by constructor <;> simp

/-- A lane result (R124, R135): the destination and the pipe's latch, and the flags of the active lanes. -/
theorem alu_does (w : Work) (vector : Bool) (n : Ins) (f : Nat → Word × Word) :
    w.Does (w.alu vector n f) (orFlags ((lanesOf w.act).map fun i => (f i).2)) []
      ∧ ∀ r i, i < 128 → (w.alu vector n f).now r i
          = (written (w.fixedWrites vector true (w.outsOf n 1 w.act fun _ i => (f i).1) fun i => (f i).1) r i).getD (w.now r i) := by
  have h := w.fixed_does vector true n.dst.longCode 1 (w.outsOf n 1 w.act fun _ i => (f i).1) fun i => (f i).1
  exact ⟨(h.1.trans (raise_does _ _)).cast (by simp), h.2⟩

/-- The writes of the lanes' generators in rounding mode rsr (R175, R191). -/
def genWrites (w : Work) (n : Ins) (k : Nat) : List Write :=
  if n.rnd = .rsr then [(.gen, w.act, fun i => lfsrSteps k (w.now .gen i))] else []

/-- Stepping the generators after a result, none of whose registers is a generator. -/
theorem stepped_does {w x : Work} {f : Word} {p : List Pend} {outs : List Write} (n : Ins) (k : Nat)
    (hd : w.Does x f p) (ha : x.act = w.act) (hr : ∀ r i, i < 128 → x.now r i = (written outs r i).getD (w.now r i))
    (hg : ∀ i, written outs .gen i = none) :
    w.Does (x.stepped n k) f p
      ∧ ∀ r i, i < 128 → (x.stepped n k).now r i = (written (outs ++ w.genWrites n k) r i).getD (w.now r i) := by
  unfold Work.stepped genWrites
  split
  · have hs := RegsOnly.set x .gen x.act fun i => lfsrSteps k (x.now .gen i)
    refine ⟨by simpa using hd.trans (Does.of_regsOnly hs), fun r i hi => ?_⟩
    rw [now_set _ _ _ _ _ hi, written_append, hr r i hi, ha]
    have e : written [(Reg.gen, w.act, fun i => lfsrSteps k (x.now .gen i))] r i
        = written [(Reg.gen, w.act, fun i => lfsrSteps k (w.now .gen i))] r i := by
      by_cases h : r = .gen
      · subst h
        have := hr .gen i hi
        rw [hg i, Option.getD_none] at this
        simp [written, Reg.perLane, this]
      · simp [written, Ne.symm h]
    rw [e]
    cases written [(Reg.gen, w.act, fun i => lfsrSteps k (w.now .gen i))] r i <;> simp
  · simpa using ⟨hd, hr⟩

/-- A result that the scoreboard holds (R47). -/
theorem holdFor_does (w : Work) (p : Pend) : w.Does (w.holdFor p) 0#32 [p] :=
  ⟨rfl, rfl, rfl, by simp, rfl, rfl, rfl⟩

theorem pending_does (w : Work) (cycles : Nat) (flags : Word) (outs : List Write) :
    w.Does (w.pending cycles flags outs) 0#32 [w.pendOf false 0 flags outs]
      ∧ ∀ r i, (w.pending cycles flags outs).now r i = w.now r i := by
  refine ⟨⟨rfl, rfl, rfl, ?_, rfl, rfl, rfl⟩, fun r i => rfl⟩
  simp [pending]

end Work

/-- A result of one register names what its destination operand names (R126). -/
theorem Work.outsOf_one (w : Work) (n : Ins) (m : Mask) (f : Nat → Nat → Word) :
    w.outsOf n 1 m f = (w.dests n.dst 0 m).map fun d => (d.1, d.2, f 0) := by
  simp [Work.outsOf]

/-! ### Completion -/

/-- The effect of a run whose gate passes. -/
theorem run_go {n : Ins} {s : State} {w : Work} (body : Work → Eff) (h : gate n s = .go w) :
    run n body s = match body w with
      | .done w => .next (w.finish n)
      | .raw s => .next s
      | .trap t => w.trap n t
      | .trapAfter w t => ({ w with s := w.commit } : Work).trap n t
      | .hold => .next w.hold
      | .stop f => .fault f := by
  unfold run
  rw [h]
  first | done | rfl

theorem run_done {n : Ins} {s : State} {w x : Work} {body : Work → Eff} (h : gate n s = .go w) (hb : body w = .done x) :
    run n body s = .next (x.finish n) := by
  rw [run_go body h, hb]

theorem run_raw {n : Ins} {s t : State} {w : Work} {body : Work → Eff} (h : gate n s = .go w) (hb : body w = .raw t) :
    run n body s = .next t := by
  rw [run_go body h, hb]

theorem ifActive_of {body : Work → Eff} {w : Work} (h : w.act ≠ 0) : ifActive body w = body w := by
  rw [ifActive, if_neg h]

/-- With no active lane the instruction completes and does nothing else (R57). -/
theorem ifActive_none {body : Work → Eff} {w : Work} (h : w.act = 0) : ifActive body w = .done w := by
  rw [ifActive, if_pos h]

/-- An instruction whose meaning is `done` completes with what its work has done; `b` is the split's data with the effects that
are no register results. -/
theorem completes_of_done {i : Instr} {n : Ins} {body : Work → Eff} {s : State} {w b x : Work} {outs : List Write} {flags : Word}
    {pends : List Pend} (he : exec i s = run n body s) (hg : gate n s = .go w) (hb : body w = .done x) (hd : b.Does x flags pends)
    (hr : ∀ r i, i < 128 → x.now r i = (written outs r i).getD (b.now r i)) :
    ∃ t y, exec i s = .next t ∧ Completes b.s b outs flags pends (nextWord n b) t y := by
  obtain ⟨z, hz⟩ := Work.finish_completes (n := n) rfl hd hr
  exact ⟨_, z, he.trans (run_done hg hb), hz⟩

theorem mem_insertTimed {f : Ev → Nat} {e x : Timed} {l : List Timed} : x ∈ insertTimed f e l ↔ x = e ∨ x ∈ l := by
  induction l with
  | nil => simp [insertTimed]
  | cons y l ih =>
    unfold insertTimed
    split
    · simp
    · simp only [List.mem_cons, ih]; tauto

theorem mem_settle {x : Timed} {s : State} (tid due : Nat) (h : x ∈ s.agenda) : x ∈ (s.settle tid due).agenda := by
  simp [State.settle, State.atAll, mem_insertTimed, h]

/-- What is on the agenda stays there when an instruction completes. -/
theorem Work.mem_finish {x : Timed} {w : Work} (n : Ins) (h : x ∈ w.s.agenda) : x ∈ (w.finish n).agenda := by
  unfold Work.finish Work.close
  dsimp only
  split
  · exact mem_settle _ _ h
  · exact h

/-- One issue whose meaning is a fixed-latency result; `b` is the split's data with the effects that are no register results. -/
theorem completes_fixed {i : Instr} {n : Ins} {body : Work → Eff} {s : State} {w b : Work} {vector latch : Bool} {code glen : Nat}
    {outs : List Write} {lat : Nat → Word} (he : exec i s = run n body s) (h : gate n s = .go w)
    (hb : body w = .done (b.fixed vector latch code glen outs lat)) :
    ∃ t x, exec i s = .next t ∧ Completes b.s b (b.fixedWrites vector latch outs lat) 0#32 [] (nextWord n b) t x := by
  obtain ⟨hd, hr⟩ := b.fixed_does vector latch code glen outs lat
  exact completes_of_done he h hb hd hr

/-- One issue whose meaning is a lane result. -/
theorem completes_alu {i : Instr} {n : Ins} {body : Work → Eff} {s : State} {w : Work} {vector : Bool} {f : Nat → Word × Word}
    (he : exec i s = run n body s) (h : gate n s = .go w) (hb : body w = .done (w.alu vector n f)) :
    ∃ t x, exec i s = .next t ∧ Completes s w (laneWrites vector n w fun l => (f l).1)
      (orFlags ((lanesOf w.act).map fun l => (f l).2)) [] (nextWord n w) t x := by
  obtain ⟨hd, hr⟩ := w.alu_does vector n f
  obtain ⟨t, x, ht, hc⟩ := completes_of_done he h hb hd hr
  rw [(gate_go h).2.1] at hc
  exact ⟨t, x, ht, hc⟩

/-- A fixed-latency result and nothing else. -/
theorem completesWith_of_fixed {i : Instr} {n : Ins} {body : Work → Eff} {vector latch : Bool} {code glen : Work → Nat}
    {outs : Work → List Write} {lat : Work → Nat → Word} (he : ∀ s, exec i s = run n (ifActive body) s)
    (hb : ∀ w, body w = .done (w.fixed vector latch (code w) (glen w) (outs w) (lat w))) :
    completesWith i n (fun w => w.fixedWrites vector latch (outs w) (lat w)) fun _ => 0#32 := by
  intro s w h
  obtain ⟨t, x, ht, hc⟩ := completes_fixed (he s) h.1 ((ifActive_of h.2).trans (hb w))
  rw [(gate_go h.1).2.1] at hc
  exact ⟨t, x, ht, hc⟩

/-- A result that goes to the scoreboard and nothing else. -/
theorem scoreboardResult_of_later {i : Instr} {n : Ins} {body : Work → Eff} {cycles len : Work → Nat} {flags : Work → Word}
    {v : Work → Nat → Nat → Word} (he : ∀ s, exec i s = run n (ifActive body) s)
    (hb : ∀ s w, issues n s w → body w = .done (w.later (cycles w) (flags w) n (len w) (v w))) :
    scoreboardResult i n len v flags := by
  intro s w h
  have hs := (gate_go h.1).2.1
  obtain ⟨hd, hr⟩ := w.pending_does (cycles w) (flags w) (w.outsOf n (len w) w.act (v w))
  have hw : body w = .done (w.pending (cycles w) (flags w) (w.outsOf n (len w) w.act (v w))) := hb s w h
  obtain ⟨z, hz⟩ := Work.finish_completes (n := n) (outs := []) rfl hd fun r i _ => by simp [written, hr]
  rw [hs] at hz
  refine ⟨_, z, (he s).trans (run_done h.1 ((ifActive_of h.2).trans hw)), hz, w.s.now + cycles w, Work.mem_finish n ?_⟩
  simp [Work.pending, mem_insertTimed, hs]

end Sys2Proof.Machine
end

