-- ==== Sys2Proof/Laws/Elements.lean ====
section
/-! SUPPORT. Laws of packed elements, of Fit, and of lane results. -/

namespace Sys2Proof.Machine

open Sys2Proof

/-! ### Packed elements -/

/-- Digits below a base stay below its power, and each can be read back. -/
theorem digits_sum (b : Nat) (hb : 0 < b) (g : Nat → Nat) (hg : ∀ e, g e < b) (k : Nat) :
    ((List.range k).map fun e => g e * b ^ e).sum < b ^ k
      ∧ ∀ e, e < k → ((List.range k).map fun e => g e * b ^ e).sum / b ^ e % b = g e := by
  induction k with
  | zero => simp
  | succ k ih =>
    rw [List.range_succ, List.map_append, List.sum_append]
    simp only [List.map_cons, List.map_nil, List.sum_cons, List.sum_nil, Nat.add_zero]
    have hk : 0 < b ^ k := Nat.pow_pos hb
    refine ⟨?_, fun e he => ?_⟩
    · have h1 : g k * b ^ k ≤ (b - 1) * b ^ k := Nat.mul_le_mul_right _ (by have := hg k; omega)
      have h2 : (b - 1) * b ^ k + b ^ k = b ^ (k + 1) := by
        rw [← Nat.succ_mul, Nat.succ_eq_add_one, Nat.sub_add_cancel hb, Nat.pow_succ, Nat.mul_comm]
      have := ih.1
      omega
    · rcases Nat.lt_succ_iff_lt_or_eq.1 he with h | h
      · rw [show k = e + 1 + (k - e - 1) by omega, Nat.pow_add, Nat.pow_succ]
        rw [show e + 1 + (k - e - 1) = k by omega]
        rw [show g k * (b ^ e * b * b ^ (k - e - 1)) = b ^ e * (b * (b ^ (k - e - 1) * g k)) by ring]
        rw [Nat.add_mul_div_left _ _ (Nat.pow_pos hb), Nat.add_mul_mod_self_left]
        exact ih.2 e h
      · subst h
        rw [Nat.add_mul_div_right _ _ hk, Nat.div_eq_of_lt ih.1, Nat.zero_add, Nat.mod_eq_of_lt (hg e)]

/-- Element `e` of packed results (R133). -/
theorem packElems_elem' {wd : Nat} (hw : wd ∣ 32) (f : Nat → Nat × Word) {e : Nat} (he : e < 32 / wd) :
    (packElems wd f).1.toNat / 2 ^ (wd * e) % 2 ^ wd = (f e).1 % 2 ^ wd := by
  have hd := digits_sum (2 ^ wd) (Nat.pow_pos (by norm_num)) (fun e => (f e).1 % 2 ^ wd)
    (fun e => Nat.mod_lt _ (Nat.pow_pos (by norm_num))) (32 / wd)
  have h32 : (2 ^ wd) ^ (32 / wd) = 2 ^ 32 := by rw [← Nat.pow_mul, Nat.mul_div_cancel' hw]
  simp only [packElems, BitVec.toNat_ofNat, Nat.pow_mul]
  rw [h32] at hd
  rw [Nat.mod_eq_of_lt hd.1]
  exact hd.2 e he

theorem packElems_elem {wd : Nat} (hw : wd = 8 ∨ wd = 16 ∨ wd = 32) (f : Nat → Nat × Word) {e : Nat} (he : e < 32 / wd) :
    (packElems wd f).1.toNat / 2 ^ (wd * e) % 2 ^ wd = (f e).1 % 2 ^ wd :=
  packElems_elem' (by rcases hw with h | h | h <;> subst h <;> decide) f he

/-! ### Flags -/

theorem orFlags_append (a b : List Word) : orFlags (a ++ b) = orFlags a ||| orFlags b := by
  have h (l : List Word) (x : Word) : l.foldl (· ||| ·) x = x ||| l.foldl (· ||| ·) 0#32 := by
    induction l generalizing x with
    | nil => simp
    | cons y l ih => simp only [List.foldl_cons]; rw [ih, ih (0#32 ||| y)]; simp [BitVec.or_assoc]
  rw [orFlags, List.foldl_append, h]; rfl

theorem orFlags_cons (x : Word) (l : List Word) : orFlags (x :: l) = x ||| orFlags l := by
  have := orFlags_append [x] l
  simpa [orFlags] using this

/-- The union of flags that are each clear or one flag. -/
theorem orFlags_one {f : Word} {l : List Word} (h : ∀ x ∈ l, x = 0#32 ∨ x = f) :
    orFlags l = 0#32 ∧ (∀ x ∈ l, x = 0#32) ∨ orFlags l = f ∧ f ∈ l := by
  induction l with
  | nil => simp [orFlags]
  | cons x l ih =>
    rw [orFlags_cons]
    rcases h x (by simp) with rfl | rfl <;> rcases ih (fun y hy => h y (by simp [hy])) with ⟨e, g⟩ | ⟨e, g⟩ <;> simp [e, g]
    exact .inl g

theorem orFlags_zero {l : List Word} (h : ∀ x ∈ l, x = 0#32) : orFlags l = 0#32 := by
  rcases orFlags_one (f := 0#32) (fun x hx => .inl (h x hx)) with h | h <;> exact h.1

theorem mem_lanesOf {m : Mask} {i : Nat} : i ∈ lanesOf m ↔ m.getLsbD i = true := by
  simp only [lanesOf, List.mem_filter, List.mem_range]
  exact ⟨fun h => h.2, fun h => ⟨BitVec.lt_of_getLsbD h, h⟩⟩

/-! ### Sets of lanes -/

theorem getLsbD_maskOf (l : List Nat) (j : Nat) : (maskOf l).getLsbD j = (decide (j < 128) && decide (j ∈ l)) := by
  have : ∀ (m : Mask), (l.foldl (fun m i => m ||| (1#128 <<< i)) m).getLsbD j
      = (m.getLsbD j || (decide (j < 128) && decide (j ∈ l))) := by
    induction l with
    | nil => simp
    | cons a l ih =>
      intro m
      rw [List.foldl_cons, ih, BitVec.getLsbD_or, BitVec.getLsbD_shiftLeft]
      by_cases h : j = a
      · subst h; by_cases h2 : j < 128 <;> simp [h2]
      · have h3 : (!decide (j < a) && decide (j - a = 0)) = false := by
          rw [Bool.and_eq_false_iff]
          by_cases h4 : j < a
          · exact .inl (by simp [h4])
          · exact .inr (by simp; omega)
        by_cases h2 : j < 128 <;> simp [h, h2, h3]
  simpa [maskOf] using this 0

theorem getLsbD_maskFilter (m : Mask) (c : Nat → Bool) (l : Nat) : (maskFilter m c).getLsbD l = (m.getLsbD l && c l) := by
  unfold maskFilter
  rw [getLsbD_maskOf]
  by_cases h : m.getLsbD l = true
  · have := BitVec.lt_of_getLsbD h
    simp [h, this, mem_lanesOf]
  · simp [h, mem_lanesOf]

theorem maskFilter_eq_zero (m : Mask) (c : Nat → Bool) : maskFilter m c = 0 ↔ ∀ l ∈ lanesOf m, c l = false := by
  constructor
  · intro h l hl
    have := getLsbD_maskFilter m c l
    rw [h, mem_lanesOf.1 hl] at this
    simpa using this.symm
  · intro h
    apply BitVec.eq_of_getLsbD_eq
    intro i _
    rw [getLsbD_maskFilter]
    by_cases hm : m.getLsbD i = true
    · simp [h i (mem_lanesOf.2 hm)]
    · simp [hm]

theorem maskFilter_eq_self (m : Mask) (c : Nat → Bool) : maskFilter m c = m ↔ ∀ l ∈ lanesOf m, c l = true := by
  constructor
  · intro h l hl
    have := getLsbD_maskFilter m c l
    rw [h, mem_lanesOf.1 hl] at this
    simpa using this.symm
  · intro h
    apply BitVec.eq_of_getLsbD_eq
    intro i _
    rw [getLsbD_maskFilter]
    by_cases hm : m.getLsbD i = true
    · simp [hm, h i (mem_lanesOf.2 hm)]
    · simp [hm]

/-! ### Fit -/

theorem encodeInt_eq (t : Int) (w : Nat) : ((encodeInt t w : Nat) : Int) = t % 2 ^ w := by
  unfold encodeInt
  exact Int.toNat_of_nonneg (Int.emod_nonneg _ (by positivity))

theorem encodeInt_mod (t : Int) (w : Nat) : encodeInt t w % 2 ^ w = encodeInt t w := by
  apply Nat.mod_eq_of_lt
  have h := Int.emod_lt_of_pos t (show (0 : Int) < 2 ^ w by positivity)
  have e := encodeInt_eq t w
  have : ((encodeInt t w : Nat) : Int) < ((2 ^ w : Nat) : Int) := by rw [e]; push_cast; exact h
  exact_mod_cast this

theorem intLo_le_intHi (w : Nat) (sgn : Bool) : intLo w sgn ≤ intHi w sgn := by
  have h1 : (1 : Int) ≤ 2 ^ (w - 1) := one_le_pow₀ (by norm_num)
  have h2 : (1 : Int) ≤ 2 ^ w := one_le_pow₀ (by norm_num)
  cases sgn
  · simp [intLo, intHi, h2]
  · simp only [intLo, intHi, if_true]; omega

/-- What Fit gives: the clamped value's encoding, and ISAT when it clamps (R133). -/
theorem fit_eq (w : Nat) (t : Int) (sgn sat : Bool) :
    (((fit t w sgn sat).1 : Nat) : Int) = clamped t w sgn sat % 2 ^ w ∧ (fit t w sgn sat).1 % 2 ^ w = (fit t w sgn sat).1
      ∧ ((fit t w sgn sat).2 = 0#32 ∧ ¬(sat = true ∧ outOfRange t w sgn)
          ∨ (fit t w sgn sat).2 = flagSat ∧ sat = true ∧ outOfRange t w sgn) := by
  have hl := intLo_le_intHi w sgn
  unfold fit clamped outOfRange
  cases sat
  · simp [encodeInt_eq, encodeInt_mod]
  · by_cases h1 : t < intLo w sgn
    · have : max (intLo w sgn) (min (intHi w sgn) t) = intLo w sgn := by omega
      simp [h1, encodeInt_eq, encodeInt_mod, this]
    · by_cases h2 : intHi w sgn < t
      · have : max (intLo w sgn) (min (intHi w sgn) t) = intHi w sgn := by omega
        simp [h1, h2, encodeInt_eq, encodeInt_mod, this]
      · have : max (intLo w sgn) (min (intHi w sgn) t) = t := by omega
        simp [h1, h2, encodeInt_eq, encodeInt_mod, this]

/-! ### Lane results -/

/-- A meaning that is a lane result of a pipe gives such a result. -/
theorem laneResult_of_alu {vector : Bool} {i : Instr} {n : Ins} {body : Work → Eff} {v : Work → Nat → Word × Word}
    {good : Ins → Work → Nat → Word → Prop} {flags : Ins → Work → Word → Prop} (he : ∀ s, exec i s = run n (ifActive body) s)
    (hb : ∀ w, body w = .done (w.alu vector n (v w)))
    (hv : ∀ s w, issues n s w → ∀ l, w.act.getLsbD l = true → good n w l (v w l).1)
    (hf : ∀ s w, issues n s w → flags n w (orFlags ((lanesOf w.act).map fun l => (v w l).2))) :
    laneResult vector good flags i n := by
  intro s w h
  obtain ⟨hd, hr⟩ := w.alu_does vector n (v w)
  obtain ⟨t, x, ht, hc⟩ := completes_of_done (he s) h.1 ((ifActive_of h.2).trans (hb w)) hd hr
  rw [(gate_go h.1).2.1] at hc
  exact ⟨fun l => (v w l).1, _, t, x, ht, hc, hv s w h, hf s w h⟩

/-- The meanings that act on whole words. -/
theorem wordRel_of_lanewise {i : Instr} {n : Ins} {f : Word → Word → Word → Word} {good : Ins → Word → Word → Word → Word → Prop}
    (he : ∀ s, exec i s = run n (lanewise f n) s) (h : ∀ a b c, good n a b c (f a b c)) : wordRel good i n := by
  refine laneResult_of_alu he (fun _ => rfl) (fun _ _ _ _ _ => h _ _ _) fun _ _ _ => orFlags_zero ?_
  intro x hx
  simp only [List.mem_map] at hx
  obtain ⟨_, _, h⟩ := hx
  exact h.symm

/-- Bits that are summed with their weights are the bits of the sum. -/
theorem bits_sum {k : Nat} (hk : k ≤ 32) (g : Nat → Bool) {j : Nat} (hj : j < k) :
    (BitVec.ofNat 32 (((List.range k).map fun j => (g j).toNat * 2 ^ j).sum)).getLsbD j = g j := by
  have hd := digits_sum 2 (by norm_num) (fun e => (g e).toNat) (fun e => by cases g e <;> simp) k
  have hp : (2 : Nat) ^ k ≤ 2 ^ 32 := Nat.pow_le_pow_right (by norm_num) hk
  rw [BitVec.getLsbD_ofNat, Nat.testBit_eq_decide_div_mod_eq, hd.2 j hj]
  have : j < 32 := by omega
  cases g j <;> simp [this]

/-- The sum of some bits with their weights is below the next power. -/
theorem bits_lt (k : Nat) (g : Nat → Bool) : ((List.range k).map fun j => (g j).toNat * 2 ^ j).sum < 2 ^ k :=
  (digits_sum 2 (by norm_num) (fun e => (g e).toNat) (fun e => by cases g e <;> simp) k).1

/-- An instruction without a trap passes every check (R56, R59). -/
theorem checks_none {w : Work} {n : Ins} (h : w.checks n = none) :
    w.check03 n = none ∧ w.check04 n = none ∧ w.check05 n = none ∧ w.check06 n = none ∧ w.check14 n = none := by
  unfold Work.checks at h
  repeat' split at h
  all_goals first | cases h | skip
  simp_all

theorem badEntry_none {w : Work} {n : Ins} (h : w.checks n = none) : badEntry w.look n = none := by
  have h6 := (checks_none h).2.2.2.1
  unfold Work.check06 at h6
  split at h6
  · cases h6
  · assumption

theorem intEntry_width {look : Nat → DWord} {n : Nat} (h : intEntry look n = true) :
    (fmtOf (look n)).width = 8 ∨ (fmtOf (look n)).width = 16 ∨ (fmtOf (look n)).width = 32 := by
  simp [intEntry] at h
  exact or_assoc.1 h.2

/-- An integer instruction that issues names an integer entry (R132, R165). -/
theorem issues_intEntry {n : Ins} {s : State} {w : Work} (h : gate n s = .go w) (h1 : 0x22 ≤ n.op) (h2 : n.op ≤ 0x2F) :
    intEntry w.look n.fmt = true := by
  have hb := badEntry_none (gate_go h).2.2.2.2.2.1
  by_contra hc
  unfold badEntry at hb
  split at hb <;> first | omega | simp [hc, h1, h2] at hb

/-- The meanings that act element by element under an integer entry (R133). -/
theorem elementResult_of_elementwise {i : Instr} {n : Ins} {t : Fmt → Int → Int → Int → Int} (h1 : 0x22 ≤ n.op) (h2 : n.op ≤ 0x2F)
    (he : ∀ s, exec i s = run n (elementwise t n) s) : elementResult t i n := by
  unfold elementResult
  refine laneResult_of_alu he (fun _ => rfl) ?_ ?_
  · intro s w h l _
    have hw : (w.fmt n.fmt).width = 8 ∨ (w.fmt n.fmt).width = 16 ∨ (w.fmt n.fmt).width = 32 :=
      intEntry_width (issues_intEntry h.1 h1 h2)
    refine ⟨hw, fun e he => ?_⟩
    rw [packElems_elem hw _ he]
    have hf := fit_eq (w.fmt n.fmt).width
      (t (w.fmt n.fmt) (srcElem n w n.sa l e) (srcElem n w n.sb l e) (srcElem n w n.sc l e)) (w.fmt n.fmt).sign
      (n.sat || (w.fmt n.fmt).satPolicy)
    exact (congrArg _ hf.2.1).trans hf.1
  · intro s w _
    have hf l e := (fit_eq (w.fmt n.fmt).width
      (t (w.fmt n.fmt) (srcElem n w n.sa l e) (srcElem n w n.sb l e) (srcElem n w n.sc l e)) (w.fmt n.fmt).sign
      (n.sat || (w.fmt n.fmt).satPolicy)).2.2
    have hs : flagSat ≠ 0#32 := by decide
    have hl l := orFlags_one (f := flagSat) (l := (List.range (32 / (w.fmt n.fmt).width)).map fun e =>
      (fit (t (w.fmt n.fmt) (srcElem n w n.sa l e) (srcElem n w n.sb l e) (srcElem n w n.sc l e)) (w.fmt n.fmt).width
        (w.fmt n.fmt).sign (n.sat || (w.fmt n.fmt).satPolicy)).2)
      (by simp only [List.mem_map]; rintro x ⟨e, -, rfl⟩; rcases hf l e with h | h <;> simp [h.1])
    have ho := orFlags_one (f := flagSat) (l := (lanesOf w.act).map fun l => (packElems (w.fmt n.fmt).width fun e =>
      fit (t (w.fmt n.fmt) (srcElem n w n.sa l e) (srcElem n w n.sb l e) (srcElem n w n.sc l e)) (w.fmt n.fmt).width
        (w.fmt n.fmt).sign (n.sat || (w.fmt n.fmt).satPolicy)).2)
      (by simp only [List.mem_map]; rintro x ⟨l, -, rfl⟩; rcases hl l with h | h <;> simp [packElems, h.1])
    have hm : orFlags ((lanesOf w.act).map fun l => (packElems (w.fmt n.fmt).width fun e =>
        fit (t (w.fmt n.fmt) (srcElem n w n.sa l e) (srcElem n w n.sb l e) (srcElem n w n.sc l e)) (w.fmt n.fmt).width
          (w.fmt n.fmt).sign (n.sat || (w.fmt n.fmt).satPolicy)).2) = flagSat
        ↔ ∃ l e, w.act.getLsbD l = true ∧ e < 32 / (w.fmt n.fmt).width ∧ (fit (t (w.fmt n.fmt) (srcElem n w n.sa l e)
            (srcElem n w n.sb l e) (srcElem n w n.sc l e)) (w.fmt n.fmt).width (w.fmt n.fmt).sign
            (n.sat || (w.fmt n.fmt).satPolicy)).2 = flagSat := by
      constructor
      · intro h
        rcases ho with ⟨e, -⟩ | ⟨-, m⟩
        · exact absurd (h.symm.trans e) hs
        · obtain ⟨l, hl1, hl2⟩ := List.mem_map.1 m
          rcases hl l with ⟨e, -⟩ | ⟨-, m⟩
          · exact absurd (hl2.symm.trans e) hs
          · obtain ⟨e, he1, he2⟩ := List.mem_map.1 m
            exact ⟨l, e, mem_lanesOf.1 hl1, List.mem_range.1 he1, he2⟩
      · rintro ⟨l, e, hl1, he1, h⟩
        rcases ho with ⟨-, z⟩ | ⟨y, -⟩
        · have hz := z _ (List.mem_map.2 ⟨l, mem_lanesOf.2 hl1, rfl⟩)
          rcases hl l with ⟨-, g⟩ | ⟨g, -⟩
          · exact absurd (h.symm.trans (g _ (List.mem_map.2 ⟨e, List.mem_range.2 he1, rfl⟩))) hs
          · exact absurd (g.symm.trans hz) hs
        · exact y
    refine ⟨ho.imp And.left And.left, hm.trans ⟨?_, ?_⟩⟩
    · rintro ⟨l, e, a, b, c⟩
      rcases hf l e with h | h
      · exact absurd (c.symm.trans h.1) hs
      · exact ⟨h.2.1, l, e, a, b, h.2.2⟩
    · rintro ⟨k, l, e, a, b, c⟩
      refine ⟨l, e, a, b, ?_⟩
      rcases hf l e with h | h
      · exact absurd ⟨k, c⟩ h.2
      · exact h.1

/-- Flags that are each clear or ISAT, ISAT where a condition holds in an active lane. -/
theorem orFlags_sat {m : Mask} {g : Nat → Word} {p : Nat → Prop} (h : ∀ l, g l = 0#32 ∧ ¬p l ∨ g l = flagSat ∧ p l) :
    (orFlags ((lanesOf m).map g) = 0#32 ∨ orFlags ((lanesOf m).map g) = flagSat)
      ∧ (orFlags ((lanesOf m).map g) = flagSat ↔ ∃ l, m.getLsbD l = true ∧ p l) := by
  have hs : flagSat ≠ 0#32 := by decide
  have ho := orFlags_one (f := flagSat) (l := (lanesOf m).map g)
    (by simp only [List.mem_map]; rintro x ⟨l, -, rfl⟩; exact (h l).imp And.left And.left)
  refine ⟨ho.imp And.left And.left, fun e => ?_, fun ⟨l, hl, hp⟩ => ?_⟩
  · rcases ho with ⟨z, -⟩ | ⟨-, k⟩
    · exact absurd (e.symm.trans z) hs
    · obtain ⟨l, hl, k⟩ := List.mem_map.1 k
      rcases h l with ⟨z, -⟩ | ⟨-, q⟩
      · exact absurd (k.symm.trans z) hs
      · exact ⟨l, mem_lanesOf.1 hl, q⟩
  · rcases ho with ⟨-, z⟩ | ⟨y, -⟩
    · have := z _ (List.mem_map.2 ⟨l, mem_lanesOf.2 hl, rfl⟩)
      rcases h l with ⟨-, q⟩ | ⟨q, -⟩
      · exact absurd hp q
      · exact absurd (q.symm.trans this) hs
    · exact y

/-- A meaning whose lane results are each one 32-bit fit. -/
theorem laneResult_of_fit {i : Instr} {n : Ins} {body : Work → Eff} {t : Ins → Work → Nat → Int} {sgn sat : Ins → Work → Bool}
    (he : ∀ s, exec i s = run n (ifActive body) s)
    (hb : ∀ w, body w = .done (w.alu false n fun l =>
      (BitVec.ofNat 32 (fit (t n w l) 32 (sgn n w) (sat n w)).1, (fit (t n w l) 32 (sgn n w) (sat n w)).2))) :
    laneResult false (fun n w l v => ((v.toNat : Nat) : Int) = clamped (t n w l) 32 (sgn n w) (sat n w) % 2 ^ 32)
      (fun n w fl => (fl = 0#32 ∨ fl = flagSat)
        ∧ (fl = flagSat ↔ sat n w = true ∧ ∃ l, w.act.getLsbD l = true ∧ outOfRange (t n w l) 32 (sgn n w))) i n := by
  refine laneResult_of_alu he hb (fun s w _ l _ => ?_) fun s w _ => ?_
  · have hf := fit_eq 32 (t n w l) (sgn n w) (sat n w)
    rw [← hf.1, BitVec.toNat_ofNat, hf.2.1]
  · have h := orFlags_sat (m := w.act) (p := fun l => sat n w = true ∧ outOfRange (t n w l) 32 (sgn n w))
      fun l => (fit_eq 32 (t n w l) (sgn n w) (sat n w)).2.2
    exact ⟨h.1, h.2.trans ⟨fun ⟨l, a, b, c⟩ => ⟨b, l, a, c⟩, fun ⟨b, l, a, c⟩ => ⟨l, a, b, c⟩⟩⟩

end Sys2Proof.Machine
end

