-- ==== Sys2Proof/Laws/Memory.lean ====
section
/-! SUPPORT. Laws of memory: the canonical form is kept by every write, and what a read finds after a write. -/

namespace Sys2Proof.Machine

open Sys2Proof

namespace Memory

theorem wfFrom_mono {m : Memory} {a b : Nat} (h : b ≤ a) (w : wfFrom a m = true) : wfFrom b m = true := by
  cases m with
  | nil => rfl
  | cons p t => simp [wfFrom] at w ⊢; exact ⟨⟨by omega, w.1.2⟩, w.2⟩

theorem read_lt {m : Memory} {a b : Nat} (w : wfFrom a m = true) (h : b < a) : read m b = 0 := by
  induction m generalizing a with
  | nil => rfl
  | cons p t ih =>
    simp [wfFrom] at w
    have : p.1 ≠ b := by omega
    simp [read, this, ih w.2 (by omega)]

theorem read_below {m : Memory} {c : Nat} (a b : Nat) (w : wfFrom c m = true) :
    read (below m a) b = if b < a then read m b else 0 := by
  induction m generalizing c with
  | nil => simp [below, read]
  | cons p t ih =>
    simp [wfFrom] at w
    simp only [below]
    split
    · next h => simp only [read, ih w.2]; split <;> split <;> simp_all
    · next h =>
      have : read ((p.1, p.2) :: t) b = 0 ∨ ¬ b < a := by
        by_cases hb : b < a
        · left
          have : p.1 ≠ b := by omega
          simp [read, this, read_lt w.2 (b := b) (by omega)]
        · exact .inr hb
      rcases this with h | h <;> simp [read] at h ⊢ <;> simp_all

theorem read_above {m : Memory} {c : Nat} (a b : Nat) (w : wfFrom c m = true) :
    read (above m a) b = if b < a then 0 else read m b := by
  induction m generalizing c with
  | nil => simp [above, read]
  | cons p t ih =>
    simp [wfFrom] at w
    simp only [above]
    split
    · next h =>
      simp only [ih w.2, read]
      by_cases hb : b < a
      · simp [hb]
      · have : p.1 ≠ b := by omega
        simp [hb, this]
    · next h =>
      by_cases hb : b < a
      · have : p.1 ≠ b := by omega
        simp [hb, read, this, read_lt w.2 (b := b) (by omega)]
      · simp [hb]

theorem read_cellsOf (a b : Nat) (bs : List Byte) :
    read (cellsOf a bs) b = if a ≤ b then bs.getD (b - a) 0 else 0 := by
  induction bs generalizing a with
  | nil => simp [cellsOf, read]
  | cons x t ih =>
    by_cases hb : a = b
    · subst hb
      simp only [cellsOf]
      split
      · next h => simp [ih, h]
      · simp [read]
    · have e : read (cellsOf a (x :: t)) b = read (cellsOf (a + 1) t) b := by
        simp only [cellsOf]; split <;> simp [read, hb]
      rw [e, ih]
      by_cases h : a + 1 ≤ b
      · have h2 : b - a = (b - (a + 1)) + 1 := by omega
        have h3 : a ≤ b := by omega
        simp [h, h3, h2]
      · have h3 : ¬ a ≤ b := by omega
        simp [h, h3]

theorem read_append {x y : Memory} {a : Nat} (w : wfFrom a x = true) (b : Nat) :
    read (x ++ y) b = if read x b = 0 then read y b else read x b := by
  induction x generalizing a with
  | nil => simp [read]
  | cons p t ih =>
    simp [wfFrom] at w
    by_cases h : p.1 = b
    · simp [read, h, w.1.2]
    · simp [read, h, ih w.2]

theorem wfFrom_append {x y : Memory} {a c : Nat} (hx : wfFrom a x = true) (hc : ∀ p ∈ x, p.1 < c) (hy : wfFrom c y = true)
    (h : a ≤ c) : wfFrom a (x ++ y) = true := by
  induction x generalizing a with
  | nil => exact wfFrom_mono h hy
  | cons p t ih =>
    simp [wfFrom] at hx ⊢
    exact ⟨hx.1, ih hx.2 (fun q hq => hc q (by simp [hq])) (hc p (by simp))⟩

theorem wfFrom_below {m : Memory} {c : Nat} (a : Nat) (w : wfFrom c m = true) :
    wfFrom c (below m a) = true ∧ ∀ p ∈ below m a, p.1 < a := by
  induction m generalizing c with
  | nil => simp [below, wfFrom]
  | cons p t ih =>
    simp [wfFrom] at w
    simp only [below]
    split
    · next h => exact ⟨by simp [wfFrom, w.1, (ih w.2).1], by simpa [h] using (ih w.2).2⟩
    · simp [wfFrom]

theorem wfFrom_above {m : Memory} {c : Nat} (a : Nat) (w : wfFrom c m = true) : wfFrom a (above m a) = true := by
  induction m generalizing c with
  | nil => rfl
  | cons p t ih =>
    simp [wfFrom] at w
    simp only [above]
    split
    · exact ih w.2
    · next h => simp [wfFrom, w.1.2, w.2]; omega

theorem wfFrom_cellsOf (a : Nat) (bs : List Byte) :
    wfFrom a (cellsOf a bs) = true ∧ ∀ p ∈ cellsOf a bs, p.1 < a + bs.length := by
  induction bs generalizing a with
  | nil => simp [cellsOf, wfFrom]
  | cons x t ih =>
    have := ih (a + 1)
    simp only [cellsOf]
    split
    · refine ⟨wfFrom_mono (by omega) this.1, fun p hp => ?_⟩
      have := this.2 p hp
      simp; omega
    · next h =>
      refine ⟨by simp [wfFrom, this.1]; exact h, fun p hp => ?_⟩
      rcases List.mem_cons.1 hp with rfl | hp
      · simp
      · have := this.2 p hp
        simp; omega

/-- A write keeps the canonical form. -/
theorem wf_write {m : Memory} (a : Nat) (bs : List Byte) (w : wf m = true) : wf (write m a bs) = true := by
  have hb := wfFrom_below a w
  have hc := wfFrom_cellsOf a bs
  exact wfFrom_append hb.1 hb.2 (wfFrom_append hc.1 hc.2 (wfFrom_above _ w) (by omega)) (by omega)

/-- What a byte reads after a write. -/
theorem read_write {m : Memory} (a b : Nat) (bs : List Byte) (w : wf m = true) :
    read (write m a bs) b = if a ≤ b ∧ b < a + bs.length then bs.getD (b - a) 0 else read m b := by
  have hb := wfFrom_below a w
  have hc := wfFrom_cellsOf a bs
  unfold write
  rw [read_append hb.1, read_append hc.1, read_below a b w, read_above _ b w, read_cellsOf]
  by_cases h1 : b < a
  · have e1 : ¬ a ≤ b := by omega
    have e2 : b < a + bs.length := by omega
    simp [h1, e1, e2]
    intro h; exact h.symm
  · by_cases h2 : b < a + bs.length
    · have e1 : a ≤ b := by omega
      simp [h1, h2, e1]
      intro h; exact h.symm
    · have e1 : a ≤ b := by omega
      have e3 : bs.length ≤ b - a := by omega
      simp [h1, h2, e1, e3]

/-- A write leaves every byte outside it. -/
theorem read_write_other {m : Memory} {a b : Nat} (bs : List Byte) (w : wf m = true) (h : b < a ∨ a + bs.length ≤ b) :
    read (write m a bs) b = read m b := by
  rw [read_write a b bs w, if_neg (by omega)]

theorem length_readN (m : Memory) (a n : Nat) : (readN m a n).length = n := by simp [readN]

/-- The bytes just written are read back. -/
theorem readN_write_same {m : Memory} (a : Nat) (bs : List Byte) (w : wf m = true) :
    readN (write m a bs) a bs.length = bs := by
  apply List.ext_getElem
  · simp [readN]
  · intro i h1 h2
    simp [readN, read_write _ _ _ w, h2]

/-- A range that a write does not meet reads as before. -/
theorem readN_write_other {m : Memory} {a b n : Nat} (bs : List Byte) (w : wf m = true)
    (h : b + n ≤ a ∨ a + bs.length ≤ b) : readN (write m a bs) b n = readN m b n := by
  apply List.map_congr_left
  intro i hi
  rw [List.mem_range] at hi
  exact read_write_other bs w (by omega)

end Memory

/-! ### The byte order of R5 -/

theorem length_natLE (n x : Nat) : (natLE n x).length = n := by
  induction n generalizing x with
  | zero => rfl
  | succ n ih => simp [natLE, ih]

theorem leNat_natLE (n x : Nat) : leNat (natLE n x) = x % 256 ^ n := by
  induction n generalizing x with
  | zero => simp [natLE, leNat, Nat.mod_one]
  | succ n ih =>
    have e : (256 : Nat) ^ (n + 1) = 256 * 256 ^ n := by rw [Nat.pow_succ, Nat.mul_comm]
    rw [natLE, leNat, ih, BitVec.toNat_ofNat, e, Nat.mod_mul]

end Sys2Proof.Machine
end

