-- ==== Sys2Proof/Laws/Access.lean ====
section
/-! SUPPORT. What the memory operations do: translations, loads, stores and atomics of lanes, and the returns of sectors. -/

namespace Sys2Proof.Machine

open Sys2Proof

theorem State.core_modCore (s : State) (k j : Nat) (f : Core → Core) :
    (s.modCore k f).core j = if j = k then f (s.core k) else s.core j := by
  unfold State.core State.modCore
  rw [Tab.find?_put]
  split <;> simp_all [State.core]

/-- Of the cores only the TLBs and the walk caches differ; a walk's reads pass the caches above the stacks. -/
structure OnlyTlbs (s t : State) : Prop where
  eq : OnlyCaches s t
  core : ∀ c, t.core c = { s.core c with tlb := (t.core c).tlb, utlb := (t.core c).utlb, walkc := (t.core c).walkc }

theorem OnlyTlbs.l1 {s t : State} (h : OnlyTlbs s t) (c : Nat) : (t.core c).l1 = (s.core c).l1 := by rw [h.core]

theorem OnlyTlbs.locks {s t : State} (h : OnlyTlbs s t) (c : Nat) : (t.core c).locks = (s.core c).locks := by rw [h.core]

theorem OnlyTlbs.fts {s t : State} (h : OnlyTlbs s t) (c : Nat) : (t.core c).fts = (s.core c).fts := by rw [h.core]

theorem OnlyTlbs.mem {s t : State} (h : OnlyTlbs s t) : t.mem = s.mem := by rw [h.eq]; rfl

theorem OnlyTlbs.refl (s : State) : OnlyTlbs s s := ⟨rfl, fun _ => rfl⟩

theorem OnlyTlbs.trans {a b c : State} (h : OnlyTlbs a b) (k : OnlyTlbs b c) : OnlyTlbs a c :=
  ⟨h.eq.trans k.eq, fun i => by rw [k.core, h.core]⟩

theorem OnlyPaths.core {s t : State} (h : OnlyPaths s t) (c : Nat) : t.core c = s.core c := by rw [h]; rfl

theorem OnlyPaths.tlbs {s t : State} (h : OnlyPaths s t) : OnlyTlbs s t := ⟨h.caches, fun c => by rw [h.core]⟩

theorem OnlyTlbs.modCore (s : State) (k : Nat) (f : Core → Core)
    (h : f (s.core k) = { s.core k with tlb := (f (s.core k)).tlb, utlb := (f (s.core k)).utlb, walkc := (f (s.core k)).walkc }) :
    OnlyTlbs s (s.modCore k f) := by
  refine ⟨rfl, fun c => ?_⟩
  rw [State.core_modCore]
  split
  · next e => subst e; exact h
  · rfl

/-- A translation changes nothing but the TLBs and the walk cache of its core, and what its reads pass (R283). -/
theorem translate_only (s : State) (core : Nat) (q : Option Nat) (ptbr ctxid : Nat) (sup : Bool) (a : Access) (va : Nat) :
    OnlyTlbs s (s.translate core q ptbr ctxid sup a va).1 := by
  unfold State.translate
  split
  · exact .refl s
  · dsimp only
    split
    · exact (readAll_only _ _ _).tlbs
    · split <;> dsimp only <;> (refine (readAll_only _ _ _).tlbs.trans (OnlyTlbs.modCore _ _ _ ?_); rfl)

theorem xlate_only (w : Work) (acc : Access) (ok : Nat → Bool) (va : Nat) :
    OnlyTlbs w.s (w.xlate acc ok va).1.s ∧ (w.xlate acc ok va).1 = { w with s := (w.xlate acc ok va).1.s } := by
  have h := translate_only w.s w.E.core (some w.T.quarter) w.ctx.ptbr.toNat w.ctx.ctxid.toNat w.T.sup acc va
  unfold Work.xlate
  dsimp only
  split
  · exact ⟨h, rfl⟩
  · split
    · exact ⟨h, rfl⟩
    · refine ⟨h.trans ?_, rfl⟩
      dsimp only
      refine OnlyTlbs.modCore _ _ _ ?_
      rfl

theorem xlateAll_only (w : Work) (acc : Access) (ok : Nat → Bool) (va : Nat → Nat) (l : List Nat) :
    OnlyTlbs w.s (w.xlateAll acc ok va l).1.s ∧ (w.xlateAll acc ok va l).1 = { w with s := (w.xlateAll acc ok va l).1.s }
      ∧ (w.xlateAll acc ok va l).2.map (·.1) = l := by
  induction l generalizing w with
  | nil => exact ⟨.refl _, rfl, rfl⟩
  | cons i t ih =>
    have h := xlate_only w acc ok (va i)
    have k := ih (w.xlate acc ok (va i)).1
    unfold Work.xlateAll
    dsimp only
    refine ⟨h.1.trans k.1, ?_, ?_⟩
    · rw [k.2.1, h.2]
    · rw [List.map_cons, k.2.2]

/-! ### Reads -/

theorem loadBytes_only (s : State) (core : Nat) (nc : Bool) (m : Mapped) (n : Nat) : OnlyCaches s (s.loadBytes core nc m n).1 := by
  unfold State.loadBytes
  split
  · exact (noteRead_only _ _).caches
  · split <;> dsimp only
    · exact modCore_only _ _ _
    · exact (noteRead_only _ _).caches.trans (modCore_only _ _ _)

theorem performLoads_only (core : Nat) (nc : Bool) (n : Nat) (ms : List (Nat × Mapped)) (s : State) :
    OnlyCaches s (performLoads core nc n ms s).1 := by
  induction ms generalizing s with
  | nil => exact .refl s
  | cons r t ih => exact (loadBytes_only _ _ _ _ _).trans (ih _)

theorem performLoads_lanes (core : Nat) (nc : Bool) (n : Nat) (ms : List (Nat × Mapped)) (s : State) :
    (performLoads core nc n ms s).2.map (fun x => (x.lane, x.sector)) = ms.map fun r => (r.1, r.2.pa / 32) := by
  induction ms generalizing s with
  | nil => rfl
  | cons r t ih =>
    unfold performLoads
    dsimp only
    rw [List.map_cons, ih, List.map_cons]

/-! ### L1 -/

theorem l1Find_drop (c : Core) (p : Nat → Bool) (k : Nat) :
    (c.l1Drop p).l1Find k = if p k then none else c.l1Find k := by
  unfold Core.l1Find Core.l1Drop
  simp only [List.find?_filter]
  split
  · next h =>
    rw [Option.map_eq_none_iff, List.find?_eq_none]
    intro e _
    simp only [not_and, Bool.not_eq_true', decide_eq_true_eq]
    intro h2 h3
    rw [h3, h] at h2
    cases h2
  · next h =>
    congr 2
    funext e
    by_cases h2 : e.sector = k
    · simp [h2, h]
    · simp [h2]

theorem find?_stable {α : Type} (l : List α) (p q : α → Bool) (h : (∀ x, q x = true → p x = true) ∨ ∀ x, q x = true → p x = false) :
    (l.filter p ++ l.filter fun x => !p x).find? q = l.find? q := by
  rw [List.find?_append, List.find?_filter, List.find?_filter]
  rcases h with h | h
  · have e1 : (fun a => decide (p a = true ∧ q a = true)) = q := by
      funext a; cases hq : q a
      · simp
      · simp [h a hq]
    have e2 : l.find? (fun a => decide ((!p a) = true ∧ q a = true)) = none := by
      rw [List.find?_eq_none]; intro a _; cases hq : q a
      · simp
      · simp [h a hq]
    rw [e1, e2]; simp
  · have e1 : l.find? (fun a => decide (p a = true ∧ q a = true)) = none := by
      rw [List.find?_eq_none]; intro a _; cases hq : q a
      · simp
      · simp [h a hq]
    have e2 : (fun a => decide ((!p a) = true ∧ q a = true)) = q := by
      funext a; cases hq : q a
      · simp
      · simp [h a hq]
    rw [e1, e2]; simp

theorem l1Find_touch (c : Core) (j k : Nat) : (c.l1Touch j).l1Find k = c.l1Find k := by
  unfold Core.l1Find Core.l1Touch
  dsimp only
  have e : (fun e : L1Sector => decide (e.sector / 2 ≠ j / 2)) = fun e => !decide (e.sector / 2 = j / 2) := by
    funext e; simp
  rw [e, find?_stable]
  by_cases h : k / 2 = j / 2
  · exact .inl fun x hx => by simp at hx ⊢; rw [hx, h]
  · exact .inr fun x hx => by simp at hx ⊢; rw [hx]; exact h

theorem l1Find_fill {c : Core} {j k : Nat} {d e : List Byte} (h : (c.l1Fill j d).l1Find k = some e) :
    (k = j ∧ e = d) ∨ c.l1Find k = some e := by
  have h1 : (({ c with l1 := ⟨j, d⟩ :: (c.l1Drop (· = j)).l1 } : Core).l1Touch j).l1Find k = some e := by
    unfold Core.l1Fill at h
    dsimp only at h
    split at h
    · exact h
    · split at h
      · exact h
      · rw [l1Find_drop] at h
        split at h
        · cases h
        · exact h
  rw [l1Find_touch] at h1
  by_cases hk : k = j
  · left
    subst hk
    simp [Core.l1Find] at h1
    exact ⟨rfl, h1.symm⟩
  · right
    have h2 := l1Find_drop c (fun x => decide (x = j)) k
    rw [if_neg (by simpa using hk)] at h2
    rw [← h2]
    simpa [Core.l1Find, Ne.symm hk] using h1

theorem readN_drop (m : Memory) (a off n k : Nat) (h : off + n ≤ k) : ((m.readN a k).drop off).take n = m.readN (a + off) n := by
  unfold Memory.readN
  rw [← List.map_drop, ← List.map_take]
  apply List.ext_getElem
  · simp; omega
  · intro i h1 h2; simp [Nat.add_assoc]

/-- What the caches of a core may hold after some of its loads: what they held, or the home's bytes. -/
def L1From (core : Nat) (s0 s : State) : Prop :=
  s.mem = s0.mem ∧ ∀ k d, (s.core core).l1Find k = some d → (s0.core core).l1Find k = some d ∨ d = s0.mem.readN (k * 32) 32

theorem loadBytes_from {core : Nat} {s0 s : State} (nc : Bool) {m : Mapped} {n : Nat} (h : L1From core s0 s)
    (hn : m.pa % 32 + n ≤ 32) :
    L1From core s0 (s.loadBytes core nc m n).1 ∧ loaded s0 core nc m n (s.loadBytes core nc m n).2 := by
  have hm : (s.loadBytes core nc m n).1.mem = s0.mem := by rw [loadBytes_only]; exact h.1
  have hp : m.pa / 32 * 32 + m.pa % 32 = m.pa := by omega
  have hnr : ∀ c, ((s.noteRead m.pa).core c) = s.core c := fun c => by rw [noteRead_only]; rfl
  unfold State.loadBytes at hm ⊢
  split
  · refine ⟨⟨by rw [noteRead_only]; exact h.1, fun k d hk => h.2 k d (by rw [← hnr]; exact hk)⟩, .inl ?_⟩
    simp [State.peek, h.1]
  · next hc =>
    simp only [not_or, not_not, Bool.not_eq_true] at hc
    split
    · next d hf =>
      refine ⟨⟨h.1, fun k e hk => h.2 k e ?_⟩, ?_⟩
      · rw [State.core_modCore, if_pos rfl, l1Find_touch] at hk; exact hk
      · rcases h.2 _ _ hf with h3 | h3
        · exact .inr ⟨hc.2.2, hc.2.1, d, h3, rfl⟩
        · left
          dsimp only
          rw [h3, readN_drop _ _ _ _ _ hn, hp]
          rfl
    · refine ⟨⟨by change (s.noteRead m.pa).mem = _; rw [noteRead_only]; exact h.1, fun k e hk => ?_⟩, .inl ?_⟩
      · rw [State.core_modCore, if_pos rfl, hnr] at hk
        rcases l1Find_fill hk with ⟨h4, h5⟩ | h4
        · right; rw [h5, h4, State.peek, h.1]
        · exact h.2 k e h4
      · simp [State.peek, h.1]

theorem performLoads_from {core : Nat} {s0 : State} (nc : Bool) {n : Nat} (ms : List (Nat × Mapped)) {s : State} (h : L1From core s0 s)
    (hd : ∀ r ∈ ms, r.2.pa % 32 + n ≤ 32) :
    List.Forall₂ (fun x r => x.lane = r.1 ∧ loaded s0 core nc r.2 n x.value) (performLoads core nc n ms s).2 ms := by
  induction ms generalizing s with
  | nil => exact .nil
  | cons r t ih =>
    have k := loadBytes_from nc h (hd r (by simp))
    unfold performLoads
    exact .cons ⟨rfl, k.2⟩ (ih k.1 fun r hr => hd r (by simp [hr]))

/-- The value served for a lane, when each lane was served once. -/
theorem served_of_lane {l : List Served} {ms : List (Nat × Mapped)} {p : Served → Nat × Mapped → Prop}
    (h : List.Forall₂ (fun x r => x.lane = r.1 ∧ p x r) l ms) (hn : (ms.map (·.1)).Nodup) :
    ∀ r ∈ ms, ∃ x, (l.find? fun x => x.lane = r.1) = some x ∧ p x r := by
  induction h with
  | nil => simp
  | @cons x r l ms hx _ ih =>
    intro q hq
    rw [List.map_cons, List.nodup_cons] at hn
    rcases List.mem_cons.1 hq with rfl | hq
    · exact ⟨x, by rw [List.find?_cons]; simp [hx.1], hx.2⟩
    · obtain ⟨y, hy, hp⟩ := ih hn.2 q hq
      refine ⟨y, ?_, hp⟩
      rw [List.find?_cons]
      have : x.lane ≠ q.1 := by
        rw [hx.1]; intro hc; exact hn.1 (hc ▸ List.mem_map.2 ⟨q, hq, rfl⟩)
      simp [this, hy]

theorem nodup_lanesOf (m : Mask) : (lanesOf m).Nodup := List.Nodup.filter _ List.nodup_range

/-! ### The common effect -/

theorem mem_distinct {a : Nat} {l : List Nat} : a ∈ distinct l ↔ a ∈ l := by
  induction l with
  | nil => simp [distinct]
  | cons b l ih => by_cases h : a = b <;> simp_all [distinct]

/-- How many events of a kind are on the agenda. -/
def State.count (s : State) (e : Ev) : Nat := (s.agenda.filter fun x => x.ev = e).length

theorem count_insertTimed (f : Ev → Nat) (x : Timed) (l : List Timed) (e : Ev) :
    ((insertTimed f x l).filter fun y => y.ev = e).length = (l.filter fun y => y.ev = e).length + (if x.ev = e then 1 else 0) := by
  induction l with
  | nil => by_cases h : x.ev = e <;> simp [insertTimed, h]
  | cons y t ih =>
    unfold insertTimed
    split
    · by_cases h : x.ev = e <;> by_cases h2 : y.ev = e <;> simp [h, h2]
    · by_cases h : x.ev = e <;> by_cases h2 : y.ev = e <;> simp_all

theorem count_at (s : State) (due : Nat) (ev e : Ev) : (s.at_ due ev).count e = s.count e + (if ev = e then 1 else 0) := by
  simp [State.count, count_insertTimed]

theorem mem_at {s : State} {due : Nat} {ev : Ev} {x : Timed} : x ∈ (s.at_ due ev).agenda ↔ x = ⟨due, ev⟩ ∨ x ∈ s.agenda := mem_insertTimed

theorem count_settle (s : State) (tid due : Nat) {e : Ev} (h1 : .reconvergenceFusion tid ≠ e) (h2 : .rejoinRelease tid ≠ e) :
    (s.settle tid due).count e = s.count e := by
  simp [State.settle, State.atAll, count_at, h1, h2]

/-- Only the agenda differs. -/
def OnlyAgenda (s t : State) : Prop := t = { s with agenda := t.agenda }

theorem OnlyAgenda.refl (s : State) : OnlyAgenda s s := rfl

theorem OnlyAgenda.trans {a b c : State} (h : OnlyAgenda a b) (k : OnlyAgenda b c) : OnlyAgenda a c := by
  unfold OnlyAgenda at *; rw [k, h]

theorem at_only (s : State) (due : Nat) (ev : Ev) : OnlyAgenda s (s.at_ due ev) := rfl

theorem foldl_at_only {α : Type} (due : State → α → Nat) (ev : State → α → Ev) (l : List α) (s : State) :
    OnlyAgenda s (l.foldl (fun s a => s.at_ (due s a) (ev s a)) s) :=
  foldl_rel (p := OnlyAgenda) OnlyAgenda.refl OnlyAgenda.trans (fun s a => at_only s (due s a) (ev s a)) l s

theorem sendSet_only (s : State) (tid start : Nat) (all : List Sent) : OnlyAgenda s (s.sendSet tid start all) :=
  (foldl_at_only _ _ _ _).trans (foldl_at_only _ _ _ _)

theorem mem_foldl_at {α : Type} (due : α → Nat) (ev : α → Ev) (l : List α) {x : Timed} {s : State} :
    x ∈ (l.foldl (fun s a => s.at_ (due a) (ev a)) s).agenda ↔ x ∈ s.agenda ∨ ∃ a ∈ l, x = ⟨due a, ev a⟩ := by
  induction l generalizing s with
  | nil => simp
  | cons a l ih => rw [List.foldl_cons, ih, mem_at]; simp; tauto

theorem count_foldl_at {α : Type} (due : α → Nat) (ev : α → Ev) (l : List α) (e : Ev) (s : State) :
    (l.foldl (fun s a => s.at_ (due a) (ev a)) s).count e = s.count e + (l.filter fun a => ev a = e).length := by
  induction l generalizing s with
  | nil => simp
  | cons a l ih =>
    rw [List.foldl_cons, ih, count_at, List.filter_cons]
    by_cases h : ev a = e <;> simp [h]
    omega

/-- A set returns each of its reads once. -/
theorem count_sendSet (s : State) (tid start : Nat) (all : List Sent) (id : Nat) :
    (s.sendSet tid start all).count (.loadSectorReturn tid id)
      = s.count (.loadSectorReturn tid id) + (all.filter fun r => r.id = id && !r.ack).length := by
  unfold State.sendSet
  dsimp only
  rw [count_foldl_at, count_foldl_at, List.filter_filter]
  simp

/-- A set acknowledges each of its writes. -/
theorem ack_sendSet (s : State) (tid start : Nat) {all : List Sent} {r : Sent} (h : r ∈ all) (ha : r.ack = true) :
    ∃ due, ⟨due, .storeAcknowledge tid r.id⟩ ∈ (s.sendSet tid start all).agenda := by
  unfold State.sendSet
  dsimp only
  refine ⟨_, (mem_foldl_at _ _ _).2 (.inr ⟨r.id, ?_, rfl⟩)⟩
  rw [mem_distinct, List.mem_map]
  exact ⟨r, by simp [h, ha], rfl⟩

theorem unsend_only (s : State) (tid : Nat) (l : List Sent) : OnlyAgenda s (s.unsend tid l) := rfl

/-- Calling off some requests leaves the returns of others. -/
theorem count_unsend (s : State) (tid : Nat) {l : List Sent} {id : Nat} (h : ∀ r ∈ l, r.id ≠ id) :
    (s.unsend tid l).count (.loadSectorReturn tid id) = s.count (.loadSectorReturn tid id) := by
  unfold State.unsend State.count
  dsimp only
  rw [List.filter_filter]
  congr 1
  refine List.filter_congr fun x _ => ?_
  by_cases hx : x.ev = .loadSectorReturn tid id
  · simpa [hx] using h
  · simp [hx]

/-- What sending requests changes: the core's record of what its quarters have sent, and the agenda. -/
theorem request_only (s : State) (core quarter tid : Nat) (new : List Sent) :
    s.request core quarter tid new
      = { s with cores := (s.request core quarter tid new).cores, agenda := (s.request core quarter tid new).agenda } := by
  unfold State.request
  dsimp only
  split
  · rw [sendSet_only]; rfl
  · split
    · rw [sendSet_only]; rfl
    · rw [sendSet_only]; rfl

/-- Each read among some requests is returned once. -/
theorem count_request (s : State) (core quarter tid : Nat) {new : List Sent} {id : Nat} (h : ∃ r ∈ new, r.id = id) :
    (s.request core quarter tid new).count (.loadSectorReturn tid id)
      = s.count (.loadSectorReturn tid id) + (new.filter fun r => r.id = id && !r.ack).length := by
  have hm (s : State) (f : Core → Core) (e : Ev) : (s.modCore core f).count e = s.count e := rfl
  unfold State.request
  dsimp only
  split
  · rw [count_sendSet, hm]
  · next o _ =>
    split
    · have ho : ∀ r ∈ o.reqs.filter (fun r => !(new.any fun n => n.id = r.id)), r.id ≠ id := by
        obtain ⟨n, hn, rfl⟩ := h
        intro r hr hc
        rw [List.mem_filter] at hr
        have := hr.2
        simp only [Bool.not_eq_true', List.any_eq_false, decide_eq_true_eq] at this
        exact this n hn hc.symm
      rw [count_sendSet, hm, count_unsend _ _ ho, List.filter_append]
      have : (o.reqs.filter (fun r => !(new.any fun n => n.id = r.id))).filter (fun r => r.id = id && !r.ack) = [] := by
        rw [List.filter_eq_nil_iff]; intro r hr; simp [ho r hr]
      rw [this]; rfl
    · rw [count_sendSet, hm]

/-- Each write among some requests is acknowledged. -/
theorem ack_request (s : State) (core quarter tid : Nat) {new : List Sent} {r : Sent} (h : r ∈ new) (ha : r.ack = true) :
    ∃ due, ⟨due, .storeAcknowledge tid r.id⟩ ∈ (s.request core quarter tid new).agenda := by
  unfold State.request
  dsimp only
  split
  · exact ack_sendSet _ _ _ h ha
  · split
    · exact ack_sendSet _ _ _ (List.mem_append_right _ h) ha
    · exact ack_sendSet _ _ _ h ha

theorem requestPaths_only (core : Nat) (write : Bool) (hit : Nat → Bool) (late : Nat → Nat) (l : List Nat) (s : State) :
    OnlyPaths s (requestPaths core write hit late l s).1 := by
  induction l generalizing s with
  | nil => exact .refl s
  | cons k t ih =>
    refine OnlyPaths.trans ?_ (ih _)
    split
    · exact .refl s
    · split
      · exact writeTime_only _ _ _
      · exact readTime_only _ _ _

theorem requestPaths_sectors (core : Nat) (write : Bool) (hit : Nat → Bool) (late : Nat → Nat) (l : List Nat) (s : State) :
    (requestPaths core write hit late l s).2.map (·.1) = l := by
  induction l generalizing s with
  | nil => rfl
  | cons k t ih => unfold requestPaths; dsimp only; rw [List.map_cons, ih]

theorem pathsOf_only (s : State) (core : Nat) (write l1 : Bool) (ms : List Mapped) : OnlyPaths s (s.pathsOf core write l1 ms).1 :=
  requestPaths_only _ _ _ _ _ _

theorem pathsOf_sectors (s : State) (core : Nat) (write l1 : Bool) (ms : List Mapped) :
    (s.pathsOf core write l1 ms).2.map (·.1) = distinct (ms.map (·.pa / 32)) := requestPaths_sectors _ _ _ _ _ _

theorem count_finish (w : Work) (n : Ins) {e : Ev} (h1 : .reconvergenceFusion w.tid ≠ e) (h2 : .rejoinRelease w.tid ≠ e) :
    (w.finish n).count e = w.s.count e := by
  unfold Work.finish Work.close
  dsimp only
  split
  · exact count_settle _ _ _ h1 h2
  · rfl

theorem reaches_only {w : Work} {acc : Access} {ok : Nat → Bool} {size : Nat} {va : Nat → Nat} {ms : List (Nat × Mapped)} {s1 : State}
    (h : Reaches w acc ok size va ms s1) : OnlyTlbs w.s s1 := by
  have k := (xlateAll_only w acc ok va (lanesOf w.act)).1
  rw [h.translated] at k
  exact k

theorem reaches_lanes {w : Work} {acc : Access} {ok : Nat → Bool} {size : Nat} {va : Nat → Nat} {ms : List (Nat × Mapped)} {s1 : State}
    (h : Reaches w acc ok size va ms s1) : ms.map (·.1) = lanesOf w.act := by
  have k := (xlateAll_only w acc ok va (lanesOf w.act)).2.2
  rw [h.translated, List.map_map] at k
  exact k

theorem mem_mappedOf {l : List (Nat × Except Miss Mapped)} {p : Nat × Mapped} : p ∈ mappedOf l ↔ (p.1, .ok p.2) ∈ l := by
  simp only [mappedOf, List.mem_filterMap]
  constructor
  · rintro ⟨r, hr, he⟩
    split at he
    · next m hm => cases he; rw [← hm]; exact hr
    · cases he
  · exact fun h => ⟨_, h, rfl⟩

theorem mem_failuresOf {va : Nat → Nat} {l : List (Nat × Except Miss Mapped)} {r : Nat × Except Miss Mapped} {e : Miss} (hr : r ∈ l)
    (he : r.2 = .error e) : (r.1, va r.1, e) ∈ failuresOf va l :=
  List.mem_filterMap.2 ⟨r, hr, by rw [he]⟩

@[simp] theorem mappedOf_ok (ms : List (Nat × Mapped)) : mappedOf (ms.map fun r => (r.1, .ok r.2)) = ms := by
  induction ms <;> simp_all [mappedOf]

@[simp] theorem failuresOf_ok (va : Nat → Nat) (ms : List (Nat × Mapped)) : failuresOf va (ms.map fun r => (r.1, .ok r.2)) = [] := by
  induction ms <;> simp_all [failuresOf]

/-- What a memory instruction does once its accesses reach memory. -/
theorem memory_reaches {w : Work} {n : Ins} {op : MemOp} {ms : List (Nat × Mapped)} {s1 : State} (ha : w.act ≠ 0)
    (h : Reaches w op.acc op.ok op.size op.va ms s1) :
    w.memory n op = .done (({ w with s := s1 } : Work).performLater n op ms) := by
  have e1 : ((lanesOf w.act).find? fun i => decide (op.va i % op.size ≠ 0)) = none := by
    rw [List.find?_eq_none]; intro i hi; simpa using h.aligned i (mem_lanesOf.1 hi)
  have hl := reaches_only h
  have e2 : ms.any (fun r => s1.mapWaits r.2.pa) = false := by
    rw [List.any_eq_false]; intro r hr; simp [h.settled r hr]
  have e3 : (ms.find? fun r => ((s1.core w.E.core).memLock w.E.ctx (op.va r.1) op.size).isSome) = none := by
    rw [List.find?_eq_none]; intro r hr; simp [h.unlocked r hr]
  have e4 : (ms.find? fun r => s1.refuses r.2.pa) = none := by
    rw [List.find?_eq_none]; intro r hr; simp [State.refuses, h.unfenced r hr]
  have e5 : PeerReq.unasked none ms = [] := by
    unfold PeerReq.unasked
    rw [List.filter_eq_nil_iff]; intro r hr; simp [(h.device r hr).1]
  have e6 : (ms.filter fun r => (((s1.core w.E.core).memLock w.E.ctx (op.va r.1) op.size).isNone && !s1.refuses r.2.pa)) = ms := by
    rw [List.filter_eq_self]; intro r hr; simp [State.refuses, h.unfenced r hr, h.unlocked r hr]
  have e7 : ({ w with s := s1 } : Work).asked = none := by
    have := h.unasked
    unfold Work.asked at this ⊢
    rw [hl.eq]; exact this
  unfold Work.memory
  rw [if_neg ha, if_neg (by simp [h.free])]
  dsimp only
  rw [e1]
  dsimp only
  rw [h.translated]
  dsimp only
  simp only [mappedOf_ok, failuresOf_ok]
  rw [e2]
  simp only [if_false, ne_eq, not_true_eq_false]
  rw [e3]
  dsimp only
  rw [e4]
  dsimp only
  rw [e6, e7]
  dsimp only [Option.bind_none, Option.map_none, Option.getD_none]
  rw [e5]
  simp

/-! ### Writes -/

theorem storeBytes_eq (s : State) (core : Nat) (m : Mapped) (bs : List Byte) :
    s.storeBytes core m bs
      = { (s.storeBytes core m bs).caches.on s with mem := s.mem.write m.pa bs, agenda := (s.storeBytes core m bs).agenda } := by
  unfold State.storeBytes; rw [homeWrite_eq]; rfl

/-- Only memory, the caches and the agenda differ. -/
def OnlyStores (s t : State) : Prop := t = { t.caches.on s with mem := t.mem, agenda := t.agenda }

theorem OnlyStores.refl (s : State) : OnlyStores s s := rfl

theorem OnlyStores.trans {a b c : State} (h : OnlyStores a b) (k : OnlyStores b c) : OnlyStores a c := by
  unfold OnlyStores State.caches Caches.on at *; rw [k, h]

theorem OnlyCaches.stores {s t : State} (h : OnlyCaches s t) : OnlyStores s t := by
  unfold OnlyStores; rw [h]; rfl

theorem homeWrite_only (s : State) (pa : Nat) (bs : List Byte) : OnlyStores s (s.homeWrite pa bs) := by
  unfold OnlyStores; rw [homeWrite_eq]; rfl

theorem storeBytes_only (s : State) (core : Nat) (m : Mapped) (bs : List Byte) : OnlyStores s (s.storeBytes core m bs) := by
  unfold OnlyStores; rw [storeBytes_eq]; rfl

theorem performStores_eq (core n : Nat) (v : Nat → Nat) (ms : List (Nat × Mapped)) (s : State) :
    (performStores core n v ms s).1
      = { (performStores core n v ms s).1.caches.on s with
            mem := ms.foldl (fun m r => m.write r.2.pa (natLE n (v r.1))) s.mem, agenda := (performStores core n v ms s).1.agenda } := by
  induction ms generalizing s with
  | nil => rfl
  | cons r t ih =>
    unfold performStores
    dsimp only
    rw [ih, storeBytes_eq]
    rfl

theorem rmw_eq (s : State) (core : Nat) (m : Mapped) (n : Nat) (new : Nat → Nat) :
    (s.rmw core m n new).1
      = { (s.rmw core m n new).1.caches.on s with
            mem := s.mem.write m.pa (natLE n (new (leNat (s.mem.readN m.pa n)))), agenda := (s.rmw core m n new).1.agenda } := by
  unfold State.rmw; dsimp only; rw [homeWrite_eq]; rfl

theorem performAtomics_eq (core n : Nat) (new : Nat → Nat → Nat) (ms : List (Nat × Mapped)) (s : State) :
    ((performAtomics core n new ms s).1
      = { (performAtomics core n new ms s).1.caches.on s with
            mem := (rmwAll n new ms s.mem).1, agenda := (performAtomics core n new ms s).1.agenda })
    ∧ (performAtomics core n new ms s).2.map (fun x => (x.lane, x.value)) = (rmwAll n new ms s.mem).2
    ∧ (performAtomics core n new ms s).2.map (·.sector) = ms.map fun r => r.2.pa / 32 := by
  induction ms generalizing s with
  | nil => exact ⟨rfl, rfl, rfl⟩
  | cons r t ih =>
    have hr := rmw_eq s core r.2 n (new r.1)
    have k := ih (s.rmw core r.2 n (new r.1)).1
    unfold performAtomics rmwAll
    dsimp only
    have hm : (s.rmw core r.2 n (new r.1)).1.mem = s.mem.write r.2.pa (natLE n (new r.1 (leNat (s.mem.readN r.2.pa n)))) := by rw [hr]
    rw [hm] at k
    refine ⟨?_, ?_, ?_⟩
    · rw [k.1, hr]; rfl
    · rw [List.map_cons, k.2.1]; rfl
    · rw [List.map_cons, k.2.2]; rfl

/-- Writes of some bytes at each of some addresses leave every other byte. -/
theorem read_foldl_write (n : Nat) (bs : Nat → List Byte) (hb : ∀ k, (bs k).length = n) (ms : List (Nat × Mapped)) (m : Memory)
    (w : Memory.wf m = true) (a : Nat) (h : ∀ r ∈ ms, ¬(r.2.pa ≤ a ∧ a < r.2.pa + n)) :
    Memory.read (ms.foldl (fun m r => m.write r.2.pa (bs r.1)) m) a = Memory.read m a := by
  induction ms generalizing m with
  | nil => rfl
  | cons r t ih =>
    rw [List.foldl_cons, ih _ (Memory.wf_write _ _ w) fun r hr => h r (by simp [hr])]
    refine Memory.read_write_other _ w ?_
    have := h r (by simp)
    rw [hb]; omega

theorem read_rmwAll (n : Nat) (new : Nat → Nat → Nat) (ms : List (Nat × Mapped)) (m : Memory) (w : Memory.wf m = true) (a : Nat)
    (h : ∀ r ∈ ms, ¬(r.2.pa ≤ a ∧ a < r.2.pa + n)) : Memory.read (rmwAll n new ms m).1 a = Memory.read m a := by
  induction ms generalizing m with
  | nil => rfl
  | cons r t ih =>
    unfold rmwAll
    dsimp only
    rw [ih _ (Memory.wf_write _ _ w) fun r hr => h r (by simp [hr])]
    refine Memory.read_write_other _ w ?_
    have := h r (by simp)
    rw [length_natLE]; omega

end Sys2Proof.Machine
end

