-- ==== Sys2Proof/Laws/Control.lean ====
section
/-! SUPPORT. What the control operations do: a taken branch, groups of lanes by target, and the link register. -/

namespace Sys2Proof.Machine

open Sys2Proof

theorem Split.meet_earliest (p : Split) : p.meet.earliest = p.earliest := by rw [(Split.meet_eq p).1]

/-- A branch taken after some register writes completes at its target. -/
theorem takes_of_goto {i : Instr} {n : Ins} {body : Work → Eff} {s : State} {w : Work} {outs : List Write} {target : Dest}
    (he : exec i s = run n body s) (h : gate n s = .go w) (hb : body w = (w.setAll outs).goto n target) :
    takes i n s w outs target := by
  have hs := (gate_go h).2.1
  subst hs
  have hi : w.RegsOnly (w.setAll outs) := .setAll _ _
  generalize hy : w.setAll outs = y at hb hi
  have hnow (r : Reg) (i : Nat) (hl : i < 128) : y.now r i = (written outs r i).getD (w.now r i) := by
    rw [← hy]; exact Work.now_setAll _ _ r hl
  let x : Work := { redirected w with
    T := { w.T with file := y.T.file, ss := y.T.ss }
    S := { (redirected w).S with scal := y.S.scal, frames := y.S.frames }
    E := y.E }
  have hS : y.S = { w.S with scal := y.S.scal, frames := y.S.frames } := hi.S
  have hT : y.T = { w.T with file := y.T.file, ss := y.T.ss } := hi.T
  obtain ⟨z, hz, hzs⟩ := Work.close_completes (w := redirected w) (x := x) (outs := outs) (flags := 0#32) (pends := [])
    (y := { y.issued n with S := (y.issued n).S.redirect (y.after n) target }) (next := target) (s := w.s) rfl
    ⟨rfl, rfl, rfl, by simp [x, redirected], rfl, hi.E, hi.frames⟩
    (fun r i hl => (Work.now_congr (w := y) (x := x) rfl rfl rfl rfl r i).trans (hnow r i hl))
    (by simp only [Work.issued]; rw [hi.s]; rfl) (by simp only [Work.issued]; rw [hi.tid]; rfl) (by simp only [Work.issued]; rw [hi.ent]; rfl) rfl
    (by simp only [x, Work.issued]; rw [hT])
    (by simp only [x, redirected, Split.redirect, Split.goOn, Split.newRun, Split.at_, Work.issued]; rw [hS])
  refine ⟨_, z, he.trans (run_raw h hb), hz, ?_⟩
  rw [hzs, Split.meet_earliest]
  simp only [Split.redirect, Split.goOn, Split.newRun, Split.at_, Work.issued, Split.landDue, Work.after]
  rw [hi.s, hS]

theorem mem_sortedInsert {a b : Nat} {l : List Nat} : b ∈ sortedInsert a l ↔ b = a ∨ b ∈ l := by
  induction l with
  | nil => simp [sortedInsert]
  | cons c t ih =>
    unfold sortedInsert
    split
    · simp
    · split
      · next h => subst h; simp
      · simp [ih]; tauto

theorem mem_foldl_sortedInsert {b : Nat} {l k : List Nat} :
    b ∈ l.foldl (fun l a => sortedInsert a l) k ↔ b ∈ l ∨ b ∈ k := by
  induction l generalizing k with
  | nil => simp
  | cons a t ih => rw [List.foldl_cons, ih, mem_sortedInsert]; simp; tauto

/-- When the lanes agree, they form one group. -/
theorem groupsBy_agree {mask : Mask} {key : Nat → Nat} {k : Nat} (h0 : mask ≠ 0) (h : ∀ l, mask.getLsbD l = true → key l = k) :
    ∃ m, groupsBy mask key = [(k, m)] := by
  have e : (lanesOf mask).map key = List.replicate (lanesOf mask).length k := by
    rw [List.eq_replicate_iff]
    refine ⟨by simp, fun b hb => ?_⟩
    obtain ⟨l, hl, rfl⟩ := List.mem_map.1 hb
    exact h l (mem_lanesOf.1 hl)
  have hne : lanesOf mask ≠ [] := by
    intro hc
    apply h0
    ext l hl
    have := mem_lanesOf (m := mask) (i := l)
    rw [hc] at this
    simp at this
    rw [← BitVec.getLsbD_eq_getElem]; simpa using this
  have hg : ∀ j, (List.replicate (j + 1) k).foldl (fun l a => sortedInsert a l) [] = [k] := by
    intro j
    rw [List.replicate_succ, List.foldl_cons]
    induction j with
    | zero => rfl
    | succ j ih => rw [List.replicate_succ, List.foldl_cons]; simpa [sortedInsert] using ih
  obtain ⟨j, hj⟩ := Nat.exists_eq_succ_of_ne_zero (List.length_eq_zero_iff.not.2 hne)
  unfold groupsBy
  rw [e, hj, hg]
  exact ⟨_, rfl⟩

theorem scatter_agree {w : Work} {n : Ins} {rcv : Word} {key : Nat → Nat} {dest : Nat → Dest} {k : Nat} (h0 : w.S.mask ≠ 0)
    (h : ∀ l, w.S.mask.getLsbD l = true → key l = k) : w.scatter n rcv key dest = w.goto n (dest k) := by
  obtain ⟨m, hm⟩ := groupsBy_agree h0 h
  unfold Work.scatter
  rw [hm]

end Sys2Proof.Machine
end

