-- ==== Sys2Proof/Laws/Faults.lean ====
section
/-! SUPPORT. What keeps a memory access from its effect: misalignment, faults and parking, range locks and fences. -/

namespace Sys2Proof.Machine

open Sys2Proof

/-- Fault `g` is fault `f` with its place in the buffer. -/
def SameFault (f g : FaultWait) : Prop := g = { f with buffered := g.buffered, token := g.token }

theorem admitFault_only (s : State) (id : Nat) :
    ∃ fw tk ds ag, s.admitFault id = { s with faultWaits := fw, tick := tk, dies := ds, agenda := ag } ∧ s.tick ≤ tk
      ∧ (∀ f ∈ s.faultWaits, f.id ≠ id → f ∈ fw)
      ∧ (∀ f, s.faultWaits.find? (fun f => f.id = id) = some f → ∃ g ∈ fw, SameFault f g)
      ∧ (∀ g ∈ fw, ∃ f ∈ s.faultWaits, f.id = g.id) := by
  have triv : ∃ fw tk ds ag, s = { s with faultWaits := fw, tick := tk, dies := ds, agenda := ag } ∧ s.tick ≤ tk
      ∧ (∀ f ∈ s.faultWaits, f.id ≠ id → f ∈ fw)
      ∧ (∀ f, s.faultWaits.find? (fun f => f.id = id) = some f → ∃ g ∈ fw, SameFault f g)
      ∧ (∀ g ∈ fw, ∃ f ∈ s.faultWaits, f.id = g.id) :=
    ⟨s.faultWaits, s.tick, s.dies, s.agenda, rfl, le_refl _, fun f h _ => h,
      fun f h => ⟨f, List.mem_of_find?_eq_some h, rfl⟩, fun g h => ⟨g, h, rfl⟩⟩
  unfold State.admitFault
  split
  · exact triv
  · next f hf =>
    have hid : f.id = id := by simpa using List.find?_some hf
    have hm := List.mem_of_find?_eq_some hf
    have put (g : FaultWait) (hg : SameFault f g) :
        (∀ x ∈ s.faultWaits, x.id ≠ id → x ∈ s.faultWaits.map fun x => if x.id = id then g else x)
        ∧ (∀ x, s.faultWaits.find? (fun f => f.id = id) = some x → ∃ y ∈ s.faultWaits.map (fun x => if x.id = id then g else x), SameFault x y)
        ∧ (∀ y ∈ s.faultWaits.map (fun x => if x.id = id then g else x), ∃ f ∈ s.faultWaits, f.id = y.id) := by
      refine ⟨fun x hx hn => List.mem_map.2 ⟨x, hx, by simp [hn]⟩, fun x hx => ?_, fun y hy => ?_⟩
      · rw [hf] at hx; cases hx
        exact ⟨g, List.mem_map.2 ⟨f, hm, by simp [hid]⟩, hg⟩
      · obtain ⟨x, hx, rfl⟩ := List.mem_map.1 hy
        split
        · exact ⟨f, hm, by rw [hg]⟩
        · exact ⟨x, hx, rfl⟩
    dsimp only
    split
    · exact triv
    · split
      · exact triv
      · split
        · next g _ => refine ⟨_, _, _, _, rfl, le_refl _, ?_⟩; exact put { f with buffered := true, token := some g.token } rfl
        · split
          · refine ⟨_, _, _, _, rfl, le_refl _, ?_⟩; exact put { f with buffered := true } rfl
          · refine ⟨_, _, _, _, rfl, Nat.le_succ _, ?_⟩; exact put { f with buffered := true, token := some _ } rfl

theorem admitAll_only (l : List Nat) (s : State) (h : ∀ f ∈ s.faultWaits, f.id < s.tick) :
    ∃ fw tk ds ag, l.foldl State.admitFault s = { s with faultWaits := fw, tick := tk, dies := ds, agenda := ag }
      ∧ ∀ f ∈ fw, f.id < tk := by
  induction l generalizing s with
  | nil => exact ⟨_, _, _, _, rfl, h⟩
  | cons a t ih =>
    obtain ⟨fw, tk, ds, ag, e, h1, h2, h3, h4⟩ := admitFault_only s a
    rw [List.foldl_cons, e]
    obtain ⟨fw', tk', ds', ag', e', k⟩ := ih { s with faultWaits := fw, tick := tk, dies := ds, agenda := ag } (by
      intro f hf
      obtain ⟨x, hx, he⟩ := h4 f hf
      have := h x hx
      simp only; omega)
    exact ⟨fw', tk', ds', ag', by rw [e'], k⟩

theorem raiseFault_only (s : State) (f : FaultWait) (h : ∀ f ∈ s.faultWaits, f.id < s.tick) :
    ∃ fw tk ds ag, s.raiseFault f = { s with faultWaits := fw, tick := tk, dies := ds, agenda := ag }
      ∧ (∀ f ∈ fw, f.id < tk) ∧ (∀ f ∈ s.faultWaits, f ∈ fw) ∧ ∃ g ∈ fw, SameFault { f with id := s.tick } g := by
  obtain ⟨fw, tk, ds, ag, e, h1, h2, h3, h4⟩ :=
    admitFault_only ({ s with faultWaits := s.faultWaits ++ [{ f with id := s.tick }] } : State).bump s.tick
  refine ⟨fw, tk, ds, ag, by unfold State.raiseFault; rw [e]; rfl, ?_, ?_, ?_⟩
  · intro g hg
    obtain ⟨x, hx, he⟩ := h4 g hg
    simp only [State.bump_faultWaits, List.mem_append, List.mem_singleton, State.bump_tick] at hx h1
    rcases hx with hx | hx
    · have := h x hx; omega
    · subst hx; simp at he; omega
  · intro g hg
    refine h2 g (by simp [hg]) ?_
    have := h g hg; omega
  · refine h3 { f with id := s.tick } ?_
    simp only [State.bump_faultWaits, List.find?_append]
    have : s.faultWaits.find? (fun f => decide (f.id = s.tick)) = none := by
      rw [List.find?_eq_none]; intro g hg; have := h g hg; simp; omega
    rw [this]; simp

theorem raiseAll_only (l : List FaultWait) (s : State) (h : ∀ f ∈ s.faultWaits, f.id < s.tick) :
    ∃ fw tk ds ag, l.foldl State.raiseFault s = { s with faultWaits := fw, tick := tk, dies := ds, agenda := ag }
      ∧ (∀ f ∈ s.faultWaits, f ∈ fw) ∧ ∀ f ∈ l, ∃ g ∈ fw, ∃ k, SameFault { f with id := k } g := by
  induction l generalizing s with
  | nil => exact ⟨_, _, _, _, rfl, fun _ h => h, by simp⟩
  | cons a t ih =>
    obtain ⟨fw, tk, ds, ag, e, h1, h2, g, hg, h3⟩ := raiseFault_only s a h
    rw [List.foldl_cons, e]
    obtain ⟨fw', tk', ds', ag', e', k1, k2⟩ := ih { s with faultWaits := fw, tick := tk, dies := ds, agenda := ag } h1
    refine ⟨fw', tk', ds', ag', by rw [e'], fun f hf => k1 f (h2 f hf), fun f hf => ?_⟩
    rcases List.mem_cons.1 hf with rfl | hf
    · exact ⟨g, k1 g hg, _, h3⟩
    · exact k2 f hf

theorem faultsOf_page (w : Work) (acc : Access) (done : Mask) (fs : List (Nat × Nat × Miss)) {r : Nat × Nat × Miss} (hr : r ∈ fs)
    (hl : r.1 < 128) : ∃ f ∈ w.faultsOf acc done fs, f.waiter = .instr w.tid w.S.uid ∧ f.va / 4096 = r.2.1 / 4096
      ∧ f.lanes.getLsbD r.1 = true ∧ f.pc = w.S.pc ∧ f.acc = acc.acc := by
  have hm : r ∈ fs.filter fun f => f.2.1 / 4096 = r.2.1 / 4096 := by simp [hr]
  cases hh : fs.filter fun f => f.2.1 / 4096 = r.2.1 / 4096 with
  | nil => rw [hh] at hm; simp at hm
  | cons a t =>
    have ha : a ∈ fs.filter fun f => f.2.1 / 4096 = r.2.1 / 4096 := by rw [hh]; simp
    have hv : a.2.1 / 4096 = r.2.1 / 4096 := by simpa using (List.mem_filter.1 ha).2
    refine ⟨FaultWait.mk 0 w.E.core (.instr w.tid w.S.uid) w.ctx.ctxid.toNat a.2.1 a.2.2.cause a.2.2.reason a.2.2.level acc.acc
        w.T.slotNo 0xFF w.S.pc (maskOf ((a :: t).map (·.1))) (done ||| w.pairDone) false none false,
      List.mem_filterMap.2 ⟨r.2.1 / 4096, mem_distinct.2 (List.mem_map.2 ⟨r, hr, rfl⟩), by dsimp only; rw [hh]; rfl⟩,
      rfl, hv, ?_, rfl, rfl⟩
    dsimp only
    rw [getLsbD_maskOf, ← hh]
    simp only [hl, decide_true, Bool.true_and, decide_eq_true_eq]
    exact List.mem_map.2 ⟨r, hm, rfl⟩

theorem park_next (w : Work) (done : Mask) (fs : List FaultWait) (h : ∀ f ∈ w.s.faultWaits, f.id < w.s.tick) :
    ∃ t T p, w.park done fs = .raw t ∧ t.troupes.find? w.tid = some T ∧ p ∈ T.parked
      ∧ p = { uid := w.S.uid, pc := w.S.pc, insn := w.insn, active := w.active1, done := done, go := false }
      ∧ ∀ f ∈ fs, ∃ g ∈ t.faultWaits, ∃ k, SameFault { f with id := k } g := by
  unfold Work.park
  dsimp only
  generalize hw1 : ({ w with T := _, S := _ } : Work) = w1
  have hs1 : w1.s = w.s := by rw [← hw1]
  unfold State.dropFaults State.admitFaults
  obtain ⟨fw, tk, ds, ag, e, k⟩ := admitAll_only
    (({ w1.commit with faultWaits := w1.commit.faultWaits.filter fun f => f.waiter ≠ .instr w.tid w.S.uid } : State).faultWaits.map (·.id))
    { w1.commit with faultWaits := w1.commit.faultWaits.filter fun f => f.waiter ≠ .instr w.tid w.S.uid } (by
      intro f hf
      have : f ∈ w1.s.faultWaits := (List.mem_filter.1 hf).1
      rw [hs1] at this
      have := h f this
      simp only [Work.commit, hs1]; exact this)
  rw [e]
  obtain ⟨fw', tk', ds', ag', e', -, k2⟩ := raiseAll_only fs
    { w1.commit with faultWaits := fw, tick := tk, dies := ds, agenda := ag } k
  refine ⟨_, { w1.T with splits := w1.T.splits.put w1.ent w1.S },
    { uid := w.S.uid, pc := w.S.pc, insn := w.insn, active := w.active1, done := done, go := false }, rfl, ?_, ?_, rfl, ?_⟩
  · rw [e', ← hw1]; simp [Work.commit]
  · rw [← hw1]; simp
  · rw [e']; exact k2

/-- What leaves the counter and the faults alone. -/
def KeepsFaults (p : List (Nat × Mapped) → State → State × List Served) : Prop :=
  ∀ rs s, (p rs s).1.faultWaits = s.faultWaits ∧ (p rs s).1.tick = s.tick

theorem OnlyStores.faults {s t : State} (h : OnlyStores s t) : t.faultWaits = s.faultWaits ∧ t.tick = s.tick := by
  rw [h]; exact ⟨rfl, rfl⟩

theorem keeps_loads (core : Nat) (nc : Bool) (n : Nat) : KeepsFaults (performLoads core nc n) :=
  fun rs s => (performLoads_only core nc n rs s).stores.faults

theorem keeps_stores (core n : Nat) (v : Nat → Nat) : KeepsFaults (performStores core n v) :=
  fun rs s => by rw [performStores_eq]; exact ⟨rfl, rfl⟩

theorem keeps_atomics (core n : Nat) (new : Nat → Nat → Nat) : KeepsFaults (performAtomics core n new) :=
  fun rs s => by rw [(performAtomics_eq core n new rs s).1]; exact ⟨rfl, rfl⟩

theorem performNow_keeps (w : Work) (n : Ins) (op : MemOp) (rs : List (Nat × Mapped)) (hp : KeepsFaults op.perform) :
    let x := w.performNow n op rs
    x.s.faultWaits = w.s.faultWaits ∧ w.s.tick ≤ x.s.tick ∧ x.tid = w.tid ∧ x.act = w.act
      ∧ x.S = { w.S with scal := x.S.scal, frames := x.S.frames } := by
  unfold Work.performNow
  dsimp only
  have kq := (pathsOf_only w.s w.E.core op.acks op.l1 (rs.map (·.2))).caches.stores.faults
  generalize State.pathsOf _ _ _ _ _ = q at *
  generalize hv2 : List.foldl (fun (w : Work) (o : Write) => w.set o.1 o.2.1 o.2.2) _ _ = v2
  have hr2 : ({ w with s := (op.perform rs q.1).1 } : Work).RegsOnly v2 := hv2 ▸ Work.RegsOnly.setAll _ _
  have kp := hp rs q.1
  have a1 : v2.s.faultWaits = w.s.faultWaits ∧ v2.s.tick = w.s.tick := by rw [hr2.s]; exact ⟨kp.1.trans kq.1, kp.2.trans kq.2⟩
  split
  · unfold Work.request
    rw [request_only]
    exact ⟨a1.1, a1.2.ge.trans (Nat.le_succ _), hr2.tid, hr2.act, hr2.S⟩
  · exact ⟨a1.1, a1.2.ge, hr2.tid, hr2.act, hr2.S⟩

theorem memory_misaligned {w : Work} {n : Ins} {op : MemOp} (ha : w.act ≠ 0) (hh : w.memHeld = false) {l : Nat}
    (hl : w.act.getLsbD l = true) (hm : op.va l % op.size ≠ 0)
    (hj : ∀ j, j < l → w.act.getLsbD j = true → op.va j % op.size = 0) :
    w.memory n op = .trap { cause := 0x07, info := l, addr := op.va l } := by
  have e : (lanesOf w.act).find? (fun i => op.va i % op.size ≠ 0) = some l := by
    unfold lanesOf
    rw [List.find?_filter]
    have hl128 : l < 128 := mem_lanesOf.2 hl |> fun h => by simpa [lanesOf] using (List.mem_filter.1 h).1
    rw [List.find?_range_eq_some]
    refine ⟨by simp [hl, hm], by simpa using hl128, fun j hjl => ?_⟩
    by_cases hja : w.act.getLsbD j = true
    · simp [hj j hjl hja]
    · simp [hja]
  unfold Work.memory
  rw [if_neg ha, if_neg (by simp [hh])]
  dsimp only
  rw [e]


theorem memory_aligned {w : Work} {n : Ins} {op : MemOp} (ha : w.act ≠ 0) (hh : w.memHeld = false)
    (hal : ∀ l, w.act.getLsbD l = true → op.va l % op.size = 0)
    (hw : ∀ r ∈ (w.xlateAll op.acc op.ok op.va (lanesOf w.act)).2, ∀ m, r.2 = .ok m →
      (w.xlateAll op.acc op.ok op.va (lanesOf w.act)).1.s.mapWaits m.pa = false)
    (hq : w.asked = none) (hp : KeepsFaults op.perform) :
    ((∃ r ∈ (w.xlateAll op.acc op.ok op.va (lanesOf w.act)).2, ∃ e, r.2 = .error e) →
        (∀ r ∈ (w.xlateAll op.acc op.ok op.va (lanesOf w.act)).2, ∀ m, r.2 = .ok m → targetOf m.pa ≠ .peer) → (∀ f ∈ w.s.faultWaits, f.id < w.s.tick) →
          ∃ t T p, w.memory n op = .raw t ∧ t.troupes.find? w.tid = some T ∧ p ∈ T.parked
            ∧ p.uid = w.S.uid ∧ p.pc = w.S.pc ∧ p.active = w.active1 ∧ p.go = false
            ∧ ∀ r ∈ (w.xlateAll op.acc op.ok op.va (lanesOf w.act)).2, ∀ e, r.2 = .error e → p.done.getLsbD r.1 = w.done1.getLsbD r.1
              ∧ ∃ f ∈ t.faultWaits, f.waiter = .instr w.tid w.S.uid ∧ f.va / 4096 = op.va r.1 / 4096 ∧ f.lanes.getLsbD r.1 = true
                  ∧ f.pc = w.S.pc ∧ f.acc = op.acc.acc)
    ∧ (∀ ms : List (Nat × Mapped), (w.xlateAll op.acc op.ok op.va (lanesOf w.act)).2 = ms.map (fun r => (r.1, .ok r.2)) →
          let x := (w.xlateAll op.acc op.ok op.va (lanesOf w.act))
          (∀ k r, ms.find? (fun r => ((x.1.s.core w.E.core).memLock w.E.ctx (op.va r.1) op.size).isSome) = some r →
            (x.1.s.core w.E.core).memLock w.E.ctx (op.va r.1) op.size = some k →
              w.memory n op = .trapAfter x.1 { cause := 0x0A, info := k, addr := op.va r.1 })
          ∧ ((∀ r ∈ ms, (x.1.s.core w.E.core).memLock w.E.ctx (op.va r.1) op.size = none) →
            ∀ r, ms.find? (fun r => x.1.s.isFenced r.2.pa) = some r → w.memory n op = .trapAfter x.1 { cause := 0x11, addr := op.va r.1 })) := by
  have e1 : ((lanesOf w.act).find? fun i => decide (op.va i % op.size ≠ 0)) = none := by
    rw [List.find?_eq_none]; intro i hi; simpa using hal i (mem_lanesOf.1 hi)
  have ho := xlateAll_only w op.acc op.ok op.va (lanesOf w.act)
  have hlane (r) (hr : r ∈ (w.xlateAll op.acc op.ok op.va (lanesOf w.act)).2) : r.1 ∈ lanesOf w.act := by
    rw [← ho.2.2]; exact List.mem_map.2 ⟨r, hr, rfl⟩
  have hnd : ((w.xlateAll op.acc op.ok op.va (lanesOf w.act)).2.map (·.1)).Nodup := by rw [ho.2.2]; exact nodup_lanesOf _
  generalize hx : w.xlateAll op.acc op.ok op.va (lanesOf w.act) = x at *
  obtain ⟨x1, x2⟩ := x
  dsimp only at *
  have hE : x1.E = w.E := by rw [ho.2.1]
  have hasked : x1.asked = none := by
    unfold Work.asked at hq ⊢
    rw [ho.2.1, ho.1.eq]; exact hq
  have e2 : (mappedOf x2).any (fun r => x1.s.mapWaits r.2.pa) = false := by
    rw [List.any_eq_false]
    intro r hr
    simp [hw _ (mem_mappedOf.1 hr) r.2 rfl]
  constructor
  · rintro ⟨r0, hr0, e0, he0⟩ hpeer hf
    have hne : failuresOf op.va x2 ≠ [] := fun hc => by
      have := mem_failuresOf (va := op.va) hr0 he0
      rw [hc] at this; cases this
    unfold Work.memory
    rw [if_neg ha, if_neg (by simp [hh])]
    dsimp only
    rw [e1]
    dsimp only
    rw [hx]
    dsimp only
    have e3 : PeerReq.unasked none ((mappedOf x2).filter fun r =>
        (((x1.s.core x1.E.core).memLock x1.E.ctx (op.va r.1) op.size).isNone && !x1.s.refuses r.2.pa)) = [] := by
      unfold PeerReq.unasked
      rw [List.filter_eq_nil_iff]
      intro r hr
      simp [hpeer _ (mem_mappedOf.1 (List.mem_filter.1 hr).1) r.2 rfl]
    rw [e2, hasked]
    simp only [Option.map_none, Option.getD_none, Bool.not_true, Bool.or_self, Bool.false_eq_true, if_false]
    rw [if_pos hne, e3]
    dsimp only
    generalize hhome : List.filter _ (List.filter _ _) = home
    have hdone : ∀ r ∈ x2, ∀ e, r.2 = .error e → (w.done1 ||| maskOf (home.map (·.1))).getLsbD r.1 = w.done1.getLsbD r.1 := by
      intro r hr e he
      rw [BitVec.getLsbD_or, getLsbD_maskOf]
      have : r.1 ∉ home.map (·.1) := by
        intro hc
        obtain ⟨h, hm, hc⟩ := List.mem_map.1 hc
        rw [← hhome] at hm
        have hm := mem_mappedOf.1 (List.mem_filter.1 (List.mem_filter.1 hm).1).1
        have := List.inj_on_of_nodup_map hnd hm hr hc
        rw [← this] at he; cases he
      simp [this]
    have k3 := performNow_keeps x1 n op home hp
    generalize x1.performNow n op home = v3 at *
    have ks : x1.s.faultWaits = w.s.faultWaits ∧ x1.s.tick = w.s.tick := by rw [ho.1.eq]; exact ⟨rfl, rfl⟩
    have hv3f : ∀ f ∈ v3.s.faultWaits, f.id < v3.s.tick := by
      intro f hf2
      rw [k3.1, ks.1] at hf2
      have := hf f hf2
      have := k3.2.1
      omega
    have hx1 : x1.tid = w.tid ∧ x1.S = w.S ∧ x1.act = w.act := by rw [ho.2.1]; exact ⟨rfl, rfl, rfl⟩
    have htid : v3.tid = w.tid := k3.2.2.1.trans hx1.1
    have hS : v3.S = { w.S with scal := v3.S.scal, frames := v3.S.frames } := by rw [k3.2.2.2.2, hx1.2.1]
    have hact : v3.act = w.act := k3.2.2.2.1.trans hx1.2.2
    obtain ⟨t, T, p, e, h1, h2, h3, h4⟩ := park_next v3 (w.done1 ||| maskOf (home.map (·.1))) _ hv3f
    refine ⟨t, T, p, e, htid ▸ h1, h2, ?_, ?_, ?_, ?_, fun r hr e he => ⟨?_, ?_⟩⟩
    · rw [h3, hS]
    · rw [h3, hS]
    · rw [h3]; simp only [Work.active1, hact]; rw [hS]
    · rw [h3]
    · rw [h3]; exact hdone r hr e he
    · have hl : r.1 < 128 := by
        have := hlane r hr
        simpa [lanesOf] using (List.mem_filter.1 this).1
      obtain ⟨f, hf1, hf2⟩ := faultsOf_page v3 op.acc (w.done1 ||| maskOf (home.map (·.1))) _ (mem_failuresOf (va := op.va) hr he) hl
      obtain ⟨g, hg, k, hk⟩ := h4 f hf1
      refine ⟨g, hg, ?_⟩
      rw [hk]
      simp only at hf2 ⊢
      rw [htid, hS] at hf2
      exact hf2
  · intro ms hms
    subst hms
    have e2 : ms.any (fun r => x1.s.mapWaits r.2.pa) = false := by simpa using e2
    refine ⟨fun k r hr hk => ?_, fun hn r hr => ?_⟩
    all_goals
      unfold Work.memory
      rw [if_neg ha, if_neg (by simp [hh])]
      dsimp only
      rw [e1]
      dsimp only
      rw [hx]
      dsimp only
      simp only [mappedOf_ok, failuresOf_ok]
      rw [e2, hasked]
      simp only [Option.map_none, Option.getD_none, Bool.not_true, Bool.or_self, Bool.false_eq_true, if_false, ne_eq, not_true_eq_false]
    · rw [hE, hr]
      simp [hk]
    · have e3 : (ms.find? fun r => ((x1.s.core x1.E.core).memLock x1.E.ctx (op.va r.1) op.size).isSome) = none := by
        rw [List.find?_eq_none]; intro q hq; rw [hE]; simp [hn q hq]
      rw [e3]
      dsimp only
      have : (ms.find? fun r => x1.s.refuses r.2.pa) = some r := hr
      rw [this]

end Sys2Proof.Machine
end

