-- ==== Sys2Proof/Laws/Float.lean ====
section
/-! SUPPORT. What the vector-pipe operations give: element results, whole-lane results, and the generators of rounding mode
rsr. -/

namespace Sys2Proof.Machine

open Sys2Proof

/-- A vector float instruction that issues names a vector float entry (R165, R189). -/
theorem issues_vfEntry {n : Ins} {s : State} {w : Work} (h : gate n s = .go w) (h1 : 0x60 ≤ n.op) (h2 : n.op ≤ 0x6F)
    (h3 : n.op ≠ 0x6C) : vfEntry w.look n.fmt = true := by
  have hb := badEntry_none (gate_go h).2.2.2.2.2.1
  by_contra hc
  unfold badEntry at hb
  split at hb <;> first | omega | skip
  rw [if_neg (by omega), if_pos ⟨h1, h2⟩] at hb
  simp [hc] at hb

theorem vfEntry_width {look : Nat → DWord} {n : Nat} (h : vfEntry look n = true) :
    (fmtOf (look n)).width = 4 ∨ (fmtOf (look n)).width = 8 ∨ (fmtOf (look n)).width = 16 ∨ (fmtOf (look n)).width = 32 := by
  simp [vfEntry] at h
  have := h.2
  tauto

theorem written_gen_none {vector : Bool} {n : Ins} {w : Work} {v : Nat → Word} (i : Nat) :
    written (laneWrites vector n w v) .gen i = none := by
  unfold written
  rw [if_neg (by simp), Option.map_eq_none_iff, List.find?_eq_none]
  intro o ho
  rw [List.mem_reverse, laneWrites, Work.outsOf_one, List.mem_append, List.mem_map, List.mem_singleton] at ho
  have : o.1 ≠ .gen := by
    rcases ho with ⟨d, hd, rfl⟩ | rfl
    · unfold Work.dests at hd
      split at hd <;> (try split at hd) <;> simp at hd
      all_goals first
        | (obtain ⟨_, rfl⟩ := hd; unfold Troupe.sReg; split <;> simp)
        | (subst hd; unfold Troupe.oReg; split <;> simp)
        | (obtain ⟨_, _, rfl⟩ := hd; simp)
    · cases vector <;> simp [latchOf]
  simp [this]

/-- One issue whose meaning is a vector lane result whose generators step. -/
theorem completes_stepped {i : Instr} {n : Ins} {body : Work → Eff} {s : State} {w : Work} {f : Nat → Word × Word} {k : Nat}
    (he : exec i s = run n body s) (h : gate n s = .go w) (hb : body w = .done ((w.alu true n f).stepped n k)) :
    ∃ t x, exec i s = .next t ∧ Completes s w (laneWrites true n w (fun l => (f l).1) ++ genWrites n w k)
      (orFlags ((lanesOf w.act).map fun l => (f l).2)) [] (nextWord n w) t x := by
  obtain ⟨hd, hr⟩ := w.alu_does true n f
  obtain ⟨hd', hr'⟩ := Work.stepped_does (w := w) n k hd (Work.fixed_act w true true n.dst.longCode 1 (w.outsOf n 1 w.act fun _ i => (f i).1) fun i => (f i).1) hr written_gen_none
  obtain ⟨t, x, ht, hc⟩ := completes_of_done he h hb hd' hr'
  rw [(gate_go h).2.1] at hc
  exact ⟨t, x, ht, hc⟩

/-- The meanings that act element by element under a vector float entry. -/
theorem floatResult_of_floatwise {i : Instr} {n : Ins} {t : Fmt → Ins → Nat → Nat → Nat → Nat → Nat × Word} (h1 : 0x60 ≤ n.op)
    (h2 : n.op ≤ 0x6F) (h3 : n.op ≠ 0x6C) (he : ∀ s, exec i s = run n (floatwise t n) s) : floatResult t i n := by
  intro s w h
  have hw : (w.fmt n.fmt).width = 4 ∨ (w.fmt n.fmt).width = 8 ∨ (w.fmt n.fmt).width = 16 ∨ (w.fmt n.fmt).width = 32 :=
    vfEntry_width (issues_vfEntry h.1 h1 h2 h3)
  obtain ⟨y, x, hy, hc⟩ := completes_stepped (he s) h.1 (ifActive_of h.2)
  refine ⟨hw, (fun l => (packElems (w.fmt n.fmt).width fun e =>
    t (w.fmt n.fmt) n (w.elem n (w.fmt n.fmt) n.sa e l) (w.elem n (w.fmt n.fmt) n.sb e l)
      (w.elem n (w.fmt n.fmt) n.sc e l) (w.random e l)).1), y, x, hy, ?_, fun l _ e he => ?_⟩
  · have e : orFlags ((lanesOf w.act).flatMap fun l => (List.range (32 / (w.fmt n.fmt).width)).map fun e =>
        (t (w.fmt n.fmt) n (w.elem n (w.fmt n.fmt) n.sa e l) (w.elem n (w.fmt n.fmt) n.sb e l)
          (w.elem n (w.fmt n.fmt) n.sc e l) (w.random e l)).2)
        = orFlags ((lanesOf w.act).map fun l => (packElems (w.fmt n.fmt).width fun e =>
          t (w.fmt n.fmt) n (w.elem n (w.fmt n.fmt) n.sa e l) (w.elem n (w.fmt n.fmt) n.sb e l)
            (w.elem n (w.fmt n.fmt) n.sc e l) (w.random e l)).2) := by
      induction lanesOf w.act with
      | nil => rfl
      | cons a l ih => rw [List.flatMap_cons, orFlags_append, List.map_cons, orFlags_cons, ih]; rfl
    rw [e]
    exact hc
  · exact packElems_elem' (by rcases hw with h | h | h | h <;> rw [h] <;> decide) _ he

/-- A group result writes no generator (R175). -/
theorem written_gen_outs {n : Ins} {w : Work} {len : Nat} {f : Nat → Nat → Word} (i : Nat) :
    written (w.outsOf n len w.act f ++ [(.latV, w.act, f 0)]) .gen i = none := by
  unfold written
  rw [if_neg (by simp), Option.map_eq_none_iff, List.find?_eq_none]
  intro o ho
  rw [List.mem_reverse, Work.outsOf, List.mem_append, List.mem_flatMap, List.mem_singleton] at ho
  have : o.1 ≠ .gen := by
    rcases ho with ⟨k, -, hd⟩ | rfl
    · obtain ⟨d, hd, rfl⟩ := List.mem_map.1 hd
      rcases d with ⟨r, m⟩
      unfold Work.dests at hd
      split at hd <;> (try split at hd) <;> simp at hd
      all_goals first
        | (obtain ⟨h1, _⟩ := hd; rw [h1]; unfold Troupe.sReg; split <;> simp)
        | (obtain ⟨h1, _⟩ := hd; rw [h1]; unfold Troupe.oReg; split <;> simp)
        | (obtain ⟨h1, _⟩ := hd; rw [h1]; simp)
        | (obtain ⟨_, _, h1, _⟩ := hd; rw [← h1]; simp)
    · simp
  simp [this]
/-- One issue whose meaning is a group result of the vector pipe with its flags and generator steps. -/
theorem completes_group {i : Instr} {n : Ins} {body : Work → Eff} {s : State} {w : Work} {f : Nat → Nat → Word} {fl : Word} {len k : Nat}
    (he : exec i s = run n body s) (h : gate n s = .go w) (hb : body w = .done (((w.result true true n len f).raise fl).stepped n k)) :
    ∃ t x, exec i s = .next t ∧ Completes s w (w.outsOf n len w.act f ++ [(.latV, w.act, f 0)] ++ genWrites n w k)
      fl [] (nextWord n w) t x := by
  obtain ⟨hd, hr⟩ := w.fixed_does true true n.dst.longCode len (w.outsOf n len w.act f) (f 0)
  have hd2 := (hd.trans (Work.raise_does _ fl)).cast (by simp : (0#32 ||| fl) = fl)
  obtain ⟨hd', hr'⟩ := Work.stepped_does (w := w) n k hd2 (Work.fixed_act w true true n.dst.longCode len (w.outsOf n len w.act f) (f 0)) hr written_gen_outs
  obtain ⟨t, x, ht, hc⟩ := completes_of_done he h hb hd' hr'
  rw [(gate_go h).2.1] at hc
  exact ⟨t, x, ht, hc⟩

end Sys2Proof.Machine
end

