-- ==== Sys2Proof/Laws/Waits.lean ====
section
/-! SUPPORT. Instructions that wait, that hold their split back some cycles, and that make a single access. -/

namespace Sys2Proof.Machine

open Sys2Proof

/-- An instruction after which its split waits some cycles completes at the next word. -/
theorem finishAfter_completes {s : State} {n : Ins} {w x : Work} {outs : List Write} {flags : Word} {pends : List Pend} (c : Nat)
    (hs : w.s = s) (hd : w.Does x flags pends)
    (hr : ∀ r i, i < 128 → x.now r i = (written outs r i).getD (w.now r i)) :
    ∃ z, Completes s w outs flags pends (nextWord n w) (x.finishAfter n c) z ∧ x.s.now + c ≤ z.S.earliest := by
  have hpc : x.S.pc = w.S.pc := by rw [hd.S]
  obtain ⟨z, hz, hzs⟩ := Work.close_completes (next := nextWord n w) hs hd hr
    (y := { x.issued n with S := { (x.issued n).S.next n.ilen with earliest := max (x.issued n).S.earliest (x.s.now + c) } }) rfl rfl rfl rfl rfl
    (by simp [Work.issued, Split.next, Split.at_, nextWord, hpc])
  refine ⟨z, hz, ?_⟩
  rw [hzs, (Split.meet_eq _).1]
  exact Nat.le_max_right _ _

theorem notePark_eq (s : State) (e : Nat) : s.notePark e = { s with agenda := (s.notePark e).agenda } := by
  unfold State.notePark
  split
  · split <;> rfl
  · rfl

/-- An instruction that ends in a wait waits, with the results its work has put on the scoreboard. -/
theorem suspend_waits {s : State} {w x : Work} {n : Ins} {why : Wait} {pends : List Pend} (hws : w.s = s)
    (hd : x = { w with s := { s with tick := x.s.tick, agenda := x.s.agenda }, T := { w.T with pend := w.T.pend ++ pends } }) :
    ∃ y, Waits s w n why pends (x.suspend n why) y := by
  have hk := notePark_eq ({ x.issued n with S := { (x.issued n).S with state := 2, wait := why, waitLen := n.ilen } } : Work).commit x.T.ens
  have he : x.suspend n why = { ({ x.issued n with S := { (x.issued n).S with state := 2, wait := why, waitLen := n.ilen } } : Work).commit with agenda := (x.suspend n why).agenda } := hk
  generalize x.suspend n why = t at *
  subst hws
  generalize x.s.tick = tk at hd
  generalize x.s.agenda = ag at hd
  subst hd
  let S1 : Split := { w.S with state := 2, wait := why, waitLen := n.ilen, shadow := w.S.shadow.filter fun e => w.S.dist + 1 + n.stall - e.stamp < 8, dist := w.S.dist + 1 + n.stall, earliest := w.s.now + 1 + n.stall + Config.issueGap tk, lastIss := tk, swapIn := false, redo := none, fell := none }
  refine ⟨{ s := t, tid := w.tid, ent := w.ent, T := { w.T with pend := w.T.pend ++ pends, lastSel := tk, selFree := w.s.now + 1, parked := w.T.parked.filter (fun p => p.uid ≠ w.S.uid), splits := w.T.splits.put w.ent S1 }, S := S1, E := w.E, act := w.S.mask }, ?_, fun r i => ?_, ?_, ?_, rfl, ⟨fun k hk => ?_, fun k hk => ?_, fun k hk => ?_⟩, ?_⟩
  · rw [he]; simp [State.work, Work.commit, Work.issued, S1]
  · exact Work.now_congr rfl rfl rfl rfl r i
  · rfl
  · rfl
  · rw [he]; simp [Work.commit, Work.issued, hk]
  · rw [he]; simp [Work.commit, Work.issued, hk]
  · simp [hk]
  · unfold sameModule; rw [he]; rfl

/-- What a single access does once it reaches memory. -/
theorem single_reaches {w : Work} {acc : Access} {ok : Nat → Bool} {len : Nat} {vas : List Nat} {ms : List Mapped} {s1 : State}
    (h : ReachesOne w acc ok len vas ms s1) (body : Work → List Mapped → Eff) :
    w.single acc ok len vas body = body { w with s := s1 } ms ∧ OnlyTlbs w.s s1 := by
  have ho := (xlateAll_only w acc ok (fun k => vas.getD k 0) (List.range vas.length)).1
  rw [h.translated] at ho
  refine ⟨?_, ho⟩
  have e7 : ({ w with s := s1 } : Work).asked = none := by
    have := h.unasked
    unfold Work.asked at this ⊢
    rw [ho.eq]; exact this
  have hl : ((List.range ms.length).map fun k => ((k, .ok (ms.getD k ⟨0, 0, 0, 0⟩)) : Nat × Except Miss Mapped))
      = ((List.range ms.length).map fun k => (k, ms.getD k ⟨0, 0, 0, 0⟩)).map fun r => (r.1, .ok r.2) := by
    rw [List.map_map]; rfl
  have hm : (((List.range ms.length).map fun k => (k, ms.getD k ⟨0, 0, 0, 0⟩)).map (·.2)) = ms := by
    rw [List.map_map]
    apply List.ext_getElem
    · simp
    · intro i h1 h2; simp [h2]
  have e2 : ms.any (fun m => s1.refuses m.pa) = false := by
    rw [List.any_eq_false]; intro r hr; simp [State.refuses, h.unfenced r hr]
  have e3 : ms.any (fun m => s1.mapWaits m.pa) = false := by
    rw [List.any_eq_false]; intro r hr; simp [h.settled r hr]
  have e4 : ((List.range ms.length).filterMap fun k => (ms[k]?).bind fun m =>
        if targetOf m.pa = .peer then some (k, m.pa) else none) = [] := by
    rw [List.filterMap_eq_nil_iff]
    intro k hk
    have : k < ms.length := by simpa using hk
    simp [this, h.device _ (List.getElem_mem this)]
  unfold Work.single
  dsimp only
  rw [h.translated]
  dsimp only
  rw [hl, mappedOf_ok, failuresOf_ok, hm]
  simp only [List.map_nil, ne_eq, not_true_eq_false, if_false]
  rw [h.unlocked]
  dsimp only
  rw [e2, e3, e4, e7]
  simp

end Sys2Proof.Machine
end

