-- ==== Sys2Proof/Laws/Format.lean ====
section
/-! SUPPORT. The cache instructions and the format tables in memory: sectors of a table, their stores and loads. -/

namespace Sys2Proof.Machine

open Sys2Proof

theorem prefetch_only (w : Work) (n : Ins) (w1 : Work) (i : Nat) :
    OnlyCaches w1.s (w.prefetch n w1 i).s ∧ w.prefetch n w1 i = { w1 with s := (w.prefetch n w1 i).s } := by
  unfold Work.prefetch
  dsimp only
  obtain ⟨h1, h2⟩ := xlate_only w1 .load (fun _ => true) (w.pairAddr n i)
  generalize Work.xlate _ _ _ _ = x at *
  obtain ⟨x1, x2⟩ := x
  dsimp only at *
  split
  · exact ⟨h1.eq, h2⟩
  · rename_i m
    have hn : OnlyCaches w1.s (x1.s.noteRead m.pa) := h1.eq.trans (noteRead_only _ _).caches
    split
    · exact ⟨h1.eq, h2⟩
    · split
      · exact ⟨hn, by rw [h2]⟩
      · exact ⟨hn.trans (modCore_only (x1.s.noteRead m.pa) w.E.core fun c => c.l1Fill (m.pa / 32) (x1.s.peek (m.pa / 32 * 32) 32)), by rw [h2]⟩

theorem physical_only (w : Work) (l : List (Nat × Nat)) : OnlyTlbs w.s (w.physical l).1.s ∧ (w.physical l).1 = { w with s := (w.physical l).1.s } := by
  induction l generalizing w with
  | nil => exact ⟨.refl _, rfl⟩
  | cons p t ih =>
    have hx := xlate_only w .load (fun _ => true) p.1
    have k := ih (w.xlate .load (fun _ => true) p.1).1
    unfold Work.physical
    dsimp only
    split <;> exact ⟨hx.1.trans k.1, by rw [k.2, hx.2]⟩

theorem pagesOf_512 {va : Nat} (h : va % 64 = 0) :
    (4096 - va % 4096 < 512 ∧ pagesOf va 512 = [va, (va / 4096 + 1) * 4096]
      ∧ pageParts va 512 = [(va, 4096 - va % 4096), ((va / 4096 + 1) * 4096, 512 - (4096 - va % 4096))])
    ∨ (512 ≤ 4096 - va % 4096 ∧ pagesOf va 512 = [va] ∧ pageParts va 512 = [(va, 512)]) := by
  by_cases h2 : 4096 - va % 4096 < 512
  · left
    have e : (va + 512 - 1) / 4096 - va / 4096 + 1 = 2 := by omega
    have e1 : pagesOf va 512 = [va, (va / 4096 + 1) * 4096] := by
      unfold pagesOf; rw [if_neg (by omega), e]; rfl
    refine ⟨h2, e1, ?_⟩
    have k1 : min (va + 512) (va / 4096 * 4096 + 4096) - va = 4096 - va % 4096 := by omega
    have k2 : min (va + 512) ((va / 4096 + 1) * 4096 / 4096 * 4096 + 4096) - (va / 4096 + 1) * 4096 = 512 - (4096 - va % 4096) := by
      have h5 : (va / 4096 + 1) * 4096 / 4096 = va / 4096 + 1 := Nat.mul_div_cancel _ (Nat.succ_pos 4095)
      rw [h5, Nat.min_eq_left (by omega)]; omega
    unfold pageParts
    rw [e1, List.map_cons, List.map_cons, List.map_nil, k1, k2]
  · right
    have e : (va + 512 - 1) / 4096 - va / 4096 + 1 = 1 := by omega
    have e1 : pagesOf va 512 = [va] := by
      unfold pagesOf; rw [if_neg (by omega), e]; rfl
    refine ⟨by omega, e1, ?_⟩
    have k1 : min (va + 512) (va / 4096 * 4096 + 4096) - va = 512 := by omega
    unfold pageParts
    rw [e1, List.map_cons, List.map_nil, k1]

/-- The sectors of a table, one after another. -/
theorem tableSectors_get {va : Nat} (h : va % 64 = 0) {ms : List Mapped} (hl : ms.length = (pagesOf va 512).length) :
    (tableSectors va ms).length = 16 ∧ ∀ j (hj : j < (tableSectors va ms).length), ∀ k, k < 32 →
      ((tableSectors va ms)[j]).pa + k = tableByte va ms (32 * j + k) := by
  rcases pagesOf_512 h with ⟨h1, h2, h3⟩ | ⟨h1, h2, h3⟩
  · rw [h2] at hl
    obtain ⟨a, b, rfl⟩ : ∃ a b, ms = [a, b] := by
      match ms, hl with
      | [a, b], _ => exact ⟨a, b, rfl⟩
    have e : tableSectors va [a, b] = (List.range ((4096 - va % 4096) / 32)).map (fun k => { a with pa := a.pa + 32 * k })
        ++ (List.range ((512 - (4096 - va % 4096)) / 32)).map fun k => { b with pa := b.pa + 32 * k } := by
      simp [tableSectors, tableParts, h3]
    rw [e]
    refine ⟨by simp; omega, fun j hj k hk => ?_⟩
    rw [List.getElem_append]
    simp only [List.length_append, List.length_map, List.length_range] at hj
    split
    · next hlt =>
      simp only [List.length_map, List.length_range] at hlt
      simp only [List.getElem_map, List.getElem_range, tableByte]
      rw [if_pos (by omega)]
      simp; omega
    · next hlt =>
      simp only [List.length_map, List.length_range] at hlt ⊢
      simp only [List.getElem_map, List.getElem_range, tableByte]
      rw [if_neg (by omega)]
      simp; omega
  · rw [h2] at hl
    obtain ⟨a, rfl⟩ : ∃ a, ms = [a] := by
      match ms, hl with
      | [a], _ => exact ⟨a, rfl⟩
    have e : tableSectors va [a] = (List.range 16).map (fun k => { a with pa := a.pa + 32 * k }) := by
      simp [tableSectors, tableParts, h3]
    rw [e]
    refine ⟨by simp, fun j hj k hk => ?_⟩
    simp only [List.length_map, List.length_range] at hj
    simp only [List.getElem_map, List.getElem_range, tableByte]
    rw [if_pos (by omega)]
    simp; omega

theorem storeSectors_only (core : Nat) (l : List Mapped) (bs : List Byte) (s : State) : OnlyStores s (storeSectors core l bs s) := by
  induction l generalizing s bs with
  | nil => exact .refl s
  | cons a t ih =>
    exact (foldl_rel (p := OnlyStores) OnlyStores.refl OnlyStores.trans (fun s k => storeBytes_only s core _ _) (List.range 4) s).trans (ih _ _)

/-- The memory after stores of sectors: the last write to a byte stands. -/
theorem storeSectors_mem (core : Nat) (l : List Mapped) (bs : List Byte) (hb : bs.length = 32 * l.length) (s : State) (hw : Memory.wf s.mem = true) :
    (∀ a, (∀ j (hj : j < l.length) k, k < 32 → l[j].pa + k ≠ a) → (storeSectors core l bs s).mem.read a = s.mem.read a)
    ∧ ((∀ i j (hi : i < l.length) (hj : j < l.length) k n, k < 32 → n < 32 → l[i].pa + k = l[j].pa + n → 32 * i + k = 32 * j + n) →
        ∀ j (hj : j < l.length) k, k < 32 → (storeSectors core l bs s).mem.read (l[j].pa + k) = bs.getD (32 * j + k) 0) := by
  induction l generalizing s bs with
  | nil => exact ⟨fun _ _ => rfl, fun _ j hj => by simp at hj⟩
  | cons m t ih =>
    have hlen : 32 ≤ bs.length := by rw [hb, List.length_cons]; omega
    obtain ⟨m1, m2, hm⟩ : ∃ m' , ∃ s' : State, ((List.range 4).foldl (fun s k => s.storeBytes core { m with pa := m.pa + 8 * k } ((bs.drop (8 * k)).take 8)) s) = s' ∧ s'.mem = m'
        ∧ Memory.wf m' = true ∧ ∀ a, m'.read a = if m.pa ≤ a ∧ a < m.pa + 32 then bs.getD (a - m.pa) 0 else s.mem.read a := by
      have step (s : State) (k : Nat) (hk : k < 4) (hw : Memory.wf s.mem = true) :
          Memory.wf (s.storeBytes core { m with pa := m.pa + 8 * k } ((bs.drop (8 * k)).take 8)).mem = true
          ∧ ∀ a, (s.storeBytes core { m with pa := m.pa + 8 * k } ((bs.drop (8 * k)).take 8)).mem.read a
            = if m.pa + 8 * k ≤ a ∧ a < m.pa + 8 * k + 8 then bs.getD (a - m.pa) 0 else s.mem.read a := by
        rw [storeBytes_eq]
        refine ⟨Memory.wf_write _ _ hw, fun a => ?_⟩
        dsimp only
        rw [Memory.read_write _ _ _ hw]
        have : ((bs.drop (8 * k)).take 8).length = 8 := by simp; omega
        rw [this]
        split
        · next h =>
          rw [List.getD_eq_getElem?_getD, List.getElem?_take, if_pos (by omega), List.getElem?_drop, ← List.getD_eq_getElem?_getD]
          congr 1; omega
        · rfl
      obtain ⟨w0, r0⟩ := step s 0 (by omega) hw
      obtain ⟨w1, r1⟩ := step _ 1 (by omega) w0
      obtain ⟨w2, r2⟩ := step _ 2 (by omega) w1
      obtain ⟨w3, r3⟩ := step _ 3 (by omega) w2
      refine ⟨_, _, rfl, rfl, w3, fun a => ?_⟩
      rw [show List.range 4 = [0, 1, 2, 3] from rfl]
      simp only [List.foldl_cons, List.foldl_nil]
      rw [r3, r2, r1, r0]
      split_ifs <;> first | rfl | omega
    obtain ⟨he, hmm, hwf, hrd⟩ := hm
    have hd : (bs.drop 32).length = 32 * t.length := by simp [hb]; omega
    obtain ⟨k1, k2⟩ := ih (bs.drop 32) hd m2 (by rw [hmm]; exact hwf)
    unfold storeSectors
    rw [he]
    constructor
    · intro a ha
      rw [k1 a fun j hj k hk => ha (j + 1) (by simpa using hj) k hk, hmm, hrd, if_neg]
      intro hc
      exact ha 0 (by simp) (a - m.pa) (by omega) (by simp; omega)
    · intro hinj j hj k hk
      cases j with
      | zero =>
        have hne : ∀ j (hj : j < t.length) n, n < 32 → t[j].pa + n ≠ m.pa + k := by
          intro j hj n hn hc
          have := hinj (j + 1) 0 (by simpa using hj) (by simp) n k hn hk (by simpa using hc)
          omega
        simp only [List.getElem_cons_zero]
        rw [k1 _ hne, hmm, hrd, if_pos (by omega)]
        congr 1; omega
      | succ j =>
        simp only [List.getElem_cons_succ]
        have hj' : j < t.length := by simpa using hj
        rw [k2 (fun i j hi hj k n hk hn he => by
          have := hinj (i + 1) (j + 1) (by simpa using hi) (by simpa using hj) k n hk hn (by simpa using he)
          omega) j hj' k hk]
        rw [List.getD_eq_getElem?_getD, List.getElem?_drop, List.getD_eq_getElem?_getD]
        congr 2; omega

theorem getD_natLE (n x i : Nat) (h : i < n) : (natLE n x).getD i 0 = BitVec.ofNat 8 (x / 2 ^ (8 * i)) := by
  induction n generalizing x i with
  | zero => omega
  | succ n ih =>
    unfold natLE
    cases i with
    | zero => simp
    | succ i =>
      rw [List.getD_cons_succ, ih _ _ (by omega), Nat.div_div_eq_div_mul]
      congr 2
      rw [show 8 * (i + 1) = 8 + 8 * i by ring, pow_add]; rfl

/-- A run of pieces of 8 bytes each. -/
theorem getD_pieces (g : Nat → List Byte) (hg : ∀ k, (g k).length = 8) (n i : Nat) (h : i < 8 * n) :
    ((List.range n).flatMap g).getD i 0 = (g (i / 8)).getD (i % 8) 0 ∧ ((List.range n).flatMap g).length = 8 * n := by
  have hl : ∀ n, ((List.range n).flatMap g).length = 8 * n := by
    intro n
    induction n with
    | zero => rfl
    | succ n ih => rw [List.range_succ, List.flatMap_append, List.length_append, ih]; simp [hg]; omega
  refine ⟨?_, hl n⟩
  induction n with
  | zero => omega
  | succ n ih =>
    rw [List.range_succ, List.flatMap_append]
    simp only [List.flatMap_cons, List.flatMap_nil, List.append_nil]
    rw [List.getD_eq_getElem?_getD, List.getElem?_append]
    split
    · next h2 => rw [← List.getD_eq_getElem?_getD]; exact ih (by rw [hl] at h2; exact h2)
    · next h2 =>
      rw [hl] at h2 ⊢
      have e : i / 8 = n := by omega
      rw [e, ← List.getD_eq_getElem?_getD]
      congr 1; omega

theorem loadSectors_only (core : Nat) (l : List Mapped) (s : State) : OnlyCaches s (loadSectors core l s).1 := by
  induction l generalizing s with
  | nil => exact .refl s
  | cons m t ih => exact (loadBytes_only _ _ _ _ _).trans (ih _)

/-- The bytes of sectors that a load reads. -/
theorem loadSectors_from {core : Nat} {s0 : State} (l : List Mapped) {s : State} (h : L1From core s0 s)
    (hn : ∀ m ∈ l, (s0.core core).l1Find (m.pa / 32) = none ∧ m.pa % 32 = 0) :
    (loadSectors core l s).2 = l.flatMap (fun m => natLE 32 (leNat (s0.peek m.pa 32))) := by
  induction l generalizing s with
  | nil => rfl
  | cons m t ih =>
    have hm := hn m (by simp)
    have k := loadBytes_from false (m := m) (n := 32) h (by omega)
    have a := ih k.1 fun r hr => hn r (by simp [hr])
    unfold loadSectors
    have hv : (s.loadBytes core false m 32).2 = leNat (s0.peek m.pa 32) := by
      rcases k.2 with h1 | ⟨-, -, d, hd, -⟩
      · exact h1
      · rw [hm.1] at hd; cases hd
    dsimp only
    rw [a, List.flatMap_cons, hv]

theorem leNat_readN_drop (m : Memory) (a n : Nat) : natLE n (leNat (m.readN a n)) = m.readN a n := by
  have : ∀ l : List Byte, natLE l.length (leNat l) = l := by
    intro l
    induction l with
    | nil => rfl
    | cons b t ih =>
      simp only [List.length_cons, natLE, leNat]
      congr 1
      · apply BitVec.eq_of_toNat_eq; simp; have := b.isLt; omega
      · have : (b.toNat + 256 * leNat t) / 256 = leNat t := by have := b.isLt; omega
        rw [this]; exact ih
  have h := this (m.readN a n)
  rwa [Memory.length_readN] at h

theorem flatMap_length {α : Type} (c : Nat) (f : α → List Byte) (hf : ∀ a, (f a).length = c) (l : List α) : (l.flatMap f).length = c * l.length := by
  induction l with
  | nil => rfl
  | cons a t ih => rw [List.flatMap_cons, List.length_append, ih, hf, List.length_cons]; ring

theorem flatMap_get {α : Type} (c : Nat) (f : α → List Byte) (hf : ∀ a, (f a).length = c) (l : List α) (j k : Nat) (hj : j < l.length) (hk : k < c) :
    (l.flatMap f)[c * j + k]? = (f l[j])[k]? := by
  induction l generalizing j with
  | nil => simp at hj
  | cons a t ih =>
    rw [List.flatMap_cons, List.getElem?_append, hf]
    cases j with
    | zero => simp [hk]
    | succ j =>
      rw [if_neg (by rw [Nat.mul_succ]; omega)]
      have := ih j (by simpa using hj)
      rw [show c * (j + 1) + k - c = c * j + k by rw [Nat.mul_succ]; omega, this]
      simp

theorem fload_entries {va : Nat} (hm : va % 64 = 0) {ms : List Mapped} (hl : ms.length = (pagesOf va 512).length) (s : State) (r2 : List Byte)
    (q1 : r2 = (tableSectors va ms).flatMap fun m => natLE 32 (leNat (s.peek m.pa 32))) :
    (List.range 48).map (fun k => BitVec.ofNat 64 (leNat ((r2.drop (128 + 8 * k)).take 8)))
        = (List.range 48).map fun k => BitVec.ofNat 64 (s.peek64 (tableByte va ms (128 + 8 * k))) := by
  obtain ⟨g1, g2⟩ := tableSectors_get hm hl
  have q2 : r2 = (tableSectors va ms).flatMap fun m => s.mem.readN m.pa 32 := by
    rw [q1]; unfold State.peek; simp only [leNat_readN_drop]
  clear q1
  apply List.map_congr_left
  intro k hk
  have hk : k < 48 := by simpa using hk
  congr 2
  apply List.ext_getElem?
  intro i
  rw [List.getElem?_take, List.getElem?_drop]
  by_cases hi8 : i < 8
  · rw [if_pos hi8, q2]
    have hj : (128 + 8 * k + i) / 32 < (tableSectors va ms).length := by omega
    have h4 := flatMap_get 32 (fun m : Mapped => s.mem.readN m.pa 32) (fun m => Memory.length_readN _ _ _) (tableSectors va ms) ((128 + 8 * k + i) / 32) ((128 + 8 * k + i) % 32) hj (by omega)
    rw [show 32 * ((128 + 8 * k + i) / 32) + (128 + 8 * k + i) % 32 = 128 + 8 * k + i by omega] at h4
    rw [h4]
    have h5 := g2 _ hj ((128 + 8 * k + i) % 32) (by omega)
    have h6 := g2 ((128 + 8 * k) / 32) (by omega) ((128 + 8 * k) % 32) (by omega)
    have e3 : (128 + 8 * k + i) / 32 = (128 + 8 * k) / 32 := by omega
    unfold State.peek Memory.readN
    simp only [List.getElem?_map]
    rw [List.getElem?_range (by omega), List.getElem?_range hi8]
    simp only [Option.map_some]
    congr 2
    rw [show 32 * ((128 + 8 * k) / 32) + (128 + 8 * k) % 32 = 128 + 8 * k by omega] at h6
    rw [← h6]
    simp only [e3]
    omega
  · rw [if_neg hi8, List.getElem?_eq_none]
    simp [State.peek, Memory.readN]; omega

end Sys2Proof.Machine
end

