-- ==== Sys2Proof/Laws/Integer.lean ====
section
/-! SUPPORT. What the integer helpers compute, bit by bit: shifts, counts, bit fields, byte selection, extension. -/

namespace Sys2Proof.Machine

open Sys2Proof

theorem shl_big (a b : Word) : (if 32 ≤ b.toNat then 0#32 else a <<< b.toNat) = a <<< b.toNat := by
  split
  · next h => exact (BitVec.shiftLeft_eq_zero h).symm
  · rfl
theorem shr_big (a b : Word) : (if 32 ≤ b.toNat then 0#32 else a >>> b.toNat) = a >>> b.toNat := by
  split
  · next h => exact (BitVec.ushiftRight_eq_zero h).symm
  · rfl
theorem sar_big (a : Word) (k : Nat) : a.sshiftRight (min k 31) = a.sshiftRight k := by
  apply BitVec.eq_of_getLsbD_eq
  intro j hj
  simp only [BitVec.getLsbD_sshiftRight]
  by_cases h : k ≤ 31
  · rw [Nat.min_eq_left h]
  · have : ¬ k + j < 32 := by omega
    have hm : min k 31 = 31 := by omega
    simp only [hm, this]
    by_cases h0 : j = 0
    · subst h0; simp [BitVec.msb_eq_getLsbD_last]
    · have : ¬ 31 + j < 32 := by omega
      simp [this]
theorem rot_bit (a : Word) (k j : Nat) (hj : j < 32) : (a.rotateLeft (k % 32)).getLsbD ((j + k) % 32) = a.getLsbD j := by
  rw [BitVec.getLsbD_rotateLeft]
  have h1 : (k % 32) % 32 = k % 32 := Nat.mod_mod _ _
  rw [h1]
  by_cases h : (j + k) % 32 < k % 32
  · simp only [h, decide_true, cond_true]; congr 1; omega
  · have : (j + k) % 32 < 32 := Nat.mod_lt _ (by norm_num)
    simp only [h, this, decide_true, decide_false, cond_false, Bool.true_and]; congr 1; omega
theorem signed_eq (x w : Nat) : signed x w = (BitVec.ofNat w x).toInt := by
  unfold signed
  rw [BitVec.toInt_eq_toNat_cond]
  simp only [BitVec.toNat_ofNat]
  by_cases h : 2 ^ w ≤ 2 * (x % 2 ^ w)
  · rw [if_pos h, if_neg (by omega)]; push_cast; rfl
  · rw [if_neg h, if_pos (by omega)]
theorem sext_bit (x w : Nat) (hw : 0 < w) (j : Nat) (hj : j < 32) :
    (BitVec.ofInt 32 (signed x w)).getLsbD j = x.testBit (min j (w - 1)) := by
  rw [signed_eq, ← BitVec.signExtend, BitVec.getLsbD_signExtend]
  by_cases h : j < w
  · have : min j (w - 1) = j := by omega
    rw [this]; simp only [h, hj, decide_true, Bool.true_and]; rw [BitVec.getLsbD_ofNat]; simp [h]
  · have h1 : min j (w - 1) = w - 1 := by omega
    have h2 : (BitVec.ofNat w x).getLsbD (w - 1) = x.testBit (w - 1) := by
      rw [BitVec.getLsbD_ofNat, decide_eq_true (by omega : w - 1 < w), Bool.true_and]
    rw [h1, ← h2]; simp only [h, hj, decide_true, Bool.true_and, BitVec.msb_eq_getLsbD_last, if_false]
theorem popcount_eq (a : Word) : popcount a = ((List.range 32).filter fun j => a.getLsbD j).length := by
  unfold popcount
  induction List.range 32 with
  | nil => rfl
  | cons x l ih =>
    simp only [List.map_cons, List.sum_cons, ih, List.filter_cons]
    cases a.getLsbD x <;> simp; omega
theorem toNat_small (n : Nat) (h : n ≤ 32) : (BitVec.ofNat 32 n).toNat = n := by
  rw [BitVec.toNat_ofNat]; exact Nat.mod_eq_of_lt (by omega)
theorem lead_ok (a : Word) : let v := BitVec.ofNat 32 (leadZeros a); v.toNat ≤ 32 ∧ (∀ j, 32 - v.toNat ≤ j → a.getLsbD j = false)
        ∧ (v.toNat < 32 → a.getLsbD (31 - v.toNat) = true) := by
  have hle : leadZeros a ≤ 32 := by unfold leadZeros; split <;> omega
  simp only [toNat_small _ hle]
  refine ⟨hle, ?_, ?_⟩
  · intro j hj
    unfold leadZeros at hj
    split at hj
    · next h => subst h; simp
    · next h =>
      have h0 : a.toNat ≠ 0 := fun e => h (BitVec.eq_of_toNat_eq e)
      have hl : log2 a.toNat < 32 := (Nat.log2_lt h0).2 a.isLt
      have : a.toNat < 2 ^ j := (Nat.log2_lt h0).1 (by simp only [log2] at *; omega)
      simpa [BitVec.getLsbD] using Nat.testBit_lt_two_pow this
  · intro hlt
    unfold leadZeros at hlt ⊢
    split at hlt
    · omega
    · next h =>
      have h0 : a.toNat ≠ 0 := fun e => h (BitVec.eq_of_toNat_eq e)
      have hl : log2 a.toNat < 32 := (Nat.log2_lt h0).2 a.isLt
      rw [if_neg h, show 31 - (31 - log2 a.toNat) = log2 a.toNat by omega]
      simpa [BitVec.getLsbD, log2] using Nat.testBit_log2 h0
theorem trail_ok (a : Word) : let v := BitVec.ofNat 32 (trailZeros a); v.toNat ≤ 32 ∧ (∀ j, j < v.toNat → a.getLsbD j = false)
        ∧ (v.toNat < 32 → a.getLsbD v.toNat = true) := by
  have h : trailZeros a ≤ 32 ∧ (∀ j, j < trailZeros a → a.getLsbD j = false) ∧ (trailZeros a < 32 → a.getLsbD (trailZeros a) = true) := by
    unfold trailZeros
    cases h : (List.range 32).find? fun j => a.getLsbD j with
    | none =>
      rw [List.find?_eq_none] at h
      simp only [Option.getD_none]
      refine ⟨le_refl _, fun j hj => ?_, by simp⟩
      simpa using h j (List.mem_range.2 hj)
    | some k =>
      have := List.find?_range_eq_some.1 h
      simp only [Option.getD_some]
      refine ⟨?_, ?_, fun _ => this.1⟩
      · have := List.mem_range.1 this.2.1; omega
      · intro j hj; simpa using this.2.2 j hj
  simp only [toNat_small _ h.1]; exact h

/-- What a lanewise meaning of both forms gives. -/
theorem bothForms_of_lanewise {op : Nat} {x : X → Instr} {b : B3 → Instr} {good : Ins → Word → Word → Word → Word → Prop}
    (f : Word → Word → Word → Word) (hx : ∀ g s, exec (x g) s = run (insX op g) (lanewise f (insX op g)) s)
    (hb : ∀ g s, exec (b g) s = run (insB3 op g) (lanewise f (insB3 op g)) s) (h : ∀ n a b c, good n a b c (f a b c)) :
    bothForms op x b (wordRel good) :=
  ⟨fun g => wordRel_of_lanewise (hx g) (h _), fun g => wordRel_of_lanewise (hb g) (h _)⟩

/-- The bits of bfx (R145). -/
theorem bfx_bit (s : Bool) (a f : Word) :
    let pos := f.toNat % 256
    let len := f.toNat / 256 % 256
    let m := min len (32 - pos)
    if 32 ≤ pos ∨ len = 0 then bfx s a f = 0
    else ∀ j, j < 32 → (bfx s a f).getLsbD j = if j < m then a.getLsbD (pos + j) else s && a.getLsbD (pos + m - 1) := by
  have h1 : bvField f 7 0 = f.toNat % 256 := by simp [bvField, field]
  have h2 : bvField f 15 8 = f.toNat / 256 % 256 := by simp [bvField, field, Nat.shiftRight_eq_div_pow]
  unfold bfx
  simp only [h1, h2]
  split
  · rfl
  · next h =>
    intro j hj
    generalize hm : min (f.toNat / 256 % 256) (32 - f.toNat % 256) = m
    have hm0 : 0 < m := by omega
    have hm1 : m ≤ 32 - f.toNat % 256 := by omega
    have hb (k : Nat) (hk : k < m) : (a.toNat / 2 ^ (f.toNat % 256) % 2 ^ m).testBit k = a.getLsbD (f.toNat % 256 + k) := by
      rw [Nat.testBit_mod_two_pow, Nat.testBit_div_two_pow]
      simp [hk, BitVec.getLsbD, Nat.add_comm]
    cases s
    · simp only [Bool.false_eq_true, if_false, Bool.false_and]
      rw [BitVec.getLsbD_ofNat]
      split
      · next hjm => simp [hj, hb j hjm]
      · next hjm => simp [Nat.testBit_mod_two_pow, hjm]
    · simp only [if_true, Bool.true_and]
      rw [sext_bit _ m hm0 j hj]
      split
      · next hjm => rw [show min j (m - 1) = j by omega, hb j hjm]
      · next hjm =>
        rw [show min j (m - 1) = m - 1 by omega, hb (m - 1) (by omega)]
        congr 1; omega

/-- The bits of bfi (R145). -/
theorem bfi_bit (a b f : Word) :
    let pos := f.toNat % 256
    let len := f.toNat / 256 % 256
    let m := min len (32 - pos)
    if 32 ≤ pos ∨ len = 0 then bfi a b f = a
    else ∀ j, j < 32 → (bfi a b f).getLsbD j = if pos ≤ j ∧ j < pos + m then b.getLsbD (j - pos) else a.getLsbD j := by
  have h1 : bvField f 7 0 = f.toNat % 256 := by simp [bvField, field]
  have h2 : bvField f 15 8 = f.toNat / 256 % 256 := by simp [bvField, field, Nat.shiftRight_eq_div_pow]
  unfold bfi
  simp only [h1, h2]
  split
  · rfl
  · next h =>
    intro j hj
    generalize hm : min (f.toNat / 256 % 256) (32 - f.toNat % 256) = m
    rw [BitVec.getLsbD_or, BitVec.getLsbD_and, BitVec.getLsbD_not, BitVec.getLsbD_ofNat, BitVec.getLsbD_ofNat]
    rw [Nat.testBit_mul_two_pow, Nat.testBit_mul_two_pow, Nat.testBit_two_pow_sub_one, Nat.testBit_mod_two_pow]
    by_cases h3 : f.toNat % 256 ≤ j <;> by_cases h4 : j < f.toNat % 256 + m
    · have : j - f.toNat % 256 < m := by omega
      simp [h3, h4, hj, this, BitVec.getLsbD]
    · have : ¬ j - f.toNat % 256 < m := by omega
      simp [h4, hj, this]
    · simp [h3, hj]
    · simp [h3, hj]

/-- The bytes of perm (R146). -/
theorem permByte_lt (a sel : Word) (k : Nat) : permByte a sel k < 256 := by
  unfold permByte
  dsimp only
  split
  · norm_num
  · split
    · split <;> norm_num
    · exact Nat.mod_lt _ (by norm_num)

theorem perm_byte (a sel : Word) {k : Nat} (hk : k < 4) :
    (BitVec.ofNat 32 (((List.range 4).map fun k => permByte a sel k * 2 ^ (8 * k)).sum)).toNat / 2 ^ (8 * k) % 256 = permByte a sel k := by
  have hd := digits_sum (2 ^ 8) (by norm_num) (permByte a sel) (permByte_lt a sel) 4
  simp only [← Nat.pow_mul] at hd
  rw [BitVec.toNat_ofNat, Nat.mod_eq_of_lt hd.1]
  exact hd.2 k hk

end Sys2Proof.Machine
end

