-- ==== Sys2Proof/Laws/Landing.lean ====
section
/-! SUPPORT. What the landing of held results does, and the end of a wait. -/

namespace Sys2Proof

theorem Tab.find?_mapValues {α : Type} (t : Tab α) (g : α → α) (k : Nat) :
    Tab.find? (t.map fun e => (e.1, g e.2)) k = (Tab.find? t k).map g := by
  induction t with
  | nil => rfl
  | cons p t ih => simp only [List.map_cons, Tab.find?, ih]; split <;> rfl

namespace Machine

theorem Troupe.find?_modSplit (t : Troupe) (uid : Nat) (f : Split → Split) (k : Nat) :
    (t.modSplit uid f).splits.find? k = (t.splits.find? k).map fun p => if p.uid = uid then f p else p :=
  Tab.find?_mapValues t.splits (fun p => if p.uid = uid then f p else p) k

theorem Split.wrote_rcv (p : Split) (n : Nat) : (p.wrote n).rcv = p.rcv := Split.rcv_congr (Split.wrote_frames p n)

/-- The write that a held result's part makes. -/
def Prior.write (o : Prior) : Write := (o.reg, o.lanes, fun i => o.old.at_ (if o.reg.perLane then i else 0))

/-- What part of a held result changes of a troupe: registers, the scalars and WR bits of the splits that own it, and the shadow lists. -/
structure LandsPart (T T' : Troupe) (owner : Nat) (outs : List Write) (shadow : Split → List Shadow) : Prop where
  vec : ∀ r l, r.perLane = true → r ≠ .p 7 → l < 128 → (T'.vec r).at_ l = (written outs r l).getD ((T.vec r).at_ l)
  ss : ∀ k, T'.ss.get k = (written outs (.ss k) 0).getD (T.ss.get k)
  splits : ∀ k, Tab.find? T.splits k = none → Tab.find? T'.splits k = none
  split : ∀ k q, T.splits.find? k = some q → ∃ q', T'.splits.find? k = some q'
        ∧ (∀ j, q'.scal.get j = if q.uid = owner then (written outs (.s j) 0).getD (q.scal.get j) else q.scal.get j)
        ∧ q'.shadow = shadow q ∧ q' = { q with scal := q'.scal, frames := q'.frames, shadow := q'.shadow } ∧ q'.rcv = q.rcv
  rest : T' = { T with file := T'.file, ss := T'.ss, splits := T'.splits, stack := T'.stack, coming := T'.coming, saved := T'.saved }

theorem LandsPart.refl (T : Troupe) (owner : Nat) : LandsPart T T owner [] (landedShadow owner []) :=
  ⟨fun _ _ _ _ _ => by simp [written], fun _ => by simp [written], fun _ h => h,
   fun k q h => ⟨q, h, fun j => by simp [written], rfl, rfl, rfl⟩, rfl⟩

theorem Troupe.find?_noteLanded (t : Troupe) (owner : Nat) (o : Prior) (k : Nat) :
    (t.noteLanded owner o).splits.find? k = (t.splits.find? k).map fun p => if p.receives owner o then { p with shadow := p.shadow.map (·.landed o) } else p :=
  Tab.find?_mapValues t.splits (fun p => if p.receives owner o then { p with shadow := p.shadow.map (·.landed o) } else p) k

/-- The splits' shadow lists alone change further. -/
theorem LandsPart.note {T U : Troupe} {owner : Nat} {l : List Write} (h : LandsPart T U owner l Split.shadow)
    (o : Prior) : LandsPart T (U.noteLanded owner o) owner l (landedShadow owner [o]) where
  vec r i h1 h2 h3 := h.vec r i h1 h2 h3
  ss j := h.ss j
  splits j hj := by
    rw [Troupe.find?_noteLanded, h.splits j hj]; rfl
  split j q hq := by
    obtain ⟨q1, h1, h2, hs, h3, h4⟩ := h.split j q hq
    have hr : q1.receives owner o = q.receives owner o := by rw [h3]; rfl
    refine ⟨_, by rw [Troupe.find?_noteLanded, h1]; rfl, ?_⟩
    dsimp only [landedShadow, List.foldl_cons, List.foldl_nil]
    rw [hr]
    split
    · exact ⟨h2, by rw [hs], by rw [h3], h4⟩
    · exact ⟨h2, hs, h3, h4⟩
  rest := by unfold Troupe.noteLanded Troupe.modAll; rw [h.rest]

theorem landedShadow_cons {owner : Nat} {o : Prior} {l : List Prior} {q q1 : Split} (h1 : q1.shadow = landedShadow owner [o] q)
    (h2 : q1 = { q with scal := q1.scal, frames := q1.frames, shadow := q1.shadow }) :
    landedShadow owner l q1 = landedShadow owner (o :: l) q := by
  have hr : ∀ o, q1.receives owner o = q.receives owner o := fun o => by rw [h2]; rfl
  unfold landedShadow at *
  simp only [hr, h1, List.foldl_cons, List.foldl_nil]

theorem LandsPart.cons {T U V : Troupe} {owner : Nat} {o : Prior} {l : List Prior} (h : LandsPart T U owner [o.write] (landedShadow owner [o]))
    (k : LandsPart U V owner (l.map Prior.write) (landedShadow owner l)) :
    LandsPart T V owner ((o :: l).map Prior.write) (landedShadow owner (o :: l)) where
  vec r i h1 h2 h3 := by
    rw [k.vec r i h1 h2 h3, h.vec r i h1 h2 h3, List.map_cons, written_cons o.write (l.map Prior.write)]
    cases written (l.map Prior.write) r i <;> simp
  ss j := by
    rw [k.ss, h.ss, List.map_cons, written_cons o.write (l.map Prior.write)]
    cases written (l.map Prior.write) (.ss j) 0 <;> simp
  splits j hj := k.splits j (h.splits j hj)
  split j q hq := by
    obtain ⟨q1, h1, h2, hs, h3, h4⟩ := h.split j q hq
    obtain ⟨q2, k1, k2, ks, k3, k4⟩ := k.split j q1 h1
    have hu : q1.uid = q.uid := by rw [h3]
    refine ⟨q2, k1, fun n => ?_, ks.trans (landedShadow_cons hs h3), by rw [k3, h3], k4.trans h4⟩
    rw [k2, h2, hu]
    split
    · rw [List.map_cons, written_cons o.write (l.map Prior.write)]
      cases written (l.map Prior.write) (.s n) 0 <;> simp
    · rfl
  rest := by rw [k.rest, h.rest]

theorem written_one_other {o : Write} {r : Reg} (h : o.1 ≠ r) (i : Nat) : written [o] r i = none := by
  simp [written, h]

theorem setOut_lands (T : Troupe) (owner : Nat) (o : Prior) : LandsPart T (T.setOut owner o) owner [o.write] Split.shadow := by
  have same (U : Troupe) (hv : U.file = T.file) (hs : U.splits = T.splits)
      (hr : U = { T with file := U.file, ss := U.ss, splits := U.splits, stack := U.stack, coming := U.coming, saved := U.saved })
      (hss : ∀ k, U.ss.get k = (written [o.write] (.ss k) 0).getD (T.ss.get k)) (hl : o.reg.perLane = false ∨ o.reg = .p 7) (hn : ∀ j, o.reg ≠ .s j) :
      LandsPart T U owner [o.write] Split.shadow := by
    refine ⟨fun r l h1 h2 _ => ?_, hss, fun k h => hs ▸ h, fun k q h => ⟨q, hs ▸ h, fun j => ?_, rfl, rfl, rfl⟩, hr⟩
    · have : o.reg ≠ r := by
        rintro rfl
        rcases hl with hl | hl
        · rw [h1] at hl; cases hl
        · exact h2 hl
      rw [written_one_other this]; simp [Troupe.vec, hv]
    · rw [written_one_other (hn j)]; simp
  have file (hl : o.reg.perLane = true) (h7 : o.reg ≠ .p 7) :
      LandsPart T { T with file := T.file.put o.reg.key ((T.vec o.reg).update o.lanes fun i => o.reg.narrow (o.old.at_ i)) } owner [o.write] Split.shadow := by
    refine ⟨fun r l h1 h2 h3 => ?_, fun k => ?_, fun k h => h, fun k q h => ⟨q, h, fun j => ?_, rfl, rfl, rfl⟩, rfl⟩
    · rw [Troupe.vec_put]
      split
      · next e =>
        subst e
        rw [Vec.at_update _ _ _ h3]
        by_cases hm : o.lanes.getLsbD l <;> simp [written, h2, hl, hm, Prior.write]
      · next e => rw [written_one_other (fun h => e h.symm)]; rfl
    · rw [written_one_other (by intro h; simp only [Prior.write] at h; rw [h] at hl; cases hl)]; rfl
    · rw [written_one_other (by intro h; simp only [Prior.write] at h; rw [h] at hl; cases hl)]; simp
  cases hreg : o.reg with
  | s n =>
    unfold Troupe.setOut
    rw [hreg]
    refine ⟨fun r l h1 h2 _ => ?_, fun k => ?_, fun k h => ?_, fun k q h => ?_, rfl⟩
    · rw [written_one_other (by intro h; simp only [Prior.write] at h; rw [hreg] at h; rw [← h] at h1; cases h1)]; rfl
    · rw [written_one_other (by intro h; simp only [Prior.write] at h; rw [hreg] at h; cases h)]; rfl
    · dsimp only; rw [Troupe.find?_modSplit, h]; rfl
    · dsimp only
      by_cases hu : q.uid = owner
      · refine ⟨({ q with scal := q.scal.set n (o.old.at_ 0) } : Split).wrote n, by rw [Troupe.find?_modSplit, h]; simp [hu], fun j => ?_, ?_, ?_, Split.wrote_rcv _ _⟩
        · rw [if_pos hu, Split.wrote_scal]
          by_cases hj : j = n
          · subst hj; simp [written, Prior.write, hreg, Reg.perLane, Reg.narrow]
          · rw [written_one_other (by intro h; simp only [Prior.write] at h; rw [hreg] at h; cases h; exact hj rfl)]
            simp [hj]
        · rw [Split.wrote_eq]
        · rw [Split.wrote_eq]
      · exact ⟨q, by rw [Troupe.find?_modSplit, h]; simp [hu], fun j => by rw [if_neg hu], rfl, rfl, rfl⟩
  | ss n =>
    unfold Troupe.setOut
    rw [hreg]
    refine same _ rfl rfl rfl (fun k => ?_) (.inl (by rw [hreg]; rfl)) (by rw [hreg]; simp)
    by_cases hk : k = n
    · subst hk; simp [written, Prior.write, hreg, Reg.perLane, Reg.narrow]
    · rw [written_one_other (by intro h; simp only [Prior.write] at h; rw [hreg] at h; cases h; exact hk rfl)]; simp [hk]
  | g n =>
    unfold Troupe.setOut
    rw [hreg]
    exact same _ rfl rfl rfl (fun k => by rw [written_one_other (by intro h; simp only [Prior.write] at h; rw [hreg] at h; cases h)]; rfl)
      (.inl (by rw [hreg]; rfl)) (by rw [hreg]; simp)
  | p n =>
    by_cases h7 : n = 7
    · subst h7
      unfold Troupe.setOut
      rw [hreg]
      exact same _ rfl rfl rfl (fun k => by rw [written_one_other (by intro h; simp only [Prior.write] at h; rw [hreg] at h; cases h)]; rfl)
        (.inr hreg) (by rw [hreg]; simp)
    · have := file (by rw [hreg]; rfl) (by rw [hreg]; simp [h7])
      rw [hreg] at this
      unfold Troupe.setOut
      rw [hreg]
      simp only [h7, if_false]
      exact this
  | _ =>
    have := file (by rw [hreg]; rfl) (by rw [hreg]; simp)
    rw [hreg] at this
    unfold Troupe.setOut
    rw [hreg]
    exact this

theorem setOuts_lands (T : Troupe) (owner : Nat) (outs : List Prior) :
    LandsPart T (outs.foldl (fun t o => (t.setOut owner o).noteLanded owner o) T) owner (outs.map Prior.write) (landedShadow owner outs) := by
  induction outs generalizing T with
  | nil => exact LandsPart.refl T owner
  | cons o t ih => exact ((setOut_lands T owner o).note o).cons (ih _)

theorem intoSpill_only (s : State) (t : Troupe) (base owner : Nat) (o : Prior) : OnlyStores s (s.intoSpill t base owner o) := by
  unfold State.intoSpill
  split
  · dsimp only
    split
    · exact homeWrite_only _ _ _
    · exact (homeWrite_only _ _ _).trans (homeWrite_only _ _ _)
  · exact .refl s

theorem intoSpill_resident {s : State} {t : Troupe} {owner : Nat} (h : ∀ q ∈ t.stack, q.uid ≠ owner) (base : Nat) (o : Prior) :
    s.intoSpill t base owner o = s := by
  have : t.stack.findIdx? (fun p => p.uid = owner) = none := by simpa using h
  unfold State.intoSpill
  rw [this]
  split
  · next h => cases h
  · rfl

/-- A held result lands, and reaches memory only where its owner's split is on the split stack (R88) or a trap record is kept (R390). -/
theorem landPend_lands {tid id : Nat} {s : State} {T : Troupe} {p : Pend} (h1 : s.troupes.find? tid = some T)
    (h2 : T.pend.find? (fun p => p.id = id) = some p) (h3 : T.trapPc = none) :
    lands s (s.landPend tid id) tid T p ∧ OnlyStores { s with troupes := (s.landPend tid id).troupes } (s.landPend tid id)
      ∧ ((∀ q ∈ T.stack, q.uid ≠ p.owner) → s.landPend tid id = { s with troupes := (s.landPend tid id).troupes })
      ∧ (∀ k q, T.splits.find? k = some q → ∃ T' q', (s.landPend tid id).troupes.find? tid = some T' ∧ T'.splits.find? k = some q'
          ∧ q' = { q with scal := q'.scal, frames := q'.frames, shadow := q'.shadow } ∧ q'.rcv = q.rcv) := by
  have hid : p.id = id := by simpa using List.find?_some h2
  have e : OnlyStores (s.modTroupe tid fun t => t.writePend id) (s.landPend tid id)
      ∧ ((∀ q ∈ T.stack, q.uid ≠ p.owner) → s.landPend tid id = s.modTroupe tid fun t => t.writePend id) := by
    unfold State.landPend
    rw [h1]
    dsimp only
    rw [h2]
    cases s.ensembles.find? T.ens with
    | none => exact ⟨.refl _, fun _ => rfl⟩
    | some e =>
      simp only [h3, Option.isSome_none, Bool.and_false, Bool.false_eq_true, if_false]
      refine ⟨foldl_rel (p := OnlyStores) OnlyStores.refl OnlyStores.trans (fun s o => intoSpill_only s _ _ _ _) _ _, fun hq => ?_⟩
      simp only [intoSpill_resident hq]
      exact List.foldlRecOn p.outs _ (motive := fun x => x = s.modTroupe tid fun t => t.writePend id) rfl fun _ h _ _ => h
  obtain ⟨e1, e2⟩ := e
  have et : (s.landPend tid id).troupes = (s.modTroupe tid fun t => t.writePend id).troupes := by rw [e1]; rfl
  have hw : T.writePend id = { (p.outs.foldl (fun t o => (t.setOut p.owner o).noteLanded p.owner o) T) with
      tstat := (p.outs.foldl (fun t o => (t.setOut p.owner o).noteLanded p.owner o) T).tstat ||| p.flags,
      pend := (p.outs.foldl (fun t o => (t.setOut p.owner o).noteLanded p.owner o) T).pend.filter fun p => p.id ≠ id } := by
    unfold Troupe.writePend; rw [h2]
  have hl := setOuts_lands T p.owner p.outs
  generalize p.outs.foldl (fun t o => (t.setOut p.owner o).noteLanded p.owner o) T = U at *
  have hf : (s.landPend tid id).troupes.find? tid = some (T.writePend id) := by
    rw [et]; simp [State.modTroupe, Tab.find?_modify_same, h1]
  refine ⟨⟨T.writePend id, hf, ?_, ?_, ?_, ?_, ?_, ?_, ?_⟩, ?_, fun hq => ?_, ?_⟩
  · rw [hw, hid]; dsimp only; rw [hl.rest]
  · rw [hw]; dsimp only; rw [hl.rest]
  · rw [hw]; exact hl.vec
  · rw [hw]; exact hl.ss
  · intro k q hq
    rw [hw]
    obtain ⟨q', a, b, c, d, -⟩ := hl.split k q hq
    exact ⟨q', a, b, c, d⟩
  · rw [hw]; dsimp only; rw [hl.rest]
  · intro k hk; rw [et]; exact Tab.find?_modify_other _ _ hk
  · rw [et]; exact e1
  · rw [et]; exact e2 hq
  · intro k q hq
    obtain ⟨q', a, b, c, d, f⟩ := hl.split k q hq
    exact ⟨_, q', hf, by rw [hw]; exact a, d, f⟩

/-- A wait ends (R84). -/
theorem resume_past {s : State} {tid uid : Nat} {T U : Troupe} (h1 : s.troupes.find? tid = some U)
    (h2 : ∀ k q, T.splits.find? k = some q → q.uid = uid → q.state = 2 → ∃ q', U.splits.find? k = some q' ∧ q'.uid = q.uid ∧ q'.state = q.state ∧ q'.pc = q.pc
      ∧ q'.waitLen = q.waitLen ∧ q'.rcv = q.rcv ∧ q'.past = q.past) :
    goesOnPast (s.resume tid uid) tid T uid := by
  intro k q hq hu hst
  obtain ⟨q', a1, a2, a3, a4, a5, a6, a7⟩ := h2 k q hq hu hst
  let g (p : Split) : Split :=
    { (if p.waitLen = 0 then { p with fell := none } else p.next p.waitLen) with state := 1, wait := .none, waitLen := 0, earliest := max p.earliest s.now }
  have hf : (s.resume tid uid).troupes.find? tid = some (U.modSplit uid fun p => if p.state = 2 then (g p).meet else p) := by
    unfold State.resume State.settle State.atAll
    simp [State.modTroupe, Tab.find?_modify_same, h1, g]
  have hm := Split.meet_eq (g q')
  have hg : (g q').pc = (if q.waitLen = 0 then q.pc else pcStep q.pc q.waitLen)
      ∧ (g q').past = (if q.waitLen = 0 then q.past else pastEnd q.pc q.waitLen) ∧ (g q').rcv = q.rcv := by
    simp only [g]
    rw [a5]
    split
    · exact ⟨a4, a7, a6⟩
    · exact ⟨by rw [a4.symm]; rfl, by rw [a4.symm]; rfl, a6⟩
  have e1 : (g q').meet.pc = (g q').pc := by rw [hm.1]
  have e2 : (g q').meet.past = (g q').past := by rw [hm.1]
  refine ⟨_, (g q').meet, hf, ?_, ?_, ?_, ?_, ?_⟩
  · rw [Troupe.find?_modSplit, a1]
    simp [a2, hu, a3, hst]
  · rw [e1, hg.1]
  · rw [e2, hg.2.1]
  · rw [hm.1]
  · rw [e1, e2, hm.2, hg.2.2]

theorem fset_fmtEntry (s : State) (core ctx tid e n : Nat) (v : DWord) (h : 16 ≤ e) :
    (s.fset core ctx tid e v).fmtEntry core ctx n = if n = e then v else s.fmtEntry core ctx n := by
  unfold State.fmtEntry
  have hf : ((s.fset core ctx tid e v).core core).fts = (s.core core).fts.put ctx ((((s.core core).fts.find? ctx).getD []).set e v) := by
    have h := State.core_modCore s.bump core core fun c =>
      { c with fts := c.fts.put ctx (((c.fts.find? ctx).getD []).set e v), echo := c.echo ++ [(ctx, e, s.tick)],
               fresh := (c.fresh.filter fun f => f.cycle = s.now) ++ [⟨ctx, e, tid, s.now, ((c.fts.find? ctx).getD []).get e⟩] }
    rw [if_pos rfl] at h
    exact congrArg Core.fts h
  rw [hf]
  by_cases h16 : n < 16
  · rw [if_pos h16, if_pos h16, if_neg (by omega)]
  · rw [if_neg h16, if_neg h16]; simp

theorem fsetAll_fmtEntry (core ctx tid e : Nat) (es : List DWord) (s : State) (h : 16 ≤ e) (n : Nat) :
    (fsetAll core ctx tid e es s).fmtEntry core ctx n = if e ≤ n ∧ n < e + es.length then es.getD (n - e) 0 else s.fmtEntry core ctx n := by
  induction es generalizing e s with
  | nil => simp only [fsetAll, List.length_nil]; rw [if_neg (by omega)]
  | cons v t ih =>
    unfold fsetAll
    rw [ih _ _ (by omega), fset_fmtEntry _ _ _ _ _ _ _ h, List.length_cons]
    by_cases h1 : n = e
    · subst h1; rw [if_neg (by omega), if_pos rfl, if_pos (by omega)]; simp
    · by_cases h2 : e + 1 ≤ n ∧ n < e + 1 + t.length
      · rw [if_pos h2, if_pos (by omega), show n - e = (n - (e + 1)) + 1 by omega]; rfl
      · rw [if_neg h2, if_neg h1, if_neg (by omega)]; rfl

/-- Writing entries changes the issuing core's copy, sends the writes, and is kept in mind by the troupe. -/
theorem fsetAll_only (core ctx tid e : Nat) (es : List DWord) (s : State) :
    (∃ tk ag cs tr, fsetAll core ctx tid e es s = { s with tick := tk, agenda := ag, cores := cs, troupes := tr })
    ∧ ∀ k T, s.troupes.find? k = some T → ∃ fs, (fsetAll core ctx tid e es s).troupes.find? k = some { T with fsets := fs } := by
  induction es generalizing e s with
  | nil => exact ⟨⟨_, _, _, _, rfl⟩, fun k T h => ⟨_, h⟩⟩
  | cons v t ih =>
    unfold fsetAll
    obtain ⟨⟨tk, ag, cs, tr, h⟩, h2⟩ := ih (e + 1) ((s.modTroupe tid fun x => x.noteFset s s.tick).fset core ctx tid e v)
    refine ⟨⟨tk, ag, cs, tr, by rw [h]; rfl⟩, fun k T hk => ?_⟩
    have : ∃ fs, ((s.modTroupe tid fun x => x.noteFset s s.tick).fset core ctx tid e v).troupes.find? k = some { T with fsets := fs } := by
      show ∃ fs, (s.troupes.modify tid fun x => x.noteFset s s.tick).find? k = some { T with fsets := fs }
      by_cases hkt : k = tid
      · subst hkt; rw [Tab.find?_modify_same, hk]; exact ⟨_, rfl⟩
      · rw [Tab.find?_modify_other _ _ hkt, hk]; exact ⟨_, rfl⟩
    obtain ⟨fs, hfs⟩ := this
    obtain ⟨gs, hgs⟩ := h2 k _ hfs
    exact ⟨gs, hgs⟩

theorem resume_only (s : State) (tid uid : Nat) : ∃ ag tr, s.resume tid uid = { s with agenda := ag, troupes := tr } := ⟨_, _, rfl⟩

end Machine

end Sys2Proof
end

