-- ==== Sys2Proof/Laws/MemoryKept.lean ====
section
/-! SUPPORT. Every operation of the model that writes memory keeps its canonical form: homes, ports, stacks, remapping and reset. -/

namespace Sys2Proof.Machine

open Sys2Proof

/-- Memory stays canonical under any sequence of writes. -/
theorem Memory.wf_foldl {α : Type} (f : Memory → α → Memory) (h : ∀ m a, wf m = true → wf (f m a) = true) (l : List α) :
    ∀ m, wf m = true → wf (l.foldl f m) = true := by
  induction l with
  | nil => exact fun _ w => w
  | cons a l ih => exact fun m w => ih _ (h m a w)

theorem State.homeWrite_wf {s : State} (pa : Nat) (bs : List Byte) (w : Memory.wf s.mem = true) :
    Memory.wf (s.homeWrite pa bs).mem = true := by
  rw [State.homeWrite_mem]; exact Memory.wf_write pa bs w

theorem State.writeBackSector_mem (s : State) (k : Nat) : (s.writeBackSector k).mem = s.mem := (writeBackSector_only s k).mem

theorem State.discardSector_wf {s : State} (k : Nat) (w : Memory.wf s.mem = true) : Memory.wf (s.discardSector k).mem = true := by
  unfold State.discardSector
  dsimp only
  split
  · rw [State.writeBackSector_mem]; exact w
  · refine Memory.wf_foldl _ (fun m a h => ?_) _ _ w
    split
    · exact Memory.wf_write _ _ h
    · exact h

theorem State.writeStackByte_wf {s : State} (pa : Nat) (b : Byte) (w : Memory.wf s.mem = true) :
    Memory.wf (s.writeStackByte pa b).mem = true := by
  unfold State.writeStackByte
  split
  · exact w
  · exact Memory.wf_write _ _ w

theorem State.scramble_wf {s : State} (m : DWord) (w : Memory.wf s.mem = true) : Memory.wf (s.scramble m).mem = true := by
  unfold State.scramble
  split
  · exact w
  · exact Memory.wf_foldl _ (fun _ _ h => Memory.wf_write _ _ h) _ _ w

theorem State.bringUp_mem (s : State) : s.bringUp.mem = s.mem := by
  unfold State.bringUp; split <;> rfl

/-- Operations that only put events on the agenda, folded over a list, keep memory. -/
theorem State.foldl_mem {α : Type} (f : State → α → State) (h : ∀ s a, (f s a).mem = s.mem) (l : List α) :
    ∀ s, (l.foldl f s).mem = s.mem := by
  induction l with
  | nil => exact fun _ => rfl
  | cons a l ih => exact fun s => (ih _).trans (h s a)

theorem State.startPeriodic_mem (s : State) : s.startPeriodic.mem = s.mem := by
  unfold State.startPeriodic
  dsimp only
  rw [State.foldl_mem _ (fun _ _ => State.atAll_mem _ _ _), State.at_mem, State.at_mem, State.foldl_mem _ (fun _ _ => State.at_mem _ _ _)]

theorem execModuleReset_wf {s t : State} (w : Memory.wf s.mem = true) (h : execModuleReset s = .next t) :
    Memory.wf t.mem = true := by
  unfold execModuleReset at h
  dsimp only at h
  split at h <;> cases h
  · rw [State.startPeriodic_mem, State.bringUp_mem]; exact Memory.wf_foldl _ (fun _ _ h => Memory.wf_write _ _ h) _ _ w
  · rw [State.bringUp_mem]; exact Memory.wf_foldl _ (fun _ _ h => Memory.wf_write _ _ h) _ _ w

end Sys2Proof.Machine
end

