-- ==== Sys2Proof/Laws/PerInstr.lean ====
section
/-! SUPPORT. The law that the decoder's table and the encoder's view of an instruction agree, constructor by constructor. -/

namespace Sys2Proof.Laws.Encodes

open Sys2Proof

/-- The opcode and fields that the encoder writes for an instruction are those from which the decoder builds it, and its
well-formedness is that of the fields (R49, R55). -/
def Statement (i : Instr) : Prop := ∀ op f, i.view = some (op, f) → ofForm op f = some i ∧ i.wellFormed = formOk op f

theorem nop : ∀ a0, Statement (.nop a0) := by
  intro a0 op f h; cases h; exact ⟨rfl, rfl⟩
theorem nopBase : ∀ a0, Statement (.nopBase a0) := by
  intro a0 op f h; cases h; exact ⟨rfl, rfl⟩
theorem bra : ∀ a0, Statement (.bra a0) := by
  intro a0 op f h; cases h; exact ⟨rfl, rfl⟩
theorem braBase : ∀ a0, Statement (.braBase a0) := by
  intro a0 op f h; cases h; exact ⟨rfl, rfl⟩
theorem brc : ∀ a0, Statement (.brc a0) := by
  intro a0 op f h; cases h; exact ⟨rfl, rfl⟩
theorem brx : ∀ a0, Statement (.brx a0) := by
  intro a0 op f h; cases h; exact ⟨rfl, rfl⟩
theorem call : ∀ a0, Statement (.call a0) := by
  intro a0 op f h; cases h; exact ⟨rfl, rfl⟩
theorem callBase : ∀ a0, Statement (.callBase a0) := by
  intro a0 op f h; cases h; exact ⟨rfl, rfl⟩
theorem callx : ∀ a0, Statement (.callx a0) := by
  intro a0 op f h; cases h; exact ⟨rfl, rfl⟩
theorem ocall : ∀ a0, Statement (.ocall a0) := by
  intro a0 op f h; cases h; exact ⟨rfl, rfl⟩
theorem ret : ∀ a0, Statement (.ret a0) := by
  intro a0 op f h; cases h; exact ⟨rfl, rfl⟩
theorem retBase : ∀ a0, Statement (.retBase a0) := by
  intro a0 op f h; cases h; exact ⟨rfl, rfl⟩
theorem exit : ∀ a0, Statement (.exit a0) := by
  intro a0 op f h; cases h; exact ⟨rfl, rfl⟩
theorem exitBase : ∀ a0, Statement (.exitBase a0) := by
  intro a0 op f h; cases h; exact ⟨rfl, rfl⟩
theorem yield : ∀ a0, Statement (.yield a0) := by
  intro a0 op f h; cases h; exact ⟨rfl, rfl⟩
theorem yieldBase : ∀ a0, Statement (.yieldBase a0) := by
  intro a0 op f h; cases h; exact ⟨rfl, rfl⟩
theorem rejoin : ∀ a0, Statement (.rejoin a0) := by
  intro a0 op f h; cases h; exact ⟨rfl, rfl⟩
theorem rejoinBase : ∀ a0, Statement (.rejoinBase a0) := by
  intro a0 op f h; cases h; exact ⟨rfl, rfl⟩
theorem full : ∀ a0, Statement (.full a0) := by
  intro a0 op f h; cases h; exact ⟨rfl, rfl⟩
theorem fullBase : ∀ a0, Statement (.fullBase a0) := by
  intro a0 op f h; cases h; exact ⟨rfl, rfl⟩
theorem endfull : ∀ a0, Statement (.endfull a0) := by
  intro a0 op f h; cases h; exact ⟨rfl, rfl⟩
theorem endfullBase : ∀ a0, Statement (.endfullBase a0) := by
  intro a0 op f h; cases h; exact ⟨rfl, rfl⟩
theorem vote : ∀ a0, Statement (.vote a0) := by
  intro a0 op f h; cases h; exact ⟨rfl, rfl⟩
theorem shfl : ∀ a0, Statement (.shfl a0) := by
  intro a0 op f h; cases h; exact ⟨rfl, rfl⟩
theorem tred : ∀ a0, Statement (.tred a0) := by
  intro a0 op f h; cases h; exact ⟨rfl, rfl⟩
theorem tredf : ∀ a0, Statement (.tredf a0) := by
  intro a0 op f h; cases h; exact ⟨rfl, rfl⟩
theorem scan : ∀ a0, Statement (.scan a0) := by
  intro a0 op f h; cases h; exact ⟨rfl, rfl⟩
theorem splq : ∀ a0, Statement (.splq a0) := by
  intro a0 op f h; cases h; exact ⟨rfl, rfl⟩
theorem splqBase : ∀ a0, Statement (.splqBase a0) := by
  intro a0 op f h; cases h; exact ⟨rfl, rfl⟩
theorem mov : ∀ a0, Statement (.mov a0) := by
  intro a0 op f h; cases h; exact ⟨rfl, rfl⟩
theorem movBase : ∀ a0, Statement (.movBase a0) := by
  intro a0 op f h; cases h; exact ⟨rfl, rfl⟩
theorem movi : ∀ a0, Statement (.movi a0) := by
  intro a0 op f h; cases h; exact ⟨rfl, rfl⟩
theorem moviBase : ∀ a0, Statement (.moviBase a0) := by
  intro a0 op f h; cases h; exact ⟨rfl, rfl⟩
theorem iadd : ∀ a0, Statement (.iadd a0) := by
  intro a0 op f h; cases h; exact ⟨rfl, rfl⟩
theorem iaddBase : ∀ a0, Statement (.iaddBase a0) := by
  intro a0 op f h; cases h; exact ⟨rfl, rfl⟩
theorem isub : ∀ a0, Statement (.isub a0) := by
  intro a0 op f h; cases h; exact ⟨rfl, rfl⟩
theorem isubBase : ∀ a0, Statement (.isubBase a0) := by
  intro a0 op f h; cases h; exact ⟨rfl, rfl⟩
theorem iaddc : ∀ a0, Statement (.iaddc a0) := by
  intro a0 op f h; cases h; exact ⟨rfl, rfl⟩
theorem isubb : ∀ a0, Statement (.isubb a0) := by
  intro a0 op f h; cases h; exact ⟨rfl, rfl⟩
theorem imul : ∀ a0, Statement (.imul a0) := by
  intro a0 op f h; cases h; exact ⟨rfl, rfl⟩
theorem imulBase : ∀ a0, Statement (.imulBase a0) := by
  intro a0 op f h; cases h; exact ⟨rfl, rfl⟩
theorem imulh : ∀ a0, Statement (.imulh a0) := by
  intro a0 op f h; cases h; exact ⟨rfl, rfl⟩
theorem imulhBase : ∀ a0, Statement (.imulhBase a0) := by
  intro a0 op f h; cases h; exact ⟨rfl, rfl⟩
theorem imulw : ∀ a0, Statement (.imulw a0) := by
  intro a0 op f h; cases h; exact ⟨rfl, rfl⟩
theorem imulwBase : ∀ a0, Statement (.imulwBase a0) := by
  intro a0 op f h; cases h; exact ⟨rfl, rfl⟩
theorem imad : ∀ a0, Statement (.imad a0) := by
  intro a0 op f h; cases h; exact ⟨rfl, rfl⟩
theorem isad : ∀ a0, Statement (.isad a0) := by
  intro a0 op f h; cases h; exact ⟨rfl, rfl⟩
theorem imin : ∀ a0, Statement (.imin a0) := by
  intro a0 op f h; cases h; exact ⟨rfl, rfl⟩
theorem iminBase : ∀ a0, Statement (.iminBase a0) := by
  intro a0 op f h; cases h; exact ⟨rfl, rfl⟩
theorem imax : ∀ a0, Statement (.imax a0) := by
  intro a0 op f h; cases h; exact ⟨rfl, rfl⟩
theorem imaxBase : ∀ a0, Statement (.imaxBase a0) := by
  intro a0 op f h; cases h; exact ⟨rfl, rfl⟩
theorem iabs : ∀ a0, Statement (.iabs a0) := by
  intro a0 op f h; cases h; exact ⟨rfl, rfl⟩
theorem iabsBase : ∀ a0, Statement (.iabsBase a0) := by
  intro a0 op f h; cases h; exact ⟨rfl, rfl⟩
theorem ineg : ∀ a0, Statement (.ineg a0) := by
  intro a0 op f h; cases h; exact ⟨rfl, rfl⟩
theorem inegBase : ∀ a0, Statement (.inegBase a0) := by
  intro a0 op f h; cases h; exact ⟨rfl, rfl⟩
theorem icmp : ∀ a0, Statement (.icmp a0) := by
  intro a0 op f h; cases h; exact ⟨rfl, rfl⟩
theorem sel : ∀ a0, Statement (.sel a0) := by
  intro a0 op f h; cases h; exact ⟨rfl, rfl⟩
theorem and : ∀ a0, Statement (.and a0) := by
  intro a0 op f h; cases h; exact ⟨rfl, rfl⟩
theorem andBase : ∀ a0, Statement (.andBase a0) := by
  intro a0 op f h; cases h; exact ⟨rfl, rfl⟩
theorem or : ∀ a0, Statement (.or a0) := by
  intro a0 op f h; cases h; exact ⟨rfl, rfl⟩
theorem orBase : ∀ a0, Statement (.orBase a0) := by
  intro a0 op f h; cases h; exact ⟨rfl, rfl⟩
theorem xor : ∀ a0, Statement (.xor a0) := by
  intro a0 op f h; cases h; exact ⟨rfl, rfl⟩
theorem xorBase : ∀ a0, Statement (.xorBase a0) := by
  intro a0 op f h; cases h; exact ⟨rfl, rfl⟩
theorem not : ∀ a0, Statement (.not a0) := by
  intro a0 op f h; cases h; exact ⟨rfl, rfl⟩
theorem notBase : ∀ a0, Statement (.notBase a0) := by
  intro a0 op f h; cases h; exact ⟨rfl, rfl⟩
theorem andn : ∀ a0, Statement (.andn a0) := by
  intro a0 op f h; cases h; exact ⟨rfl, rfl⟩
theorem andnBase : ∀ a0, Statement (.andnBase a0) := by
  intro a0 op f h; cases h; exact ⟨rfl, rfl⟩
theorem bsel : ∀ a0, Statement (.bsel a0) := by
  intro a0 op f h; cases h; exact ⟨rfl, rfl⟩
theorem logic3 : ∀ a0, Statement (.logic3 a0) := by
  intro a0 op f h; cases h; exact ⟨rfl, rfl⟩
theorem shl : ∀ a0, Statement (.shl a0) := by
  intro a0 op f h; cases h; exact ⟨rfl, rfl⟩
theorem shlBase : ∀ a0, Statement (.shlBase a0) := by
  intro a0 op f h; cases h; exact ⟨rfl, rfl⟩
theorem shr : ∀ a0, Statement (.shr a0) := by
  intro a0 op f h; cases h; exact ⟨rfl, rfl⟩
theorem shrBase : ∀ a0, Statement (.shrBase a0) := by
  intro a0 op f h; cases h; exact ⟨rfl, rfl⟩
theorem sar : ∀ a0, Statement (.sar a0) := by
  intro a0 op f h; cases h; exact ⟨rfl, rfl⟩
theorem sarBase : ∀ a0, Statement (.sarBase a0) := by
  intro a0 op f h; cases h; exact ⟨rfl, rfl⟩
theorem rot : ∀ a0, Statement (.rot a0) := by
  intro a0 op f h; cases h; exact ⟨rfl, rfl⟩
theorem rotBase : ∀ a0, Statement (.rotBase a0) := by
  intro a0 op f h; cases h; exact ⟨rfl, rfl⟩
theorem popc : ∀ a0, Statement (.popc a0) := by
  intro a0 op f h; cases h; exact ⟨rfl, rfl⟩
theorem popcBase : ∀ a0, Statement (.popcBase a0) := by
  intro a0 op f h; cases h; exact ⟨rfl, rfl⟩
theorem clz : ∀ a0, Statement (.clz a0) := by
  intro a0 op f h; cases h; exact ⟨rfl, rfl⟩
theorem clzBase : ∀ a0, Statement (.clzBase a0) := by
  intro a0 op f h; cases h; exact ⟨rfl, rfl⟩
theorem ctz : ∀ a0, Statement (.ctz a0) := by
  intro a0 op f h; cases h; exact ⟨rfl, rfl⟩
theorem ctzBase : ∀ a0, Statement (.ctzBase a0) := by
  intro a0 op f h; cases h; exact ⟨rfl, rfl⟩
theorem brev : ∀ a0, Statement (.brev a0) := by
  intro a0 op f h; cases h; exact ⟨rfl, rfl⟩
theorem brevBase : ∀ a0, Statement (.brevBase a0) := by
  intro a0 op f h; cases h; exact ⟨rfl, rfl⟩
theorem bfx : ∀ a0, Statement (.bfx a0) := by
  intro a0 op f h; cases h; exact ⟨rfl, rfl⟩
theorem bfi : ∀ a0, Statement (.bfi a0) := by
  intro a0 op f h; cases h; exact ⟨rfl, rfl⟩
theorem perm : ∀ a0, Statement (.perm a0) := by
  intro a0 op f h; cases h; exact ⟨rfl, rfl⟩
theorem permBase : ∀ a0, Statement (.permBase a0) := by
  intro a0 op f h; cases h; exact ⟨rfl, rfl⟩
theorem sext : ∀ a0, Statement (.sext a0) := by
  intro a0 op f h; cases h; exact ⟨rfl, rfl⟩
theorem zext : ∀ a0, Statement (.zext a0) := by
  intro a0 op f h; cases h; exact ⟨rfl, rfl⟩
theorem lea : ∀ a0, Statement (.lea a0) := by
  intro a0 op f h; cases h; exact ⟨rfl, rfl⟩
theorem xset : ∀ a0, Statement (.xset a0) := by
  intro a0 op f h; cases h; exact ⟨rfl, rfl⟩
theorem xbnd : ∀ a0, Statement (.xbnd a0) := by
  intro a0 op f h; cases h; exact ⟨rfl, rfl⟩
theorem smov : ∀ a0, Statement (.smov a0) := by
  intro a0 op f h; cases h; exact ⟨rfl, rfl⟩
theorem smovBase : ∀ a0, Statement (.smovBase a0) := by
  intro a0 op f h; cases h; exact ⟨rfl, rfl⟩
theorem gmov : ∀ a0, Statement (.gmov a0) := by
  intro a0 op f h; cases h; exact ⟨rfl, rfl⟩
theorem vtos : ∀ a0, Statement (.vtos a0) := by
  intro a0 op f h; cases h; exact ⟨rfl, rfl⟩
theorem stov : ∀ a0, Statement (.stov a0) := by
  intro a0 op f h; cases h; exact ⟨rfl, rfl⟩
theorem stovBase : ∀ a0, Statement (.stovBase a0) := by
  intro a0 op f h; cases h; exact ⟨rfl, rfl⟩
theorem plog : ∀ a0, Statement (.plog a0) := by
  intro a0 op f h; cases h; exact ⟨rfl, rfl⟩
theorem pmov : ∀ a0, Statement (.pmov a0) := by
  intro a0 op f h; cases h; exact ⟨rfl, rfl⟩
theorem fset : ∀ a0, Statement (.fset a0) := by
  intro a0 op f h; cases h; exact ⟨rfl, rfl⟩
theorem fget : ∀ a0, Statement (.fget a0) := by
  intro a0 op f h; cases h; exact ⟨rfl, rfl⟩
theorem fsave : ∀ a0, Statement (.fsave a0) := by
  intro a0 op f h; cases h; exact ⟨rfl, rfl⟩
theorem fload : ∀ a0, Statement (.fload a0) := by
  intro a0 op f h; cases h; exact ⟨rfl, rfl⟩
theorem cvt : ∀ a0, Statement (.cvt a0) := by
  intro a0 op f h; cases h; exact ⟨rfl, rfl⟩
theorem cvtsr : ∀ a0, Statement (.cvtsr a0) := by
  intro a0 op f h; cases h; exact ⟨rfl, rfl⟩
theorem pack : ∀ a0, Statement (.pack a0) := by
  intro a0 op f h; cases h; exact ⟨rfl, rfl⟩
theorem unpack : ∀ a0, Statement (.unpack a0) := by
  intro a0 op f h; cases h; exact ⟨rfl, rfl⟩
theorem fadd : ∀ a0, Statement (.fadd a0) := by
  intro a0 op f h; cases h; exact ⟨rfl, rfl⟩
theorem faddBase : ∀ a0, Statement (.faddBase a0) := by
  intro a0 op f h; cases h; exact ⟨rfl, rfl⟩
theorem fsub : ∀ a0, Statement (.fsub a0) := by
  intro a0 op f h; cases h; exact ⟨rfl, rfl⟩
theorem fsubBase : ∀ a0, Statement (.fsubBase a0) := by
  intro a0 op f h; cases h; exact ⟨rfl, rfl⟩
theorem fmul : ∀ a0, Statement (.fmul a0) := by
  intro a0 op f h; cases h; exact ⟨rfl, rfl⟩
theorem fmulBase : ∀ a0, Statement (.fmulBase a0) := by
  intro a0 op f h; cases h; exact ⟨rfl, rfl⟩
theorem ffma : ∀ a0, Statement (.ffma a0) := by
  intro a0 op f h; cases h; exact ⟨rfl, rfl⟩
theorem fmin : ∀ a0, Statement (.fmin a0) := by
  intro a0 op f h; cases h; exact ⟨rfl, rfl⟩
theorem fminBase : ∀ a0, Statement (.fminBase a0) := by
  intro a0 op f h; cases h; exact ⟨rfl, rfl⟩
theorem fmax : ∀ a0, Statement (.fmax a0) := by
  intro a0 op f h; cases h; exact ⟨rfl, rfl⟩
theorem fmaxBase : ∀ a0, Statement (.fmaxBase a0) := by
  intro a0 op f h; cases h; exact ⟨rfl, rfl⟩
theorem fabs : ∀ a0, Statement (.fabs a0) := by
  intro a0 op f h; cases h; exact ⟨rfl, rfl⟩
theorem fabsBase : ∀ a0, Statement (.fabsBase a0) := by
  intro a0 op f h; cases h; exact ⟨rfl, rfl⟩
theorem fclamp : ∀ a0, Statement (.fclamp a0) := by
  intro a0 op f h; cases h; exact ⟨rfl, rfl⟩
theorem fcmp : ∀ a0, Statement (.fcmp a0) := by
  intro a0 op f h; cases h; exact ⟨rfl, rfl⟩
theorem fclass : ∀ a0, Statement (.fclass a0) := by
  intro a0 op f h; cases h; exact ⟨rfl, rfl⟩
theorem frnd : ∀ a0, Statement (.frnd a0) := by
  intro a0 op f h; cases h; exact ⟨rfl, rfl⟩
theorem fscale : ∀ a0, Statement (.fscale a0) := by
  intro a0 op f h; cases h; exact ⟨rfl, rfl⟩
theorem fscaleBase : ∀ a0, Statement (.fscaleBase a0) := by
  intro a0 op f h; cases h; exact ⟨rfl, rfl⟩
theorem fdot2 : ∀ a0, Statement (.fdot2 a0) := by
  intro a0 op f h; cases h; exact ⟨rfl, rfl⟩
theorem fcpsgn : ∀ a0, Statement (.fcpsgn a0) := by
  intro a0 op f h; cases h; exact ⟨rfl, rfl⟩
theorem fcpsgnBase : ∀ a0, Statement (.fcpsgnBase a0) := by
  intro a0 op f h; cases h; exact ⟨rfl, rfl⟩
theorem fgetexp : ∀ a0, Statement (.fgetexp a0) := by
  intro a0 op f h; cases h; exact ⟨rfl, rfl⟩
theorem fgetexpBase : ∀ a0, Statement (.fgetexpBase a0) := by
  intro a0 op f h; cases h; exact ⟨rfl, rfl⟩
theorem fgetman : ∀ a0, Statement (.fgetman a0) := by
  intro a0 op f h; cases h; exact ⟨rfl, rfl⟩
theorem fgetmanBase : ∀ a0, Statement (.fgetmanBase a0) := by
  intro a0 op f h; cases h; exact ⟨rfl, rfl⟩
theorem frcp : ∀ a0, Statement (.frcp a0) := by
  intro a0 op f h; cases h; exact ⟨rfl, rfl⟩
theorem frcpBase : ∀ a0, Statement (.frcpBase a0) := by
  intro a0 op f h; cases h; exact ⟨rfl, rfl⟩
theorem frsq : ∀ a0, Statement (.frsq a0) := by
  intro a0 op f h; cases h; exact ⟨rfl, rfl⟩
theorem frsqBase : ∀ a0, Statement (.frsqBase a0) := by
  intro a0 op f h; cases h; exact ⟨rfl, rfl⟩
theorem fsqrt : ∀ a0, Statement (.fsqrt a0) := by
  intro a0 op f h; cases h; exact ⟨rfl, rfl⟩
theorem fsqrtBase : ∀ a0, Statement (.fsqrtBase a0) := by
  intro a0 op f h; cases h; exact ⟨rfl, rfl⟩
theorem fexp2 : ∀ a0, Statement (.fexp2 a0) := by
  intro a0 op f h; cases h; exact ⟨rfl, rfl⟩
theorem fexp2Base : ∀ a0, Statement (.fexp2Base a0) := by
  intro a0 op f h; cases h; exact ⟨rfl, rfl⟩
theorem flog2 : ∀ a0, Statement (.flog2 a0) := by
  intro a0 op f h; cases h; exact ⟨rfl, rfl⟩
theorem flog2Base : ∀ a0, Statement (.flog2Base a0) := by
  intro a0 op f h; cases h; exact ⟨rfl, rfl⟩
theorem fsinpi : ∀ a0, Statement (.fsinpi a0) := by
  intro a0 op f h; cases h; exact ⟨rfl, rfl⟩
theorem fsinpiBase : ∀ a0, Statement (.fsinpiBase a0) := by
  intro a0 op f h; cases h; exact ⟨rfl, rfl⟩
theorem fcospi : ∀ a0, Statement (.fcospi a0) := by
  intro a0 op f h; cases h; exact ⟨rfl, rfl⟩
theorem fcospiBase : ∀ a0, Statement (.fcospiBase a0) := by
  intro a0 op f h; cases h; exact ⟨rfl, rfl⟩
theorem aclaim : ∀ a0, Statement (.aclaim a0) := by
  intro a0 op f h; cases h; exact ⟨rfl, rfl⟩
theorem arel : ∀ a0, Statement (.arel a0) := by
  intro a0 op f h; cases h; exact ⟨rfl, rfl⟩
theorem bclaim : ∀ a0, Statement (.bclaim a0) := by
  intro a0 op f h; cases h; exact ⟨rfl, rfl⟩
theorem brel : ∀ a0, Statement (.brel a0) := by
  intro a0 op f h; cases h; exact ⟨rfl, rfl⟩
theorem opld : ∀ a0, Statement (.opld a0) := by
  intro a0 op f h; cases h; exact ⟨rfl, rfl⟩
theorem mma : ∀ a0, Statement (.mma a0) := by
  intro a0 op f h; cases h; exact ⟨rfl, rfl⟩
theorem mmasp : ∀ a0, Statement (.mmasp a0) := by
  intro a0 op f h; cases h; exact ⟨rfl, rfl⟩
theorem mmaco : ∀ a0, Statement (.mmaco a0) := by
  intro a0 op f h; cases h; exact ⟨rfl, rfl⟩
theorem acczero : ∀ a0, Statement (.acczero a0) := by
  intro a0 op f h; cases h; exact ⟨rfl, rfl⟩
theorem accrd : ∀ a0, Statement (.accrd a0) := by
  intro a0 op f h; cases h; exact ⟨rfl, rfl⟩
theorem accwr : ∀ a0, Statement (.accwr a0) := by
  intro a0 op f h; cases h; exact ⟨rfl, rfl⟩
theorem accfree : ∀ a0, Statement (.accfree a0) := by
  intro a0 op f h; cases h; exact ⟨rfl, rfl⟩
theorem sld : ∀ a0, Statement (.sld a0) := by
  intro a0 op f h; cases h; exact ⟨rfl, rfl⟩
theorem sst : ∀ a0, Statement (.sst a0) := by
  intro a0 op f h; cases h; exact ⟨rfl, rfl⟩
theorem sgath : ∀ a0, Statement (.sgath a0) := by
  intro a0 op f h; cases h; exact ⟨rfl, rfl⟩
theorem sfill : ∀ a0, Statement (.sfill a0) := by
  intro a0 op f h; cases h; exact ⟨rfl, rfl⟩
theorem wbind : ∀ a0, Statement (.wbind a0) := by
  intro a0 op f h; cases h; exact ⟨rfl, rfl⟩
theorem wset : ∀ a0, Statement (.wset a0) := by
  intro a0 op f h; cases h; exact ⟨rfl, rfl⟩
theorem touch : ∀ a0, Statement (.touch a0) := by
  intro a0 op f h; cases h; exact ⟨rfl, rfl⟩
theorem wrel : ∀ a0, Statement (.wrel a0) := by
  intro a0 op f h; cases h; exact ⟨rfl, rfl⟩
theorem wstat : ∀ a0, Statement (.wstat a0) := by
  intro a0 op f h; cases h; exact ⟨rfl, rfl⟩
theorem bcommit : ∀ a0, Statement (.bcommit a0) := by
  intro a0 op f h; cases h; exact ⟨rfl, rfl⟩
theorem bwait : ∀ a0, Statement (.bwait a0) := by
  intro a0 op f h; cases h; exact ⟨rfl, rfl⟩
theorem tbinit : ∀ a0, Statement (.tbinit a0) := by
  intro a0 op f h; cases h; exact ⟨rfl, rfl⟩
theorem tbarr : ∀ a0, Statement (.tbarr a0) := by
  intro a0 op f h; cases h; exact ⟨rfl, rfl⟩
theorem tbexp : ∀ a0, Statement (.tbexp a0) := by
  intro a0 op f h; cases h; exact ⟨rfl, rfl⟩
theorem tbwait : ∀ a0, Statement (.tbwait a0) := by
  intro a0 op f h; cases h; exact ⟨rfl, rfl⟩
theorem ld : ∀ a0, Statement (.ld a0) := by
  intro a0 op f h; cases h; exact ⟨rfl, rfl⟩
theorem st : ∀ a0, Statement (.st a0) := by
  intro a0 op f h; cases h; exact ⟨rfl, rfl⟩
theorem ldg : ∀ a0, Statement (.ldg a0) := by
  intro a0 op f h; cases h; exact ⟨rfl, rfl⟩
theorem stg : ∀ a0, Statement (.stg a0) := by
  intro a0 op f h; cases h; exact ⟨rfl, rfl⟩
theorem ldc : ∀ a0, Statement (.ldc a0) := by
  intro a0 op f h; cases h; exact ⟨rfl, rfl⟩
theorem atom : ∀ a0, Statement (.atom a0) := by
  intro a0 op f h; cases h; exact ⟨rfl, rfl⟩
theorem ared : ∀ a0, Statement (.ared a0) := by
  intro a0 op f h; cases h; exact ⟨rfl, rfl⟩
theorem atomx : ∀ a0, Statement (.atomx a0) := by
  intro a0 op f h; cases h; exact ⟨rfl, rfl⟩
theorem pref : ∀ a0, Statement (.pref a0) := by
  intro a0 op f h; cases h; exact ⟨rfl, rfl⟩
theorem inval : ∀ a0, Statement (.inval a0) := by
  intro a0 op f h; cases h; exact ⟨rfl, rfl⟩
theorem sbind : ∀ a0, Statement (.sbind a0) := by
  intro a0 op f h; cases h; exact ⟨rfl, rfl⟩
theorem sunbind : ∀ a0, Statement (.sunbind a0) := by
  intro a0 op f h; cases h; exact ⟨rfl, rfl⟩
theorem acq : ∀ a0, Statement (.acq a0) := by
  intro a0 op f h; cases h; exact ⟨rfl, rfl⟩
theorem rel : ∀ a0, Statement (.rel a0) := by
  intro a0 op f h; cases h; exact ⟨rfl, rfl⟩
theorem fence : ∀ a0, Statement (.fence a0) := by
  intro a0 op f h; cases h; exact ⟨rfl, rfl⟩
theorem spawn : ∀ a0, Statement (.spawn a0) := by
  intro a0 op f h; cases h; exact ⟨rfl, rfl⟩
theorem join : ∀ a0, Statement (.join a0) := by
  intro a0 op f h; cases h; exact ⟨rfl, rfl⟩
theorem trig : ∀ a0, Statement (.trig a0) := by
  intro a0 op f h; cases h; exact ⟨rfl, rfl⟩
theorem park : ∀ a0, Statement (.park a0) := by
  intro a0 op f h; cases h; exact ⟨rfl, rfl⟩
theorem qsig : ∀ a0, Statement (.qsig a0) := by
  intro a0 op f h; cases h; exact ⟨rfl, rfl⟩
theorem ovld : ∀ a0, Statement (.ovld a0) := by
  intro a0 op f h; cases h; exact ⟨rfl, rfl⟩
theorem cuearm : ∀ a0, Statement (.cuearm a0) := by
  intro a0 op f h; cases h; exact ⟨rfl, rfl⟩
theorem cue : ∀ a0, Statement (.cue a0) := by
  intro a0 op f h; cases h; exact ⟨rfl, rfl⟩
theorem cuewait : ∀ a0, Statement (.cuewait a0) := by
  intro a0 op f h; cases h; exact ⟨rfl, rfl⟩
theorem gdset : ∀ a0, Statement (.gdset a0) := by
  intro a0 op f h; cases h; exact ⟨rfl, rfl⟩
theorem gdclr : ∀ a0, Statement (.gdclr a0) := by
  intro a0 op f h; cases h; exact ⟨rfl, rfl⟩
theorem trap : ∀ a0, Statement (.trap a0) := by
  intro a0 op f h; cases h; exact ⟨rfl, rfl⟩
theorem sysc : ∀ a0, Statement (.sysc a0) := by
  intro a0 op f h; cases h; exact ⟨rfl, rfl⟩
theorem tret : ∀ a0, Statement (.tret a0) := by
  intro a0 op f h; cases h; exact ⟨rfl, rfl⟩
theorem tretBase : ∀ a0, Statement (.tretBase a0) := by
  intro a0 op f h; cases h; exact ⟨rfl, rfl⟩
theorem rdsr : ∀ a0, Statement (.rdsr a0) := by
  intro a0 op f h; cases h; exact ⟨rfl, rfl⟩
theorem wrsr : ∀ a0, Statement (.wrsr a0) := by
  intro a0 op f h; cases h; exact ⟨rfl, rfl⟩
theorem bkpt : ∀ a0, Statement (.bkpt a0) := by
  intro a0 op f h; cases h; exact ⟨rfl, rfl⟩
theorem bkptBase : ∀ a0, Statement (.bkptBase a0) := by
  intro a0 op f h; cases h; exact ⟨rfl, rfl⟩
theorem halt : ∀ a0, Statement (.halt a0) := by
  intro a0 op f h; cases h; exact ⟨rfl, rfl⟩
theorem haltBase : ∀ a0, Statement (.haltBase a0) := by
  intro a0 op f h; cases h; exact ⟨rfl, rfl⟩
theorem rdcyc : ∀ a0, Statement (.rdcyc a0) := by
  intro a0 op f h; cases h; exact ⟨rfl, rfl⟩
theorem rdcycBase : ∀ a0, Statement (.rdcycBase a0) := by
  intro a0 op f h; cases h; exact ⟨rfl, rfl⟩
theorem rdnrg : ∀ a0, Statement (.rdnrg a0) := by
  intro a0 op f h; cases h; exact ⟨rfl, rfl⟩
theorem rdnrgBase : ∀ a0, Statement (.rdnrgBase a0) := by
  intro a0 op f h; cases h; exact ⟨rfl, rfl⟩
theorem rdid : ∀ a0, Statement (.rdid a0) := by
  intro a0 op f h; cases h; exact ⟨rfl, rfl⟩
theorem tlbinv : ∀ a0, Statement (.tlbinv a0) := by
  intro a0 op f h; cases h; exact ⟨rfl, rfl⟩
theorem undefinedInstruction : ∀ a0, Statement (.undefinedInstruction a0) := by
  intro a0 op f h; cases h
theorem fetchBeyondOverlay : ∀ a0, Statement (.fetchBeyondOverlay a0) := by
  intro a0 op f h; cases h
theorem fetchOverlayAbsent : Statement .fetchOverlayAbsent := by
  intro op f h; cases h
theorem fixedLatencyWrite : ∀ a0 a1, Statement (.fixedLatencyWrite a0 a1) := by
  intro a0 a1 op f h; cases h
theorem scoreboardResultWrite : ∀ a0 a1, Statement (.scoreboardResultWrite a0 a1) := by
  intro a0 a1 op f h; cases h
theorem loadSectorReturn : ∀ a0 a1, Statement (.loadSectorReturn a0 a1) := by
  intro a0 a1 op f h; cases h
theorem storeAcknowledge : ∀ a0 a1, Statement (.storeAcknowledge a0 a1) := by
  intro a0 a1 op f h; cases h
theorem reconvergenceFusion : ∀ a0, Statement (.reconvergenceFusion a0) := by
  intro a0 op f h; cases h
theorem rejoinRelease : ∀ a0, Statement (.rejoinRelease a0) := by
  intro a0 op f h; cases h
theorem splitSwapBack : ∀ a0, Statement (.splitSwapBack a0) := by
  intro a0 op f h; cases h
theorem splitExchange : ∀ a0, Statement (.splitExchange a0) := by
  intro a0 op f h; cases h
theorem troupeEnd : ∀ a0, Statement (.troupeEnd a0) := by
  intro a0 op f h; cases h
theorem imageLoad : ∀ a0 a1 a2, Statement (.imageLoad a0 a1 a2) := by
  intro a0 a1 a2 op f h; cases h
theorem ovldCopyComplete : ∀ a0, Statement (.ovldCopyComplete a0) := by
  intro a0 op f h; cases h
theorem shootdownAcknowledge : ∀ a0 a1, Statement (.shootdownAcknowledge a0 a1) := by
  intro a0 a1 op f h; cases h
theorem formatWriteAtHome : ∀ a0 a1 a2 a3 a4, Statement (.formatWriteAtHome a0 a1 a2 a3 a4) := by
  intro a0 a1 a2 a3 a4 op f h; cases h
theorem formatBroadcastApply : ∀ a0 a1 a2 a3 a4, Statement (.formatBroadcastApply a0 a1 a2 a3 a4) := by
  intro a0 a1 a2 a3 a4 op f h; cases h
theorem matrixTileReady : ∀ a0 a1, Statement (.matrixTileReady a0 a1) := by
  intro a0 a1 op f h; cases h
theorem opldComplete : ∀ a0, Statement (.opldComplete a0) := by
  intro a0 op f h; cases h
theorem mmacoStart : ∀ a0 a1, Statement (.mmacoStart a0 a1) := by
  intro a0 a1 op f h; cases h
theorem copyStart : ∀ a0, Statement (.copyStart a0) := by
  intro a0 op f h; cases h
theorem sectorLanding : ∀ a0 a1, Statement (.sectorLanding a0 a1) := by
  intro a0 a1 op f h; cases h
theorem tbwaitWake : ∀ a0 a1, Statement (.tbwaitWake a0 a1) := by
  intro a0 a1 op f h; cases h
theorem sfillComplete : ∀ a0, Statement (.sfillComplete a0) := by
  intro a0 op f h; cases h
theorem reduceContribution : ∀ a0 a1, Statement (.reduceContribution a0 a1) := by
  intro a0 a1 op f h; cases h
theorem reduceRetry : ∀ a0 a1, Statement (.reduceRetry a0 a1) := by
  intro a0 a1 op f h; cases h
theorem faultRecordWrite : ∀ a0, Statement (.faultRecordWrite a0) := by
  intro a0 op f h; cases h
theorem frplyReplay : ∀ a0 a1, Statement (.frplyReplay a0 a1) := by
  intro a0 a1 op f h; cases h
theorem frplyRaise : ∀ a0 a1, Statement (.frplyRaise a0 a1) := by
  intro a0 a1 op f h; cases h
theorem parkedReplay : ∀ a0, Statement (.parkedReplay a0) := by
  intro a0 op f h; cases h
theorem fqheadWrite : ∀ a0 a1, Statement (.fqheadWrite a0 a1) := by
  intro a0 a1 op f h; cases h
theorem acqWaitSuccess : ∀ a0, Statement (.acqWaitSuccess a0) := by
  intro a0 op f h; cases h
theorem acqPoll : ∀ a0, Statement (.acqPoll a0) := by
  intro a0 op f h; cases h
theorem doorbell : ∀ a0, Statement (.doorbell a0) := by
  intro a0 op f h; cases h
theorem queueMap : ∀ a0, Statement (.queueMap a0) := by
  intro a0 op f h; cases h
theorem launchPacket : ∀ a0, Statement (.launchPacket a0) := by
  intro a0 op f h; cases h
theorem waitPacket : ∀ a0, Statement (.waitPacket a0) := by
  intro a0 op f h; cases h
theorem signalPacket : ∀ a0, Statement (.signalPacket a0) := by
  intro a0 op f h; cases h
theorem nopPacket : ∀ a0, Statement (.nopPacket a0) := by
  intro a0 op f h; cases h
theorem formatPreloadPacket : ∀ a0, Statement (.formatPreloadPacket a0) := by
  intro a0 op f h; cases h
theorem waitPacketReevaluate : ∀ a0, Statement (.waitPacketReevaluate a0) := by
  intro a0 op f h; cases h
theorem launchStart : ∀ a0, Statement (.launchStart a0) := by
  intro a0 op f h; cases h
theorem productionRetire : ∀ a0, Statement (.productionRetire a0) := by
  intro a0 op f h; cases h
theorem energyIntervalStart : ∀ a0, Statement (.energyIntervalStart a0) := by
  intro a0 op f h; cases h
theorem priorityAging : ∀ a0, Statement (.priorityAging a0) := by
  intro a0 op f h; cases h
theorem ensemblePlacement : ∀ a0, Statement (.ensemblePlacement a0) := by
  intro a0 op f h; cases h
theorem greenRoomTransfer : ∀ a0, Statement (.greenRoomTransfer a0) := by
  intro a0 op f h; cases h
theorem cuearmAtDesk : ∀ a0 a1 a2 a3 a4, Statement (.cuearmAtDesk a0 a1 a2 a3 a4) := by
  intro a0 a1 a2 a3 a4 op f h; cases h
theorem cueBroadcast : ∀ a0 a1 a2, Statement (.cueBroadcast a0 a1 a2) := by
  intro a0 a1 a2 op f h; cases h
theorem cueCopyWrite : ∀ a0 a1 a2 a3 a4, Statement (.cueCopyWrite a0 a1 a2 a3 a4) := by
  intro a0 a1 a2 a3 a4 op f h; cases h
theorem cueTouchFire : ∀ a0 a1, Statement (.cueTouchFire a0 a1) := by
  intro a0 a1 op f h; cases h
theorem cueArrFire : ∀ a0 a1, Statement (.cueArrFire a0 a1) := by
  intro a0 a1 op f h; cases h
theorem cueGuardFire : ∀ a0 a1, Statement (.cueGuardFire a0 a1) := by
  intro a0 a1 op f h; cases h
theorem cuewaitFire : ∀ a0 a1, Statement (.cuewaitFire a0 a1) := by
  intro a0 a1 op f h; cases h
theorem contextSwitch : ∀ a0 a1, Statement (.contextSwitch a0 a1) := by
  intro a0 a1 op f h; cases h
theorem autoSwitch : ∀ a0, Statement (.autoSwitch a0) := by
  intro a0 op f h; cases h
theorem stop : ∀ a0 a1, Statement (.stop a0 a1) := by
  intro a0 a1 op f h; cases h
theorem captureComplete : ∀ a0, Statement (.captureComplete a0) := by
  intro a0 op f h; cases h
theorem checkpointCut : ∀ a0, Statement (.checkpointCut a0) := by
  intro a0 op f h; cases h
theorem unitStreamed : ∀ a0, Statement (.unitStreamed a0) := by
  intro a0 op f h; cases h
theorem cutCommit : ∀ a0, Statement (.cutCommit a0) := by
  intro a0 op f h; cases h
theorem resumption : ∀ a0, Statement (.resumption a0) := by
  intro a0 op f h; cases h
theorem coreFence : ∀ a0, Statement (.coreFence a0) := by
  intro a0 op f h; cases h
theorem savecostUpdate : ∀ a0, Statement (.savecostUpdate a0) := by
  intro a0 op f h; cases h
theorem mapcmdCommit : ∀ a0, Statement (.mapcmdCommit a0) := by
  intro a0 op f h; cases h
theorem mapCheckComplete : Statement .mapCheckComplete := by
  intro op f h; cases h
theorem eccUncorrectable : ∀ a0 a1, Statement (.eccUncorrectable a0 a1) := by
  intro a0 a1 op f h; cases h
theorem fclrWrite : ∀ a0 a1, Statement (.fclrWrite a0 a1) := by
  intro a0 a1 op f h; cases h
theorem refreshHeartbeat : ∀ a0, Statement (.refreshHeartbeat a0) := by
  intro a0 op f h; cases h
theorem refreshTakeover : ∀ a0, Statement (.refreshTakeover a0) := by
  intro a0 op f h; cases h
theorem baseDieReset : ∀ a0, Statement (.baseDieReset a0) := by
  intro a0 op f h; cases h
theorem scrub : ∀ a0, Statement (.scrub a0) := by
  intro a0 op f h; cases h
theorem flitNak : ∀ a0 a1, Statement (.flitNak a0 a1) := by
  intro a0 a1 op f h; cases h
theorem linkRetrainComplete : ∀ a0 a1, Statement (.linkRetrainComplete a0 a1) := by
  intro a0 a1 op f h; cases h
theorem lnkctlRetrain : ∀ a0, Statement (.lnkctlRetrain a0) := by
  intro a0 op f h; cases h
theorem helyelRead : ∀ a0 a1 a2 a3 a4, Statement (.helyelRead a0 a1 a2 a3 a4) := by
  intro a0 a1 a2 a3 a4 op f h; cases h
theorem helyelWrite : ∀ a0 a1 a2 a3 a4 a5, Statement (.helyelWrite a0 a1 a2 a3 a4 a5) := by
  intro a0 a1 a2 a3 a4 a5 op f h; cases h
theorem helyelAtomicAdd : ∀ a0 a1 a2 a3 a4 a5, Statement (.helyelAtomicAdd a0 a1 a2 a3 a4 a5) := by
  intro a0 a1 a2 a3 a4 a5 op f h; cases h
theorem helyelCompareAndSwap : ∀ a0 a1 a2 a3 a4 a5 a6, Statement (.helyelCompareAndSwap a0 a1 a2 a3 a4 a5 a6) := by
  intro a0 a1 a2 a3 a4 a5 a6 op f h; cases h
theorem helyelFencedWrite : ∀ a0 a1 a2 a3 a4 a5, Statement (.helyelFencedWrite a0 a1 a2 a3 a4 a5) := by
  intro a0 a1 a2 a3 a4 a5 op f h; cases h
theorem helyelResponse : ∀ a0 a1 a2, Statement (.helyelResponse a0 a1 a2) := by
  intro a0 a1 a2 op f h; cases h
theorem counterClear : ∀ a0 a1, Statement (.counterClear a0 a1) := by
  intro a0 a1 op f h; cases h
theorem energyFold : Statement .energyFold := by
  intro op f h; cases h
theorem capApplication : Statement .capApplication := by
  intro op f h; cases h
theorem thermalEvent : ∀ a0, Statement (.thermalEvent a0) := by
  intro a0 op f h; cases h
theorem currentLimitEvent : ∀ a0, Statement (.currentLimitEvent a0) := by
  intro a0 op f h; cases h
theorem setHallCap : ∀ a0 a1 a2, Statement (.setHallCap a0 a1 a2) := by
  intro a0 a1 a2 op f h; cases h
theorem hallCapExpiry : ∀ a0, Statement (.hallCapExpiry a0) := by
  intro a0 op f h; cases h
theorem eventWrite : ∀ a0, Statement (.eventWrite a0) := by
  intro a0 op f h; cases h
theorem evheadWrite : ∀ a0, Statement (.evheadWrite a0) := by
  intro a0 op f h; cases h
theorem hostCxlMemRead : ∀ a0 a1, Statement (.hostCxlMemRead a0 a1) := by
  intro a0 a1 op f h; cases h
theorem hostCxlMemWrite : ∀ a0 a1, Statement (.hostCxlMemWrite a0 a1) := by
  intro a0 a1 op f h; cases h
theorem backInvalidateSnoop : ∀ a0, Statement (.backInvalidateSnoop a0) := by
  intro a0 op f h; cases h
theorem moduleReset : Statement .moduleReset := by
  intro op f h; cases h
theorem registerWrite : ∀ a0 a1, Statement (.registerWrite a0 a1) := by
  intro a0 a1 op f h; cases h
theorem contextCreation : ∀ a0 a1 a2 a3, Statement (.contextCreation a0 a1 a2 a3) := by
  intro a0 a1 a2 a3 op f h; cases h
theorem refresh : ∀ a0, Statement (.refresh a0) := by
  intro a0 op f h; cases h
theorem flitCrcFailure : ∀ a0 a1, Statement (.flitCrcFailure a0 a1) := by
  intro a0 a1 op f h; cases h
theorem cacheActionComplete : ∀ a0, Statement (.cacheActionComplete a0) := by
  intro a0 op f h; cases h
theorem swapBackReadComplete : ∀ a0 a1, Statement (.swapBackReadComplete a0 a1) := by
  intro a0 a1 op f h; cases h
theorem spdmMeasurementRequest : Statement .spdmMeasurementRequest := by
  intro op f h; cases h
theorem serviceCoreMemoryAccess : ∀ a0 a1 a2 a3, Statement (.serviceCoreMemoryAccess a0 a1 a2 a3) := by
  intro a0 a1 a2 a3 op f h; cases h

end Sys2Proof.Laws.Encodes
end

