-- ==== Sys2Proof/Laws/Sync.lean ====
section
/-! SUPPORT. Traps and holds of an instruction, the bits of a field, and cache actions that a split waits for. -/

namespace Sys2Proof.Machine

open Sys2Proof

theorem run_trap {n : Ins} {s : State} {w : Work} {body : Work → Eff} {x : TrapInfo} (h : gate n s = .go w) (hb : body w = .trap x) :
    run n body s = w.trap n x := by rw [run_go body h, hb]

theorem run_hold {n : Ins} {s : State} {w : Work} {body : Work → Eff} (h : gate n s = .go w) (hb : body w = .hold) :
    run n body s = .next w.hold := by rw [run_go body h, hb]

theorem bitOf_eq (x i : Nat) : bitOf x i = x.testBit i := by
  unfold bitOf; simp [Nat.testBit_eq_decide_div_mod_eq]

theorem quiet_iff (T : Troupe) : T.quiet = true ↔ (∀ p ∈ T.pend, p.load = false) ∧ T.unacked = [] := by
  unfold Troupe.quiet; simp

theorem actCycles_only (s : State) (core : Nat) (rel acq : Bool) (scope : Nat) (ivs : Option (List (Nat × Nat))) :
    OnlyPaths s (s.actCycles core rel acq scope ivs).1 := by
  unfold State.actCycles
  dsimp only
  split
  · exact backCycles_only _ _ _
  · exact .refl s

/-- Putting a cache action under way adds it to those under way, and its end to the agenda. -/
theorem startAct_eq (s : State) (a : CacheAct) :
    let t := s.startAct a
    t = { t.caches.on s with tick := t.tick, agenda := t.agenda, cacheActs := s.cacheActs ++ [a] } := by
  have h := actCycles_only s (s.coreOf a.tid) a.release a.acquire a.scope a.regions
  unfold State.startAct
  dsimp only
  generalize State.actCycles _ _ _ _ _ _ = r at *
  obtain ⟨r1, r2⟩ := r
  dsimp only at *
  unfold OnlyPaths at h
  rw [h]; rfl

theorem startAct_due (s : State) (a : CacheAct) : ∃ due, ⟨due, .cacheActionComplete a.id⟩ ∈ (s.startAct a).agenda :=
  ⟨_, mem_insertTimed.2 (.inl rfl)⟩

/-- A split is the same one in a state with the same troupes and ensembles. -/
theorem work_congr {s t : State} {tid ent : Nat} {y : Work} (h1 : t.troupes = s.troupes) (h2 : t.ensembles = s.ensembles)
    (h : s.work tid ent = some y) : t.work tid ent = some { y with s := t } := by
  unfold State.work at *
  rw [h1, h2]
  cases hk : Tab.find? s.troupes tid with
  | none => rw [hk] at h; cases h
  | some T =>
    rw [hk] at h
    dsimp only at h ⊢
    cases hp : Tab.find? T.splits ent with
    | none => rw [hp] at h; cases h
    | some p =>
      rw [hp] at h
      cases he : Tab.find? s.ensembles T.ens with
      | none => rw [he] at h; cases h
      | some e => rw [he] at h; cases h; rfl

/-- The work of an instruction that suspends its split in a cache action: an unacknowledged write of its is noted (R313). -/
def actWork (w : Work) (s0 : State) (id : Nat) (after : CacheThen) : Work :=
  { w with s := s0, T := if after.writes then { w.T with unacked := w.T.unacked ++ [id] } else w.T }

theorem actThen_waits {w x : Work} {n : Ins} {rel acq : Bool} {scope : Nat} {ivs : Option (List (Nat × Nat))} {after : CacheThen} {pends : List Pend}
    (hd : x = { w with s := { w.s with tick := x.s.tick, agenda := x.s.agenda }, T := { w.T with pend := w.T.pend ++ pends } }) :
    let t := x.actThen n rel acq scope ivs after
    let a : CacheAct := ⟨x.s.tick, w.tid, w.S.uid, scope, rel, acq, ivs, after⟩
    let s0 : State := t.caches.on { w.s with cacheActs := t.cacheActs }
    t.cacheActs = w.s.cacheActs ++ [a] ∧ (∃ y, Waits s0 (actWork w s0 x.s.tick after) n (.cache x.s.tick) pends t y)
      ∧ ∃ due, ⟨due, .cacheActionComplete x.s.tick⟩ ∈ t.agenda := by
  let T1 : Troupe := if after.writes then { w.T with unacked := w.T.unacked ++ [x.s.tick] } else w.T
  let X : Work := { x with T := if after.writes then { x.T with unacked := x.T.unacked ++ [x.s.tick] } else x.T, s := x.s.bump }
  obtain ⟨y, hy⟩ := suspend_waits (s := w.s) (w := { w with T := T1 }) (x := X) (n := n) (why := .cache x.s.tick) (pends := pends) rfl
    (by simp only [X, T1]; rw [hd]; by_cases h : after.writes = true <;> simp [h] <;> rfl)
  have hu : x.tid = w.tid ∧ x.S = w.S := by rw [hd]; exact ⟨rfl, rfl⟩
  have hca : (X.suspend n (.cache x.s.tick)).cacheActs = w.s.cacheActs := by rw [hy.module]
  have hc : (X.suspend n (.cache x.s.tick)).caches = w.s.caches := by rw [hy.module]; rfl
  have ht : x.actThen n rel acq scope ivs after
      = (X.suspend n (.cache x.s.tick)).startAct ⟨x.s.tick, w.tid, w.S.uid, scope, rel, acq, ivs, after⟩ := by
    rw [← hu.1, ← hu.2]; rfl
  rw [ht]
  generalize X.suspend n (.cache x.s.tick) = u at *
  have he := startAct_eq u ⟨x.s.tick, w.tid, w.S.uid, scope, rel, acq, ivs, after⟩
  have hdue := startAct_due u ⟨x.s.tick, w.tid, w.S.uid, scope, rel, acq, ivs, after⟩
  generalize u.startAct _ = t at *
  obtain ⟨h1, h2, h3, h4, h5, h6, h7⟩ := hy
  dsimp only at he ⊢
  have hact : t.cacheActs = w.s.cacheActs ++ [⟨x.s.tick, w.tid, w.S.uid, scope, rel, acq, ivs, after⟩] := by rw [he, ← hca]
  have htr : t.troupes = u.troupes := by rw [he]; rfl
  have hen : t.ensembles = u.ensembles := by rw [he]; rfl
  refine ⟨hact, ⟨{ y with s := t }, ?_, fun r i => ?_, h3, h4, h5, ?_, ?_⟩, hdue⟩
  · exact work_congr htr hen h1
  · exact (Work.now_congr (w := y) rfl rfl rfl rfl r i).trans (h2 r i)
  · exact ⟨fun k hk => by rw [htr]; exact h6.1 k hk, fun k hk => by rw [hen]; exact h6.2.1 k hk, h6.2.2⟩
  · unfold sameModule at h7 ⊢
    rw [he, h7]
    rfl

@[simp] theorem written_nil (r : Reg) (i : Nat) : written [] r i = none := by simp [written]

end Sys2Proof.Machine
end

