-- ==== Sys2Proof/Tests/Slice0.lean ====
section
/-! SUPPORT. Tests: ill-formed terms that the checks of R55 refuse, words written out from the encoding tables of R25 to R39 and the
spec's worked examples, single steps, and for every statement with hypotheses a state that meets them. -/

namespace Sys2Proof.Tests

open Sys2Proof Sys2Proof.Machine

/-! ### Fields -/

/-- Word 0 of an extended form that has every optional field at its default (R31). -/
def w0 : W0 := { head := ⟨false, 0⟩, pneg := false, pred := 7, scope := .troupe, sat := false, rnd := .rne, fmt := 0 }

/-- A word of layout X whose fields are 0. -/
def x0 : X := { w0 := w0, dst := .v 0, sa := .v 0, sb := .v 0, sc := .v 0, mod := 0, disp := 0, lit := none }

/-- A word of layout XT whose fields are 0. -/
def xt0 : XT := { w0 := w0, tgt := 0, aux := 0, si := .v 0, mod := 0, lit := none }

/-- A base word whose fields are 0. -/
def b0 : B3 := { head := ⟨false, 0⟩, dst := .v 0, sa := .v 0, sb := .v 0, lit := none }

/-- An integer form in ft3. -/
def i0 : X := { x0 with w0 := { w0 with fmt := 3 }, dst := .v 1, sa := .v 2, sb := .v 3 }

/-! ### Well-formedness: each check of R55 refuses a term -/

theorem test_wf_good : (Instr.iadd i0).wellFormed = true := by decide
theorem test_wf_mod : (Instr.vote { x0 with sa := .v 1, mod := 4 }).wellFormed = false := by decide
theorem test_wf_mod_reserved_condition : (Instr.icmp { i0 with mod := 6 }).wellFormed = false := by decide
theorem test_wf_fmt : (Instr.and { i0 with w0 := { w0 with fmt := 3 } }).wellFormed = false := by decide
theorem test_wf_rnd : (Instr.iadd { i0 with w0 := { w0 with fmt := 3, rnd := .rup } }).wellFormed = false := by decide
theorem test_wf_sat : (Instr.and { x0 with w0 := { w0 with sat := true } }).wellFormed = false := by decide
theorem test_wf_scope : (Instr.and { x0 with w0 := { w0 with scope := .die } }).wellFormed = false := by decide
theorem test_wf_pred : (Instr.smov { x0 with w0 := { w0 with pred := 2 }, dst := .s 1, sa := .s 2 }).wellFormed = false := by decide
theorem test_wf_disp : (Instr.and { x0 with disp := 1 }).wellFormed = false := by decide
theorem test_wf_dst : (Instr.iadd { i0 with dst := .lit }).wellFormed = false := by decide
theorem test_wf_sa : (Instr.exit { x0 with sa := .v 1 }).wellFormed = false := by decide
theorem test_wf_sb : (Instr.mov { x0 with sb := .v 1 }).wellFormed = false := by decide
theorem test_wf_sc : (Instr.iadd { i0 with sc := .v 1 }).wellFormed = false := by decide
theorem test_wf_ballot_group : (Instr.vote { x0 with dst := .s 61, sa := .p 1, mod := 3 }).wellFormed = false := by decide
theorem test_wf_literal_missing : (Instr.iadd { i0 with sb := .lit }).wellFormed = false := by decide
theorem test_wf_literal_unused : (Instr.iadd { i0 with lit := some 1 }).wellFormed = false := by decide
theorem test_wf_literal_wide : (Instr.iadd { i0 with sb := .lit, lit := some 0x100000000 }).wellFormed = false := by decide
theorem test_wf_xt_fields : (Instr.bra { xt0 with w0 := { w0 with fmt := 1 } }).wellFormed = false := by decide
theorem test_wf_xt_pred : (Instr.bra { xt0 with w0 := { w0 with pred := 1 } }).wellFormed = false := by decide
theorem test_wf_xt_aux : (Instr.ocall { xt0 with aux := 4096 }).wellFormed = false := by decide
theorem test_wf_xt_si : (Instr.call { xt0 with si := .s 1 }).wellFormed = false := by decide
theorem test_wf_xt_mod : (Instr.bra { xt0 with mod := 1 }).wellFormed = false := by decide
theorem test_wf_base_operand : (Instr.iaddBase { b0 with dst := .v 48 }).wellFormed = false := by decide
theorem test_wf_base_row : (Instr.iaddBase { b0 with sa := .g 1 }).wellFormed = false := by decide
theorem test_wf_movi_base : (Instr.moviBase { head := ⟨false, 0⟩, dst := .v 48, imm := 1 }).wellFormed = false := by decide
theorem test_wf_bt : (Instr.braBase { head := ⟨false, 0⟩, tgt := 0x3FFF }).wellFormed = true := by decide

/-! ### Decoding: words written out from the encoding tables and from the spec's examples -/

/-- What the decoder reads from some words. -/
def reads (ws : List Nat) : Option Instr :=
  match decode (bytesOf ws) with
  | .ok i => some i
  | .error _ => none

/-- Why the decoder refuses some words. -/
def refuses (ws : List Nat) : Option Reject :=
  match decode (bytesOf ws) with
  | .ok _ => none
  | .error e => some e

theorem test_decode_exit : reads [0x00000024] = some (.exitBase b0) := by decide
theorem test_decode_ret : reads [0x00000020] = some (.retBase b0) := by decide
/-- R40's example: `iadd v5, v3, v4 ^3`. -/
theorem test_decode_iadd_base : reads [0x14310C88]
    = some (.iaddBase { b0 with head := ⟨false, 3⟩, dst := .v 5, sa := .v 3, sb := .v 4 }) := by decide
/-- R40's example: `iadd v5, v3, 100000`. -/
theorem test_decode_iadd_literal : reads [0x143E808A, 0x000186A0, 0]
    = some (.iaddBase { b0 with dst := .v 5, sa := .v 3, sb := .lit, lit := some 100000 }) := by decide
/-- R40's example: `loop: ?p2 ffma.ft0.rne v4, v2, L, o1 ^2`. -/
theorem test_decode_ffma : reads [0x2000098D, 0x01002800, 0x40400000]
    = some (.ffma { x0 with w0 := { w0 with head := ⟨false, 2⟩, pred := 2 }, dst := .v 4, sa := .v 2, sb := .latch, sc := .o 1 }) := by
  decide
theorem test_decode_movi : reads [0x0401C084] = some (.moviBase { head := ⟨false, 0⟩, dst := .v 1, imm := 7 }) := by decide
/-- R87's example program: scan.add.excl v2, v1; brx v2, tab, join, 1; bra first. -/
theorem test_decode_scan : reads [0x70000051, 0x00801000, 0x00020000]
    = some (.scan { x0 with dst := .v 2, sa := .v 1, mod := 8 }) := by decide
theorem test_decode_brx : reads [0x70000011, 0x001C00E0, 0x00804000]
    = some (.brx { xt0 with tgt := 7, aux := 14, si := .v 2, mod := 1 }) := by decide
theorem test_decode_bra : reads [0x00024008] = some (.braBase { head := ⟨false, 0⟩, tgt := 9 }) := by decide
/-- The words of the programs' tables: `shfl.xor v62, v58, 1`, `fset ft16, 0x000000800020E349`, `mma acc0, a0, b0, 0x410, 0`. -/
theorem test_decode_shfl : reads [0x70000047, 0x0F83ADB0, 0x0007C000, 1, 0]
    = some (.shfl { x0 with dst := .v 62, sa := .v 58, sb := .lit, mod := 31, lit := some 1 }) := by decide
theorem test_decode_fset : reads [0x70080143, 0x0036C000, 0, 0x0020E349, 0x80]
    = some (.fset { x0 with w0 := { w0 with fmt := 16 }, sa := .lit, lit := some 0x000000800020E349 }) := by decide
theorem test_decode_fadd : reads [0x70008181, 0x0100200C, 0]
    = some (.fadd { x0 with w0 := { w0 with fmt := 1 }, dst := .v 4, sa := .v 2, sb := .v 3 }) := by decide
theorem test_decode_iadd_sat : reads [0x71028089, 0x0180200C, 0]
    = some (.iadd { x0 with w0 := { w0 with sat := true, fmt := 5 }, dst := .v 6, sa := .v 2, sb := .v 3 }) := by decide
theorem test_decode_mma : reads [0x70000217, 0x0036CDB4, 0, 0x410, 0]
    = some (.mma { x0 with sa := .lit, sb := .zero, lit := some 0x410 }) := by decide
theorem test_decode_spawn : reads [0x780002C1, 0xC2302000, 0x00004000]
    = some (.spawn { x0 with w0 := { w0 with scope := .module }, dst := .s 8, sa := .s 2, mod := 1 }) := by decide
theorem test_decode_sld : reads [0x70000241, 0x01402000, 0x00010040]
    = some (.sld { x0 with dst := .v 5, sa := .v 2, mod := 4, disp := 64 }) := by decide
theorem test_decode_touch : reads [0x70000259, 0, 0x0000C000] = some (.touch { x0 with mod := 3 }) := by decide
theorem test_decode_ldg : reads [0x70000289, 0x01008000, 0x00010040]
    = some (.ldg { x0 with dst := .v 4, sa := .v 8, mod := 4, disp := 64 }) := by decide
theorem test_decode_atom : reads [0x70000295, 0x00F04004, 0]
    = some (.atom { x0 with dst := .v 3, sa := .s 4, sb := .v 1 }) := by decide
theorem test_decode_join : reads [0x780002C5, 0, 0x0000C000] = some (.join { x0 with w0 := { w0 with scope := .module }, mod := 3 }) := by
  decide
theorem test_decode_ocall : reads [0x7000001D, 0x00000050, 0] = some (.ocall { xt0 with aux := 5 }) := by decide
theorem test_decode_trap : reads [0x70000301, 0, 0x00014000] = some (.trap { x0 with mod := 5 }) := by decide
theorem test_decode_rdsr : reads [0x7000030D, 0x01000000, 0x0000C000] = some (.rdsr { x0 with dst := .v 4, mod := 3 }) := by decide
theorem test_decode_rdcyc : reads [0x1800031C] = some (.rdcycBase { b0 with dst := .v 6 }) := by decide
theorem test_decode_tlbinv : reads [0x7000032B, 0x00302DB0, 0, 1, 0]
    = some (.tlbinv { x0 with sa := .s 2, sb := .lit, lit := some 1 }) := by decide
/-- Opcode 0x00 is reserved (R53); a base form of an extended-only opcode too (R38); a reserved field traps at decode (R55). -/
theorem test_decode_undefined : refuses [0] = some .undefined := by decide
theorem test_decode_extended_only : refuses [0x00000040] = some .undefined := by decide
theorem test_decode_reserved : refuses [0x70000045, 0, 0x80000] ≠ none := by decide
theorem test_decode_short : refuses [0x70000289, 0] = some .short := by decide
/-- The bits of a row in the opcode table's numbering: `exit` is word 0x24. -/
theorem test_table_word : decodeTableWord 32 0x24 = some (.exitBase b0) := by decide
theorem test_encode_ldg : encode (.ldg { x0 with dst := .v 4, sa := .v 8, mod := 4, disp := 64 })
    = [0x70000289, 0x01008000, 0x00010040] := by decide

/-! ### Single steps on small states -/

/-- The troupe of `State.loaded` with split 0 about to issue. -/
def here : State := { State.reset.loaded [] with cur := some (0, 0) }

/-- Some vector registers hold some lane values, the lowest lane first; lanes beyond them hold 0. -/
def holding (rs : List (Reg × List Word)) (s : State) : State :=
  s.modTroupe 0 fun t => { t with file := rs.foldl (fun f r => f.put r.1.key r.2) t.file }

/-- The split has some lanes only. -/
def onLanes (m : Mask) (s : State) : State := s.modTroupe 0 fun t => { t with splits := t.splits.modify 0 fun p => { p with mask := m } }

/-- The state that an instruction leaves. -/
def after (i : Instr) (s : State) : Option State :=
  match exec i s with
  | .next t => some t
  | .fault _ => none
  | .refused _ => none

/-- What split 0 reads of a register in a lane. -/
def value (r : Reg) (l : Nat) (s : State) : Option Word := (s.work 0 0).map fun w => w.now r l

/-- A lane's result of an instruction. -/
def result (i : Instr) (s : State) (r : Reg) (l : Nat) : Option Word := (after i s).bind (value r l)

/-- TSTAT of the troupe. -/
def tstat (s : State) : Option Word := (s.troupes.find? 0).map (·.tstat)

/-- The program counter of split 0. -/
def pc (s : State) : Option Word := (s.work 0 0).map (·.S.pc)

/-- The values of the results that the scoreboard holds. -/
def pending (l : Nat) (s : State) : Option (List Word) :=
  (s.troupes.find? 0).map fun t => t.pend.flatMap fun p => p.outs.map fun o => o.old.at_ l

/-- What a step leaves. -/
def stepped (s : State) : Option State :=
  match step s with
  | .next t => some t
  | .fault _ => none
  | .refused _ => none

/-- R25's first word: `movi v1, 7` writes 7 in every lane, and the next instruction is 4 bytes on. -/
theorem test_step_movi : ((stepped (State.reset.withFetchWord 32 0x0401C084)).bind (value (.v 1) 127)) = some 7#32 := by decide
theorem test_step_next_word : ((stepped (State.reset.withFetchWord 32 0x0401C084)).bind pc) = some 4#32 := by decide
/-- A taken branch to word 9 of its overlay (R99). -/
theorem test_step_bra : ((stepped (State.reset.withFetchWord 32 0x00024008)).bind pc) = some 36#32 := by decide
/-- R137 with R133: the sum of the largest number and 1 wraps, or saturates with TSTAT.ISAT. -/
theorem test_iadd_wraps : result (.iadd i0) (holding [(.v 2, [0x7FFFFFFF]), (.v 3, [1])] here) (.v 1) 0 = some 0x80000000#32 := by decide
theorem test_iadd_saturates :
    result (.iadd { i0 with w0 := { i0.w0 with sat := true } }) (holding [(.v 2, [0x7FFFFFFF]), (.v 3, [1])] here) (.v 1) 0
      = some 0x7FFFFFFF#32 := by decide
theorem test_imulh_signed : result (.imulh i0) (holding [(.v 2, [0xFFFFFFFF]), (.v 3, [2])] here) (.v 1) 0 = some 0xFFFFFFFF#32 := by
  decide
/-- R139: the carry out is 1 when the sum reaches 2^32. -/
theorem test_iaddc_carry :
    result (.iaddc { i0 with sc := .v 4, mod := 2 }) (holding [(.v 2, [0xFFFFFFFF]), (.v 3, [0]), (.v 4, [1])] here) (.p 2) 0
      = some 1#32 := by decide
/-- R141: `icmp.lt` under ft3 compares signed numbers. -/
theorem test_icmp_signed : result (.icmp { i0 with mod := 2 }) (holding [(.v 2, [0xFFFFFFFF]), (.v 3, [0])] here) (.v 1) 0
    = some 0xFFFFFFFF#32 := by decide
/-- R145's example. -/
theorem test_bfx_example :
    result (.bfx { x0 with dst := .v 4, sa := .v 2, sb := .lit, mod := 1, lit := some 0x0504 }) (holding [(.v 2, [0x1F0])] here) (.v 4) 0
      = some 0xFFFFFFFF#32 := by decide
/-- R146: the selector 0x0123 reverses the bytes. -/
theorem test_perm_reverse :
    result (.perm { x0 with dst := .v 4, sa := .v 2, sb := .lit, lit := some 0x0123 }) (holding [(.v 2, [0x11223344])] here) (.v 4) 0
      = some 0x44332211#32 := by decide
/-- R143: a shift by 32 gives 0, or 32 copies of bit 31. -/
theorem test_shl_full : result (.shl { x0 with dst := .v 1, sa := .v 2, sb := .v 3 }) (holding [(.v 2, [1]), (.v 3, [32])] here) (.v 1) 0
    = some 0#32 := by decide
theorem test_sar_full :
    result (.sar { x0 with dst := .v 1, sa := .v 2, sb := .v 3 }) (holding [(.v 2, [0x80000000]), (.v 3, [32])] here) (.v 1) 0
      = some 0xFFFFFFFF#32 := by decide
/-- R142: `.tt150` is the exclusive or of the three. -/
theorem test_logic3_xor :
    result (.logic3 { x0 with dst := .v 1, sa := .v 2, sb := .v 3, sc := .v 4, mod := 150 })
      (holding [(.v 2, [0xF0]), (.v 3, [0xCC]), (.v 4, [0xAA])] here) (.v 1) 0 = some 0x96#32 := by decide
set_option maxRecDepth 8000 in
/-- The example of R115: 100 lanes of 3 and 28 of the largest number. -/
theorem test_tred_example :
    (reduce 0 false (List.replicate 100 3#32 ++ List.replicate 28 0x7FFFFFFF#32)).1 = 0x110#32 := by decide
set_option maxRecDepth 8000 in
theorem test_tred_saturates :
    reduce 0 true (List.replicate 100 3#32 ++ List.replicate 28 0x7FFFFFFF#32) = (0x7FFFFFFF#32, flagSat) := by decide
/-- The worked table of R184: `cvt.e4m3.from_f32.rne`. -/
def cvtCode (sat : Bool) (a : Nat) : Nat := (cvtElem (fmtOf (builtin 0)) (fmtOf (builtin 7)) .rne sat a 0 0).1
theorem test_cvt_example :
    [0x3FC00000, 0x43E40000, 0x43FA0000, 0x3B800000, 0x7FC00000, 0x80000000].map (cvtCode false) = [0x3C, 0x7E, 0x7F, 2, 0x7F, 0x80] := by
  decide
theorem test_cvt_example_sat :
    [0x3FC00000, 0x43E40000, 0x43FA0000, 0x3B800000, 0x7FC00000, 0x80000000].map (cvtCode true) = [0x3C, 0x7E, 0x7E, 2, 0x7F, 0x80] := by
  decide
/-- The example of `cvtsr.bf16.from_f32`: the random value carries, or just does not. -/
theorem test_cvtsr_example :
    [0xC0000000, 0xBFFFFFFF].map (fun r => (cvtElem (fmtOf (builtin 0)) (fmtOf (builtin 2)) .rsr false 0x3F804000 0 r).1)
      = [0x3F81, 0x3F80] := by decide
/-- The example of R186: four elements and zeros packed into tx4, and the second of them unpacked again. -/
theorem test_pack_example :
    (packGroup (fmtOf (builtin 0)) (fmtOf (builtin 14)) .rne false
      ([0x40400000, 0xBFA00000, 0x3E800000, 0x3F000000] ++ List.replicate 28 0) fun _ => 0).1 = 0x106ACFC80 := by decide
/-- R189: 1.5 + 1.5 in FP32. -/
theorem test_fadd :
    result (.fadd { x0 with dst := .v 1, sa := .v 2, sb := .v 3 }) (holding [(.v 2, [0x3FC00000]), (.v 3, [0x3FC00000])] (onLanes 1 here))
      (.v 1) 0 = some 0x40400000#32 := by decide
/-- R112: `shfl.xor` by 1 reads the neighbour, which must be active. -/
theorem test_shfl_xor :
    ((after (.shfl { x0 with dst := .v 1, sa := .v 2, sb := .lit, mod := 31, lit := some 1 })
      (holding [(.v 2, [5, 6, 7])] (onLanes 7 here))).bind (pending 0)) = some [6#32] ∧
    ((after (.shfl { x0 with dst := .v 1, sa := .v 2, sb := .lit, mod := 31, lit := some 1 })
      (holding [(.v 2, [5, 6, 7])] (onLanes 7 here))).bind (pending 2)) = some [7#32] := by decide
/-- R172: a tie goes to the even quotient under rne and away from zero under rna. -/
theorem test_round_tie : (roundTo .rne false 5 0 1 0, roundTo .rna false 5 0 1 0, roundTo .rdn true 5 0 1 0) = ((2, true), (3, true), (3, true)) := by
  decide
/-- R255: the last arrival completes the phase. -/
theorem test_barrier_completes :
    barStep (1 * 2 ^ 4 + 3 * 2 ^ 56) 1 0 = (1 + 3 * 2 ^ 4 + 3 * 2 ^ 56, true) := by decide
theorem test_barrier_waits : barStep (2 * 2 ^ 4 + 3 * 2 ^ 56) 1 0 = (1 * 2 ^ 4 + 3 * 2 ^ 56, false) := by decide
set_option maxRecDepth 100000 in
/-- R53 and R55: a word of a reserved opcode and one with a reserved field trap; the handler has not been entered before its overlay
is there, and the split waits for it. -/
theorem test_step_undefined : ((stepped (State.reset.withFetchWord 32 0)).bind fun s => (s.troupes.find? 0).map (·.trapPc)) = some (some 0#32) := by
  decide +kernel

/-! ### States that meet the hypotheses of the statements -/

/-- The instruction passes its checks at a state with an active lane, and its split meets a condition. -/
def pass (n : Ins) (s : State) (p : Work → Bool) : Bool :=
  match gate n s with
  | .noIssuer => false
  | .trap _ _ => false
  | .hold _ => false
  | .go w => w.act ≠ 0 && p w

/-- What `pass` says: the hypothesis `issues` of the statements holds of some split that meets the condition. -/
theorem issues_of_pass {n : Ins} {s : State} {p : Work → Bool} (h : pass n s p = true) : ∃ w, issues n s w ∧ p w = true := by
  unfold pass at h
  split at h
  · cases h
  · cases h
  · cases h
  · next w hw => exact ⟨w, ⟨hw, by simp_all⟩, by simp_all⟩

/-- No condition beyond issuing. -/
def any (_ : Work) : Bool := true

theorem test_hyp_integer : pass (insX 0x22 i0) here any = true ∧ pass (insB3 0x22 b0) here any = true := by decide
theorem test_hyp_integer_accumulate : pass (insX 0x2A i0) here any = true ∧ pass (insX 0x24 i0) here any = true
    ∧ pass (insX 0x28 { i0 with dst := .v 4 }) here any = true := by decide
theorem test_hyp_logic : pass (insX 0x37 { x0 with mod := 150 }) here any = true := by decide
theorem test_hyp_movi : pass (insBI { head := ⟨false, 0⟩, dst := .v 1, imm := 7 }) here any = true := by decide
theorem test_hyp_lea : pass (insX 0x45 { x0 with dst := .v 4, sa := .v 2, sb := .v 1 }) here any = true := by decide
theorem test_hyp_xset : pass (insX 0x46 { x0 with dst := .x 1, sa := .v 2, sb := .v 3 }) (holding [(.v 3, List.replicate 128 255)] here) any
    = true := by decide
theorem test_hyp_xbnd : pass (insX 0x47 { x0 with dst := .v 4, sa := .lit, mod := 1, lit := some 0x00FF0010 }) here any = true := by decide

/-- A write of g3, free, and owned by troupe 1; and a read of it. -/
theorem test_hyp_gmov_write : pass (insX 0x49 { x0 with dst := .g 3, sa := .v 1 }) here (fun w => w.E.gown.find? 3 = none) = true := by
  decide
theorem test_hyp_gmov_owned : pass (insX 0x49 { x0 with dst := .g 3, sa := .v 1 })
    (here.modEns 0 fun e => { e with gown := [(3, 1)] }) (fun w => w.E.gown.find? 3 = some 1 ∧ w.T.num = 0) = true := by decide
theorem test_hyp_gmov_read : pass (insX 0x49 { x0 with dst := .v 1, sa := .g 3, mod := 1 }) here any = true := by decide
theorem test_hyp_moves : pass (insX 0x48 { x0 with dst := .s 1, sa := .s 2 }) here any = true
    ∧ pass (insX 0x4D { x0 with dst := .v 1 }) here any = true ∧ pass (insX 0x4D { x0 with sa := .v 1, mod := 3 }) here any = true
    ∧ pass (insX 0x4A { x0 with dst := .s 1, sa := .v 1, sb := .zero, mod := 1 }) here any = true := by decide
theorem test_hyp_float : pass (insX 0x60 x0) here any = true ∧ pass (insX 0x6B x0) here any = true ∧ pass (insX 0x70 x0) here any = true
    ∧ pass (insX 0x6C { x0 with w0 := { w0 with fmt := 1 } }) here any = true := by decide
theorem test_hyp_lanes : pass (insX 0x10 { x0 with dst := .v 1, sa := .p 1, mod := 3 }) here any = true
    ∧ pass (insX 0x14 { x0 with mod := 8 }) here any = true ∧ pass (insX 0x13 x0) here any = true := by decide
theorem test_hyp_formats : pass (insX 0x50 { x0 with w0 := { w0 with fmt := 16 }, sa := .lit, lit := some 0x000000800020E349 }) here any = true
    ∧ pass (insX 0x51 { x0 with w0 := { w0 with fmt := 16 }, dst := .v 2 }) here any = true
    ∧ pass (insX 0x54 { x0 with w0 := { w0 with fmt := 7 } }) here any = true := by decide
/-- A broadcast that is the echo of the core's own write, one beside it, and one for an entry not written here. -/
theorem test_hyp_broadcast : let c : Core := { State.reset.core 0 with echo := [(0, 16, 5)] }
    c.echo.contains (0, 16, 5) = true ∧ (c.echo.contains (0, 16, 6) = false ∧ ∃ x ∈ c.echo, x.1 = 0 ∧ x.2.1 = 16)
    ∧ ∀ x ∈ c.echo, ¬(x.1 = 0 ∧ x.2.1 = 17) := by decide

/-! Control: lanes that agree, lanes that differ, a link register that is free, and a full frame stack. -/

/-- A split ready to branch. -/
def free (w : Work) : Bool := w.drained && w.scalarsIn && w.S.mask ≠ 0

theorem test_hyp_branch : pass (insXT 0x02 xt0) here free = true ∧ pass (insBT 0x05 { head := ⟨false, 0⟩, tgt := 4 }) here free = true := by
  decide
/-- p1 holds 0 in every lane: `?p1 brc` falls through and `?!p1 brc` is taken; p7 holds 1. -/
theorem test_hyp_brc : pass (insXT 0x03 { xt0 with w0 := { w0 with pred := 1 } }) (onLanes 3 here)
      (fun w => free w && (List.range 128).all fun l => w.read (.p 1) l = 0#32) = true
    ∧ pass (insXT 0x03 { xt0 with w0 := { w0 with pred := 1, pneg := true } }) (onLanes 3 here) free = true := by decide
theorem test_hyp_brx_agrees : pass (insXT 0x04 { xt0 with tgt := 4, si := .v 1, mod := 1 }) (onLanes 3 here)
    (fun w => free w && (List.range 2).all fun l => w.src true (insXT 0x04 xt0) (.v 1) 0 l = 0#32) = true := by decide
theorem test_hyp_ocall : pass (insXT 0x07 { xt0 with aux := 0 }) here (fun w => free w ∧ ((w.s.core 0).slotOf 0 0).isSome) = true
    ∧ pass (insXT 0x07 { xt0 with aux := 5 }) here (fun w => free w ∧ (w.s.core 0).slotOf 0 5 = none) = true := by decide
theorem test_hyp_ret : pass (insX 0x08 x0) here free = true := by decide
/-- Lanes 0 and 1 differ in the table index: the split may fork, or has no frame left to fork with. -/
theorem test_hyp_fork : pass (insXT 0x04 { xt0 with tgt := 4, si := .v 1, mod := 1 }) (holding [(.v 1, [0, 1])] (onLanes 3 here))
    (fun w => free w ∧ w.src true (insXT 0x04 xt0) (.v 1) 0 0 ≠ w.src true (insXT 0x04 xt0) (.v 1) 0 1 ∧ w.S.frames.length < 16
      ∧ (w.T.splits.map (·.1)).Nodup) = true := by decide
theorem test_hyp_fork_full : pass (insXT 0x03 { xt0 with w0 := { w0 with pred := 1 }, aux := 9 })
    (holding [(.p 1, [0, 1])] ((onLanes 3 here).modTroupe 0 fun t => { t with splits := t.splits.modify 0 fun p =>
      { p with frames := List.replicate 16 { rcv := 0x2000, forkId := 0, wr := 0 } } }))
    (fun w => free w ∧ 16 ≤ w.S.frames.length ∧ w.S.rcv ≠ some 0x24#32) = true := by decide
theorem test_hyp_exit : pass (insX 0x09 { x0 with w0 := { w0 with pred := 1 } }) (holding [(.p 1, [0, 1])] (onLanes 3 here))
      (fun w => free w ∧ w.S.mask &&& ~~~w.act ≠ 0) = true
    ∧ pass (insB3 0x09 b0) here (fun w => free w ∧ w.S.mask &&& ~~~w.act = 0) = true := by decide
theorem test_hyp_bracket : pass (insX 0x0C x0) here (fun w => free w ∧ w.T.pend = [] ∧ ∀ p ∈ w.T.allSplits, p.landings = []) = true
    ∧ pass (insX 0x0D x0) (here.modTroupe 0 fun t => { t with splits := t.splits.modify 0 fun p => { p with infull := true } }) free = true
    ∧ pass (insX 0x0B x0) here any = true := by decide

/-! Memory: a context whose addresses below 2^39 map to the same physical addresses, readable and writable by users (R279, R280). -/

/-- The root table at 0x8000 names the table at 0x9000, whose first entry is a leaf of level 3. -/
def tables : Memory := [(0x8000, 0x01), (0x8001, 0x90), (0x9000, 0x2B)]

/-- `here` with those tables. -/
def paged : State := { here.modCtx 0 fun c => { c with ptbr := 0x8000#64 } with mem := tables }

/-- The parts of an access translate to device memory that nothing keeps from it. -/
def reachesAll (w : Work) (acc : Access) (ok : Nat → Bool) (size : Nat) (va : Nat → Nat) (ks : List Nat) : Bool :=
  let x := w.xlateAll acc ok va ks
  !w.memHeld && w.asked = none && x.2.all fun r =>
    match r.2 with
    | .error _ => false
    | .ok m => targetOf m.pa = .device && m.pa % size = 0 && ((x.1.s.core 0).memLock 0 (va r.1) size).isNone && !x.1.s.isFenced m.pa
        && !x.1.s.mapWaits m.pa

/-- The accesses of all active lanes do, and are aligned. -/
def reaches (acc : Access) (size : Nat) (va : Work → Nat → Nat) (w : Work) : Bool :=
  (lanesOf w.act).all (fun l => va w l % size = 0) && reachesAll w acc (fun _ => true) size (va w) (lanesOf w.act)

/-- A load of 4 bytes at 64 past the address in v8. -/
def ldg4 : X := { x0 with dst := .v 4, sa := .v 8, mod := 4, disp := 64 }

theorem test_hyp_load : pass (insX 0xA2 ldg4) (onLanes 3 paged) (reaches .load 4 fun w => w.pairAddr (insX 0xA2 ldg4)) = true := by decide
theorem test_hyp_store : pass (insX 0xA3 { ldg4 with dst := .v 0, sc := .v 4 }) (onLanes 3 paged)
    (reaches .store 4 fun w => w.pairAddr (insX 0xA3 { ldg4 with dst := .v 0, sc := .v 4 })) = true := by decide
theorem test_hyp_atomic : pass (insX 0xA5 { x0 with dst := .v 4, sa := .v 8, sb := .v 1 }) (onLanes 3 paged)
    (fun w => reachesAll w .atomic (atomicOk 4 0) 4 (w.pairAddr (insX 0xA5 { x0 with sa := .v 8 })) (lanesOf w.act)) = true := by decide
/-- Lane 1 is misaligned; no table maps the context; a range lock holds the bytes; the page is fenced. -/
theorem test_hyp_misaligned : pass (insX 0xA2 ldg4) (holding [(.v 8, [0, 2])] (onLanes 3 paged))
    (fun w => !w.memHeld && w.pairAddr (insX 0xA2 ldg4) 1 % 4 ≠ 0 && w.pairAddr (insX 0xA2 ldg4) 0 % 4 = 0) = true := by decide
theorem test_hyp_unmapped : pass (insX 0xA2 ldg4) (onLanes 1 { paged with mem := [] })
    (fun w => !w.memHeld && w.s.faultWaits = [] && (w.xlateAll .load (fun _ => true) (w.pairAddr (insX 0xA2 ldg4)) [0]).2.any fun r =>
      match r.2 with
      | .error _ => true
      | .ok _ => false) = true := by decide
theorem test_hyp_locked : pass (insX 0xA2 ldg4)
    (onLanes 1 (paged.modCore 0 fun c => { c with locks := [(0, ⟨false, 0, 0, 0, 127, true, 9⟩)] }))
    (fun w => !w.memHeld && ((w.s.core 0).memLock 0 (w.pairAddr (insX 0xA2 ldg4) 0) 4).isSome) = true := by decide
theorem test_hyp_fenced : pass (insX 0xA2 ldg4) (onLanes 1 (paged.modStack 0 fun k => { k with fence := [(0, 0x8000000000000000)] }))
    (fun w => !w.memHeld && w.s.isFenced 64) = true := by decide
theorem test_hyp_caches : pass (insX 0xA8 { ldg4 with dst := .v 0, mod := 0, disp := 0 }) (onLanes 1 paged) (fun w => !w.memHeld) = true
    ∧ pass (insX 0xA9 { x0 with sa := .s 8, sb := .v 3 }) (onLanes 1 paged) (fun w => !w.memHeld) = true := by decide
/-- The tables of fsave and fload lie in one page at 0x10000, or are misaligned. -/
theorem test_hyp_fsave : pass (insX 0x52 { x0 with sa := .v 8 }) (holding [(.v 8, [0x10000])] (onLanes 1 paged))
      (fun w => reachesAll w .store (fun _ => true) 64 (fun k => (pagesOf 0x10000 512).getD k 0) [0]) = true
    ∧ pass (insX 0x53 { x0 with sa := .v 8 }) (holding [(.v 8, [0x10000])] (onLanes 1 paged))
      (fun w => reachesAll w .load (fun _ => true) 64 (fun k => (pagesOf 0x10000 512).getD k 0) [0]
        && ((w.s.core 0).l1Find (0x10000 / 32)).isNone) = true
    ∧ pass (insX 0x52 { x0 with sa := .v 8 }) (holding [(.v 8, [0x10020])] (onLanes 1 paged))
      (fun w => !w.memHeld && w.pairAddr (insX 0x52 { x0 with sa := .v 8 }) 0 % 64 ≠ 0) = true := by decide

/-- A store writes its bytes, lowest first (R5), and no others. -/
theorem test_store_bytes :
    ((after (.stg { x0 with sa := .v 8, sc := .v 4, mod := 4 }) (holding [(.v 8, [0x10000]), (.v 4, [0x11223344])] (onLanes 1 paged))).map
      fun s => (s.mem.readN 0xFFFF 6)) = some [0, 0x44, 0x33, 0x22, 0x11, 0] := by decide
/-- A load leaves the bytes that it finds on the scoreboard. -/
theorem test_load_value :
    ((after (.ldg { x0 with dst := .v 4, sa := .v 8, mod := 4 }) (holding [(.v 8, [0x9000])] (onLanes 1 paged))).bind (pending 0))
      = some [0x2B#32] := by decide

/-! Results that land, sync objects, stage memory and barriers. -/

/-- A held result of one register, with so many sectors outstanding, in a troupe. -/
def expecting (k : Nat) (s : State) : State := s.modTroupe 0 fun t =>
  { t with pend := [{ id := 7, owner := 0, outs := [⟨.v 4, 1, [5]⟩], flags := 0, load := 0 < k, sectors := k, kept := false }] }

theorem test_hyp_landing : ((expecting 2 here).troupes.find? 0).map (fun T => (T.pend.find? (fun p => p.id = 7)).map (·.sectors)) = some (some 2)
    ∧ ((expecting 1 here).troupes.find? 0).map (fun T => (T.trapPc, (T.floading 7).isNone)) = some (none, true) := by decide
theorem test_landing : ((after (.scoreboardResultWrite 0 7) (expecting 0 here)).bind (value (.v 4) 0)) = some 5#32 := by decide
/-- A split that waits in an fload of 48 entries. -/
theorem test_hyp_fload_lands : let s := (expecting 1 here).modTroupe 0 fun t => { t with splits := t.splits.modify 0 fun p =>
      { p with state := 2, wait := .fload 7 (List.replicate 48 0) } }
    ((s.troupes.find? 0).bind fun T => T.floading 7) = some (0, List.replicate 48 0) ∧ (s.ensembles.find? 0).isSome = true := by decide

/-- Change the ensemble, the troupe, the split that issues. -/
def ens (f : Ensemble → Ensemble) (s : State) : State := s.modEns 0 f
def troupe (f : Troupe → Troupe) (s : State) : State := s.modTroupe 0 f
def split (f : Split → Split) (s : State) : State := s.modTroupe 0 fun t => { t with splits := t.splits.modify 0 f }

/-- `here` with one lane active, for the instructions that read it alone. -/
def one : State := onLanes 1 here

/-- The earlier accesses of the troupe are over, or a store of it is not acknowledged. -/
def quiet (w : Work) : Bool := w.T.pend = [] && w.T.unacked = []
def unacked (s : State) : State := troupe (fun t => { t with unacked := [3] }) s

def sbind0 : X := { x0 with sa := .s 2, sb := .s 4, sc := .lit, mod := 1, lit := some 64 }
theorem test_hyp_sbind : pass (insX 0xAA sbind0) one any = true ∧ pass (insX 0xAA { sbind0 with disp := 4 }) one
      (fun w => w.pairAddr (insX 0xAA { sbind0 with disp := 4 }) 0 % 8 ≠ 0) = true
    ∧ pass (insX 0xAA { sbind0 with lit := some 33 }) one any = true
    ∧ pass (insX 0xAA sbind0) (split (fun p => { p with scal := [(4, 16)] }) one) (fun w => w.src64 true (insX 0xAA sbind0) (.s 4) 0 % 32 ≠ 0)
      = true := by decide
theorem test_hyp_fence : pass (insX 0xAE x0) one (fun w => !w.memHeld) = true
    ∧ pass (insX 0xAE { x0 with w0 := { w0 with scope := .core } }) (unacked one) (fun w => !w.memHeld && !quiet w) = true
    ∧ pass (insX 0xAE { x0 with w0 := { w0 with scope := .system } }) one quiet = true ∧ pass (insX 0xAB { x0 with mod := 32 }) one any = true := by
  decide

/-- An acq of the word at 0x10000 with the condition that it is not c: it holds for c = 1 and fails for c = 0. -/
def acq0 : X := { x0 with w0 := { w0 with scope := .core }, sa := .v 8, sb := .zero, sc := .s 6, dst := .v 10, mod := 16 }
def at10000 (s : State) : State := holding [(.v 8, [0x10000])] (onLanes 1 s)
def reachesWord (acc : Access) (w : Work) : Bool := reachesAll w acc (fun _ => true) 8 (fun _ => 0x10000) [0]
theorem test_hyp_acq : pass (insX 0xAC acq0) (at10000 paged)
      (fun w => reachesWord .load w && w.src64 true (insX 0xAC acq0) (.s 6) 0 = 0 && leNat (w.s.peek 0x10000 8) = 0) = true
    ∧ pass (insX 0xAC acq0) (split (fun p => { p with scal := [(6, 1)] }) (at10000 paged))
      (fun w => reachesWord .load w && w.src64 true (insX 0xAC acq0) (.s 6) 0 = 1) = true
    ∧ pass (insX 0xAC { acq0 with disp := 4 }) (at10000 paged) (fun w => !w.memHeld && w.pairAddr (insX 0xAC { acq0 with disp := 4 }) 0 % 8 ≠ 0)
      = true := by decide
/-- A waiting acq whose condition fails, and one whose condition holds. -/
def waiting (c : DWord) : AcqWait :=
  { id := 7, tid := 0, uid := 0, pa := 0x10000, op := 0, cond := 2, b := 0, c := c, pend := 7, scope := 2, regions := [], va := 0x10000, active := 1 }
theorem test_hyp_acq_again : targetOf (waiting 0).pa = .device ∧ leNat ((paged.syncRead 2 0x10000).peek 0x10000 8) = 0
    ∧ (paged.troupes.find? (waiting 1).tid).isSome = true := by decide
theorem test_acq_succeeds :
    ((after (.acqPoll 7) { split (fun p => { p with state := 2, wait := .acq 7, waitLen := 12 }) paged with acqWaits := [waiting 1] }).bind pc)
      = some 12#32 := by decide
theorem test_acq_waits : ((after (.acqPoll 7) { paged with acqWaits := [waiting 0] }).map (·.acqWaits)) = some [waiting 0] := by decide

def rel0 : X := { x0 with w0 := { w0 with scope := .core }, sa := .v 8, sb := .s 6 }
theorem test_hyp_rel : pass (insX 0xAD rel0) (at10000 paged) (fun w => reachesWord .store w && quiet w) = true
    ∧ pass (insX 0xB4 { rel0 with w0 := { w0 with scope := .system }, mod := 1 }) (at10000 paged) (fun w => reachesWord .atomic w && quiet w) = true
    ∧ pass (insX 0xAD { rel0 with disp := 4 }) (at10000 paged) (fun w => !w.memHeld && w.pairAddr (insX 0xAD { rel0 with disp := 4 }) 0 % 8 ≠ 0)
      = true := by decide
/-- The action of a fence, and of a rel at system scope, about to complete. -/
def action (after : CacheThen) : CacheAct :=
  { id := 7, tid := 0, uid := 0, scope := 5, release := true, acquire := false, regions := none, after := after }
theorem test_cache_action : ((after (.cacheActionComplete 7)
    { split (fun p => { p with state := 2, wait := .cache 7, waitLen := 12 }) paged with cacheActs := [action (.word 0x10000 0 5)] }).map
      fun s => (s.mem.readN 0x10000 8, pc s)) = some ([5, 0, 0, 0, 0, 0, 0, 0], some 12#32) := by decide
theorem test_hyp_cache_action : (action .nothing).after = .nothing ∧ (here.troupes.find? (action .nothing).tid).isSome = true := by decide

/-! Stage memory: accesses that nothing stops, and each thing that does. -/

def sld0 : X := { x0 with dst := .v 5, sa := .v 2, mod := 4 }
def staged (n : Ins) (w : Work) : Bool :=
  !w.memHeld && (lanesOf w.act).all (fun l => w.stageAddr n n.sa l % 4 = 0 && w.stageAddr n n.sa l + 4 ≤ w.E.size
    && ((w.s.core 0).stageLock 0 (w.stageAddr n n.sa l) (w.stageAddr n n.sa l + 3) false).isNone)
  && w.fillsHit (lanesOf w.act) (w.stageAddr n n.sa) 4 = []
theorem test_hyp_stage : pass (insX 0x90 sld0) (onLanes 3 here) (staged (insX 0x90 sld0)) = true
    ∧ pass (insX 0x91 { sld0 with dst := .v 0, sb := .v 4 }) (onLanes 3 here) (staged (insX 0x91 { sld0 with dst := .v 0, sb := .v 4 })) = true := by
  decide
theorem test_hyp_stage_misaligned : pass (insX 0x90 sld0) (holding [(.v 2, [0, 2])] (onLanes 3 here))
    (fun w => !w.memHeld && w.stageAddr (insX 0x90 sld0) (.v 2) 1 % 4 ≠ 0) = true := by decide
theorem test_hyp_stage_outside : pass (insX 0x90 sld0) (holding [(.v 2, [0x80000])] one) (fun w => !w.memHeld && w.E.size < 0x80000 + 4) = true := by
  decide
theorem test_hyp_stage_locked : pass (insX 0x90 sld0)
    (one.modCore 0 fun c => { c with locks := [(0, ⟨true, 0, 0, 0, 31, true, 9⟩)] })
    (fun w => !w.memHeld && ((w.s.core 0).stageLock 0 0 3 false).isSome && w.fillsHit [0] (w.stageAddr (insX 0x90 sld0) (.v 2)) 4 = []) = true := by
  decide
section Windows

set_option exponentiation.threshold 600
set_option maxRecDepth 4000

/-- A window of 32 bytes at stage address 0 over memory at 0x10000 with its barrier at 1024. -/
def record : BitVec 512 :=
  BitVec.ofNat 512 (0x10000 + 8 * 2 ^ 64 + 2 ^ 84 + 2 ^ 104 + 2 ^ 124 + 2 ^ 144 + 7 * 2 ^ 264 + 3 * 2 ^ 409 + 64 * 2 ^ 428)
/-- The ensemble with that window as window 3, in a state. -/
def windowed (st : BitVec 3) (s : State) : State := ens (fun e => { e with wins := [(3, { Window.unbound with record := record, state := st, bytes := 32 })] }) s
theorem test_hyp_stage_filling : pass (insX 0x90 sld0) (windowed 2 one)
    (fun w => !w.memHeld && w.fillsHit [0] (w.stageAddr (insX 0x90 sld0) (.v 2)) 4 = [3] && (w.E.win 3).state = 2) = true := by decide

/-! Barriers: at stage address 1024; of a phase under way, of a phase that is over; at system scope. -/

/-- A barrier of one arrival in phase 1 at some scope. -/
def barred (scope : Nat) (s : State) : State :=
  ens (fun e => { e with stage := (e.stage.setMany 1024 (natLE 16 (1 + 2 ^ 4 + 2 ^ 56 + scope * 2 ^ 76))), bars := [1024] }) s
def bar0 : X := { x0 with sa := .lit, sb := .v 3, lit := some 1024 }
def barOk (n : Ins) (w : Work) : Bool := !w.memHeld && w.stageAddr n n.sa 0 = 1024 && 1024 + 16 ≤ w.E.size
theorem test_hyp_tbinit : pass (insX 0x9B { bar0 with sc := .zero, mod := 1 }) (holding [(.v 3, [2])] one) (barOk (insX 0x9B bar0)) = true
    ∧ pass (insX 0x9B { bar0 with sc := .zero }) one (barOk (insX 0x9B bar0)) = true
    ∧ pass (insX 0x9B { bar0 with sc := .zero, lit := some 1032 }) (holding [(.v 3, [2])] one) (fun w => !w.memHeld) = true
    ∧ pass (insX 0x9B { bar0 with sc := .zero, lit := some 0x80000 }) (holding [(.v 3, [2])] one) (fun w => !w.memHeld && w.E.size < 0x80010)
      = true := by decide
theorem test_hyp_tbarr : pass (insX 0x9C { bar0 with dst := .v 4 }) (holding [(.v 3, [1])] (barred 0 one)) (barOk (insX 0x9C bar0)) = true
    ∧ pass (insX 0x9C { bar0 with dst := .v 4 }) (unacked (holding [(.v 3, [1])] (barred 1 one))) (fun w => barOk (insX 0x9C bar0) w && !quiet w) = true
    ∧ pass (insX 0x9C { bar0 with dst := .v 4 }) (holding [(.v 3, [1])] (barred 5 one))
      (fun w => barOk (insX 0x9C bar0) w && quiet w && w.E.barScope 1024 = 5) = true := by decide
theorem test_hyp_tbexp : pass (insX 0x9D bar0) (holding [(.v 3, [32])] (barred 0 one)) (barOk (insX 0x9D bar0)) = true := by decide
theorem test_hyp_tbwait : pass (insX 0x9E bar0) (holding [(.v 3, [1])] (barred 0 one)) (fun w => barOk (insX 0x9E bar0) w && w.E.bar 1024 % 16 = 1) = true
    ∧ pass (insX 0x9E bar0) (barred 0 one) (fun w => barOk (insX 0x9E bar0) w && w.E.barScope 1024 < 3) = true
    ∧ pass (insX 0x9E bar0) (barred 5 one) (fun w => barOk (insX 0x9E bar0) w && 3 ≤ w.E.barScope 1024) = true := by decide
/-- A split whose phase has completed is woken. -/
theorem test_tbwait_wakes : ((after (.tbwaitWake 0 0) (split (fun p => { p with state := 2, wait := .phase 1024 16 0 [], waitLen := 12 })
    (barred 0 here))).bind pc) = some 12#32 := by decide

/-! Windows and copies. -/

theorem test_hyp_bind_check : bindCheck (Ensemble.start 0 0 524288 0 0 0) 3 32 record = none
    ∧ bindCheck (Ensemble.start 0 0 16 0 0 0) 3 32 record ≠ none := by decide
def wbind0 : X := { x0 with sa := .lit, mod := 3, lit := some 2048 }
theorem test_hyp_wbind : pass (insX 0x94 wbind0) (ens (fun e => { e with stage := e.stage.setMany 2048 (natLE 64 record.toNat) }) one)
      (fun w => !w.memHeld && (w.E.win 3).state = 0 && BitVec.ofNat 512 (leNat (w.E.stageRead 2048 64)) = record) = true
    ∧ pass (insX 0x94 wbind0) (split (fun p => { p with wait := .bind 24 record }) (windowed 1 one)) any = true
    ∧ pass (insX 0x94 wbind0) (windowed 2 one) (fun w => !w.memHeld && (w.E.win 3).state = 2) = true
    ∧ pass (insX 0x94 { wbind0 with lit := some 2080 }) one (fun w => !w.memHeld) = true
    ∧ pass (insX 0x94 { wbind0 with lit := some 0x80000 }) one (fun w => !w.memHeld && w.E.size < 0x80040) = true := by decide
theorem test_hyp_wset : pass (insX 0x95 { x0 with sa := .lit, mod := 3, lit := some 1 }) (windowed 1 one) any = true
    ∧ (match wsetRecord (Ensemble.start 0 0 524288 0 0 0) 0 1 record with | .ok _ => true | .error _ => false) = true
    ∧ (match wsetRecord (Ensemble.start 0 0 524288 0 0 0) 0 0x100000 record with | .ok _ => true | .error _ => false) = false
    ∧ pass (insX 0x95 { x0 with sa := .lit, mod := 4, lit := some 1 }) one (fun w => (w.E.win 4).state = 0) = true := by decide
theorem test_hyp_windows : pass (insX 0x97 { x0 with mod := 3 }) (windowed 1 one) (fun w => (w.E.win 3).state = 1) = true
    ∧ pass (insX 0x98 { x0 with dst := .v 4, mod := 3 }) (windowed 1 one) any = true ∧ pass (insX 0x99 { x0 with dst := .v 4 }) one any = true
    ∧ pass (insX 0x9A x0) one (fun w => w.s.batchDone 0 w.T 0) = true := by decide
/-- A copy of the troupe's batch 1 in the queue. -/
def fillCopy : Copy := { newCopy 0 (Troupe.start 0 0 0 0 256 64 0 0 0) 0 (.window 3) 1 (some 1024) with record := record, fmt := builtin 3, back := 1 }
def copying (c : Copy) (s : State) : State := { troupe (fun t => { t with queue := [5], batch := 1 }) s with copies := [(5, c)] }
theorem test_hyp_bwait : pass (insX 0x9A { x0 with sa := .lit, lit := some 1 }) (copying fillCopy one) (fun w => !w.s.batchDone 0 w.T 1) = true := by
  decide
theorem test_hyp_sgath : pass (insX 0x92 { x0 with sa := .v 8, sb := .lit, lit := some 64 }) one
      (fun w => !w.memHeld && w.conflict true 64 95 = none && w.T.queue.length < 8) = true
    ∧ pass (insX 0x92 { x0 with sa := .v 8, sb := .lit, lit := some 65 }) one (fun w => !w.memHeld) = true
    ∧ pass (insX 0x92 { x0 with sa := .v 8, sb := .lit, lit := some 64, disp := 4 }) one (fun w => !w.memHeld) = true
    ∧ pass (insX 0x92 { x0 with sa := .v 8, sb := .lit, lit := some 64 }) (troupe (fun t => { t with queue := [1, 2, 3, 4, 5, 6, 7, 8] }) one)
      (fun w => !w.memHeld && 8 ≤ w.T.queue.length) = true := by decide
theorem test_hyp_sfill : pass (insX 0x93 { x0 with sa := .v 2, sb := .lit, sc := .s 1, lit := some 64 }) one
      (fun w => !w.memHeld && w.conflict true 0 63 = none) = true
    ∧ pass (insX 0x93 { x0 with sa := .v 2, sb := .lit, sc := .s 1, lit := some 33 }) one (fun w => !w.memHeld) = true := by decide
/-- Slot 0 of store A is claimed; one whose `off` reaches past the slot; one that is not claimed. -/
def slotted (s : State) : State := ens (fun e => { e with aSlots := [(0, ⟨0, []⟩)], bSlots := [(0, ⟨0, []⟩)] }) s
theorem test_hyp_opld : pass (insX 0x84 { x0 with sa := .v 2, sb := .v 3, sc := .zero }) (slotted one)
      (fun w => !w.memHeld && w.conflict false 0 63 = none && (w.E.slot false 0).isSome && !w.s.slotReading 0 0 false 0 && !w.s.slotWriting 0 false 0 w.s.tick)
      = true
    ∧ pass (insX 0x84 { x0 with sa := .v 2, sb := .v 3, sc := .zero }) one (fun w => w.E.slot false 0 = none) = true
    ∧ pass (insX 0x84 { x0 with sa := .v 2, sb := .lit, sc := .zero, lit := some 1 }) one any = true := by decide
theorem test_hyp_touch : pass (insX 0x96 { x0 with mod := 3 }) (windowed 1 one)
      (fun w => !w.memHeld && (w.E.win 3).state = 1 && w.E.leads record && w.s.copyEntry w.tid w.E record && w.s.conflict 0 w.E true 0 31 = none
        && w.T.queue.length < 8) = true
    ∧ pass (insX 0x96 { x0 with mod := 3 }) (windowed 3 one) (fun w => !w.memHeld && (w.E.win 3).state = 3) = true
    ∧ pass (insX 0x96 { x0 with mod := 3 }) one (fun w => !w.memHeld && (w.E.win 3).state = 0) = true := by decide
theorem test_hyp_copy_start : let s := copying fillCopy (windowed 2 here)
    (s.troupes.find? 0).map (·.queue) = some [5] ∧ (s.copies.find? 5).map (fun c => (c.guard, c.slot)) = some (none, none)
    ∧ (s.core (s.copyCore fillCopy)).lockRoom (s.copyLocks 5 fillCopy).length = true := by decide
theorem test_hyp_copy_guard : bvField (4#32 : Word) 3 2 = 1 ∧ bvField (8#32 : Word) 3 2 = 2 ∧ bvField (0#32 : Word) 3 2 = 0 := by decide
/-- The one sector of the fill lands: the window is valid, and the barrier at 1024 stands apart from the tile. -/
theorem test_hyp_landing_fill : let s := copying fillCopy (windowed 2 paged)
    (match (s.copyPages fillCopy (fillCopy.pages 0)).2 with
      | .ok ps => ps.all fun p => !s.mapWaits p.2 && !s.refuses p.2 && targetOf p.2 = .device
      | .error _ => false) = true
    ∧ fillCopy.hasLanded 0 = false ∧ recDir record = 0 ∧ recSlotEn record = false ∧ fillCopy.members = [fillCopy.ens]
    ∧ fillCopy.units ≤ (landMark fillCopy.landed fillCopy.tail 0).1 := by decide
theorem test_landing_fill : ((after (.sectorLanding 5 0) (copying fillCopy (windowed 2 paged))).bind fun s =>
    (s.ensembles.find? 0).map fun e => ((e.win 3).state, s.copies)) = some (3, []) := by decide
theorem test_hyp_landing_parks : (match ((copying fillCopy here).copyPages fillCopy (fillCopy.pages 0)).2 with
    | .ok _ => false
    | .error _ => true) = true := by decide
theorem test_landing_pattern : ((after (.sfillComplete 5) (copying { fillCopy with kind := .sfill 64 32 7 } here)).bind fun s =>
    (s.ensembles.find? 0).map fun e => e.stageRead 64 5) = some [7, 0, 0, 0, 7] := by decide
theorem test_hyp_landing_others : ((slotted here).ensembles.find? 0).map (fun e => (e.slot false 0).isSome) = some true
    ∧ ({ fillCopy with kind := .sgath [0x10000] 64 32 } : Copy).kind = .sgath [0x10000] 64 32 := by decide
/-- A reducing copy with the only contribution of its sector. -/
theorem test_hyp_reduce : let c : Copy := { fillCopy with record := recPut (recPut record 416 415 2) 460 460 1 }
    rf c.record 476 469 = 0 ∧ rf c.record 468 461 = 0
    ∧ (match ((copying c paged).copyPages c [0x10000 / 4096]).2 with
      | .ok ps => ps.all fun p => !paged.mapWaits p.2 && !paged.refuses p.2 && targetOf p.2 = .device
      | .error _ => false) = true := by decide



/-! Meeting points, operand stores, tiles and the array. -/

/-- Split 0 with some lanes, and a second split, both at their reconvergence address with one frame; or both at a rejoin. -/
def frame : Frame := { rcv := 0x40, forkId := 3, wr := 0 }
def half (uid : Nat) (m : Mask) : Split := { Split.first 0x40 0 with uid := uid, mask := m, state := 3, frames := [frame] }
def meeting (s : State) : State := troupe (fun t => { t with splits := [(0, half 0 1), (1, half 1 2)] }) s
def rejoining (s : State) : State := troupe (fun t =>
  { t with splits := [(0, { half 0 1 with frames := [], atRejoin := 4 }), (1, { half 1 2 with frames := [], atRejoin := 4 })] }) s
theorem test_hyp_fusion : ((meeting here).troupes.find? 0).bind (·.released) = some [half 0 1, half 1 2]
    ∧ ((meeting here).troupes.find? 0).map (fun T => (T.settled [half 0 1, half 1 2], (T.groupEntry [half 0 1, half 1 2]).map (·.1)))
      = some (true, some 0) ∧ (here.troupes.find? 0).bind (·.released) = none := by decide
theorem test_fusion : ((after (.reconvergenceFusion 0) (meeting here)).bind fun s => (s.work 0 0).map fun w => (w.S.mask, w.S.state, w.S.frames))
    = some (3, 1, []) := by decide
theorem test_hyp_shared_frames : sharedFrames [half 0 1, half 1 2] = 1 ∧ ∀ p ∈ [half 0 1, half 1 2], p.frames.length ≤ 16 := by decide
theorem test_hyp_rejoin : ((rejoining here).troupes.find? 0).bind (·.rejoined) ≠ none ∧ (here.troupes.find? 0).bind (·.rejoined) = none := by decide
theorem test_rejoin : ((after (.rejoinRelease 0) (rejoining here)).bind fun s => (s.work 0 0).map fun w => (w.S.mask, w.S.state, w.S.pc))
    = some (3, 1, 0x44) := by decide
/-- A split on the split stack, with entry 1 free; one being read back into entry 1; and a resident one to exchange it with. -/
def spilled (s : State) : State := troupe (fun t => { t with stack := [half 1 2] }) s
theorem test_hyp_swap_back : ((spilled here).troupes.find? 0).map (fun T => (T.stack, (T.splits.find? 0).isSome, (T.splits.find? 1).isNone,
    (T.coming.find? 1).isNone)) = some ([half 1 2], true, true, true) := by decide
theorem test_swap_back_read : ((after (.swapBackReadComplete 0 1) (troupe (fun t => { t with coming := [(1, half 1 2)] }) here)).map fun s =>
    (s.troupes.find? 0).map fun T => (T.coming, T.splits.map (·.1))) = some (some ([], [0, 1])) := by decide
theorem test_hyp_exchange : ((spilled here).troupes.find? 0).map (fun T => T.exchanged.map (·.1)) = some (some 0)
    ∧ (here.core 0).onStage = some 0 ∧ (here.contexts.find? 0).isSome = true := by decide
theorem test_hyp_exchange_bracket : ((split (fun p => { p with infull := true }) (spilled here)).troupes.find? 0).map
    (fun T => T.splits.any fun x => x.2.infull) = some true := by decide

theorem test_hyp_claim : pass (insX 0x80 { x0 with dst := .v 1 }) one (fun w => w.E.slot false 0 = none) = true
    ∧ pass (insX 0x80 { x0 with dst := .v 1 }) (slotted one) (fun w => (w.E.slot false 0).isSome) = true
    ∧ pass (insX 0x80 { x0 with dst := .v 1, mod := 1 })
      (ens (fun e => { e with aSlots := (List.range 8).map fun k => (k + 8, ⟨k, []⟩) }) one)
      (fun w => w.E.slot false 1 = none && (List.range 8).all fun p => w.s.ensembles.any fun e => e.2.core = 0 && (e.2.slotsTied false).contains p)
      = true := by decide
/-- The array reads slot 0 of store A for two cycles from cycle 0, and writes tile 0. -/
def mat0 : Mat := { id := 7, ens := 0, tid := 0, uid := 0, tile := 0, aslot := 0, bslot := 0, occ := 2, start := some 0, flags := 1, readers := [] }
def multiplying (s : State) : State := (slotted s).modCore 0 fun c => { c with mats := [mat0] }
theorem test_hyp_release : pass (insX 0x81 { x0 with dst := .v 1 }) (multiplying one) (fun w => w.s.now < 0 + 2) = true
    ∧ pass (insX 0x81 { x0 with dst := .v 1 }) (slotted one) any = true := by decide
/-- Tile 0 is claimed and free of writes. -/
def tiled (s : State) : State := ens (fun e => { e with tiles := [(0, ⟨0, [], 0⟩)] }) (slotted s)
theorem test_hyp_tiles : pass (insX 0x88 x0) one (fun w => w.E.tiles.find? 0 = none) = true ∧ pass (insX 0x88 x0) (multiplying one) any = true
    ∧ pass (insX 0x8A { x0 with sa := .lit, sb := .v 4, lit := some 256 }) (tiled one) any = true
    ∧ pass (insX 0x8A { x0 with sa := .zero, sb := .v 4 }) (tiled one) any = true
    ∧ pass (insX 0x89 { x0 with sa := .zero, dst := .v 4 }) (tiled one) (fun w => (w.E.tiles.find? 0).isSome) = true
    ∧ pass (insX 0x89 { x0 with sa := .zero, dst := .v 4 }) one (fun w => w.E.tiles.find? 0 = none) = true
    ∧ pass (insX 0x8B x0) (tiled one) any = true := by decide
theorem test_hyp_tiles_full : pass (insX 0x88 x0) (ens (fun e => { e with tiles := (List.range 4).map fun k => (k + 4, ⟨k, [], 0⟩) }) one)
    (fun w => w.E.tiles.find? 0 = none && (List.range 4).all fun p => w.s.ensembles.any fun e => e.2.core = 0 && e.2.tilesTied.contains p) = true := by
  decide
/-- FP32 has no class of the array; 0x41 names FP16 for both operands (R214, R223). -/
def mma0 : X := { x0 with sa := .lit, sb := .zero, lit := some 0x41 }
def checked (n : Ins) (k : MatKind) (w : Work) : Option Nat :=
  match w.matCheck n k with
  | .error e => some e.cause
  | .ok _ => none
theorem test_hyp_mma : pass (insX 0x85 mma0) (tiled one) (fun w => checked (insX 0x85 mma0) .dense w = none && !w.memHeld) = true
    ∧ pass (insX 0x85 mma0) one (fun w => checked (insX 0x85 mma0) .dense w = some 0x10) = true
    ∧ pass (insX 0x85 { mma0 with lit := some 0 }) (tiled one) (fun w => checked (insX 0x85 { mma0 with lit := some 0 }) .dense w = some 0x06) = true
    ∧ pass (insX 0x85 { mma0 with lit := some 0x4000000000000041 }) (tiled one)
      (fun w => checked (insX 0x85 { mma0 with lit := some 0x4000000000000041 }) .dense w = some 0x02) = true := by decide
theorem test_hyp_mma_kinds : pass (insX 0x86 { mma0 with sc := .zero }) (tiled one) (fun w => checked (insX 0x86 { mma0 with sc := .zero }) .sparse w = none) = true
    ∧ pass (insX 0x87 { mma0 with sc := .zero }) (tiled one) (fun w => checked (insX 0x87 { mma0 with sc := .zero }) .cued w = none) = true
    ∧ pass (insX 0x87 { mma0 with sc := .lit, lit := some 0x41 }) (tiled one)
      (fun w => checked (insX 0x87 { mma0 with sc := .lit }) .cued w = some 0x02) = true := by decide
theorem test_mma_ready : ((after (.matrixTileReady 0 7) (multiplying here)).map fun s => ((s.core 0).mats, tstat s)) = some ([], some 1#32) := by
  decide
/-- A cue action that starts an mmaco, late. -/
def act0 (k : ActKind) : Act := { id := 9, ctx := 0, tid := 0, cue := 2, off := 3, fires := some 0, late := true, kind := k }
def acting (k : ActKind) (s : State) : State := s.modCore 0 fun c => { c with acts := [act0 k] }
theorem test_mmaco_start : ((after (.mmacoStart 0 9) (acting (.start 7) ((slotted here).modCore 0 fun c =>
    { c with mats := [{ mat0 with start := none }] }))).map fun s => ((s.core 0).mats.map (·.start), tstat s)) = some ([some 0], some flagLate) := by
  decide

/-! Cues. -/

theorem test_hyp_cuearm : pass (insX 0xB8 { x0 with sa := .lit, lit := some 0x302 }) one any = true
    ∧ pass (insX 0xB8 { x0 with sa := .lit, lit := some 64 }) one any = true := by decide
def cue0 (m : BitVec 8) : X := { x0 with sa := .lit, sb := .zero, mod := m, lit := some 0x302 }
def actsFull (s : State) : State := s.modCore 0 fun c => { c with acts := List.replicate 32 (act0 (.wait 0)) }
theorem test_hyp_cue : pass (insX 0xB9 (cue0 12)) (windowed 1 one) (fun w => (w.E.win 3).state = 1 && !(w.s.core 0).actsFull) = true
    ∧ pass (insX 0xB9 (cue0 12)) one (fun w => (w.E.win 3).state = 0) = true
    ∧ pass (insX 0xB9 (cue0 2)) (actsFull one) (fun w => (w.s.core 0).actsFull) = true
    ∧ pass (insX 0xB9 { x0 with sa := .s 1, sb := .lit, mod := 1, lit := some 1024 }) one (fun w => w.stageAddr (insX 0xB9 { x0 with lit := some 1024 }) .lit 0 = 1024)
      = true ∧ pass (insX 0xB9 { x0 with sa := .s 1, sb := .lit, mod := 1, lit := some 1032 }) one any = true := by decide
theorem test_hyp_cuewait : pass (insX 0xBA { x0 with sa := .lit, lit := some 0x302 }) one (fun w => !(w.s.core 0).actsFull) = true
    ∧ pass (insX 0xBB { x0 with dst := .v 1, sa := .zero, mod := 5 }) one any = true ∧ pass (insX 0xBC { x0 with dst := .v 1, mod := 5 }) one any = true := by
  decide
/-- The desk of context 0 holds a broadcast of cue 2, and core 0 an action that waits for it. -/
def armed (s : State) : State := s.modCtx 0 fun c => { c with arms := [(2, ⟨5, false, 4⟩)] }
theorem test_hyp_broadcast_cue : ((armed here).contexts.find? 0).bind (fun x => (x.arms.find? 2).map (·.id)) = some 4 := by decide
theorem test_broadcast_cue : ((after (.cueBroadcast 0 2 4) (armed here)).bind fun s => (s.contexts.find? 0).map (·.arms)) = some [] := by decide
theorem test_hyp_copy_write : (((acting (.wait 0) here).core 0).acts.map (·.id)).Nodup
    ∧ ({ act0 (.wait 0) with fires := none } : Act).fires = none := by decide
theorem test_hyp_fires : ((acting (.touch 3 0) (windowed 1 here)).core 0).acts.find? (fun x => x.id = 9) = some (act0 (.touch 3 0))
    ∧ ((windowed 1 here).ensembles.find? 0).map (fun E => ((E.win 3).state, recSlide (E.win 3).record)) = some (1, false) := by decide
theorem test_guard_fires : ((after (.cueGuardFire 0 9) (acting (.guard 5 true) here)).bind fun s => (s.troupes.find? 0).map fun T =>
    (bvField T.qstat 11 10, T.tstat)) = some (1, flagLate) := by decide
theorem test_arrival_fires : ((after (.cueArrFire 0 9) (acting (.arr 1024 [] 0 []) (barred 0 here))).bind fun s => (s.ensembles.find? 0).map fun E =>
    E.bar 1024 % 16) = some 2 := by decide
theorem test_hyp_arrival_waits : ((unacked (acting (.arr 1024 [3] 0 []) here)).troupes.find? 0).map (·.unacked) = some [3] := by decide
theorem test_cuewait_fires : ((after (.cuewaitFire 0 9) (acting (.wait 0) (split (fun p => { p with state := 2, wait := .cue 9, waitLen := 12 }) here))).bind pc)
    = some 12#32 := by decide

/-! Productions, overlays, traps and the system instructions. -/

/-- A production, and a launch of one production. -/
def prod0 : Prod :=
  { launch := 0, index := 0, depth := 0, from_ := none, parent := none, troupes := 1, regs := 64, scalars := 16, stage := 0, acq := 0, rel := 0,
    coop := false, producer := true, entry := 0, args := 0, gx := 1, gy := 1, gz := 1, energy := 0, place := .admission 0, next := 0,
    ended := 0, trigs := 0, children := 0, origin := 0, retiring := false, admitted := false }
def launch0 : Launch :=
  { seq := 0, spawns := 0, ctx := 0, queue := 0, index := 0, die := 0, counter := 1, regs := 64, scalars := 16, stage := 0, seedProd := false,
    entry := 0, energy := 0, args := 0, sig := 0, acq := 0, rel := 0, wide := 1, ranges := [], deps := [], admitted := true, started := true,
    hasProducer := false, triggered := false }
/-- A state with the production of its ensemble and the launch of that. -/
def produced (p : Prod) (s : State) : State := { s with prods := [(0, p)], launches := [(0, launch0)], tick := 10 }
/-- The descriptor of a child at 0x10000: 2 troupes of 64 registers; in the pages of `paged`. -/
def childDesc : Memory := [(0x10004, 2), (0x10005, 8), (0x10006, 16)]
def spawning (s : State) : State := { produced prod0 (at10000 s) with mem := tables ++ childDesc }
def spawn0 : X := { x0 with dst := .v 1, sa := .v 8 }
theorem test_hyp_spawn : pass (insX 0xB0 { spawn0 with disp := 4 }) (spawning paged) (fun w => !w.memHeld && w.pairAddr (insX 0xB0 { spawn0 with disp := 4 }) 0 % 64 ≠ 0) = true
    ∧ pass (insX 0xB0 spawn0) ({ spawning paged with prods := [(0, { prod0 with depth := 10 })] })
      (fun w => !w.memHeld && 10 ≤ (w.s.prod w.E.prod).depth) = true
    ∧ pass (insX 0xB0 spawn0) (spawning paged) (fun w => reachesAll w .load (fun _ => true) 64 (fun _ => 0x10000) [0] && quiet w
      && (w.s.prods.all fun e => e.1 < w.s.tick)
      && descOk (w.s.peek 0x10000 64) (prodOfBytes (w.s.peek 0x10000 64) 0 1 w.T.ens 0 w.E.prod 0) false) = true
    ∧ pass (insX 0xB0 { spawn0 with w0 := { w0 with scope := .system } }) (spawning paged) quiet = true := by decide
/-- A descriptor of 0 troupes, a full group counter, a full green room. -/
theorem test_hyp_spawn_turned : pass (insX 0xB0 spawn0) { spawning paged with mem := tables }
      (fun w => descOk (w.s.peek 0x10000 64) (prodOfBytes (w.s.peek 0x10000 64) 0 1 w.T.ens 0 w.E.prod 0) false = false) = true
    ∧ pass (insX 0xB0 spawn0) (ens (fun e => { e with groups := [(0, 65535)] }) (spawning paged)) (fun w => w.E.groups.get 0 = 65535) = true
    ∧ (let s : State := { spawning paged with prods := (1, { prod0 with place := .green }) :: (spawning paged).prods }
      pass (insX 0xB0 spawn0) s (fun w => w.s.greenOf 0 ≠ [] && bvField (w.s.ctx 0).grquota 15 0 ≤ bvField (w.s.ctx 0).grquota 31 16) = true) := by
  decide
theorem test_spawn_counts : ((after (.spawn spawn0) (spawning paged)).map fun s =>
    (s.prods.map fun e => (e.2.index, e.2.depth, e.2.troupes, e.2.children), (s.launches.find? 0).map (·.counter), pending 0 s))
    = some ([(0, 0, 1, 1), (1, 1, 2, 0)], some 2, some [0#32]) := by decide
theorem test_hyp_join : pass (insX 0xB1 { x0 with mod := 1 }) one (fun w => (List.range 8).all fun k => w.E.groups.get k = 0) = true
    ∧ pass (insX 0xB3 { x0 with w0 := { w0 with scope := .die }, mod := 1 }) one (fun w => (List.range 8).all fun k => w.E.groups.get k = 0) = true
    ∧ pass (insX 0xB1 { x0 with mod := 1 }) (ens (fun e => { e with groups := [(0, 1)] }) one) (fun w => w.E.groups.get 0 ≠ 0) = true := by decide
theorem test_hyp_trig : pass (insX 0xB2 x0) (produced prod0 one) (fun w => quiet w && w.E.triggered = false && 0 + 1 = prod0.gx * prod0.gy * prod0.gz) = true
    ∧ pass (insX 0xB2 x0) (produced { prod0 with gx := 2 } one) quiet = true
    ∧ pass (insX 0xB2 x0) (produced { prod0 with producer := false } one) quiet = true
    ∧ pass (insX 0xB2 x0) (unacked one) (fun w => !quiet w) = true := by decide
/-- The launch is triggered by the last trig of its producer. -/
theorem test_trig : ((after (.trig x0) (produced prod0 one)).map fun s => s.launches.map (·.2.triggered)) = some [true] := by decide

/-- The directory of the overlays stands at 0x20000: overlay 1 is 4 bytes at 0x30000. -/
def odirMem : Memory := tables ++ [(0x20012, 3), (0x2001C, 4), (0x2001F, 0x80), (0x30000, 0x24)]
def overlaid (s : State) : State := { s.modCtx 0 fun c => { c with odir := 0x20000#64 } with mem := odirMem, tick := 10 }
def ovld0 (k : Nat) : X := { x0 with dst := .v 1, sa := .lit, lit := some k }
theorem test_hyp_ovld : pass (insX 0xB5 (ovld0 4096)) (overlaid paged) (fun w => w.T.pend = [] && w.s.faultWaits = []) = true
    ∧ pass (insX 0xB5 (ovld0 1)) (overlaid paged) (fun w => (w.s.ctxSeen 0 0).isSome && ((w.s.core 0).slotOf 0 1).isNone
      && (w.s.core 0).pickSlot = some 1 && (w.s.core 0).slots.length = 4
      && match (w.s.translate 0 none 0x8000 0 false .ovld 0x20010).2 with
        | .ok m => m.pa = 0x20010
        | .error _ => false) = true
    ∧ pass (insX 0xB5 (ovld0 1)) (overlaid here) (fun w =>
        match (w.s.translate 0 none 0 0 false .ovld 0x20010).2 with
        | .ok _ => false
        | .error _ => true) = true
    ∧ pass (insX 0xB5 (ovld0 0)) (overlaid paged) (fun w => ((w.s.core 0).slotOf 0 0).isSome) = true := by decide
theorem test_ovld_status : ((after (.ovld (ovld0 4096)) (overlaid paged)).bind (pending 0)) = some [2#32] := by decide
/-- A load of overlay 1 whose bytes have arrived. -/
def load1 : OvlLoad :=
  { id := 11, core := 0, ctx := 0, ovl := 1, tid := 0, uid := 0, dst := none, slot := some 1, pages := [0x30000], size := 4, sup := false,
    base := 0, pc := 0 }
theorem test_ovld_copy : ((after (.ovldCopyComplete 11) { overlaid paged with ovlLoads := [load1] }).map fun s =>
    ((s.core 0).slots[1]?.map fun x => (x.tag, x.code), s.ovlLoads)) = some (some (some (0, 1), [0x24, 0, 0, 0]), []) := by decide
theorem test_hyp_image : imageStatus (zeros 64) false = 1 := by decide

/-- What taking a trap asks of a state holds of `here`. -/
theorem test_hyp_trap : (here.work 0 0).map (fun w => (w.T.tstat.getLsbD 16, targetOf (blockBase w.ctx w.T.block),
      targetOf (blockBase w.ctx w.T.block + 0x13FFFF), here.backed (blockBase w.ctx w.T.block), here.backed (blockBase w.ctx w.T.block + 0x13FFFF)))
      = some (false, .device, .device, true, true)
    ∧ (here.ctxSeen 0 0).isSome = true ∧ ((here.core 0).slotOf 0 (bvField (here.ctx 0).tvec 27 16)).isSome = true
    ∧ here.issuer.isSome = true := by decide
theorem test_hyp_traps : pass (insX 0xC0 { x0 with mod := 3 }) here any = true ∧ pass (insX 0xC1 { x0 with sa := .s 0 }) here any = true
    ∧ pass (insX 0xC5 x0) here any = true ∧ pass (insB3 0xC5 b0) here any = true := by decide
theorem test_hyp_fell : ((split (fun p => { p with fell := some 4 }) here).work 0 0).map (fun w => w.S.fell) = some (some 4) := by decide
set_option maxRecDepth 20000 in
/-- A trap saves its cause and its program counter, raises the level, and goes to TVEC (R389, R390). -/
theorem test_trap : ((after (.trap { x0 with mod := 3 }) (split (fun p => { p with pc := 8 }) here)).map fun s =>
    (tstat s, pc s, (s.troupes.find? 0).map (·.ss.get 2))) = some (some flagLevel, some 0#32, some 0x13#32) := by decide +kernel
theorem test_trap_record : (trapRecord (Troupe.start 0 0 0 0 256 64 0 0 0) 2 (Split.first 8 0) { cause := 0x13, info := 3, action := 1 }
    { pc := 8, ilen := 12, insn := [], active := 1 }).take 10 = [0x13, 0, 2, 1, 0, 0xFF, 12, 0, 8, 0] := by decide

/-- A report that waits for the split's next instruction (R393). -/
def toHear : State := troupe (fun t => { t with due := [⟨0x08, 0x10000, 64, 3⟩] }) here
theorem test_hyp_report : here.hearer 0 0 = some 0 ∧ here.hearer 7 9 = none ∧ (toHear.issuer.bind (·.reported)).isSome = true
    ∧ ((troupe (fun t => { t with trapPc := some 8 }) here).troupes.find? 0).any (fun t => t.allSplits.all fun p => !p.handles) = true
    ∧ (here.issuer.bind (·.reported)) = none := by decide
set_option maxRecDepth 20000 in
theorem test_report : (match toHear.issue exec with
    | .next s => (s.troupes.find? 0).map fun t => (t.ss.get 2, t.due.length, t.trapPc)
    | _ => none) = some (0x08#32, 0, some 0#32) := by decide +kernel

/-- Verification has failed: no register responds (R446). -/
theorem test_dead : ((after (.evheadWrite 5) { here with bootstat := 2 }).map (·.evhead)) = some 0#32
    ∧ ((after (.evheadWrite 5) here).map fun s => (s.evhead, s.msix0)) = some (5#32, true) := by decide

/-! Trap returns, system registers, shootdowns, faults, queues and placement. -/

/-- A handler at supervisor level, whose record says MASK 1, PC 8, ILEN 12 and ACTION 1 or 0. -/
def handling (action : Byte) (s : State) : State :=
  { troupe (fun t => { t with tstat := flagLevel, trapPc := some 8 }) (split (fun p => { p with mask := 1, hand := true }) s) with
    mem := [(0x10003, action), (0x10006, 12), (0x10008, 8), (0x10080, 1)].filter (·.2 ≠ 0) }
def recMask (w : Work) : Mask := BitVec.ofNat 128 (leNat (w.s.peek (blockBase w.ctx w.T.block + 0x080) 16))
theorem test_hyp_tret : pass (insX 0xC2 x0) (handling 1 here)
      (fun w => quiet w && recMask w = w.S.mask && w.T.allSplits.all fun p => !p.hand || p.uid = w.S.uid) = true
    ∧ pass (insB3 0xC2 b0) (handling 0 here)
      (fun w => quiet w && recMask w = w.S.mask && w.T.trapPc = some 8#32 && leNat (w.s.peek 0x10000 1) ≠ 0x01) = true
    ∧ pass (insB3 0xC2 b0) (unacked (handling 0 here)) (fun w => !quiet w) = true := by decide
set_option maxRecDepth 20000 in
theorem test_tret : ((after (.tretBase b0) (handling 1 here)).map fun s => (pc s, tstat s)) = some (some 20#32, some 0#32) := by decide
theorem test_hyp_double_trap : ((handling 1 here).work 0 0).map (fun w => w.T.tstat.getLsbD 16) = some true
    ∧ ((handling 1 here).contexts.find? 0).isSome = true
    ∧ pass (insB3 0xC2 b0) (split (fun p => { p with mask := 3 }) (handling 1 here)) (fun w => quiet w && recMask w ≠ w.S.mask) = true := by decide
theorem test_double_trap : ((after (.trap x0) (handling 1 here)).map fun s => (s.troupes, s.contexts.map (·.2.terminated),
    (s.die 0).reports.map fun r => (r.code, r.num))) = some ([], [true], [(2, 0x13)]) := by decide
/-- Supervisor level. -/
def sup (s : State) : State := troupe (fun t => { t with tstat := flagLevel }) s
theorem test_hyp_halt : pass (insX 0xC6 x0) (sup here) (·.drained) = true ∧ pass (insX 0xC6 { x0 with mod := 1 }) (sup here) (·.drained) = true
    ∧ pass (insX 0xC6 x0) (split (fun p => { p with landings := [⟨5, 9⟩] }) (sup here)) (fun w => !w.drained) = true := by decide

theorem test_hyp_rdsr : pass (insX 0xC3 { x0 with dst := .v 2 }) here (fun w => w.T.pend = [] && (w.s.core 0).mats = []) = true
    ∧ pass (insX 0xC3 { x0 with dst := .v 2, mod := 1 }) here any = true
    ∧ pass (insX 0xC3 { x0 with dst := .v 2, mod := 0x4F }) (sup here) any = true
    ∧ pass (insX 0xC3 { x0 with dst := .v 2 }) (multiplying here) (fun w => (w.s.core 0).mats ≠ []) = true := by decide
theorem test_hyp_wrsr : pass (insX 0xC4 { x0 with sa := .s 2 }) here any = true ∧ pass (insX 0xC4 { x0 with sa := .s 2, mod := 1 }) here any = true
    ∧ pass (insX 0xC4 { x0 with sa := .s 2, mod := 0x40 }) (sup here) (fun w => (w.s.contexts.find? w.E.ctx).isSome) = true
    ∧ pass (insX 0xC4 { x0 with sa := .s 2, mod := 0x4F }) (sup here) any = true := by decide
theorem test_wrsr_tstat : ((after (.wrsr { x0 with sa := .lit, lit := some 0xFFFFFFFF }) here).bind tstat) = some 0x17F#32 := by decide
theorem test_hyp_reads : pass (insX 0xC7 { x0 with dst := .v 2 }) here any = true ∧ pass (insB3 0xC8 { b0 with dst := .v 2 }) here any = true
    ∧ pass (insX 0xC9 { x0 with dst := .v 2, mod := 1 }) (sup here) any = true := by decide
theorem test_rdid : ((after (.rdid { x0 with dst := .v 2, mod := 1 }) (sup here)).bind (pending 0)) = some [0x00010103#32, 0x0E121536#32] := by decide

def inv0 (pages : Nat) : X := { x0 with sa := .s 2, sb := .lit, lit := some pages }
theorem test_hyp_tlbinv : pass (insX 0xCA (inv0 1)) (sup here) any = true ∧ pass (insX 0xCA (inv0 4096)) (sup here) any = true
    ∧ pass (insX 0xCA (inv0 4097)) (sup here) (fun w => 4096 < (w.src true (insX 0xCA (inv0 4097)) .lit 0 (lowLane w.act)).toNat) = true
    ∧ pass (insX 0xCA { x0 with sa := .s 2, sb := .zero }) (sup here) (fun w => w.src true (insX 0xCA x0) .zero 0 (lowLane w.act) = 0) = true
    ∧ pass (insX 0xCA { x0 with mod := 1 }) (sup here) any = true := by decide
/-- A shootdown that waits for core 0 alone, or for another too. -/
def shoot0 (left : List Nat) : Shoot := { id := 9, tid := 0, uid := 0, kind := 1, ctxid := 0, addr := 0, count := 1, left := left, frames := [] }
def shooting (left : List Nat) (s : State) : State :=
  { split (fun p => { p with state := 2, wait := .shoot 9, waitLen := 12 }) s with shoots := [shoot0 left] }
theorem test_hyp_acknowledge : ((shooting [0] here).shoots.find? fun y => y.id = 9) = some (shoot0 [0])
    ∧ ((shooting [0, 7] here).shoots.find? fun y => y.id = 9) = some (shoot0 [0, 7]) ∧ (here.troupes.find? (shoot0 [0]).tid).isSome = true := by
  decide
theorem test_acknowledge : ((after (.shootdownAcknowledge 0 9) (shooting [0] here)).map fun s => (s.shoots, pc s)) = some ([], some 12#32) := by
  decide

/-! Replayable faults: an instruction of split 0 parked under token 4, in an open group. -/

def wait0 : FaultWait :=
  { id := 9, core := 0, waiter := .instr 0 0, ctxid := 0, va := 0x5000, cause := 9, reason := 1, level := 3, acc := 0, slot := 0, win := 255,
    pc := 0, lanes := 3, done := 0, buffered := true, token := some 4, closing := false }
def parking (s : State) : State :=
  { troupe (fun t => { t with parked := [{ uid := 0, pc := 0, insn := [], active := 3, done := 1, go := false }] }) s with
    faultWaits := [wait0], dies := [(0, { s.die 0 with groups := [{ token := 4, ctxid := 0, page := 5 }], records := [faultRecord wait0 0 4] })] }
theorem test_hyp_fault_record : ((parking here).die 0).records ≠ []
    ∧ (((parking here).die 0).fqtail - ((parking here).die 0).fqhead).toNat < 2 ^ bvField ((parking here).die 0).fqcfg 4 0 := by decide
theorem test_fault_record : ((after (.faultRecordWrite 0) (parking here)).map fun s => ((s.die 0).records, (s.die 0).fqtail, s.mem.readN 1 1,
    s.mem.readN 0x1C 1)) = some ([], 1#32, [0x50], [4]) := by decide
theorem test_hyp_reply : (∃ g ∈ ((parking here).die 0).groups, g.token = 4) ∧ (∀ g ∈ ((parking here).die 0).groups, g.token ≠ 5)
    ∧ ((parking here).faultWaits.filter fun g => g.core / 96 = 0 ∧ g.token = some 4) = [wait0]
    ∧ ((parking here).work 0 0).map (fun w => (w.T.trapPc, w.T.parked.map (·.uid), w.S.uid, w.T.tstat.getLsbD 16)) = some (none, [0], 0, false)
    ∧ (∀ f ∈ (parking here).faultWaits, f.token.isSome = true ∨ f.closing = true) := by decide
theorem test_reply_to_none : ((after (.frplyReplay 0 5) (parking here)).map fun s => (s.die 0).frstat) = some 1#32 := by decide
set_option maxRecDepth 20000 in
theorem test_reply_raises : ((after (.frplyRaise 0 4) (parking here)).map fun s => (tstat s, (s.troupes.find? 0).map (·.ss.get 2),
    (s.die 0).frstat)) = some (some flagLevel, some 9#32, 0#32) := by decide +kernel
theorem test_hyp_replay : ((parking here).faultWaits.find? fun f => f.id = 9) = some wait0
    ∧ ((parking here).troupes.find? 0).bind (fun T => T.parked.find? fun q => q.uid = 0) = some ⟨0, 0, [], 3, 1, false⟩
    ∧ ((copying { fillCopy with parked := true } here).copies.find? 5).map (·.todo) = some [] := by decide
theorem test_replay : ((after (.parkedReplay 9) (parking here)).bind fun s => (s.work 0 0).map (·.S.redo)) = some (some (3, 1)) := by decide

/-! The front ends: queue 0 of context 0, its descriptor at 0x40000, its ring of 16 packets at 0x50000. -/

/-- The descriptor with STATE and WRITE. -/
def desc0 (state write : Byte) : Memory := [(0x40002, 5), (0x40008, 4), (0x40010, write), (0x40020, state)].filter (·.2 ≠ 0)
/-- A state with that descriptor, a packet at the head of the ring, and the queue in slot 0 of die 0 or in none. -/
def queued (state write : Byte) (packet : Memory) (slot : Option (Nat × Nat)) (s : State) : State :=
  { s with qtbase := 0x40000, mem := tables ++ desc0 state write ++ packet, tick := 10,
           queues := [(0, { s.queue 0 with slot := slot, num := 0 })] }
def nop0 : Memory := [(0x50000, 4)]
theorem test_hyp_doorbell : (queued 0 0 [] none paged).qState 0 = 0 ∧ (queued 3 1 nop0 none paged).qState 0 = 3
    ∧ (queued 1 1 nop0 none paged).qState 0 = 1 := by decide
theorem test_hyp_queue_map : let s := queued 1 1 nop0 none paged
    (s.queue 0).slot = none ∧ s.qState 0 = 1 ∧ s.qGet 0 0x10 8 ≠ s.qGet 0 0x18 8 ∧ s.descError 0 = none ∧ s.slotFor 0 = some (0, 0)
    ∧ pf ((s.qPut 0 0x20 1 2).packet 0 0) 0 2 = 4 ∧ Memory.wf s.mem = true := by decide
theorem test_hyp_queue_wrong : (queued 1 1 [(0x50000, 4)] none (paged.modCtx 0 fun c => { c with ctxid := 5 })).descError 0 = some (4, 0x40000) := by
  decide
theorem test_queue_map : ((after (.queueMap 0) (queued 1 1 nop0 none paged)).map fun s => ((s.queue 0).slot, s.qState 0)) = some (some (0, 0), 2) := by
  decide
/-- What `AtHead` asks, for the packet 0 of a TYPE. -/
def atHead (ty : Nat) (s : State) : Bool :=
  (s.queue 0).slot.isSome && (s.queue 0).head = none && !(s.queue 0).preload && s.qState 0 = 2 && s.qGet 0 0x18 8 = 0 && s.qGet 0 0x10 8 ≠ 0
  && pf (s.peek 0x50000 64) 0 2 % 16 = ty && (s.queue 0).inFlight = [] && s.ctxNamed (s.qGet 0 0x0B 1) (s.qGet 0 0x0C 4) = some 0
def headed (packet : Memory) : State := queued 2 1 packet (some (0, 0)) paged
def wrong (s : State) : Option (Nat × Nat) := s.packetError 0 0 (s.ctx 0) (s.peek 0x50000 64)
/-- A wait for the word at 0x10000 to equal 0, or to differ; a signal that adds 1 to it; a preload of entry 16; a launch. -/
def waitOn (op : Byte) : Memory := [(0x50000, 2), (0x50002, op), (0x5000A, 1)]
def signal0 : Memory := [(0x50000, 3), (0x50002, 1), (0x5000A, 1), (0x50010, 1)]
def preload0 : Memory := [(0x50000, 5), (0x50002, 16), (0x50003, 1)]
def launchPacket0 : Memory := [(0x50000, 1), (0x50002, 8), (0x50003, 16)]
theorem test_hyp_packets : (atHead 4 (headed nop0) && atHead 2 (headed (waitOn 1)) && atHead 2 (headed (waitOn 2)) && atHead 3 (headed signal0)
    && atHead 5 (headed preload0) && atHead 1 (headed launchPacket0)) = true
    ∧ [nop0, waitOn 1, waitOn 2, signal0, preload0, launchPacket0].map (fun p => wrong (headed p)) = List.replicate 6 none
    ∧ wrong (headed [(0x50000, 4), (0x50002, 1)]) = some (1, 0) := by decide
theorem test_hyp_packet_word : let s := headed (waitOn 1)
    s.feTranslate (s.ctx 0) (s.qSys 0) 0x10000 = some 0x10000
    ∧ leNat (((s.started 0 0).syncRead 0 0x10000).peek 0x10000 8) = 0 := by decide
theorem test_signal : ((after (.signalPacket 0) (headed signal0)).map fun s => (s.mem.readN 0x10000 2, s.qGet 0 0x18 8)) = some ([1, 0], 1) := by
  decide
theorem test_wait_packet : ((after (.waitPacket 0) (headed (waitOn 2))).map fun s => (s.qState 0, (s.queue 0).waiting, (s.queue 0).slot))
    = some (3, some 0x10000, none) := by decide
theorem test_launch_packet : ((after (.launchPacket 0) (headed launchPacket0)).map fun s => s.launches.map fun l => (l.2.regs, l.2.scalars, l.2.started))
    = some [(64, 16, false)] := by decide
def parkedOn (op : Byte) : State :=
  let s := queued 3 2 (waitOn op) none paged
  { s with mem := tables ++ [(0x40002, 5), (0x40008, 4), (0x40010, 2), (0x40018, 1), (0x40020, 3)] ++ waitOn op,
           queues := [(0, { s.queue 0 with waiting := some 0x10000, cond := op.toNat })] }
theorem test_hyp_reevaluate : ((parkedOn 1).queue 0).waiting = some 0x10000 ∧ (parkedOn 1).qState 0 ≠ 0
    ∧ ((parkedOn 1).queue 0).cond = 1 ∧ ((parkedOn 1).queue 0).value = 0
    ∧ ({ (parkedOn 1).queue 0 with preload := true } : Queue).preload = true := by decide
theorem test_reevaluate : ((after (.waitPacketReevaluate 0) (parkedOn 1)).map fun s => ((s.queue 0).waiting, s.qState 0)) = some (none, 1)
    ∧ ((after (.waitPacketReevaluate 0) (parkedOn 2)).map fun s => ((s.queue 0).waiting, s.qState 0)) = some (some 0x10000, 3) := by decide

/-! Launches, productions, placement. -/

def launching (l : Launch) : State := { headed launchPacket0 with launches := [(0, l)] }
theorem test_hyp_launch_start : ((launching { launch0 with started := false, admitted := false }).launches.map (·.1)).Pairwise (· < ·)
    ∧ ((launching { launch0 with started := false }).launches.filter fun y => y.2.die = 0 && y.2.started).length = 0
    ∧ ((launching { launch0 with started := false }).part 0).budget = 0 := by decide
theorem test_launch_start : ((after (.launchStart 0) (launching { launch0 with started := false, admitted := false })).map fun s =>
    (s.launches.map fun l => (l.2.started, l.2.counter), s.prods.map fun p => (p.2.depth, p.2.regs))) = some ([(true, 1)], [(1, 64)]) := by decide
/-- The only troupe of an ensemble has no split left. -/
def ending (s : State) : State := troupe (fun t => { t with splits := [] }) (produced prod0 s)
theorem test_hyp_troupe_end : ((ending here).troupes.find? 0).map (fun T => (T.allSplits, T.pend, T.unacked, T.queue)) = some ([], [], [], [])
    ∧ (ending here).copies = [] ∧ (ending here).ovlLoads = [] ∧ (∀ k ∈ (ending here).cores, ∀ m ∈ k.2.mats, m.tid ≠ 0)
    ∧ ((unacked (ending here)).troupes.find? 0).map (·.unacked) = some [3] := by decide
theorem test_troupe_end : ((after (.troupeEnd 0) (ending here)).map fun s => (s.troupes, s.ensembles, s.prods.map fun p => (p.2.ended, p.2.trigs)))
    = some ([], [], [(1, 1)]) := by decide
def retiringProd (p : Prod) (s : State) : State := { s with prods := [(0, { p with ended := 1 })], launches := [(0, launch0)] }
theorem test_hyp_retire : (prod0.gx * prod0.gy * prod0.gz, prod0.children, launch0.counter) = (1, 0, 1)
    ∧ ({ prod0 with rel := 5 } : Prod).retiring = false := by decide
theorem test_retire : ((after (.productionRetire 0) (retiringProd prod0 here)).map fun s => (s.prods, s.launches)) = some ([], []) := by decide
/-- The signal of a launch, its word at 0x10000 away from the descriptor. -/
theorem test_retire_signals : ((after (.productionRetire 0)
    { retiringProd prod0 (headed nop0) with launches := [(0, { launch0 with sig := 0x10000 })] }).map fun s => s.mem.readN 0x10000 2)
    = some [0xFF, 0xFF] := by decide
theorem test_hyp_interval : let s : State := { here with prods := [(3, prod0)], launches := [(0, launch0)] }
    prod0.place = .admission 0 ∧ (s.ctx (s.prodCtx prod0)).part = 0 := by decide
theorem test_hyp_aging : ({ here.queue 0 with since := some 0 } : Queue).since = some 0 ∧ 0 + 4194304 ≤ ({ here with now := 4194304 } : State).now := by
  decide
theorem test_aging : ((after (.priorityAging 0)
    { headed nop0 with now := 4194304, queues := [(0, { here.queue 0 with since := some 0, level := 19 })] }).map fun s => (s.queue 0).level)
    = some 19 := by decide
def greened (s : State) : State := { s with prods := [(3, { prod0 with place := .green })], launches := [(0, launch0)] }
theorem test_hyp_green_room : (greened here).greenOf 0 = [(3, { prod0 with place := .green })] ∧ (greened here).bufferUse 0 < 256
    ∧ ((greened here).ctx 0).stopped = false ∧ ((greened here).prods.map (·.1)).Pairwise (· < ·) := by decide
theorem test_green_room : ((after (.greenRoomTransfer 0) (greened here)).map fun s => s.prods.map (·.2.place)) = some [.buffer 0] := by decide
/-- A production of one ensemble waits in the spawn buffer, beside the ensemble of `here`. -/
def placing (s : State) : State := { s with prods := [(3, { prod0 with place := .buffer 0, parent := some 2 })], launches := [(0, launch0)], tick := 10 }
set_option maxRecDepth 20000 in
theorem test_hyp_placement : ((placing here).requests_ 0).map (fun r => (r.prod, r.ens, r.count)) = [(3, [], 1)]
    ∧ ((placing here).requests_ 0).map (fun r => (placing here).whereTo 0 r []) = [some [0]]
    ∧ (∀ e ∈ (placing here).youngest 0, ((placing here).blocked e.1 && (placing here).inPark e.1) = false)
    ∧ ((placing here).ensembles.map (·.1)).all (· < (placing here).tick) = true ∧ here.requests_ 0 = [] := by decide
/-- The ensemble of `here` is saved and returns. -/
def returning (s : State) : State := ens (fun e => { e with pos := .saved true }) (produced { prod0 with place := .placed, next := 1 } s)
set_option maxRecDepth 20000 in
theorem test_hyp_return : ((returning here).requests_ 0).map (fun r => (r.ens, (returning here).whereTo 0 r [])) = [([0], some [0])] := by decide
def winged (on : Option Nat) (s : State) : State := ({ s with now := 100 } : State).modCore 0 fun c => { c with onStage := on, wings := [0], auto := true }
theorem test_hyp_stage_switch : (0 ∈ ((winged (some 1) here).core 0).wings) ∧ (winged none here).hasEligible 0 0 = true
    ∧ (winged (some 1) here).hasEligible 0 1 = false ∧ ((winged (some 1) here).core 0).from_ - 1 + 64 ≤ (winged (some 1) here).now
    ∧ ((winged (some 1) here).modCore 0 fun c => { c with from_ := 80 }).now < 80 - 1 + 64 := by decide
theorem test_stage_switch : ((after (.autoSwitch 0) (winged (some 1) here)).map fun s => ((s.core 0).onStage, (s.core 0).wings)) = some (some 0, [1]) := by
  decide

/-! Stops, checkpoints, stacks, links, caps, registers, checks and the machine. -/

theorem test_hyp_stop : here.wholeGroups [0] = [0] ∧ (here.saveBar 0).isSome = true ∧ here.ensOf 0 = [0]
    ∧ (here.ensembles.find? 0).map (fun e => (e.pos, e.group)) = some (.resident, []) := by decide
theorem test_stop : ((after (.stop [0] false) here).map fun s => (s.ensembles.map (·.2.pos), s.contexts.map (·.2.stopped)))
    = some ([.stopped false], [true]) := by decide
def stopping (park : Bool) (s : State) : State := ens (fun e => { e with pos := .stopped park }) s
theorem test_hyp_capture : ((stopping true here).troupesOf 0).all (fun x => x.2.unacked = [] && x.2.pend = [] && x.2.allSplits.all fun p => p.landings = [])
      = true ∧ ((stopping true here).core 0).mats = [] ∧ (((stopping true here).troupesOf 0).map fun x => x.2.block).Nodup
    ∧ ((stopping true here).troupesOf 0).all (fun x => x.2.splits.all fun p => p.2.shadow.length ≤ 16) = true
    ∧ ((unacked (stopping true here)).troupesOf 0).any (fun x => x.2.unacked ≠ []) = true := by decide
theorem test_capture_waits : ((after (.captureComplete 0) (unacked (stopping true here))).map fun s => s.ensembles.map (·.2.pos)) = some [.stopped true] := by
  decide
/-- Context 0 is checkpointed into an image of 8 MiB in the tier. -/
def checkpointed (stopped : Bool) (s : State) : State :=
  (if stopped then ens (fun e => { e with pos := .saved false }) s else s).modCtx 0 fun c =>
    { c with ckbase := 0xC000000000000, cklen := 8, ckctl := 0x81400000, stopped := stopped }
theorem test_hyp_cut : ((checkpointed true here).ctx 0).checkpoints = true ∧ (checkpointed true here).allCaptured 0 = true
    ∧ (checkpointed true here).cutting = [] ∧ (checkpointed true here).ovlLoads = [] ∧ ((checkpointed false here).ctx 0).stopped = false := by decide
theorem test_cut_stops : ((after (.checkpointCut 0) (checkpointed false here)).map fun s => (s.ensembles.map (·.2.pos), s.contexts.map (·.2.stopped)))
    = some ([.stopped false], [true]) := by decide
/-- A cut of context 0 with one unit, a tile, to stream, or with none. -/
def cut0 (todo : List CkUnit) (s : State) : Cut :=
  { seq := 1, half := 0, end_ := 0, parkImage := false, moving := false, ctx := s.ctx 0, ens := s.ensTab 0, troupes := s.troupeTab 0, copies := [],
    prods := [], launches := [], loads := [], data := todo.map fun u => (u, [7, 8]), rdidx := [], todo := todo, took := todo, part := false }
def streaming (todo : List CkUnit) : State := { checkpointed true here with cutting := [(0, cut0 todo (checkpointed true here))] }
theorem test_hyp_stream : (streaming [.tile 0 0]).cutting.find? 0 = some (cut0 [.tile 0 0] (checkpointed true here))
    ∧ (streaming [.tile 0 0]).unitFenced 0 (.tile 0 0) = false ∧ (streaming []).cutting.find? 0 = some (cut0 [] (checkpointed true here)) := by decide
set_option maxRecDepth 100000 in
theorem test_hyp_plan : (({ checkpointed true here with ensembles := [], troupes := [] } : State).planCut 0).map (fun p => (p.seq, p.half, p.off)) = some (1, 0, 0) := by decide
theorem test_commit : ((after (.cutCommit 0) (streaming [])).map fun s => (s.cutting, s.cuts.map fun k => (k.2.seq, k.2.end_)))
    = some ([], [(1, 64)]) := by decide
/-- Context 0 is checkpointed and has a cut; a granule of its troupe differs from before (R401). -/
def unwritten : State := { troupe (fun t => { t with nregs := 8 }) (checkpointed false here) with cuts := [(0, cut0 [] (checkpointed false here))] }
def rewritten : State := troupe (fun t => { t with file := t.file.put (Reg.v 3).key (List.replicate 128 5) }) unwritten
set_option maxRecDepth 100000 in
theorem test_dirty : ((unwritten.markDirty rewritten true).ctx 0).touched = [.granule 0 0]
    ∧ ((unwritten.markDirty unwritten true).ctx 0).touched = [] := by decide +kernel
/-- Context 0 is stopped and captured, and its cut is committed. -/
def committed : State := { checkpointed true here with cuts := [(0, cut0 [] (checkpointed true here))] }
theorem test_hyp_resume : committed.allCaptured 0 = true ∧ committed.cutting.find? 0 = none ∧ committed.cuts.find? 0 ≠ none
    ∧ (committed.contexts.find? 0).map (fun x => (x.terminated, x.stopped)) = some (false, true)
    ∧ ((cut0 [] (checkpointed true here)).ens.map (·.1)).Pairwise (· < ·) := by decide
theorem test_resume : ((after (.resumption 0) committed).map fun s => (s.ensembles.map (·.2.pos), s.contexts.map (·.2.stopped)))
    = some ([.saved true], [false]) := by decide
theorem test_fence_core : ((after (.coreFence 0) here).map fun s => (s.contexts.map (·.2.terminated), (s.core 0).fenced)) = some ([true], true) := by
  decide

/-! Memory stacks and links. -/

theorem test_hyp_mapping : (0x10 : DWord).getLsbD 4 = true ∧ here.mapping = none ∧ (solveRows (List.replicate 44 0) 0).isNone = true
    ∧ here.mapNextOk 15 0 = true ∧ here.mapNextOk 15 0x100000 = false ∧ here.mapNextOk 15 0xB800000000000000 = false := by decide
theorem test_mapping_wrong :
    ((after .mapCheckComplete { here with mapping := some { region := 3, next := 0, rows := List.replicate 44 0 } }).map (·.mapStat)) = some 2 := by
  decide
theorem test_hyp_fence_page : (here.stackOf 0x5000).isSome = true ∧ here.isFenced 0x5000 = false ∧ (here.stack 0).freeFence.isSome = true := by decide
theorem test_fence_page : ((after (.eccUncorrectable 0x5000 7) here).map fun s => (s.isFenced 0x5FFF, s.isFenced 0x6000)) = some (true, false) := by
  decide
theorem test_hyp_takeover : (here.stack 0).takeover = false ∧ (here.stack 0).beat + here.nsCycles 0 2048 ≤ ({ here with now := 100000 } : State).now := by
  decide
theorem test_takeover : ((after (.refreshTakeover 0) { here with now := 100000 }).map fun s => (s.stack 0).takeover) = some true := by decide
def linked (f : Stack → Stack) : State := here.modStack 0 f
theorem test_hyp_links : ((linked id).stack 0).link = 0 ∧ ((linked fun k => { k with link := 1 }).stack 0).link = 1
    ∧ ((linked fun k => { k with link := 2 }).stack 0).link = 2 ∧ ((linked fun k => { k with nakSeq := 9, naks := 8 }).stack 0).naks = 8 := by decide
theorem test_nak : ((after (.flitNak 0 9) (linked fun k => { k with nakSeq := 9, naks := 8 })).map fun s => (s.stack 0).link) = some 1 := by decide
def request0 : PeerReq := { id := 9, tid := 0, uid := 0, pc := 0, lanes := [(0, 0), (1, 0)], answers := [] }
theorem test_hyp_link_down : field (0 : Nat) 40 36 = 0 ∧ request0.answers.find? 0 = none := by decide
theorem test_link_down : ((after (.linkRetrainComplete 0 false) { linked (fun k => { k with link := 1 }) with requests := [request0] }).map fun s =>
    ((s.stack 0).link, s.requests.map (·.answers))) = some (2, [[(0, 5), (1, 5)]]) := by decide
theorem test_response : ((after (.helyelResponse 9 0 3) { here with requests := [request0] }).map fun s => s.requests.map (·.answers))
    = some [[(0, 3)]] := by decide
/-- Entry 0 of the table of stack 0 lets node 0 read, write and update the first 64 KiB with key 0. -/
def granted : State := linked fun k => { k with acl := [(0, 0xF0000000000000000000000000000000)] }
theorem test_hyp_request : requestForm false 0 32 = true ∧ requestForm true 0 8 = true ∧ requestForm false 0 33 = false
    ∧ (granted.paOf 0 0).isSome = true ∧ (let a := (granted.stack 0).acl.get 0
      a.getLsbD 127 = true ∧ (bvField a 126 124).testBit 2 = true ∧ bvField a 123 115 = 0 ∧ bvField a 105 86 = 0) := by decide
theorem test_request_denied : ((after (.helyelRead 0 0 1 0 1) granted).map (·.sent)) = some (some (.helyel 1 0 []))
    ∧ ((after (.helyelRead 0 0 0 0xF00000000 1) granted).map (·.sent)) = some (some (.helyel 4 0 [])) := by decide
set_option maxRecDepth 100000 in
theorem test_request_read : ((after (.helyelRead 0 0 0 0 1) granted).bind fun s => match s.sent with
    | some (.helyel v _ d) => some (v, d.length)
    | _ => none) = some (0, 32) := by decide

/-! Caps, registers and the host. -/

theorem test_hyp_parts : (here.parts.find? 0).isSome = true ∧ (here.parts.map (·.1)).Pairwise (· < ·) ∧ here.parts.all (fun p => p.2.rank < 8) = true := by
  decide
theorem test_hyp_caps : let s : State := { here with moduleCap := 1, hall := some { limit := 1, rank := 0, id := 3 } }
    s.hall = some { limit := 1, rank := 0, id := 3 } ∧ s.moduleCap ≠ 0 ∧ here.hall = none := by decide
theorem test_hall : ((after (.setHallCap 5 1 0) here).map (·.hall)) = some (some { limit := 5, rank := 1, id := here.tick })
    ∧ ((after (.setHallCap 0 1 0) { here with hall := some { limit := 1, rank := 0, id := 3 } }).map (·.hall)) = some none := by decide
theorem test_hall_expires : ((after (.hallCapExpiry 3) { here with hall := some { limit := 1, rank := 0, id := 3 } }).map (·.hall)) = some none := by
  decide
theorem test_registers : ((after (.registerWrite 0x10 7) here).map (·.qtbase)) = some 7
    ∧ ((after (.registerWrite 0x38 4) here).map (·.evcfg)) = some 8 ∧ ((after (.registerWrite 0x1000000 0x5003) here).map fun s => (s.die 0).fqcfg)
      = some 0x5006 ∧ ((after (.registerWrite 0x20008 9) here).map fun s => (s.part 0).budget) = some 9 := by decide
theorem test_clear : ((after (.counterClear 0x1003000 1) (linked fun k => { k with chq := [(0, 0x0000000200030004)] })).map fun s =>
    (s.stack 0).chq.get 0) = some 0x0000000200030000 := by decide
def reporting : State := { here with evbase := 0x60000, evcfg := 6, dies := [(0, { here.die 0 with reports := [⟨2, 5, 6, 7, 8⟩] })] }
theorem test_hyp_event : (reporting.die 0).reports = [⟨2, 5, 6, 7, 8⟩] ∧ reporting.evbase ≠ 0
    ∧ (reporting.evtail - reporting.evhead).toNat < 2 ^ bvField reporting.evcfg 4 0 := by decide
theorem test_event : ((after (.eventWrite 0) reporting).map fun s => (s.mem.readN 0x60000 5, s.evtail)) = some ([2, 0, 0, 0, 5], 1#32) := by decide
theorem test_hyp_host : here.bootstat = 1 ∧ targetOf 0x5000 = .device ∧ here.backed 0x5000 = true ∧ here.mapWaits 0x5000 = false
    ∧ here.isFenced 0x5000 = false ∧ (here.modStack 0 fun k => { k with allFenced := true }).isFenced 0x5000 = true := by decide
theorem test_host_write : ((after (.hostCxlMemWrite 0x5000 [1, 2]) here).map fun s => s.mem.readN 0x5000 3) = some [1, 2, 0]
    ∧ ((after (.hostCxlMemRead 0x5000 2) { here with mem := [(0x5000, 9)] }).map (·.sent)) = some (some (.host [9, 0])) := by decide
theorem test_service_core : ((after (.serviceCoreMemoryAccess 0 0x5000 1 (some [3])) here).map fun s => s.mem.readN 0x5000 1) = some [3] := by decide
/-- An accepted image names context 1. -/
def imaged : State := { here with images := [(4, { status := 0, bytes := zeros 64 })] }
theorem test_hyp_create : imaged.images.find? 4 = some { status := 0, bytes := zeros 64 } ∧ (imaged.parts.find? 0).isSome = true
    ∧ imaged.contexts.find? 1 = none := by decide
theorem test_create : ((after (.contextCreation 1 0 4 [(0x41, 9)]) imaged).map fun s => ((s.ctx 1).ctxid, (s.ctx 1).reg 0x4A))
    = some (9, 0x01400000#64) := by decide
theorem test_reset_again : ((after .moduleReset here).map fun s => (s.bootstat, s.contexts)) = some (1, [])
    ∧ ((after .moduleReset { here with flash := { here.flash with good := false } }).map (·.bootstat)) = some 2 := by decide

/-! The checks of an instruction, one after another. -/

/-- The cause with which the checks stop an instruction; 256 where they hold it, 257 where it passes. -/
def stopsAt (n : Ins) (s : State) : Option Nat :=
  match gate n s with
  | .noIssuer => none
  | .trap _ x => some x.cause
  | .hold _ => some 256
  | .go _ => some 257
theorem test_hyp_checks : stopsAt (insX 0x22 { i0 with mod := 99 }) here = some 2
    ∧ stopsAt (insX 0x28 { i0 with dst := .v 2 }) here = some 3 ∧ stopsAt (insX 0x22 i0) (troupe (fun t => { t with nregs := 3 }) here) = some 4
    ∧ stopsAt (insX 0x48 { x0 with dst := .s 1, sa := .s 2 }) (troupe (fun t => { t with nscal := 1 }) here) = some 4
    ∧ stopsAt (insX 0x54 { x0 with w0 := { w0 with fmt := 20 } }) here = some 6 ∧ stopsAt (insX 0xC6 x0) here = some 20
    ∧ stopsAt (insX 0xC3 { x0 with dst := .v 2, mod := 0x40 }) here = some 20 ∧ stopsAt (insX 0xC6 x0) (sup here) = some 257
    ∧ stopsAt (insX 0x22 { i0 with sa := .v 4 }) (expecting 1 here) = some 256 := by decide
/-- v4 was written by the last instruction, and the checking scoreboard is armed: the source is read too early. -/
theorem test_hyp_check05 : stopsAt (insX 0x22 { i0 with sa := .v 4 }) (troupe (fun t => { t with tstat := 0x100 })
    ((after (.imul { i0 with dst := .v 4 }) here).getD here)) = some 5 := by decide
theorem test_hyp_no_lane : ((onLanes 2 here).work 0 0).map (fun w => ({ w with act := 0 } : Work).act) = some 0
    ∧ pass (insX 0x22 { i0 with w0 := { i0.w0 with pred := 1 } }) here any = false := by decide

/-! The machine. -/

/-! Premises at the other side: waits, bracketed or spilled splits, parks, and the words that a step runs. -/

/-- A fixed-latency result of the split has not landed. -/
def undrained (s : State) : State := split (fun p => { p with landings := [⟨5, 9⟩] }) s
theorem test_hyp_undrained : pass (insX 0x09 x0) (undrained here) (fun w => !w.drained) = true
    ∧ pass (insX 0xC6 x0) (undrained (sup here)) (fun w => !w.drained) = true := by decide
theorem test_hold : ((after (.exit x0) (undrained here)).map fun s => (pc s, s.troupes.map (·.1))) = some (some 0#32, [0]) := by decide
theorem test_hyp_array_held : pass (insX 0x85 mma0) (tiled (multiplying one)) (fun w => w.arrayHeld (insX 0x85 mma0)) = true
    ∧ pass (insX 0x85 mma0) (tiled one) (fun w => !w.arrayHeld (insX 0x85 mma0)) = true := by decide
/-- One of two splits that meet stands on the split stack: only one is resident. -/
def halfSpilled (s : State) : State := troupe (fun t => { t with splits := [(0, half 0 1)], stack := [half 1 2] }) s
theorem test_hyp_spilled_fusion : ((halfSpilled here).troupes.find? 0).bind (·.released) = some [half 0 1, half 1 2]
    ∧ ((halfSpilled here).troupes.find? 0).map (fun T => (T.resident [half 0 1, half 1 2]).length) = some 1 := by decide
theorem test_hyp_exchange_due : ((spilled here).troupes.find? 0).map (fun T => (spilled here).exchCycles T - T.exchAt) = some 0
    ∧ 4096 ≤ ({ spilled here with now := 5000 } : State).exchCycles (Troupe.start 0 0 0 0 256 64 0 0 0) := by decide
theorem test_hyp_touch_full : ((stopping false here).ensembles.find? 0).map (·.pos) = some (.stopped false) := by decide
theorem test_hyp_disabled : let s := { queued 0 1 launchPacket0 (some (0, 0)) paged with launches := [(0, { launch0 with started := false })] }
    s.qState launch0.queue = 0 := by decide
theorem test_hyp_alone : (stopping true here).cutting.find? 0 = none ∧ ((stopping true here).ctx 0).stopped = false
    ∧ ({ cut0 [] here with part := true } : Cut).todo = [] := by decide
/-- A reserved bit of an access-control entry is not written (R8, R429). -/
theorem test_acl_write : bvField ((here.stack 3).acl.get 5) 65 32 = 0
    ∧ ((after (.registerWrite (2 ^ 32 + 65536 * 3 + 16 * 5) 0xFFFFFFFFFFFFFFFF) here).map fun s => bvField ((s.stack 3).acl.get 5) 65 0)
      = some 0xFFFFFFFF := by decide
/-- A parked instruction is replayed from its words; a split past the overlay has none; a loop buffer holds the first word. -/
def replaying (s : State) : State := troupe (fun t => { t with parked := [⟨0, 0, [1, 2, 3, 4], 3, 1, true⟩] }) s
theorem test_hyp_code : ((replaying here).work 0 0).bind (replaying here).codeOf = some [1, 2, 3, 4]
    ∧ ((split (fun p => { p with past := true }) here).work 0 0).bind (split (fun p => { p with past := true }) here).codeOf = some []
    ∧ ((here.work 0 0).map fun w => (decide (here.codeOf w = here.codeAt 0 0 0), (here.core 0).loops.find? w.T.quarter)) = some (true, none) := by
  decide

theorem test_hyp_decode_table : decodeTableWord 32 0x0401C084 = some (.moviBase { head := ⟨false, 0⟩, dst := .v 1, imm := 7 }) := by decide
theorem test_hyp_encode : (Instr.iadd i0).wellFormed = true ∧ (Instr.iadd i0).view = some (0x22, .x i0) := by decide
theorem test_hyp_step : goesOn State.reset = true ∧ Memory.wf State.reset.mem = true ∧ goesOn (State.reset.withFetchWord 32 0x0401C084) = true := by
  decide
/-- What the next step is. -/
def kind (s : State) : Nat :=
  match s.following with
  | .event _ _ => 0
  | .issue _ none _ => 1
  | .issue _ (some _) _ => 2
  | .idle _ => 3
theorem test_hyp_following : kind State.reset = 0 ∧ kind (State.reset.withFetchWord 32 0x0401C084) = 1
    ∧ kind { State.reset.loaded [] with troupes := [], agenda := [] } = 3 := by decide
theorem test_hyp_words : decode (bytesOf [0x3FC]) = .error .undefined ∧ decode [0x84] = .error .short := by decide

end Windows

end Sys2Proof.Tests
end

section
/-! How every operation of the model keeps the invariant of memory (`Inv`, log entry 5). A proof follows its operation: a chain of
operations is a chain of these lemmas, a case split is the operation's own. -/

namespace Sys2Proof

open Machine

variable {s t : State} {w : Work}

/-! ### Operations that leave memory alone -/

theorem Inv.sameMem (h : Inv s) (e : t.mem = s.mem) : Inv t := by unfold Inv; rw [e]; exact h

theorem Inv.copies (h : Inv s) (k : OnlyCopies s t) : Inv t := h.sameMem k.mem

theorem Inv.paths (h : Inv s) (k : OnlyPaths s t) : Inv t := h.sameMem (by rw [k])

theorem Inv.caches (h : Inv s) (k : OnlyCaches s t) : Inv t := h.sameMem (by rw [k]; rfl)

theorem Inv.tlbs (h : Inv s) (k : OnlyTlbs s t) : Inv t := h.sameMem k.mem

theorem Inv.withCutting {x} (h : Inv s) : Inv { s with cutting := x } := h

theorem Inv.bump (h : Inv s) : Inv s.bump := h

theorem Inv.at_ {due ev} (h : Inv s) : Inv (s.at_ due ev) := h

theorem Inv.atBefore {due ev after} (h : Inv s) : Inv (s.atBefore due ev after) := h

theorem Inv.atAll {due evs} (h : Inv s) : Inv (s.atAll due evs) := h.sameMem (State.atAll_mem s due evs)

theorem Inv.settle {tid due} (h : Inv s) : Inv (s.settle tid due) := h

theorem Inv.modTroupe {n f} (h : Inv s) : Inv (s.modTroupe n f) := h

theorem Inv.modEns {n f} (h : Inv s) : Inv (s.modEns n f) := h

theorem Inv.modCtx {n f} (h : Inv s) : Inv (s.modCtx n f) := h

theorem Inv.modCore {n f} (h : Inv s) : Inv (s.modCore n f) := h

theorem Inv.modDie {n f} (h : Inv s) : Inv (s.modDie n f) := h

theorem Inv.modStack {n f} (h : Inv s) : Inv (s.modStack n f) := h

theorem Inv.modQueue {n f} (h : Inv s) : Inv (s.modQueue n f) := h

theorem Inv.modPart {n f} (h : Inv s) : Inv (s.modPart n f) := h

theorem Inv.modProd {n f} (h : Inv s) : Inv (s.modProd n f) := h

theorem Inv.modLaunch {n f} (h : Inv s) : Inv (s.modLaunch n f) := h

theorem Inv.modCopy {n f} (h : Inv s) : Inv (s.modCopy n f) := h

theorem Inv.putLoad {l} (h : Inv s) : Inv (s.putLoad l) := h

theorem Inv.reply {st old data} (h : Inv s) : Inv (s.reply st old data) := h

theorem Inv.report {d r} (h : Inv s) : Inv (s.report d r) := h.at_.modDie

theorem Inv.noteReads {ks} (h : Inv s) : Inv (s.noteReads ks) := h.copies (noteReads_only s ks)

theorem Inv.noteRead {pa} (h : Inv s) : Inv (s.noteRead pa) := h.copies (noteRead_only s pa)

theorem Inv.writeBackSector {k} (h : Inv s) : Inv (s.writeBackSector k) := h.copies (writeBackSector_only s k)

theorem Inv.writeBack {lo hi} (h : Inv s) : Inv (s.writeBack lo hi) := h.copies (writeBack_only s lo hi)

theorem Inv.readTime {core pa} (h : Inv s) : Inv (s.readTime core pa).1 := h.paths (readTime_only s core pa)

theorem Inv.writeTime {core pa} (h : Inv s) : Inv (s.writeTime core pa).1 := h.paths (writeTime_only s core pa)

theorem Inv.readMax {core l} (h : Inv s) : Inv (readMax core l s).1 := h.paths (readMax_only core l s)

theorem Inv.backCycles {core ivs} (h : Inv s) : Inv (s.backCycles core ivs).1 := h.paths (backCycles_only s core ivs)

theorem Inv.actCycles {core rel acq scope ivs} (h : Inv s) : Inv (s.actCycles core rel acq scope ivs).1 :=
  h.paths (actCycles_only s core rel acq scope ivs)

theorem Inv.requestPaths {core write hit late l} (h : Inv s) : Inv (requestPaths core write hit late l s).1 :=
  h.paths (requestPaths_only core write hit late l s)

theorem Inv.pathsOf {core write l1 ms} (h : Inv s) : Inv (s.pathsOf core write l1 ms).1 := h.paths (pathsOf_only s core write l1 ms)

theorem Inv.translate {core q ptbr ctxid sup a va} (h : Inv s) : Inv (s.translate core q ptbr ctxid sup a va).1 :=
  h.tlbs (translate_only s core q ptbr ctxid sup a va)

theorem Inv.request {core quarter tid new} (h : Inv s) : Inv (s.request core quarter tid new) :=
  h.sameMem (by rw [request_only])

/-! ### Composition -/

/-- The state of a result that was taken apart. -/
theorem Inv.fst {α : Type} {x : State × α} {a : α} (h : Inv x.1) (e : x = (t, a)) : Inv t := by rw [e] at h; exact h

theorem Inv.fstWork {α : Type} {x : Work × α} {a : α} (h : Inv x.1.s) (e : x = (w, a)) : Inv w.s := by rw [e] at h; exact h

theorem Inv.ite {c : Prop} [Decidable c] (hs : Inv s) (ht : Inv t) : Inv (if c then s else t) := by
  split
  · exact hs
  · exact ht

/-- One more operation on a state, or none. -/
theorem Inv.iteSelf {c : Prop} [Decidable c] (h : Inv s) (k : Inv s → Inv t) : Inv (if c then t else s) := .ite (k h) h

theorem Inv.foldl {α : Type} {f : State → α → State} (h : Inv s) (hf : ∀ s a, Inv s → Inv (f s a)) (l : List α) :
    Inv (l.foldl f s) := by
  induction l generalizing s with
  | nil => exact h
  | cons a l ih => exact ih (hf s a h)

/-- An outcome with a canonical memory, if the machine goes on. -/
def OutInv : Out → Prop
  | .next t => Inv t
  | .fault _ => True
  | .refused _ => True

/-- The effect of an instruction with a canonical memory. -/
def EffInv : Eff → Prop
  | .done w => Inv w.s
  | .raw s => Inv s
  | .trapAfter w _ => Inv w.s
  | .trap _ => True
  | .hold => True
  | .stop _ => True

theorem OutInv.next {o : Out} (h : OutInv o) (e : o = .next t) : Inv t := by rw [e] at h; exact h

theorem OutInv.ite {c : Prop} [Decidable c] {a b : Out} (ha : OutInv a) (hb : OutInv b) : OutInv (if c then a else b) := by
  split
  · exact ha
  · exact hb

/-! ### Writes, discards and the bytes of the stacks -/

theorem Inv.homeWrite {pa bs} (h : Inv s) : Inv (s.homeWrite pa bs) := State.homeWrite_wf pa bs h

theorem Inv.discardSector {k} (h : Inv s) : Inv (s.discardSector k) := State.discardSector_wf k h

theorem Inv.writeStackByte {pa b} (h : Inv s) : Inv (s.writeStackByte pa b) := State.writeStackByte_wf pa b h

theorem Inv.scramble {m} (h : Inv s) : Inv (s.scramble m) := State.scramble_wf m h

theorem Inv.qPut {q off n v} (h : Inv s) : Inv (s.qPut q off n v) := h.homeWrite

theorem Inv.syncWrite {core pa v} (h : Inv s) : Inv (s.syncWrite core pa v) := h.homeWrite.modCore

theorem Inv.rmw {core m n new} (h : Inv s) : Inv (s.rmw core m n new).1 := h.homeWrite.modCore

theorem Inv.storeBytes {core m bs} (h : Inv s) : Inv (s.storeBytes core m bs) := h.homeWrite.modCore

theorem Inv.storeElem {core pages width a code} (h : Inv s) : Inv (s.storeElem core pages width a code) := h.homeWrite.modCore

theorem Inv.discard {lo hi} (h : Inv s) : Inv (s.discard lo hi) := .foldl h (fun _ _ h => h.discardSector) _

theorem Inv.discardAll {ivs} (h : Inv s) : Inv (s.discardAll ivs) := by
  unfold State.discardAll
  split
  · exact h.discard
  · exact .foldl h (fun _ _ h => h.discard) _

theorem Inv.writeBackAll {ivs} (h : Inv s) : Inv (s.writeBackAll ivs) := by
  unfold State.writeBackAll
  split
  · exact h.writeBack
  · exact .foldl h (fun _ _ h => h.writeBack) _

theorem Inv.l1Invalidate {core ivs} (h : Inv s) : Inv (s.l1Invalidate core ivs) := h.modCore

theorem Inv.acquireActs {core scope ivs} (h : Inv s) : Inv (s.acquireActs core scope ivs) :=
  .ite h.l1Invalidate.discardAll (.ite h.l1Invalidate h)

theorem Inv.releaseActs {scope ivs} (h : Inv s) : Inv (s.releaseActs scope ivs) := .ite h.writeBackAll h

theorem Inv.syncRead {scope pa} (h : Inv s) : Inv (s.syncRead scope pa) := .ite h.discardSector h.noteRead

theorem Inv.acqRead {core scope pa} (h : Inv s) : Inv (s.acqRead core scope pa) := h.syncRead.modCore

theorem Inv.waitHolds {acq cond value pa} (h : Inv s) : Inv (s.waitHolds acq cond value pa).1 := h.syncRead.bump

theorem Inv.writeStack {pa mask bs} (h : Inv s) : Inv (s.writeStack pa mask bs) :=
  .foldl h (fun _ _ h => .ite h.writeStackByte h) _

theorem Inv.stackAtomic {pa wide f} (h : Inv s) : Inv (s.stackAtomic pa wide f) := h.writeStack.reply

theorem Inv.settleSectors {pa n} (h : Inv s) : Inv (s.settleSectors pa n) :=
  .foldl h.bump (fun _ _ h => .ite h.discardSector h) _

theorem Inv.discardRegion {m} (h : Inv s) : Inv (s.discardRegion m) := by
  unfold State.discardRegion
  split
  · exact h
  · exact h.discard

/-! ### Events, faults and the end of a context -/

theorem Inv.notify {pa} (h : Inv s) : Inv (s.notify pa) := .foldl h (fun _ _ h => h.at_) _

theorem Inv.writeEvents (h : Inv s) : Inv s.writeEvents := .foldl h (fun _ _ h => h.at_) _

theorem Inv.notePreload {f} (h : Inv s) : Inv (s.notePreload f) := .foldl h (fun _ _ h => h.at_) _

theorem Inv.remap (h : Inv s) : Inv s.remap := .foldl h (fun _ _ h => h.at_) _

theorem Inv.retryLaunches (h : Inv s) : Inv s.retryLaunches := .foldl h (fun _ _ h => h.at_) _

theorem Inv.kick {core} (h : Inv s) : Inv (s.kick core) := .foldl h (fun _ _ h => h.at_) _

theorem Inv.signalRefused (h : Inv s) : Inv s.signalRefused :=
  .foldl (s := { s with refused := [] }) h (fun _ _ h => h.bump.at_) _

theorem Inv.admitFault {id} (h : Inv s) : Inv (s.admitFault id) := by
  unfold State.admitFault
  dsimp only
  repeat' split
  all_goals exact h

theorem Inv.admitFaults (h : Inv s) : Inv s.admitFaults := .foldl h (fun _ _ h => h.admitFault) _

theorem Inv.raiseFault {f} (h : Inv s) : Inv (s.raiseFault f) := .admitFault (s := State.bump { s with faultWaits := _ }) h

theorem Inv.dropFaults {x} (h : Inv s) : Inv (s.dropFaults x) := .admitFaults (s := { s with faultWaits := _ }) h

theorem Inv.dropFills {ls} (h : Inv s) : Inv (s.dropFills ls) := by
  refine .foldl h (fun s l h => ?_) _
  split
  · exact h.modCore
  · exact h

theorem Inv.logPeer {status pa} (h : Inv s) : Inv (s.logPeer status pa) := .ite h h.modStack

theorem Inv.writeBitmap {c bs} (h : Inv s) : Inv (s.writeBitmap c bs) := .foldl h (fun _ _ h => h.homeWrite) _

theorem Inv.freeBlocks {c bs} (h : Inv s) : Inv (s.freeBlocks c bs) := h.modCtx.writeBitmap

theorem Inv.takeBlocks {c bs} (h : Inv s) : Inv (s.takeBlocks c bs) := h.modCtx.writeBitmap

theorem Inv.clear {c} (h : Inv s) : Inv (s.clear c) := h.dropFills.freeBlocks.sameMem rfl

theorem Inv.terminate {c} (h : Inv s) : Inv (s.terminate c) :=
  (Inv.foldl h.clear.modCtx (fun _ _ h => h.qPut.qPut.modQueue) _).admitFaults.at_

theorem Inv.doubleTrap {tid num extra} (h : Inv s) : Inv (s.doubleTrap tid num extra) := by
  unfold State.doubleTrap
  split
  · exact h
  split
  · exact h
  split
  · exact h
  · exact h.report.terminate

theorem Inv.enterHandler {tid uid cause} (h : Inv s) : Inv (s.enterHandler tid uid cause) := by
  unfold State.enterHandler
  repeat' split
  all_goals exact h

theorem Inv.entryStatus {tid uid cause ovl v} (h : Inv s) : Inv (s.entryStatus tid uid cause ovl v) := .ite h.doubleTrap h.enterHandler

theorem Inv.cannotSave {c info} (h : Inv s) : Inv (s.cannotSave c info) := .ite h h.report

theorem Inv.cutFails {c seq} (h : Inv s) : Inv (s.cutFails c seq) := h.report

theorem Inv.unheard {ens ctx cause} (h : Inv s) : Inv (s.unheard ens ctx cause) := h.report.terminate

/-! ### Overlay loads -/

theorem Inv.codePages {core ptbr ctxid sup l} (h : Inv s) : Inv (s.codePages core ptbr ctxid sup l).1 := by
  induction l generalizing s with
  | nil => exact h
  | cons va l ih =>
    unfold State.codePages
    split
    · next heq => exact h.translate.fst heq
    · next heq =>
      have h1 := (h.translate.fst heq)
      split
      · next heq => exact (ih h1).fst heq
      · next heq => exact (ih h1).fst heq

theorem Inv.startOvl {l c slotNo k base size} (h : Inv s) : Inv (s.startOvl l c slotNo k base size).1 := by
  unfold State.startOvl
  dsimp only
  split
  · next heq => exact (h.modCore.codePages.fst heq).putLoad.raiseFault
  · next heq => exact (h.modCore.codePages.fst heq).readMax.modCore.putLoad.bump.at_

theorem Inv.tryOvl {l slotNo} (h : Inv s) : Inv (s.tryOvl l slotNo).1 := by
  unfold State.tryOvl
  split
  · exact h
  dsimp only
  split
  · exact h
  split
  · next heq =>
    have h1 := h.translate.fst heq
    split
    · exact h1
    split
    · exact h1
    · exact h1.putLoad.raiseFault
  · next heq =>
    have h1 := h.translate.fst heq
    split
    · exact h1
    split
    · exact h1
    split
    · exact h1
    split
    · exact h1
    · exact h1.noteRead.startOvl

theorem Inv.ovlDeliver {l v} (h : Inv s) : Inv (s.ovlDeliver l v) := by
  unfold State.ovlDeliver
  split
  · exact h
  · exact h.entryStatus

theorem Inv.ovlDeliverAll {ls v} (h : Inv s) : Inv (s.ovlDeliverAll ls v) := by
  refine .foldl h (fun s y h => .ovlDeliver ?_) ls
  exact h

theorem Inv.loadOvl {l} (h : Inv s) : Inv (s.loadOvl l) := by
  unfold State.loadOvl
  split
  · next heq => exact (h.tryOvl.fst heq).ovlDeliver
  · next heq => exact h.tryOvl.fst heq

theorem Inv.restartOvl {l} (h : Inv s) : Inv (s.restartOvl l) := by
  unfold State.restartOvl
  refine .loadOvl ?_
  split
  · exact h
  · exact h

theorem Inv.landOvl {l k} (h : Inv s) : Inv (s.landOvl l k).1 := by
  unfold State.landOvl
  dsimp only
  split
  · exact h
  · exact h

/-! ### Traps -/

theorem Inv.writeTrap {base rec p} (h : Inv s) : Inv (s.writeTrap base rec p) := .foldl h.homeWrite (fun _ _ h => .ite h h.homeWrite) _

theorem Inv.takeTrap {tid ent x a} (h : Inv s) : OutInv (s.takeTrap tid ent x a) := by
  unfold State.takeTrap
  split
  · trivial
  split
  · split
    · trivial
    split
    · exact h.doubleTrap
    dsimp only
    split
    · trivial
    split
    · exact h.writeTrap.modTroupe.enterHandler
    split
    · next heq => exact (h.writeTrap.modTroupe.modTroupe.bump.tryOvl.fst heq).entryStatus
    · next heq => exact h.writeTrap.modTroupe.modTroupe.bump.tryOvl.fst heq
  · trivial

/-! ### Barriers, cache actions, productions and spawns -/

theorem Inv.phaseDone {ens addr ph} (h : Inv s) : Inv (s.phaseDone ens addr ph) := by
  refine .foldl h.modEns (fun s x h => .foldl h (fun s p h => ?_) _) _
  split
  · exact .ite h.modTroupe.at_ h
  · exact h

theorem Inv.barApply {ens addr arrive add} (h : Inv s) : Inv (s.barApply ens addr arrive add) := by
  unfold State.barApply
  split
  · exact h
  · exact .ite h.modEns.phaseDone h.modEns

theorem Inv.checkBars {ens bars} (h : Inv s) : Inv (s.checkBars ens bars) := .foldl h (fun _ _ h => h.barApply) _

theorem Inv.admission {part e} (h : Inv s) (k : s.admission part e = some t) : Inv t := by
  unfold State.admission at k
  dsimp only at k
  split at k
  · cases k; exact h
  split at k
  · cases k; exact h
  · cases k

theorem Inv.toBuffer {n d part} (h : Inv s) : Inv (s.toBuffer n d part) := by
  unfold State.toBuffer
  split
  · next heq =>
    split at heq
    · cases heq; exact h.modProd.at_
    · exact (h.admission heq).modProd.at_
  · exact h.modProd

theorem Inv.writeGreen {c} (h : Inv s) : Inv (s.writeGreen c) := h.homeWrite.modCtx

theorem Inv.spawnNow {ens pa group} (h : Inv s) : Inv (s.spawnNow ens pa group).1 := by
  unfold State.spawnNow
  split
  · exact h
  dsimp only
  split
  · exact h
  split
  · exact h
  split
  · exact h
  split
  · exact h
  split
  · refine .writeGreen ?_
    exact h
  · refine .toBuffer ?_
    exact h

theorem Inv.spawnEnd {tid pa group pend} (h : Inv s) : Inv (s.spawnEnd tid pa group pend) := by
  unfold State.spawnEnd
  split
  · exact h
  · exact h.spawnNow.modTroupe.readMax.bump.at_

theorem Inv.ackOf {tid core pa id} (h : Inv s) : Inv (s.ackOf tid core pa id) := h.writeTime.at_

theorem Inv.resume {tid uid} (h : Inv s) : Inv (s.resume tid uid) := h.modTroupe.settle

theorem Inv.startAct {a} (h : Inv s) : Inv (s.startAct a) := h.actCycles.sameMem rfl

theorem Inv.afterAct {a core} (h : Inv s) : Inv (s.afterAct a core) := by
  unfold State.afterAct
  split
  · exact h
  · exact (Inv.ite h.syncWrite.writeBackSector h.syncWrite).ackOf
  · exact (Inv.ite h.syncWrite.writeBackSector h.syncWrite).ackOf.notify
  · exact h.spawnEnd
  · split
    · exact h
    · exact h.checkBars
  · split
    · exact h
    · exact h.barApply.modTroupe.at_

theorem Inv.joinGo {tid uid scope} (h : Inv s) : Inv (s.joinGo tid uid scope) := .ite h.modTroupe.bump.startAct h.resume

theorem Inv.wakeJoins {e} (h : Inv s) : Inv (s.wakeJoins e) := by
  unfold State.wakeJoins
  split
  · exact h
  · exact .ite (.foldl h (fun _ _ h => h.joinGo) _) h.at_

theorem Inv.endWait {tid uid} (h : Inv s) : Inv (s.endWait tid uid) := by
  unfold State.endWait
  split
  · exact h
  split
  · exact h
  dsimp only
  split
  · exact h
  split
  case h_2 =>
    split
    · exact h
    split
    · split
      · exact h
      · exact Inv.resume (Inv.acquireActs h)
    all_goals exact h
  all_goals exact h

end Sys2Proof
end

section
namespace Sys2Proof

open Machine

variable {s t : State} {w : Work}

/-! ### Copies: the stagehand's requests and landings -/

theorem Inv.copyPages {c l} (h : Inv s) : Inv (s.copyPages c l).1 := by
  induction l generalizing s with
  | nil => exact h
  | cons p l ih =>
    unfold State.copyPages
    dsimp only
    split
    · next heq => exact h.translate.fst heq
    · next heq =>
      have h1 := h.translate.fst heq
      split
      · next heq => exact (ih h1).fst heq
      · next heq => exact (ih h1).fst heq

theorem Inv.sectorTime {c x} (h : Inv s) : Inv (s.sectorTime c x).1 := by
  unfold State.sectorTime
  split
  · next heq => exact (h.copyPages.fst heq).bump
  · next heq =>
    dsimp only
    split
    · exact (h.copyPages.fst heq).writeTime
    · exact (h.copyPages.fst heq).readTime.noteRead

theorem Inv.unitTime {c j} (h : Inv s) : Inv (s.unitTime c j).1 := by
  have go (l : List Nat) (r : State × Nat) (h : Inv r.1) :
      Inv (l.foldl (fun r x => ((r.1.sectorTime c x).1, max r.2 (r.1.sectorTime c x).2)) r).1 := by
    induction l generalizing r with
    | nil => exact h
    | cons x l ih => exact ih _ h.sectorTime
  exact go _ _ h

theorem Inv.requestUnits {id n} (h : Inv s) : Inv (s.requestUnits id n) := by
  induction n generalizing s with
  | zero => exact h
  | succ n ih =>
    unfold State.requestUnits
    split
    · exact h
    split
    · exact h
    dsimp only
    split
    · exact h
    refine ih ?_
    split
    · exact h
    split
    · exact h
    split
    · exact .foldl h.modCopy (fun _ _ h => h.sectorTime.at_) _
    · exact h.modCopy.unitTime.at_

theorem Inv.replayCopy {id} (h : Inv s) : Inv (s.replayCopy id) := by
  unfold State.replayCopy
  split
  · exact h
  · exact h.modCopy.requestUnits

theorem Inv.registerCopy {id c} (h : Inv s) : Inv (s.registerCopy id c) := .ite h h.modCore

theorem Inv.resumeCopy {id c} (h : Inv s) : Inv (s.resumeCopy id c) := by
  unfold State.resumeCopy
  split
  · exact h
  dsimp only
  split
  · exact h.modCopy.registerCopy.at_
  · exact h.modCopy.registerCopy.at_
  · exact h.modCopy.registerCopy.replayCopy
  · exact h.modCopy.registerCopy.replayCopy

theorem Inv.recallUnits {id} (h : Inv s) : Inv (s.recallUnits id) := h

theorem Inv.markCopy {id c} (h : Inv s) : Inv (s.markCopy id c) := by
  unfold State.markCopy
  split
  · exact .foldl h.modCopy (fun _ _ h => h.modEns) _
  all_goals exact h

theorem Inv.holdCopy {c b} (h : Inv s) : Inv (s.holdCopy c b) := by
  unfold State.holdCopy
  split
  all_goals exact h

theorem Inv.enqueue {c} (h : Inv s) : Inv (s.enqueue c) := by
  unfold State.enqueue
  refine .at_ ?_
  split
  · refine .registerCopy (.holdCopy (.markCopy ?_))
    exact h
  · split
    all_goals exact h

theorem Inv.copyErr {c} (h : Inv s) : Inv (s.copyErr c) := by
  unfold State.copyErr
  split
  all_goals exact h

theorem Inv.copyFault {id va c m} (h : Inv s) : Inv (s.copyFault id va c m) := h.modCopy.recallUnits.raiseFault

theorem Inv.copyRelease {c} (h : Inv s) : Inv (s.copyRelease c) := by
  unfold State.copyRelease
  split
  · split
    · split
      · exact h.writeBackAll
      · exact h
    · exact h
  · exact h

theorem Inv.wakeBatch {tid} (h : Inv s) : Inv (s.wakeBatch tid) := by
  unfold State.wakeBatch
  split
  · exact h
  refine .foldl h (fun s p h => ?_) _
  split
  · exact .ite h.resume h
  · exact h

theorem Inv.dropCopy {id} (h : Inv s) : Inv (s.dropCopy id) := by
  unfold State.dropCopy
  split
  · exact h
  refine Inv.at_ (.kick (.wakeBatch ?_))
  exact h

theorem Inv.finishCopy {id} (h : Inv s) : Inv (s.finishCopy id) := by
  unfold State.finishCopy
  split
  · exact h
  refine .dropCopy ?_
  split
  · exact .foldl h.copyRelease (fun _ _ h => h.modEns) _
  · split
    · exact h.barApply
    · exact h
  · exact h
  · split
    · exact h.barApply
    · exact h

theorem Inv.landUnit {id j} (h : Inv s) : Inv (s.landUnit id j) := by
  unfold State.landUnit
  split
  · exact h
  split
  · exact h
  refine .iteSelf ?_ .finishCopy
  split
  · refine .foldl h.modCopy (fun s m h => ?_) _
    dsimp only
    split
    · exact h.modEns.barApply
    · exact h.modEns
  all_goals exact h

theorem Inv.landReady {id n} (h : Inv s) : Inv (s.landReady id n) := by
  induction n generalizing s with
  | zero => exact h
  | succ n ih =>
    unfold State.landReady
    split
    · exact h
    split
    · exact h
    · exact ih h.landUnit

theorem Inv.contributed {id sec} (h : Inv s) : Inv (s.contributed id sec) := h.modCopy.landReady.requestUnits

theorem Inv.reduceApply {core c init sector elems} (h : Inv s) : Inv (s.reduceApply core c init sector elems) :=
  .foldl h (fun _ _ h => h.storeElem) _

theorem Inv.drainEpisode {pa32 n} (h : Inv s) : Inv (s.drainEpisode pa32 n) := by
  induction n generalizing s with
  | zero => exact h
  | succ n ih =>
    unfold State.drainEpisode
    split
    · exact h
    split
    · exact h
    dsimp only
    split
    · exact ih h
    · exact ih (.contributed (h.reduceApply.sameMem rfl))

theorem Inv.contribute {id sec pa32 c} (h : Inv s) : Inv (s.contribute id sec pa32 c) := by
  unfold State.contribute
  dsimp only
  split
  · split
    · exact h
    split
    · refine .signalRefused (.contributed ?_)
      split
      · exact h.reduceApply
      · exact h.reduceApply.sameMem rfl
    split
    · exact h
    · exact h
  · split
    · exact h.copyErr.contributed
    split
    · exact .signalRefused (.drainEpisode (.contributed (h.reduceApply.sameMem rfl)))
    split
    · exact h
    · exact h

theorem Inv.moveUnit {c pages j} (h : Inv s) : Inv (s.moveUnit c pages j) := by
  unfold State.moveUnit
  split
  · split
    · exact .foldl h (fun _ _ h => h.modEns) _
    split
    · exact h
    refine .foldl h (fun s k h => ?_) _
    split
    · exact h
    · exact .ite h.storeElem h.storeElem
  · split
    · exact h
    · exact h
  · exact h
  · exact h

theorem Inv.beginCopy {id c} (h : Inv s) : Inv (s.beginCopy id c) := by
  have h2 : Inv (((if c.guard.isSome then s.markCopy id c else s.holdCopy c false).modCopy id fun c =>
      { c with started := some s.now }).registerCopy id c) := (Inv.ite h.markCopy h.holdCopy).modCopy.registerCopy
  unfold State.beginCopy
  dsimp only
  split
  · exact h2.requestUnits
  · exact h2.requestUnits
  · exact h2
  · exact h2

theorem Inv.discardCopy {id c} (h : Inv s) : Inv (s.discardCopy id c) := by
  refine .dropCopy ?_
  split
  · exact h
  · exact h

theorem Inv.freePlace {tid} (h : Inv s) : Inv (s.freePlace tid) := by
  unfold State.freePlace
  split
  · exact h
  · exact .foldl h (fun _ _ h => h.at_) _

theorem Inv.runQueue {tid n} (h : Inv s) : Inv (s.runQueue tid n) := by
  induction n generalizing s with
  | zero => exact h
  | succ n ih =>
    unfold State.runQueue
    split
    · exact h
    split
    · exact h
    dsimp only
    split
    · exact ih h.modTroupe.freePlace
    split
    · exact .ite h (.ite h h)
    · exact ih h.modTroupe.freePlace.discardCopy
    · exact ih h.modTroupe.freePlace.beginCopy

/-! ### Cues, wakes and stops -/

theorem Inv.reorder {tid} (h : Inv s) : Inv (s.reorder tid) := h

theorem Inv.replayInstr {tid uid} (h : Inv s) : Inv (s.replayInstr tid uid) := h

theorem Inv.wakeEnsemble {e} (h : Inv s) : Inv (s.wakeEnsemble e) := by
  unfold State.wakeEnsemble
  split
  · exact h
  split
  · exact h
  refine .wakeJoins (.foldl (.foldl (.foldl (.foldl h.modCore.modEns ?_ _) ?_ _) ?_ _) ?_ _)
  · exact fun _ _ h => h.resumeCopy
  · exact fun _ _ h => .at_ (.foldl h (fun _ _ h => h.replayInstr) _)
  · intro s l h
    refine .loadOvl ?_
    exact h
  · exact fun _ _ h => h.reorder.at_.settle

theorem Inv.pullGreen {d} (h : Inv s) : Inv (s.pullGreen d) := by
  unfold State.pullGreen
  split
  · exact h
  split
  · exact h
  · exact h

theorem Inv.pullAll {part} (h : Inv s) : Inv (s.pullAll part) := .foldl h (fun _ _ h => h.pullGreen) _

theorem Inv.dropOverlays {c} (h : Inv s) : Inv (s.dropOverlays c) := h

theorem Inv.goOn {c} (h : Inv s) : Inv (s.goOn c) := by
  refine .at_ (.pullAll (.foldl (.foldl (.dropOverlays ?_) ?_ _) ?_ _))
  · exact h
  · exact fun _ _ h => h.wakeEnsemble
  · exact fun _ _ h => h.at_

theorem Inv.restoreUnit {c d} (h : Inv s) : Inv (s.restoreUnit c d) := by
  refine .foldl h (fun s p h => ?_) _
  split
  · exact h.homeWrite
  · exact h

theorem Inv.restoreQueue {k q v} (h : Inv s) : Inv (s.restoreQueue k q v) :=
  .ite h.qPut.modQueue (.ite h.qPut.modQueue.qPut.modQueue h.qPut.modQueue)

theorem Inv.restoreCut {c k} (h : Inv s) : Inv (s.restoreCut c k) := by
  refine .admitFaults (.foldl ?_ (fun _ _ h => h.restoreQueue) _)
  have h3 (l : List (CkUnit × List Byte)) {t : State} (h : Inv t) : Inv (l.foldl (fun s d => s.restoreUnit c d) t) :=
    .foldl h (fun _ _ h => h.restoreUnit) _
  refine .ite (h3 _ (.takeBlocks (h.clear.sameMem rfl))) (.writeGreen (h3 _ (.takeBlocks (h.clear.sameMem rfl))))

theorem Inv.recover {c} (h : Inv s) : Inv (s.recover c) := by
  unfold State.recover
  split
  · exact h.restoreCut.goOn
  · exact h.report.terminate

theorem Inv.streamNext {c todo} (h : Inv s) : Inv (s.streamNext c todo) := h

theorem Inv.unmapQueues {c} (h : Inv s) : Inv (s.unmapQueues c) := by
  refine .foldl h (fun s q h => ?_) _
  dsimp only
  split
  · exact h
  · exact (Inv.ite h.qPut h).sameMem rfl

theorem Inv.recordCopies {e} (h : Inv s) : Inv (s.recordCopies e) :=
  .foldl h (fun _ _ h => h.modCopy.modCore.dropFaults.recallUnits) _

theorem Inv.recordLoads {tids} (h : Inv s) : Inv (s.recordLoads tids) := by
  refine .foldl (.foldl ?_ ?_ _) ?_ _
  · exact h.dropFills.sameMem rfl
  · exact fun _ _ h => h.dropFaults
  · exact fun _ _ h => h.at_

theorem Inv.fireAt {core a f late} (h : Inv s) : Inv (s.fireAt core a f late) := h

theorem Inv.givePoint {core a p} (h : Inv s) : Inv (s.givePoint core a p) := .ite h.fireAt h.fireAt

theorem Inv.addAct {core a} (h : Inv s) : Inv (s.addAct core a) := .ite h.modCore.givePoint h.modCore

theorem Inv.lateMark {a} (h : Inv s) : Inv (s.lateMark a) := .ite h.modTroupe h

theorem Inv.endAct {core a} (h : Inv s) : Inv (s.endAct core a) := h.lateMark.modCore

theorem Inv.deferAct {core a} (h : Inv s) : Inv (s.deferAct core a) := h

theorem Inv.fireLate {core tids} (h : Inv s) : Inv (s.fireLate core tids) := by
  refine .foldl h (fun s a h => ?_) _
  split
  · exact h.lateMark
  all_goals exact h

theorem Inv.endWaits {e} (h : Inv s) : Inv (s.endWaits e) := by
  refine .foldl h (fun s t h => .foldl h (fun s p h => ?_) _) _
  split
  · exact h
  · exact h.endWait

theorem Inv.stopOne {e park} (h : Inv s) : Inv (s.stopOne e park) := by
  unfold State.stopOne
  split
  · exact h
  split
  · exact h
  refine Inv.at_ (.bump (.modEns (.admitFaults (.foldl (.recordLoads (.recordCopies (.foldl h.fireLate.endWaits ?_ _))) ?_ _))))
  · exact fun _ _ h => h.modTroupe
  · exact fun _ _ h => h

theorem Inv.stopAll {es park} (h : Inv s) : Inv (s.stopAll es park) := .foldl h (fun _ _ h => h.stopOne) _

theorem Inv.settleArms {c} (h : Inv s) : Inv (s.settleArms c) := by
  refine Inv.sameMem (.foldl (.foldl h ?_ _) ?_ _) rfl
  · exact fun _ _ h => h.modCtx
  · exact fun _ _ h => h.modCtx

theorem Inv.stopContext {c park} (h : Inv s) : Inv (s.stopContext c park) := by
  refine .stopAll (.unmapQueues (.ite ?_ (.writeGreen ?_)))
  · exact h.modCtx.settleArms.sameMem rfl
  · exact h.modCtx.settleArms.sameMem rfl

theorem Inv.formCut {c p moving} (h : Inv s) : Inv (s.formCut c p moving) := by
  exact h.homeWrite.withCutting.modCtx.streamNext

theorem Inv.cutNow {c} (h : Inv s) : Inv (s.cutNow c) := by
  have h1 : Inv (if (s.ctx c).checkpoints = false ∧ s.moving c = false then s
      else match s.planCut c with
        | none => s.cannotSave c 1
        | some p => if p.units.any (s.unitFenced c) then s.cutFails c p.seq else s.formCut c p (s.moving c)) := by
    refine .ite h ?_
    split
    · exact h.cannotSave
    · exact .ite h.cutFails h.formCut
  exact .ite h1 h1.goOn

theorem Inv.saveSet {c e} (h : Inv s) : Inv (s.saveSet c e) := by
  unfold State.saveSet
  split
  · exact .ite h.cutFails h.homeWrite.withCutting.streamNext
  · exact h

theorem Inv.stageOn {core c} (h : Inv s) : Inv (s.stageOn core c) := h

theorem Inv.dropFmt {core c} (h : Inv s) : Inv (s.dropFmt core c) := by
  refine .notePreload ?_
  exact h

theorem Inv.pauseIntervals {c} (h : Inv s) : Inv (s.pauseIntervals c) := by
  unfold State.pauseIntervals
  split
  · exact h
  dsimp only
  split
  · exact h
  · exact h

theorem Inv.leaveCore {core c} (h : Inv s) : Inv (s.leaveCore core c) := by
  unfold State.leaveCore
  split
  · exact h
  dsimp only
  split
  · split
    · exact h.dropFmt.pauseIntervals.modCore
    · exact h.dropFmt.pauseIntervals.modCore.stageOn
  · exact h.dropFmt.pauseIntervals.modCore

theorem Inv.writeBlock {e tid t} (h : Inv s) : Inv (s.writeBlock e tid t) :=
  .foldl h.homeWrite (fun _ _ h => .foldl h (fun _ _ h => .ite h h.homeWrite) _) _

/-! ### Placement and launches -/

theorem Inv.noteRequest {q} (h : Inv s) : Inv (s.noteRequest q) := .ite h h.modQueue.at_

theorem Inv.serve {part r more} (h : Inv s) : Inv (s.serve part r more) := .ite h.modPart.modQueue.noteRequest h.modPart.modQueue

theorem Inv.startIntervals {c} (h : Inv s) : Inv (s.startIntervals c) := .ite h h.at_.modCtx

theorem Inv.enterCore {core c} (h : Inv s) : Inv (s.enterCore core c) := .ite h h.modCore

theorem Inv.returnEns {e core} (h : Inv s) : Inv (s.returnEns e core) := by
  unfold State.returnEns
  split
  · exact h
  refine .wakeEnsemble (.bump (.foldl (.foldl h.enterCore.modEns ?_ _) ?_ _))
  · exact fun _ _ h => h.modTroupe
  · exact fun _ _ h => h.modTroupe

theorem Inv.returnReqOn {r cores} (h : Inv s) : Inv (s.returnReqOn r cores) := .foldl h (fun _ _ h => h.returnEns) _

theorem Inv.startTroupe {e p core k block first} (h : Inv s) : Inv (s.startTroupe e p core k block first) := by
  refine .ite ?_ h
  refine Inv.sameMem (.actCycles ?_) rfl
  exact h

theorem Inv.startEns {c n lin member core group e} (h : Inv s) : Inv (s.startEns c n lin member core group e) := by
  refine .foldl (.takeBlocks ?_) (fun _ _ h => h.startTroupe) _
  exact h.enterCore.sameMem rfl

theorem Inv.startReqOn {r cores} (h : Inv s) : Inv (s.startReqOn r cores) := by
  have h1 {f : State → Nat → State} {n : Nat} (hf : ∀ s a, Inv s → Inv (f s a)) :
      Inv ((List.range r.count).foldl f { s with tick := n }) := .foldl (s := { s with tick := n }) h hf _
  unfold State.startReqOn
  dsimp only
  split
  · exact (h1 fun _ _ h => h.startEns).modProd.pullGreen
  all_goals exact (h1 fun _ _ h => h.startEns).modProd

theorem Inv.parkEns {e x yields} (h : Inv s) : Inv (s.parkEns e x yields) := by
  unfold State.parkEns
  split
  · exact h.cannotSave
  · exact (Inv.ite h.modEns h).stopAll

theorem Inv.makeRoom {part rs} (h : Inv s) : Inv (s.makeRoom part rs) := by
  unfold State.makeRoom
  refine .ite h ?_
  split
  · exact h
  · exact h.parkEns

theorem Inv.parkBlocked {part} (h : Inv s) : Inv (s.parkBlocked part) := .foldl h (fun _ _ h => .ite h.parkEns h) _

theorem Inv.queueError {q err addr} (h : Inv s) : Inv (s.queueError q err addr) := h.qPut.qPut.qPut.modQueue.report

theorem Inv.disable {q} (h : Inv s) : Inv (s.disable q) := h

theorem Inv.pump {q lead} (h : Inv s) : Inv (s.pump q lead) := by
  unfold State.pump
  refine .ite h (.ite h.disable.remap (.ite h (.ite h.remap (.ite h ?_))))
  dsimp only
  split
  · exact h.queueError.remap
  · exact .ite h h.modQueue.bump.readMax.at_

theorem Inv.postSignal {l} (h : Inv s) : Inv (s.postSignal l) := by
  unfold State.postSignal
  refine .ite h ?_
  split
  · exact h
  · exact (Inv.ite h.homeWrite.writeBackSector h.homeWrite).notify

theorem Inv.completeLaunch {n} (h : Inv s) : Inv (s.completeLaunch n) := by
  unfold State.completeLaunch
  split
  · exact h
  · refine .retryLaunches (.foldl (.modQueue ?_) (fun _ _ h => h.pump) _)
    exact h.releaseActs.postSignal.sameMem rfl

theorem Inv.noteRetire {n} (h : Inv s) : Inv (s.noteRetire n) := by
  unfold State.noteRetire
  split
  · exact h
  · exact .ite h.at_ h

theorem Inv.retire {n p} (h : Inv s) : Inv (s.retire n p) := by
  unfold State.retire
  extract_lets s1 s2 s3 s4
  have h1 : Inv s1 := h
  have h2 : Inv s2 := by
    unfold s2
    split
    · exact h1
    · exact h1.modEns.wakeJoins
  have h3 : Inv s3 := by
    unfold s3
    split
    · exact h2
    · exact h2.modProd.noteRetire
  have h4 : Inv s4 := h3.modLaunch
  split
  · exact h4
  · exact .ite h4.completeLaunch h4

theorem Inv.started {q k} (h : Inv s) : Inv (s.started q k) := h.qPut

theorem Inv.waited {q acq} (h : Inv s) : Inv (s.waited q acq) := h

end Sys2Proof
end

section
namespace Sys2Proof

open Machine

variable {s t : State} {w x : Work}

/-! ### Front ends -/

/-- A head of a queue in a state of canonical memory. -/
def HeadInv : Machine.Head → Prop
  | .none s => Inv s
  | .packet _ _ _ s => Inv s

theorem Inv.headOf {q ty} (h : Inv s) : HeadInv (s.headOf q ty) := by
  unfold State.headOf
  extract_lets s0 x k b
  have h0 : Inv s0 := h.modQueue
  split
  · exact h0
  split
  · exact h0.queueError.remap
  · split
    · exact h0.queueError.remap
    · exact h0

theorem HeadInv.none {y : Machine.Head} (h : HeadInv y) (e : y = .none t) : Inv t := by rw [e] at h; exact h

theorem HeadInv.packet {y : Machine.Head} {k b c} (h : HeadInv y) (e : y = .packet k b c t) : Inv t := by rw [e] at h; exact h

/-! ### Waits for sync words, and reports to a troupe -/

theorem Inv.tryAcq {a} (h : Inv s) : Inv (s.tryAcq a).1 := by
  unfold State.tryAcq
  extract_lets core s1 m s2 r s3 s4
  have h1 : Inv s1 := h.acqRead
  have h3 : Inv s3 := by
    unfold s3
    refine .ite (.ackOf (.modTroupe (.syncWrite ?_))) ?_
    · exact h1
    · exact h1
  have h4 : Inv s4 := h3.modTroupe.at_
  split
  · split
    · exact h4.modTroupe.startAct
    · exact h4.resume
  · exact h1

theorem Inv.acqRefused {a status} (h : Inv s) : OutInv (s.acqRefused a status) := by
  unfold State.acqRefused
  extract_lets s1
  have h1 : Inv s1 := h.logPeer.endWait
  split
  · exact h1
  · exact h1.takeTrap

theorem work_s {tid ent : Nat} (h : s.work tid ent = some w) : w.s = s := by
  unfold State.work at h
  split at h
  · cases h
  split at h
  · cases h; rfl
  · cases h

theorem Inv.work {tid ent} (h : Inv s) (e : s.work tid ent = some w) : Inv w.s := by rw [work_s e]; exact h

theorem Inv.takeReport {d} (h : Inv w.s) : OutInv (w.takeReport d) := h.takeTrap

theorem Inv.hear {d} (h : Inv w.s) : OutInv (w.hear d) := by
  unfold Work.hear
  split
  · trivial
  · next heq => exact (h.modTroupe.work heq).takeReport

theorem Inv.deliver {tid ens ctx win startPc cause reason level acc va} (h : Inv s) :
    OutInv (s.deliver tid ens ctx win startPc cause reason level acc va) := by
  unfold State.deliver
  split
  · exact h.unheard
  split
  · exact h
  split
  · exact h
  dsimp only
  split
  · exact h
  split
  · exact h
  · next heq => exact (h.endWait.work heq).takeReport

theorem Inv.raiseOvl {n f} (h : Inv s) : OutInv (s.raiseOvl n f) := by
  unfold State.raiseOvl
  split
  · exact h
  dsimp only
  have h1 {l} : Inv ((State.dropFaults { s with ovlLoads := s.ovlLoads.filter fun x => x.id ≠ n } (.ovld n)).ovlDeliver l 2) :=
    .ovlDeliver (.dropFaults (s := { s with ovlLoads := _ }) h)
  split
  · exact h1
  · exact h1.deliver

theorem Inv.reportCopy {id c cause reason level va} (h : Inv s) : OutInv (s.reportCopy id c cause reason level va) := by
  unfold State.reportCopy
  extract_lets st win s1
  have h1 : Inv s1 := by
    unfold s1
    split
    · exact .foldl h (fun _ _ h => h.modEns) _
    all_goals exact h
  exact h1.dropFaults.dropCopy.deliver

theorem Inv.raiseInstr {tid uid f} (h : Inv s) : OutInv (s.raiseInstr tid uid f) := by
  unfold State.raiseInstr
  split
  · exact h
  split
  · split
    · exact h.dropFaults.replayInstr
    · exact h.dropFaults.modTroupe.takeTrap
  · exact h.replayInstr
  · exact h

theorem Inv.raiseWaiter {f} (h : Inv s) : OutInv (raiseWaiter f s) := by
  unfold Machine.raiseWaiter
  refine .ite h ?_
  split
  · exact h.raiseInstr
  · split
    · exact h.dropFaults
    · exact h.reportCopy
  · exact h.raiseOvl

theorem OutInv.andThen {o : Out} {f : State → Out} (h : OutInv o) (hf : ∀ s, Inv s → OutInv (f s)) : OutInv (andThen o f) := by
  cases o with
  | next s => exact hf s h
  | fault e => trivial
  | refused e => trivial

theorem OutInv.forEach {α : Type} {f : α → State → Out} (hf : ∀ a s, Inv s → OutInv (f a s)) (l : List α) (h : Inv s) :
    OutInv (forEach f l s) := by
  induction l generalizing s with
  | nil => exact h
  | cons a l ih => exact (hf a s h).andThen fun _ h => ih h

/-! ### Splits in memory and results that land -/

theorem Inv.notePark {ens} (h : Inv s) : Inv (s.notePark ens) := by
  refine .ite ?_ h
  split
  · exact h
  · exact h

theorem Inv.fetchBack {tid t k} (h : Inv s) : Inv (s.fetchBack tid t k) := by
  unfold State.fetchBack
  split
  · exact h
  · refine .at_ (.bump (.readMax ?_))
    exact h

theorem Inv.writeSpill {base k p} (h : Inv s) : Inv (s.writeSpill base k p) :=
  .foldl h.homeWrite (fun _ _ h => .ite h h.homeWrite) _

theorem Inv.spill {tid base t p} (h : Inv s) : Inv (s.spill tid base t p).1 := by
  unfold State.spill
  dsimp only
  split
  · exact h.writeSpill.at_
  · exact h.writeSpill

theorem Inv.place {tid base forking t p} (h : Inv s) : Inv (s.place tid base forking t p).1 := by
  unfold State.place
  split
  · exact h
  split
  · exact h.spill
  · exact h.spill

theorem Inv.placeAll {tid base forking t l} (h : Inv s) : Inv (s.placeAll tid base forking t l).1 := by
  induction l generalizing s t with
  | nil => exact h
  | cons p l ih => exact ih h.place

theorem Inv.exchange {tid base t} (h : Inv s) : Inv (s.exchange tid base t) := by
  unfold State.exchange
  split
  · exact h
  · exact h.spill.fetchBack

theorem Inv.rewriteSpills {tid uids} (h : Inv s) : Inv (s.rewriteSpills tid uids) := by
  unfold State.rewriteSpills
  split
  · exact h
  split
  · exact h
  refine .foldl h (fun s j h => ?_) _
  split
  · exact .ite h.writeSpill h
  · exact h

theorem Inv.fset {core ctx tid e v} (h : Inv s) : Inv (s.fset core ctx tid e v) := h

theorem Inv.fsetAll {core ctx tid e l} (h : Inv s) : Inv (fsetAll core ctx tid e l s) := by
  induction l generalizing s e with
  | nil => exact h
  | cons v l ih => exact ih h.modTroupe.fset

theorem Inv.intoRecord {t base owner o} (h : Inv s) : Inv (s.intoRecord t base owner o) := by
  unfold State.intoRecord
  split
  · split
    · exact .ite h.homeWrite h.homeWrite.homeWrite
    · exact h
  · exact .foldl h (fun _ _ h => h.homeWrite) _
  · exact h

theorem Inv.intoSpill {t base owner o} (h : Inv s) : Inv (s.intoSpill t base owner o) := by
  unfold State.intoSpill
  split
  · exact .ite h.homeWrite h.homeWrite.homeWrite
  · exact h

theorem Inv.landPend {tid id} (h : Inv s) : Inv (s.landPend tid id) := by
  unfold State.landPend
  split
  · exact h
  dsimp only
  split
  · refine .iteSelf (.foldl h.modTroupe ?_ _) fun h => .foldl h ?_ _
    · exact fun _ _ h => h.intoSpill
    · exact fun _ _ h => h.intoRecord
  · exact h.modTroupe

/-! ### Formats, ends of ensembles, registers -/

theorem Inv.fmtHome {ctx e v id} (h : Inv s) : Inv (s.fmtHome ctx e v id) := .foldl h.modCtx (fun _ _ h => h.bump.at_) _

theorem Inv.startMat {core m} (h : Inv s) : Inv (s.startMat core m) := .foldl h.modCore.at_ (fun _ _ h => h.at_) _

theorem Inv.trigger {n} (h : Inv s) : Inv (s.trigger n) := .ite h.modProd.modLaunch.retryLaunches h.modProd

theorem Inv.endEnsemble {e x} (h : Inv s) : Inv (s.endEnsemble e x) := by
  refine Inv.at_ (.noteRetire (.leaveCore (.iteSelf (.modProd ?_) .trigger)))
  exact h

theorem Inv.endTroupe {tid} (h : Inv s) : Inv (s.endTroupe tid) := by
  refine .at_ (.admitFaults ?_)
  exact h

theorem Inv.writeCtxReg {core c n v} (h : Inv s) : Inv (s.writeCtxReg core c n v) := .bump (.ite h.modCtx.modCore h.modCtx)

theorem Inv.wakeDue {tid} (h : Inv s) : Inv (s.wakeDue tid) := by
  unfold State.wakeDue
  split
  · exact h
  refine .ite h ?_
  split
  · exact h
  · exact h.endWait

theorem Inv.writeBaseReg {off v} (h : Inv s) : Inv (s.writeBaseReg off v) := by
  unfold State.writeBaseReg
  dsimp only
  repeat' split
  all_goals exact h

theorem Inv.writeDieReg {d o v} (h : Inv s) : Inv (s.writeDieReg d o v) :=
  .ite h.modDie.atAll (.ite h.modDie (.ite h.modStack (.ite h.modStack h)))

theorem Inv.writeMapReg {o v} (h : Inv s) : Inv (s.writeMapReg o v) := by
  unfold State.writeMapReg
  repeat' split
  all_goals exact h

theorem Inv.writeModuleReg {off v} (h : Inv s) : Inv (s.writeModuleReg off v) := by
  unfold State.writeModuleReg
  split
  case h_2 => exact .writeEvents (s := { s with evbase := _ }) h
  case h_3 => exact .ite h h
  all_goals exact h

theorem Inv.answer {n lane status} (h : Inv s) : Inv (s.answer n lane status) := by
  unfold State.answer
  split
  · exact h
  split
  · exact h
  refine .ite h (.logPeer ?_)
  exact h

theorem Inv.serveRequest {ev k perm node key sla n atomic} {body : State → Nat → State} (h : Inv s)
    (hb : ∀ s pa, Inv s → Inv (body s pa)) : Inv (s.serveRequest ev k perm node key sla n atomic body) := by
  unfold State.serveRequest
  refine .ite h ?_
  split
  · split
    · exact h.reply
    · exact .ite h.at_ (hb _ _ h.settleSectors)
  · exact h.reply

theorem Inv.retrain {e} (h : Inv s) : Inv (s.retrain e) := h

/-! ### Work on a split -/

theorem Inv.issued {n} (h : Inv w.s) : Inv (w.issued n).s := h

theorem Inv.commit (h : Inv w.s) : Inv w.commit := h

theorem Inv.hold (h : Inv w.s) : Inv w.hold := h

theorem Inv.suspend {n x} (h : Inv w.s) : Inv (w.suspend n x) := by
  refine .notePark ?_
  exact h

theorem Inv.close (h : Inv w.s) : Inv w.close := by
  refine .ite ?_ ?_
  · exact h
  · exact h

theorem Inv.finish {n} (h : Inv w.s) : Inv (w.finish n) := by
  refine .close ?_
  exact h

theorem Inv.finishAfter {n cycles} (h : Inv w.s) : Inv (w.finishAfter n cycles) := by
  refine .close ?_
  exact h

theorem Inv.trap {n x} (h : Inv w.s) : OutInv (w.trap n x) := h.takeTrap

theorem Inv.fetchTrap {x} (h : Inv w.s) : OutInv (w.fetchTrap x) := h.takeTrap

/-- A gate that passes the work of a state with a canonical memory. -/
def GateInv : Gate → Prop
  | .noIssuer => True
  | .trap w _ => Inv w.s
  | .hold w => Inv w.s
  | .go w => Inv w.s

theorem Inv.gate {n} (h : Inv s) : GateInv (gate n s) := by
  unfold Machine.gate
  split
  · trivial
  split
  · trivial
  · next heq =>
    have hw := h.work heq
    split
    · exact hw
    split
    · exact hw
    dsimp only
    split
    · exact hw
    · exact hw

theorem Inv.run {n} {body : Work → Eff} (h : Inv s) (hb : ∀ w, Inv w.s → EffInv (body w)) : OutInv (run n body s) := by
  have hg := h.gate (n := n)
  unfold Machine.run
  split
  · trivial
  · next heq => rw [heq] at hg; exact Inv.trap hg
  · next heq => rw [heq] at hg; exact Inv.hold hg
  · next w heq =>
    rw [heq] at hg
    have he := hb w hg
    split
    · next heq => rw [heq] at he; exact Inv.finish he
    · next heq => rw [heq] at he; exact he
    · exact Inv.trap hg
    · next heq => rw [heq] at he; refine Inv.trap ?_; exact Inv.commit he
    · exact Inv.hold hg
    · trivial

theorem EffInv.ite {c : Prop} [Decidable c] {a b : Eff} (ha : EffInv a) (hb : EffInv b) : EffInv (if c then a else b) := by
  split
  · exact ha
  · exact hb

theorem Inv.ifActive {body : Work → Eff} (h : Inv w.s) (hb : EffInv (body w)) : EffInv (ifActive body w) := .ite h hb

theorem EffInv.atDrain {body : Work → Eff} (hb : EffInv (body w)) : EffInv (atDrain body w) := .ite hb trivial

/-! ### Results -/

theorem Inv.set {r lanes f} (h : Inv w.s) : Inv (w.set r lanes f).s := by
  unfold Work.set
  split
  case h_5 => split <;> exact h
  all_goals exact h

theorem Inv.setAll (l : List (Reg × Mask × (Nat → Word))) (h : Inv w.s) : Inv (l.foldl (fun w o => w.set o.1 o.2.1 o.2.2) w).s := by
  induction l generalizing w with
  | nil => exact h
  | cons o l ih => exact ih h.set

theorem Inv.fixed {vector latch code glen outs lat} (h : Inv w.s) : Inv (w.fixed vector latch code glen outs lat).s := by
  have h1 := h.setAll outs
  unfold Work.fixed
  dsimp only
  split
  · exact h1.set.bump.at_
  · exact h1.bump.at_

theorem Inv.result {vector latch n len f} (h : Inv w.s) : Inv (w.result vector latch n len f).s := h.fixed

theorem Inv.pairResult {vector n f} (h : Inv w.s) : Inv (w.pairResult vector n f).s := h.result

theorem Inv.raise {f} (h : Inv w.s) : Inv (w.raise f).s := h

theorem Inv.alu {vector n f} (h : Inv w.s) : Inv (w.alu vector n f).s := .raise h.result

theorem Inv.convert {n r} (h : Inv w.s) : Inv (w.convert n r).s := h.alu

theorem Inv.stepped {n k} (h : Inv w.s) : Inv (w.stepped n k).s := by
  unfold Work.stepped
  split
  · exact h.set
  · exact h

theorem Inv.holdFor {p} (h : Inv w.s) : Inv (w.holdFor p).s := h

theorem Inv.later {cycles flags n len f} (h : Inv w.s) : Inv (w.later cycles flags n len f).s := h

theorem Inv.unacked (h : Inv w.s) : Inv w.unacked.s := h

theorem Inv.workRequest {new} (h : Inv w.s) : Inv (w.request new).s := Inv.request h

theorem Inv.awaitAck {pa} (h : Inv w.s) : Inv (w.awaitAck pa).s := by
  refine .workRequest ?_
  exact h.writeTime.bump

theorem Inv.actThen {n rel acq scope ivs after} (h : Inv w.s) : Inv (w.actThen n rel acq scope ivs after) := by
  refine .startAct (.suspend ?_)
  exact h

theorem Inv.reload (h : Inv s) : Inv (w.reload s).s := by
  unfold Work.reload
  split
  · next heq =>
    have hx := h.work heq
    exact hx
  · exact h

theorem Inv.via {f : State → State} (h : Inv w.s) (hf : ∀ s, Inv s → Inv (f s)) : Inv (w.via f).s := .reload (hf _ h.commit)

theorem Inv.workEnqueue {c} (h : Inv w.s) : Inv (w.enqueue c).s := h.via fun _ h => h.enqueue

theorem Inv.workAddAct {a} (h : Inv w.s) : Inv (w.addAct a).s := h.bump.addAct

/-! ### Accesses to memory -/

theorem Inv.xlateAll {acc ok va l} (h : Inv w.s) : Inv (w.xlateAll acc ok va l).1.s := h.tlbs (xlateAll_only w acc ok va l).1

theorem Inv.physical {l} (h : Inv w.s) : Inv (w.physical l).1.s := h.tlbs (physical_only w l).1

theorem Inv.regionsOf_ {bar obj} (h : Inv w.s) : Inv (w.regionsOf_ bar obj).1.s := h.physical

theorem Inv.answeredIf {o : Option PeerReq} (h : Inv w.s) : Inv ((o.map w.answered).getD w).s := by
  cases o with
  | none => exact h
  | some r => exact h

theorem Inv.ask {lanes done} (h : Inv w.s) : Inv (w.ask lanes done) := by
  refine .foldl (.commit ?_) (fun s q h => ?_) _
  · exact h.requestPaths.sameMem rfl
  · split
    · exact h.at_
    · exact h

theorem Inv.park {done fs} (h : Inv w.s) : EffInv (w.park done fs) := by
  refine Inv.foldl (.dropFaults ?_) (fun _ _ h => h.raiseFault) _
  exact h

theorem Inv.single {acc ok len vas} {body : Work → List Mapped → Eff} (h : Inv w.s) (hb : ∀ w ms, Inv w.s → EffInv (body w ms)) :
    EffInv (w.single acc ok len vas body) := by
  have hx {va l} : Inv (w.xlateAll acc ok va l).1.s := h.xlateAll
  unfold Work.single
  dsimp only
  split
  · exact hx.park
  split
  · exact hx
  split
  · exact hx
  split
  · trivial
  split
  · exact hx.ask
  · split
    · trivial
    split
    · exact hx.answeredIf
    · exact hb _ _ hx.answeredIf

/-- A memory operation whose accesses keep memory canonical. -/
def MemOp.Keeps (op : MemOp) : Prop := ∀ rs s, Inv s → Inv (op.perform rs s).1

theorem Inv.performNow {n op rs} (h : Inv w.s) (ho : MemOp.Keeps op) : Inv (w.performNow n op rs).s := by
  have h1 : Inv (op.perform rs (w.s.pathsOf w.E.core op.acks op.l1 (rs.map (·.2))).1).1 := ho _ _ h.pathsOf
  unfold Work.performNow
  dsimp only
  split
  · refine .workRequest (.unacked (.setAll _ ?_))
    exact h1
  · refine .setAll _ ?_
    exact h1

theorem Inv.performLater {n op rs} (h : Inv w.s) (ho : MemOp.Keeps op) : Inv (w.performLater n op rs).s := by
  have h1 : Inv (op.perform rs (w.s.pathsOf w.E.core op.acks op.l1 (rs.map (·.2))).1).1 := ho _ _ h.pathsOf
  unfold Work.performLater
  extract_lets x p w1 w2 acks outs
  have h2 : Inv w2.s := by
    unfold w2
    split
    · exact h1
    · exact h1
  split
  · exact h2.workRequest
  · exact h2.holdFor.workRequest

theorem Inv.memory {n op} (h : Inv w.s) (ho : MemOp.Keeps op) : EffInv (w.memory n op) := by
  have hx : Inv (w.xlateAll op.acc op.ok op.va (lanesOf w.act)).1.s := h.xlateAll
  unfold Work.memory
  refine .ite h (.ite trivial ?_)
  dsimp only
  split
  · trivial
  split
  · trivial
  split
  · split
    · exact (hx.answeredIf.performNow ho).ask
    · exact (hx.answeredIf.performNow ho).park
  split
  · exact hx.answeredIf
  split
  · exact hx.answeredIf
  split
  · exact hx.answeredIf.performNow ho
  · exact (hx.answeredIf.performNow ho).ask
  · exact hx.answeredIf.performLater ho

theorem Inv.performAtomics {core n new l} (h : Inv s) : Inv (performAtomics core n new l s).1 := by
  induction l generalizing s with
  | nil => exact h
  | cons r l ih => exact ih h.rmw

theorem Inv.performStores {core n v l} (h : Inv s) : Inv (performStores core n v l s).1 := by
  induction l generalizing s with
  | nil => exact h
  | cons r l ih => exact ih h.storeBytes

theorem Inv.performLoads {core nc n l} (h : Inv s) : Inv (performLoads core nc n l s).1 := h.caches (performLoads_only core nc n l s)

theorem Inv.loadSectors {core l} (h : Inv s) : Inv (loadSectors core l s).1 := h.caches (loadSectors_only core l s)

theorem Inv.storeSectors {core l bs} (h : Inv s) : Inv (storeSectors core l bs s) := by
  induction l generalizing s bs with
  | nil => exact h
  | cons m l ih => exact ih (.foldl h (fun _ _ h => h.storeBytes) _)

theorem Inv.atomic {n size op len} (h : Inv w.s) : EffInv (w.atomic n size op len) := h.memory fun _ _ h => h.performAtomics

theorem Inv.load {n code nc va} (h : Inv w.s) : EffInv (w.load n code nc va) := h.memory fun _ _ h => h.performLoads

theorem Inv.store {n code va} (h : Inv w.s) : EffInv (w.store n code va) := h.memory fun _ _ h => h.performStores

theorem Inv.prefetch {n w1 i} (h : Inv w1.s) : Inv (w.prefetch n w1 i).s := h.caches (prefetch_only w n w1 i).1

end Sys2Proof
end

section
namespace Sys2Proof

open Machine

variable {s t : State} {w x : Work} {n : Ins}

/-! ### The effects of the instructions -/

theorem Inv.lanewise {f} (h : Inv w.s) : EffInv (lanewise f n w) := h.ifActive h.alu

theorem Inv.elementwise {f} (h : Inv w.s) : EffInv (elementwise f n w) := h.ifActive h.alu

theorem Inv.floatwise {f} (h : Inv w.s) : EffInv (floatwise f n w) := h.ifActive h.alu.stepped

theorem Inv.withCarry {f} (h : Inv w.s) : EffInv (withCarry f n w) := h.ifActive h.fixed

theorem Inv.special (h : Inv w.s) : EffInv (special n w) := h.ifActive h.later

theorem Inv.goto {d} (h : Inv w.s) : EffInv (w.goto n d) := by
  refine Inv.close ?_
  exact h

theorem Inv.fork {rcv groups} (h : Inv w.s) : EffInv (w.fork n rcv groups) := by
  unfold Work.fork
  refine .ite trivial (.ite trivial ?_)
  dsimp only
  split
  · trivial
  · refine Inv.iteSelf ?_ .settle
    refine Inv.sameMem (.placeAll ?_) rfl
    exact h

theorem Inv.scatter {rcv key dest} (h : Inv w.s) : EffInv (w.scatter n rcv key dest) := by
  unfold Work.scatter
  split
  · exact h.goto
  · exact h.fork

theorem Inv.link (h : Inv w.s) : Inv (w.link n).s := h.set

theorem Inv.opBra (h : Inv w.s) : EffInv (opBra n w) := h.goto

theorem Inv.opBrc (h : Inv w.s) : EffInv (opBrc n w) := .ite h (.ite h.goto h.fork)

theorem Inv.opBrx (h : Inv w.s) : EffInv (opBrx n w) := h.scatter

theorem Inv.opCall (h : Inv w.s) : EffInv (opCall n w) := h.link.goto

theorem Inv.opCallx (h : Inv w.s) : EffInv (opCallx n w) := h.link.scatter

theorem Inv.opOcall (h : Inv w.s) : EffInv (opOcall n w) := .ite trivial h.link.goto

theorem Inv.opRet (h : Inv w.s) : EffInv (opRet n w) := h.scatter

theorem Inv.leaveTroupe (h : Inv w.s) : Inv w.leaveTroupe := h

theorem Inv.opExit (h : Inv w.s) : EffInv (opExit n w) := .atDrain (.ite h.leaveTroupe h)

theorem Inv.opRejoin (h : Inv w.s) : EffInv (opRejoin n w) := h

theorem Inv.opFull (h : Inv w.s) : EffInv (opFull n w) := .ite trivial h

theorem Inv.opEndfull (h : Inv w.s) : EffInv (opEndfull n w) := .atDrain h

theorem Inv.opVote (h : Inv w.s) : EffInv (opVote n w) := h.ifActive (.ite h.later h.later)

theorem Inv.opShfl (h : Inv w.s) : EffInv (opShfl n w) := h.ifActive h.later

theorem Inv.opTred (h : Inv w.s) : EffInv (opTred n w) := h.ifActive h.later

theorem Inv.opTredf (h : Inv w.s) : EffInv (opTredf n w) := h.ifActive h.later

theorem Inv.opScan (h : Inv w.s) : EffInv (opScan n w) := h.ifActive h.later

theorem Inv.opSplq (h : Inv w.s) : EffInv (opSplq n w) := h.ifActive h.result

theorem Inv.opImulw (h : Inv w.s) : EffInv (opImulw n w) := h.ifActive h.pairResult

theorem Inv.opIsad (h : Inv w.s) : EffInv (opIsad n w) := h.ifActive h.alu

theorem Inv.opIcmp (h : Inv w.s) : EffInv (opIcmp n w) := h.ifActive h.alu

theorem Inv.opLea (h : Inv w.s) : EffInv (opLea n w) := h.ifActive h.pairResult

theorem Inv.opXset (h : Inv w.s) : EffInv (opXset n w) := h.ifActive h.alu

theorem Inv.opXbnd (h : Inv w.s) : EffInv (opXbnd n w) := h.ifActive h.result

theorem Inv.opSmov (h : Inv w.s) : EffInv (opSmov n w) := h.result

theorem Inv.gwrite {g v} (h : Inv w.s) : Inv (w.gwrite n g v).s := by
  refine .result ?_
  exact h

theorem Inv.opGmov (h : Inv w.s) : EffInv (opGmov n w) := by
  refine h.ifActive (.ite ?_ ?_)
  · split
    · split
      · exact .ite h.gwrite trivial
      · exact h.gwrite
    · exact h
  · split
    · exact h.later
    · exact h

theorem Inv.opVtos (h : Inv w.s) : EffInv (opVtos n w) := h.ifActive h.later

theorem Inv.opStov (h : Inv w.s) : EffInv (opStov n w) := by
  refine h.ifActive (.ite h (Inv.result ?_))
  exact h

theorem Inv.opPmov (h : Inv w.s) : EffInv (opPmov n w) := h.ifActive (.ite h.alu h.fixed)

theorem Inv.opFset (h : Inv w.s) : EffInv (opFset n w) := h.ifActive h.fset

theorem Inv.opFget (h : Inv w.s) : EffInv (opFget n w) := h.ifActive h.pairResult

theorem Inv.tableBody {acc} {body : Nat → Work → List Mapped → Eff} (h : Inv w.s)
    (hb : ∀ va w ms, Inv w.s → EffInv (body va w ms)) : EffInv (tableBody n acc body w) :=
  h.ifActive (.ite trivial (.ite trivial (h.single (hb _))))

theorem Inv.fsaveAt {va ms} (h : Inv w.s) : EffInv (fsaveAt va w ms) := by
  refine Inv.workRequest (.unacked ?_)
  exact h.pathsOf.storeSectors

theorem Inv.opFsave (h : Inv w.s) : EffInv (opFsave n w) := h.tableBody fun _ _ _ h => h.fsaveAt

theorem Inv.floadAt {va ms} (h : Inv w.s) : EffInv (floadAt n va w ms) := by
  refine Inv.suspend (.workRequest (.holdFor ?_))
  exact h.pathsOf.loadSectors

theorem Inv.opFload (h : Inv w.s) : EffInv (opFload n w) := h.tableBody fun _ _ _ h => h.floadAt

theorem Inv.opCvt (h : Inv w.s) : EffInv (opCvt n w) := h.ifActive h.convert.stepped

theorem Inv.opCvtsr (h : Inv w.s) : EffInv (opCvtsr n w) := h.ifActive h.convert

theorem Inv.opPack (h : Inv w.s) : EffInv (opPack n w) := h.ifActive (.stepped (.raise h.result))

theorem Inv.opUnpack (h : Inv w.s) : EffInv (opUnpack n w) := h.ifActive (.stepped (.raise h.result))

theorem Inv.opFscale (h : Inv w.s) : EffInv (opFscale n w) := h.ifActive h.alu.stepped

theorem Inv.opFdot2 (h : Inv w.s) : EffInv (opFdot2 n w) := h.ifActive h.alu.stepped

theorem Inv.claim {b} (h : Inv w.s) : Inv (w.claim n b).s := by
  unfold Work.claim
  dsimp only
  split
  · exact h.later
  split
  · exact h.later
  · exact h

theorem Inv.release {b} (h : Inv w.s) : Inv (w.release n b).s := by
  unfold Work.release
  dsimp only
  split
  · exact h.later
  · exact h

theorem Inv.opAclaim (h : Inv w.s) : EffInv (opAclaim n w) := h.ifActive h.claim

theorem Inv.opBclaim (h : Inv w.s) : EffInv (opBclaim n w) := h.ifActive h.claim

theorem Inv.opArel (h : Inv w.s) : EffInv (opArel n w) := h.ifActive (.ite trivial h.release)

theorem Inv.opBrel (h : Inv w.s) : EffInv (opBrel n w) := h.ifActive (.ite trivial h.release)

theorem Inv.opOpld (h : Inv w.s) : EffInv (opOpld n w) := by
  refine h.ifActive (.ite trivial (.ite trivial (.ite trivial (.ite trivial (.ite trivial ?_)))))
  split
  · trivial
  · exact .ite trivial (.ite trivial h.workEnqueue)

theorem Inv.matIssue {kind c} (h : Inv w.s) : Inv (w.matIssue n kind c).s := by
  unfold Work.matIssue
  dsimp only
  split
  · refine .workAddAct ?_
    exact h
  · exact h

theorem Inv.opMat {kind} (h : Inv w.s) : EffInv (opMat kind n w) := by
  refine h.ifActive (.ite trivial ?_)
  split
  · trivial
  · exact .ite trivial h.matIssue

theorem Inv.claimTile {k} (h : Inv w.s) (e : w.claimTile k = some x) : Inv x.s := by
  unfold Work.claimTile at e
  split at e
  · cases e; exact h
  · obtain ⟨p, -, rfl⟩ := Option.map_eq_some_iff.1 e
    exact h

theorem Inv.tileWrite {k cycles f} (h : Inv w.s) : Inv (w.tileWrite k cycles f).s := h

theorem Inv.opAcczero (h : Inv w.s) : EffInv (opAcczero n w) := by
  refine h.ifActive (.ite trivial ?_)
  split
  · trivial
  · next heq => exact (h.claimTile heq).tileWrite

theorem Inv.opAccwr (h : Inv w.s) : EffInv (opAccwr n w) := by
  refine h.ifActive (.ite trivial (.ite trivial ?_))
  split
  · trivial
  · next heq => exact (h.claimTile heq).tileWrite

theorem Inv.opAccrd (h : Inv w.s) : EffInv (opAccrd n w) := by
  refine h.ifActive (.ite trivial ?_)
  split
  · trivial
  dsimp only
  split
  · exact h.holdFor.stepped.modCore
  · exact h.holdFor.stepped.at_

theorem Inv.opAccfree (h : Inv w.s) : EffInv (opAccfree n w) := h.ifActive (.ite trivial h)

theorem Inv.startFills {l} (h : Inv w.s) : Inv (w.startFills l).1.s := by
  induction l generalizing w with
  | nil => exact h
  | cons k l ih =>
    unfold Work.startFills
    split
    · exact ih h
    split
    · exact h
    · exact ih h.workEnqueue

theorem Inv.stage {size} {body : Work → (Nat → Nat) → Eff} (h : Inv w.s) (hb : ∀ w f, Inv w.s → EffInv (body w f)) :
    EffInv (w.stage n size body) := by
  unfold Work.stage
  refine .ite trivial ?_
  split
  · trivial
  split
  · trivial
  dsimp only
  split
  · trivial
  split
  · next heq => exact Inv.hold (h.startFills.fstWork heq)
  · next heq =>
    have hw := h.startFills.fstWork heq
    split
    · exact hw
    split
    · exact hw
    split
    · exact hw
    · exact hb _ _ hw

theorem Inv.opSld (h : Inv w.s) : EffInv (opSld n w) := h.ifActive (h.stage fun _ _ h => h.later)

theorem Inv.opSst (h : Inv w.s) : EffInv (opSst n w) := by
  refine h.ifActive (h.stage fun w addr h => .ite trivial (.ite ?_ ?_))
  · refine Inv.actThen (.physical ?_)
    exact h
  · refine Inv.via ?_ fun _ h => h.checkBars
    exact h

theorem Inv.opSgath (h : Inv w.s) : EffInv (opSgath n w) := by
  refine h.ifActive (.ite trivial (.ite trivial ?_))
  split
  · trivial
  refine .ite trivial (.ite trivial (.ite trivial ?_))
  split
  · trivial
  · exact .ite trivial h.workEnqueue

theorem Inv.opSfill (h : Inv w.s) : EffInv (opSfill n w) := by
  refine h.ifActive (.ite trivial (.ite trivial (.ite trivial (.ite trivial ?_))))
  split
  · trivial
  · exact .ite trivial h.workEnqueue

theorem Inv.opWbind (h : Inv w.s) : EffInv (opWbind n w) := by
  refine h.ifActive ?_
  dsimp only
  split
  · exact .ite trivial h
  refine .ite trivial (.ite trivial (.ite trivial (.ite trivial ?_)))
  split
  · trivial
  · exact h

theorem Inv.opWset (h : Inv w.s) : EffInv (opWset n w) := by
  refine h.ifActive (.ite trivial ?_)
  split
  · trivial
  · exact .ite trivial h

theorem Inv.opTouch (h : Inv w.s) : EffInv (opTouch n w) := by
  refine h.ifActive (.ite trivial (.ite trivial ?_))
  split
  · exact h
  · trivial
  · trivial
  · exact h.workEnqueue

theorem Inv.opWrel (h : Inv w.s) : EffInv (opWrel n w) := h.ifActive (.ite trivial h)

theorem Inv.opWstat (h : Inv w.s) : EffInv (opWstat n w) := by
  refine h.ifActive ?_
  change Inv (Work.s (if _ then _ else _))
  split
  · exact h
  · exact h

theorem Inv.opBcommit (h : Inv w.s) : EffInv (opBcommit n w) := h.ifActive h

theorem Inv.opBwait (h : Inv w.s) : EffInv (opBwait n w) := h.ifActive (.ite h h.suspend)

theorem Inv.opTbinit (h : Inv w.s) : EffInv (opTbinit n w) := by
  refine h.ifActive (.ite trivial (.ite trivial ?_))
  split
  · trivial
  · exact h

theorem Inv.opTbarr (h : Inv w.s) : EffInv (opTbarr n w) := by
  refine h.ifActive (.ite trivial (.ite trivial ?_))
  split
  · trivial
  refine .ite trivial (.ite ?_ ?_)
  · exact h.regionsOf_.holdFor.actThen
  · exact (h.via fun _ h => h.barApply).later

theorem Inv.opTbexp (h : Inv w.s) : EffInv (opTbexp n w) := by
  refine h.ifActive (.ite trivial (.ite trivial ?_))
  split
  · trivial
  · exact h.via fun _ h => h.barApply

theorem Inv.opTbwait (h : Inv w.s) : EffInv (opTbwait n w) := by
  refine h.ifActive ?_
  extract_lets low a p x
  have hx : Inv x.1.s := h.regionsOf_
  refine .ite trivial ?_
  split
  · trivial
  generalize w.E.bar a % 16 = phase
  refine .ite (Inv.suspend ?_) (.ite (Inv.actThen ?_) hx.finishAfter)
  · exact hx
  · exact hx

theorem Inv.opPref (h : Inv w.s) : EffInv (opPref n w) := by
  have go (l : List Nat) (w1 : Work) (h : Inv w1.s) : Inv (l.foldl (fun w1 i => w.prefetch n w1 i) w1).s := by
    induction l generalizing w1 with
    | nil => exact h
    | cons i l ih => exact ih _ h.prefetch
  exact h.ifActive (.ite trivial (go _ _ h))

theorem Inv.opInval (h : Inv w.s) : EffInv (opInval n w) := by
  refine h.ifActive (.ite trivial (Inv.finishAfter ?_))
  exact h.physical.modCore

theorem Inv.opSbind (h : Inv w.s) : EffInv (opSbind n w) :=
  h.ifActive (.ite trivial (.ite trivial (.ite trivial (.ite trivial (.ite trivial h)))))

theorem Inv.opSunbind (h : Inv w.s) : EffInv (opSunbind n w) := h.ifActive h

theorem Inv.acqAt {va pa} (h : Inv w.s) : EffInv (acqAt n va w pa) := by
  unfold Machine.acqAt
  extract_lets i op scope b c x t s1 m outs src w1 id w2 w3 back w5 waiting a s2 s3
  have h1 : Inv s1 := by
    refine .acqRead ?_
    unfold t
    split
    · exact Inv.readTime h.regionsOf_
    · exact Inv.writeTime h.regionsOf_
  split
  · have h2 : Inv w2.s := by
      unfold w2
      split
      · exact h1.syncWrite
      · exact h1
    have h5 : Inv w5.s := by
      unfold w5
      split
      · exact h2.holdFor.unacked.workRequest
      · exact h2.holdFor.workRequest
    exact .ite h5.actThen h5
  · have h3 : Inv s3 := by
      refine Inv.sameMem (.suspend ?_) rfl
      exact h1
    exact Inv.ite h3.at_ h3

theorem Inv.opAcq (h : Inv w.s) : EffInv (opAcq n w) :=
  h.ifActive (.ite trivial (.ite trivial (h.single fun _ _ h => h.acqAt)))

theorem Inv.relAt {sig va pa} (h : Inv w.s) : EffInv (relAt sig n va w pa) := by
  refine .ite trivial (.ite h.regionsOf_.actThen (Inv.awaitAck ?_))
  exact .ite h.regionsOf_.syncWrite.notify h.regionsOf_.syncWrite

theorem Inv.relBody {sig} (h : Inv w.s) : EffInv (relBody sig n w) :=
  h.ifActive (.ite trivial (.ite trivial (h.single fun _ _ h => h.relAt)))

theorem Inv.opFence (h : Inv w.s) : EffInv (opFence n w) := h.ifActive (.ite trivial (.ite h.actThen h))

theorem Inv.opSpawn (h : Inv w.s) : EffInv (opSpawn n w) := by
  refine h.ifActive (.ite trivial (.ite trivial (.ite trivial (h.single fun w ms h => .ite trivial (.ite ?_ ?_)))))
  · exact h.holdFor.actThen
  · exact h.holdFor.finish.spawnEnd

theorem Inv.joinBody {park} (h : Inv w.s) : EffInv (joinBody park n w) := h.ifActive (.ite h.suspend (.ite h.actThen h))

theorem Inv.opTrig (h : Inv w.s) : EffInv (opTrig n w) := h.ifActive (.ite trivial (.ite h.trigger h))

theorem Inv.opOvld (h : Inv w.s) : EffInv (opOvld n w) := by
  refine h.ifActive (Inv.loadOvl (.finish ?_))
  exact h

theorem Inv.opCuearm (h : Inv w.s) : EffInv (opCuearm n w) := h.ifActive (.ite trivial h.atBefore)

theorem Inv.opCue (h : Inv w.s) : EffInv (opCue n w) := by
  refine h.ifActive (.ite trivial ?_)
  split
  · exact .ite trivial (.ite trivial h.workAddAct)
  · dsimp only
    split
    · trivial
    · exact .ite trivial h.regionsOf_.workAddAct
  · exact .ite trivial h.workAddAct

theorem Inv.opCuewait (h : Inv w.s) : EffInv (opCuewait n w) := by
  refine h.ifActive (.ite trivial (.ite trivial (Inv.addAct (.suspend ?_))))
  exact h

theorem Inv.guard {v} (h : Inv w.s) : Inv (w.guard n v).s := h

theorem Inv.opGdset (h : Inv w.s) : EffInv (opGdset n w) := h.ifActive h.guard

theorem Inv.opGdclr (h : Inv w.s) : EffInv (opGdclr n w) := h.ifActive h.guard

theorem Inv.opTrap (h : Inv w.s) : EffInv (opTrap n w) := h.ifActive trivial

theorem Inv.opSysc (h : Inv w.s) : EffInv (opSysc n w) := h.ifActive trivial

theorem Inv.opBkpt (h : Inv w.s) : EffInv (opBkpt n w) := h.ifActive trivial

theorem Inv.leave {base} (h : Inv w.s) : Inv (w.leave base) := by
  unfold Work.leave
  extract_lets
  refine .close ?_
  exact h

theorem Inv.opTret (h : Inv w.s) : EffInv (opTret n w) :=
  h.ifActive (.ite trivial (.ite h.commit.doubleTrap (Inv.wakeDue (.leave h.issued))))

theorem Inv.opRdsr (h : Inv w.s) : EffInv (opRdsr n w) := h.ifActive (.ite trivial h.later)

theorem Inv.opWrsr (h : Inv w.s) : EffInv (opWrsr n w) := h.ifActive (.ite h (.ite h h.writeCtxReg))

theorem Inv.opHalt (h : Inv w.s) : EffInv (opHalt n w) := h.ifActive (.atDrain (.ite (Inv.endTroupe h) (Inv.doubleTrap h)))

theorem Inv.opRdcyc (h : Inv w.s) : EffInv (opRdcyc n w) := h.ifActive h.later

theorem Inv.opRdnrg (h : Inv w.s) : EffInv (opRdnrg n w) := h.ifActive h.later

theorem Inv.opRdid (h : Inv w.s) : EffInv (opRdid n w) := h.ifActive h.later

theorem Inv.shootdown {kind addr count} (h : Inv w.s) : Inv (w.shootdown n kind addr count) := by
  refine .at_ (.foldl ?_ (fun _ _ h => h.at_) _)
  refine Inv.sameMem (.suspend ?_) rfl
  exact h

theorem Inv.opTlbinv (h : Inv w.s) : EffInv (opTlbinv n w) := h.ifActive (.ite (.ite trivial h.shootdown) h.shootdown)

end Sys2Proof
end

section
namespace Sys2Proof

open Machine

variable {s t : State} {w x : Work}

/-! ### The events of the module -/

theorem Inv.undefinedInstruction {word} (h : Inv s) : OutInv (execUndefinedInstruction word s) := by
  unfold execUndefinedInstruction
  cases s.issuer with
  | none => trivial
  | some w => exact h.takeTrap

theorem Inv.issuer (h : Inv s) (e : s.issuer = some w) : Inv w.s := by
  obtain ⟨c, -, hc⟩ := Option.bind_eq_some_iff.1 e
  exact h.work hc

theorem Inv.fetchBeyondOverlay {fell} (h : Inv s) : OutInv (execFetchBeyondOverlay fell s) := by
  unfold execFetchBeyondOverlay
  cases hw : s.issuer with
  | none => trivial
  | some w =>
    dsimp only
    split
    · exact h.takeTrap
    · exact (h.issuer hw).fetchTrap

theorem Inv.fetchOverlayAbsent (h : Inv s) : OutInv (execFetchOverlayAbsent s) := by
  unfold execFetchOverlayAbsent
  cases hw : s.issuer with
  | none => trivial
  | some w => exact (h.issuer hw).fetchTrap

theorem Inv.fixedLatencyWrite {tid id} (h : Inv s) : OutInv (execFixedLatencyWrite tid id s) := by
  unfold execFixedLatencyWrite
  split
  · exact h
  · exact h

theorem Inv.scoreboardResultWrite {tid id} (h : Inv s) : OutInv (execScoreboardResultWrite tid id s) := h.landPend

theorem Inv.loadSectorReturn {tid id} (h : Inv s) : OutInv (execLoadSectorReturn tid id s) := by
  unfold execLoadSectorReturn
  split
  · exact h
  split
  · exact h
  refine .ite h ?_
  dsimp only
  split
  · exact h.landPend
  split
  · exact h.landPend
  · exact h.landPend.fsetAll.resume

theorem Inv.storeAcknowledge {tid id} (h : Inv s) : OutInv (execStoreAcknowledge tid id s) := h

theorem Inv.reconvergenceFusion {tid} (h : Inv s) : OutInv (execReconvergenceFusion tid s) := by
  unfold execReconvergenceFusion
  split
  · exact h
  split
  · exact h
  refine .ite h ?_
  split
  · exact h
  · exact .ite (.ite h h) h

theorem Inv.rejoinRelease {tid} (h : Inv s) : OutInv (execRejoinRelease tid s) := by
  unfold execRejoinRelease
  split
  · exact h
  split
  · exact h
  refine .ite h ?_
  dsimp only
  split
  · refine Inv.at_ (.bump (.rewriteSpills ?_))
    exact h
  · exact .ite h h

theorem Inv.splitSwapBack {tid} (h : Inv s) : OutInv (execSplitSwapBack tid s) := by
  unfold execSplitSwapBack
  split
  · exact h
  · next t _ =>
    cases t.freeEntry with
    | none => exact h
    | some k => exact h.fetchBack

theorem Inv.splitExchange {tid} (h : Inv s) : OutInv (execSplitExchange tid s) := by
  unfold execSplitExchange
  split
  · exact h
  split
  · exact h
  · exact .ite h (.ite h (.ite h (Inv.at_ h.exchange)))

theorem Inv.troupeEnd {tid} (h : Inv s) : OutInv (execTroupeEnd tid s) := by
  unfold execTroupeEnd
  split
  · exact h
  refine .ite h (.ite h ?_)
  split
  · exact h
  dsimp only
  have h2 {c bs} : Inv (State.freeBlocks { s with troupes := s.troupes.del tid } c bs) := by
    refine .freeBlocks ?_
    exact h
  split
  · exact h2.modCore.notePark.at_
  · exact h2.modCore.endEnsemble

theorem Inv.imageLoad {n img launched} (h : Inv s) : OutInv (execImageLoad n img launched s) := h

theorem Inv.ovldCopyComplete {n} (h : Inv s) : OutInv (execOvldCopyComplete n s) := by
  unfold execOvldCopyComplete
  split
  · exact h
  · next l _ =>
    cases l.slot with
    | none => exact Inv.ite h.loadOvl h
    | some k =>
      refine .ite h (?_ : Inv _)
      exact .ite h.landOvl.ovlDeliver.ovlDeliverAll (.foldl h.landOvl.ovlDeliver (fun _ _ h => h.loadOvl) _)

theorem Inv.shootdownAcknowledge {core id} (h : Inv s) : OutInv (execShootdownAcknowledge core id s) := by
  unfold execShootdownAcknowledge
  split
  · exact h
  extract_lets s0 s1 left
  have h1 : Inv s1 := .foldl (.ite h.modCore h) (fun _ _ h => h.restartOvl) _
  split
  · refine Inv.resume ?_
    exact h1
  · exact h1

theorem Inv.formatWriteAtHome {ctx core e v id} (h : Inv s) : OutInv (execFormatWriteAtHome ctx core e v id s) := h.fmtHome.notePreload

theorem Inv.formatBroadcastApply {ctx core e v id} (h : Inv s) : OutInv (execFormatBroadcastApply ctx core e v id s) :=
  h.modCore.notePreload

theorem Inv.matrixTileReady {core id} (h : Inv s) : OutInv (execMatrixTileReady core id s) := by
  unfold execMatrixTileReady
  split
  · exact h
  · exact h.modCore.modTroupe.kick.at_

theorem Inv.opldComplete {id} (h : Inv s) : OutInv (execOpldComplete id s) := by
  unfold execOpldComplete
  split
  · exact h
  split
  case h_2 => exact h.modEns.finishCopy
  all_goals exact h

theorem Inv.mmacoStart {core id} (h : Inv s) : OutInv (execMmacoStart core id s) := by
  unfold execMmacoStart
  split
  · exact h
  dsimp only
  split
  · split
    · exact h.endAct
    · exact h.endAct.startMat
  · exact h.endAct

theorem Inv.copyStart {tid} (h : Inv s) : OutInv (execCopyStart tid s) := h.runQueue

theorem Inv.sectorLanding {id j} (h : Inv s) : OutInv (execSectorLanding id j s) := by
  unfold execSectorLanding
  split
  · exact h
  refine .ite h (.ite h ?_)
  split
  · next heq => exact (h.copyPages.fst heq).copyFault
  · next heq =>
    have h1 := h.copyPages.fst heq
    refine .ite h (.ite (Inv.reportCopy ?_) h1.moveUnit.landUnit.bump.requestUnits)
    cases State.copyPeer _ _ with
    | none => exact h1
    | some x => exact h1.logPeer

theorem Inv.tbwaitWake {tid uid} (h : Inv s) : OutInv (execTbwaitWake tid uid s) := by
  unfold execTbwaitWake
  split
  · exact h
  split
  · split
    · refine .ite (Inv.startAct ?_) h.resume
      exact h
    · exact h
  · exact h

theorem Inv.sfillComplete {id} (h : Inv s) : OutInv (execSfillComplete id s) := by
  unfold execSfillComplete
  split
  · exact h
  split
  case h_2 => exact h.modEns.finishCopy
  all_goals exact h

theorem Inv.reduceContribution {id sec} (h : Inv s) : OutInv (execReduceContribution id sec s) := by
  unfold execReduceContribution
  split
  · exact h
  refine .ite h (.ite h ?_)
  split
  · next heq => exact (h.copyPages.fst heq).modCopy.copyFault
  · next heq => exact .ite h (.ite (h.copyPages.fst heq).reportCopy (h.copyPages.fst heq).contribute)

theorem Inv.reduceRetry {id sec} (h : Inv s) : OutInv (execReduceRetry id sec s) := by
  unfold execReduceRetry
  split
  · exact h
  · exact h.sectorTime.at_

theorem Inv.faultRecordWrite {d} (h : Inv s) : OutInv (execFaultRecordWrite d s) := by
  unfold execFaultRecordWrite
  dsimp only
  split
  · exact h
  · exact .ite h h.homeWrite.modDie

theorem Inv.closeGroup {d token res} (h : Inv s) : Inv (s.closeGroup d token res) := h

theorem Inv.frplyReplay {d token} (h : Inv s) : OutInv (execFrplyReplay d token s) := by
  refine .ite h (.ite h (Inv.admitFaults (.foldl ?_ (fun _ _ h => h.at_) _)))
  exact h

theorem Inv.frplyRaise {d token} (h : Inv s) : OutInv (execFrplyRaise d token s) :=
  .ite h (.ite h ((OutInv.forEach (fun _ _ h => h.raiseWaiter) _ h.closeGroup).andThen fun _ h => h.admitFaults))

theorem Inv.parkedReplay {id} (h : Inv s) : OutInv (execParkedReplay id s) := by
  unfold execParkedReplay
  split
  · exact h
  extract_lets s1
  have h1 : Inv s1 := by
    refine .admitFaults ?_
    exact h
  show Inv _
  split
  · exact h1.replayInstr
  · exact h1.replayCopy
  · split
    · exact h1
    · exact h1.loadOvl

theorem Inv.fqheadWrite {d v} (h : Inv s) : OutInv (execFqheadWrite d v s) := .ite h h.modDie.atAll

theorem Inv.acqWaitSuccess {id} (h : Inv s) : OutInv (execAcqWaitSuccess id s) := by
  unfold execAcqWaitSuccess
  split
  · exact h
  · exact h.tryAcq

theorem Inv.acqPoll {id} (h : Inv s) : OutInv (execAcqPoll id s) := by
  unfold execAcqPoll
  split
  · exact h
  · exact .ite h.bump.acqRefused (Inv.ite h.bump.tryAcq h.bump.tryAcq.at_)

theorem Inv.doorbell {q} (h : Inv s) : OutInv (execDoorbell q s) := .ite h (.ite h h)

theorem Inv.queueMap {q} (h : Inv s) : OutInv (execQueueMap q s) := by
  unfold execQueueMap
  refine .ite (Inv.ite h.qPut.modQueue.pump h.pump) (.ite h ?_)
  split
  · exact h.queueError
  dsimp only
  split
  · exact h.qPut.modQueue.pump
  cases s.idleQueue _ with
  | none => exact h
  | some r =>
    dsimp only
    split
    · exact h.qPut.modQueue.qPut.modQueue.pump
    · exact h.qPut.modQueue

theorem Inv.launchPacket {q} (h : Inv s) : OutInv (execLaunchPacket q s) := by
  unfold execLaunchPacket
  split
  · next heq => exact h.headOf.none heq
  · next heq =>
    have h1 := h.headOf.packet heq
    exact .ite h1 h1

theorem Inv.waitPacket {q} (h : Inv s) : OutInv (execWaitPacket q s) := by
  unfold execWaitPacket
  split
  · next heq => exact h.headOf.none heq
  · next b c s1 heq =>
    have h1 := h.headOf.packet heq
    cases s1.feTranslate _ _ _ with
    | none => exact h1
    | some pa => exact .ite h1.started.waitHolds.waited.pump h1.started.waitHolds.qPut.modQueue.remap.at_

theorem Inv.signalPacket {q} (h : Inv s) : OutInv (execSignalPacket q s) := by
  unfold execSignalPacket
  split
  · next heq => exact h.headOf.none heq
  · next b c s1 heq =>
    have h1 := h.headOf.packet heq
    cases s1.feTranslate _ _ _ with
    | none => exact h1
    | some pa =>
      refine (?_ : Inv _).notify.pump
      exact .ite h1.started.releaseActs.homeWrite.writeBackSector h1.started.releaseActs.homeWrite

theorem Inv.nopPacket {q} (h : Inv s) : OutInv (execNopPacket q s) := by
  unfold execNopPacket
  split
  · next heq => exact h.headOf.none heq
  · next heq => exact (h.headOf.packet heq).started.pump

theorem Inv.formatPreloadPacket {q} (h : Inv s) : OutInv (execFormatPreloadPacket q s) := by
  unfold execFormatPreloadPacket
  refine .ite (.ite h h.modQueue.pump) ?_
  split
  · next heq => exact h.headOf.none heq
  · next heq => exact (Inv.foldl (h.headOf.packet heq).started (fun _ _ h => h.at_.bump) _).modQueue

theorem Inv.waitPacketReevaluate {q} (h : Inv s) : OutInv (execWaitPacketReevaluate q s) := by
  unfold execWaitPacketReevaluate
  dsimp only
  cases (s.queue q).waiting with
  | none => exact h
  | some pa => exact .ite h (.ite h.waitHolds.waited.qPut.at_ h.waitHolds.at_)

theorem Inv.launchStart {n} (h : Inv s) : OutInv (execLaunchStart n s) := by
  unfold execLaunchStart
  split
  · exact h
  refine .ite h (.ite h.disable.remap ?_)
  split
  · exact h
  · next s1 heq =>
    have h1 : Inv s1 := by
      split at heq
      · cases heq; exact h
      · exact h.admission heq
    refine .ite h1 (Inv.pump (.at_ (.noteRequest (.modQueue (.started ?_)))))
    exact h1

theorem Inv.productionRetire {n} (h : Inv s) : OutInv (execProductionRetire n s) := by
  unfold execProductionRetire
  split
  · exact h
  refine .ite h (.ite ?_ h.releaseActs.retire)
  dsimp only
  split
  · exact h.backCycles.modProd.bump.at_
  · exact h

theorem Inv.energyIntervalStart {p} (h : Inv s) : OutInv (execEnergyIntervalStart p s) := by
  refine Inv.at_ (.retryLaunches (.foldl h.modPart (fun s x h => ?_) _))
  split
  · exact h.toBuffer
  · exact h

theorem Inv.priorityAging {q} (h : Inv s) : OutInv (execPriorityAging q s) := by
  unfold execPriorityAging
  cases (s.queue q).since with
  | none => exact h
  | some t => exact .ite h h

theorem Inv.ensemblePlacement {part} (h : Inv s) : OutInv (execEnsemblePlacement part s) := by
  unfold execEnsemblePlacement
  extract_lets s0 rs s1
  have h1 : Inv s1 := .foldl h.parkBlocked (fun _ _ h => h.noteRequest) _
  split
  · exact h1.makeRoom.pullAll.retryLaunches
  · exact (Inv.ite h1.startReqOn h1.returnReqOn).serve.startIntervals.at_

theorem Inv.greenRoomTransfer {c} (h : Inv s) : OutInv (execGreenRoomTransfer c s) := by
  unfold execGreenRoomTransfer
  split
  · exact h
  · exact .ite h (Inv.foldl h.toBuffer.writeGreen.modDie (fun _ _ h => h.pullGreen) _)

theorem Inv.cueBroadcast {c cue id} (h : Inv s) : OutInv (execCueBroadcast c cue id s) := by
  unfold execCueBroadcast
  split
  · exact h
  · exact .ite h (Inv.foldl h.modCtx (fun _ _ h => h.at_) _)

theorem Inv.cueCopyWrite {core c cue v set} (h : Inv s) : OutInv (execCueCopyWrite core c cue v set s) :=
  .ite (Inv.foldl h.modCore (fun _ _ h => h.givePoint) _) h.modCore

theorem Inv.cueTouchFire {core id} (h : Inv s) : OutInv (execCueTouchFire core id s) := by
  unfold execCueTouchFire
  split
  · exact h
  split
  · split
    · exact h.endAct
    refine .ite h.modEns.endAct ?_
    cases s.touch _ _ _ _ _ _ _ with
    | nothing => exact h.endAct
    | trap _ => exact h.modEns.endAct
    | full => exact .ite h.deferAct h.endAct.enqueue
    | start c => exact h.endAct.enqueue
  · exact h.endAct

theorem Inv.cueArrFire {core id} (h : Inv s) : OutInv (execCueArrFire core id s) := by
  unfold execCueArrFire
  split
  · exact h
  split
  · exact .ite h.deferAct h.releaseActs.barApply.endAct
  · exact h.endAct

theorem Inv.cueGuardFire {core id} (h : Inv s) : OutInv (execCueGuardFire core id s) := by
  unfold execCueGuardFire
  split
  · exact h
  split
  · exact h.modTroupe.endAct.at_
  · exact h.endAct

theorem Inv.cuewaitFire {core id} (h : Inv s) : OutInv (execCuewaitFire core id s) := by
  unfold execCuewaitFire
  split
  · exact h
  split
  · exact h.endAct.resume
  · exact h.endAct

theorem Inv.contextSwitch {core c} (h : Inv s) : OutInv (execContextSwitch core c s) := Inv.ite h.stageOn h

theorem Inv.autoSwitch {core} (h : Inv s) : OutInv (execAutoSwitch core s) := by
  refine .ite h ?_
  cases (s.core core).wings.find? _ with
  | none => exact h
  | some c => exact h.stageOn

theorem Inv.stop {es park} (h : Inv s) : OutInv (execStop es park s) := by
  unfold execStop
  extract_lets set bad
  cases bad with
  | cons x _ => exact h.cannotSave
  | nil => exact Inv.stopAll (.foldl h (fun _ _ h => h.stopContext) _)

theorem Inv.captureComplete {e} (h : Inv s) : OutInv (execCaptureComplete e s) := by
  unfold execCaptureComplete
  split
  · exact h
  split
  · refine .ite h ?_
    extract_lets s1 s2 s3 done
    have h2 : Inv s2 := .modEns (.foldl h (fun _ _ h => h.writeBlock) _)
    have h3 : Inv s3 := .ite h2.leaveCore.at_ h2
    exact Inv.ite h3.saveSet (.ite h3.at_ h3)
  · exact h
  · exact h

theorem Inv.checkpointCut {c} (h : Inv s) : OutInv (execCheckpointCut c s) := by
  unfold execCheckpointCut
  split
  · exact h
  · exact .ite h (.ite (Inv.ite h (.ite h.at_ h.cutNow)) (.ite h (.ite h (Inv.ite h.at_.stopContext h.at_))))

theorem Inv.unitStreamed {c} (h : Inv s) : OutInv (execUnitStreamed c s) := by
  unfold execUnitStreamed
  split
  · exact h
  split
  · exact h
  · exact .ite h.withCutting.modCtx.cutFails h.homeWrite.withCutting.streamNext

theorem Inv.cutCommit {c} (h : Inv s) : OutInv (execCutCommit c s) := by
  unfold execCutCommit
  split
  · exact h
  refine .ite h (.ite h (Inv.modCtx ?_))
  exact h.homeWrite.homeWrite.sameMem rfl

theorem Inv.resumption {c} (h : Inv s) : OutInv (execResumption c s) := by
  unfold execResumption
  split
  · exact h
  refine .ite h (.ite (Inv.foldl h (fun _ _ h => h.wakeEnsemble) _) (.ite h ?_))
  split
  · exact h
  · exact h.restoreCut.goOn

theorem Inv.coreFence {core} (h : Inv s) : OutInv (execCoreFence core s) := Inv.foldl h.modCore (fun _ _ h => h.recover) _

theorem Inv.savecostUpdate {c} (h : Inv s) : OutInv (execSavecostUpdate c s) := by
  unfold execSavecostUpdate
  split
  · exact h
  · exact .ite h h

theorem Inv.mapcmdCommit {v} (h : Inv s) : OutInv (execMapcmdCommit v s) := by
  refine .ite h (Inv.at_ ?_)
  exact h.discardRegion.sameMem rfl

theorem Inv.mapCheckComplete (h : Inv s) : OutInv (execMapCheckComplete s) := by
  unfold execMapCheckComplete
  split
  · exact h
  refine .ite h (Inv.sameMem (.scramble (.scramble ?_)) rfl)
  exact h

theorem Inv.eccUncorrectable {pa ctxid} (h : Inv s) : OutInv (execEccUncorrectable pa ctxid s) := by
  unfold execEccUncorrectable
  split
  · exact h
  · exact h

theorem Inv.fclrWrite {k pa} (h : Inv s) : OutInv (execFclrWrite k pa s) := Inv.ite h h.modStack

theorem Inv.refreshHeartbeat {k} (h : Inv s) : OutInv (execRefreshHeartbeat k s) := h

theorem Inv.refreshTakeover {k} (h : Inv s) : OutInv (execRefreshTakeover k s) := .ite h h

theorem Inv.baseDieReset {k} (h : Inv s) : OutInv (execBaseDieReset k s) := h.modStack.atAll

theorem Inv.scrub {k} (h : Inv s) : OutInv (execScrub k s) := .ite h h

theorem Inv.refresh {k} (h : Inv s) : OutInv (execRefresh k s) := h

theorem Inv.flitNak {e seq} (h : Inv s) : OutInv (execFlitNak e seq s) := .ite h (.ite h.modStack.retrain h)

theorem Inv.flitCrcFailure {e seq} (h : Inv s) : OutInv (execFlitCrcFailure e seq s) := by
  refine Inv.ite ?_ h
  exact h

theorem Inv.linkRetrainComplete {e ok} (h : Inv s) : OutInv (execLinkRetrainComplete e ok s) := by
  refine .ite h (.ite h (Inv.report (.foldl h.modStack (fun _ _ h => ?_) _)))
  exact .foldl h (fun _ _ h => h.answer) _

theorem Inv.lnkctlRetrain {e} (h : Inv s) : OutInv (execLnkctlRetrain e s) := Inv.ite h.retrain h

theorem Inv.helyelRead {e node key sla n} (h : Inv s) : OutInv (execHelyelRead e node key sla n s) :=
  h.serveRequest fun _ _ h => h.reply

theorem Inv.helyelWrite {e node key sla mask data} (h : Inv s) : OutInv (execHelyelWrite e node key sla mask data s) :=
  h.serveRequest fun _ _ h => h.writeStack.reply

theorem Inv.helyelFencedWrite {e node key sla mask data} (h : Inv s) : OutInv (execHelyelFencedWrite e node key sla mask data s) :=
  h.serveRequest fun _ _ h => h.writeStack.reply

theorem Inv.helyelAtomicAdd {e node key sla wide v} (h : Inv s) : OutInv (execHelyelAtomicAdd e node key sla wide v s) :=
  h.serveRequest fun _ _ h => h.stackAtomic

theorem Inv.helyelCompareAndSwap {e node key sla wide v cmp} (h : Inv s) :
    OutInv (execHelyelCompareAndSwap e node key sla wide v cmp s) := h.serveRequest fun _ _ h => h.stackAtomic

theorem Inv.helyelResponse {n lane status} (h : Inv s) : OutInv (execHelyelResponse n lane status s) := h.answer

theorem Inv.counterClear {off v} (h : Inv s) : OutInv (execCounterClear off v s) := by
  unfold execCounterClear
  split
  · exact h
  · exact .ite h h.modStack

theorem Inv.energyFold (h : Inv s) : OutInv (execEnergyFold s) := h

theorem Inv.capApplication (h : Inv s) : OutInv (execCapApplication s) :=
  Inv.at_ (.foldl h (fun _ _ h => .ite h.modPart h.modPart.report) _)

theorem Inv.thermalEvent {d} (h : Inv s) : OutInv (execThermalEvent d s) := h

theorem Inv.currentLimitEvent {d} (h : Inv s) : OutInv (execCurrentLimitEvent d s) := h

theorem Inv.setHallCap {limit rank expiry} (h : Inv s) : OutInv (execSetHallCap limit rank expiry s) := by
  refine Inv.ite ?_ (.at_ ?_)
  · exact h
  · exact h

theorem Inv.hallCapExpiry {n} (h : Inv s) : OutInv (execHallCapExpiry n s) := h

theorem Inv.eventWrite {d} (h : Inv s) : OutInv (execEventWrite d s) := by
  unfold execEventWrite
  dsimp only
  split
  · exact h
  · refine .ite h (Inv.at_ ?_)
    exact h.homeWrite.sameMem rfl

theorem Inv.evheadWrite {v} (h : Inv s) : OutInv (execEvheadWrite v s) := by
  refine Inv.ite h (.writeEvents ?_)
  exact h

theorem Inv.hostCxlMemRead {pa n} (h : Inv s) : OutInv (execHostCxlMemRead pa n s) := by
  refine .ite h (.ite h (.ite h ?_))
  exact h.noteReads.sameMem rfl

theorem Inv.hostCxlMemWrite {pa data} (h : Inv s) : OutInv (execHostCxlMemWrite pa data s) := .ite h (.ite h h.homeWrite)

theorem Inv.moduleReset (h : Inv s) : OutInv (execModuleReset s) := execModuleReset_wf h rfl

theorem Inv.registerWrite {off v} (h : Inv s) : OutInv (execRegisterWrite off v s) := by
  refine Inv.ite h (.ite h.writeModuleReg (.ite h.writeMapReg (.ite (.ite h.modPart h) ?_)))
  split
  · exact h.writeDieReg
  · exact .ite h.writeBaseReg h

theorem Inv.contextCreation {c part img regs} (h : Inv s) : OutInv (execContextCreation c part img regs s) := by
  unfold execContextCreation
  split
  · exact h
  · exact .ite h h

theorem Inv.cacheActionComplete {id} (h : Inv s) : OutInv (execCacheActionComplete id s) := by
  unfold execCacheActionComplete
  split
  · exact h
  refine .ite h (Inv.resume (.afterAct (.iteSelf (.iteSelf ?_ .releaseActs) .acquireActs)))
  exact h

theorem Inv.swapBackReadComplete {tid k} (h : Inv s) : OutInv (execSwapBackReadComplete tid k s) := by
  unfold execSwapBackReadComplete
  split
  · exact h
  split
  · exact h
  · exact h

theorem Inv.spdmMeasurementRequest (h : Inv s) : OutInv (execSpdmMeasurementRequest s) := h

theorem Inv.serviceCoreMemoryAccess {d pa n data} (h : Inv s) : OutInv (execServiceCoreMemoryAccess d pa n data s) := by
  refine .ite h (.ite h ?_)
  split
  · exact h.homeWrite
  · exact (Inv.ite h.noteReads h).sameMem rfl

end Sys2Proof
end

section
namespace Sys2Proof

open Machine

variable {s t : State} {w x : Work}

/-- An event of the module keeps the memory's form. -/
theorem Inv.runEvent {e : Ev} (h : Inv s) : OutInv (runEvent e s) :=
  match e with
  | .undefinedInstruction _ => h.undefinedInstruction
  | .fetchBeyondOverlay _ => h.fetchBeyondOverlay
  | .fetchOverlayAbsent => h.fetchOverlayAbsent
  | .fixedLatencyWrite _ _ => h.fixedLatencyWrite
  | .scoreboardResultWrite _ _ => h.scoreboardResultWrite
  | .loadSectorReturn _ _ => h.loadSectorReturn
  | .storeAcknowledge _ _ => h.storeAcknowledge
  | .reconvergenceFusion _ => h.reconvergenceFusion
  | .rejoinRelease _ => h.rejoinRelease
  | .splitSwapBack _ => h.splitSwapBack
  | .splitExchange _ => h.splitExchange
  | .troupeEnd _ => h.troupeEnd
  | .imageLoad _ _ _ => h.imageLoad
  | .ovldCopyComplete _ => h.ovldCopyComplete
  | .shootdownAcknowledge _ _ => h.shootdownAcknowledge
  | .formatWriteAtHome _ core _ _ _ => h.formatWriteAtHome (core := core)
  | .formatBroadcastApply _ _ _ _ _ => h.formatBroadcastApply
  | .matrixTileReady _ _ => h.matrixTileReady
  | .opldComplete _ => h.opldComplete
  | .mmacoStart _ _ => h.mmacoStart
  | .copyStart _ => h.copyStart
  | .sectorLanding _ _ => h.sectorLanding
  | .tbwaitWake _ _ => h.tbwaitWake
  | .sfillComplete _ => h.sfillComplete
  | .reduceContribution _ _ => h.reduceContribution
  | .reduceRetry _ _ => h.reduceRetry
  | .faultRecordWrite _ => h.faultRecordWrite
  | .frplyReplay _ _ => h.frplyReplay
  | .frplyRaise _ _ => h.frplyRaise
  | .parkedReplay _ => h.parkedReplay
  | .fqheadWrite _ _ => h.fqheadWrite
  | .acqWaitSuccess _ => h.acqWaitSuccess
  | .acqPoll _ => h.acqPoll
  | .doorbell _ => h.doorbell
  | .queueMap _ => h.queueMap
  | .launchPacket _ => h.launchPacket
  | .waitPacket _ => h.waitPacket
  | .signalPacket _ => h.signalPacket
  | .nopPacket _ => h.nopPacket
  | .formatPreloadPacket _ => h.formatPreloadPacket
  | .waitPacketReevaluate _ => h.waitPacketReevaluate
  | .launchStart _ => h.launchStart
  | .productionRetire _ => h.productionRetire
  | .energyIntervalStart _ => h.energyIntervalStart
  | .priorityAging _ => h.priorityAging
  | .ensemblePlacement _ => h.ensemblePlacement
  | .greenRoomTransfer _ => h.greenRoomTransfer
  | .cuearmAtDesk _ _ _ _ _ => h
  | .cueBroadcast _ _ _ => h.cueBroadcast
  | .cueCopyWrite _ _ _ _ _ => h.cueCopyWrite
  | .cueTouchFire _ _ => h.cueTouchFire
  | .cueArrFire _ _ => h.cueArrFire
  | .cueGuardFire _ _ => h.cueGuardFire
  | .cuewaitFire _ _ => h.cuewaitFire
  | .contextSwitch _ _ => h.contextSwitch
  | .autoSwitch _ => h.autoSwitch
  | .stop _ _ => h.stop
  | .captureComplete _ => h.captureComplete
  | .checkpointCut _ => h.checkpointCut
  | .unitStreamed _ => h.unitStreamed
  | .cutCommit _ => h.cutCommit
  | .resumption _ => h.resumption
  | .coreFence _ => h.coreFence
  | .savecostUpdate _ => h.savecostUpdate
  | .mapcmdCommit _ => h.mapcmdCommit
  | .mapCheckComplete => h.mapCheckComplete
  | .eccUncorrectable _ _ => h.eccUncorrectable
  | .fclrWrite _ _ => h.fclrWrite
  | .refreshHeartbeat _ => h.refreshHeartbeat
  | .refreshTakeover _ => h.refreshTakeover
  | .baseDieReset _ => h.baseDieReset
  | .scrub _ => h.scrub
  | .flitNak _ _ => h.flitNak
  | .linkRetrainComplete _ _ => h.linkRetrainComplete
  | .lnkctlRetrain _ => h.lnkctlRetrain
  | .helyelRead _ _ _ _ _ => h.helyelRead
  | .helyelWrite _ _ _ _ _ _ => h.helyelWrite
  | .helyelAtomicAdd _ _ _ _ _ _ => h.helyelAtomicAdd
  | .helyelCompareAndSwap _ _ _ _ _ _ _ => h.helyelCompareAndSwap
  | .helyelFencedWrite _ _ _ _ _ _ => h.helyelFencedWrite
  | .helyelResponse _ _ _ => h.helyelResponse
  | .counterClear _ _ => h.counterClear
  | .energyFold => h.energyFold
  | .capApplication => h.capApplication
  | .thermalEvent _ => h.thermalEvent
  | .currentLimitEvent _ => h.currentLimitEvent
  | .setHallCap _ _ _ => h.setHallCap
  | .hallCapExpiry _ => h.hallCapExpiry
  | .eventWrite _ => h.eventWrite
  | .evheadWrite _ => h.evheadWrite
  | .hostCxlMemRead _ _ => h.hostCxlMemRead
  | .hostCxlMemWrite _ _ => h.hostCxlMemWrite
  | .backInvalidateSnoop _ => h
  | .moduleReset => h.moduleReset
  | .registerWrite _ _ => h.registerWrite
  | .contextCreation _ _ _ _ => h.contextCreation
  | .refresh _ => h.refresh
  | .flitCrcFailure _ _ => h.flitCrcFailure
  | .cacheActionComplete _ => h.cacheActionComplete
  | .swapBackReadComplete _ _ => h.swapBackReadComplete
  | .spdmMeasurementRequest => h.spdmMeasurementRequest
  | .serviceCoreMemoryAccess d _ _ _ => h.serviceCoreMemoryAccess (d := d)

/-- The instruction's own case of the dispatch, or the event's. -/
theorem Inv.exec {i : Instr} (h : Inv s) : OutInv (exec i s) :=
  match i with
  | .nop _ => h.run (body := .done) fun _ h => h
  | .nopBase _ => h.run (body := .done) fun _ h => h
  | .bra _ => h.run fun _ h => h.opBra
  | .braBase _ => h.run fun _ h => h.opBra
  | .brc _ => h.run fun _ h => h.opBrc
  | .brx _ => h.run fun _ h => h.opBrx
  | .call _ => h.run fun _ h => h.opCall
  | .callBase _ => h.run fun _ h => h.opCall
  | .callx _ => h.run fun _ h => h.opCallx
  | .ocall _ => h.run fun _ h => h.opOcall
  | .ret _ => h.run fun _ h => h.opRet
  | .retBase _ => h.run fun _ h => h.opRet
  | .exit _ => h.run fun _ h => h.opExit
  | .exitBase _ => h.run fun _ h => h.opExit
  | .yield _ => h.run (body := .done) fun _ h => h
  | .yieldBase _ => h.run (body := .done) fun _ h => h
  | .rejoin _ => h.run fun _ h => h.opRejoin
  | .rejoinBase _ => h.run fun _ h => h.opRejoin
  | .full _ => h.run fun _ h => h.opFull
  | .fullBase _ => h.run fun _ h => h.opFull
  | .endfull _ => h.run fun _ h => h.opEndfull
  | .endfullBase _ => h.run fun _ h => h.opEndfull
  | .vote _ => h.run fun _ h => h.opVote
  | .shfl _ => h.run fun _ h => h.opShfl
  | .tred _ => h.run fun _ h => h.opTred
  | .tredf _ => h.run fun _ h => h.opTredf
  | .scan _ => h.run fun _ h => h.opScan
  | .splq _ => h.run fun _ h => h.opSplq
  | .splqBase _ => h.run fun _ h => h.opSplq
  | .mov _ => h.run fun _ h => h.lanewise
  | .movBase _ => h.run fun _ h => h.lanewise
  | .movi _ => h.run fun _ h => h.lanewise
  | .moviBase _ => h.run fun _ h => h.lanewise
  | .iadd _ => h.run fun _ h => h.elementwise
  | .iaddBase _ => h.run fun _ h => h.elementwise
  | .isub _ => h.run fun _ h => h.elementwise
  | .isubBase _ => h.run fun _ h => h.elementwise
  | .iaddc _ => h.run fun _ h => h.withCarry
  | .isubb _ => h.run fun _ h => h.withCarry
  | .imul _ => h.run fun _ h => h.elementwise
  | .imulBase _ => h.run fun _ h => h.elementwise
  | .imulh _ => h.run fun _ h => h.elementwise
  | .imulhBase _ => h.run fun _ h => h.elementwise
  | .imulw _ => h.run fun _ h => h.opImulw
  | .imulwBase _ => h.run fun _ h => h.opImulw
  | .imad _ => h.run fun _ h => h.elementwise
  | .isad _ => h.run fun _ h => h.opIsad
  | .imin _ => h.run fun _ h => h.elementwise
  | .iminBase _ => h.run fun _ h => h.elementwise
  | .imax _ => h.run fun _ h => h.elementwise
  | .imaxBase _ => h.run fun _ h => h.elementwise
  | .iabs _ => h.run fun _ h => h.elementwise
  | .iabsBase _ => h.run fun _ h => h.elementwise
  | .ineg _ => h.run fun _ h => h.elementwise
  | .inegBase _ => h.run fun _ h => h.elementwise
  | .icmp _ => h.run fun _ h => h.opIcmp
  | .sel _ => h.run fun _ h => h.lanewise
  | .and _ => h.run fun _ h => h.lanewise
  | .andBase _ => h.run fun _ h => h.lanewise
  | .or _ => h.run fun _ h => h.lanewise
  | .orBase _ => h.run fun _ h => h.lanewise
  | .xor _ => h.run fun _ h => h.lanewise
  | .xorBase _ => h.run fun _ h => h.lanewise
  | .not _ => h.run fun _ h => h.lanewise
  | .notBase _ => h.run fun _ h => h.lanewise
  | .andn _ => h.run fun _ h => h.lanewise
  | .andnBase _ => h.run fun _ h => h.lanewise
  | .bsel _ => h.run fun _ h => h.lanewise
  | .logic3 _ => h.run fun _ h => h.lanewise
  | .shl _ => h.run fun _ h => h.lanewise
  | .shlBase _ => h.run fun _ h => h.lanewise
  | .shr _ => h.run fun _ h => h.lanewise
  | .shrBase _ => h.run fun _ h => h.lanewise
  | .sar _ => h.run fun _ h => h.lanewise
  | .sarBase _ => h.run fun _ h => h.lanewise
  | .rot _ => h.run fun _ h => h.lanewise
  | .rotBase _ => h.run fun _ h => h.lanewise
  | .popc _ => h.run fun _ h => h.lanewise
  | .popcBase _ => h.run fun _ h => h.lanewise
  | .clz _ => h.run fun _ h => h.lanewise
  | .clzBase _ => h.run fun _ h => h.lanewise
  | .ctz _ => h.run fun _ h => h.lanewise
  | .ctzBase _ => h.run fun _ h => h.lanewise
  | .brev _ => h.run fun _ h => h.lanewise
  | .brevBase _ => h.run fun _ h => h.lanewise
  | .bfx _ => h.run fun _ h => h.lanewise
  | .bfi _ => h.run fun _ h => h.lanewise
  | .perm _ => h.run fun _ h => h.lanewise
  | .permBase _ => h.run fun _ h => h.lanewise
  | .sext _ => h.run fun _ h => h.lanewise
  | .zext _ => h.run fun _ h => h.lanewise
  | .lea _ => h.run fun _ h => h.opLea
  | .xset _ => h.run fun _ h => h.opXset
  | .xbnd _ => h.run fun _ h => h.opXbnd
  | .smov _ => h.run fun _ h => h.opSmov
  | .smovBase _ => h.run fun _ h => h.opSmov
  | .gmov _ => h.run fun _ h => h.opGmov
  | .vtos _ => h.run fun _ h => h.opVtos
  | .stov _ => h.run fun _ h => h.opStov
  | .stovBase _ => h.run fun _ h => h.opStov
  | .plog _ => h.run fun _ h => h.lanewise
  | .pmov _ => h.run fun _ h => h.opPmov
  | .fset _ => h.run fun _ h => h.opFset
  | .fget _ => h.run fun _ h => h.opFget
  | .fsave _ => h.run fun _ h => h.opFsave
  | .fload _ => h.run fun _ h => h.opFload
  | .cvt _ => h.run fun _ h => h.opCvt
  | .cvtsr _ => h.run fun _ h => h.opCvtsr
  | .pack _ => h.run fun _ h => h.opPack
  | .unpack _ => h.run fun _ h => h.opUnpack
  | .fadd _ => h.run fun _ h => h.floatwise
  | .faddBase _ => h.run fun _ h => h.floatwise
  | .fsub _ => h.run fun _ h => h.floatwise
  | .fsubBase _ => h.run fun _ h => h.floatwise
  | .fmul _ => h.run fun _ h => h.floatwise
  | .fmulBase _ => h.run fun _ h => h.floatwise
  | .ffma _ => h.run fun _ h => h.floatwise
  | .fmin _ => h.run fun _ h => h.floatwise
  | .fminBase _ => h.run fun _ h => h.floatwise
  | .fmax _ => h.run fun _ h => h.floatwise
  | .fmaxBase _ => h.run fun _ h => h.floatwise
  | .fabs _ => h.run fun _ h => h.floatwise
  | .fabsBase _ => h.run fun _ h => h.floatwise
  | .fclamp _ => h.run fun _ h => h.floatwise
  | .fcmp _ => h.run fun _ h => h.floatwise
  | .fclass _ => h.run fun _ h => h.floatwise
  | .frnd _ => h.run fun _ h => h.floatwise
  | .fscale _ => h.run fun _ h => h.opFscale
  | .fscaleBase _ => h.run fun _ h => h.opFscale
  | .fdot2 _ => h.run fun _ h => h.opFdot2
  | .fcpsgn _ => h.run fun _ h => h.floatwise
  | .fcpsgnBase _ => h.run fun _ h => h.floatwise
  | .fgetexp _ => h.run fun _ h => h.floatwise
  | .fgetexpBase _ => h.run fun _ h => h.floatwise
  | .fgetman _ => h.run fun _ h => h.floatwise
  | .fgetmanBase _ => h.run fun _ h => h.floatwise
  | .frcp _ => h.run fun _ h => h.special
  | .frcpBase _ => h.run fun _ h => h.special
  | .frsq _ => h.run fun _ h => h.special
  | .frsqBase _ => h.run fun _ h => h.special
  | .fsqrt _ => h.run fun _ h => h.special
  | .fsqrtBase _ => h.run fun _ h => h.special
  | .fexp2 _ => h.run fun _ h => h.special
  | .fexp2Base _ => h.run fun _ h => h.special
  | .flog2 _ => h.run fun _ h => h.special
  | .flog2Base _ => h.run fun _ h => h.special
  | .fsinpi _ => h.run fun _ h => h.special
  | .fsinpiBase _ => h.run fun _ h => h.special
  | .fcospi _ => h.run fun _ h => h.special
  | .fcospiBase _ => h.run fun _ h => h.special
  | .aclaim _ => h.run fun _ h => h.opAclaim
  | .arel _ => h.run fun _ h => h.opArel
  | .bclaim _ => h.run fun _ h => h.opBclaim
  | .brel _ => h.run fun _ h => h.opBrel
  | .opld _ => h.run fun _ h => h.opOpld
  | .mma _ => h.run fun _ h => h.opMat
  | .mmasp _ => h.run fun _ h => h.opMat
  | .mmaco _ => h.run fun _ h => h.opMat
  | .acczero _ => h.run fun _ h => h.opAcczero
  | .accrd _ => h.run fun _ h => h.opAccrd
  | .accwr _ => h.run fun _ h => h.opAccwr
  | .accfree _ => h.run fun _ h => h.opAccfree
  | .sld _ => h.run fun _ h => h.opSld
  | .sst _ => h.run fun _ h => h.opSst
  | .sgath _ => h.run fun _ h => h.opSgath
  | .sfill _ => h.run fun _ h => h.opSfill
  | .wbind _ => h.run fun _ h => h.opWbind
  | .wset _ => h.run fun _ h => h.opWset
  | .touch _ => h.run fun _ h => h.opTouch
  | .wrel _ => h.run fun _ h => h.opWrel
  | .wstat _ => h.run fun _ h => h.opWstat
  | .bcommit _ => h.run fun _ h => h.opBcommit
  | .bwait _ => h.run fun _ h => h.opBwait
  | .tbinit _ => h.run fun _ h => h.opTbinit
  | .tbarr _ => h.run fun _ h => h.opTbarr
  | .tbexp _ => h.run fun _ h => h.opTbexp
  | .tbwait _ => h.run fun _ h => h.opTbwait
  | .ld _ => h.run fun _ h => h.load
  | .st _ => h.run fun _ h => h.store
  | .ldg _ => h.run fun _ h => h.load
  | .stg _ => h.run fun _ h => h.store
  | .ldc _ => h.run fun _ h => h.load
  | .atom _ => h.run fun _ h => h.atomic
  | .ared _ => h.run fun _ h => h.atomic
  | .atomx _ => h.run fun _ h => h.atomic
  | .pref _ => h.run fun _ h => h.opPref
  | .inval _ => h.run fun _ h => h.opInval
  | .sbind _ => h.run fun _ h => h.opSbind
  | .sunbind _ => h.run fun _ h => h.opSunbind
  | .acq _ => h.run fun _ h => h.opAcq
  | .rel _ => h.run fun _ h => h.relBody
  | .fence _ => h.run fun _ h => h.opFence
  | .spawn _ => h.run fun _ h => h.opSpawn
  | .join _ => h.run fun _ h => h.joinBody
  | .trig _ => h.run fun _ h => h.opTrig
  | .park _ => h.run fun _ h => h.joinBody
  | .qsig _ => h.run fun _ h => h.relBody
  | .ovld _ => h.run fun _ h => h.opOvld
  | .cuearm _ => h.run fun _ h => h.opCuearm
  | .cue _ => h.run fun _ h => h.opCue
  | .cuewait _ => h.run fun _ h => h.opCuewait
  | .gdset _ => h.run fun _ h => h.opGdset
  | .gdclr _ => h.run fun _ h => h.opGdclr
  | .trap _ => h.run fun _ h => h.opTrap
  | .sysc _ => h.run fun _ h => h.opSysc
  | .tret _ => h.run fun _ h => h.opTret
  | .tretBase _ => h.run fun _ h => h.opTret
  | .rdsr _ => h.run fun _ h => h.opRdsr
  | .wrsr _ => h.run fun _ h => h.opWrsr
  | .bkpt _ => h.run fun _ h => h.opBkpt
  | .bkptBase _ => h.run fun _ h => h.opBkpt
  | .halt _ => h.run fun _ h => h.opHalt
  | .haltBase _ => h.run fun _ h => h.opHalt
  | .rdcyc _ => h.run fun _ h => h.opRdcyc
  | .rdcycBase _ => h.run fun _ h => h.opRdcyc
  | .rdnrg _ => h.run fun _ h => h.opRdnrg
  | .rdnrgBase _ => h.run fun _ h => h.opRdnrg
  | .rdid _ => h.run fun _ h => h.opRdid
  | .tlbinv _ => h.run fun _ h => h.opTlbinv
  | .undefinedInstruction _ => h.undefinedInstruction
  | .fetchBeyondOverlay _ => h.fetchBeyondOverlay
  | .fetchOverlayAbsent => h.fetchOverlayAbsent
  | .fixedLatencyWrite _ _ => h.fixedLatencyWrite
  | .scoreboardResultWrite _ _ => h.scoreboardResultWrite
  | .loadSectorReturn _ _ => h.loadSectorReturn
  | .storeAcknowledge _ _ => h.storeAcknowledge
  | .reconvergenceFusion _ => h.reconvergenceFusion
  | .rejoinRelease _ => h.rejoinRelease
  | .splitSwapBack _ => h.splitSwapBack
  | .splitExchange _ => h.splitExchange
  | .troupeEnd _ => h.troupeEnd
  | .imageLoad _ _ _ => h.imageLoad
  | .ovldCopyComplete _ => h.ovldCopyComplete
  | .shootdownAcknowledge _ _ => h.shootdownAcknowledge
  | .formatWriteAtHome _ core _ _ _ => h.formatWriteAtHome (core := core)
  | .formatBroadcastApply _ _ _ _ _ => h.formatBroadcastApply
  | .matrixTileReady _ _ => h.matrixTileReady
  | .opldComplete _ => h.opldComplete
  | .mmacoStart _ _ => h.mmacoStart
  | .copyStart _ => h.copyStart
  | .sectorLanding _ _ => h.sectorLanding
  | .tbwaitWake _ _ => h.tbwaitWake
  | .sfillComplete _ => h.sfillComplete
  | .reduceContribution _ _ => h.reduceContribution
  | .reduceRetry _ _ => h.reduceRetry
  | .faultRecordWrite _ => h.faultRecordWrite
  | .frplyReplay _ _ => h.frplyReplay
  | .frplyRaise _ _ => h.frplyRaise
  | .parkedReplay _ => h.parkedReplay
  | .fqheadWrite _ _ => h.fqheadWrite
  | .acqWaitSuccess _ => h.acqWaitSuccess
  | .acqPoll _ => h.acqPoll
  | .doorbell _ => h.doorbell
  | .queueMap _ => h.queueMap
  | .launchPacket _ => h.launchPacket
  | .waitPacket _ => h.waitPacket
  | .signalPacket _ => h.signalPacket
  | .nopPacket _ => h.nopPacket
  | .formatPreloadPacket _ => h.formatPreloadPacket
  | .waitPacketReevaluate _ => h.waitPacketReevaluate
  | .launchStart _ => h.launchStart
  | .productionRetire _ => h.productionRetire
  | .energyIntervalStart _ => h.energyIntervalStart
  | .priorityAging _ => h.priorityAging
  | .ensemblePlacement _ => h.ensemblePlacement
  | .greenRoomTransfer _ => h.greenRoomTransfer
  | .cuearmAtDesk _ _ _ _ _ => h
  | .cueBroadcast _ _ _ => h.cueBroadcast
  | .cueCopyWrite _ _ _ _ _ => h.cueCopyWrite
  | .cueTouchFire _ _ => h.cueTouchFire
  | .cueArrFire _ _ => h.cueArrFire
  | .cueGuardFire _ _ => h.cueGuardFire
  | .cuewaitFire _ _ => h.cuewaitFire
  | .contextSwitch _ _ => h.contextSwitch
  | .autoSwitch _ => h.autoSwitch
  | .stop _ _ => h.stop
  | .captureComplete _ => h.captureComplete
  | .checkpointCut _ => h.checkpointCut
  | .unitStreamed _ => h.unitStreamed
  | .cutCommit _ => h.cutCommit
  | .resumption _ => h.resumption
  | .coreFence _ => h.coreFence
  | .savecostUpdate _ => h.savecostUpdate
  | .mapcmdCommit _ => h.mapcmdCommit
  | .mapCheckComplete => h.mapCheckComplete
  | .eccUncorrectable _ _ => h.eccUncorrectable
  | .fclrWrite _ _ => h.fclrWrite
  | .refreshHeartbeat _ => h.refreshHeartbeat
  | .refreshTakeover _ => h.refreshTakeover
  | .baseDieReset _ => h.baseDieReset
  | .scrub _ => h.scrub
  | .flitNak _ _ => h.flitNak
  | .linkRetrainComplete _ _ => h.linkRetrainComplete
  | .lnkctlRetrain _ => h.lnkctlRetrain
  | .helyelRead _ _ _ _ _ => h.helyelRead
  | .helyelWrite _ _ _ _ _ _ => h.helyelWrite
  | .helyelAtomicAdd _ _ _ _ _ _ => h.helyelAtomicAdd
  | .helyelCompareAndSwap _ _ _ _ _ _ _ => h.helyelCompareAndSwap
  | .helyelFencedWrite _ _ _ _ _ _ => h.helyelFencedWrite
  | .helyelResponse _ _ _ => h.helyelResponse
  | .counterClear _ _ => h.counterClear
  | .energyFold => h.energyFold
  | .capApplication => h.capApplication
  | .thermalEvent _ => h.thermalEvent
  | .currentLimitEvent _ => h.currentLimitEvent
  | .setHallCap _ _ _ => h.setHallCap
  | .hallCapExpiry _ => h.hallCapExpiry
  | .eventWrite _ => h.eventWrite
  | .evheadWrite _ => h.evheadWrite
  | .hostCxlMemRead _ _ => h.hostCxlMemRead
  | .hostCxlMemWrite _ _ => h.hostCxlMemWrite
  | .backInvalidateSnoop _ => h
  | .moduleReset => h.moduleReset
  | .registerWrite _ _ => h.registerWrite
  | .contextCreation _ _ _ _ => h.contextCreation
  | .refresh _ => h.refresh
  | .flitCrcFailure _ _ => h.flitCrcFailure
  | .cacheActionComplete _ => h.cacheActionComplete
  | .swapBackReadComplete _ _ => h.swapBackReadComplete
  | .spdmMeasurementRequest => h.spdmMeasurementRequest
  | .serviceCoreMemoryAccess d _ _ _ => h.serviceCoreMemoryAccess (d := d)

end Sys2Proof
end

section
namespace Sys2Proof

open Machine

variable {s t : State} {w x : Work}

/-! ### The step: what is fetched, a pair of splits, an event -/

theorem Inv.noteFetch (h : Inv s) : Inv (s.noteFetch w) := by
  unfold State.noteFetch
  cases (s.core w.E.core).slotOf w.E.ctx (ovlOf w.S.pc) with
  | none => exact h
  | some k => exact h.modCore

theorem Inv.markDirty {pages} (h : Inv t) : Inv (s.markDirty t pages) := .foldl h (fun _ _ h => .ite h.modCtx h) _

theorem Inv.runFetched {f} (h : Inv s) (hw : Inv w.s) : OutInv (runFetched Machine.exec w f s) :=
  match f with
  | .instr _ => h.exec
  | .reserved => hw.fetchTrap

theorem Inv.orHold {o : Out} (hw : Inv w.s) (ho : OutInv o) : OutInv (orHold w o s) :=
  match o, ho with
  | .next _, h => .ite (a := .next _) hw.hold.modDie h.markDirty
  | .fault _, _ => trivial
  | .refused _, _ => trivial

theorem Inv.issue (h : Inv s) : OutInv (s.issue Machine.exec) := by
  unfold State.issue
  cases hw : s.issuer with
  | none => trivial
  | some w =>
    have hws := h.issuer hw
    dsimp only
    split
    · exact hws.hear
    · exact hws.orHold (h.noteFetch.runFetched hws)

theorem Inv.thenPair {now tid ent} (h : Inv s) : Inv (s.thenPair now tid ent) := h

theorem Inv.pairMemory {tid ent other} (h : Inv t) : Inv (s.pairMemory t tid ent other) := by
  unfold State.pairMemory
  split
  · exact .ite h h
  · exact h

/-- The other split of a pair issues from the same memory, and leaves a memory in form as the first does. -/
theorem Inv.issuePair {ent other} (h : Inv s) : OutInv (s.issuePair Machine.exec ent other) := by
  unfold State.issuePair
  cases s.cur with
  | none => trivial
  | some c =>
    have h1 := h.issue
    revert h1
    cases s.issue Machine.exec with
    | fault f => exact id
    | refused r => exact id
    | next s1 =>
      intro h1
      have h2 := Inv.issue (s := { s with cur := some (c.1, other) }) h
      refine OutInv.ite ?_ h1.pairMemory
      revert h2
      cases State.issue Machine.exec { s with cur := some (c.1, other) } with
      | fault f => exact id
      | refused r => exact id
      | next s2 => exact fun h2 => OutInv.ite h1 h2.thenPair

theorem Inv.runHeld {ev} (h : Inv s) : OutInv (runHeld Machine.runEvent ev s) := by
  have h1 := h.runEvent (e := ev)
  unfold Machine.runHeld
  revert h1
  cases Machine.runEvent ev s with
  | fault f => exact id
  | refused r => exact id
  | next s1 =>
    intro h1
    refine OutInv.ite h.at_.modDie ?_
    exact Inv.ite h1 (Inv.markDirty h1)

/-- What the machine does next starts from a memory in form. -/
def NextInv : Next → Prop
  | .event _ s => Inv s
  | .issue _ _ s => Inv s
  | .idle s => Inv s

theorem Inv.choose {c} (h : Inv s) : NextInv (s.choose c) := by
  unfold State.choose
  cases s.troupes.find? c.tid with
  | none => exact h
  | some t =>
    dsimp only
    cases bestSplit _ (s.unheld c.tid (t.offers c.due)) with
    | none => exact h
    | some a =>
      dsimp only
      cases s.joiner c.tid a _ <;> exact h

theorem Inv.following (h : Inv s) : NextInv s.following := by
  unfold State.following
  cases s.pairing with
  | some p => exact h
  | none =>
    dsimp only
    cases firstCand _ <;> cases s.agenda
    case some.cons =>
      dsimp only
      split
      · exact h
      · exact h.choose
    case some.nil => exact h.choose
    all_goals exact h

theorem Inv.step (h : Inv s) : OutInv (step s) := by
  have hf := h.following
  unfold Machine.step
  revert hf
  cases s.following with
  | event ev s1 => exact fun h => h.runHeld
  | issue ent other s1 =>
    cases other with
    | none => exact fun h => h.issue
    | some other => exact fun h => h.issuePair
  | idle s1 => exact id

/-- Settles O60: what happens next starts from the same memory, and every instruction and every event keeps the form. -/
theorem stepKeepsMemory : Obligations.StepKeepsMemory := by
  intro s t h e
  have ht := h.step
  rw [e] at ht
  exact ht

end Sys2Proof
end

section
/-! The module's registers and the accesses from outside (R329, R431, R440, R442, R444 to R446, R461). -/

namespace Sys2Proof

open Machine

variable {s t : State}

/-! ### Fields of a word -/

theorem bvField_eq {n : Nat} (x : BitVec n) (hi lo : Nat) : bvField x hi lo = x.toNat / 2 ^ lo % 2 ^ (hi + 1 - lo) := by
  rw [bvField, field, Nat.shiftRight_eq_div_pow]

theorem bvField_lt {n : Nat} (x : BitVec n) (hi lo : Nat) : bvField x hi lo < 2 ^ (hi + 1 - lo) := by
  rw [bvField_eq]
  exact Nat.mod_lt _ (by positivity)

/-- A field that is kept in its place (R440): the register holds it and nothing else. -/
theorem toNat_keepBits (v : DWord) {hi lo : Nat} (h : hi < 64) (hl : lo ≤ hi) : (keepBits v hi lo).toNat = bvField v hi lo * 2 ^ lo := by
  have hlt : bvField v hi lo * 2 ^ lo < 2 ^ (hi + 1 - lo) * 2 ^ lo := by
    have := bvField_lt v hi lo
    gcongr
  rw [← pow_add, Nat.sub_add_cancel (by omega)] at hlt
  rw [keepBits, BitVec.toNat_ofNat]
  exact Nat.mod_eq_of_lt (hlt.trans_le (Nat.pow_le_pow_right (by decide) (by omega)))

/-- A base address with a size beside it, as FQCFG holds them (R329, R440). -/
theorem toNat_base_or_size (v : DWord) {n : Nat} (h : n < 32) :
    (keepBits v 51 12 ||| BitVec.ofNat 64 n).toNat = bvField v 51 12 * 4096 + n := by
  have hn : n < 2 ^ 12 := by omega
  rw [BitVec.toNat_or, toNat_keepBits v (by decide) (by decide), BitVec.toNat_ofNat, Nat.mod_eq_of_lt (by omega), Nat.mul_comm _ (2 ^ 12),
    ← Nat.two_pow_add_eq_or_of_lt hn, Nat.mul_comm]

/-- FQCFG as a write of it leaves it (R329). -/
def fqcfgWritten (v : DWord) : DWord :=
  keepBits v 51 12 ||| BitVec.ofNat 64 (if 6 ≤ bvField v 4 0 ∧ bvField v 4 0 ≤ 16 then bvField v 4 0 else 6)

theorem bvField_fqcfgWritten (v : DWord) : bvField (fqcfgWritten v) 51 12 = bvField v 51 12
    ∧ bvField (fqcfgWritten v) 4 0 = (if 6 ≤ bvField v 4 0 ∧ bvField v 4 0 ≤ 16 then bvField v 4 0 else 6) := by
  have hb := bvField_lt v 51 12
  have hn : (if 6 ≤ bvField v 4 0 ∧ bvField v 4 0 ≤ 16 then bvField v 4 0 else 6) < 32 := by split <;> omega
  simp only [bvField_eq (fqcfgWritten v)]
  rw [fqcfgWritten, toNat_base_or_size v hn]
  omega

/-- What a clear leaves of a counter's field: it stays where the written bits are 0, and else it is 0 (R431). -/
def keptField (x v : DWord) (hi lo : Nat) : Nat := if bvField v hi lo = 0 then bvField x hi lo else 0

theorem keptField_lt (x v : DWord) (hi lo : Nat) : keptField x v hi lo < 2 ^ (hi + 1 - lo) := by
  unfold keptField
  split
  · exact bvField_lt x hi lo
  · positivity

theorem toNat_clearFields (x v : DWord) :
    (clearFields x v).toNat = keptField x v 63 32 * 2 ^ 32 + keptField x v 31 16 * 2 ^ 16 + keptField x v 15 0 := by
  have hk (hi lo : Nat) : (if bvField v hi lo = 0 then bvField x hi lo * 2 ^ lo else 0) = keptField x v hi lo * 2 ^ lo := by
    unfold keptField
    split <;> simp
  have a := keptField_lt x v 63 32
  have b := keptField_lt x v 31 16
  have c := keptField_lt x v 15 0
  simp only [clearFields, hk, BitVec.toNat_ofNat]
  omega

theorem bvField_clearFields (x v : DWord) : ∀ hi lo, (hi, lo) ∈ [(63, 32), (31, 16), (15, 0)] →
    bvField (clearFields x v) hi lo = if bvField v hi lo = 0 then bvField x hi lo else 0 := by
  intro hi lo h
  have a := keptField_lt x v 63 32
  have b := keptField_lt x v 31 16
  have c := keptField_lt x v 15 0
  rw [bvField_eq (clearFields x v), toNat_clearFields]
  change _ = keptField x v hi lo
  simp only [List.mem_cons, Prod.mk.injEq, List.not_mem_nil, or_false] at h
  rcases h with ⟨rfl, rfl⟩ | ⟨rfl, rfl⟩ | ⟨rfl, rfl⟩ <;> omega

/-! ### Tables by their keys -/

theorem die_modDie (d k : Nat) (f : Die → Die) : (s.modDie d f).die k = if k = d then f (s.die d) else s.die k := by
  unfold State.die
  rw [State.modDie_dies, Tab.find?_put]
  split <;> rfl

theorem stack_modStack (d k : Nat) (f : Stack → Stack) : (s.modStack d f).stack k = if k = d then f (s.stack d) else s.stack k := by
  unfold State.stack
  rw [State.modStack_stackTab, Tab.find?_put]
  split <;> rfl

theorem part_modPart (p k : Nat) (f : Part → Part) : (s.modPart p f).part k = if k = p then f (s.part p) else s.part k := by
  change ((s.parts.put p (f (s.part p))).find? k).getD _ = _
  rw [Tab.find?_put]
  split <;> rfl

theorem die_atAll (due : Nat) (l : List Ev) (d : Nat) : (s.atAll due l).die d = s.die d := by
  unfold State.die
  rw [State.atAll_dies]

/-! ### Where a register's write goes (R440) -/

variable {off : Nat} {v : DWord}

theorem dead_eq_false (h : s.bootstat ≠ 2) : s.dead = false := by simp [State.dead, h]

theorem exec_registerWrite : exec (.registerWrite off v) s = execRegisterWrite off v s := rfl

theorem exec_registerWrite_dead (h : s.bootstat = 2) : exec (.registerWrite off v) s = .next s := by
  rw [exec_registerWrite, execRegisterWrite, if_pos (by simp [State.dead, h])]

theorem exec_registerWrite_module (hs : s.bootstat ≠ 2) (h : off < 0x10000) :
    exec (.registerWrite off v) s = .next (s.writeModuleReg off v) := by
  rw [exec_registerWrite, execRegisterWrite, dead_eq_false hs, if_neg Bool.false_ne_true, if_pos h]

theorem exec_registerWrite_map {o : Nat} (hs : s.bootstat ≠ 2) (e : off = 0x10000 + o) (h : o < 0x10000) :
    exec (.registerWrite off v) s = .next (s.writeMapReg o v) := by
  subst e
  have h1 : ¬ 0x10000 + o < 0x10000 := by omega
  have h2 : 0x10000 + o < 0x20000 := by omega
  rw [exec_registerWrite, execRegisterWrite, dead_eq_false hs, if_neg Bool.false_ne_true, if_neg h1, if_pos h2, Nat.add_sub_cancel_left]

theorem exec_registerWrite_budget {p : Nat} (hs : s.bootstat ≠ 2) (h : p < 12) (hp : (s.parts.find? p).isSome = true) :
    exec (.registerWrite (0x20008 + 0x100 * p) v) s = .next (s.modPart p fun x => { x with budget := v }) := by
  have h1 : ¬ 0x20008 + 0x100 * p < 0x10000 := by omega
  have h2 : ¬ 0x20008 + 0x100 * p < 0x20000 := by omega
  have h3 : 0x20008 + 0x100 * p < 0x20000 + 0x100 * 12 := by omega
  have h4 : (0x20008 + 0x100 * p - 0x20000) / 0x100 = p := by omega
  have h5 : (0x20008 + 0x100 * p) % 0x100 = 8 := by omega
  rw [exec_registerWrite, execRegisterWrite, dead_eq_false hs, if_neg Bool.false_ne_true, if_neg h1, if_neg h2, if_pos h3, h4]
  dsimp only
  rw [if_pos ⟨h5, hp⟩]

theorem dieBlock_of_lt {d o : Nat} (hd : d < 12) (ho : o < 0x100000) : dieBlock (0x1000000 + 0x100000 * d + o) = some (d, o) := by
  have h1 : 0x1000000 ≤ 0x1000000 + 0x100000 * d + o ∧ 0x1000000 + 0x100000 * d + o < 0x1000000 + 12 * 0x100000 := by omega
  have h2 : (0x1000000 + 0x100000 * d + o - 0x1000000) / 0x100000 = d := by omega
  have h3 : (0x1000000 + 0x100000 * d + o) % 0x100000 = o := by omega
  rw [dieBlock, if_pos h1, h2, h3]

theorem exec_registerWrite_die {d o : Nat} (hs : s.bootstat ≠ 2) (hd : d < 12) (e : off = 0x1000000 + 0x100000 * d + o) (ho : o < 0x100000) :
    exec (.registerWrite off v) s = .next (s.writeDieReg d o v) := by
  subst e
  have h1 : ¬ 0x1000000 + 0x100000 * d + o < 0x10000 := by omega
  have h2 : ¬ 0x1000000 + 0x100000 * d + o < 0x20000 := by omega
  have h3 : ¬ 0x1000000 + 0x100000 * d + o < 0x20000 + 0x100 * 12 := by omega
  rw [exec_registerWrite, execRegisterWrite, dead_eq_false hs, if_neg Bool.false_ne_true, if_neg h1, if_neg h2, if_neg h3, dieBlock_of_lt hd ho]

theorem exec_registerWrite_base {o : Nat} (hs : s.bootstat ≠ 2) (h : o < 2 ^ 33) :
    exec (.registerWrite (2 ^ 32 + o) v) s = .next (s.writeBaseReg (2 ^ 32 + o) v) := by
  have h1 : ¬ 2 ^ 32 + o < 0x10000 := by omega
  have h2 : ¬ 2 ^ 32 + o < 0x20000 := by omega
  have h3 : ¬ 2 ^ 32 + o < 0x20000 + 0x100 * 12 := by omega
  have h4 : dieBlock (2 ^ 32 + o) = none := by rw [dieBlock, if_neg (by omega)]
  have h5 : 2 ^ 32 ≤ 2 ^ 32 + o ∧ 2 ^ 32 + o < 2 ^ 33 + 2 ^ 32 := by omega
  rw [exec_registerWrite, execRegisterWrite, dead_eq_false hs, if_neg Bool.false_ne_true, if_neg h1, if_neg h2, if_neg h3, h4]
  dsimp only
  rw [if_pos h5]

/-! ### What a register's write leaves (R329, R440, R442) -/

/-- Memory, the contexts and the troupes are as they were: what no register of the module reaches. -/
def KeepsWork (s t : State) : Prop := t.mem = s.mem ∧ t.contexts = s.contexts ∧ t.troupes = s.troupes

theorem KeepsWork.refl (s : State) : KeepsWork s s := ⟨rfl, rfl, rfl⟩

theorem KeepsWork.ite {c : Prop} [Decidable c] {t u : State} (ht : KeepsWork s t) (hu : KeepsWork s u) : KeepsWork s (if c then t else u) := by
  split
  · exact ht
  · exact hu

theorem writeEvents_only (s : State) : OnlyAgenda s s.writeEvents := foldl_at_only _ _ _ _

theorem writeModuleReg_keeps (s : State) (off : Nat) (v : DWord) : KeepsWork s (s.writeModuleReg off v) := by
  unfold State.writeModuleReg
  split
  · exact ⟨rfl, rfl, rfl⟩
  · rw [writeEvents_only]
    exact ⟨rfl, rfl, rfl⟩
  · exact .ite (.refl s) ⟨rfl, rfl, rfl⟩
  · exact ⟨rfl, rfl, rfl⟩
  · exact .refl s

theorem writeDieReg_keeps (s : State) (d o : Nat) (v : DWord) : KeepsWork s (s.writeDieReg d o v) := by
  unfold State.writeDieReg
  refine .ite ?_ (.ite (.refl s) (.ite (.refl s) (.ite (.refl s) (.refl s))))
  dsimp only
  rw [State.atAll_eq]
  exact .refl s

theorem writeBaseReg_keeps (s : State) (off : Nat) (v : DWord) : KeepsWork s (s.writeBaseReg off v) :=
  .ite (.refl s) (.ite (.ite (.refl s) (.refl s)) (.ite (.refl s) (.refl s)))

theorem registerWrite_keeps (s : State) (off : Nat) (v : DWord) : ∃ t, exec (.registerWrite off v) s = .next t ∧ KeepsWork s t := by
  refine ⟨_, rfl, .ite (.refl s) (.ite (writeModuleReg_keeps s off v) (.ite (.ite (.refl s) (.ite (.refl s) (.refl s)))
    (.ite (.ite (.refl s) (.refl s)) ?_)))⟩
  cases dieBlock off with
  | none => exact .ite (writeBaseReg_keeps s off v) (.refl s)
  | some x => exact writeDieReg_keeps s x.1 x.2 v

theorem next_inj {o : Out} {t u : State} (ht : o = .next t) (hu : o = .next u) : t = u := Host.Outcome.next.inj (ht.symm.trans hu)

section
variable {d n : Nat} (hs : s.bootstat ≠ 2) (ht : exec (.registerWrite off v) s = .next t)
include hs ht

theorem registerWrite_qtbase (e : off = 0x10) : t = { s with qtbase := v } := by
  subst e
  exact next_inj ht (exec_registerWrite_module hs (by decide))

theorem registerWrite_evcfg (e : off = 0x38) :
    t = { s with evcfg := BitVec.ofNat 32 (if 6 ≤ bvField v 4 0 ∧ bvField v 4 0 ≤ 16 then bvField v 4 0 else 8) } := by
  subst e
  exact next_inj ht (exec_registerWrite_module hs (by decide))

theorem registerWrite_evbase (e : off = 0x18) :
    t = { s with evbase := t.evbase, agenda := t.agenda } ∧ t.evbase = keepBits v 51 12 := by
  subst e
  obtain rfl : t = State.writeEvents { s with evbase := keepBits v 51 12 } := next_inj ht (exec_registerWrite_module hs (by decide))
  constructor <;> rw [writeEvents_only]

theorem registerWrite_mapNext (e : off = 0x10280) : t = { s with mapNext := v } :=
  next_inj ht (exec_registerWrite_map (o := 0x280) hs e (by decide))

theorem registerWrite_mapRow (hn : n < 44) (e : off = 0x10100 + 8 * n) : t = { s with mapRows := s.mapRows.set n (keepBits v 43 0) } := by
  have h1 : ¬ 0x100 + 8 * n = 0x280 := by omega
  have h2 : 0x100 ≤ 0x100 + 8 * n ∧ 0x100 + 8 * n < 0x100 + 8 * 44 ∧ (0x100 + 8 * n) % 8 = 0 := by omega
  have h3 : (0x100 + 8 * n - 0x100) / 8 = n := by omega
  have e := next_inj ht (exec_registerWrite_map (o := 0x100 + 8 * n) hs (by omega) (by omega))
  rwa [State.writeMapReg, if_neg h1, if_pos h2, h3] at e

theorem registerWrite_fqcfg (hd : d < 12) (e : off = 0x1000000 + 0x100000 * d) :
    t = { s with dies := t.dies, agenda := t.agenda } ∧ (t.die d).fqcfg = fqcfgWritten v
      ∧ ((s.die d).records ≠ [] → ⟨s.now, .faultRecordWrite d⟩ ∈ t.agenda) := by
  obtain rfl : t = (s.modDie d fun x => { x with fqcfg := fqcfgWritten v }).atAll s.now
      (List.replicate (s.die d).records.length (.faultRecordWrite d)) :=
    next_inj ht (exec_registerWrite_die (o := 0) hs hd (by omega) (by decide))
  refine ⟨by rw [State.atAll_eq]; rfl, by rw [die_atAll, die_modDie, if_pos rfl], fun hr => ?_⟩
  exact (mem_foldl_at _ _ _).2 (.inr ⟨_, List.mem_replicate.2 ⟨by simpa using hr, rfl⟩, rfl⟩)

theorem registerWrite_frstat (hd : d < 12) (e : off = 0x1000000 + 0x100000 * d + 0x18) (hv : 2 ≤ bvField v 33 32) :
    t = { s with dies := t.dies } ∧ t.die d = { s.die d with frstat := 2 } := by
  have e := next_inj ht (exec_registerWrite_die hs hd e (by decide))
  rw [State.writeDieReg, if_neg (by decide), if_pos ⟨rfl, hv⟩] at e
  subst e
  exact ⟨rfl, (die_modDie d d _).trans (if_pos rfl)⟩

theorem registerWrite_hnode {m : Nat} (hd : d < 12) (hm : m < 2) (e : off = 0x1000000 + 0x100000 * d + 0x3110 + 0x200 * m) :
    t = { s with stackTab := t.stackTab }
      ∧ t.stack (2 * d + m) = { s.stack (2 * d + m) with hnode := BitVec.ofNat 32 (bvField v 8 0) } := by
  have e := next_inj ht (exec_registerWrite_die (o := 0x3110 + 0x200 * m) hs hd (by omega) (by omega))
  obtain rfl : t = s.modStack (2 * d + m) fun k => { k with hnode := BitVec.ofNat 32 (bvField v 8 0) } := by
    rw [e]
    obtain rfl | rfl : m = 0 ∨ m = 1 := by omega
    · rfl
    · rfl
  exact ⟨rfl, (stack_modStack _ _ _).trans (if_pos rfl)⟩

theorem registerWrite_budget {p : Nat} (hp : p < 12) (e : off = 0x20008 + 0x100 * p) (h : (s.parts.find? p).isSome = true) :
    t = { s with parts := t.parts } ∧ ∀ k, t.part k = if k = p then { s.part p with budget := v } else s.part k := by
  subst e
  obtain rfl := next_inj ht (exec_registerWrite_budget hs hp h)
  exact ⟨rfl, fun k => part_modPart p k _⟩

end

theorem registerWrite_dead (h : s.bootstat = 2) (ht : exec (.registerWrite off v) s = .next t) : t = s :=
  next_inj ht (exec_registerWrite_dead h)

/-! ### The access-control table (R429; log entry 27) -/

/-- Half of an entry of the access-control table is written. -/
def aclWritten (x : BitVec 128) (h : Nat) (v : DWord) : BitVec 128 :=
  BitVec.ofNat 128 (if 8 * h < 8 then x.toNat / 2 ^ 64 * 2 ^ 64 + bvField v 31 0 else x.toNat % 2 ^ 64 + bvField v 63 2 * 2 ^ 66)

theorem exec_registerWrite_acl {k n h : Nat} (hs : s.bootstat ≠ 2) (hk : k < 24) (hn : n < 64) (hh : h < 2) :
    exec (.registerWrite (2 ^ 32 + 65536 * k + 16 * n + 8 * h) v) s
      = .next (s.modStack k fun x => { x with acl := x.acl.set n (aclWritten (x.acl.get n) h v) }) := by
  have e : 2 ^ 32 + 65536 * k + 16 * n + 8 * h = 2 ^ 32 + (65536 * k + 16 * n + 8 * h) := by omega
  have h1 : (2 ^ 32 + (65536 * k + 16 * n + 8 * h)) % 2 ^ 32 / 65536 = k := by omega
  have h2 : (2 ^ 32 + (65536 * k + 16 * n + 8 * h)) % 65536 = 16 * n + 8 * h := by omega
  have h3 : (16 * n + 8 * h) / 16 = n := by omega
  have h4 : (16 * n + 8 * h) % 16 = 8 * h := by omega
  rw [e, exec_registerWrite_base hs (by omega), State.writeBaseReg, h1, h2]
  dsimp only
  rw [if_neg (by omega), if_pos (by omega), if_neg (by omega), h3, h4]
  rfl

/-- The bits of an entry that no register holds stay 0, and the other half stays. -/
theorem bvField_aclWritten (x : BitVec 128) {h : Nat} (hh : h < 2) (v : DWord) (hx : bvField x 65 32 = 0) :
    bvField (aclWritten x h v) 65 32 = 0 ∧ bvField (aclWritten x h v) 31 0 = (if h = 0 then bvField v 31 0 else bvField x 31 0)
      ∧ bvField (aclWritten x h v) 127 66 = (if h = 0 then bvField x 127 66 else bvField v 63 2) := by
  have a := bvField_lt v 31 0
  have b := bvField_lt v 63 2
  have c := x.isLt
  rw [bvField_eq] at hx
  simp only [bvField_eq (aclWritten x h v), bvField_eq x]
  rw [aclWritten, BitVec.toNat_ofNat]
  generalize x.toNat = X at *
  generalize bvField v 31 0 = A at *
  generalize bvField v 63 2 = B at *
  obtain rfl | rfl : h = 0 ∨ h = 1 := by omega
  · simp only [Nat.mul_zero, Nat.zero_lt_succ, if_true]
    omega
  · simp only [Nat.mul_one, Nat.lt_irrefl, if_false, Nat.one_ne_zero]
    omega

end Sys2Proof
end

section
/-! The counters, the events for the host, and the accesses of the host and the service cores (R431, R442, R444 to R446). -/

namespace Sys2Proof

open Machine

variable {s t : State} {off : Nat} {v : DWord}

/-! ### The counters of a stack (R431) -/

/-- The register `r` of a stack's counters is cleared. -/
def stackCleared (r : Nat) (v : DWord) (k : Stack) : Stack :=
  if r < 0x100 ∧ r % 8 = 0 then { k with chq := k.chq.set (r / 8) (clearFields (k.chq.get (r / 8)) v) }
  else if r = 0x100 then { k with lnk := clearFields k.lnk v }
  else k

theorem exec_counterClear : exec (.counterClear off v) s = execCounterClear off v s := rfl

theorem counterClear_keeps (s : State) (off : Nat) (v : DWord) :
    ∃ t, exec (.counterClear off v) s = .next t ∧ t = { s with stackTab := t.stackTab } ∧ (s.bootstat = 2 → t = s) := by
  rw [exec_counterClear, execCounterClear]
  cases e : (if s.dead then none else dieBlock off) with
  | none => exact ⟨s, rfl, rfl, fun _ => rfl⟩
  | some x =>
    have hs : s.bootstat ≠ 2 := fun h => by simp [State.dead, h] at e
    dsimp only
    split
    · exact ⟨s, rfl, rfl, fun _ => rfl⟩
    · exact ⟨_, rfl, rfl, fun h => absurd h hs⟩

section
variable {d m : Nat} (hs : s.bootstat ≠ 2) (hd : d < 12) (hm : m < 2)
include hs hd hm

theorem exec_counterClear_stack {r : Nat} (hr : r < 0x200) (e : off = 0x1000000 + 0x100000 * d + 0x3000 + 0x200 * m + r) :
    exec (.counterClear off v) s = .next (s.modStack (2 * d + m) (stackCleared r v)) := by
  have hb : dieBlock off = some (d, 0x3000 + 0x200 * m + r) := by
    rw [e, show 0x1000000 + 0x100000 * d + 0x3000 + 0x200 * m + r = 0x1000000 + 0x100000 * d + (0x3000 + 0x200 * m + r) by omega]
    exact dieBlock_of_lt hd (by omega)
  have h1 : (0x3000 + 0x200 * m + r - 0x3000) / 0x200 = m := by omega
  have h2 : (0x3000 + 0x200 * m + r - 0x3000) % 0x200 = r := by omega
  rw [exec_counterClear, execCounterClear, dead_eq_false hs, if_neg Bool.false_ne_true, hb]
  dsimp only
  rw [if_neg (by omega), h1, h2]
  rfl

theorem counterClear_channel {c : Nat} (hc : c < 32) (e : off = 0x1000000 + 0x100000 * d + 0x3000 + 0x200 * m + 8 * c)
    (ht : exec (.counterClear off v) s = .next t) :
    t.stack (2 * d + m)
      = { s.stack (2 * d + m) with chq := (s.stack (2 * d + m)).chq.set c (clearFields ((s.stack (2 * d + m)).chq.get c) v) } := by
  rw [next_inj ht (exec_counterClear_stack hs hd hm (by omega) e), stack_modStack, if_pos rfl, stackCleared, if_pos (by omega),
    Nat.mul_div_cancel_left c (by decide)]

theorem counterClear_link (e : off = 0x1000000 + 0x100000 * d + 0x3000 + 0x200 * m + 0x100)
    (ht : exec (.counterClear off v) s = .next t) :
    t.stack (2 * d + m) = { s.stack (2 * d + m) with lnk := clearFields (s.stack (2 * d + m)).lnk v } := by
  rw [next_inj ht (exec_counterClear_stack hs hd hm (by decide) e), stack_modStack, if_pos rfl, stackCleared, if_neg (by decide), if_pos rfl]

end

/-! ### Stores at the homes -/

theorem storedAt_of_mem {pa : Nat} {bs : List Byte} (e : t.mem = s.mem.write pa bs) : storedAt s t pa bs := by
  intro w
  rw [e]
  exact ⟨Memory.readN_write_same pa bs w, fun a ha => Memory.read_write_other bs w ha⟩

theorem storedAt_homeWrite (s : State) (pa : Nat) (bs : List Byte) : storedAt s (s.homeWrite pa bs) pa bs :=
  storedAt_of_mem (State.homeWrite_mem s pa bs)

theorem homeWrite_onlyMemory (s : State) (pa : Nat) (bs : List Byte) : onlyMemory s (s.homeWrite pa bs) := by
  unfold onlyMemory
  rw [homeWrite_eq]

/-! ### The events that the stage managers report (R442) -/

/-- Where the parts of an event record stand. -/
theorem report_fields (r : Report) (d lost : Nat) :
    let b := r.bytes d lost
    let at_ (off n v : Nat) : Prop := leNat ((b.drop off).take n) = v % 256 ^ n
    b.length = 32 ∧ at_ 0 1 r.code ∧ at_ 1 1 d ∧ at_ 2 2 (min lost 65535) ∧ at_ 4 4 r.ctxid ∧ at_ 8 4 r.num ∧ at_ 0xC 4 0
      ∧ at_ 0x10 8 r.addr ∧ at_ 0x18 8 r.info := by
  have hz : zeros 4 = natLE 4 0 := by decide
  dsimp only
  simp only [Report.bytes, hz, List.append_assoc]
  simp [length_natLE, List.drop_append, List.drop_of_length_le, List.take_of_length_le, leNat_natLE]

/-- Free ring space leaves the tail behind the head by more than one entry, so the interrupt stands. -/
theorem tail_ne_head (s : State) (h : (s.evtail - s.evhead).toNat < s.evSize) : s.evtail + 1 ≠ s.evhead := by
  have h2 : s.evSize ≤ 2 ^ 31 := Nat.pow_le_pow_right (by decide) (Nat.le_of_lt_succ (bvField_lt s.evcfg 4 0))
  generalize s.evSize = n at *
  intro e
  rw [← e] at h
  bv_omega

/-- The event that a die reports next is written to the ring (R442). -/
def eventWritten (s : State) (d : Nat) (r : Report) (rest : List Report) : State :=
  let s1 := s.homeWrite (4096 * bvField s.evbase 51 12 + 32 * (s.evtail.toNat % s.evSize)) (r.bytes d (s.die d).dropped)
  ({ s1.modDie d fun y => { y with reports := rest, dropped := 0 } with evtail := s1.evtail + 1 } : State).at_ s.now (.eventWrite d)

section
variable {d : Nat}

theorem exec_eventWrite : exec (.eventWrite d) s = execEventWrite d s := rfl

theorem exec_eventWrite_waits (h : (s.die d).reports = [] ∨ s.evbase = 0 ∨ s.evSize ≤ (s.evtail - s.evhead).toNat) :
    exec (.eventWrite d) s = .next s := by
  rw [exec_eventWrite, execEventWrite]
  dsimp only
  cases hr : (s.die d).reports with
  | nil => rfl
  | cons r rest => exact if_pos (h.resolve_left (by simp [hr]))

theorem exec_eventWrite_writes {r : Report} {rest : List Report} (hr : (s.die d).reports = r :: rest) (hb : s.evbase ≠ 0)
    (h : (s.evtail - s.evhead).toNat < s.evSize) : exec (.eventWrite d) s = .next (eventWritten s d r rest) := by
  rw [exec_eventWrite, execEventWrite]
  dsimp only
  rw [hr]
  exact if_neg (not_or.2 ⟨hb, Nat.not_le.2 h⟩)

theorem eventWritten_mem (r : Report) (rest : List Report) :
    (eventWritten s d r rest).mem
      = s.mem.write (4096 * bvField s.evbase 51 12 + 32 * (s.evtail.toNat % s.evSize)) (r.bytes d (s.die d).dropped) :=
  State.homeWrite_mem s _ _

theorem eventWritten_evtail (r : Report) (rest : List Report) : (eventWritten s d r rest).evtail = s.evtail + 1 := by
  change (s.homeWrite _ _).evtail + 1 = _
  rw [homeWrite_eq]

theorem eventWritten_msix0 {r : Report} {rest : List Report} (h : (s.evtail - s.evhead).toNat < s.evSize) :
    (eventWritten s d r rest).msix0 = true := by
  have e : (eventWritten s d r rest).evhead = s.evhead := by
    change (s.homeWrite _ _).evhead = _
    rw [homeWrite_eq]
  rw [State.msix0, eventWritten_evtail, e]
  exact decide_eq_true (tail_ne_head s h)

theorem eventWritten_die (r : Report) (rest : List Report) (k : Nat) :
    (eventWritten s d r rest).die k = if k = d then { s.die d with reports := rest, dropped := 0 } else s.die k := by
  refine (die_modDie (s := s.homeWrite _ _) d k fun y => { y with reports := rest, dropped := 0 }).trans ?_
  rw [homeWrite_eq]
  rfl

theorem eventWritten_agenda (r : Report) (rest : List Report) : ⟨s.now, .eventWrite d⟩ ∈ (eventWritten s d r rest).agenda :=
  mem_at.2 (.inl rfl)

end

theorem mem_foldl_at_now {α : Type} (ev : α → Ev) (l : List α) {x : Timed} {s : State} :
    x ∈ (l.foldl (fun s a => s.at_ s.now (ev a)) s).agenda ↔ x ∈ s.agenda ∨ ∃ a ∈ l, x = ⟨s.now, ev a⟩ := by
  induction l generalizing s with
  | nil => simp
  | cons a l ih =>
    rw [List.foldl_cons, ih, mem_at, State.at_now]
    simp only [List.exists_mem_cons_iff]
    tauto

theorem exec_evheadWrite (v : Word) (s : State) :
    exec (.evheadWrite v) s = .next (if s.dead then s else State.writeEvents { s with evhead := v }) := rfl

theorem evheadWrite_writes (v : Word) (s : State) :
    let t := State.writeEvents { s with evhead := v }
    t = { s with evhead := v, agenda := t.agenda } ∧ (t.msix0 = true ↔ s.evtail ≠ v)
      ∧ ∀ d x, (d, x) ∈ s.dies → x.reports ≠ [] → ⟨s.now, .eventWrite d⟩ ∈ t.agenda := by
  have e := writeEvents_only { s with evhead := v }
  refine ⟨by rw [e], ?_, fun d x h hr => ?_⟩
  · rw [e]
    exact decide_eq_true_iff
  · exact (mem_foldl_at_now _ _).2 (.inr ⟨(d, x), List.mem_filter.2 ⟨h, decide_eq_true hr⟩, rfl⟩)

/-! ### The accesses of the host and of the service cores (R444 to R446, R461) -/


section
variable {pa n : Nat} {data : List Byte}

theorem exec_hostCxlMemRead : exec (.hostCxlMemRead pa n) s = execHostCxlMemRead pa n s := rfl

theorem exec_hostCxlMemWrite : exec (.hostCxlMemWrite pa data) s = execHostCxlMemWrite pa data s := rfl

/-- The host reaches the module's own memory while the module runs (R444). -/
def HostReaches (s : State) (pa : Nat) : Prop := s.bootstat = 1 ∧ targetOf pa = .device ∧ s.backed pa = true

theorem HostReaches.not_refused (h : HostReaches s pa) : ¬ (s.bootstat ≠ 1 ∨ targetOf pa ≠ .device ∨ s.backed pa = false) := by
  obtain ⟨h1, h2, h3⟩ := h
  simp [h1, h2, h3]

theorem refused_of_not_reaches (h : ¬ HostReaches s pa) : s.bootstat ≠ 1 ∨ targetOf pa ≠ .device ∨ s.backed pa = false := by
  simpa only [HostReaches, not_and_or, Bool.not_eq_true] using h

theorem hostCxlMemRead_refused (h : s.bootstat ≠ 1 ∨ targetOf pa ≠ .device ∨ s.backed pa = false) : exec (.hostCxlMemRead pa n) s = .next s :=
  if_pos h

theorem hostCxlMemWrite_refused (h : s.bootstat ≠ 1 ∨ targetOf pa ≠ .device ∨ s.backed pa = false) :
    exec (.hostCxlMemWrite pa data) s = .next s := if_pos h

theorem hostCxlMemRead_waits (h : HostReaches s pa) (hw : s.mapWaits pa = true) :
    exec (.hostCxlMemRead pa n) s = .next (s.at_ (s.now + 1) (.hostCxlMemRead pa n)) := by
  rw [exec_hostCxlMemRead, execHostCxlMemRead, if_neg h.not_refused, if_pos hw]

theorem hostCxlMemWrite_waits (h : HostReaches s pa) (hw : s.mapWaits pa = true) :
    exec (.hostCxlMemWrite pa data) s = .next (s.at_ (s.now + 1) (.hostCxlMemWrite pa data)) := by
  rw [exec_hostCxlMemWrite, execHostCxlMemWrite, if_neg h.not_refused, if_pos hw]

theorem hostCxlMemRead_fenced (h : HostReaches s pa) (hw : s.mapWaits pa = false) (hf : s.isFenced pa = true) :
    exec (.hostCxlMemRead pa n) s = .next (State.bump { s with sent := some (.host (freeBytes s.tick n)) }) := by
  rw [exec_hostCxlMemRead, execHostCxlMemRead, if_neg h.not_refused, if_neg (by simp [hw]), if_pos hf]

theorem hostCxlMemRead_reads (h : HostReaches s pa) (hw : s.mapWaits pa = false) (hf : s.isFenced pa = false) :
    exec (.hostCxlMemRead pa n) s = .next { s.noteReads (sectorsOf pa n) with sent := some (.host (s.mem.readN pa n)) } := by
  rw [exec_hostCxlMemRead, execHostCxlMemRead, if_neg h.not_refused, if_neg (by simp [hw]), if_neg (by simp [hf])]
  rfl

theorem hostCxlMemWrite_writes (h : HostReaches s pa) (hw : s.mapWaits pa = false) :
    exec (.hostCxlMemWrite pa data) s = .next (s.homeWrite pa data) := by
  rw [exec_hostCxlMemWrite, execHostCxlMemWrite, if_neg h.not_refused, if_neg (by simp [hw])]

/-- A read at the homes that is answered changes what the caches know of the sectors, and the answer (R5, R293). -/
theorem noteReads_answer (s : State) (ks : List Nat) (m : Msg) :
    let t : State := { s.noteReads ks with sent := some m }
    t = { s with cached := t.cached, stackDiff := t.stackDiff, sent := some m } := by
  have e := noteReads_only s ks
  dsimp only
  rw [e]

section
variable {d : Nat} {o : Option (List Byte)}

theorem serviceCoreMemoryAccess_refused (hb : s.backed pa = false) : exec (.serviceCoreMemoryAccess d pa n o) s = .next s := if_pos hb

theorem serviceCoreMemoryAccess_waits (hb : s.backed pa = true) (hw : s.mapWaits pa = true) :
    exec (.serviceCoreMemoryAccess d pa n o) s = .next (s.at_ (s.now + 1) (.serviceCoreMemoryAccess 0 pa n o)) :=
  (if_neg (by simp [hb])).trans (if_pos hw)

theorem serviceCoreMemoryAccess_writes (hb : s.backed pa = true) (hw : s.mapWaits pa = false) :
    exec (.serviceCoreMemoryAccess d pa n (some data)) s = .next (s.homeWrite pa data) :=
  (if_neg (by simp [hb])).trans (if_neg (by simp [hw]))

theorem serviceCoreMemoryAccess_reads (hb : s.backed pa = true) (hw : s.mapWaits pa = false) :
    ∃ t, exec (.serviceCoreMemoryAccess d pa n none) s = .next t
      ∧ t = { s with cached := t.cached, stackDiff := t.stackDiff, sent := some (.busData (s.mem.readN pa n)) } := by
  refine ⟨_, (if_neg (by simp [hb])).trans (if_neg (by simp [hw])), ?_⟩
  dsimp only
  split
  · exact noteReads_answer s _ _
  · rfl

end

end

/-! ### A context from an accepted image (R442) -/

theorem get_foldl_set {k : Nat} (l : List (Nat × DWord)) (t : Store 64) (h : ∀ e ∈ l, e.1 ≠ k) :
    (l.foldl (fun (t : Store 64) e => t.set e.1 e.2) t).get k = t.get k := by
  induction l generalizing t with
  | nil => rfl
  | cons e l ih =>
    rw [List.foldl_cons, ih _ fun x hx => h x (.tail _ hx), Store.get_set, if_neg (h e (.head _)).symm]

/-- Formats with numbers of their own stand in the table as the image gives them. -/
theorem get_foldl_set_mem {k : Nat} {v : DWord} (l : List (Nat × DWord)) (t : Store 64) (hn : (l.map (·.1)).Nodup) (h : (k, v) ∈ l) :
    (l.foldl (fun (t : Store 64) e => t.set e.1 e.2) t).get k = v := by
  induction l generalizing t with
  | nil => cases h
  | cons e l ih =>
    rw [List.map_cons, List.nodup_cons] at hn
    obtain ⟨he, hl⟩ := hn
    rw [List.foldl_cons]
    rcases List.mem_cons.1 h with rfl | h
    · rw [get_foldl_set l _ fun x hx hk => he (List.mem_map.2 ⟨x, hx, hk⟩), Store.get_set, if_pos rfl]
    · exact ih _ hl h

/-- The formats that an image gives. -/
def formatTable (b : List Byte) : Store 64 := (imgFormats b).foldl (fun (t : Store 64) e => t.set e.1 e.2) []

/-- A context as an image gives it, before its registers are set. -/
def createdContext (s : State) (c part : Nat) (m : Image) : Context :=
  { ({ s with contexts := [] } : State).ctx c with
    part := part, fmt := formatTable m.bytes, preload := imgWindows m.bytes, minor := imgField m.bytes 4 1 }

theorem createdContext_reg (s : State) (c part : Nat) (m : Image) {k : Nat} (h1 : 0x40 ≤ k) (h2 : k ≤ 0x4F) :
    (createdContext s c part m).reg k = if k = 0x4A then 0x01400000 else 0 := by
  interval_cases k <;> rfl

/-- A context stands and has not been terminated. -/
def Live (s : State) (c : Nat) : Prop := ∃ x, s.contexts.find? c = some x ∧ x.terminated = false

section
variable {c part img : Nat} {regs : List (Nat × DWord)} {m : Image}

theorem exec_contextCreation : exec (.contextCreation c part img regs) s = execContextCreation c part img regs s := rfl

theorem contextCreation_noImage (h : s.images.find? img = none) : exec (.contextCreation c part img regs) s = .next s := by
  rw [exec_contextCreation, execContextCreation, h]

theorem live_eq_true : ((match s.contexts.find? c with
      | some x => !x.terminated
      | none => false) : Bool) = true ↔ Live s c := by
  unfold Live
  cases s.contexts.find? c <;> simp

theorem contextCreation_refused (hi : s.images.find? img = some m) (h : m.status ≠ 0 ∨ s.parts.find? part = none ∨ Live s c) :
    exec (.contextCreation c part img regs) s = .next s := by
  rw [exec_contextCreation, execContextCreation, hi]
  exact if_pos ((or_congr Iff.rfl (or_congr Option.isNone_iff_eq_none live_eq_true)).2 h)

theorem contextCreation_creates (hi : s.images.find? img = some m) (hm : m.status = 0) (hp : (s.parts.find? part).isSome = true)
    (hl : ¬ Live s c) :
    exec (.contextCreation c part img regs) s = .next
      (State.at_ { s with contexts := s.contexts.put c (regs.foldl (fun x r => x.setReg r.1 r.2) (createdContext s c part m)) }
        ((s.now / 65536 + 1) * 65536) (.savecostUpdate c)) := by
  rw [exec_contextCreation, execContextCreation, hi]
  refine if_neg (mt (or_congr Iff.rfl (or_congr Option.isNone_iff_eq_none live_eq_true)).1 ?_)
  rintro (h | h | h)
  · exact h hm
  · simp [h] at hp
  · exact hl h

end

/-! ### Reset and bring-up (R442) -/

theorem find?_eq_none_of_lt {α : Type} {l : Tab α} {a : Nat} (h : ∀ x ∈ l, a < x.1) : l.find? a = none := by
  cases hf : l.find? a with
  | none => rfl
  | some x => exact absurd (h _ (Tab.mem_of_find? hf)) (Nat.lt_irrefl a)

/-- Bytes written one by one, at ascending addresses, all stand. -/
theorem read_foldl_write (l : Tab Byte) (hl : inOrder l) (m : Memory) (w : Memory.wf m = true) (a : Nat) :
    Memory.read (l.foldl (fun m c => Memory.write m c.1 [c.2]) m) a = (l.find? a).getD (m.read a) := by
  induction l generalizing m with
  | nil => rfl
  | cons x l ih =>
    obtain ⟨hx, hl⟩ := List.pairwise_cons.1 (show List.Pairwise _ (x.1 :: l.map (·.1)) from hl)
    have hx' : ∀ y ∈ l, x.1 < y.1 := fun y hy => hx _ (List.mem_map_of_mem hy)
    rw [List.foldl_cons, ih hl _ (Memory.wf_write _ _ w), Memory.read_write _ _ _ w, Tab.find?]
    split
    · next ha =>
      obtain rfl : x.1 = a := by simp at ha; omega
      simp [find?_eq_none_of_lt hx']
    · next ha => rw [if_neg (by simp at ha; omega)]

/-- The module right after a reset: the stacks hold their bytes, and nothing else stands but what the flash says. -/
def resetState (s : State) : State :=
  { State.reset with
    agenda := [], mem := s.stackDiff.foldl (fun m c => Memory.write m c.1 [c.2]) s.mem, flash := s.flash, tick := s.tick }

theorem exec_moduleReset_good (h : s.flash.good = true) : exec .moduleReset s = .next (resetState s).bringUp.startPeriodic := by
  have e : (resetState s).bringUp.bootstat = 1 := by rw [State.bringUp, if_pos (by exact h)]
  exact congrArg Host.Outcome.next (if_pos e)

theorem exec_moduleReset_bad (h : s.flash.good = false) : exec .moduleReset s = .next { resetState s with bootstat := 2 } := by
  have e : (resetState s).bringUp = { resetState s with bootstat := 2 } := by rw [State.bringUp, if_neg (by simp [resetState, h])]
  have hb : ¬ (resetState s).bringUp.bootstat = 1 := by
    rw [e]
    exact (by decide : ¬ 2 = 1)
  rw [← e]
  exact congrArg Host.Outcome.next (if_neg hb)

theorem atAll_only (due : Nat) (l : List Ev) : OnlyAgenda s (s.atAll due l) := State.atAll_eq s due l

theorem startPeriodic_only (s : State) : OnlyAgenda s s.startPeriodic :=
  (foldl_at_only _ _ _ _).trans (.trans (.trans (at_only _ _ _) (at_only _ _ _))
    (foldl_rel (p := OnlyAgenda) OnlyAgenda.refl OnlyAgenda.trans (fun _ _ => atAll_only _ _) _ _))

theorem mem_foldl_atAll {α : Type} (evs : α → List Ev) (l : List α) {x : Timed} {s : State} (h : x ∈ s.agenda) :
    x ∈ (l.foldl (fun s a => s.atAll s.now (evs a)) s).agenda := by
  induction l generalizing s with
  | nil => exact h
  | cons a l ih => exact ih ((mem_foldl_at _ _ _).2 (.inl h))

/-- Bring-up puts the energy accounting and the power cap on the agenda. -/
theorem startPeriodic_agenda (s : State) :
    ∃ due due', ⟨due, .energyFold⟩ ∈ s.startPeriodic.agenda ∧ ⟨due', .capApplication⟩ ∈ s.startPeriodic.agenda :=
  ⟨_, _, mem_foldl_atAll _ _ (mem_at.2 (.inr (mem_at.2 (.inl rfl)))), mem_foldl_atAll _ _ (mem_at.2 (.inl rfl))⟩

end Sys2Proof
end

section
/-! The clauses of the obligation on the module's registers and its host, and the obligation from them. -/

namespace Sys2Proof

open Machine

theorem registerWrite_clause (off : Nat) (v : DWord) (s : State) :
    ∃ t, exec (.registerWrite off v) s = .next t ∧ t.mem = s.mem ∧ t.contexts = s.contexts ∧ t.troupes = s.troupes
    ∧ (s.bootstat = 2 → t = s) ∧ (s.bootstat ≠ 2 → (off = 0x10 → t = { s with qtbase := v })
    ∧ (off = 0x18 → t = { s with evbase := t.evbase, agenda := t.agenda } ∧ bvField t.evbase 51 12 = bvField v 51 12
        ∧ bvField t.evbase 11 0 = 0 ∧ bvField t.evbase 63 52 = 0)
    ∧ (off = 0x38 → t = { s with evcfg := BitVec.ofNat 32 (if 6 ≤ bvField v 4 0 ∧ bvField v 4 0 ≤ 16 then bvField v 4 0 else 8) })
    ∧ (off = 0x10280 → t = { s with mapNext := v })
    ∧ (∀ n, n < 44 → off = 0x10100 + 8 * n → t = { s with mapRows := t.mapRows }
        ∧ ∀ k, (t.mapRows.get k).toNat = if k = n then bvField v 43 0 else (s.mapRows.get k).toNat)
    ∧ (∀ p, p < 12 → off = 0x20008 + 0x100 * p → (s.parts.find? p).isSome = true →
        t = { s with parts := t.parts } ∧ ∀ k, t.part k = if k = p then { s.part p with budget := v } else s.part k)
    ∧ ∀ d, d < 12 → let base := 0x1000000 + 0x100000 * d
      (off = base → t = { s with dies := t.dies, agenda := t.agenda } ∧ bvField (t.die d).fqcfg 51 12 = bvField v 51 12
        ∧ bvField (t.die d).fqcfg 4 0 = (if 6 ≤ bvField v 4 0 ∧ bvField v 4 0 ≤ 16 then bvField v 4 0 else 6)
        ∧ ((s.die d).records ≠ [] → ⟨s.now, .faultRecordWrite d⟩ ∈ t.agenda))
      ∧ (off = base + 0x18 → 2 ≤ bvField v 33 32 → t = { s with dies := t.dies } ∧ t.die d = { s.die d with frstat := 2 })
      ∧ ∀ m, m < 2 → off = base + 0x3110 + 0x200 * m → t = { s with stackTab := t.stackTab }
        ∧ t.stack (2 * d + m) = { s.stack (2 * d + m) with hnode := BitVec.ofNat 32 (bvField v 8 0) }) := by
  obtain ⟨t, ht, hmem, hctx, htr⟩ := registerWrite_keeps s off v
  refine ⟨t, ht, hmem, hctx, htr, fun h => registerWrite_dead h ht, fun hs => ⟨registerWrite_qtbase hs ht, fun e => ?_,
    registerWrite_evcfg hs ht, registerWrite_mapNext hs ht, fun n hn e => ?_, fun p hp e => registerWrite_budget hs ht hp e,
    fun d hd => ⟨fun e => ?_, registerWrite_frstat hs ht hd, fun m hm => registerWrite_hnode hs ht hd hm⟩⟩⟩
  · obtain ⟨he, hb⟩ := registerWrite_evbase hs ht e
    have hv := bvField_lt v 51 12
    refine ⟨he, ?_⟩
    simp only [bvField_eq t.evbase]
    rw [hb, toNat_keepBits v (by decide) (by decide)]
    omega
  · have he := registerWrite_mapRow hs ht hn e
    subst he
    refine ⟨rfl, fun k => ?_⟩
    simp only [Store.get_set]
    split
    · rw [toNat_keepBits v (by decide) (by decide), Nat.pow_zero, Nat.mul_one]
    · rfl
  · obtain ⟨he, hq, hr⟩ := registerWrite_fqcfg hs ht hd e
    obtain ⟨hbase, hsize⟩ := bvField_fqcfgWritten v
    exact ⟨he, hq ▸ hbase, hq ▸ hsize, hr⟩

theorem aclWrite_clause (k n h : Nat) (v : DWord) (s : State) (hk : k < 24) (hn : n < 64) (hh : h < 2) (hs : s.bootstat ≠ 2) :
    ∃ t, exec (.registerWrite (2 ^ 32 + 65536 * k + 16 * n + 8 * h) v) s = .next t
    ∧ t = { s with stackTab := t.stackTab } ∧ (∀ j, j ≠ k → t.stack j = s.stack j)
    ∧ t.stack k = { s.stack k with acl := (t.stack k).acl } ∧ (∀ j, j ≠ n → (t.stack k).acl.get j = (s.stack k).acl.get j)
    ∧ let x := (s.stack k).acl.get n
      let y := (t.stack k).acl.get n
      bvField x 65 32 = 0 → bvField y 65 32 = 0 ∧ bvField y 31 0 = (if h = 0 then bvField v 31 0 else bvField x 31 0)
        ∧ bvField y 127 66 = (if h = 0 then bvField x 127 66 else bvField v 63 2) := by
  refine ⟨_, exec_registerWrite_acl hs hk hn hh, rfl, fun j hj => ?_, ?_, fun j hj => ?_, ?_⟩
  · rw [stack_modStack, if_neg hj]
  · rw [stack_modStack, if_pos rfl]
  · rw [stack_modStack, if_pos rfl, Store.get_set, if_neg hj]
  · rw [stack_modStack, if_pos rfl, Store.get_set, if_pos rfl]
    exact bvField_aclWritten _ hh v

theorem counterClear_clause (off : Nat) (v : DWord) (s : State) :
    ∃ t, exec (.counterClear off v) s = .next t ∧ t = { s with stackTab := t.stackTab } ∧ (s.bootstat = 2 → t = s)
    ∧ ∀ d m, s.bootstat ≠ 2 → d < 12 → m < 2 →
    let k := 2 * d + m
    let base := 0x1000000 + 0x100000 * d + 0x3000 + 0x200 * m
    let cleared (x y : DWord) : Prop := ∀ hi lo, (hi, lo) ∈ [(63, 32), (31, 16), (15, 0)] →
      bvField y hi lo = if bvField v hi lo = 0 then bvField x hi lo else 0
    (∀ c, c < 32 → off = base + 8 * c → cleared ((s.stack k).chq.get c) ((t.stack k).chq.get c)
        ∧ (∀ j, j ≠ c → (t.stack k).chq.get j = (s.stack k).chq.get j) ∧ t.stack k = { s.stack k with chq := (t.stack k).chq })
    ∧ (off = base + 0x100 → cleared (s.stack k).lnk (t.stack k).lnk ∧ t.stack k = { s.stack k with lnk := (t.stack k).lnk }) := by
  obtain ⟨t, ht, ho, hdead⟩ := counterClear_keeps s off v
  refine ⟨t, ht, ho, hdead, fun d m hs hd hm => ⟨fun c hc e => ?_, fun e => ?_⟩⟩
  · rw [counterClear_channel hs hd hm hc e ht]
    refine ⟨?_, fun j hj => ?_, rfl⟩
    · rw [Store.get_set, if_pos rfl]
      exact bvField_clearFields _ v
    · rw [Store.get_set, if_neg hj]
  · rw [counterClear_link hs hd hm e ht]
    exact ⟨bvField_clearFields _ v, rfl⟩

theorem eventWrite_clause (d : Nat) (s : State) : ∃ t, exec (.eventWrite d) s = .next t ∧
    let size := 2 ^ bvField s.evcfg 4 0
    (((s.die d).reports = [] ∨ s.evbase = 0#64 ∨ size ≤ (s.evtail - s.evhead).toNat) → t = s)
    ∧ ∀ r rest, (s.die d).reports = r :: rest → s.evbase ≠ 0#64 → (s.evtail - s.evhead).toNat < size →
      (∃ b, storedAt s t (4096 * bvField s.evbase 51 12 + 32 * (s.evtail.toNat % size)) b
        ∧ (let at_ (off n v : Nat) : Prop := leNat ((b.drop off).take n) = v % 256 ^ n
          b.length = 32 ∧ at_ 0 1 r.code ∧ at_ 1 1 d ∧ at_ 2 2 (min (s.die d).dropped 65535) ∧ at_ 4 4 r.ctxid ∧ at_ 8 4 r.num ∧ at_ 0xC 4 0
          ∧ at_ 0x10 8 r.addr ∧ at_ 0x18 8 r.info))
      ∧ t.evtail = s.evtail + 1 ∧ t.msix0 = true ∧ t.die d = { s.die d with reports := rest, dropped := 0 } ∧ (∀ k, k ≠ d → t.die k = s.die k)
      ∧ ⟨s.now, .eventWrite d⟩ ∈ t.agenda := by
  by_cases hw : (s.die d).reports = [] ∨ s.evbase = 0 ∨ s.evSize ≤ (s.evtail - s.evhead).toNat
  · refine ⟨s, exec_eventWrite_waits hw, fun _ => rfl, fun r rest hr hb h => ?_⟩
    rcases hw with hw | hw | hw
    · simp [hw] at hr
    · exact absurd hw hb
    · exact absurd hw (Nat.not_le.2 h)
  · obtain ⟨r, rest, hr⟩ := List.exists_cons_of_ne_nil (not_or.1 hw).1
    obtain ⟨hb, h⟩ := not_or.1 (not_or.1 hw).2
    rw [Nat.not_le] at h
    refine ⟨_, exec_eventWrite_writes hr hb h, fun k => absurd k hw, fun r' rest' hr' _ _ => ?_⟩
    obtain ⟨rfl, rfl⟩ : r = r' ∧ rest = rest' := List.cons.inj (hr.symm.trans hr')
    refine ⟨⟨_, storedAt_of_mem (eventWritten_mem r rest), report_fields r d _⟩, eventWritten_evtail r rest, eventWritten_msix0 h, ?_,
      fun k hk => ?_, eventWritten_agenda r rest⟩
    · rw [eventWritten_die, if_pos rfl]
    · rw [eventWritten_die, if_neg hk]

theorem evheadWrite_clause (v : Word) (s : State) : ∃ t, exec (.evheadWrite v) s = .next t ∧ (s.bootstat = 2 → t = s)
    ∧ (s.bootstat ≠ 2 → t = { s with evhead := v, agenda := t.agenda } ∧ (t.msix0 = true ↔ s.evtail ≠ v)
    ∧ ∀ d x, (d, x) ∈ s.dies → x.reports ≠ [] → ⟨s.now, .eventWrite d⟩ ∈ t.agenda) := by
  refine ⟨_, exec_evheadWrite v s, fun h => if_pos (by simp [State.dead, h]), fun h => ?_⟩
  rw [if_neg (by simp [State.dead, h])]
  exact evheadWrite_writes v s

theorem hostCxlMemRead_clause (pa n : Nat) (s : State) : ∃ t, exec (.hostCxlMemRead pa n) s = .next t
    ∧ ((s.bootstat ≠ 1 ∨ targetOf pa ≠ .device ∨ s.backed pa = false) → t = s)
    ∧ (s.bootstat = 1 → targetOf pa = .device → s.backed pa = true →
      (s.mapWaits pa = true → t = { s with agenda := t.agenda } ∧ ⟨s.now + 1, .hostCxlMemRead pa n⟩ ∈ t.agenda)
      ∧ (s.mapWaits pa = false → s.isFenced pa = true → t = { s with tick := t.tick, sent := t.sent })
      ∧ (s.mapWaits pa = false → s.isFenced pa = false →
          t = { s with cached := t.cached, stackDiff := t.stackDiff, sent := some (.host (s.mem.readN pa n)) })) := by
  by_cases h : HostReaches s pa
  · cases hw : s.mapWaits pa with
    | true =>
      exact ⟨_, hostCxlMemRead_waits h hw, fun k => absurd k h.not_refused, fun _ _ _ => ⟨fun _ => ⟨rfl, mem_at.2 (.inl rfl)⟩, nofun, nofun⟩⟩
    | false =>
      cases hf : s.isFenced pa with
      | true => exact ⟨_, hostCxlMemRead_fenced h hw hf, fun k => absurd k h.not_refused, fun _ _ _ => ⟨nofun, fun _ _ => rfl, nofun⟩⟩
      | false =>
        exact ⟨_, hostCxlMemRead_reads h hw hf, fun k => absurd k h.not_refused, fun _ _ _ => ⟨nofun, nofun, fun _ _ => noteReads_answer s _ _⟩⟩
  · exact ⟨s, hostCxlMemRead_refused (refused_of_not_reaches h), fun _ => rfl, fun h1 h2 h3 => absurd ⟨h1, h2, h3⟩ h⟩

theorem hostCxlMemWrite_clause (pa : Nat) (data : List Byte) (s : State) : ∃ t, exec (.hostCxlMemWrite pa data) s = .next t
    ∧ ((s.bootstat ≠ 1 ∨ targetOf pa ≠ .device ∨ s.backed pa = false) → t = s)
    ∧ (s.bootstat = 1 → targetOf pa = .device → s.backed pa = true →
      (s.mapWaits pa = true → t = { s with agenda := t.agenda } ∧ ⟨s.now + 1, .hostCxlMemWrite pa data⟩ ∈ t.agenda)
      ∧ (s.mapWaits pa = false → storedAt s t pa data ∧ onlyMemory s t)) := by
  by_cases h : HostReaches s pa
  · cases hw : s.mapWaits pa with
    | true =>
      exact ⟨_, hostCxlMemWrite_waits h hw, fun k => absurd k h.not_refused, fun _ _ _ => ⟨fun _ => ⟨rfl, mem_at.2 (.inl rfl)⟩, nofun⟩⟩
    | false =>
      exact ⟨_, hostCxlMemWrite_writes h hw, fun k => absurd k h.not_refused,
        fun _ _ _ => ⟨nofun, fun _ => ⟨storedAt_homeWrite s pa data, homeWrite_onlyMemory s pa data⟩⟩⟩
  · exact ⟨s, hostCxlMemWrite_refused (refused_of_not_reaches h), fun _ => rfl, fun h1 h2 h3 => absurd ⟨h1, h2, h3⟩ h⟩

theorem serviceCoreMemoryAccess_clause (d pa n : Nat) (data : Option (List Byte)) (s : State) :
    ∃ t, exec (.serviceCoreMemoryAccess d pa n data) s = .next t ∧ (s.backed pa = false → t = s)
    ∧ (s.backed pa = true → s.mapWaits pa = false →
      (∀ bs, data = some bs → storedAt s t pa bs ∧ onlyMemory s t)
      ∧ (data = none → t = { s with cached := t.cached, stackDiff := t.stackDiff, sent := some (.busData (s.mem.readN pa n)) })) := by
  cases hb : s.backed pa with
  | false => exact ⟨s, serviceCoreMemoryAccess_refused hb, fun _ => rfl, nofun⟩
  | true =>
    cases hw : s.mapWaits pa with
    | true => exact ⟨_, serviceCoreMemoryAccess_waits hb hw, nofun, nofun⟩
    | false =>
      cases data with
      | some bs =>
        refine ⟨_, serviceCoreMemoryAccess_writes hb hw, nofun, fun _ _ => ⟨fun _ e => ?_, nofun⟩⟩
        cases e
        exact ⟨storedAt_homeWrite s pa bs, homeWrite_onlyMemory s pa bs⟩
      | none =>
        obtain ⟨t, ht, e⟩ := serviceCoreMemoryAccess_reads (d := d) (n := n) hb hw
        exact ⟨t, ht, nofun, fun _ _ => ⟨nofun, fun _ => e⟩⟩

theorem contextCreation_clause (c part img : Nat) (regs : List (Nat × DWord)) (s : State) :
    ∃ t, exec (.contextCreation c part img regs) s = .next t
    ∧ let live : Prop := ∃ x, s.contexts.find? c = some x ∧ x.terminated = false
      ((s.images.find? img = none ∨ s.parts.find? part = none ∨ live) → t = s)
      ∧ ∀ m, s.images.find? img = some m → (m.status ≠ 0 → t = s)
        ∧ (m.status = 0 → (s.parts.find? part).isSome = true → ¬live →
          t = { s with agenda := t.agenda, contexts := t.contexts } ∧ (∀ d, d ≠ c → t.contexts.find? d = s.contexts.find? d)
          ∧ ⟨(s.now / 65536 + 1) * 65536, .savecostUpdate c⟩ ∈ t.agenda
          ∧ ∃ y : Context, t.contexts.find? c = some (regs.foldl (fun x r => x.setReg r.1 r.2) y) ∧ y.part = part
            ∧ (∀ k v, ((imgFormats m.bytes).map (·.1)).Nodup → (k, v) ∈ imgFormats m.bytes → y.fmt.get k = v)
            ∧ (∀ k, (∀ e ∈ imgFormats m.bytes, e.1 ≠ k) → y.fmt.get k = 0) ∧ y.preload = imgWindows m.bytes
            ∧ y.minor = imgField m.bytes 4 1 ∧ y.stopped = false ∧ y.terminated = false ∧ y.blocks = [] ∧ y.energy = 0
            ∧ ∀ k, 0x40 ≤ k → k ≤ 0x4F → y.reg k = if k = 0x4A then 0x01400000 else 0) := by
  cases hi : s.images.find? img with
  | none => exact ⟨s, contextCreation_noImage hi, fun _ => rfl, nofun⟩
  | some m =>
    by_cases h : m.status ≠ 0 ∨ s.parts.find? part = none ∨ Live s c
    · refine ⟨s, contextCreation_refused hi h, fun _ => rfl, fun m' e => ⟨fun _ => rfl, fun h1 h2 h3 => ?_⟩⟩
      cases e
      rcases h with h | h | h
      · exact absurd h1 h
      · simp [h] at h2
      · exact absurd h h3
    · obtain ⟨hm, hp, hl⟩ : m.status = 0 ∧ s.parts.find? part ≠ none ∧ ¬ Live s c := by
        simpa only [not_or, not_not, ne_eq] using h
      refine ⟨_, contextCreation_creates hi hm (Option.isSome_iff_ne_none.2 hp) hl, fun k => ?_, fun m' e => ?_⟩
      · rcases k with k | k | k
        · cases k
        · exact absurd k hp
        · exact absurd k hl
      · cases e
        refine ⟨fun k => absurd hm k, fun _ _ _ => ⟨rfl, fun d hd => Tab.find?_put_other _ _ hd, mem_at.2 (.inl rfl),
          createdContext s c part m, Tab.find?_put_same _ _ _, rfl, fun k v hn hk => get_foldl_set_mem _ _ hn hk,
          fun k hk => get_foldl_set _ _ hk, rfl, rfl, rfl, rfl, rfl, rfl, fun k h1 h2 => createdContext_reg s c part m h1 h2⟩⟩

theorem moduleReset_clause (s : State) : ∃ t, exec .moduleReset s = .next t ∧ t.flash = s.flash
    ∧ t.contexts = [] ∧ t.cores = [] ∧ t.ensembles = [] ∧ t.troupes = [] ∧ t.launches = [] ∧ t.prods = [] ∧ t.queues = [] ∧ t.copies = []
    ∧ t.evbase = 0#64 ∧ t.evhead = 0#32 ∧ t.evtail = 0#32 ∧ t.qtbase = 0#64
    ∧ (Inv s → inOrder s.stackDiff → ∀ a, t.mem.read a = s.stackByte a)
    ∧ (s.flash.good = false → t.bootstat = 2)
    ∧ (s.flash.good = true → t.bootstat = 1 ∧ t.mapRegs = s.flash.mapRegs ∧ t.matrices = s.flash.matrices ∧ t.partOf = s.flash.partOf
      ∧ t.moduleCap = s.flash.moduleCap ∧ t.parts = s.flash.parts
      ∧ t.cal = s.flash.cal ∧ t.scrub = s.flash.scrub
      ∧ ∃ due due', ⟨due, .energyFold⟩ ∈ t.agenda ∧ ⟨due', .capApplication⟩ ∈ t.agenda) := by
  have hread (w : Inv s) (hl : inOrder s.stackDiff) (a : Nat) : (resetState s).mem.read a = s.stackByte a :=
    read_foldl_write _ hl _ w a
  cases hg : s.flash.good with
  | false => exact ⟨_, exec_moduleReset_bad hg, rfl, rfl, rfl, rfl, rfl, rfl, rfl, rfl, rfl, rfl, rfl, rfl, rfl, hread, fun _ => rfl, nofun⟩
  | true =>
    have hag := startPeriodic_agenda (resetState s).bringUp
    refine ⟨_, exec_moduleReset_good hg, ?_⟩
    rw [startPeriodic_only]
    generalize (resetState s).bringUp.startPeriodic.agenda = agenda at hag ⊢
    have e : (resetState s).bringUp = _ := if_pos hg
    rw [e]
    exact ⟨rfl, rfl, rfl, rfl, rfl, rfl, rfl, rfl, rfl, rfl, rfl, rfl, rfl, hread, nofun,
      fun _ => ⟨rfl, rfl, rfl, rfl, rfl, rfl, rfl, rfl, hag⟩⟩

/-- Settles O53, a clause for each kind of access. -/
theorem registersAndHost : Obligations.RegistersAndHost :=
  ⟨registerWrite_clause, aclWrite_clause, counterClear_clause, eventWrite_clause, evheadWrite_clause, hostCxlMemRead_clause,
    hostCxlMemWrite_clause, fun _ _ => rfl, serviceCoreMemoryAccess_clause, fun _ => ⟨_, rfl⟩, contextCreation_clause, moduleReset_clause⟩

end Sys2Proof
end

section
/-! The encoder and the decoder undo each other (R25 to R39): operand codes, the fields of each layout, words and bytes. -/

namespace Sys2Proof

open Machine

/-! ### Operand codes, RND and SCOPE -/

theorem longCode_lt (o : Operand) : o.longCode < 1024 := by
  cases o <;> simp only [Operand.longCode] <;> omega

theorem longOperand_longCode (o : Operand) : longOperand o.longCode = some o := by
  cases o with
  | idx x k =>
    have hx := x.isLt
    have hk := k.isLt
    have h1 : (896 + 32 * x.toNat + k.toNat) % 256 = 128 + 32 * x.toNat + k.toNat := by omega
    have h2 : (896 + 32 * x.toNat + k.toNat) / 256 = 3 := by omega
    have h3 : (128 + 32 * x.toNat + k.toNat - 128) / 32 = x.toNat := by omega
    have h4 : (128 + 32 * x.toNat + k.toNat) % 32 = k.toNat := by omega
    have h5 (c : Nat) (h : c ≤ 128) : ¬ 128 + 32 * x.toNat + k.toNat < c := by omega
    have h6 (c : Nat) (h : c < 128) : ¬ 128 + 32 * x.toNat + k.toNat = c := by omega
    simp [longOperand, Operand.longCode, h1, h2, h3, h4, h5, h6]
  | v n => simp [longOperand, Operand.longCode, Nat.mod_eq_of_lt n.isLt, Nat.div_eq_of_lt n.isLt]
  | o n =>
    have h1 : (256 + n.toNat) % 256 = n.toNat := by omega
    have h2 : (256 + n.toNat) / 256 = 1 := by omega
    simp [longOperand, Operand.longCode, h1, h2, n.isLt]
  | s n =>
    have h1 : (768 + n.toNat) % 256 = n.toNat := by omega
    have h2 : (768 + n.toNat) / 256 = 3 := by omega
    simp [longOperand, Operand.longCode, h1, h2, n.isLt]
  | g n =>
    have h1 : (832 + n.toNat) % 256 = 64 + n.toNat := by omega
    have h2 : (832 + n.toNat) / 256 = 3 := by omega
    have h3 : 64 + n.toNat < 96 := by omega
    simp [longOperand, Operand.longCode, h1, h2, h3]
  | x n =>
    have h1 : (864 + n.toNat) % 256 = 96 + n.toNat := by omega
    have h2 : (864 + n.toNat) / 256 = 3 := by omega
    have h3 : 96 + n.toNat < 100 := by omega
    have h4 : ¬ 96 + n.toNat < 64 := by omega
    simp [longOperand, Operand.longCode, h1, h2, h3, h4]
  | p n =>
    have h1 : (868 + n.toNat) % 256 = 100 + n.toNat := by omega
    have h2 : (868 + n.toNat) / 256 = 3 := by omega
    have h3 : 100 + n.toNat < 108 := by omega
    have h4 : ¬ 100 + n.toNat < 64 := by omega
    have h5 : ¬ 100 + n.toNat < 96 := by omega
    simp [longOperand, Operand.longCode, h1, h2, h3, h4, h5]
  | latch => rfl
  | latchX => rfl
  | lit => rfl
  | zero => rfl
  | lane => rfl
  | troupe => rfl

theorem shortCode_lt {o : Operand} (h : o.short = true) : o.shortCode < 64 := by
  cases o <;> simp only [Operand.short, Operand.shortCode, decide_eq_true_eq] at h ⊢ <;> omega

theorem shortOperand_shortCode {o : Operand} (h : o.short = true) : shortOperand o.shortCode = o := by
  cases o with
  | v n =>
    have hn : n.toNat < 48 := by simpa [Operand.short] using h
    simp [shortOperand, Operand.shortCode, hn]
  | o n =>
    have h1 : ¬ 48 + n.toNat < 48 := by omega
    have h2 : 48 + n.toNat < 56 := by omega
    simp [shortOperand, Operand.shortCode, h2]
  | s n =>
    have h1 (c : Nat) (hc : c ≤ 60) : ¬ 60 + n.toNat < c := by omega
    have h2 (c : Nat) (hc : c < 60) : ¬ 60 + n.toNat = c := by omega
    simp [shortOperand, Operand.shortCode, h1, h2]
  | latch => rfl
  | latchX => rfl
  | lit => rfl
  | zero => rfl
  | g n => cases h
  | x n => cases h
  | p n => cases h
  | lane => cases h
  | troupe => cases h
  | idx n k => cases h

theorem rndOf_code (r : RMode) : rndOf r.code = some r := by cases r <;> rfl

theorem RMode.code_lt (r : RMode) : r.code < 8 := by cases r <;> decide

theorem scopeOf_code (c : Scope) : scopeOf c.code = some c := by cases c <;> rfl

theorem Scope.code_lt (c : Scope) : c.code < 8 := by cases c <;> decide

/-! ### First words -/

section

variable {len op body : Nat} (h : Head)

theorem firstWord_lt (hl : len < 4) (ho : op < 256) (hb : body < 2 ^ 18) : firstWord len op h body < 2 ^ 32 := by
  have := Bool.toNat_le h.yield
  unfold firstWord; omega

theorem firstWord_len (hl : len < 4) : firstWord len op h body % 4 = len := by unfold firstWord; omega

theorem firstWord_op (hl : len < 4) (ho : op < 256) : firstWord len op h body / 4 % 256 = op := by unfold firstWord; omega

theorem firstWord_body (hl : len < 4) (ho : op < 256) : firstWord len op h body / 16384 = body := by
  have := Bool.toNat_le h.yield
  unfold firstWord; omega

theorem headOf_firstWord (hl : len < 4) (ho : op < 256) : headOf (firstWord len op h body) = h := by
  have h1 : firstWord len op h body / 8192 % 2 = h.yield.toNat := by
    have := Bool.toNat_le h.yield
    unfold firstWord; omega
  have h2 : firstWord len op h body / 1024 % 8 = h.stall.toNat := by unfold firstWord; omega
  unfold headOf
  rw [h1]
  obtain ⟨y, c⟩ := h
  congr 1
  · cases y <;> rfl
  · exact BitVec.eq_of_toNat_eq (by simpa using h2)

end

theorem W0.body_lt (w : W0) : w.body < 2 ^ 18 := by
  have h1 := w.rnd.code_lt
  have h2 := w.scope.code_lt
  have h3 := Bool.toNat_le w.sat
  have h4 := Bool.toNat_le w.pneg
  unfold W0.body; omega

/-- Word 0 of an extended form holds its fields (R31). -/
theorem w0Of_firstWord {len op : Nat} (w : W0) (hl : len < 4) (ho : op < 256) : w0Of (firstWord len op w.head w.body) = some w := by
  have h1 := w.rnd.code_lt
  have h2 := w.scope.code_lt
  have h3 := Bool.toNat_le w.sat
  have h4 := Bool.toNat_le w.pneg
  have hb := firstWord_body (body := w.body) w.head hl ho
  have hh := headOf_firstWord (body := w.body) w.head hl ho
  generalize firstWord len op w.head w.body = x at hb hh
  have e : x / 16384 = 2 * w.fmt.toNat + 128 * w.rnd.code + 1024 * w.sat.toNat + 2048 * w.scope.code + 16384 * w.pred.toNat
      + 131072 * w.pneg.toNat := hb
  have e1 : x / 16384 % 2 = 0 := by omega
  have e2 : x / 2097152 % 8 = w.rnd.code := by omega
  have e3 : x / 33554432 % 8 = w.scope.code := by omega
  have e4 : x / 2147483648 % 2 = w.pneg.toNat := by omega
  have e5 : x / 16777216 % 2 = w.sat.toNat := by omega
  have e6 : BitVec.ofNat 3 (x / 268435456) = w.pred := BitVec.eq_of_toNat_eq (by rw [BitVec.toNat_ofNat]; omega)
  have e7 : BitVec.ofNat 6 (x / 32768) = w.fmt := BitVec.eq_of_toNat_eq (by rw [BitVec.toNat_ofNat]; omega)
  unfold w0Of
  rw [if_neg (by omega), e2, e3, rndOf_code, scopeOf_code]
  simp only [hh, e4, e5, e6, e7]
  obtain ⟨hd, pn, pr, sc, st, rd, fm⟩ := w
  cases pn <;> cases st <;> rfl

theorem litOf_words (l : DWord) : litOf (l.toNat % 4294967296) (l.toNat / 4294967296) = l :=
  BitVec.eq_of_toNat_eq (by rw [litOf, BitVec.toNat_ofNat]; omega)

/-! ### Layouts -/

/-- Layout X gives its fields back (R32). -/
theorem xOf_words (f : X) {len op : Nat} (hl : len < 4) (ho : op < 256) (lit : Option DWord) :
    xOf (firstWord len op f.w0.head f.w0.body) (4 * f.sb.longCode + 4096 * f.sa.longCode + 4194304 * f.dst.longCode)
      (f.disp.toNat + 16384 * f.mod.toNat + 4194304 * f.sc.longCode) lit = some { f with lit := lit } := by
  have ha := longCode_lt f.sa
  have hb := longCode_lt f.sb
  have e1 : (4 * f.sb.longCode + 4096 * f.sa.longCode + 4194304 * f.dst.longCode) / 4194304 = f.dst.longCode := by omega
  have e2 : (4 * f.sb.longCode + 4096 * f.sa.longCode + 4194304 * f.dst.longCode) / 4096 % 1024 = f.sa.longCode := by omega
  have e3 : (4 * f.sb.longCode + 4096 * f.sa.longCode + 4194304 * f.dst.longCode) / 4 % 1024 = f.sb.longCode := by omega
  have e4 : (f.disp.toNat + 16384 * f.mod.toNat + 4194304 * f.sc.longCode) / 4194304 = f.sc.longCode := by omega
  have e5 : BitVec.ofNat 8 ((f.disp.toNat + 16384 * f.mod.toNat + 4194304 * f.sc.longCode) / 16384) = f.mod :=
    BitVec.eq_of_toNat_eq (by rw [BitVec.toNat_ofNat]; omega)
  have e6 : BitVec.ofNat 14 (f.disp.toNat + 16384 * f.mod.toNat + 4194304 * f.sc.longCode) = f.disp :=
    BitVec.eq_of_toNat_eq (by rw [BitVec.toNat_ofNat]; omega)
  unfold xOf
  rw [if_neg (by omega), w0Of_firstWord f.w0 hl ho, e1, e2, e3, e4, e5, e6]
  simp only [longOperand_longCode]

/-- Layout XT gives its fields back (R32). -/
theorem xtOf_words (f : XT) {len op : Nat} (hl : len < 4) (ho : op < 256) (lit : Option DWord) :
    xtOf (firstWord len op f.w0.head f.w0.body) (16 * f.aux.toNat + 262144 * f.tgt.toNat)
      (16384 * f.mod.toNat + 4194304 * f.si.longCode) lit = some { f with lit := lit } := by
  have e1 : (16384 * f.mod.toNat + 4194304 * f.si.longCode) / 4194304 = f.si.longCode := by omega
  have e2 : BitVec.ofNat 14 ((16 * f.aux.toNat + 262144 * f.tgt.toNat) / 262144) = f.tgt :=
    BitVec.eq_of_toNat_eq (by rw [BitVec.toNat_ofNat]; omega)
  have e3 : BitVec.ofNat 14 ((16 * f.aux.toNat + 262144 * f.tgt.toNat) / 16) = f.aux :=
    BitVec.eq_of_toNat_eq (by rw [BitVec.toNat_ofNat]; omega)
  have e4 : BitVec.ofNat 8 ((16384 * f.mod.toNat + 4194304 * f.si.longCode) / 16384) = f.mod :=
    BitVec.eq_of_toNat_eq (by rw [BitVec.toNat_ofNat]; omega)
  unfold xtOf
  rw [if_neg (by omega), w0Of_firstWord f.w0 hl ho, e1, e2, e3, e4]
  simp only [longOperand_longCode]

/-- A base word with operands gives its fields back (R29, R30). -/
theorem baseOf_b3 (f : B3) {len op : Nat} (hl : len < 4) (ho : op < 256) (h2 : op ≠ 0x02) (h5 : op ≠ 0x05) (h21 : op ≠ 0x21)
    (hd : f.dst.short = true) (ha : f.sa.short = true) (hb : f.sb.short = true) (lit : Option DWord) :
    baseOf op (firstWord len op f.head (f.sb.shortCode + 64 * f.sa.shortCode + 4096 * f.dst.shortCode)) lit
      = some (.b3 { f with lit := lit }) := by
  have l2 := shortCode_lt ha
  have l3 := shortCode_lt hb
  have hw := firstWord_body (body := f.sb.shortCode + 64 * f.sa.shortCode + 4096 * f.dst.shortCode) f.head hl ho
  have hh := headOf_firstWord (body := f.sb.shortCode + 64 * f.sa.shortCode + 4096 * f.dst.shortCode) f.head hl ho
  generalize firstWord len op f.head (f.sb.shortCode + 64 * f.sa.shortCode + 4096 * f.dst.shortCode) = x at hw hh
  have e1 : x / 67108864 = f.dst.shortCode := by omega
  have e2 : x / 1048576 % 64 = f.sa.shortCode := by omega
  have e3 : x / 16384 % 64 = f.sb.shortCode := by omega
  simp only [baseOf, h2, h5, h21, or_self, if_false, e1, e2, e3, hh, shortOperand_shortCode hd, shortOperand_shortCode ha, shortOperand_shortCode hb]

/-- A base movi gives its fields back (R29). -/
theorem baseOf_bi (f : BI) (hd : f.dst.short = true) :
    baseOf 0x21 (firstWord 0 0x21 f.head (f.imm.toNat + 4096 * f.dst.shortCode)) none = some (.bi f) := by
  have hw := firstWord_body (len := 0) (op := 0x21) (body := f.imm.toNat + 4096 * f.dst.shortCode) f.head (by omega) (by omega)
  have hh := headOf_firstWord (len := 0) (op := 0x21) (body := f.imm.toNat + 4096 * f.dst.shortCode) f.head (by omega) (by omega)
  generalize firstWord 0 0x21 f.head (f.imm.toNat + 4096 * f.dst.shortCode) = x at hw hh
  have e1 : x / 67108864 = f.dst.shortCode := by omega
  have e2 : BitVec.ofNat 12 (x / 16384) = f.imm := BitVec.eq_of_toNat_eq (by rw [BitVec.toNat_ofNat]; omega)
  simp [baseOf, e1, e2, hh, shortOperand_shortCode hd]

/-- A base branch gives its fields back (R29). -/
theorem baseOf_bt (f : BT) {op : Nat} (h : op = 0x02 ∨ op = 0x05) :
    baseOf op (firstWord 0 op f.head f.tgt.toNat) none = some (.bt f) := by
  have ho : op < 256 := by omega
  have hw := firstWord_body (len := 0) (body := f.tgt.toNat) f.head (by omega) ho
  have hh := headOf_firstWord (len := 0) (body := f.tgt.toNat) f.head (by omega) ho
  generalize firstWord 0 op f.head f.tgt.toNat = x at hw hh
  have e1 : x / 268435456 = 0 := by omega
  have e2 : BitVec.ofNat 14 (x / 16384) = f.tgt := BitVec.eq_of_toNat_eq (by rw [BitVec.toNat_ofNat]; omega)
  simp [baseOf, h, e1, e2, hh]

/-! ### The opcode map -/

/-- The opcode map and the encoder's view of an instruction agree, constructor by constructor (R49, R55). -/
theorem Instr.view_spec {i : Instr} {op : Nat} {f : Form} (h : i.view = some (op, f)) :
    op < 208 ∧ assigned op = true ∧ ofForm op f = some i ∧ i.wellFormed = formOk op f := by
  cases i <;> cases h <;> exact ⟨by decide, rfl, rfl, rfl⟩

theorem rowOf_branch {op : Nat} (h2 : 2 ≤ op) (h7 : op ≤ 7) (m : Nat) : rowOf op m = none := by
  interval_cases op <;> rfl

theorem op_of_xOk {op : Nat} {f : X} (h : xOk op f = true) : ¬ (2 ≤ op ∧ op ≤ 7) := by
  rintro ⟨h2, h7⟩
  simp [xOk, rowOf_branch h2 h7] at h

theorem b3Ok_iff {op : Nat} {f : B3} : b3Ok op f = true ↔
    (∃ r, rowOf op 0 = some r ∧ r.base = true) ∧ f.dst.short = true ∧ f.sa.short = true ∧ f.sb.short = true ∧ xOk op (f.toX op) = true := by
  unfold b3Ok
  cases rowOf op 0 <;> simp [and_assoc]

theorem hasBase_of_row {op : Nat} {r : Row} (h : rowOf op 0 = some r) (hb : r.base = true) : hasBase op = true := by
  simp [hasBase, h, hb]

/-! ### Words -/

/-- What the encoder has to give for a form: words that the decoder reads back as that form (R25 to R39). -/
structure Encoded (op : Nat) (f : Form) (ws : List Nat) : Prop where
  form : formOf op ws = some f
  first : ∃ w t, ws = w :: t ∧ w / 4 % 256 = op ∧ ws.length = lenWords (w % 4) ∧ ((w % 4 = 0 ∨ w % 4 = 2) → hasBase op = true)
  words : ∀ w ∈ ws, w < 2 ^ 32

theorem litWords_lt (lit : Option DWord) : ∀ w ∈ litWords lit, w < 2 ^ 32 := by
  cases lit with
  | none => simp [litWords]
  | some l => simp [litWords]; omega

/-- An extended form, with its literal words if it has them, whose words 1 and 2 are `w1` and `w2` (R25, R31). -/
theorem encoded_ext {op w1 w2 : Nat} {h : W0} {g : Option DWord → Form} (ho : op < 256) (h1 : w1 < 2 ^ 32) (h2 : w2 < 2 ^ 32)
    (hg : ∀ len lit, len < 4 → extOf op (firstWord len op h.head h.body) w1 w2 lit = some (g lit)) (lit : Option DWord) :
    Encoded op (g lit) ([firstWord (if lit.isSome then 3 else 1) op h.head h.body, w1, w2] ++ litWords lit) := by
  have hf (len : Nat) (hl : len < 4) := firstWord_lt (len := len) h.head hl ho h.body_lt
  have e1 : firstWord 1 op h.head h.body % 4 = 1 := firstWord_len _ (by decide)
  have e3 : firstWord 3 op h.head h.body % 4 = 3 := firstWord_len _ (by decide)
  cases lit with
  | none =>
    change Encoded op _ [firstWord 1 op h.head h.body, w1, w2]
    refine ⟨?_, ⟨_, _, rfl, firstWord_op _ (by decide) ho, by rw [e1]; rfl, by omega⟩, ?_⟩
    · simp only [formOf, e1, if_true, hg 1 none (by decide)]
    · simpa using ⟨hf 1 (by decide), h1, h2⟩
  | some l =>
    change Encoded op _ [firstWord 3 op h.head h.body, w1, w2, l.toNat % 4294967296, l.toNat / 4294967296]
    refine ⟨?_, ⟨_, _, rfl, firstWord_op _ (by decide) ho, by rw [e3]; rfl, by omega⟩, ?_⟩
    · simp only [formOf, litOf_words, hg 3 (some l) (by decide)]
    · simp only [List.mem_cons, List.not_mem_nil, or_false, forall_eq_or_imp, forall_eq]
      exact ⟨hf 3 (by decide), h1, h2, by omega, by omega⟩

theorem encoded_x {op : Nat} (f : X) (ho : op < 256) (h : xOk op f = true) : Encoded op (.x f) (encodeForm op (.x f)) := by
  have hb := longCode_lt f.sb
  have ha := longCode_lt f.sa
  have hd := longCode_lt f.dst
  have hc := longCode_lt f.sc
  exact encoded_ext (g := fun lit => .x { f with lit := lit }) ho (by omega) (by omega)
    (fun len lit hl => by simp [extOf, op_of_xOk h, xOf_words f hl ho]) f.lit

theorem encoded_xt {op : Nat} (f : XT) (h : 2 ≤ op ∧ op ≤ 7) : Encoded op (.xt f) (encodeForm op (.xt f)) := by
  have hi := longCode_lt f.si
  have ho : op < 256 := by omega
  exact encoded_ext (g := fun lit => .xt { f with lit := lit }) ho (by omega) (by omega)
    (fun len lit hl => by simp [extOf, h, xtOf_words f hl ho]) f.lit

/-- A base word without a literal (R25, R29). -/
theorem encoded_base {op body : Nat} {h : Head} {f : Form} (ho : op < 256) (hb : body < 2 ^ 18) (hh : hasBase op = true)
    (hf : baseOf op (firstWord 0 op h body) none = some f) : Encoded op f [firstWord 0 op h body] :=
  ⟨hf, ⟨_, _, rfl, firstWord_op _ (by decide) ho, by rw [firstWord_len _ (by decide)]; rfl, fun _ => hh⟩,
    by simpa using firstWord_lt h (by decide) ho hb⟩

theorem encoded_b3 {op : Nat} (f : B3) (ho : op < 256) (h21 : op ≠ 0x21) (h : b3Ok op f = true) :
    Encoded op (.b3 f) (encodeForm op (.b3 f)) := by
  obtain ⟨⟨r, hr, hbase⟩, hd, ha, hb, hx⟩ := b3Ok_iff.1 h
  have hn := op_of_xOk hx
  have hh := hasBase_of_row hr hbase
  have ld := shortCode_lt hd
  have la := shortCode_lt ha
  have lb := shortCode_lt hb
  have hf (len : Nat) (hl : len < 4) (lit : Option DWord) := baseOf_b3 f hl ho (by omega) (by omega) h21 hd ha hb lit
  cases hl : f.lit with
  | none =>
    have e : encodeForm op (.b3 f) = [firstWord 0 op f.head (f.sb.shortCode + 64 * f.sa.shortCode + 4096 * f.dst.shortCode)] := by
      simp [encodeForm, hl, litWords]
    rw [e]
    exact encoded_base ho (by omega) hh (by rw [hf 0 (by decide), ← hl])
  | some l =>
    have e : encodeForm op (.b3 f) = firstWord 2 op f.head (f.sb.shortCode + 64 * f.sa.shortCode + 4096 * f.dst.shortCode)
        :: litWords (some l) := by simp [encodeForm, hl]
    have hw := firstWord_lt (len := 2) (body := f.sb.shortCode + 64 * f.sa.shortCode + 4096 * f.dst.shortCode) f.head (by decide) ho (by omega)
    have e2 : firstWord 2 op f.head (f.sb.shortCode + 64 * f.sa.shortCode + 4096 * f.dst.shortCode) % 4 = 2 := firstWord_len _ (by decide)
    rw [e]
    refine ⟨?_, ⟨_, _, rfl, firstWord_op _ (by decide) ho, by rw [e2]; rfl, fun _ => hh⟩, ?_⟩
    · simp only [litWords, formOf, e2, litOf_words, hf 2 (by decide), ← hl]
      rfl
    · simp only [List.mem_cons, forall_eq_or_imp]
      exact ⟨hw, litWords_lt (some l)⟩

/-- The words that the encoder gives for a form that satisfies R55 hold that form. -/
theorem encoded_form {op : Nat} {f : Form} (ho : op < 256) (h : formOk op f = true) : Encoded op f (encodeForm op f) := by
  cases f with
  | x f => exact encoded_x f ho h
  | xt f =>
    have h' : (2 ≤ op ∧ op ≤ 7) ∧ xtOk op f = true := by simpa [formOk] using h
    exact encoded_xt f h'.1
  | b3 f =>
    have h' : op ≠ 0x21 ∧ b3Ok op f = true := by simpa [formOk] using h
    exact encoded_b3 f ho h'.1 h'.2
  | bi f =>
    obtain ⟨rfl, hd, -⟩ : op = 0x21 ∧ f.dst.short = true ∧ xOk 0x21 f.toX = true := by simpa [formOk, biOk] using h
    have hl := shortCode_lt hd
    exact encoded_base ho (by omega) rfl (baseOf_bi f hd)
  | bt f =>
    have h' : (op = 0x02 ∨ op = 0x05) ∧ xtOk op f.toXT = true := by simpa [formOk] using h
    exact encoded_base ho (by omega) (by simp only [hasBase]; rcases h'.1 with rfl | rfl <;> rfl) (baseOf_bt f h'.1)

/-! ### Bytes -/

theorem leNat_natLE_word {w : Nat} (h : w < 2 ^ 32) : leNat (natLE 4 w) = w := by
  simp only [natLE, leNat, BitVec.toNat_ofNat]
  omega

/-- Words written out in bytes are read back, whatever follows them (R5). -/
theorem wordsOf_bytesOf {ws : List Nat} (h : ∀ w ∈ ws, w < 2 ^ 32) (rest : List Byte) :
    wordsOf (bytesOf ws ++ rest) = ws ++ wordsOf rest := by
  induction ws with
  | nil => rfl
  | cons w ws ih =>
    have hw := leNat_natLE_word (h w (by simp))
    have e : bytesOf (w :: ws) ++ rest = natLE 4 w ++ (bytesOf ws ++ rest) := by simp [bytesOf]
    rw [e, List.cons_append, ← ih fun x hx => h x (by simp [hx])]
    exact congrArg (· :: _) hw

/-- Decoding what the encoder gives for a form, whatever follows it (R25, R55). -/
theorem decode_encoded {op : Nat} {f : Form} {ws : List Nat} {i : Instr} (h : Encoded op f ws) (ha : assigned op = true)
    (hok : formOk op f = true) (hi : ofForm op f = some i) (rest : List Byte) : decode (bytesOf ws ++ rest) = .ok i := by
  obtain ⟨w, t, rfl, hop, hlen, hbase⟩ := h.first
  have hb : ((w % 4 = 0 || w % 4 = 2) && !hasBase op) = false := by
    by_cases hc : w % 4 = 0 ∨ w % 4 = 2
    · simp [hbase hc]
    · simp at hc; simp [hc]
  have hs : ¬ (w :: (t ++ wordsOf rest)).length < lenWords (w % 4) := by rw [← hlen]; simp
  have ht : (w :: (t ++ wordsOf rest)).take (lenWords (w % 4)) = w :: t := by rw [← hlen]; simp
  rw [decode, wordsOf_bytesOf h.words, List.cons_append, decodeWords]
  simp only [hop, ha, hb, Bool.not_true, Bool.or_false, Bool.false_eq_true, if_false, hs, ht, h.form, hok, hi, if_true]

theorem Encoded.length {op : Nat} {f : Form} {ws : List Nat} (h : Encoded op f ws) : ws.length ∈ [1, 3, 5] := by
  obtain ⟨w, t, -, -, hlen, -⟩ := h.first
  rw [hlen, lenWords]
  split
  · simp
  · split <;> simp

/-- Settles O59: the encoder's words hold the form, and the opcode map gives the instruction back. -/
theorem decodeOfEncode : Obligations.DecodeOfEncode := by
  intro i op f hv hw
  obtain ⟨ho, ha, hi, hwf⟩ := Instr.view_spec hv
  have hok : formOk op f = true := hwf ▸ hw
  have e : encode i = encodeForm op f := by simp [encode, hv]
  have h := encoded_form (by omega) hok
  rw [e]
  exact ⟨decode_encoded h ha hok hi, h.length, h.words⟩

theorem decodesTo_of_encode {i : Instr} {op : Nat} {f : Form} {ws : List Nat} (hv : i.view = some (op, f)) (hw : i.wellFormed = true)
    (he : encode i = ws) : decodesTo ws i := he ▸ (decodeOfEncode i op f hv hw).1

/-- Settles O58: the words are what the encoder gives for well-formed instructions. -/
theorem decodeWords_tables : Obligations.DecodeWords := by
  unfold Obligations.DecodeWords
  intro w0 x b
  refine ⟨?_, ?_, ?_, ?_, ?_, ?_, ?_, ?_, ?_, ?_⟩ <;> exact decodesTo_of_encode rfl (by decide) (by decide)

end Sys2Proof
end

section
/-! Rounding to a multiple of a power of two (R35, R172). -/

namespace Sys2Proof

open Machine

/-- The discarded part of a magnitude compared with one half of the unit `d`: 0 none, 1 below, 2 equal, 3 above. -/
def halfOf (r d : Nat) : Nat := if r = 0 then 0 else if 2 * r < d then 1 else if 2 * r = d then 2 else 3

theorem quotient_fine {m : Nat} {e q : Int} (h : q ≤ e) : quotient m e q = (m * 2 ^ (e - q).toNat, 0, 0) := by
  unfold quotient
  by_cases hm : m = 0
  · simp [hm]
  · rw [if_neg hm, if_pos h]

/-- Below the unit 2^q a magnitude splits into its multiple and the part discarded, also where the shift is past all its bits. -/
theorem quotient_coarse {m : Nat} {e q : Int} (h : e < q) :
    (quotient m e q).1 = m / 2 ^ (q - e).toNat ∧ (quotient m e q).2.1 = halfOf (m % 2 ^ (q - e).toNat) (2 ^ (q - e).toNat) := by
  unfold quotient
  by_cases hm : m = 0
  · simp [hm, halfOf]
  rw [if_neg hm, if_neg (by omega)]
  dsimp only
  generalize (q - e).toNat = s
  split
  · next hs =>
    have h1 : m < 2 ^ (log2 m + 1) := Nat.lt_log2_self
    have h2 : 2 ^ (log2 m + 2) ≤ 2 ^ s := Nat.pow_le_pow_right (by decide) (by omega)
    have h3 : 2 * m < 2 ^ s := by rw [Nat.pow_succ] at h2; omega
    have h4 : m < 2 ^ s := by omega
    simp [halfOf, Nat.div_eq_of_lt h4, Nat.mod_eq_of_lt h4, hm, h3]
  · exact ⟨rfl, rfl⟩

theorem halfOf_cases (r d : Nat) : (halfOf r d = 0 ∧ r = 0) ∨ (halfOf r d = 1 ∧ 0 < r ∧ 2 * r < d) ∨ (halfOf r d = 2 ∧ 0 < r ∧ 2 * r = d)
    ∨ (halfOf r d = 3 ∧ 0 < r ∧ d < 2 * r) := by
  unfold halfOf
  split
  · simp [*]
  · split
    · simp [*]; omega
    · split
      · simp [*]; omega
      · simp; omega

theorem halfOf_eq_zero (r d : Nat) : halfOf r d = 0 ↔ r = 0 := by
  rcases halfOf_cases r d with ⟨e, h⟩ | ⟨e, h⟩ | ⟨e, h⟩ | ⟨e, h⟩ <;> rw [e] <;> omega

/-- The step that each mode takes from `a` whole units past which a rest `r` of the unit `d` is discarded: 0 or 1 unit. -/
theorem step_of_mode (mode : RMode) (neg : Bool) (a r d x y b : Nat) (hr : r < d)
    (hb : b = (stepAway mode neg (a % 2 = 1) (halfOf r d) x y).toNat) :
    b ≤ 1 ∧ (r = 0 → b = 0)
    ∧ (mode = .rne → 2 * (r - b * d) ≤ d ∧ 2 * (b * d - r) ≤ d ∧ (2 * r = d → (a + b) % 2 = 0))
    ∧ (mode = .rna → 2 * (r - b * d) ≤ d ∧ 2 * (b * d - r) ≤ d ∧ (2 * r = d → b = 1))
    ∧ (mode = .rtz → b = 0)
    ∧ (mode = .rdn → if neg then r ≤ b * d else b = 0)
    ∧ (mode = .rup → if neg then b = 0 else r ≤ b * d) := by
  have hh := halfOf_cases r d
  generalize halfOf r d = half at hb hh
  subst hb
  refine ⟨Bool.toNat_le _, ?_, ?_, ?_, ?_, ?_, ?_⟩
  · intro h
    obtain ⟨rfl, -⟩ : half = 0 ∧ r = 0 := by omega
    cases mode <;> simp [stepAway]
  · rintro rfl
    obtain ⟨rfl, h⟩ | ⟨rfl, h⟩ | ⟨rfl, h⟩ | ⟨rfl, h⟩ := hh
    case inr.inr.inl => by_cases ho : a % 2 = 1 <;> simp [stepAway, ho] <;> omega
    all_goals simp [stepAway]; omega
  · rintro rfl
    obtain ⟨rfl, h⟩ | ⟨rfl, h⟩ | ⟨rfl, h⟩ | ⟨rfl, h⟩ := hh <;> simp [stepAway] <;> omega
  · rintro rfl; rfl
  · rintro rfl
    cases neg
    · rfl
    · obtain ⟨rfl, h⟩ | ⟨rfl, h⟩ | ⟨rfl, h⟩ | ⟨rfl, h⟩ := hh <;> simp [stepAway] <;> omega
  · rintro rfl
    cases neg
    · obtain ⟨rfl, h⟩ | ⟨rfl, h⟩ | ⟨rfl, h⟩ | ⟨rfl, h⟩ := hh <;> simp [stepAway] <;> omega
    · rfl

/-- Settles O7: the magnitude splits into whole units and a rest, and each mode steps by no unit or by one. -/
theorem rounding : Obligations.Rounding := by
  intro mode neg m e q r k
  refine ⟨fun h => ?_, fun h => ?_⟩
  · have hq := quotient_fine (m := m) h
    have h0 : stepAway mode neg (decide (m * 2 ^ (e - q).toNat % 2 = 1)) 0 0 r = false := by cases mode <;> simp [stepAway]
    simp [k, roundTo, hq, h0]
  · intro d
    obtain ⟨h1, h2⟩ := quotient_coarse (m := m) h
    have hd : 0 < d := Nat.two_pow_pos _
    change _ = m / d at h1
    change _ = halfOf (m % d) d at h2
    obtain ⟨b, hb⟩ : ∃ b, b = (stepAway mode neg (m / d % 2 = 1) (halfOf (m % d) d) (quotient m e q).2.2 r).toNat := ⟨_, rfl⟩
    have hk : k = m / d + b := by simp only [k, roundTo, h1, h2, hb]
    have hx : (roundTo mode neg m e q r).2 = true ↔ m % d ≠ 0 := by simp [roundTo, h2, halfOf_eq_zero]
    have hm : m = m / d * d + m % d := by rw [Nat.mul_comm]; exact (Nat.div_add_mod m d).symm
    have hkd : k * d = m / d * d + b * d := by rw [hk, Nat.add_mul]
    obtain ⟨b1, b0, hne, hna, htz, hdn, hup⟩ := step_of_mode mode neg (m / d) (m % d) d _ r b (Nat.mod_lt _ hd) hb
    have e1 : m - k * d = m % d - b * d := by omega
    have e2 : k * d - m = b * d - m % d := by omega
    refine ⟨hx, fun h0 => by rw [hk, b0 h0]; rfl, fun _ => by omega, fun hmode => ?_, fun hmode => ?_, fun hmode => ?_, fun hmode => ?_,
      fun hmode => ?_⟩
    · rw [e1, e2, hk]; exact hne hmode
    · rw [e1, e2]
      obtain ⟨n1, n2, n3⟩ := hna hmode
      refine ⟨n1, n2, fun ht => ?_⟩
      rw [n3 ht] at hkd
      omega
    · rw [hkd, htz hmode]; omega
    · have := hdn hmode
      cases neg
      · rw [if_neg (by decide)] at this ⊢; rw [hkd, this]; omega
      · rw [if_pos rfl] at this ⊢; omega
    · have := hup hmode
      cases neg
      · rw [if_neg (by decide)] at this ⊢; omega
      · rw [if_pos rfl] at this ⊢; rw [hkd, this]; omega

end Sys2Proof
end

section
/-! Taking a trap: the layout of the trap record (R389), what writing it changes of memory, and trap entry (R390). -/

namespace Sys2Proof

open Machine

/-! ### Lengths of the record's parts -/

@[simp] theorem length_zeros (n : Nat) : (zeros n).length = n := List.length_replicate

theorem length_flatMap_range (n c : Nat) (f : Nat → List Byte) (h : ∀ k, (f k).length = c) :
    ((List.range n).flatMap f).length = c * n := by rw [flatMap_length c f h, List.length_range]

@[simp] theorem length_vecBytes (v : Vec) : (vecBytes v).length = 512 := length_flatMap_range 128 4 _ fun _ => length_natLE _ _

@[simp] theorem length_predBytes (t : Troupe) : (predBytes t).length = 128 := by simp [predBytes]

theorem length_recordEntries (p : Split) : (recordEntries p).length ≤ 7 := by
  simp only [recordEntries, List.length_reverse, List.length_take]
  omega

@[simp] theorem length_shadowBlock (p : Split) : (shadowBlock p).length = 64 := by
  have h := length_recordEntries p
  simp only [shadowBlock, List.length_append, length_natLE, length_zeros, flatMap_length 8 _ fun _ => length_natLE 8 _]
  omega

theorem length_shadowSlot (p : Split) (i : Nat) : (shadowSlot p i).length ≤ 1024 := by
  have h := length_recordEntries p
  have hl (e : Shadow × List Prior) : (shadowLane e.1 e.2 i).length = 132 := by
    rw [shadowLane, List.length_append, length_natLE, length_flatMap_range 32 4 _ fun k => ?_]
    split
    · exact length_natLE _ _
    · rfl
  rw [shadowSlot, flatMap_length 132 _ hl]
  omega

/-- A frame's field of a split-table entry (R82). -/
def frameBytes (p : Split) (k : Nat) : List Byte :=
  match p.frames[k]? with
  | some f => natLE 4 f.rcv.toNat ++ natLE 2 f.forkId.toNat ++ zeros 2 ++ natLE 8 f.wr.toNat
  | none => zeros 16

/-- The scalar registers' field of a split-table entry (R82). -/
def scalBytes (p : Split) : List Byte := (List.range 64).flatMap fun k => natLE 4 (p.scal.get k).toNat

theorem splitBytes_parts (p : Split) : splitBytes p = natLE 16 p.mask.toNat ++ natLE 4 p.pc.toNat
    ++ natLE 4 (p.state.toNat + 8 * p.infull.toNat + 16 * p.frames.length) ++ natLE 16 p.fsave.toNat ++ zeros 24
    ++ (List.range 16).flatMap (frameBytes p) ++ scalBytes p ++ zeros 448 := rfl

theorem length_frameBytes (p : Split) (k : Nat) : (frameBytes p k).length = 16 := by
  unfold frameBytes
  split <;> simp [length_natLE]

theorem length_frames (p : Split) : ((List.range 16).flatMap (frameBytes p)).length = 256 := length_flatMap_range 16 16 _ (length_frameBytes p)

@[simp] theorem length_scalBytes (p : Split) : (scalBytes p).length = 256 := length_flatMap_range 64 4 _ fun _ => length_natLE _ _

@[simp] theorem length_splitBytes (p : Split) : (splitBytes p).length = 1024 := by
  simp only [splitBytes_parts, List.length_append, length_natLE, length_zeros, length_frames, length_scalBytes]

@[simp] theorem length_trapRecord (t : Troupe) (ent : Nat) (p : Split) (x : TrapInfo) (a : TrapAt) : (trapRecord t ent p x a).length = 4096 := by
  simp [trapRecord, length_natLE]

/-! ### Fields of the record -/

/-- The bytes of a part of a list of parts: the parts before it take up the offset. -/
theorem part_at {r pre x post : List Byte} {off n : Nat} (h : r = pre ++ (x ++ post)) (ho : pre.length = off) (hn : x.length = n) :
    (r.drop off).take n = x := by
  subst h ho hn
  rw [List.drop_left, List.take_left]

/-- A field inside a part. -/
theorem part_in {r x : List Byte} {off len : Nat} (h : (r.drop off).take len = x) (o n : Nat) (hn : o + n ≤ len) :
    (r.drop (off + o)).take n = (x.drop o).take n := by
  subst h
  rw [List.drop_take, List.take_take, List.drop_drop, Nat.min_eq_left (by omega)]

section

variable (t : Troupe) (ent : Nat) (p : Split) (x : TrapInfo) (a : TrapAt)

/-- The first eight bytes of the record, cause to ILEN (R389). -/
def recordCodes : List Byte :=
  [BitVec.ofNat 8 x.cause, BitVec.ofNat 8 t.sup.toNat, BitVec.ofNat 8 ent, BitVec.ofNat 8 x.action,
   BitVec.ofNat 8 (a.flags + 2 * x.sysc.toNat), BitVec.ofNat 8 a.win, BitVec.ofNat 8 a.ilen, 0]

/-- The parts of the record that the trap itself gives: cause to DONE (R389). -/
def recordHead : List Byte :=
  recordCodes t ent x a ++ natLE 4 a.pc.toNat ++ zeros 4 ++ natLE 8 x.addr ++ natLE 8 x.info ++ natLE 16 a.active.toNat ++ natLE 16 x.done.toNat

@[simp] theorem length_recordHead : (recordHead t ent x a).length = 64 := by simp [recordHead, recordCodes, length_natLE]

theorem trapRecord_parts : trapRecord t ent p x a = recordHead t ent x a ++ (shadowBlock p ++ (splitBytes p ++ (vecBytes (t.vec .latI)
    ++ (vecBytes (t.vec .latV) ++ (predBytes t ++ ((a.insn ++ zeros 20).take 20 ++ zeros (4096 - 0x914))))))) := by
  simp only [trapRecord, recordHead, recordCodes, List.append_assoc]

theorem record_head : ((trapRecord t ent p x a).drop 0).take 64 = recordHead t ent x a :=
  part_at (pre := []) (trapRecord_parts t ent p x a) rfl (length_recordHead t ent x a)

theorem record_split : ((trapRecord t ent p x a).drop 0x080).take 1024 = splitBytes p :=
  part_at (pre := recordHead t ent x a ++ shadowBlock p) (by rw [trapRecord_parts, List.append_assoc]) (by simp) (by simp)

theorem record_latI : ((trapRecord t ent p x a).drop 0x480).take 512 = vecBytes (t.vec .latI) :=
  part_at (pre := recordHead t ent x a ++ shadowBlock p ++ splitBytes p) (by simp only [trapRecord_parts, List.append_assoc]; rfl) (by simp) (by simp)

theorem record_latV : ((trapRecord t ent p x a).drop 0x680).take 512 = vecBytes (t.vec .latV) :=
  part_at (pre := recordHead t ent x a ++ shadowBlock p ++ splitBytes p ++ vecBytes (t.vec .latI))
    (by simp only [trapRecord_parts, List.append_assoc]; rfl) (by simp) (by simp)

theorem record_preds : ((trapRecord t ent p x a).drop 0x880).take 128 = predBytes t :=
  part_at (pre := recordHead t ent x a ++ shadowBlock p ++ splitBytes p ++ vecBytes (t.vec .latI) ++ vecBytes (t.vec .latV))
    (by simp only [trapRecord_parts, List.append_assoc]; rfl) (by simp) (by simp)

theorem record_insn (h : a.insn.length ≤ 20) : ((trapRecord t ent p x a).drop 0x900).take a.insn.length = a.insn := by
  have e : ((trapRecord t ent p x a).drop 0x900).take 20 = (a.insn ++ zeros 20).take 20 :=
    part_at (pre := recordHead t ent x a ++ shadowBlock p ++ splitBytes p ++ vecBytes (t.vec .latI) ++ vecBytes (t.vec .latV) ++ predBytes t)
      (by simp only [trapRecord_parts, List.append_assoc]; rfl) (by simp) (by simp)
  have e2 := part_in e 0 a.insn.length (by omega)
  rw [Nat.add_zero, List.drop_zero] at e2
  rw [e2, List.take_take, Nat.min_eq_left h, List.take_left]

/-! ### Numbers in the record -/

/-- Entry `k` of a row of 4-byte words. -/
theorem word_at (f : Nat → Nat) (n k : Nat) (h : k < n) : (((List.range n).flatMap fun k => natLE 4 (f k)).drop (4 * k)).take 4 = natLE 4 (f k) := by
  have hf (k : Nat) : (natLE 4 (f k)).length = 4 := length_natLE _ _
  apply List.ext_getElem?
  intro j
  by_cases hj : j < 4
  · rw [List.getElem?_take_of_lt hj, List.getElem?_drop, flatMap_get 4 _ hf _ k j (by simpa) hj, List.getElem_range]
  · rw [List.getElem?_eq_none (by simp; omega), List.getElem?_eq_none (by rw [hf]; omega)]

/-- A lane's word of a register in the record (R389). -/
theorem vecWord_at (v : Vec) (l : Nat) (h : l < 128) : ((vecBytes v).drop (4 * l)).take 4 = natLE 4 (v.at_ l).toNat := word_at _ 128 l h

theorem split_mask : ((splitBytes p).drop 0).take 16 = natLE 16 p.mask.toNat :=
  part_at (pre := []) (by simp only [splitBytes_parts, List.append_assoc, List.nil_append]; rfl) rfl (length_natLE _ _)

theorem split_pc : ((splitBytes p).drop 16).take 4 = natLE 4 p.pc.toNat :=
  part_at (pre := natLE 16 p.mask.toNat) (by simp only [splitBytes_parts, List.append_assoc]; rfl) (length_natLE _ _) (length_natLE _ _)

theorem split_scal : ((splitBytes p).drop 320).take 256 = scalBytes p :=
  part_at (pre := natLE 16 p.mask.toNat ++ natLE 4 p.pc.toNat ++ natLE 4 (p.state.toNat + 8 * p.infull.toNat + 16 * p.frames.length)
    ++ natLE 16 p.fsave.toNat ++ zeros 24 ++ (List.range 16).flatMap (frameBytes p)) (by simp only [splitBytes_parts, List.append_assoc]; rfl)
    (by simp only [List.length_append, length_natLE, length_zeros, length_frames]) (length_scalBytes p)

theorem head_field {o n v : Nat} (hn : o + n ≤ 64) (h : ((recordHead t ent x a).drop o).take n = natLE n v) :
    leNat (((trapRecord t ent p x a).drop o).take n) = v % 256 ^ n := by
  have e := part_in (record_head t ent p x a) o n hn
  rw [Nat.zero_add] at e
  rw [e, h, leNat_natLE]

theorem split_field {o n v : Nat} (hn : o + n ≤ 1024) (h : ((splitBytes p).drop o).take n = natLE n v) :
    leNat (((trapRecord t ent p x a).drop (0x080 + o)).take n) = v % 256 ^ n := by
  rw [part_in (record_split t ent p x a) o n hn, h, leNat_natLE]

theorem scal_field {k : Nat} (h : k < 64) : ((splitBytes p).drop (320 + 4 * k)).take 4 = natLE 4 (p.scal.get k).toNat := by
  rw [part_in (split_scal p) (4 * k) 4 (by omega)]
  exact word_at _ 64 k h

/-- A number of seven bits, each from a word's lowest bit. -/
theorem testBit_bits (f : Nat → Word) {k : Nat} (h : k < 7) :
    (BitVec.ofNat 8 ((List.range 7).map fun k => (f k).toNat % 2 * 2 ^ k).sum).toNat.testBit k = (f k).getLsbD 0 := by
  have hb (j : Nat) : (f j).getLsbD 0 = decide ((f j).toNat % 2 = 1) := by
    rw [BitVec.getLsbD, Nat.testBit_eq_decide_div_mod_eq, Nat.pow_zero, Nat.div_one]
  rw [hb, BitVec.toNat_ofNat, Nat.testBit_eq_decide_div_mod_eq, decide_eq_decide]
  simp only [List.range_succ, List.range_zero, List.nil_append, List.map_append, List.map_cons, List.map_nil, List.sum_append, List.sum_cons,
    List.sum_nil]
  interval_cases k <;> omega

theorem pred_field {l k : Nat} (hl : l < 128) (hk : k < 7) :
    (leNat (((trapRecord t ent p x a).drop (0x880 + l)).take 1)).testBit k = ((t.vec (.p k)).at_ l).getLsbD 0 := by
  have e : ((predBytes t).drop l).take 1
      = [BitVec.ofNat 8 ((List.range 7).map fun k => ((t.vec (.p k)).at_ l).toNat % 2 * 2 ^ k).sum] := by
    rw [List.drop_eq_getElem_cons (by simpa using hl)]
    simp [predBytes]
  rw [part_in (record_preds t ent p x a) l 1 (by omega), e]
  refine Eq.trans ?_ (testBit_bits (fun k => (t.vec (.p k)).at_ l) hk)
  simp [leNat]

/-- A byte among the first eight of the record. -/
theorem head_byte {o v : Nat} (ho : o < 8) (h : ((recordCodes t ent x a).drop o).take 1 = natLE 1 v) :
    ((recordHead t ent x a).drop o).take 1 = natLE 1 v := by
  have e : ((recordHead t ent x a).drop 0).take 8 = recordCodes t ent x a :=
    part_at (pre := []) (by simp only [recordHead, List.append_assoc, List.nil_append]; rfl) rfl rfl
  have e2 := part_in e o 1 (by omega)
  rw [Nat.zero_add] at e2
  rw [e2, h]

theorem head_pc : ((recordHead t ent x a).drop 0x008).take 4 = natLE 4 a.pc.toNat :=
  part_at (pre := recordCodes t ent x a) (by simp only [recordHead, List.append_assoc]; rfl) rfl (length_natLE _ _)

theorem head_addr : ((recordHead t ent x a).drop 0x010).take 8 = natLE 8 x.addr :=
  part_at (pre := recordCodes t ent x a ++ natLE 4 a.pc.toNat ++ zeros 4) (by simp only [recordHead, List.append_assoc]; rfl)
    (by simp [recordCodes, length_natLE]) (length_natLE _ _)

theorem head_info : ((recordHead t ent x a).drop 0x018).take 8 = natLE 8 x.info :=
  part_at (pre := recordCodes t ent x a ++ natLE 4 a.pc.toNat ++ zeros 4 ++ natLE 8 x.addr) (by simp only [recordHead, List.append_assoc]; rfl)
    (by simp [recordCodes, length_natLE]) (length_natLE _ _)

theorem head_active : ((recordHead t ent x a).drop 0x020).take 16 = natLE 16 a.active.toNat :=
  part_at (pre := recordCodes t ent x a ++ natLE 4 a.pc.toNat ++ zeros 4 ++ natLE 8 x.addr ++ natLE 8 x.info)
    (by simp only [recordHead, List.append_assoc]; rfl) (by simp [recordCodes, length_natLE]) (length_natLE _ _)

theorem head_done : ((recordHead t ent x a).drop 0x030).take 16 = natLE 16 x.done.toNat :=
  part_at (pre := recordCodes t ent x a ++ natLE 4 a.pc.toNat ++ zeros 4 ++ natLE 8 x.addr ++ natLE 8 x.info ++ natLE 16 a.active.toNat)
    (post := []) (by simp only [recordHead, List.append_assoc, List.append_nil]) (by simp [recordCodes, length_natLE]) (length_natLE _ _)

/-- The record has the layout of R389. -/
theorem trapRecord_layout : let r := trapRecord t ent p x a
      let at_ (off n v : Nat) : Prop := leNat ((r.drop off).take n) = v % 256 ^ n
      r.length = 4096 ∧ at_ 0x000 1 x.cause ∧ at_ 0x001 1 (if t.tstat.getLsbD 16 then 1 else 0) ∧ at_ 0x002 1 ent ∧ at_ 0x003 1 x.action
      ∧ at_ 0x004 1 (a.flags + if x.sysc then 2 else 0) ∧ at_ 0x005 1 a.win ∧ at_ 0x006 1 a.ilen ∧ at_ 0x008 4 a.pc.toNat
      ∧ at_ 0x010 8 x.addr ∧ at_ 0x018 8 x.info ∧ at_ 0x020 16 a.active.toNat ∧ at_ 0x030 16 x.done.toNat
      ∧ at_ 0x080 16 p.mask.toNat ∧ at_ 0x090 4 p.pc.toNat ∧ (∀ k, k < 64 → at_ (0x1C0 + 4 * k) 4 (p.scal.get k).toNat)
      ∧ (∀ l, l < 128 → at_ (0x480 + 4 * l) 4 ((t.vec .latI).at_ l).toNat ∧ at_ (0x680 + 4 * l) 4 ((t.vec .latV).at_ l).toNat
          ∧ ∀ k, k < 7 → (leNat ((r.drop (0x880 + l)).take 1)).testBit k = ((t.vec (.p k)).at_ l).getLsbD 0)
      ∧ (a.insn.length ≤ 20 → (r.drop 0x900).take a.insn.length = a.insn) := by
  intro r at_
  have code {o v : Nat} (ho : o < 8) (h : ((recordCodes t ent x a).drop o).take 1 = natLE 1 v) :=
    head_field t ent p x a (by omega) (head_byte t ent x a ho h)
  have hsup : (if t.tstat.getLsbD 16 then 1 else 0) = t.sup.toNat := by unfold Troupe.sup; cases t.tstat.getLsbD 16 <;> rfl
  have hsysc : (if x.sysc then 2 else 0) = 2 * x.sysc.toNat := by cases x.sysc <;> rfl
  simp only [at_, r, hsup, hsysc]
  refine ⟨length_trapRecord t ent p x a, code (by decide) rfl, code (by decide) rfl, code (by decide) rfl, code (by decide) rfl,
    code (by decide) rfl, code (by decide) rfl, code (by decide) rfl, head_field t ent p x a (by decide) (head_pc t ent x a),
    head_field t ent p x a (by decide) (head_addr t ent x a), head_field t ent p x a (by decide) (head_info t ent x a),
    head_field t ent p x a (by decide) (head_active t ent x a), head_field t ent p x a (by decide) (head_done t ent x a),
    split_field t ent p x a (o := 0) (by decide) (split_mask p), split_field t ent p x a (o := 16) (by decide) (split_pc p),
    fun k hk => ?_, fun l hl => ⟨?_, ?_, fun k hk => pred_field t ent p x a hl hk⟩, record_insn t ent p x a⟩
  · have e := split_field t ent p x a (by omega) (scal_field p hk)
    rwa [show 0x080 + (320 + 4 * k) = 0x1C0 + 4 * k by omega] at e
  · rw [part_in (record_latI t ent p x a) (4 * l) 4 (by omega), vecWord_at _ l hl, leNat_natLE]
  · rw [part_in (record_latV t ent p x a) (4 * l) 4 (by omega), vecWord_at _ l hl, leNat_natLE]

end

/-! ### Writing the record (R390) -/

/-- Only memory, what caches and stacks hold of it, and the agenda differ. -/
def OnlyHomes (s t : State) : Prop := t = { s with mem := t.mem, agenda := t.agenda, cached := t.cached, stackDiff := t.stackDiff }

theorem OnlyHomes.refl (s : State) : OnlyHomes s s := rfl

theorem OnlyHomes.trans {a b c : State} (h : OnlyHomes a b) (k : OnlyHomes b c) : OnlyHomes a c := by
  unfold OnlyHomes at *; rw [k, h]

theorem OnlyHomes.homeWrite (s : State) (pa : Nat) (bs : List Byte) : OnlyHomes s (s.homeWrite pa bs) := by
  unfold OnlyHomes; rw [homeWrite_eq]

section

variable (base : Nat) (p : Split)

/-- Write one lane's data of a split's shadow list (R388). -/
def writeLane (s : State) (i : Nat) : State :=
  if shadowSlot p i = [] then s else s.homeWrite (base + 0x10000 + 1024 * i) (shadowSlot p i)

/-- Write some lanes' data of a split's shadow list. -/
def writeLanes (l : List Nat) (s : State) : State := l.foldl (writeLane base p) s

theorem writeLanes_only (l : List Nat) (s : State) : OnlyHomes s (writeLanes base p l s) :=
  foldl_rel OnlyHomes.refl OnlyHomes.trans (fun s i => by unfold writeLane; split; exacts [.refl s, .homeWrite _ _ _]) l s

/-- The lanes' data lies in its own area. -/
theorem writeLanes_read {l : List Nat} (hl : ∀ i ∈ l, i < 128) {b : Nat} (hb : ¬(base + 0x10000 ≤ b ∧ b < base + 0x30000)) {s : State} (hs : Inv s) :
    (writeLanes base p l s).mem.read b = s.mem.read b := by
  induction l generalizing s with
  | nil => rfl
  | cons i l ih =>
    have hi := hl i (by simp)
    have hn := length_shadowSlot p i
    have ih := @ih fun j hj => hl j (by simp [hj])
    change (writeLanes base p l (writeLane base p s i)).mem.read b = _
    unfold writeLane
    split
    · exact ih hs
    · rw [ih hs.homeWrite, State.homeWrite_mem, Memory.read_write_other _ hs (by omega)]

theorem lanesOf_lt {m : Mask} : ∀ i ∈ lanesOf m, i < 128 := fun _ h => BitVec.lt_of_getLsbD (mem_lanesOf.1 h)

theorem writeTrap_eq (s : State) (rec : List Byte) : s.writeTrap base rec p = writeLanes base p (lanesOf p.mask) (s.homeWrite base rec) := rfl

theorem writeTrap_only (s : State) (rec : List Byte) : OnlyHomes s (s.writeTrap base rec p) :=
  (OnlyHomes.homeWrite s base rec).trans (writeLanes_only base p _ _)

theorem writeTrap_record {s : State} (hs : Inv s) {rec : List Byte} (hr : rec.length = 4096) : (s.writeTrap base rec p).mem.readN base 4096 = rec := by
  have h : (s.writeTrap base rec p).mem.readN base 4096 = (s.homeWrite base rec).mem.readN base 4096 :=
    List.map_congr_left fun i hi => writeLanes_read base p lanesOf_lt (by rw [List.mem_range] at hi; omega) hs.homeWrite
  rw [h, State.homeWrite_mem, ← hr, Memory.readN_write_same _ _ hs]

theorem writeTrap_read {s : State} (hs : Inv s) {rec : List Byte} (hr : rec.length = 4096) {b : Nat} (h1 : ¬(base ≤ b ∧ b < base + 4096))
    (h2 : ¬(base + 0x10000 ≤ b ∧ b < base + 0x30000)) : (s.writeTrap base rec p).mem.read b = s.mem.read b := by
  rw [writeTrap_eq, writeLanes_read base p lanesOf_lt h2 hs.homeWrite, State.homeWrite_mem, Memory.read_write_other _ hs (by omega)]

end

/-! ### Trap entry (R390) -/

namespace Machine

/-- The trapping split at the handler, from some cycle on. -/
def Split.atHandler (c : Context) (from_ : Nat) (p : Split) : Split :=
  { p with frames := [], infull := false, shadow := [], pc := c.tvec, past := false, state := 1, wait := .none, hand := true,
           atRejoin := 0, fell := none, redo := none, run := p.lastRun + 1, lastRun := p.lastRun + 1, earliest := from_ }

/-- A troupe at supervisor level, with the address of its record and the cause in SS0 to SS2. -/
def Troupe.toSup (t : Troupe) (c : Context) (cause : Nat) : Troupe :=
  { t with
    tstat := t.tstat ||| flagLevel
    ss := ((t.ss.set 0 (BitVec.ofNat 32 (trecOf c t.block))).set 1 (BitVec.ofNat 32 (trecOf c t.block / 4294967296))).set 2 (BitVec.ofNat 32 cause) }

theorem enterHandler_eq {s : State} {tid uid cause : Nat} {t : Troupe} {e : Ensemble} {c : Context} (ht : s.troupes.find? tid = some t)
    (he : s.ensembles.find? t.ens = some e) (hc : s.ctxSeen e.core e.ctx = some c) :
    s.enterHandler tid uid cause = { s with
      tick := s.tick + 1
      troupes := s.troupes.put tid ((t.modSplit uid (Split.atHandler c (s.now + Config.pathCycles s.tick + 24))).toSup c cause) } := by
  simp only [State.enterHandler, ht, he, hc]
  rfl

/-- What a trap entry keeps of its troupe before the handler starts. -/
def Work.trapKept (w : Work) (a : TrapAt) : Troupe :=
  { w.T with trapPc := some a.pc, parked := w.T.parked.filter fun q => q.uid ≠ w.S.uid,
             saved := some { uid := w.S.uid, dist := w.S.dist, run := w.S.run, adds := a.adds, written := w.S.shadow, shadow := w.S.shadow },
             pend := w.T.pend.map fun q => { q with kept := true } }

theorem takeTrap_eq {s : State} {w : Work} {c : Context} (hT : s.troupes.find? w.tid = some w.T) (hS : w.T.splits.find? w.ent = some w.S)
    (hE : s.ensembles.find? w.T.ens = some w.E) (h : MayTrap s w c) (x : TrapInfo) (a : TrapAt) :
    s.takeTrap w.tid w.ent x a = .next { s.writeTrap (blockBase c w.T.block) (trapRecord w.T w.ent w.S x a) w.S with
      tick := s.tick + 1
      troupes := s.troupes.put w.tid
        (((w.trapKept a).modSplit w.S.uid (Split.atHandler c (s.now + Config.pathCycles s.tick + 24))).toSup c x.cause) } := by
  obtain ⟨hu, hc, hd, hb, hh⟩ := h
  have hsup : w.T.sup = false := hu
  have hok : ¬ (targetOf (blockBase c w.T.block) ≠ .device ∨ (!s.backed (blockBase c w.T.block)) = true
      ∨ (!s.backed (blockBase c w.T.block + 0x13FFFF)) = true) := by simp [hd.1, hb.1, hb.2]
  have h1 := writeTrap_only (blockBase c w.T.block) w.S s (trapRecord w.T w.ent w.S x a)
  unfold State.takeTrap
  simp only [hT, hS, hE, hc, hsup, Bool.false_eq_true, if_false, if_neg hok, hh, if_true]
  generalize s.writeTrap (blockBase c w.T.block) (trapRecord w.T w.ent w.S x a) w.S = s1 at h1 ⊢
  have e : (s1.modTroupe w.tid fun t => { t with
      trapPc := some a.pc, parked := t.parked.filter fun q => q.uid ≠ w.S.uid,
      saved := some { uid := w.S.uid, dist := w.S.dist, run := w.S.run, adds := a.adds, written := w.S.shadow, shadow := w.S.shadow },
      pend := t.pend.map fun q => { q with kept := true } }) = { s1 with troupes := s.troupes.put w.tid (w.trapKept a) } := by
    rw [h1]
    simp [State.modTroupe, Tab.modify, hT, Work.trapKept]
  rw [e, enterHandler_eq (t := w.trapKept a) (e := w.E) (c := c) (by simp) (by rw [h1]; exact hE) (by rw [h1]; exact hc)]
  rw [h1]
  simp only [Tab.put_put]

theorem takeTrap_trapped {s : State} {w : Work} {c : Context} (hT : s.troupes.find? w.tid = some w.T) (hS : w.T.splits.find? w.ent = some w.S)
    (hE : s.ensembles.find? w.T.ens = some w.E) (h : MayTrap s w c) (x : TrapInfo) (a : TrapAt) :
    ∃ t, s.takeTrap w.tid w.ent x a = .next t ∧ Trapped s w c x a t := by
  let c1 := s.now + Config.pathCycles s.tick + 24
  refine ⟨_, takeTrap_eq hT hS hE h x a, ?_⟩
  constructor
  · refine ⟨((w.trapKept a).modSplit w.S.uid (Split.atHandler c c1)).toSup c x.cause, w.S.atHandler c c1, Tab.find?_put_same _ _ _, ?_, rfl,
      fun k => ?_, rfl, ?_, fun k q hq hn => ?_⟩
    · exact (Troupe.find?_modSplit _ _ _ _).trans (by simp [Work.trapKept, hS])
    · simp only [Troupe.toSup, Store.get_set]
      by_cases h0 : k = 0
      · simp [h0]; rfl
      · by_cases h1 : k = 1
        · simp [h1]; rfl
        · simp [h0, h1]; rfl
    · change s.now + 24 ≤ s.now + _ + 24
      omega
    · exact (Troupe.find?_modSplit _ _ _ _).trans (by simp [Work.trapKept, hq, hn])
  · exact fun hi => writeTrap_record _ _ hi (length_trapRecord _ _ _ _ _)
  · exact fun hi b h1 h2 => writeTrap_read _ _ hi (length_trapRecord _ _ _ _ _) h1 h2
  · exact fun k hk => Tab.find?_put_other _ _ hk
  · have h1 := writeTrap_only (blockBase c w.T.block) w.S s (trapRecord w.T w.ent w.S x a)
    generalize s.writeTrap (blockBase c w.T.block) (trapRecord w.T w.ent w.S x a) w.S = s1 at h1 ⊢
    rw [h1]

/-- What the tables hold of a split that they hold. -/
theorem work_fields {s : State} {tid ent : Nat} {w : Work} (h : s.work tid ent = some w) :
    w.s = s ∧ w.tid = tid ∧ w.ent = ent ∧ w.act = w.S.mask ∧ s.troupes.find? tid = some w.T ∧ w.T.splits.find? ent = some w.S
      ∧ s.ensembles.find? w.T.ens = some w.E := by
  unfold State.work at h
  split at h
  · cases h
  · next t ht =>
    split at h
    · next p e hp he => cases h; exact ⟨rfl, rfl, rfl, rfl, ht, hp, he⟩
    · cases h

theorem work_of_issuer {s : State} {w : Work} (h : s.issuer = some w) : s.cur = some (w.tid, w.ent) ∧ s.work w.tid w.ent = some w := by
  unfold State.issuer at h
  obtain ⟨c, hc, hw⟩ := Option.bind_eq_some_iff.1 h
  obtain ⟨-, h1, h2, -⟩ := work_fields hw
  rw [h1, h2]
  exact ⟨hc, hw⟩

theorem work_traps {s : State} {w : Work} {c : Context} (hw : s.work w.tid w.ent = some w) (h : MayTrap s w c) (x : TrapInfo) (a : TrapAt) :
    ∃ t, s.takeTrap w.tid w.ent x a = .next t ∧ Trapped s w c x a t := by
  obtain ⟨-, -, -, -, hT, hS, hE⟩ := work_fields hw
  exact takeTrap_trapped hT hS hE h x a

/-- An instruction that traps before it has any effect takes that trap, with ACTIVE and DONE of its first issue (R285, R389). -/
theorem trap_traps {n : Ins} {s : State} {w : Work} {c : Context} (hg : gate n s = .go w) (h : MayTrap s w c) (x : TrapInfo) (hx : x.done = 0) :
    ∃ t, w.trap n x = .next t
      ∧ Trapped s w c { x with done := w.done1 } { pc := w.S.pc, ilen := n.ilen, insn := bytesOf n.words, active := w.active1, adds := 1 + n.stall } t := by
  obtain ⟨-, hs, hT, hS, hE, -⟩ := gate_go hg
  subst hs
  have e : w.trap n x = w.s.takeTrap w.tid w.ent { x with done := w.done1 }
      { pc := w.S.pc, ilen := n.ilen, insn := bytesOf n.words, active := w.active1, adds := 1 + n.stall } := by
    unfold Work.trap Work.done1 Work.active1 Ins.bytes
    rw [hx]
    cases w.S.redo <;> simp
  rw [e]
  exact takeTrap_trapped hT hS hE h _ _

theorem trapsTo_of_run {i : Instr} {n : Ins} {x : Work → TrapInfo} (he : ∀ s, exec i s = run n (ifActive fun w => .trap (x w)) s)
    (hx : ∀ w, (x w).done = 0) : trapsTo i n x := by
  intro s w c h hm
  rw [he, run_trap h.1 (ifActive_of h.2)]
  exact trap_traps h.1 hm (x w) (hx w)

end Machine

section

variable {s : State} {w : Work} {c : Context}

/-- The traps of R27, R53 and R70, where no instruction was decoded. -/
theorem fetch_traps (hw : s.issuer = some w) (h : MayTrap s w c) :
    let here (len : Nat) (insn : List Byte) : TrapAt := { pc := w.S.pc, ilen := len, insn := insn, active := w.S.mask }
    let first (i : Instr) (x : TrapInfo) (a : TrapAt) : Prop := ∃ t, exec i s = .next t ∧ Trapped s w c x a t
    (∀ word, let n := lengthOf (BitVec.ofNat 8 word.toNat)
        first (.undefinedInstruction word) { cause := 0x01 } (here n (natLE 4 word.toNat ++ (w.code.drop 4).take (n - 4))))
    ∧ first .fetchOverlayAbsent { cause := 0x0C, info := bvField w.S.pc 27 16 } (here w.fetchLen (w.code.take w.fetchLen))
    ∧ first (.fetchBeyondOverlay false) { cause := 0x01 } (here w.fetchLen (w.code.take w.fetchLen))
    ∧ ∀ n, w.S.fell = some n →
        let pc := BitVec.ofNat 32 (65536 * bvField w.S.pc 27 16 + (65536 + 4 * bvField w.S.pc 15 2 - n) % 65536)
        first (.fetchBeyondOverlay true) { cause := 0x01, info := 1, action := 1 }
          { pc := pc, ilen := n, insn := ((s.codeAt w.E.core w.E.ctx pc).getD []).take n, active := w.S.mask } := by
  obtain ⟨-, hk⟩ := work_of_issuer hw
  have hs : w.s = s := (work_fields hk).1
  have traps (x : TrapInfo) (a : TrapAt) {o : Out} (ho : o = s.takeTrap w.tid w.ent x a) : ∃ t, o = .next t ∧ Trapped s w c x a t :=
    ho ▸ work_traps hk h x a
  refine ⟨fun word => traps _ _ ?_, traps _ _ ?_, traps _ _ ?_, fun n hn => traps _ _ ?_⟩
  · change execUndefinedInstruction word s = _
    simp only [execUndefinedInstruction, hw]
  · change execFetchOverlayAbsent s = _
    simp only [execFetchOverlayAbsent, hw, Work.fetchTrap, hs, ovlOf]
  · change execFetchBeyondOverlay false s = _
    simp only [execFetchBeyondOverlay, hw, Work.fetchTrap, hs]
  · change execFetchBeyondOverlay true s = _
    simp only [execFetchBeyondOverlay, hw, hn]

end

/-- Settles O39: trap entry, the record's layout, and what takes a trap. -/
theorem traps : Obligations.Traps :=
  ⟨fun _ _ _ x a hw h => work_traps hw h x a, fun T ent p x a => trapRecord_layout T ent p x a, fun _ _ _ hw h => fetch_traps hw h,
    fun _ => trapsTo_of_run (fun _ => rfl) fun _ => rfl, fun _ => trapsTo_of_run (fun _ => rfl) fun _ => rfl,
    fun _ => trapsTo_of_run (fun _ => rfl) fun _ => rfl, fun _ => trapsTo_of_run (fun _ => rfl) fun _ => rfl⟩

end Sys2Proof
end

section
/-! What a step does: an event, an issue, a pair, or nothing (R25 to R27, R58, R70, R71, R78, R92, R93). -/

namespace Sys2Proof

open Machine

variable {s s1 : State} {w : Work}

/-! ### Checkpointing is out of the way -/

theorem protects_of_no_cut (h : s.cutting = []) (t : State) : s.protects t = false := by simp [State.protects, h]

theorem orHold_of_no_cut (h : s.cutting = []) (w : Work) (o : Out) : orHold w o s = noted s true o := by
  cases o <;> simp [orHold, noted, protects_of_no_cut h]

theorem runHeld_of_no_cut (h : s.cutting = []) (ev : Ev) :
    (restores ev = false → runHeld runEvent ev s = noted s (writesFor ev) (runEvent ev s))
      ∧ (restores ev = true → runHeld runEvent ev s = runEvent ev s) := by
  unfold runHeld
  cases runEvent ev s <;> simp +contextual [noted, protects_of_no_cut h]

/-! ### Steps -/

theorem step_of_event {ev : Ev} (h : s.following = .event ev s1) : step s = runHeld runEvent ev s1 := by
  unfold step; rw [h]

theorem step_of_idle (h : s.following = .idle s1) : step s = .next s1 := by
  unfold step; rw [h]

theorem step_of_issue {ent : Nat} (h : s.following = .issue ent none s1) : step s = s1.issue exec := by
  unfold step; rw [h]

theorem step_of_pair {ent other : Nat} (h : s.following = .issue ent (some other) s1) : step s = s1.issuePair exec ent other := by
  unfold step; rw [h]

theorem issue_unreported (hw : s.issuer = some w) (hr : w.reported = none) (hc : s.cutting = []) :
    s.issue exec = noted s true (runFetched exec w (s.fetch w) (s.noteFetch w)) := by
  unfold State.issue
  rw [hw]
  dsimp only
  rw [hr]
  exact orHold_of_no_cut hc w _

/-! ### Fetch -/

theorem fetch_decoded {bs : List Byte} {i : Instr} (hc : s.codeOf w = some bs) (hb : bs ≠ []) (hd : decode bs = .ok i) :
    s.fetch w = .instr i := by
  unfold State.fetch
  rw [hc]
  cases bs with
  | nil => exact absurd rfl hb
  | cons b t => dsimp only; rw [hd]

/-- What is run for words that decode to no instruction (R27, R53, R55). -/
def rejected (bs : List Byte) : Reject → Fetched
  | .undefined => .instr (.undefinedInstruction (BitVec.ofNat 32 (leNat (bs.take 4))))
  | .reserved => .reserved
  | .short => .instr (.fetchBeyondOverlay false)

theorem fetch_rejected {bs : List Byte} {r : Reject} (hc : s.codeOf w = some bs) (hb : bs ≠ []) (hd : decode bs = .error r) :
    s.fetch w = rejected bs r := by
  unfold State.fetch
  rw [hc]
  cases bs with
  | nil => exact absurd rfl hb
  | cons b t => dsimp only; rw [hd]; cases r <;> rfl

theorem fetch_absent (hc : s.codeOf w = none) : s.fetch w = .instr .fetchOverlayAbsent := by
  unfold State.fetch; rw [hc]

theorem fetch_beyond (hc : s.codeOf w = some []) : s.fetch w = .instr (.fetchBeyondOverlay w.S.fell.isSome) := by
  unfold State.fetch; rw [hc]

theorem slotOf_of_codeAt {core ctx : Nat} {pc : Word} (h : s.codeAt core ctx pc ≠ none) :
    ∃ k, (s.core core).slotOf ctx (bvField pc 27 16) = some k := by
  unfold State.codeAt Core.codeOf at h
  cases hk : (s.core core).slotOf ctx (bvField pc 27 16) with
  | none => simp [hk] at h
  | some k => exact ⟨k, rfl⟩

theorem not_replayed (h : ∀ p ∈ w.T.parked, ¬(p.uid = w.S.uid ∧ p.go = true)) :
    (w.T.parked.find? fun p => decide (p.uid = w.S.uid) && p.go) = none := by
  rw [List.find?_eq_none]; simpa using h

/-- Without a loop buffer the words are those of the overlay's slot (R70). -/
theorem codeOf_unlooped (h : ∀ p ∈ w.T.parked, ¬(p.uid = w.S.uid ∧ p.go = true)) (hp : w.S.past = false)
    (hl : (s.core w.E.core).loops.find? w.T.quarter = none) : s.codeOf w = s.codeAt w.E.core w.E.ctx w.S.pc := by
  unfold State.codeOf ovlOf
  rw [not_replayed h]
  dsimp only
  rw [if_neg (by simp [hp]), hl]
  split
  · next e => cases e
  · rfl

/-- Where the words of a split that does not replay come from (R70, R71). -/
theorem codeOf_cases (h : ∀ p ∈ w.T.parked, ¬(p.uid = w.S.uid ∧ p.go = true)) :
      (w.S.past = true → s.codeAt w.E.core w.E.ctx w.S.pc ≠ none → s.codeOf w = some [])
      ∧ (s.codeAt w.E.core w.E.ctx w.S.pc = none → s.codeOf w = none)
      ∧ (w.S.past = false → (s.core w.E.core).loops.find? w.T.quarter = none → s.codeOf w = s.codeAt w.E.core w.E.ctx w.S.pc)
      ∧ ∀ b bs k, w.S.past = false → (s.core w.E.core).loops.find? w.T.quarter = some b →
          (s.core w.E.core).slotOf w.E.ctx (bvField w.S.pc 27 16) = some k → s.codeAt w.E.core w.E.ctx w.S.pc = some bs →
          let off := 4 * bvField w.S.pc 15 2
          let buffered : Prop := b.slot = k ∧ b.base ≤ off ∧ off < b.base + b.code.length
          (¬buffered → s.codeOf w = some bs)
          ∧ (buffered → s.codeOf w = some (b.code.drop (off - b.base) ++ bs.drop (b.base + b.code.length - off))) := by
  refine ⟨fun h1 h2 => ?_, fun h1 => ?_, codeOf_unlooped h, fun b bs k h1 h2 h3 h4 => ⟨fun h5 => ?_, fun h5 => ?_⟩⟩ <;>
    unfold State.codeOf ovlOf <;> rw [not_replayed h] <;> dsimp only
  · obtain ⟨bs, hb⟩ := Option.ne_none_iff_exists'.1 h2
    rw [if_pos h1, hb]; rfl
  · rw [h1]
    split
    · rfl
    · split
      · split <;> rfl
      · rfl
  · rw [if_neg (by simp [h1]), h2, h3, h4]
    dsimp only
    rw [if_neg h5]
  · rw [if_neg (by simp [h1]), h2, h3, h4]
    dsimp only
    rw [if_pos h5]; rfl

theorem codeOf_replayed {p : Parked} (h : w.T.parked.find? (fun p => decide (p.uid = w.S.uid ∧ p.go = true)) = some p) : s.codeOf w = some p.insn := by
  have hp : (w.T.parked.find? fun p => decide (p.uid = w.S.uid) && p.go) = some p := by simpa using h
  unfold State.codeOf
  rw [hp]

/-! ### Pairs -/

theorem choose_pair {c : Cand} {ent other : Nat} (h : s.choose c = .issue ent (some other) s1) : s1.cur = some (c.tid, ent) := by
  unfold State.choose at h
  cases ht : s.troupes.find? c.tid with
  | none => rw [ht] at h; cases h
  | some t =>
    rw [ht] at h
    dsimp only at h
    split at h
    · cases h
    · split at h
      · cases h
      · cases h; rfl

/-- A pair issues with the current split in the lower entry (R93). -/
theorem following_pair {ent other : Nat} (h : s.following = .issue ent (some other) s1) : ∃ tid, s1.cur = some (tid, ent) := by
  unfold State.following at h
  cases hp : s.pairing with
  | some p => rw [hp] at h; cases h
  | none =>
    rw [hp] at h
    dsimp only at h
    split at h
    · cases h
    · exact ⟨_, choose_pair h⟩
    · cases h
    · split at h
      · cases h
      · exact ⟨_, choose_pair h⟩

theorem issuePair_untrapped {tid e ent other : Nat} {t : State} (hc : s.cur = some (tid, e)) (hi : s.issue exec = .next t)
    (ht : trapped s t tid = false) : s.issuePair exec ent other = .next (s.pairMemory t tid ent other) := by
  unfold State.issuePair
  rw [hc]
  dsimp only
  rw [hi]
  simp [ht]

/-! ### Reports -/

theorem MayTrap.congr {t : State} {T : Troupe} {c : Context} (h : MayTrap s w c) (hn : t.ctxSeen w.E.core w.E.ctx = s.ctxSeen w.E.core w.E.ctx)
    (hb : t.backed = s.backed) (hc : t.cores = s.cores) (hT : T = { w.T with due := T.due }) : MayTrap t { w with s := t, T := T } c := by
  rw [hT]
  exact ⟨h.user, hn.trans h.seen, h.device, by rw [hb]; exact h.backed, by rw [State.core, hc]; exact h.handler⟩

theorem lowest_of_le {T : Troupe} {ent : Nat} {p : Split} (hp : T.splits.find? ent = some p) (h8 : ent < 8)
    (hl : ∀ k, T.splits.find? k ≠ none → ent ≤ k) : T.lowest = some (ent, p) := by
  have hf : (List.range 8).find? (fun k => (T.splits.find? k).isSome) = some ent := by
    rw [List.find?_range_eq_some]
    refine ⟨by simp [hp], by simpa using h8, fun j hj => ?_⟩
    have : T.splits.find? j = none := by
      by_contra hc
      have := hl j hc
      omega
    simp [this]
  unfold Troupe.lowest
  rw [hf]
  simp [hp]

/-- A report that waited is the trap of the split of lowest entry, before its next instruction (R393). -/
theorem issue_reported {d : Due} {rest : List Due} {c : Context} (hw : s.issuer = some w) (hd : w.T.due = d :: rest) (ht : w.T.trapPc = none)
    (hl : ∀ k, w.T.splits.find? k ≠ none → w.ent ≤ k) (h8 : w.ent < 8) (h : MayTrap s w c) :
    let T := { w.T with due := rest }
    let s2 := { s with troupes := s.troupes.put w.tid T }
    let v : Work := { w with s := s2, T := T }
    ∃ t, s.issue exec = .next t ∧ Trapped s2 v c { cause := d.cause, info := d.info, addr := d.addr, done := v.nextActive.2 }
      { pc := w.S.pc, ilen := max 4 v.insn.length, insn := v.insn, active := v.nextActive.1,
        adds := (v.ahead.map fun n => 1 + n.stall).getD 0, flags := 1, win := d.win } t := by
  intro T s2 v
  obtain ⟨-, hk⟩ := work_of_issuer hw
  obtain ⟨hs, -, -, ha, hT, hS, hE⟩ := work_fields hk
  have hr : w.reported = some d := by simp [Work.reported, ht, lowest_of_le hS h8 hl, hd]
  have hm : (w.s.modTroupe w.tid fun t => { t with due := t.due.drop 1 }) = s2 := by
    simp [State.modTroupe, Tab.modify, hs, hT, hd, s2, T]
  have hv : s2.work v.tid v.ent = some v := by simp [State.work, s2, v, T, hS, hE, ha]
  have hi : s.issue exec = v.takeReport d := by
    unfold State.issue
    rw [hw]
    dsimp only
    rw [hr]
    dsimp only [Work.hear]
    rw [hm, hv]
  rw [hi]
  exact work_traps hv (h.congr rfl rfl rfl rfl) _ _

/-! ### A loaded program -/

theorem loaded_following (code : List Byte) :
    (State.reset.loaded code).following = .issue 0 none ((State.reset.loaded code).issueAt 0 0 0) := rfl

theorem noteFetch_tables (s : State) (w : Work) :
    (s.noteFetch w).cur = s.cur ∧ (s.noteFetch w).troupes = s.troupes ∧ (s.noteFetch w).ensembles = s.ensembles := by
  unfold State.noteFetch
  split <;> exact ⟨rfl, rfl, rfl⟩

/-- The split that issues is the same one once its fetch is noted. -/
theorem noteFetch_issuer {v : Work} (h : s.issuer = some w) : (s.noteFetch v).issuer = some { w with s := s.noteFetch v } := by
  obtain ⟨h1, h2, h3⟩ := noteFetch_tables s v
  obtain ⟨hc, hw⟩ := work_of_issuer h
  rw [State.issuer, h1, hc]
  exact work_congr h2 h3 hw

theorem loaded_codeAt (code : List Byte) : ((State.reset.loaded code).issueAt 0 0 0).codeAt 0 0 0#32 = some code := by
  have h : (((State.reset.loaded code).issueAt 0 0 0).core 0).slotOf 0 0 = some 0 := rfl
  have e : bvField 0#32 27 16 = 0 ∧ bvField 0#32 15 2 = 0 := by decide
  rw [State.codeAt, Core.codeOf, e.1, e.2, h]
  rfl

theorem loaded_issuer (code : List Byte) : ∃ w, ((State.reset.loaded code).issueAt 0 0 0).issuer = some w ∧ w.reported = none
    ∧ ((State.reset.loaded code).issueAt 0 0 0).codeOf w = some code ∧ w.S.pc = 0#32 ∧ w.S.mask = ~~~0#128 :=
  ⟨_, rfl, rfl, (codeOf_unlooped (by exact nofun) rfl rfl).trans (loaded_codeAt code), rfl, rfl⟩

/-- Nothing of a loaded program is checkpointed. -/
theorem loaded_noted (code : List Byte) (o : Out) : noted ((State.reset.loaded code).issueAt 0 0 0) true o = o := by
  cases o <;> rfl

/-- The first step of a loaded program is the meaning of the instruction that its words hold. -/
theorem step_loaded {code : List Byte} {i : Instr} (hd : decode code = .ok i) : ∃ t v, t.issuer = some v ∧ v.S.pc = 0#32 ∧ v.S.mask = ~~~0#128
    ∧ step (State.reset.loaded code) = exec i t := by
  obtain ⟨w, hw, hr, hc, hp, hm⟩ := loaded_issuer code
  have hb : code ≠ [] := by rintro rfl; cases hd
  refine ⟨_, _, noteFetch_issuer (v := w) hw, hp, hm, ?_⟩
  rw [step_of_issue (loaded_following code), issue_unreported hw hr rfl, fetch_decoded hc hb hd, loaded_noted]
  rfl

theorem decode_of_table {nbits v : Nat} {i : Instr} (h : decodeTableWord nbits v = some i) :
    decode (bytesOf (tableWords (v % 2 ^ nbits))) = .ok i := by
  unfold decodeTableWord at h
  split at h
  · next j hj => cases h; exact hj
  · cases h

/-- Settles O57, a clause for each way a step goes. -/
theorem stepRunsDecoded : Obligations.StepRunsDecoded := by
  refine ⟨fun s ev s1 h hc => ?_, fun s s1 h => step_of_idle h, fun s w => ⟨fun p hp => codeOf_replayed hp, codeOf_cases⟩,
    fun s ent s1 w bs i h hw hr hk hc hb hd => ?_, fun s ent s1 w bs h hw hr hk hc hb => ?_, fun s ent s1 w h hw hr hk => ?_,
    fun s ent s1 w d rest c h hw hd ht hl h8 hm => ?_, fun s ent other s1 w bs i tid e u h hcur hw hr hk hc hb hd hx => ?_, fun nbits v i h => ?_⟩
  · rw [step_of_event h]
    exact runHeld_of_no_cut hc ev
  · rw [step_of_issue h, issue_unreported hw hr hk, fetch_decoded hc hb hd]
    rfl
  · have hs {r : Reject} (hd : decode bs = .error r) : step s = noted s1 true (runFetched exec w (rejected bs r) (s1.noteFetch w)) := by
      rw [step_of_issue h, issue_unreported hw hr hk, fetch_rejected hc hb hd]
    exact ⟨hs, hs, hs⟩
  · rw [step_of_issue h, issue_unreported hw hr hk]
    exact ⟨fun hc => by rw [fetch_absent hc]; rfl, fun hc => by rw [fetch_beyond hc]; rfl⟩
  · rw [step_of_issue h]
    exact issue_reported hw hd ht hl h8 hm
  · intro t ht
    obtain ⟨tid', hcur'⟩ := following_pair h
    obtain ⟨rfl, rfl⟩ : tid = tid' ∧ e = ent := by rw [hcur] at hcur'; cases hcur'; exact ⟨rfl, rfl⟩
    have hi : s1.issue exec = .next t := by
      rw [issue_unreported hw hr hk, fetch_decoded hc hb hd]
      change noted s1 true (exec i (s1.noteFetch w)) = _
      rw [hx]; rfl
    rw [step_of_pair h, issuePair_untrapped hcur hi ht]
    unfold State.pairMemory
    refine ⟨fun hn => ?_, fun a act b act' ha hb => ⟨fun hp => ?_, fun hp => ?_⟩⟩
    · split
      · next x y hx hy => simp [hx, hy] at hn
      · rfl
    · rw [ha, hb]
      obtain ⟨x, p, hx, hpx, he⟩ := hp
      exact congrArg _ (if_pos (by simp only [hx, Option.any_some, List.any_eq_true, decide_eq_true_eq]; exact ⟨p, hpx, he⟩))
    · rw [ha, hb]
      refine congrArg _ (if_neg fun hc => hp ?_)
      obtain ⟨x, hx, hc⟩ := (Option.any_eq_true _ _).1 hc
      obtain ⟨p, hpx, he⟩ := List.any_eq_true.1 hc
      exact ⟨x, p, hx, hpx, by simpa using he⟩
  · exact step_loaded (decode_of_table h)

end Sys2Proof
end

section
/-! Branches, calls and returns of lanes that agree (R76, R98 to R104, R106). -/

namespace Sys2Proof

open Machine

variable {i : Instr} {n : Ins} {s : State} {w : Work}

theorem gate_state (hg : gate n s = .go w) : w.s = s := by
  obtain ⟨-, h, -⟩ := gate_go hg
  exact h

/-- An instruction that only goes to the next word. -/
theorem completes_nop {body : Work → Eff} (he : exec i s = run n body s) (hg : gate n s = .go w) (hb : body w = .done w) :
    ∃ t x, exec i s = .next t ∧ Completes s w [] 0#32 [] (nextWord n w) t x := by
  obtain ⟨z, hz⟩ := Work.finish_completes (n := n) (outs := []) (gate_state hg) (Work.Does.refl w) fun r j _ => by simp
  exact ⟨_, z, he.trans (run_done hg hb), hz⟩

/-- The lanes of a brc whose condition holds, where the predicate reads 0 or 1 (R100). -/
theorem mem_branchLanes (h : ∀ l, w.read (.p n.pred) l = 0#32 ∨ w.read (.p n.pred) l = 1#32) (l : Nat) :
    (w.branchLanes n).getLsbD l = true ↔ w.S.mask.getLsbD l = true ∧ w.read (.p n.pred) l = if n.pneg then 0#32 else 1#32 := by
  rw [Work.branchLanes, getLsbD_maskFilter, Bool.and_eq_true]
  refine and_congr_right fun _ => ?_
  obtain e | e := h l <;> cases n.pneg <;> simp [e]

theorem branchLanes_eq_zero (h : ∀ l, w.read (.p n.pred) l = 0#32 ∨ w.read (.p n.pred) l = 1#32)
    (hn : ∀ l, w.S.mask.getLsbD l = true → ¬ w.read (.p n.pred) l = if n.pneg then 0#32 else 1#32) : w.branchLanes n = 0 := by
  ext l hl
  rw [← BitVec.getLsbD_eq_getElem]
  have := mem_branchLanes h l
  cases hb : (w.branchLanes n).getLsbD l with
  | false => simp
  | true => exact absurd (this.1 hb).2 (hn l (this.1 hb).1)

theorem branchLanes_eq_mask (h : ∀ l, w.read (.p n.pred) l = 0#32 ∨ w.read (.p n.pred) l = 1#32)
    (ha : ∀ l, w.S.mask.getLsbD l = true → w.read (.p n.pred) l = if n.pneg then 0#32 else 1#32) : w.branchLanes n = w.S.mask := by
  ext l hl
  rw [← BitVec.getLsbD_eq_getElem, ← BitVec.getLsbD_eq_getElem, Bool.eq_iff_iff, mem_branchLanes h]
  exact ⟨fun h => h.1, fun h => ⟨h, ha l h⟩⟩

/-- The write of the link register (R102). -/
def linkWrites (n : Ins) (w : Work) : List Write := [(w.T.oReg 7, w.S.mask, fun _ => (nextWord n w).pc)]

theorem link_eq (n : Ins) (w : Work) : w.link n = w.setAll (linkWrites n w) := rfl

theorem link_mask (n : Ins) (w : Work) : (w.link n).S.mask = w.S.mask := by
  rw [link_eq, (Work.RegsOnly.setAll w (linkWrites n w)).S]

theorem takes_bra (he : exec i s = run n (opBra n) s) (hg : gate n s = .go w) : takes i n s w [] (destAt (ovlOf w.S.pc) n.tgt) :=
  takes_of_goto he hg rfl

theorem takes_call (he : exec i s = run n (opCall n) s) (hg : gate n s = .go w) :
    takes i n s w (linkWrites n w) (destAt (ovlOf w.S.pc) n.tgt) := takes_of_goto he hg rfl

/-- The table word of lanes that agree (R101). -/
theorem takes_brx (he : exec i s = run n (opBrx n) s) (hg : gate n s = .go w) (h0 : w.S.mask ≠ 0) {k : Nat}
    (hk : ∀ l, w.S.mask.getLsbD l = true → w.tableWord n l = k) : takes i n s w [] (destAt (ovlOf w.S.pc) k) :=
  takes_of_goto he hg (scatter_agree h0 hk)

theorem takes_callx (he : exec i s = run n (opCallx n) s) (hg : gate n s = .go w) (h0 : w.S.mask ≠ 0) {k : Nat}
    (hk : ∀ l, w.S.mask.getLsbD l = true → w.tableWord n l = k) : takes i n s w (linkWrites n w) (destAt (ovlOf w.S.pc) k) := by
  refine takes_of_goto he hg ?_
  rw [← link_mask n w] at h0 hk
  exact scatter_agree h0 hk

theorem takes_ret (he : exec i s = run n (opRet n) s) (hg : gate n s = .go w) (h0 : w.S.mask ≠ 0) {p : Word}
    (hp : ∀ l, w.S.mask.getLsbD l = true → w.read (w.T.oReg 7) l &&& 0x0FFFFFFC#32 = p) : takes i n s w [] { pc := p } := by
  refine takes_of_goto he hg ((scatter_agree (k := p.toNat) h0 fun l hl => congrArg _ (hp l hl)).trans ?_)
  rw [BitVec.ofNat_toNat, BitVec.setWidth_eq]; rfl

section

variable (he : exec i s = run n (opBrc n) s) (hg : gate n s = .go w)
  (h : ∀ l, w.read (.p n.pred) l = 0#32 ∨ w.read (.p n.pred) l = 1#32)
include he hg h

theorem completes_brc (hn : ∀ l, w.S.mask.getLsbD l = true → ¬ w.read (.p n.pred) l = if n.pneg then 0#32 else 1#32) :
    ∃ t x, exec i s = .next t ∧ Completes s w [] 0#32 [] (nextWord n w) t x := by
  refine completes_nop he hg ?_
  rw [opBrc, branchLanes_eq_zero h hn]
  exact if_pos rfl

theorem takes_brc (h0 : w.S.mask ≠ 0) (ha : ∀ l, w.S.mask.getLsbD l = true → w.read (.p n.pred) l = if n.pneg then 0#32 else 1#32) :
    takes i n s w [] (destAt (ovlOf w.S.pc) n.tgt) := by
  refine takes_of_goto he hg ?_
  rw [opBrc, branchLanes_eq_mask h ha]
  exact (if_neg h0).trans (if_pos rfl)

end

theorem takes_ocall (he : exec i s = run n (opOcall n) s) (hg : gate n s = .go w)
    (h : ((s.core w.E.core).slotOf w.E.ctx (n.aux % 4096)).isSome = true) : takes i n s w (linkWrites n w) (destAt n.aux n.tgt) := by
  refine takes_of_goto he hg ?_
  rw [opOcall, gate_state hg]
  exact if_neg (by simpa [Option.isSome_iff_ne_none] using h)

theorem ocall_absent (he : exec i s = run n (opOcall n) s) (hg : gate n s = .go w)
    (h : ((s.core w.E.core).slotOf w.E.ctx (n.aux % 4096)).isSome = false) :
    exec i s = w.trap n { cause := 0x0C, info := n.aux % 4096 } := by
  refine he.trans (run_trap hg ?_)
  rw [opOcall, gate_state hg]
  exact if_pos (by simpa using h)

/-- Settles O11, a clause for each instruction. -/
theorem branchesAndCalls : Obligations.BranchesAndCalls :=
  ⟨⟨⟨fun _ _ _ hg => completes_nop rfl hg rfl, fun _ _ _ hg => completes_nop rfl hg rfl⟩,
    ⟨fun _ _ _ hg => completes_nop rfl hg rfl, fun _ _ _ hg => completes_nop rfl hg rfl⟩,
    ⟨fun _ _ _ hg => takes_bra rfl hg, fun _ _ _ hg => takes_bra rfl hg⟩,
    fun _ _ _ hg h => ⟨completes_brc rfl hg h, takes_brc rfl hg h⟩,
    fun _ _ _ hg h0 _ hk => takes_brx rfl hg h0 hk⟩,
   fun _ _ _ hg => takes_call rfl hg, fun _ _ _ hg => takes_call rfl hg,
   fun _ _ _ hg h0 _ hk => takes_callx rfl hg h0 hk,
   fun _ _ _ hg => ⟨takes_ocall rfl hg, ocall_absent rfl hg⟩,
   fun _ _ _ hg h0 _ hp => takes_ret rfl hg h0 hp, fun _ _ _ hg h0 _ hp => takes_ret rfl hg h0 hp⟩

end Sys2Proof
end

section
/-! exit, rejoin and the full bracket (R94, R105, R107, R108). -/

namespace Sys2Proof

open Machine

variable {i : Instr} {n : Ins} {s : State} {w : Work}

/-- An instruction that is held for a cycle. -/
theorem exec_hold {body : Work → Eff} (he : exec i s = run n body s) (hg : gate n s = .go w) (hb : body w = .hold) : exec i s = .next w.hold :=
  he.trans (run_hold hg hb)

/-- An instruction that changes fields of its split or troupe, and goes to the next word. -/
theorem completes_changed {body : Work → Eff} {b : Work} (he : exec i s = run n body s) (hg : gate n s = .go w) (hb : body w = .done b)
    (hs : b.s = w.s) : ∃ t x, exec i s = .next t ∧ Completes s b [] 0#32 [] (nextWord n b) t x := by
  have h := completes_of_done he hg hb (outs := []) (Work.Does.refl b) fun r j _ => by simp
  rwa [hs, gate_state hg] at h

theorem atDrain_waits {body : Work → Eff} (h : w.drained = false) : atDrain body w = .hold := if_neg (by simp [h])

theorem atDrain_of {body : Work → Eff} (h : w.drained = true) : atDrain body w = body w := if_pos h

/-! ### exit -/

theorem leaveTroupe_effect (hT : w.s.ensembles.find? w.T.ens = some w.E) : ∃ T, w.leaveTroupe.troupes.find? w.tid = some T
      ∧ T = { w.T with splits := w.T.splits.del w.ent } ∧ (∀ k, k ≠ w.tid → w.leaveTroupe.troupes.find? k = w.s.troupes.find? k)
      ∧ (∀ k, w.leaveTroupe.ensembles.find? k = w.s.ensembles.find? k) ∧ sameModule w.s w.leaveTroupe
      ∧ ⟨w.s.now, .splitSwapBack w.tid⟩ ∈ w.leaveTroupe.agenda ∧ ⟨w.s.now, .troupeEnd w.tid⟩ ∈ w.leaveTroupe.agenda := by
  refine ⟨_, Tab.find?_put_same _ _ _, rfl, fun k hk => Tab.find?_put_other _ _ hk, fun k => ?_, rfl, ?_, ?_⟩
  · change (w.s.ensembles.put w.T.ens w.E).find? k = _
    rw [Tab.find?_put]
    split
    · next e => rw [e, hT]
    · rfl
  · exact mem_insertTimed.2 (.inr (mem_insertTimed.2 (.inl rfl)))
  · exact mem_insertTimed.2 (.inl rfl)

section

variable (he : exec i s = run n (opExit n) s) (hg : gate n s = .go w)
include he hg

theorem exit_waits (h : w.drained = false) : exec i s = .next w.hold := exec_hold he hg (atDrain_waits h)

theorem completes_exit (h : w.drained = true) (hr : w.act = 0 ∨ w.S.mask &&& ~~~w.act ≠ 0) : ∃ t x, exec i s = .next t
    ∧ Completes s { w with S := { w.S.newRun with mask := w.S.mask &&& ~~~w.act } } [] 0#32 [] (nextWord n w) t x := by
  refine completes_changed (b := { w with S := { w.S.newRun with mask := w.S.mask &&& ~~~w.act } }) he hg ?_ rfl
  rw [opExit, atDrain_of h]
  exact if_neg fun hc => hr.elim hc.2 fun h => h hc.1

theorem exit_leaves (h : w.drained = true) (ha : w.act ≠ 0) (hr : w.S.mask &&& ~~~w.act = 0) : ∃ t T, exec i s = .next t
        ∧ t.troupes.find? w.tid = some T
        ∧ T = { w.T with splits := w.T.splits.del w.ent, lastSel := T.lastSel, selFree := T.selFree, parked := T.parked }
        ∧ (∀ k, k ≠ w.tid → t.troupes.find? k = s.troupes.find? k)
        ∧ (∀ k, t.ensembles.find? k = s.ensembles.find? k) ∧ sameModule s t
        ∧ ⟨s.now, .splitSwapBack w.tid⟩ ∈ t.agenda ∧ ⟨s.now, .troupeEnd w.tid⟩ ∈ t.agenda := by
  obtain ⟨-, hs, -, -, hE, -⟩ := gate_go hg
  have hb : opExit n w = .raw (w.issued n).leaveTroupe := by
    rw [opExit, atDrain_of h]
    exact if_pos ⟨hr, ha⟩
  subst hs
  obtain ⟨T, h1, h2, h3, h4, h5, h6, h7⟩ := leaveTroupe_effect (w := w.issued n) hE
  exact ⟨_, T, he.trans (run_raw hg hb), h1, by rw [h2]; rfl, h3, h4, h5, h6, h7⟩

end

/-! ### rejoin -/

/-- A split that is put back as it stands, with events due, completes where it stands. -/
theorem completes_rejoin (he : exec i s = run n (opRejoin n) s) (hg : gate n s = .go w) : ∃ t x, exec i s = .next t
    ∧ Completes s { w with S := { w.S with state := 3 } } [] 0#32 [] { pc := w.S.pc, past := w.S.past } t x ∧ x.S.atRejoin = n.ilen
    ∧ ⟨s.now, .rejoinRelease w.tid⟩ ∈ t.agenda := by
  obtain ⟨-, hs, -⟩ := gate_go hg
  subst hs
  let w1 := w.issued n
  let y : Work := { w1 with S := { w1.S with state := 3, atRejoin := n.ilen } }
  let t := y.commit.settle w.tid w.s.now
  refine ⟨t, { y with s := t, T := { y.T with splits := y.T.splits.put y.ent y.S }, act := y.S.mask }, he.trans (run_raw hg rfl), ?_, rfl,
    mem_insertTimed.2 (.inl rfl)⟩
  constructor
  · exact work_congr (s := y.commit) (t := t) rfl rfl (Work.work_commit y)
  · intro r j _
    rw [written_nil, Option.getD_none]
    exact Work.now_congr rfl rfl rfl rfl r j
  · exact ⟨rfl, rfl⟩
  · exact (ite_self _).symm
  · rfl
  · rfl
  · simp [y, w1, Work.issued]
  · rfl
  · exact ⟨fun k hk => Tab.find?_put_other _ _ hk, fun k hk => Tab.find?_put_other _ _ hk, fun k hk => Tab.find?_put_other _ _ hk⟩
  · rfl

/-! ### full and endfull -/

theorem getLsbD_foldl_or {v : Nat} (l : List (BitVec v)) (m : BitVec v) (j : Nat) :
    (l.foldl (· ||| ·) m).getLsbD j = true ↔ m.getLsbD j = true ∨ ∃ x ∈ l, x.getLsbD j = true := by
  induction l generalizing m with
  | nil => simp
  | cons a l ih => rw [List.foldl_cons, ih]; simp [or_assoc]

/-- The lanes of every split of the troupe (R94). -/
def Machine.Work.allLanes (w : Work) : Mask := (w.T.allSplits.map (·.mask)).foldl (· ||| ·) w.S.mask

theorem mem_allLanes (hS : w.T.splits.find? w.ent = some w.S) (l : Nat) :
    w.allLanes.getLsbD l = true ↔ ∃ p ∈ w.T.allSplits, p.mask.getLsbD l = true := by
  have hm : w.S ∈ w.T.allSplits := List.mem_append_left _ (List.mem_append_left _ (List.mem_map.2 ⟨_, Tab.mem_of_find? hS, rfl⟩))
  rw [Work.allLanes, getLsbD_foldl_or]
  simp only [List.mem_map, exists_exists_and_eq_and]
  exact ⟨fun h => h.elim (fun h => ⟨_, hm, h⟩) id, .inr⟩

theorem completes_full (he : exec i s = run n (opFull n) s) (hg : gate n s = .go w) (hd : w.drained = true)
    (hl : ∀ p ∈ w.T.allSplits, p.landings = []) (hp : ∀ p ∈ w.T.pend, p.owner = w.S.uid) : ∃ t x, exec i s = .next t
        ∧ Completes s { w with S := { w.S.newRun with fsave := w.S.mask, mask := x.S.mask, infull := true }
                               T := { w.T with fullFrom := some ((s.core w.E.core).stageCycles w.E.ctx s.now) } } [] 0#32 [] (nextWord n w) t x
        ∧ ∀ l, x.S.mask.getLsbD l = true ↔ ∃ p ∈ w.T.allSplits, p.mask.getLsbD l = true := by
  obtain ⟨-, rfl, -, hS, -⟩ := gate_go hg
  have hc : ¬ ((!w.drained) = true ∨ ((w.T.allSplits.filter fun p => p.uid ≠ w.S.uid).any fun p => p.landings ≠ []) = true
      ∨ (w.T.pend.any fun p => p.owner ≠ w.S.uid) = true) := by
    simp only [hd, List.any_eq_true, List.mem_filter, decide_eq_true_eq]
    rintro (h | ⟨p, hp', h⟩ | ⟨p, hp', h⟩)
    · cases h
    · exact h (hl p hp'.1)
    · exact h (hp p hp')
  obtain ⟨t, x, ht, hx⟩ := completes_changed (b := { w with
    S := { w.S.newRun with fsave := w.S.mask, mask := w.allLanes, infull := true }
    T := { w.T with fullFrom := some ((w.s.core w.E.core).stageCycles w.E.ctx w.s.now) } }) he hg (if_neg hc) rfl
  have hm : x.S.mask = w.allLanes := congrArg Split.mask hx.entry
  refine ⟨t, x, ht, ?_, fun l => by rw [hm, mem_allLanes hS]⟩
  rw [hm]
  exact hx

theorem completes_endfull (he : exec i s = run n (opEndfull n) s) (hg : gate n s = .go w) (hd : w.drained = true) : ∃ t x, exec i s = .next t
        ∧ Completes s { w with S := { w.S.newRun with mask := w.S.fsave, infull := false }
                               T := { w.T with
                                 fullFor := w.T.fullFor + ((s.core w.E.core).stageCycles w.E.ctx s.now
                                   - w.T.fullFrom.getD ((s.core w.E.core).stageCycles w.E.ctx s.now))
                                 fullFrom := none } } [] 0#32 [] (nextWord n w) t x := by
  obtain ⟨-, rfl, -⟩ := gate_go hg
  exact completes_changed he hg (atDrain_of hd) rfl

/-- Settles O13, a clause for each instruction. -/
theorem exitRejoinAndBracket : Obligations.ExitRejoinAndBracket :=
  ⟨⟨fun _ _ _ hg => ⟨exit_waits rfl hg, completes_exit rfl hg, exit_leaves rfl hg⟩,
    fun _ _ _ hg => ⟨exit_waits rfl hg, completes_exit rfl hg, exit_leaves rfl hg⟩⟩,
   ⟨fun _ _ _ hg => completes_rejoin rfl hg, fun _ _ _ hg => completes_rejoin rfl hg⟩,
   ⟨fun _ _ _ hg hd hl hp => completes_full rfl hg hd hl hp, fun _ _ _ hg hd hl hp => completes_full rfl hg hd hl hp⟩,
   fun _ _ _ hg hd => completes_endfull rfl hg hd, fun _ _ _ hg hd => completes_endfull rfl hg hd⟩

end Sys2Proof
end

section
/-! A fork among splits whose table is not in the order of its keys (R85, R89). -/

namespace Sys2Proof

open Machine

/-- The troupe that a fork leaves, with the new splits in their places (R85, R89). -/
def Machine.Work.forkedTroupe (w0 : Work) (n : Ins) (rcv : Word) (g : Dest × Mask) (gs : List (Dest × Mask)) : Troupe :=
  let w := w0.issued n
  let needs := w.S.rcv ≠ some rcv
  let id := freshFork w.T.forkIds 65536 w.T.forkCtr
  let frames := if needs then w.S.frames ++ [⟨rcv, id, 0⟩] else w.S.frames
  let base := match w.s.contexts.find? w.E.ctx with
    | some c => blockBase c w.T.block
    | none => 0
  let child (k : Nat) (g : Dest × Mask) : Split :=
    ({ w.S.redirect (w0.after n) g.1 with
        mask := g.2, frames := frames, uid := if k = 0 then w.S.uid else w.T.nextUid + (k - 1),
        born := if k = 0 then w.S.born else w.s.tick } : Split).meet
  let kids := (List.range gs.length).map fun k => child (k + 1) (gs.getD k ({ pc := 0 }, 0))
  let t0 := { w.T with nextUid := w.T.nextUid + gs.length, forkCtr := if needs then id + 1 else w.T.forkCtr,
                       splits := w.T.splits.put w.ent (child 0 g) }
  (w.s.bump.placeAll w.tid base w.S.uid t0 kids).2

theorem troupes_ite_settle (c : Prop) [Decidable c] (s : State) (tid due : Nat) : (if c then s.settle tid due else s).troupes = s.troupes := by
  split <;> rfl

theorem fork_leaves {w : Work} {n : Ins} {rcv : Word} {g : Dest × Mask} {gs : List (Dest × Mask)} (hs : w.scalarsIn = true) (hf : w.S.frames.length < 16) :
    ∃ t, w.fork n rcv (g :: gs) = .raw t ∧ t.troupes.find? w.tid = some (w.forkedTroupe n rcv g gs) := by
  have hroom : ¬ ((w.issued n).S.rcv ≠ some rcv ∧ 16 ≤ (w.issued n).S.frames.length) := fun h => Nat.not_le.2 hf h.2
  have hin : ¬ (w.issued n).scalarsIn = false := by
    have e : (w.issued n).scalarsIn = w.scalarsIn := rfl
    simp [e, hs]
  unfold Work.fork
  dsimp only
  rw [if_neg hin, if_neg hroom]
  refine ⟨_, rfl, ?_⟩
  rw [troupes_ite_settle]
  exact Tab.find?_put_same _ _ _

/-- A brx that sends lane 0 to word 0, lane 1 to word 1 and lane 2 to word 2 of its overlay (R101). -/
def threeWay : XT :=
  { w0 := { head := ⟨false, 0⟩, pneg := false, pred := 7, scope := .troupe, sat := false, rnd := .rne, fmt := 0 }
    tgt := 0, aux := 5, si := .lane, mod := 2, lit := none }

/-- A resident split without lanes that issued some time ago. -/
def idleSplit (k : Nat) : Split := { Split.first 0 0 with uid := k, mask := 0, lastIss := k }

/-- The split that forks: three lanes at word 0. -/
def threeLanes : Split := { Split.first 0 0 with mask := 7 }

/-- A troupe with eight resident splits, entry 2 listed before entry 1, which is the least recently issued. -/
def swappedTroupe : Troupe :=
  { Troupe.start 0 0 0 0 256 64 0 0 0 with
    splits := [(0, threeLanes), (2, idleSplit 2), (1, idleSplit 1), (3, idleSplit 3), (4, idleSplit 4), (5, idleSplit 5), (6, idleSplit 6),
               (7, idleSplit 7)] }

/-- That troupe with the split of entry 0 about to issue. -/
def swappedState : State := { State.reset.loaded [] with cur := some (0, 0), tick := 1000, troupes := [(0, swappedTroupe)] }

/-- The split that issues. -/
def swappedWork : Work := (swappedState.work 0 0).get rfl

theorem swappedState_passes : gate (insXT 0x04 threeWay) swappedState = .go swappedWork := rfl

/-- The lanes' three targets. -/
def threeGroups : List (Dest × Mask) := [(destAt 0 1, 2), (destAt 0 2, 4)]

theorem threeWay_forks : opBrx (insXT 0x04 threeWay) swappedWork
    = swappedWork.fork (insXT 0x04 threeWay) (pcAt 0 5) ((destAt 0 0, 1) :: threeGroups) := by
  rfl

/-- No split has lane 1: the second new split displaces the first, which took the entry of a victim that the table still lists (R89). -/
theorem forkedTroupe_losesLane : ((swappedWork.forkedTroupe (insXT 0x04 threeWay) (pcAt 0 5) (destAt 0 0, 1) threeGroups).allSplits.all fun p =>
    !p.mask.getLsbD 1) = true := by decide

/-- A fork that loses a lane of its split is none. -/
theorem not_forks_of_losesLane {i : Instr} {s t : State} {w : Work} {T : Troupe} {rcv : Word} {target : Nat → Dest} {l : Nat}
    (he : exec i s = .next t) (hT : t.troupes.find? w.tid = some T) (hl : w.S.mask.getLsbD l = true)
    (h : (T.allSplits.all fun p => !p.mask.getLsbD l) = true) : ¬ forks i s w rcv target := by
  rintro ⟨t', T', ht, hT', hp, -⟩
  obtain rfl := Host.Outcome.next.inj (he.symm.trans ht)
  obtain rfl := Option.some.inj (hT.symm.trans hT')
  obtain ⟨p, hm, hb, -⟩ := hp l hl
  have := List.all_eq_true.1 h p hm
  simp [hb] at this

/-- Refutes O12: the statement asks only that no two entries of the split table have one key, not that they stand in order. With entry 2 before
entry 1 a brx to three words loses lane 1: the first new split takes the victim's entry, and the second one takes it again. -/
theorem not_forks : ¬ Obligations.Forks := by
  rintro ⟨-, hbrx, -⟩
  obtain ⟨t, ht, hT⟩ := fork_leaves (w := swappedWork) (n := insXT 0x04 threeWay) (rcv := pcAt 0 5) (g := (destAt 0 0, 1)) (gs := threeGroups) rfl
    (by decide)
  have he : exec (.brx threeWay) swappedState = .next t := run_raw swappedState_passes (threeWay_forks.trans ht)
  refine not_forks_of_losesLane (l := 1) he hT (by decide) forkedTroupe_losesLane (hbrx threeWay swappedState swappedWork swappedState_passes rfl
    ⟨⟨0, 1, by decide, by decide, by decide⟩, .inr (by decide), by decide⟩)

end Sys2Proof
end

section
/-! The checks before an instruction (R55 to R59, R118), and what passes them with no active lane (R57). -/

namespace Sys2Proof

open Machine

namespace Machine

/-- A meaning that is done at once with no active lane (R57). -/
def Idles (body : Work → Eff) : Prop := ∀ w, w.act = 0 → body w = .done w

theorem ifActive_idles (body : Work → Eff) : Idles (ifActive body) := fun _ h => ifActive_none h

/-- An instruction runs behind the gate of its fields, with a meaning that from opcode 0x10 on, but for smov, idles. -/
def RunsGated (i : Instr) (op : Nat) (n : Ins) : Prop :=
  ∃ body, (∀ s, exec i s = run n body s) ∧ (0x10 ≤ op → op ≠ 0x48 → Idles body)

theorem exec_runsGated {i : Instr} {op : Nat} {f : Form} (h : i.view = some (op, f)) : RunsGated i op (insOf op f) := by
  cases i <;> cases h
  case nop | nopBase => exact ⟨.done, fun _ => rfl, fun h => absurd h (by decide)⟩
  case bra | braBase => exact ⟨opBra _, fun _ => rfl, fun h => absurd h (by decide)⟩
  case call | callBase => exact ⟨opCall _, fun _ => rfl, fun h => absurd h (by decide)⟩
  case yield | yieldBase => exact ⟨.done, fun _ => rfl, fun h => absurd h (by decide)⟩
  case rejoin | rejoinBase => exact ⟨opRejoin _, fun _ => rfl, fun h => absurd h (by decide)⟩
  case brc | brx | callx | ocall | ret | retBase | exit | exitBase | full | fullBase | endfull | endfullBase =>
    exact ⟨_, fun _ => rfl, fun h => absurd h (by decide)⟩
  case smov | smovBase => exact ⟨opSmov _, fun _ => rfl, fun _ h => absurd rfl h⟩
  all_goals exact ⟨_, fun _ => rfl, fun _ _ => ifActive_idles _⟩

section
variable {n : Ins} {s : State} {w0 : Work}

/-- The first check is that of the word's own form (R55, R94). -/
theorem gate_malformed (hi : s.issuer = some w0) (h : w0.check02 n = false) : gate n s = .trap w0 { cause := 0x02 } := by
  obtain ⟨c, hc, hw⟩ := Option.bind_eq_some_iff.1 hi
  simp [gate, hc, hw, h]

/-- What the later checks find, once no register is awaited, stops the instruction (R56). -/
theorem gate_checks {x : TrapInfo} (hi : s.issuer = some w0) (h2 : w0.check02 n = true) (hh : w0.held n = false)
    (hx : ({ w0 with act := w0.active n } : Work).checks n = some x) : gate n s = .trap { w0 with act := w0.active n } x := by
  obtain ⟨c, hc, hw⟩ := Option.bind_eq_some_iff.1 hi
  simp [gate, hc, hw, h2, hh, hx]

/-- A trap before the instruction's meaning is that of its own form or of a later check. -/
theorem gate_trap {v : Work} {x : TrapInfo} (hi : s.issuer = some w0) (h : gate n s = .trap v x) :
    x = { cause := 0x02 } ∨ ({ w0 with act := w0.active n } : Work).checks n = some x := by
  obtain ⟨c, hc, hw⟩ := Option.bind_eq_some_iff.1 hi
  simp only [gate, hc, hw] at h
  split at h
  · cases h; exact .inl rfl
  · split at h
    · cases h
    · split at h
      · next e => cases h; exact .inr e
      · cases h

end

namespace Work

variable {w : Work} {n : Ins}

/-! The checks in the order of their codes. -/

theorem checks_of_03 {x : TrapInfo} (h : w.check03 n = some x) : w.checks n = some x := by simp [checks, h]

theorem checks_of_04 {x : TrapInfo} (h3 : w.check03 n = none) (h : w.check04 n = some x) : w.checks n = some x := by simp [checks, h3, h]

theorem checks_of_05 {x : TrapInfo} (h3 : w.check03 n = none) (h4 : w.check04 n = none) (h : w.check05 n = some x) :
    w.checks n = some x := by simp [checks, h3, h4, h]

theorem checks_of_06 {x : TrapInfo} (h3 : w.check03 n = none) (h4 : w.check04 n = none) (h5 : w.check05 n = none)
    (h : w.check06 n = some x) : w.checks n = some x := by simp [checks, h3, h4, h5, h]

theorem checks_of_14 {x : TrapInfo} (h3 : w.check03 n = none) (h4 : w.check04 n = none) (h5 : w.check05 n = none)
    (h6 : w.check06 n = none) (h : w.check14 n = some x) : w.checks n = some x := by simp [checks, h3, h4, h5, h6, h]

theorem check03_cause {x : TrapInfo} (h : w.check03 n = some x) : x.cause = 0x03 := by
  simp only [check03] at h
  split at h
  · cases h
  · split at h <;> cases h
    rfl

theorem boundCheck_cause {x : TrapInfo} (h : w.boundCheck n = some x) : x.cause = 0x04 := by
  unfold boundCheck at h
  split at h
  · split at h
    · dsimp only at h
      split at h <;> cases h
      rfl
    · cases h
  · split at h
    · dsimp only at h
      split at h <;> cases h
      rfl
    · cases h

theorem check04_cause {x : TrapInfo} (h : w.check04 n = some x) : x.cause = 0x04 := by
  simp only [check04] at h
  split at h
  · cases h; rfl
  · exact boundCheck_cause h

theorem check05_cause {x : TrapInfo} (h : w.check05 n = some x) : x.cause = 0x05 := by
  unfold check05 at h
  split at h
  · cases h
  · obtain ⟨p, -, hp⟩ := List.exists_of_findSome?_eq_some h
    obtain ⟨q, -, hq⟩ := List.exists_of_findSome?_eq_some hp
    obtain ⟨d, -, rfl⟩ := Option.map_eq_some_iff.1 hq
    rfl

theorem check06_cause {x : TrapInfo} (h : w.check06 n = some x) : x.cause = 0x06 ∨ x.cause = 0x02 := by
  unfold check06 at h
  split at h
  · cases h; exact .inl rfl
  · split at h <;> cases h
    exact .inr rfl

/-- At supervisor level no check is that of privilege. -/
theorem checks_cause (hs : w.T.tstat.getLsbD 16 = true) {x : TrapInfo} (h : w.checks n = some x) : x.cause ≠ 0x14 := by
  have h14 : w.check14 n = none := if_pos hs
  unfold checks at h
  split at h
  · next e => cases h; rw [check03_cause e]; decide
  split at h
  · next e => cases h; rw [check04_cause e]; decide
  split at h
  · next e => cases h; rw [check05_cause e]; decide
  split at h
  · next e => cases h; obtain c | c := check06_cause e <;> rw [c] <;> decide
  · rw [h14] at h; cases h

/-- A source that overlaps the destination (R119). -/
theorem check03_overlap {d y : Operand × Nat} (hd : (w.operands n).1.head? = some d) (hy : y ∈ (w.operands n).2)
    (ho : overlaps n.op d y = true) : ∃ x, w.check03 n = some x ∧ x.cause = 0x03 := by
  unfold check03
  simp only [hd]
  cases h : (w.operands n).2.find? (overlaps n.op d) with
  | none => exact absurd ho (List.find?_eq_none.1 h y hy)
  | some z => exact ⟨_, rfl, rfl⟩

/-- An operand outside its bounds (R40, R118, R382). -/
theorem check04_outside {o : Operand × Nat} (ho : o ∈ (w.operands n).1 ++ (w.operands n).2) (h : (w.outside o.1 o.2).isSome = true) :
    ∃ x, w.check04 n = some x ∧ x.cause = 0x04 := by
  unfold check04
  dsimp only
  cases e : ((w.operands n).1 ++ (w.operands n).2).findSome? fun o => w.outside o.1 o.2 with
  | none => rw [List.findSome?_eq_none_iff.1 e o ho] at h; cases h
  | some z => exact ⟨_, rfl, rfl⟩

theorem outside_v {a : BitVec 8} {len : Nat} (h : w.T.nregs < a.toNat + len) : (w.outside (.v a) len).isSome = true := by
  simp [outside, h]

theorem outside_s {a : BitVec 6} {len : Nat} (hu : w.T.tstat.getLsbD 16 = false) (h : w.T.nscal < a.toNat + len) :
    (w.outside (.s a) len).isSome = true := by
  have hs : w.T.sup = false := hu
  simp [outside, hs, h]

/-- A source whose latest writer is too near (R45). -/
theorem check05_undersized {o : Operand × Nat} {r : Reg} (hd : w.T.tstat.getLsbD 8 = true) (ho : o ∈ (w.operands n).2)
    (hr : r ∈ w.regsOf n o.1 o.2) (h : (w.undersized r).isSome = true) : ∃ x, w.check05 n = some x ∧ x.cause = 0x05 := by
  have e : (w.check05 n).isSome = true := by
    unfold check05
    rw [hd]
    refine List.findSome?_isSome_iff.2 ⟨o, by simp [ho], List.findSome?_isSome_iff.2 ⟨r, hr, ?_⟩⟩
    simpa using h
  obtain ⟨x, hx⟩ := Option.isSome_iff_exists.1 e
  exact ⟨x, hx, check05_cause hx⟩

theorem check05_unused (hd : w.T.tstat.getLsbD 8 = false) : w.check05 n = none := by
  rw [check05, hd]
  rfl

/-- An entry that is invalid or not allowed (R165). -/
theorem check06_badEntry (h : (badEntry w.look n).isSome = true) : ∃ x, w.check06 n = some x ∧ x.cause = 0x06 := by
  obtain ⟨e, he⟩ := Option.isSome_iff_exists.1 h
  exact ⟨_, by simp only [check06, he]; rfl, rfl⟩

/-- A privileged instruction at user level (R59). -/
theorem check14_user (hu : w.T.tstat.getLsbD 16 = false)
    (h : n.op ∈ [0xC2, 0xC6, 0xC9, 0xCA] ∨ (n.op ∈ [0xC3, 0xC4] ∧ 0x40 ≤ n.mod ∧ n.mod ≤ 0x4F)) :
    ∃ x, w.check14 n = some x ∧ x.cause = 0x14 := by
  have hs : w.T.sup = false := hu
  unfold check14
  rw [hs]
  simp only [List.mem_cons, List.not_mem_nil, or_false] at h
  by_cases hp : n.op = 0xC2 ∨ n.op = 0xC6 ∨ n.op = 0xC9 ∨ n.op = 0xCA
  · exact ⟨_, if_pos hp, rfl⟩
  · obtain ⟨ho, hm⟩ := h.resolve_left hp
    have hc : (n.op = 0xC3 ∨ n.op = 0xC4) ∧ sysRegSup n.mod := ⟨ho, by simp [sysRegSup, hm.1, hm.2]⟩
    exact ⟨_, (if_neg hp).trans (if_pos hc), rfl⟩

end Work

end Machine

/-- Settles O55: `exec_runsGated` for what each outcome of the gate leads to, and one lemma a check for the order. -/
theorem decodeChecks : Obligations.DecodeChecks := by
  unfold Obligations.DecodeChecks
  refine ⟨fun i op f s hv => ?_, fun n s w0 hi => ⟨?_, ?_, ?_, ?_, ?_, ?_, ?_⟩⟩
  · obtain ⟨body, he, hidle⟩ := exec_runsGated hv
    refine ⟨fun w x hg => ?_, fun w hg => ?_, fun w h10 h48 hg ha => completes_nop (he s) hg (hidle h10 h48 w ha)⟩
    · rw [he, run, hg]
    · rw [he, run, hg]
  · intro hok
    exact gate_malformed hi (by simp [Work.check02, hok])
  · rintro ⟨h2, hh⟩ d y hd hy ho
    obtain ⟨x, hx, hc⟩ := Work.check03_overlap (w := { w0 with act := w0.active n }) hd hy ho
    exact ⟨x, gate_checks hi h2 hh (Work.checks_of_03 hx), hc⟩
  · rintro ⟨h2, hh⟩ h3 a len ho
    have hout : ∃ o ∈ (({ w0 with act := w0.active n } : Work).operands n).1 ++ (({ w0 with act := w0.active n } : Work).operands n).2,
        (({ w0 with act := w0.active n } : Work).outside o.1 o.2).isSome = true := by
      obtain ⟨hm, hl⟩ | ⟨hu, b, hb, hm, hl⟩ := ho
      · exact ⟨_, hm, Work.outside_v hl⟩
      · exact ⟨_, hm, Work.outside_s hu hl⟩
    obtain ⟨o, hm, hs⟩ := hout
    obtain ⟨x, hx, hc⟩ := Work.check04_outside hm hs
    exact ⟨x, gate_checks hi h2 hh (Work.checks_of_04 h3 hx), hc⟩
  · rintro ⟨h2, hh⟩ h3 h4 hd o r ho hr hu
    obtain ⟨x, hx, hc⟩ := Work.check05_undersized hd ho hr hu
    exact ⟨x, gate_checks hi h2 hh (Work.checks_of_05 h3 h4 hx), hc⟩
  · rintro ⟨h2, hh⟩ h3 h4 hd hb
    obtain ⟨x, hx, hc⟩ := Work.check06_badEntry hb
    exact ⟨x, gate_checks hi h2 hh (Work.checks_of_06 h3 h4 (Work.check05_unused hd) hx), hc⟩
  · rintro ⟨h2, hh⟩ h3 h4 h5 h6 hu hop
    obtain ⟨x, hx, hc⟩ := Work.check14_user (w := { w0 with act := w0.active n }) hu hop
    exact ⟨x, gate_checks hi h2 hh (Work.checks_of_14 h3 h4 h5 h6 hx), hc⟩
  · rintro - hs v x hg
    obtain rfl | hx := gate_trap hi hg
    · decide
    · exact Work.checks_cause (w := { w0 with act := w0.active n }) hs hx

end Sys2Proof
end

section
/-! What the arrival of results does (R47, R88, R183, R378). -/

namespace Sys2Proof

open Machine

namespace Machine

/-- A scalar of a split on the split stack stands in its record (R88): the word of SCAL, which no bit of WR overlaps. -/
theorem intoSpill_scalar {s : State} {t : Troupe} {base owner n j : Nat} {o : Prior} (hs : Inv s) (hr : o.reg = .s n)
    (hj : t.stack.findIdx? (fun q => q.uid = owner) = some j) (hf : ∀ q ∈ t.stack, q.frames.length ≤ 16) :
    (s.intoSpill t base owner o).mem.readN (stackRecord base (t.stackHead + j) + 320 + 4 * n) 4 = natLE 4 (o.old.at_ 0).toNat := by
  have hd : ((t.stack[j]?).map fun p => p.frames.length).getD 0 ≤ 16 := by
    cases h : t.stack[j]? with
    | none => simp
    | some q => exact hf q (List.mem_of_getElem? h)
  unfold State.intoSpill
  rw [hr, hj]
  dsimp only
  generalize ((t.stack[j]?).map fun p => p.frames.length).getD 0 = depth at hd ⊢
  have hw : Memory.wf (s.homeWrite (stackRecord base (t.stackHead + j) + 320 + 4 * n) (natLE 4 (o.old.at_ 0).toNat)).mem = true :=
    State.homeWrite_wf _ _ hs
  have h4 : (natLE 4 (o.old.at_ 0).toNat).length = 4 := length_natLE _ _
  have same := Memory.readN_write_same (stackRecord base (t.stackHead + j) + 320 + 4 * n) (natLE 4 (o.old.at_ 0).toNat) hs
  rw [h4] at same
  split
  · rw [State.homeWrite_mem]
    exact same
  · rw [State.homeWrite_mem, Memory.readN_write_other _ hw (by rw [length_natLE]; omega), State.homeWrite_mem]
    exact same

/-- The one scalar of a held result of a spilled split stands in its record once it has landed. -/
theorem landPend_spilled {tid id : Nat} {s : State} {T : Troupe} {p : Pend} {E : Ensemble} {o : Prior} {n j : Nat}
    (hT : s.troupes.find? tid = some T) (hp : T.pend.find? (fun p => p.id = id) = some p) (htrap : T.trapPc = none)
    (ho : p.outs = [o]) (hr : o.reg = .s n) (hj : T.stack.findIdx? (fun q => q.uid = p.owner) = some j)
    (hf : ∀ q ∈ T.stack, q.frames.length ≤ 16) (hE : s.ensembles.find? T.ens = some E) (hs : Inv s) :
    (s.landPend tid id).mem.readN (stackRecord (blockBase (s.ctx E.ctx) T.block) (T.stackHead + j) + 320 + 4 * n) 4
      = natLE 4 (o.old.at_ 0).toNat := by
  have e : s.landPend tid id = (s.modTroupe tid fun t => t.writePend id).intoSpill T (blockBase (s.ctx E.ctx) T.block) p.owner o := by
    unfold State.landPend
    simp only [hT, hp, hE, htrap, ho, List.foldl_cons, List.foldl_nil, Option.isSome_none, Bool.and_false, Bool.false_eq_true, if_false]
  rw [e]
  exact intoSpill_scalar (s := s.modTroupe tid fun t => t.writePend id) hs hr hj hf

/-- The last sector of a load lands the result. -/
theorem execLoadSectorReturn_load {tid id : Nat} {s : State} {T : Troupe} {p : Pend} (hT : s.troupes.find? tid = some T)
    (hp : T.pend.find? (fun p => p.id = id) = some p) (hl : p.sectors ≤ 1) (hf : T.floading id = none) :
    execLoadSectorReturn tid id s = .next (s.landPend tid id) := by
  unfold execLoadSectorReturn
  simp only [hT, hp, hf, if_neg (Nat.not_lt.2 hl)]

/-- The last sector of an fload also writes the table's entries from 16 on and ends the wait (R183). -/
theorem execLoadSectorReturn_fload {tid id uid : Nat} {s : State} {T : Troupe} {p : Pend} {es : List DWord} {E : Ensemble}
    (hT : s.troupes.find? tid = some T) (hp : T.pend.find? (fun p => p.id = id) = some p) (hl : p.sectors ≤ 1)
    (hf : T.floading id = some (uid, es)) (hE : s.ensembles.find? T.ens = some E) :
    execLoadSectorReturn tid id s = .next ((fsetAll E.core E.ctx tid 16 es (s.landPend tid id)).resume tid uid) := by
  unfold execLoadSectorReturn
  simp only [hT, hp, hf, hE, if_neg (Nat.not_lt.2 hl)]

/-- A sector that is not the last only counts down (R291). -/
theorem execLoadSectorReturn_more {tid id : Nat} {s : State} {T : Troupe} {p : Pend} (hT : s.troupes.find? tid = some T)
    (hp : T.pend.find? (fun p => p.id = id) = some p) (hl : 1 < p.sectors) :
    execLoadSectorReturn tid id s = .next (s.modTroupe tid fun t =>
      { t with pend := t.pend.map fun q => if q.id = id then { q with sectors := q.sectors - 1 } else q }) := by
  unfold execLoadSectorReturn
  rw [hT]
  dsimp only
  rw [hp]
  exact if_pos hl

theorem execLoadSectorReturn_next (tid id : Nat) (s : State) : ∃ t, execLoadSectorReturn tid id s = .next t := by
  unfold execLoadSectorReturn
  split <;> [exact ⟨_, rfl⟩; skip]
  split <;> [exact ⟨_, rfl⟩; skip]
  split <;> [exact ⟨_, rfl⟩; skip]
  dsimp only
  split <;> [exact ⟨_, rfl⟩; skip]
  split <;> exact ⟨_, rfl⟩

/-- What the end of an fload does (R183): entries 16 to 63 have the values read, the others are kept, and the split goes on. -/
theorem fload_lands {tid id uid : Nat} {s : State} {T : Troupe} {p : Pend} {E : Ensemble} {es : List DWord}
    (hT : s.troupes.find? tid = some T) (hp : T.pend.find? (fun p => p.id = id) = some p) (htrap : T.trapPc = none) (hes : es.length = 48)
    (hres : ∀ q ∈ T.stack, q.uid ≠ p.owner) :
    let t := (fsetAll E.core E.ctx tid 16 es (s.landPend tid id)).resume tid uid
    (∀ k, k < 48 → t.fmtEntry E.core E.ctx (16 + k) = es.getD k 0)
      ∧ (∀ k, k < 16 → t.fmtEntry E.core E.ctx k = s.fmtEntry E.core E.ctx k) ∧ t.mem = s.mem ∧ goesOnPast t tid T uid := by
  obtain ⟨hlands, -, hkept, hsplit⟩ := landPend_lands hT hp htrap
  obtain ⟨U, hU, -⟩ := hlands
  have hs := hkept hres
  obtain ⟨⟨tk, ag, cs, tr, hf⟩, hft⟩ := fsetAll_only E.core E.ctx tid 16 es (s.landPend tid id)
  obtain ⟨fs, hfs⟩ := hft tid U hU
  have hr : ∀ n, ((fsetAll E.core E.ctx tid 16 es (s.landPend tid id)).resume tid uid).fmtEntry E.core E.ctx n
      = (fsetAll E.core E.ctx tid 16 es (s.landPend tid id)).fmtEntry E.core E.ctx n := fun _ => rfl
  have hn (n : Nat) : (s.landPend tid id).fmtEntry E.core E.ctx n = s.fmtEntry E.core E.ctx n := by rw [hs]; rfl
  refine ⟨fun k hk => ?_, fun k hk => ?_, ?_, ?_⟩
  · rw [hr, fsetAll_fmtEntry _ _ _ _ _ _ (Nat.le_refl 16), if_pos (by omega), Nat.add_sub_cancel_left]
  · rw [hr, fsetAll_fmtEntry _ _ _ _ _ _ (Nat.le_refl 16), if_neg (by omega), hn]
  · have h1 : (fsetAll E.core E.ctx tid 16 es (s.landPend tid id)).mem = (s.landPend tid id).mem := by rw [hf]
    have h2 : (s.landPend tid id).mem = s.mem := by rw [hs]
    exact h1.trans h2
  · refine resume_past hfs fun k q hq _ _ => ?_
    obtain ⟨U', q', hU', hq', he, hrcv⟩ := hsplit k q hq
    obtain rfl : U = U' := by rw [hU] at hU'; exact Option.some.inj hU'
    exact ⟨q', hq', by rw [he], by rw [he], by rw [he], by rw [he], hrcv, by rw [he]⟩

/-- A split without the landing of some result (R42). -/
def Split.landed (id : Nat) (p : Split) : Split := { p with landings := p.landings.filter fun l => l.id ≠ id }

/-- A troupe none of whose splits awaits the landing of some result (R42). -/
def Troupe.landed (id : Nat) (t : Troupe) : Troupe :=
  { t with splits := t.splits.map fun e => (e.1, e.2.landed id), stack := t.stack.map (·.landed id),
           coming := t.coming.map fun e => (e.1, e.2.landed id) }

theorem Troupe.landed_allSplits (id : Nat) (t : Troupe) : (t.landed id).allSplits = t.allSplits.map (·.landed id) := by
  simp [Troupe.allSplits, Troupe.landed, Function.comp_def]

/-- A fixed-latency result that lands: the splits of its troupe alone change, and the log of the g registers (R42, R130). -/
theorem execFixedLatencyWrite_eq {tid : Nat} {s : State} {T : Troupe} (id : Nat) (hT : s.troupes.find? tid = some T) :
    ∃ f : List GWrite → List GWrite, execFixedLatencyWrite tid id s
      = .next (({ s with troupes := s.troupes.put tid (T.landed id) } : State).modEns T.ens fun e =>
          if e.glog.any fun g => g.id = id then { e with glog := f e.glog } else e) := by
  unfold execFixedLatencyWrite
  rw [hT]
  exact ⟨_, rfl⟩

end Machine

/-- Settles O18: every arrival is an equation of the model, and a held result changes what `landPend_lands` says. -/
theorem resultLanding : Obligations.ResultLanding := by
  unfold Obligations.ResultLanding
  refine ⟨fun tid id s => ⟨_, rfl, fun T p hT hp htrap => ?_⟩, fun tid id s => ?_, fun tid id s => ⟨_, rfl, rfl, rfl⟩, fun tid id s => ?_⟩
  · obtain ⟨hl, -, hk, -⟩ := landPend_lands hT hp htrap
    exact ⟨hl, hk, fun o n j E ho hr hj hf hE hs => landPend_spilled hT hp htrap ho hr hj hf hE hs⟩
  · obtain ⟨t, ht⟩ := execLoadSectorReturn_next tid id s
    refine ⟨t, ht, fun T p hT hp => ⟨fun hl => ?_, fun hl htrap hfl => ?_, fun hl htrap uid es E hfl hE hes hres => ?_⟩⟩
    · obtain rfl := Host.Outcome.next.inj ((execLoadSectorReturn_more hT hp hl).symm.trans ht)
      exact ⟨rfl, fun k hk => Tab.find?_modify_other _ _ hk, by simp [State.modTroupe, Tab.find?_modify_same, hT]⟩
    · obtain rfl := Host.Outcome.next.inj ((execLoadSectorReturn_load hT hp hl hfl).symm.trans ht)
      obtain ⟨h, -, hk, -⟩ := landPend_lands hT hp htrap
      exact ⟨h, hk⟩
    · obtain rfl := Host.Outcome.next.inj ((execLoadSectorReturn_fload hT hp hl hfl hE).symm.trans ht)
      exact fload_lands hT hp htrap hes hres
  · cases hT : s.troupes.find? tid with
    | none =>
      refine ⟨s, by unfold exec execFixedLatencyWrite; simp only [hT], rfl, fun _ _ => rfl, fun k E hE => ⟨E, hE, rfl⟩, fun T h => ?_⟩
      cases h
    | some T =>
      obtain ⟨f, hf⟩ := execFixedLatencyWrite_eq id hT
      refine ⟨_, hf, rfl, fun k hk => Tab.find?_put_other _ _ hk, fun k E hE => ?_, fun T' hT' => ?_⟩
      · rw [State.modEns]
        by_cases hk : k = T.ens
        · subst hk
          refine ⟨_, by rw [Tab.find?_modify_same]; simp only [hE]; rfl, ?_⟩
          dsimp only
          split <;> rfl
        · exact ⟨E, by rw [Tab.find?_modify_other _ _ hk]; exact hE, rfl⟩
      · obtain rfl := Option.some.inj hT'
        refine ⟨T.landed id, Tab.find?_put_same _ _ _, rfl, fun p hp l hl => ?_, ?_⟩
        · rw [Troupe.landed_allSplits] at hp
          obtain ⟨q, -, rfl⟩ := List.mem_map.1 hp
          simpa using (List.mem_filter.1 hl).2
        · rw [Troupe.landed_allSplits, List.map_map]
          rfl

end Sys2Proof
end

section
/-! Return from a trap (R391): what the record's bytes restore, field by field. -/

namespace Sys2Proof

open Machine

namespace Machine

/-! ### What the record's bytes say -/

theorem peek_part (s : State) {base o n k : Nat} (h : o + n ≤ k) : ((s.peek base k).drop o).take n = s.peek (base + o) n := readN_drop _ _ _ _ _ h

/-- A number that stands in the record (R389). -/
def State.num (s : State) (base o n : Nat) : Nat := leNat (s.peek (base + o) n)

theorem get_setEach {w : Nat} (f : Nat → BitVec w) (l : List Nat) (t : Store w) (k : Nat) :
    (l.foldl (fun t k => Store.set t k (f k)) t).get k = if k ∈ l then f k else t.get k := by
  induction l generalizing t with
  | nil => rfl
  | cons a l ih =>
    rw [List.foldl_cons, ih, Store.get_set]
    by_cases hk : k ∈ l
    · rw [if_pos hk, if_pos (List.mem_cons_of_mem a hk)]
    · by_cases ha : k = a
      · rw [if_neg hk, if_pos ha, if_pos (ha ▸ List.mem_cons_self), ha]
      · rw [if_neg hk, if_neg ha, if_neg (List.not_mem_cons_of_ne_of_not_mem ha hk)]

theorem splitOfBytes_scal (p : Split) (b : List Byte) : (splitOfBytes p b).scal
    = (List.range 64).foldl (fun t k => Store.set t k (BitVec.ofNat 32 (leNat ((b.drop (320 + 4 * k)).take 4)))) [] := rfl

theorem splitOfBytes_frames (p : Split) (b : List Byte) : (splitOfBytes p b).frames
    = (List.range (min 16 (field (leNat ((b.drop 20).take 4)) 8 4))).map fun k =>
        { rcv := BitVec.ofNat 32 (leNat ((b.drop (64 + 16 * k)).take 4)), forkId := BitVec.ofNat 16 (leNat ((b.drop (68 + 16 * k)).take 2)),
          wr := BitVec.ofNat 64 (leNat ((b.drop (72 + 16 * k)).take 8)) } := rfl

/-! ### The registers of the record -/

theorem loadVec_vec (t : Troupe) (r q : Reg) (b : List Byte) :
    (t.loadVec r (~~~0#128) b).vec q = if q = r then (t.vec r).update (~~~0#128) fun i => BitVec.ofNat 32 (leNat ((b.drop (4 * i)).take 4)) else t.vec q :=
  Troupe.vec_put t r q _

theorem loadVec_at (t : Troupe) (r : Reg) (b : List Byte) {l : Nat} (h : l < 128) :
    ((t.loadVec r (~~~0#128) b).vec r).at_ l = BitVec.ofNat 32 (leNat ((b.drop (4 * l)).take 4)) := by
  have hm : (~~~0#128 : Mask).getLsbD l = true := by rw [BitVec.getLsbD_not, BitVec.getLsbD_zero, decide_eq_true h]; rfl
  rw [loadVec_vec, if_pos rfl, Vec.at_update _ _ _ h, if_pos hm]

/-- Replace some predicate registers. -/
def Troupe.setPreds (t : Troupe) (l : List Nat) (f : Nat → Vec) : Troupe :=
  l.foldl (fun t k => { t with file := t.file.put (Reg.p k).key (f k) }) t

theorem setPreds_vec (f : Nat → Vec) (l : List Nat) (t : Troupe) {r : Reg} (h : ∀ k, r ≠ .p k) : (t.setPreds l f).vec r = t.vec r := by
  induction l generalizing t with
  | nil => rfl
  | cons a l ih => exact (ih _).trans ((Troupe.vec_put t (.p a) r (f a)).trans (if_neg (h a)))

theorem setPreds_pred (f : Nat → Vec) (l : List Nat) (t : Troupe) (k : Nat) : (t.setPreds l f).vec (.p k) = if k ∈ l then f k else t.vec (.p k) := by
  induction l generalizing t with
  | nil => rfl
  | cons a l ih =>
    refine (ih _).trans ?_
    rw [Troupe.vec_put]
    by_cases hk : k ∈ l <;> by_cases ha : k = a <;> simp [hk, ha]

theorem setPreds_only (f : Nat → Vec) (l : List Nat) (t : Troupe) : t.setPreds l f = { t with file := (t.setPreds l f).file } := by
  induction l generalizing t with
  | nil => rfl
  | cons a l ih => exact ih { t with file := t.file.put (Reg.p a).key (f a) }

/-- A lane's predicates from the byte of the record (R387). -/
def recordPreds (b : List Byte) (k : Nat) : Vec := (List.range 128).map fun i => BitVec.ofNat 32 ((b.getD (0x880 + i) 0).toNat / 2 ^ k % 2)

theorem leNat_take_one (b : List Byte) (o : Nat) : leNat ((b.drop o).take 1) = (b.getD o 0).toNat := by
  by_cases h : o < b.length
  · rw [List.drop_eq_getElem_cons h, List.getD_eq_getElem _ _ h]
    exact Nat.add_zero _
  · rw [List.drop_eq_nil_of_le (by omega), List.getD_eq_default _ _ (by omega)]
    rfl

theorem recordPreds_at (s : State) (base k : Nat) {l : Nat} (h : l < 128) :
    (recordPreds (s.peek base 0x920) k).at_ l = 1#32 ↔ (s.num base (0x880 + l) 1).testBit k = true := by
  have hn : s.num base (0x880 + l) 1 = ((s.peek base 0x920).getD (0x880 + l) 0).toNat := by
    rw [← leNat_take_one, peek_part s (by omega)]
    rfl
  have hv : (recordPreds (s.peek base 0x920) k).at_ l = BitVec.ofNat 32 (((s.peek base 0x920).getD (0x880 + l) 0).toNat / 2 ^ k % 2) := by
    simp [recordPreds, Vec.at_, h]
  rw [hv, hn, Nat.testBit_eq_decide_div_mod_eq, decide_eq_true_eq]
  obtain e | e := Nat.mod_two_eq_zero_or_one (((s.peek base 0x920).getD (0x880 + l) 0).toNat / 2 ^ k) <;> rw [e] <;> decide

/-! ### What tret leaves -/

/-- TSTAT at the level of the record with the bytes `b` (R391). -/
def leftStat (b : List Byte) (v : Word) : Word := if leNat ((b.drop 0x001).take 1) % 2 = 1 then v else v &&& ~~~flagLevel

theorem leftStat_level (b : List Byte) (v : Word) :
    (leftStat b v).getLsbD 16 = ((leNat ((b.drop 0x001).take 1)).testBit 0 && v.getLsbD 16) := by
  rw [leftStat, Nat.testBit_zero]
  generalize leNat ((b.drop 0x001).take 1) = m
  split
  · next h => simp [h]
  · next h => simp [h, flagLevel]

theorem leftStat_other (b : List Byte) (v : Word) {k : Nat} (h : k ≠ 16) : (leftStat b v).getLsbD k = v.getLsbD k := by
  unfold leftStat
  split
  · rfl
  · have hf : flagLevel.getLsbD k = false := by
      rw [show flagLevel = BitVec.twoPow 32 16 from rfl, BitVec.getLsbD_twoPow, decide_eq_false (Ne.symm h), Bool.and_false]
    by_cases hb : k < 32
    · rw [BitVec.getLsbD_and, BitVec.getLsbD_not, hf, decide_eq_true hb, Bool.not_false, Bool.and_true, Bool.and_true]
    · rw [BitVec.getLsbD_of_ge _ _ (Nat.le_of_not_lt hb), BitVec.getLsbD_of_ge _ _ (Nat.le_of_not_lt hb)]

section
variable (w : Work) (base : Nat) (b : List Byte)

/-- The troupe that tret leaves, before its registers (R391). -/
def Work.leftLevel : Troupe := { w.T with tstat := leftStat b w.T.tstat, trapPc := none, saved := none }

/-- The troupe that tret leaves: with the latches and the predicates of the record (R391). -/
def Work.leftTroupe : Troupe :=
  (((w.leftLevel b).loadVec .latI (~~~0#128) ((b.drop 0x480).take 512)).loadVec .latV (~~~0#128) ((b.drop 0x680).take 512)).setPreds (List.range 7)
    (recordPreds b)

/-- The program counter of the record (R389). -/
def leftPc : Word := BitVec.ofNat 32 (leNat ((b.drop 0x008).take 4)) &&& 0x0FFFFFFC#32

/-- What the trap has kept of the split, or what a split that no trap has interrupted has in its place (R390). -/
def Work.kept : TrapSave := w.T.saved.getD { uid := w.S.uid, dist := w.S.dist, run := w.S.lastRun + 1, adds := 0, written := [], shadow := [] }

/-- The trapped instruction issues again: ACTION is not 1 (R389). -/
abbrev issuesAgain : Prop := leNat ((b.drop 0x003).take 1) ≠ 1

/-- The split that tret leaves at the trapped instruction (R391). -/
def Work.leftSplit : Split :=
  let p0 := splitOfBytes w.S ((b.drop 0x080).take 1024)
  { p0 with uid := w.kept.uid, state := if p0.state = 2 then 1 else p0.state, pc := leftPc b, past := false, hand := false, wait := .none,
            dist := if issuesAgain b then w.kept.dist else w.kept.dist + w.kept.adds, run := w.kept.run, lastRun := max w.kept.run w.S.lastRun,
            fell := none,
            shadow := if w.s.shadowKept base p0.mask { w.S with shadow := w.kept.written, dist := w.kept.dist } then w.kept.shadow
              else shadowOfBytes (w.leftTroupe b) p0.mask w.kept.dist ((b.drop 0x040).take 64) fun i off => w.s.peek (base + 0x10000 + 1024 * i + off) 4,
            redo := if issuesAgain b && w.T.trapPc = some (leftPc b) && leNat ((b.drop 0).take 1) != 0x01 && leNat ((b.drop 0).take 1) != 0x0C
              then some (BitVec.ofNat 128 (leNat ((b.drop 0x020).take 16)), BitVec.ofNat 128 (leNat ((b.drop 0x030).take 16))) else none }

/-- Where tret leaves the split (R391). -/
def Work.leftEnd : Split := if issuesAgain b then w.leftSplit base b else (w.leftSplit base b).next (leNat ((b.drop 0x006).take 1))

/-- tret puts the troupe and the split of the record back, past the instruction if ACTION is 1 (R391). -/
theorem leave_eq : w.leave base = ({ w with
    T := w.leftTroupe (w.s.peek base 0x920)
    S := w.leftEnd base (w.s.peek base 0x920) } : Work).close := rfl

/-- Only the place differs where the trapped instruction is passed. -/
theorem leftEnd_eq : w.leftEnd base b = { w.leftSplit base b with
    pc := if leNat ((b.drop 0x003).take 1) = 1 then pcStep (leftPc b) (leNat ((b.drop 0x006).take 1)) else leftPc b
    past := decide (leNat ((b.drop 0x003).take 1) = 1) && pastEnd (leftPc b) (leNat ((b.drop 0x006).take 1))
    fell := (w.leftEnd base b).fell } := by
  unfold Work.leftEnd
  by_cases h : leNat ((b.drop 0x003).take 1) = 1
  · rw [if_neg (not_not.2 h), if_pos h, decide_eq_true h]
    rfl
  · rw [if_pos h, if_neg h, decide_eq_false h]
    rfl

theorem leftSplit_passed (h : leNat ((b.drop 0x003).take 1) = 1) : (w.leftSplit base b).redo = none := by
  simp [Work.leftSplit, h]

theorem leftSplit_redo (h : leNat ((b.drop 0x003).take 1) ≠ 1) (hp : w.T.trapPc = some (leftPc b)) (h1 : leNat ((b.drop 0).take 1) ≠ 0x01)
    (hC : leNat ((b.drop 0).take 1) ≠ 0x0C) : (w.leftSplit base b).redo
      = some (BitVec.ofNat 128 (leNat ((b.drop 0x020).take 16)), BitVec.ofNat 128 (leNat ((b.drop 0x030).take 16))) := by
  unfold Work.leftSplit
  dsimp only
  rw [if_pos]
  simp only [Bool.and_eq_true, decide_eq_true_eq, bne_iff_ne]
  exact ⟨⟨⟨h, hp⟩, h1⟩, hC⟩

theorem leftSplit_saved {v : TrapSave} (h : w.T.saved = some v) : (w.leftSplit base b).run = v.run
    ∧ (w.leftSplit base b).dist = (if leNat ((b.drop 0x003).take 1) = 1 then v.dist + v.adds else v.dist)
    ∧ (w.s.shadowKept base (w.leftSplit base b).mask { w.S with shadow := v.written, dist := v.dist } = true → (w.leftSplit base b).shadow = v.shadow) := by
  obtain rfl : w.kept = v := by rw [Work.kept, h]; rfl
  refine ⟨rfl, ?_, fun hs => if_pos hs⟩
  exact ite_not ..

/-! The troupe's registers. -/

theorem leftTroupe_only : w.leftTroupe b = { w.T with file := (w.leftTroupe b).file, tstat := leftStat b w.T.tstat, trapPc := none, saved := none } := by
  have h := setPreds_only (recordPreds b) (List.range 7) (((w.leftLevel b).loadVec .latI (~~~0#128) ((b.drop 0x480).take 512)).loadVec .latV (~~~0#128)
    ((b.drop 0x680).take 512))
  rw [← Work.leftTroupe] at h
  generalize w.leftTroupe b = U at h ⊢
  simp only [Troupe.loadVec, Work.leftLevel] at h
  exact h

theorem leftTroupe_latI {l : Nat} (h : l < 128) :
    ((w.leftTroupe b).vec .latI).at_ l = BitVec.ofNat 32 (leNat ((((b.drop 0x480).take 512).drop (4 * l)).take 4)) := by
  rw [Work.leftTroupe, setPreds_vec _ _ _ (by simp), loadVec_vec, if_neg (by decide), loadVec_at _ _ _ h]

theorem leftTroupe_latV {l : Nat} (h : l < 128) :
    ((w.leftTroupe b).vec .latV).at_ l = BitVec.ofNat 32 (leNat ((((b.drop 0x680).take 512).drop (4 * l)).take 4)) := by
  rw [Work.leftTroupe, setPreds_vec _ _ _ (by simp), loadVec_at _ _ _ h]

theorem leftTroupe_pred {k : Nat} (hk : k < 7) : (w.leftTroupe b).vec (.p k) = recordPreds b k := by
  rw [Work.leftTroupe, setPreds_pred, if_pos (List.mem_range.2 hk)]

theorem leftTroupe_other {r : Reg} (hI : r ≠ .latI) (hV : r ≠ .latV) (hp : ∀ k, r ≠ .p k) : (w.leftTroupe b).vec r = w.T.vec r := by
  rw [Work.leftTroupe, setPreds_vec _ _ _ hp, loadVec_vec, if_neg hV, loadVec_vec, if_neg hI]
  rfl

end

/-- A split's data put back: what is then found, and that nothing else has changed. -/
theorem close_keeps {s : State} {w y : Work} (hs : y.s = { s with tick := y.s.tick }) (ht : y.tid = w.tid) (he : y.ent = w.ent) (hE : y.E = w.E)
    (hens : y.T.ens = w.T.ens) (hsp : y.T.splits = w.T.splits) :
    ∃ x, y.close.work w.tid w.ent = some x ∧ y.close.troupes.find? w.tid = some x.T ∧ x.S = y.S.meet
      ∧ x.T = { y.T with splits := w.T.splits.put w.ent x.S } ∧ x.E = w.E ∧ othersKept s y.close w x ∧ sameModule s y.close := by
  let m : Work := { y with S := y.S.meet }
  have hclose : y.close = { m.commit with agenda := y.close.agenda } := by
    unfold Work.close
    dsimp only
    split <;> rfl
  have htr : y.s.troupes = s.troupes := by rw [hs]
  have hen : y.s.ensembles = s.ensembles := by rw [hs]
  refine ⟨{ m with s := y.close, T := { y.T with splits := w.T.splits.put w.ent y.S.meet }, act := y.S.meet.mask }, ?_, ?_, rfl, rfl, hE,
    ⟨fun k hk => ?_, fun k hk => ?_, fun k hk => ?_⟩, ?_⟩
  · rw [hclose, ← ht, ← he, ← hsp]
    simp [State.work, Work.commit, m]
  · rw [hclose, ← ht, ← he, ← hsp]
    simp [Work.commit, m]
  · rw [hclose]
    simp [Work.commit, m, ht, hk, htr]
  · rw [hclose]
    simp [Work.commit, m, hens, hk, hen]
  · exact Tab.find?_put_other _ _ hk
  · unfold sameModule
    rw [hclose]
    simp only [Work.commit, m]
    rw [hs]

theorem wakeDue_none {s : State} {tid : Nat} {T : Troupe} (h : s.troupes.find? tid = some T) (hd : T.due = []) : s.wakeDue tid = s := by
  simp only [State.wakeDue, h, hd, if_pos]

/-- A number in the record's first bytes. -/
theorem num_of_record (s : State) {base o n : Nat} (h : o + n ≤ 0x920) : leNat (((s.peek base 0x920).drop o).take n) = s.num base o n := by
  rw [peek_part s h]
  rfl

/-- A lane's word of a register in the record. -/
theorem num_of_lane (s : State) {base o l : Nat} (h : o + 512 ≤ 0x920) (hl : l < 128) :
    leNat (((((s.peek base 0x920).drop o).take 512).drop (4 * l)).take 4) = s.num base (o + 4 * l) 4 := by
  rw [peek_part s h, peek_part s (by omega), Nat.add_assoc]
  rfl

/-- A number of the split-table entry in the record. -/
theorem num_of_entry (s : State) {base o n : Nat} (h : o + n ≤ 1024) :
    leNat (((((s.peek base 0x920).drop 0x080).take 1024).drop o).take n) = s.num base (0x080 + o) n := by
  rw [peek_part s (by decide), peek_part s h, Nat.add_assoc]
  rfl

section
variable (s : State) (p : Split) (base : Nat)

/-- The split-table entry in the record (R82, R389), over the split it replaces. -/
def recordSplit : Split := splitOfBytes p (((s.peek base 0x920).drop 0x080).take 1024)

theorem recordSplit_mask : (recordSplit s p base).mask = BitVec.ofNat 128 (s.num base 0x080 16) :=
  congrArg (BitVec.ofNat 128) (num_of_entry s (o := 0) (by decide))

theorem recordSplit_infull : (recordSplit s p base).infull = (s.num base 0x094 4).testBit 3 :=
  congrArg (bitOf · 3) (num_of_entry s (o := 20) (by decide))

theorem recordSplit_fsave : (recordSplit s p base).fsave = BitVec.ofNat 128 (s.num base 0x098 16) :=
  congrArg (BitVec.ofNat 128) (num_of_entry s (o := 24) (by decide))

theorem recordSplit_scal {k : Nat} (hk : k < 64) : (recordSplit s p base).scal.get k = BitVec.ofNat 32 (s.num base (0x1C0 + 4 * k) 4) := by
  rw [recordSplit, splitOfBytes_scal, get_setEach, if_pos (List.mem_range.2 hk), num_of_entry s (by omega), ← Nat.add_assoc]

theorem recordSplit_frames : (recordSplit s p base).frames = (List.range (min 16 (field (s.num base 0x094 4) 8 4))).map fun k =>
    { rcv := BitVec.ofNat 32 (s.num base (0x0C0 + 16 * k) 4), forkId := BitVec.ofNat 16 (s.num base (0x0C4 + 16 * k) 2),
      wr := BitVec.ofNat 64 (s.num base (0x0C8 + 16 * k) 8) } := by
  rw [recordSplit, splitOfBytes_frames, num_of_entry s (by decide)]
  refine List.map_congr_left fun k hk => ?_
  have hk : k < 16 := by have := List.mem_range.1 hk; omega
  rw [num_of_entry s (by omega), num_of_entry s (by omega), num_of_entry s (by omega), ← Nat.add_assoc, ← Nat.add_assoc, ← Nat.add_assoc]

end

/-- What a record's shadow list is compared with is the split's list and its distance alone (R388). -/
theorem shadowKept_congr {s t : State} {p q : Split} (hm : s.mem = t.mem) (hs : p.shadow = q.shadow) (hd : p.dist = q.dist) (base : Nat) (m : Mask) :
    s.shadowKept base m p = t.shadowKept base m q := by
  have he : recordEntries p = recordEntries q := by rw [recordEntries, recordEntries, hs, hd]
  have hb : shadowBlock p = shadowBlock q := by rw [shadowBlock, shadowBlock, he, hd]
  have hl : shadowSlot p = shadowSlot q := by funext i; rw [shadowSlot, shadowSlot, he]
  have hp : s.peek = t.peek := by funext a n; rw [State.peek, State.peek, hm]
  rw [State.shadowKept, State.shadowKept, hp, hb, hl]

theorem issued_peek (w : Work) (n : Ins) : (w.issued n).s.peek = w.s.peek := rfl

/-- tret, where nothing forbids it, restores the record (R391). -/
theorem tret_leaves {n : Ins} {s : State} {w : Work} (hi : issues n s w) (hq : (∀ p ∈ w.T.pend, p.load = false) ∧ w.T.unacked = [])
    (hh : ∀ p ∈ w.T.allSplits, p.hand = true → p.uid = w.S.uid)
    (hm : BitVec.ofNat 128 (leNat (s.peek (blockBase w.ctx w.T.block + 0x080) 16)) = w.S.mask) (hd : w.T.due = []) :
    ∃ t x, run n (opTret n) s = .next t ∧ t.work w.tid w.ent = some x
      ∧ x.S = ((w.issued n).leftEnd (blockBase w.ctx w.T.block) (s.peek (blockBase w.ctx w.T.block) 0x920)).meet
      ∧ x.T = { (w.issued n).leftTroupe (s.peek (blockBase w.ctx w.T.block) 0x920) with splits := w.T.splits.put w.ent x.S }
      ∧ x.E = w.E ∧ othersKept s t w x ∧ sameModule s t := by
  obtain ⟨-, rfl, -, -, -, -, -, -⟩ := gate_go hi.1
  have hbody : opTret n w = .raw (((w.issued n).leave (blockBase w.ctx w.T.block)).wakeDue w.tid) := by
    have hmask : (splitOfBytes w.S (w.s.peek (blockBase w.ctx w.T.block + 0x080) 1024)).mask = w.S.mask := by
      rw [← hm]
      exact congrArg (fun b => BitVec.ofNat 128 (leNat b)) (peek_part w.s (o := 0) (by decide))
    have hother : w.otherHandler = false := by
      simp only [Work.otherHandler, List.any_eq_false, Bool.and_eq_true, bne_iff_ne, not_and, not_not]
      exact hh
    refine (ifActive_of hi.2).trans ?_
    dsimp only
    rw [(quiet_iff w.T).2 hq, if_neg (by decide), if_neg]
    · rfl
    · rw [hother]
      exact fun h => h.elim nofun fun h => h hmask
  have hleave : (w.issued n).leave (blockBase w.ctx w.T.block) = _ := leave_eq (w.issued n) (blockBase w.ctx w.T.block)
  rw [issued_peek] at hleave
  rw [run_raw hi.1 hbody, hleave]
  generalize w.s.peek (blockBase w.ctx w.T.block) 0x920 = b
  have hT := leftTroupe_only (w.issued n) b
  obtain ⟨x, hx, hf, hS, hxT, hE, hk, hs⟩ := close_keeps (s := w.s) (w := w) (y := { w.issued n with
    T := (w.issued n).leftTroupe b
    S := (w.issued n).leftEnd (blockBase w.ctx w.T.block) b })
    rfl rfl rfl rfl (by rw [hT]; rfl) (by rw [hT]; rfl)
  rw [wakeDue_none hf (by rw [hxT, hT]; exact hd)]
  exact ⟨_, x, rfl, hx, hS, hxT, hE, hk, hs⟩

/-- The split that tret leaves, put back: its state apart, and its place. -/
theorem leftEnd_meet (w : Work) (base : Nat) (b : List Byte) : (w.leftEnd base b).meet = { w.leftSplit base b with
    pc := if leNat ((b.drop 0x003).take 1) = 1 then pcStep (leftPc b) (leNat ((b.drop 0x006).take 1)) else leftPc b
    past := decide (leNat ((b.drop 0x003).take 1) = 1) && pastEnd (leftPc b) (leNat ((b.drop 0x006).take 1))
    fell := (w.leftEnd base b).fell
    state := (w.leftEnd base b).meet.state
    atRejoin := (w.leftEnd base b).meet.atRejoin } := by
  rw [(Split.meet_eq (w.leftEnd base b)).1, leftEnd_eq]

/-- An instruction with a base form behaves as the meaning that both forms run. -/
theorem bothForms_of_run {op : Nat} {x : X → Instr} {b : B3 → Instr} {p : Instr → Ins → Prop} (body : Ins → Work → Eff)
    (h : ∀ i n, (∀ s, exec i s = run n (body n) s) → p i n) (hx : ∀ f s, exec (x f) s = run (insX op f) (body (insX op f)) s)
    (hb : ∀ f s, exec (b f) s = run (insB3 op f) (body (insB3 op f)) s) : bothForms op x b p :=
  ⟨fun f => h _ _ (hx f), fun f => h _ _ (hb f)⟩

/-- tret waits for the handler's loads and stores (R391). -/
theorem tret_waits {n : Ins} {s : State} {w : Work} (hi : issues n s w) (hq : ¬ ((∀ p ∈ w.T.pend, p.load = false) ∧ w.T.unacked = [])) :
    run n (opTret n) s = .next w.hold := by
  refine run_hold hi.1 ((ifActive_of hi.2).trans (if_pos ?_))
  rw [Bool.eq_false_iff.2 (mt (quiet_iff w.T).1 hq)]
  rfl

end Machine

/-- Settles O40: `tret_leaves` for what tret puts back, and one lemma a field for what that is. -/
theorem trapReturn : Obligations.TrapReturn := by
  unfold Obligations.TrapReturn
  refine bothForms_of_run opTret (fun i n he s w hi => ?_) (fun _ _ => rfl) fun _ _ => rfl
  refine ⟨fun hq => (he s).trans (tret_waits hi hq), fun hq hh hm hd => ?_⟩
  obtain ⟨t, x, ht, hx, hS, hT, hE, hk, hs⟩ := tret_leaves hi hq hh hm hd
  have num {o n : Nat} (h : o + n ≤ 0x920) := num_of_record s (base := blockBase w.ctx w.T.block) h
  have lane {o l : Nat} (h : o + 512 ≤ 0x920) (hl : l < 128) := num_of_lane s (base := blockBase w.ctx w.T.block) h hl
  have scal (k : Nat) (hk : k < 64) := recordSplit_scal s (w.issued n).S (blockBase w.ctx w.T.block) hk
  have frames := recordSplit_frames s (w.issued n).S (blockBase w.ctx w.T.block)
  have infull := recordSplit_infull s (w.issued n).S (blockBase w.ctx w.T.block)
  have fsave := recordSplit_fsave s (w.issued n).S (blockBase w.ctx w.T.block)
  have mask := recordSplit_mask s (w.issued n).S (blockBase w.ctx w.T.block)
  have pred {k l : Nat} (hl : l < 128) := recordPreds_at s (blockBase w.ctx w.T.block) k hl
  obtain ⟨-, hws, -⟩ := gate_go hi.1
  have hmem : (w.issued n).s.mem = s.mem := by rw [← hws]; rfl
  have kept {p q : Split} := shadowKept_congr (p := p) (q := q) hmem
  unfold recordSplit at scal frames infull fsave mask
  generalize s.peek (blockBase w.ctx w.T.block) 0x920 = b at *
  have action := num (show 0x003 + 1 ≤ 0x920 by decide)
  have ilen := num (show 0x006 + 1 ≤ 0x920 by decide)
  have pc : leftPc b = BitVec.ofNat 32 (s.num (blockBase w.ctx w.T.block) 0x008 4) &&& 0x0FFFFFFC#32 := by
    rw [leftPc, num (by decide)]
  rw [leftEnd_meet, action, ilen, pc] at hS
  have hts : x.T.tstat = leftStat b w.T.tstat := by rw [hT, leftTroupe_only]; rfl
  have hv (r : Reg) : x.T.vec r = ((w.issued n).leftTroupe b).vec r := by rw [hT]; rfl
  have hms : x.S.mask = w.S.mask := by rw [hS]; exact mask.trans hm
  refine ⟨t, x, (he s).trans ht, hx, hms, by rw [hS]; rfl, by rw [hS]; rfl, by rw [hS]; rfl, by rw [hS]; rfl, by rw [hS]; exact infull,
    by rw [hS]; exact fsave, fun k hk => by rw [hS]; exact scal k hk, by rw [hS]; exact frames, fun h => ?_, fun h hp h1 hC => ?_, fun v hv => ?_, ?_, ?_, fun k hk => ?_,
    fun l hl => ⟨?_, ?_, fun k hk => ?_⟩, fun r hI hV hp => ?_, ?_, hE, hk, hs⟩
  · rw [hS]
    exact leftSplit_passed (w.issued n) (blockBase w.ctx w.T.block) b (action.trans h)
  · have h0 : leNat ((b.drop 0).take 1) = s.num (blockBase w.ctx w.T.block) 0 1 := num (by decide)
    have hne : leNat ((b.drop 0x003).take 1) ≠ 1 := by rw [action]; exact fun e => absurd (e.symm.trans h) (by decide)
    have hredo := leftSplit_redo (w.issued n) (blockBase w.ctx w.T.block) b hne (hp.trans (congrArg some pc.symm)) (by rw [h0]; exact h1) (by rw [h0]; exact hC)
    rw [num (by decide), num (by decide)] at hredo
    rw [hS]
    exact hredo
  · obtain ⟨hrun, hdist, hsh⟩ := leftSplit_saved (w.issued n) (blockBase w.ctx w.T.block) b hv
    rw [action] at hdist
    refine ⟨by rw [hS]; exact hrun, by rw [hS]; exact hdist, fun h => ?_⟩
    have e : ((w.issued n).leftSplit (blockBase w.ctx w.T.block) b).mask = w.S.mask := mask.trans hm
    rw [hS]
    refine hsh ?_
    rw [e]
    exact (kept rfl rfl _ _).trans h
  · rw [hT, leftTroupe_only]
  · rw [hts, leftStat_level, num (by decide)]
    rfl
  · rw [hts]
    exact leftStat_other _ _ hk
  · rw [hv]
    exact (leftTroupe_latI _ _ hl).trans (congrArg (BitVec.ofNat 32) (lane (by decide) hl))
  · rw [hv]
    exact (leftTroupe_latV _ _ hl).trans (congrArg (BitVec.ofNat 32) (lane (by decide) hl))
  · rw [hv, leftTroupe_pred _ _ hk]
    exact pred hl
  · rw [hv]
    exact leftTroupe_other _ _ hI hV hp
  · rw [hT, leftTroupe_only]
    rfl

end Sys2Proof
end

section
/-! What the fusion of splits makes of them (R87). -/

namespace Sys2Proof

open Machine

namespace Machine

/-! ### The frames that a group shares -/

/-- The splits of a group have one fork at a place of their frame stacks. -/
def SameFork (ps : List Split) (k : Nat) : Prop := ∃ f, ∀ p ∈ ps, p.frames[k]?.map (·.forkId) = some f

theorem foldl_max_succ (l : List Nat) (b : Nat) : let m := l.foldl (fun b k => max b (k + 1)) b
    b ≤ m ∧ (∀ k ∈ l, k < m) ∧ (m = b ∨ ∃ k ∈ l, m = k + 1) := by
  induction l generalizing b with
  | nil => simp
  | cons a l ih =>
    obtain ⟨h1, h2, h3⟩ := ih (max b (a + 1))
    refine ⟨by rw [List.foldl_cons]; omega, fun k hk => ?_, ?_⟩
    · rw [List.foldl_cons]
      obtain rfl | hk := List.mem_cons.1 hk
      · omega
      · exact h2 k hk
    · rw [List.foldl_cons]
      obtain h | ⟨k, hk, h⟩ := h3
      · by_cases hb : a + 1 ≤ b
        · exact .inl (by rw [h]; omega)
        · exact .inr ⟨a, List.mem_cons_self, by rw [h]; omega⟩
      · exact .inr ⟨k, List.mem_cons_of_mem a hk, h⟩

theorem sharedFrames_cons (p : Split) (ps : List Split) : sharedFrames (p :: ps) = ((List.range 16).filter fun k =>
    (p.frames[k]?).isSome && (p :: ps).all fun q => (q.frames[k]?).map (·.forkId) = (p.frames[k]?).map (·.forkId)).foldl
      (fun b k => max b (k + 1)) 0 := rfl

theorem sameFork_iff (p : Split) (ps : List Split) (k : Nat) : ((p.frames[k]?).isSome
    && (p :: ps).all fun q => (q.frames[k]?).map (·.forkId) = (p.frames[k]?).map (·.forkId)) = true ↔ SameFork (p :: ps) k := by
  simp only [Bool.and_eq_true, List.all_eq_true, decide_eq_true_eq, SameFork]
  constructor
  · rintro ⟨hs, ha⟩
    obtain ⟨f, hf⟩ := Option.isSome_iff_exists.1 hs
    exact ⟨f.forkId, fun q hq => by rw [ha q hq, hf]; rfl⟩
  · rintro ⟨f, hf⟩
    have hp := hf p List.mem_cons_self
    exact ⟨by simpa using congrArg Option.isSome hp, fun q hq => (hf q hq).trans hp.symm⟩

theorem lt_sharedFrames {ps : List Split} {k : Nat} (hne : ps ≠ []) (hl : ∀ p ∈ ps, p.frames.length ≤ 16) (h : SameFork ps k) :
    k < sharedFrames ps := by
  obtain _ | ⟨p, ps⟩ := ps
  · exact absurd rfl hne
  · have hk : k < 16 := by
      obtain ⟨f, hf⟩ := h
      have := hl p List.mem_cons_self
      by_contra hc
      have hp := hf p List.mem_cons_self
      rw [List.getElem?_eq_none (by omega)] at hp
      cases hp
    rw [sharedFrames_cons]
    obtain ⟨-, hlt, -⟩ := foldl_max_succ ((List.range 16).filter fun k =>
      (p.frames[k]?).isSome && (p :: ps).all fun q => (q.frames[k]?).map (·.forkId) = (p.frames[k]?).map (·.forkId)) 0
    exact hlt k (List.mem_filter.2 ⟨List.mem_range.2 hk, (sameFork_iff p ps k).2 h⟩)

theorem sharedFrames_last {ps : List Split} (hne : ps ≠ []) : sharedFrames ps = 0 ∨ SameFork ps (sharedFrames ps - 1) := by
  obtain _ | ⟨p, ps⟩ := ps
  · exact absurd rfl hne
  · obtain ⟨-, -, hlast⟩ := foldl_max_succ ((List.range 16).filter fun k =>
      (p.frames[k]?).isSome && (p :: ps).all fun q => (q.frames[k]?).map (·.forkId) = (p.frames[k]?).map (·.forkId)) 0
    obtain h | ⟨k, hk, h⟩ := hlast
    · exact .inl h
    · rw [sharedFrames_cons, h, Nat.add_sub_cancel]
      exact .inr ((sameFork_iff p ps k).1 (List.mem_filter.1 hk).2)

/-! ### The merge of scalar registers -/

theorem lowestOf_ne_none {ps : List Split} (h : ps ≠ []) : ∃ p, lowestOf ps = some p := by
  obtain _ | ⟨p, ps⟩ := ps
  · exact absurd rfl h
  · unfold lowestOf
    split
    · exact ⟨p, rfl⟩
    · split <;> exact ⟨_, rfl⟩

theorem lowestOf_some {ps : List Split} {p : Split} (h : lowestOf ps = some p) : p ∈ ps ∧ ∀ q ∈ ps, lowLane p.mask ≤ lowLane q.mask := by
  induction ps generalizing p with
  | nil => cases h
  | cons a ps ih =>
    unfold lowestOf at h
    split at h
    · next e =>
      cases h
      have : ps = [] := by
        by_contra hc
        obtain ⟨x, hx⟩ := lowestOf_ne_none hc
        rw [hx] at e; cases e
      subst this
      simp
    · next x e =>
      obtain ⟨h1, h2⟩ := ih e
      split at h
      · next hl =>
        cases h
        refine ⟨List.mem_cons_of_mem a h1, fun q hq => ?_⟩
        obtain rfl | hq := List.mem_cons.1 hq
        · omega
        · exact h2 q hq
      · next hl =>
        cases h
        refine ⟨List.mem_cons_self, fun q hq => ?_⟩
        obtain rfl | hq := List.mem_cons.1 hq
        · exact Nat.le_refl _
        · exact Nat.le_trans (Nat.not_lt.1 hl) (h2 q hq)

theorem writersOf_ne_nil {ps : List Split} (n : Nat) (h : ps ≠ []) : writersOf ps n ≠ [] := by
  unfold writersOf
  dsimp only
  split
  · exact h
  · assumption

theorem writersOf_sub {ps : List Split} {n : Nat} {p : Split} (h : p ∈ writersOf ps n) : p ∈ ps := by
  unfold writersOf at h
  dsimp only at h
  split at h
  · exact h
  · exact (List.mem_filter.1 h).1

theorem mergeScalar_of {ps : List Split} {n : Nat} {p : Split} (h : lowestOf (writersOf ps n) = some p) :
    mergeScalar ps (sharedFrames ps) n = (p.scal.get n, !((writersOf ps n).all fun q => q.scal.get n = p.scal.get n)) := by
  unfold writersOf at h ⊢
  unfold mergeScalar
  dsimp only at h ⊢
  rw [h]

/-- Whether the values of a register that count differ. -/
theorem mergeScalar_differs {ps : List Split} {n : Nat} (hne : ps ≠ []) : (mergeScalar ps (sharedFrames ps) n).2 = true
    ↔ ∃ p q, p ∈ writersOf ps n ∧ q ∈ writersOf ps n ∧ p.scal.get n ≠ q.scal.get n := by
  obtain ⟨x, hx⟩ := lowestOf_ne_none (writersOf_ne_nil n hne)
  rw [mergeScalar_of hx]
  simp only [Bool.not_eq_true', List.all_eq_false, decide_eq_true_eq]
  constructor
  · rintro ⟨q, hq, hd⟩
    exact ⟨q, x, hq, (lowestOf_some hx).1, hd⟩
  · rintro ⟨p, q, hp, hq, hd⟩
    by_cases h : p.scal.get n = x.scal.get n
    · exact ⟨q, hq, fun e => hd (h.trans e.symm)⟩
    · exact ⟨p, hp, h⟩

section
variable (ps : List Split) (keep : Split) (frames : List Frame) (d : Dest) (from_ tick : Nat)

theorem fuse_get {n : Nat} (h : n < 64) : (fuse ps keep frames d from_ tick).1.scal.get n = (mergeScalar ps (sharedFrames ps) n).1 := by
  unfold fuse
  dsimp only
  rw [get_setEach, if_pos (List.mem_range.2 h), List.getD_eq_getElem _ _ (by simpa using h), List.getElem_map, List.getElem_range]

theorem fuse_mergesTo (hne : ps ≠ []) : mergesTo ps (fuse ps keep frames d from_ tick).1.scal := by
  intro n p hn hp hlow
  obtain ⟨x, hx⟩ := lowestOf_ne_none (writersOf_ne_nil n hne)
  obtain ⟨hm, hmin⟩ := lowestOf_some hx
  rw [fuse_get _ _ _ _ _ _ hn, mergeScalar_of hx]
  obtain rfl | hlt := hlow x hm
  · rfl
  · exact absurd (hmin p hp) (Nat.not_le.2 hlt)

theorem fuse_differs (hne : ps ≠ []) : (fuse ps keep frames d from_ tick).2 = true
    ↔ ∃ n p q, n < 64 ∧ p ∈ writersOf ps n ∧ q ∈ writersOf ps n ∧ p.scal.get n ≠ q.scal.get n := by
  have e : (fuse ps keep frames d from_ tick).2 = ((List.range 64).map fun n => mergeScalar ps (sharedFrames ps) n).any (·.2) := rfl
  rw [e, List.any_eq_true]
  simp only [List.mem_map, List.mem_range, exists_exists_and_eq_and, mergeScalar_differs hne]
  exact exists_congr fun n => ⟨fun ⟨hn, p, q, h⟩ => ⟨p, q, hn, h⟩, fun ⟨p, q, hn, h⟩ => ⟨hn, p, q, h⟩⟩

theorem fuse_mask (l : Nat) : (fuse ps keep frames d from_ tick).1.mask.getLsbD l = true ↔ ∃ r ∈ ps, r.mask.getLsbD l = true := by
  have e : (fuse ps keep frames d from_ tick).1.mask = (ps.map (·.mask)).foldl (· ||| ·) 0 := rfl
  rw [e, getLsbD_foldl_or]
  simp

end

/-! ### Frames with the writes of a group -/

theorem addWr_concat (wr : BitVec 64) (l : List Frame) (f : Frame) : addWr wr (l ++ [f]) = l ++ [{ f with wr := f.wr ||| wr }] := by
  simp [addWr]

theorem addWr_forks (wr : BitVec 64) (fs : List Frame) : (addWr wr fs).map (fun f => (f.rcv, f.forkId)) = fs.map fun f => (f.rcv, f.forkId) := by
  obtain rfl | ⟨l, f, rfl⟩ := List.eq_nil_or_concat fs
  · rfl
  · simp [addWr_concat]

theorem addWr_dropLast (wr : BitVec 64) (fs : List Frame) : (addWr wr fs).dropLast = fs.dropLast := by
  obtain rfl | ⟨l, f, rfl⟩ := List.eq_nil_or_concat fs
  · rfl
  · simp [addWr_concat]

theorem addWr_getLast (wr : BitVec 64) (fs : List Frame) : (addWr wr fs).getLast? = fs.getLast?.map fun f => { f with wr := f.wr ||| wr } := by
  obtain rfl | ⟨l, f, rfl⟩ := List.eq_nil_or_concat fs
  · rfl
  · simp [addWr_concat]

/-- The writes that the top frames of a group note. -/
def topWrites (ps : List Split) : BitVec 64 := (ps.map fun p => (p.frames.getLast?.map (·.wr)).getD 0).foldl (· ||| ·) 0

theorem topWrites_bit (ps : List Split) (n : Nat) : (topWrites ps).getLsbD n = true ↔ ∃ r ∈ ps, ∃ h ∈ r.frames.getLast?, h.wr.getLsbD n = true := by
  have h0 : (0 : BitVec 64).getLsbD n = false := BitVec.getLsbD_zero
  rw [topWrites, getLsbD_foldl_or, h0]
  simp only [List.mem_map, exists_exists_and_eq_and, Bool.false_eq_true, false_or]
  refine exists_congr fun r => and_congr_right fun _ => ?_
  cases r.frames.getLast? <;> simp

/-- The deepest frame stack of a group, or `b` if that is deeper. -/
theorem foldl_deepest {α : Type} (g : List Frame → α) {a : α} (ps : List Split) (b : List Frame)
    (hb : b ≠ [] → g b = a) (h : ∀ p ∈ ps, g p.frames = a) (hne : b ≠ [] ∨ ∃ p ∈ ps, p.frames ≠ []) :
    g (ps.foldl (fun (b : List Frame) p => if b.length < p.frames.length then p.frames else b) b) = a := by
  induction ps generalizing b with
  | nil => exact hb (hne.resolve_right (by simp))
  | cons p ps ih =>
    rw [List.foldl_cons]
    refine ih _ (fun hn => ?_) (fun q hq => h q (List.mem_cons_of_mem p hq)) ?_
    · split at hn <;> rename_i hl
      · rw [if_pos hl]
        exact h p List.mem_cons_self
      · rw [if_neg hl]
        exact hb hn
    · split
      · next hl => exact .inl (by rintro e; rw [e] at hl; simp at hl)
      · next hl =>
        by_cases hb0 : b = []
        · subst hb0
          have hp0 : p.frames = [] := by simpa using hl
          obtain ⟨q, hq, hq0⟩ := hne.resolve_left (by simp)
          obtain rfl | hq := List.mem_cons.1 hq
          · exact absurd hp0 hq0
          · exact .inr ⟨q, hq, hq0⟩
        · exact .inl hb0

/-- A group whose splits have one stack of forks shares it all. -/
theorem sharedFrames_of_forks {ps : List Split} {ids : List (BitVec 16)} (hne : ps ≠ []) (hl : ∀ p ∈ ps, p.frames.length ≤ 16)
    (h : ∀ p ∈ ps, p.frames.map (·.forkId) = ids) : sharedFrames ps = ids.length := by
  have hget (k : Nat) {p : Split} (hp : p ∈ ps) : p.frames[k]?.map (·.forkId) = ids[k]? := by rw [← h p hp, List.getElem?_map]
  obtain ⟨x, hx⟩ := List.exists_mem_of_ne_nil ps hne
  refine Nat.le_antisymm ?_ (Nat.le_of_not_lt fun hlt => ?_)
  · obtain h0 | ⟨f, hf⟩ := sharedFrames_last hne
    · omega
    · have hs := (hget (sharedFrames ps - 1) hx).symm.trans (hf x hx)
      have := (List.getElem?_eq_some_iff.1 hs).1
      omega
  · have hsame : SameFork ps (ids.length - 1) := ⟨ids[ids.length - 1]'(by omega), fun p hp => by rw [hget _ hp, List.getElem?_eq_getElem]⟩
    have := lt_sharedFrames hne hl hsame
    omega

/-- Splits that wait on at their meeting point keep the forks of its stack. -/
theorem partFrames_forks {ps : List Split} {ids : List (BitVec 16)} (hne : ps ≠ []) (hids : ids ≠ []) (hl : ∀ p ∈ ps, p.frames.length ≤ 16)
    (h : ∀ p ∈ ps, p.frames.map (·.forkId) = ids) : (partFrames ps).map (·.forkId) = ids := by
  obtain ⟨x, hx⟩ := List.exists_mem_of_ne_nil ps hne
  have hc := sharedFrames_of_forks hne hl h
  have hc0 : sharedFrames ps ≠ 0 := by rw [hc]; exact fun e => hids (List.length_eq_zero_iff.1 e)
  have hdeep : (ps.foldl (fun (b : List Frame) p => if b.length < p.frames.length then p.frames else b) []).map (·.forkId) = ids :=
    foldl_deepest _ ps [] (fun h => absurd rfl h) h (.inr ⟨x, hx, fun e => hids (by rw [← h x hx, e]; rfl)⟩)
  have hforks (wr : BitVec 64) (fs : List Frame) : (addWr wr fs).map (·.forkId) = fs.map (·.forkId) := by
    have e := congrArg (List.map Prod.snd) (addWr_forks wr fs)
    rw [List.map_map, List.map_map] at e
    exact e
  unfold partFrames
  dsimp only
  rw [if_neg hc0, hforks, List.map_take, hdeep, hc, List.take_length]

end Machine
end Sys2Proof
end

section
/-! Splits that meet: who is released, and where the fused ones stand in the troupe (R86, R87, R107). -/

namespace Sys2Proof

open Machine

/-- Where no entry has the key, a table has one entry more. -/
theorem Tab.put_perm {α : Type} {t : Tab α} {k : Nat} {x : α} (h : k ∉ t.map (·.1)) : (t.put k x).Perm ((k, x) :: t) := by
  induction t with
  | nil => exact .refl _
  | cons e t ih =>
    simp only [List.map_cons, List.mem_cons, not_or] at h
    unfold Tab.put
    split
    · exact .refl _
    · rw [if_neg h.1]
      exact ((ih h.2).cons e).trans (.swap _ _ _)

namespace Machine

theorem mem_allSplits {T : Troupe} {r : Split} : r ∈ T.allSplits ↔ (∃ e ∈ T.splits, e.2 = r) ∨ r ∈ T.stack ∨ ∃ e ∈ T.coming, e.2 = r := by
  simp only [Troupe.allSplits, List.mem_append, List.mem_map, or_assoc]

theorem mem_allSplits_of_entry {T : Troupe} {e : Nat × Split} (h : e ∈ T.splits) : e.2 ∈ T.allSplits := mem_allSplits.2 (.inl ⟨e, h, rfl⟩)

/-- No two entries of the split table have one key, and no two splits of the troupe one name. -/
def Tidy (T : Troupe) : Prop := (T.splits.map (·.1)).Nodup ∧ (T.allSplits.map (·.uid)).Nodup

theorem Tidy.eq_of_uid {T : Troupe} (h : Tidy T) {p q : Split} (hp : p ∈ T.allSplits) (hq : q ∈ T.allSplits) (e : p.uid = q.uid) : p = q :=
  List.inj_on_of_nodup_map h.2 hp hq e

theorem Tidy.eq_of_key {T : Troupe} (h : Tidy T) {e f : Nat × Split} (he : e ∈ T.splits) (hf : f ∈ T.splits) (hk : e.1 = f.1) : e = f :=
  List.inj_on_of_nodup_map h.1 he hf hk

/-! ### The table with a fused split -/

section
variable {T : Troupe} {ps : List Split} {k : Nat} {keep : Split} {q : Split × Bool}

/-- The entries that a fusion leaves as they are. -/
def Troupe.unfused (T : Troupe) (ps : List Split) : Tab Split := List.filter (fun e => !(ps.any fun x => x.uid = e.2.uid)) T.splits

theorem mem_unfused {e : Nat × Split} : e ∈ T.unfused ps ↔ e ∈ T.splits ∧ ∀ x ∈ ps, x.uid ≠ e.2.uid := by
  simp [Troupe.unfused]

theorem putFused_find : (T.putFused ps k q).splits.find? k = some q.1 := Tab.find?_put_same _ _ _

theorem putFused_mem : q.1 ∈ (T.putFused ps k q).allSplits := mem_allSplits_of_entry (Tab.mem_of_find? putFused_find)

variable (ht : Tidy T) (hk : (k, keep) ∈ T.splits) (hx : ∃ x ∈ ps, x.uid = keep.uid)
include ht hk hx

/-- The entry of the fused split is free when it is put there. -/
theorem putFused_perm : (T.putFused ps k q).splits.Perm ((k, q.1) :: T.unfused ps) := by
  refine Tab.put_perm fun h => ?_
  obtain ⟨e, he, hek⟩ := List.mem_map.1 h
  obtain ⟨hm, hn⟩ := mem_unfused.1 he
  obtain ⟨x, hx, hu⟩ := hx
  exact hn x hx (hu.trans (congrArg (fun e => e.2.uid) (ht.eq_of_key hm hk hek)).symm)

theorem putFused_keepsEntry {e : Nat × Split} (he : e ∈ T.splits) (hn : ∀ x ∈ ps, x.uid ≠ e.2.uid) : e ∈ (T.putFused ps k q).splits :=
  (putFused_perm ht hk hx).mem_iff.2 (List.mem_cons_of_mem _ (mem_unfused.2 ⟨he, hn⟩))

theorem putFused_keeps {r : Split} (hr : r ∈ T.allSplits) (hn : ∀ x ∈ ps, x.uid ≠ r.uid) : r ∈ (T.putFused ps k q).allSplits := by
  obtain ⟨e, he, rfl⟩ | h := mem_allSplits.1 hr
  · exact mem_allSplits_of_entry (putFused_keepsEntry ht hk hx he hn)
  · exact mem_allSplits.2 (.inr h)

/-- No split but the one that is fused over has its name. -/
theorem unfused_apart : keep.uid ∉ ((T.unfused ps).map (·.2) ++ T.stack ++ T.coming.map (·.2)).map (·.uid) := by
  intro h
  have hnd := ht.2
  rw [Troupe.allSplits, List.append_assoc, List.map_append, List.nodup_append] at hnd
  obtain ⟨-, -, hdisj⟩ := hnd
  rw [List.append_assoc, List.map_append, List.mem_append] at h
  obtain h | h := h
  · obtain ⟨r, hr, hu⟩ := List.mem_map.1 h
    obtain ⟨e, he, rfl⟩ := List.mem_map.1 hr
    obtain ⟨x, hx, hxu⟩ := hx
    exact (mem_unfused.1 he).2 x hx (hxu.trans hu.symm)
  · exact hdisj keep.uid (List.mem_map.2 ⟨keep, List.mem_map.2 ⟨_, hk, rfl⟩, rfl⟩) _ h rfl

theorem putFused_tidy (hq : q.1.uid = keep.uid) : Tidy (T.putFused ps k q) := by
  have hp := putFused_perm (q := q) ht hk hx
  have hsub : (T.unfused ps).Sublist T.splits := List.filter_sublist
  refine ⟨(hp.map (·.1)).nodup_iff.2 (List.nodup_cons.2 ⟨fun h => ?_, ht.1.sublist (hsub.map _)⟩), ?_⟩
  · obtain ⟨e, he, hek⟩ := List.mem_map.1 h
    obtain ⟨hm, hn⟩ := mem_unfused.1 he
    obtain ⟨x, hx, hu⟩ := hx
    exact hn x hx (hu.trans (congrArg (fun e => e.2.uid) (ht.eq_of_key hm hk hek)).symm)
  · have hall : (T.putFused ps k q).allSplits.Perm (q.1 :: ((T.unfused ps).map (·.2) ++ T.stack ++ T.coming.map (·.2))) :=
      ((hp.map Prod.snd).append_right T.stack).append_right (T.coming.map Prod.snd)
    refine (hall.map (·.uid)).nodup_iff.2 (List.nodup_cons.2 ⟨?_, ht.2.sublist (List.Sublist.map _ ?_)⟩)
    · change q.1.uid ∉ _
      rw [hq]
      exact unfused_apart ht hk hx
    · exact ((hsub.map _).append (.refl _)).append (.refl _)

end

/-! ### The split that a group's entry holds -/

theorem groupEntry_some {T : Troupe} {ps : List Split} {k : Nat} {keep : Split} (h : T.groupEntry ps = some (k, keep)) :
    (k, keep) ∈ T.splits ∧ ∃ x ∈ ps, x.uid = keep.uid := by
  refine ⟨List.mem_of_find?_eq_some h, ?_⟩
  simpa using List.find?_some h

theorem groupEntry_of {T : Troupe} {ps : List Split} {x : Split} {e : Nat × Split} (hx : x ∈ ps) (he : e ∈ T.splits) (hu : x.uid = e.2.uid) :
    ∃ k keep, T.groupEntry ps = some (k, keep) := by
  have : (T.groupEntry ps).isSome = true := List.find?_isSome.2 ⟨e, he, by simpa using ⟨x, hx, hu⟩⟩
  obtain ⟨⟨k, keep⟩, h⟩ := Option.isSome_iff_exists.1 this
  exact ⟨k, keep, h⟩

/-- It is one of the group. -/
theorem groupEntry_mem {T : Troupe} {ps : List Split} {k : Nat} {keep : Split} (ht : Tidy T) (hps : ∀ p ∈ ps, p ∈ T.allSplits)
    (h : T.groupEntry ps = some (k, keep)) : keep ∈ ps := by
  obtain ⟨hk, x, hx, hu⟩ := groupEntry_some h
  have e : x = keep := ht.eq_of_uid (hps x hx) (mem_allSplits_of_entry hk) hu
  exact e ▸ hx

/-! ### One split that passes its rejoin -/

theorem modSplit_allSplits (T : Troupe) (uid : Nat) (f : Split → Split) :
    (T.modSplit uid f).allSplits = T.allSplits.map fun p => if p.uid = uid then f p else p := by
  simp [Troupe.modSplit, Troupe.modAll, Troupe.allSplits, Function.comp_def]

theorem modSplit_tidy {T : Troupe} (h : Tidy T) (uid : Nat) {f : Split → Split} (hf : ∀ p, (f p).uid = p.uid) : Tidy (T.modSplit uid f) := by
  refine ⟨?_, ?_⟩
  · have e : (T.modSplit uid f).splits.map (·.1) = T.splits.map (·.1) := by simp [Troupe.modSplit, Troupe.modAll, Function.comp_def]
    rw [e]
    exact h.1
  · have e : (T.modSplit uid f).allSplits.map (·.uid) = T.allSplits.map (·.uid) := by
      rw [modSplit_allSplits, List.map_map]
      refine List.map_congr_left fun p _ => ?_
      dsimp only [Function.comp]
      split
      · exact hf p
      · rfl
    rw [e]
    exact h.2

theorem modSplit_keepsEntry {T : Troupe} {uid : Nat} {f : Split → Split} {e : Nat × Split} (he : e ∈ T.splits) (hn : e.2.uid ≠ uid) :
    e ∈ (T.modSplit uid f).splits :=
  List.mem_map.2 ⟨e, he, by dsimp only; rw [if_neg hn]⟩

theorem modSplit_keeps {T : Troupe} {uid : Nat} {f : Split → Split} {r : Split} (hr : r ∈ T.allSplits) (hn : r.uid ≠ uid) :
    r ∈ (T.modSplit uid f).allSplits := by
  rw [modSplit_allSplits]
  exact List.mem_map.2 ⟨r, hr, if_neg hn⟩

/-! ### The groups that the rules release -/

theorem released_some {T : Troupe} {ps : List Split} (h : T.released = some ps) : ∃ f pc ids, ps ≠ [] ∧ ids.getLast? = some f
    ∧ (∀ p ∈ ps, p ∈ T.allSplits ∧ p.state = 3 ∧ p.atRejoin = 0 ∧ p.pc = pc ∧ p.frames.map (·.forkId) = ids)
    ∧ ∀ q ∈ T.allSplits, q ∉ ps → (∀ g ∈ q.frames, g.forkId ≠ f)
        ∨ (q.state = 3 ∧ q.pc = pc ∧ q.frames.getLast?.map (·.forkId) = some f ∧ q.frames.map (·.forkId) ≠ ids) := by
  obtain ⟨p, hp, hf⟩ := List.exists_of_findSome?_eq_some h
  obtain ⟨hpm, hps⟩ := List.mem_filter.1 hp
  simp only [Bool.and_eq_true, decide_eq_true_eq] at hps
  split at hf
  · cases hf
  · next f hlast =>
    split at hf
    · next hall =>
      cases hf
      simp only [List.all_eq_true, Bool.or_eq_true, Bool.and_eq_true, decide_eq_true_eq, Split.waitsAt, Bool.not_eq_true', List.any_eq_false] at hall
      refine ⟨f.forkId, p.pc, p.frames.map (·.forkId), ?_, by rw [List.getLast?_map, hlast]; rfl, fun q hq => ?_, fun q hq hn => ?_⟩
      · exact List.ne_nil_of_mem (List.mem_filter.2 ⟨hpm, by simp [Split.waitsAt, hps, hlast]⟩)
      · simp only [List.mem_filter, Split.waitsAt, Bool.and_eq_true, decide_eq_true_eq] at hq
        obtain ⟨hq, ⟨⟨⟨h3, h0⟩, -⟩, hpc⟩, hids⟩ := hq
        exact ⟨hq, h3, h0, hpc, hids⟩
      · simp only [List.mem_filter, Split.waitsAt, Bool.and_eq_true, decide_eq_true_eq, not_and] at hn
        obtain ⟨⟨⟨h3, h0⟩, ht⟩, hpc⟩ | hg := hall q hq
        · exact .inr ⟨h3, hpc, ht, hn hq ⟨⟨⟨h3, h0⟩, ht⟩, hpc⟩⟩
        · exact .inl hg
    · cases hf

theorem nodup_distinct (l : List Nat) : (distinct l).Nodup := by
  induction l with
  | nil => exact List.nodup_nil
  | cons a l ih => exact List.nodup_cons.2 ⟨fun h => by simpa using (List.mem_filter.1 h).2, ih.filter _⟩

/-- The splits that stand at the rejoin of an address. -/
def Troupe.rejoiners (T : Troupe) (a : Nat) : List Split := T.allSplits.filter fun p => p.atRejoin ≠ 0 && p.pc.toNat = a

theorem mem_rejoiners {T : Troupe} {a : Nat} {p : Split} : p ∈ T.rejoiners a ↔ p ∈ T.allSplits ∧ p.atRejoin ≠ 0 ∧ p.pc.toNat = a := by
  simp [Troupe.rejoiners]

theorem rejoined_some {T : Troupe} {gs : List (List Split)} (h : T.rejoined = some gs) : (∀ p ∈ T.allSplits, p.state = 3) ∧ T.released = none
    ∧ ∃ as : List Nat, as.Nodup ∧ gs = as.map T.rejoiners ∧ (∀ a ∈ as, T.rejoiners a ≠ []) ∧ ∀ p ∈ T.allSplits, p.atRejoin ≠ 0 → p.pc.toNat ∈ as := by
  simp only [Troupe.rejoined] at h
  split at h
  · cases h
  · next hc =>
    cases h
    simp only [not_or, Bool.not_eq_true, Bool.not_eq_false', List.all_eq_true, decide_eq_true_eq,
      Option.isSome_eq_false_iff, Option.isNone_iff_eq_none] at hc
    obtain ⟨-, hstate, hrel⟩ := hc
    refine ⟨hstate, hrel, _, nodup_distinct _, rfl, fun a ha => ?_, fun p hp h0 => ?_⟩
    · obtain ⟨p, hp, rfl⟩ := List.mem_map.1 (mem_distinct.1 ha)
      obtain ⟨hm, h0⟩ := List.mem_filter.1 hp
      exact List.ne_nil_of_mem (mem_rejoiners.2 ⟨hm, by simpa using h0, rfl⟩)
    · exact mem_distinct.2 (List.mem_map.2 ⟨p, List.mem_filter.2 ⟨hp, by simpa using h0⟩, rfl⟩)

end Machine
end Sys2Proof
end

section
/-! The rejoin rule (R86, R107): what one group leaves, and all of them. -/

namespace Sys2Proof

open Machine

namespace Machine

/-- The split `q` that a group which passes its rejoin leaves; it goes on past that of `p`, one of the group. -/
structure Passed (g : List Split) (p q : Split) : Prop where
  state : q.state = 1
  frames : q.frames = []
  pc : q.pc = pcStep p.pc p.atRejoin
  past : q.past = pastEnd p.pc p.atRejoin
  alone : g.length = 1 → q.run = p.run ∧ q.shadow = p.shadow
  scal : mergesTo g q.scal
  mask : ∀ l, q.mask.getLsbD l = true ↔ ∃ r ∈ g, r.mask.getLsbD l = true

theorem mergesTo_alone (p : Split) : mergesTo [p] p.scal := by
  intro n q _ hq _
  rw [List.mem_singleton.1 (writersOf_sub hq)]

theorem passRejoin_passed (p : Split) (now : Nat) : Passed [p] p (p.passRejoin now) where
  state := rfl
  frames := rfl
  pc := rfl
  past := rfl
  alone _ := ⟨rfl, rfl⟩
  scal := mergesTo_alone p
  mask l := by
    have e : (p.passRejoin now).mask = p.mask := rfl
    simp [e]

theorem fuse_passed {g : List Split} (keep : Split) (from_ tick : Nat) (hne : g ≠ []) (h1 : g.length ≠ 1) :
    Passed g keep (fuse g keep [] (nextDest keep.pc keep.atRejoin) from_ tick).1 where
  state := rfl
  frames := rfl
  pc := rfl
  past := rfl
  alone h := absurd h h1
  scal := fuse_mergesTo g keep _ _ _ _ hne
  mask := fuse_mask g keep _ _ _ _

/-- What the passing of a group's rejoin leaves of a troupe. -/
structure PassesRejoin (U V : Troupe) (g : List Split) : Prop where
  tidy : Tidy V
  only : V = { U with splits := V.splits, stack := V.stack, coming := V.coming, tstat := V.tstat }
  passed : ∃ p ∈ g, ∃ q ∈ V.allSplits, q.uid = p.uid ∧ Passed g p q
  entries : ∀ e ∈ U.splits, (∀ x ∈ g, x.uid ≠ e.2.uid) → e ∈ V.splits
  others : ∀ r ∈ U.allSplits, (∀ x ∈ g, x.uid ≠ r.uid) → r ∈ V.allSplits
  differs : mergeDiffers g → V.tstat = U.tstat ||| flagMerge
  agrees : ¬ mergeDiffers g → V.tstat = U.tstat

theorem passRejoin_alone {U : Troupe} {p : Split} (ht : Tidy U) (hp : p ∈ U.allSplits) (now tick : Nat) :
    PassesRejoin U (U.passRejoin now tick [p]) [p] where
  tidy := modSplit_tidy ht p.uid fun _ => rfl
  only := rfl
  passed := by
    refine ⟨p, List.mem_singleton_self p, p.passRejoin now, ?_, rfl, passRejoin_passed p now⟩
    have e : (U.passRejoin now tick [p]).allSplits = _ := modSplit_allSplits U p.uid fun p => p.passRejoin now
    rw [e]
    exact List.mem_map.2 ⟨p, hp, if_pos rfl⟩
  entries _ he hn := modSplit_keepsEntry he (hn p (List.mem_singleton_self p)).symm
  others _ hr hn := modSplit_keeps hr (hn p (List.mem_singleton_self p)).symm
  differs h := absurd rfl h.1
  agrees _ := rfl

theorem passRejoin_several {U : Troupe} {g : List Split} {k : Nat} {keep : Split} (h1 : g.length ≠ 1) (hk : U.groupEntry g = some (k, keep))
    (now tick : Nat) : U.passRejoin now tick g = U.putFused g k (fuse g keep [] (nextDest keep.pc keep.atRejoin) (now + 4) tick) := by
  unfold Troupe.passRejoin
  split
  · exact absurd rfl h1
  · rw [hk]

theorem passRejoin_group {U : Troupe} {g : List Split} (ht : Tidy U) (hne : g ≠ []) (h1 : g.length ≠ 1) (hg : ∀ p ∈ g, p ∈ U.allSplits)
    (hres : ∀ p ∈ g, ∃ e ∈ U.splits, e.2 = p) (now tick : Nat) : PassesRejoin U (U.passRejoin now tick g) g := by
  obtain ⟨x, hx⟩ := List.exists_mem_of_ne_nil g hne
  obtain ⟨e, he, hu⟩ := hres x hx
  obtain ⟨k, keep, hk⟩ := groupEntry_of hx he (congrArg Split.uid hu.symm)
  obtain ⟨hm, hn⟩ := groupEntry_some hk
  have hd := fuse_differs g keep [] (nextDest keep.pc keep.atRejoin) (now + 4) tick hne
  rw [passRejoin_several h1 hk now tick]
  exact
    { tidy := putFused_tidy ht hm hn rfl
      only := rfl
      passed := ⟨keep, groupEntry_mem ht hg hk, _, putFused_mem, rfl, fuse_passed keep (now + 4) tick hne h1⟩
      entries := fun _ => putFused_keepsEntry ht hm hn
      others := fun _ => putFused_keeps ht hm hn
      differs := fun h => if_pos (hd.2 h.2)
      agrees := fun h => if_neg fun hf => h ⟨h1, hd.1 hf⟩ }

theorem passRejoin_passes {U : Troupe} {g : List Split} (ht : Tidy U) (hne : g ≠ []) (hg : ∀ p ∈ g, p ∈ U.allSplits)
    (hres : 2 ≤ g.length → ∀ p ∈ g, ∃ e ∈ U.splits, e.2 = p) (now tick : Nat) : PassesRejoin U (U.passRejoin now tick g) g := by
  by_cases h1 : g.length = 1
  · obtain ⟨p, rfl⟩ := List.length_eq_one_iff.1 h1
    exact passRejoin_alone ht (hg p (List.mem_singleton_self p)) now tick
  · have h0 : g.length ≠ 0 := fun h => hne (List.length_eq_zero_iff.1 h)
    exact passRejoin_group ht hne h1 hg (hres (by omega)) now tick

/-! ### All groups -/

/-- No split of one group has the name of one of the other. -/
def Apart (g h : List Split) : Prop := ∀ p ∈ g, ∀ q ∈ h, p.uid ≠ q.uid

/-- The members of a group are splits of the troupe, and entries of its table where they are several. -/
structure Ready (U : Troupe) (g : List Split) : Prop where
  nonempty : g ≠ []
  splits : ∀ p ∈ g, p ∈ U.allSplits
  resident : 2 ≤ g.length → ∀ p ∈ g, ∃ e ∈ U.splits, e.2 = p

theorem Ready.after {U V : Troupe} {g h : List Split} (hr : Ready U h) (hp : PassesRejoin U V g) (ha : Apart g h) : Ready V h where
  nonempty := hr.nonempty
  splits p hm := hp.others p (hr.splits p hm) fun x hx => ha x hx p hm
  resident h2 p hm := by
    obtain ⟨e, he, rfl⟩ := hr.resident h2 p hm
    exact ⟨e, hp.entries e he fun x hx => ha x hx e.2 hm, rfl⟩

/-- What the passing of several groups leaves of a troupe. -/
structure PassRejoins (U V : Troupe) (gs : List (List Split)) : Prop where
  only : V = { U with splits := V.splits, stack := V.stack, coming := V.coming, tstat := V.tstat }
  passed : ∀ g ∈ gs, ∃ p ∈ g, ∃ q ∈ V.allSplits, Passed g p q
  others : ∀ r ∈ U.allSplits, (∀ g ∈ gs, ∀ x ∈ g, x.uid ≠ r.uid) → r ∈ V.allSplits
  differs : (∃ g ∈ gs, mergeDiffers g) → V.tstat = U.tstat ||| flagMerge
  agrees : (∀ g ∈ gs, ¬ mergeDiffers g) → V.tstat = U.tstat

theorem passRejoins (gs : List (List Split)) (now tick : Nat) {U : Troupe} (ht : Tidy U) (ha : gs.Pairwise Apart) (hr : ∀ g ∈ gs, Ready U g) :
    PassRejoins U (gs.foldl (fun t g => t.passRejoin now tick g) U) gs := by
  induction gs generalizing U with
  | nil => exact ⟨rfl, nofun, fun _ h _ => h, fun ⟨_, h, _⟩ => (nomatch h), fun _ => rfl⟩
  | cons g gs ih =>
    obtain ⟨hag, ha⟩ := List.pairwise_cons.1 ha
    have hg := hr g List.mem_cons_self
    have hp := passRejoin_passes ht hg.nonempty hg.splits hg.resident now tick
    have hV := ih hp.tidy ha fun h hh => (hr h (List.mem_cons_of_mem g hh)).after hp (hag h hh)
    rw [List.foldl_cons]
    generalize U.passRejoin now tick g = U1 at *
    generalize gs.foldl (fun t g => t.passRejoin now tick g) U1 = V at *
    have hflag : U.tstat ||| flagMerge ||| flagMerge = U.tstat ||| flagMerge := by rw [BitVec.or_assoc, BitVec.or_self]
    refine ⟨by rw [hV.only, hp.only], fun h hh => ?_, fun r hm hn => ?_, fun hd => ?_, fun hd => ?_⟩
    · obtain rfl | hh := List.mem_cons.1 hh
      · obtain ⟨p, hpm, q, hq, hu, hpq⟩ := hp.passed
        exact ⟨p, hpm, q, hV.others q hq fun h' hh' x hx => hu ▸ (hag h' hh' p hpm x hx).symm, hpq⟩
      · exact hV.passed h hh
    · exact hV.others r (hp.others r hm (hn g List.mem_cons_self)) fun h hh => hn h (List.mem_cons_of_mem g hh)
    · by_cases hgd : mergeDiffers g
      · by_cases hd' : ∃ g ∈ gs, mergeDiffers g
        · rw [hV.differs hd', hp.differs hgd, hflag]
        · rw [hV.agrees fun g hg h => hd' ⟨g, hg, h⟩, hp.differs hgd]
      · obtain ⟨h, hh, hhd⟩ := hd
        rw [hV.differs ⟨h, (List.mem_cons.1 hh).resolve_left fun e => hgd (e ▸ hhd), hhd⟩, hp.agrees hgd]
    · rw [hV.agrees fun h hh => hd h (List.mem_cons_of_mem g hh), hp.agrees (hd g List.mem_cons_self)]

/-- The groups of different addresses are apart. -/
theorem rejoiners_apart {T : Troupe} (ht : Tidy T) {as : List Nat} (h : as.Nodup) : (as.map T.rejoiners).Pairwise Apart := by
  refine List.pairwise_map.2 (h.imp fun {a b} hab p hp q hq hu => hab ?_)
  obtain ⟨hpm, -, hpa⟩ := mem_rejoiners.1 hp
  obtain ⟨hqm, -, hqa⟩ := mem_rejoiners.1 hq
  rw [← hpa, ← hqa, ht.eq_of_uid hpm hqm hu]

end Machine
end Sys2Proof
end

section
/-! The two rules of reconvergence (R86, R87). -/

namespace Sys2Proof

open Machine

namespace Machine

/-! ### Who is resident -/

theorem mem_resident {T : Troupe} {ps : List Split} {r : Split} : r ∈ T.resident ps ↔ r ∈ ps ∧ ∃ e ∈ T.splits, e.2.uid = r.uid := by
  simp [Troupe.resident]

theorem resident_lt {T : Troupe} {ps : List Split} : (T.resident ps).length < ps.length ↔ ∃ r ∈ ps, ¬ ∃ e ∈ T.splits, e.2.uid = r.uid := by
  rw [Troupe.resident, List.length_filter_lt_length_iff_exists]
  simp

/-! ### What a release makes of a group -/

/-- The split and the flag that a release makes of a group (R86, R87): `keep` is the split whose entry it takes. -/
structure Releases (ps : List Split) (keep : Split) (frames : List Frame) (d : Dest) (r : Split × Bool) : Prop where
  uid : r.1.uid = keep.uid
  place : r.1.pc = d.pc ∧ r.1.past = d.past
  state : r.1.state = 1
  frames : r.1.frames = frames
  mask : ∀ l, r.1.mask.getLsbD l = true ↔ ∃ x ∈ ps, x.mask.getLsbD l = true
  scal : mergesTo ps r.1.scal
  several : 2 ≤ ps.length → r.1.run = keep.lastRun + 1 ∧ r.1.shadow = []
  alone : ps.length = 1 → r.1.run = keep.run ∧ r.1.shadow = keep.shadow
  flag : r.2 = true ↔ mergeDiffers ps

theorem release_releases {ps : List Split} {keep : Split} (hk : keep ∈ ps) (frames : List Frame) (d : Dest) (now tick : Nat) :
    Releases ps keep frames d (release ps keep frames d now tick) := by
  have hne := List.ne_nil_of_mem hk
  by_cases h1 : ps.length ≤ 1
  · have h : ps.length = 1 := Nat.le_antisymm h1 (List.length_pos_iff.2 hne)
    obtain ⟨x, rfl⟩ := List.length_eq_one_iff.1 h
    obtain rfl := List.mem_singleton.1 hk
    exact
      { uid := rfl, place := ⟨rfl, rfl⟩, state := rfl, frames := rfl
        mask := fun l => by
          have e : (release [keep] keep frames d now tick).1.mask = keep.mask := rfl
          simp [e]
        scal := mergesTo_alone keep
        several := fun h2 => absurd h2 (by simp)
        alone := fun _ => ⟨rfl, rfl⟩
        flag := ⟨nofun, fun hd => absurd rfl hd.1⟩ }
  · have e : release ps keep frames d now tick = fuse ps keep frames d (now + 4) tick := if_neg h1
    rw [e]
    exact
      { uid := rfl, place := ⟨rfl, rfl⟩, state := rfl, frames := rfl
        mask := fuse_mask ps keep frames d (now + 4) tick
        scal := fuse_mergesTo ps keep frames d (now + 4) tick hne
        several := fun _ => ⟨rfl, rfl⟩
        alone := fun h => absurd h (by omega)
        flag := (fuse_differs ps keep frames d (now + 4) tick hne).trans ⟨fun h => ⟨by omega, h⟩, fun h => h.2⟩ }

/-! ### The reconvergence rule's equation, case by case -/

/-- The split and the flag that the reconvergence rule makes of a group. -/
def Troupe.fusion (ps : List Split) (keep : Split) (now tick : Nat) : Split × Bool :=
  release ps keep (addWr (topWrites ps) keep.frames.dropLast) { pc := keep.pc, past := keep.past } now tick

section
variable {tid : Nat} {s : State} {T : Troupe} {ps : List Split} {k : Nat} {keep : Split} (hT : s.troupes.find? tid = some T)
include hT

theorem fusion_none (hr : T.released = none) : execReconvergenceFusion tid s = .next s := by
  simp only [execReconvergenceFusion, hT, hr]

variable (hr : T.released = some ps)
include hr

theorem fusion_unsettled (hs : T.settled ps = false) :
    execReconvergenceFusion tid s = .next (s.at_ (s.now + 1) (.reconvergenceFusion tid)) := by
  simp only [execReconvergenceFusion, hT, hr, hs, if_true]

variable (hs : T.settled ps = true) (hk : T.groupEntry ps = some (k, keep))
include hs hk

theorem fusion_few (hl : (T.resident ps).length < ps.length) (h1 : (T.resident ps).length ≤ 1) : execReconvergenceFusion tid s = .next s := by
  simp only [execReconvergenceFusion, hT, hr, hs, hk, hl, h1, if_true, Bool.true_eq_false, if_false]

theorem fusion_part (hl : (T.resident ps).length < ps.length) (h1 : ¬ (T.resident ps).length ≤ 1) : execReconvergenceFusion tid s
    = .next (({ s with troupes := s.troupes.put tid (T.putFused (T.resident ps) k (fusePart (T.resident ps) keep s.now s.tick)) } : State).freed tid) := by
  simp only [execReconvergenceFusion, hT, hr, hs, hk, hl, h1, if_true, Bool.true_eq_false, if_false, Troupe.fuseHere]

theorem fusion_all (hl : ¬ (T.resident ps).length < ps.length) : execReconvergenceFusion tid s
    = .next (({ s with troupes := s.troupes.put tid (T.putFused ps k
        ((Troupe.fusion ps keep s.now s.tick).1.meet, (Troupe.fusion ps keep s.now s.tick).2)) } : State).freed tid) := by
  simp only [execReconvergenceFusion, hT, hr, hs, hk, hl, if_false, Bool.true_eq_false]
  rfl

end

theorem onlyTroupe_refl (s : State) (tid : Nat) : onlyTroupe s s tid := ⟨rfl, fun _ _ => rfl⟩

theorem onlyTroupe_put (s : State) (tid : Nat) (U : Troupe) : onlyTroupe s (({ s with troupes := s.troupes.put tid U } : State).freed tid) tid :=
  ⟨rfl, fun _ hk => Tab.find?_put_other _ _ hk⟩

theorem fusion_next (tid : Nat) (s : State) : ∃ t, execReconvergenceFusion tid s = .next t ∧ onlyTroupe s t tid := by
  unfold execReconvergenceFusion
  split <;> [exact ⟨_, rfl, onlyTroupe_refl s tid⟩; skip]
  split <;> [exact ⟨_, rfl, onlyTroupe_refl s tid⟩; skip]
  split <;> [exact ⟨_, rfl, rfl, fun _ _ => rfl⟩; skip]
  split <;> [exact ⟨_, rfl, onlyTroupe_refl s tid⟩; skip]
  dsimp only
  split <;> [skip; exact ⟨_, rfl, onlyTroupe_put s tid _⟩]
  split <;> [exact ⟨_, rfl, onlyTroupe_refl s tid⟩; exact ⟨_, rfl, onlyTroupe_put s tid _⟩]

theorem mem_freed_swapBack (s : State) (tid : Nat) : ⟨s.now, .splitSwapBack tid⟩ ∈ (s.freed tid).agenda := mem_insertTimed.2 (.inl rfl)

theorem mem_freed_fusion (s : State) (tid : Nat) : ⟨s.now, .reconvergenceFusion tid⟩ ∈ (s.freed tid).agenda :=
  mem_insertTimed.2 (.inr (mem_insertTimed.2 (.inr (mem_insertTimed.2 (.inl rfl)))))

/-- What a split that meets keeps, and its state. -/
theorem Releases.meet {ps : List Split} {keep : Split} {frames : List Frame} {d : Dest} {r : Split × Bool} (h : Releases ps keep frames d r) :
    r.1.meet.pc = d.pc ∧ r.1.meet.state = (if r.1.meet.rcv = some d.pc ∧ d.past = false then 3 else 1) ∧ r.1.meet.frames = frames
      ∧ (∀ l, r.1.meet.mask.getLsbD l = true ↔ ∃ x ∈ ps, x.mask.getLsbD l = true) ∧ mergesTo ps r.1.meet.scal
      ∧ (2 ≤ ps.length → r.1.meet.run = keep.lastRun + 1 ∧ r.1.meet.shadow = [])
      ∧ (ps.length = 1 → r.1.meet.run = keep.run ∧ r.1.meet.shadow = keep.shadow) := by
  obtain ⟨he, hs⟩ := Split.meet_eq r.1
  have hrcv : r.1.meet.rcv = r.1.rcv := by rw [he]; rfl
  rw [h.place.1, h.place.2, h.state] at hs
  rw [hrcv, hs]
  rw [he]
  exact ⟨h.place.1, rfl, h.frames, h.mask, h.scal, h.several, h.alone⟩

/-- The frames of a fused split: those of the one whose entry it takes without the top, with what the group wrote since the fork. -/
theorem addWr_top (ps : List Split) (fs : List Frame) : let gs := addWr (topWrites ps) fs
    gs.map (fun f => (f.rcv, f.forkId)) = fs.map (fun f => (f.rcv, f.forkId)) ∧ gs.dropLast = fs.dropLast
      ∧ ∀ f g n, gs.getLast? = some f → fs.getLast? = some g → (f.wr.getLsbD n = true
        ↔ g.wr.getLsbD n = true ∨ ∃ r ∈ ps, ∃ h ∈ r.frames.getLast?, h.wr.getLsbD n = true) := by
  refine ⟨addWr_forks _ _, addWr_dropLast _ _, fun f g n hf hg => ?_⟩
  rw [addWr_getLast, hg] at hf
  cases hf
  rw [BitVec.getLsbD_or, Bool.or_eq_true, topWrites_bit]

/-- What fusions leave of the split table, and of TSTAT. -/
theorem putFused_leaves {T : Troupe} {ps : List Split} {k : Nat} {keep : Split} {q : Split × Bool} (ht : Tidy T) (hk : T.groupEntry ps = some (k, keep))
    (hq : q.2 = true ↔ mergeDiffers ps) : (T.putFused ps k q).splits.find? k = some q.1
      ∧ (∀ r ∈ T.allSplits, (∀ x ∈ ps, x.uid ≠ r.uid) → r ∈ (T.putFused ps k q).allSplits)
      ∧ (mergeDiffers ps → (T.putFused ps k q).tstat = T.tstat ||| flagMerge) ∧ (¬ mergeDiffers ps → (T.putFused ps k q).tstat = T.tstat) := by
  obtain ⟨hm, hx⟩ := groupEntry_some hk
  exact ⟨putFused_find, fun _ => putFused_keeps ht hm hx, fun h => if_pos (hq.2 h), fun h => if_neg (mt hq.1 h)⟩

section
variable (ps : List Split) (keep : Split) (now tick : Nat)

theorem fusePart_mask (l : Nat) : (fusePart ps keep now tick).1.mask.getLsbD l = true ↔ ∃ r ∈ ps, r.mask.getLsbD l = true := by
  have h := fuse_mask ps keep (partFrames ps) { pc := keep.pc, past := keep.past } now tick l
  unfold fusePart
  generalize fuse ps keep (partFrames ps) { pc := keep.pc, past := keep.past } now tick = r at h ⊢
  exact h

theorem fusePart_mergesTo (hne : ps ≠ []) : mergesTo ps (fusePart ps keep now tick).1.scal := by
  have h := fuse_mergesTo ps keep (partFrames ps) { pc := keep.pc, past := keep.past } now tick hne
  unfold fusePart
  generalize fuse ps keep (partFrames ps) { pc := keep.pc, past := keep.past } now tick = r at h ⊢
  exact h

theorem fusePart_frames : (fusePart ps keep now tick).1.frames = partFrames ps := rfl

end

/-! ### The rejoin rule's equation, case by case -/

theorem writeSpill_only (s : State) (base k : Nat) (p : Split) : OnlyStores s (s.writeSpill base k p) := by
  unfold State.writeSpill
  refine (homeWrite_only s _ _).trans (foldl_rel OnlyStores.refl OnlyStores.trans (fun s i => ?_) _ _)
  split
  · exact .refl s
  · exact homeWrite_only _ _ _

theorem rewriteSpills_only (s : State) (tid : Nat) (uids : List Nat) : OnlyStores s (s.rewriteSpills tid uids) := by
  unfold State.rewriteSpills
  split <;> [exact .refl s; skip]
  split <;> [exact .refl s; skip]
  refine foldl_rel OnlyStores.refl OnlyStores.trans (fun s j => ?_) _ _
  split
  · split
    · exact writeSpill_only _ _ _ _
    · exact .refl s
  · exact .refl s

/-- Only a troupe, what the caches and memory hold, the counter and the agenda differ. -/
def OnlyRejoins (s t : State) (tid : Nat) : Prop :=
  (∃ c : Caches, t = { c.on s with tick := t.tick, agenda := t.agenda, troupes := t.troupes, mem := t.mem })
    ∧ ∀ k, k ≠ tid → t.troupes.find? k = s.troupes.find? k

theorem onlyRejoins_of_onlyTroupe {s t : State} {tid : Nat} (h : onlyTroupe s t tid) : OnlyRejoins s t tid :=
  ⟨⟨s.caches, by rw [h.1]; rfl⟩, h.2⟩

/-- The state once all groups have passed. -/
def State.rejoins (s : State) (tid : Nat) (uids : List Nat) (U : Troupe) : State :=
  ((({ s with troupes := s.troupes.put tid U } : State).rewriteSpills tid uids).bump.at_ s.now (.splitSwapBack tid))

theorem rejoins_troupes (s : State) (tid : Nat) (uids : List Nat) (U : Troupe) : (s.rejoins tid uids U).troupes = s.troupes.put tid U :=
  congrArg State.troupes (rewriteSpills_only { s with troupes := s.troupes.put tid U } tid uids)

theorem onlyRejoins_rejoins (s : State) (tid : Nat) (uids : List Nat) (U : Troupe) : OnlyRejoins s (s.rejoins tid uids U) tid := by
  refine ⟨⟨(({ s with troupes := s.troupes.put tid U } : State).rewriteSpills tid uids).caches, ?_⟩, fun k hk => ?_⟩
  · have h := rewriteSpills_only { s with troupes := s.troupes.put tid U } tid uids
    unfold State.rejoins
    rw [h]
    rfl
  · rw [rejoins_troupes]
    exact Tab.find?_put_other _ _ hk

section
variable {tid : Nat} {s : State} {T : Troupe} {gs : List (List Split)} (hT : s.troupes.find? tid = some T)
include hT

theorem rejoin_none (hr : T.rejoined = none) : execRejoinRelease tid s = .next s := by
  simp only [execRejoinRelease, hT, hr]

theorem rejoin_unsettled (hr : T.rejoined = some gs) (hs : T.settled gs.flatten = false) :
    execRejoinRelease tid s = .next (s.at_ (s.now + 1) (.rejoinRelease tid)) := by
  simp only [execRejoinRelease, hT, hr, hs, if_true]

theorem rejoin_all (hr : T.rejoined = some gs) (hs : T.settled gs.flatten = true)
    (hall : ∀ g ∈ gs, 2 ≤ g.length → (T.resident g).length = g.length) : execRejoinRelease tid s
      = .next (s.rejoins tid (T.stack.map (·.uid)) (gs.foldl (fun t g => t.passRejoin s.now s.tick g) T)) := by
  have h : ((gs.filter fun g => 2 ≤ g.length).all fun g => (T.resident g).length = g.length) = true := by
    refine List.all_eq_true.2 fun g hg => ?_
    obtain ⟨hm, h2⟩ := List.mem_filter.1 hg
    exact decide_eq_true (hall g hm (of_decide_eq_true h2))
  simp only [execRejoinRelease, hT, hr, hs, h, if_true, Bool.true_eq_false, if_false]
  rfl

end

theorem rejoin_next (tid : Nat) (s : State) : ∃ t, execRejoinRelease tid s = .next t ∧ OnlyRejoins s t tid := by
  have hr := onlyRejoins_of_onlyTroupe (onlyTroupe_refl s tid)
  unfold execRejoinRelease
  split <;> [exact ⟨_, rfl, hr⟩; skip]
  split <;> [exact ⟨_, rfl, hr⟩; skip]
  split <;> [exact ⟨_, rfl, onlyRejoins_of_onlyTroupe ⟨rfl, fun _ _ => rfl⟩⟩; skip]
  dsimp only
  split <;> [exact ⟨_, rfl, onlyRejoins_rejoins s tid _ _⟩; skip]
  split <;> [exact ⟨_, rfl, hr⟩; exact ⟨_, rfl, onlyRejoins_of_onlyTroupe (onlyTroupe_put s tid _)⟩]

end Machine

/-- The rejoin rule's groups, as they stand before it. -/
theorem ready_of_rejoined {T : Troupe} (ht : Tidy T) {a : Nat} (hne : T.rejoiners a ≠ [])
    (hres : 2 ≤ (T.rejoiners a).length → ∀ r ∈ T.rejoiners a, ∃ e ∈ T.splits, e.2.uid = r.uid) : Ready T (T.rejoiners a) where
  nonempty := hne
  splits _ hp := (mem_rejoiners.1 hp).1
  resident h2 p hp := by
    obtain ⟨e, he, hu⟩ := hres h2 p hp
    exact ⟨e, he, ht.eq_of_uid (mem_allSplits_of_entry he) (mem_rejoiners.1 hp).1 hu⟩

/-- Settles O27: the rules release what their definitions say; `release_releases` and `fuse_passed` say what a group becomes, and `Tidy` that the fused
split's entry is its own when it is put back. -/
theorem reconvergence : Obligations.Reconvergence := by
  unfold Obligations.Reconvergence
  refine ⟨fun T ps h => released_some h, fun ps k hl hne => ⟨lt_sharedFrames hne hl, sharedFrames_last hne⟩, fun tid s => ?_, fun tid s => ?_⟩
  · obtain ⟨t, ht, ho⟩ := fusion_next tid s
    refine ⟨t, ht, ho, fun T hT => ⟨fun hr => ?_, fun ps hr hs => ?_, fun ps k keep hr hs hk hkeys huids => ?_⟩⟩
    · exact (Host.Outcome.next.inj ((fusion_none hT hr).symm.trans ht)).symm
    · obtain rfl := Host.Outcome.next.inj ((fusion_unsettled hT hr hs).symm.trans ht)
      exact ⟨rfl, mem_insertTimed.2 (.inl rfl)⟩
    · have tidy : Tidy T := ⟨hkeys, huids⟩
      obtain ⟨f, pc, ids, hne, hf, hps, -⟩ := released_some hr
      have hmem : keep ∈ ps := groupEntry_mem tidy (fun p hp => (hps p hp).1) hk
      refine ⟨fun hall => ?_, fun hnot => ⟨fun h1 => ?_, fun h2 => ?_⟩⟩
      · have hl : ¬ (T.resident ps).length < ps.length := fun h => by
          obtain ⟨r, hm, hn⟩ := resident_lt.1 h
          exact hn (hall r hm)
        obtain rfl := Host.Outcome.next.inj ((fusion_all hT hr hs hk hl).symm.trans ht)
        have rel : Releases ps keep _ _ (Troupe.fusion ps keep s.now s.tick) := release_releases hmem _ _ _ _
        obtain ⟨hpc, hst, hfr, hmask, hscal, hsev, halone⟩ := rel.meet
        obtain ⟨hfind, hkeep, hdiff, hagree⟩ := putFused_leaves (q := ((Troupe.fusion ps keep s.now s.tick).1.meet, (Troupe.fusion ps keep s.now s.tick).2))
          tidy hk rel.flag
        obtain ⟨hforks, hdrop, hwr⟩ := addWr_top ps keep.frames.dropLast
        rw [← hfr] at hforks hdrop hwr
        exact ⟨_, _, Tab.find?_put_same _ _ _, hfind, hmask, hpc, hst, hscal, hsev, halone, hforks, hdrop, hwr, hkeep, rfl, hdiff, hagree,
          mem_freed_fusion _ _, mem_freed_swapBack _ _⟩
      · exact (Host.Outcome.next.inj ((fusion_few hT hr hs hk (resident_lt.2 hnot) h1).symm.trans ht)).symm
      · obtain rfl := Host.Outcome.next.inj ((fusion_part hT hr hs hk (resident_lt.2 hnot) (by omega)).symm.trans ht)
        obtain ⟨hm, -⟩ := groupEntry_some hk
        have hhere : T.resident ps ≠ [] := fun h => by rw [h] at h2; exact absurd h2 (by decide)
        have hx : ∃ x ∈ T.resident ps, x.uid = keep.uid := ⟨keep, mem_resident.2 ⟨hmem, _, hm, rfl⟩, rfl⟩
        have hforks : ∀ p ∈ ps, p.frames.map (·.forkId) = ids := fun p hp => by
          obtain ⟨-, -, -, -, h⟩ := hps p hp
          exact h
        have hids : ids ≠ [] := fun h => by rw [h] at hf; cases hf
        refine ⟨_, _, Tab.find?_put_same _ _ _, putFused_find, fun l => ?_, rfl, rfl, rfl, fusePart_mergesTo _ keep _ _ hhere, fun hlen => ?_,
          fun r hrm hn => putFused_keeps tidy hm hx hrm fun x hx => ?_, rfl⟩
        · refine (fusePart_mask _ keep _ _ l).trans (exists_congr fun r => ?_)
          rw [mem_resident, and_assoc]
        · rw [fusePart_frames, hforks keep hmem]
          exact partFrames_forks hhere hids (fun p hp => hlen p (mem_resident.1 hp).1) fun p hp => hforks p (mem_resident.1 hp).1
        · obtain ⟨hxm, hxr⟩ := mem_resident.1 hx
          exact hn x hxm hxr
  · obtain ⟨t, ht, hc, ho⟩ := rejoin_next tid s
    refine ⟨t, ht, hc, ho, fun T hT => ⟨fun hr => ?_, fun gs hr => ⟨?_, fun hs => ?_, fun hs hres hkeys huids => ?_⟩⟩⟩
    · exact (Host.Outcome.next.inj ((rejoin_none hT hr).symm.trans ht)).symm
    · obtain ⟨h3, hrel, as, -, rfl, -, hin⟩ := rejoined_some hr
      refine ⟨h3, hrel, fun p hp h0 => ⟨_, List.mem_map.2 ⟨_, hin p hp h0, rfl⟩, mem_rejoiners.2 ⟨hp, h0, rfl⟩, fun q => ?_⟩⟩
      rw [mem_rejoiners, BitVec.toNat_inj]
    · obtain rfl := Host.Outcome.next.inj ((rejoin_unsettled hT hr hs).symm.trans ht)
      exact ⟨rfl, mem_insertTimed.2 (.inl rfl)⟩
    · have tidy : Tidy T := ⟨hkeys, huids⟩
      obtain ⟨-, -, as, hnd, rfl, hne, -⟩ := rejoined_some hr
      have hall : ∀ g ∈ as.map T.rejoiners, 2 ≤ g.length → (T.resident g).length = g.length := fun g hg h2 =>
        Nat.le_antisymm (List.length_filter_le _ _) (Nat.le_of_not_lt fun h => by
          obtain ⟨r, hm, hn⟩ := resident_lt.1 h
          exact hn (hres g hg h2 r hm))
      obtain rfl := Host.Outcome.next.inj ((rejoin_all hT hr hs hall).symm.trans ht)
      have hp := passRejoins (as.map T.rejoiners) s.now s.tick tidy (rejoiners_apart tidy hnd) fun g hg => by
        obtain ⟨a, ha, rfl⟩ := List.mem_map.1 hg
        exact ready_of_rejoined tidy (hne a ha) (hres _ hg)
      refine ⟨_, by rw [rejoins_troupes]; exact Tab.find?_put_same _ _ _, fun g hg => ?_, hp.only, hp.differs, hp.agrees⟩
      obtain ⟨p, hpm, q, hqm, hpq⟩ := hp.passed g hg
      exact ⟨p, hpm, q, hqm, hpq.state, hpq.frames, hpq.pc, hpq.past, hpq.alone, hpq.scal, hpq.mask⟩

end Sys2Proof
end

section
/-! Shootdowns: the farthest core of the module, what a tlbinv starts, and what a core discards at its acknowledgement (R77, R415). -/

namespace Sys2Proof

open Machine

/-! ### Waits whose module changes beside them -/

/-- A wait is a wait of any module with the same troupes and ensembles, and in any state that keeps them too. -/
theorem Waits.transfer {s s1 u t : State} {w y : Work} {n : Ins} {why : Wait} {pends : List Pend}
    (h : Waits s w n why pends u y) (ht : t.troupes = u.troupes) (he : t.ensembles = u.ensembles) (hts : s1.troupes = s.troupes)
    (hes : s1.ensembles = s.ensembles) (hm : sameModule s1 t) : Waits s1 { w with s := s1 } n why pends t { y with s := t } where
  split := work_congr ht he h.split
  regs r i := (Work.now_congr (w := y) rfl rfl rfl rfl r i).trans (h.regs r i)
  entry := h.entry
  troupe := h.troupe
  ensemble := h.ensemble
  others := by
    obtain ⟨htr, hen, hsp⟩ := h.others
    exact ⟨fun k hk => by rw [ht, hts, htr k hk], fun k hk => by rw [he, hes, hen k hk], hsp⟩
  module := hm

namespace Machine

/-! ### The farthest core -/

theorem foldl_larger (f : Nat → Nat) (l : List Nat) (b : Nat) : let m := l.foldl (fun b k => if f b < f k then k else b) b
    f b ≤ f m ∧ ∀ k ∈ l, f k ≤ f m := by
  induction l generalizing b with
  | nil => simp
  | cons a l ih =>
    obtain ⟨hb, hl⟩ := ih (if f b < f a then a else b)
    have hstep : f b ≤ f (if f b < f a then a else b) ∧ f a ≤ f (if f b < f a then a else b) := by split <;> omega
    exact ⟨hstep.1.trans hb, List.forall_mem_cons.2 ⟨hstep.2.trans hb, hl⟩⟩

theorem corner_mem {d c : Nat} (hd : d < 12) (hc : c ∈ [0, 11, 84, 95]) : 96 * d + c ∈ cornerCores :=
  List.mem_flatMap.2 ⟨d, List.mem_range.2 hd, List.mem_map_of_mem hc⟩

/-- On a core's own die the corner across from it is at least as far as any core; on another die the corner farthest from the hub is. -/
theorem exists_farther_corner {a k : Nat} (hk : k < 1152) : ∃ c ∈ cornerCores, coreTerm a k ≤ coreTerm a c := by
  have hd : k / 96 < 12 := by omega
  by_cases h : a / 96 = k / 96
  · have hx : (a % 12 < 6 ∧ gap (a % 12) (k % 12) ≤ gap (a % 12) 11) ∨ (6 ≤ a % 12 ∧ gap (a % 12) (k % 12) ≤ gap (a % 12) 0) := by
      unfold gap; omega
    have hy : (a % 96 / 12 < 4 ∧ gap (a % 96 / 12) (k % 96 / 12) ≤ gap (a % 96 / 12) 7)
        ∨ (4 ≤ a % 96 / 12 ∧ gap (a % 96 / 12) (k % 96 / 12) ≤ gap (a % 96 / 12) 0) := by
      unfold gap; omega
    have near (x y : Nat) (hxx : x < 12) (hyy : y < 8) : coreTerm a (96 * (k / 96) + (12 * y + x))
        = 3 * (gap (a % 96 / 12) y + gap (a % 12) x) := by
      unfold coreTerm
      rw [if_pos (by omega), show (96 * (k / 96) + (12 * y + x)) % 96 / 12 = y by omega, show (96 * (k / 96) + (12 * y + x)) % 12 = x by omega]
    have he : coreTerm a k = 3 * (gap (a % 96 / 12) (k % 96 / 12) + gap (a % 12) (k % 12)) := if_pos h
    rcases hx with ⟨-, hx⟩ | ⟨-, hx⟩ <;> rcases hy with ⟨-, hy⟩ | ⟨-, hy⟩
    · exact ⟨_, corner_mem hd (c := 12 * 7 + 11) (by decide), by rw [near 11 7 (by decide) (by decide)]; omega⟩
    · exact ⟨_, corner_mem hd (c := 12 * 0 + 11) (by decide), by rw [near 11 0 (by decide) (by decide)]; omega⟩
    · exact ⟨_, corner_mem hd (c := 12 * 7 + 0) (by decide), by rw [near 0 7 (by decide) (by decide)]; omega⟩
    · exact ⟨_, corner_mem hd (c := 12 * 0 + 0) (by decide), by rw [near 0 0 (by decide) (by decide)]; omega⟩
  · refine ⟨_, corner_mem hd (c := 0) (by decide), ?_⟩
    have hh : hubHops k ≤ hubHops (96 * (k / 96) + 0) := by unfold hubHops gap; omega
    unfold coreTerm
    rw [if_neg h, if_neg (by omega), show (96 * (k / 96) + 0) / 96 = k / 96 by omega]
    omega

theorem coreTerm_le_farthest (a : Nat) {k : Nat} (hk : k < 1152) : coreTerm a k ≤ coreTerm a (farthest a) := by
  obtain ⟨c, hc, h⟩ := exists_farther_corner (a := a) hk
  exact h.trans ((foldl_larger (coreTerm a) cornerCores a).2 c hc)

/-! ### The start of a shootdown -/

/-- The physical page behind a page of the shootdown, where a TLB holds its translation, is one of the frames (R77). -/
theorem mem_shootFrames {s : State} {x : Shoot} {ptbr k j : Nat} {c : Core} {e : TlbEnt} (hx : x.kind = 0) (hc : (k, c) ∈ s.cores) (he : e ∈ c.tlb)
    (hj : j < x.count) (hm : e.maps x.ctxid (x.addr / 4096 * 4096 + 4096 * j) = true) :
    e.pa + (x.addr / 4096 * 4096 + 4096 * j) % e.span.2 ∈ s.shootFrames ptbr x := by
  have hp : e.pa + (x.addr / 4096 * 4096 + 4096 * j) % e.span.2 ∈ x.mapped e :=
    List.mem_filterMap.2 ⟨j, List.mem_range.2 hj, if_pos hm⟩
  unfold State.shootFrames
  rw [if_neg (by simp [hx])]
  exact mem_distinct.2 (List.mem_append_left _ (List.mem_append_left _ (List.mem_flatMap.2 ⟨_, hc, List.mem_append_right _ (List.mem_flatMap.2 ⟨e, he, hp⟩)⟩)))

/-- The cores that have to acknowledge a shootdown of a core: those that hold anything, and the farthest (R415). -/
def State.shootCores (s : State) (core : Nat) : List Nat := (s.cores.map (·.1)).filter (· ≠ farthest core) ++ [farthest core]

/-- A shootdown as the split's instruction starts it. -/
def Work.shoot (w : Work) (kind addr count : Nat) (fs : List Nat) : Shoot :=
  { id := w.s.tick, tid := w.tid, uid := w.S.uid, kind := kind, ctxid := w.ctx.ctxid.toNat, addr := addr, count := count,
    left := w.s.shootCores w.E.core, frames := fs }

theorem mem_shootCores {s : State} {core k : Nat} {c : Core} (h : (k, c) ∈ s.cores) : k ∈ s.shootCores core := by
  by_cases hk : k = farthest core
  · simp [State.shootCores, hk]
  · exact List.mem_append_left _ (List.mem_filter.2 ⟨List.mem_map_of_mem h, by simpa using hk⟩)

/-- The frames of a shootdown: those of its pages as they stand at its issue. -/
def Work.shootPages (w : Work) (kind addr count : Nat) : List Nat := w.s.shootFrames w.ctx.ptbr.toNat (w.shoot kind addr count [])

theorem shootdown_waits (w : Work) (n : Ins) (kind addr count : Nat) :
    let s0 : State := { w.s with shoots := w.s.shoots ++ [w.shoot kind addr count (w.shootPages kind addr count)] }
    ∃ x, Waits s0 { w with s := s0 } n (.shoot w.s.tick) [] (w.shootdown n kind addr count) x := by
  obtain ⟨y, hy⟩ := suspend_waits (s := w.s) (w := w) (x := { w with s := w.s.bump }) (n := n) (why := .shoot w.s.tick) (pends := []) rfl
    (by simp [State.bump])
  have ho := (foldl_at_only (fun _ k => w.s.now + 16 + 4 * count + coreTerm w.E.core k) (fun _ k => .shootdownAcknowledge k w.s.tick)
    ((w.s.cores.map (·.1)).filter (· ≠ farthest w.E.core))
    ({ ({ w with s := w.s.bump } : Work).suspend n (.shoot w.s.tick) with
        shoots := (({ w with s := w.s.bump } : Work).suspend n (.shoot w.s.tick)).shoots
          ++ [w.shoot kind addr count (w.shootPages kind addr count)] } : State)).trans
    (at_only _ (w.s.now + 16 + 4 * count + 2 * coreTerm w.E.core (farthest w.E.core)) (.shootdownAcknowledge (farthest w.E.core) w.s.tick))
  have he : w.shootdown n kind addr count = { ({ w with s := w.s.bump } : Work).suspend n (.shoot w.s.tick) with
      shoots := (({ w with s := w.s.bump } : Work).suspend n (.shoot w.s.tick)).shoots ++ [w.shoot kind addr count (w.shootPages kind addr count)],
      agenda := (w.shootdown n kind addr count).agenda } := ho
  have hsh : (({ w with s := w.s.bump } : Work).suspend n (.shoot w.s.tick)).shoots = w.s.shoots := by rw [hy.module]
  rw [hsh] at he
  refine ⟨_, hy.transfer (by rw [he]) (by rw [he]) rfl rfl ?_⟩
  have hm := hy.module
  unfold sameModule at hm ⊢
  rw [he, hm]

theorem shootdown_agenda (w : Work) (n : Ins) (kind addr count : Nat) :
    let t := w.shootdown n kind addr count
    (∀ k ∈ w.s.shootCores w.E.core, ∃ due, ⟨due, .shootdownAcknowledge k w.s.tick⟩ ∈ t.agenda)
    ∧ ⟨w.s.now + 16 + 4 * count + 2 * coreTerm w.E.core (farthest w.E.core), .shootdownAcknowledge (farthest w.E.core) w.s.tick⟩ ∈ t.agenda := by
  refine ⟨fun k hk => ?_, mem_at.2 (.inl rfl)⟩
  rcases List.mem_append.1 hk with hk | hk
  · exact ⟨_, mem_at.2 (.inr ((mem_foldl_at _ _ _).2 (.inr ⟨k, hk, rfl⟩)))⟩
  · exact ⟨_, mem_at.2 (.inl (by rw [List.mem_singleton.1 hk]))⟩

/-- The first page of a tlbinv, if it names pages. -/
def Work.shotAddr (w : Work) (n : Ins) : Nat := if n.mod = 0 then w.src64 true n n.sa (lowLane w.act) else 0

/-- The number of pages of a tlbinv, if it names pages. -/
def Work.shotCount (w : Work) (n : Ins) : Nat := if n.mod = 0 then (w.src true n n.sb 0 (lowLane w.act)).toNat else 1

theorem opTlbinv_traps {w : Work} {n : Ins} (ha : w.act ≠ 0) (h0 : n.mod = 0)
    (h : (w.src true n n.sb 0 (lowLane w.act)).toNat = 0 ∨ 4096 < (w.src true n n.sb 0 (lowLane w.act)).toNat) :
    opTlbinv n w = .trap { cause := 0x02 } :=
  (ifActive_of ha).trans ((if_pos h0).trans (if_pos h))

theorem opTlbinv_shoots {w : Work} {n : Ins} (ha : w.act ≠ 0) (h : n.mod = 0 → 1 ≤ (w.src true n n.sb 0 (lowLane w.act)).toNat
    ∧ (w.src true n n.sb 0 (lowLane w.act)).toNat ≤ 4096) : opTlbinv n w = .raw (w.shootdown n n.mod (w.shotAddr n) (w.shotCount n)) := by
  refine (ifActive_of ha).trans ?_
  unfold Work.shotAddr Work.shotCount
  by_cases h0 : n.mod = 0
  · simp only [h0, if_true]
    exact if_neg (by have := h h0; omega)
  · simp only [h0, if_false]

/-! ### The acknowledgement of a core -/

theorem covers_iff (x : Shoot) (e : TlbEnt) : x.covers e.ctxid e.span.1 e.span.2 = true ↔ shotDown x e := by
  unfold Shoot.covers shotDown Shoot.hits TlbEnt.span
  rcases x.kind with _ | _ | k <;> simp

theorem acknowledge_tlb (c : Core) (x : Shoot) (e : TlbEnt) : e ∈ (c.acknowledge x).tlb ↔ e ∈ c.tlb ∧ ¬shotDown x e := by
  rw [← covers_iff]
  simp [Core.acknowledge, Core.dropTlb]

theorem acknowledge_slots (c : Core) (x : Shoot) {j : Nat} {z : OvlSlot} (h : c.slots[j]? = some z) : (c.acknowledge x).slots[j]?
    = some (if z.tag.isSome && x.takes z.ctxid z.base z.code.length z.pages then { OvlSlot.empty with filling := z.filling } else z) := by
  simp [Core.acknowledge, Core.dropTlb, h]

theorem isSome_find?_of_mem {α : Type} {t : Tab α} {k : Nat} {c : α} (h : (k, c) ∈ t) : (t.find? k).isSome = true := by
  induction t with
  | nil => cases h
  | cons p t ih =>
    unfold Tab.find?
    split
    · rfl
    · next hk =>
      rcases List.mem_cons.1 h with rfl | h
      · exact absurd rfl hk
      · exact ih h

/-- The module once a core has discarded what a shootdown covers; a core that holds nothing has nothing to discard. -/
def State.acked (s : State) (core : Nat) (y : Shoot) : State :=
  if (s.cores.find? core).isSome then s.modCore core fun c => c.acknowledge y else s

theorem acked_only (s : State) (core : Nat) (y : Shoot) : s.acked core y = { s with cores := (s.acked core y).cores } := by
  unfold State.acked
  split <;> rfl

theorem acked_other {s : State} {core k : Nat} (y : Shoot) (h : k ≠ core) : (s.acked core y).core k = s.core k := by
  unfold State.acked
  split
  · rw [State.core_modCore, if_neg h]
  · rfl

theorem acked_held {s : State} {core : Nat} (y : Shoot) (h : (s.cores.find? core).isSome = true) : (s.acked core y).core core = (s.core core).acknowledge y := by
  unfold State.acked
  rw [if_pos h, State.core_modCore, if_pos rfl]

theorem acked_tlb (s : State) (core : Nat) (y : Shoot) (e : TlbEnt) :
    e ∈ ((s.acked core y).core core).tlb ↔ e ∈ (s.core core).tlb ∧ ¬shotDown y e := by
  by_cases h : (s.cores.find? core).isSome = true
  · rw [acked_held y h, acknowledge_tlb]
  · have hn : (s.core core).tlb = [] := by
      unfold State.core
      rw [Option.not_isSome_iff_eq_none.1 h]
      rfl
    unfold State.acked
    rw [if_neg h, hn]
    simp

/-- The shootdown with a core that has acknowledged it left out. -/
def State.stillShot (s : State) (core id : Nat) (y : Shoot) : State :=
  { s with shoots := s.shoots.map fun x => if x.id = id then { x with left := y.left.filter (· ≠ core) } else x }

/-- The shootdown is over, and its tlbinv goes on. -/
def State.shotOver (s : State) (id : Nat) (y : Shoot) : State :=
  ({ s with shoots := s.shoots.filter fun x => x.id ≠ id } : State).resume y.tid y.uid

theorem left_over {l : List Nat} {core : Nat} : l.filter (· ≠ core) = [] ↔ ∀ k ∈ l, k = core := by
  simp [List.filter_eq_nil_iff]

/-- The module after a core's acknowledgement that cuts off no copy. -/
def State.afterAck (s : State) (core id : Nat) (y : Shoot) : State :=
  if y.left.filter (· ≠ core) = [] then (s.acked core y).shotOver id y else (s.acked core y).stillShot core id y

theorem afterAck_last {s : State} {core id : Nat} {y : Shoot} (h : ∀ k ∈ y.left, k = core) :
    s.afterAck core id y = (s.acked core y).shotOver id y := if_pos (left_over.2 h)

theorem afterAck_some {s : State} {core id k : Nat} {y : Shoot} (hk : k ∈ y.left) (h : k ≠ core) :
    s.afterAck core id y = (s.acked core y).stillShot core id y := if_neg fun hn => h (left_over.1 hn k hk)

theorem afterAck_keeps (s : State) (core id : Nat) (y : Shoot) : (s.afterAck core id y).mem = s.mem
    ∧ (s.afterAck core id y).ensembles = s.ensembles ∧ (s.afterAck core id y).cores = (s.acked core y).cores := by
  unfold State.afterAck
  rw [acked_only]
  split <;> exact ⟨rfl, rfl, rfl⟩

theorem shootdownAcknowledge_none {s : State} {core id : Nat} (h : s.shoots.find? (fun y => y.id = id) = none) :
    execShootdownAcknowledge core id s = .next s := by
  unfold execShootdownAcknowledge
  rw [h]

theorem shootdownAcknowledge_eq {s : State} {core id : Nat} {y : Shoot} (hy : s.shoots.find? (fun y => y.id = id) = some y)
    (hf : ∀ l ∈ s.ovlLoads, l.core = core → l.slot.isSome = true → y.takes (s.ctx l.ctx).ctxid.toNat l.base l.size l.pages = false) :
    execShootdownAcknowledge core id s = .next (s.afterAck core id y) := by
  have hl : (s.acked core y).ovlLoads = s.ovlLoads := by rw [acked_only]
  have hn : ((s.acked core y).ovlLoads.filter fun l => l.core = core && l.slot.isSome
      && y.takes (s.ctx l.ctx).ctxid.toNat l.base l.size l.pages) = [] := by
    rw [hl, List.filter_eq_nil_iff]
    intro l hm ht
    simp only [Bool.and_eq_true, decide_eq_true_eq] at ht
    obtain ⟨⟨hc, hs⟩, ht⟩ := ht
    rw [hf l hm hc hs] at ht
    cases ht
  unfold State.acked at hn
  unfold execShootdownAcknowledge State.afterAck
  rw [hy]
  dsimp only
  rw [hn]
  split <;> rfl

theorem shootdownAcknowledge_next (core id : Nat) (s : State) : ∃ t, execShootdownAcknowledge core id s = .next t := by
  unfold execShootdownAcknowledge
  split
  · exact ⟨_, rfl⟩
  · dsimp only
    split <;> exact ⟨_, rfl⟩

end Machine

/-- Settles O43: `shootdown_waits` and `coreTerm_le_farthest` for the wait, `shootdownAcknowledge_eq` for what a core does. -/
theorem shootdowns : Obligations.Shootdowns := by
  unfold Obligations.Shootdowns
  refine ⟨fun f s w hi => ?_, fun a k _ hk => coreTerm_le_farthest a hk, fun core id s => ?_⟩
  · obtain rfl := gate_state hi.1
    refine ⟨fun h0 hbad => run_trap hi.1 (opTlbinv_traps hi.2 h0 hbad), fun hgood => ?_⟩
    obtain ⟨x, hx⟩ := shootdown_waits w (insX 0xCA f) (insX 0xCA f).mod (w.shotAddr (insX 0xCA f)) (w.shotCount (insX 0xCA f))
    obtain ⟨hall, hfar⟩ := shootdown_agenda w (insX 0xCA f) (insX 0xCA f).mod (w.shotAddr (insX 0xCA f)) (w.shotCount (insX 0xCA f))
    exact ⟨_, _, _, x, run_raw hi.1 (opTlbinv_shoots hi.2 hgood), hx, List.mem_append_right _ (List.mem_singleton.2 rfl),
      fun k c hc => mem_shootCores hc, fun h0 k c e j hc he hj hm => mem_shootFrames h0 hc he hj hm, hall, hfar⟩
  · obtain ⟨t, ht⟩ := shootdownAcknowledge_next core id s
    refine ⟨t, ht, fun hn => ?_, fun y hy hf => ?_⟩
    · exact Host.Outcome.next.inj (ht.symm.trans (shootdownAcknowledge_none hn))
    obtain rfl := Host.Outcome.next.inj ((shootdownAcknowledge_eq hy hf).symm.trans ht)
    obtain ⟨hmem, hens, hcores⟩ := afterAck_keeps s core id y
    have hcore (k : Nat) : (s.afterAck core id y).core k = (s.acked core y).core k := by unfold State.core; rw [hcores]
    refine ⟨hmem, hens, fun k hk => by rw [hcore, acked_other y hk], fun ⟨k, c, hc, hk⟩ j z hz => ?_,
      fun e => by rw [hcore, acked_tlb], fun ⟨k, hk, hne⟩ => ?_, fun hall => ?_⟩
    · subst hk
      rw [hcore, acked_held y (isSome_find?_of_mem hc)]
      exact acknowledge_slots _ y hz
    · have hin : y ∈ (s.acked core y).shoots := by rw [acked_only]; exact List.mem_of_find?_eq_some hy
      rw [afterAck_some hk hne]
      exact ⟨List.mem_map.2 ⟨y, hin, if_pos (by simpa using List.find?_some hy)⟩, by rw [acked_only]; rfl⟩
    · rw [afterAck_last hall]
      obtain ⟨ag, tr, hr⟩ := resume_only { s.acked core y with shoots := (s.acked core y).shoots.filter fun x => x.id ≠ id } y.tid y.uid
      refine ⟨fun x hx => ?_, fun T hT => resume_past (U := T) (by rw [acked_only]; exact hT)
        fun k q hq _ _ => ⟨q, hq, rfl, rfl, rfl, rfl, rfl, rfl⟩⟩
      unfold State.shotOver at hx
      rw [hr] at hx
      simpa using (List.mem_filter.1 hx).2

end Sys2Proof
end

section
/-! The end of a context: which overlay loads its termination leaves (R413). -/

namespace Sys2Proof

open Machine

namespace Machine

/-- A fold whose steps keep the overlay loads keeps them. -/
theorem foldl_ovlLoads {α : Type} {f : State → α → State} (h : ∀ s a, (f s a).ovlLoads = s.ovlLoads) (l : List α) (s : State) :
    (l.foldl f s).ovlLoads = s.ovlLoads :=
  foldl_rel (p := fun s t : State => t.ovlLoads = s.ovlLoads) (fun _ => rfl) (fun h k => k.trans h) h l s

theorem admitFaults_ovlLoads (s : State) : s.admitFaults.ovlLoads = s.ovlLoads := by
  refine foldl_ovlLoads (fun s id => ?_) _ s
  obtain ⟨fw, tk, ds, ag, e, -⟩ := admitFault_only s id
  rw [e]

theorem homeWrite_ovlLoads (s : State) (pa : Nat) (bs : List Byte) : (s.homeWrite pa bs).ovlLoads = s.ovlLoads := by
  rw [homeWrite_eq]

theorem terminate_ovlLoads (s : State) (c : Nat) : (s.terminate c).ovlLoads = s.ovlLoads.filter fun l => l.ctx ≠ c := by
  unfold State.terminate
  rw [State.at_ovlLoads, admitFaults_ovlLoads, foldl_ovlLoads fun s q => ?_]
  · rfl
  · exact (homeWrite_ovlLoads _ _ _).trans (homeWrite_ovlLoads _ _ _)

end Machine
end Sys2Proof
end

section
/-! Overlay loads: which states translate alike, how far a load gets, and what a copy that completes leaves (R70, R73). -/

namespace Sys2Proof

open Machine

namespace Machine

/-! ### States that translate alike -/

/-- Memory, the cores and the mapping regions are the same: what a translation goes by (R277 to R283). -/
structure Alike (s t : State) : Prop where
  mem : t.mem = s.mem
  cores : t.cores = s.cores
  regs : t.mapRegs = s.mapRegs

/-- Two translations give the same address or fail for the same reason. -/
def SameOutcome : Except Miss Mapped → Except Miss Mapped → Prop
  | .ok a, .ok b => a.pa = b.pa
  | .error a, .error b => a.reason = b.reason
  | .ok _, .error _ => False
  | .error _, .ok _ => False

variable {s t : State}

theorem Alike.of_sameModule (h : sameModule s t) : Alike s t := by rw [h]; exact ⟨rfl, rfl, rfl⟩

theorem Alike.of_onlyCopies (h : OnlyCopies s t) : Alike s t := by rw [h]; exact ⟨rfl, rfl, rfl⟩

theorem Alike.of_onlyPaths (h : OnlyPaths s t) : Alike s t := by rw [h]; exact ⟨rfl, rfl, rfl⟩

theorem Alike.symm (h : Alike s t) : Alike t s := ⟨h.mem.symm, h.cores.symm, h.regs.symm⟩

theorem Alike.trans {u : State} (h : Alike s t) (k : Alike t u) : Alike s u :=
  ⟨k.mem.trans h.mem, k.cores.trans h.cores, k.regs.trans h.regs⟩

theorem Alike.core (h : Alike s t) (k : Nat) : t.core k = s.core k := by unfold State.core; rw [h.cores]

theorem Alike.modCore (h : Alike s t) (k : Nat) (f : Core → Core) : Alike (s.modCore k f) (t.modCore k f) :=
  ⟨h.mem, by simp only [State.modCore]; rw [h.cores, h.core], h.regs⟩

theorem Alike.peek (h : Alike s t) : t.peek = s.peek := by
  funext a n
  unfold State.peek
  rw [h.mem]

theorem Alike.peek64 (h : Alike s t) : t.peek64 = s.peek64 := by
  funext a
  unfold State.peek64
  rw [h.peek]

theorem Alike.backed (h : Alike s t) : t.backed = s.backed := by
  funext a
  unfold State.backed State.regionOf
  rw [h.regs]

theorem Alike.entryOf (h : Alike s t) : Machine.entryOf t = Machine.entryOf s := by
  funext e l
  unfold Machine.entryOf
  rw [h.backed]

theorem Alike.walkFrom (h : Alike s t) (ctxid va l table : Nat) (seen : List WalkEnt) :
    t.walkFrom ctxid va l table seen = s.walkFrom ctxid va l table seen := by
  induction l generalizing table seen with
  | zero => simp only [State.walkFrom, h.peek64, h.entryOf]
  | succ l ih => simp only [State.walkFrom, h.peek64, h.entryOf, ih]

theorem Alike.walk (h : Alike s t) (core ptbr ctxid va : Nat) : t.walk core ptbr ctxid va = s.walk core ptbr ctxid va := by
  unfold State.walk
  simp only [h.core, h.backed, h.walkFrom]

theorem Alike.leafTest (h : Alike s t) : Machine.leafTest t = Machine.leafTest s := by
  funext e sup a pa
  unfold Machine.leafTest
  rw [h.backed]

theorem Alike.readAll (h : Alike s t) (core : Nat) (l k : List Nat) : Alike (State.readAll core l s).1 (State.readAll core k t).1 :=
  ((Alike.of_onlyPaths (readAll_only core l s)).symm.trans h).trans (.of_onlyPaths (readAll_only core k t))

/-- Translations in such states come out alike, and leave such states. -/
theorem Alike.translate (h : Alike s t) (core : Nat) (q : Option Nat) (ptbr ctxid : Nat) (sup : Bool) (a : Access) (va : Nat) :
    Alike (s.translate core q ptbr ctxid sup a va).1 (t.translate core q ptbr ctxid sup a va).1
      ∧ SameOutcome (s.translate core q ptbr ctxid sup a va).2 (t.translate core q ptbr ctxid sup a va).2 := by
  unfold State.translate
  split
  · exact ⟨h, rfl⟩
  · simp only [h.core, h.walk, h.leafTest]
    split
    · exact ⟨h.readAll _ _ _, rfl⟩
    · split <;> dsimp only <;> exact ⟨(h.readAll _ _ _).modCore _ _, rfl⟩

/-- Two runs through the pages of a code give the same addresses, or stop at the same page for the same reason. -/
def SamePages : Except (Nat × Miss) (List Nat) → Except (Nat × Miss) (List Nat) → Prop
  | .ok a, .ok b => a = b
  | .error a, .error b => a.1 = b.1 ∧ a.2.reason = b.2.reason
  | .ok _, .error _ => False
  | .error _, .ok _ => False

theorem Alike.codePages (h : Alike s t) (core ptbr ctxid : Nat) (sup : Bool) (l : List Nat) :
    SamePages (s.codePages core ptbr ctxid sup l).2 (t.codePages core ptbr ctxid sup l).2 := by
  induction l generalizing s t with
  | nil => rfl
  | cons va l ih =>
    obtain ⟨h1, h2⟩ := h.translate core none ptbr ctxid sup .code va
    unfold State.codePages
    generalize s.translate core none ptbr ctxid sup .code va = x at h1 h2
    generalize t.translate core none ptbr ctxid sup .code va = y at h1 h2
    obtain ⟨s1, m | a⟩ := x <;> obtain ⟨t1, n | b⟩ := y
    · exact ⟨rfl, h2⟩
    · exact h2.elim
    · exact h2.elim
    · have k := ih h1
      dsimp only
      generalize s1.codePages core ptbr ctxid sup l = p at k
      generalize t1.codePages core ptbr ctxid sup l = q at k
      obtain ⟨s2, m | ps⟩ := p <;> obtain ⟨t2, n | qs⟩ := q
      · exact k
      · exact k.elim
      · exact k.elim
      · exact congrArg₂ _ h2 k

theorem codePages_only (s : State) (core ptbr ctxid : Nat) (sup : Bool) (l : List Nat) :
    OnlyTlbs s (s.codePages core ptbr ctxid sup l).1 := by
  induction l generalizing s with
  | nil => exact .refl s
  | cons va l ih =>
    have h := translate_only s core none ptbr ctxid sup .code va
    unfold State.codePages
    generalize s.translate core none ptbr ctxid sup .code va = x at h
    obtain ⟨s1, m | a⟩ := x
    · exact h
    · have k := ih s1
      dsimp only
      generalize s1.codePages core ptbr ctxid sup l = p at k
      obtain ⟨s2, m | ps⟩ := p
      · exact h.trans k
      · exact h.trans k

/-! ### How far a load gets -/

/-- Of the module only the translations and the slots of cores, what reads pass, the loads and the waiting faults differ. -/
def OnlyLoads (s t : State) : Prop :=
  t = { t.caches.on s with tick := t.tick, agenda := t.agenda, ovlLoads := t.ovlLoads, faultWaits := t.faultWaits, dies := t.dies }

theorem OnlyLoads.refl (s : State) : OnlyLoads s s := rfl

theorem OnlyLoads.trans {a b c : State} (h : OnlyLoads a b) (k : OnlyLoads b c) : OnlyLoads a c := by
  unfold OnlyLoads State.caches Caches.on at *; rw [k, h]

theorem OnlyCaches.loads (h : OnlyCaches s t) : OnlyLoads s t := by
  unfold OnlyLoads State.caches Caches.on; unfold OnlyCaches State.caches Caches.on at h; rw [h]

theorem OnlyTlbs.loads (h : OnlyTlbs s t) : OnlyLoads s t := h.eq.loads

theorem putLoad_only (s : State) (l : OvlLoad) : OnlyLoads s (s.putLoad l) := rfl

theorem raiseFault_loads (s : State) (f : FaultWait) : OnlyLoads s (s.raiseFault f) := by
  obtain ⟨fw, tk, ds, ag, e, -⟩ := admitFault_only ({ s with faultWaits := s.faultWaits ++ [{ f with id := s.tick }] } : State).bump s.tick
  unfold State.raiseFault
  rw [e]
  rfl

/-- A slot that a load takes, without what it held. -/
def State.emptied (s : State) (core k : Nat) : State := s.modCore core fun c => c.modSlot k fun x => { x with tag := none, code := [] }

theorem startOvl_only (s : State) (l : OvlLoad) (c : Context) (n k base size : Nat) : OnlyLoads s (s.startOvl l c n k base size).1 := by
  have h := codePages_only (s.emptied l.core k) l.core c.ptbr.toNat c.ctxid.toNat l.sup (pagesOf base size)
  have h0 : OnlyLoads s (s.emptied l.core k) := rfl
  unfold State.startOvl
  dsimp only
  rw [← State.emptied]
  generalize State.codePages _ _ _ _ _ _ = q at h
  obtain ⟨s2, ⟨va, m⟩ | pages⟩ := q
  · exact h0.trans (h.loads.trans ((putLoad_only _ _).trans (raiseFault_loads _ _)))
  · have fills (a : State) (f : Core → Core) (y : OvlLoad) (due : Nat) (ev : Ev) :
        OnlyLoads a (((a.modCore l.core f).putLoad y).bump.at_ due ev) := rfl
    exact h0.trans (h.loads.trans ((readMax_only l.core (pageSectors base size pages) s2).caches.loads.trans (fills _ _ _ _ _)))

/-- The virtual address of an overlay's directory entry (R67). -/
def Context.entryAddr (c : Context) (ovl : Nat) : Nat := 65536 * bvField c.odir 59 16 + 16 * ovl

/-- The translation of a load's directory entry. -/
def State.entryAt (s : State) (l : OvlLoad) (c : Context) : State × Except Miss Mapped :=
  s.translate l.core none c.ptbr.toNat c.ctxid.toNat l.sup .ovld (c.entryAddr l.ovl)

theorem tryOvl_only (s : State) (l : OvlLoad) (n : Nat) : OnlyLoads s (s.tryOvl l n).1 := by
  unfold State.tryOvl
  split
  · exact .refl s
  · next c hc =>
    have h : OnlyLoads s (s.entryAt l c).1 := (translate_only _ _ _ _ _ _ _ _).loads
    unfold State.entryAt Context.entryAddr at h
    dsimp only
    split
    · rfl
    · split
      · next heq =>
        rw [heq] at h
        split
        · exact h.trans rfl
        · split
          · exact h.trans rfl
          · exact h.trans ((putLoad_only _ _).trans (raiseFault_loads _ _))
      · next heq =>
        rw [heq] at h
        split
        · exact h.trans rfl
        · split
          · exact h.trans rfl
          · split
            · exact h.trans rfl
            · split
              · exact h.trans rfl
              · exact h.trans ((noteRead_only _ _).caches.loads.trans (startOvl_only _ _ _ _ _ _ _))

/-- A copy of the load's overlay for its context is in flight. -/
def Flying (s : State) (l : OvlLoad) : Prop :=
  ∃ y ∈ s.ovlLoads, y.id ≠ l.id ∧ y.core = l.core ∧ y.ctx = l.ctx ∧ y.ovl = l.ovl ∧ y.slot.isSome = true

theorem ovlInFlight_iff (s : State) (l : OvlLoad) : s.ovlInFlight l = true ↔ Flying s l := by
  simp [State.ovlInFlight, Flying, and_assoc]

theorem OnlyTlbs.ovlLoads (h : OnlyTlbs s t) : t.ovlLoads = s.ovlLoads := by rw [h.eq]; rfl

theorem entryAt_inFlight (s : State) (l : OvlLoad) (c : Context) : (s.entryAt l c).1.ovlInFlight l = true ↔ Flying s l := by
  rw [ovlInFlight_iff]
  unfold Flying State.entryAt
  rw [(translate_only _ _ _ _ _ _ _ _).ovlLoads]

/-- A slot of the load's core holds its overlay. -/
def Held (s : State) (l : OvlLoad) : Prop := ((s.core l.core).slotOf l.ctx l.ovl).isSome = true

theorem tryOvl_beyond {l : OvlLoad} {n : Nat} (h : 4096 ≤ l.ovl) : (s.tryOvl l n).2 = .status 2 := by
  unfold State.tryOvl
  split
  · rfl
  · simp only [h, if_true]

section
variable {l : OvlLoad} {c : Context} {n : Nat} {m : Miss} {x : Mapped} (hc : s.ctxSeen l.core l.ctx = some c) (hk : l.ovl < 4096)

section
variable (ht : (s.entryAt l c).2 = .error m)
include hc hk ht

theorem tryOvl_unread_held (hh : Held s l) : (s.tryOvl l n).2 = .status 0 := by
  have e : s.entryAt l c = ((s.entryAt l c).1, .error m) := Prod.ext rfl ht
  generalize (s.entryAt l c).1 = s1 at e
  unfold State.entryAt Context.entryAddr at e
  unfold Held at hh
  simp only [State.tryOvl, hc, if_neg (Nat.not_le.2 hk), e, hh, if_true]

theorem tryOvl_unread_flying (hh : ¬Held s l) (hf : Flying s l) : s.tryOvl l n = ((s.entryAt l c).1.putLoad { l with slot := none }, .waits) := by
  have hf := (entryAt_inFlight s l c).2 hf
  have e : s.entryAt l c = ((s.entryAt l c).1, .error m) := Prod.ext rfl ht
  generalize (s.entryAt l c).1 = s1 at *
  unfold State.entryAt Context.entryAddr at e
  unfold Held at hh
  simp only [State.tryOvl, hc, if_neg (Nat.not_le.2 hk), e, if_neg hh, hf, if_true]

theorem tryOvl_unread_faults (hh : ¬Held s l) (hf : ¬Flying s l) : s.tryOvl l n
    = (((s.entryAt l c).1.putLoad { l with slot := none }).raiseFault (l.fault c.ctxid.toNat (c.entryAddr l.ovl) n m), .waits) := by
  have hf := mt (entryAt_inFlight s l c).1 hf
  have e : s.entryAt l c = ((s.entryAt l c).1, .error m) := Prod.ext rfl ht
  generalize (s.entryAt l c).1 = s1 at *
  unfold State.entryAt Context.entryAddr at e
  unfold Held at hh
  simp only [State.tryOvl, hc, if_neg (Nat.not_le.2 hk), e, if_neg hh, if_neg hf]
  rfl

end

section
variable (ht : (s.entryAt l c).2 = .ok x)
include hc hk ht

theorem tryOvl_invalid (hd : dirEntry (leNat ((s.entryAt l c).1.peek x.pa 16)) = none) : (s.tryOvl l n).2 = .status 2 := by
  have e : s.entryAt l c = ((s.entryAt l c).1, .ok x) := Prod.ext rfl ht
  generalize (s.entryAt l c).1 = s1 at *
  unfold State.entryAt Context.entryAddr at e
  simp only [State.tryOvl, hc, if_neg (Nat.not_le.2 hk), e, hd]

variable {size base : Nat} (hd : dirEntry (leNat ((s.entryAt l c).1.peek x.pa 16)) = some (size, base))
include hd

theorem tryOvl_held (hh : Held s l) : (s.tryOvl l n).2 = .status 0 := by
  have e : s.entryAt l c = ((s.entryAt l c).1, .ok x) := Prod.ext rfl ht
  generalize (s.entryAt l c).1 = s1 at *
  unfold State.entryAt Context.entryAddr at e
  unfold Held at hh
  simp only [State.tryOvl, hc, if_neg (Nat.not_le.2 hk), e, hd, hh, if_true]

theorem tryOvl_flying (hh : ¬Held s l) (hf : Flying s l) : s.tryOvl l n = ((s.entryAt l c).1.putLoad { l with slot := none }, .waits) := by
  have hf := (entryAt_inFlight s l c).2 hf
  have e : s.entryAt l c = ((s.entryAt l c).1, .ok x) := Prod.ext rfl ht
  generalize (s.entryAt l c).1 = s1 at *
  unfold State.entryAt Context.entryAddr at e
  unfold Held at hh
  simp only [State.tryOvl, hc, if_neg (Nat.not_le.2 hk), e, hd, if_neg hh, hf, if_true]

theorem tryOvl_starts (hh : ¬Held s l) (hf : ¬Flying s l) {k : Nat} (hp : (s.core l.core).pickSlot = some k) :
    s.tryOvl l n = ((s.entryAt l c).1.noteRead x.pa).startOvl l c n k base size := by
  have hf := mt (entryAt_inFlight s l c).1 hf
  have hp : ((s.entryAt l c).1.core l.core).pickSlot = some k := by
    unfold State.entryAt
    rw [(translate_only _ _ _ _ _ _ _ _).core]
    exact hp
  have e : s.entryAt l c = ((s.entryAt l c).1, .ok x) := Prod.ext rfl ht
  generalize (s.entryAt l c).1 = s1 at *
  unfold State.entryAt Context.entryAddr at e
  unfold Held at hh
  simp only [State.tryOvl, hc, if_neg (Nat.not_le.2 hk), e, hd, if_neg hh, if_neg hf, hp]

end
end

/-! ### Slots, and copies that start -/

theorem modSlot_same (c : Core) (k : Nat) (f : OvlSlot → OvlSlot) : (c.modSlot k f).slots[k]? = c.slots[k]?.map f := by
  simp [Core.modSlot]

theorem foldl_chooses {α : Type} (p : α → Prop) (f : Option α → α → Option α) (hf : ∀ b a, f b a = b ∨ f b a = some a) (l : List α)
    (hl : ∀ a ∈ l, p a) (b : Option α) (hb : ∀ a, b = some a → p a) : ∀ a, l.foldl f b = some a → p a := by
  induction l generalizing b with
  | nil => exact hb
  | cons x l ih =>
    refine ih (fun a h => hl a (List.mem_cons_of_mem _ h)) (f b x) fun a h => ?_
    rcases hf b x with e | e
    · exact hb a (e ▸ h)
    · rw [e] at h
      cases h
      exact hl x List.mem_cons_self

theorem pickSlot_lt {c : Core} {k : Nat} (h : c.pickSlot = some k) : k < 4 := by
  have hfree : ∀ j ∈ (List.range 4).filter fun k => !(c.slots.getD k OvlSlot.empty).filling, j < 4 := fun j hj =>
    List.mem_range.1 (List.mem_filter.1 hj).1
  unfold Core.pickSlot at h
  dsimp only at h
  split at h
  · next hs =>
    cases h
    exact hfree _ (List.mem_of_find?_eq_some hs)
  · refine foldl_chooses (· < 4) _ (fun b a => ?_) _ hfree none (fun _ hn => by cases hn) k h
    cases b with
    | none => exact .inr rfl
    | some j => dsimp only; split <;> simp

/-- R67: what ovld accepts of a directory entry. -/
def ValidEntry (e : Nat) : Prop :=
  e.testBit 127 = true ∧ field e 126 113 = 0 ∧ field e 95 60 = 0 ∧ field e 5 0 = 0 ∧ 4 ≤ field e 112 96
    ∧ field e 112 96 ≤ 65536 ∧ field e 112 96 % 4 = 0

theorem dirEntry_valid {e : Nat} (h : ValidEntry e) : dirEntry e = some (field e 112 96, field e 59 0) := by
  unfold dirEntry
  rw [bitOf_eq]
  exact if_pos h

theorem dirEntry_invalid {e : Nat} (h : ¬ValidEntry e) : dirEntry e = none := by
  unfold dirEntry
  rw [bitOf_eq]
  exact if_neg h

theorem OnlyTlbs.slots (h : OnlyTlbs s t) (k : Nat) : (t.core k).slots = (s.core k).slots := by rw [h.core]

theorem OnlyTlbs.faults (h : OnlyTlbs s t) : t.faultWaits = s.faultWaits ∧ t.tick = s.tick := by rw [h.eq]; exact ⟨rfl, rfl⟩

theorem OnlyTlbs.peek (h : OnlyTlbs s t) : t.peek = s.peek := by
  funext a n
  unfold State.peek
  rw [h.mem]

theorem OnlyCopies.tlbs (h : OnlyCopies s t) : OnlyTlbs s t := h.paths.tlbs

theorem emptied_slot {core k : Nat} {x : OvlSlot} (h : (s.core core).slots[k]? = some x) :
    ((s.emptied core k).core core).slots[k]? = some { x with tag := none, code := [] } := by
  unfold State.emptied
  rw [State.core_modCore, if_pos rfl, modSlot_same, h]
  rfl

section
variable {l : OvlLoad} {c : Context} {n k base size : Nat}

/-- A load that takes a slot and whose pages translate copies into it (R73). -/
theorem startOvl_copies {pages : List Nat} {x : OvlSlot} (hx : (s.core l.core).slots[k]? = some x)
    (hq : ((s.emptied l.core k).codePages l.core c.ptbr.toNat c.ctxid.toNat l.sup (pagesOf base size)).2 = .ok pages) :
    let r := s.startOvl l c n k base size
    r.2 = .waits ∧ { l with slot := some k, pages := pages, base := base, size := size } ∈ r.1.ovlLoads
      ∧ (∃ due, ⟨due, .ovldCopyComplete l.id⟩ ∈ r.1.agenda)
      ∧ (r.1.core l.core).slots[k]?.map (fun y => (y.tag, y.filling)) = some (none, true) := by
  have h := codePages_only (s.emptied l.core k) l.core c.ptbr.toNat c.ctxid.toNat l.sup (pagesOf base size)
  have hs := emptied_slot hx
  rw [← h.slots] at hs
  unfold State.startOvl
  dsimp only
  rw [← State.emptied]
  generalize State.codePages _ _ _ _ _ _ = q at h hq hs
  obtain ⟨s2, q⟩ := q
  cases hq
  dsimp only at hs ⊢
  have hr := readMax_only l.core (pageSectors base size pages) s2
  rw [← hr.core] at hs
  generalize readMax l.core (pageSectors base size pages) s2 = r at hs
  refine ⟨rfl, List.mem_append_right _ (List.mem_singleton.2 rfl), ⟨_, mem_at.2 (.inl rfl)⟩, ?_⟩
  have fills (a : State) (f : Core → Core) (y : OvlLoad) (due : Nat) (ev : Ev) :
      (((a.modCore l.core f).putLoad y).bump.at_ due ev).core l.core = f (a.core l.core) := by
    exact (State.core_modCore a l.core l.core f).trans (if_pos rfl)
  rw [fills, modSlot_same, hs]
  rfl

/-- A load that takes a slot and whose code cannot be read waits with a fault (R74). -/
theorem startOvl_faults {va : Nat} {z : Miss} {x : OvlSlot} (hx : (s.core l.core).slots[k]? = some x)
    (hf : ∀ f ∈ s.faultWaits, f.id < s.tick)
    (hq : ((s.emptied l.core k).codePages l.core c.ptbr.toNat c.ctxid.toNat l.sup (pagesOf base size)).2 = .error (va, z)) :
    let r := s.startOvl l c n k base size
    r.2 = .waits ∧ { l with slot := none } ∈ r.1.ovlLoads
      ∧ (∃ i, ∃ g ∈ r.1.faultWaits, SameFault { l.fault c.ctxid.toNat va n z with id := i } g)
      ∧ (r.1.core l.core).slots[k]?.map (·.tag) = some none := by
  have h := codePages_only (s.emptied l.core k) l.core c.ptbr.toNat c.ctxid.toNat l.sup (pagesOf base size)
  have hs := emptied_slot hx
  rw [← h.slots] at hs
  obtain ⟨hw, ht⟩ := h.faults
  unfold State.startOvl
  dsimp only
  rw [← State.emptied]
  generalize State.codePages _ _ _ _ _ _ = q at h hq hs hw ht
  obtain ⟨s2, q⟩ := q
  cases hq
  dsimp only at hs hw ht ⊢
  obtain ⟨fw, tk, ds, ag, e, -, -, g, hg, hsame⟩ := raiseFault_only (s2.putLoad { l with slot := none }) (l.fault c.ctxid.toNat va n z)
    (by
      change ∀ f ∈ s2.faultWaits, f.id < s2.tick
      rw [hw, ht]
      exact hf)
  rw [e]
  refine ⟨rfl, List.mem_append_right _ (List.mem_singleton.2 rfl), ⟨_, g, hg, hsame⟩, ?_⟩
  change ((s2.core l.core).slots[k]?).map (·.tag) = some none
  rw [hs]
  rfl

end

/-! ### The status of a load -/

/-- A troupe once a load for its result `d` has got as far as a step: a status stands in the result. -/
def OvlStep.fill (r : OvlStep) (d : Nat) (T : Troupe) : Troupe :=
  match r with
  | .status v => T.fillPend d (BitVec.ofNat 32 v)
  | .waits => T

theorem loadOvl_status {l : OvlLoad} {v : Nat} (h : (s.tryOvl l (s.slotNo l.tid)).2 = .status v) :
    s.loadOvl l = (s.tryOvl l (s.slotNo l.tid)).1.ovlDeliver l v := by
  have e : s.tryOvl l (s.slotNo l.tid) = ((s.tryOvl l (s.slotNo l.tid)).1, .status v) := Prod.ext rfl h
  generalize (s.tryOvl l (s.slotNo l.tid)).1 = s1 at e ⊢
  unfold State.loadOvl
  rw [e]

theorem loadOvl_waits {l : OvlLoad} (h : (s.tryOvl l (s.slotNo l.tid)).2 = .waits) : s.loadOvl l = (s.tryOvl l (s.slotNo l.tid)).1 := by
  have e : s.tryOvl l (s.slotNo l.tid) = ((s.tryOvl l (s.slotNo l.tid)).1, .waits) := Prod.ext rfl h
  generalize (s.tryOvl l (s.slotNo l.tid)).1 = s1 at e ⊢
  unfold State.loadOvl
  rw [e]

theorem ovlDeliver_result {l : OvlLoad} {d : Nat} (hd : l.dst = some d) (v : Nat) : s.ovlDeliver l v
    = (s.modTroupe l.tid fun t => t.fillPend d (BitVec.ofNat 32 v)).at_ s.now (.scoreboardResultWrite l.tid d) := by
  unfold State.ovlDeliver
  rw [hd]

/-- An ovld's load leaves memory, ensembles and the other troupes as they are; a status it has at once stands in its result. -/
theorem loadOvl_leaves {l : OvlLoad} {d : Nat} {T : Troupe} (hd : l.dst = some d) (hT : s.troupes.find? l.tid = some T) :
    let r := s.tryOvl l (s.slotNo l.tid)
    let t := s.loadOvl l
    t.troupes.find? l.tid = some (r.2.fill d T) ∧ (∀ j, j ≠ l.tid → t.troupes.find? j = s.troupes.find? j) ∧ t.ensembles = s.ensembles
      ∧ t.mem = s.mem ∧ ∀ v, r.2 = .status v → ⟨s.now, .scoreboardResultWrite l.tid d⟩ ∈ t.agenda := by
  have ho := tryOvl_only s l (s.slotNo l.tid)
  dsimp only
  cases hr : (s.tryOvl l (s.slotNo l.tid)).2 with
  | status v =>
    rw [loadOvl_status hr, ovlDeliver_result hd]
    generalize (s.tryOvl l (s.slotNo l.tid)).1 = s1 at ho
    rw [ho]
    refine ⟨?_, fun j hj => Tab.find?_modify_other _ _ hj, rfl, rfl, fun _ _ => mem_at.2 (.inl rfl)⟩
    exact (Tab.find?_modify_same _ _ _).trans (by rw [show (s1.caches.on s).troupes = s.troupes from rfl, hT]; rfl)
  | waits =>
    rw [loadOvl_waits hr]
    generalize (s.tryOvl l (s.slotNo l.tid)).1 = s1 at ho
    rw [ho]
    exact ⟨hT, fun _ _ => rfl, rfl, rfl, fun v hv => by cases hv⟩

/-! ### A load in a state like another -/

section
variable {u : State} {l : OvlLoad} {c : Context} (hm : sameModule s u)
include hm

theorem ctxSeen_of_sameModule (core k : Nat) : u.ctxSeen core k = s.ctxSeen core k := by rw [hm]; rfl

theorem held_of_sameModule : Held u l ↔ Held s l := by
  unfold Held
  rw [(Alike.of_sameModule hm).core]

theorem flying_of_sameModule : Flying u l ↔ Flying s l := by
  unfold Flying
  rw [hm]

theorem entryAt_of_sameModule : Alike (s.entryAt l c).1 (u.entryAt l c).1 ∧ SameOutcome (s.entryAt l c).2 (u.entryAt l c).2 :=
  (Alike.of_sameModule hm).translate _ _ _ _ _ _ _

theorem faults_before_tick (hf : ∀ f ∈ s.faultWaits, f.id < s.tick) (htick : s.tick ≤ u.tick) : ∀ f ∈ u.faultWaits, f.id < u.tick := by
  have e : u.faultWaits = s.faultWaits := by rw [hm]
  intro f h
  exact (hf f (e ▸ h)).trans_le htick

theorem entryAt_faults : (u.entryAt l c).1.faultWaits = s.faultWaits ∧ (u.entryAt l c).1.tick = u.tick := by
  obtain ⟨h1, h2⟩ := (translate_only u l.core none c.ptbr.toNat c.ctxid.toNat l.sup .ovld (c.entryAddr l.ovl)).faults
  exact ⟨h1.trans (by rw [hm]), h2⟩

section
variable (hc : s.ctxSeen l.core l.ctx = some c) (hk : l.ovl < 4096)
include hc hk

/-- A load whose directory entry cannot be read. -/
theorem loadOvl_unread {m : Miss} (ht : (s.entryAt l c).2 = .error m) (hf : ∀ f ∈ s.faultWaits, f.id < s.tick) (htick : s.tick ≤ u.tick) :
    (Held s l → (u.tryOvl l (u.slotNo l.tid)).2 = .status 0)
    ∧ (¬Held s l → Flying s l → (u.tryOvl l (u.slotNo l.tid)).2 = .waits ∧ { l with slot := none } ∈ (u.loadOvl l).ovlLoads
        ∧ (u.loadOvl l).faultWaits = s.faultWaits)
    ∧ (¬Held s l → ¬Flying s l → (u.tryOvl l (u.slotNo l.tid)).2 = .waits ∧ ∃ f ∈ (u.loadOvl l).faultWaits, f.waiter = .ovld l.id ∧ f.acc = 3
        ∧ f.cause = m.cause ∧ f.reason = m.reason ∧ f.pc = l.pc) := by
  have hcu := (ctxSeen_of_sameModule hm l.core l.ctx).trans hc
  obtain ⟨-, hsame⟩ := entryAt_of_sameModule (l := l) (c := c) hm
  obtain ⟨hfe, hte⟩ := entryAt_faults (l := l) (c := c) hm
  cases hu : (u.entryAt l c).2 with
  | ok x =>
    rw [ht, hu] at hsame
    exact hsame.elim
  | error z =>
    rw [ht, hu] at hsame
    have hz : m.reason = z.reason := hsame
    refine ⟨fun hh => tryOvl_unread_held hcu hk hu ((held_of_sameModule hm).2 hh), fun hh hy => ?_, fun hh hy => ?_⟩
    · have e := tryOvl_unread_flying (n := u.slotNo l.tid) hcu hk hu (mt (held_of_sameModule hm).1 hh) ((flying_of_sameModule hm).2 hy)
      have hw := congrArg Prod.snd e
      rw [loadOvl_waits hw, e]
      exact ⟨rfl, List.mem_append_right _ (List.mem_singleton.2 rfl), hfe⟩
    · have e := tryOvl_unread_faults (n := u.slotNo l.tid) hcu hk hu (mt (held_of_sameModule hm).1 hh) (mt (flying_of_sameModule hm).1 hy)
      have hw := congrArg Prod.snd e
      rw [loadOvl_waits hw, e]
      obtain ⟨fw, tk, ds, ag, e, -, -, g, hg, hs⟩ := raiseFault_only ((u.entryAt l c).1.putLoad { l with slot := none })
        (l.fault c.ctxid.toNat (c.entryAddr l.ovl) (u.slotNo l.tid) z) (by
          change ∀ f ∈ (u.entryAt l c).1.faultWaits, f.id < (u.entryAt l c).1.tick
          rw [hfe, hte]
          exact fun f h => (hf f h).trans_le htick)
      rw [e]
      refine ⟨rfl, g, hg, ?_⟩
      rw [hs]
      exact ⟨rfl, rfl, by rw [Miss.cause, hz]; rfl, hz.symm, rfl⟩

/-- A load whose directory entry is read, and is valid or not. -/
theorem loadOvl_read {x : Mapped} (ht : (s.entryAt l c).2 = .ok x) :
    let e := leNat (s.peek x.pa 16)
    (¬ValidEntry e → (u.tryOvl l (u.slotNo l.tid)).2 = .status 2)
    ∧ (ValidEntry e → Held s l → (u.tryOvl l (u.slotNo l.tid)).2 = .status 0)
    ∧ (ValidEntry e → ¬Held s l → Flying s l → (u.tryOvl l (u.slotNo l.tid)).2 = .waits ∧ { l with slot := none } ∈ (u.loadOvl l).ovlLoads
        ∧ (u.loadOvl l).faultWaits = s.faultWaits)
    ∧ (ValidEntry e → ¬Held s l → ¬Flying s l → ∀ j, (s.core l.core).pickSlot = some j → ∃ v, Alike ((s.entryAt l c).1.noteRead x.pa) v
        ∧ OnlyTlbs u v ∧ u.tryOvl l (u.slotNo l.tid) = v.startOvl l c (u.slotNo l.tid) j (field e 59 0) (field e 112 96)) := by
  have hcu := (ctxSeen_of_sameModule hm l.core l.ctx).trans hc
  obtain ⟨halike, hsame⟩ := entryAt_of_sameModule (l := l) (c := c) hm
  obtain ⟨hfe, -⟩ := entryAt_faults (l := l) (c := c) hm
  have hs := translate_only s l.core none c.ptbr.toNat c.ctxid.toNat l.sup .ovld (c.entryAddr l.ovl)
  have hv := translate_only u l.core none c.ptbr.toNat c.ctxid.toNat l.sup .ovld (c.entryAddr l.ovl)
  cases hu : (u.entryAt l c).2 with
  | error z =>
    rw [ht, hu] at hsame
    exact hsame.elim
  | ok y =>
    rw [ht, hu] at hsame
    have hbytes : (u.entryAt l c).1.peek y.pa 16 = s.peek x.pa 16 := by
      rw [halike.peek, show y.pa = x.pa from hsame.symm]
      exact congrFun (congrFun hs.peek _) _
    have hd (h : ValidEntry (leNat (s.peek x.pa 16))) := dirEntry_valid h
    rw [← hbytes] at hd ⊢
    refine ⟨fun h => tryOvl_invalid hcu hk hu (dirEntry_invalid h), fun h hh => tryOvl_held hcu hk hu (hd h) ((held_of_sameModule hm).2 hh),
      fun h hh hy => ?_, fun h hh hy j hj => ?_⟩
    · have e := tryOvl_flying (n := u.slotNo l.tid) hcu hk hu (hd h) (mt (held_of_sameModule hm).1 hh) ((flying_of_sameModule hm).2 hy)
      have hw := congrArg Prod.snd e
      rw [loadOvl_waits hw, e]
      exact ⟨rfl, List.mem_append_right _ (List.mem_singleton.2 rfl), hfe⟩
    · refine ⟨(u.entryAt l c).1.noteRead y.pa, ?_, hv.trans (noteRead_only _ _).tlbs, tryOvl_starts hcu hk hu (hd h)
        (mt (held_of_sameModule hm).1 hh) (mt (flying_of_sameModule hm).1 hy) ?_⟩
      · exact ((Alike.of_onlyCopies (noteRead_only _ _)).symm.trans halike).trans (.of_onlyCopies (noteRead_only _ _))
      · rw [(Alike.of_sameModule hm).core]
        exact hj

end

/-- The copy of a load in a state like another: it starts, or waits with the fault of a page of its code. -/
theorem startOvl_like {b v : State} {n j base size : Nat} (hb : Alike b v) (hv : OnlyTlbs u v) (hj : (s.core l.core).pickSlot = some j)
    (hlen : (s.core l.core).slots.length = 4) (hf : ∀ f ∈ s.faultWaits, f.id < s.tick) (htick : s.tick ≤ u.tick) :
    let q := ((b.emptied l.core j).codePages l.core c.ptbr.toNat c.ctxid.toNat l.sup (pagesOf base size)).2
    let r := v.startOvl l c n j base size
    r.2 = .waits
      ∧ (∀ pages, q = .ok pages → { l with slot := some j, pages := pages, base := base, size := size } ∈ r.1.ovlLoads
          ∧ (∃ due, ⟨due, .ovldCopyComplete l.id⟩ ∈ r.1.agenda)
          ∧ (r.1.core l.core).slots[j]?.map (fun y => (y.tag, y.filling)) = some (none, true))
      ∧ ∀ va z, q = .error (va, z) → { l with slot := none } ∈ r.1.ovlLoads
          ∧ (∃ f ∈ r.1.faultWaits, f.waiter = .ovld l.id ∧ f.acc = 3 ∧ f.va = va ∧ f.cause = z.cause ∧ f.pc = l.pc)
          ∧ (r.1.core l.core).slots[j]?.map (·.tag) = some none := by
  have hslots : (v.core l.core).slots = (s.core l.core).slots := by rw [hv.slots, (Alike.of_sameModule hm).core]
  obtain ⟨x, hx⟩ : ∃ x, (v.core l.core).slots[j]? = some x := by
    rw [hslots]
    exact ⟨_, List.getElem?_eq_getElem (hlen ▸ pickSlot_lt hj)⟩
  obtain ⟨hw, ht⟩ := hv.faults
  have hfv : ∀ f ∈ v.faultWaits, f.id < v.tick := by
    rw [hw, ht]
    exact faults_before_tick hm hf htick
  have hq := (hb.modCore l.core fun c => c.modSlot j fun x => { x with tag := none, code := [] }).codePages l.core c.ptbr.toNat c.ctxid.toNat l.sup
    (pagesOf base size)
  rw [← State.emptied, ← State.emptied] at hq
  cases hp : ((v.emptied l.core j).codePages l.core c.ptbr.toNat c.ctxid.toNat l.sup (pagesOf base size)).2 with
  | ok ps =>
    obtain ⟨h1, h2, h3, h4⟩ := startOvl_copies (n := n) hx hp
    refine ⟨h1, fun pages e => ?_, fun va z e => ?_⟩
    · rw [e, hp] at hq
      obtain rfl : pages = ps := hq
      exact ⟨h2, h3, h4⟩
    · rw [e, hp] at hq
      exact hq.elim
  | error e1 =>
    obtain ⟨va1, z1⟩ := e1
    obtain ⟨h1, h2, ⟨i, g, hg, hs⟩, h4⟩ := startOvl_faults (n := n) hx hfv hp
    refine ⟨h1, fun pages e => ?_, fun va z e => ?_⟩
    · rw [e, hp] at hq
      exact hq.elim
    · rw [e, hp] at hq
      obtain ⟨hva, hz⟩ : va = va1 ∧ z.reason = z1.reason := hq
      refine ⟨h2, ⟨g, hg, ?_⟩, h4⟩
      rw [hs]
      exact ⟨rfl, rfl, hva.symm, by rw [Miss.cause, hz]; rfl, rfl⟩

end

/-! ### The issue of an ovld -/

/-- An ovld's status. -/
def OvlStep.value : OvlStep → Nat
  | .status v => v
  | .waits => 0

variable (w : Work) (n : Ins)

/-- The result that the scoreboard holds for an ovld. -/
def Work.ovldPend (v : Word) : Pend := w.pendOf false 0 0#32 (w.outsOf n 1 w.act fun _ _ => v)

/-- The split with an ovld's result held for it. -/
def Work.ovldWork : Work := { w.holdFor (w.ovldPend n 0#32) with s := w.s.bump.bump }

/-- The load that an ovld starts. -/
def Work.ovldLoad : OvlLoad :=
  { id := w.s.tick + 1, core := w.E.core, ctx := w.E.ctx, tid := w.tid, uid := w.S.uid, ovl := (w.src true n n.sa 0 (lowLane w.act)).toNat,
    sup := w.T.sup, dst := some w.s.tick, slot := none, pages := [], base := 0, size := 0, pc := w.S.pc }

variable {w n}

theorem opOvld_loads (ha : w.act ≠ 0) : opOvld n w = .raw (((w.ovldWork n).finish n).loadOvl (w.ovldLoad n)) := ifActive_of ha

/-- An instruction that completes at the next word: the split's data, and that the module goes on beside it. -/
theorem finish_keeps {s : State} {w y : Work} {n : Ins} (hs : y.s = { s with tick := y.s.tick }) (ht : y.tid = w.tid) (he : y.ent = w.ent)
    (hE : y.E = w.E) (hS : y.S = w.S) (hT : y.T = { w.T with pend := y.T.pend }) : let u := y.finish n
    ∃ x, u.work w.tid w.ent = some x ∧ u.troupes.find? w.tid = some x.T ∧ x.S.pc = (nextWord n w).pc ∧ (∀ r i, x.now r i = w.now r i)
      ∧ x.E = w.E ∧ x.T.pend = y.T.pend ∧ othersKept s u w x ∧ sameModule s u := by
  obtain ⟨x, h1, h2, h3, h4, h5, h6, h7⟩ := close_keeps (s := s) (w := w) (y := { y.issued n with S := (y.issued n).S.next n.ilen })
    (by unfold Work.issued; dsimp only [State.bump]; rw [hs]) ht he hE (by unfold Work.issued; dsimp only; rw [hT]) (by unfold Work.issued; dsimp only; rw [hT])
  refine ⟨x, h1, h2, ?_, fun r i => Work.now_congr ?_ ?_ ?_ ?_ r i, h5, ?_, h6, h7⟩
  · rw [h3, (Split.meet_eq _).1]
    unfold Work.issued
    rw [hS]
    rfl
  · rw [h4]; unfold Work.issued; rw [hT]
  · rw [h3, (Split.meet_eq _).1]; unfold Work.issued; rw [hS]; rfl
  · rw [h4]; unfold Work.issued; rw [hT]
  · rw [h5]
  · rw [h4]; rfl

theorem finish_tick (y : Work) (n : Ins) : (y.finish n).tick = y.s.tick + 1 := by
  unfold Work.finish Work.close
  dsimp only
  split <;> rfl

theorem fillPend_ovldPend {T : Troupe} {ps : List Pend} (h : ∀ p ∈ ps, p.id < w.s.tick) (hT : T.pend = ps ++ [w.ovldPend n 0#32]) (v : Word) :
    (T.fillPend w.s.tick v).pend = ps ++ [w.ovldPend n v] := by
  have hps : ps.map (fun p => if p.id = w.s.tick then { p with outs := p.outs.map fun o => { o with old := o.old.map fun _ => v } } else p) = ps := by
    exact (List.map_congr_left fun p hp => if_neg (h p hp).ne).trans (List.map_id' ps)
  unfold Troupe.fillPend
  rw [hT, List.map_append, hps]
  have hid : (w.ovldPend n 0#32).id = w.s.tick := rfl
  simp only [List.map_cons, List.map_nil, hid, if_true]
  unfold Work.ovldPend Work.pendOf
  congr 2
  rw [Work.outsOf_one, Work.outsOf_one]
  simp only [List.map_map]
  congr 1
  refine List.map_congr_left fun d _ => ?_
  dsimp only [Function.comp]
  split <;> simp

theorem fill_only (r : OvlStep) (d : Nat) (T : Troupe) : r.fill d T = { T with pend := (r.fill d T).pend } := by cases r <;> rfl

theorem fill_pend (r : OvlStep) {T : Troupe} {ps : List Pend} (h : ∀ p ∈ ps, p.id < w.s.tick) (hT : T.pend = ps ++ [w.ovldPend n 0#32]) :
    (r.fill w.s.tick T).pend = ps ++ [w.ovldPend n (BitVec.ofNat 32 r.value)] := by
  cases r with
  | status v => exact fillPend_ovldPend h hT _
  | waits => exact hT

theorem work_of_entries {t : State} {tid ent : Nat} {T : Troupe} {p : Split} {E : Ensemble} (hT : t.troupes.find? tid = some T)
    (hp : T.splits.find? ent = some p) (hE : t.ensembles.find? T.ens = some E) :
    t.work tid ent = some { s := t, tid := tid, ent := ent, T := T, S := p, E := E, act := p.mask } := by
  simp [State.work, hT, hp, hE]

/-- What an ovld leaves, however far its load gets. -/
theorem ovld_leaves (hp : ∀ p ∈ w.T.pend, p.id < w.s.tick) :
    let u := (w.ovldWork n).finish n
    let r := u.tryOvl (w.ovldLoad n) (u.slotNo w.tid)
    let t := u.loadOvl (w.ovldLoad n)
    sameModule w.s u ∧ w.s.tick ≤ u.tick ∧ ∃ x, t.work w.tid w.ent = some x ∧ x.S.pc = (nextWord n w).pc ∧ (∀ r l, x.now r l = w.now r l) ∧ x.E = w.E
      ∧ x.T.pend = w.T.pend ++ [w.ovldPend n (BitVec.ofNat 32 r.2.value)] ∧ t.mem = w.s.mem
      ∧ (∀ j, j ≠ w.tid → t.troupes.find? j = w.s.troupes.find? j)
      ∧ ∀ v, r.2 = .status v → w.ovldPend n (BitVec.ofNat 32 r.2.value) = w.ovldPend n (BitVec.ofNat 32 v)
        ∧ ⟨w.s.now, .scoreboardResultWrite w.tid w.s.tick⟩ ∈ t.agenda := by
  obtain ⟨x, h1, h2, h3, h4, h5, h6, h7, h8⟩ := finish_keeps (s := w.s) (w := w) (y := w.ovldWork n) (n := n) rfl rfl rfl rfl rfl rfl
  have htick := finish_tick (w.ovldWork n) n
  generalize (w.ovldWork n).finish n = u at *
  obtain ⟨k1, k2, k3, k4, k5⟩ := loadOvl_leaves (l := w.ovldLoad n) rfl h2
  have hnow : u.now = w.s.now := by rw [h8]
  have hmem : u.mem = w.s.mem := by rw [h8]
  obtain ⟨-, htid, hent, hact, -, hS, hE⟩ := work_fields h1
  have hfill := fill_only (u.tryOvl (w.ovldLoad n) (u.slotNo w.tid)).2 w.s.tick x.T
  refine ⟨h8, ?_, { x with s := u.loadOvl (w.ovldLoad n), T := (u.tryOvl (w.ovldLoad n) (u.slotNo w.tid)).2.fill w.s.tick x.T }, ?_, h3, ?_, h5,
    fill_pend _ hp h6, k4.trans hmem, fun j hj => (k2 j hj).trans (h7.1 j hj), fun v hv => ⟨by rw [hv]; rfl, hnow ▸ k5 v hv⟩⟩
  · rw [htick]
    exact Nat.le_add_right w.s.tick 3
  · have hT : (u.loadOvl (w.ovldLoad n)).troupes.find? w.tid = some ((u.tryOvl (w.ovldLoad n) (u.slotNo w.tid)).2.fill w.s.tick x.T) := k1
    rw [hfill] at hT ⊢
    rw [htid, hent, hact]
    exact work_of_entries hT hS (k3 ▸ hE)
  · intro r l
    rw [hfill]
    exact (Work.now_congr (w := x) rfl rfl rfl rfl r l).trans (h4 r l)

/-! ### Copies that complete -/

theorem enterHandler_keeps (s : State) (tid uid cause : Nat) : ∃ tk tr, s.enterHandler tid uid cause = { s with tick := tk, troupes := tr } := by
  unfold State.enterHandler
  split
  · exact ⟨_, _, rfl⟩
  split
  · exact ⟨_, _, rfl⟩
  split
  · exact ⟨_, _, rfl⟩
  · exact ⟨_, _, rfl⟩

/-- A load that has its code changes no core and no load: its result is filled, or its trap entry goes on (R73, R390). -/
theorem ovlDeliver_one (s : State) (l : OvlLoad) : (s.ovlDeliver l 1).cores = s.cores ∧ (s.ovlDeliver l 1).ovlLoads = s.ovlLoads := by
  unfold State.ovlDeliver
  split
  · exact ⟨rfl, rfl⟩
  · obtain ⟨tk, tr, e⟩ := enterHandler_keeps s l.tid l.uid (s.entryCause l.tid l.uid)
    unfold State.entryStatus
    rw [if_neg (by decide), e]
    exact ⟨rfl, rfl⟩

/-- The ending of loads drops loads and changes no core. -/
theorem ovlDeliverAll_one (ls : List OvlLoad) (s : State) : (s.ovlDeliverAll ls 1).cores = s.cores ∧ ∀ y ∈ (s.ovlDeliverAll ls 1).ovlLoads, y ∈ s.ovlLoads := by
  induction ls generalizing s with
  | nil => exact ⟨rfl, fun _ h => h⟩
  | cons a ls ih =>
    obtain ⟨h1, h2⟩ := ih (({ s with ovlLoads := s.ovlLoads.filter fun x => x.id ≠ a.id } : State).ovlDeliver a 1)
    obtain ⟨k1, k2⟩ := ovlDeliver_one { s with ovlLoads := s.ovlLoads.filter fun x => x.id ≠ a.id } a
    refine ⟨h1.trans k1, fun y hy => ?_⟩
    have := h2 y hy
    rw [k2] at this
    exact (List.mem_filter.1 this).1

/-- Every load that waits after an operation waited before, or is the one operated on. -/
def NewLoad (s t : State) (id : Nat) : Prop := ∀ y ∈ t.ovlLoads, y ∈ s.ovlLoads ∨ y.id = id

theorem NewLoad.of_eq {id : Nat} (h : t.ovlLoads = s.ovlLoads) : NewLoad s t id := fun _ hy => .inl (h ▸ hy)

theorem NewLoad.trans {a b c : State} {id : Nat} (h : NewLoad a b id) (k : NewLoad b c id) : NewLoad a c id := fun y hy =>
  (k y hy).elim (h y) .inr

theorem NewLoad.dropped (s : State) (id : Nat) (p : OvlLoad → Bool) : NewLoad s { s with ovlLoads := s.ovlLoads.filter p } id :=
  fun _ hy => .inl (List.mem_filter.1 hy).1

theorem NewLoad.putLoad (s : State) (l : OvlLoad) {id : Nat} (h : l.id = id) : NewLoad s (s.putLoad l) id := fun y hy => by
  rcases List.mem_append.1 hy with hy | hy
  · exact .inl (List.mem_filter.1 hy).1
  · exact .inr (List.mem_singleton.1 hy ▸ h)

theorem raiseFault_ovlLoads (s : State) (f : FaultWait) : (s.raiseFault f).ovlLoads = s.ovlLoads := by
  obtain ⟨fw, tk, ds, ag, e, -⟩ := admitFault_only ({ s with faultWaits := s.faultWaits ++ [{ f with id := s.tick }] } : State).bump s.tick
  unfold State.raiseFault
  rw [e]
  rfl

theorem NewLoad.parked (s : State) (l : OvlLoad) (f : FaultWait) {id : Nat} (h : l.id = id) : NewLoad s ((s.putLoad l).raiseFault f) id :=
  (NewLoad.putLoad s l h).trans (.of_eq (raiseFault_ovlLoads _ _))

theorem NewLoad.queued (s : State) (l : OvlLoad) (due : Nat) (ev : Ev) {id : Nat} (h : l.id = id) : NewLoad s ((s.putLoad l).at_ due ev) id :=
  NewLoad.putLoad s l h

theorem startOvl_loads (s : State) (l : OvlLoad) (c : Context) (n k base size : Nat) : NewLoad s (s.startOvl l c n k base size).1 l.id := by
  have h := codePages_only (s.emptied l.core k) l.core c.ptbr.toNat c.ctxid.toNat l.sup (pagesOf base size)
  unfold State.startOvl
  dsimp only
  rw [← State.emptied]
  generalize State.codePages _ _ _ _ _ _ = q at h
  have h0 : NewLoad s q.1 l.id := .of_eq h.ovlLoads
  obtain ⟨s2, ⟨va, m⟩ | pages⟩ := q
  · exact h0.trans (.parked _ _ _ rfl)
  · have hr : (readMax l.core (pageSectors base size pages) s2).1.ovlLoads = s2.ovlLoads := by rw [readMax_only]
    exact h0.trans (NewLoad.trans (.of_eq hr) (NewLoad.putLoad (State.modCore _ _ _) _ rfl))

theorem tryOvl_loads (s : State) (l : OvlLoad) (n : Nat) : NewLoad s (s.tryOvl l n).1 l.id := by
  unfold State.tryOvl
  split
  · exact .of_eq rfl
  · next c hc =>
    have h : NewLoad s (s.entryAt l c).1 l.id := .of_eq (translate_only _ _ _ _ _ _ _ _).ovlLoads
    unfold State.entryAt Context.entryAddr at h
    dsimp only
    split
    · exact .dropped s _ _
    · split
      · next heq =>
        rw [heq] at h
        split
        · exact h.trans (.dropped _ _ _)
        · split
          · exact h.trans (.putLoad _ _ rfl)
          · exact h.trans (.parked _ _ _ rfl)
      · next heq =>
        rw [heq] at h
        split
        · exact h.trans (.dropped _ _ _)
        · split
          · exact h.trans (.dropped _ _ _)
          · split
            · exact h.trans (.putLoad _ _ rfl)
            · split
              · exact h.trans (.queued _ _ _ _ rfl)
              · refine h.trans (NewLoad.trans (.of_eq ?_) (startOvl_loads _ _ _ _ _ _ _))
                rw [noteRead_only]

theorem doubleTrap_loads (s : State) (tid num extra : Nat) : ∀ y ∈ (s.doubleTrap tid num extra).ovlLoads, y ∈ s.ovlLoads := by
  unfold State.doubleTrap
  split
  · exact fun _ h => h
  split
  · exact fun _ h => h
  split
  · exact fun _ h => h
  · exact fun y hy => (List.mem_filter.1 (terminate_ovlLoads (s.report _ _) _ ▸ hy)).1

theorem ovlDeliver_loads (s : State) (l : OvlLoad) (v : Nat) : ∀ y ∈ (s.ovlDeliver l v).ovlLoads, y ∈ s.ovlLoads := by
  unfold State.ovlDeliver
  split
  · exact fun _ h => h
  · unfold State.entryStatus
    split
    · exact doubleTrap_loads _ _ _ _
    · obtain ⟨tk, tr, e⟩ := enterHandler_keeps s l.tid l.uid (s.entryCause l.tid l.uid)
      rw [e]
      exact fun _ h => h

theorem loadOvl_loads (s : State) (l : OvlLoad) : NewLoad s (s.loadOvl l) l.id := by
  cases hr : (s.tryOvl l (s.slotNo l.tid)).2 with
  | status v =>
    rw [loadOvl_status hr]
    exact (tryOvl_loads s l _).trans fun y hy => .inl (ovlDeliver_loads _ _ _ y hy)
  | waits =>
    rw [loadOvl_waits hr]
    exact tryOvl_loads s l _

section
variable {l : OvlLoad} {k : Nat}

/-- The core's slot with the code that a copy has brought. -/
def State.slotFilled (s : State) (l : OvlLoad) (x : OvlSlot) : OvlSlot :=
  { x with tag := some (l.ctx, l.ovl), code := s.peekPages (l.pages.headD 0 % 4096) l.size l.pages, filling := false,
           lastFetch := s.tick, ctxid := (s.ctx l.ctx).ctxid.toNat, base := l.base, pages := l.pages.map (· / 4096 * 4096) }

/-- The module with a load ended and its slot changed. -/
def State.landed (s : State) (l : OvlLoad) (k : Nat) (f : OvlSlot → OvlSlot) : State :=
  ({ s with ovlLoads := s.ovlLoads.filter fun x => x.id ≠ l.id } : State).modCore l.core fun c => c.modSlot k f

theorem landOvl_code (h : ∀ pa ∈ l.pages, s.isFenced pa = false) : s.landOvl l k = (s.landed l k (s.slotFilled l), 1) :=
  if_neg (by simpa using h)

theorem landOvl_fenced (h : ∃ pa ∈ l.pages, s.isFenced pa = true) :
    s.landOvl l k = (s.landed l k fun x => { x with tag := none, code := [], filling := false }, 2) :=
  if_pos (by simpa using h)

theorem landed_slot {x : OvlSlot} (f : OvlSlot → OvlSlot) (hx : (s.core l.core).slots[k]? = some x) :
    ((s.landed l k f).core l.core).slots[k]? = some (f x) := by
  unfold State.landed
  rw [State.core_modCore, if_pos rfl, modSlot_same]
  change (s.core l.core).slots[k]?.map f = _
  rw [hx]
  rfl

theorem landed_loads (f : OvlSlot → OvlSlot) : ∀ y ∈ (s.landed l k f).ovlLoads, y.id ≠ l.id := fun y hy => by
  simpa using (List.mem_filter.1 hy).2

variable {id : Nat} (hl : s.ovlLoads.find? (fun l => l.id = id) = some l) (hk : l.slot = some k) (hw : ∀ pa ∈ l.pages, s.mapWaits pa = false)
include hl hk hw

theorem copyComplete_code (h : ∀ pa ∈ l.pages, s.isFenced pa = false) :
    execOvldCopyComplete id s = .next (((s.landed l k (s.slotFilled l)).ovlDeliver l 1).ovlDeliverAll (s.sameLoads l) 1) := by
  unfold execOvldCopyComplete
  simp only [hl, hk, landOvl_code h, if_true]
  exact if_neg (by simpa using hw)

theorem copyComplete_fenced (h : ∃ pa ∈ l.pages, s.isFenced pa = true) : execOvldCopyComplete id s
    = .next ((s.sameLoads l).foldl State.loadOvl ((s.landed l k fun x => { x with tag := none, code := [], filling := false }).ovlDeliver l 2)) := by
  unfold execOvldCopyComplete
  simp only [hl, hk, landOvl_fenced h]
  exact if_neg (by simpa using hw)

end

theorem copyComplete_next (id : Nat) (s : State) : ∃ t, execOvldCopyComplete id s = .next t := by
  unfold execOvldCopyComplete
  split
  · exact ⟨_, rfl⟩
  split
  · exact ⟨_, rfl⟩
  dsimp only
  split <;> exact ⟨_, rfl⟩

/-- Loads that start again are those that waited: a load that has ended is not among them. -/
theorem loads_again {ls : List OvlLoad} {id : Nat} (hls : ∀ y ∈ ls, y.id ≠ id) {s : State} (hs : ∀ y ∈ s.ovlLoads, y.id ≠ id) :
    ∀ y ∈ (ls.foldl State.loadOvl s).ovlLoads, y.id ≠ id := by
  induction ls generalizing s with
  | nil => exact hs
  | cons a ls ih =>
    refine ih (fun y hy => hls y (List.mem_cons_of_mem _ hy)) fun y hy => ?_
    rcases loadOvl_loads s a y hy with h | h
    · exact hs y h
    · exact h ▸ hls a List.mem_cons_self

theorem sameLoads_id (l : OvlLoad) : ∀ y ∈ s.sameLoads l, y.id ≠ l.id := fun y hy => by
  have h := (List.mem_filter.1 hy).2
  simp only [Bool.and_eq_true, decide_eq_true_eq] at h
  obtain ⟨⟨⟨⟨⟨h, -⟩, -⟩, -⟩, -⟩, -⟩ := h
  exact h

theorem ovlDeliver_filled {l : OvlLoad} {d v : Nat} {T : Troupe} (hd : l.dst = some d) (hT : s.troupes.find? l.tid = some T) :
    (s.ovlDeliver l v).troupes.find? l.tid = some (T.fillPend d (BitVec.ofNat 32 v))
      ∧ ⟨s.now, .scoreboardResultWrite l.tid d⟩ ∈ (s.ovlDeliver l v).agenda ∧ (s.ovlDeliver l v).cores = s.cores := by
  rw [ovlDeliver_result hd]
  exact ⟨(Tab.find?_modify_same _ _ _).trans (by rw [hT]; rfl), mem_at.2 (.inl rfl), rfl⟩

/-! ### Images -/

theorem nodup_of_distinct {l : List Nat} (h : (distinct l).length = l.length) : l.Nodup := by
  have hle (l : List Nat) : (distinct l).length ≤ l.length := by
    induction l with
    | nil => exact Nat.le_refl _
    | cons a l ih => exact Nat.succ_le_succ ((List.length_filter_le _ _).trans ih)
  induction l with
  | nil => exact List.nodup_nil
  | cons a l ih =>
    have hf : ((distinct l).filter (· ≠ a)).length = l.length := Nat.succ.inj h
    have h1 := List.length_filter_le (· ≠ a) (distinct l)
    have h2 := hle l
    have hd : (distinct l).length = l.length := by omega
    have ha : (distinct l).filter (· ≠ a) = distinct l := List.filter_eq_self.2 (List.length_filter_eq_length_iff.1 (hf.trans hd.symm))
    refine List.nodup_cons.2 ⟨fun hm => ?_, ih hd⟩
    rw [← mem_distinct, ← ha] at hm
    simpa using (List.mem_filter.1 hm).2

theorem overlaysOk_spec {b : List Byte} (h : overlaysOk b = true) : ((imgOverlays b).map fun e => imgField b e 2).Nodup
    ∧ ∀ e ∈ imgOverlays b, imgField b e 2 < 4096 ∧ 4 ≤ imgField b (e + 4) 4 ∧ imgField b (e + 4) 4 ≤ 65536
      ∧ imgField b (e + 4) 4 % 4 = 0 ∧ imgField b (e + 8) 4 % 64 = 0 ∧ imgField b (e + 8) 4 + imgField b (e + 4) 4 ≤ b.length := by
  unfold overlaysOk at h
  simp only [Bool.and_eq_true, decide_eq_true_eq, List.all_eq_true] at h
  obtain ⟨⟨hn, hid⟩, he⟩ := h
  refine ⟨nodup_of_distinct (hn.trans (List.length_map ..).symm), fun e hm => ?_⟩
  obtain ⟨⟨⟨⟨h1, h2⟩, h3⟩, h4⟩, h5⟩ := he e hm
  exact ⟨hid _ (List.mem_map_of_mem hm), h1, h2, h3, h4, h5⟩

theorem entryOk_spec {b : List Byte} (h : entryOk b true = true) : ∃ e ∈ imgOverlays b, imgField b e 2 = field (imgField b 8 4) 27 16
    ∧ field (imgField b 8 4) 15 0 < imgField b (e + 4) 4 := by
  unfold entryOk at h
  dsimp only at h
  split at h
  · cases h
  · simpa using (Bool.and_eq_true_iff.1 h).2

theorem sizesOk_spec {b : List Byte} (h : sizesOk b = true) : 8 ≤ imgField b 0x10 2 ∧ imgField b 0x10 2 ≤ 256 ∧ imgField b 0x10 2 % 8 = 0
    ∧ imgField b 0x12 1 ≤ 64 ∧ 1 ≤ imgField b 0x13 1 ∧ imgField b 0x13 1 ≤ 16 ∧ imgField b 0x14 4 ≤ 524288 ∧ imgField b 0x14 4 % 256 = 0 := by
  unfold sizesOk at h
  simp only [Bool.and_eq_true, decide_eq_true_eq] at h
  obtain ⟨⟨⟨⟨⟨⟨⟨h1, h2⟩, h3⟩, h4⟩, h5⟩, h6⟩, h7⟩, h8⟩ := h
  exact ⟨h1, h2, h3, h4, h5, h6, h7, h8⟩

theorem imageStatus_le (b : List Byte) (launched : Bool) : imageStatus b launched ≤ 7 := by
  unfold imageStatus
  repeat' split
  all_goals decide

/-- An accepted image has passed every test of R68. -/
theorem imageStatus_zero {b : List Byte} {launched : Bool} (h : imageStatus b launched = 0) :
    (imgField b 0 4 = 0x494B5645 ∧ imgField b 6 2 = 64) ∧ (imgField b 5 1 = 1 ∧ imgField b 4 1 ≤ 3) ∧ overlaysOk b = true ∧ entryOk b launched = true
      ∧ sizesOk b = true ∧ (∀ f ∈ imgFormats b, 16 ≤ f.1) ∧ ∀ x ∈ imgWindows b, x.1 ≤ 31 := by
  unfold imageStatus at h
  split at h
  · cases h
  next h1 =>
  split at h
  · cases h
  next h2 =>
  split at h
  · cases h
  next h3 =>
  split at h
  · cases h
  next h4 =>
  split at h
  · cases h
  next h5 =>
  split at h
  · cases h
  next h6 =>
  simp only [not_or, not_not, Nat.not_lt] at h1 h2
  simp only [Bool.not_eq_false] at h3 h4 h5
  simp only [not_or, Bool.not_eq_true, List.any_eq_false, decide_eq_true_eq, Nat.not_lt] at h6
  exact ⟨⟨h1.1, h1.2.1⟩, h2, h3, h4, h5, h6.1, h6.2⟩

end Machine

/-- Settles O38: `loadOvl_unread`, `loadOvl_read` and `startOvl_like` for how far a load gets, `copyComplete_code` and `copyComplete_fenced` for a copy's
end, and `imageStatus_zero` for an accepted image. -/
theorem overlayLoads : Obligations.OverlayLoads := by
  unfold Obligations.OverlayLoads
  refine ⟨fun fx s w hi hp hf => ?_, fun id s => ?_, fun n b launched s => ⟨_, rfl, rfl⟩, fun b launched => ⟨imageStatus_le b launched, ?_, ?_⟩⟩
  · obtain rfl := gate_state hi.1
    obtain ⟨hm, htick, x, hx, hpc, hnow, hE, hpend, hmem, hothers, hstatus⟩ := ovld_leaves (n := insX 0xB5 fx) hp
    refine ⟨_, x, _, run_raw hi.1 (opOvld_loads hi.2), hx, hpc, hnow, hE, hpend, hmem, hothers, ?_⟩
    generalize (w.ovldWork (insX 0xB5 fx)).finish (insX 0xB5 fx) = u at *
    refine ⟨fun h => hstatus 2 (tryOvl_beyond (l := w.ovldLoad (insX 0xB5 fx)) h), fun hk c hc => ⟨fun m ht => ?_, fun m ht => ?_⟩⟩
    · obtain ⟨h1, h2, h3⟩ := loadOvl_unread (l := w.ovldLoad (insX 0xB5 fx)) hm hc hk ht hf htick
      refine ⟨fun hh => hstatus 0 (h1 hh), fun hh hy => ?_, fun hh hy => (h3 hh hy).2⟩
      obtain ⟨-, hload, hfaults⟩ := h2 hh hy
      exact ⟨⟨_, hload, rfl, rfl, rfl, rfl, rfl⟩, hfaults⟩
    · obtain ⟨h1, h2, h3, h4⟩ := loadOvl_read (l := w.ovldLoad (insX 0xB5 fx)) hm hc hk ht
      refine ⟨fun hv => hstatus 2 (h1 hv), fun hv hh => hstatus 0 (h2 hv hh), fun hv hh hy => ?_, fun hv hh hy j hj hlen => ?_⟩
      · obtain ⟨-, hload, hfaults⟩ := h3 hv hh hy
        exact ⟨⟨_, hload, rfl, rfl, rfl, rfl, rfl⟩, hfaults⟩
      · obtain ⟨v, hlike, htlbs, e⟩ := h4 hv hh hy j hj
        obtain ⟨k1, k2, k3⟩ := startOvl_like (l := w.ovldLoad (insX 0xB5 fx)) (n := u.slotNo w.tid) hm hlike htlbs hj hlen hf htick
        rw [loadOvl_waits ((congrArg Prod.snd e).trans k1), e]
        refine ⟨fun pages hq => ?_, fun va z hq => ?_⟩
        · obtain ⟨hload, hdue, hslot⟩ := k2 pages hq
          exact ⟨_, hload, rfl, rfl, rfl, rfl, rfl, rfl, hdue, hslot⟩
        · obtain ⟨hload, hfault, hslot⟩ := k3 va z hq
          exact ⟨⟨_, hload, rfl, rfl, rfl, rfl, rfl⟩, hfault, hslot⟩
  · obtain ⟨t, ht⟩ := copyComplete_next id s
    refine ⟨t, ht, fun l k x hl hk hw hx => ?_⟩
    obtain rfl : l.id = id := by simpa using List.find?_some hl
    by_cases hf : ∃ pa ∈ l.pages, s.isFenced pa = true
    · obtain rfl := Host.Outcome.next.inj ((copyComplete_fenced hl hk hw hf).symm.trans ht)
      refine ⟨loads_again (sameLoads_id l) fun y hy => ?_, fun hn => ?_, fun _ d T hd hT hsame => ?_⟩
      · exact landed_loads _ y (ovlDeliver_loads _ l 2 y hy)
      · obtain ⟨pa, hpa, h⟩ := hf
        rw [hn pa hpa] at h
        cases h
      · rw [hsame]
        obtain ⟨h1, h2, h3⟩ := ovlDeliver_filled (s := s.landed l k fun x => { x with tag := none, code := [], filling := false }) (v := 2) hd hT
        refine ⟨h1, h2, { x with tag := none, code := [], filling := false }, ?_, rfl, rfl⟩
        unfold State.core
        rw [List.foldl_nil, h3]
        exact landed_slot _ hx
    · have hf' : ∀ pa ∈ l.pages, s.isFenced pa = false := by simpa using hf
      obtain rfl := Host.Outcome.next.inj ((copyComplete_code hl hk hw hf').symm.trans ht)
      obtain ⟨hcores, hloads⟩ := ovlDeliverAll_one (s.sameLoads l) ((s.landed l k (s.slotFilled l)).ovlDeliver l 1)
      obtain ⟨hc1, hl1⟩ := ovlDeliver_one (s.landed l k (s.slotFilled l)) l
      refine ⟨fun y hy => landed_loads _ y (hl1 ▸ hloads y hy), fun _ => ⟨⟨s.slotFilled l x, ?_, rfl, rfl, rfl⟩, fun d T hd hT hsame => ?_⟩, fun h => absurd h hf⟩
      · unfold State.core
        rw [hcores, hc1]
        exact landed_slot _ hx
      · rw [hsame]
        obtain ⟨h1, h2, -⟩ := ovlDeliver_filled (s := s.landed l k (s.slotFilled l)) (v := 1) hd hT
        exact ⟨h1, h2⟩
  · intro h
    unfold imageStatus
    exact if_pos (by tauto)
  · intro h
    obtain ⟨⟨h1, h2⟩, ⟨h3, h4⟩, h5, h6, h7, h8, h9⟩ := imageStatus_zero h
    obtain ⟨o1, o2⟩ := overlaysOk_spec h5
    obtain ⟨z1, z2, z3, z4, z5, z6, z7, z8⟩ := sizesOk_spec h7
    exact ⟨h1, h2, h3, h4, o1, o2, fun hl => entryOk_spec (hl ▸ h6), z1, z2, z3, z4, z5, z6, z7, z8, h8, h9⟩

end Sys2Proof
end

section
/-! Fault service (O44): waiting faults that share an id. `State.admitFault` writes an admitted fault over every waiting fault of its id, so of
two faults with one id the second loses its waiter, and the instruction that waited for it is then replayed as one that waits for nothing
(R304). The ids that `State.raiseFault` gives come from a counter, but the statement speaks of every state. -/
namespace Sys2Proof
open Machine

/-- A page fault of core 0 in context 0 that has no entry of the fault buffer and no group yet. -/
def pageFault (id : Nat) (waiter : Waiter) (va : Nat) : FaultWait :=
  { id := id, core := 0, waiter := waiter, ctxid := 0, va := va, cause := 9, reason := 1, level := 3, acc := 0, slot := 0, win := 255,
    pc := 0, lanes := 1, done := 0, buffered := false, token := none, closing := false }

/-- An instruction of one lane, parked for the split `uid`, that may not issue again yet. -/
def parkedFor (uid : Nat) : Parked := { uid := uid, pc := 0, insn := [], active := 1, done := 0, go := false }

/-- The waiting fault of split 0, whose group has closed, and which its event replays. -/
def closedFault : FaultWait := { pageFault 9 (.instr 0 0) 0x1000 with closing := true }

/-- The first fault of id 5, of another troupe. -/
def firstAlike : FaultWait := pageFault 5 (.instr 7 7) 0x5000

/-- The second fault of id 5, for which split 1 of troupe 0 waits. -/
def secondAlike : FaultWait := pageFault 5 (.instr 0 1) 0x6000

/-- A troupe with a parked instruction of split 0 and one of split 1. -/
def pairTroupe : Troupe := { Troupe.start 0 0 0 0 256 64 0 0 0 with parked := [parkedFor 0, parkedFor 1] }

/-- The three faults wait, and the group of the first of id 5 is open. -/
def alikeState : State :=
  { State.reset.loaded [] with
    troupes := [(0, pairTroupe)], faultWaits := [closedFault, firstAlike, secondAlike],
    dies := [(0, { State.reset.die 0 with groups := [{ token := 4, ctxid := 0, page := 5 }] })] }

/-- Admitting the first fault of id 5 to its open group makes the second a copy of it, so that no fault is left for which split 1 waits; the
replay of split 0 lets the instruction of split 1 issue again too. -/
theorem parkedReplay_alike {t : State} (h : exec (.parkedReplay 9) alikeState = .next t) :
    (t.troupes.find? 0).map (·.parked) = some [{ parkedFor 0 with go := true }, { parkedFor 1 with go := true }] := by
  obtain rfl := Host.Outcome.next.inj h
  rfl

/-- Every other parked instruction of the troupe waits for a fault of its own. -/
theorem alikeState_waits (q : Parked) (hq : q ∈ pairTroupe.parked) (hu : q.uid ≠ 0) :
    ∃ g ∈ alikeState.faultWaits, g.id ≠ 9 ∧ g.waiter = .instr 0 q.uid := by
  have : q = parkedFor 0 ∨ q = parkedFor 1 := by simpa [pairTroupe] using hq
  obtain rfl | rfl := this
  · exact absurd rfl hu
  · exact ⟨secondAlike, by simp [alikeState], by decide, rfl⟩

/-- Refutes O44, in its last clause (the replay of a parked instruction): the statement does not ask that the waiting faults have ids of
their own. In `alikeState` two have id 5; admitting the first overwrites the second, for which split 1 waits, and the replay of split 0
then lets split 1 issue again, which the statement denies. The ids that `State.raiseFault` gives come from a counter, so what is wrong is a
missing hypothesis, `(s.faultWaits.map (·.id)).Nodup`, which the clause on replies has. -/
theorem not_faultService : ¬ Obligations.FaultService := by
  unfold Obligations.FaultService
  rintro ⟨-, -, -, -, -, hreplay⟩
  obtain ⟨t, ht, h⟩ := hreplay 9 alikeState
  obtain ⟨-, -, -, T', hT', -, -, hparked⟩ := (h closedFault rfl).1 0 0 pairTroupe (parkedFor 0) rfl rfl rfl alikeState_waits
  have hgo := parkedReplay_alike ht
  rw [hT', Option.map_some, hparked rfl] at hgo
  exact absurd hgo (by decide)

end Sys2Proof
end

section
/-! Moves between register files, split queries and lane reads (O4). -/

namespace Sys2Proof

open Machine

/-- Which lanes of the split are active is no part of its completion. -/
theorem Completes.of_act {s t : State} {w x : Work} {outs : List Write} {flags : Word} {pends : List Pend} {next : Dest} {m : Mask}
    (h : Completes s { w with act := m } outs flags pends next t x) : Completes s w outs flags pends next t x :=
  ⟨h.split, h.regs, h.pc, h.state, h.entry, h.frames, h.troupe, h.ensemble, h.others, h.module⟩

/-- A fixed-latency result that takes no latch writes its registers only (R42). -/
theorem fixedWrites_noLatch (w : Work) (vector : Bool) (outs : List Write) (lat : Nat → Word) :
    w.fixedWrites vector false outs lat = outs := by simp [Work.fixedWrites]

/-! ### Queries, moves and predicates -/

/-- What splq answers, question by question (R109). -/
theorem query_eq (w : Work) (q : Nat) : w.query q =
    if q = 0 then (lanesOf w.S.mask).length
    else if q = 1 then lowLane w.S.mask
    else if q = 2 then w.T.splits.length + w.T.stack.length + w.T.coming.length
    else if q = 3 then w.S.frames.length
    else if q = 8 then w.ent
    else w.S.mask.toNat / 2 ^ (32 * (q - 4)) % 2 ^ 32 := by
  unfold Work.query
  split <;> simp_all [Troupe.allSplits, Nat.add_assoc]

section
variable {i : Instr} {n : Ins}

theorem smov_completes (he : ∀ s, exec i s = run n (opSmov n) s) :
    completesWith i n (fun w => w.outsOf n 1 w.act fun _ l => w.src false n n.sa 0 l) fun _ => 0#32 := by
  intro s w h
  obtain ⟨t, x, ht, hc⟩ := completes_fixed (he s) h.1 rfl
  rw [fixedWrites_noLatch, (gate_go h.1).2.1] at hc
  exact ⟨t, x, ht, hc⟩

/-- A stov to an active lane writes that lane, and its latch; another does nothing (R152). -/
theorem stov_completes (he : ∀ s, exec i s = run n (opStov n) s) : completesWith i n (fun w =>
      let k := (w.src false n n.sb 0 (lowLane w.act)).toNat
      let v (l : Nat) : Word := w.src false n n.sa 0 l
      if w.act.getLsbD k then w.outsOf n 1 (1#128 <<< k) (fun _ => v) ++ [(.latI, 1#128 <<< k, v)] else []) fun _ => 0#32 := by
  intro s w h
  obtain rfl := (gate_go h.1).2.1
  dsimp only
  generalize hk : (w.src false n n.sb 0 (lowLane w.act)).toNat = k
  have hop : opStov n w = if 128 ≤ k ∨ !(w.act.getLsbD k) then .done w
      else .done (({ w with act := 1#128 <<< k } : Work).result false true n 1 fun _ l => w.src false n n.sa 0 l) := by
    rw [← hk]
    exact ifActive_of h.2
  by_cases hl : w.act.getLsbD k = true
  · have hlt : k < 128 := BitVec.lt_of_getLsbD hl
    obtain ⟨t, x, ht, hc⟩ := completes_fixed (he _) h.1 (hop.trans (if_neg (by simp [hl, hlt])))
    rw [if_pos hl]
    exact ⟨t, x, ht, hc.of_act⟩
  · obtain ⟨t, x, ht, hc⟩ := completes_of_done (outs := []) (he _) h.1 (hop.trans (if_pos (by simp [hl]))) (Work.Does.refl w)
      fun r l _ => by simp [written]
    rw [if_neg hl]
    exact ⟨t, x, ht, hc⟩

/-- A splq writes its answer to the active lanes, and to the integer latch (R109). -/
theorem splq_completes (he : ∀ s, exec i s = run n (opSplq n) s) :
    laneResult false (fun n w _ v => v = BitVec.ofNat 32 (w.query n.mod)) (fun _ _ fl => fl = 0#32) i n := by
  intro s w h
  obtain ⟨t, x, ht, hc⟩ := completes_fixed (he s) h.1 (ifActive_of h.2)
  rw [(gate_go h.1).2.1] at hc
  exact ⟨_, _, t, x, ht, hc, fun _ _ => rfl, rfl⟩

/-- pmov.get gathers a bit of each predicate (R156). -/
theorem pmovGet_completes (he : ∀ s, exec i s = run n (opPmov n) s) {s : State} {w : Work} (h : issues n s w) (hm : n.mod % 2 = 0) :
    ∃ v y x, exec i s = .next y ∧ Completes s w (laneWrites false n w v) 0#32 [] (nextWord n w) y x
      ∧ ∀ l, w.act.getLsbD l = true → (v l).toNat < 256 ∧ ∀ k, k < 8 → (v l).getLsbD k = (w.read (.p k) l).getLsbD 0 := by
  obtain ⟨y, x, hy, hc⟩ := completes_alu (he s) h.1 ((ifActive_of h.2).trans (if_pos hm))
  have hflags : orFlags ((lanesOf w.act).map fun _ => 0#32) = 0#32 := orFlags_zero (by simp)
  rw [hflags] at hc
  refine ⟨_, y, x, hy, hc, fun l _ => ?_⟩
  have hbit (k : Nat) : (w.read (.p k) l).toNat % 2 = ((w.read (.p k) l).getLsbD 0).toNat := by
    rw [BitVec.getLsbD, Nat.testBit_zero]
    rcases Nat.mod_two_eq_zero_or_one (w.read (.p k) l).toNat with e | e <;> simp [e]
  simp only [hbit]
  have hlt := bits_lt 8 fun k => (w.read (.p k) l).getLsbD 0
  refine ⟨?_, fun k hk => bits_sum (by decide) (fun k => (w.read (.p k) l).getLsbD 0) hk⟩
  rw [BitVec.toNat_ofNat]
  omega

/-- pmov.set spreads the bits of its source over the predicates of its mask (R156). -/
theorem pmovSet_completes (he : ∀ s, exec i s = run n (opPmov n) s) {s : State} {w : Work} (h : issues n s w) (hm : n.mod % 2 ≠ 0) :
    ∃ y x, exec i s = .next y ∧ Completes s w (((List.range 7).filter fun k => n.mod.testBit (k + 1)).map fun k =>
      (Reg.p k, w.act, fun l => (w.src false n n.sa 0 l) >>> k)) 0#32 [] (nextWord n w) y x := by
  obtain ⟨y, x, hy, hc⟩ := completes_fixed (he s) h.1 ((ifActive_of h.2).trans (if_neg hm))
  rw [fixedWrites_noLatch, (gate_go h.1).2.1] at hc
  exact ⟨y, x, hy, hc⟩

end

/-! ### g registers -/

section
variable {i : Instr} {n : Ins} {w : Work} {a : BitVec 5} (ha : w.act ≠ 0)
include ha

/-- A gmov to a g register that no other troupe owns writes it (R128). -/
theorem opGmov_write (hm : n.mod = 0) (hd : n.dst = .g a) (ho : ∀ o, w.E.gown.find? a.toNat = some o → o = w.T.num) :
    opGmov n w = .done (w.gwrite n a.toNat (w.src false n n.sa 0 (lowLane w.act))) := by
  rw [opGmov, ifActive_of ha]
  cases hf : w.E.gown.find? a.toNat with
  | none => simp [hm, hd, hf]
  | some o => simp [hm, hd, hf, ho o hf]

/-- A gmov to a g register of another troupe traps (R128). -/
theorem opGmov_owned {o : Nat} (hm : n.mod = 0) (hd : n.dst = .g a) (hf : w.E.gown.find? a.toNat = some o) (ho : o ≠ w.T.num) :
    opGmov n w = .trap { cause := 0x0F, info := a.toNat + 256 * o } := by
  rw [opGmov, ifActive_of ha]
  simp [hm, hd, hf, ho]

end

/-- A gmov to a g register that no other troupe owns completes with its write (R128). -/
theorem gmov_writes {i : Instr} {n : Ins} (he : ∀ s, exec i s = run n (opGmov n) s) {s : State} {w : Work} (h : issues n s w) {a : BitVec 5}
    (hm : n.mod = 0) (hd : n.dst = .g a) (ho : ∀ o, w.E.gown.find? a.toNat = some o → o = w.T.num) :
    let g := a.toNat
    let v := w.src false n n.sa 0 (lowLane w.act)
    let e : GWrite := { id := s.tick, reg := g, tid := w.tid, uid := w.S.uid, run := w.S.run, stamp := w.S.dist, cycle := s.now,
                        landed := false, prior := w.E.g.get g }
    ∃ y x, exec i s = .next y
      ∧ Completes s { w with E := { w.E with gown := w.E.gown.put g w.T.num, glog := e :: w.E.glog } }
          [(.g g, w.act, fun _ => v)] 0#32 [] (nextWord n w) y x := by
  obtain rfl := (gate_go h.1).2.1
  obtain ⟨y, x, hy, hc⟩ := completes_fixed (he _) h.1 (opGmov_write h.2 hm hd ho)
  rw [fixedWrites_noLatch, Work.outsOf_one, hd, Work.dests, if_neg h.2] at hc
  exact ⟨y, x, hy, hc⟩

/-- A gmov that reads a g register leaves its result to the scoreboard (R130, R154). -/
theorem gmov_reads (f : X) {a : BitVec 5} (hm : (insX 0x49 f).mod = 1) (hd : (insX 0x49 f).sa = .g a) :
    scoreboardResult (.gmov f) (insX 0x49 f) (fun _ => 1)
      (fun w _ _ => gmovValue w.s.now a.toNat (w.E.g.get a.toNat) w.E.glog) fun _ => 0#32 :=
  scoreboardResult_of_later (cycles := fun _ => 20) (fun _ => rfl) fun s w _ => by simp [hm, hd]

/-- Settles O4: smov, stov, splq and pmov complete with the writes of the lemmas of their names, plog is a lane result, the reads of vtos and
gmov go to the scoreboard, and `gmov_writes` and `opGmov_owned` are a gmov to a g register. -/
theorem movesAndQueries : Obligations.MovesAndQueries := by
  have splq {i : Instr} {n : Ins} (he : ∀ s, exec i s = run n (opSplq n) s) := splq_completes he
  simp only [query_eq] at splq
  refine ⟨⟨fun f => smov_completes fun _ => rfl, fun f => smov_completes fun _ => rfl⟩,
    ⟨fun f => stov_completes fun _ => rfl, fun f => stov_completes fun _ => rfl⟩,
    fun f => wordRel_of_lanewise (fun _ => rfl) fun _ _ _ => rfl, fun f s w h => ⟨fun hm => ?_, fun hm => ?_⟩,
    ⟨fun f => splq fun _ => rfl, fun f => splq fun _ => rfl⟩, fun f => ?_, fun f s w h => ⟨fun a hm hd ho => ?_, fun a o hm hd hf ho => ?_, fun a hm hd => ?_⟩⟩
  · exact pmovGet_completes (fun _ => rfl) h (by simpa using hm)
  · exact pmovSet_completes (fun _ => rfl) h (by simpa using hm)
  · refine scoreboardResult_of_later (cycles := fun _ => 10) (fun _ => rfl) fun s w _ => ?_
    simp only [and_iff_right_of_imp fun hl : w.act.getLsbD _ = true => BitVec.lt_of_getLsbD hl]
  · exact gmov_writes (fun _ => rfl) h hm hd ho
  · exact (run_go _ h.1).trans (by rw [opGmov_owned h.2 hm hd hf ho])
  · obtain rfl := (gate_go h.1).2.1
    obtain ⟨y, x, hy, hc, -⟩ := gmov_reads f hm hd _ w h
    exact ⟨y, x, hy, hc⟩

end Sys2Proof
end

section
/-! Votes, shuffles and reductions over the active lanes (O8). -/

namespace Sys2Proof

open Machine

/-- Any, all and uni of the ballot are what the active lanes' votes are (R111). -/
theorem voteOf_maskFilter (k : Nat) (m : Mask) (c : Nat → Bool) :
    voteOf (k % 4) (maskFilter m c) m = if k % 4 = 0 then (lanesOf m).any c else if k % 4 = 1 then (lanesOf m).all c
      else (lanesOf m).all c || (lanesOf m).all fun l => !c l := by
  have hz : (maskFilter m c == 0) = (lanesOf m).all fun l => !c l := by
    rw [Bool.eq_iff_iff, beq_iff_eq, maskFilter_eq_zero]; simp
  have hs : (maskFilter m c == m) = (lanesOf m).all c := by
    rw [Bool.eq_iff_iff, beq_iff_eq, maskFilter_eq_self]; simp
  unfold voteOf
  split
  · next h => rw [if_pos h, bne, hz, List.not_all_eq_any_not]; simp
  · next h => rw [if_neg (by omega), if_pos h, hs]
  · next h0 h1 => rw [if_neg h0, if_neg h1, hz, hs, Bool.or_comm]

/-- The lane that shfl reads, mode by mode (R112). -/
theorem shflLane_eq (mode wd n l : Nat) (h : mode < 4) : shflLane mode wd n l =
    if mode = 0 then l - l % wd + n % wd
    else if mode = 1 then (if n ≤ l - (l - l % wd) then l - n else l)
    else if mode = 2 then (if l + n < l - l % wd + wd then l + n else l)
    else l ^^^ (n % wd) := by
  unfold shflLane
  split <;> simp_all

/-- Adding up is what op 0 folds (R113). -/
theorem foldl_redStep_add (ts : List Int) : ts.foldl (redStep 0) 0 = ts.sum := by
  rw [List.sum_eq_foldl]; rfl

/-- The sum of op 0 is exact, and fitted once (R113). -/
theorem reduce_add (sat : Bool) (xs : List Word) :
    (((reduce 0 sat xs).1.toNat : Nat) : Int) = clamped (xs.map BitVec.toInt).sum 32 true sat % 2 ^ 32
      ∧ ((reduce 0 sat xs).2 = flagSat ↔ sat = true ∧ outOfRange (xs.map BitVec.toInt).sum 32 true) := by
  have hr : reduce 0 sat xs = (BitVec.ofNat 32 (fit (xs.map BitVec.toInt).sum 32 true sat).1, (fit (xs.map BitVec.toInt).sum 32 true sat).2) := by
    unfold reduce
    rw [show redIdentity 0 = 0 from rfl, foldl_redStep_add]
    simp [show redRead 0 = BitVec.toInt from rfl]
  obtain ⟨hval, hmod, hflag⟩ := fit_eq 32 (xs.map BitVec.toInt).sum true sat
  rw [hr]
  refine ⟨?_, ?_⟩
  · rw [BitVec.toNat_ofNat, hmod, hval]
  · obtain ⟨h0, hno⟩ | ⟨h1, hyes⟩ := hflag
    · exact ⟨fun h => absurd (h.symm.trans h0) (by decide), fun h => absurd h hno⟩
    · exact ⟨fun _ => hyes, fun _ => h1⟩

/-- Of no lane, an op gives its identity (R115). -/
theorem reduce_nil (op : Nat) (h : op < 8) (sat : Bool) : (reduce op sat []).1 =
    if op = 1 then 0x7FFFFFFF#32 else if op = 2 then 0x80000000#32 else if op = 3 ∨ op = 5 then 0xFFFFFFFF#32 else 0#32 := by
  interval_cases op <;> cases sat <;> rfl

/-- Settles O8: each instruction leaves its result to the scoreboard, vote and shfl by `voteOf_maskFilter` and `shflLane_eq`, and `reduce_add` and
`reduce_nil` are the clauses on reductions. -/
theorem voteShuffleAndReductions : Obligations.VoteShuffleAndReductions := by
  refine ⟨fun f => ?_, fun f => ?_, fun f => ?_, fun f => ?_, fun f => ?_, reduce_add, reduce_nil⟩
  · refine scoreboardResult_of_later (cycles := fun _ => 8) (fun _ => rfl) fun s w _ => ?_
    by_cases h : (insX 0x10 f).mod % 4 = 3
    · simp only [if_pos h]
      rfl
    · simp only [if_neg h, Work.ballot, voteOf_maskFilter]
  · refine scoreboardResult_of_later (cycles := fun _ => 12) (fun _ => rfl) fun s w _ => ?_
    have hmode : (insX 0x11 f).mod % 4 < 4 := Nat.mod_lt _ (by decide)
    simp only [← shflLane_eq _ _ _ _ hmode]
  · exact scoreboardResult_of_later (cycles := fun _ => 20) (fun _ => rfl) fun _ _ _ => rfl
  · exact scoreboardResult_of_later (cycles := fun _ => 28) (fun _ => rfl) fun _ _ _ => rfl
  · exact scoreboardResult_of_later (cycles := fun _ => 24) (fun _ => rfl) fun _ _ _ => rfl

end Sys2Proof
end

section
/-! Swap-back and exchange (O28): the split that an exchange takes, the read of the record that comes back, and the events of the split stack. -/

namespace Sys2Proof

open Machine

/-! ### The split that an exchange takes -/

/-- The split that a comparison puts first is of the list, and no other comes before it, if the comparison is that of a measure. -/
theorem bestSplit_least {α : Type} [LinearOrder α] (m : Split → α) {better : Split → Split → Bool} (hb : ∀ b a, better b a = true ↔ m b < m a)
    {l : List (Nat × Split)} (h : l ≠ []) : ∃ x, bestSplit better l = some x ∧ x ∈ l ∧ ∀ e ∈ l, m x.2 ≤ m e.2 := by
  induction l with
  | nil => exact absurd rfl h
  | cons a l ih =>
    unfold bestSplit
    by_cases hl : l = []
    · subst hl
      exact ⟨a, rfl, by simp, by simp⟩
    obtain ⟨x, hx, hm, hle⟩ := ih hl
    rw [hx]
    by_cases hlt : better x.2 a.2 = true
    · refine ⟨x, by simp [hlt], by simp [hm], ?_⟩
      simpa [((hb _ _).1 hlt).le] using fun k p => hle (k, p)
    · refine ⟨a, by simp [hlt], by simp, ?_⟩
      have hle' : m a.2 ≤ m x.2 := not_lt.1 (mt (hb _ _).2 hlt)
      simpa using fun k p hp => hle'.trans (hle (k, p) hp)

theorem bestSplit_nil (better : Split → Split → Bool) {l : List (Nat × Split)} (h : l = []) : bestSplit better l = none := by
  rw [h, bestSplit]

theorem exchanged_blocked {T : Troupe} (h : ∃ e ∈ T.splits, e.2.state = 2 ∨ e.2.state = 3) :
    ∃ x, T.exchanged = some x ∧ x ∈ T.splits ∧ (x.2.state = 2 ∨ x.2.state = 3)
      ∧ ∀ e ∈ T.splits, e.2.state = 2 ∨ e.2.state = 3 → e.2.born ≤ x.2.born := by
  obtain ⟨e, he, hb⟩ := h
  obtain ⟨x, hx, hm, hle⟩ := bestSplit_least (fun p => OrderDual.toDual p.born) (better := fun b a => a.born < b.born) (by simp)
    (List.ne_nil_of_mem (List.mem_filter.2 ⟨he, by simpa using hb⟩ : e ∈ T.splits.filter fun e => e.2.state = 2 || e.2.state = 3))
  obtain ⟨hm, hs⟩ := List.mem_filter.1 hm
  refine ⟨x, ?_, hm, by simpa using hs, fun e he hb => hle e (List.mem_filter.2 ⟨he, by simpa using hb⟩)⟩
  unfold Troupe.exchanged
  rw [hx]

theorem exchanged_idle {T : Troupe} (hT : T.splits ≠ []) (h : ∀ e ∈ T.splits, ¬(e.2.state = 2 ∨ e.2.state = 3)) :
    ∃ x, T.exchanged = some x ∧ x ∈ T.splits ∧ ∀ e ∈ T.splits, x.2.lastIss ≤ e.2.lastIss := by
  obtain ⟨x, hx, hm, hle⟩ := bestSplit_least (fun p => p.lastIss) (better := fun b a => b.lastIss < a.lastIss) (by simp) hT
  refine ⟨x, ?_, hm, hle⟩
  unfold Troupe.exchanged
  rw [bestSplit_nil _ (List.filter_eq_nil_iff.2 fun e he => by simpa using h e he), hx]

/-! ### Swap-back -/

/-- The lowest entry that no split has and to which none is on its way (R82). -/
theorem freeEntry_eq {T : Troupe} {k : Nat} (hk : k < 8) (h1 : T.splits.find? k = none) (h2 : T.coming.find? k = none)
    (h : ∀ j, j < k → (T.splits.find? j).isSome = true ∨ (T.coming.find? j).isSome = true) : T.freeEntry = some k := by
  unfold Troupe.freeEntry
  rw [List.find?_range_eq_some]
  refine ⟨by simp [h1, h2], by simpa using hk, fun j hj => ?_⟩
  rcases h j hj with h | h <;> simp [h]

/-- A troupe whose longest spilled split goes to entry `k` (R90). -/
def fetching (T : Troupe) (p : Split) (rest : List Split) (k : Nat) : Troupe :=
  { T with stack := rest, stackHead := (T.stackHead + 1) % 120, coming := T.coming.put k p }

/-- Of the module only a troupe, which is now `T`, the agenda, the counter and the caches differ. -/
def Fetches (s t : State) (tid : Nat) (T : Troupe) : Prop :=
  ∃ c : Caches, t = { c.on s with tick := t.tick, agenda := t.agenda, troupes := s.troupes.put tid T }

theorem Fetches.troupes {s t : State} {tid : Nat} {T : Troupe} (h : Fetches s t tid T) : t.troupes = s.troupes.put tid T := by
  obtain ⟨c, hc⟩ := h
  rw [hc]

theorem Fetches.module {s t : State} {tid : Nat} {T : Troupe} (h : Fetches s t tid T) :
    ∃ c : Caches, t = { c.on s with tick := t.tick, agenda := t.agenda, troupes := t.troupes } := by
  have htroupes := h.troupes
  obtain ⟨c, hc⟩ := h
  exact ⟨c, by rw [htroupes]; exact hc⟩

theorem Fetches.shared {s t : State} {tid : Nat} {T : Troupe} (h : Fetches s t tid T) : t.ensembles = s.ensembles ∧ t.contexts = s.contexts := by
  obtain ⟨c, hc⟩ := h
  rw [hc]
  exact ⟨rfl, rfl⟩

theorem Fetches.others {s t : State} {tid : Nat} {T : Troupe} (h : Fetches s t tid T) {k : Nat} (hk : k ≠ tid) :
    t.troupes.find? k = s.troupes.find? k := by rw [h.troupes, Tab.find?_put_other _ _ hk]

theorem Fetches.troupe {s t : State} {tid : Nat} {T : Troupe} (h : Fetches s t tid T) : t.troupes.find? tid = some T := by
  rw [h.troupes, Tab.find?_put_same]

/-- An event after accesses to memory. -/
theorem onlyCaches_timed {a u : State} (h : OnlyCaches a u) (due : Nat) (ev : Ev) : u.bump.at_ due ev
    = { u.caches.on a with tick := (u.bump.at_ due ev).tick, agenda := (u.bump.at_ due ev).agenda } :=
  congrArg (fun v : State => { v with tick := u.tick + 1, agenda := (u.bump.at_ due ev).agenda }) h

theorem fetchBack_nil (s : State) (tid : Nat) {T : Troupe} (k : Nat) (h : T.stack = []) : Fetches s (s.fetchBack tid T k) tid T := by
  unfold State.fetchBack
  rw [h]
  exact ⟨s.caches, rfl⟩

/-- The split that is longest on the stack is on its way to entry `k` until its record has been read (R90). -/
theorem fetchBack_cons (s : State) (tid : Nat) {T : Troupe} (k : Nat) {p : Split} {rest : List Split} (h : T.stack = p :: rest) :
    Fetches s (s.fetchBack tid T k) tid (fetching T p rest k)
      ∧ ∃ due, ⟨due, .swapBackReadComplete tid k⟩ ∈ (s.fetchBack tid T k).agenda := by
  unfold State.fetchBack
  rw [h]
  dsimp only
  generalize hr : readMax _ _ _ = r
  have hu : OnlyCaches { s with troupes := s.troupes.put tid (fetching T p rest k) } r.1 := hr ▸ (readMax_only _ _ _).caches
  exact ⟨⟨r.1.caches, onlyCaches_timed hu _ _⟩, _, mem_at.2 (.inl rfl)⟩

theorem fetchBack_fetches (s : State) (tid : Nat) (T : Troupe) (k : Nat) : ∃ U, Fetches s (s.fetchBack tid T k) tid U := by
  cases h : T.stack with
  | nil => exact ⟨_, fetchBack_nil s tid k h⟩
  | cons p rest => exact ⟨_, (fetchBack_cons s tid k h).1⟩

/-! ### The clauses -/

/-- The split longest on the stack goes to the lowest free entry (R88, R90). -/
theorem splitSwapBack_clause (tid : Nat) (s : State) : ∃ t, exec (.splitSwapBack tid) s = .next t
    ∧ (∃ c : Caches, t = { c.on s with tick := t.tick, agenda := t.agenda, troupes := t.troupes })
    ∧ (∀ k, k ≠ tid → t.troupes.find? k = s.troupes.find? k)
    ∧ ∀ T p rest k, s.troupes.find? tid = some T → T.stack = p :: rest → k < 8 → T.splits.find? k = none → T.coming.find? k = none →
      (∀ j, j < k → (T.splits.find? j).isSome = true ∨ (T.coming.find? j).isSome = true) →
        t.troupes.find? tid = some (fetching T p rest k) ∧ ∃ due, ⟨due, .swapBackReadComplete tid k⟩ ∈ t.agenda := by
  change ∃ t, execSplitSwapBack tid s = .next t ∧ _
  unfold execSplitSwapBack
  cases hT : s.troupes.find? tid with
  | none => exact ⟨s, rfl, ⟨s.caches, rfl⟩, fun _ _ => rfl, fun _ _ _ _ h => nomatch h⟩
  | some T =>
    cases hk : T.freeEntry with
    | none =>
      refine ⟨s, by simp only [hk], ⟨s.caches, rfl⟩, fun _ _ => rfl, fun T' p rest k hT' _ hlt h1 h2 h3 => ?_⟩
      cases hT'
      exact absurd (hk.symm.trans (freeEntry_eq hlt h1 h2 h3)) nofun
    | some k =>
      obtain ⟨U, hU⟩ := fetchBack_fetches s tid T k
      simp only [hk]
      refine ⟨_, rfl, hU.module, fun _ => hU.others, fun T' p rest k' hT' hstack hlt h1 h2 h3 => ?_⟩
      cases hT'
      obtain rfl : k = k' := Option.some.inj (hk.symm.trans (freeEntry_eq hlt h1 h2 h3))
      obtain ⟨hf, hdue⟩ := fetchBack_cons s tid k hstack
      exact ⟨hf.troupe, hdue⟩

/-- A split is resident once its record has been read (R90). -/
theorem swapBackReadComplete_clause (tid k : Nat) (s : State) : ∃ t, exec (.swapBackReadComplete tid k) s = .next t ∧ onlyTroupe s t tid
    ∧ ∀ T p, s.troupes.find? tid = some T → T.coming.find? k = some p →
        t.troupes.find? tid = some { T with coming := T.coming.del k, splits := T.splits.put k { p with swapIn := true } }
        ∧ ⟨s.now, .splitSwapBack tid⟩ ∈ t.agenda := by
  change ∃ t, execSwapBackReadComplete tid k s = .next t ∧ _
  unfold execSwapBackReadComplete
  cases hT : s.troupes.find? tid with
  | none => exact ⟨s, rfl, onlyTroupe_refl s tid, fun _ _ h => nomatch h⟩
  | some T =>
    cases hp : T.coming.find? k with
    | none =>
      refine ⟨s, by simp only [hp], onlyTroupe_refl s tid, fun T' p hT' hp' => ?_⟩
      cases hT'
      exact absurd (hp.symm.trans hp') nofun
    | some p =>
      simp only [hp]
      refine ⟨_, rfl, ⟨rfl, fun _ hj => Tab.find?_put_other _ _ hj⟩, fun T' p' hT' hp' => ?_⟩
      cases hT'
      obtain rfl := Option.some.inj (hp.symm.trans hp')
      exact ⟨Tab.find?_put_same _ _ _, mem_at.2 (.inl rfl)⟩

/-- An exchange takes the youngest blocked split, or the least recently issued one (R90). -/
theorem exchanged_clause (T : Troupe) (hT : T.splits ≠ []) : ∃ k v, T.exchanged = some (k, v) ∧ (k, v) ∈ T.splits
      ∧ let blocked (p : Split) : Prop := p.state = 2 ∨ p.state = 3
        ((∃ e ∈ T.splits, blocked e.2) → blocked v ∧ ∀ e ∈ T.splits, blocked e.2 → e.2.born ≤ v.born)
        ∧ ((∀ e ∈ T.splits, ¬blocked e.2) → ∀ e ∈ T.splits, v.lastIss ≤ e.2.lastIss) := by
  by_cases h : ∃ e ∈ T.splits, e.2.state = 2 ∨ e.2.state = 3
  · obtain ⟨⟨k, v⟩, hx, hm, hb, hborn⟩ := exchanged_blocked h
    obtain ⟨e, he, hs⟩ := h
    exact ⟨k, v, hx, hm, fun _ => ⟨hb, hborn⟩, fun hn => absurd hs (hn e he)⟩
  · obtain ⟨⟨k, v⟩, hx, hm, hiss⟩ := exchanged_idle hT fun e he hs => h ⟨e, he, hs⟩
    exact ⟨k, v, hx, hm, fun hn => absurd hn h, fun _ => hiss⟩

theorem writeSpill_shared (s : State) (base k : Nat) (p : Split) : (s.writeSpill base k p).troupes = s.troupes
    ∧ (s.writeSpill base k p).ensembles = s.ensembles ∧ (s.writeSpill base k p).contexts = s.contexts := by
  rw [writeSpill_only]
  exact ⟨rfl, rfl, rfl⟩

/-- A spill writes a record (R88); the first of a troupe begins an exchange interval (R90). -/
theorem spill_shared (s : State) (tid base : Nat) (T : Troupe) (p : Split) : (s.spill tid base T p).1.troupes = s.troupes
    ∧ (s.spill tid base T p).1.ensembles = s.ensembles ∧ (s.spill tid base T p).1.contexts = s.contexts := by
  unfold State.spill
  dsimp only
  split <;> exact writeSpill_shared _ _ _ _

/-- An exchange leaves every other troupe, the ensembles and the contexts (R90). -/
theorem exchange_shared (s : State) (tid base : Nat) (T : Troupe) : let t := s.exchange tid base T
    (∀ k, k ≠ tid → t.troupes.find? k = s.troupes.find? k) ∧ t.ensembles = s.ensembles ∧ t.contexts = s.contexts := by
  unfold State.exchange
  split
  · exact ⟨fun _ _ => rfl, rfl, rfl⟩
  · next k v _ =>
    obtain ⟨htroupes, hens, hctx⟩ := spill_shared s tid base { T with splits := T.splits.del k, exchAt := s.exchCycles T } v
    generalize s.spill tid base _ v = r at *
    obtain ⟨U, hU⟩ := fetchBack_fetches r.1 tid r.2 k
    exact ⟨fun _ hk => (hU.others hk).trans (by rw [htroupes]), hU.shared.1.trans hens, hU.shared.2.trans hctx⟩

/-- An exchange with the split that is longest on the stack (R90). -/
theorem exchange_swaps {s : State} {tid base : Nat} {T : Troupe} {p v : Split} {rest : List Split} {k : Nat} (hstack : T.stack = p :: rest)
    (hx : T.exchanged = some (k, v)) : let t := s.exchange tid base T
    t.troupes.find? tid = some
        { T with splits := T.splits.del k, stack := rest ++ [v], stackHead := (T.stackHead + 1) % 120, coming := T.coming.put k p,
                 exchAt := s.exchCycles T }
      ∧ ∃ due, ⟨due, .swapBackReadComplete tid k⟩ ∈ t.agenda := by
  have hspill : (s.spill tid base { T with splits := T.splits.del k, exchAt := s.exchCycles T } v).2
      = { T with splits := T.splits.del k, exchAt := s.exchCycles T, stack := p :: (rest ++ [v]) } := by
    unfold State.spill
    simp [hstack]
  unfold State.exchange
  simp only [hx, hspill]
  obtain ⟨hf, hdue⟩ := fetchBack_cons (s.spill tid base { T with splits := T.splits.del k, exchAt := s.exchCycles T } v).1 tid k
    (T := { T with splits := T.splits.del k, exchAt := s.exchCycles T, stack := p :: (rest ++ [v]) }) rfl
  exact ⟨hf.troupe, hdue⟩

theorem splitExchange_next (tid : Nat) (s : State) : ∃ t, execSplitExchange tid s = .next t
    ∧ (∀ k, k ≠ tid → t.troupes.find? k = s.troupes.find? k) ∧ t.ensembles = s.ensembles ∧ t.contexts = s.contexts := by
  unfold execSplitExchange
  split
  · exact ⟨s, rfl, fun _ _ => rfl, rfl, rfl⟩
  split
  · exact ⟨s, rfl, fun _ _ => rfl, rfl, rfl⟩
  dsimp only
  split
  · exact ⟨s, rfl, fun _ _ => rfl, rfl, rfl⟩
  split
  · exact ⟨_, rfl, fun _ _ => rfl, rfl, rfl⟩
  split
  · exact ⟨_, rfl, fun _ _ => rfl, rfl, rfl⟩
  · exact ⟨_, rfl, exchange_shared _ _ _ _⟩

section
variable {tid : Nat} {s : State} {T : Troupe} {e : Ensemble} (hT : s.troupes.find? tid = some T) (he : s.ensembles.find? T.ens = some e)
include hT he

theorem splitExchange_empty (h : T.stack = []) : execSplitExchange tid s = .next s := by
  simp only [execSplitExchange, hT, he, h, true_or, if_true]

variable (hs : T.stack ≠ []) (hd : ∀ d, ⟨d, .splitExchange tid⟩ ∉ s.agenda)
include hs hd

/-- A spilled troupe that has no look due exchanges, or looks again. -/
theorem splitExchange_eq : execSplitExchange tid s = .next (
    if s.exchCycles T - T.exchAt < 4096 then s.at_ (s.now + (4096 - (s.exchCycles T - T.exchAt))) (.splitExchange tid)
    else if (T.splits.any fun x => x.2.infull) ∨ (s.core e.core).onStage ≠ some e.ctx then s.at_ (s.now + 1) (.splitExchange tid)
    else (s.exchange tid (blockBase (s.ctx e.ctx) T.block) T).at_ (s.now + 4096) (.splitExchange tid)) := by
  have hnone : (s.agenda.any fun x => x.ev = .splitExchange tid) = false := by
    rw [List.any_eq_false]
    rintro ⟨d, ev⟩ hx hev
    exact hd d (of_decide_eq_true hev ▸ hx)
  simp only [execSplitExchange, hT, he, hs, hnone, Bool.false_eq_true, or_self, if_false]
  split_ifs <;> rfl

end

/-- Settles O28: a clause for each event of the split stack, `exchanged_clause` for the split that leaves, and `exchange_swaps` for what an
exchange that is due does. -/
theorem swapBackAndExchange : Obligations.SwapBackAndExchange := by
  refine ⟨splitSwapBack_clause, swapBackReadComplete_clause, exchanged_clause, fun tid s => ?_⟩
  obtain ⟨t, ht, hothers, hens, hctx⟩ := splitExchange_next tid s
  refine ⟨t, ht, hothers, hens, hctx, fun T e c hT he _ => ⟨fun h => ?_, fun p rest hstack hd => ?_⟩⟩
  · exact (Host.Outcome.next.inj ((splitExchange_empty hT he h).symm.trans ht)).symm
  · obtain rfl := Host.Outcome.next.inj ((splitExchange_eq hT he (by simp [hstack]) hd).symm.trans ht)
    refine ⟨fun hlt => ?_, fun hge hoff => ?_, fun hge hin hon k v hx => ?_⟩
    · rw [if_pos hlt]
      exact ⟨rfl, mem_at.2 (.inl rfl)⟩
    · rw [if_neg hge.not_gt, if_pos (by simpa using hoff)]
      exact ⟨rfl, mem_at.2 (.inl rfl)⟩
    · rw [if_neg hge.not_gt, if_neg (by simpa [hon] using hin)]
      obtain ⟨htroupe, due, hdue⟩ := exchange_swaps (s := s) (tid := tid) (base := blockBase (s.ctx e.ctx) T.block) hstack hx
      exact ⟨htroupe, ⟨due, mem_at.2 (.inr hdue)⟩, mem_at.2 (.inl rfl)⟩

end Sys2Proof
end

section
/-! Launches and retirement (O46): a launch whose signal word lies in the descriptor of its queue. -/

namespace Sys2Proof

open Machine

/-- A launch from queue 0 in context 0 that has started, with only its root production left. -/
def signalLaunch : Launch :=
  { seq := 0, spawns := 0, ctx := 0, queue := 0, index := 0, die := 0, counter := 1, regs := 64, scalars := 16, stage := 0, seedProd := false,
    entry := 0, energy := 0, args := 0, sig := 0x40020, acq := 0, rel := 0, wide := 0, ranges := [], deps := [], admitted := true,
    started := true, hasProducer := false, triggered := false }

/-- The next launch of queue 0, at its head, that has not started. -/
def headLaunch : Launch := { signalLaunch with index := 1, counter := 0, sig := 0, admitted := false, started := false }

/-- The root production of the first launch; its one ensemble has ended. -/
def endedRoot : Prod := { signalLaunch.root 0 with ended := 1 }

/-- Page tables at 0x8000 that map the addresses below 2^39 to themselves, writable by users; and the descriptor of queue 0 at 0x40000, whose
only byte that is not 0 is its STATE, 1. -/
def signalMemory : Memory := [(0x8000, 0x01), (0x8001, 0x90), (0x9000, 0x2B), (0x40020, 1)]

/-- The first launch is about to retire. -/
def signalState : State :=
  { ({ State.reset.loaded [] with
        mem := signalMemory, qtbase := 0x40000, launches := [(0, signalLaunch), (1, headLaunch)], prods := [(0, endedRoot)] } : State).modCtx 0
      fun c => { c with ptbr := 0x8000 } with
    queues := [(0, { State.reset.queue 0 with slot := some (0, 0), head := some 1, inFlight := [0] })] }

/-- The memory of `signalState` is canonical: what it refutes needs no broken invariant. -/
theorem signalState_canonical : Inv signalState := by
  unfold Inv
  decide

/-- No queue with a slot is disabled before the retirement. -/
theorem signalState_enabled (q : Nat) (x : Queue) (h : (q, x) ∈ signalState.queues) (_ : x.slot.isSome = true) :
    signalState.qState q ≠ 0 := by
  obtain ⟨rfl, -⟩ : q = 0 ∧ _ := Prod.mk.inj (List.mem_singleton.1 h)
  decide

/-- The signal disables queue 0, and the launch at its head is forgotten (R333, R340). -/
theorem productionRetire_signals {t : State} (h : exec (.productionRetire 0) signalState = .next t) : t.launches.find? 1 = none := by
  obtain rfl := Host.Outcome.next.inj h
  decide

/-- Refutes O46, in its clause on retirement. The signal of a completed launch is a write of memory before the front ends go on, and the
statement keeps its word off the queues' descriptors only where it says what the word then holds. In `signalState` the word is the STATE of the
queue: its decrement disables the queue, whose launch at the head is then forgotten (R333), where the statement says that every other launch
stays. What is missing there is the hypothesis of the clause on the word, that it lies in no queue's descriptor. -/
theorem not_launchesAndRetirement : ¬ Obligations.LaunchesAndRetirement := by
  rintro ⟨-, -, hretire, -⟩
  obtain ⟨t, ht, -, h⟩ := hretire 0 signalState
  obtain ⟨-, -, hdone⟩ := h endedRoot rfl
  have hplain : ¬((endedRoot.rel = 5 ∨ 3 ≤ endedRoot.rel ∧ signalState.fmtFlying (fun c _ => c = signalState.prodCtx endedRoot) = true)
      ∧ endedRoot.retiring = false) := by decide
  obtain ⟨-, -, -, hlaunch⟩ := hdone ⟨rfl, rfl⟩ hplain signalState_enabled
  obtain ⟨-, hothers, -⟩ := (hlaunch signalLaunch rfl).2 rfl
  have hkept : t.launches.find? 1 = some headLaunch := hothers 1 (by decide)
  exact absurd ((productionRetire_signals ht).symm.trans hkept) nofun

end Sys2Proof
end

section
/-! Integer arithmetic (O1): element by element, with carries, in pairs, and comparison (R137 to R141). -/

namespace Sys2Proof

open Machine

/-- What an elementwise meaning of both forms gives (R133). -/
theorem bothForms_of_elementwise {op : Nat} {x : X → Instr} {b : B3 → Instr} {t : Fmt → Int → Int → Int → Int}
    (hx : ∀ g s, exec (x g) s = run (insX op g) (elementwise t (insX op g)) s)
    (hb : ∀ g s, exec (b g) s = run (insB3 op g) (elementwise t (insB3 op g)) s) (h1 : 0x22 ≤ op := by decide)
    (h2 : op ≤ 0x2F := by decide) : bothForms op x b (elementResult t) :=
  ⟨fun g => elementResult_of_elementwise h1 h2 (hx g), fun g => elementResult_of_elementwise h1 h2 (hb g)⟩

theorem intCond_iff (c : Nat) (a b : Int) : intCond c a b = true ↔ icmpHolds c a b := by
  match c with
  | 0 | 1 | 2 | 3 | 4 | _ + 5 => exact decide_eq_true_iff

theorem carryOut_iff (a b c : Nat) : carryOut a b c = true ↔ 2 ^ 32 ≤ a + b + c := decide_eq_true_iff

theorem borrowOut_iff (a b c : Nat) : borrowOut a b c = true ↔ (a : Int) - b - c < 0 := by
  rw [borrowOut, decide_eq_true_iff]
  omega

/-- Elements without flags raise none. -/
theorem packElems_noFlags (wd : Nat) (g : Nat → Nat) : (packElems wd fun e => (g e, 0#32)).2 = 0#32 := orFlags_zero (by simp)

section
variable {i : Instr} {n : Ins}

/-- isad is one fit of c and the sum of the absolute differences (R138). -/
theorem isad_completes (he : ∀ s, exec i s = run n (opIsad n) s) :
    let t (n : Ins) (w : Work) (l : Nat) : Int :=
      readInt (w.src false n n.sc 0 l).toNat 32 (w.fmt n.fmt).sign
        + ((List.range (32 / (w.fmt n.fmt).width)).map fun e => |srcElem n w n.sa l e - srcElem n w n.sb l e|).sum
    let sat (n : Ins) (w : Work) : Bool := n.sat || (w.fmt n.fmt).satPolicy
    laneResult false
      (fun n w l v => ((v.toNat : Nat) : Int) = clamped (t n w l) 32 (w.fmt n.fmt).sign (sat n w) % 2 ^ 32)
      (fun n w fl => (fl = 0#32 ∨ fl = flagSat)
        ∧ (fl = flagSat ↔ sat n w = true ∧ ∃ l, w.act.getLsbD l = true ∧ outOfRange (t n w l) 32 (w.fmt n.fmt).sign)) i n := by
  refine laneResult_of_fit he fun w => ?_
  simp only [Int.abs_eq_natAbs]
  rfl

/-- A result with a carry writes its register, then the carry's predicate, then the latch (R139). -/
theorem withCarry_completes {f : Nat → Nat → Nat → Word × Bool} (he : ∀ s, exec i s = run n (withCarry f n) s) :
    completesWith i n (fun w =>
      let t (l : Nat) : Word × Bool :=
        f (w.src false n n.sa 0 l).toNat (w.src false n n.sb 0 l).toNat ((w.src false n n.sc 0 l).toNat % 2)
      w.outsOf n 1 w.act (fun _ l => (t l).1)
        ++ (w.dests (.p (BitVec.ofNat 3 n.mod)) 0 w.act).map (fun d => (d.1, d.2, fun l => if (t l).2 then 1#32 else 0#32))
        ++ [(.latI, w.act, fun l => (t l).1)]) fun _ => 0#32 := by
  simp only [Work.outsOf_one]
  exact completesWith_of_fixed he fun _ => rfl

/-- A pair result writes its two words, and the low one to the latch (R118, R124). -/
theorem pair_completes {vector : Bool} {v : Work → Nat → Nat}
    (he : ∀ s, exec i s = run n (ifActive fun w => .done (w.pairResult vector n (v w))) s) :
    completesWith i n (fun w => pairWrites vector n w (v w)) fun _ => 0#32 := by
  have h := completesWith_of_fixed he fun _ => rfl
  simpa only [pairWrites, Work.fixedWrites, if_true, Nat.mul_zero, Nat.pow_zero, Nat.div_one] using h

/-- Each element of icmp is all ones where the condition holds, else zero, and no flag is raised (R141). -/
theorem icmp_completes (he : ∀ s, exec i s = run n (opIcmp n) s) (hop : n.op = 0x2F) :
    laneResult false
      (fun n w l v =>
        let f := w.fmt n.fmt
        (f.width = 8 ∨ f.width = 16 ∨ f.width = 32)
        ∧ ∀ e, e < 32 / f.width →
            let c := icmpHolds n.mod (srcElem n w n.sa l e) (srcElem n w n.sb l e)
            let r := v.toNat / 2 ^ (f.width * e) % 2 ^ f.width
            (c → r = 2 ^ f.width - 1) ∧ (¬c → r = 0))
      (fun _ _ fl => fl = 0#32) i n := by
  refine laneResult_of_alu he (fun _ => rfl) (fun s w h l _ => ?_) fun _ _ _ => orFlags_zero (by simp [packElems_noFlags])
  have hw : (w.fmt n.fmt).width = 8 ∨ (w.fmt n.fmt).width = 16 ∨ (w.fmt n.fmt).width = 32 :=
    intEntry_width (issues_intEntry h.1 (by omega) (by omega))
  refine ⟨hw, fun e he => ?_⟩
  dsimp only
  rw [packElems_elem hw _ he, ← intCond_iff]
  refine ⟨fun hc => ?_, fun hc => ?_⟩
  · have hlt : 2 ^ (w.fmt n.fmt).width - 1 < 2 ^ (w.fmt n.fmt).width := Nat.sub_lt (by positivity) one_pos
    exact (congrArg (· % _) (if_pos hc)).trans (Nat.mod_eq_of_lt hlt)
  · exact (congrArg (· % _) (if_neg hc)).trans (Nat.zero_mod _)

end

/-- Settles O1: the element by element results by `bothForms_of_elementwise`, and one lemma each for isad, the carries, the pair of imulw and
icmp. -/
theorem integerArithmetic : Obligations.IntegerArithmetic := by
  have iabs := bothForms_of_elementwise (op := 0x2D) (x := .iabs) (b := .iabsBase) (fun _ _ => rfl) fun _ _ => rfl
  simp only [← Int.abs_eq_natAbs] at iabs
  refine ⟨bothForms_of_elementwise (fun _ _ => rfl) fun _ _ => rfl,
    bothForms_of_elementwise (fun _ _ => rfl) fun _ _ => rfl,
    bothForms_of_elementwise (fun _ _ => rfl) fun _ _ => rfl,
    bothForms_of_elementwise (fun _ _ => rfl) fun _ _ => rfl,
    bothForms_of_elementwise (fun _ _ => rfl) fun _ _ => rfl,
    bothForms_of_elementwise (fun _ _ => rfl) fun _ _ => rfl, iabs,
    bothForms_of_elementwise (fun _ _ => rfl) fun _ _ => rfl,
    fun f => elementResult_of_elementwise (n := insX 0x29 f) (by decide : 0x22 ≤ 0x29) (by decide : 0x29 ≤ 0x2F) fun _ => rfl,
    fun f => isad_completes fun _ => rfl, fun f => ?_, fun f => ?_,
    ⟨fun f => pair_completes fun _ => rfl, fun f => pair_completes fun _ => rfl⟩, fun f => icmp_completes (fun _ => rfl) rfl⟩
  · simpa only [carryOut_iff] using withCarry_completes (i := .iaddc f) fun _ => rfl
  · simpa only [borrowOut_iff] using withCarry_completes (i := .isubb f) fun _ => rfl

end Sys2Proof
end

section
/-! Logic, shifts, bit counts and bit fields (O2): the instructions that act on whole words (R136, R142 to R147). -/

namespace Sys2Proof

open Machine

/-- The low bits of a word are its bits (R147). -/
theorem zext_bit (a : Word) (k : Nat) {j : Nat} (hj : j < 32) :
    (BitVec.ofNat 32 (a.toNat % 2 ^ (k + 1))).getLsbD j = (decide (j ≤ k) && a.getLsbD j) := by
  rw [BitVec.getLsbD_ofNat, Nat.testBit_mod_two_pow, decide_eq_true hj, Bool.true_and]
  simp only [Nat.lt_succ_iff]
  rfl

/-- Byte `k` of perm, as its selector's four bits choose it (R146). -/
theorem permByte_eq (a sel : Word) (k : Nat) : permByte a sel k =
    let s := sel.toNat / 2 ^ (4 * k) % 16
    let b := a.toNat / 2 ^ (8 * (s % 4)) % 256
    if s.testBit 2 then 0 else if s.testBit 3 then (if b.testBit 7 then 0xFF else 0) else b := by
  have hs : bvField sel (4 * k + 3) (4 * k) = sel.toNat / 2 ^ (4 * k) % 16 := by
    rw [bvField, field, Nat.shiftRight_eq_div_pow, show 4 * k + 3 + 1 - 4 * k = 4 by omega, show 2 ^ 4 = 16 from rfl]
  simp only [permByte, hs, bitOf_eq]

/-- The source of a base movi is its immediate, sign-extended (R38). -/
theorem src_insBI (f : BI) (w : Work) (l : Nat) : w.src false (insBI f) (insBI f).sa 0 l = f.imm.signExtend 32 := by
  by_cases h0 : f.imm = 0
  · have hsa : (insBI f).sa = .zero := if_pos h0
    rw [hsa, h0]
    rfl
  · have hsa : (insBI f).sa = .lit := if_neg h0
    have hlit : f.toX.lit = some (f.imm.signExtend 64) := if_neg h0
    rw [hsa, Work.src, if_pos rfl, insBI, insOfX, hlit]
    apply BitVec.eq_of_getLsbD_eq
    intro j hj
    have hj64 : j < 64 := by omega
    simp only [Option.getD_some, BitVec.ofNat_toNat, BitVec.getLsbD_setWidth, BitVec.getLsbD_signExtend, hj, hj64, decide_true,
      Bool.true_and]

/-- A base movi gives its immediate (R136). -/
theorem moviBase_completes (f : BI) :
    laneResult false (fun _ _ _ v => v = f.imm.signExtend 32) (fun _ _ fl => fl = 0#32) (.moviBase f) (insBI f) :=
  laneResult_of_alu (fun _ => rfl) (fun _ => rfl) (fun _ w _ l _ => src_insBI f w l) fun _ _ _ => orFlags_zero (by simp)

/-- Settles O2: each instruction is a lanewise meaning, whose bits are those of the lemma named. -/
theorem logicShiftsAndBitFields : Obligations.LogicShiftsAndBitFields := by
  refine ⟨
    bothForms_of_lanewise _ (fun _ _ => rfl) (fun _ _ => rfl) fun _ _ _ _ => rfl,
    bothForms_of_lanewise _ (fun _ _ => rfl) (fun _ _ => rfl) fun _ _ _ _ => rfl,
    bothForms_of_lanewise _ (fun _ _ => rfl) (fun _ _ => rfl) fun _ _ _ _ => rfl,
    bothForms_of_lanewise _ (fun _ _ => rfl) (fun _ _ => rfl) fun _ _ _ _ => rfl,
    bothForms_of_lanewise _ (fun _ _ => rfl) (fun _ _ => rfl) fun _ _ _ _ => rfl,
    fun f => wordRel_of_lanewise (fun _ => rfl) fun _ _ _ => rfl,
    fun f => wordRel_of_lanewise (fun _ => rfl) fun a b c j hj => ?logic3,
    fun f => wordRel_of_lanewise (fun _ => rfl) fun _ _ _ => rfl,
    bothForms_of_lanewise _ (fun _ _ => rfl) (fun _ _ => rfl) fun _ a b _ => shl_big a b,
    bothForms_of_lanewise _ (fun _ _ => rfl) (fun _ _ => rfl) fun _ a b _ => shr_big a b,
    bothForms_of_lanewise _ (fun _ _ => rfl) (fun _ _ => rfl) fun _ a b _ => sar_big a b.toNat,
    bothForms_of_lanewise _ (fun _ _ => rfl) (fun _ _ => rfl) fun _ a b _ j hj => rot_bit a b.toNat j hj,
    bothForms_of_lanewise _ (fun _ _ => rfl) (fun _ _ => rfl) fun _ _ _ _ => rfl,
    fun f => wordRel_of_lanewise (fun _ => rfl) fun _ _ _ => rfl,
    moviBase_completes,
    bothForms_of_lanewise _ (fun _ _ => rfl) (fun _ _ => rfl) fun _ a _ _ => ?popc,
    bothForms_of_lanewise _ (fun _ _ => rfl) (fun _ _ => rfl) fun _ a _ _ => lead_ok a,
    bothForms_of_lanewise _ (fun _ _ => rfl) (fun _ _ => rfl) fun _ a _ _ => trail_ok a,
    bothForms_of_lanewise _ (fun _ _ => rfl) (fun _ _ => rfl) fun _ a _ _ j hj => ?brev,
    fun f => wordRel_of_lanewise (fun _ => rfl) fun a g _ => ?bfx,
    fun f => wordRel_of_lanewise (fun _ => rfl) fun a b g => bfi_bit a b g,
    bothForms_of_lanewise _ (fun _ _ => rfl) (fun _ _ => rfl) fun _ a sel _ k hk => (perm_byte a sel hk).trans (permByte_eq a sel k),
    fun f => wordRel_of_lanewise (fun _ => rfl) fun a _ _ j hj => sext_bit a.toNat _ (Nat.succ_pos _) j hj,
    fun f => wordRel_of_lanewise (fun _ => rfl) fun a _ _ j hj => zext_bit a _ hj⟩
  case logic3 =>
    rw [bits_sum (by decide) _ hj, bitOf_eq]
  case popc =>
    rw [← popcount_eq]
    exact toNat_small _ ((popcount_eq a).trans_le (List.length_filter_le _ _))
  case brev =>
    rw [BitVec.getLsbD_reverse, BitVec.getMsbD, decide_eq_true (by omega), Bool.true_and, show 32 - 1 - (31 - j) = j by omega]
  case bfx =>
    have := bfx_bit ((insX 0x40 f).mod % 2 = 1) a g
    simpa [Nat.testBit_zero] using this

end Sys2Proof
end

section
/-! Addresses and indices (O3): lea, and the bounds of xset and xbnd (R148 to R150). -/

namespace Sys2Proof

open Machine

namespace Machine

/-- An instruction that issues passes its bound check (R56, R149, R150). -/
theorem issues_boundCheck {n : Ins} {s : State} {w : Work} (h : issues n s w) : w.boundCheck n = none := by
  have h4 := (checks_none (gate_go h.1).2.2.2.2.2.1).2.1
  unfold Work.check04 at h4
  dsimp only at h4
  split at h4
  · cases h4
  · exact h4

/-- The bound check of an xset that passes: every lane's index lies within the pair (R149). -/
theorem boundCheck_xset {n : Ins} {w : Work} {a : BitVec 2} (hop : n.op = 0x46) (hd : n.dst = .x a) (h : w.boundCheck n = none) {l : Nat}
    (hl : w.act.getLsbD l = true) :
    ((w.T.xb.getD a.toNat 0).toNat % 65536 : Int) ≤ w.xsetVal n l ∧ w.xsetVal n l ≤ (w.T.xb.getD a.toNat 0).toNat / 65536 := by
  simp only [Work.boundCheck, if_pos hop, hd] at h
  split at h
  · cases h
  · next hnone =>
    have hin := List.find?_eq_none.1 hnone l (mem_lanesOf.2 hl)
    simpa using hin

/-- The bound check of an xbnd that passes: the new bounds are in order and within the allotment (R150). -/
theorem boundCheck_xbnd {n : Ins} {w : Work} (hop : n.op = 0x47) (ha : w.act ≠ 0) (h : w.boundCheck n = none) :
    let v := w.src false n n.sa 0 (lowLane w.act)
    v.toNat % 65536 ≤ v.toNat / 65536 ∧ v.toNat / 65536 < w.T.nregs := by
  have hne : ¬n.op = 0x46 := by omega
  simp only [Work.boundCheck, if_neg hne, if_pos (And.intro hop ha)] at h
  split at h
  · cases h
  · next hin => dsimp only; omega

/-- A change of the index bounds beside a meaning's work (R150). -/
theorem Work.Does.setBounds {w x : Work} {f : Word} {p : List Pend} (h : w.Does x f p) (xb : List Word) :
    ({ w with T := { w.T with xb := xb } } : Work).Does { x with T := { x.T with xb := xb } } f p where
  s := h.s
  tid := h.tid
  ent := h.ent
  T := by rw [h.T]
  S := h.S
  E := h.E
  frames := h.frames

/-- The index bounds are no registers of a split's data. -/
theorem Work.now_setBounds (w : Work) (xb : List Word) (r : Reg) (i : Nat) :
    ({ w with T := { w.T with xb := xb } } : Work).now r i = w.now r i := Work.now_congr rfl rfl rfl rfl r i

end Machine

section
variable {i : Instr} {n : Ins}

/-- An xset that issues writes the index of each lane, and its latch (R149). -/
theorem xset_completes (he : ∀ s, exec i s = run n (opXset n) s) :
    completesWith i n (fun w => laneWrites false n w fun l => BitVec.ofInt 32 (w.xsetVal n l)) fun _ => 0#32 := by
  intro s w h
  obtain ⟨t, x, ht, hc⟩ := completes_alu (he s) h.1 (ifActive_of h.2)
  have hflags : orFlags ((lanesOf w.act).map fun _ => 0#32) = 0#32 := orFlags_zero (by simp)
  rw [hflags] at hc
  exact ⟨t, x, ht, hc⟩

/-- The bounds that an xbnd replaces are those before its result is written. -/
theorem opXbnd_eq {w : Work} (ha : w.act ≠ 0) :
    let x := w.result false false n 1 fun _ _ => w.T.xb.getD (n.mod % 4) 0
    opXbnd n w = .done { x with T := { x.T with xb := w.T.xb.set (n.mod % 4) (w.src false n n.sa 0 (lowLane w.act)) } } := by
  intro x
  have hx : x.T.xb = w.T.xb := by
    have hT := (w.fixed_does false false n.dst.longCode 1 (w.outsOf n 1 w.act fun _ _ => w.T.xb.getD (n.mod % 4) 0)
      fun _ => w.T.xb.getD (n.mod % 4) 0).1.T
    exact (congrArg Troupe.xb hT :)
  rw [← hx]
  exact ifActive_of ha

/-- An xbnd that issues writes the previous bounds, which the new ones replace (R150). -/
theorem xbnd_completes (he : ∀ s, exec i s = run n (opXbnd n) s) {s : State} {w : Work} (h : issues n s w) :
    let v := w.src false n n.sa 0 (lowLane w.act)
    let k := n.mod % 4
    ∃ y x, exec i s = .next y
      ∧ Completes s { w with T := { w.T with xb := w.T.xb.set k v } } (w.outsOf n 1 w.act fun _ _ => w.T.xb.getD k 0) 0#32 []
          (nextWord n w) y x := by
  obtain rfl := (gate_go h.1).2.1
  intro v k
  obtain ⟨hd, hr⟩ := w.fixed_does false false n.dst.longCode 1 (w.outsOf n 1 w.act fun _ _ => w.T.xb.getD k 0) fun _ => w.T.xb.getD k 0
  rw [fixedWrites_noLatch] at hr
  refine completes_of_done (he _) h.1 (opXbnd_eq h.2) (hd.setBounds (w.T.xb.set k v)) fun r l hl => ?_
  rw [Work.now_setBounds, Work.now_setBounds]
  exact hr r l hl

end

/-- Settles O3: `pair_completes` for lea, `xset_completes` and `xbnd_completes` for the writes of the other two, and what their bound checks
leave. -/
theorem addressAndIndex : Obligations.AddressAndIndex := by
  refine ⟨fun f => ?_, fun f s w h a hd => ⟨fun l hl => boundCheck_xset rfl hd (issues_boundCheck h) hl, xset_completes (fun _ => rfl) s w h⟩,
    fun f s w h => ?_⟩
  · have unsigned (m : Nat) : m / 8 % 2 = 1 ↔ m.testBit 3 = true := by rw [Nat.testBit_eq_decide_div_mod_eq, decide_eq_true_iff]
    simpa only [unsigned, encodeInt] using pair_completes (i := .lea f) (vector := false) fun _ => rfl
  · obtain ⟨hord, hreg⟩ := boundCheck_xbnd rfl h.2 (issues_boundCheck h)
    exact ⟨hord, hreg, xbnd_completes (fun _ => rfl) h⟩

end Sys2Proof
end

section
/-! Format conversions -/
namespace Sys2Proof
open Sys2Proof.Machine

/-- Settles O10: each instruction is a vector result whose generators step, one of registers in groups for pack and unpack; cvtsr steps no generator. -/
theorem formatConversions : Obligations.FormatConversions := by
  refine ⟨⟨fun f s w h => ?_, fun f s w h => ?_⟩, fun f s w h => ?_, fun f s w h => ?_⟩
  · exact completes_stepped rfl h.1 (ifActive_of h.2)
  · obtain ⟨t, x, ht, hc⟩ := completes_alu (i := .cvtsr f) rfl h.1 (ifActive_of h.2)
    exact ⟨_, _, t, x, ht, hc, fun _ _ => rfl, rfl⟩
  · simpa only [Nat.mul_zero, pow_zero, Nat.div_one] using completes_group (i := .pack f) rfl h.1 (ifActive_of h.2)
  · exact completes_group (i := .unpack f) rfl h.1 (ifActive_of h.2)

end Sys2Proof
end

section
/-! Bindings (O19): an `sbind.bar` that names a scope. R309 checks the scope of a binding to a barrier after its length, and so does the model; the
statement has no word on it. -/
namespace Sys2Proof
open Sys2Proof.Machine

/-- An sbind of the 32 bytes at address 0 to the barrier at stage address 0, as entry 1, with scope core. -/
def scopedBar : X :=
  { w0 := { head := ⟨false, 0⟩, pneg := false, pred := 7, scope := .core, sat := false, rnd := .rne, fmt := 0 }
    dst := .v 0, sa := .zero, sb := .zero, sc := .lit, mod := 33, disp := 0, lit := some 32 }

/-- The troupe of a module just loaded, with split 0 about to issue. -/
def loadedIssuer : State := { State.reset.loaded [] with cur := some (0, 0) }

/-- The split that issues. -/
def loadedWork : Work := (loadedIssuer.work 0 0).get rfl

theorem loadedIssuer_issues : issues (insX 0xAA scopedBar) loadedIssuer loadedWork := ⟨rfl, by decide⟩

theorem loadedIssuer_mayTrap : MayTrap loadedIssuer loadedWork (loadedIssuer.ctx 0) :=
  ⟨by decide, rfl, by decide, by decide, by decide⟩

theorem opSbind_scopedBar : opSbind (insX 0xAA scopedBar) loadedWork = .trap { cause := 0x02 } := rfl

/-- Refutes O19, in its first clause: an `sbind.bar` whose scope is not the troupe's meets every condition that the statement states and traps
with cause 0x02, as R309 has it, so that it makes no binding. What is missing is the hypothesis that the scope of a binding to a barrier is 0. -/
theorem not_bindingsAndFences : ¬ Obligations.BindingsAndFences := by
  rintro ⟨hsbind, -⟩
  obtain ⟨-, -, -, hbinds⟩ := hsbind scopedBar loadedIssuer loadedWork loadedIssuer_issues
  obtain ⟨t, x, ht, hx⟩ := hbinds (by decide) (by decide) (by decide) (by decide) (by decide) fun _ => by decide
  obtain ⟨u, hu, htrap⟩ := trap_traps loadedIssuer_issues.1 loadedIssuer_mayTrap { cause := 0x02 } rfl
  have he : exec (.sbind scopedBar) loadedIssuer = .next u := (run_trap loadedIssuer_issues.1 opSbind_scopedBar).trans hu
  obtain rfl := Host.Outcome.next.inj (he.symm.trans ht)
  have hens : u.ensembles = loadedIssuer.ensembles := by rw [htrap.module]
  obtain ⟨-, -, -, -, -, -, hE⟩ := work_fields hx.split
  have hT : x.T.ens = 0 := by rw [hx.troupe]; rfl
  rw [hens, hT] at hE
  have hkept : x.E.binds = [] := congrArg Ensemble.binds (Option.some.inj hE).symm
  have hbound : x.E.binds ≠ [] := by rw [hx.ensemble]; exact List.cons_ne_nil _ _
  exact hbound hkept

end Sys2Proof
end

section
/-! Format entries and their copies (O9): what an fset leaves of its core's copy, and the home's broadcasts (R158 to R160, R182). -/

namespace Sys2Proof

open Machine

namespace Machine

theorem mem_insertOrdered {f : Ev → Nat} {after : Ev → Bool} {e x : Timed} {l : List Timed} :
    x ∈ insertOrdered f e after l ↔ x = e ∨ x ∈ l := by
  induction l with
  | nil => simp [insertOrdered]
  | cons y l ih =>
    unfold insertOrdered
    split
    · simp
    · simp only [List.mem_cons, ih]; tauto

/-- What an fset leaves of its core (R160). -/
def Core.fset (c : Core) (ctx tid e now id : Nat) (v : DWord) : Core :=
  { c with fts := c.fts.put ctx (((c.fts.find? ctx).getD []).set e v), echo := c.echo ++ [(ctx, e, id)],
           fresh := (c.fresh.filter fun f => f.cycle = now) ++ [⟨ctx, e, tid, now, ((c.fts.find? ctx).getD []).get e⟩] }

section
variable (s : State) (core ctx tid e : Nat) (v : DWord)

theorem core_fset (k : Nat) :
    (s.fset core ctx tid e v).core k = if k = core then (s.core core).fset ctx tid e s.now s.tick v else s.core k :=
  State.core_modCore s.bump core k fun c => c.fset ctx tid e s.now s.tick v

/-- An fset changes no other entry of any copy (R160). -/
theorem fset_fmtEntry_other {k c n : Nat} (h : k ≠ core ∨ c ≠ ctx ∨ n ≠ e) :
    (s.fset core ctx tid e v).fmtEntry k c n = s.fmtEntry k c n := by
  unfold State.fmtEntry
  rw [core_fset]
  by_cases hk : k = core
  · subst hk
    by_cases hc : c = ctx
    · subst hc
      have hn : n ≠ e := by simpa using h
      simp [Core.fset, hn]
    · simp [Core.fset, hc]
  · rw [if_neg hk]

/-- The write of an fset is on its way to the home (R159). -/
theorem fset_sends : ∃ due, ⟨due, .formatWriteAtHome ctx core e v s.tick⟩ ∈ (s.fset core ctx tid e v).agenda :=
  ⟨_, mem_insertOrdered.2 (.inl rfl)⟩

/-- In the cycle of an fset the other troupes of its core still see what the entry held, if no earlier one of that cycle changed it (R158,
R160). -/
theorem fset_lookFor (he : 16 ≤ e) (hf : ∀ f ∈ (s.core core).fresh, ¬(f.ctx = ctx ∧ f.entry = e ∧ f.cycle = s.now)) (k : Nat) :
    (s.fset core ctx tid e v).lookFor core ctx k e = if k = tid then v else s.fmtEntry core ctx e := by
  have hnew := fset_fmtEntry s core ctx tid e e v he
  rw [if_pos rfl] at hnew
  have hold : ((s.core core).fresh.filter fun f => f.cycle = s.now).find?
      (fun f => f.ctx = ctx && f.entry = e && f.cycle = s.now && f.tid ≠ k) = none := by
    rw [List.find?_eq_none]
    intro f hm hc
    obtain ⟨⟨⟨h1, h2⟩, h3⟩, -⟩ : ((f.ctx = ctx ∧ f.entry = e) ∧ f.cycle = s.now) ∧ f.tid ≠ k := by simpa using hc
    exact hf f (List.mem_of_mem_filter hm) ⟨h1, h2, h3⟩
  unfold State.lookFor
  rw [core_fset, if_pos rfl, hnew]
  have hfresh : ((s.core core).fset ctx tid e s.now s.tick v).fresh = ((s.core core).fresh.filter fun f => f.cycle = s.now)
      ++ [⟨ctx, e, tid, s.now, (((s.core core).fts.find? ctx).getD []).get e⟩] := rfl
  have hnow : (s.fset core ctx tid e v).now = s.now := rfl
  rw [hfresh, hnow, List.find?_append, hold, Option.none_or]
  by_cases hk : k = tid
  · subst hk
    simp
  · simp [Ne.symm hk, hk, State.fmtEntry, Nat.not_lt.2 he]

end

/-- An entry that no fset of this cycle changed is read as the copy holds it. -/
theorem look_settled {s : State} {w : Work} (e : Nat) (h : ∀ f ∈ (s.core w.E.core).fresh, f.cycle ≠ s.now) :
    ({ w with s := s } : Work).look e = s.fmtEntry w.E.core w.E.ctx e := by
  have hn : (s.core w.E.core).fresh.find? (fun f => f.ctx = w.E.ctx && f.entry = e && f.cycle = s.now && f.tid ≠ w.tid) = none := by
    rw [List.find?_eq_none]
    intro f hm hc
    obtain ⟨⟨-, h3⟩, -⟩ : ((f.ctx = w.E.ctx ∧ f.entry = e) ∧ f.cycle = s.now) ∧ f.tid ≠ w.tid := by simpa using hc
    exact h f hm h3
  unfold Work.look State.lookFor
  dsimp only
  rw [hn]

/-! ### fset -/

/-- An fset that issues names an entry from 16 on (R165, R182). -/
theorem issues_fset_entry {f : X} {s : State} {w : Work} (h : issues (insX 0x50 f) s w) : 16 ≤ (insX 0x50 f).fmt := by
  obtain ⟨-, -, -, -, -, hchecks, -⟩ := gate_go h.1
  have hb : (if decide (16 ≤ (insX 0x50 f).fmt) = true then none else some (insX 0x50 f).fmt) = none := badEntry_none hchecks
  by_contra hc
  simp [hc] at hb

/-- What the split of an fset holds once the entry is written. -/
def Work.fsetDone (w : Work) (s : State) (n : Ins) : Work :=
  { w with s := s.fset w.E.core w.E.ctx w.tid n.fmt (BitVec.ofNat 64 (w.src64 true n n.sa (lowLane w.act))), T := w.T.noteFset s s.tick }

/-- An fset that issues writes its entry and completes at the next word. -/
theorem fset_completes {f : X} {s : State} {w : Work} (h : issues (insX 0x50 f) s w) :
    let n := insX 0x50 f
    let b := w.fsetDone s n
    ∃ t x, exec (.fset f) s = .next t ∧ Completes b.s b [] 0#32 [] (nextWord n w) t x ∧ ∀ e ∈ b.s.agenda, e ∈ t.agenda := by
  intro n b
  obtain rfl := (gate_go h.1).2.1
  obtain ⟨x, hx⟩ := Work.finish_completes (n := n) (outs := []) (w := b) rfl (Work.Does.refl b) fun r i _ => by simp
  exact ⟨_, x, run_done h.1 (ifActive_of h.2), hx, fun e he => Work.mem_finish n he⟩

/-! ### The home and the copies -/

/-- What the front ends look at again is on the agenda alone. -/
theorem notePreload_only (s : State) (f : Nat → Bool) : OnlyAgenda s (s.notePreload f) := foldl_at_only _ _ _ _

theorem mem_notePreload {s : State} (f : Nat → Bool) {e : Timed} (h : e ∈ s.agenda) : e ∈ (s.notePreload f).agenda :=
  foldl_rel (p := fun s t : State => e ∈ s.agenda → e ∈ t.agenda) (fun _ => id) (fun h k => k ∘ h) (fun _ _ h => mem_at.2 (.inr h)) _ _ h

/-- A numbered event for each entry of a list changes the agenda and the counter alone. -/
theorem foldl_bump_at_only (due : State → Nat → Nat) (ev : Nat → Ev) (l : List Nat) (s : State) :
    let t := l.foldl (fun s k => s.bump.at_ (due s k) (ev k)) s
    t = { s with tick := t.tick, agenda := t.agenda } :=
  foldl_rel (p := fun s t : State => t = { s with tick := t.tick, agenda := t.agenda }) (fun _ => rfl)
    (fun {a b c} h k => by rw [k, h]) (fun _ _ => rfl) l s

theorem mem_foldl_bump_at (due : State → Nat → Nat) (ev : Nat → Ev) (l : List Nat) (s : State) :
    let t := l.foldl (fun s k => s.bump.at_ (due s k) (ev k)) s
    (∀ e ∈ s.agenda, e ∈ t.agenda) ∧ ∀ k ∈ l, ∃ d, ⟨d, ev k⟩ ∈ t.agenda := by
  induction l generalizing s with
  | nil => exact ⟨fun _ h => h, nofun⟩
  | cons a l ih =>
    obtain ⟨hkept, hnew⟩ := ih (s.bump.at_ (due s a) (ev a))
    refine ⟨fun e he => hkept e (mem_at.2 (.inr he)), fun k hk => ?_⟩
    rcases List.mem_cons.1 hk with rfl | hk
    · exact ⟨_, hkept _ (mem_at.2 (.inl rfl))⟩
    · exact hnew k hk

/-- The home takes a write and sends a broadcast of it to each core that holds a copy (R159). -/
theorem formatWriteAtHome_takes (s : State) (c core e : Nat) (v : DWord) (id : Nat) :
    ∃ t, exec (.formatWriteAtHome c core e v id) s = .next t
      ∧ (∀ k, t.contexts.find? k = if k = c then (s.contexts.find? c).map fun x => { x with fmt := x.fmt.set e v } else s.contexts.find? k)
      ∧ (∀ k, k ∈ s.coresOf c → ∃ due, ⟨due, .formatBroadcastApply c k e v id⟩ ∈ t.agenda)
      ∧ t = { s with tick := t.tick, agenda := t.agenda, contexts := t.contexts } := by
  let due (s : State) (k : Nat) : Nat := max (s.lastBroadcast c k) (s.now + Config.pathCycles s.tick % 3584)
  let ev (k : Nat) : Ev := .formatBroadcastApply c k e v id
  let s1 := s.modCtx c fun x => { x with fmt := x.fmt.set e v }
  have hpre := notePreload_only (s.fmtHome c e v id) (· = id)
  have honly : s.fmtHome c e v id = { s1 with tick := (s.fmtHome c e v id).tick, agenda := (s.fmtHome c e v id).agenda } :=
    foldl_bump_at_only due ev (s1.coresOf c) s1
  obtain ⟨-, hsent⟩ := mem_foldl_bump_at due ev (s1.coresOf c) s1
  refine ⟨_, rfl, fun k => ?_, fun k hk => ?_, ?_⟩
  · rw [hpre, honly]
    by_cases hk : k = c
    · subst hk
      rw [if_pos rfl]
      exact Tab.find?_modify_same _ _ _
    · rw [if_neg hk]
      exact Tab.find?_modify_other _ _ hk
  · obtain ⟨d, hd⟩ := hsent k hk
    exact ⟨d, mem_notePreload _ hd⟩
  · rw [hpre, honly]
    rfl

/-- What a core makes of a broadcast (R159, R160). -/
def Core.hears (c : Core) (ctx e id : Nat) (v : DWord) : Core :=
  if c.echo.contains (ctx, e, id) then { c with echo := c.echo.filter (· ≠ (ctx, e, id)) }
  else if c.echo.any fun x => x.1 = ctx && x.2.1 = e then c
  else { c with fts := c.fts.put ctx (((c.fts.find? ctx).getD []).set e v) }

theorem hears_echo {c : Core} {ctx e id : Nat} (v : DWord) (h : c.echo.contains (ctx, e, id) = true) :
    c.hears ctx e id v = { c with echo := c.echo.filter (· ≠ (ctx, e, id)) } := if_pos h

theorem hears_awaiting {c : Core} {ctx e id : Nat} (v : DWord) (h : c.echo.contains (ctx, e, id) = false)
    (ha : ∃ x ∈ c.echo, x.1 = ctx ∧ x.2.1 = e) : c.hears ctx e id v = c := by
  have hany : (c.echo.any fun x => x.1 = ctx && x.2.1 = e) = true := by simpa using ha
  rw [Core.hears, h, if_neg Bool.false_ne_true, if_pos hany]

theorem hears_takes {c : Core} {ctx e : Nat} (id : Nat) (v : DWord) (ha : ∀ x ∈ c.echo, ¬(x.1 = ctx ∧ x.2.1 = e)) :
    c.hears ctx e id v = { c with fts := c.fts.put ctx (((c.fts.find? ctx).getD []).set e v) } := by
  have hecho : ¬ c.echo.contains (ctx, e, id) = true := fun h => ha _ (List.contains_iff_mem.1 h) ⟨rfl, rfl⟩
  have hany : ¬ (c.echo.any fun x => x.1 = ctx && x.2.1 = e) = true := fun h => by
    obtain ⟨x, hx, hxe⟩ := List.any_eq_true.1 h
    exact ha x hx (by simpa using hxe)
  rw [Core.hears, if_neg hecho, if_neg hany]

theorem formatBroadcastApply_hears (s : State) (c core e : Nat) (v : DWord) (id : Nat) :
    ∃ t, exec (.formatBroadcastApply c core e v id) s = .next t ∧ t = { s with cores := t.cores, tick := t.tick, agenda := t.agenda }
      ∧ ∀ k, t.core k = if k = core then (s.core core).hears c e id v else s.core k := by
  have hpre := notePreload_only (s.modCore core fun x => x.hears c e id v) (· = id)
  refine ⟨(s.modCore core fun x => x.hears c e id v).notePreload (· = id), rfl, ?_, fun k => ?_⟩
  · rw [hpre]
    rfl
  · exact (congrArg (State.core · k) hpre).trans (State.core_modCore s core k fun x => x.hears c e id v)

end Machine

/-- Settles O9, a clause for each instruction and each event. -/
theorem formatEntriesAndBroadcast : Obligations.FormatEntriesAndBroadcast := by
  refine ⟨fun f s w h => ?_, fun f => pair_completes fun _ => rfl, fun s w e => look_settled e, formatWriteAtHome_takes, fun s c core e v id => ?_⟩
  · intro v s1
    have h16 := issues_fset_entry h
    obtain ⟨t, x, ht, hx, hagenda⟩ := fset_completes h
    obtain ⟨hs, -⟩ := work_fields hx.split
    have hcores : t.cores = s1.cores := by rw [hx.module]; rfl
    have hentry (k c e : Nat) : t.fmtEntry k c e = s1.fmtEntry k c e := by rw [State.fmtEntry, State.core, hcores]; rfl
    refine ⟨t, x, ht, hx, ?_, fun k c e hne => ?_, fun hfresh k => ?_, ?_, ?_⟩
    · rw [hentry, fset_fmtEntry _ _ _ _ _ _ _ h16, if_pos rfl]
    · rw [hentry, fset_fmtEntry_other _ _ _ _ _ _ hne]
    · have hlook : ({ x with tid := k } : Work).look (insX 0x50 f).fmt = s1.lookFor w.E.core w.E.ctx k (insX 0x50 f).fmt := by
        unfold Work.look State.lookFor State.fmtEntry State.core
        rw [hs, hx.ensemble, hcores, hx.module]
        rfl
      rw [hlook, fset_lookFor _ _ _ _ _ _ h16 hfresh]
    · rw [hx.module]
      rfl
    · obtain ⟨due, hdue⟩ := fset_sends s w.E.core w.E.ctx w.tid (insX 0x50 f).fmt v
      exact ⟨due, hagenda _ hdue⟩
  · obtain ⟨t, ht, honly, hcore⟩ := formatBroadcastApply_hears s c core e v id
    have hown := (hcore core).trans (if_pos rfl)
    exact ⟨t, ht, honly, fun k hk => (hcore k).trans (if_neg hk), fun h => hown.trans (hears_echo v h), fun h => hown.trans (hears_takes id v h),
      fun h ha => hown.trans (hears_awaiting v h ha)⟩

end Sys2Proof
end

section
/-! The format table in memory (O17): fsave and fload (R183). -/

namespace Sys2Proof

open Machine

namespace Machine

/-- A translation leaves the format entries that a split reads. -/
theorem OnlyTlbs.look {w : Work} {s1 : State} (h : OnlyTlbs w.s s1) (e : Nat) : ({ w with s := s1 } : Work).look e = w.look e := by
  unfold Work.look State.lookFor State.fmtEntry
  dsimp only
  rw [h.core w.E.core, h.eq]
  rfl

/-- The write of a split whose acknowledgement is awaited, and its requests, once the bytes stand in memory (R313, R378). -/
theorem unacked_does {w : Work} {s2 : State} (h : OnlyStores w.s s2) (new : List Sent) :
    let x := (({ w with s := s2 } : Work).unacked).request new
    let b : Work := { w with s := x.s.caches.on { w.s with mem := s2.mem }, T := { w.T with unacked := w.T.unacked ++ [w.s.tick] } }
    b.Does x 0#32 [] ∧ ∀ r i, x.now r i = b.now r i := by
  intro x b
  have hs2 : s2 = { s2.caches.on w.s with mem := s2.mem, agenda := s2.agenda } := h
  have htick : s2.tick = w.s.tick := by rw [hs2]; rfl
  have hT : x.T = { w.T with unacked := w.T.unacked ++ [w.s.tick] } := by rw [← htick]; rfl
  have hx : x.s = { s2.bump with cores := x.s.cores, agenda := x.s.agenda } := request_only s2.bump w.E.core w.T.quarter w.tid new
  refine ⟨⟨?_, rfl, rfl, ?_, rfl, rfl, rfl⟩, fun r i => Work.now_congr ?_ rfl ?_ rfl r i⟩
  · simp only [b]
    generalize x.s = u at *
    rw [hx, hs2]
    rfl
  · rw [hT]; simp [b]
  · rw [hT]
  · rw [hT]

section Table
variable {n : Ins} {acc : Access} {body : Nat → Work → List Mapped → Eff} {s : State} {w : Work}

/-- fsave and fload trap at an address that is not a multiple of 64 (R183). -/
theorem tableBody_misaligned {i : Instr} (he : exec i s = run n (tableBody n acc body) s) (h : issues n s w) (hf : w.memHeld = false)
    (hm : w.pairAddr n (lowLane w.act) % 64 ≠ 0) :
    exec i s = w.trap n { cause := 0x07, info := lowLane w.act, addr := w.pairAddr n (lowLane w.act) } := by
  rw [he]
  refine run_trap h.1 ((ifActive_of h.2).trans ?_)
  dsimp only
  rw [hf, if_neg Bool.false_ne_true, if_pos hm]

/-- At an aligned address that reaches memory they do what they do to the pages (R183). -/
theorem tableBody_reaches {ok : Nat → Bool} (hok : ok = fun _ => true) {ms : List Mapped} {s1 : State} (h : issues n s w)
    (hm : w.pairAddr n (lowLane w.act) % 64 = 0)
    (hr : ReachesOne w acc ok 512 (pagesOf (w.pairAddr n (lowLane w.act)) 512) ms s1) :
    tableBody n acc body w = body (w.pairAddr n (lowLane w.act)) { w with s := s1 } ms := by
  subst hok
  refine (ifActive_of h.2).trans ?_
  dsimp only
  rw [hr.free, if_neg Bool.false_ne_true, if_neg (not_not.2 hm)]
  exact (single_reaches hr _).1

variable {va : Nat} {ms : List Mapped}

/-- Byte `k` of a table lies in sector `k / 32` of its pages. -/
theorem tableByte_sector (h : va % 64 = 0) (hl : ms.length = (pagesOf va 512).length) {k : Nat} (hk : k < 512) :
    ∃ hj : k / 32 < (tableSectors va ms).length, (tableSectors va ms)[k / 32].pa + k % 32 = tableByte va ms k := by
  obtain ⟨hlen, hget⟩ := tableSectors_get h hl
  refine ⟨by omega, ?_⟩
  rw [hget _ (by omega) _ (Nat.mod_lt _ (by decide)), Nat.div_add_mod]

/-- The sectors of a table in pages that are aligned to sectors are aligned. -/
theorem tableSectors_aligned (h : ∀ m ∈ ms, m.pa % 32 = 0) : ∀ m ∈ tableSectors va ms, m.pa % 32 = 0 := by
  intro m hm
  obtain ⟨p, hp, hm⟩ := List.mem_flatMap.1 hm
  obtain ⟨k, -, rfl⟩ := List.mem_map.1 hm
  have := h p.1 (List.of_mem_zip hp).1
  dsimp only
  omega

/-- The sectors of a table, by the bytes that they begin with. -/
theorem tableSectors_map (h : va % 64 = 0) (hl : ms.length = (pagesOf va 512).length) :
    (tableSectors va ms).map (·.pa / 32) = (List.range 16).map fun j => tableByte va ms (32 * j) / 32 := by
  obtain ⟨hlen, hget⟩ := tableSectors_get h hl
  refine List.ext_getElem (by simpa using hlen) fun j h1 h2 => ?_
  have hj : j < (tableSectors va ms).length := by simpa using h1
  have hb := hget j hj 0 (by decide)
  simp only [Nat.add_zero] at hb
  simp [hb]

end Table

/-! ### fsave -/

/-- The bytes of the table as a split sees it (R183). -/
def Work.tableBytes (w : Work) : List Byte := (List.range 64).flatMap fun k => natLE 8 (w.look k).toNat

theorem length_tableBytes (w : Work) : w.tableBytes.length = 512 := (getD_pieces _ (fun _ => length_natLE _ _) 64 0 (by decide)).2

theorem tableBytes_getD (w : Work) {k : Nat} (hk : k < 512) :
    w.tableBytes.getD k 0 = BitVec.ofNat 8 ((w.look (k / 8)).toNat / 2 ^ (8 * (k % 8))) :=
  (getD_pieces _ (fun _ => length_natLE _ _) 64 k hk).1.trans (getD_natLE _ _ _ (Nat.mod_lt _ (by decide)))

/-- Memory once a table has been stored in its pages: its bytes, where no two of them lie at one address, and every other byte as before. -/
theorem storeSectors_table {va : Nat} {ms : List Mapped} (h : va % 64 = 0) (hl : ms.length = (pagesOf va 512).length) (core : Nat)
    {bs : List Byte} (hb : bs.length = 512) {s : State} (hs : Inv s) :
    let t := storeSectors core (tableSectors va ms) bs s
    (∀ a, (∀ k, k < 512 → tableByte va ms k ≠ a) → t.mem.read a = s.mem.read a)
    ∧ ((∀ j k, j < 512 → k < 512 → tableByte va ms j = tableByte va ms k → j = k) →
        ∀ k, k < 512 → t.mem.read (tableByte va ms k) = bs.getD k 0) := by
  obtain ⟨hlen, hget⟩ := tableSectors_get h hl
  obtain ⟨hother, hsame⟩ := storeSectors_mem core (tableSectors va ms) bs (by rw [hb, hlen]) s hs
  refine ⟨fun a ha => hother a fun j hj k hk => ?_, fun hinj k hk => ?_⟩
  · rw [hget j hj k hk]
    exact ha _ (by omega)
  · obtain ⟨hj, hbyte⟩ := tableByte_sector h hl hk
    rw [← hbyte, hsame (fun i j hi hj k n hk hn he => ?_) _ hj _ (Nat.mod_lt _ (by decide)), Nat.div_add_mod]
    rw [hget i hi k hk, hget j hj n hn] at he
    exact hinj _ _ (by omega) (by omega) he

/-- fsave at pages that it reaches completes with its table in memory (R183). -/
theorem fsave_completes {f : X} {s : State} {w : Work} {ms : List Mapped} {s1 : State} (h : issues (insX 0x52 f) s w) :
    let n := insX 0x52 f
    let va := w.pairAddr n (lowLane w.act)
    va % 64 = 0 → ReachesOne w .store (fun _ => true) 512 (pagesOf va 512) ms s1 →
      ∃ (c : Caches) (m : Memory) (t : State) (x : Work),
        let b : Work := { w with s := c.on { s with mem := m }, T := { w.T with unacked := w.T.unacked ++ [s.tick] } }
        exec (.fsave f) s = .next t ∧ Completes b.s b [] 0#32 [] (nextWord n w) t x
        ∧ ∃ u : State, u.mem = s.mem ∧ t.mem = (storeSectors w.E.core (tableSectors va ms) w.tableBytes u).mem := by
  intro n va hm hr
  obtain rfl := (gate_go h.1).2.1
  have htlb := (single_reaches hr (fsaveAt va)).2
  let x1 := s1.pathsOf w.E.core true false (tableSectors va ms)
  have hpath : OnlyPaths s1 x1.1 := pathsOf_only _ _ _ _ _
  let s2 := storeSectors w.E.core (tableSectors va ms) w.tableBytes x1.1
  have hstores : OnlyStores w.s s2 := (htlb.eq.trans hpath.caches).stores.trans (storeSectors_only _ _ _ _)
  let y := (({ w with s := s2 } : Work).unacked).request (sentFor s2.tick true x1.2)
  have hbytes : ({ w with s := s1 } : Work).tableBytes = w.tableBytes := by
    unfold Work.tableBytes
    simp only [htlb.look]
  have hbody : tableBody n .store fsaveAt w = .done y := by
    rw [tableBody_reaches rfl h hm hr]
    show fsaveAt va { w with s := s1 } ms = _
    simp only [y, s2, ← hbytes]
    rfl
  obtain ⟨hd, hnow⟩ := unacked_does hstores (sentFor s2.tick true x1.2)
  obtain ⟨t, x, ht, hx⟩ := completes_of_done (i := .fsave f) (outs := []) rfl h.1 hbody hd fun r i _ => by simpa using hnow r i
  refine ⟨_, s2.mem, t, x, ht, hx, x1.1, ?_, ?_⟩
  · rw [hpath]
    exact htlb.mem
  · rw [hx.module]
    rfl

/-! ### fload -/

/-- fload at pages that it reaches waits for its read of them, of which the core's L1 holds no sector (R183). -/
theorem fload_waits {f : X} {s : State} {w : Work} {ms : List Mapped} {s1 : State} (h : issues (insX 0x53 f) s w) :
    let n := insX 0x53 f
    let va := w.pairAddr n (lowLane w.act)
    va % 64 = 0 → ReachesOne w .load (fun _ => true) 512 (pagesOf va 512) ms s1 →
      (∀ k, k < 512 → (s.core w.E.core).l1Find (tableByte va ms k / 32) = none) → (∀ m ∈ ms, m.pa % 32 = 0) →
      ∃ (c : Caches) (t : State) (x : Work),
        let b : Work := { w with s := c.on s }
        exec (.fload f) s = .next t
        ∧ Waits b.s b n (.fload s.tick ((List.range 48).map fun k => BitVec.ofNat 64 (s.peek64 (tableByte va ms (128 + 8 * k)))))
            [w.pendOf true (distinct ((List.range 16).map fun j => tableByte va ms (32 * j) / 32)).length 0#32 []] t x := by
  intro n va hm hr hl1 hal
  obtain rfl := (gate_go h.1).2.1
  have htlb := (single_reaches hr (floadAt n va)).2
  have hl := hr.parts
  let x1 := s1.pathsOf w.E.core false true (tableSectors va ms)
  have hpath : OnlyPaths s1 x1.1 := pathsOf_only _ _ _ _ _
  let r := loadSectors w.E.core (tableSectors va ms) x1.1
  have hcaches : OnlyCaches w.s r.1 := (htlb.eq.trans hpath.caches).trans (loadSectors_only _ _ _)
  have htick : r.1.tick = w.s.tick := by rw [hcaches]; rfl
  have hfrom : L1From w.E.core w.s x1.1 := by
    refine ⟨by rw [hpath]; exact htlb.mem, fun k d hk => .inl ?_⟩
    rw [hpath.core, Core.l1Find, htlb.l1] at hk
    exact hk
  have hread : r.2 = (tableSectors va ms).flatMap fun m => natLE 32 (leNat (w.s.peek m.pa 32)) := by
    refine loadSectors_from _ hfrom fun m hmem => ⟨?_, tableSectors_aligned hal m hmem⟩
    obtain ⟨j, hj, rfl⟩ := List.mem_iff_getElem.1 hmem
    obtain ⟨hlen, hget⟩ := tableSectors_get hm hl
    have hb := hget j hj 0 (by decide)
    simp only [Nat.add_zero] at hb
    rw [hb]
    exact hl1 _ (by omega)
  have hcount : x1.2.length = (distinct ((List.range 16).map fun j => tableByte va ms (32 * j) / 32)).length := by
    rw [← List.length_map (f := (·.1)), pathsOf_sectors, tableSectors_map hm hl]
  let p := w.pendOf true x1.2.length 0#32 []
  let y := (({ w with s := r.1 } : Work).holdFor p).request (sentFor w.s.tick false x1.2)
  have hpend : ({ w with s := r.1 } : Work).pendOf true x1.2.length 0#32 [] = p := by
    unfold p Work.pendOf
    rw [← htick]
  have hbody : tableBody n .load (floadAt n) w
      = .raw (y.suspend n (.fload w.s.tick ((List.range 48).map fun k => BitVec.ofNat 64 (w.s.peek64 (tableByte va ms (128 + 8 * k)))))) := by
    rw [tableBody_reaches rfl h hm hr, ← fload_entries hm hl w.s r.2 hread]
    simp only [y, ← hpend, ← htick]
    rfl
  have hy : y.s = { r.1.bump with cores := y.s.cores, agenda := y.s.agenda } := request_only r.1.bump w.E.core w.T.quarter w.tid _
  have hs : y.s = { y.s.caches.on w.s with tick := y.s.tick, agenda := y.s.agenda } := by
    generalize y.s = u at *
    rw [hy, hcaches]
    rfl
  obtain ⟨x, hx⟩ := suspend_waits (w := { w with s := y.s.caches.on w.s }) (x := y) (n := n) (pends := [p]) rfl
    (congrArg (fun u => ({ w with s := u, T := { w.T with pend := w.T.pend ++ [p] } } : Work)) hs)
  exact ⟨_, _, x, run_raw h.1 hbody, by rw [← hcount]; exact hx⟩

end Machine

/-- Settles O17: the trap of both by `tableBody_misaligned`, and what each does to its table by `fsave_completes` and `fload_waits`. -/
theorem formatTables : Obligations.FormatTables := by
  refine ⟨fun f s w h => ⟨tableBody_misaligned rfl h, fun hm ms s1 hr _ => ?_⟩,
    fun f s w h => ⟨tableBody_misaligned rfl h, fun hm ms s1 hr hk => fload_waits h hm hr fun k hk' => (hk k hk').2⟩⟩
  obtain ⟨c, m, t, x, ht, hx, u, hu, hmem⟩ := fsave_completes h hm hr
  refine ⟨c, m, t, x, ht, hx, fun hs => ?_⟩
  have hsu : Inv u := by unfold Inv; rw [hu]; exact hs
  obtain ⟨hother, hsame⟩ := storeSectors_table hm hr.parts w.E.core (length_tableBytes w) hsu
  rw [hmem]
  exact ⟨fun a ha => (hother a ha).trans (by rw [hu]), fun hinj k hk => (hsame hinj k hk).trans (tableBytes_getD w hk)⟩

end Sys2Proof
end

section
/-! Windows and batches (O54): where the forms of R268 to R270, R272 and R273 complete. -/

namespace Sys2Proof

open Machine

namespace Machine

theorem win_modWin (e : Ensemble) (k : Nat) (f : Window → Window) : (e.modWin k f).win k = f (e.win k) := by
  simp [Ensemble.win, Ensemble.modWin]

section
variable {f : X} {s : State} {w : Work} {k : Nat}

theorem window_idle (h2 : (w.E.win k).state ≠ 2) (h5 : (w.E.win k).state ≠ 5) : (w.E.win k).busy = false := by
  simpa [Window.busy] using ⟨h2, h5⟩

/-- A wbind whose checks were passed 24 cycles ago binds its window (R268). -/
theorem wbind_binds {d : Nat} {r : BitVec 512} (h : issues (insX 0x94 f) s w)
    (hidle : (w.E.win ((insX 0x94 f).mod % 32)).busy = false) (hw : w.S.wait = .bind d r) :
    ∃ E t x, exec (.wbind f) s = .next t
      ∧ Completes s { w with E := E, S := { w.S with wait := .none } } [] 0#32 [] (nextWord (insX 0x94 f) w) t x
      ∧ (E.win ((insX 0x94 f).mod % 32)).record = r := by
  obtain rfl := (gate_go h.1).2.1
  let E := w.E.bindWin ((insX 0x94 f).mod % 32) (w.fmt (recFmt r)).width r
  have hb : opWbind (insX 0x94 f) w = .done { w with E := E, S := { w.S with wait := .none } } := by
    refine (ifActive_of h.2).trans ?_
    simp only [hw, hidle, Bool.false_eq_true, if_false]
    rfl
  obtain ⟨t, x, ht, hx⟩ := completes_changed (i := .wbind f) rfl h.1 hb rfl
  exact ⟨E, t, x, ht, hx, by rw [show E.win _ = _ from win_modWin _ _ _]⟩

/-- A wbind whose checks pass at issue holds its split for 24 cycles (R268). -/
theorem wbind_waits {r : BitVec 512} (h : issues (insX 0x94 f) s w) (hidle : (w.E.win ((insX 0x94 f).mod % 32)).busy = false)
    (hw : w.S.wait = .none) (hm : w.memHeld = false) :
    let n := insX 0x94 f
    let a := w.stageAddr n n.sa (lowLane w.act)
    r = BitVec.ofNat 512 (leNat (w.E.stageRead a 64)) → a % 64 = 0 → a + 64 ≤ w.E.size →
      bindCheck w.E (n.mod % 32) (w.fmt (recFmt r)).width r = none →
        ∃ t x, exec (.wbind f) s = .next t ∧ t.work w.tid w.ent = some x ∧ x.S.wait = .bind (s.now + 24) r := by
  rintro n a rfl ha hsize hc
  obtain rfl := (gate_go h.1).2.1
  let r := BitVec.ofNat 512 (leNat (w.E.stageRead a 64))
  let b : Work := { w with S := { w.S with wait := .bind (w.s.now + 24) r, earliest := w.s.now + 24 } }
  have hb : opWbind n w = .raw b.commit := by
    refine (ifActive_of h.2).trans ?_
    simp only [hw, hm, Bool.false_eq_true, if_false]
    rw [if_neg (not_not.2 ha), if_neg (Nat.not_lt.2 hsize), hidle, if_neg Bool.false_ne_true]
    rw [hc]
  exact ⟨_, _, run_raw h.1 hb, Work.work_commit b, rfl⟩

/-- A wset of a bound window in no copy whose value passes its check writes the record's field (R269). -/
theorem wset_sets {v : Nat} {r : BitVec 512} (h : issues (insX 0x95 f) s w) (h0 : (w.E.win ((insX 0x95 f).mod % 32)).state ≠ 0)
    (hidle : (w.E.win ((insX 0x95 f).mod % 32)).busy = false)
    (hv : v = if (insX 0x95 f).mod / 32 = 5 then w.src64 true (insX 0x95 f) (insX 0x95 f).sa (lowLane w.act)
      else (w.src true (insX 0x95 f) (insX 0x95 f).sa 0 (lowLane w.act)).toNat)
    (hr : wsetRecord w.E ((insX 0x95 f).mod / 32) v (w.E.win ((insX 0x95 f).mod % 32)).record = .ok r) :
    ∃ E t x, exec (.wset f) s = .next t ∧ Completes s { w with E := E } [] 0#32 [] (nextWord (insX 0x95 f) w) t x
      ∧ (E.win ((insX 0x95 f).mod % 32)).record = r := by
  subst hv
  obtain rfl := (gate_go h.1).2.1
  let E := w.E.modWin ((insX 0x95 f).mod % 32) fun x => { x with record := r, state := boundState r }
  have hb : opWset (insX 0x95 f) w = .done { w with E := E } := by
    refine (ifActive_of h.2).trans ?_
    dsimp only
    rw [if_neg h0, hr]
    dsimp only
    rw [hidle]
    rfl
  obtain ⟨t, x, ht, hx⟩ := completes_changed (i := .wset f) rfl h.1 hb rfl
  exact ⟨E, t, x, ht, hx, by rw [show E.win _ = _ from win_modWin _ _ _]⟩

/-- A wrel of a window in no copy unbinds it (R270). -/
theorem wrel_unbinds (h : issues (insX 0x97 f) s w) (hidle : (w.E.win ((insX 0x97 f).mod % 32)).busy = false) :
    ∃ E t x, exec (.wrel f) s = .next t ∧ Completes s { w with E := E } [] 0#32 [] (nextWord (insX 0x97 f) w) t x
      ∧ (E.win ((insX 0x97 f).mod % 32)).state = 0 := by
  obtain rfl := (gate_go h.1).2.1
  let E := w.E.modWin ((insX 0x97 f).mod % 32) fun x => { x with state := 0 }
  have hb : opWrel (insX 0x97 f) w = .done { w with E := E } := by
    refine (ifActive_of h.2).trans ?_
    dsimp only
    rw [hidle]
    rfl
  obtain ⟨t, x, ht, hx⟩ := completes_changed (i := .wrel f) rfl h.1 hb rfl
  exact ⟨E, t, x, ht, hx, by rw [show E.win _ = _ from win_modWin _ _ _]⟩

/-- A result left to the scoreboard beside another change `b` of the split's data. -/
theorem completes_pending {i : Instr} {n : Ins} {body : Work → Eff} {b : Work} {p : Pend} {x : Work} (he : exec i s = run n body s)
    (hg : gate n s = .go w) (hb : body w = .done x)
    (hx : x = { b with s := x.s, T := { b.T with pend := b.T.pend ++ [p] } }) (hs : x.s = { b.s with tick := x.s.tick, agenda := x.s.agenda }) :
    ∃ t y, exec i s = .next t ∧ Completes b.s b [] 0#32 [p] (nextWord n b) t y := by
  refine completes_of_done he hg hb ⟨hs, by rw [hx], by rw [hx], by rw [hx]; simp, by rw [hx], by rw [hx], by rw [hx]⟩ fun r i _ => ?_
  rw [hx]
  simp only [written_nil, Option.getD_none]
  exact Work.now_congr rfl rfl rfl rfl r i

/-- A wstat leaves the window's word to the scoreboard, and clears its error if it is to (R272). -/
theorem wstat_reads (h : issues (insX 0x98 f) s w) :
    let n := insX 0x98 f
    ∃ E t x, exec (.wstat f) s = .next t
      ∧ Completes s { w with E := E } [] 0#32 [w.pendOf false 0 0#32 (w.outsOf n 1 w.act fun _ _ => (w.E.win (n.mod % 32)).word)]
          (nextWord n w) t x := by
  intro n
  obtain rfl := (gate_go h.1).2.1
  let v := (w.E.win (n.mod % 32)).word
  let E := if bitOf n.mod 5 then w.E.modWin (n.mod % 32) fun x => { x with err := false } else w.E
  have hb : opWstat n w = .done { w.later 8 0#32 n 1 (fun _ _ => v) with E := E } := by
    refine (ifActive_of h.2).trans ?_
    dsimp only [E]
    split <;> rfl
  obtain ⟨t, x, ht, hx⟩ := completes_pending (i := .wstat f) (b := { w with E := E })
    (p := w.pendOf false 0 0#32 (w.outsOf n 1 w.act fun _ _ => v)) rfl h.1 hb rfl rfl
  exact ⟨E, t, x, ht, hx⟩

/-- A bcommit closes the open batch and leaves its number to the scoreboard (R273). -/
theorem bcommit_commits (h : issues (insX 0x99 f) s w) :
    let n := insX 0x99 f
    ∃ t x, exec (.bcommit f) s = .next t
      ∧ Completes s { w with T := { w.T with batch := w.T.batch + 1 } } [] 0#32
          [w.pendOf false 0 0#32 (w.outsOf n 1 w.act fun _ _ => w.T.batch + 1)] (nextWord n w) t x := by
  intro n
  obtain rfl := (gate_go h.1).2.1
  exact completes_pending (i := .bcommit f) (b := { w with T := { w.T with batch := w.T.batch + 1 } })
    (p := w.pendOf false 0 0#32 (w.outsOf n 1 w.act fun _ _ => w.T.batch + 1)) rfl h.1 (ifActive_of h.2) rfl rfl

/-- A bwait for a batch that is done completes (R273). -/
theorem bwait_passes (h : issues (insX 0x9A f) s w)
    (hd : s.batchDone w.tid w.T (w.src true (insX 0x9A f) (insX 0x9A f).sa 0 (lowLane w.act)) = true) :
    ∃ t x, exec (.bwait f) s = .next t ∧ Completes s w [] 0#32 [] (nextWord (insX 0x9A f) w) t x := by
  obtain rfl := (gate_go h.1).2.1
  exact completes_changed (i := .bwait f) rfl h.1 ((ifActive_of h.2).trans (if_pos hd)) rfl

end

end Machine

end Sys2Proof
end

section
/-! Prefetches, invalidations and releases (O54): where the forms of R302, R303, R313 and R361 complete. -/

namespace Sys2Proof

open Machine

namespace Machine

section
variable {s : State} {w : Work}

/-- A pref touches the caches alone (R302). -/
theorem prefetches_only (w : Work) (n : Ins) (l : List Nat) (w1 : Work) :
    let x := l.foldl (fun w1 i => w.prefetch n w1 i) w1
    OnlyCaches w1.s x.s ∧ x = { w1 with s := x.s } :=
  foldl_rel (p := fun a b : Work => OnlyCaches a.s b.s ∧ b = { a with s := b.s }) (fun _ => ⟨.refl _, rfl⟩)
    (fun h k => ⟨h.1.trans k.1, by rw [k.2, h.2]⟩) (fun _ _ => prefetch_only _ _ _ _) l w1

theorem pref_completes {f : X} (h : issues (insX 0xA8 f) s w) (hm : w.memHeld = false) :
    ∃ (c : Caches) (t : State) (x : Work), exec (.pref f) s = .next t
      ∧ Completes (c.on s) { w with s := c.on s } [] 0#32 [] (nextWord (insX 0xA8 f) w) t x := by
  obtain rfl := (gate_go h.1).2.1
  obtain ⟨hs, hx⟩ := prefetches_only w (insX 0xA8 f) (lanesOf w.act) w
  have hb : opPref (insX 0xA8 f) w = .done { w with s := _ } :=
    ((ifActive_of h.2).trans (if_neg (by rw [hm]; exact Bool.false_ne_true))).trans (congrArg Eff.done (hx.trans (by rw [hs])))
  exact ⟨_, completes_of_done (i := .pref f) (outs := []) rfl h.1 hb (Work.Does.refl _) fun r i _ => by simp⟩

/-- An inval touches the TLBs, the walk caches and the core's L1 alone (R303). -/
theorem inval_completes {f : X} (h : issues (insX 0xA9 f) s w) (hm : w.memHeld = false) :
    ∃ (c : Caches) (t : State) (x : Work), exec (.inval f) s = .next t
      ∧ Completes (c.on s) { w with s := c.on s } [] 0#32 [] (nextWord (insX 0xA9 f) w) t x := by
  obtain rfl := (gate_go h.1).2.1
  let n := insX 0xA9 f
  let parts := pageParts (addr64 (w.src64 true n n.sa (lowLane w.act)) n.disp) (w.src true n n.sb 0 (lowLane w.act)).toNat
  obtain ⟨htlb, hx⟩ := physical_only w parts
  let s2 := (w.physical parts).1.s.modCore w.E.core fun c => c.l1DropIn (w.physical parts).2
  have hs : OnlyCaches w.s s2 := htlb.eq.trans (modCore_only _ _ _)
  have hb : opInval n w = .raw (({ w with s := s2 } : Work).finishAfter n (8 + parts.length)) := by
    refine (ifActive_of h.2).trans ((if_neg (by rw [hm]; exact Bool.false_ne_true)).trans ?_)
    dsimp only
    rw [hx]
  rw [hs] at hb
  obtain ⟨x, hc, -⟩ := finishAfter_completes (n := n) (w := { w with s := s2.caches.on w.s }) (outs := []) (8 + parts.length) rfl
    (Work.Does.refl _) fun r i _ => by simp
  exact ⟨_, _, x, run_raw h.1 hb, hc⟩

/-! ### rel and qsig -/

theorem notify_only (s : State) (pa : Nat) : OnlyAgenda s (s.notify pa) := foldl_at_only _ _ _ _

theorem syncWrite_only (s : State) (core pa v : Nat) : OnlyStores s (s.syncWrite core pa v) :=
  (homeWrite_only s pa _).trans (modCore_only _ _ _).stores

theorem syncWrite_mem (s : State) (core pa v : Nat) : (s.syncWrite core pa v).mem = s.mem.write pa (natLE 8 v) := State.homeWrite_mem _ _ _

theorem OnlyAgenda.stores {s t : State} (h : OnlyAgenda s t) : OnlyStores s t := by
  unfold OnlyStores
  rw [h]
  rfl

/-- A release that may go on holds in the state that its translations leave too. -/
theorem OnlyTlbs.mayRelease {w : Work} {s1 : State} (h : OnlyTlbs w.s s1) (scope : Nat) :
    ({ w with s := s1 } : Work).mayRelease scope = w.mayRelease scope := by
  unfold Work.mayRelease State.fmtFlying
  dsimp only
  rw [h.eq]
  rfl

/-- A release below system scope writes its word at once (R313, R320, R361). -/
theorem release_completes {i : Instr} {n : Ins} {sig : Bool} (he : exec i s = run n (relBody sig n) s) :
    let va := w.pairAddr n (lowLane w.act)
    let scope := w.E.scopeOf va (Scope.num n.scope)
    issues n s w → va % 8 = 0 → w.mayRelease scope = true → scope ≠ 5 →
    ∀ m s1, ReachesOne w (if n.mod = 0 then .store else .atomic) (relOk sig n.mod) 8 [va] [m] s1 →
      ∃ (c : Caches) (t : State) (x : Work),
        let mem := s.mem.write m.pa (natLE 8 (relNew n.mod (leNat (s.peek m.pa 8)) (w.src64 true n n.sb (lowLane w.act))))
        let b : Work := { w with s := c.on { s with mem := mem }, T := { w.T with unacked := w.T.unacked ++ [s.tick] } }
        exec i s = .next t ∧ Completes b.s b [] 0#32 [] (nextWord n w) t x := by
  intro va scope h ha hrel hscope m s1 hr
  obtain rfl := (gate_go h.1).2.1
  obtain ⟨hsingle, htlb⟩ := single_reaches hr fun w ms => relAt sig n va w ((ms.map (·.pa)).headD 0)
  let w1 : Work := { w with s := s1 }
  let r := w1.regionsOf_ false va
  obtain ⟨htlb2, hr1⟩ : OnlyTlbs s1 r.1.s ∧ r.1 = { w1 with s := r.1.s } := physical_only w1 _
  have htlbs : OnlyTlbs w.s r.1.s := htlb.trans htlb2
  let new := relNew n.mod (leNat (w.s.peek m.pa 8)) (w.src64 true n n.sb (lowLane w.act))
  let s2 := r.1.s.syncWrite w.E.core m.pa new
  let s3 := if sig then s2.notify m.pa else s2
  let s4 := (s3.writeTime w.E.core m.pa).1
  have hwrite : OnlyStores w.s s2 := htlbs.eq.stores.trans (syncWrite_only _ _ _ _)
  have hnotify : OnlyStores s2 s3 ∧ s3.mem = s2.mem := by
    simp only [s3]
    split
    · exact ⟨(notify_only _ _).stores, by rw [notify_only]⟩
    · exact ⟨.refl _, rfl⟩
  have hpath : OnlyPaths s3 s4 := writeTime_only _ _ _
  have hstores : OnlyStores w.s s4 := (hwrite.trans hnotify.1).trans hpath.caches.stores
  have hmem : s4.mem = w.s.mem.write m.pa (natLE 8 new) := by
    rw [hpath]
    exact hnotify.2.trans ((syncWrite_mem _ _ _ _).trans (by rw [htlbs.mem]))
  let new' := sentFor s3.tick true [(m.pa / 32, (s3.writeTime w.E.core m.pa).2)]
  have hb : relBody sig n w = .done ((({ w with s := s4 } : Work).unacked).request new') := by
    refine (ifActive_of h.2).trans ?_
    dsimp only
    rw [hr.free, if_neg Bool.false_ne_true, if_neg (not_not.2 ha)]
    refine hsingle.trans ?_
    show relAt sig n va w1 m.pa = _
    have hgo : w1.mayRelease scope = true := (htlb.mayRelease scope).trans hrel
    have hacts : actsOn true false scope = false := by simp [actsOn, hscope]
    have hpeek : r.1.s.peek m.pa 8 = w.s.peek m.pa 8 := by unfold State.peek; rw [htlbs.mem]
    unfold relAt
    dsimp only
    rw [show w1.mayRelease (w1.E.scopeOf va (Scope.num n.scope)) = true from hgo, if_neg (by simp),
      show actsOn true false (w1.E.scopeOf va (Scope.num n.scope)) = false from hacts, if_neg Bool.false_ne_true]
    rw [hpeek]
    exact (congrArg (fun x : Work => Eff.done (({ x with s := s3 } : Work).awaitAck m.pa)) hr1).trans rfl
  obtain ⟨hd, hnow⟩ := unacked_does hstores new'
  obtain ⟨t, x, ht, hx⟩ := completes_of_done (outs := []) he h.1 hb hd fun r i _ => by simpa using hnow r i
  rw [hmem] at hx
  exact ⟨_, t, x, ht, hx⟩

end

end Machine

end Sys2Proof
end

section
/-! A spawn (O54): where the form of R356 and R357 completes, with one of the four statuses for its result. -/

namespace Sys2Proof

open Machine

namespace Machine

/-! ### What the enqueueing of a child keeps -/

/-- The troupes are the same, and the same ensembles are there. -/
def KeepsTroupes (s t : State) : Prop :=
  t.troupes = s.troupes ∧ ∀ k, (t.ensembles.find? k).isSome = (s.ensembles.find? k).isSome

theorem KeepsTroupes.refl (s : State) : KeepsTroupes s s := ⟨rfl, fun _ => rfl⟩

theorem KeepsTroupes.trans {a b c : State} (h : KeepsTroupes a b) (k : KeepsTroupes b c) : KeepsTroupes a c :=
  ⟨k.1.trans h.1, fun e => (k.2 e).trans (h.2 e)⟩

theorem KeepsTroupes.of_eq {s t : State} (h : t.troupes = s.troupes) (k : t.ensembles = s.ensembles) : KeepsTroupes s t :=
  ⟨h, fun _ => by rw [k]⟩

theorem KeepsTroupes.modEns (s : State) (e : Nat) (f : Ensemble → Ensemble) : KeepsTroupes s (s.modEns e f) := by
  refine ⟨rfl, fun k => ?_⟩
  unfold State.modEns
  by_cases hk : k = e
  · subst hk
    rw [Tab.find?_modify_same, Option.isSome_map]
  · rw [Tab.find?_modify_other _ _ hk]

theorem OnlyStores.keepsTroupes {s t : State} (h : OnlyStores s t) : KeepsTroupes s t :=
  .of_eq (by rw [h]; rfl) (by rw [h]; rfl)

theorem admission_keepsTroupes {s t : State} {part e : Nat} (h : s.admission part e = some t) : KeepsTroupes s t := by
  unfold State.admission at h
  dsimp only at h
  split at h
  · cases h
    exact .refl s
  · split at h
    · cases h
      exact .of_eq rfl rfl
    · cases h

theorem toBuffer_keepsTroupes (s : State) (n d part : Nat) : KeepsTroupes s (s.toBuffer n d part) := by
  unfold State.toBuffer
  split
  · next s1 h =>
    split at h
    · cases h
      exact .of_eq rfl rfl
    · exact (admission_keepsTroupes h).trans (.of_eq rfl rfl)
  · exact .of_eq rfl rfl

theorem writeGreen_keepsTroupes (s : State) (c : Nat) : KeepsTroupes s (s.writeGreen c) :=
  (homeWrite_only s _ _).keepsTroupes.trans (.of_eq rfl rfl)

/-- The child's production, and what its parent counts of it. -/
theorem enqueued_keepsTroupes (s : State) (n launch parent ens : Nat) (p : Prod) (f : Launch → Launch) (g : Prod → Prod) (h : Ensemble → Ensemble) :
    KeepsTroupes s
      (((({ s with prods := s.prods.put n p } : State).bump.modProd parent g).modLaunch launch f).modEns ens h) :=
  .trans (.of_eq rfl rfl) (.modEns _ _ _)

/-- A spawn enqueues a child or refuses it; its status is one of the four of R357. -/
theorem spawnNow_keeps (s : State) (ens pa group : Nat) : KeepsTroupes s (s.spawnNow ens pa group).1 ∧ (s.spawnNow ens pa group).2 < 4 := by
  have hrefused (v : Nat) (hv : v < 4) : KeepsTroupes s (s, v).1 ∧ (s, v).2 < 4 := ⟨.refl s, hv⟩
  unfold State.spawnNow
  split
  · exact hrefused 3 (by decide)
  dsimp only
  split
  · exact hrefused 3 (by decide)
  split
  · exact hrefused 3 (by decide)
  split
  · exact hrefused 2 (by decide)
  split
  · exact hrefused 2 (by decide)
  split
  · exact ⟨(enqueued_keepsTroupes _ _ _ _ _ _ _ _ _).trans (writeGreen_keepsTroupes _ _), (by decide : 1 < 4)⟩
  · exact ⟨(enqueued_keepsTroupes _ _ _ _ _ _ _ _ _).trans (toBuffer_keepsTroupes _ _ _ _), (by decide : 0 < 4)⟩

/-- The split that spawned, once the child is enqueued: a status stands in the result that the scoreboard holds for it. -/
theorem spawnEnd_fills {s : State} {tid ent pa group pend : Nat} {x : Work} (h : s.work tid ent = some x) :
    ∃ v y, v < 4 ∧ (s.spawnEnd tid pa group pend).work tid ent = some y ∧ y.S = x.S ∧ y.T = x.T.fillPend pend (BitVec.ofNat 32 v) := by
  obtain ⟨-, -, -, -, hT, hS, hE⟩ := work_fields h
  obtain ⟨⟨ht, he⟩, hv⟩ := spawnNow_keeps s x.T.ens pa group
  refine ⟨(s.spawnNow x.T.ens pa group).2, ?_⟩
  unfold State.spawnEnd
  rw [hT]
  dsimp only
  generalize s.spawnNow x.T.ens pa group = r at ht he hv ⊢
  obtain ⟨E, hE1⟩ := Option.isSome_iff_exists.1 ((he x.T.ens).trans (by rw [hE]; rfl))
  let s1 := r.1.modTroupe tid fun t => t.fillPend pend (BitVec.ofNat 32 r.2)
  have hq : OnlyPaths s1 (readMax (s1.coreOf tid) [pa, pa + 32] s1).1 := readMax_only _ _ _
  have hT1 : s1.troupes.find? tid = some (x.T.fillPend pend (BitVec.ofNat 32 r.2)) :=
    (Tab.find?_modify_same _ _ _).trans (by rw [ht, hT]; rfl)
  refine ⟨_, hv, work_congr (s := s1) ?_ ?_ (work_of_entries hT1 hS hE1), rfl, rfl⟩
  · exact (congrArg State.troupes hq).trans rfl
  · exact (congrArg State.ensembles hq).trans rfl

/-! ### The result of a spawn -/

/-- The held result of one register differs from another's only in its values: filled with one, it is that value's result. -/
theorem fillPend_outs {T : Troupe} {ps : List Pend} {w : Work} {n : Ins} {v0 : Word}
    (hT : T.pend = ps ++ [w.pendOf false 0 0#32 (w.outsOf n 1 w.act fun _ _ => v0)]) (v : Word) :
    ∃ p ∈ (T.fillPend w.s.tick v).pend, p.id = w.s.tick ∧ p.outs = (w.pendOf false 0 0#32 (w.outsOf n 1 w.act fun _ _ => v)).outs := by
  refine ⟨_, List.mem_map_of_mem (by rw [hT]; exact List.mem_append_right _ (List.mem_singleton_self _)), ?_⟩
  have hid : (w.pendOf false 0 0#32 (w.outsOf n 1 w.act fun _ _ => v0)).id = w.s.tick := rfl
  rw [if_pos hid]
  refine ⟨rfl, ?_⟩
  unfold Work.pendOf
  dsimp only
  rw [Work.outsOf_one, Work.outsOf_one]
  simp only [List.map_map]
  refine List.map_congr_left fun d _ => ?_
  dsimp only [Function.comp]
  split <;> simp

section
variable {f : X} {s : State} {w : Work}

/-- A spawn below system scope enqueues its child at once and goes on; the scoreboard holds its status (R356, R357). -/
theorem spawn_completes : let n := insX 0xB0 f
    let va := w.pairAddr n (lowLane w.act)
    issues n s w → w.memHeld = false → va % 64 = 0 → (s.prod w.E.prod).depth < 10 → w.mayRelease (Scope.num n.scope) = true →
      Scope.num n.scope ≠ 5 → ∀ m s1, ReachesOne w .load (fun _ => true) 64 [va] [m] s1 →
        ∃ t x, exec (.spawn f) s = .next t ∧ t.work w.tid w.ent = some x ∧ x.S.pc = (nextWord n w).pc
          ∧ ∃ v, v < 4 ∧ ∃ p ∈ x.T.pend, p.id = s.tick
              ∧ p.outs = (w.pendOf false 0 0#32 (w.outsOf n 1 w.act fun _ _ => BitVec.ofNat 32 v)).outs := by
  intro n va h hm ha hdepth hrel hscope m s1 hr
  obtain rfl := (gate_go h.1).2.1
  have hreaches := single_reaches hr
  have htlb : OnlyTlbs w.s s1 := (hreaches fun _ _ => .hold).2
  have htick : s1.tick = w.s.tick := by rw [htlb.eq]; rfl
  let w1 : Work := { w with s := s1 }
  let y : Work := w1.holdFor (w1.pendOf false 0 0#32 (w1.outsOf n 1 w1.act fun _ _ => 0#32))
  have hgo : w1.mayRelease (Scope.num n.scope) = true := (htlb.mayRelease _).trans hrel
  have hacts : actsOn true false (Scope.num n.scope) = false := by simp [actsOn, hscope]
  have hb : opSpawn n w = .raw ((y.finish n).spawnEnd w.tid m.pa (n.mod % 8) s1.tick) := by
    refine (ifActive_of h.2).trans ?_
    dsimp only
    rw [hm, if_neg Bool.false_ne_true, if_neg (not_not.2 ha), if_neg (Nat.not_le.2 hdepth)]
    refine (hreaches _).1.trans ?_
    dsimp only
    rw [show ({ w with s := s1 } : Work).mayRelease (Scope.num n.scope) = true from hgo, if_neg (by simp), hacts, if_neg Bool.false_ne_true]
    rfl
  obtain ⟨x, hx, -, hpc, -, -, hpend, -, -⟩ := finish_keeps (s := s1) (w := w1) (y := y) (n := n) rfl rfl rfl rfl rfl rfl
  obtain ⟨v, z, hv, hz, hzS, hzT⟩ := spawnEnd_fills (pa := m.pa) (group := n.mod % 8) (pend := s1.tick) hx
  obtain ⟨p, hp, hid, houts⟩ := fillPend_outs (T := x.T) (w := w1) (n := n) (v0 := 0#32) hpend (BitVec.ofNat 32 v)
  exact ⟨_, z, run_raw h.1 hb, hz, by rw [hzS]; exact hpc, v, hv, p, by rw [hzT]; exact hp, hid.trans htick, houts⟩

end

end Machine

end Sys2Proof
end

section
/-! The events of the caches, of the mapping and of the memory stacks (O54): what each leaves. -/

namespace Sys2Proof

open Machine

namespace Machine

variable (s : State)

/-! ### Cache actions -/

theorem discardSector_only (k : Nat) : OnlyStores s (s.discardSector k) := by
  unfold State.discardSector
  dsimp only
  split
  · exact (writeBackSector_only s k).paths.caches.stores.trans rfl
  · generalize (List.range 32).foldl _ s.mem = m
    generalize (List.range 32).foldl _ s.stackDiff = d
    rfl

theorem discard_only (lo hi : Nat) : OnlyStores s (s.discard lo hi) :=
  foldl_rel (p := OnlyStores) .refl .trans discardSector_only _ s

theorem discardAll_only (ivs : Option (List (Nat × Nat))) : OnlyStores s (s.discardAll ivs) := by
  cases ivs with
  | none => exact discard_only s _ _
  | some l => exact foldl_rel (p := OnlyStores) .refl .trans (fun s iv => discard_only s _ _) l s

theorem writeBackAll_only (ivs : Option (List (Nat × Nat))) : OnlyStores s (s.writeBackAll ivs) := by
  cases ivs with
  | none => exact (writeBack_only s _ _).paths.caches.stores
  | some l => exact foldl_rel (p := OnlyStores) .refl .trans (fun s iv => (writeBack_only s _ _).paths.caches.stores) l s

theorem releaseActs_only (scope : Nat) (ivs : Option (List (Nat × Nat))) : OnlyStores s (s.releaseActs scope ivs) := by
  unfold State.releaseActs
  split
  · exact writeBackAll_only s ivs
  · exact .refl s

theorem l1Invalidate_only (core : Nat) (ivs : Option (List (Nat × Nat))) : OnlyStores s (s.l1Invalidate core ivs) :=
  (modCore_only s core _).stores

theorem acquireActs_only (core scope : Nat) (ivs : Option (List (Nat × Nat))) : OnlyStores s (s.acquireActs core scope ivs) := by
  unfold State.acquireActs
  split
  · exact (l1Invalidate_only s _ _).trans (discardAll_only _ _)
  split
  · exact l1Invalidate_only s _ _
  · exact .refl s

/-- The end of a cache action that nothing follows: its split goes on past its instruction (R84, R320). -/
theorem cacheActionComplete_resumes (id : Nat) :
    ∃ t, exec (.cacheActionComplete id) s = .next t ∧ ∀ a T, s.cacheActs.find? (fun a => a.id = id) = some a →
      s.troupes.find? a.tid = some T → a.after = .nothing → goesOnPast t a.tid T a.uid := by
  show ∃ t, execCacheActionComplete id s = .next t ∧ _
  unfold execCacheActionComplete
  cases hfind : s.cacheActs.find? fun a => a.id = id with
  | none => exact ⟨s, rfl, fun a _ h => by cases h⟩
  | some b =>
    dsimp only
    split
    · next hgone =>
      refine ⟨_, rfl, fun a T ha hT _ => ?_⟩
      cases ha
      rw [hT] at hgone
      cases hgone
    · refine ⟨_, rfl, fun a T ha hT hafter => ?_⟩
      cases ha
      let s0 : State := { s with cacheActs := s.cacheActs.filter fun x => x.id ≠ id }
      let s1 := if b.release then s0.releaseActs b.scope b.regions else s0
      let s2 := if b.acquire then s1.acquireActs (s.coreOf b.tid) b.scope b.regions else s1
      have h1 : OnlyStores s0 s1 := by
        simp only [s1]
        split
        · exact releaseActs_only _ _ _
        · exact .refl _
      have h2 : OnlyStores s1 s2 := by
        simp only [s2]
        split
        · exact acquireActs_only _ _ _ _
        · exact .refl _
      have hsame : s2.afterAct b (s.coreOf b.tid) = s2 := by
        unfold State.afterAct
        rw [hafter]
      have hU : s2.troupes.find? b.tid = some T := by rw [(h1.trans h2)]; exact hT
      rw [hsame]
      exact resume_past hU fun k q hq _ _ => ⟨q, hq, rfl, rfl, rfl, rfl, rfl, rfl⟩

/-! ### Mapping commits -/

variable {s}

/-- A write of MAPCMD with GO starts a commit, unless one is being checked (R420). -/
theorem mapcmdCommit_starts {v : Word} (hb : s.bootstat ≠ 2) (hgo : v.getLsbD 4 = true) (hm : s.mapping = none) :
    ∃ t, exec (.mapcmdCommit v) s = .next t ∧ t.mapStat = 1 ∧ ⟨s.now + 2112, .mapCheckComplete⟩ ∈ t.agenda := by
  have hc : ¬(s.dead ∨ bitOf v.toNat 4 = false ∨ s.mapping.isSome = true) := by
    have hbit : bitOf v.toNat 4 = true := hgo
    simp [State.dead, hb, hbit, hm]
  exact ⟨_, if_neg hc, rfl, mem_at.2 (.inl rfl)⟩

theorem scramble_mapping (m : DWord) : (s.scramble m).mapping = s.mapping := by
  unfold State.scramble
  split <;> rfl

/-- No commit is being checked once the check is complete (R420). -/
theorem mapCheckComplete_ends (s : State) : ∃ t, exec .mapCheckComplete s = .next t ∧ t.mapping = none := by
  show ∃ t, execMapCheckComplete s = .next t ∧ _
  unfold execMapCheckComplete
  split
  · next h => exact ⟨s, rfl, h⟩
  · dsimp only
    split
    · exact ⟨_, rfl, rfl⟩
    · exact ⟨_, rfl, (scramble_mapping _).trans (scramble_mapping _)⟩

/-! ### Fences -/

theorem stack_modStack (k : Nat) (f : Stack → Stack) : (s.modStack k f).stack k = f (s.stack k) := by
  unfold State.stack
  rw [State.modStack_stackTab, Tab.find?_put_same]
  rfl

/-- A fence entry is valid and holds a page. -/
def fences (e : DWord) (page : Nat) : Bool := bitOf e.toNat 63 && bvField e 51 12 = page

/-- The entry that fences a page, bit 63 set above its address (R423, R440). -/
theorem fences_entry {pa : Nat} (h : pa < 2 ^ 52) : fences (BitVec.ofNat 64 (2 ^ 63 + pa / 4096 * 4096)) (pa / 4096) = true := by
  have hlt : pa / 4096 * 4096 < 2 ^ 52 := (Nat.div_mul_le_self pa 4096).trans_lt h
  have hn : (BitVec.ofNat 64 (2 ^ 63 + pa / 4096 * 4096)).toNat = 2 ^ 63 + pa / 4096 * 4096 := by
    rw [BitVec.toNat_ofNat]
    omega
  have hbit : bitOf (2 ^ 63 + pa / 4096 * 4096) 63 = true := by
    rw [bitOf, Nat.testBit_eq_decide_div_mod_eq]
    simp only [decide_eq_true_eq]
    omega
  have hfield : field (2 ^ 63 + pa / 4096 * 4096) 51 12 = pa / 4096 := by
    rw [field, Nat.shiftRight_eq_div_pow]
    omega
  unfold fences bvField
  rw [hn, hbit, hfield]
  simp

/-- Keys that a store maps to something other than zero are listed. -/
theorem mem_store_set {w : Nat} (t : Store w) (a : Nat) {x : BitVec w} (h : x ≠ 0) : (a, x) ∈ t.set a x := by
  refine Tab.mem_of_find? ?_
  rw [Store.set, if_neg h, Tab.find?_put_same]

/-- A fenced page stands in an entry, or its whole stack is fenced (R423). -/
theorem fencePage_fences (x : Stack) {pa : Nat} (h : pa < 2 ^ 52) :
    ((x.fencePage pa).fence.any fun e => fences e.2 (pa / 4096)) = true ∨ (x.fencePage pa).allFenced = true := by
  unfold Stack.fencePage
  split
  · next hany => exact .inl hany
  · split
    · exact .inr rfl
    · next j _ =>
      have hne : BitVec.ofNat 64 (2 ^ 63 + pa / 4096 * 4096) ≠ 0 := fun h0 => by
        have := fences_entry h
        rw [h0] at this
        cases this
      exact .inl (List.any_eq_true.2 ⟨_, mem_store_set _ j hne, fences_entry h⟩)

/-- The page of a failing line is fenced (R423). -/
theorem eccUncorrectable_fences {pa ctxid : Nat} (hs : (s.stackOf pa).isSome = true) (h : pa < 2 ^ 52) :
    ∃ t, exec (.eccUncorrectable pa ctxid) s = .next t ∧ t.isFenced pa = true := by
  obtain ⟨⟨k, a⟩, hk⟩ := Option.isSome_iff_exists.1 hs
  let s1 := s.modStack k fun x => x.fencePage pa
  refine ⟨s1.report (k / 2) ⟨3, ctxid, k, pa / 4096 * 4096, 0⟩, ?_, ?_⟩
  · show execEccUncorrectable pa ctxid s = _
    unfold execEccUncorrectable
    rw [hk]
  · have hkept : (s1.report (k / 2) ⟨3, ctxid, k, pa / 4096 * 4096, 0⟩).isFenced pa = s1.isFenced pa := rfl
    have hentry : (k, (s.stack k).fencePage pa) ∈ s1.stackTab := Tab.mem_of_find? (Tab.find?_put_same _ _ _)
    have hstack : (s1.stackOf pa).map (·.1) = some k := congrArg (Option.map Prod.fst) hk
    rw [hkept]
    refine List.any_eq_true.2 ⟨_, hentry, ?_⟩
    rw [Bool.or_eq_true]
    refine (fencePage_fences (s.stack k) h).imp id fun hall => ?_
    rw [hall, hstack]
    simp

/-- The entry of a page is cleared (R440). -/
theorem fclrWrite_clears {k pa : Nat} (hb : s.bootstat ≠ 2) : ∃ t, exec (.fclrWrite k pa) s = .next t
    ∧ ∀ e ∈ (t.stack k).fence, ¬(e.2.getLsbD 63 = true ∧ bvField e.2 51 12 = bvField (BitVec.ofNat 64 pa) 51 12) := by
  let s1 := s.modStack k fun x => { x with fence := x.fence.filter fun e => !fences e.2 (bvField (BitVec.ofNat 64 pa) 51 12) }
  have hdead : ¬(s.dead = true) := by simp [State.dead, hb]
  refine ⟨s1, congrArg Host.Outcome.next (if_neg hdead), fun e he hf => ?_⟩
  rw [stack_modStack] at he
  have hkept := (List.mem_filter.1 he).2
  have hfences : fences e.2 (bvField (BitVec.ofNat 64 pa) 51 12) = true := by
    obtain ⟨hbit, hpage⟩ := hf
    rw [fences, hpage, decide_eq_true rfl, Bool.and_true]
    exact hbit
  rw [hfences] at hkept
  cases hkept

/-! ### Refresh and scrubbing -/

theorem refreshHeartbeat_beats (k : Nat) (s : State) : ∃ t, exec (.refreshHeartbeat k) s = .next t ∧ (t.stack k).beat = s.now :=
  ⟨_, rfl, congrArg Stack.beat (stack_modStack (s := s) k fun x => { x with beat := s.now })⟩

/-- Four marks without a heartbeat: the interface has taken over (R424). -/
theorem refreshTakeover_takes {k : Nat} (h : (s.stack k).beat + s.nsCycles k 2048 ≤ s.now) :
    ∃ t, exec (.refreshTakeover k) s = .next t ∧ (t.stack k).takeover = true := by
  show ∃ t, execRefreshTakeover k s = .next t ∧ _
  unfold execRefreshTakeover
  dsimp only
  split
  · next hc => exact ⟨s, rfl, hc.resolve_right (Nat.not_lt.2 h)⟩
  · exact ⟨_, rfl, congrArg Stack.takeover (stack_modStack (s := s) k fun y => { y with takeover := true })⟩

theorem refresh_counts (k : Nat) (s : State) : ∃ t, exec (.refresh k) s = .next t ∧ (t.stack k).refreshes = (s.stack k).refreshes + 1 :=
  ⟨_, rfl, congrArg Stack.refreshes (stack_modStack (s := s) k fun x => { x with refreshes := x.refreshes + 1 })⟩

theorem baseDieReset_takesBack (k : Nat) (s : State) : ∃ t, exec (.baseDieReset k) s = .next t ∧ (t.stack k).takeover = false :=
  ⟨_, rfl, congrArg Stack.takeover (stack_modStack (s := s) k fun x => { x with takeover := false, beat := s.now })⟩

theorem scrub_counts {k : Nat} (h : (s.stack k).takeover = false) :
    ∃ t, exec (.scrub k) s = .next t ∧ (t.stack k).scrubbed = (s.stack k).scrubbed + 1 :=
  ⟨_, if_neg (by rw [h]; exact Bool.false_ne_true),
    congrArg Stack.scrubbed (stack_modStack (s := s) k fun x => { x with scrubbed := x.scrubbed + 1 })⟩

end Machine

end Sys2Proof
end

section
/-! Every event of the module but the eight that may take a trap at once has a next state (O54). -/

namespace Sys2Proof

open Machine

namespace Machine

/-- An event's meaning is a tree of cases; each leaf but those of the events that may trap is a next state. The events without cases come
first, then the others by the part of the module that they belong to. -/
theorem event_answers (i : Instr) (s : State) (hv : i.view = none) (hundef : ∀ v, i ≠ .undefinedInstruction v)
    (hbeyond : ∀ b, i ≠ .fetchBeyondOverlay b) (habsent : i ≠ .fetchOverlayAbsent) (hland : ∀ a b, i ≠ .sectorLanding a b)
    (hcontrib : ∀ a b, i ≠ .reduceContribution a b) (hraise : ∀ d t, i ≠ .frplyRaise d t) (hacq : ∀ a, i ≠ .acqWaitSuccess a)
    (hpoll : ∀ a, i ≠ .acqPoll a) : ∃ t, exec i s = .next t := by
  cases i
  case undefinedInstruction v => exact absurd rfl (hundef v)
  case fetchBeyondOverlay b => exact absurd rfl (hbeyond b)
  case fetchOverlayAbsent => exact absurd rfl habsent
  case sectorLanding a b => exact absurd rfl (hland a b)
  case reduceContribution a b => exact absurd rfl (hcontrib a b)
  case frplyRaise d t => exact absurd rfl (hraise d t)
  case acqWaitSuccess a => exact absurd rfl (hacq a)
  case acqPoll a => exact absurd rfl (hpoll a)
  all_goals cases hv
  case scoreboardResultWrite | storeAcknowledge | imageLoad | formatWriteAtHome | formatBroadcastApply | copyStart
      | energyIntervalStart | cuearmAtDesk | contextSwitch | coreFence | fclrWrite | refreshHeartbeat | baseDieReset | lnkctlRetrain | helyelRead
      | helyelWrite | helyelAtomicAdd | helyelCompareAndSwap | helyelFencedWrite | helyelResponse | energyFold | capApplication
      | thermalEvent | currentLimitEvent | setHallCap | hallCapExpiry | evheadWrite | backInvalidateSnoop | moduleReset | registerWrite
      | refresh | flitCrcFailure | spdmMeasurementRequest =>
    exact ⟨_, rfl⟩
  case loadSectorReturn tid id => exact execLoadSectorReturn_next tid id s
  case fixedLatencyWrite | reconvergenceFusion | rejoinRelease | splitSwapBack | splitExchange | troupeEnd | tbwaitWake
      | swapBackReadComplete =>
    dsimp only [exec, execFixedLatencyWrite, execReconvergenceFusion, execRejoinRelease, execSplitSwapBack, execSplitExchange,
      execTroupeEnd, execTbwaitWake, execSwapBackReadComplete]
    repeat' split
    all_goals exact ⟨_, rfl⟩
  case ovldCopyComplete | shootdownAcknowledge | matrixTileReady | opldComplete | mmacoStart | sfillComplete | reduceRetry
      | faultRecordWrite | frplyReplay | parkedReplay | fqheadWrite | cacheActionComplete =>
    dsimp only [exec, execOvldCopyComplete, execShootdownAcknowledge, execMatrixTileReady, execOpldComplete, execMmacoStart,
      execSfillComplete, execReduceRetry, execFaultRecordWrite, execFrplyReplay, execParkedReplay, execFqheadWrite,
      execCacheActionComplete]
    repeat' split
    all_goals exact ⟨_, rfl⟩
  case doorbell | queueMap | launchPacket | waitPacket | signalPacket | nopPacket | formatPreloadPacket | waitPacketReevaluate
      | launchStart | productionRetire | priorityAging | ensemblePlacement | greenRoomTransfer | cueBroadcast | cueCopyWrite
      | cueTouchFire | cueArrFire | cueGuardFire | cuewaitFire =>
    dsimp only [exec, execDoorbell, execQueueMap, execLaunchPacket, execWaitPacket, execSignalPacket, execNopPacket,
      execFormatPreloadPacket, execWaitPacketReevaluate, execLaunchStart, execProductionRetire, execPriorityAging, execEnsemblePlacement,
      execGreenRoomTransfer, execCueBroadcast, execCueCopyWrite, execCueTouchFire, execCueArrFire, execCueGuardFire, execCuewaitFire]
    repeat' split
    all_goals exact ⟨_, rfl⟩
  case autoSwitch | stop | captureComplete | checkpointCut | unitStreamed | cutCommit | resumption | savecostUpdate | contextCreation =>
    dsimp only [exec, execAutoSwitch, execStop, execCaptureComplete, execCheckpointCut, execUnitStreamed, execCutCommit,
      execResumption, execSavecostUpdate, execContextCreation]
    repeat' split
    all_goals exact ⟨_, rfl⟩
  case mapcmdCommit | mapCheckComplete | eccUncorrectable | refreshTakeover | scrub | flitNak | linkRetrainComplete | counterClear
      | eventWrite | hostCxlMemRead | hostCxlMemWrite | serviceCoreMemoryAccess =>
    dsimp only [exec, execMapcmdCommit, execMapCheckComplete, execEccUncorrectable, execRefreshTakeover, execScrub, execFlitNak,
      execLinkRetrainComplete, execCounterClear, execEventWrite, execHostCxlMemRead, execHostCxlMemWrite, execServiceCoreMemoryAccess]
    repeat' split
    all_goals exact ⟨_, rfl⟩

end Machine

end Sys2Proof
end

section
/-! Where the forms and events of formats, windows, caches, releases and memory stacks complete (O54). -/

namespace Sys2Proof

open Machine

namespace Machine

/-- An fset completes at the next word; the core reads the entry's new value (R158, R182). -/
theorem fset_writes {f : X} {s : State} {w : Work} (h : issues (insX 0x50 f) s w) : let n := insX 0x50 f
    ∃ t x, exec (.fset f) s = .next t ∧ t.work w.tid w.ent = some x ∧ x.S.pc = (nextWord n w).pc ∧ t.mem = s.mem
      ∧ t.fmtEntry w.E.core w.E.ctx n.fmt = BitVec.ofNat 64 (w.src64 true n n.sa (lowLane w.act)) := by
  intro n
  obtain ⟨t, x, ht, hx, -⟩ := fset_completes h
  have hmem : t.mem = s.mem := (congrArg State.mem hx.module).trans rfl
  have hentry : ∀ core ctx e, t.fmtEntry core ctx e = (w.fsetDone s n).s.fmtEntry core ctx e := fun core ctx e => by
    rw [hx.module]
    rfl
  refine ⟨t, x, ht, hx.split, hx.pc.1, hmem, (hentry _ _ _).trans ?_⟩
  exact (fset_fmtEntry s _ _ _ _ _ _ (issues_fset_entry h)).trans (if_pos rfl)

/-- The home of a format table puts the entry in (R159). -/
theorem formatWriteAtHome_sets (s : State) (c core e : Nat) (v : DWord) (id : Nat) :
    ∃ t, exec (.formatWriteAtHome c core e v id) s = .next t
      ∧ ∀ y, s.contexts.find? c = some y → t.contexts.find? c = some { y with fmt := y.fmt.set e v } := by
  obtain ⟨t, ht, hctx, -⟩ := formatWriteAtHome_takes s c core e v id
  exact ⟨t, ht, fun y hy => by rw [hctx, if_pos rfl, hy]; rfl⟩

/-- A core that awaits no echo of the entry takes a broadcast of it (R160). -/
theorem formatBroadcastApply_sets {s : State} {c core e : Nat} (v : DWord) (id : Nat) (he : 16 ≤ e)
    (hecho : ∀ x ∈ (s.core core).echo, ¬(x.1 = c ∧ x.2.1 = e)) :
    ∃ t, exec (.formatBroadcastApply c core e v id) s = .next t ∧ t.fmtEntry core c e = v := by
  obtain ⟨t, ht, -, hcore⟩ := formatBroadcastApply_hears s c core e v id
  refine ⟨t, ht, ?_⟩
  unfold State.fmtEntry
  rw [hcore, if_pos rfl, hears_takes id v hecho]
  simp [Nat.not_lt.2 he]

end Machine

/-- Settles O54: each form by the lemma that says how it completes, each event by the one that says what it leaves. -/
theorem completions : Obligations.Completions :=
  ⟨fun _ _ _ h => fset_writes h,
   fun _ s w h => pair_completes (v := fun w _ => (w.look _).toNat) (fun _ => rfl) s w h,
   fun _ _ _ h2 h5 h => ⟨fun _ _ hw => wbind_binds h (window_idle h2 h5) hw,
     fun hw hm ha hsize hc => wbind_waits h (window_idle h2 h5) hw hm rfl ha hsize hc⟩,
   fun _ _ _ h h0 h2 h5 _ hr => wset_sets h h0 (window_idle h2 h5) rfl hr,
   fun _ _ _ h h2 h5 => wrel_unbinds h (window_idle h2 h5),
   fun _ _ _ h => wstat_reads h,
   fun _ _ _ h => bcommit_commits h,
   fun _ _ _ h hd => bwait_passes h hd,
   fun _ _ _ h hm => pref_completes h hm,
   fun _ _ _ h hm => inval_completes h hm,
   ⟨fun _ _ _ => release_completes rfl, fun _ _ _ => release_completes rfl⟩,
   fun _ _ _ => spawn_completes,
   formatWriteAtHome_sets,
   fun _ _ _ _ v id he hecho => formatBroadcastApply_sets v id he hecho,
   cacheActionComplete_resumes,
   fun _ _ hb hgo hm => mapcmdCommit_starts hb hgo hm,
   mapCheckComplete_ends,
   fun _ _ _ hs hp => eccUncorrectable_fences hs hp,
   fun _ _ _ hb => fclrWrite_clears hb,
   refreshHeartbeat_beats,
   fun _ _ h => refreshTakeover_takes h,
   refresh_counts,
   baseDieReset_takesBack,
   fun _ _ h => scrub_counts h,
   event_answers⟩

end Sys2Proof
end

section
/-! Vector floating point, element by element (O5): R189, R191, R196, R199 to R205. -/

namespace Sys2Proof

open Machine

/-- What an elementwise vector float meaning of the extended form gives (R189, R191). -/
theorem oneForm_of_floatwise {op : Nat} {x : X → Instr} {t : Fmt → Ins → Nat → Nat → Nat → Nat → Nat × Word}
    (hx : ∀ g s, exec (x g) s = run (insX op g) (floatwise t (insX op g)) s) (h1 : 0x60 ≤ op := by decide)
    (h2 : op ≤ 0x6F := by decide) (h3 : op ≠ 0x6C := by decide) : oneForm op x (floatResult t) :=
  fun g => floatResult_of_floatwise h1 h2 h3 (hx g)

/-- What an elementwise vector float meaning of both forms gives (R189, R191). -/
theorem bothForms_of_floatwise {op : Nat} {x : X → Instr} {b : B3 → Instr} {t : Fmt → Ins → Nat → Nat → Nat → Nat → Nat × Word}
    (hx : ∀ g s, exec (x g) s = run (insX op g) (floatwise t (insX op g)) s)
    (hb : ∀ g s, exec (b g) s = run (insB3 op g) (floatwise t (insB3 op g)) s) (h1 : 0x60 ≤ op := by decide)
    (h2 : op ≤ 0x6F := by decide) (h3 : op ≠ 0x6C := by decide) : bothForms op x b (floatResult t) :=
  ⟨oneForm_of_floatwise hx h1 h2 h3, fun g => floatResult_of_floatwise h1 h2 h3 (hb g)⟩

/-- Settles O5: each instruction is an elementwise meaning under a vector float entry, in its extended form or in both forms. -/
theorem floatElementwise : Obligations.FloatElementwise := by
  refine ⟨?fadd, ?fsub, ?fmul, ?ffma, ?fmin, ?fmax, ?fabs, ?fclamp, ?fcmp, ?fclass, ?frnd, ?fcpsgn, ?fgetexp, ?fgetman⟩
  case ffma | fclamp | fcmp | fclass | frnd => exact oneForm_of_floatwise fun _ _ => rfl
  case fadd | fsub | fmul | fmin | fmax | fabs | fcpsgn | fgetexp | fgetman =>
    exact bothForms_of_floatwise (fun _ _ => rfl) fun _ _ => rfl

end Sys2Proof
end

section
/-! Vector results that are not element by element (O6): fscale, fdot2 and the special functions (R197, R198, R208). -/

namespace Sys2Proof

open Machine

/-- A vector lane result whose generators step (R124, R191). -/
theorem vectorResult_of_stepped {i : Instr} {n : Ins} {body : Work → Eff} {v : Work → Nat → Word × Word} {steps : Work → Nat}
    (he : ∀ s, exec i s = run n (ifActive body) s) (hb : ∀ w, body w = .done ((w.alu true n (v w)).stepped n (steps w))) :
    vectorResult v steps i n :=
  fun _ w h => completes_stepped (he _) h.1 ((ifActive_of h.2).trans (hb w))

/-- A special function leaves the packed results of its elements, and their flags, to the scoreboard (R206, R208). -/
theorem special_held {i : Instr} {n : Ins} (he : ∀ s, exec i s = run n (special n) s) :
    let t (w : Work) (l : Nat) : Word × Word :=
      packElems (w.fmt n.fmt).width fun e =>
        specialElem (w.fmt n.fmt) n.op n.rnd n.sat (2 * n.fmt + n.sat.toNat) (w.elem n (w.fmt n.fmt) n.sa e l)
    scoreboardResult i n (fun _ => 1) (fun w _ l => (t w l).1) fun w => orFlags ((lanesOf w.act).map fun l => (t w l).2) :=
  scoreboardResult_of_later he fun _ _ _ => rfl

/-- Settles O6: `vectorResult_of_stepped` for fscale and fdot2, `special_held` for the special functions. -/
theorem floatScaleDotSpecial : Obligations.FloatScaleDotSpecial := by
  refine ⟨⟨fun _ => ?fscale, fun _ => ?fscaleBase⟩, fun _ => ?fdot2, ?frcp, ?frsq, ?fsqrt, ?fexp2, ?flog2, ?fsinpi, ?fcospi⟩
  case fscale | fscaleBase | fdot2 => exact vectorResult_of_stepped (fun _ => rfl) fun _ => rfl
  case frcp | frsq | fsqrt | fexp2 | flog2 | fsinpi | fcospi =>
    exact ⟨fun _ => special_held fun _ => rfl, fun _ => special_held fun _ => rfl⟩

end Sys2Proof
end

section
/-! Claims and releases of operand slots (O29): which physical number a claim takes, and who still reads a slot (R212, R213, R228, R233). -/

namespace Sys2Proof

open Machine

/-- Putting back the entry that a table has at a key leaves the same entries. -/
theorem Tab.mem_put_found {α : Type} {t : Tab α} {a : Nat} {x : α} (h : Tab.find? t a = some x) (e : Nat × α) : e ∈ Tab.put t a x ↔ e ∈ t := by
  induction t with
  | nil => cases h
  | cons p t ih =>
    obtain ⟨k, v⟩ := p
    unfold Tab.put
    split
    · have hmem := Tab.mem_of_find? h
      rw [List.mem_cons]
      exact ⟨fun hk => hk.elim (fun hx => hx ▸ hmem) id, .inr⟩
    · unfold Tab.find? at h
      split
      · next hk =>
        rw [if_pos hk.symm] at h
        cases h
        rw [hk]
      · next hk =>
        rw [if_neg (Ne.symm hk)] at h
        rw [List.mem_cons, List.mem_cons, ih h]

namespace Machine

section
variable {i : Instr} {n : Ins} {s : State} {w : Work}

/-- The names tied on a core are the same with the issuing ensemble put back (R212). -/
theorem mem_here_tied (hE : w.s.ensembles.find? w.T.ens = some w.E) (core : Nat) (phys : Ensemble → List Nat) (p : Nat) :
    p ∈ w.here.tied core phys ↔ tiedOn w.s core phys p := by
  simp only [State.tied, Work.here, tiedOn, List.mem_flatMap, List.mem_filter, Tab.mem_put_found hE, and_assoc, Bool.and_eq_true,
    decide_eq_true_eq, bne_iff_ne]

/-- The lowest number that is not tied is the one that a claim takes (R213). -/
theorem lowestFree_untied (hE : w.s.ensembles.find? w.T.ens = some w.E) {core count p : Nat} {phys : Ensemble → List Nat} :
    lowestFree count (w.here.tied core phys) = some p ↔ lowestUntied w.s core phys count p := by
  simp only [lowestFree, lowestUntied, List.find?_range_eq_some, List.mem_range, Bool.not_eq_true', Bool.not_not, List.contains_eq_mem,
    decide_eq_true_eq, decide_eq_false_iff_not, mem_here_tied hE]
  tauto

/-- A claim finds no number when each is tied (R213). -/
theorem lowestFree_tied (hE : w.s.ensembles.find? w.T.ens = some w.E) {core count : Nat} {phys : Ensemble → List Nat} :
    lowestFree count (w.here.tied core phys) = none ↔ ∀ p, p < count → tiedOn w.s core phys p := by
  simp only [lowestFree, List.find?_range_eq_none, Bool.not_not, List.contains_eq_mem, decide_eq_true_eq, mem_here_tied hE]

/-- The matrix instructions that still read a slot (R228). -/
theorem slotReading_iff {core ens : Nat} {b : Bool} {k : Nat} : s.slotReading core ens b k = true ↔
    ∃ m ∈ (s.core core).mats, m.ens = ens ∧ (if b then m.bslot else m.aslot) = k ∧ ∀ t, m.start = some t → s.now < t + m.occ := by
  unfold State.slotReading
  simp only [List.any_eq_true, Bool.and_eq_true, decide_eq_true_eq, and_assoc]
  refine exists_congr fun m => and_congr_right' (and_congr_right' (and_congr_right' ?_))
  cases m.start <;> simp

/-- A result left to the scoreboard by work `b`, which differs from the split's in its ensemble alone, and when it will be written (R47). -/
theorem later_completes {body : Work → Eff} {e : Ensemble} {cycles len : Nat} {flags : Word} {v : Nat → Nat → Word}
    (he : exec i s = run n body s) (hg : gate n s = .go w) (hb : body w = .done (({ w with E := e } : Work).later cycles flags n len v)) :
    ∃ t x, exec i s = .next t
      ∧ Completes s { w with E := e } [] 0#32 [w.pendOf false 0 flags (w.outsOf n len w.act v)] (nextWord n w) t x
      ∧ ⟨s.now + cycles, .scoreboardResultWrite w.tid s.tick⟩ ∈ t.agenda := by
  obtain rfl := (gate_go hg).2.1
  let b : Work := { w with E := e }
  obtain ⟨hd, hr⟩ := b.pending_does cycles flags (b.outsOf n len b.act v)
  obtain ⟨z, hz⟩ := Work.finish_completes (n := n) (outs := []) rfl hd fun r j _ => by simp [hr]
  exact ⟨_, z, he.trans (run_done hg hb), hz, Work.mem_finish n (mem_insertTimed.2 (.inl rfl))⟩

@[simp] theorem slot_setSlot (e : Ensemble) (b c : Bool) (k j : Nat) (x : Slot) :
    (e.setSlot b k x).slot c j = if c = b ∧ j = k then some x else e.slot c j := by
  cases b <;> cases c <;> simp [Ensemble.setSlot, Ensemble.slot]

theorem setSlot_slots (e : Ensemble) (b : Bool) (k : Nat) (x : Slot) :
    e.setSlot b k x = { e with aSlots := (e.setSlot b k x).aSlots, bSlots := (e.setSlot b k x).bSlots } := by
  cases b <;> rfl

/-- An ensemble without a name of its A or B slots (R233). -/
def Ensemble.dropSlot (e : Ensemble) (b : Bool) (k : Nat) : Ensemble :=
  if b then { e with bSlots := e.bSlots.del k } else { e with aSlots := e.aSlots.del k }

@[simp] theorem slot_dropSlot (e : Ensemble) (b c : Bool) (k j : Nat) :
    (e.dropSlot b k).slot c j = if c = b ∧ j = k then none else e.slot c j := by
  cases b <;> cases c <;> simp [Ensemble.dropSlot, Ensemble.slot]

theorem dropSlot_slots (e : Ensemble) (b : Bool) (k : Nat) :
    e.dropSlot b k = { e with aSlots := (e.dropSlot b k).aSlots, bSlots := (e.dropSlot b k).bSlots } := by
  cases b <;> rfl

/-- Of an ensemble's slots only one differs. -/
def onlySlot (e e' : Ensemble) (b : Bool) (k : Nat) : Prop :=
  (∀ c j, (c ≠ b ∨ j ≠ k) → e'.slot c j = e.slot c j) ∧ e' = { e with aSlots := e'.aSlots, bSlots := e'.bSlots }

theorem setSlot_only (e : Ensemble) (b : Bool) (k : Nat) (x : Slot) : onlySlot e (e.setSlot b k x) b k :=
  ⟨fun c j h => by rw [slot_setSlot, if_neg (by tauto)], setSlot_slots e b k x⟩

theorem dropSlot_only (e : Ensemble) (b : Bool) (k : Nat) : onlySlot e (e.dropSlot b k) b k :=
  ⟨fun c j h => by rw [slot_dropSlot, if_neg (by tauto)], dropSlot_slots e b k⟩

/-- A claim or a release that leaves ensemble `e` and a status, on the scoreboard for 8 cycles (R233). -/
def leavesStatus (i : Instr) (n : Ins) (s : State) (w : Work) (e : Ensemble) (v : Word) : Prop :=
  ∃ t x, exec i s = .next t
    ∧ Completes s { w with E := e } [] 0#32 [w.pendOf false 0 0#32 (w.outsOf n 1 w.act fun _ _ => v)] (nextWord n w) t x
    ∧ ⟨s.now + 8, .scoreboardResultWrite w.tid s.tick⟩ ∈ t.agenda

variable {b : Bool}

/-- A claim: of a name that is claimed, of a name that is not, with a free slot and with none (R213, R233). -/
theorem claim_leaves (he : ∀ s, exec i s = run n (ifActive fun w => .done (w.claim n b)) s) (h : issues n s w) :
    ((w.E.slot b (n.mod % 8)).isSome = true → leavesStatus i n s w w.E 1#32)
    ∧ (w.E.slot b (n.mod % 8) = none →
      (∀ p, lowestUntied s w.E.core (Ensemble.slotsTied b) 8 p → ∃ e, leavesStatus i n s w e 0#32
        ∧ e.slot b (n.mod % 8) = some { phys := p, data := [] } ∧ onlySlot w.E e b (n.mod % 8))
      ∧ ((∀ p, p < 8 → tiedOn s w.E.core (Ensemble.slotsTied b) p) → leavesStatus i n s w w.E 2#32)) := by
  obtain ⟨-, rfl, -, -, hE, -⟩ := gate_go h.1
  have leaves {e : Ensemble} {v : Nat} (hc : w.claim n b = ({ w with E := e } : Work).later 8 0#32 n 1 fun _ _ => BitVec.ofNat 32 v) :
      leavesStatus i n w.s w e (BitVec.ofNat 32 v) :=
    later_completes (he w.s) h.1 ((ifActive_of h.2).trans (congrArg Eff.done hc))
  refine ⟨fun hs => leaves (if_pos hs), fun hs => ?_⟩
  have hnone : ¬(w.E.slot b (n.mod % 8)).isSome = true := by rw [hs]; simp
  refine ⟨fun p hp => ⟨w.E.setSlot b (n.mod % 8) { phys := p, data := [] }, leaves ?_, by simp, setSlot_only _ _ _ _⟩, fun hp => leaves ?_⟩
  · refine (if_neg hnone).trans ?_
    rw [(lowestFree_untied hE).2 hp]
  · refine (if_neg hnone).trans ?_
    rw [(lowestFree_tied hE).2 hp]

/-- A release: held while the slot is read, then of a name that is not claimed, and of one that is (R228, R233). -/
theorem release_leaves (he : ∀ s, exec i s = run n (ifActive fun w =>
      if w.s.slotReading w.E.core w.T.ens b (n.mod % 8) then .hold else .done (w.release n b)) s) (h : issues n s w) :
    (s.slotReading w.E.core w.T.ens b (n.mod % 8) = true → exec i s = .next w.hold)
    ∧ (¬s.slotReading w.E.core w.T.ens b (n.mod % 8) = true →
      (w.E.slot b (n.mod % 8) = none → leavesStatus i n s w w.E 1#32)
      ∧ ((w.E.slot b (n.mod % 8)).isSome = true → ∃ e, leavesStatus i n s w e 0#32 ∧ e.slot b (n.mod % 8) = none
        ∧ onlySlot w.E e b (n.mod % 8))) := by
  obtain rfl := (gate_go h.1).2.1
  refine ⟨fun hr => (he w.s).trans (run_hold h.1 ((ifActive_of h.2).trans (if_pos hr))), fun hr => ?_⟩
  have leaves {e : Ensemble} {v : Nat} (hc : w.release n b = ({ w with E := e } : Work).later 8 0#32 n 1 fun _ _ => BitVec.ofNat 32 v) :
      leavesStatus i n w.s w e (BitVec.ofNat 32 v) :=
    later_completes (he w.s) h.1 ((ifActive_of h.2).trans ((if_neg hr).trans (congrArg Eff.done hc)))
  exact ⟨fun hs => leaves (if_pos (by rw [hs]; rfl)),
    fun hs => ⟨w.E.dropSlot b (n.mod % 8), leaves (if_neg (by rw [Option.isNone_eq_false_iff.2 hs]; exact Bool.false_ne_true)), by simp,
      dropSlot_only _ _ _⟩⟩

end
end Machine

/-- Settles O29: `claim_leaves` and `release_leaves` for either store; `slotReading_iff` says who reads a slot. -/
theorem slotClaims : Obligations.SlotClaims := by
  refine ⟨fun f s w h => claim_leaves (fun _ => rfl) h, fun f s w h => claim_leaves (fun _ => rfl) h, fun f s w h => ?_, fun f s w h => ?_⟩
  · have hr := release_leaves (i := .arel f) (b := false) (fun _ => rfl) h
    rwa [slotReading_iff] at hr
  · have hr := release_leaves (i := .brel f) (b := true) (fun _ => rfl) h
    rwa [slotReading_iff] at hr

end Sys2Proof
end

section
/-! Accumulator tiles (O30): what a claim and a write of a tile leave, and when a read of one is written (R213, R228, R229, R237). -/

namespace Sys2Proof

open Machine

namespace Machine

section
variable {n : Ins} {s : State} {w : Work} {k : Nat}

/-! ### A tile that an instruction may write -/

/-- What holds back the writer of a tile (R228). -/
theorem tilePending_iff : w.tilePending k = true ↔ tileBusy w.s w k := by
  unfold Work.tilePending tileBusy
  rw [Bool.or_eq_true, List.any_eq_true, decide_eq_true_eq]
  refine or_congr (by simp) ?_
  cases w.E.tiles.find? k <;> simp

/-- The elements of a tile; an unclaimed one, those that a claim will set (R213). -/
def tileData (e : Ensemble) (k : Nat) : Store 32 := ((e.tiles.find? k).map fun x => x.data).getD []

/-- No tile can be claimed under a name: it is unclaimed, and every physical tile is tied (R213). -/
def noTile (s : State) (w : Work) (k : Nat) : Prop := w.E.tiles.find? k = none ∧ ∀ p, p < 4 → tiedOn s w.E.core Ensemble.tilesTied p

/-- An ensemble after a tile is claimed, if it was not, and is being written for some cycles (R213, R228). -/
def tileClaimed (s : State) (w : Work) (k cycles : Nat) (e : Ensemble) : Prop := onlyTile w.E e k ∧ ∃ y, e.tiles.find? k = some y
  ∧ y.busy = s.now + cycles ∧ (∀ x, w.E.tiles.find? k = some x → y.phys = x.phys)
  ∧ (w.E.tiles.find? k = none → lowestUntied s w.E.core Ensemble.tilesTied 4 y.phys)

theorem claimTile_none (hE : w.s.ensembles.find? w.T.ens = some w.E) (h : noTile w.s w k) : w.claimTile k = none := by
  unfold Work.claimTile
  rw [h.1, (lowestFree_tied hE).2 h.2]
  rfl

/-- The elements of a tile after it is claimed and written are what the write makes of those before. -/
theorem tileWrite_claimed (hE : w.s.ensembles.find? w.T.ens = some w.E) (h : ¬noTile w.s w k) (cycles : Nat) (f : Store 32 → Store 32) :
    ∃ w1 e, w.claimTile k = some w1 ∧ w1.tileWrite k cycles f = { w with E := e } ∧ tileClaimed w.s w k cycles e
      ∧ tileData e k = f (tileData w.E k) := by
  cases ht : w.E.tiles.find? k with
  | some x =>
    refine ⟨w, _, by unfold Work.claimTile; rw [ht]; rfl, rfl, ⟨⟨rfl, fun j hj => Tab.find?_modify_other _ _ hj⟩, ?_⟩, ?_⟩
    · exact ⟨_, (Tab.find?_modify_same _ _ _).trans (by rw [ht]; rfl), rfl, fun y hy => by cases ht.symm.trans hy; rfl, fun hy => by simp [ht] at hy⟩
    · unfold tileData
      dsimp only
      rw [Tab.find?_modify_same, ht]
      rfl
  | none =>
    obtain ⟨p, hp⟩ : ∃ p, lowestFree 4 (w.here.tied w.E.core Ensemble.tilesTied) = some p := by
      refine Option.ne_none_iff_exists'.1 fun hn => h ⟨ht, (lowestFree_tied hE).1 hn⟩
    refine ⟨{ w with E := { w.E with tiles := w.E.tiles.put k { phys := p, data := [], busy := 0 } } }, _,
      by unfold Work.claimTile; rw [ht, hp]; rfl, rfl, ⟨⟨rfl, fun j hj => ?_⟩, ?_⟩, ?_⟩
    · dsimp only
      rw [Tab.find?_modify_other _ _ hj, Tab.find?_put_other _ _ hj]
    · exact ⟨_, (Tab.find?_modify_same _ _ _).trans (by rw [Tab.find?_put_same]; rfl), rfl, fun y hy => by simp [ht] at hy,
        fun _ => (lowestFree_untied hE).1 hp⟩
    · unfold tileData
      dsimp only
      rw [Tab.find?_modify_same, Tab.find?_put_same, ht]
      rfl

/-- Rows of a tile after the same columns of some of them have been set (R215, R229). -/
theorem get_setRows (v : Nat → List Word) {col g : Nat} (hv : ∀ r, (v r).length = g) (hc : col + g ≤ 256) {r j : Nat} (hj : j < 256)
    (rows : List Nat) (t : Store 32) :
    Store.get (rows.foldl (fun t r => Store.setMany t (256 * r + col) (v r)) t) (256 * r + j)
      = if r ∈ rows ∧ col ≤ j ∧ j < col + g then (v r).getD (j - col) 0 else Store.get t (256 * r + j) := by
  induction rows generalizing t with
  | nil => simp
  | cons q rows ih =>
    rw [List.foldl_cons, ih, Store.get_setMany, hv]
    by_cases hr : r = q
    · subst hr
      have hcols : 256 * r + col ≤ 256 * r + j ∧ 256 * r + j < 256 * r + col + g ↔ col ≤ j ∧ j < col + g := by omega
      have hidx : 256 * r + j - (256 * r + col) = j - col := by omega
      simp only [hcols, hidx, List.mem_cons_self, true_and]
      by_cases hin : col ≤ j ∧ j < col + g <;> simp [hin]
    · have hout : ¬(256 * q + col ≤ 256 * r + j ∧ 256 * r + j < 256 * q + col + g) := by omega
      rw [if_neg hout]
      simp [hr]

/-- Setting the same columns of the rows of the active lanes, in a tile that is free to be written (R229, R237). -/
theorem tileRows_claimed (hE : w.s.ensembles.find? w.T.ens = some w.E) (h : ¬noTile w.s w k) (cycles : Nat) (v : Nat → List Word)
    {col g : Nat} (hv : ∀ r, (v r).length = g) (hc : col + g ≤ 256) :
    ∃ w1 e, w.claimTile k = some w1
      ∧ w1.tileWrite k cycles (fun t => (lanesOf w.act).foldl (fun t r => Store.setMany t (256 * r + col) (v r)) t) = { w with E := e }
      ∧ tileClaimed w.s w k cycles e
      ∧ ∀ r j, j < 256 → tileAt e k r j
          = if w.act.getLsbD r ∧ col ≤ j ∧ j < col + g then (v r).getD (j - col) 0 else tileAt w.E k r j := by
  obtain ⟨w1, e, hclaim, hwrite, hclaimed, hdata⟩ := tileWrite_claimed hE h cycles fun t =>
    (lanesOf w.act).foldl (fun t r => Store.setMany t (256 * r + col) (v r)) t
  refine ⟨w1, e, hclaim, hwrite, hclaimed, fun r j hj => ?_⟩
  have hget := get_setRows v hv hc hj (r := r) (lanesOf w.act) (tileData w.E k)
  rw [← hdata] at hget
  simp only [mem_lanesOf] at hget
  exact hget

theorem getD_map_range {α : Type} (v : Nat → α) (d : α) {g j : Nat} (h : j < g) : ((List.range g).map v).getD j d = v j := by
  simp [h]

/-! ### acczero, accwr and accfree -/

/-- acczero and accwr: held while the tile is in use, trapped when no tile is free, and else done with the columns of the active lanes' rows
set (R228, R237). -/
theorem tileWriter_completes {i : Instr} {body : Work → Eff} {cycles col g : Nat} {v : Nat → List Word} (he : exec i s = run n body s)
    (h : issues n s w) (hv : ∀ r, (v r).length = g) (hc : col + g ≤ 256)
    (hb : body w = if w.tilePending k then .hold else match w.claimTile k with
      | none => .trap { cause := 0x10, info := 256 + 16 + k }
      | some w1 => .done (w1.tileWrite k cycles fun t =>
          (lanesOf w.act).foldl (fun (t : Store 32) r => t.setMany (256 * r + col) (v r)) t)) :
    (tileBusy s w k → exec i s = .next w.hold)
    ∧ (¬tileBusy s w k → noTile s w k → exec i s = w.trap n { cause := 0x10, info := 272 + k })
    ∧ (¬tileBusy s w k → ¬noTile s w k → ∃ e t x, exec i s = .next t
        ∧ Completes s { w with E := e } [] 0#32 [] (nextWord n w) t x ∧ tileClaimed s w k cycles e
        ∧ ∀ r j, r < 128 → j < 256 → tileAt e k r j
            = if w.act.getLsbD r ∧ col ≤ j ∧ j < col + g then (v r).getD (j - col) 0 else tileAt w.E k r j) := by
  obtain ⟨-, rfl, -, -, hE, -⟩ := gate_go h.1
  rw [← tilePending_iff]
  refine ⟨fun hp => he.trans (run_hold h.1 (hb.trans (if_pos hp))), fun hp hn => ?_, fun hp hn => ?_⟩
  · refine he.trans (run_trap h.1 (hb.trans ((if_neg hp).trans ?_)))
    rw [claimTile_none hE hn]
  · obtain ⟨w1, e, hclaim, hwrite, hclaimed, hrows⟩ := tileRows_claimed hE hn cycles v hv hc
    have hdone : body w = .done { w with E := e } := by rw [hb, if_neg hp, hclaim, ← hwrite]
    obtain ⟨t, x, ht, hx⟩ := completes_changed he h.1 hdone rfl
    exact ⟨e, t, x, ht, hx, hclaimed, fun r j _ hj => hrows r j hj⟩

/-- accfree gives a tile up, once no earlier instruction writes it (R228, R237). -/
theorem accfree_frees {f : X} (h : issues (insX 0x8B f) s w) (hk : k = (insX 0x8B f).mod % 4) :
    (tileBusy s w k → exec (.accfree f) s = .next w.hold)
    ∧ (¬tileBusy s w k → ∃ e t x, exec (.accfree f) s = .next t
        ∧ Completes s { w with E := e } [] 0#32 [] (nextWord (insX 0x8B f) w) t x ∧ onlyTile w.E e k ∧ e.tiles.find? k = none) := by
  subst hk
  obtain rfl := (gate_go h.1).2.1
  rw [← tilePending_iff]
  refine ⟨fun hp => run_hold h.1 ((ifActive_of h.2).trans (if_pos hp)), fun hp => ?_⟩
  obtain ⟨t, x, ht, hx⟩ := completes_changed (i := .accfree f) rfl h.1 ((ifActive_of h.2).trans (if_neg hp)) rfl
  exact ⟨_, t, x, ht, hx, ⟨rfl, fun j hj => by simp [hj]⟩, by simp⟩

/-! ### accrd -/

/-- With the same table of cores, every core is the same. -/
theorem core_congr {s t : State} (h : t.cores = s.cores) (k : Nat) : t.core k = s.core k := by
  unfold State.core
  rw [h]

/-- A running maximum is above its start and each value, and one of them. -/
theorem foldl_max_spec {α : Type} (g : α → Nat) (l : List α) (a : Nat) :
    let r := l.foldl (fun a m => max a (g m)) a
    a ≤ r ∧ (∀ m ∈ l, g m ≤ r) ∧ (r = a ∨ ∃ m ∈ l, r = g m) := by
  induction l generalizing a with
  | nil => simp
  | cons m l ih =>
    obtain ⟨hstart, hall, hone⟩ := ih (max a (g m))
    rw [List.foldl_cons]
    refine ⟨by omega, ?_, ?_⟩
    · rintro q (_ | ⟨_, hq⟩)
      · omega
      · exact hall q hq
    · obtain hs | ⟨q, hq, hr⟩ := hone
      · by_cases hm : a ≤ g m
        · exact .inr ⟨m, List.mem_cons_self, by omega⟩
        · exact .inl (by omega)
      · exact .inr ⟨q, List.mem_cons_of_mem _ hq, hr⟩

/-- What an accrd reads of column `t` of its columns in row `r`, converted, and the flags (R237). -/
def accConv (w : Work) (n : Ins) (t r : Nat) : Nat × Word :=
  convertNum (decodeFloat ft0 (tileAt w.E (n.mod % 4) r ((w.src true n n.sa 0 (lowLane w.act)).toNat + t)).toNat) false
    (fmtOf (builtin n.fmt)) n.rnd n.sat (w.random t r)

/-- The result that an accrd leaves to the scoreboard (R237). -/
def accPend (w : Work) (n : Ins) : Pend :=
  w.pendOf false 0 (orFlags ((lanesOf w.act).flatMap fun r => (List.range (accCols n)).map fun t => (accConv w n t r).2))
    (w.outsOf n (accCols n) w.act fun t r => BitVec.ofNat 32 (accConv w n t r).1)

/-- The matrix instructions into a tile of the issuing ensemble (R228). -/
def tileMats (w : Work) (k : Nat) : List Mat := (w.s.core w.E.core).mats.filter fun m => m.ens = w.T.ens && m.tile = k

theorem mem_tileMats {m : Mat} : m ∈ tileMats w k ↔ m ∈ (w.s.core w.E.core).mats ∧ m.ens = w.T.ens ∧ m.tile = k := by
  simp [tileMats]

/-- The work of an accrd before it is known when it is written: its result is on the scoreboard, and its generators have stepped. -/
def accWork (w : Work) (n : Ins) : Work := (w.holdFor (accPend w n)).stepped n (accCols n)

/-- An accrd that waits for the start of matrix instruction `m` (R228). -/
def accWaiting (w : Work) (n : Ins) (m : Mat) : Mat := { m with readers := m.readers ++ [(w.tid, w.s.tick, accCols n)] }

/-- When a tile is ready, once the matrix instructions into it have started (R224, R228). -/
def accReady (w : Work) (y : Tile) (k : Nat) : Nat :=
  (tileMats w k).foldl (fun a m => max a (m.start.getD 0 + 32 + m.occ)) (max w.s.now y.busy)

/-- accrd of columns that the tile has (R237). -/
theorem opAccrd_of (ha : w.act ≠ 0) (hc : ¬256 < (w.src true n n.sa 0 (lowLane w.act)).toNat + accCols n) {y : Tile}
    (hy : w.E.tiles.find? (n.mod % 4) = some y) :
    opAccrd n w = match (tileMats w (n.mod % 4)).find? fun m => m.start.isNone with
      | some m => .done { accWork w n with s := w.s.bump.modCore w.E.core fun c =>
          { c with mats := c.mats.map fun x => if x.id = m.id then accWaiting w n m else x } }
      | none =>
        let due := accReady w y (n.mod % 4) + 12 + accCols n
        .done { accWork w n with s := w.s.bump.at_ due (.scoreboardResultWrite w.tid w.s.tick) } := by
  have hconv : accConv w n = fun t r => convertNum (decodeFloat ft0
      (y.data.get (256 * r + (w.src true n n.sa 0 (lowLane w.act)).toNat + t)).toNat) false (fmtOf (builtin n.fmt)) n.rnd n.sat (w.random t r) := by
    funext t r
    unfold accConv tileAt
    rw [hy, Nat.add_assoc]
    rfl
  have hs : (accWork w n).s = w.s.bump := by
    unfold accWork Work.stepped
    split <;> rfl
  refine (ifActive_of ha).trans ((if_neg hc).trans ?_)
  rw [hy, ← hs]
  unfold accWork accPend
  rw [hconv]
  rfl

/-- What an accrd leaves with the cores that it leaves: its result on the scoreboard, and its generators stepped. -/
theorem accWork_does {u : State} {cs : Tab Core} (hu : u = { w.s with cores := cs, tick := u.tick, agenda := u.agenda }) :
    let b : Work := { w with s := { w.s with cores := cs } }
    let x : Work := { accWork w n with s := u }
    b.Does x 0#32 [accPend w n] ∧ ∀ r j, j < 128 → x.now r j = (written (genWrites n w (accCols n)) r j).getD (b.now r j) := by
  intro b x
  have hx : x = { (b.holdFor (accPend w n)).stepped n (accCols n) with s := u } := by
    simp only [x, accWork, Work.stepped]
    split <;> rfl
  obtain ⟨⟨-, htid, hent, hT, hS, hE, hframes⟩, hr⟩ := Work.stepped_does (x := b.holdFor (accPend w n)) (outs := []) n (accCols n)
    (b.holdFor_does (accPend w n)) rfl (fun r j _ => by simp; rfl) (by simp)
  rw [hx]
  exact ⟨⟨hu, htid, hent, hT, hS, hE, hframes⟩, hr⟩

/-- accrd completes: with its result due once its tile is ready, or left to the first matrix instruction that has not started (R228, R237). -/
theorem accrd_completes {f : X} (h : issues (insX 0x89 f) s w) (hn : n = insX 0x89 f) (hk : k = n.mod % 4)
    (hc : (w.src true n n.sa 0 (lowLane w.act)).toNat + accCols n ≤ 256) {y : Tile} (hy : w.E.tiles.find? k = some y) :
    ∃ (cs : Tab Core) (t : State) (x : Work), let b : Work := { w with s := { s with cores := cs } }
      exec (.accrd f) s = .next t
      ∧ Completes b.s b (genWrites n w (accCols n)) 0#32 [accPend w n] (nextWord n w) t x
      ∧ ((∀ m ∈ tileMats w k, m.start.isSome = true) → cs = s.cores
          ∧ ⟨accReady w y k + 12 + accCols n, .scoreboardResultWrite w.tid s.tick⟩ ∈ t.agenda)
      ∧ ((∃ m ∈ tileMats w k, m.start = none) → ∃ m ∈ tileMats w k, m.start = none
          ∧ accWaiting w n m ∈ (t.core w.E.core).mats) := by
  subst hk
  obtain rfl := (gate_go h.1).2.1
  have hbody := opAccrd_of h.2 (n := n) (by omega) hy
  cases hfind : (tileMats w (n.mod % 4)).find? fun m => m.start.isNone with
  | some m =>
    rw [hfind] at hbody
    let u := w.s.bump.modCore w.E.core fun c => { c with mats := c.mats.map fun x => if x.id = m.id then accWaiting w n m else x }
    obtain ⟨hd, hr⟩ := accWork_does (w := w) (n := n) (u := u) (cs := u.cores) rfl
    obtain ⟨z, hz⟩ := Work.finish_completes (n := n) rfl hd hr
    have hm := List.mem_of_find?_eq_some hfind
    have hstart : m.start = none := Option.isNone_iff_eq_none.1 (List.find?_some (p := fun m : Mat => m.start.isNone) hfind)
    refine ⟨u.cores, _, z, ?_, hz, fun hall => ?_, fun _ => ⟨m, hm, hstart, ?_⟩⟩
    · subst hn
      exact run_done h.1 hbody
    · exact absurd (hall m hm) (by rw [hstart]; exact Bool.false_ne_true)
    · have hcore : (Work.finish { accWork w n with s := u } n).core w.E.core = u.core w.E.core := core_congr (by rw [hz.module]) _
      rw [hcore, State.core_modCore, if_pos rfl]
      exact List.mem_map.2 ⟨m, (mem_tileMats.1 hm).1, if_pos rfl⟩
  | none =>
    rw [hfind] at hbody
    obtain ⟨hd, hr⟩ := accWork_does (w := w) (n := n) (cs := w.s.cores)
      (u := w.s.bump.at_ (accReady w y (n.mod % 4) + 12 + accCols n) (.scoreboardResultWrite w.tid w.s.tick)) rfl
    obtain ⟨z, hz⟩ := Work.finish_completes (n := n) rfl hd hr
    refine ⟨w.s.cores, _, z, ?_, hz, fun _ => ⟨rfl, Work.mem_finish n (mem_insertTimed.2 (.inl rfl))⟩, ?_⟩
    · subst hn
      exact run_done h.1 hbody
    · rintro ⟨m, hm, hstart⟩
      have hsome := List.find?_eq_none.1 hfind m hm
      rw [hstart] at hsome
      exact absurd rfl hsome

end
end Machine

/-- Settles O30: `tileWriter_completes` for acczero and accwr, `accrd_completes` and `foldl_max_spec` for when an accrd is written. -/
theorem accumulators : Obligations.Accumulators := by
  refine ⟨fun f s w h => ?acczero, fun f s w h => ?accwr, fun f s w h => ?accrd, fun f s w h => accfree_frees h rfl⟩
  case acczero =>
    obtain ⟨hhold, htrap, hdone⟩ := tileWriter_completes (i := .acczero f) (k := (insX 0x88 f).mod % 4) (cycles := 8) (col := 0) (g := 256)
      (v := fun _ => List.replicate 256 0#32) rfl h (fun _ => List.length_replicate) (le_refl 256) (ifActive_of h.2)
    refine ⟨hhold, htrap, fun hb hn => ?_⟩
    obtain ⟨e, t, x, ht, hx, hclaimed, hrows⟩ := hdone hb hn
    refine ⟨e, t, x, ht, hx, hclaimed, fun r j hr hj => (hrows r j hr hj).trans ?_⟩
    rw [List.getD_replicate _ (by omega : j - 0 < 256)]
    simp only [Nat.zero_le, Nat.zero_add, hj, and_true]
  case accwr =>
    obtain rfl := (gate_go h.1).2.1
    refine ⟨fun hc => run_trap h.1 ((ifActive_of h.2).trans (if_pos hc)), fun hc => ?_⟩
    obtain ⟨hhold, htrap, hdone⟩ := tileWriter_completes (i := .accwr f) (k := (insX 0x8A f).mod % 4) (cycles := 8 + accCols (insX 0x8A f))
      (col := (w.src true (insX 0x8A f) (insX 0x8A f).sa 0 (lowLane w.act)).toNat) (g := accCols (insX 0x8A f))
      rfl h (fun r => (List.length_map _).trans List.length_range) hc ((ifActive_of h.2).trans (if_neg (Nat.not_lt.2 hc)))
    refine ⟨hhold, htrap, fun hb hn => ?_⟩
    obtain ⟨e, t, x, ht, hx, hclaimed, hrows⟩ := hdone hb hn
    refine ⟨e, t, x, ht, hx, hclaimed, fun r j hr hj => (hrows r j hr hj).trans ?_⟩
    refine if_ctx_congr Iff.rfl (fun hin => ?_) fun _ => rfl
    exact getD_map_range _ _ (Nat.sub_lt_left_of_lt_add hin.2.1 hin.2.2)
  case accrd =>
    obtain rfl := (gate_go h.1).2.1
    refine ⟨fun hc => run_trap h.1 ((ifActive_of h.2).trans (if_pos hc)), fun hc hy => ?_, fun hc y hy => ?_⟩
    · refine run_trap h.1 ((ifActive_of h.2).trans ((if_neg (Nat.not_lt.2 hc)).trans ?_))
      rw [hy]
    · obtain ⟨cs, t, x, ht, hx, hdue, hwait⟩ := accrd_completes h rfl rfl hc hy
      refine ⟨cs, t, x, ht, hx, fun hall => ?_, fun ⟨m, hm, hstart⟩ => ?_⟩
      · obtain ⟨hcs, hmem⟩ := hdue fun m hm => hall m (mem_tileMats.1 hm)
        obtain ⟨hlow, hmats, hone⟩ := foldl_max_spec (fun m : Mat => m.start.getD 0 + 32 + m.occ) (tileMats w ((insX 0x89 f).mod % 4)) (max w.s.now y.busy)
        refine ⟨hcs, _, hmem, (le_max_left _ _).trans hlow, (le_max_right _ _).trans hlow, fun m c hm hstart => ?_, ?_⟩
        · have hle := hmats m (mem_tileMats.2 hm)
          simp only [hstart, Option.getD_some] at hle
          exact hle
        · obtain hstart | ⟨m, hm, hr⟩ := hone
          · obtain hb | hb := max_choice w.s.now y.busy
            · exact .inl (hstart.trans hb)
            · exact .inr (.inl (hstart.trans hb))
          · obtain ⟨c, hc⟩ := Option.isSome_iff_exists.1 (hall m (mem_tileMats.1 hm))
            refine .inr (.inr ⟨m, c, mem_tileMats.1 hm, hc, hr.trans ?_⟩)
            rw [hc]
            rfl
      · obtain ⟨m, hm, hstart, hmem⟩ := hwait ⟨m, mem_tileMats.2 hm, hstart⟩
        exact ⟨m, mem_tileMats.1 hm, hstart, hmem⟩

end Sys2Proof
end

section
/-! Matrix completion and the start of an mmaco (O32): what each leaves of the core, the troupes and the agenda (R224, R227, R236). -/

namespace Sys2Proof

open Machine

namespace Machine

section
variable {s : State} {core id : Nat}

theorem kick_only (s : State) (core : Nat) : OnlyAgenda s (s.kick core) := foldl_at_only _ _ _ s

/-! ### A tile is ready -/

theorem matrixTileReady_gone (h : (s.core core).mats.find? (fun m => m.id = id) = none) : exec (.matrixTileReady core id) s = .next s := by
  change execMatrixTileReady core id s = _
  unfold execMatrixTileReady
  rw [h]

/-- When a tile is ready the array forgets its instruction, the core its ranges, and the flags are merged (R224, R227). -/
theorem matrixTileReady_forgets {m : Mat} (h : (s.core core).mats.find? (fun m => m.id = id) = some m) :
    ∃ t, exec (.matrixTileReady core id) s = .next t
      ∧ t = { s with tick := t.tick, agenda := t.agenda, cores := t.cores, troupes := t.troupes }
      ∧ t.cores = (s.modCore core fun c => { c.unlock id with mats := c.mats.filter fun x => x.id ≠ id }).cores
      ∧ t.troupes = s.troupes.modify m.tid fun T => { T with tstat := T.tstat ||| m.flags } := by
  change ∃ t, execMatrixTileReady core id s = .next t ∧ _
  unfold execMatrixTileReady
  rw [h]
  let s2 := (s.modCore core fun c => { c.unlock id with mats := c.mats.filter fun x => x.id ≠ id }).modTroupe m.tid fun T =>
    { T with tstat := T.tstat ||| m.flags }
  have hkick : s2.kick core = { s2 with agenda := (s2.kick core).agenda } := kick_only s2 core
  refine ⟨_, rfl, ?_, ?_, ?_⟩ <;> rw [hkick] <;> rfl

/-! ### A cue action fires -/

theorem lateMark_core (s : State) (a : Act) (k : Nat) : (s.lateMark a).core k = s.core k := by
  unfold State.lateMark
  split <;> rfl

/-- What the end of an action changes: the core's actions, and CUELATE of its troupe if it is late (R369). -/
theorem endAct_only (s : State) (core : Nat) (a : Act) :
    s.endAct core a = { s with cores := (s.endAct core a).cores, troupes := (s.endAct core a).troupes } := by
  unfold State.endAct State.lateMark
  split <;> rfl

theorem endAct_core (s : State) (core : Nat) (a : Act) : (s.endAct core a).core core = (s.core core).dropAct a.id := by
  unfold State.endAct
  rw [State.core_modCore, if_pos rfl, lateMark_core]

theorem endAct_late (s : State) (core : Nat) {a : Act} (h : a.late = true) :
    (s.endAct core a).troupes = s.troupes.modify a.tid fun T => { T with tstat := T.tstat ||| flagLate } := by
  unfold State.endAct State.lateMark
  rw [if_pos h]
  rfl

/-- A matrix instruction that the array takes up (R235, R236). -/
def Mat.started (m : Mat) (now : Nat) : Mat := { m with start := some now, readers := [] }

/-- What the start of a matrix instruction changes: its own entry, and what is due (R235, R236). -/
theorem startMat_only (s : State) (core : Nat) (m : Mat) : OnlyAgenda
    (s.modCore core fun c => { c with mats := c.mats.map fun x => if x.id = m.id then m.started s.now else x }) (s.startMat core m) :=
  (at_only _ _ _).trans (foldl_at_only _ _ _ _)

/-- What is due of a matrix instruction that starts: its readiness, and the accrd results that wait for it (R236). -/
theorem mem_startMat {x : Timed} {m : Mat} : x ∈ (s.startMat core m).agenda ↔ x ∈ s.agenda
    ∨ x = ⟨s.now + 32 + m.occ, .matrixTileReady core m.id⟩
    ∨ ∃ r ∈ m.readers, x = ⟨s.now + 32 + m.occ + 12 + r.2.2, .scoreboardResultWrite r.1 r.2.1⟩ := by
  refine (mem_foldl_at (fun r : Nat × Nat × Nat => s.now + 32 + m.occ + 12 + r.2.2) (fun r => .scoreboardResultWrite r.1 r.2.1) m.readers).trans ?_
  rw [mem_at]
  simp only [State.modCore_agenda]
  tauto

/-- Whatever the action starts, its firing leaves memory and the ensembles as they were. -/
theorem mmacoStart_keeps (core id : Nat) (s : State) : ∃ t, exec (.mmacoStart core id) s = .next t ∧ t.mem = s.mem ∧ t.ensembles = s.ensembles := by
  change ∃ t, execMmacoStart core id s = .next t ∧ _
  unfold execMmacoStart
  split
  · exact ⟨s, rfl, rfl, rfl⟩
  · next a _ =>
    have hend := endAct_only s core a
    split
    · dsimp only
      split
      · exact ⟨_, rfl, by rw [hend], by rw [hend]⟩
      · next m _ =>
        have hstart := startMat_only (s.endAct core a) core m
        exact ⟨_, rfl, by rw [hstart, State.modCore_mem, hend], by rw [hstart, State.modCore_ensembles, hend]⟩
    · exact ⟨_, rfl, by rw [hend], by rw [hend]⟩

/-- The cue action of a matrix instruction that waits fires: the action is over, and the array takes the instruction up (R236). -/
theorem mmacoStart_starts {a : Act} {k : Nat} {m : Mat} (ha : (s.core core).acts.find? (fun a => a.id = id) = some a) (hk : a.kind = .start k)
    (hm : (s.core core).mats.find? (fun m => m.id = k) = some m) : exec (.mmacoStart core id) s = .next ((s.endAct core a).startMat core m) := by
  change execMmacoStart core id s = _
  unfold execMmacoStart
  rw [show (s.core core).act id = some a from ha]
  dsimp only
  rw [hk]
  dsimp only
  rw [endAct_core, show ((s.core core).dropAct a.id).mats = (s.core core).mats from rfl, hm]

theorem startMat_core (s : State) (core : Nat) (m : Mat) : (s.startMat core m).core core
    = { s.core core with mats := (s.core core).mats.map fun x => if x.id = m.id then m.started s.now else x } := by
  rw [core_congr (s := s.modCore core _) (by rw [startMat_only s core m]), State.core_modCore, if_pos rfl]

end
end Machine

/-- Settles O32: `matrixTileReady_forgets` for the tile that is ready, `mmacoStart_starts` and `mem_startMat` for the start of an mmaco. -/
theorem matrixEvents : Obligations.MatrixEvents := by
  refine ⟨fun core id s => ?ready, fun core id s => ?start⟩
  case ready =>
    cases hfind : (s.core core).mats.find? (fun m => m.id = id) with
    | none => exact ⟨s, matrixTileReady_gone hfind, .inl rfl, fun m hm => by cases hm⟩
    | some m =>
      obtain ⟨t, ht, honly, hcores, htroupes⟩ := matrixTileReady_forgets hfind
      have hcore (k : Nat) := (core_congr hcores k).trans (State.core_modCore s core k _)
      refine ⟨t, ht, .inr honly, fun q hq => ?_⟩
      cases hq
      refine ⟨fun x => ?_, fun x => ?_, fun k hk => by rw [hcore, if_neg hk], fun k => ?_⟩
      · rw [hcore, if_pos rfl]
        simp
      · rw [hcore, if_pos rfl]
        simp [Core.unlock]
      · rw [htroupes]
        split
        · next hk => rw [hk, Tab.find?_modify_same]
        · next hk => rw [Tab.find?_modify_other _ _ hk]
  case start =>
    obtain ⟨t, ht, hmem, hens⟩ := mmacoStart_keeps core id s
    refine ⟨t, ht, hmem, hens, fun a k m ha hk hm => ?_⟩
    obtain rfl : m.id = k := of_decide_eq_true (List.find?_some (p := fun m : Mat => decide (m.id = k)) hm)
    obtain rfl : a.id = id := of_decide_eq_true (List.find?_some (p := fun a : Act => decide (a.id = id)) ha)
    cases ht.symm.trans (mmacoStart_starts ha hk hm)
    have hnow : (s.endAct core a).now = s.now := by rw [endAct_only]
    have hmats : ((s.endAct core a).core core).mats = (s.core core).mats := by rw [endAct_core]; rfl
    have hdue (x : Timed) := mem_startMat (s := s.endAct core a) (core := core) (m := m) (x := x)
    simp only [hnow] at hdue
    simp only [startMat_core, hnow, hmats]
    refine ⟨?_, ?_, ?_, (hdue _).2 (.inr (.inl rfl)), fun r hr => (hdue _).2 (.inr (.inr ⟨r, hr, rfl⟩)), fun T hT hlate => ?_⟩
    · exact List.mem_map.2 ⟨m, List.mem_of_find?_eq_some hm, if_pos rfl⟩
    · exact fun x hx hne => List.mem_map.2 ⟨x, hx, if_neg hne⟩
    · intro x
      rw [endAct_core]
      simp [Core.dropAct]
    · refine ⟨{ T with tstat := T.tstat ||| flagLate }, ?_, rfl⟩
      rw [startMat_only, State.modCore_troupes, endAct_late s core hlate, Tab.find?_modify_same, hT]
      rfl

end Sys2Proof
end

section
/-! The checks of a matrix instruction (O31): what refuses one, and what one that passes has (R217 to R220, R225). -/

namespace Sys2Proof

open Machine

namespace Machine

section
variable {n : Ins} {s : State} {w : Work} {kind : MatKind}

/-! ### Rate classes -/

/-- The rate classes of R219, each with the entries that are in it. -/
theorem classOfEntry_cases {f : Fmt} {x : MatClass} (h : classOfEntry f = some x) :
    (f.kind = 1 ∧ f.width = 16 ∧ f.plain = true ∧ x = ⟨0, 8, 34, 128, false⟩)
    ∨ (f.kind = 1 ∧ f.width = 8 ∧ x = ⟨1, 16, 20, 256, false⟩)
    ∨ (f.kind = 1 ∧ (f.width = 4 ∨ f.width = 6) ∧ x = ⟨2, 32, 19, if f.width = 6 then 256 else 512, false⟩)
    ∨ (f.kind = 5 ∧ x.tx = true ∧ 3 ≤ x.name) := by
  unfold classOfEntry at h
  split at h
  · next hc => cases h; exact .inl ⟨hc.1, hc.2.1, hc.2.2, rfl⟩
  split at h
  · next hc => cases h; exact .inr (.inl ⟨hc.1, hc.2, rfl⟩)
  split at h
  · next hc => cases h; exact .inr (.inr (.inl ⟨hc.1, hc.2, rfl⟩))
  split at h
  · next hc =>
    refine .inr (.inr (.inr ⟨hc, ?_⟩))
    split at h
    · cases h; decide
    split at h
    · cases h; decide
    · cases h; decide
  · cases h

/-- Two entries of one rate class (R219). -/
theorem classes_cases {fa fb : Fmt} {x y : MatClass} (hx : classOfEntry fa = some x) (hy : classOfEntry fb = some y) (hone : x.name = y.name) :
    (fa.kind = 1 ∧ fb.kind = 1 ∧ fa.width = 16 ∧ fb.width = 16 ∧ fa.plain = true ∧ fb.plain = true ∧ x = ⟨0, 8, 34, 128, false⟩)
    ∨ (fa.kind = 1 ∧ fb.kind = 1 ∧ fa.width = 8 ∧ fb.width = 8 ∧ x = ⟨1, 16, 20, 256, false⟩)
    ∨ (fa.kind = 1 ∧ fb.kind = 1 ∧ (fa.width = 4 ∨ fa.width = 6) ∧ (fb.width = 4 ∨ fb.width = 6)
        ∧ x = ⟨2, 32, 19, if fa.width = 6 then 256 else 512, false⟩ ∧ y.kmax = if fb.width = 6 then 256 else 512)
    ∨ (fa.kind = 5 ∧ fb.kind = 5 ∧ x.tx = true) := by
  obtain ⟨ka, wa, pa, rfl⟩ | ⟨ka, wa, rfl⟩ | ⟨ka, wa, rfl⟩ | ⟨ka, ta, na⟩ := classOfEntry_cases hx <;>
  obtain ⟨kb, wb, pb, rfl⟩ | ⟨kb, wb, rfl⟩ | ⟨kb, wb, rfl⟩ | ⟨kb, tb, nb⟩ := classOfEntry_cases hy
  case inl.inl => exact .inl ⟨ka, kb, wa, wb, pa, pb, rfl⟩
  case inr.inl.inr.inl => exact .inr (.inl ⟨ka, kb, wa, wb, rfl⟩)
  case inr.inr.inl.inr.inr.inl => exact .inr (.inr (.inl ⟨ka, kb, wa, wb, rfl, rfl⟩))
  case inr.inr.inr.inr.inr.inr => exact .inr (.inr (.inr ⟨ka, kb, ta⟩))
  all_goals (dsimp only at hone; omega)

/-- Elements that share a scale, as R219 counts them for the limit on K. -/
def scaleLen (f : Fmt) : Nat := if f.scaled then f.blockLen else 1

/-- What K is a multiple of (R219). -/
def kUnit (kind : MatKind) (fa fb : Fmt) (x : MatClass) : Nat :=
  if x.tx then 32 else if x.name = 0 then 16
  else max (max (if x.name = 1 then 16 else 1) (if kind = .sparse then 2 * x.p else x.p)) (max (scaleLen fa) (scaleLen fb))

theorem kOk_iff {fa fb : Fmt} {x y : MatClass} {k : Nat} :
    kOk kind fa fb x y k = true ↔ k ≤ x.kmax ∧ k ≤ y.kmax ∧ k % kUnit kind fa fb x = 0 := by
  rw [show kOk kind fa fb x y k = (decide (k ≤ min x.kmax y.kmax) && decide (k % kUnit kind fa fb x = 0)) from rfl]
  simp only [Bool.and_eq_true, decide_eq_true_eq, le_min_iff, and_assoc]

theorem scaled_of_plain {f : Fmt} (h : f.plain = true) : f.scaled = false := by
  have hb : f.bkind = 0 := of_decide_eq_true h
  simp [Fmt.scaled, hb]

/-- The larger of two powers of two is one, and both divide it. -/
theorem max_isPowerOfTwo {a b : Nat} (ha : a.isPowerOfTwo) (hb : b.isPowerOfTwo) : (max a b).isPowerOfTwo ∧ a ∣ max a b ∧ b ∣ max a b := by
  obtain ⟨i, rfl⟩ := ha
  obtain ⟨j, rfl⟩ := hb
  obtain h | h := le_total i j
  · have hle := Nat.pow_le_pow_right (by decide : 0 < 2) h
    rw [max_eq_right hle]
    exact ⟨⟨j, rfl⟩, Nat.pow_dvd_pow 2 h, dvd_refl _⟩
  · have hle := Nat.pow_le_pow_right (by decide : 0 < 2) h
    rw [max_eq_left hle]
    exact ⟨⟨i, rfl⟩, dvd_refl _, Nat.pow_dvd_pow 2 h⟩

theorem scaleLen_isPowerOfTwo (f : Fmt) : (scaleLen f).isPowerOfTwo := by
  unfold scaleLen Fmt.blockLen
  split
  · split
    · exact ⟨4, rfl⟩
    · exact ⟨5, rfl⟩
  · exact ⟨0, rfl⟩

/-- The steps and the blocks of a row divide it (R219). -/
theorem kUnit_divides {fa fb : Fmt} {x y : MatClass} (hx : classOfEntry fa = some x) (hy : classOfEntry fb = some y) (hone : x.name = y.name)
    (ht : x.tx = false) : (if kind = .sparse then 2 * x.p else x.p) ∣ kUnit kind fa fb x
      ∧ (fa.scaled = true → fa.blockLen ∣ kUnit kind fa fb x) ∧ (fb.scaled = true → fb.blockLen ∣ kUnit kind fa fb x) := by
  have several (hn : x.name ≠ 0) (h1 : (if x.name = 1 then 16 else 1).isPowerOfTwo)
      (hp : (if kind = .sparse then 2 * x.p else x.p).isPowerOfTwo) : (if kind = .sparse then 2 * x.p else x.p) ∣ kUnit kind fa fb x
      ∧ scaleLen fa ∣ kUnit kind fa fb x ∧ scaleLen fb ∣ kUnit kind fa fb x := by
    unfold kUnit
    rw [ht, if_neg Bool.false_ne_true, if_neg hn]
    obtain ⟨hpow, -, hdvd⟩ := max_isPowerOfTwo h1 hp
    obtain ⟨hpow', hA, hB⟩ := max_isPowerOfTwo (scaleLen_isPowerOfTwo fa) (scaleLen_isPowerOfTwo fb)
    obtain ⟨-, hl, hr⟩ := max_isPowerOfTwo hpow hpow'
    exact ⟨hdvd.trans hl, hA.trans hr, hB.trans hr⟩
  have blocks {f : Fmt} {u : Nat} (hs : scaleLen f ∣ u) (hf : f.scaled = true) : f.blockLen ∣ u := by
    rwa [scaleLen, if_pos hf] at hs
  obtain ⟨-, -, -, -, pa, pb, rfl⟩ | ⟨-, -, -, -, rfl⟩ | ⟨-, -, -, -, rfl, -⟩ | ⟨-, -, htx⟩ := classes_cases hx hy hone
  · rw [scaled_of_plain pa, scaled_of_plain pb]
    refine ⟨?_, by simp, by simp⟩
    change _ ∣ 16
    split <;> decide
  · obtain ⟨hstep, hA, hB⟩ := several (by decide) ⟨4, rfl⟩ (by split; exacts [⟨5, rfl⟩, ⟨4, rfl⟩])
    exact ⟨hstep, blocks hA, blocks hB⟩
  · obtain ⟨hstep, hA, hB⟩ := several (Nat.succ_ne_zero 1) ⟨0, rfl⟩ (by split; exacts [⟨6, rfl⟩, ⟨5, rfl⟩])
    exact ⟨hstep, blocks hA, blocks hB⟩
  · rw [ht] at htx
    cases htx

/-- An entry of KIND 5 that is valid has blocks of its own, neither plain nor scaled (R164, R170). -/
theorem tx_notPlain {look : Nat → DWord} {e : Nat} (hv : fmtValid look e = true) (hk : (fmtOf (look e)).kind = 5) :
    (fmtOf (look e)).plain = false := by
  unfold fmtValid Fmt.selfOk Fmt.kindOk at hv
  dsimp only at hv
  rw [hk] at hv
  simp only [Bool.and_eq_true, decide_eq_true_eq] at hv
  unfold Fmt.plain
  simp [hv]

/-! ### The checks -/

/-- The formats word of a matrix instruction (R217). -/
def matFormats (w : Work) (n : Ins) : Nat := w.src64 true n n.sa (lowLane w.act)

/-- The shape word of a matrix instruction (R218). -/
def matShape (w : Work) (n : Ins) : Nat := (w.src true n n.sb 0 (lowLane w.act)).toNat

/-- The third operand of a matrix instruction: the metadata's address, or a cue's record (R225, R236). -/
def matThird (w : Work) (n : Ins) : Nat := (w.src true n n.sc 0 (lowLane w.act)).toNat

/-- The rate classes of the two entries, if they are valid and of one class (R219). -/
def matBoth (w : Work) (n : Ins) : Option (MatClass × MatClass) :=
  if !fmtValid w.look (field (matFormats w n) 5 0) || !fmtValid w.look (field (matFormats w n) 11 6) then none
  else match classOfEntry (w.fmt (field (matFormats w n) 5 0)), classOfEntry (w.fmt (field (matFormats w n) 11 6)) with
    | some x, some y => if x.name = y.name then some (x, y) else none
    | _, _ => none

/-- The operand words have a field that trap 0x02 refuses (R220). -/
def matRefused (w : Work) (n : Ins) (kind : MatKind) : Prop :=
  let fb := matFormats w n
  let sh := matShape w n
  let sc := matThird w n
  let kBad : Bool := match matBoth w n with
    | some (x, y) => !kOk kind (w.fmt (field fb 5 0)) (w.fmt (field fb 11 6)) x y (16 * (field sh 9 5 + 1))
    | none => false
  fb / 2 ^ 62 ≠ 0 ∨ field fb 23 22 ≠ 0 ∨ sh / 2 ^ 15 ≠ 0 ∨ 256 < field sh 14 10 * 8 + 8 * (sh % 32 + 1)
    ∨ field fb 42 24 % 16 ≠ 0 ∨ field fb 61 43 % 16 ≠ 0
    ∨ (field fb 42 24 ≠ 0 ∧ !(w.fmt (field fb 5 0)).scaled) ∨ (field fb 61 43 ≠ 0 ∧ !(w.fmt (field fb 11 6)).scaled)
    ∨ (kind = .sparse ∧ (sc / 2 ^ 19 ≠ 0 ∨ sc % 256 ≠ 0)) ∨ (kind = .cued ∧ 63 < sc % 256) ∨ kBad = true

/-- What a matrix instruction whose entries are of class `x` works on (R217 to R219). -/
def matCfg (w : Work) (n : Ins) (kind : MatKind) (x : MatClass) : MatCfg :=
  let fb := matFormats w n
  let sh := matShape w n
  let fa := w.fmt (field fb 5 0)
  let fbb := w.fmt (field fb 11 6)
  let k := 16 * (field sh 9 5 + 1)
  let cols := 8 * (sh % 32 + 1)
  { fa := fa, fb := fbb, k := k, n := cols, coff := 8 * field sh 14 10, p := if kind = .sparse then 2 * x.p else x.p, lead := x.lead, tx := x.tx,
    ascl := field fb 42 24, bscl := field fb 61 43, meta_ := matThird w n, tile := n.mod % 4, a := n.mod / 4 % 8, b := n.mod / 32 % 8,
    ranges :=
      (if fa.scaled then [(field fb 42 24, field fb 42 24 + 128 * (k / fa.blockLen) - 1)] else [])
      ++ (if fbb.scaled then [(field fb 61 43, field fb 61 43 + cols * (k / fbb.blockLen) - 1)] else [])
      ++ (if kind = .sparse then [(matThird w n, matThird w n + 8191)] else []) }

/-- The checks of an instruction's entries, as R220 has them. -/
def matEntries (w : Work) (n : Ins) (kind : MatKind) : Option Nat :=
  let fb := matFormats w n
  w.matEntry kind (field fb 5 0) (field fb 11 6) (field fb 17 12) (field fb 19 18) (field fb 21 20)

/-- The checks that follow that of the operand words (R220). -/
def matAfter (w : Work) (n : Ins) (kind : MatKind) : Except TrapInfo MatCfg :=
  match matEntries w n kind, matBoth w n with
  | some e, _ => .error { cause := 0x06, info := e }
  | none, none => .error { cause := 0x06, info := field (matFormats w n) 5 0 }
  | none, some (x, _) =>
    match (matCfg w n kind x).ranges.find? fun r => w.E.size ≤ r.2 with
    | some r => .error (stageOut r.1)
    | none =>
      if (w.E.aSlots.find? (n.mod / 4 % 8)).isNone then .error { cause := 0x10, info := n.mod / 4 % 8 }
      else if (w.E.bSlots.find? (n.mod / 32 % 8)).isNone then .error { cause := 0x10, info := 8 + n.mod / 32 % 8 }
      else if (w.E.tiles.find? (n.mod % 4)).isNone then .error { cause := 0x10, info := 16 + n.mod % 4 }
      else .ok (matCfg w n kind x)

theorem matCheck_refused (h : matRefused w n kind) : w.matCheck n kind = .error { cause := 0x02 } := if_pos h

theorem matCheck_of (h : ¬matRefused w n kind) : w.matCheck n kind = matAfter w n kind := if_neg h

/-- The causes that the checks of a matrix instruction have (R220). -/
theorem matCheck_cause {e : TrapInfo} (h : w.matCheck n kind = .error e) :
    e.cause = 0x02 ∨ e.cause = 0x06 ∨ e.cause = 0x09 ∨ e.cause = 0x10 := by
  by_cases hr : matRefused w n kind
  · rw [matCheck_refused hr] at h
    cases h
    exact .inl rfl
  rw [matCheck_of hr, matAfter] at h
  split at h
  · cases h; exact .inr (.inl rfl)
  · cases h; exact .inr (.inl rfl)
  split at h
  · cases h; exact .inr (.inr (.inl rfl))
  split at h
  · cases h; exact .inr (.inr (.inr rfl))
  split at h
  · cases h; exact .inr (.inr (.inr rfl))
  split at h
  · cases h; exact .inr (.inr (.inr rfl))
  · cases h

/-- What an instruction that passes has passed (R220). -/
theorem matCheck_passed {c : MatCfg} (h : w.matCheck n kind = .ok c) : ¬matRefused w n kind ∧ matEntries w n kind = none
    ∧ ∃ x y, matBoth w n = some (x, y) ∧ c = matCfg w n kind x ∧ (w.E.slot false c.a).isSome = true ∧ (w.E.slot true c.b).isSome = true
      ∧ (w.E.tiles.find? c.tile).isSome = true := by
  by_cases hr : matRefused w n kind
  · rw [matCheck_refused hr] at h
    cases h
  rw [matCheck_of hr, matAfter] at h
  refine ⟨hr, ?_⟩
  split at h
  · cases h
  · cases h
  next x y hentry hboth =>
  refine ⟨hentry, x, y, hboth, ?_⟩
  split at h
  · cases h
  split at h
  · cases h
  next ha =>
  split at h
  · cases h
  next hb =>
  split at h
  · cases h
  next ht =>
  cases h
  have there {α : Type} {o : Option α} (hn : ¬o.isNone = true) : o.isSome = true := Option.isNone_eq_false_iff.1 (Bool.eq_false_iff.2 hn)
  exact ⟨rfl, there ha, there hb, there ht⟩

/-- Operand words with a field that R217, R218, R225 or R236 does not allow are refused (R220). -/
theorem matRefused_of
    (h : let fb := matFormats w n
      let sh := matShape w n
      let sc := matThird w n
      field fb 63 62 ≠ 0 ∨ field fb 23 22 ≠ 0 ∨ 2 ^ 15 ≤ sh ∨ 256 < 8 * field sh 14 10 + 8 * (field sh 4 0 + 1)
        ∨ field fb 42 24 % 16 ≠ 0 ∨ field fb 61 43 % 16 ≠ 0 ∨ (kind = .sparse ∧ (2 ^ 19 ≤ sc ∨ sc % 256 ≠ 0))
        ∨ (kind = .cued ∧ 63 < sc % 256)) : matRefused w n kind := by
  have h62 (hne : field (matFormats w n) 63 62 ≠ 0) : matFormats w n / 2 ^ 62 ≠ 0 := fun hz =>
    hne (by rw [field, Nat.shiftRight_eq_div_pow, hz, Nat.zero_mod])
  obtain h | h | h | h | h | h | ⟨hk, h⟩ | ⟨hk, h⟩ := h
  · exact .inl (h62 h)
  · exact .inr (.inl h)
  · exact .inr (.inr (.inl (by omega)))
  · refine .inr (.inr (.inr (.inl ?_)))
    rw [show field (matShape w n) 4 0 = matShape w n % 32 from rfl] at h
    omega
  · exact .inr (.inr (.inr (.inr (.inl h))))
  · exact .inr (.inr (.inr (.inr (.inr (.inl h)))))
  · exact .inr (.inr (.inr (.inr (.inr (.inr (.inr (.inr (.inl ⟨hk, by omega⟩))))))))
  · exact .inr (.inr (.inr (.inr (.inr (.inr (.inr (.inr (.inr (.inl ⟨hk, h⟩)))))))))

/-! ### What an instruction that passes has -/

/-- Both entries of an instruction that passes are valid, of one class, and of the kinds that R220 asks for. -/
structure MatFits (w : Work) (n : Ins) (kind : MatKind) (x y : MatClass) : Prop where
  classA : classOfEntry (w.fmt (field (matFormats w n) 5 0)) = some x
  classB : classOfEntry (w.fmt (field (matFormats w n) 11 6)) = some y
  one : x.name = y.name
  depth : kOk kind (w.fmt (field (matFormats w n) 5 0)) (w.fmt (field (matFormats w n) 11 6)) x y (16 * (field (matShape w n) 9 5 + 1)) = true
  validA : fmtValid w.look (field (matFormats w n) 5 0) = true

theorem matBoth_fits {x y : MatClass} (hb : matBoth w n = some (x, y)) (hr : ¬matRefused w n kind) : MatFits w n kind x y := by
  have hdepth : kOk kind (w.fmt (field (matFormats w n) 5 0)) (w.fmt (field (matFormats w n) 11 6)) x y
      (16 * (field (matShape w n) 9 5 + 1)) = true := by
    by_contra hk
    refine hr (.inr (.inr (.inr (.inr (.inr (.inr (.inr (.inr (.inr (.inr ?_))))))))))
    rw [hb]
    simpa using hk
  unfold matBoth at hb
  split at hb
  · cases hb
  next hv =>
  split at hb
  · next x' y' hx hy =>
    split at hb
    · next hone =>
      cases hb
      refine ⟨hx, hy, hone, hdepth, ?_⟩
      by_contra hf
      exact hv (by simp [hf])
    · cases hb
  · cases hb

/-- What the checks of the entries leave (R220). -/
theorem matEntry_none {af bf cf abl bbl : Nat} (h : w.matEntry kind af bf cf abl bbl = none) :
    cf = 0 ∧ abl = (w.fmt af).blen ∧ bbl = (w.fmt bf).blen
      ∧ (kind = .sparse → (w.fmt af).plain = true ∧ (w.fmt bf).plain = true) := by
  unfold Work.matEntry at h
  dsimp only at h
  repeat (split at h; · cases h)
  next _ _ hcf _ habl hbbl ha hb =>
    refine ⟨not_not.1 hcf, not_not.1 habl, not_not.1 hbbl, fun hk => ⟨?_, ?_⟩⟩
    · simpa [hk] using ha
    · simpa [hk] using hb

/-- What a matrix instruction that passes its checks works on: what its operand words say, and what the matrix has that it names (R217 to R220). -/
structure MatPasses (w : Work) (n : Ins) (kind : MatKind) (c : MatCfg) : Prop where
  cfg : ∃ x y, MatFits w n kind x y ∧ c = matCfg w n kind x
  computed : field (matFormats w n) 17 12 = 0
  blocksA : field (matFormats w n) 19 18 = c.fa.blen
  blocksB : field (matFormats w n) 21 20 = c.fb.blen
  plain : kind = .sparse → c.fa.plain = true ∧ c.fb.plain = true
  columns : c.coff + c.n ≤ 256
  slotA : (w.E.slot false c.a).isSome = true
  slotB : (w.E.slot true c.b).isSome = true
  tile : (w.E.tiles.find? c.tile).isSome = true

theorem matCheck_passes {c : MatCfg} (h : w.matCheck n kind = .ok c) : MatPasses w n kind c := by
  obtain ⟨hr, hentry, x, y, hboth, rfl, ha, hb, ht⟩ := matCheck_passed h
  obtain ⟨hcf, hablen, hbblen, hplain⟩ := matEntry_none hentry
  refine ⟨⟨x, y, matBoth_fits hboth hr, rfl⟩, hcf, hablen, hbblen, hplain, ?_, ha, hb, ht⟩
  by_contra hcols
  refine hr (.inr (.inr (.inr (.inl ?_))))
  change ¬(8 * field (matShape w n) 14 10 + 8 * (matShape w n % 32 + 1) ≤ 256) at hcols
  omega

/-- Entries of KIND 5 have no sparse form (R170, R220). -/
theorem MatPasses.tx_dense {c : MatCfg} (h : MatPasses w n kind c) (hk : c.fa.kind = 5) : kind ≠ .sparse := by
  obtain ⟨x, y, hf, rfl⟩ := h.cfg
  intro hs
  have hplain := (h.plain hs).1
  rw [show (matCfg w n kind x).fa.plain = false from tx_notPlain hf.validA hk] at hplain
  cases hplain

/-- The rate class of what passes: P, the lead bit, and the limits on K (R219, R220). -/
theorem MatPasses.rates {c : MatCfg} (h : MatPasses w n kind c) : let twice := if (kind = .sparse : Bool) then 2 else 1
    (c.fa.kind = 1 → c.tx = false ∧ c.fb.kind = 1
      ∧ (c.fa.width = 16 → c.fb.width = 16 ∧ c.p = 8 * twice ∧ c.lead = 34 ∧ c.k ≤ 128)
      ∧ (c.fa.width = 8 → c.fb.width = 8 ∧ c.p = 16 * twice ∧ c.lead = 20 ∧ c.k ≤ 256)
      ∧ (c.fa.width = 4 ∨ c.fa.width = 6 → (c.fb.width = 4 ∨ c.fb.width = 6) ∧ c.p = 32 * twice ∧ c.lead = 19 ∧ c.k ≤ 512
          ∧ (c.fa.width = 6 ∨ c.fb.width = 6 → c.k ≤ 256)))
    ∧ (c.fa.kind = 1 ∨ (c.fa.kind = 5 ∧ c.tx = true ∧ c.fb.kind = 5 ∧ c.k % 32 = 0 ∧ kind ≠ .sparse)) := by
  intro twice
  have htx := h.tx_dense
  obtain ⟨x, y, hf, rfl⟩ := h.cfg
  have hp : (matCfg w n kind x).p = x.p * twice := by
    change (if kind = .sparse then 2 * x.p else x.p) = _
    by_cases hs : kind = .sparse <;> simp [twice, hs, Nat.mul_comm]
  obtain ⟨hkx, hky, hunit⟩ := kOk_iff.1 hf.depth
  obtain ⟨ka, kb, wa, wb, -, -, hx⟩ | ⟨ka, kb, wa, wb, hx⟩ | ⟨ka, kb, wa, wb, hx, hy⟩ | ⟨ka, kb, hx⟩ :=
    classes_cases hf.classA hf.classB hf.one
  · subst hx
    have none16 {v : Nat} (hv : v ≠ 16) (he : (w.fmt (field (matFormats w n) 5 0)).width = v) : False := hv (he.symm.trans wa)
    exact ⟨fun _ => ⟨rfl, kb, fun _ => ⟨wb, hp, rfl, hkx⟩, fun he => (none16 (by decide) he).elim,
      fun he => he.elim (fun he => (none16 (by decide) he).elim) fun he => (none16 (by decide) he).elim⟩, .inl ka⟩
  · subst hx
    have none8 {v : Nat} (hv : v ≠ 8) (he : (w.fmt (field (matFormats w n) 5 0)).width = v) : False := hv (he.symm.trans wa)
    exact ⟨fun _ => ⟨rfl, kb, fun he => (none8 (by decide) he).elim, fun _ => ⟨wb, hp, rfl, hkx⟩,
      fun he => he.elim (fun he => (none8 (by decide) he).elim) fun he => (none8 (by decide) he).elim⟩, .inl ka⟩
  · rw [hx] at hkx
    rw [hy] at hky
    have hk : (matCfg w n kind x).k ≤ 512 ∧ ((w.fmt (field (matFormats w n) 5 0)).width = 6 ∨ (w.fmt (field (matFormats w n) 11 6)).width = 6
        → (matCfg w n kind x).k ≤ 256) := by
      refine ⟨hkx.trans (by split <;> decide), fun he => he.elim (fun he => ?_) fun he => ?_⟩
      · rwa [if_pos he] at hkx
      · rwa [if_pos he] at hky
    subst hx
    have small {v : Nat} (hv : 6 < v) (he : (w.fmt (field (matFormats w n) 5 0)).width = v) : False := by omega
    exact ⟨fun _ => ⟨rfl, kb, fun he => (small (by decide) he).elim, fun he => (small (by decide) he).elim, fun _ => ⟨wb, hp, rfl, hk⟩⟩, .inl ka⟩
  · rw [kUnit, if_pos hx] at hunit
    exact ⟨fun he => absurd (ka.symm.trans he) (by decide), .inr ⟨ka, hx, kb, hunit, htx ka⟩⟩

/-- The steps, the blocks and the groups of four of what passes divide its rows, and its columns lie in the tile (R215, R218, R219, R225). -/
structure MatDivides (c : MatCfg) (sparse : Bool) : Prop where
  steps : c.tx = false → c.p ∣ c.k
  blocksA : c.tx = false → c.fa.scaled = true → c.fa.blockLen ∣ c.k
  blocksB : c.tx = false → c.fb.scaled = true → c.fb.blockLen ∣ c.k
  groups : 4 ∣ c.k
  sparse : sparse = true → c.tx = false ∧ c.fa.scaled = false
  columns : c.coff + c.n ≤ 256

theorem MatPasses.divides {c : MatCfg} (h : MatPasses w n kind c) : MatDivides c (kind = .sparse) := by
  have hrates := h.rates.2
  have hfloat := h.rates.1
  have hplain := h.plain
  have hcols := h.columns
  obtain ⟨x, y, hf, rfl⟩ := h.cfg
  have hk : kUnit kind (matCfg w n kind x).fa (matCfg w n kind x).fb x ∣ (matCfg w n kind x).k := Nat.dvd_of_mod_eq_zero (kOk_iff.1 hf.depth).2.2
  have hunit (ht : (matCfg w n kind x).tx = false) := kUnit_divides (kind := kind) hf.classA hf.classB hf.one ht
  refine ⟨fun ht => (hunit ht).1.trans hk, fun ht hs => ((hunit ht).2.1 hs).trans hk, fun ht hs => ((hunit ht).2.2 hs).trans hk,
    dvd_mul_of_dvd_left (by decide : 4 ∣ 16) _, fun hs => ?_, hcols⟩
  have hs := of_decide_eq_true hs
  refine ⟨hrates.elim (fun ha => (hfloat ha).1) fun ⟨_, _, _, _, hdense⟩ => absurd hs hdense, scaled_of_plain (hplain hs).1⟩

end
end Machine
end Sys2Proof
end

section
/-! What a matrix instruction leaves in its tile (O31): the rows of the active lanes, element by element (R215, R216, R221 to R225, R229). -/

namespace Sys2Proof

open Machine

namespace Machine

/-! ### Elements put in their places -/

/-- One element of a tile, and the flags so far. -/
def putElem (off : Nat) (st : Store 32 × Word) (r j : Nat) (x : Nat × Word) : Store 32 × Word :=
  (st.1.set (256 * r + off + j) (BitVec.ofNat 32 x.1), st.2 ||| x.2)

/-- A row of a tile: each of its columns from one on is made anew from what it held. -/
def putRow (off : Nat) (elt : Nat → Nat → Nat → Nat × Word) (n : Nat) (st : Store 32 × Word) (r : Nat) : Store 32 × Word :=
  (List.range n).foldl (fun st j => putElem off st r j (elt r j (st.1.get (256 * r + off + j)).toNat)) st

/-- The rows of some lanes, each with flags of its own. -/
def putRows (off : Nat) (elt : Nat → Nat → Nat → Nat × Word) (n : Nat) (fl : Nat → Word) (lanes : List Nat) (st : Store 32 × Word) :
    Store 32 × Word :=
  lanes.foldl (fun st r => putRow off elt n (st.1, st.2 ||| fl r) r) st

section
variable {off n : Nat} {elt : Nat → Nat → Nat → Nat × Word} {fl : Nat → Word}

theorem putRow_succ (st : Store 32 × Word) (r : Nat) : putRow off elt (n + 1) st r
    = putElem off (putRow off elt n st r) r n (elt r n ((putRow off elt n st r).1.get (256 * r + off + n)).toNat) := by
  unfold putRow
  rw [List.range_succ, List.foldl_append]
  rfl

/-- What a row leaves of the tile: its own columns are made anew, from what they held before the row. -/
theorem get_putRow (h : off + n ≤ 256) (st : Store 32 × Word) (r q : Nat) {i : Nat} (hi : i < 256) : (putRow off elt n st r).1.get (256 * q + i)
    = if q = r ∧ off ≤ i ∧ i < off + n then BitVec.ofNat 32 (elt r (i - off) (st.1.get (256 * q + i)).toNat).1 else st.1.get (256 * q + i) := by
  induction n generalizing q i with
  | zero => rw [if_neg (by omega)]; rfl
  | succ n ih =>
    have hold : (putRow off elt n st r).1.get (256 * r + off + n) = st.1.get (256 * r + off + n) := by
      rw [Nat.add_assoc, ih (by omega) r (by omega), if_neg (by omega)]
    rw [putRow_succ, hold]
    unfold putElem
    rw [Store.get_set, ih (by omega) q hi]
    by_cases hlast : q = r ∧ i = off + n
    · obtain ⟨rfl, rfl⟩ := hlast
      rw [if_pos (by omega), if_pos (by omega), Nat.add_sub_cancel_left, Nat.add_assoc]
    · rw [if_neg (by omega)]
      exact if_congr (by omega) rfl rfl

/-- The flags that a row leaves. -/
theorem flags_putRow (h : off + n ≤ 256) (st : Store 32 × Word) (r : Nat) : (putRow off elt n st r).2
    = st.2 ||| orFlags ((List.range n).map fun j => (elt r j (st.1.get (256 * r + off + j)).toNat).2) := by
  induction n with
  | zero => simp [putRow, orFlags]
  | succ n ih =>
    have hold : (putRow off elt n st r).1.get (256 * r + off + n) = st.1.get (256 * r + off + n) := by
      rw [Nat.add_assoc, get_putRow (by omega) st r r (by omega), if_neg (by omega)]
    rw [putRow_succ, hold]
    unfold putElem
    rw [ih (by omega), List.range_succ, List.map_append, orFlags_append, BitVec.or_assoc]
    simp [orFlags]

theorem putRows_cons (r : Nat) (lanes : List Nat) (st : Store 32 × Word) :
    putRows off elt n fl (r :: lanes) st = putRows off elt n fl lanes (putRow off elt n (st.1, st.2 ||| fl r) r) := rfl

/-- What the rows of some lanes leave of the tile. -/
theorem get_putRows (h : off + n ≤ 256) {lanes : List Nat} (hd : lanes.Nodup) (st : Store 32 × Word) (q : Nat) {i : Nat} (hi : i < 256) :
    (putRows off elt n fl lanes st).1.get (256 * q + i)
      = if q ∈ lanes ∧ off ≤ i ∧ i < off + n then BitVec.ofNat 32 (elt q (i - off) (st.1.get (256 * q + i)).toNat).1
        else st.1.get (256 * q + i) := by
  induction lanes generalizing st with
  | nil => simp [putRows]
  | cons r lanes ih =>
    obtain ⟨hr, hd⟩ := List.nodup_cons.1 hd
    rw [putRows_cons, ih hd, get_putRow h _ _ _ hi]
    by_cases hq : q = r
    · subst hq
      simp only [hr, false_and, if_false, true_and, List.mem_cons_self]
    · simp only [hq, false_and, if_false, List.mem_cons, false_or]

/-- The flags that the rows of some lanes leave. -/
theorem flags_putRows (h : off + n ≤ 256) {lanes : List Nat} (hd : lanes.Nodup) (st : Store 32 × Word) : (putRows off elt n fl lanes st).2
    = st.2 ||| orFlags (lanes.flatMap fun r => fl r :: (List.range n).map fun j => (elt r j (st.1.get (256 * r + off + j)).toNat).2) := by
  induction lanes generalizing st with
  | nil => simp [putRows, orFlags]
  | cons r lanes ih =>
    obtain ⟨hr, hd⟩ := List.nodup_cons.1 hd
    have hrest : (lanes.flatMap fun q => fl q :: (List.range n).map fun j =>
          (elt q j ((putRow off elt n (st.1, st.2 ||| fl r) r).1.get (256 * q + off + j)).toNat).2)
        = lanes.flatMap fun q => fl q :: (List.range n).map fun j => (elt q j (st.1.get (256 * q + off + j)).toNat).2 := by
      refine List.flatMap_congr fun q hq => congrArg _ (List.map_congr_left fun j hj => ?_)
      rw [Nat.add_assoc, get_putRow h _ _ _ (by have := List.mem_range.1 hj; omega), if_neg (by rintro ⟨rfl, -⟩; exact hr hq)]
    rw [putRows_cons, ih hd, hrest, flags_putRow h, List.flatMap_cons, List.cons_append, orFlags_cons, orFlags_append]
    simp only [BitVec.or_assoc]

/-- Rows whose elements are made alike are alike. -/
theorem putRows_congr {elt' : Nat → Nat → Nat → Nat × Word} (he : ∀ r j v, j < n → elt r j v = elt' r j v) (lanes : List Nat)
    (st : Store 32 × Word) : putRows off elt n fl lanes st = putRows off elt' n fl lanes st := by
  have hrow (st : Store 32 × Word) (r : Nat) : putRow off elt n st r = putRow off elt' n st r :=
    List.foldl_ext _ _ _ fun st j hj => by rw [he r j _ (List.mem_range.1 hj)]
  unfold putRows
  simp only [hrow]

end

/-! ### The elements of A and of B -/

section
variable {w : Work} {c : MatCfg} {sparse sat : Bool}

theorem leNat_stageRead_one (e : Ensemble) (a : Nat) : leNat (e.stageRead a 1) = (e.stage.get a).toNat := by
  simp [Ensemble.stageRead, Store.getMany, leNat]

/-- The elements of a row or a column, each under its block's scale (R215, R216). -/
theorem matElems_eq {f : Fmt} {k count : Nat} (hd : f.scaled = true → f.blockLen ∣ k) (hc : count ≤ k) (str table : Nat) :
    matElems f count str (w.E.stageRead table (if f.scaled then k / f.blockLen else 0)) = (List.range count).map (matAt w f str table) := by
  refine List.map_congr_left fun q hq => ?_
  have hq := List.mem_range.1 hq
  unfold matAt
  by_cases hs : f.scaled = true
  · have hblock : q / f.blockLen < k / f.blockLen :=
      Nat.div_lt_div_of_lt_of_dvd (hd hs) (by omega)
    rw [if_pos hs, if_pos hs, if_pos hs, leNat_stageRead_one, Ensemble.stageRead, Store.getMany, getD_map_range _ _ hblock]
  · rw [if_neg hs, if_neg hs]

theorem div_two_pow_add (m a b : Nat) : m / 2 ^ (a + b) = m / 2 ^ a / 2 ^ b := by
  rw [Nat.div_div_eq_div_mul, pow_add]

/-- A sparse row has its elements where its metadata puts them (R225). -/
theorem spread_row {k m : Nat} (hk : 4 ∣ k) (at_ : Nat → Machine.Num) :
    (spread ((List.range (k / 2)).map at_) m k).1 = (List.range k).map fun q =>
      let x := m / 2 ^ (4 * (q / 4))
      if x / 4 % 4 ≤ x % 4 then none
      else if q % 4 = x % 4 then some (at_ (2 * (q / 4)))
      else if q % 4 = x / 4 % 4 then some (at_ (2 * (q / 4) + 1))
      else none := by
  refine List.map_congr_left fun q hq => ?_
  have hq := List.mem_range.1 hq
  have hkept {a : Nat} (ha : a < k / 2) : ((List.range (k / 2)).map at_)[a]? = some (at_ a) := by simp [ha]
  dsimp only
  rw [getD_map_range _ _ (by omega : q / 4 < k / 4), div_two_pow_add, hkept (by omega), hkept (by omega)]
  rfl

theorem spread_malformed (kept : List Machine.Num) (m k : Nat) : (spread kept m k).2 = (List.range (k / 4)).any fun g =>
    decide (m / 2 ^ (4 * g) / 4 % 4 ≤ m / 2 ^ (4 * g) % 4) := by
  unfold spread
  dsimp only
  rw [List.any_map]
  refine congrArg _ (funext fun g => ?_)
  exact decide_eq_decide.2 (by dsimp only; rw [div_two_pow_add]; rfl)

/-- The elements of a row of A, as a meaning of the model has them (R215, R225). -/
def rowOfA (e : Ensemble) (c : MatCfg) (sparse : Bool) (str r : Nat) : List (Option Machine.Num) × Bool :=
  let na := c.k / c.fa.blockLen
  let elems := matElems c.fa (if sparse then c.k / 2 else c.k) str (e.stageRead (c.ascl + r * na) (if c.fa.scaled then na else 0))
  if sparse then spread elems (leNat (e.stageRead (c.meta_ + 64 * r) 64)) c.k else (elems.map some, false)

theorem rowOfA_elems (h : MatDivides c sparse) (ht : c.tx = false) (r : Nat) :
    (rowOfA w.E c sparse (matString w false c.a r) r).1 = (List.range c.k).map (matA w c sparse r) := by
  unfold rowOfA
  dsimp only
  rw [matElems_eq (h.blocksA ht) (by split <;> omega)]
  cases sparse with
  | true => exact spread_row h.groups _
  | false => exact List.map_map

theorem rowOfA_malformed (c : MatCfg) (sparse : Bool) (str r : Nat) : (rowOfA w.E c sparse str r).2 = (sparse && malformed w c r) := by
  unfold rowOfA
  cases sparse with
  | true => exact spread_malformed _ _ _
  | false => rfl

/-! ### The steps -/

theorem matSteps_map {α β : Type} (step : Nat → β → Nat × Word) (g : α → β) (v : Nat) (l : List α) :
    matSteps step v (l.map g) = matSteps (fun v a => step v (g a)) v l := by
  unfold matSteps
  rw [List.foldl_map]

/-- A row cut into the elements of each step (R221). -/
theorem pieces_range {α : Type} (p m : Nat) (g : Nat → α) :
    pieces p m ((List.range (p * m)).map g) = (List.range m).map fun k => (List.range p).map fun q => g (p * k + q) := by
  induction m generalizing g with
  | zero => rfl
  | succ m ih =>
    have hcut : (List.range (p * (m + 1))).map g = (List.range p).map g ++ (List.range (p * m)).map fun q => g (p + q) := by
      rw [Nat.mul_succ, Nat.add_comm, List.range_add, List.map_append, List.map_map]
      rfl
    have hlen : ((List.range p).map g).length = p := by simp
    rw [pieces, hcut, List.take_left' hlen, List.drop_left' hlen, ih, List.range_succ_eq_map, List.map_cons, List.map_map]
    simp only [Nat.mul_zero, Nat.zero_add, Function.comp_def, Nat.mul_succ, Nat.add_comm _ p, Nat.add_assoc]

theorem pieces_of_dvd {α : Type} {p k : Nat} (h : p ∣ k) (g : Nat → α) :
    pieces p (k / p) ((List.range k).map g) = (List.range (k / p)).map fun i => (List.range p).map fun q => g (p * i + q) := by
  have hk := pieces_range p (k / p) g
  rwa [Nat.mul_div_cancel' h] at hk

/-- The steps of an element over its row of A and its column of B (R221, R222). -/
theorem matSteps_float (h : MatDivides c sparse) (ht : c.tx = false) (r j v : Nat) :
    matSteps (stepFloat c.lead sat) v (pieces c.p (c.k / c.p) ((rowOfA w.E c sparse (matString w false c.a r) r).1.zip
        (matElems c.fb c.k (matString w true c.b j)
          (w.E.stageRead (c.bscl + j * (c.k / c.fb.blockLen)) (if c.fb.scaled then c.k / c.fb.blockLen else 0)))))
      = matElement w c sparse sat r j v := by
  rw [rowOfA_elems h ht, matElems_eq (h.blocksB ht) le_rfl, List.zip_map', pieces_of_dvd (h.steps ht), matSteps_map]
  unfold matElement
  rw [ht]
  rfl

/-- The steps of an element over the TX blocks of its row of A and its column of B (R221, R223). -/
theorem matSteps_tx (ht : c.tx = true) (r j v : Nat) :
    matSteps (fun v (ab : (Nat × List Int) × (Nat × List Int)) => stepTx c.fa c.fb sat v ab.1 ab.2) v
      (((List.range (c.k / 32)).map fun b => txTerms c.fa (matString w false c.a r / 2 ^ ((16 + 32 * c.fa.width) * b))).zip
        ((List.range (c.k / 32)).map fun b => txTerms c.fb (matString w true c.b j / 2 ^ ((16 + 32 * c.fb.width) * b))))
      = matElement w c sparse sat r j v := by
  rw [List.zip_map', matSteps_map]
  unfold matElement
  rw [ht]
  rfl

/-- What a matrix instruction computes: the rows of the active lanes, element by element (R221, R224, R225, R229). -/
theorem matCompute_eq (h : MatDivides c sparse) (lanes : List Nat) (tile : Store 32) : matCompute w.E c sparse sat lanes tile
    = putRows c.coff (matElement w c sparse sat) c.n (fun r => if sparse && malformed w c r then flagInv else 0#32) lanes (tile, 0#32) := by
  cases ht : c.tx with
  | true =>
    have hdense : sparse = false := by
      cases sparse with
      | true => exact absurd (ht.symm.trans (h.sparse rfl).1) (by decide)
      | false => rfl
    subst hdense
    refine Eq.trans ?_ (putRows_congr (elt := fun r j v =>
      matSteps (fun v (ab : (Nat × List Int) × (Nat × List Int)) => stepTx c.fa c.fb sat v ab.1 ab.2) v
        (((List.range (c.k / 32)).map fun b => txTerms c.fa (matString w false c.a r / 2 ^ ((16 + 32 * c.fa.width) * b))).zip
          (((List.range c.n).map fun j => (List.range (c.k / 32)).map fun b =>
            txTerms c.fb (matString w true c.b j / 2 ^ ((16 + 32 * c.fb.width) * b))).getD j []))) (fun r j v hj => ?_) lanes _)
    · unfold matCompute
      rw [ht, if_pos rfl]
      refine List.foldl_ext _ _ _ fun st r _ => ?_
      rw [show (st.1, st.2 ||| if (false && malformed w c r) = true then flagInv else 0#32) = st from Prod.ext rfl (BitVec.or_zero)]
      rfl
    · rw [getD_map_range _ _ hj]
      exact matSteps_tx ht r j v
  | false =>
    refine Eq.trans ?_ (putRows_congr (elt := fun r j v =>
      matSteps (stepFloat c.lead sat) v (pieces c.p (c.k / c.p) ((rowOfA w.E c sparse (matString w false c.a r) r).1.zip
        (((List.range c.n).map fun j => matElems c.fb c.k (matString w true c.b j)
          (w.E.stageRead (c.bscl + j * (c.k / c.fb.blockLen)) (if c.fb.scaled then c.k / c.fb.blockLen else 0))).getD j []))))
      (fun r j v hj => ?_) lanes _)
    · unfold matCompute
      rw [ht, if_neg Bool.false_ne_true]
      refine List.foldl_ext _ _ _ fun st r _ => ?_
      beta_reduce
      rw [← rowOfA_malformed c sparse (matString w false c.a r) r]
      rfl
    · rw [getD_map_range _ _ hj]
      exact matSteps_float h ht r j v

end
end Machine
end Sys2Proof
end

section
/-! The issue of a matrix instruction (O31): what holds it, and what it leaves of the array, its tile and the cue actions (R227, R235, R236). -/

namespace Sys2Proof

open Machine

namespace Machine

section
variable {n : Ins} {s : State} {w : Work} {kind : MatKind} {c : MatCfg}

/-! ### What holds it -/

/-- The array, or the slots and the tile that an instruction names, are in use (R227). -/
theorem arrayHeld_iff : w.arrayHeld n = true ↔
    (∃ m ∈ (w.s.core w.E.core).mats, ∀ t, m.start = some t → w.s.now < t + m.occ)
    ∨ w.s.slotWriting w.T.ens false (n.mod / 4 % 8) w.s.tick = true ∨ w.s.slotWriting w.T.ens true (n.mod / 32 % 8) w.s.tick = true
    ∨ ∃ x, w.E.tiles.find? (n.mod % 4) = some x ∧ w.s.now < x.busy := by
  unfold Work.arrayHeld Core.arrayBusy
  rw [Bool.or_eq_true, Bool.or_eq_true, Bool.or_eq_true, or_assoc, or_assoc, List.any_eq_true, decide_eq_true_eq]
  refine or_congr (exists_congr fun m => and_congr_right' ?_) (or_congr_right (or_congr_right ?_))
  · cases m.start <;> simp
  · cases w.E.tiles.find? (n.mod % 4) <;> simp

/-! ### A cue action that issues -/

theorem fireAt_leaves (s : State) (core : Nat) (a : Act) (f : Nat) (late : Bool) (ha : a ∈ (s.core core).acts) : let t := s.fireAt core a f late
    t = { s with cores := t.cores, agenda := t.agenda } ∧ (t.core core).mats = (s.core core).mats
      ∧ { a with fires := some f, late := a.late || late } ∈ (t.core core).acts := by
  intro t
  have hcore : t.core core = (s.core core).putAct { a with fires := some f, late := a.late || late } :=
    (State.core_modCore s core core fun c => c.putAct _).trans (if_pos rfl)
  refine ⟨rfl, by rw [hcore]; rfl, ?_⟩
  rw [hcore]
  exact List.mem_map.2 ⟨a, ha, if_pos rfl⟩

/-- An action that issues stands with its core, with its cue and its offset (R369). -/
theorem addAct_leaves (s : State) (core : Nat) (a : Act) : let t := s.addAct core a
    t = { s with cores := t.cores, agenda := t.agenda } ∧ (t.core core).mats = (s.core core).mats
      ∧ ∃ f late, { a with fires := f, late := late } ∈ (t.core core).acts := by
  let s1 := s.modCore core fun c => { c with acts := c.acts ++ [a] }
  have hcore : s1.core core = { s.core core with acts := (s.core core).acts ++ [a] } := (State.core_modCore s core core _).trans (if_pos rfl)
  have ha : a ∈ (s1.core core).acts := by rw [hcore]; simp
  have hmats : (s1.core core).mats = (s.core core).mats := by rw [hcore]
  have fires (f : Nat) (late : Bool) : let t := s1.fireAt core a f late
      t = { s with cores := t.cores, agenda := t.agenda } ∧ (t.core core).mats = (s.core core).mats
        ∧ ∃ f late, { a with fires := f, late := late } ∈ (t.core core).acts := by
    obtain ⟨-, hm, hact⟩ := fireAt_leaves s1 core a f late ha
    exact ⟨rfl, hm.trans hmats, _, _, hact⟩
  unfold State.addAct
  dsimp only
  split
  · unfold State.givePoint
    dsimp only
    split
    · exact fires _ _
    · exact fires _ _
  · exact ⟨rfl, hmats, a.fires, a.late, ha⟩

/-! ### What it leaves -/

/-- The entry of the array for an instruction that issues (R227, R235). -/
def matIssued (w : Work) (n : Ins) (kind : MatKind) (c : MatCfg) : Mat :=
  { id := w.s.tick, ens := w.T.ens, tid := w.tid, uid := w.S.uid, tile := c.tile, aslot := c.a, bslot := c.b, occ := c.occ,
    start := if kind = .cued then none else some w.s.now,
    flags := (matCompute w.E c (kind = .sparse) n.sat (lanesOf w.act) (tileData w.E c.tile)).2, readers := [] }

/-- The ensemble with the tile that an instruction computes (R221, R229). -/
def matTiled (w : Work) (n : Ins) (kind : MatKind) (c : MatCfg) : Ensemble :=
  { w.E with tiles := w.E.tiles.modify c.tile fun t =>
      { t with data := (matCompute w.E c (kind = .sparse) n.sat (lanesOf w.act) (tileData w.E c.tile)).1 } }

/-- The module with the instruction in the array, and its ranges registered (R227). -/
def matPlaced (w : Work) (n : Ins) (kind : MatKind) (c : MatCfg) : State :=
  w.s.bump.modCore w.E.core fun k =>
    { k.lock (c.ranges.map fun x =>
        { stage := true, ctx := w.E.ctx, ens := w.T.ens, lo := x.1, hi := x.2, writes := false, owner := w.s.tick }) with
      mats := k.mats ++ [matIssued w n kind c] }

theorem matIssue_uncued (h : kind ≠ .cued) : w.matIssue n kind c = { w with
    E := matTiled w n kind c,
    s := (matPlaced w n kind c).at_ (w.s.now + 32 + c.occ) (.matrixTileReady w.E.core w.s.tick) } := if_neg h

theorem matIssue_cued : w.matIssue n .cued c = { w with
    E := matTiled w n .cued c,
    s := (matPlaced w n .cued c).bump.addAct w.E.core
      { id := w.s.tick + 1, ctx := w.E.ctx, tid := w.tid, cue := matThird w n % 256, off := matThird w n / 256, fires := none, late := false,
        kind := .start w.s.tick } } := rfl

theorem matPlaced_mats : ((matPlaced w n kind c).core w.E.core).mats = (w.s.core w.E.core).mats ++ [matIssued w n kind c] := by
  unfold matPlaced
  rw [State.core_modCore, if_pos rfl]
  rfl

/-- Whether it starts at once or with a cue action, an instruction that issues changes the cores, its tile and what is due (R235, R236). -/
theorem matIssue_leaves (w : Work) (n : Ins) (kind : MatKind) (c : MatCfg) : ∃ u,
    w.matIssue n kind c = { w with E := matTiled w n kind c, s := u }
      ∧ u = { w.s with cores := u.cores, tick := u.tick, agenda := u.agenda }
      ∧ (u.core w.E.core).mats = (w.s.core w.E.core).mats ++ [matIssued w n kind c]
      ∧ (kind ≠ .cued → ⟨w.s.now + 32 + c.occ, .matrixTileReady w.E.core w.s.tick⟩ ∈ u.agenda)
      ∧ (kind = .cued → ∃ a ∈ (u.core w.E.core).acts, a.kind = .start w.s.tick ∧ a.cue = matThird w n % 256 ∧ a.off = matThird w n / 256
          ∧ a.ctx = w.E.ctx) := by
  by_cases hk : kind = .cued
  · subst hk
    obtain ⟨honly, hmats, f, late, hact⟩ := addAct_leaves (matPlaced w n .cued c).bump w.E.core
      { id := w.s.tick + 1, ctx := w.E.ctx, tid := w.tid, cue := matThird w n % 256, off := matThird w n / 256, fires := none, late := false,
        kind := .start w.s.tick }
    exact ⟨_, matIssue_cued, by rw [honly]; rfl, hmats.trans matPlaced_mats, fun h => absurd rfl h, fun _ => ⟨_, hact, rfl, rfl, rfl, rfl⟩⟩
  · exact ⟨_, matIssue_uncued hk, rfl, matPlaced_mats, fun _ => mem_at.2 (.inl rfl), fun h => absurd h hk⟩

/-! ### The outcomes of an issue -/

variable {i : Instr}

theorem mat_waits (he : ∀ s, exec i s = run n (opMat kind n) s) (h : issues n s w) (hw : w.memHeld = true ∨ w.arrayHeld n = true) :
    exec i s = .next w.hold :=
  (he s).trans (run_hold h.1 ((ifActive_of h.2).trans (if_pos hw)))

theorem mat_traps (he : ∀ s, exec i s = run n (opMat kind n) s) (h : issues n s w) (hw : ¬(w.memHeld = true ∨ w.arrayHeld n = true))
    {e : TrapInfo} (hc : w.matCheck n kind = .error e) : exec i s = w.trap n e := by
  refine (he s).trans (run_trap h.1 ((ifActive_of h.2).trans ((if_neg hw).trans ?_)))
  rw [hc]

/-- An instruction whose ranges are not free is held, whether or not the array is (R227). -/
theorem mat_held (he : ∀ s, exec i s = run n (opMat kind n) s) (h : issues n s w) (hc : w.matCheck n kind = .ok c)
    (hr : w.matHeld c = true) : exec i s = .next w.hold := by
  refine (he s).trans (run_hold h.1 ((ifActive_of h.2).trans ?_))
  split
  · rfl
  · rw [hc]
    exact if_pos hr

theorem matTiled_only (w : Work) (n : Ins) (kind : MatKind) (c : MatCfg) : onlyTile w.E (matTiled w n kind c) c.tile :=
  ⟨rfl, fun _ hj => Tab.find?_modify_other _ _ hj⟩

/-- The tile of an instruction that passes: the elements of the active lanes' rows and its columns (R221, R229). -/
theorem tileAt_matTiled (h : MatPasses w n kind c) (r : Nat) {j : Nat} (hj : j < 256) : tileAt (matTiled w n kind c) c.tile r j
    = if w.act.getLsbD r ∧ c.coff ≤ j ∧ j < c.coff + c.n
      then BitVec.ofNat 32 (matElement w c (kind = .sparse) n.sat r (j - c.coff) (tileAt w.E c.tile r j).toNat).1
      else tileAt w.E c.tile r j := by
  have hget := get_putRows (elt := matElement w c (kind = .sparse) n.sat)
    (fl := fun r => if (decide (kind = .sparse)) && malformed w c r then flagInv else 0#32) h.divides.columns (nodup_lanesOf w.act)
    (tileData w.E c.tile, 0#32) r hj
  rw [← matCompute_eq h.divides] at hget
  simp only [mem_lanesOf] at hget
  refine Eq.trans ?_ hget
  obtain ⟨y, hy⟩ := Option.isSome_iff_exists.1 h.tile
  unfold tileAt matTiled
  dsimp only
  rw [Tab.find?_modify_same, hy]
  rfl

/-- The flags of an instruction that passes: those of its elements, and of its malformed groups (R221, R225). -/
theorem matIssued_flags (h : MatPasses w n kind c) : (matIssued w n kind c).flags
    = orFlags ((lanesOf w.act).flatMap fun r => (if (decide (kind = .sparse)) && malformed w c r then flagInv else 0#32)
        :: (List.range c.n).map fun j => (matElement w c (kind = .sparse) n.sat r j (tileAt w.E c.tile r (c.coff + j)).toNat).2) := by
  have hflags := flags_putRows (elt := matElement w c (kind = .sparse) n.sat)
    (fl := fun r => if (decide (kind = .sparse)) && malformed w c r then flagInv else 0#32) h.divides.columns (nodup_lanesOf w.act)
    (tileData w.E c.tile, 0#32)
  rw [← matCompute_eq h.divides] at hflags
  simp only [BitVec.zero_or, Nat.add_assoc] at hflags
  exact hflags

/-- An instruction that passes its checks, and that nothing holds, completes with its tile computed and its entry in the array (R227, R235). -/
theorem mat_completes (he : ∀ s, exec i s = run n (opMat kind n) s) (h : issues n s w) (hw : ¬(w.memHeld = true ∨ w.arrayHeld n = true))
    (hc : w.matCheck n kind = .ok c) (hr : w.matHeld c = false) : ∃ (cs : Tab Core) (t : State) (x : Work),
      let b : Work := { w with s := { s with cores := cs }, E := matTiled w n kind c }
      exec i s = .next t ∧ Completes b.s b [] 0#32 [] (nextWord n w) t x
      ∧ (t.core w.E.core).mats = (s.core w.E.core).mats ++ [matIssued w n kind c]
      ∧ (kind ≠ .cued → ⟨s.now + 32 + c.occ, .matrixTileReady w.E.core s.tick⟩ ∈ t.agenda)
      ∧ (kind = .cued → ∃ a ∈ (t.core w.E.core).acts, a.kind = .start s.tick ∧ a.cue = matThird w n % 256 ∧ a.off = matThird w n / 256
          ∧ a.ctx = w.E.ctx) := by
  obtain rfl := (gate_go h.1).2.1
  obtain ⟨u, hissue, hu, hmats, hready, hact⟩ := matIssue_leaves w n kind c
  have hbody : opMat kind n w = .done { w with E := matTiled w n kind c, s := u } := by
    refine (ifActive_of h.2).trans ((if_neg hw).trans ?_)
    rw [hc, ← hissue]
    exact if_neg (by rw [hr]; exact Bool.false_ne_true)
  let b : Work := { w with s := { w.s with cores := u.cores }, E := matTiled w n kind c }
  have hd : b.Does { w with E := matTiled w n kind c, s := u } 0#32 [] := ⟨hu, rfl, rfl, by simp [b], rfl, rfl, rfl⟩
  obtain ⟨z, hz⟩ := Work.finish_completes (n := n) (outs := []) rfl hd fun r j _ => by simp; rfl
  have hcore : (Work.finish { w with E := matTiled w n kind c, s := u } n).core w.E.core = u.core w.E.core :=
    core_congr (by rw [hz.module]) _
  refine ⟨u.cores, _, z, (he w.s).trans (run_done h.1 hbody), hz, ?_, fun hk => Work.mem_finish n (hready hk), ?_⟩
  · rw [hcore, hmats]
  · rw [hcore]
    exact hact

end
end Machine

/-- Settles O31: what holds, traps and completes a matrix instruction; `matCheck_passes` and `MatPasses.rates` for what passes, `tileAt_matTiled` and
`matIssued_flags` for what it computes. -/
theorem matrixMultiply : Obligations.MatrixMultiply := by
  unfold Obligations.MatrixMultiply
  intro lowWord matrix
  have multiplies (kind : MatKind) (i : Instr) (n : Ins) (he : ∀ s, exec i s = run n (opMat kind n) s) : matrix kind i n := by
    intro s w h fb sh sc sparse waits
    obtain rfl := (gate_go h.1).2.1
    refine ⟨arrayHeld_iff, mat_waits he h, fun e hc => ⟨fun hw => mat_traps he h hw hc, matCheck_cause hc⟩, fun hbad => ?refused,
      fun c hc => ?passes, fun c hc => ⟨mat_held he h hc, fun hw hr => ?completes⟩⟩
    case refused =>
      rw [show (sparse = true) = (kind = .sparse) from decide_eq_true_eq] at hbad
      exact matCheck_refused (matRefused_of hbad)
    case passes =>
      have hp := matCheck_passes hc
      obtain ⟨hfloat, hkind⟩ := hp.rates
      have hkind := hkind.imp_right fun ⟨ha, ht, hb, hk, hs⟩ => (⟨ha, ht, hb, hk, decide_eq_false hs⟩ : _ ∧ _ ∧ _ ∧ _ ∧ sparse = false)
      obtain ⟨x, y, -, rfl⟩ := hp.cfg
      exact ⟨rfl, rfl, hp.computed, hp.blocksA, hp.blocksB, rfl, rfl, rfl, hp.columns, rfl, rfl, fun _ => rfl, rfl, rfl, rfl, hp.slotA, hp.slotB,
        hp.tile, hfloat, hkind⟩
    case completes =>
      obtain ⟨cs, t, x, ht, hx, hmats, hready, hact⟩ := mat_completes he h hw hc hr
      have hp := matCheck_passes hc
      exact ⟨cs, _, matIssued w n kind c, t, x, ht, hx, matTiled_only w n kind c, fun r j _ hj => tileAt_matTiled hp r hj, hmats, rfl,
        matIssued_flags hp, hready, hact⟩
  exact ⟨fun f => multiplies .dense _ _ fun _ => rfl, fun f => multiplies .sparse _ _ fun _ => rfl, fun f => multiplies .cued _ _ fun _ => rfl⟩

end Sys2Proof
end

section
/-! Copies and their queue (O25): what marking, starting and discarding a copy keep (R244 to R251, R258, R259). -/

namespace Sys2Proof

open Machine

namespace Machine

variable {s t : State} {id : Nat} {c : Copy}

/-! ### Windows that begin to fill or drain -/

/-- What the marks of a copy change: windows, the copy's members, and the ranges that its core has registered (R245, R250, R251). -/
structure Marked (id : Nat) (s t : State) : Prop where
  only : t = { s with cores := t.cores, ensembles := t.ensembles, copies := t.copies }
  windows : ∀ k E, s.ensembles.find? k = some E → ∃ E', t.ensembles.find? k = some E' ∧ E' = { E with wins := E'.wins }
  others : ∀ k, k ≠ id → t.copies.find? k = s.copies.find? k
  copy : ∃ ms : Copy → List Nat, t.copies.find? id = (s.copies.find? id).map fun c => { c with members := ms c }

theorem Marked.refl (id : Nat) (s : State) : Marked id s s := ⟨rfl, fun _ E h => ⟨E, h, rfl⟩, fun _ _ => rfl, (·.members), Option.map_id'.symm⟩

theorem Marked.trans {a b d : State} (h : Marked id a b) (k : Marked id b d) : Marked id a d where
  only := by rw [k.only, h.only]
  windows n E hE := by
    obtain ⟨E1, h1, e1⟩ := h.windows n E hE
    obtain ⟨E2, h2, e2⟩ := k.windows n E1 h1
    exact ⟨E2, h2, by rw [e2, e1]⟩
  others n hn := (k.others n hn).trans (h.others n hn)
  copy := by
    obtain ⟨m1, h1⟩ := h.copy
    obtain ⟨m2, h2⟩ := k.copy
    exact ⟨fun c => m2 { c with members := m1 c }, by rw [h2, h1, Option.map_map]; rfl⟩

theorem Marked.found (h : Marked id s t) (hc : s.copies.find? id = some c) : ∃ c', t.copies.find? id = some c' ∧ c' = { c with members := c'.members } := by
  obtain ⟨ms, hms⟩ := h.copy
  exact ⟨_, hms.trans (by rw [hc]; rfl), rfl⟩

theorem Marked.modCore (id : Nat) (s : State) (k : Nat) (f : Core → Core) : Marked id s (s.modCore k f) :=
  ⟨rfl, fun _ E h => ⟨E, h, rfl⟩, fun _ _ => rfl, (·.members), Option.map_id'.symm⟩

theorem Marked.modWin (id : Nat) (s : State) (m w : Nat) (f : Ensemble → Window → Window) : Marked id s (s.modEns m fun e => e.modWin w (f e)) := by
  refine ⟨rfl, fun n E hE => ?_, fun _ _ => rfl, (·.members), Option.map_id'.symm⟩
  by_cases hn : n = m
  · subst hn
    exact ⟨_, (Tab.find?_modify_same _ _ _).trans (by rw [hE]; rfl), rfl⟩
  · exact ⟨E, (Tab.find?_modify_other _ _ hn).trans hE, rfl⟩

theorem Marked.setMembers (id : Nat) (s : State) (ms : List Nat) : Marked id s (s.modCopy id fun c => { c with members := ms }) :=
  ⟨rfl, fun _ E h => ⟨E, h, rfl⟩, fun _ hk => Tab.find?_modify_other _ _ hk, fun _ => ms, Tab.find?_modify_same _ _ _⟩

theorem markCopy_marks (s : State) (id : Nat) (c : Copy) : Marked id s (s.markCopy id c) := by
  unfold State.markCopy
  split
  · exact (Marked.setMembers id s _).trans (foldl_rel (Marked.refl id) Marked.trans (fun _ _ => .modWin id _ _ _ _) _ _)
  all_goals exact .refl id s

theorem holdCopy_marks (s : State) (id : Nat) (c : Copy) (b : Bool) : Marked id s (s.holdCopy c b) := by
  unfold State.holdCopy
  split
  · exact .modWin id _ _ _ _
  all_goals exact .refl id s

theorem registerCopy_marks (s : State) (id : Nat) (c : Copy) : Marked id s (s.registerCopy id c) := by
  unfold State.registerCopy
  dsimp only
  split
  · exact .refl id s
  · exact .modCore id s _ _

/-! ### A copy enters its queue -/

/-- The module with a copy in the table of copies and its number in its troupe's queue (R246). -/
def copyQueued (s : State) (c : Copy) : State :=
  (({ s with copies := s.copies.put s.tick { c with issued := s.now } } : State).modTroupe c.tid fun t =>
    { t with queue := t.queue ++ [s.tick] }).bump

/-- What the queueing of a copy leaves: the copy in its queue and its windows marked, and the stagehand's look 4 cycles later (R246, R248). -/
theorem enqueue_marks (s : State) (c : Copy) : ∃ u, Marked s.tick (copyQueued s c) u ∧ s.enqueue c = u.at_ (s.now + 4) (.copyStart c.tid) := by
  unfold State.enqueue
  refine ⟨_, ?_, rfl⟩
  change Marked s.tick (copyQueued s c) (match c.guard with
    | none => _
    | some _ => _)
  split
  · exact ((markCopy_marks _ _ c).trans (holdCopy_marks _ _ c true)).trans (registerCopy_marks _ _ c)
  · split
    · exact .modWin _ (copyQueued s c) _ _ fun _ x => { x with held := true, state := if recDir c.record = 0 then 2 else 5 }
    all_goals exact .refl _ _

/-- The split after it has queued a copy: its troupe's queue is longer, and of its ensemble only windows differ. -/
theorem enqueue_work (w : Work) (hc : c.tid = w.tid) : ∃ E, E = { w.E with wins := E.wins }
    ∧ w.enqueue c = { w with s := w.commit.enqueue c, T := { w.T with splits := w.T.splits.put w.ent w.S, queue := w.T.queue ++ [w.s.tick] }, E := E } := by
  obtain ⟨u, hu, henq⟩ := enqueue_marks w.commit c
  have htroupe : (w.commit.enqueue c).troupes.find? w.tid
      = some { w.T with splits := w.T.splits.put w.ent w.S, queue := w.T.queue ++ [w.s.tick] } := by
    rw [henq, State.at_troupes, hu.only]
    change (w.commit.troupes.modify c.tid _).find? w.tid = _
    rw [hc, Tab.find?_modify_same]
    simp [Work.commit]
  obtain ⟨E, hE, hwins⟩ := hu.windows w.T.ens w.E (by simp [copyQueued, State.modTroupe, State.bump, Work.commit])
  have hens : (w.commit.enqueue c).ensembles.find? w.T.ens = some E := by rw [henq]; exact hE
  refine ⟨E, hwins, ?_⟩
  change w.reload (w.commit.enqueue c) = _
  unfold Work.reload
  rw [work_of_entries (ent := w.ent) (p := w.S) htroupe (Tab.find?_put_same _ _ _) hens]

/-- An instruction that only starts a copy leaves it at the end of its troupe's queue (R246, R258). -/
theorem enqueue_queued {i : Instr} {n : Ins} {body : Work → Eff} {w : Work} (he : exec i s = run n body s) (hg : gate n s = .go w)
    (hb : body w = .done (w.enqueue c)) (hc : c.tid = w.tid) : ∃ t, exec i s = .next t ∧ queued s t w n c := by
  obtain ⟨-, rfl, hT, hS, hE, -⟩ := gate_go hg
  obtain ⟨u, hu, henq⟩ := enqueue_marks w.commit c
  obtain ⟨E, hwins, hwork⟩ := enqueue_work w hc
  let y : Work := w.enqueue c
  obtain ⟨x, hx, -, hpc, hnow, hxE, -, ⟨hothers, -, -⟩, hmod⟩ := finish_keeps (s := y.s) (w := y) (y := y) (n := n) rfl rfl rfl rfl rfl rfl
  obtain ⟨z, hz⟩ := Work.finish_completes (n := n) (w := y) rfl (.refl y) (outs := []) (fun _ _ _ => by simp [written])
  obtain rfl : x = z := Option.some.inj (hx.symm.trans hz.split)
  have hys : y.s = u.at_ (w.s.now + 4) (.copyStart w.tid) := by
    change (w.enqueue c).s = _
    rw [hwork, ← hc]
    exact henq
  have hyT : y.T = { w.T with splits := w.T.splits.put w.ent w.S, queue := w.T.queue ++ [w.s.tick] } := congrArg Work.T hwork
  have hyE : y.E = E := congrArg Work.E hwork
  have hyS : y.S = w.S := by simp only [y, hwork]
  have hyt : y.tid = w.tid := by simp only [y, hwork]
  have hye : y.ent = w.ent := by simp only [y, hwork]
  obtain ⟨c', hc', hmem⟩ := hu.found (c := { c with issued := w.s.now }) (Tab.find?_put_same _ _ _)
  refine ⟨_, he.trans (run_done hg hb), x, c', ?_, ?_, fun r i => (hnow r i).trans ?_, ?_, ?_, ?_, ?_, ?_, fun k hk => ?_, ?_, ?_, ?_, fun k hk => ?_⟩
  · rw [← hyt, ← hye]; exact hx
  · rw [hpc]; unfold nextWord; rw [hyS]
  · refine Work.now_congr ?_ ?_ ?_ ?_ r i
    · rw [hyT]
    · rw [hyS]
    · rw [hyT]
    · rw [hyE, hwins]
  · rw [hz.troupe]; exact congrArg Troupe.queue hyT
  · rw [hz.troupe, hyT]; exact List.append_nil _
  · rw [hxE, hyE]; exact hwins
  · rw [hmod, hys]; exact hc'
  · exact hmem
  · rw [hmod, hys]; exact (hu.others k hk).trans (Tab.find?_put_other _ _ hk)
  · exact Work.mem_finish n (by rw [hys]; exact mem_at.mpr (.inl rfl))
  · rw [hmod, hys, State.at_mem, hu.only]; rfl
  · rw [hmod, hys]
    change u.contexts = _
    rw [hu.only]; rfl
  · rw [hothers k (hyt ▸ hk), hys, State.at_troupes, hu.only]
    change (w.commit.troupes.modify c.tid _).find? k = _
    rw [Tab.find?_modify_other _ _ (hc ▸ hk)]
    exact Tab.find?_put_other _ _ hk

end Machine
end Sys2Proof
end

section
/-! The stagehand's look at a queue (O25): what starting and discarding a copy keep (R248, R251, R258, R259). -/

namespace Sys2Proof

open Machine

namespace Machine

variable {s t u : State} {tid id : Nat} {c : Copy}

/-! ### What the stagehand leaves alone -/

/-- The stagehand's queue of a troupe. -/
def State.queueOf (s : State) (tid : Nat) : Option (List Nat) := (s.troupes.find? tid).map (·.queue)

/-- When a copy started, if it did. -/
def State.startOf (s : State) (id : Nat) : Option (Option Nat) := (s.copies.find? id).map (·.started)

/-- Memory, the time and every troupe's queue are as they were. -/
structure KeepsQueues (s t : State) : Prop where
  mem : t.mem = s.mem
  now : t.now = s.now
  queues : ∀ k, t.queueOf k = s.queueOf k

/-- Every copy that there is has started when it had, as well. -/
structure KeepsStarts (s t : State) : Prop extends KeepsQueues s t where
  starts : ∀ k, t.startOf k = s.startOf k

theorem KeepsQueues.refl (s : State) : KeepsQueues s s := ⟨rfl, rfl, fun _ => rfl⟩

theorem KeepsQueues.trans (h : KeepsQueues s t) (k : KeepsQueues t u) : KeepsQueues s u :=
  ⟨k.mem.trans h.mem, k.now.trans h.now, fun i => (k.queues i).trans (h.queues i)⟩

theorem KeepsStarts.refl (s : State) : KeepsStarts s s := ⟨.refl s, fun _ => rfl⟩

theorem KeepsStarts.trans (h : KeepsStarts s t) (k : KeepsStarts t u) : KeepsStarts s u :=
  ⟨h.toKeepsQueues.trans k.toKeepsQueues, fun i => (k.starts i).trans (h.starts i)⟩

theorem OnlyCaches.keepsStarts (h : OnlyCaches s t) : KeepsStarts s t := by
  rw [h]
  exact ⟨⟨rfl, rfl, fun _ => rfl⟩, fun _ => rfl⟩

theorem OnlyAgenda.keepsStarts (h : OnlyAgenda s t) : KeepsStarts s t := by
  rw [h]
  exact ⟨⟨rfl, rfl, fun _ => rfl⟩, fun _ => rfl⟩

theorem Marked.keepsStarts (h : Marked id s t) : KeepsStarts s t := by
  refine ⟨⟨by rw [h.only], by rw [h.only], fun k => ?_⟩, fun k => ?_⟩
  · unfold State.queueOf
    rw [h.only]
  · unfold State.startOf
    by_cases hk : k = id
    · obtain ⟨ms, hms⟩ := h.copy
      rw [hk, hms, Option.map_map]
      rfl
    · rw [h.others k hk]

theorem KeepsStarts.at_ (s : State) (due : Nat) (ev : Ev) : KeepsStarts s (s.at_ due ev) := (at_only s due ev).keepsStarts

theorem KeepsStarts.modCopy (s : State) (id : Nat) {f : Copy → Copy} (h : ∀ c, (f c).started = c.started) : KeepsStarts s (s.modCopy id f) := by
  refine ⟨⟨rfl, rfl, fun _ => rfl⟩, fun k => ?_⟩
  unfold State.startOf State.modCopy
  by_cases hk : k = id
  · subst hk
    rw [Tab.find?_modify_same, Option.map_map]
    exact congrArg (Option.map · _) (funext h)
  · rw [Tab.find?_modify_other _ _ hk]

theorem KeepsQueues.modTroupe (s : State) (tid : Nat) {f : Troupe → Troupe} (h : ∀ T, (f T).queue = T.queue) : KeepsQueues s (s.modTroupe tid f) := by
  refine ⟨rfl, rfl, fun k => ?_⟩
  unfold State.queueOf State.modTroupe
  by_cases hk : k = tid
  · subst hk
    rw [Tab.find?_modify_same, Option.map_map]
    exact congrArg (Option.map · _) (funext h)
  · rw [Tab.find?_modify_other _ _ hk]

/-! ### Requests for units -/

theorem copyPages_only (c : Copy) (l : List Nat) (s : State) : OnlyTlbs s (s.copyPages c l).1 := by
  induction l generalizing s with
  | nil => exact .refl s
  | cons p l ih =>
    unfold State.copyPages
    dsimp only
    have htr := translate_only s (s.copyCore c) none (s.ctx (s.copyCtx c)).ptbr.toNat (s.ctx (s.copyCtx c)).ctxid.toNat (s.copySup c) c.access (4096 * p)
    split
    · next heq => rwa [heq] at htr
    · next heq =>
      rw [heq] at htr
      have hrest := htr.trans (ih _)
      split <;> next heq => rwa [heq] at hrest

theorem sectorTime_keeps (s : State) (c : Copy) (x : Nat) : KeepsStarts s (s.sectorTime c x).1 := by
  have hp := (copyPages_only c [x / 128] s).eq.keepsStarts
  unfold State.sectorTime
  split
  · next heq =>
    rw [heq] at hp
    exact hp.trans ⟨⟨rfl, rfl, fun _ => rfl⟩, fun _ => rfl⟩
  · next heq =>
    rw [heq] at hp
    dsimp only
    split
    · exact hp.trans (writeTime_only _ _ _).caches.keepsStarts
    · exact (hp.trans (readTime_only _ _ _).caches.keepsStarts).trans (noteRead_only _ _).caches.keepsStarts

theorem unitTime_keeps (s : State) (c : Copy) (j : Nat) : KeepsStarts s (s.unitTime c j).1 :=
  foldl_rel (p := fun a b : State × Nat => KeepsStarts a.1 b.1) (fun _ => .refl _) .trans
    (f := fun r x => ((r.1.sectorTime c x).1, max r.2 (r.1.sectorTime c x).2)) (fun r x => sectorTime_keeps r.1 c x) (c.sectors j) (s, 0)

theorem requestUnits_keeps (s : State) (id n : Nat) : KeepsStarts s (s.requestUnits id n) := by
  induction n generalizing s with
  | zero => exact .refl s
  | succ n ih =>
    unfold State.requestUnits
    split
    · exact .refl s
    next c _ =>
    split
    · exact .refl s
    dsimp only
    split
    · exact .refl s
    refine .trans ?_ (ih _)
    have hask (shift : Nat) (todo : Copy → List Nat) :
        KeepsStarts s (s.modCopy id fun x => { x with sent := c.sent + 1, shift := shift, todo := todo x }) := .modCopy s id fun _ => rfl
    split
    · exact hask _ _
    split
    · exact (hask _ _).trans (.at_ _ _ _)
    split
    · exact (hask _ _).trans (foldl_rel (p := KeepsStarts) .refl .trans (fun _ _ => (sectorTime_keeps _ _ _).trans (.at_ _ _ _)) _ _)
    · exact (hask _ _).trans ((unitTime_keeps _ _ _).trans (.at_ _ _ _))

/-! ### A copy starts -/

/-- A copy that starts (R248): memory and the queues are kept, and it has started now. -/
theorem beginCopy_starts (s : State) (id : Nat) (c : Copy) : KeepsQueues s (s.beginCopy id c)
    ∧ (s.beginCopy id c).startOf id = (s.startOf id).map fun _ => some s.now := by
  let s0 := if c.guard.isSome then s.markCopy id c else s.holdCopy c false
  let s1 := s0.modCopy id fun c => { c with started := some s.now }
  have h0 : KeepsStarts s s0 := by
    unfold s0
    split
    · exact (markCopy_marks s id c).keepsStarts
    · exact (holdCopy_marks s id c false).keepsStarts
  have h1 : KeepsQueues s0 s1 := ⟨rfl, rfl, fun _ => rfl⟩
  have h2 : KeepsStarts s1 (s.beginCopy id c) := by
    refine (registerCopy_marks s1 id c).keepsStarts.trans ?_
    unfold State.beginCopy
    dsimp only
    split
    · exact requestUnits_keeps _ _ _
    · exact requestUnits_keeps _ _ _
    · exact .at_ _ _ _
    · exact .at_ _ _ _
  refine ⟨(h0.toKeepsQueues.trans h1).trans h2.toKeepsQueues, ?_⟩
  rw [h2.starts, ← h0.starts]
  unfold State.startOf s1 State.modCopy
  rw [Tab.find?_modify_same, Option.map_map, Option.map_map]
  rfl

/-! ### A copy is discarded -/

theorem resume_keeps (s : State) (tid uid : Nat) : KeepsQueues s (s.resume tid uid) :=
  .trans (.modTroupe s tid (f := fun t => t.modSplit uid _) fun _ => rfl) ⟨rfl, rfl, fun _ => rfl⟩

theorem wakeBatch_keeps (s : State) (tid : Nat) : KeepsQueues s (s.wakeBatch tid) ∧ (s.wakeBatch tid).copies = s.copies := by
  unfold State.wakeBatch
  split
  · exact ⟨.refl s, rfl⟩
  refine foldl_rel (p := fun a b : State => KeepsQueues a b ∧ b.copies = a.copies) (fun _ => ⟨.refl _, rfl⟩)
    (fun h k => ⟨h.1.trans k.1, k.2.trans h.2⟩) (fun a p => ?_) _ s
  split
  · split
    · exact ⟨resume_keeps _ _ _, rfl⟩
    · exact ⟨.refl a, rfl⟩
  · exact ⟨.refl a, rfl⟩

/-- A copy that is over is forgotten; memory and the queues are kept (R248, R251). -/
theorem dropCopy_forgets (s : State) (id : Nat) : KeepsQueues s (s.dropCopy id) ∧ (s.dropCopy id).copies.find? id = none := by
  unfold State.dropCopy
  split
  · next h => exact ⟨.refl s, h⟩
  · next c h =>
    dsimp only
    let s1 : State := ({ s with copies := s.copies.del id, refused := s.refused.filter fun r => r.1 ≠ id } : State).modCore (s.copyCore c) (·.unlock id)
    obtain ⟨hw, hcopies⟩ := wakeBatch_keeps s1 c.tid
    have hk := kick_only (s1.wakeBatch c.tid) (s.copyCore c)
    have hs1 : KeepsQueues s s1 := ⟨rfl, rfl, fun _ => rfl⟩
    refine ⟨((hs1.trans hw).trans hk.keepsStarts.toKeepsQueues).trans (KeepsStarts.at_ _ _ _).toKeepsQueues, ?_⟩
    change ((s1.wakeBatch c.tid).kick (s.copyCore c)).copies.find? id = none
    rw [hk]
    change (s1.wakeBatch c.tid).copies.find? id = none
    rw [hcopies]
    exact (Tab.find?_del _ _ _).trans (if_pos rfl)

theorem discardCopy_forgets (s : State) (id : Nat) (c : Copy) : KeepsQueues s (s.discardCopy id c) ∧ (s.discardCopy id c).copies.find? id = none := by
  unfold State.discardCopy
  split
  · next k _ =>
    obtain ⟨h, hnone⟩ := dropCopy_forgets (s.modEns c.ens fun e => e.modWin k fun x => { x with held := false, state := c.back }) id
    exact ⟨⟨h.mem, h.now, h.queues⟩, hnone⟩
  · exact dropCopy_forgets s id

/-! ### The head of a queue -/

/-- The queue without its head, and the cue touches that found it full looking again (R258, R375). -/
def State.pop (s : State) (tid : Nat) (rest : List Nat) : State := (s.modTroupe tid fun t => { t with queue := rest }).freePlace tid

theorem freePlace_only (s : State) (tid : Nat) : OnlyAgenda s (s.freePlace tid) := by
  unfold State.freePlace
  split
  · exact .refl s
  · exact foldl_at_only _ _ _ _

theorem pop_mem (s : State) (tid : Nat) (rest : List Nat) : (s.pop tid rest).mem = s.mem := (freePlace_only _ _).keepsStarts.mem

/-- The stagehand's look at a queue writes no byte of memory. -/
theorem runQueue_mem (s : State) (tid n : Nat) : (s.runQueue tid n).mem = s.mem := by
  induction n generalizing s with
  | zero => rfl
  | succ n ih =>
    unfold State.runQueue
    split
    · rfl
    split
    · rfl
    next id rest _ =>
    dsimp only
    have hp := pop_mem s tid rest
    split
    · exact (ih _).trans hp
    split
    · split
      · rfl
      · split <;> rfl
    · exact (ih _).trans ((discardCopy_forgets _ _ _).1.mem.trans hp)
    · exact (ih _).trans ((beginCopy_starts _ _ _).1.mem.trans hp)

/-- With nothing in its queue a troupe's stagehand does nothing. -/
theorem runQueue_empty (h : s.queueOf tid = some []) (n : Nat) : s.runQueue tid n = s := by
  obtain ⟨T, hT, hq⟩ := Option.map_eq_some_iff.1 h
  cases n with
  | zero => rfl
  | succ n => simp only [State.runQueue, hT, hq]

/-- The stagehand's look at a queue with one command. -/
theorem runQueue_one {T : Troupe} (hT : s.troupes.find? tid = some T) (hq : T.queue = [id]) (hc : s.copies.find? id = some c) (n : Nat) : s.runQueue tid (n + 1) = match s.headStep T id c with
    | .wait =>
      if s.now < c.issued + 4 then s.at_ (c.issued + 4) (.copyStart tid)
      else if recMcast c.record ≠ 0 ∧ s.slotBusy id c then s.at_ (s.now + 1) (.copyStart tid)
      else s
    | .discard => ((s.pop tid []).discardCopy id c).runQueue tid n
    | .go => ((s.pop tid []).beginCopy id c).runQueue tid n := by
  rw [State.runQueue, hT]
  dsimp only
  rw [hq]
  dsimp only
  rw [hc]
  rfl

theorem pop_queue {T : Troupe} (hT : s.troupes.find? tid = some T) : (s.pop tid []).queueOf tid = some [] := by
  unfold State.pop
  rw [(freePlace_only _ _).keepsStarts.queues]
  unfold State.queueOf State.modTroupe
  rw [Tab.find?_modify_same, hT]
  rfl

/-! ### What the head of the queue may do -/

section
variable {T : Troupe} {q : Nat}

theorem headStep_unresolved (hg : c.guard = some q) (h : guardOf T q = 0) : s.headStep T id c = .wait := by
  unfold State.headStep
  rw [hg]
  simp [h]

theorem headStep_refused (hg : c.guard = some q) (h : guardOf T q = 2) : s.headStep T id c = .discard := by
  unfold State.headStep
  rw [hg]
  simp [h]

/-- A command waits until 4 cycles after its issue, unless its guard has resolved false (R248). -/
theorem headStep_early (h : s.now < c.issued + 4) (hg : ∀ q, c.guard = some q → guardOf T q ≠ 2) : s.headStep T id c = .wait := by
  unfold State.headStep
  cases hc : c.guard with
  | none => simp [h]
  | some q => simp [h, hg q hc]

/-- A command whose guard allows it, which fills no slot, starts once its ranges are registered or there is room for them (R248, R251). -/
theorem headStep_ready (hg : ∀ q, c.guard = some q → guardOf T q = 1) (hs : c.slot = none) (h : c.issued + 4 ≤ s.now)
    (hl : s.copyLocked id c = true ∨ (s.core (s.copyCore c)).lockRoom (s.copyLocks id c).length = true) : s.headStep T id c = .go := by
  have hbusy : s.slotBusy id c = false := by
    unfold State.slotBusy
    rw [hs]
  have hroom : (s.copyLocked id c || (s.core (s.copyCore c)).lockRoom (s.copyLocks id c).length) = true := by simpa using hl
  unfold State.headStep
  cases hc : c.guard with
  | none => simp [hbusy, not_lt.2 h, hroom]
  | some q => simp [hg q hc, hbusy, not_lt.2 h, hroom]

/-! ### COPY_START -/

variable (hT : s.troupes.find? tid = some T) (hq : T.queue = [id]) (hc : s.copies.find? id = some c)
include hT hq hc

/-- A command that has to wait is left: only the next look at it is planned (R248). -/
theorem runQueue_waits (h : s.headStep T id c = .wait) (n : Nat) : OnlyAgenda s (s.runQueue tid (n + 1))
    ∧ (s.now < c.issued + 4 → ⟨c.issued + 4, .copyStart tid⟩ ∈ (s.runQueue tid (n + 1)).agenda) := by
  rw [runQueue_one hT hq hc, h]
  dsimp only
  refine ⟨?_, fun hn => ?_⟩
  · split
    · rfl
    · split <;> rfl
  · rw [if_pos hn]
    exact mem_at.mpr (.inl rfl)

/-- A command whose guard has resolved false leaves the queue and is forgotten (R259). -/
theorem runQueue_discards (h : s.headStep T id c = .discard) (n : Nat) : let t := s.runQueue tid (n + 1)
    t.copies.find? id = none ∧ t.queueOf tid = some [] := by
  obtain ⟨hkeeps, hnone⟩ := discardCopy_forgets (s.pop tid []) id c
  have hempty := (hkeeps.queues tid).trans (pop_queue hT)
  dsimp only
  rw [runQueue_one hT hq hc, h]
  dsimp only
  rw [runQueue_empty hempty]
  exact ⟨hnone, hempty⟩

/-- A command that may start leaves the queue, and has started now (R248, R258). -/
theorem runQueue_starts (h : s.headStep T id c = .go) (n : Nat) : let t := s.runQueue tid (n + 1)
    t.startOf id = some (some s.now) ∧ t.queueOf tid = some [] := by
  obtain ⟨hkeeps, hstart⟩ := beginCopy_starts (s.pop tid []) id c
  have hempty := (hkeeps.queues tid).trans (pop_queue hT)
  have hpop : OnlyAgenda (s.modTroupe tid fun t => { t with queue := [] }) (s.pop tid []) := freePlace_only _ _
  have hnow : (s.pop tid []).now = s.now := hpop.keepsStarts.now
  have hold : (s.pop tid []).startOf id = some c.started := by
    rw [hpop.keepsStarts.starts]
    exact congrArg (Option.map _) hc
  dsimp only
  rw [runQueue_one hT hq hc, h]
  dsimp only
  rw [runQueue_empty hempty, hstart, hold, hnow]
  exact ⟨rfl, hempty⟩

end

end Machine
end Sys2Proof
end

section
/-! The instructions that start copies (O25): sgath, sfill, opld and touch (R234, R266, R267, R271). -/

namespace Sys2Proof

open Machine

namespace Machine

variable {i : Instr} {n : Ins} {s : State} {w : Work}

/-- The search for the lowest active lane with a property. -/
theorem lowestWith_find? {p : Nat → Prop} [DecidablePred p] {l : Nat} (h : lowestWith w p l) : (lanesOf w.act).find? (fun j => decide (p j)) = some l := by
  obtain ⟨hl, hp, hlow⟩ := h
  unfold lanesOf
  rw [List.find?_filter, List.find?_range_eq_some]
  refine ⟨by simp [hl, hp], List.mem_range.2 (BitVec.lt_of_getLsbD hl), fun j hj => ?_⟩
  by_cases ha : w.act.getLsbD j = true
  · simp [hlow j hj ha]
  · simp [ha]

theorem lanes_find?_none {p : Nat → Prop} [DecidablePred p] (h : ∀ l, w.act.getLsbD l = true → ¬p l) :
    (lanesOf w.act).find? (fun j => decide (p j)) = none := by
  rw [List.find?_eq_none]
  intro l hl
  simpa using h l (mem_lanesOf.1 hl)

theorem queueFull_iff : w.queueFull = true ↔ 8 ≤ w.T.queue.length := decide_eq_true_iff

/-- What holds of a barrier that may be given holds of its address where it is given. -/
theorem getD_of_all {p : Nat → Prop} {o : Option Nat} (h : ∀ a ∈ o, p a) (ho : o.isSome = true) : p (o.getD 0) := by
  obtain ⟨a, rfl⟩ := Option.isSome_iff_exists.1 ho
  exact h a rfl

theorem barBad_false (bar : Option Nat) : (∀ b ∈ bar, b % 16 = 0) → ¬(match bar with
    | some b => decide (b % 16 ≠ 0)
    | none => false) = true := by
  cases bar with
  | none => simp
  | some b => exact fun h => by simpa using h b rfl

/-! ### The end of a copy's checks -/

/-- The end of the checks of sgath and sfill: a range in the way traps, a full queue holds, and else the copy is queued (R251, R258). -/
def Work.queueCopy (w : Work) (inWay : Option TrapInfo) (c : Copy) : Eff :=
  match inWay with
  | some x => .trap x
  | none => if w.queueFull then .hold else .done (w.enqueue c)

theorem queueCopy_runs {body : Work → Eff} {c : Copy} {inWay : Option TrapInfo} (he : exec i s = run n body s) (hg : gate n s = .go w)
    (hc : c.tid = w.tid) (hb : body w = w.queueCopy inWay c) : (∀ x, inWay = some x → exec i s = w.trap n x)
      ∧ (inWay = none → (8 ≤ w.T.queue.length → exec i s = .next w.hold)
        ∧ (w.T.queue.length < 8 → ∃ t, exec i s = .next t ∧ queued s t w n c)) := by
  refine ⟨?_, ?_⟩
  · rintro x rfl
    exact he.trans (run_trap hg hb)
  · rintro rfl
    exact ⟨fun hq => he.trans (run_hold hg (hb.trans (if_pos (queueFull_iff.2 hq)))),
      fun hq => enqueue_queued he hg (hb.trans (if_neg fun h => absurd (queueFull_iff.1 h) (not_le.2 hq))) hc⟩

/-! ### sgath -/

/-- An sgath whose destination is aligned: its rows' addresses are checked in order of lanes (R266). -/
theorem opSgath_misaligned {l : Nat} (ha : w.act ≠ 0) (hm : w.memHeld = false) (hd : (w.src true n n.sb 0 (lowLane w.act)).toNat % 32 = 0)
    (hl : lowestWith w (fun l => w.pairAddr n l % 32 ≠ 0) l) : opSgath n w = .trap { cause := 0x07, info := l, addr := w.pairAddr n l } := by
  refine (ifActive_of ha).trans ((if_neg (by simp [hm])).trans ((if_neg (not_not.2 hd)).trans ?_))
  rw [show (lanesOf w.act).find? _ = some l from lowestWith_find? hl]

/-- An sgath whose addresses are aligned: the range of its rows and its barrier, then the ranges in its way and the queue (R266). -/
theorem opSgath_aligned (ha : w.act ≠ 0) (hm : w.memHeld = false) (hd : (w.src true n n.sb 0 (lowLane w.act)).toNat % 32 = 0)
    (hrows : ∀ l, w.act.getLsbD l = true → w.pairAddr n l % 32 = 0) :
    let lanes := lanesOf w.act
    let row := 32 * 2 ^ (n.mod % 8)
    let dst := (w.src true n n.sb 0 (lowLane w.act)).toNat
    let bar := if n.mod.testBit 3 then some (w.src true n n.sc 0 (lowLane w.act)).toNat else none
    (∀ b ∈ bar, b % 16 = 0) → opSgath n w =
      if w.E.size < dst + lanes.length * row then .trap (stageOut dst)
      else if w.E.size < bar.getD 0 + 16 ∧ bar.isSome then .trap (stageOut (bar.getD 0))
      else w.queueCopy (w.conflict true dst (dst + lanes.length * row - 1)) (w.copy (.sgath (lanes.map (w.pairAddr n)) dst row) lanes.length bar) := by
  intro lanes row dst bar hbar
  have hfind : lanes.find? (fun l => decide (w.pairAddr n l % 32 ≠ 0)) = none := lanes_find?_none fun l hl => not_not.2 (hrows l hl)
  refine (ifActive_of ha).trans ((if_neg (by simp [hm])).trans ((if_neg (not_not.2 hd)).trans ?_))
  rw [show (lanesOf w.act).find? _ = none from hfind]
  exact (if_neg (barBad_false bar hbar)).trans rfl

/-! ### sfill -/

/-- sfill: its length, its range, then the ranges in its way and the queue (R267). -/
theorem opSfill_eq (ha : w.act ≠ 0) (hm : w.memHeld = false) : let dst := w.stageAddr n n.sa (lowLane w.act)
    let len := (w.src true n n.sb 0 (lowLane w.act)).toNat
    opSfill n w = if len % 32 ≠ 0 ∨ len < 32 ∨ 524288 < len then .trap { cause := 0x02 }
      else if dst % 32 ≠ 0 then .trap { cause := 0x07, info := lowLane w.act, addr := dst }
      else if w.E.size < dst + len then .trap (stageOut dst)
      else w.queueCopy (w.conflict true dst (dst + len - 1)) (w.copy (.sfill dst len (w.src true n n.sc 0 (lowLane w.act))) (len / 32) none) :=
  (ifActive_of ha).trans (if_neg (by simp [hm]))

/-! ### opld -/

theorem opldLength (v : Nat) : field v 25 16 = v / 65536 % 1024 := by
  unfold field
  rw [Nat.shiftRight_eq_div_pow]
  rfl

theorem opldUnfit_iff {off v room len : Nat} : off % 64 ≠ 0 ∨ v / 2 ^ 26 ≠ 0 ∨ room < off + len ↔ ¬(off % 64 = 0 ∧ v < 2 ^ 26 ∧ off + len ≤ room) := by
  omega

/-- opld with its slot's offset and length, its source and its barrier named (R234). -/
theorem opOpld_eq (ha : w.act ≠ 0) : let low := lowLane w.act
    let b := n.mod.testBit 3
    let k := n.mod % 8
    let src := w.stageAddr n n.sa low
    let v := (w.src true n n.sb 0 low).toNat
    let off := v % 65536
    let len := (v / 65536 % 1024 + 1) * 64
    let bar := if n.sc = .zero then none else some (w.src true n n.sc 0 low).toNat
    opOpld n w = if ¬(off % 64 = 0 ∧ v < 2 ^ 26 ∧ off + len ≤ if b then 65536 else 32768) then .trap { cause := 0x02 }
      else if src % 64 ≠ 0 then .trap { cause := 0x07, info := low, addr := src }
      else if bar.isSome ∧ bar.getD 0 % 16 ≠ 0 then .trap { cause := 0x07, info := low, addr := bar.getD 0 }
      else if w.E.size < src + len then .trap (stageOut src)
      else if bar.isSome ∧ w.E.size < bar.getD 0 + 16 then .trap (stageOut (bar.getD 0))
      else match w.conflict false src (src + len - 1) with
        | some t => .trap t
        | none =>
          if (w.E.slot b k).isNone then .trap { cause := 0x10, info := k + 8 * b.toNat }
          else if w.memHeld ∨ w.s.slotReading w.E.core w.T.ens b k ∨ w.s.slotWriting w.T.ens b k w.s.tick ∨ w.queueFull then .hold
          else .done (w.enqueue (w.copy (.opld b k off src len) (len / 32) bar)) := by
  refine (ifActive_of ha).trans ?_
  dsimp only
  rw [opldLength, bitOf_eq]
  exact if_congr opldUnfit_iff rfl rfl

/-! ### touch -/

section
variable {tid : Nat} {T : Troupe} {E : Ensemble} {pc : Word} {k : Nat} {g : Int} {guard : Option Nat}

/-- What the copy of a window is made of (R246, R271). -/
theorem windowCopy_fields (s : State) (tid : Nat) (T : Troupe) (E : Ensemble) (pc : Word) (k : Nat) (g : Int) (guard : Option Nat) :
    let r := (E.win k).record
    let c := s.windowCopy tid T E pc k g guard
    c.tid = tid ∧ c.kind = .window k ∧ c.record = r ∧ c.fmt = s.ensEntry tid E (recFmt r) ∧ c.goff = g ∧ c.guard = guard
      ∧ c.batch = T.batch + 1 ∧ c.bar = some (recBar r) ∧ c.units = (recElems r * (fmtOf (s.ensEntry tid E (recFmt r))).width / 8 + 31) / 32
      ∧ c.started = none := by
  intro r c
  unfold c State.windowCopy
  dsimp only
  split <;> exact ⟨rfl, rfl, rfl, rfl, rfl, rfl, rfl, rfl, rfl, rfl⟩

/-- A window that is not absent or open, or that another member's touch starts, is left as it is (R250, R271). -/
theorem touch_nothing (h : ((E.win k).state ≠ 1 ∧ (E.win k).state ≠ 4) ∨ E.leads (E.win k).record = false) :
    s.touch tid T E pc k g guard = .nothing := if_pos (by simpa using h)

section
variable (hx : (E.win k).state = 1 ∨ (E.win k).state = 4) (hl : E.leads (E.win k).record = true)
include hx hl

theorem touch_starts : ¬(((E.win k).state ≠ 1 ∧ (E.win k).state ≠ 4) ∨ (!E.leads (E.win k).record) = true) := by
  rw [hl]
  simp
  tauto

/-- The first check of a touch that starts its window's copy is that of the entry it names (R246). -/
theorem touch_badEntry (he : s.copyEntry tid E (E.win k).record = false) :
    s.touch tid T E pc k g guard = .trap { cause := 0x06, info := recFmt (E.win k).record } :=
  (if_neg (touch_starts hx hl)).trans (if_pos (by simp [he]))

variable (he : s.copyEntry tid E (E.win k).record = true)
include he

/-- The tile of a window with no slot lies in the allotment (R246). -/
theorem touch_outside (hs : recSlotEn (E.win k).record = false)
    (ho : E.size < recDest (E.win k).record + recElems (E.win k).record * (fmtOf (s.ensEntry tid E (recFmt (E.win k).record))).width / 8) :
    s.touch tid T E pc k g guard = .trap (stageOut (recDest (E.win k).record)) :=
  (if_neg (touch_starts hx hl)).trans ((if_neg (by simp [he])).trans (if_pos ⟨by simp [hs], ho⟩))

/-- A window that fills a slot wants its name claimed (R246). -/
theorem touch_noSlot (hs : recSlotEn (E.win k).record = true) (hn : E.slot (recSlot (E.win k).record).1 (recSlot (E.win k).record).2 = none) :
    s.touch tid T E pc k g guard = .trap { cause := 0x10, info := (recSlot (E.win k).record).2 + 8 * (recSlot (E.win k).record).1.toNat } := by
  refine (if_neg (touch_starts hx hl)).trans ((if_neg (by simp [he])).trans ((if_neg (by simp [hs])).trans ?_))
  rw [if_pos (.inl hs)]
  exact if_pos ⟨hs, by simp [hn]⟩

/-- A touch that passes its checks starts the copy, if its queue has a place (R258, R271). -/
theorem touch_passes (hs : recSlotEn (E.win k).record = true → (E.slot (recSlot (E.win k).record).1 (recSlot (E.win k).record).2).isSome = true)
    (ht : recSlotEn (E.win k).record = false → let lo := recDest (E.win k).record
      let bytes := recElems (E.win k).record * (fmtOf (s.ensEntry tid E (recFmt (E.win k).record))).width / 8
      lo + bytes ≤ E.size ∧ s.conflict T.ens E (recDir (E.win k).record = 0) lo (lo + bytes - 1) = none) :
    s.touch tid T E pc k g guard = if 8 ≤ T.queue.length then .full else .start (s.windowCopy tid T E pc k g guard) := by
  refine (if_neg (touch_starts hx hl)).trans ((if_neg (by simp [he])).trans ?_)
  cases hen : recSlotEn (E.win k).record with
  | true =>
    refine (if_neg (by simp)).trans ?_
    rw [if_pos (.inl rfl)]
    exact if_neg fun h => absurd h.2 (by simp [Option.isSome_iff_ne_none.1 (hs hen)])
  | false =>
    obtain ⟨hin, hfree⟩ := ht hen
    refine (if_neg fun h => absurd h.2 (not_lt.2 hin)).trans ?_
    rw [hfree, ite_self]
    exact if_neg (by simp)

end
end

/-- What a touch does for what it comes to. -/
def Work.touched (w : Work) : TouchStep → Eff
  | .nothing => .done w
  | .trap x => .trap x
  | .full => .hold
  | .start c => .done (w.enqueue c)

/-- touch with its window, its slide and its guard named (R271). -/
theorem opTouch_eq (ha : w.act ≠ 0) (hm : w.memHeld = false) : let k := n.mod % 32
    let r := (w.E.win k).record
    let gv := (w.src true n n.sb 0 (lowLane w.act)).toNat
    let g := if n.mod.testBit 5 then (w.src true n n.sa 0 (lowLane w.act)).toInt else 0
    opTouch n w = if ¬((w.E.win k).state ≠ 0 ∧ (n.mod.testBit 5 = true → recSlide r = true) ∧ (n.mod.testBit 6 = true → gv < 16)) then
        .trap { cause := 0x02 }
      else w.touched (w.s.touch w.tid w.T w.E w.S.pc k g (if n.mod.testBit 6 then some gv else none)) := by
  refine (ifActive_of ha).trans ((if_neg (by simp [hm])).trans (if_congr ?_ rfl ?_))
  · simp only [bitOf_eq, Classical.not_and_iff_not_or_not, Classical.not_imp, not_not, not_lt, Bool.not_eq_true, Bool.not_eq_true']
  · rfl

end Machine

/-- Settles O25: each instruction's checks in the order of its meaning, then the queue; and the stagehand's look at a queue with one command, by what its
head may do. -/
theorem copyCommands : Obligations.CopyCommands := by
  unfold Obligations.CopyCommands
  refine ⟨fun f s w h hm => ?sgath, fun f s w h hm => ?sfill, fun f s w h => ?opld, fun f s w h hm => ?touch, ?start⟩
  case sgath =>
    intro low lanes row dst bar
    refine ⟨fun hd => run_trap h.1 ((ifActive_of h.2).trans ((if_neg (by simp [hm])).trans (if_pos hd))),
      fun hd l hl => run_trap h.1 (opSgath_misaligned h.2 hm hd hl), fun hd hrows hb => ?_⟩
    have hbody := opSgath_aligned h.2 hm hd hrows hb
    refine ⟨fun hs => run_trap h.1 (hbody.trans (if_pos hs)), fun hs hbs => ?_⟩
    exact queueCopy_runs rfl h.1 rfl (hbody.trans ((if_neg (not_lt.2 hs)).trans (if_neg fun h => absurd (getD_of_all hbs h.2) (not_le.2 h.1))))
  case sfill =>
    intro low dst len valid
    have hbody := opSfill_eq (n := insX 0x93 f) h.2 hm
    have hvalid : ¬(len % 32 ≠ 0 ∨ len < 32 ∨ 524288 < len) ↔ valid := by
      change _ ↔ len % 32 = 0 ∧ 32 ≤ len ∧ len ≤ 524288
      omega
    refine ⟨fun hv => run_trap h.1 (hbody.trans (if_pos (not_not.1 (mt hvalid.1 hv)))), fun hv hd => ?_, fun hv hd hs => ?_, fun hv hd hs hc hq => ?_⟩
      <;> have hbody := hbody.trans (if_neg (hvalid.2 hv))
    · exact run_trap h.1 (hbody.trans (if_pos hd))
    · exact run_trap h.1 (hbody.trans ((if_neg (not_not.2 hd)).trans (if_pos hs)))
    · exact ((queueCopy_runs rfl h.1 rfl (hbody.trans ((if_neg (not_not.2 hd)).trans (if_neg (not_lt.2 hs))))).2 hc).2 hq
  case opld =>
    intro low b k src v off len bar valid
    obtain rfl := (gate_go h.1).2.1
    have hbody := opOpld_eq (n := insX 0x84 f) h.2
    refine ⟨fun hv => run_trap h.1 (hbody.trans (if_pos hv)), fun hv hs => ?_, fun hv hs hb hz => ?_, fun hv hs hb hz hc => ?_⟩
      <;> have hbody := hbody.trans (if_neg (not_not.2 hv))
    · exact run_trap h.1 (hbody.trans (if_pos hs))
    · exact run_trap h.1 (hbody.trans ((if_neg (not_not.2 hs)).trans ((if_neg fun h => h.2 (getD_of_all hb h.1)).trans (if_pos hz))))
    · have hbody := hbody.trans ((if_neg (not_not.2 hs)).trans ((if_neg fun h => h.2 (getD_of_all (fun a ha => (hb a ha).1) h.1)).trans
        ((if_neg (not_lt.2 hz)).trans (if_neg fun h => absurd (getD_of_all (fun a ha => (hb a ha).2) h.1) (not_le.2 h.2)))))
      rw [show w.conflict _ _ _ = _ from hc] at hbody
      refine ⟨fun hn => run_trap h.1 (hbody.trans (if_pos ?_)), fun hn hm hr hw hq => enqueue_queued rfl h.1 (hbody.trans ((if_neg ?_).trans (if_neg ?_))) rfl⟩
      · rw [show w.E.slot _ _ = _ from hn]; rfl
      · rw [Option.isNone_iff_eq_none, ← Option.not_isSome_iff_eq_none]
        exact not_not.2 hn
      · rintro (hm' | hr' | hw' | hq')
        · exact absurd hm' (by rw [hm]; simp)
        · exact absurd hr' (by rw [show w.s.slotReading _ _ _ _ = _ from hr]; simp)
        · exact absurd hw' (by rw [show w.s.slotWriting _ _ _ _ = _ from hw]; simp)
        · exact absurd (queueFull_iff.1 hq') (not_le.2 hq)
  case touch =>
    intro low k x r gv g bytes lo valid
    obtain rfl := (gate_go h.1).2.1
    have hbody := opTouch_eq (n := insX 0x96 f) h.2 hm
    refine ⟨fun hv => run_trap h.1 (hbody.trans (if_pos hv)), fun hv hn => ?_,
      fun hv hx hl => ⟨fun he => run_trap h.1 ?_, fun he hs ho => run_trap h.1 ?_, fun he hs hn => run_trap h.1 ?_, fun he hs ht => ?_⟩⟩
      <;> have hbody := hbody.trans (if_neg (not_not.2 hv))
    · rw [touch_nothing hn] at hbody
      exact completes_changed rfl h.1 hbody rfl
    · rw [touch_badEntry hx hl he] at hbody
      exact hbody
    · rw [touch_outside hx hl he hs ho] at hbody
      exact hbody
    · rw [touch_noSlot hx hl he hs hn] at hbody
      exact hbody
    · rw [touch_passes hx hl he hs ht] at hbody
      refine ⟨fun hq => run_hold h.1 (hbody.trans (by rw [if_pos hq]; rfl)), fun hq => ?_⟩
      rw [if_neg (not_le.2 hq)] at hbody
      obtain ⟨htid, hfields⟩ := windowCopy_fields w.s w.tid w.T w.E w.S.pc k g (if (insX 0x96 f).mod.testBit 6 then some gv else none)
      obtain ⟨t, ht, hqueued⟩ := enqueue_queued (i := .touch f) rfl h.1 hbody htid
      exact ⟨t, _, ht, hqueued, hfields⟩
  case start =>
    refine fun tid s => ⟨_, rfl, runQueue_mem s tid 8, fun T id c hT hq hc => ⟨fun q hg h => ?_, fun hn hg => ?_, fun q hg h => ?_, fun hg hs hn hl => ?_⟩⟩
    · exact (runQueue_waits hT hq hc (headStep_unresolved hg h) 7).1
    · obtain ⟨honly, hagain⟩ := runQueue_waits hT hq hc (headStep_early hn hg) 7
      exact ⟨honly, hagain hn⟩
    · obtain ⟨hnone, hempty⟩ := runQueue_discards hT hq hc (headStep_refused hg h) 7
      exact ⟨hnone, Option.map_eq_some_iff.1 hempty⟩
    · obtain ⟨hstart, hempty⟩ := runQueue_starts hT hq hc (headStep_ready hg hs hn hl) 7
      obtain ⟨c', hc', hstarted⟩ := Option.map_eq_some_iff.1 hstart
      obtain ⟨T', hT', hqueue⟩ := Option.map_eq_some_iff.1 hempty
      exact ⟨c', T', hc', hstarted, hT', hqueue⟩

end Sys2Proof
end

section
/-! Stage memory and the bits of a barrier (O22, O23, O26): what a write leaves of the bytes, and what an update leaves of the fields
(R239, R240, R254, R255). -/

namespace Sys2Proof

open Machine

namespace Machine

/-! ### Bytes of stage memory -/

section
variable (e : Ensemble) (a b n : Nat) (bs : List Byte)

/-- A write reaches the bytes of its range that lie in the allotment, and no others (R239). -/
theorem get_stageWrite : (e.stageWrite a bs).stage.get b = if a ≤ b ∧ b < a + bs.length ∧ b < e.size then bs.getD (b - a) 0 else e.stage.get b := by
  unfold Ensemble.stageWrite
  dsimp only
  rw [Store.get_setMany, List.length_take]
  by_cases h : a ≤ b ∧ b < a + bs.length ∧ b < e.size
  · obtain ⟨h1, h2, h3⟩ := h
    rw [if_pos ⟨h1, by omega⟩, if_pos ⟨h1, h2, h3⟩, List.getD_eq_getElem?_getD, List.getD_eq_getElem?_getD, List.getElem?_take, if_pos (by omega)]
  · rw [if_neg (by omega), if_neg h]

@[simp] theorem stageWrite_size : (e.stageWrite a bs).size = e.size := rfl

theorem stageWrite_only : e.stageWrite a bs = { e with stage := (e.stageWrite a bs).stage } := rfl

variable {e a b n bs}

theorem stageRead_congr {x y : Ensemble} (h : ∀ d, a ≤ d → d < a + n → x.stage.get d = y.stage.get d) : x.stageRead a n = y.stageRead a n :=
  List.map_congr_left fun _ hi => h _ (Nat.le_add_right _ _) (Nat.add_lt_add_left (List.mem_range.1 hi) _)

theorem stageRead_one_eq {x y : Ensemble} (d : Nat) : x.stageRead d 1 = y.stageRead d 1 ↔ x.stage.get d = y.stage.get d := by
  simp [Ensemble.stageRead, Store.getMany]

/-- A write inside the allotment stands. -/
theorem stageRead_stageWrite_same (h : a + bs.length ≤ e.size) : (e.stageWrite a bs).stageRead a bs.length = bs := by
  refine List.ext_getElem (by simp [Ensemble.stageRead, Store.getMany]) fun _ _ hi' => ?_
  simp only [Ensemble.stageRead, Store.getMany, List.getElem_map, List.getElem_range, get_stageWrite]
  rw [if_pos (by omega)]
  simp [hi']

theorem stageRead_stageWrite_other (h : b + n ≤ a ∨ a + bs.length ≤ b) : (e.stageWrite a bs).stageRead b n = e.stageRead b n :=
  stageRead_congr fun d h1 h2 => by rw [get_stageWrite, if_neg (by omega)]

theorem leNat_lt (l : List Byte) : leNat l < 256 ^ l.length := by
  induction l with
  | nil => simp [leNat]
  | cons x l ih =>
    have hx := x.isLt
    rw [leNat, List.length_cons, pow_succ]
    omega

theorem bar_lt (e : Ensemble) (a : Nat) : e.bar a < 2 ^ 128 := by
  have h := leNat_lt (e.stageRead a 16)
  rwa [show (e.stageRead a 16).length = 16 by simp [Ensemble.stageRead, Store.getMany]] at h

theorem bar_stageWrite_same {v : Nat} (h : a + 16 ≤ e.size) (hv : v < 2 ^ 128) : (e.stageWrite a (natLE 16 v)).bar a = v := by
  have hread := stageRead_stageWrite_same (e := e) (a := a) (bs := natLE 16 v) (by rw [length_natLE]; exact h)
  rw [length_natLE] at hread
  unfold Ensemble.bar
  rw [hread, leNat_natLE]
  exact Nat.mod_eq_of_lt hv

theorem bar_stageWrite_other (h : b + 16 ≤ a ∨ a + bs.length ≤ b) : (e.stageWrite a bs).bar b = e.bar b :=
  congrArg leNat (stageRead_stageWrite_other h)

end

/-! ### The fields of a barrier (R254) -/

theorem field_eq_div (x hi lo : Nat) : field x hi lo = x / 2 ^ lo % 2 ^ (hi + 1 - lo) := by
  unfold field
  rw [Nat.shiftRight_eq_div_pow]

theorem field_lt (x hi lo : Nat) : field x hi lo < 2 ^ (hi + 1 - lo) := Nat.mod_lt _ (Nat.two_pow_pos _)

/-- The fields of 128 bits put together from PHASE, ARRIVALS, SECTORS, the fields above them that an update keeps, OVR and the reserved
bits. -/
theorem packed_fields {ph arr sec kept ovr res : Nat} (h1 : ph < 2 ^ 4) (h2 : arr < 2 ^ 20) (h3 : sec < 2 ^ 32) (h4 : kept < 2 ^ 56) (h5 : ovr < 2)
    (h6 : res < 2 ^ 15) : let v := ph + 16 * arr + 2 ^ 24 * sec + 2 ^ 56 * kept + 2 ^ 112 * (ovr + 2 * res)
    v < 2 ^ 128 ∧ field v 3 0 = ph ∧ field v 23 4 = arr ∧ field v 55 24 = sec ∧ field v 111 56 = kept ∧ v / 2 ^ 112 % 2 = ovr ∧ field v 127 113 = res := by
  simp only [field_eq_div]
  omega

/-- What one update leaves of a barrier's fields (R255). -/
theorem barStep_fields (v arrive : Nat) (add : Int) : let r := (barStep v arrive add).1
    let arrivals := field v 23 4 - arrive
    let sectors : Nat := (((field v 55 24 : Nat) + add) % (2 : Int) ^ 32).toNat
    let done := (barStep v arrive add).2
    r < 2 ^ 128 ∧ (done = true ↔ arrivals = 0 ∧ sectors = 0)
      ∧ field r 3 0 = (if done then (v % 16 + 1) % 16 else v % 16) ∧ field r 23 4 = (if done then field v 75 56 else arrivals)
      ∧ field r 55 24 = (if done then field v 111 80 else sectors) ∧ field r 111 56 = field v 111 56
      ∧ r / 2 ^ 112 % 2 = (bitOf v 112 || field v 23 4 < arrive).toNat ∧ field r 127 113 = field v 127 113 := by
  intro r arrivals sectors done
  have hdone : done = (arrivals = 0 && sectors = 0) := rfl
  obtain ⟨h1, h2, h3, h4, h5, h6, h7⟩ := packed_fields (ph := if done then (v % 16 + 1) % 16 else v % 16)
    (arr := if done then field v 75 56 else arrivals) (sec := if done then field v 111 80 else sectors) (kept := field v 111 56)
    (ovr := (bitOf v 112 || field v 23 4 < arrive).toNat) (res := field v 127 113) (by split <;> omega)
    (by have := field_lt v 75 56; have := field_lt v 23 4; split <;> omega)
    (by have := field_lt v 111 80; split <;> omega) (field_lt v 111 56) (Bool.toNat_lt _) (field_lt v 127 113)
  exact ⟨h1, by rw [hdone]; simp, h2, h3, h4, h5, h6, h7⟩

theorem testBit_field (x hi lo i : Nat) : (field x hi lo).testBit i = (decide (i < hi + 1 - lo) && x.testBit (lo + i)) := by
  rw [field, Nat.testBit_mod_two_pow, Nat.testBit_shiftRight]

/-- A field of a field. -/
theorem field_field (x : Nat) {hi lo h l : Nat} (hh : lo + h ≤ hi) : field (field x hi lo) h l = field x (lo + h) (lo + l) := by
  refine Nat.eq_of_testBit_eq fun i => ?_
  rw [testBit_field, testBit_field, testBit_field, ← Nat.add_assoc, show lo + h + 1 - (lo + l) = h + 1 - l by omega]
  by_cases hi : i < h + 1 - l
  · rw [decide_eq_true (p := l + i < _) (by omega), Bool.true_and]
  · simp [hi]

/-- The fields of a barrier that an update keeps, as tbinit puts them together: the reload values, SCOPE and EPOCH. -/
theorem kept_fields {arrivals scope e reload : Nat} (ha : arrivals < 2 ^ 20) (hs : scope < 8) (he : e < 2) (hr : reload < 2 ^ 32) :
    let v := arrivals + 2 ^ 20 * scope + 2 ^ 23 * e + 2 ^ 24 * reload
    v < 2 ^ 56 ∧ field v 19 0 = arrivals ∧ field v 22 20 = scope ∧ v / 2 ^ 23 % 2 = e ∧ field v 55 24 = reload := by
  simp only [field_eq_div]
  omega

/-- The fields that tbinit writes (R274). -/
theorem barInit_fields {arrivals reload scope : Nat} (old : Nat) (epoch : Bool) (ha : arrivals < 2 ^ 20) (hr : reload < 2 ^ 32) (hs : scope < 8) :
    let v := barInit old arrivals reload scope epoch
    v < 2 ^ 128 ∧ field v 3 0 = 0 ∧ field v 23 4 = arrivals ∧ field v 55 24 = reload ∧ field v 75 56 = arrivals ∧ field v 78 76 = scope
      ∧ v.testBit 79 = epoch ∧ field v 111 80 = reload ∧ v.testBit 112 = false ∧ field v 127 113 = field old 127 113 := by
  obtain ⟨k1, k2, k3, k4, k5⟩ := kept_fields ha hs (Bool.toNat_lt epoch) hr
  obtain ⟨h1, h2, h3, h4, h5, h6, h7⟩ := packed_fields (ph := 0) (ovr := 0) (by decide) ha hr k1 (by decide) (field_lt old 127 113)
  intro v
  have hv : v = 0 + 16 * arrivals + 2 ^ 24 * reload + 2 ^ 56 * (arrivals + 2 ^ 20 * scope + 2 ^ 23 * epoch.toNat + 2 ^ 24 * reload)
      + 2 ^ 112 * (0 + 2 * field old 127 113) := by
    change 2 ^ 4 * arrivals + 2 ^ 24 * reload + 2 ^ 56 * arrivals + 2 ^ 76 * scope + 2 ^ 79 * epoch.toNat + 2 ^ 80 * reload
      + 2 ^ 113 * field old 127 113 = _
    ring
  rw [← hv] at h1 h2 h3 h4 h5 h6 h7
  have hsub (h l : Nat) (hh : 56 + h ≤ 111) : field v (56 + h) (56 + l) = field (field v 111 56) h l := (field_field v hh).symm
  have hbit : v.testBit 79 = (field v 111 56).testBit 23 := by rw [testBit_field]; simp
  refine ⟨h1, h2, h3, h4, ?_, ?_, ?_, ?_, ?_, h7⟩
  · exact (hsub 19 0 (by decide)).trans (by rw [h5, k2])
  · exact (hsub 22 20 (by decide)).trans (by rw [h5, k3])
  · rw [hbit, h5, Nat.testBit_eq_decide_div_mod_eq, k4]
    cases epoch <;> rfl
  · exact (hsub 55 24 (by decide)).trans (by rw [h5, k5])
  · rw [Nat.testBit_eq_decide_div_mod_eq, h6]
    rfl

end Machine
end Sys2Proof
end

section
/-! Updates of barriers (O22, O23, O26): what one leaves of its ensemble, of the splits that wait for the phase, and of the split whose instruction
made it (R128, R255, R276). -/

namespace Sys2Proof

open Machine

namespace Machine

/-! ### The end of a phase -/

/-- A troupe in which splits may wait for something else. -/
structure SameButWaits (T T' : Troupe) : Prop where
  only : T' = { T with splits := T'.splits, stack := T'.stack, coming := T'.coming }
  splits : ∀ j p, T.splits.find? j = some p → ∃ p', T'.splits.find? j = some p' ∧ p' = { p with wait := p'.wait }

theorem SameButWaits.refl (T : Troupe) : SameButWaits T T := ⟨rfl, fun _ p h => ⟨p, h, rfl⟩⟩

theorem SameButWaits.trans {T U V : Troupe} (h : SameButWaits T U) (k : SameButWaits U V) : SameButWaits T V where
  only := by rw [k.only, h.only]
  splits j p hp := by
    obtain ⟨p1, h1, e1⟩ := h.splits j p hp
    obtain ⟨p2, h2, e2⟩ := k.splits j p1 h1
    exact ⟨p2, h2, by rw [e2, e1]⟩

theorem SameButWaits.modSplit (T : Troupe) (uid : Nat) (wt : Split → Wait) : SameButWaits T (T.modSplit uid fun p => { p with wait := wt p }) := by
  refine ⟨rfl, fun j p hp => ⟨_, (Troupe.find?_modSplit _ _ _ _).trans (congrArg _ hp), ?_⟩⟩
  dsimp only
  split <;> rfl

/-- Splits wait for something else, and more is on the agenda; nothing else differs. -/
structure OnlyWaits (s t : State) : Prop where
  only : t = { s with troupes := t.troupes, agenda := t.agenda }
  troupes : ∀ k T, s.troupes.find? k = some T → ∃ T', t.troupes.find? k = some T' ∧ SameButWaits T T'
  agenda : ∀ x ∈ s.agenda, x ∈ t.agenda

theorem OnlyWaits.refl (s : State) : OnlyWaits s s := ⟨rfl, fun _ T h => ⟨T, h, .refl T⟩, fun _ h => h⟩

theorem OnlyWaits.trans {s t u : State} (h : OnlyWaits s t) (k : OnlyWaits t u) : OnlyWaits s u where
  only := by rw [k.only, h.only]
  troupes n T hT := by
    obtain ⟨T1, h1, e1⟩ := h.troupes n T hT
    obtain ⟨T2, h2, e2⟩ := k.troupes n T1 h1
    exact ⟨T2, h2, e1.trans e2⟩
  agenda x hx := k.agenda x (h.agenda x hx)

theorem OnlyWaits.now {s t : State} (h : OnlyWaits s t) : t.now = s.now := by rw [h.only]

/-- One split waits for something else, and an event is planned. -/
theorem OnlyWaits.wake (s : State) (tid uid due : Nat) (ev : Ev) (wt : Split → Wait) :
    OnlyWaits s ((s.modTroupe tid fun t => t.modSplit uid fun p => { p with wait := wt p }).at_ due ev) := by
  refine ⟨rfl, fun k T hT => ?_, fun x hx => mem_at.2 (.inr hx)⟩
  by_cases hk : k = tid
  · subst hk
    exact ⟨_, (Tab.find?_modify_same _ _ _).trans (congrArg _ hT), .modSplit T uid wt⟩
  · exact ⟨T, (Tab.find?_modify_other _ _ hk).trans hT, .refl T⟩

/-- What one element of a list puts on the agenda is there after the whole list. -/
theorem mem_foldl_adds {α : Type} {f : State → α → State} (hf : ∀ s a, OnlyWaits s (f s a)) {x : Timed} {a : α} {n : Nat}
    (ha : ∀ s, s.now = n → x ∈ (f s a).agenda) {l : List α} (hl : a ∈ l) : ∀ s : State, s.now = n → x ∈ (l.foldl f s).agenda := by
  induction l with
  | nil => cases hl
  | cons b l ih =>
    intro s hs
    rcases List.mem_cons.1 hl with rfl | hl
    · exact (foldl_rel .refl .trans hf l _).agenda x (ha s hs)
    · exact ih hl _ ((hf s b).now.trans hs)

/-- The troupe's splits that wait for a phase of a barrier to end wake once it has (R276). -/
def State.wakePhase (ph addr : Nat) (s : State) (t : Nat × Troupe) : State :=
  (t.2.splits.map (·.2) ++ t.2.stack ++ t.2.coming.map (·.2)).foldl (fun s p => match p.wait with
    | .phase a q k l =>
      if a = addr ∧ q < 16 ∧ q ≠ ph then
        (s.modTroupe t.1 fun t => t.modSplit p.uid fun p => { p with wait := .phase a 16 k l }).at_ (s.now + 8) (.tbwaitWake t.1 p.uid)
      else s
    | _ => s) s

theorem phaseDone_eq (s : State) (ens addr ph : Nat) : s.phaseDone ens addr ph =
    let s1 := s.modEns ens fun e => if e.epoch = some addr then { e with gown := [] } else e
    (s1.troupes.filter fun t => t.2.ens = ens).foldl (State.wakePhase ph addr) s1 := rfl

section
variable (ph addr : Nat) (t : Nat × Troupe)

theorem wakePhase_step (s : State) (p : Split) : OnlyWaits s (match p.wait with
    | .phase a q k l =>
      if a = addr ∧ q < 16 ∧ q ≠ ph then
        (s.modTroupe t.1 fun t => t.modSplit p.uid fun p => { p with wait := .phase a 16 k l }).at_ (s.now + 8) (.tbwaitWake t.1 p.uid)
      else s
    | _ => s) := by
  split
  · split
    · exact .wake s _ _ _ _ _
    · exact .refl s
  · exact .refl s

theorem wakePhase_waits (s : State) : OnlyWaits s (s.wakePhase ph addr t) :=
  foldl_rel .refl .trans (fun s p => wakePhase_step ph addr t s p) _ s

variable {ph addr t}

theorem wakePhase_wakes {p : Split} {q sc : Nat} {l : List (Nat × Nat)} (hp : p ∈ t.2.splits.map (·.2)) (hw : p.wait = .phase addr q sc l)
    (hq : q < 16) (hn : q ≠ ph) {s : State} {n : Nat} (hs : s.now = n) : ⟨n + 8, .tbwaitWake t.1 p.uid⟩ ∈ (s.wakePhase ph addr t).agenda := by
  refine mem_foldl_adds (a := p) (n := n) (fun s p => wakePhase_step ph addr t s p) (fun s hs => ?_)
    (List.mem_append_left _ (List.mem_append_left _ hp)) s hs
  rw [hw]
  dsimp only
  rw [if_pos ⟨rfl, hq, hn⟩, hs]
  exact mem_at.2 (.inl rfl)

end

/-! ### One update -/

/-- What an update of the barrier at a stage address leaves: its ensemble, and the splits that wait for the phase it ends (R255). -/
structure BarUpdated (s t : State) (ens : Nat) (e : Ensemble) (a arrive : Nat) (add : Int) (E : Ensemble) : Prop where
  waits : OnlyWaits { s with ensembles := t.ensembles } t
  others : ∀ k, k ≠ ens → t.ensembles.find? k = s.ensembles.find? k
  found : t.ensembles.find? ens = some E
  only : E = { e with stage := (e.stageWrite a (natLE 16 (barStep (e.bar a) arrive add).1)).stage, bars := E.bars,
                      gown := if (barStep (e.bar a) arrive add).2 ∧ e.epoch = some a then [] else e.gown }
  wakes : (barStep (e.bar a) arrive add).2 = true → ∀ k T j p q sc l, s.troupes.find? k = some T → T.ens = ens → T.splits.find? j = some p →
    p.wait = .phase a q sc l → q < 16 → q ≠ (barStep (e.bar a) arrive add).1 % 16 → ⟨s.now + 8, .tbwaitWake k p.uid⟩ ∈ t.agenda

theorem barApply_updates {s : State} {ens : Nat} {e : Ensemble} (he : s.ensembles.find? ens = some e) (a arrive : Nat) (add : Int) :
    ∃ E, BarUpdated s (s.barApply ens a arrive add) ens e a arrive add E := by
  let r := barStep (e.bar a) arrive add
  let f (e : Ensemble) : Ensemble := { e.stageWrite a (natLE 16 r.1) with bars := if e.bars.contains a then e.bars else e.bars ++ [a] }
  let g (e : Ensemble) : Ensemble := if e.epoch = some a then { e with gown := [] } else e
  let s1 := s.modEns ens f
  let s2 := s1.modEns ens g
  let l := s2.troupes.filter fun t => t.2.ens = ens
  have happly : s.barApply ens a arrive add = if r.2 then l.foldl (State.wakePhase (r.1 % 16) a) s2 else s1 := by
    unfold State.barApply
    rw [he]
    rfl
  have hs1 : s1.ensembles.find? ens = some (f e) := (Tab.find?_modify_same _ _ _).trans (congrArg _ he)
  rw [happly]
  cases hr : r.2 with
  | false =>
    rw [if_neg Bool.false_ne_true]
    refine ⟨f e, .refl _, fun k hk => Tab.find?_modify_other _ _ hk, hs1, ?_, fun h => absurd (hr.symm.trans h) Bool.false_ne_true⟩
    rw [if_neg fun h => absurd (hr.symm.trans h.1) Bool.false_ne_true]
    rfl
  | true =>
    rw [if_pos rfl]
    have hwaits : OnlyWaits s2 (l.foldl (State.wakePhase (r.1 % 16) a) s2) := foldl_rel .refl .trans (fun s t => wakePhase_waits _ _ t s) l s2
    have hens : (l.foldl (State.wakePhase (r.1 % 16) a) s2).ensembles = s2.ensembles := by rw [hwaits.only]
    refine ⟨g (f e), ?_, fun k hk => ?_, ?_, ?_, fun _ k T j p q sc z hT hTe hp hw hq hn => ?_⟩
    · rw [hens]
      exact hwaits
    · rw [hens]
      exact (Tab.find?_modify_other _ _ hk).trans (Tab.find?_modify_other _ _ hk)
    · rw [hens]
      exact (Tab.find?_modify_same _ _ _).trans (congrArg _ hs1)
    · simp only [g]
      rw [show (f e).epoch = e.epoch from rfl]
      split
      · next h => rw [if_pos ⟨hr, h⟩]; rfl
      · next h => rw [if_neg fun k => h k.2]; rfl
    · refine mem_foldl_adds (a := (k, T)) (fun s t => wakePhase_waits _ _ t s) (fun s hs => ?_) ?_ s2 rfl
      · exact wakePhase_wakes (List.mem_map.2 ⟨(j, p), Tab.mem_of_find? hp, rfl⟩) hw hq hn hs
      · exact List.mem_filter.2 ⟨Tab.mem_of_find? hT, by simpa using hTe⟩

section
variable {s t : State} {ens a arrive : Nat} {e E : Ensemble} {add : Int} (h : BarUpdated s t ens e a arrive add E)
include h

theorem BarUpdated.mem : t.mem = s.mem := by rw [h.waits.only]

theorem BarUpdated.copies : t.copies = s.copies := by rw [h.waits.only]

theorem BarUpdated.bar (hin : a + 16 ≤ e.size) : E.bar a = (barStep (e.bar a) arrive add).1 := by
  rw [h.only]
  exact bar_stageWrite_same hin (barStep_fields _ _ _).1

theorem BarUpdated.stage {d n : Nat} (hd : d + n ≤ a ∨ a + 16 ≤ d) : E.stageRead d n = e.stageRead d n := by
  rw [h.only]
  exact stageRead_stageWrite_other (by rwa [length_natLE])

end

/-! ### The split whose instruction makes an update -/

/-- The data `y` of a split `u` after an update of a barrier of its ensemble, with some results left to the scoreboard. -/
structure Updated (u y : Work) (a arrive : Nat) (add : Int) (ps : List Pend) : Prop where
  tid : y.tid = u.tid
  ent : y.ent = u.ent
  act : y.act = u.act
  T : y.T = { u.T with splits := y.T.splits, stack := y.T.stack, coming := y.T.coming, pend := u.T.pend ++ ps }
  S : y.S = { u.S with wait := y.S.wait }
  updated : ∃ t, BarUpdated u.commit t u.T.ens u.E a arrive add y.E ∧ y.s = { t with tick := y.s.tick, agenda := y.s.agenda }
    ∧ ∀ x ∈ t.agenda, x ∈ y.s.agenda

theorem via_barApply (u : Work) (a arrive : Nat) (add : Int) : Updated u (u.via fun s => s.barApply u.T.ens a arrive add) a arrive add [] := by
  obtain ⟨E, hE⟩ := barApply_updates (s := u.commit) (ens := u.T.ens) (e := u.E) (Tab.find?_put_same _ _ _) a arrive add
  obtain ⟨T', hT, honly, hsplits⟩ := hE.waits.troupes u.tid { u.T with splits := u.T.splits.put u.ent u.S } (Tab.find?_put_same _ _ _)
  obtain ⟨p, hp, hpw⟩ := hsplits u.ent u.S (Tab.find?_put_same _ _ _)
  have hens : T'.ens = u.T.ens := by rw [honly]
  have hfound : (u.commit.barApply u.T.ens a arrive add).ensembles.find? T'.ens = some E := by
    rw [hens]
    exact hE.found
  unfold Work.via Work.reload
  rw [work_of_entries hT hp hfound]
  exact ⟨rfl, rfl, rfl, by dsimp only; rw [honly, List.append_nil], hpw, _, hE, rfl, fun _ h => h⟩

section
variable {u y : Work} {n : Ins} {a arrive : Nat} {add : Int} {ps : List Pend} (h : Updated u y a arrive add ps)
include h

/-- A result that such an instruction leaves to the scoreboard. -/
theorem Updated.later (cycles len : Nat) (flags : Word) (v : Nat → Nat → Word) :
    Updated u (y.later cycles flags n len v) a arrive add (ps ++ [y.pendOf false 0 flags (y.outsOf n len y.act v)]) := by
  obtain ⟨t, ht, hs, hag⟩ := h.updated
  refine ⟨h.tid, h.ent, h.act, ?_, h.S, t, ht, ?_, fun x hx => mem_at.2 (.inr (hag x hx))⟩
  · rw [← List.append_assoc]
    exact congrArg (fun T : Troupe => { T with pend := T.pend ++ [y.pendOf false 0 flags (y.outsOf n len y.act v)] }) h.T
  · exact congrArg (fun s : State => { s with tick := (y.later cycles flags n len v).s.tick, agenda := (y.later cycles flags n len v).s.agenda }) hs

/-- An instruction that ends with an update of a barrier of its ensemble has applied it (R255). -/
theorem Updated.finish (hu : u.s.troupes.find? u.tid = some u.T) (hok : a + 16 ≤ u.E.size) : ∃ x, (y.finish n).work u.tid u.ent = some x
    ∧ x.S.pc = (nextWord n u).pc ∧ (∀ r l, x.now r l = u.now r l) ∧ x.T.pend = u.T.pend ++ ps
    ∧ barApplied u.s (y.finish n) u a arrive add := by
  obtain ⟨t, hE, hs, hag⟩ := h.updated
  obtain ⟨x, hx, -, hpc, hnow, hxE, hpend, -, hmod⟩ := finish_keeps (s := y.s) (w := y) (y := y) (n := n) rfl rfl rfl rfl rfl rfl
  obtain ⟨x', hx'⟩ := Work.finish_completes (n := n) (w := y) rfl (.refl y) (outs := []) (fun _ _ _ => by simp [written])
  obtain rfl : x = x' := Option.some.inj (hx.symm.trans hx'.split)
  obtain ⟨-, -, -, -, -, -, hfound⟩ := work_fields hx
  have hTens : x.T.ens = u.T.ens := by rw [hx'.troupe, h.T]
  rw [hTens, hxE] at hfound
  refine ⟨x, by rw [← h.tid, ← h.ent]; exact hx, ?_, fun r l => (hnow r l).trans ?_, hpend.trans (by rw [h.T]), y.E, hfound, hE.bar hok,
    fun c hc => hE.stage (by omega), by rw [hE.only], fun hdone k T j p q sc l hT hTe hp hne hw hq hn => Work.mem_finish n (hag _ ?_), ?_⟩
  · rw [hpc]
    unfold nextWord
    rw [h.S]
  · exact Work.now_congr (by rw [h.T]) (by rw [h.S]) (by rw [h.T]) (by rw [hE.only]) r l
  · by_cases hk : k = u.tid
    · subst hk
      obtain rfl : u.T = T := Option.some.inj (hu.symm.trans hT)
      have hj : j ≠ u.ent := hne.resolve_left fun h => h rfl
      exact hE.wakes hdone _ { u.T with splits := u.T.splits.put u.ent u.S } j p q sc l (Tab.find?_put_same _ _ _) rfl
        ((Tab.find?_put_other _ _ hj).trans hp) hw hq hn
    · exact hE.wakes hdone k T j p q sc l ((Tab.find?_put_other _ _ hk).trans hT) hTe hp hw hq hn
  · rw [hmod]
    change y.s.mem = _
    rw [hs]
    exact hE.mem

/-- What a result of the instruction writes is the same of the split before and after the update. -/
theorem Updated.outsOf (len : Nat) (m : Mask) (v : Nat → Nat → Word) : y.outsOf n len m v = u.outsOf n len m v := by
  obtain ⟨t, hE, -, -⟩ := h.updated
  have hidx (b : BitVec 2) (k : BitVec 5) (i : Nat) : y.idx b k i = u.idx b k i := by
    unfold Work.idx Work.read
    dsimp only
    rw [Work.now_congr (w := u) (x := y) (by rw [h.T]) (by rw [h.S]) (by rw [h.T]) (by rw [hE.only]), h.S]
  have hsup : y.T.sup = u.T.sup := by rw [h.T]; rfl
  have hdests (k : Nat) : y.dests n.dst k m = u.dests n.dst k m := by
    unfold Work.dests Troupe.oReg Troupe.sReg
    simp only [hidx, hsup]
  unfold Work.outsOf
  simp only [hdests]

end

end Machine
end Sys2Proof
end

section
/-! The barrier instructions (O23): tbinit, tbarr, tbexp and tbwait (R256, R274 to R276). -/

namespace Sys2Proof

open Machine

namespace Machine

variable {i : Instr} {n : Ins} {s : State} {w : Work}

/-! ### The checks of a barrier operand -/

/-- A barrier instruction: the check of its values, then that of its barrier's place, then its effect (R274, R239). -/
def Work.barOp (w : Work) (bad : Prop) [Decidable bad] (a : Nat) (rest : Eff) : Eff :=
  if bad then .trap { cause := 0x02 }
  else match w.barCheck a with
    | some t => .trap t
    | none => rest

section
variable {bad : Prop} [Decidable bad] {a : Nat} {rest : Eff}

theorem barOp_misaligned (hb : ¬bad) (ha : a % 16 ≠ 0) : w.barOp bad a rest = .trap { cause := 0x07, info := lowLane w.act, addr := a } := by
  unfold Work.barOp Work.barCheck
  rw [if_neg hb, if_pos ha]

theorem barOp_outside (hb : ¬bad) (ha : a % 16 = 0) (hs : w.E.size < a + 16) : w.barOp bad a rest = .trap (stageOut a) := by
  unfold Work.barOp Work.barCheck
  rw [if_neg hb, if_neg (not_not.2 ha), if_pos hs]

theorem barOp_passes (hb : ¬bad) (ha : a % 16 = 0) (hs : a + 16 ≤ w.E.size) : w.barOp bad a rest = rest := by
  unfold Work.barOp Work.barCheck
  rw [if_neg hb, if_neg (not_not.2 ha), if_neg (not_lt.2 hs)]

/-- What makes a barrier instruction trap, in the order of its checks. -/
theorem barOp_traps {body : Work → Eff} {valid : Prop} (he : exec i s = run n body s) (hg : gate n s = .go w) (hb : body w = w.barOp bad a rest)
    (hv : bad ↔ ¬valid) : (¬valid → exec i s = w.trap n { cause := 0x02 })
      ∧ (valid → a % 16 ≠ 0 → exec i s = w.trap n { cause := 0x07, info := lowLane w.act, addr := a })
      ∧ (valid → a % 16 = 0 → w.E.size < a + 16 → exec i s = w.trap n { cause := 0x09, info := 8, addr := a }) := by
  have hok (h : valid) : ¬bad := fun hb => hv.1 hb h
  exact ⟨fun h => he.trans (run_trap hg (hb.trans (if_pos (hv.2 h)))), fun h ha => he.trans (run_trap hg (hb.trans (barOp_misaligned (hok h) ha))),
    fun h ha hs => he.trans (run_trap hg (hb.trans (barOp_outside (hok h) ha hs)))⟩

end

/-! ### The instructions -/

section
variable (ha : w.act ≠ 0) (hm : w.memHeld = false)
include ha hm

/-- tbinit with its place and its values named (R274). -/
theorem opTbinit_eq : let low := lowLane w.act
    let a := w.stageAddr n n.sa low
    let arrivals := (w.src true n n.sb 0 low).toNat
    let e := if n.mod.testBit 0 then w.E.unmark a else w.E
    let e1 := e.stageWrite a (natLE 16 (barInit (e.bar a) arrivals (w.src true n n.sc 0 low).toNat (Scope.num n.scope) (n.mod.testBit 0)))
    opTbinit n w = w.barOp (arrivals = 0 ∨ 0xFFFFF < arrivals) a (.done { w with E := { e1 with
      epoch := if n.mod.testBit 0 then some a else if e1.epoch = some a then none else e1.epoch
      bars := if e1.bars.contains a then e1.bars else e1.bars ++ [a] } }) := by
  refine (ifActive_of ha).trans ((if_neg (by simp [hm])).trans ?_)
  simp only [bitOf_eq]
  rfl

/-- tbarr with its place and its values named (R275). -/
theorem opTbarr_eq : let low := lowLane w.act
    let a := w.stageAddr n n.sa low
    let count := (w.src true n n.sb 0 low).toNat
    let bytes := if n.mod.testBit 0 then (w.src true n n.sc 0 low).toNat else 0
    let r := w.regionsOf_ true a
    let z := w.via fun s => s.barApply w.T.ens a count (bytes / 32 : Nat)
    opTbarr n w = w.barOp (count = 0 ∨ 0xFFFFF < count ∨ bytes % 32 ≠ 0) a (
      if w.mayRelease (w.E.barScope a) = false then .hold
      else if actsOn true false (w.E.barScope a) then
        .raw ((r.1.holdFor (r.1.pendOf false 0 0#32 (r.1.outsOf n 1 r.1.act fun _ _ => 0#32))).actThen n true false (w.E.barScope a) (some r.2)
          (.arrive a count (if n.mod.testBit 0 then some (bytes / 32) else none) r.1.s.tick))
      else .done (z.later 24 0#32 n 1 fun _ _ => BitVec.ofNat 32 (w.E.bar a % 16))) := by
  refine (ifActive_of ha).trans ((if_neg (by simp [hm])).trans ?_)
  simp only [bitOf_eq]
  rfl

/-- tbexp with its place and its bytes named (R275). -/
theorem opTbexp_eq : let a := w.stageAddr n n.sa (lowLane w.act)
    let bytes := (w.src true n n.sb 0 (lowLane w.act)).toNat
    opTbexp n w = w.barOp (bytes % 32 ≠ 0) a (.done (w.via fun s => s.barApply w.T.ens a 0 (bytes / 32 : Nat))) :=
  (ifActive_of ha).trans (if_neg (by simp [hm]))

/-- tbwait with its place and its phase named (R276). -/
theorem opTbwait_eq : let a := w.stageAddr n n.sa (lowLane w.act)
    let p := (w.src true n n.sb 0 (lowLane w.act)).toNat % 16
    let r := w.regionsOf_ true a
    let scope := w.E.barScope a
    opTbwait n w = w.barOp False a (
      if w.E.bar a % 16 = p then
        .raw (({ r.1 with E := { r.1.E with bars := if r.1.E.bars.contains a then r.1.E.bars else r.1.E.bars ++ [a] } } : Work).suspend n
          (.phase a p scope r.2))
      else if actsOn false true scope then
        .raw (({ r.1 with S := { r.1.S with earliest := w.s.now + 24 } } : Work).actThen n false true scope (some r.2) .nothing)
      else .raw (r.1.finishAfter n 24)) :=
  (ifActive_of ha).trans (if_neg (by simp [hm]))

end

theorem scope_num_lt (k : Scope) : Scope.num k < 8 := by cases k <;> decide

/-- A barrier whose mark stands at an address, or that is not marked, keeps its bits when another barrier takes the mark there (R256). -/
theorem unmark_same {e : Ensemble} {a : Nat} (h : e.epoch = none ∨ e.epoch = some a) : e.unmark a = e := by
  unfold Ensemble.unmark
  rcases h with h | h <;> rw [h]
  exact if_pos rfl

/-- The fields of a barrier that tbinit has written (R274). -/
theorem bar_of_tbinit {e E : Ensemble} {a arrivals reload scope : Nat} {epoch : Bool}
    (hE : E.stage = (e.stageWrite a (natLE 16 (barInit (e.bar a) arrivals reload scope epoch))).stage) (hin : a + 16 ≤ e.size)
    (ha : arrivals < 2 ^ 20) (hr : reload < 2 ^ 32) (hs : scope < 8) : let v := E.bar a
    field v 3 0 = 0 ∧ field v 23 4 = arrivals ∧ field v 55 24 = reload ∧ field v 75 56 = arrivals ∧ field v 78 76 = scope ∧ v.testBit 79 = epoch
      ∧ field v 111 80 = reload ∧ v.testBit 112 = false ∧ field v 127 113 = field (e.bar a) 127 113 := by
  intro v
  obtain ⟨hlt, hfields⟩ := barInit_fields (e.bar a) epoch ha hr hs
  have hv : v = barInit (e.bar a) arrivals reload scope epoch := (congrArg (fun t : Store 8 => leNat (t.getMany a 16)) hE).trans (bar_stageWrite_same hin hlt)
  rw [hv]
  exact hfields

theorem mem_addBar (l : List Nat) (a : Nat) : a ∈ if l.contains a then l else l ++ [a] := by
  split
  · next h => simpa using h
  · simp

theorem actsOn_release (scope : Nat) : actsOn true false scope = decide (scope = 5) := by simp [actsOn]

theorem actsOn_acquire (scope : Nat) : actsOn false true scope = decide (3 ≤ scope) := by simp [actsOn]

/-- A split whose instruction puts a cache action under way waits for it, and nothing of memory has changed (R320). -/
theorem actThen_suspends (y : Work) (n : Ins) (rel acq : Bool) (scope : Nat) (ivs : Option (List (Nat × Nat))) (after : CacheThen) :
    ∃ act x, (y.actThen n rel acq scope ivs after).work y.tid y.ent = some x ∧ x.S.state = 2 ∧ x.S.wait = .cache act.id ∧ x.E = y.E
      ∧ (y.actThen n rel acq scope ivs after).mem = y.s.mem ∧ act ∈ (y.actThen n rel acq scope ivs after).cacheActs ∧ act.release = rel
      ∧ act.after = after := by
  obtain ⟨hacts, ⟨x, hx⟩, -⟩ := actThen_waits (w := y) (x := y) (n := n) (rel := rel) (acq := acq) (scope := scope) (ivs := ivs) (after := after)
    (pends := []) (by simp)
  refine ⟨⟨y.s.tick, y.tid, y.S.uid, scope, rel, acq, ivs, after⟩, x, hx.split, by rw [hx.entry], by rw [hx.entry], hx.ensemble, ?_, ?_, rfl, rfl⟩
  · rw [hx.module]
    rfl
  · rw [hacts]
    exact List.mem_append_right _ (List.mem_singleton_self _)

/-- An arrival at system scope is a cache action that its split waits for (R275, R320). -/
theorem raw_actThen {body : Work → Eff} {r y : Work} {rel acq : Bool} {scope : Nat} {ivs : Option (List (Nat × Nat))} {after : CacheThen}
    {ps : List Pend} (he : exec i s = run n body s) (hg : gate n s = .go w) (hr : OnlyTlbs w.s r.s ∧ r = { w with s := r.s })
    (hy : y = { r with s := { r.s with tick := y.s.tick, agenda := y.s.agenda }, T := { r.T with pend := r.T.pend ++ ps } })
    (hb : body w = .raw (y.actThen n rel acq scope ivs after)) : ∃ t act x, exec i s = .next t ∧ act ∈ t.cacheActs ∧ act.release = rel
      ∧ act.after = after ∧ t.work w.tid w.ent = some x ∧ x.S.state = 2 ∧ x.S.wait = .cache act.id ∧ x.E = w.E ∧ t.mem = s.mem := by
  obtain ⟨-, rfl, -⟩ := gate_go hg
  obtain ⟨act, x, hx, hst, hwait, hE, hmem, hact, hrel, hafter⟩ := actThen_suspends y n rel acq scope ivs after
  have hkeeps : y.tid = r.tid ∧ y.ent = r.ent ∧ y.E = r.E ∧ y.s.mem = r.s.mem := by rw [hy]; exact ⟨rfl, rfl, rfl, rfl⟩
  have hwork : r.tid = w.tid ∧ r.ent = w.ent ∧ r.E = w.E := by rw [hr.2]; exact ⟨rfl, rfl, rfl⟩
  obtain ⟨htid, hent, hyE, hymem⟩ := hkeeps
  rw [htid, hent, hwork.1, hwork.2.1] at hx
  exact ⟨_, act, x, he.trans (run_raw hg hb), hact, hrel, hafter, hx, hst, hwait, hE.trans (hyE.trans hwork.2.2), hmem.trans (hymem.trans hr.1.mem)⟩

/-! ### The end of a wait -/

theorem allSplits_find?_of_only {T : Troupe} {uid : Nat} {k : Nat} {p : Split} (hp : T.splits.find? k = some p) (hu : p.uid = uid)
    (h : ∀ q ∈ T.allSplits, q.uid = uid → q = p) : T.allSplits.find? (fun p => p.uid = uid) = some p := by
  cases hf : T.allSplits.find? fun p => p.uid = uid with
  | none => exact absurd (List.find?_eq_none.1 hf p (mem_allSplits_of_entry (Tab.mem_of_find? hp))) (by simp [hu])
  | some q => rw [h q (List.mem_of_find?_eq_some hf) (by simpa using List.find?_some hf)]

/-- A wait that acquires puts its cache action under way, and another ends (R276). -/
theorem tbwaitWake_eq {tid uid d sc : Nat} {T : Troupe} {p : Split} {l : List (Nat × Nat)} (hT : s.troupes.find? tid = some T)
    (hp : T.allSplits.find? (fun p => p.uid = uid) = some p) (hw : p.wait = .phase d 16 sc l) :
    execTbwaitWake tid uid s = .next (if 3 ≤ sc then
      (s.modTroupe tid fun t => t.modSplit uid fun p => { p with wait := .cache s.tick }).bump.startAct
        { id := s.tick, tid := tid, uid := uid, scope := sc, release := false, acquire := true, regions := some l, after := .nothing }
      else s.resume tid uid) := by
  unfold execTbwaitWake
  rw [hT]
  dsimp only
  rw [hp]
  dsimp only
  rw [hw]
  change (if actsOn false true sc then _ else _) = _
  rw [actsOn_acquire]
  by_cases h : 3 ≤ sc
  · rw [if_pos h, if_pos (decide_eq_true h)]
  · rw [if_neg h, if_neg (by simpa using h)]

theorem tbwaitWake_keeps (tid uid : Nat) (s : State) : ∃ t, execTbwaitWake tid uid s = .next t ∧ t.mem = s.mem ∧ t.ensembles = s.ensembles := by
  unfold execTbwaitWake
  split
  · exact ⟨s, rfl, rfl, rfl⟩
  split
  · split
    · split
      · exact ⟨_, rfl, by rw [startAct_eq]; rfl, by rw [startAct_eq]; rfl⟩
      · exact ⟨_, rfl, rfl, rfl⟩
    · exact ⟨s, rfl, rfl, rfl⟩
  · exact ⟨s, rfl, rfl, rfl⟩

theorem OnlyTlbs.cacheActs {s t : State} (h : OnlyTlbs s t) : t.cacheActs = s.cacheActs := by
  rw [h.eq]
  rfl

theorem OnlyTlbs.now {s t : State} (h : OnlyTlbs s t) : t.now = s.now := by
  rw [h.eq]
  rfl

/-- The module after translations, with the cache actions that there were. -/
theorem caches_on_acts {s s1 t : State} (h : OnlyTlbs s s1) (ht : t.cacheActs = s.cacheActs) : s1.caches.on { s with cacheActs := t.cacheActs } = s1 := by
  rw [ht]
  exact h.eq.symm

end Machine

/-- Settles O23: each instruction's checks in order, then its update or its wait, by `Updated.finish`, `raw_actThen` and `suspend_waits`; and the fields
of a barrier after an update, by `barStep_fields`. -/
theorem barriersAndArrivals : Obligations.BarriersAndArrivals := by
  unfold Obligations.BarriersAndArrivals
  refine ⟨?instructions, ?update⟩
  case update =>
    intro v arrive add hv r arrivals sectors
    obtain ⟨h1, h2, h3, h4, h5, h6, h7, h8⟩ := barStep_fields v arrive add
    have h0 : field v 3 0 = v % 16 := by rw [field_eq_div]; simp
    refine ⟨h1, h2, fun ha hs => ?_, fun hn => ?_, h6, h8, ?_⟩
    · rw [if_pos (h2.2 ⟨ha, hs⟩)] at h3 h4 h5
      exact ⟨by rw [h3, h0], h4, h5⟩
    · rw [if_neg (mt h2.1 hn)] at h3 h4 h5
      exact ⟨by rw [h3, h0], h4, h5⟩
    · rw [Nat.testBit_eq_decide_div_mod_eq, h7, bitOf_eq]
      cases v.testBit 112 <;> cases h : decide (field v 23 4 < arrive) <;> simp_all
  case instructions =>
  intro a b c ok traps
  refine ⟨fun f => ?tbinit, fun f => ?tbarr, fun f => ?tbexp, fun f => ?tbwait, ?wake⟩
  case tbinit =>
    beta_reduce
    intro valid
    have hbad (w : Work) : (b (insX 0x9B f) w = 0 ∨ 0xFFFFF < b (insX 0x9B f) w) ↔ ¬valid w := by
      change _ ↔ ¬(b (insX 0x9B f) w ≠ 0 ∧ b (insX 0x9B f) w ≤ 0xFFFFF)
      omega
    refine ⟨fun s w h hm => barOp_traps rfl h.1 (opTbinit_eq h.2 hm) (hbad w), fun s w h hm hv hok hep => ?_⟩
    obtain ⟨hv1, hv2⟩ := hv
    have hbody := opTbinit_eq (n := insX 0x9B f) h.2 hm
    dsimp only at hbody
    have hmark : (if (insX 0x9B f).mod.testBit 0 then w.E.unmark (a (insX 0x9B f) w) else w.E) = w.E := by
      split
      · next he => exact unmark_same (hep.resolve_left (by simp [he]))
      · rfl
    rw [hmark, barOp_passes ((hbad w).not.2 (not_not.2 ⟨hv1, hv2⟩)) hok.1 hok.2] at hbody
    obtain ⟨t, x, ht, hx⟩ := completes_changed (i := .tbinit f) rfl h.1 hbody rfl
    exact ⟨_, t, x, ht, hx, rfl, bar_of_tbinit rfl hok.2 (Nat.lt_of_le_of_lt hv2 (by decide)) (BitVec.isLt _) (scope_num_lt _), rfl, mem_addBar _ _,
      fun d hd => stageRead_stageWrite_other (by rw [length_natLE]; exact hd)⟩
  case tbarr =>
    beta_reduce
    intro bytes valid
    have hbad (w : Work) : (b (insX 0x9C f) w = 0 ∨ 0xFFFFF < b (insX 0x9C f) w ∨ bytes w % 32 ≠ 0) ↔ ¬valid w := by
      change _ ↔ ¬(b (insX 0x9C f) w ≠ 0 ∧ b (insX 0x9C f) w ≤ 0xFFFFF ∧ bytes w % 32 = 0)
      omega
    refine ⟨fun s w h hm => barOp_traps rfl h.1 (opTbarr_eq h.2 hm) (hbad w), fun s w h hm hv hok => ?_⟩
    have hbody := (opTbarr_eq (n := insX 0x9C f) h.2 hm).trans (barOp_passes ((hbad w).not.2 (not_not.2 hv)) hok.1 hok.2)
    refine ⟨fun hr => run_hold h.1 (hbody.trans (if_pos hr)), fun hr hs => ?_, fun hr hs => ?_⟩
      <;> have hbody := hbody.trans (if_neg fun h => Bool.false_ne_true (h.symm.trans hr))
      <;> rw [actsOn_release] at hbody
    · have hbody := hbody.trans (if_neg fun h => hs (of_decide_eq_true h))
      obtain ⟨-, rfl, hT, -⟩ := gate_go h.1
      have hz := via_barApply w (a (insX 0x9C f) w) (b (insX 0x9C f) w) (bytes w / 32 : Nat)
      obtain ⟨x, hx, hpc, hnow, hpend, happlied⟩ := (hz.later 24 1 0#32 fun _ _ => BitVec.ofNat 32 (w.E.bar (a (insX 0x9C f) w) % 16)).finish
        (n := insX 0x9C f) hT hok.2
      refine ⟨_, x, _, run_done h.1 hbody, happlied, hx, hpc, hnow, hpend, ?_⟩
      rw [hz.outsOf, hz.act]
      rfl
    · have hbody := hbody.trans (if_pos (decide_eq_true hs))
      obtain ⟨t, act, x, ht, hact, hrel, -, hx, hst, hwait, -, hmem⟩ := raw_actThen (i := .tbarr f) rfl h.1 (physical_only w _) rfl hbody
      exact ⟨t, act.id, act, ht, hact, rfl, hrel, x, hx, hst, hwait, hmem⟩
  case tbexp =>
    beta_reduce
    intro valid
    have hbad (w : Work) : b (insX 0x9D f) w % 32 ≠ 0 ↔ ¬valid w := Iff.rfl
    refine ⟨fun s w h hm => barOp_traps rfl h.1 (opTbexp_eq h.2 hm) (hbad w), fun s w h hm hv hok => ?_⟩
    have hbody := (opTbexp_eq (n := insX 0x9D f) h.2 hm).trans (barOp_passes ((hbad w).not.2 (not_not.2 hv)) hok.1 hok.2)
    obtain ⟨-, rfl, hT, -⟩ := gate_go h.1
    obtain ⟨x, hx, hpc, hnow, hpend, happlied⟩ := (via_barApply w _ 0 _).finish (n := insX 0x9D f) hT hok.2
    exact ⟨_, x, run_done h.1 hbody, happlied, hx, hpc, hnow, by rw [hpend, List.append_nil]⟩
  case tbwait =>
    refine ⟨fun s w h hm => barOp_traps rfl h.1 (opTbwait_eq h.2 hm) (by simp), fun s w h hm hok => ?_⟩
    have hbody := (opTbwait_eq (n := insX 0x9E f) h.2 hm).trans (barOp_passes (by simp) hok.1 hok.2)
    obtain ⟨-, rfl, -⟩ := gate_go h.1
    let n := insX 0x9E f
    let r := w.regionsOf_ true (a n w)
    obtain ⟨htlb, hr⟩ : OnlyTlbs w.s r.1.s ∧ r.1 = { w with s := r.1.s } := physical_only w _
    let s1 := r.1.s
    rw [show (w.regionsOf_ true (a n w)).1 = { w with s := s1 } from hr] at hbody
    by_cases hph : w.E.bar (a n w) % 16 = b n w % 16
    · let E' : Ensemble := { w.E with bars := if w.E.bars.contains (a n w) then w.E.bars else w.E.bars ++ [a n w] }
      let u : Work := { w with s := s1, E := E' }
      obtain ⟨x, hx⟩ := suspend_waits (s := s1) (w := u) (x := u) (n := n) (why := .phase (a n w) (b n w % 16) (w.E.barScope (a n w)) r.2)
        (pends := []) rfl (by simp [u])
      have hacts : (u.suspend n (.phase (a n w) (b n w % 16) (w.E.barScope (a n w)) r.2)).cacheActs = w.s.cacheActs := by
        rw [hx.module]
        exact htlb.cacheActs
      refine ⟨s1.caches, _, x, run_raw h.1 (hbody.trans (if_pos hph)), fun _ => ⟨hacts, E', r.2, rfl, mem_addBar _ _, ?_⟩,
        fun hne => absurd hph hne, fun hne => absurd hph hne⟩
      rw [caches_on_acts htlb hacts]
      exact hx
    have hbody := hbody.trans (if_neg hph)
    rw [actsOn_acquire] at hbody
    by_cases hsc : 3 ≤ w.E.barScope (a n w)
    · have hbody := hbody.trans (if_pos (decide_eq_true hsc))
      let u : Work := { w with s := s1, S := { w.S with earliest := w.s.now + 24 } }
      let t := u.actThen n false true (w.E.barScope (a n w)) (some r.2) .nothing
      obtain ⟨hacts, ⟨x, hx⟩, -⟩ := actThen_waits (w := u) (x := u) (n := n) (rel := false) (acq := true) (scope := w.E.barScope (a n w))
        (ivs := some r.2) (after := .nothing) (pends := []) (by simp [u])
      have hs0 (t : State) : t.caches.on { s1 with cacheActs := t.cacheActs } = t.caches.on { w.s with cacheActs := t.cacheActs } := by
        rw [show s1 = _ from htlb.eq]
        rfl
      dsimp only [u] at hx
      rw [hs0] at hx
      refine ⟨State.caches t, t, x, run_raw h.1 hbody, fun heq => absurd heq hph, fun _ hlt => absurd hsc (not_le.2 hlt), fun _ _ => ⟨s1.tick, r.2, ?_, ?_⟩⟩
      · exact hacts.trans (congrArg (· ++ _) htlb.cacheActs)
      · exact ⟨hx.split, fun q l => (hx.regs q l).trans (Work.now_congr rfl rfl rfl rfl q l), hx.entry, hx.troupe, hx.ensemble, hx.others, hx.module⟩
    · have hbody := hbody.trans (if_neg fun h => hsc (of_decide_eq_true h))
      let u : Work := { w with s := s1 }
      obtain ⟨x, hx, hdue⟩ := finishAfter_completes (s := s1) (n := n) (w := u) (x := u) (outs := []) 24 rfl (.refl u) (fun _ _ _ => by simp)
      have hacts : (u.finishAfter n 24).cacheActs = w.s.cacheActs := by
        rw [hx.module]
        exact htlb.cacheActs
      refine ⟨s1.caches, _, x, run_raw h.1 hbody, fun heq => absurd heq hph, fun _ _ => ⟨hacts, ?_, ?_⟩, fun _ hge => absurd hge hsc⟩
      · rw [caches_on_acts htlb hacts]
        exact hx
      · exact (congrArg (· + 24) htlb.now).symm.trans_le hdue
  case wake =>
    intro tid uid s
    obtain ⟨t, ht, hmem, hens⟩ := tbwaitWake_keeps tid uid s
    refine ⟨t, ht, hmem, hens, fun T k p d sc l hT hp hu honly hw => ?_⟩
    have heq := tbwaitWake_eq hT (allSplits_find?_of_only hp hu honly) hw
    obtain rfl := Host.Outcome.next.inj (ht.symm.trans heq)
    refine ⟨fun hsc => ?_, fun hsc => ?_⟩
    · rw [if_neg (not_le.2 hsc)]
      exact resume_past hT fun k q hq _ _ => ⟨q, hq, rfl, rfl, rfl, rfl, rfl, rfl⟩
    · rw [if_pos hsc, startAct_eq]
      exact ⟨_, List.mem_append_right _ (List.mem_singleton_self _), rfl, rfl, rfl, rfl, rfl⟩

end Sys2Proof
end

section
/-! Windows and batches (O24): binding a window in two parts, one field of its record, its word, and the batches (R242 to R246, R268 to R273). -/

namespace Sys2Proof

open Machine

namespace Machine

variable {n : Ins} {s : State} {w : Work} {k : Nat}

/-! ### One field of a record -/

/-- The bits of a number in which the field at `lo` of `k` bits is replaced. -/
theorem testBit_replaced (x v lo k j : Nat) : (x - x / 2 ^ lo % 2 ^ k * 2 ^ lo + v % 2 ^ k * 2 ^ lo).testBit j =
    if lo ≤ j ∧ j < lo + k then v.testBit (j - lo) else x.testBit j := by
  let low := x % 2 ^ lo
  let f := x / 2 ^ lo % 2 ^ k
  let high := x / 2 ^ lo / 2 ^ k
  have hlow : low < 2 ^ lo := Nat.mod_lt _ (Nat.two_pow_pos _)
  have hx : x = 2 ^ lo * (2 ^ k * high + f) + low := by
    rw [show 2 ^ k * high + f = x / 2 ^ lo from Nat.div_add_mod _ _]
    exact (Nat.div_add_mod _ _).symm
  have hy : x - f * 2 ^ lo + v % 2 ^ k * 2 ^ lo = 2 ^ lo * (2 ^ k * high + v % 2 ^ k) + low := by
    have hf : x - f * 2 ^ lo = 2 ^ lo * (2 ^ k * high) + low := by
      refine Nat.sub_eq_of_eq_add (hx.trans ?_)
      ring
    rw [hf]
    ring
  change (x - f * 2 ^ lo + v % 2 ^ k * 2 ^ lo).testBit j = _
  rw [hy, Nat.testBit_two_pow_mul_add _ hlow, Nat.testBit_two_pow_mul_add _ (Nat.mod_lt _ (Nat.two_pow_pos k))]
  conv_rhs => rw [hx, Nat.testBit_two_pow_mul_add _ hlow, Nat.testBit_two_pow_mul_add _ (Nat.mod_lt _ (Nat.two_pow_pos k))]
  by_cases h1 : j < lo
  · rw [if_pos h1, if_neg (by omega), if_pos h1]
  · by_cases h2 : j < lo + k
    · rw [if_neg h1, if_pos (by omega), if_pos (by omega), Nat.testBit_mod_two_pow, decide_eq_true (by omega), Bool.true_and]
    · rw [if_neg h1, if_neg (by omega), if_neg (by omega), if_neg h1, if_neg (by omega)]

section
variable {r : BitVec 512} {hi lo v : Nat}

/-- Replacing a field of a record changes its bits and no others (R242). -/
theorem getLsbD_recPut (h1 : lo ≤ hi) (h2 : hi < 512) (j : Nat) :
    (recPut r hi lo v).getLsbD j = if lo ≤ j ∧ j ≤ hi then v.testBit (j - lo) else r.getLsbD j := by
  have hbits : (recPut r hi lo v).getLsbD j = (decide (j < 512) && if lo ≤ j ∧ j ≤ hi then v.testBit (j - lo) else r.toNat.testBit j) := by
    unfold recPut rf bvField
    rw [BitVec.getLsbD_ofNat, field_eq_div, testBit_replaced]
    exact congrArg _ (if_congr (by omega) rfl rfl)
  rw [hbits]
  by_cases hj : j < 512
  · rw [decide_eq_true hj, Bool.true_and]
    rfl
  · rw [decide_eq_false hj, Bool.false_and, if_neg (by omega), BitVec.getLsbD_of_ge _ _ (by omega)]

theorem rf_recPut (h1 : lo ≤ hi) (h2 : hi < 512) : rf (recPut r hi lo v) hi lo = v % 2 ^ (hi + 1 - lo) := by
  refine Nat.eq_of_testBit_eq fun i => ?_
  unfold rf bvField
  rw [testBit_field, Nat.testBit_mod_two_pow]
  by_cases hi : i < hi + 1 - lo
  · rw [show (recPut r _ lo v).toNat.testBit (lo + i) = _ from getLsbD_recPut h1 h2 (lo + i), if_pos (by omega), Nat.add_sub_cancel_left]
  · simp [hi]

end

/-- What a wset that is accepted leaves in the field it names (R269). -/
theorem wsetRecord_field {e : Ensemble} {sel v : Nat} {x r : BitVec 512} (hsel : sel < 8) (h : wsetRecord e sel v x = .ok r) :
    (sel < 5 → rf r (21 * sel + 324) (21 * sel + 304) = v % 2 ^ 21) ∧ (sel = 5 → rf r 59 0 = v) ∧ (sel = 6 → rf r 476 469 = v % 256)
      ∧ (sel = 7 → rf r 442 428 = v / 16 % 2 ^ 15) := by
  have hlo : 21 * sel + 304 ≤ 21 * sel + 324 := by omega
  have hwidth : 21 * sel + 324 + 1 - (21 * sel + 304) = 21 := by omega
  unfold wsetRecord at h
  split_ifs at h with h5 _ h5' hv h6 _ _ <;> obtain rfl := Except.ok.inj h
  · have hhi : 21 * sel + 324 < 512 := by omega
    exact ⟨fun _ => (rf_recPut hlo hhi).trans (by rw [hwidth]), fun h => absurd h5 (by omega), fun h => absurd h5 (by omega), fun h => absurd h5 (by omega)⟩
  · have hfit : v < 2 ^ 60 := Nat.lt_of_div_eq_zero (Nat.two_pow_pos 60) (not_not.1 fun h => hv (.inl h))
    exact ⟨fun h => absurd h h5, fun _ => (rf_recPut (by decide) (by decide)).trans (Nat.mod_eq_of_lt hfit),
      fun h => absurd h5' (by omega), fun h => absurd h5' (by omega)⟩
  · exact ⟨fun h => absurd h h5, fun h => absurd h h5', fun _ => rf_recPut (by decide) (by decide), fun h => absurd h6 (by omega)⟩
  · exact ⟨fun h => absurd h h5, fun h => absurd h h5', fun h => absurd h h6, fun _ => rf_recPut (by decide) (by decide)⟩

/-! ### Windows of an ensemble -/

theorem win_modWin_other (e : Ensemble) {j : Nat} (f : Window → Window) (h : j ≠ k) : (e.modWin k f).win j = e.win j :=
  congrArg (·.getD Window.unbound) (Tab.find?_put_other _ _ h)

theorem window_busy (h : (w.E.win k).state = 2 ∨ (w.E.win k).state = 5) : (w.E.win k).busy = true := by
  simpa [Window.busy] using h

/-- The fields of a window's word (R272). -/
theorem word_fields (x : Window) : bvField x.word 2 0 = x.state.toNat ∧ x.word.getLsbD 3 = x.err ∧ x.word.getLsbD 4 = x.held
    ∧ bvField x.word 15 5 = 0 ∧ bvField x.word 31 16 = x.landed.toNat + ((List.range 64).filter fun k => x.tail.getLsbD k).length := by
  have hc : ((List.range 64).filter fun k => x.tail.getLsbD k).length ≤ 64 := (List.length_filter_le _ _).trans (by simp)
  have hs := x.state.isLt
  have hl := x.landed.isLt
  have herr := Bool.toNat_lt x.err
  have hheld := Bool.toNat_lt x.held
  have hbit (b : Bool) : b = decide (b.toNat = 1) := by cases b <;> rfl
  have hword : x.word.toNat = x.state.toNat + 8 * x.err.toNat + 16 * x.held.toNat
      + 65536 * (x.landed.toNat + ((List.range 64).filter fun k => x.tail.getLsbD k).length) := by
    unfold Window.word
    rw [BitVec.toNat_ofNat, Nat.min_eq_right (by omega), Nat.mod_eq_of_lt (by omega)]
  generalize ((List.range 64).filter fun k => x.tail.getLsbD k).length = c at *
  simp only [bvField_eq, BitVec.getLsbD, hword, Nat.testBit_eq_decide_div_mod_eq]
  refine ⟨by omega, (decide_eq_decide.2 (by omega)).trans (hbit x.err).symm, (decide_eq_decide.2 (by omega)).trans (hbit x.held).symm, by omega, by omega⟩

/-! ### wbind -/

/-- A record is checked, and its binding is to take effect 24 cycles later (R268). -/
def Work.bindLater (w : Work) (k : Nat) (r : BitVec 512) : Eff :=
  match bindCheck w.E k (w.fmt (recFmt r)).width r with
  | some t => .trap t
  | none => .raw ({ w with S := { w.S with wait := .bind (w.s.now + 24) r, earliest := w.s.now + 24 } } : Work).commit

/-- A wbind that its split does not wait in, with its record named (R268). -/
theorem opWbind_checks (ha : w.act ≠ 0) (hm : w.memHeld = false) (hw : ∀ d r, w.S.wait ≠ .bind d r) :
    let k := n.mod % 32
    let a := w.stageAddr n n.sa (lowLane w.act)
    opWbind n w = if a % 64 ≠ 0 then .trap { cause := 0x07, info := lowLane w.act, addr := a }
      else if w.E.size < a + 64 then .trap (stageOut a)
      else if (w.E.win k).busy then .hold
      else w.bindLater k (BitVec.ofNat 512 (leNat (w.E.stageRead a 64))) := by
  refine (ifActive_of ha).trans ?_
  dsimp only
  split
  · next h => exact absurd h (hw _ _)
  · rw [hm]
    rfl

/-- A wbind whose checks were passed binds its window (R268). -/
theorem opWbind_binds {d : Nat} {r : BitVec 512} (ha : w.act ≠ 0) (hw : w.S.wait = .bind d r) (hidle : (w.E.win (n.mod % 32)).busy = false) :
    opWbind n w = .done { w with E := w.E.bindWin (n.mod % 32) (w.fmt (recFmt r)).width r, S := { w.S with wait := .none } } := by
  refine (ifActive_of ha).trans ?_
  simp only [hw, hidle, Bool.false_eq_true, if_false]

theorem win_bindWin (e : Ensemble) (k width : Nat) (r : BitVec 512) : (e.bindWin k width r).win k =
    { e.win k with record := r, held := false, state := boundState r, bytes := recElems r * width / 8 } := win_modWin _ _ _

/-! ### wset and wstat -/

/-- The record that a wset leaves in its window, or its trap (R269). -/
def Work.setWin (w : Work) (k : Nat) (result : Except TrapInfo (BitVec 512)) : Eff :=
  match result with
  | .error t => .trap t
  | .ok r => if (w.E.win k).busy then .hold else .done { w with E := w.E.modWin k fun x => { x with record := r, state := boundState r } }

/-- wset with its window, its field and its value named (R269). -/
theorem opWset_eq (ha : w.act ≠ 0) : let k := n.mod % 32
    let sel := n.mod / 32
    let v := if sel = 5 then w.src64 true n n.sa (lowLane w.act) else (w.src true n n.sa 0 (lowLane w.act)).toNat
    opWset n w = if (w.E.win k).state = 0 then .trap { cause := 0x02 } else w.setWin k (wsetRecord w.E sel v (w.E.win k).record) := ifActive_of ha

/-- An ensemble whose window has its error cleared, if it is to be (R272). -/
def Ensemble.clearErr (e : Ensemble) (k : Nat) (clear : Bool) : Ensemble := if clear then e.modWin k fun x => { x with err := false } else e

theorem clearErr_keeps (e : Ensemble) (k : Nat) (clear : Bool) : (e.clearErr k clear).win k = { e.win k with err := (e.win k).err && !clear }
    ∧ (∀ j, j ≠ k → (e.clearErr k clear).win j = e.win j) ∧ e.clearErr k clear = { e with wins := (e.clearErr k clear).wins } := by
  cases clear with
  | true =>
    rw [show e.clearErr k true = e.modWin k fun x => { x with err := false } from if_pos rfl]
    exact ⟨(win_modWin _ _ _).trans (by simp), fun j hj => win_modWin_other _ _ hj, rfl⟩
  | false => exact ⟨by simp [Ensemble.clearErr], fun _ _ => rfl, rfl⟩

/-- wstat with its window named (R272). -/
theorem opWstat_eq (ha : w.act ≠ 0) : let k := n.mod % 32
    opWstat n w = .done { w.later 8 0#32 n 1 (fun _ _ => (w.E.win k).word) with E := w.E.clearErr k (n.mod.testBit 5) } := by
  refine (ifActive_of ha).trans ?_
  rw [bitOf_eq]
  unfold Ensemble.clearErr
  dsimp only
  split <;> rfl

end Machine

/-- Settles O24: the bits of a record's field by `getLsbD_recPut`, and each instruction's checks and effect in their order. -/
theorem windows : Obligations.Windows := by
  unfold Obligations.Windows
  refine ⟨fun r hi lo v h1 h2 => ⟨rf_recPut h1 h2, fun j hj => (getLsbD_recPut h1 h2 j).trans (if_neg (by omega))⟩,
    fun f s w h => ?wbind, fun f s w h => ?wset, fun f s w h => ?wrel, fun f s w h => ?wstat, fun f s w h => ?bcommit, fun f s w h => ?bwait⟩
    <;> obtain rfl := (gate_go h.1).2.1
  case wbind =>
    intro k a r moving
    have hidle (h : ¬moving) : (w.E.win k).busy = false := window_idle (fun h2 => h (.inl h2)) fun h5 => h (.inr h5)
    refine ⟨fun d r hw hn => ?_, fun hw hm => ?_⟩
    · obtain ⟨t, x, ht, hx⟩ := completes_changed (i := .wbind f) rfl h.1 (opWbind_binds h.2 hw (hidle hn)) rfl
      exact ⟨_, t, x, ht, hx, by rw [win_bindWin], by rw [win_bindWin]; rfl, by rw [win_bindWin], fun j hj => win_modWin_other _ _ hj, rfl⟩
    · have hbody := opWbind_checks (n := insX 0x94 f) h.2 hm hw
      refine ⟨fun ha => run_trap h.1 (hbody.trans (if_pos ha)), fun ha hs => ?_, fun ha hs hmv => ?_, fun ha hs hmv => ?_⟩
        <;> have hbody := hbody.trans (if_neg (not_not.2 ha))
      · exact run_trap h.1 (hbody.trans (if_pos hs))
      · exact run_hold h.1 (hbody.trans ((if_neg (not_lt.2 hs)).trans (if_pos (window_busy hmv))))
      · have hbody : _ = w.bindLater k r := hbody.trans ((if_neg (not_lt.2 hs)).trans (if_neg (by rw [hidle hmv]; exact Bool.false_ne_true)))
        unfold Work.bindLater at hbody
        refine ⟨fun c hc => run_trap h.1 (hbody.trans (by rw [hc])), fun hc => ?_⟩
        let b : Work := { w with S := { w.S with wait := .bind (w.s.now + 24) r, earliest := w.s.now + 24 } }
        exact ⟨b.commit, _, run_raw h.1 (hbody.trans (by rw [hc])), Work.work_commit b, rfl, rfl, fun q l => Work.now_congr rfl rfl rfl rfl q l, rfl⟩
  case wset =>
    intro k sel v x
    have hbody := opWset_eq (n := insX 0x95 f) h.2
    refine ⟨fun h0 => run_trap h.1 (hbody.trans (if_pos h0)), fun h0 => ?_⟩
    have hbody : _ = w.setWin k (wsetRecord w.E sel v x.record) := hbody.trans (if_neg h0)
    refine ⟨fun c hc => run_trap h.1 (hbody.trans (by rw [hc]; rfl)), fun r hr => ?_⟩
    have hbody : _ = if (w.E.win k).busy then _ else _ := hbody.trans (by rw [hr]; rfl)
    obtain ⟨h4, h5, h6, h7⟩ := wsetRecord_field (Nat.div_lt_of_lt_mul f.mod.isLt) hr
    refine ⟨fun hb => run_hold h.1 (hbody.trans (if_pos (window_busy hb))), h4, h5, h6, h7, fun h2 h5 => ?_⟩
    obtain ⟨t, y, ht, hy⟩ := completes_changed (i := .wset f) rfl h.1 (hbody.trans (if_neg (by rw [window_idle h2 h5]; exact Bool.false_ne_true))) rfl
    exact ⟨_, t, y, ht, hy, win_modWin _ _ _, fun j hj => win_modWin_other _ _ hj, rfl⟩
  case wrel =>
    refine ⟨fun hb => run_hold h.1 ((ifActive_of h.2).trans (if_pos (window_busy hb))), fun h2 h5 => ?_⟩
    obtain ⟨t, x, ht, hx⟩ := completes_changed (i := .wrel f) rfl h.1
      ((ifActive_of h.2).trans (if_neg (by rw [window_idle h2 h5]; exact Bool.false_ne_true))) rfl
    exact ⟨_, t, x, ht, hx, win_modWin _ _ _, fun j hj => win_modWin_other _ _ hj, rfl⟩
  case wstat =>
    intro x
    let n := insX 0x98 f
    obtain ⟨t, y, ht, hy⟩ := completes_pending (i := .wstat f) (b := { w with E := w.E.clearErr (n.mod % 32) (n.mod.testBit 5) })
      (p := w.pendOf false 0 0#32 (w.outsOf n 1 w.act fun _ _ => x.word)) rfl h.1 (opWstat_eq h.2) rfl rfl
    obtain ⟨h1, h2, h3, h4, h5⟩ := word_fields x
    exact ⟨x.word, _, t, y, ht, hy, h1, h2, h3, h4, h5, clearErr_keeps _ _ _⟩
  case bcommit => exact bcommit_commits h
  case bwait =>
    intro v
    refine ⟨bwait_passes h, fun hd => ?_⟩
    obtain ⟨x, hx⟩ := suspend_waits (s := w.s) (w := w) (x := w) (n := insX 0x9A f) (why := .batch v.toNat) (pends := []) rfl (by simp)
    exact ⟨_, x, run_raw h.1 ((ifActive_of h.2).trans (if_neg (by rw [hd]; exact Bool.false_ne_true))), hx⟩

end Sys2Proof
end

section
/-! Stage accesses (O22): the checks of sld and sst, what the lanes of an sst leave in stage memory, and the barriers that it reaches (R239, R240,
R251, R255, R265). -/

namespace Sys2Proof

open Machine

namespace Machine

variable {i : Instr} {n : Ins} {s : State} {w : Work} {size : Nat} {body : Work → (Nat → Nat) → Eff}

/-! ### The checks -/

/-- A stage access whose lanes are aligned and inside the allotment: what stands in its way, or its effect (R265). -/
def Work.stageInWay (w : Work) (n : Ins) (size : Nat) (body : Work → (Nat → Nat) → Eff) : Eff :=
  let addr := w.stageAddr n n.sa
  let lock (l : Nat) : Option Nat := (w.s.core w.E.core).stageLock w.T.ens (addr l) (addr l + size - 1) false
  match (lanesOf w.act).find? fun l => (lock l).isSome with
  | some l => .trapAfter w { cause := 0x0A, info := (lock l).getD 0, addr := addr l }
  | none =>
    match (lanesOf w.act).find? fun l => (w.E.winAt [5] (addr l) (addr l + size - 1)).isSome with
    | some l => .trapAfter w { cause := 0x0A, info := Config.unstated w.s.tick % 64, addr := addr l }
    | none =>
      match w.fillsHit (lanesOf w.act) addr size with
      | k :: _ => .trapAfter w { cause := 0x0B, info := k, addr := addr (((lanesOf w.act).find? fun l => w.fillsHit [l] addr size |>.contains k).getD 0) }
      | [] => body w addr

section
variable (hm : w.memHeld = false)
include hm

theorem stage_misaligned {l : Nat} (h : lowestWith w (fun l => w.stageAddr n n.sa l % size ≠ 0) l) :
    w.stage n size body = .trap { cause := 0x07, info := l, addr := w.stageAddr n n.sa l } := by
  unfold Work.stage
  simp only [hm, Bool.false_eq_true, if_false, lowestWith_find? h]

variable (ha : ∀ l, w.act.getLsbD l = true → w.stageAddr n n.sa l % size = 0)
include ha

theorem stage_outside {l : Nat} (h : lowestWith w (fun l => w.E.size < w.stageAddr n n.sa l + size) l) :
    w.stage n size body = .trap (stageOut (w.stageAddr n n.sa l)) := by
  unfold Work.stage
  simp only [hm, Bool.false_eq_true, if_false, lanes_find?_none fun l hl => not_not.2 (ha l hl), lowestWith_find? h]

/-- A stage access in whose way no window is absent starts no copy. -/
theorem stage_enters (hin : ∀ l, w.act.getLsbD l = true → w.stageAddr n n.sa l + size ≤ w.E.size)
    (hfill : ∀ k ∈ w.fillsHit (lanesOf w.act) (w.stageAddr n n.sa) size, (w.E.win k).state = 2) : w.stage n size body = w.stageInWay n size body := by
  have habsent : (w.fillsHit (lanesOf w.act) (w.stageAddr n n.sa) size).filter
      (fun k => (w.E.win k).state = 1 && w.E.leads (w.E.win k).record) = [] :=
    List.filter_eq_nil_iff.2 fun k hk => by rw [hfill k hk]; simp
  unfold Work.stage
  simp only [hm, Bool.false_eq_true, if_false, lanes_find?_none fun l hl => not_not.2 (ha l hl), lanes_find?_none fun l hl => not_lt.2 (hin l hl),
    habsent, List.find?_nil, Work.startFills]
  rfl

end

/-- The search for a lane that something is in the way of. -/
theorem lanes_find?_isSome_none {f : Nat → Option Nat} (h : ∀ l, w.act.getLsbD l = true → f l = none) :
    (lanesOf w.act).find? (fun l => (f l).isSome) = none :=
  List.find?_eq_none.2 fun l hl => by simp [h l (mem_lanesOf.1 hl)]

theorem lowestWith_find?_isSome {f : Nat → Option Nat} {l : Nat} (h : lowestWith w (fun l => (f l).isSome) l) :
    (lanesOf w.act).find? (fun l => (f l).isSome) = some l := by
  simpa using lowestWith_find? h

section
variable {l k : Nat}

theorem stageInWay_locked
    (h : lowestWith w (fun l => ((w.s.core w.E.core).stageLock w.T.ens (w.stageAddr n n.sa l) (w.stageAddr n n.sa l + size - 1) false).isSome) l)
    (hk : (w.s.core w.E.core).stageLock w.T.ens (w.stageAddr n n.sa l) (w.stageAddr n n.sa l + size - 1) false = some k) :
    w.stageInWay n size body = .trapAfter w { cause := 0x0A, info := k, addr := w.stageAddr n n.sa l } := by
  simp only [Work.stageInWay, lowestWith_find?_isSome h, hk, Option.getD_some]

variable (hlock : ∀ l, w.act.getLsbD l = true →
  (w.s.core w.E.core).stageLock w.T.ens (w.stageAddr n n.sa l) (w.stageAddr n n.sa l + size - 1) false = none)
include hlock

theorem stageInWay_drained (h : lowestWith w (fun l => (w.E.winAt [5] (w.stageAddr n n.sa l) (w.stageAddr n n.sa l + size - 1)).isSome) l) :
    w.stageInWay n size body = .trapAfter w { cause := 0x0A, info := Config.unstated w.s.tick % 64, addr := w.stageAddr n n.sa l } := by
  simp only [Work.stageInWay, lanes_find?_isSome_none hlock, lowestWith_find?_isSome h]

variable (hdrain : ∀ l, w.act.getLsbD l = true → w.E.winAt [5] (w.stageAddr n n.sa l) (w.stageAddr n n.sa l + size - 1) = none)
include hdrain

theorem stageInWay_filling {ks : List Nat} (hk : w.fillsHit (lanesOf w.act) (w.stageAddr n n.sa) size = k :: ks)
    (h : lowestWith w (fun l => k ∈ w.fillsHit [l] (w.stageAddr n n.sa) size) l) :
    w.stageInWay n size body = .trapAfter w { cause := 0x0B, info := k, addr := w.stageAddr n n.sa l } := by
  have hfind := lowestWith_find? h
  simp only [← List.contains_iff_mem, Bool.decide_eq_true] at hfind
  simp only [Work.stageInWay, lanes_find?_isSome_none hlock, lanes_find?_isSome_none hdrain, hk, hfind, Option.getD_some]

theorem stageInWay_free (h : w.fillsHit (lanesOf w.act) (w.stageAddr n n.sa) size = []) : w.stageInWay n size body = body w (w.stageAddr n n.sa) := by
  simp only [Work.stageInWay, lanes_find?_isSome_none hlock, lanes_find?_isSome_none hdrain, h]

end

/-- A stage access that nothing stops has its effect (R265). -/
theorem stage_staged (h : Staged w n size) : w.stage n size body = body w (w.stageAddr n n.sa) :=
  (stage_enters h.free h.aligned h.inside (by simp [h.present])).trans (stageInWay_free h.unlocked h.undrained h.present)

/-! ### The bytes of the lanes -/

/-- The bytes of lanes written in order. -/
def Ensemble.storeLanes (e : Ensemble) (addr : Nat → Nat) (data : Nat → List Byte) (lanes : List Nat) : Ensemble :=
  lanes.foldl (fun e l => e.stageWrite (addr l) (data l)) e

section
variable {addr : Nat → Nat} {data : Nat → List Byte} {lanes : List Nat}

theorem storeLanes_only (e : Ensemble) : e.storeLanes addr data lanes = { e with stage := (e.storeLanes addr data lanes).stage } := by
  unfold Ensemble.storeLanes
  induction lanes generalizing e with
  | nil => rfl
  | cons l lanes ih => exact ih _

theorem storeLanes_size (e : Ensemble) : (e.storeLanes addr data lanes).size = e.size := by rw [storeLanes_only]

theorem stageRead_storeLanes_other {e : Ensemble} {a k : Nat} (h : ∀ l ∈ lanes, a + k ≤ addr l ∨ addr l + (data l).length ≤ a) :
    (e.storeLanes addr data lanes).stageRead a k = e.stageRead a k := by
  induction lanes generalizing e with
  | nil => rfl
  | cons l lanes ih =>
    exact (ih (e := e.stageWrite (addr l) (data l)) fun j hj => h j (List.mem_cons_of_mem _ hj)).trans
      (stageRead_stageWrite_other (h l List.mem_cons_self))

/-- Two addresses at a multiple of a size differ by that size at least. -/
theorem aligned_apart {a b size : Nat} (ha : a % size = 0) (hb : b % size = 0) (h : a ≠ b) : a + size ≤ b ∨ b + size ≤ a := by
  have step {x y : Nat} (hx : x % size = 0) (hy : y % size = 0) (h : x < y) : x + size ≤ y := by
    have := Nat.le_of_dvd (Nat.sub_pos_of_lt h) (Nat.dvd_sub (Nat.dvd_of_mod_eq_zero hy) (Nat.dvd_of_mod_eq_zero hx))
    omega
  exact (Nat.lt_or_gt_of_ne h).imp (step ha hb) (step hb ha)

/-- Of the lanes that write at one place the last one's bytes stand (R240). -/
theorem stageRead_storeLanes_last {e : Ensemble} {l : Nat} (hlen : ∀ j, (data j).length = size) (hal : ∀ j ∈ lanes, addr j % size = 0)
    (hin : addr l + size ≤ e.size) (hord : lanes.Pairwise (· < ·)) (hl : l ∈ lanes) (hlast : ∀ j ∈ lanes, l < j → addr j ≠ addr l) :
    (e.storeLanes addr data lanes).stageRead (addr l) size = data l := by
  induction lanes generalizing e with
  | nil => cases hl
  | cons j lanes ih =>
    obtain ⟨hj, hord⟩ := List.pairwise_cons.1 hord
    rcases List.mem_cons.1 hl with rfl | hl'
    · have hapart (j : Nat) (h : j ∈ lanes) : addr l + size ≤ addr j ∨ addr j + (data j).length ≤ addr l := by
        rw [hlen]
        exact (aligned_apart (hal l List.mem_cons_self) (hal j (List.mem_cons_of_mem _ h))
          (hlast j (List.mem_cons_of_mem _ h) (hj j h)).symm)
      have hwritten := stageRead_stageWrite_same (e := e) (a := addr l) (bs := data l) (by rw [hlen]; exact hin)
      rw [hlen] at hwritten
      exact (stageRead_storeLanes_other hapart).trans hwritten
    · exact ih (e := e.stageWrite (addr j) (data j)) (fun k hk => hal k (List.mem_cons_of_mem _ hk)) hin hord hl'
        fun k hk => hlast k (List.mem_cons_of_mem _ hk)

end

theorem lanesOf_sorted (m : Mask) : (lanesOf m).Pairwise (· < ·) := (List.pairwise_lt_range).filter _

/-- The barriers that lanes' bytes do not reach. -/
theorem barsHit_nil {e : Ensemble} {lanes : List Nat} {addr : Nat → Nat}
    (h : ∀ b ∈ e.bars, ∀ l ∈ lanes, ¬(b ≤ addr l + size - 1 ∧ addr l ≤ b + 15)) : e.barsHit lanes addr size = [] := by
  refine List.filter_eq_nil_iff.2 fun b hb hany => ?_
  obtain ⟨l, hl, hmeets⟩ := List.any_eq_true.1 hany
  exact h b hb l hl (by simpa [meets] using hmeets)

/-! ### The ends of sld and sst -/

/-- A split that has been put back into the tables and read from them completes as it would have before. -/
theorem completes_of_commit {u : Work} {outs : List Write} {flags : Word} {ps : List Pend} {d : Dest} {t : State} {x : Work}
    (h : Completes u.commit { u with s := u.commit, T := { u.T with splits := u.T.splits.put u.ent u.S } } outs flags ps d t x) :
    Completes u.s u outs flags ps d t x := by
  obtain ⟨ht, he, hs⟩ := h.others
  refine ⟨h.split, fun r l hl => (h.regs r l hl).trans (congrArg _ (Work.now_congr rfl rfl rfl rfl r l)), h.pc, h.state, h.entry, h.frames, h.troupe,
    h.ensemble, ⟨fun k hk => (ht k hk).trans (Tab.find?_put_other _ _ hk), fun k hk => (he k hk).trans (Tab.find?_put_other _ _ hk),
      fun k hk => (hs k hk).trans (Tab.find?_put_other _ _ hk)⟩, h.module⟩

theorem via_id (u : Work) : u.via id = { u with s := u.commit, T := { u.T with splits := u.T.splits.put u.ent u.S } } := by
  unfold Work.via Work.reload
  rw [id, Work.work_commit]

/-- The bytes of an sst in stage memory (R240, R265). -/
def Work.sstStored (w : Work) (n : Ins) : Ensemble :=
  w.E.storeLanes (w.stageAddr n n.sa) (fun l => natLE (sizeOf n.mod) (w.dataOf n n.sb (sizeOf n.mod) l)) (lanesOf w.act)

/-- The end of an sst whose bytes stand in stage memory and reach some barriers (R255). -/
def Work.sstEnd (w : Work) (n : Ins) (hit : List Nat) : Eff :=
  let e := w.sstStored n
  let done := hit.filter e.completes
  if done.any fun b => !w.mayRelease (e.barScope b) then .hold
  else if done.any fun b => actsOn true false (e.barScope b) then
    let x := ({ w with E := e } : Work).physical (((done.filter fun b => actsOn true false (e.barScope b)).flatMap (e.regions true)).flatMap
      fun r => pageParts r.1 r.2)
    .raw (x.1.actThen n true false 5 (some x.2) (.phases hit))
  else .done (({ w with E := e } : Work).via fun s => s.checkBars w.T.ens hit)

/-- An sld that nothing stops leaves its lanes' bytes to the scoreboard (R265). -/
theorem opSld_eq (ha : w.act ≠ 0) (h : Staged w n (sizeOf n.mod)) : opSld n w = .done (w.later 24 0#32 n (wordsOf n.mod) fun k l =>
    loadWord n.mod k (leNat (w.E.stageRead (w.stageAddr n n.sa l) (sizeOf n.mod)))) :=
  (ifActive_of ha).trans (stage_staged h)

theorem opSst_eq (ha : w.act ≠ 0) (h : Staged w n (sizeOf n.mod)) :
    opSst n w = w.sstEnd n ((w.sstStored n).barsHit (lanesOf w.act) (w.stageAddr n n.sa) (sizeOf n.mod)) :=
  (ifActive_of ha).trans (stage_staged h)

/-- An sst none of whose bytes is a barrier's completes with its bytes in stage memory. -/
theorem sst_completes {f : X} (hg : gate (insX 0x91 f) s = .go w) (hb : opSst (insX 0x91 f) w = w.sstEnd (insX 0x91 f) []) :
    ∃ t x, exec (.sst f) s = .next t
      ∧ Completes s { w with E := w.sstStored (insX 0x91 f) } [] 0#32 [] (nextWord (insX 0x91 f) w) t x := by
  let u : Work := { w with E := w.sstStored (insX 0x91 f) }
  obtain ⟨t, x, ht, hx⟩ := completes_of_done (i := .sst f) (outs := []) rfl hg (hb.trans (congrArg Eff.done (via_id u))) (Work.Does.refl _)
    fun r j _ => by simp
  obtain rfl := (gate_go hg).2.1
  exact ⟨t, x, ht, completes_of_commit hx⟩

section
variable {b : Nat}

/-- An sst that reaches one barrier and completes no phase there, or one whose release takes no cache action, updates the barrier (R255). -/
theorem sstEnd_updates (h : (w.sstStored n).completes b = false
      ∨ w.mayRelease ((w.sstStored n).barScope b) = true ∧ (w.sstStored n).barScope b ≠ 5) :
    w.sstEnd n [b] = .done (({ w with E := w.sstStored n } : Work).via fun s => s.barApply w.T.ens b 0 0) := by
  cases hc : (w.sstStored n).completes b with
  | false => simp [Work.sstEnd, hc, State.checkBars]
  | true =>
    obtain ⟨hr, hs⟩ := h.resolve_left (by simp [hc])
    simp [Work.sstEnd, hc, hr, hs, actsOn, State.checkBars]

variable (hc : (w.sstStored n).completes b = true)
include hc

theorem sstEnd_holds (hr : w.mayRelease ((w.sstStored n).barScope b) = false) : w.sstEnd n [b] = .hold := by
  simp [Work.sstEnd, hc, hr]

/-- An sst that completes a phase at system scope is a cache action that applies the update (R255, R320). -/
theorem sstEnd_releases (hr : w.mayRelease ((w.sstStored n).barScope b) = true) (hs : (w.sstStored n).barScope b = 5) :
    let x := ({ w with E := w.sstStored n } : Work).physical (((w.sstStored n).regions true b).flatMap fun r => pageParts r.1 r.2)
    w.sstEnd n [b] = .raw (x.1.actThen n true false 5 (some x.2) (.phases [b])) := by
  rw [hs] at hr
  simp [Work.sstEnd, hc, hr, hs, actsOn]

end

end Machine

/-- Settles O22: the checks in their order by the lemmas on `Work.stageInWay`, the bytes by `stageRead_storeLanes_last`, and the barriers by
`Updated.finish` and `actThen_suspends`. -/
theorem stageAccesses : Obligations.StageAccesses := by
  unfold Obligations.StageAccesses
  refine ⟨fun f s w h hst => ?sld, fun f s w => ?sst, ?traps⟩
  case sld =>
    let n := insX 0x90 f
    have hbody := opSld_eq (n := n) h.2 hst
    obtain ⟨-, rfl, -⟩ := gate_go h.1
    obtain ⟨hd, hr⟩ := w.pending_does 24 0#32 (w.outsOf n (Machine.wordsOf n.mod) w.act fun k i =>
      loadWord n.mod k (leNat (w.E.stageRead (w.stageAddr n n.sa i) (Machine.sizeOf n.mod))))
    obtain ⟨x, hx⟩ := Work.finish_completes (n := n) (outs := []) rfl hd fun r l _ => by simp [hr]
    exact ⟨_, x, run_done h.1 hbody, hx, _, Work.mem_finish n (mem_at.2 (.inl rfl))⟩
  case sst =>
    intro size at_ data h hst
    have hbody := opSst_eq (n := insX 0x91 f) h.2 hst
    have honly : w.sstStored (insX 0x91 f) = { w.E with stage := (w.sstStored (insX 0x91 f)).stage } := storeLanes_only _
    have hlen (l : Nat) : (data l).length = size := length_natLE _ _
    refine ⟨w.sstStored (insX 0x91 f), honly, fun a ha => ?_, fun l hl hlast => ?_, fun hbars => ?_, fun b hb hin => ?_⟩
    · exact stageRead_storeLanes_other fun l hl => by
        rw [show (natLE _ _).length = size from length_natLE _ _]
        have : ¬(at_ l ≤ a ∧ a < at_ l + size) := ha l (mem_lanesOf.1 hl)
        change a + 1 ≤ at_ l ∨ at_ l + size ≤ a
        omega
    · exact stageRead_storeLanes_last hlen (fun j hj => hst.aligned j (mem_lanesOf.1 hj)) (hst.inside l hl) (lanesOf_sorted _) (mem_lanesOf.2 hl)
        fun j hj hlt => hlast j hlt (mem_lanesOf.1 hj)
    · refine sst_completes h.1 (hbody.trans (congrArg _ (barsHit_nil fun b hb l hl => ?_)))
      rw [honly] at hb
      exact hbars b hb l (mem_lanesOf.1 hl)
    · obtain hbody := hbody.trans (congrArg _ hb)
      refine ⟨fun hc hr => run_hold h.1 (hbody.trans (sstEnd_holds hc hr)), fun hc => ?_, fun hc hr hs => ?_⟩
      · let u : Work := { w with E := w.sstStored (insX 0x91 f) }
        obtain ⟨-, rfl, hT, -⟩ := gate_go h.1
        have hsize : u.E.size = w.E.size := storeLanes_size _
        obtain ⟨x, hx, hpc, -, -, happlied⟩ := (via_barApply u b 0 0).finish (n := insX 0x91 f) hT (hsize ▸ hin)
        exact ⟨_, x, run_done h.1 (hbody.trans (sstEnd_updates hc)), hx, hpc, happlied⟩
      · have hbody := hbody.trans (sstEnd_releases hc hr hs)
        let u : Work := { w with E := w.sstStored (insX 0x91 f) }
        let x := u.physical (((w.sstStored (insX 0x91 f)).regions true b).flatMap fun r => pageParts r.1 r.2)
        obtain ⟨act, y, hy, hst, hwait, hE, -, hact, hrel, hafter⟩ := actThen_suspends x.1 (insX 0x91 f) true false 5 (some x.2) (.phases [b])
        have hx : x.1 = { u with s := x.1.s } := (physical_only u _).2
        obtain ⟨htid, hent, hxE⟩ : x.1.tid = w.tid ∧ x.1.ent = w.ent ∧ x.1.E = w.sstStored (insX 0x91 f) := by rw [hx]; exact ⟨rfl, rfl, rfl⟩
        rw [htid, hent] at hy
        exact ⟨_, y, act, run_raw h.1 hbody, hy, hst, hwait, by rw [hE, hxE], hact, hrel, hafter⟩
  case traps =>
    intro traps
    have htraps {i : Instr} {n : Ins} {body : Work → (Nat → Nat) → Eff} (he : ∀ s, exec i s = run n (ifActive fun w => w.stage n (Machine.sizeOf n.mod) body) s) :
        traps i n := by
      intro s w size at_ h hm
      obtain rfl := (gate_go h.1).2.1
      have hgo {e : Eff} (hb : w.stage n size body = e) : ifActive (fun w => w.stage n (Machine.sizeOf n.mod) body) w = e := (ifActive_of h.2).trans hb
      have hafter {c : TrapInfo} (hb : w.stage n size body = .trapAfter w c) : exec i w.s = ({ w with s := w.commit } : Work).trap n c :=
        (he _).trans ((run_go _ h.1).trans (by rw [hgo hb]))
      refine ⟨fun l hl => (he _).trans (run_trap h.1 (hgo (stage_misaligned hm hl))), fun ha => ⟨fun l hl =>
        (he _).trans (run_trap h.1 (hgo (stage_outside hm ha hl))), fun hin hfill => ?_⟩⟩
      intro lock stop
      have henter := stage_enters (body := body) hm ha hin hfill
      refine ⟨fun l k hl hk => hafter (henter.trans (stageInWay_locked (n := n) (size := size) hl hk)), fun hlock => ?_⟩
      intro drains
      refine ⟨fun l hl => ⟨Config.unstated w.s.tick % 64, hafter (henter.trans (stageInWay_drained hlock ?_))⟩, fun hdrain k ks hk l hl =>
        hafter (henter.trans (stageInWay_filling hlock (fun l hl => not_not.1 (hdrain l hl)) hk hl))⟩
      simpa only [Option.isSome_iff_ne_none] using hl
    exact ⟨fun f => htraps fun s => rfl, fun f => htraps fun s => rfl⟩

end Sys2Proof
end

section
/-! The stagehand's work around a landing (O26): what asking for units and ending a copy keep, and what a fault leaves of a copy
(R244, R248, R251, R252). -/

namespace Sys2Proof

open Machine

namespace Machine

variable {s t u : State} {id : Nat} {c : Copy}

/-! ### Path times and requests -/

/-- Path times change the caches, what the stacks hold, and the counter. -/
def OnlyTimes (s t : State) : Prop := t = { t.caches.on s with tick := t.tick }

theorem OnlyTimes.refl (s : State) : OnlyTimes s s := rfl

theorem OnlyTimes.trans (h : OnlyTimes s t) (k : OnlyTimes t u) : OnlyTimes s u := by
  unfold OnlyTimes State.caches Caches.on at *
  rw [k, h]

theorem OnlyCaches.times (h : OnlyCaches s t) : OnlyTimes s t := by
  unfold OnlyTimes
  rw [h]
  rfl

theorem sectorTime_only (s : State) (c : Copy) (x : Nat) : OnlyTimes s (s.sectorTime c x).1 := by
  have hp := (copyPages_only c [x / 128] s).eq
  unfold State.sectorTime
  split
  · next heq =>
    rw [heq] at hp
    exact hp.times.trans rfl
  · next heq =>
    rw [heq] at hp
    dsimp only
    split
    · exact (hp.trans (writeTime_only _ _ _).caches).times
    · exact ((hp.trans (readTime_only _ _ _).caches).trans (noteRead_only _ _).caches).times

theorem unitTime_only (s : State) (c : Copy) (j : Nat) : OnlyTimes s (s.unitTime c j).1 :=
  foldl_rel (p := fun a b : State × Nat => OnlyTimes a.1 b.1) (fun _ => .refl _) .trans
    (f := fun r x => ((r.1.sectorTime c x).1, max r.2 (r.1.sectorTime c x).2)) (fun r x => sectorTime_only r.1 c x) (c.sectors j) (s, 0)

/-- Asking for units of a copy changes, of memory, the ensembles and the copy itself, only what the copy has asked for. -/
structure Asked (id : Nat) (s t : State) : Prop where
  mem : t.mem = s.mem
  ensembles : t.ensembles = s.ensembles
  copy : ∃ f : Copy → Copy, (∀ c, f c = { c with sent := (f c).sent, shift := (f c).shift, todo := (f c).todo })
    ∧ t.copies.find? id = (s.copies.find? id).map f

theorem Asked.of_copies (hm : t.mem = s.mem) (he : t.ensembles = s.ensembles) (hc : t.copies = s.copies) : Asked id s t :=
  ⟨hm, he, fun c => c, fun _ => rfl, by rw [hc, Option.map_id']⟩

theorem Asked.refl (s : State) : Asked id s s := .of_copies rfl rfl rfl

theorem Asked.trans (h : Asked id s t) (k : Asked id t u) : Asked id s u := by
  obtain ⟨f, hf, hft⟩ := h.copy
  obtain ⟨g, hg, hgu⟩ := k.copy
  exact ⟨k.mem.trans h.mem, k.ensembles.trans h.ensembles, fun c => g (f c), fun c => by dsimp only; rw [hg, hf], by rw [hgu, hft, Option.map_map]; rfl⟩

theorem OnlyTimes.asked (h : OnlyTimes s t) : Asked id s t := .of_copies (by rw [h]; rfl) (by rw [h]; rfl) (by rw [h]; rfl)

theorem requestUnits_asks (id n : Nat) (s : State) : Asked id s (s.requestUnits id n) := by
  induction n generalizing s with
  | zero => exact .refl s
  | succ n ih =>
    unfold State.requestUnits
    split
    · exact .refl s
    next c _ =>
    split
    · exact .refl s
    dsimp only
    split
    · exact .refl s
    refine .trans ?_ (ih _)
    have hask (shift : Nat) (todo : Copy → List Nat) :
        Asked id s (s.modCopy id fun x => { x with sent := c.sent + 1, shift := shift, todo := todo x }) :=
      ⟨rfl, rfl, _, fun _ => rfl, Tab.find?_modify_same _ _ _⟩
    have hat (s : State) (due : Nat) (ev : Ev) : Asked id s (s.at_ due ev) := .of_copies rfl rfl rfl
    split
    · exact hask _ _
    split
    · exact (hask _ _).trans (hat _ _ _)
    split
    · exact (hask _ _).trans (foldl_rel (p := Asked id) .refl .trans (fun _ _ => (sectorTime_only _ _ _).asked.trans (hat _ _ _)) _ _)
    · exact (hask _ _).trans ((unitTime_only _ _ _).asked.trans (hat _ _ _))

/-! ### Bytes of memory -/

theorem barApply_mem (s : State) (ens a arrive : Nat) (add : Int) : (s.barApply ens a arrive add).mem = s.mem := by
  cases he : s.ensembles.find? ens with
  | none =>
    unfold State.barApply
    rw [he]
  | some e =>
    obtain ⟨E, hE⟩ := barApply_updates he a arrive add
    exact hE.mem

theorem writeBackAll_mem (s : State) (ivs : Option (List (Nat × Nat))) : (s.writeBackAll ivs).mem = s.mem := by
  cases ivs with
  | none => exact (writeBack_only s _ _).mem
  | some l => exact State.foldl_mem _ (fun s _ => (writeBack_only s _ _).mem) l s

theorem copyRelease_mem (s : State) (c : Copy) : (s.copyRelease c).mem = s.mem := by
  unfold State.copyRelease
  split
  · split
    · split
      · exact writeBackAll_mem _ _
      · rfl
    · rfl
  · rfl

theorem finishCopy_mem (s : State) (id : Nat) : (s.finishCopy id).mem = s.mem := by
  unfold State.finishCopy
  split
  · rfl
  refine (dropCopy_forgets _ id).1.mem.trans ?_
  split
  · exact (State.foldl_mem _ (by intros; rfl) _ _).trans (copyRelease_mem _ _)
  · split
    · exact barApply_mem _ _ _ _ _
    · rfl
  · rfl
  · split
    · exact barApply_mem _ _ _ _ _
    · rfl

/-- A unit counted in a window of one ensemble, and in its barrier (R248). -/
def State.postUnit (s : State) (w : Nat) (bar : Option Nat) (r : Nat × BitVec 64) (m : Nat) : State :=
  let s' := s.modEns m fun e => e.modWin w fun x => { x with landed := BitVec.ofNat 15 r.1, tail := r.2 }
  match bar with
  | some a => s'.barApply m a 0 (-1)
  | none => s'

/-- A unit counted in the copy, and posted in every ensemble that receives it (R248). -/
def State.countUnit (s : State) (id : Nat) (c : Copy) (r : Nat × BitVec 64) : State :=
  let s1 := s.modCopy id fun c => { c with landed := r.1, tail := r.2 }
  match c.kind with
  | .window w => c.members.foldl (fun s m => s.postUnit w c.bar r m) s1
  | _ => s1

/-- A unit that has not landed lands: it is counted, and the last one ends the copy (R248). -/
theorem landUnit_eq {j : Nat} (hc : s.copies.find? id = some c) (hj : c.hasLanded j = false) : s.landUnit id j =
    if c.units ≤ (landMark c.landed c.tail j).1 then (s.countUnit id c (landMark c.landed c.tail j)).finishCopy id
    else s.countUnit id c (landMark c.landed c.tail j) := by
  unfold State.landUnit State.countUnit
  rw [hc]
  dsimp only
  rw [hj]
  cases c.kind <;> rfl

theorem postUnit_mem (s : State) (w : Nat) (bar : Option Nat) (r : Nat × BitVec 64) (m : Nat) : (s.postUnit w bar r m).mem = s.mem := by
  cases bar with
  | none => rfl
  | some a => exact barApply_mem _ _ _ _ _

theorem countUnit_mem (s : State) (id : Nat) (c : Copy) (r : Nat × BitVec 64) : (s.countUnit id c r).mem = s.mem := by
  unfold State.countUnit
  dsimp only
  split
  · exact State.foldl_mem _ (fun _ _ => postUnit_mem _ _ _ _ _) _ _
  · rfl

theorem landUnit_mem (s : State) (id j : Nat) : (s.landUnit id j).mem = s.mem := by
  cases hc : s.copies.find? id with
  | none =>
    unfold State.landUnit
    rw [hc]
  | some c =>
    cases hj : c.hasLanded j with
    | true =>
      unfold State.landUnit
      rw [hc]
      dsimp only
      rw [hj]
      rfl
    | false =>
      rw [landUnit_eq hc hj]
      split
      · exact (finishCopy_mem _ _).trans (countUnit_mem _ _ _ _)
      · exact countUnit_mem _ _ _ _

theorem landReady_mem (s : State) (id n : Nat) : (s.landReady id n).mem = s.mem := by
  induction n generalizing s with
  | zero => rfl
  | succ n ih =>
    unfold State.landReady
    split
    · rfl
    split
    · rfl
    · exact (ih _).trans (landUnit_mem _ _ _)

theorem contributed_mem (s : State) (id sec : Nat) : (s.contributed id sec).mem = s.mem :=
  (requestUnits_asks id 65 _).mem.trans (landReady_mem _ _ _)

theorem signalRefused_mem (s : State) : s.signalRefused.mem = s.mem := State.foldl_mem _ (by intros; rfl) _ _

/-! ### The end of a copy -/

theorem resume_ensembles (s : State) (tid uid : Nat) : (s.resume tid uid).ensembles = s.ensembles := rfl

theorem wakeBatch_ensembles (s : State) (tid : Nat) : (s.wakeBatch tid).ensembles = s.ensembles := by
  unfold State.wakeBatch
  split
  · rfl
  refine foldl_rel (p := fun a b : State => b.ensembles = a.ensembles) (fun _ => rfl) (fun h k => k.trans h) (fun a p => ?_) _ s
  split
  · split
    · exact resume_ensembles _ _ _
    · rfl
  · rfl

theorem dropCopy_ensembles (s : State) (id : Nat) : (s.dropCopy id).ensembles = s.ensembles := by
  unfold State.dropCopy
  split
  · rfl
  next c _ =>
  dsimp only
  rw [State.at_ensembles, kick_only]
  exact wakeBatch_ensembles _ _

/-! ### Faults -/

/-- A fault leaves the copies and memory as they are. -/
theorem raiseFault_copies (s : State) (f : FaultWait) : (s.raiseFault f).copies = s.copies ∧ (s.raiseFault f).mem = s.mem := by
  obtain ⟨fw, tk, ds, ag, e, -⟩ := admitFault_only ({ s with faultWaits := s.faultWaits ++ [{ f with id := s.tick }] } : State).bump s.tick
  unfold State.raiseFault
  dsimp only
  rw [e]
  exact ⟨rfl, rfl⟩

/-- A copy that meets a fault parks (R252). -/
theorem copyFault_parks (hc : s.copies.find? id = some c) (va : Nat) (m : Miss) :
    (s.copyFault id va c m).copies.find? id = some { c with parked := true } ∧ (s.copyFault id va c m).mem = s.mem := by
  unfold State.copyFault
  dsimp only
  obtain ⟨hcopies, hmem⟩ := raiseFault_copies ((s.modCopy id fun c => { c with parked := true }).recallUnits id) _
  rw [hcopies, hmem]
  exact ⟨(Tab.find?_modify_same _ _ _).trans (congrArg _ hc), rfl⟩

end Machine
end Sys2Proof
end

section
/-! Landings (O26): what a unit of a fill, a row of a gather, a pattern, an operand load and a contribution to a reduction leave (R244, R247, R248,
R252, R260, R262, R266, R267). -/

namespace Sys2Proof

open Machine

namespace Machine

variable {s s1 : State} {id j k a : Nat} {c : Copy} {e : Ensemble} {pages : Tab Nat}

theorem OnlyTlbs.copyTables {t : State} (h : OnlyTlbs s t) : t.copies = s.copies ∧ t.ensembles = s.ensembles := by
  rw [h.eq]
  exact ⟨rfl, rfl⟩

/-! ### What the landing event does -/

theorem sectorLanding_faults {va : Nat} {m : Miss} (hc : s.copies.find? id = some c) (hp : c.parked = false) (hj : c.hasLanded j = false)
    (hw : s.copyWaits c = false) (h : s.copyPages c (c.pages j) = (s1, .error (va, m))) :
    exec (.sectorLanding id j) s = .next (s1.copyFault id (c.lowByte j va) c m) := by
  change execSectorLanding id j s = _
  simp [execSectorLanding, hc, hp, hj, hw, h]

/-- Pages that all lie in device memory meet no peer that fails. -/
theorem copyPeer_none (h : ∀ p ∈ pages, targetOf p.2 = .device) : s1.copyPeer pages = none := by
  unfold State.copyPeer
  rw [List.filter_eq_nil_iff.2 fun p hp => by simp [h p hp]]
  rfl

theorem sectorLanding_lands (hc : s.copies.find? id = some c) (hp : c.parked = false) (hj : c.hasLanded j = false) (hw : s.copyWaits c = false)
    (h : s.copyPages c (c.pages j) = (s1, .ok pages)) (hfree : ∀ p ∈ pages, s1.mapWaits p.2 = false ∧ s1.refuses p.2 = false ∧ targetOf p.2 = .device) :
    exec (.sectorLanding id j) s = .next ((((s1.moveUnit c pages j).landUnit id j).bump).requestUnits id 65) := by
  have hmap : pages.any (fun p => s1.mapWaits p.2) = false := List.any_eq_false.2 fun p hp => by simp [(hfree p hp).1]
  have href : pages.any (fun p => s1.refuses p.2) = false := List.any_eq_false.2 fun p hp => by simp [(hfree p hp).2.1]
  change execSectorLanding id j s = _
  simp [execSectorLanding, hc, hp, hj, hw, h, hmap, href, copyPeer_none fun p hp => (hfree p hp).2.2]

/-! ### A unit of a fill -/

theorem length_fillBytes (s : State) (c : Copy) (pages : Tab Nat) (j : Nat) : (s.fillBytes c pages j).length = 32 := length_natLE _ _

theorem moveUnit_fill (hk : c.kind = .window k) (hdir : recDir c.record = 0) (hslot : recSlotEn c.record = false) (hm : c.members = [c.ens]) :
    s.moveUnit c pages j = s.modEns c.ens fun e => e.stageWrite (recDest c.record + 32 * j) (s.fillBytes c pages j) := by
  simp [State.moveUnit, hk, hdir, hslot, hm]

/-- A unit of a fill counted in one ensemble's window and barrier (R244, R248). -/
theorem countUnit_fill (hc : s.copies.find? id = some c) (he : s.ensembles.find? c.ens = some e) (hk : c.kind = .window k) (hm : c.members = [c.ens])
    (hbar : c.bar = some a) (r : Nat × BitVec 64) : ∃ E, (s.countUnit id c r).ensembles.find? c.ens = some E
      ∧ (s.countUnit id c r).copies.find? id = some { c with landed := r.1, tail := r.2 }
      ∧ E.win k = { e.win k with landed := BitVec.ofNat 15 r.1, tail := r.2 }
      ∧ (a + 16 ≤ e.size → E.bar a = (barStep (e.bar a) 0 (-1)).1)
      ∧ ∀ d n, d + n ≤ a ∨ a + 16 ≤ d → E.stageRead d n = e.stageRead d n := by
  let f (x : Window) : Window := { x with landed := BitVec.ofNat 15 r.1, tail := r.2 }
  let s' := (s.modCopy id fun c => { c with landed := r.1, tail := r.2 }).modEns c.ens (·.modWin k f)
  have hcount : s.countUnit id c r = s'.barApply c.ens a 0 (-1) := by
    unfold State.countUnit State.postUnit
    rw [hk, hm, hbar]
    rfl
  obtain ⟨E, hE⟩ := barApply_updates (s := s') (e := e.modWin k f) ((Tab.find?_modify_same _ _ _).trans (congrArg _ he)) a 0 (-1)
  rw [hcount, hE.copies]
  refine ⟨E, hE.found, (Tab.find?_modify_same _ _ _).trans (congrArg _ hc), ?_, hE.bar, fun d n hd => hE.stage hd⟩
  rw [hE.only]
  exact win_modWin e k f

/-- The end of a fill of one ensemble's window (R248). -/
theorem finishCopy_fill (hc : s.copies.find? id = some c) (he : s.ensembles.find? c.ens = some e) (hk : c.kind = .window k)
    (hdir : recDir c.record = 0) (hm : c.members = [c.ens]) : (s.finishCopy id).copies.find? id = none
      ∧ (s.finishCopy id).ensembles.find? c.ens = some (e.modWin k fun x => { x with state := 3 }) := by
  have hrel : s.copyRelease c = s := by
    unfold State.copyRelease
    split
    · exact if_neg fun h => h.2 hdir
    · rfl
  have hfin : s.finishCopy id = (s.modEns c.ens fun e => e.modWin k fun x => { x with state := 3 }).dropCopy id := by
    unfold State.finishCopy
    rw [hc]
    dsimp only
    rw [hk, hm, hrel, hdir]
    rfl
  rw [hfin, dropCopy_ensembles]
  exact ⟨(dropCopy_forgets _ id).2, (Tab.find?_modify_same _ _ _).trans (congrArg _ he)⟩

/-- A unit of a fill of one ensemble's window lands (R244, R248). -/
theorem landUnit_fill (hc : s.copies.find? id = some c) (he : s.ensembles.find? c.ens = some e) (hj : c.hasLanded j = false) (hk : c.kind = .window k)
    (hdir : recDir c.record = 0) (hm : c.members = [c.ens]) (hbar : c.bar = some a) : let r := landMark c.landed c.tail j
    ∃ E, (s.landUnit id j).ensembles.find? c.ens = some E
      ∧ (a + 16 ≤ e.size → E.bar a = (barStep (e.bar a) 0 (-1)).1)
      ∧ (∀ d n, d + n ≤ a ∨ a + 16 ≤ d → E.stageRead d n = e.stageRead d n)
      ∧ (r.1 < c.units → (s.landUnit id j).copies.find? id = some { c with landed := r.1, tail := r.2 }
        ∧ E.win k = { e.win k with landed := BitVec.ofNat 15 r.1, tail := r.2 })
      ∧ (c.units ≤ r.1 → (s.landUnit id j).copies.find? id = none ∧ (E.win k).state = 3) := by
  intro r
  obtain ⟨E, hE, hcopy, hwin, hb, hst⟩ := countUnit_fill hc he hk hm hbar r
  rw [landUnit_eq hc hj]
  by_cases hu : c.units ≤ r.1
  · obtain ⟨hgone, hfin⟩ := finishCopy_fill hcopy hE hk hdir hm
    rw [if_pos hu]
    exact ⟨_, hfin, hb, hst, fun h => absurd hu (not_le.2 h), fun _ => ⟨hgone, congrArg Window.state (win_modWin E k _)⟩⟩
  · rw [if_neg hu]
    exact ⟨E, hE, hb, hst, fun _ => ⟨hcopy, hwin⟩, fun h => absurd h hu⟩

/-! ### A row of a gather -/

theorem length_rowBytes (s : State) (pages : Tab Nat) (va : Nat) {n : Nat} (h : n % 32 = 0) : (s.rowBytes pages va n).length = n := by
  unfold State.rowBytes State.peek
  rw [List.length_flatMap]
  simp only [Memory.length_readN, List.map_const', List.length_range, List.sum_replicate, smul_eq_mul]
  omega

theorem moveUnit_row {rows : List Nat} {dst row va : Nat} (hk : c.kind = .sgath rows dst row) (hrow : rows[j]? = some va) :
    s.moveUnit c pages j = s.modEns c.ens fun e => e.stageWrite (dst + j * row) (s.rowBytes pages va row) := by
  simp [State.moveUnit, hk, hrow]

theorem finishCopy_row {rows : List Nat} {dst row : Nat} (hc : s.copies.find? id = some c) (hk : c.kind = .sgath rows dst row) (hbar : c.bar = none) :
    s.finishCopy id = s.dropCopy id := by
  unfold State.finishCopy
  rw [hc]
  dsimp only
  rw [hk, hbar]

/-- A row that lands where no barrier counts it leaves the ensembles as they are. -/
theorem landUnit_row {rows : List Nat} {dst row : Nat} (hc : s.copies.find? id = some c) (hj : c.hasLanded j = false)
    (hk : c.kind = .sgath rows dst row) (hbar : c.bar = none) : (s.landUnit id j).ensembles = s.ensembles := by
  have hcount (r : Nat × BitVec 64) : s.countUnit id c r = s.modCopy id fun c => { c with landed := r.1, tail := r.2 } := by
    unfold State.countUnit
    rw [hk]
  rw [landUnit_eq hc hj, hcount]
  split
  · rw [finishCopy_row (c := { c with landed := (landMark c.landed c.tail j).1, tail := (landMark c.landed c.tail j).2 })
      ((Tab.find?_modify_same _ _ _).trans (congrArg _ hc)) hk hbar]
    exact dropCopy_ensembles _ _
  · rfl

/-! ### A pattern -/

/-- A word of a pattern. -/
theorem getD_flatten_replicate {α : Type} (l : List α) (d : α) {m k i : Nat} (hk : k < m) (hi : i < l.length) :
    (List.replicate m l).flatten.getD (l.length * k + i) d = l.getD i d := by
  induction m generalizing k with
  | zero => omega
  | succ m ih =>
    rw [List.replicate_succ, List.flatten_cons]
    cases k with
    | zero => rw [Nat.mul_zero, Nat.zero_add, List.getD_append _ _ _ _ hi]
    | succ k =>
      rw [List.getD_append_right _ _ _ _ (by rw [Nat.mul_succ]; omega), show l.length * (k + 1) + i - l.length = l.length * k + i by
        rw [Nat.mul_succ]; omega]
      exact ih (by omega)

/-- A pattern stands in every word of its range (R267). -/
theorem stageRead_pattern {dst len : Nat} (v : Nat) (hin : dst + len ≤ e.size) (hlen : len % 4 = 0) :
    let E := e.stageWrite dst ((List.replicate (len / 4) (natLE 4 v)).flatten)
    (∀ k, k < len / 4 → E.stageRead (dst + 4 * k) 4 = natLE 4 v) ∧ ∀ d, (d < dst ∨ dst + len ≤ d) → E.stageRead d 1 = e.stageRead d 1 := by
  have hlength : ((List.replicate (len / 4) (natLE 4 v)).flatten).length = len := by
    simp only [List.length_flatten, List.map_replicate, List.sum_replicate, length_natLE, smul_eq_mul]
    omega
  refine ⟨fun k hk => List.ext_getElem (by simp [Ensemble.stageRead, Store.getMany, length_natLE]) fun i hi hi' => ?_, fun d hd =>
    stageRead_stageWrite_other (by rw [hlength]; omega)⟩
  rw [length_natLE] at hi'
  simp only [Ensemble.stageRead, Store.getMany, List.getElem_map, List.getElem_range, get_stageWrite, hlength]
  have hword := getD_flatten_replicate (natLE 4 v) 0#8 hk (by rwa [length_natLE])
  rw [length_natLE] at hword
  rw [if_pos (by omega), show dst + 4 * k + i - dst = 4 * k + i by omega]
  exact hword.trans (by simp [length_natLE, hi'])

theorem finishCopy_sfill {dst len : Nat} {p : Word} (hc : s.copies.find? id = some c) (hk : c.kind = .sfill dst len p) :
    s.finishCopy id = s.dropCopy id := by
  unfold State.finishCopy
  rw [hc]
  dsimp only
  rw [hk]

theorem sfillComplete_keeps (id : Nat) (s : State) : ∃ t, exec (.sfillComplete id) s = .next t ∧ t.mem = s.mem := by
  change ∃ t, execSfillComplete id s = .next t ∧ _
  unfold execSfillComplete
  split
  · exact ⟨s, rfl, rfl⟩
  split
  case h_2 => exact ⟨_, rfl, finishCopy_mem _ _⟩
  all_goals exact ⟨s, rfl, rfl⟩

theorem sfillComplete_eq {dst len : Nat} {p : Word} (hc : s.copies.find? id = some c) (hp : c.parked = false) (hk : c.kind = .sfill dst len p) :
    exec (.sfillComplete id) s
      = .next ((s.modEns c.ens fun e => e.stageWrite dst ((List.replicate (len / 4) (natLE 4 p.toNat)).flatten)).dropCopy id) := by
  rw [← finishCopy_sfill (s := s.modEns c.ens _) hc hk]
  change execSfillComplete id s = _
  simp [execSfillComplete, hc, hp, hk]

/-! ### An operand load -/

/-- A slot of an ensemble, if it is claimed, with some bytes of stage memory at a place (R234). -/
def Ensemble.loadSlot (e : Ensemble) (b : Bool) (k off src len : Nat) : Ensemble :=
  match e.slot b k with
  | some x => e.setSlot b k { x with data := x.data.setMany off (e.stageRead src len) }
  | none => e

/-- The bytes of an operand load stand in its slot, and the others of the slot are as they were (R234). -/
theorem loadSlot_loads {b : Bool} {off src len : Nat} {x : Slot} (h : e.slot b k = some x) :
    let data := x.data.setMany off (e.stageRead src len)
    (e.loadSlot b k off src len).slot b k = some { x with data := data } ∧ data.getMany off len = e.stageRead src len
      ∧ ∀ d, (d < off ∨ off + len ≤ d) → data.get d = x.data.get d := by
  have hlen : (e.stageRead src len).length = len := by simp [Ensemble.stageRead, Store.getMany]
  refine ⟨?_, List.ext_getElem (by simp [Store.getMany, hlen]) fun i hi hi' => ?_, fun d hd => ?_⟩
  · unfold Ensemble.loadSlot
    rw [h]
    simp
  · rw [hlen] at hi'
    simp [Store.getMany, Store.get_setMany, hlen, hi']
  · rw [Store.get_setMany, if_neg (by rw [hlen]; omega)]

theorem opldComplete_keeps (id : Nat) (s : State) : ∃ t, exec (.opldComplete id) s = .next t ∧ t.mem = s.mem := by
  change ∃ t, execOpldComplete id s = .next t ∧ _
  unfold execOpldComplete
  split
  · exact ⟨s, rfl, rfl⟩
  split
  case h_2 => exact ⟨_, rfl, finishCopy_mem _ _⟩
  all_goals exact ⟨s, rfl, rfl⟩

section
variable {b : Bool} {off src len : Nat} (hc : s.copies.find? id = some c) (hk : c.kind = .opld b k off src len)
include hc hk

theorem opldComplete_eq (hp : c.parked = false) :
    exec (.opldComplete id) s = .next ((s.modEns c.ens (·.loadSlot b k off src len)).finishCopy id) := by
  change execOpldComplete id s = _
  simp only [execOpldComplete, hc, hp, hk]
  rfl

/-- The end of an operand load keeps the slots (R234). -/
theorem finishCopy_opld (he : s.ensembles.find? c.ens = some e) : (s.finishCopy id).copies.find? id = none
    ∧ ∃ E, (s.finishCopy id).ensembles.find? c.ens = some E ∧ ∀ b k, E.slot b k = e.slot b k := by
  cases hbar : c.bar with
  | none =>
    have hfin : s.finishCopy id = s.dropCopy id := by
      unfold State.finishCopy
      rw [hc]
      dsimp only
      rw [hk, hbar]
    rw [hfin, dropCopy_ensembles]
    exact ⟨(dropCopy_forgets _ id).2, e, he, fun _ _ => rfl⟩
  | some a =>
    have hfin : s.finishCopy id = (s.barApply c.ens a 0 (-((len / 32 : Nat) : Int))).dropCopy id := by
      unfold State.finishCopy
      rw [hc]
      dsimp only
      rw [hk, hbar]
    obtain ⟨E, hE⟩ := barApply_updates he a 0 (-((len / 32 : Nat) : Int))
    rw [hfin, dropCopy_ensembles]
    exact ⟨(dropCopy_forgets _ id).2, E, hE.found, fun b k => by rw [hE.only]; rfl⟩

end

/-! ### Contributions to reductions -/

theorem reduceContribution_eq {sec : Nat} (hc : s.copies.find? id = some c) (hp : c.parked = false) (hw : s.copyWaits c = false)
    (h : s.copyPages c [sec / 128] = (s1, .ok pages)) (hfree : ∀ p ∈ pages, s1.mapWaits p.2 = false ∧ s1.refuses p.2 = false ∧ targetOf p.2 = .device)
    (href : s1.refuses (physOf pages (32 * sec)) = false) :
    exec (.reduceContribution id sec) s = .next (s1.contribute id sec (physOf pages (32 * sec) / 32) c) := by
  have hmap : pages.any (fun p => s1.mapWaits p.2) = false := List.any_eq_false.2 fun p hp => by simp [(hfree p hp).1]
  change execReduceContribution id sec s = _
  simp [execReduceContribution, hc, hp, hw, h, hmap, href, copyPeer_none fun p hp => (hfree p hp).2.2]

/-- The contribution that is the only one of its episode is applied, and nothing that follows it writes memory (R262). -/
theorem contribute_alone {sec pa : Nat} (hep : s.episodes.find? pa = none) (hroom : (s.staging (s.sliceOf (32 * pa))).1 < 1024)
    (hk : rf c.record 476 469 = 0) (hn : rf c.record 468 461 = 0) : (s.contribute id sec pa c).mem
      = (s.reduceApply (s.copyCore c) c (bitOf c.record.toNat 509) pa (s.contribution c sec)).mem := by
  simp only [State.contribute, hep, hk, hn, not_le.2 hroom, if_true, if_false]
  rw [signalRefused_mem, contributed_mem]

/-- A contribution that was refused is sent again (R262). -/
theorem reduceRetry_sends (id sec : Nat) (s : State) : ∃ t, exec (.reduceRetry id sec) s = .next t
    ∧ (∃ c : Caches, t = { c.on s with tick := t.tick, agenda := t.agenda })
    ∧ ((s.copies.find? id).isSome = true → ∃ due, s.now + 1 ≤ due ∧ ⟨due, .reduceContribution id sec⟩ ∈ t.agenda) := by
  change ∃ t, execReduceRetry id sec s = .next t ∧ _
  unfold execReduceRetry
  split
  · next h => exact ⟨s, rfl, ⟨s.caches, rfl⟩, fun hc => by simp [h] at hc⟩
  · next c _ =>
    have hsent (t : State) (h : OnlyTimes s t) (due : Nat) (ev : Ev) :
        t.at_ due ev = { t.caches.on s with tick := t.tick, agenda := (t.at_ due ev).agenda } :=
      congrArg (fun v : State => { v with agenda := (t.at_ due ev).agenda }) h
    exact ⟨_, rfl, ⟨_, hsent _ (sectorTime_only s c sec) _ _⟩, fun _ => ⟨_, Nat.le_add_right _ _, mem_at.2 (.inl rfl)⟩⟩

end Machine

/-- Settles O26: what each event does, the unit's count by `countUnit_fill`, and the requests that follow by `requestUnits_asks`. -/
theorem copyLanding : Obligations.CopyLanding := by
  unfold Obligations.CopyLanding
  refine ⟨fun id j s c hc hp hj hw pages s1 => ?landing, fun id s => ?sfill, fun id s => ?opld,
    fun id sec s c pages s1 hc hp hw hpages hfree => ?contribution, fun id sec s => reduceRetry_sends id sec s⟩
  case landing =>
    intro ready
    have htlb (r : Except (Nat × Miss) (Tab Nat)) (h : s.copyPages c (c.pages j) = (s1, r)) : OnlyTlbs s s1 := by
      have := copyPages_only c (c.pages j) s
      rwa [h] at this
    refine ⟨fun va m h => ?fault, fun hready k e hk hdir hslot hm he a hbar => ?fill, fun hready rows dst row va e hk hrow he hbar hin h32 => ?row⟩
    case fault =>
      obtain ⟨hcopies, -⟩ := (htlb _ h).copyTables
      obtain ⟨hpark, hmem⟩ := copyFault_parks (hcopies ▸ hc) (c.lowByte j va) m
      exact ⟨_, sectorLanding_faults hc hp hj hw h, hpark, hmem.trans (htlb _ h).mem⟩
    case fill =>
      obtain ⟨hpages, hfree⟩ := hready
      intro lo hapart hin hina r
      have hex := sectorLanding_lands hc hp hj hw hpages hfree
      rw [moveUnit_fill hk hdir hslot hm] at hex
      obtain ⟨hcopies, hens⟩ := (htlb _ hpages).copyTables
      let e1 := e.stageWrite lo (s1.fillBytes c pages j)
      let u := s1.modEns c.ens fun e => e.stageWrite lo (s1.fillBytes c pages j)
      obtain ⟨E, hE, hb, hst, hmore, hlast⟩ := landUnit_fill (s := u) (e := e1) (hcopies ▸ hc)
        ((Tab.find?_modify_same _ _ _).trans (congrArg _ (hens ▸ he))) hj hk hdir hm hbar
      obtain ⟨hqmem, hqens, f, hf, hqcopy⟩ := requestUnits_asks id 65 (u.landUnit id j).bump
      have hlen := length_fillBytes s1 c pages j
      have hwritten := stageRead_stageWrite_same (e := e) (a := lo) (bs := s1.fillBytes c pages j) (by rw [hlen]; exact hin)
      rw [hlen] at hwritten
      refine ⟨_, E, hex, by rw [hqens]; exact hE, ?_, (hst lo 32 (by omega)).trans hwritten, ?_, fun d h1 h2 => ?_, fun hlt => ?_, fun hge => ?_⟩
      · exact hqmem.trans ((landUnit_mem _ _ _).trans (htlb _ hpages).mem)
      · rw [hb hina, bar_stageWrite_other (by omega)]
      · exact (hst d 1 (by omega)).trans (stageRead_stageWrite_other (by rw [hlen]; omega))
      · obtain ⟨hcopy, hwin⟩ := hmore hlt
        refine ⟨⟨_, hqcopy.trans (congrArg _ hcopy), hf _⟩, ?_⟩
        rw [hwin]
        exact ⟨BitVec.toNat_ofNat _ _, rfl, rfl⟩
      · obtain ⟨hgone, hstate⟩ := hlast hge
        exact ⟨hqcopy.trans (congrArg _ hgone), hstate⟩
    case row =>
      obtain ⟨hpages, hfree⟩ := hready
      have hex := sectorLanding_lands hc hp hj hw hpages hfree
      rw [moveUnit_row hk hrow] at hex
      obtain ⟨hcopies, hens⟩ := (htlb _ hpages).copyTables
      let u := s1.modEns c.ens fun e => e.stageWrite (dst + j * row) (s1.rowBytes pages va row)
      obtain ⟨hqmem, hqens, -⟩ := requestUnits_asks id 65 (u.landUnit id j).bump
      have hlen := length_rowBytes s1 pages va h32
      have hwritten := stageRead_stageWrite_same (e := e) (a := dst + j * row) (bs := s1.rowBytes pages va row) (by rw [hlen]; exact hin)
      rw [hlen] at hwritten
      refine ⟨_, _, hex, ?_, ?_, hwritten, fun d hd => stageRead_stageWrite_other (by rw [hlen]; omega)⟩
      · rw [hqens]
        exact (congrArg (Tab.find? · c.ens) (landUnit_row (s := u) (hcopies ▸ hc) hj hk hbar)).trans
          ((Tab.find?_modify_same _ _ _).trans (congrArg _ (hens ▸ he)))
      · exact hqmem.trans ((landUnit_mem _ _ _).trans (htlb _ hpages).mem)
  case sfill =>
    obtain ⟨t, ht, hmem⟩ := sfillComplete_keeps id s
    refine ⟨t, ht, hmem, fun c e dst len p hc hp hk he hin hlen => ?_⟩
    obtain rfl := Host.Outcome.next.inj (ht.symm.trans (sfillComplete_eq hc hp hk))
    rw [dropCopy_ensembles]
    exact ⟨(dropCopy_forgets _ id).2, _, (Tab.find?_modify_same _ _ _).trans (congrArg _ he), stageRead_pattern _ hin hlen⟩
  case opld =>
    obtain ⟨t, ht, hmem⟩ := opldComplete_keeps id s
    refine ⟨t, ht, hmem, fun c e b k off src len x hc hp hk he hx => ?_⟩
    obtain rfl := Host.Outcome.next.inj (ht.symm.trans (opldComplete_eq hc hk hp))
    obtain ⟨hgone, E, hE, hslot⟩ := finishCopy_opld (s := s.modEns c.ens (·.loadSlot b k off src len)) hc hk
      ((Tab.find?_modify_same _ _ _).trans (congrArg _ he))
    obtain ⟨hload, hread, hother⟩ := loadSlot_loads (off := off) (src := src) (len := len) hx
    exact ⟨hgone, E, _, hE, (hslot b k).trans hload, rfl, hread, hother⟩
  case contribution =>
    intro pa k href
    exact ⟨_, reduceContribution_eq hc hp hw hpages hfree href, fun hep hroom hk hn => contribute_alone hep hroom hk hn⟩

end Sys2Proof
end
